-- ==== Sys2Proof/Word.lean ====
section
/-! DEFINITION. The word types of the engine and the two sparse containers State is built from: `Tab`, a finite map from
numbers to entries, and `Mem`, a byte memory in which an unlisted address reads 0. Both hold ONE canonical list (keys strictly
rising; in `Mem` no byte equal to 0) together with the proof of its form, so equal contents are equal data. -/
namespace Sys2Proof

/-- A register word (R4). -/
abbrev Word := BitVec 32
/-- A byte of memory or of a frame. -/
abbrev Byte := BitVec 8

/-- The keys of an association list rise strictly. -/
def keysRise {α : Type} : List (Nat × α) → Bool
  | [] => true
  | p :: t => t.all (fun q => decide (p.1 < q.1)) && keysRise t

/-- Put `v` at key `k`, replacing what stood there. -/
def insertAt {α : Type} (k : Nat) (v : α) : List (Nat × α) → List (Nat × α)
  | [] => [(k, v)]
  | p :: t => if k < p.1 then (k, v) :: p :: t else if k = p.1 then (k, v) :: t else p :: insertAt k v t

/-- Take the entry of key `k` out. -/
def eraseAt {α : Type} (k : Nat) : List (Nat × α) → List (Nat × α)
  | [] => []
  | p :: t => if p.1 = k then t else p :: eraseAt k t

/-- The entry of key `k`. -/
def lookAt {α : Type} (k : Nat) : List (Nat × α) → Option α
  | [] => none
  | p :: t => if p.1 = k then some p.2 else lookAt k t

theorem mem_insertAt {α : Type} {k : Nat} {v : α} {q : Nat × α} :
    ∀ {l : List (Nat × α)}, q ∈ insertAt k v l → q = (k, v) ∨ q ∈ l
  | [], h => by simpa [insertAt] using h
  | p :: t, h => by
    unfold insertAt at h
    split at h
    · simpa using h
    · split at h
      · simp at h ⊢; tauto
      · rcases List.mem_cons.1 h with h | h
        · simp [h]
        · rcases mem_insertAt h with h | h <;> simp [h]

theorem keysRise_insertAt {α : Type} (k : Nat) (v : α) :
    ∀ l : List (Nat × α), keysRise l = true → keysRise (insertAt k v l) = true
  | [], _ => by simp [insertAt, keysRise]
  | p :: t, h => by
    simp only [keysRise, Bool.and_eq_true, List.all_eq_true, decide_eq_true_eq] at h
    unfold insertAt
    split
    · rename_i hk
      simp only [keysRise, Bool.and_eq_true, List.all_eq_true, decide_eq_true_eq]
      refine ⟨?_, h⟩
      intro q hq
      rcases List.mem_cons.1 hq with hq | hq
      · simpa [hq] using hk
      · exact lt_trans hk (h.1 q hq)
    · split
      · rename_i hk
        simp only [keysRise, Bool.and_eq_true, List.all_eq_true, decide_eq_true_eq]
        exact ⟨fun q hq => hk ▸ h.1 q hq, h.2⟩
      · rename_i h1 h2
        simp only [keysRise, Bool.and_eq_true, List.all_eq_true, decide_eq_true_eq]
        refine ⟨?_, keysRise_insertAt k v t h.2⟩
        intro q hq
        rcases mem_insertAt hq with hq | hq
        · simp only [hq]; omega
        · exact h.1 q hq

theorem mem_eraseAt {α : Type} {k : Nat} {q : Nat × α} :
    ∀ {l : List (Nat × α)}, q ∈ eraseAt k l → q ∈ l
  | [], h => by simp [eraseAt] at h
  | p :: t, h => by
    unfold eraseAt at h
    split at h
    · exact List.mem_cons_of_mem _ h
    · rcases List.mem_cons.1 h with h | h
      · simp [h]
      · exact List.mem_cons_of_mem _ (mem_eraseAt h)

theorem keysRise_eraseAt {α : Type} (k : Nat) :
    ∀ l : List (Nat × α), keysRise l = true → keysRise (eraseAt k l) = true
  | [], _ => by simp [eraseAt, keysRise]
  | p :: t, h => by
    simp only [keysRise, Bool.and_eq_true, List.all_eq_true, decide_eq_true_eq] at h
    unfold eraseAt
    split
    · exact h.2
    · simp only [keysRise, Bool.and_eq_true, List.all_eq_true, decide_eq_true_eq]
      exact ⟨fun q hq => h.1 q (mem_eraseAt hq), keysRise_eraseAt k t h.2⟩

theorem keysRise_filter {α : Type} (f : Nat × α → Bool) :
    ∀ l : List (Nat × α), keysRise l = true → keysRise (l.filter f) = true
  | [], _ => by simp [keysRise]
  | p :: t, h => by
    simp only [keysRise, Bool.and_eq_true, List.all_eq_true, decide_eq_true_eq] at h
    simp only [List.filter_cons]
    split
    · simp only [keysRise, Bool.and_eq_true, List.all_eq_true, decide_eq_true_eq]
      exact ⟨fun q hq => h.1 q (List.mem_of_mem_filter hq), keysRise_filter f t h.2⟩
    · exact keysRise_filter f t h.2

theorem keysRise_map {α β : Type} (f : α → β) :
    ∀ l : List (Nat × α), keysRise l = true → keysRise (l.map (fun p => (p.1, f p.2))) = true
  | [], _ => rfl
  | p :: t, h => by
    simp only [keysRise, List.map_cons, Bool.and_eq_true, List.all_eq_true, decide_eq_true_eq, List.mem_map, forall_exists_index,
      and_imp] at h ⊢
    refine ⟨?_, keysRise_map f t h.2⟩
    rintro x q hq rfl
    exact h.1 q hq

/-- A finite map from numbers, as its canonical list. -/
structure Tab (α : Type) where
  cells : List (Nat × α)
  ok : keysRise cells = true
deriving DecidableEq, Repr

/-- The map with no entry. -/
def Tab.empty {α : Type} : Tab α := ⟨[], rfl⟩
/-- The entry of key `k`. -/
def Tab.get? {α : Type} (t : Tab α) (k : Nat) : Option α := lookAt k t.cells
/-- The entry of key `k`, or `a` where there is none. -/
def Tab.getD {α : Type} (t : Tab α) (k : Nat) (a : α) : α := (t.get? k).getD a
/-- Put `v` at key `k`. -/
def Tab.put {α : Type} (t : Tab α) (k : Nat) (v : α) : Tab α := ⟨insertAt k v t.cells, keysRise_insertAt k v _ t.ok⟩
/-- Take the entry of key `k` out. -/
def Tab.erase {α : Type} (t : Tab α) (k : Nat) : Tab α := ⟨eraseAt k t.cells, keysRise_eraseAt k _ t.ok⟩
/-- Keep the entries `f` accepts. -/
def Tab.keep {α : Type} (t : Tab α) (f : Nat × α → Bool) : Tab α := ⟨t.cells.filter f, keysRise_filter f _ t.ok⟩

/-- Change every entry. -/
def Tab.map {α β : Type} (t : Tab α) (f : α → β) : Tab β := ⟨t.cells.map (fun p => (p.1, f p.2)), keysRise_map f _ t.ok⟩

/-- Put an entry whose absence stands for `zero`. -/
def Tab.set0 {α : Type} [DecidableEq α] (t : Tab α) (zero : α) (k : Nat) (v : α) : Tab α := if v = zero then t.erase k else t.put k v

/-- The form of a byte memory: addresses strictly rising, and no entry equal to 0, what an unlisted address reads as. -/
def memWf (l : List (Nat × Byte)) : Bool := keysRise l && l.all (fun p => p.2 != 0)

/-- Store byte `b` at address `a`: a stored 0 removes the entry. -/
def storeAt (a : Nat) (b : Byte) (l : List (Nat × Byte)) : List (Nat × Byte) :=
  if b = 0 then eraseAt a l else insertAt a b l

theorem memWf_storeAt (a : Nat) (b : Byte) (l : List (Nat × Byte)) (h : memWf l = true) : memWf (storeAt a b l) = true := by
  simp only [memWf, Bool.and_eq_true, List.all_eq_true] at h ⊢
  unfold storeAt
  split
  · exact ⟨keysRise_eraseAt _ _ h.1, fun p hp => h.2 p (mem_eraseAt hp)⟩
  · rename_i hb
    refine ⟨keysRise_insertAt _ _ _ h.1, fun p hp => ?_⟩
    rcases mem_insertAt hp with hp | hp
    · simpa [hp] using hb
    · exact h.2 p hp

theorem memWf_filter (f : Nat × Byte → Bool) (l : List (Nat × Byte)) (h : memWf l = true) : memWf (l.filter f) = true := by
  simp only [memWf, Bool.and_eq_true, List.all_eq_true] at h ⊢
  exact ⟨keysRise_filter f l h.1, fun p hp => h.2 p (List.mem_of_mem_filter hp)⟩

/-- A byte memory as its canonical list. -/
structure Mem where
  cells : List (Nat × Byte)
  ok : memWf cells = true
deriving DecidableEq, Repr

/-- The memory with every byte 0. -/
def Mem.empty : Mem := ⟨[], rfl⟩
/-- The byte at address `a`. -/
def Mem.byte (m : Mem) (a : Nat) : Byte := (lookAt a m.cells).getD 0
/-- Store one byte. -/
def Mem.store (m : Mem) (a : Nat) (b : Byte) : Mem := ⟨storeAt a b m.cells, memWf_storeAt a b _ m.ok⟩
/-- Keep the bytes whose address `f` accepts; the others become 0. -/
def Mem.keep (m : Mem) (f : Nat → Bool) : Mem := ⟨m.cells.filter (fun p => f p.1), memWf_filter _ _ m.ok⟩
/-- `n` bytes from address `a` up. -/
def Mem.bytes (m : Mem) (a n : Nat) : List Byte := (List.range n).map (fun i => m.byte (a + i))
/-- Store bytes from address `a` up. -/
def Mem.storeBytes (m : Mem) (a : Nat) : List Byte → Mem
  | [] => m
  | b :: t => (m.store a b).storeBytes (a + 1) t

/-- The number whose little-endian bytes are `l` (R12). -/
def leNat : List Byte → Nat
  | [] => 0
  | b :: t => b.toNat + 256 * leNat t
/-- The `n` little-endian bytes of `v` (R12). -/
def leBytes : Nat → Nat → List Byte
  | 0, _ => []
  | n + 1, v => BitVec.ofNat 8 v :: leBytes n (v / 256)
/-- The `n` big-endian bytes of `v`. -/
def beBytes (n v : Nat) : List Byte := (leBytes n v).reverse
/-- The number whose big-endian bytes are `l`. -/
def beNat (l : List Byte) : Nat := leNat l.reverse

/-- Bits `lo + len - 1` down to `lo` of a number. -/
def bits (v lo len : Nat) : Nat := v / 2 ^ lo % 2 ^ len
/-- The signed reading of the low `w` bits. -/
def signed (w v : Nat) : Int := if v % 2 ^ w < 2 ^ (w - 1) then (v % 2 ^ w : Nat) else (v % 2 ^ w : Nat) - (2 ^ w : Nat)
/-- The `w`-bit two's-complement pattern of an integer. -/
def unsigned (w : Nat) (i : Int) : Nat := (i % (2 ^ w : Nat)).toNat
/-- An integer limited to `lo`–`hi`. -/
def clampInt (lo hi i : Int) : Int := if i < lo then lo else if hi < i then hi else i
/-- The smallest multiple of `m` at or above `n`. -/
def roundUp (n m : Nat) : Nat := (n + m - 1) / m * m

/-- The field of `len` bits at bit `lo` of a register word. -/
def Word.field (w : Word) (lo len : Nat) : Nat := bits w.toNat lo len
/-- The word with that field replaced by the low bits of `v`. -/
def Word.setField (w : Word) (lo len v : Nat) : Word :=
  (w &&& ~~~(BitVec.ofNat 32 ((2 ^ len - 1) * 2 ^ lo))) ||| BitVec.ofNat 32 (v % 2 ^ len * 2 ^ lo)

end Sys2Proof
end

