-- ==== Sys2Proof/Machine/Operands.lean ====
section
/-! DEFINITION. The operands of the commands that are more than a number: what the world outside the block hands over with an event. -/
namespace Sys2Proof.Machine

/-- The engine blocks that may drive a halyard by an enable bit (R43). -/
inductive DriverSel where
  /-- The overrange detector of an input. -/
  | overrange (n : Fin 8)
  /-- A TDC input. -/
  | tdc (n : Fin 20)
  /-- A frame core. -/
  | frameCore (n : Fin 16)
  /-- Stay-link receive. -/
  | stay
deriving DecidableEq, Repr

/-- A row of a stone macro (R363): 32,768 words in 8 banks of 64 rows. -/
structure StoneRow where
  macro_ : Fin 256
  bank : Fin 8
  row : Fin 64
deriving DecidableEq, Repr

/-- A read error in an element of a descriptor (R337): the element, its first failing byte, and the stone's row when the byte was still in the
stone (R326). -/
structure ReadFail where
  elem : Nat
  off : Nat
  row : Option StoneRow
deriving DecidableEq, Repr

/-- A record that reaches the galley for the run of a section: `count` units, made of the ADC codes that the converter port delivered for them (of a
playback channel: of the codes in its ring). -/
structure DataRecord where
  count : Nat
  samples : List (BitVec 12)
  /-- The stone has no space for the record (R326). -/
  stoneFull : Bool
  /-- Rows of the stone that gave an uncorrectable error when records were read out of it (R326, R363). -/
  rows : List StoneRow
deriving DecidableEq, Repr

/-- The composing clocks of an input that its overrange detector has just looked at, 32 lanes each, oldest first (R77). -/
structure InputClocks where
  n : Fin 8
  clocks : List (BitVec 384)
deriving DecidableEq, Repr

/-- The phase errors of a loop's last reference cycles in ps, oldest first; none: a missing edge (R125). -/
structure LoopEdges where
  p : Fin 29
  errs : List (Option Int)
deriving DecidableEq, Repr

/-- Outputs of a channel up to output `j`, made of the ADC codes of their spans (R156). -/
structure OutputRun where
  j : Nat
  samples : List (BitVec 12)
deriving DecidableEq, Repr

/-- What a source slot of a trigger unit receives (R227, R229–R234). -/
inductive SlotEvent where
  /-- LEVEL: channel outputs `j` − `n` to `j`, made of the ADC codes of their spans. -/
  | level (n j : Nat) (samples : List (BitVec 12))
  /-- MASK: spectrum frame `f` of the XFRM on input port 1, made of the ADC codes of its span. -/
  | frame (f : Nat) (samples : List (BitVec 12))
  /-- DENSITY: a density frame of the DENS on input port 2 has closed. -/
  | density (f : Nat)
  /-- HALYARD, EVENT, CUE, REMOTE or SOFTWARE: an event at a TIMESTAMP96, with the origin station and trigger id of its tag. -/
  | timed (time station originId : Nat)
deriving DecidableEq, Repr

/-- What a freezing channel captures (R354). -/
structure FreezeCapture where
  parity : Bool
  scrub : Bool
  syndrome : Word
  addr : BitVec 38
  /-- The last commands, newest first: command and bank and row word, column and age word. -/
  log : List (Word × Word)
deriving DecidableEq, Repr

/-- What a start-up step finds on this unit (R461): the step reads the part of it that is its own. -/
structure StartupResult where
  /-- Duration of the step, in composing clocks (1 ns). -/
  clocks : Nat
  /-- The eye words of the channels as trained (R352). -/
  eyes : List Word
  /-- Rows (unit, bank, row) the march repaired, and units it retired (R361, R362). -/
  rows : List (Nat × Nat × Nat)
  units : List Nat
deriving DecidableEq, Repr

/-- What the reef comparators read (R463): the die temperature in 1/16 °C and I_N in mA. -/
structure PowerReading where
  temp : Int
  ma : Nat
deriving DecidableEq, Repr

/-- What Identify and queue creation find on a drive (R370, R371): whether it qualifies, namespace size in LBAs, LBA and transfer size
(log2), serial number, percentage used. -/
structure DriveInfo where
  qualifies : Bool
  lbas : Nat
  lbaLog2 : Nat
  mdtsLog2 : Nat
  serial : List Byte
  used : Nat
deriving DecidableEq, Repr

/-- A control frame that reached a sub-port (R391): IPv6, source MAC and address, source port, and the UDP payload. -/
structure CtlFrame where
  v6 : Bool
  mac : Nat
  addr : Nat
  port : Nat
  payload : List Byte
deriving DecidableEq, Repr

/-- The segment a station finds itself in (R402, R407): the stations, 0 alone, 1 chain, 2 ring, the link and the hops to each other
station, and the generation of the segment joined at a merge. -/
structure SegInfo where
  mask : BitVec 32
  topo : Fin 3
  via : List (Nat × Nat × Nat)
  gen : Nat
deriving DecidableEq, Repr

end Sys2Proof.Machine
end

