-- ==== Sys2Proof/Syntax.lean ====
section
/-! DEFINITION. The commands of the engine: one constructor per row of the opcode table, with the operands the row needs. Index
operands are `Fin`, so an index out of range cannot be written down. An operand that stands for the outside world (a measured
value, a received frame, a sampled code) is data the environment gives. -/
namespace Sys2Proof
open Sys2Proof.Machine

/-- The commands. Each docstring is the row's summary and its rule. -/
inductive Instr where
  /-- A host write to a register that has no row of its own stores, sets or clears bits by its access code; writes to unassigned offsets are ignored (R7). -/
  | registerWrite (off : BitVec 26) (v : Word)
  /-- A BAR0 write narrower than 32 bits is discarded, counted in SYS_ACCESS_ERR, captured and raises G0 source 7 (R483). -/
  | narrowWrite (off : BitVec 26)
  /-- A 64-bit access at a 4-byte-aligned offset is carried out as two 32-bit accesses, the lower offset first (R4). -/
  | access64bit (isWrite : Bool) (off : BitVec 26) (v : BitVec 64)
  /-- A read of an RC field returns the stored value and clears it; an update on the same clock is kept for the next read (R8). -/
  | readClear (off : BitVec 26)
  /-- Every 2^16 composing clocks from alignment an anchor tick occurs, at which rates, pairings and anchors take effect (R20). -/
  | anchorTick
  /-- FMR_IMG CMD VERIFY locks the image pages and starts verification of the slot, or returns BUSY (R497). -/
  | verify (k : Fin 2)
  /-- Verification ends after the image length / 4 GB/s, leaving the slot VERIFIED or REJECTED with a code, and raises G7 (R52). -/
  | verifyEnd (k : Fin 2)
  /-- FMR_IMG CMD RELEASE empties the slot and unlocks its pages, or is refused with BUSY under R54 (R497). -/
  | imageRelease (k : Fin 2)
  /-- A write of FMR_CTRL.GOVERN changes the governing slot at the next composing clock (R55). -/
  | governWrite (k : Fin 2)
  /-- Section OP LOAD checks halt, reef and slot and starts or queues a load that makes the section dark (R59). -/
  | load (i : Fin 128) (k : Fin 2)
  /-- LOAD with SUPERSEDE abandons a running load of the section and starts a new one (R59). -/
  | loadSupersede (i : Fin 128) (k : Fin 2)
  /-- A queued load begins once the previous load of another section has ended (R61). -/
  | queuedLoadStart
  /-- A load completes, its checks decide ACTIVE or ABSENT with a code, and the section leaves dark on the next clock (R61). -/
  | loadComplete
  /-- Section OP UNLOAD makes the section ABSENT and ends its runs without a gap (R59). -/
  | unload (i : Fin 128)
  /-- Section OP HOLD_DARK moves an ACTIVE section to HELD, dark with placement and halyards kept (R59). -/
  | holdDark (i : Fin 128)
  /-- Section OP RELEASE returns a HELD section to ACTIVE with its state cleared by reset (R59). -/
  | sectionRelease (i : Fin 128)
  /-- Section OP KNOB_HOLD starts holding knob writes to the section (R64). -/
  | knobHold (i : Fin 128)
  /-- Section OP KNOB_APPLY applies all held knob values on one composing clock and clears KNOB_HOLD (R64). -/
  | knobApply (i : Fin 128)
  /-- A knob write is checked and takes effect at the next composing-clock boundary, or is refused and counted (R63). -/
  | knobWrite (i : Fin 128) (off : BitVec 17) (v : Word)
  /-- A write enabling a block's halyard drive is recorded, or ignored with HAL_CONFLICT when another driver holds the halyard (R43). -/
  | halyardDriverEnable (b : DriverSel) (h : Fin 64)
  /-- A halyard event reaches every tap 3 clocks after its driver, after merging of same-clock events (R41). -/
  | halyardArrival
  /-- CNV CMD START starts an input at the next composing-clock boundary and writes a start anchor, or is refused with a code (R89). -/
  | cnvStart (n : Fin 8)
  /-- CNV CMD STOP stops an input at the next boundary, ending its runs without a gap or turning a slot into CALIBRATING (R89). -/
  | cnvStop (n : Fin 8)
  /-- A write of CNV_CTRL.PAIRED requests, cancels or ignores a pairing change and sets PAIR_PENDING (R90). -/
  | pairingRequest (n : Fin 8) (v : Word)
  /-- A write of CNV_ATTEN changes the attenuator at the next boundary and writes a context record, or is held during calibration (R70). -/
  | attenWrite (n : Fin 8) (v : Word)
  /-- Setting or clearing OVR_BLANK starts or ends blanking at the next clock (R81). -/
  | ovrBlankChange (n : Fin 8) (on : Bool)
  /-- On the DWELL-th consecutive over clock the detector declares overrange, counts, raises G6 and may drive a halyard (R80). -/
  | overrangeDeclared (n : Fin 8) (clocks : List (BitVec 384))
  /-- After RELEASE consecutive clean clocks the detector releases and blanking ends on the following clock (R77). -/
  | overrangeRelease (o : InputClocks)
  /-- At the end of a 2^24-sample window the background monitor updates slot estimates and flags slots over their limits (R85). -/
  | monitorWindowEnd (n : Fin 8) (sumsq : Nat) (est : List (Int × Int × Int))
  /-- CAL_CMD OP CAL moves a STOPPED input to CALIBRATING with its switch at TONE and queues it, or refuses it (R108). -/
  | calRequest (n : Fin 8)
  /-- CAL_CMD OP ACCEPT makes the next or current calibration of the input skip the DELTA check (R105). -/
  | accept (n : Fin 8)
  /-- A queued calibration begins measuring when the measurement engine becomes free (R108). -/
  | calMeasureStart
  /-- The 2 ms switch-and-settle before stage 3 ends and the first converter stage begins (R99). -/
  | calSettleEnd
  /-- A calibration stage ends, its results are checked against window and DELTA, and the next stage starts (R99). -/
  | calStageEnd (res : List Int)
  /-- The archive generation write completes, the input enters STOPPED and G6 sources report the calibration end (R106). -/
  | archiveWriteEnd (ok : Bool) (temps : List Int)
  /-- The calibration switch returns after the fixed slot length, new trims take effect and the input returns to RUNNING (R109). -/
  | slotReturn (n : Fin 8)
  /-- The die temperature near an input differs from its calibration temperature by more than the limit and G6 source 28 is raised once (R112). -/
  | tempDriftDetect (n : Fin 8) (t : Int)
  /-- Every 1 ms the crystal temperature term is recomputed from XTL_TC (R117). -/
  | xtlTempUpdate (t : Int)
  /-- Every 86.4 s the ageing accumulator adds XTL_AGE_RATE into XTL_AGE (R118). -/
  | xtlAgeUpdate
  /-- Once a day XTL_AGE and XTL_AGE_RATE are written to the non-volatile store (R118). -/
  | xtlDailyStore
  /-- A write of XTL_CTRL.MODE changes who steers the crystal within 1 ms (R119). -/
  | xtlModeWrite (v : Word)
  /-- A write of XTL_TUNE changes the tuning term within 1 ms in modes FREE and PTP (R119). -/
  | xtlTuneWrite (v : Word)
  /-- A write of XTL_AGE or XTL_AGE_RATE takes effect within 1 ms (R118). -/
  | xtlAgeWrite (rate : Bool) (v : Word)
  /-- A 1 ms gate finds REF IN within ±50 ppm and qualifies it (R120). -/
  | refQualified (hundred : Bool)
  /-- Missing REF IN edges or a failed gate disqualify REF IN and loop 28 enters HOLDOVER (R120). -/
  | refDisqualified
  /-- CLK_PLL_CTRL.RELOCK starts a new band search of an LO loop, or is refused (R124). -/
  | relock (p : Fin 29)
  /-- CLK_PLL_CTRL.EN = 1 on an LO loop moves it from OFF to SEARCH (R127). -/
  | pllEnable (p : Fin 29)
  /-- CLK_PLL_CTRL.EN = 0 on an LO loop turns it OFF with the output muted (R127). -/
  | pllDisable (p : Fin 29)
  /-- A 40 µs band search ends with a band chosen (ACQUIRE) or none within ±3 % (FAULT) (R124). -/
  | bandSearchEnd (p : Fin 28) (freqs : List Nat)
  /-- A loop meets the lock rule over CYCLES reference cycles and enters LOCKED (R125). -/
  | lockDeclared (o : LoopEdges)
  /-- A loop exceeds UNLOCK or misses edges for CYCLES cycles and enters HOLDOVER or BYPASS by class (R125). -/
  | lossOfLock (o : LoopEdges)
  /-- The elastic buffer offset reaches 56 on a running input, which is stopped as by STOP (R131). -/
  | ebufSlipStop (n : Fin 8) (fill : Int)
  /-- LO command START validates the profile from segment s and runs segment s, or is refused (R137). -/
  | loStart (i : Fin 4) (seg : Fin 256)
  /-- LO command STEP releases a WAITING segment or is latched or dropped (R137). -/
  | loStep (i : Fin 4)
  /-- LO command HOLD freezes the frequency and pauses the segment count (R137). -/
  | loHold (i : Fin 4)
  /-- LO command RESUME continues the paused segment (R137). -/
  | loResume (i : Fin 4)
  /-- LO command STOP puts the profile in IDLE holding the current frequency (R137). -/
  | loStop (i : Fin 4)
  /-- A STEP dwell or RAMP duration runs out and the next segment begins, searching, waiting or ending (R136). -/
  | segmentEnd (i : Fin 4)
  /-- A write to an LO profile window takes effect or is discarded and counted while the profile runs (R138). -/
  | profileWrite (i : Fin 4) (k : Fin 2048) (v : Word)
  /-- CHAN CMD START checks the configuration and starts a run with a context record, or is refused with a code (R147). -/
  | chanStart (i : Fin 128)
  /-- CHAN CMD STOP ends the run at its last output without a gap (R142). -/
  | chanStop (i : Fin 128)
  /-- A running write of INPUT_SEL switches the channel's input under the retune rules, or is refused (R144). -/
  | inputSwitch (i : Fin 128) (v : Fin 9)
  /-- A write of NCO_HI applies both tuning-word halves, a retune with a context record (R146). -/
  | ncoHiWrite (i : Fin 128) (v : BitVec 16)
  /-- After THR_MIN consecutive outputs at or above THR_UP the channel enters the high state and raises event 0 (R156). -/
  | thresholdEnter (i : Fin 128) (o : OutputRun)
  /-- After THR_MIN consecutive outputs below THR_LO the channel leaves the high state and raises event 1 (R156). -/
  | thresholdLeave (i : Fin 128) (o : OutputRun)
  /-- XFRM CMD START checks size, window, budget and input and starts the frame grid, or is refused (R170). -/
  | xfrmStart (i : Fin 128)
  /-- XFRM CMD STOP ends the run (R167). -/
  | xfrmStop (i : Fin 128)
  /-- WIN_CMD = 1 starts copying a user window table from a ring, or is refused with STATE (R172). -/
  | windowLoad (i : Fin 128)
  /-- The window copy completes, CG and ENBW are computed, or the load ends with WINDOW (R172). -/
  | windowLoadEnd (i : Fin 128)
  /-- TRACE CMD START binds trace 0 to the next XFRM frame, or is refused (R183). -/
  | traceStart (i : Fin 128)
  /-- TRACE CMD STOP ends the run at the last complete trace (R183). -/
  | traceStop (i : Fin 128)
  /-- The interval of F frames of trace t ends and the trace is written as a record or a gap (R190). -/
  | traceComplete (i : Fin 128) (t : Nat) (samples : List (BitVec 12))
  /-- Core CMD START runs a frame or tile core from its start PC (R222). -/
  | coreStart (c : Fin 144)
  /-- Core CMD STOP stops the core at the next instruction boundary (R222). -/
  | coreStop (c : Fin 144)
  /-- Core CMD STEP executes one instruction of a halted or stopped core (R222). -/
  | coreStep (c : Fin 144)
  /-- Core CMD RESET clears registers and abandons any deposit (R222). -/
  | coreReset (c : Fin 16)
  /-- A host write of 1 to CORE_DB sets doorbell bits of a frame core (R221). -/
  | doorbellRing (c : Fin 16) (hi : Bool) (v : Word)
  /-- Instruction NOP does nothing beyond its memory slots and update (R204). -/
  | nop (c : Fin 144)
  /-- Instruction ADD writes the wrapping sum of two registers (R204). -/
  | add (c : Fin 144)
  /-- Instruction SUB writes the wrapping difference of two registers (R204). -/
  | sub (c : Fin 144)
  /-- Instruction ADDS writes the saturating sum, setting SR.SAT on saturation (R204). -/
  | adds (c : Fin 144)
  /-- Instruction SUBS writes the saturating difference (R204). -/
  | subs (c : Fin 144)
  /-- Instruction AND writes the bitwise and (R204). -/
  | and (c : Fin 144)
  /-- Instruction OR writes the bitwise or (R204). -/
  | or (c : Fin 144)
  /-- Instruction XOR writes the bitwise exclusive or (R204). -/
  | xor (c : Fin 144)
  /-- Instruction SHL shifts left by d[S2] mod 32 (R204). -/
  | shl (c : Fin 144)
  /-- Instruction SHR shifts right logically (R204). -/
  | shr (c : Fin 144)
  /-- Instruction SRA shifts right arithmetically (R204). -/
  | sra (c : Fin 144)
  /-- Instruction MIN writes the signed minimum (R204). -/
  | min (c : Fin 144)
  /-- Instruction MAX writes the signed maximum (R204). -/
  | max (c : Fin 144)
  /-- Instruction ABS writes the saturating absolute value (R204). -/
  | abs (c : Fin 144)
  /-- Instruction CMPLT writes 1 when d[S1] < d[S2] signed (R204). -/
  | cmplt (c : Fin 144)
  /-- Instruction CMPEQ writes 1 when the registers are equal (R204). -/
  | cmpeq (c : Fin 144)
  /-- Instruction MUL writes the low 32 bits of the product after 3 slots (R204). -/
  | mul (c : Fin 144)
  /-- Instruction MAC adds a 64-bit product into an accumulator (R204). -/
  | mac (c : Fin 144)
  /-- Instruction MSU subtracts a product from an accumulator (R204). -/
  | msu (c : Fin 144)
  /-- Instruction MACZ sets an accumulator to a product (R204). -/
  | macz (c : Fin 144)
  /-- Instruction MAC2 adds the products of both signed 16-bit halves (R204). -/
  | mac2 (c : Fin 144)
  /-- Instruction MOVS writes the shifted, rounded, saturated accumulator and updates SR.LAST and SR.NEED (R207). -/
  | movs (c : Fin 144)
  /-- Instruction MOVAL reads accumulator bits 31:0 (R204). -/
  | moval (c : Fin 144)
  /-- Instruction MOVAH reads accumulator bits 63:32 (R204). -/
  | movah (c : Fin 144)
  /-- Instruction MOVAG reads accumulator guard bits sign-extended (R204). -/
  | movag (c : Fin 144)
  /-- Instruction ACCSET loads an accumulator from two registers (R204). -/
  | accset (c : Fin 144)
  /-- Instruction SADOPT moves SR.NEED into SR.SHIFT and clears NEED (R207). -/
  | sadopt (c : Fin 144)
  /-- Instruction DIVS performs one non-restoring division step (R208). -/
  | divs (c : Fin 144)
  /-- Instruction MOVR reads a control register (R214). -/
  | movr (c : Fin 144)
  /-- Instruction MOVW writes a control register, including fetch and deposit starts and doorbell clears (R214). -/
  | movw (c : Fin 144)
  /-- Instruction MOVAD loads an address register from a data register (R204). -/
  | movad (c : Fin 144)
  /-- Instruction MOVDA reads an address register into a data register (R204). -/
  | movda (c : Fin 144)
  /-- Instruction VMAXI starts a stalling search for the largest element of a vector (R209). -/
  | vmaxi (c : Fin 144)
  /-- Instruction VMINI starts a stalling search for the smallest element of a vector (R209). -/
  | vmini (c : Fin 144)
  /-- After ⌈len/2⌉ + 4 clocks a vector search writes value and index and issue resumes (R209). -/
  | searchDone (c : Fin 16)
  /-- Instruction WAIT completes at once when a masked condition holds, or enters WAITING (R210). -/
  | wait (c : Fin 144)
  /-- A masked condition arrives while a core waits and the core resumes with the conditions written (R210). -/
  | waitWake (c : Fin 144)
  /-- A tile-core stream read or write stalled on an empty or full queue proceeds (R212). -/
  | streamStallEnd (t : Fin 128) (in0 : List (BitVec 64)) (in1 : List (BitVec 64)) (taken0 : Nat) (taken1 : Nat)
  /-- Instruction SIG drives the core's halyard output at a position (R216). -/
  | sig (c : Fin 144)
  /-- Instruction POST writes a word to a post channel, visible to trigger units within 2 clocks (R220). -/
  | post (c : Fin 144)
  /-- Instruction SWI raises a software event (section event 14 or G39 source 16 + n) (R216). -/
  | swi (c : Fin 144)
  /-- Instruction RET returns to LR, costing 2 clocks (R204). -/
  | ret (c : Fin 144)
  /-- Instruction HALT puts the core in HALTED (R204). -/
  | halt (c : Fin 144)
  /-- Instruction MOVI loads an immediate (R204). -/
  | movi (c : Fin 144)
  /-- Instruction ADDI adds an immediate (R204). -/
  | addi (c : Fin 144)
  /-- Instruction MOVIA loads an address, base or length register (R204). -/
  | movia (c : Fin 144)
  /-- Instruction BR branches unconditionally (R206). -/
  | br (c : Fin 144)
  /-- Instruction BRZ branches when a register is zero (R204). -/
  | brz (c : Fin 144)
  /-- Instruction BRNZ branches when a register is non-zero (R204). -/
  | brnz (c : Fin 144)
  /-- Instruction BRNEG branches when a register is negative (R204). -/
  | brneg (c : Fin 144)
  /-- Instruction CALL saves PC + 1 in LR and branches (R204). -/
  | call (c : Fin 144)
  /-- Instruction LOOP pushes a hardware loop of L instructions and a count (R211). -/
  | loop (c : Fin 144)
  /-- A loop iteration ends, the count decrements and a rotating loop moves the conveyor (R200). -/
  | loopIterationEnd (c : Fin 144)
  /-- The fetch unit copies the next fitting record to core memory and raises fetch done (R218). -/
  | fetchDone (c : Fin 16)
  /-- The deposit unit appends the record when ring space exists and raises deposit done (R219). -/
  | depositDone (c : Fin 16)
  /-- TRIG CMD ARM checks sources, mask, budget, id and deadline and arms the unit, or refuses (R243). -/
  | trigArm (i : Fin 128)
  /-- TRIG CMD DISARM returns the unit to DISARMED, leaving pending captures to resolve (R226). -/
  | trigDisarm (i : Fin 128)
  /-- TRIG CMD SOFTWARE is a SOFTWARE-slot event at the next composing-clock boundary (R227). -/
  | trigSoftware (i : Fin 128)
  /-- MASK_CMD = 1 starts expanding a frequency mask table, or is refused with STATE (R232). -/
  | maskLoad (i : Fin 128)
  /-- The mask expansion ends, putting the mask in force or ending with MASK (R232). -/
  | maskLoadEnd (i : Fin 128)
  /-- A slot event or combination completes a stage-1 condition and the unit decides, creating a pending capture (R226). -/
  | stage1Decision (i : Fin 128) (slot : Fin 4) (ev : SlotEvent)
  /-- A stage-2 slot event confirms or retracts matching pending captures (R236). -/
  | stage2Event (i : Fin 128) (slot : Fin 4) (ev : SlotEvent)
  /-- A pending capture reaches its deadline unresolved and is EXPIRED, kept or retracted (R238). -/
  | deadlineExpiry (i : Fin 128)
  /-- The hold-off interval or count runs out and the unit returns to ARMED (R240). -/
  | trigHoldoffEnd (i : Fin 128)
  /-- RAWC CMD START begins a continuous run or triggered history writing, or is refused (R257). -/
  | rawcStart (i : Fin 128)
  /-- RAWC CMD STOP ends a continuous run, or sets STOPPING on a triggered one (R258). -/
  | rawcStop (i : Fin 128)
  /-- The last post-trigger unit of a confirmed capture is written and the close record follows (R247). -/
  | captureClose (i : Fin 128)
  /-- A write of AXS_AX_CFG.EN enables an axis; re-enabling AX3 is a restart and a jump (R266). -/
  | axisEnable (a : Fin 4) (v : Word)
  /-- An encoder edge enters its axis 24 ns after its stamp, updating count, direction and velocity (R263). -/
  | encoderEdgeEntry (a : Fin 2)
  /-- An index edge latches the live value and, after HOME, sets the position to AXS_AX_HOME as a jump (R264). -/
  | indexEdge (a : Fin 2)
  /-- AXS_AX_CMD.HOME arms homing at the next index edge (R264). -/
  | home (a : Fin 2)
  /-- A reference edge of the AX3 input updates the periodic-phase loop (R266). -/
  | ax3Edge (mHz : Nat)
  /-- The AX3 loop meets the lock rule and enters LOCKED (R266). -/
  | ax3Lock
  /-- The AX3 loop loses lock and enters HOLDOVER, abandoning its PREPARED cues (R266). -/
  | ax3Loss
  /-- A write of a cue word 0x08 with ARMED = 1 checks the entry and puts it in WAITING or FAILED (R270). -/
  | cueArm (e : Fin 4096) (word : Word)
  /-- A write of word 0x08 with ARMED = 0 to an armed entry returns it to IDLE, abandoning a preparation (R270). -/
  | cueDisarm (e : Fin 4096)
  /-- A write of CUE_GRP_EN enables or disables cue groups, abandoning PREPARED cues of disabled groups (R273). -/
  | groupEnableWrite (k : Fin 8) (v : Word)
  /-- Every 64 composing clocks the engine predicts WAITING cues' crossings and prepares those within their lead (R273). -/
  | cuePredict
  /-- No crossing by the predicted time plus tolerance abandons a PREPARED cue (R273). -/
  | cueToleranceExpiry (e : Fin 4096)
  /-- An axis crosses a cue's COMPARE and a prepared cue commits on the first boundary, repeats or goes DONE (R275). -/
  | cueCrossing (e : Fin 4096)
  /-- A cue that crossed without preparation commits 8 clocks later and counts as late (R275). -/
  | lateCommit (e : Fin 4096)
  /-- Within 4 µs of a latch the snapshot record is written to its ring and the bank freed (R280). -/
  | snapshotRecord
  /-- TIM_CMD NEW_EPOCH opens a new epoch with a step available, or is refused (R288). -/
  | timNewEpoch
  /-- TIM_CMD STEP sets or offsets the local clock on one cycle and spends the epoch's step, or is refused (R289). -/
  | timStep (mode : Bool)
  /-- A write of TIM_RATE_HI commits the rate as pending, or refuses it with RANGE (R285). -/
  | rateCommit (hi : Word)
  /-- A read of TIM_NOW_FRAC latches the nanoseconds and seconds of the same cycle (R286). -/
  | timNowRead
  /-- A received Ethernet frame is stamped, filtered, handled on the fast path or queued to the slow path (R389). -/
  | ethRxFrame (q : Fin 16) (bytes : List Byte)
  /-- A frame requesting a stamp leaves and its stamp is queued, or lost when the queue is full (R297). -/
  | ptpTxStamp (q : Fin 16)
  /-- PTP_TXQ_POP removes the head transmit-stamp entry (R297). -/
  | txqPop (q : Fin 16)
  /-- A launch queue's head frame reaches its launch time and is sent, or dropped or flagged late (R299). -/
  | launchTime (p : Fin 4) (k : Fin 8)
  /-- The host advances a slow-path receive queue tail (R390). -/
  | spRxTailWrite (q : Fin 16) (tail : Word) (stores : List (Nat × List Byte))
  /-- The host advances a slow-path transmit queue tail and frames are sent or queued for launch (R390). -/
  | spTxTailWrite (q : Fin 16) (tail : Word) (stores : List (Nat × List Byte))
  /-- An accepted edge on a TDC input is stamped, numbered and queued, feeding axes, units and halyards (R302). -/
  | eventEdge (n : Fin 20) (falling : Bool) (bin : Fin 512)
  /-- TDC_IN_BATCH_NS after its first event an event batch closes and is written (R303). -/
  | batchTimeout (n : Fin 20)
  /-- TDC_IN_POP removes the head stamp of an input queue (R303). -/
  | tdcPop (n : Fin 20)
  /-- TDC_M_CMD START begins a measurement (R306). -/
  | tdcMStart (u : Fin 8)
  /-- TDC_M_CMD ABORT aborts a measurement (R306). -/
  | tdcMAbort (u : Fin 8)
  /-- A FREQUENCY gate ends and the fit is computed or ends with FEW (R306). -/
  | gateEnd (u : Fin 8)
  /-- A write of MRK_TIME_SEC_HI arms a scheduled or periodic marker, or drops it under R309 (R308). -/
  | markerArm (n : Fin 8) (hi : Word)
  /-- A marker pulse placement time is reached and its pulse leaves the land 40 ns later (R308). -/
  | markerPlacement (n : Fin 8)
  /-- A complete record from the stone is placed at WR, written and published, or handled as not fitting (R321). -/
  | recordPublish (i : Fin 128) (r : DataRecord)
  /-- GAL_RING_CFG.EN = 1 checks the map range and turns the ring ON, or fails with MAP (R325). -/
  | ringEnable (r : Fin 1024)
  /-- GAL_RING_CFG.EN = 0 turns the ring OFF or is refused with BUSY (R325). -/
  | ringDisable (r : Fin 1024)
  /-- A write of GAL_RING_RD_HI commits the host read pointer, freeing space (R319). -/
  | hostRdWrite (r : Fin 1024) (hi : Word)
  /-- A write of GAL_RING_WR_HI walks host-placed records and publishes them, or is ignored (R324). -/
  | hostWrPublish (r : Fin 1024) (hi : Word)
  /-- A write of GAL_MAP_HI stores a map entry and invalidates its cache copy, or is refused with BUSY (R327). -/
  | mapEntryWrite (hi : Word)
  /-- A host BAR2 read reaches the galley through the map, returning all ones on invalid or faulting entries (R324). -/
  | bar2Read (a : BitVec 38)
  /-- A host BAR2 write reaches the galley, discarded on invalid entries or locked image pages (R324). -/
  | bar2Write (a : BitVec 38) (v : Word)
  /-- MOV_CMD START runs a mover from its head or waiting descriptor (R341). -/
  | movStart (m : Fin 64) (stores : List (Nat × List Byte))
  /-- MOV_CMD STOP moves a running mover to STOPPING, or is refused with OWNED (R341). -/
  | movStop (m : Fin 64)
  /-- MOV_CMD RESET stops the mover, writing back the current descriptor with unrun elements NOT_RUN (R341). -/
  | movReset (m : Fin 64) (ran : Fin 16)
  /-- A mover completes a descriptor's elements and writes it back, continuing, going IDLE or STOPPED (R336). -/
  | descriptorDone (m : Fin 64) (fails : List ReadFail)
  /-- A channel's refresh interval expires and it issues an all-bank refresh (R349). -/
  | refresh (slot : Fin 64)
  /-- Every 1 ms each DRAM die temperature is read and the refresh interval adjusted (R349). -/
  | dramTempRead (temps : List Int)
  /-- In IDLE the galley's latency tolerance exceeds 2 µs and active channels enter self-refresh (R350). -/
  | selfRefreshEntry
  /-- A galley request wakes every channel from self-refresh within 2 µs (R350). -/
  | selfRefreshExit
  /-- The patrol scrubber completes a pass over every active line (R348). -/
  | scrubPassEnd (corrected : List (Nat × Nat))
  /-- An uncorrectable read or command-path parity error freezes a channel and captures its log (R354). -/
  | channelFreeze (ch : Fin 68) (c : FreezeCapture)
  /-- DRC_CH_CMD RESUME returns a frozen channel to ACTIVE, issuing its kept queue first (R355). -/
  | drcResume (ch : Fin 68)
  /-- DRC_CH_CMD RETIRE retires a frozen channel and brings in a spare, or fails with NO_SPARE (R355). -/
  | drcRetire (ch : Fin 68)
  /-- A spare channel becomes ACTIVE in the slot within 200 µs of RETIRE (R355). -/
  | spareInService (slot : Fin 64)
  /-- DRC_CTRL.APPLY puts staged masks in force and invalidates the map, or is refused with BUSY (R347). -/
  | apply
  /-- SPM_MARCH_CMD starts a preserving march on a gang of a HELD section, or is refused (R364). -/
  | preservingMarch (i : Fin 128) (gang : Fin 16) (lx : Bool)
  /-- A preserving march ends, repairing rows or setting RETIRE_PENDING, or is aborted (R364). -/
  | marchEnd (rows : List (Nat × Nat × Nat)) (overflowed : List Nat)
  /-- A host-link reset or link-down fails host-addressed elements and stops host-ring ports (R368). -/
  | pciLinkDown
  /-- NVM_CTRL.SCAN starts a scan round over the root ports (R372). -/
  | nvmScan (present : BitVec 16)
  /-- The scan round ends, NVM_PRESENT holds its snapshot and G32 source 16 is raised (R372). -/
  | scanRoundEnd
  /-- A root port's link comes up and initialisation of its drive starts (R371). -/
  | rootPortLinkUp (n : Fin 16) (speed width : Nat)
  /-- No link within 100 ms puts the port in FAILED with LINK (R371). -/
  | rootPortLinkTimeout (n : Fin 16)
  /-- Identify and queue creation complete and the drive becomes READY or FAILED (R371). -/
  | driveInitDone (n : Fin 16) (i : DriveInfo)
  /-- A drive's presence or link is lost, its commands fail and it becomes VANISHED (R369). -/
  | presenceLost (n : Fin 16)
  /-- A drive arriving after its port's visit sets NVM_ARRIVED (R372). -/
  | presenceArrival (n : Fin 16)
  /-- An NVMe command completes; an error status fails the drive (R373). -/
  | nvmeCompletion (n : Fin 16) (ok : Bool) (data : List Byte)
  /-- A command without completion within NVM_TIMEOUT fails its drive (R373). -/
  | nvmeTimeout (n : Fin 16)
  /-- NVM_SET_CMD FORMAT starts formatting a stripe set, or is refused (R374). -/
  | setFormat (k : Fin 16)
  /-- Labels are written and flushed on every member and the set becomes READY (R374). -/
  | formatDone (k : Fin 16)
  /-- NVM_SET_CMD RELEASE empties the set and returns members to READY (R374). -/
  | setRelease (k : Fin 16)
  /-- Every Write of a chunk completes and the port advances its reader past the chunk (R377). -/
  | chunkWriteDone (k o : Fin 16)
  /-- STR_CMD START begins delivery or waiting for a subscriber, or is refused (R384). -/
  | strStart (n : Fin 1024)
  /-- STR_CMD STOP moves a port to STOPPING or OFF (R384). -/
  | strStop (n : Fin 1024)
  /-- A stopping port finishes its final deliveries and writes and enters OFF (R384). -/
  | transportClosed (n : Fin 1024)
  /-- A write of the host ring consumer position frees host-ring space (R387). -/
  | strConsWrite (n : Fin 1024) (hi : Word)
  /-- A SUBSCRIBE control frame records a subscriber and starts the port, answered by STATUS (R393). -/
  | subscribe (q : Fin 16) (f : CtlFrame)
  /-- A RENEW control frame restarts the lease (R393). -/
  | renew (q : Fin 16) (f : CtlFrame)
  /-- An UNSUBSCRIBE control frame returns the port to WAITING (R393). -/
  | unsubscribe (q : Fin 16) (f : CtlFrame)
  /-- An ACK control frame advances the acknowledged position of the window (R395). -/
  | ack (q : Fin 16) (f : CtlFrame)
  /-- A lease ends without RENEW and the port enters WAITING with LAPSED (R393). -/
  | leaseLapse (n : Fin 1024)
  /-- An Ethernet sub-port link changes state and G33 is raised (R388). -/
  | ethLinkChange (q : Fin 16) (up : Bool)
  /-- A stay link falls and segments, generation and isolation are recomputed (R407). -/
  | stayLinkDown (l : Fin 4) (g : SegInfo)
  /-- A stay link comes up and segments merge with a new generation (R407). -/
  | stayLinkUp (l : Fin 4) (peer : Fin 32) (peerLink : Fin 4) (g : SegInfo)
  /-- STY_DISC.SCAN starts a discovery round (R403). -/
  | styScan
  /-- The round ends after 100 µs or all replies and STY_SEEN holds its snapshot (R403). -/
  | discoveryEnd
  /-- Every 1 ms a station sends TIME to each UP neighbour (R404). -/
  | timeExchange
  /-- A received TIME word yields offset and cable delay and steers the transfer term (R404). -/
  | timeWord (l : Fin 4) (bytes : List Byte)
  /-- A received ALIGN word updates STY_CLK_PS (R405). -/
  | alignWord (l : Fin 4) (bytes : List Byte) (ps : Int)
  /-- A received HALYARD word drives the local halyard when enabled and is forwarded (R406). -/
  | halyardWord (l : Fin 4) (bytes : List Byte)
  /-- A received COMMAND word schedules a global command or counts it late (R408). -/
  | commandWord (l : Fin 4) (bytes : List Byte)
  /-- A received DISCOVER word is answered and forwarded (R403). -/
  | discoverWord (l : Fin 4) (bytes : List Byte)
  /-- A received CREDIT word returns bulk credits (R410). -/
  | creditWord (l : Fin 4) (bytes : List Byte)
  /-- A slewing station's offset falls to 1 ns and SLEWING and ISOLATED end (R407). -/
  | slewEnd
  /-- STY_GCMD op ARM issues a global arm command, or refuses it with LEAD (R408). -/
  | gcmdArm
  /-- STY_GCMD op DISARM issues a global disarm command (R408). -/
  | gcmdDisarm
  /-- STY_GCMD op SNAPSHOT issues a global snapshot command (R408). -/
  | gcmdSnapshot
  /-- At execution time T each station carries out the global command (R408). -/
  | gcmdExecute
  /-- A received bulk frame carries replicated records into the destination ring, or is retransmitted on CRC failure (R409). -/
  | bulkFrame (l : Fin 4) (ok : Bool) (origin e : Fin 32) (ring : Fin 1024) (piece : List Byte) (ends : Bool)
  /-- Every CYCLE_US the sheet bus sends polls, due writes and commit polls and may write a context record (R413). -/
  | sheetCycle (b : Fin 2)
  /-- A sheet-bus reply frame is received and checked (R412). -/
  | sheetReply (b : Fin 2) (frame : List Byte)
  /-- No reply within 20 µs triggers a retry or makes the station ABSENT (R413). -/
  | sheetReplyTimeout (b : Fin 2)
  /-- SHT_CMD.SCAN sends PRESENCE to all addresses and a READ to each responder (R415). -/
  | shtScan (b : Fin 2)
  /-- A write of SHT_DIRECT sends a staging list as WRITE in the next cycle (R413). -/
  | shtDirect (b : Fin 2) (l : Fin 64)
  /-- DENS CMD START begins accumulation, or is refused with a code (R418). -/
  | densStart (i : Fin 128)
  /-- DENS CMD STOP ends the run (R418). -/
  | densStop (i : Fin 128)
  /-- After F spectra the histogram sets swap roles and a render pass starts (R421). -/
  | densFrameEnd (i : Fin 128) (samples : List (BitVec 12))
  /-- The 8,192-clock render pass ends and the density frame record or gap is written (R422). -/
  | renderPassEnd (i : Fin 128)
  /-- VID_CMD ENABLE starts link training, or is refused with BANDWIDTH (R431). -/
  | vidEnable
  /-- VID_CMD DISABLE turns scan-out OFF (R432). -/
  | vidDisable
  /-- DisplayPort training passes to ACTIVE or fails to FAILED (R432). -/
  | linkTrainingEnd (ok : Bool)
  /-- The hot-plug detect changes; loss puts an active output in FAILED (R432). -/
  | hpdChange (on : Bool)
  /-- At the start of vertical blanking pending flips latch, FOLLOW layers latch and fetch skips are decided (R435). -/
  | vblankStart
  /-- The output reaches VID_LINE_MATCH and raises G36 source 1 (R439). -/
  | lineMatch
  /-- The last active pixel is sent and proof rectangle CRCs are stored and compared (R438). -/
  | frameDone
  /-- A layer's pixel is not fetched in time and the layer is transparent for the rest of the line (R436). -/
  | underrun (l : Fin 4) (line x : Fin 8192) (walk : Bool)
  /-- A FLIP write arms a tagged latch of layer shadows, replacing any pending flip (R435). -/
  | flip (l : Fin 4) (tag : BitVec 16)
  /-- VID_AUX_CMD.GO starts a DisplayPort AUX transaction (R431). -/
  | auxGo (v : Word)
  /-- An AUX transaction completes with the sink's reply (R439). -/
  | auxDone (reply : Byte) (data : List Byte)
  /-- A host write of 1 to an edge pending bit clears it (R442). -/
  | pendingClear (g : Fin 64) (v : Word)
  /-- A write of IRQ_ENABLE may make pending sources active at once (R444). -/
  | irqEnableWrite (g : Fin 64) (v : Word)
  /-- A write to IRQ_COMPLETE clears outstanding and re-samples level sources (R446). -/
  | irqComplete (g : Fin 64)
  /-- A group's hold-off runs out and it delivers if a source is active (R445). -/
  | irqHoldoffEnd (g : Fin 64)
  /-- Unmasking an MSI-X entry sends a message held for an outstanding delivery (R447). -/
  | msixUnmask (g : Fin 64)
  /-- A write of HKA_CTRL.EN starts or stops the conversion sequence (R452). -/
  | hkaEnable (v : Word)
  /-- A housekeeping conversion ends, its result is written with overrun and limit checks, and the next starts (R453). -/
  | conversionEnd (code : BitVec 12)
  /-- A read of HKA_RESULT, by host or paced mover, clears VALID and OVR (R453). -/
  | hkaResultRead
  /-- 12 V becomes valid for 1 ms with no STANDBY command in force and start-up begins (R457). -/
  | powerValid
  /-- WAKE# with 12 V valid clears a STANDBY command and starts the engine, restoring interrupt state (R457). -/
  | wake
  /-- 12 V below 10.2 V for 10 µs puts the engine in STANDBY with PWRFAIL (R457). -/
  | powerFail
  /-- The die at 122 °C for 10 µs turns off the regulators and enters STANDBY with TRIPPED (R469). -/
  | thermalTrip
  /-- A start-up step ends and the next begins, up to DEVICE_READY (R461). -/
  | startupStepEnd (r : StartupResult)
  /-- PWR_CMD RUN returns the engine from IDLE to RUN within 10 µs (R457). -/
  | pwrRun
  /-- PWR_CMD IDLE enters IDLE or is refused with BUSY (R458). -/
  | pwrIdle
  /-- PWR_CMD STANDBY saves state, stores values and turns the regulators off, or is refused (R459). -/
  | pwrStandby
  /-- PWR_CMD RESUME ends halt when cool and within current, or is refused with HOT (R468). -/
  | pwrResume (r : PowerReading)
  /-- Die ≥ 100 °C or I_N ≥ 25 A for 2 s enters first reef and sheds the first section (R464). -/
  | firstReef (byCurrent : Bool) (r : PowerReading)
  /-- Die ≥ 108 °C enters second reef (R464). -/
  | secondReef (r : PowerReading)
  /-- Die ≥ 115 °C or I_N > 28.5 A for 50 ms enters halt, stopping inputs, cores, cues and LOs and shedding all sections (R468). -/
  | reefHalt (r : PowerReading)
  /-- Release conditions hold for 10 s and the reef stage is released (R464). -/
  | reefRelease (r : PowerReading)
  /-- The shedding interval runs out while the condition holds and the next eligible section is shed (R465). -/
  | shedPace (r : PowerReading)
  /-- A condition still holding 2 s after the last eligible shed escalates to the next stage (R466). -/
  | escalation (r : PowerReading)
  /-- Hourly the ageing oscillators are measured and hours stored, raising a warning at −2 % (R477). -/
  | ageingMeasure (dev : List Int)
  /-- RPR_CMD RETURN removes a field retirement from the three copies, or is refused (R475). -/
  | returnUnit
  /-- A host write to the store window writes the host area or is discarded and counted (R478). -/
  | nvsWrite (w : Fin 4096) (v : Word)
  /-- SEC_CMD ENROL_OWNER enrols an owner key hash while UNOWNED (R479). -/
  | enrolOwner (k : Fin 4)
  /-- SEC_CMD SET_POLICY sets the DEV policy while UNOWNED (R479). -/
  | setPolicy (dev : Bool)
  /-- SEC_CMD LOCK moves SEC to OWNED, or is refused with SLOT (R479). -/
  | lock
  /-- SEC_CMD APPLY_AUTH checks and applies an authorization block (R480). -/
  | applyAuth
  /-- SEC_CMD ENROL_SUB wraps a subscriber key into a slot and resets its counter (R481). -/
  | enrolSub (k : Fin 64)
  /-- SEC_CMD ERASE_SUB removes a subscriber key slot (R481). -/
  | eraseSub (k : Fin 64)
  /-- The 3.3 V standby supply comes up; the local clock reads 0 s in epoch 0 with UNSET and STEP_AVAIL set, and every standby register takes its reset value (R287). -/
  | standbySupplyUp
  /-- The 3.3 V standby supply is lost; the standby domain stops, the engine draws no 12 V current and each non-volatile store word is left whole or unchanged (R456). -/
  | standbySupplyLost
  /-- After PERST# release the host link trains up at some width, sets PCI_LINK.UP and DEGRADED and begins answering configuration requests (R366). -/
  | hostLinkUp (speed width : Nat) (enable mask : Bool) (masked : List Nat)
  /-- A host read of a LO word that latches its HI word or a result group (for example TDC_M_RES_LO, CNV_IDX_LO, TIM_ALIGN, MOV_ERR_ADDR_LO, which also re-arms capture) (R306). -/
  | latchingRead (off : BitVec 26)
  /-- A stream port that has been held at an unresolved capture for 1 s sets STR_STATUS event 7 (R400). -/
  | provisionalHeldOver1s (n : Fin 1024)
  /-- A non-volatile store write completes, clearing NVS_STATUS.BUSY or setting WRITE_ERR when a word fails verification (R478). -/
  | nvsWriteDone (ok : Bool)
  /-- After a thermal trip, a WAKE# or 12 V valid that is waiting starts the engine once the die reads 85 °C or below (R469). -/
  | tripCooledStart (r : PowerReading)
  /-- Every 10 s the engine reads each drive's composite temperature into NVM_DRV_TEMP (R400). -/
  | driveTempPoll (temps : List (Nat × Nat × Nat))
  /-- A slow-path frame finishes leaving its port, and its transmit descriptor is written back DONE with G33 source 19 (R390). -/
  | slowPathTransmitDone (q : Fin 16)
  /-- The DisplayPort main link is lost while ACTIVE and scan-out enters FAILED (R432). -/
  | displayLinkLoss
  /-- A host read of a block other than SYS, PWR, IRQ and HKA while in IDLE wakes the engine and completes after the wake (R458). -/
  | hostReadInIdle (off : BitVec 26)
deriving DecidableEq, Repr

end Sys2Proof
end

