-- ==== Sys2Proof/Decode.lean ====
section
/-! DEFINITION. Commands spelled as words: the opcode table of this block gives no row any bits, so no word spells a command. -/
namespace Sys2Proof

/-- The command that `nbits` bits `w` spell by the table: none, for no row has bits. -/
def decodeTableWord (_nbits _w : Nat) : Option Instr := none

end Sys2Proof
end

