-- ==== Sys2Proof/Machine/Checks.lean ====
section
/-! DEFINITION. The check codes of R13 and R14. -/
namespace Sys2Proof.Machine

/-- One bit of the reflected CRC-32: polynomial 0x04C1_1DB7 reflected. -/
def crcBit (c : Nat) : Nat := (c / 2) ^^^ (0xEDB88320 * (c % 2))
/-- One byte of the reflected CRC-32. -/
def crcByte (c : Nat) (b : Byte) : Nat :=
  let x := c ^^^ b.toNat
  crcBit (crcBit (crcBit (crcBit (crcBit (crcBit (crcBit (crcBit x)))))))
/-- CRC-32 of R13. -/
def crc32 (l : List Byte) : Nat := (l.foldl crcByte 0xFFFFFFFF) ^^^ 0xFFFFFFFF

/-- One bit of the CRC-16 of R14: polynomial 0x1021, not reflected. -/
def crc16Bit (c : Nat) : Nat := (c * 2 % 2 ^ 16) ^^^ (0x1021 * (c / 2 ^ 15 % 2))
/-- One byte of the CRC-16. -/
def crc16Byte (c : Nat) (b : Byte) : Nat :=
  let x := c ^^^ (b.toNat * 256)
  crc16Bit (crc16Bit (crc16Bit (crc16Bit (crc16Bit (crc16Bit (crc16Bit (crc16Bit x)))))))
/-- CRC-16 of the sheet bus (R14). -/
def crc16 (l : List Byte) : Nat := l.foldl crc16Byte 0xFFFF

/-- One stored copy of the repair map (R471): header, CRC-32 and the entries. -/
def repairCopy (entries : List Nat) (seq : Nat) : List Byte :=
  let body := entries.flatMap (leBytes 8)
  let head (crc : Nat) := leBytes 4 0x5052584C ++ leBytes 2 0x0100 ++ leBytes 2 entries.length ++ leBytes 4 seq ++ List.replicate 48 0 ++ leBytes 4 crc
  head (crc32 (head 0 ++ body)) ++ body

end Sys2Proof.Machine
end

