-- ==== Sys2Proof/Config.lean ====
section
/-! DEFINITION. What the spec leaves open as a value: opaque constants that nothing can evaluate, applied to the counter
`Dev.freeCtr` that each use advances (log entry 2). No statement rests on a value of one of them. -/
namespace Sys2Proof

/-- A number the spec does not state, fresh at each use. -/
opaque Config.freeNat : Nat → Nat
/-- A byte the spec does not state: what a galley byte reads as after an APPLY of the masks (R347), by generation and address. -/
opaque Config.freeByte : Nat → Nat → Byte
/-- Coefficient k of the polyphase stage of a CHAN with factor D1 (R147: fixed, symmetric, not stated); the caller folds k at the centre. -/
opaque Config.polyTap : Nat → Nat → Int
/-- Coefficient k of a half-band stage, folded at the centre (R147: fixed, not stated). -/
opaque Config.halfTap : Nat → Int
/-- Coefficient k of the FIR of a built-in set (R148: fixed, not stated). -/
opaque Config.setTap : Nat → Nat → Int
/-- Right shift of the MAC output behind a stage of a CHAN that another stage follows (0 polyphase, 1 half-band), by D1: not stated. -/
opaque Config.stageShift : Nat → Nat → Nat
/-- How far the NCO's cosine (0) or sine (1) of a 20-bit phase lies from the nearest 18-bit value: within 1 LSB (R36), taken mod 3. -/
opaque Config.ncoError : Nat → Nat → Nat
/-- The 28-bit dither of an NCO below its truncation point, by section and sample (R36). -/
opaque Config.ncoDither : Nat → Nat → Nat
/-- Coefficient k of window 1–6 of N points (R171 gives its figures, not its coefficients). -/
opaque Config.windowTap : Nat → Nat → Nat → Nat
/-- Which of the codes within 2/256 dB of the level a spectrum carries (R173): section, S0, frame, bin. -/
opaque Config.logError : Nat → Nat → Nat → Nat → Nat
/-- The 256-bit device key in fuses (R481): never readable, so no value of it is stated. -/
opaque Config.deviceKey : Nat → Byte

end Sys2Proof
end

