-- ==== Sys2Proof/Machine/Fabric.lean ====
section
/-! DEFINITION. What the sorts of the fabric compute (R36, R37, spec/02_formes.md): roundings, the MAC's output stage, the butterfly with its
block scaling, the transform built of it, the rotator's NCO and log, the compare sort's threshold state. -/
namespace Sys2Proof.Machine

/-! ## Rounding and decibels -/

/-- Shift right by `n` bits, rounded half to even (R36). -/
def halfEven (v : Int) (n : Nat) : Int :=
  let q := v / 2 ^ n
  let r := v % 2 ^ n
  if 2 * r < 2 ^ n ∨ (2 * r = 2 ^ n ∧ q % 2 = 0) then q else q + 1
/-- Limit to the range of a signed number of `w` bits (R36). -/
def saturate (w : Nat) (v : Int) : Int := clampInt (-(2 ^ (w - 1))) (2 ^ (w - 1) - 1) v
/-- Quotient rounded half to even. -/
def roundEven (a b : Nat) : Nat :=
  let q := a / max 1 b
  let r := a % max 1 b
  if 2 * r < b then q else if b < 2 * r then q + 1 else if q % 2 = 0 then q else q + 1
/-- Round half up a quotient of integers. -/
def roundDiv (a : Int) (b : Nat) : Int := (2 * a + b) / (2 * (max 1 b))
/-- ⌈a / b⌉. -/
def ceilDiv (a b : Nat) : Nat := (a + b - 1) / max 1 b

/-- The largest g below 2^k + `g0` with 10^g · b^n ≤ a^n, for a ≥ b. -/
def logFloor (a b n : Nat) : Nat → Nat → Nat
  | 0, g => g
  | k + 1, g => if 10 ^ (g + 2 ^ k) * b ^ n ≤ a ^ n then logFloor a b n k (g + 2 ^ k) else logFloor a b n k g
/-- `k · log10(a / b)` rounded to the nearest integer, 0 when one of the two is 0: `k` = 2560 for powers, 5120 for amplitudes, in 1/256 dB:
the search finds ⌊2k·log10⌋ and rounds its half. -/
def dbRound (k a b : Nat) : Int :=
  if a = 0 ∨ b = 0 then 0
  else if b ≤ a then ((logFloor a b (2 * k) 17 0 + 1) / 2 : Nat)
  else -((logFloor b a (2 * k) 17 0 + 1) / 2 : Nat)
/-- `⌊2560 · log10(a / b)⌋` of a power ratio, neither being 0, and whether that is exact. -/
def dbFloor (a b : Nat) : Int × Bool :=
  if b ≤ a then
    let g := logFloor a b 2560 17 0
    (g, 10 ^ g * b ^ 2560 == a ^ 2560)
  else
    let g := logFloor b a 2560 17 0
    if 10 ^ g * a ^ 2560 = b ^ 2560 then (-(g : Int), true) else (-(g : Int) - 1, false)
/-- Whether a power ratio is at or above a level of `l` ≤ 0 in 1/256 dB: a / b ≥ 10^(l/2560). -/
def powerReaches (a b : Nat) (l : Int) : Bool := decide (b ^ 2560 ≤ a ^ 2560 * 10 ^ l.natAbs)

/-! ## The MAC sort -/

/-- An accumulator: 48 bits, saturating at ±(2^47 − 1) (R36). -/
def accumulate (acc v : Int) : Int := clampInt (-(2 ^ 47 - 1)) (2 ^ 47 - 1) (acc + v)
/-- The pre-adder of the half-band and symmetric modes: operands limited to 17 bits (R36). -/
def preAdd (a b : Int) : Int := saturate 17 a + saturate 17 b
/-- The output stage: shifted, rounded half to even, saturated to `w` bits; whether it saturated. -/
def macOut (shift w : Nat) (acc : Int) : Int × Bool :=
  let v := halfEven acc shift
  (saturate w v, saturate w v != v)

/-! ## Complex numbers and the butterfly -/

/-- A complex sample. -/
structure Cx where
  re : Int
  im : Int
deriving DecidableEq, Repr

/-- Sum, difference, conjugate. -/
def Cx.add (a b : Cx) : Cx := ⟨a.re + b.re, a.im + b.im⟩
def Cx.sub (a b : Cx) : Cx := ⟨a.re - b.re, a.im - b.im⟩
def Cx.conj (a : Cx) : Cx := ⟨a.re, -a.im⟩
/-- The squared magnitude (MAC mode 5). -/
def Cx.power (a : Cx) : Nat := (a.re * a.re + a.im * a.im).toNat
/-- The larger component magnitude. -/
def Cx.size (a : Cx) : Nat := max a.re.natAbs a.im.natAbs
/-- Both components by a function. -/
def Cx.each (f : Int → Int) (a : Cx) : Cx := ⟨f a.re, f a.im⟩
/-- The product with a factor, from three products (R36). -/
def Cx.mul (a w : Cx) : Cx :=
  let k := w.re * (a.re + a.im)
  ⟨k - a.im * (w.re + w.im), k + a.re * (w.im - w.re)⟩
/-- The product with an 18-bit factor of 17 fraction bits, rounded half to even (R36). -/
def Cx.turn (a w : Cx) : Cx := (a.mul w).each (halfEven · 17)

/-- The block scaling of a stage, from the largest component magnitude M of its input (R36). -/
def blockShift (m : Nat) : Nat := if m < 2 ^ 21 then 0 else if m < 2 ^ 22 then 1 else 2
/-- The largest component magnitude of a frame. -/
def frameSize (l : List Cx) : Nat := l.foldl (fun m a => max m a.size) 0
/-- One radix-2 butterfly with stage shift `s` (R36): decimation in time, or in frequency. -/
def butterfly (inFreq : Bool) (s : Nat) (a b w : Cx) : Cx × Cx :=
  if inFreq then ((a.add b).each (halfEven · s), ((a.sub b).turn w).each (halfEven · s))
  else
    let t := b.turn w
    ((a.add t).each (halfEven · s), (a.sub t).each (halfEven · s))

/-! ## Cosine and sine -/

/-- π as a number of 2^-96 units. -/
def piUnits : Nat := 248902613312231085230521944622
/-- The Taylor series of cosine at x / 2^96, `k` terms from term `n` on, the term in hand being `t`. -/
def cosTail (x2 : Int) : Nat → Nat → Int → Int
  | 0, _, _ => 0
  | k + 1, n, t => t + cosTail x2 k (n + 1) (-(t * x2 / 2 ^ 96) / ((2 * n + 1) * (2 * n + 2) : Nat))
/-- cos(2π·k/n) for 0 ≤ k/n ≤ 1/8, in units of 2^-96. -/
def cosOctant (k n : Nat) : Int :=
  let x : Int := 2 * piUnits * k / n
  cosTail (x * x / 2 ^ 96) 14 0 (2 ^ 96)
/-- The Taylor series of sine. -/
def sinOctant (k n : Nat) : Int :=
  let x : Int := 2 * piUnits * k / n
  sinTail (x * x / 2 ^ 96) 14 0 x
where
  /-- Terms of sine, as `cosTail`. -/
  sinTail (x2 : Int) : Nat → Nat → Int → Int
    | 0, _, _ => 0
    | k + 1, n, t => t + sinTail x2 k (n + 1) (-(t * x2 / 2 ^ 96) / ((2 * n + 2) * (2 * n + 3) : Nat))
/-- cos(2π·k/n) in units of 2^-96: by octants. -/
def cosUnits (k n : Nat) : Int :=
  let k := k % n
  let k := if n < 2 * k then n - k else k
  let quarter (k : Nat) : Int := if 8 * k ≤ n then cosOctant k n else sinOctant (n - 4 * k) (4 * n)
  if 4 * k ≤ n then quarter k else -(if 8 * (n - 2 * k) ≤ 2 * n then cosOctant (n - 2 * k) (2 * n) else sinOctant (4 * k - n) (4 * n))
/-- The 18-bit value of cosine, nearest, 1 being the greatest value below it. -/
def cos18 (k n : Nat) : Int := saturate 18 (halfEven (cosUnits k n) 79)
/-- e^(−j2π·k/n) as an 18-bit factor; sine is the cosine a quarter turn earlier. -/
def twiddle (k n : Nat) : Cx := ⟨cos18 k n, -cos18 (4 * k + 3 * n) (4 * n)⟩

/-! ## The transform (R173) -/

/-- Every second element, from the first on and from the second on. -/
def evens {α : Type} : List α → List α
  | [] => []
  | [a] => [a]
  | a :: _ :: t => a :: evens t
def odds {α : Type} (l : List α) : List α := evens (l.drop 1)
/-- Blocks of one sample in the order in which decimation in time takes them. -/
def bitOrder : Nat → List Cx → List (List Cx)
  | 0, l => [l]
  | k + 1, l => bitOrder k (evens l) ++ bitOrder k (odds l)
/-- One stage: neighbouring blocks of half the size are joined by butterflies with shift `s`. -/
def fftStage (half s : Nat) : List (List Cx) → List (List Cx)
  | a :: b :: t =>
    let p := (a.zip b).zipIdx.map (fun x => butterfly false s x.1.1 x.1.2 (twiddle x.2 (2 * half)))
    (p.map (·.1) ++ p.map (·.2)) :: fftStage half s t
  | l => l
/-- All stages of a frame, with block scaling; the exponent is the sum of the shifts (R36). -/
def fftStages : Nat → Nat → List (List Cx) × Nat → List (List Cx) × Nat
  | 0, _, x => x
  | k + 1, half, x =>
    let s := blockShift (frameSize x.1.flatten)
    fftStages k (2 * half) (fftStage half s x.1, x.2 + s)
/-- The transform of 2^k points: bins from 0 up, and the exponent. -/
def fft (k : Nat) (l : List Cx) : List Cx × Nat :=
  let x := fftStages k 1 (bitOrder k l, 0)
  (x.1.flatten, x.2)
/-- The pairs of a real frame as complex points. -/
def pairUp : List Int → List Cx
  | a :: b :: t => ⟨a, b⟩ :: pairUp t
  | _ => []
/-- The split stage (R173): bins 0 to N/2 − 1 of a real frame from the transform of its pairs. -/
def splitStage (n : Nat) (x : List Cx × Nat) : List Cx × Nat :=
  let s := blockShift (frameSize x.1)
  let z := x.1
  let rev := match z with | [] => [] | a :: t => a :: t.reverse
  ((z.zip rev).zipIdx.map (fun p =>
    let a := p.1.1
    let b := p.1.2.conj
    let o := a.sub b
    let t := (Cx.mk o.im (-o.re)).turn (twiddle p.2 n)
    ((a.add b).add t).each (halfEven · (1 + s))), x.2 + s)
/-- Bins of a complex frame in ascending order, from −N/2 on (R175). -/
def centred (x : List Cx × Nat) : List Cx × Nat := (x.1.drop (x.1.length / 2) ++ x.1.take (x.1.length / 2), x.2)
/-- Bit length of a number. -/
def bitLen (n : Nat) : Nat := if n = 0 then 0 else Nat.log2 n + 1
/-- Every bin component rounded half to even to 18 bits, the largest of the frame using them (R173): the shift joins the exponent. -/
def round18 (x : List Cx × Nat) : List Cx × Nat :=
  let s := bitLen (frameSize x.1) - 17
  (x.1.map (·.each (fun v => saturate 18 (halfEven v s))), x.2 + s)
/-- The power word of a bin (R177): 32 bits, the squared magnitude in units of 8. -/
def powerWord (a : Cx) : Nat := min (2 ^ 32 - 1) (halfEven a.power 3).toNat

/-! ## The rotator sort -/

/-- The NCO's output for a 48-bit phase (R36): truncated to 20 bits after the dither; each component within 1 LSB of the exact value. -/
def ncoOut (phase dither : Nat) : Cx :=
  let p := (phase + dither) / 2 ^ 28 % 2 ^ 20
  let near (v : Int) (k : Nat) : Int := saturate 18 (v + (Config.ncoError k p % 3 : Nat) - 1)
  ⟨near (cos18 p (2 ^ 20)) 0, near (cos18 (4 * p + 3 * 2 ^ 20) (4 * 2 ^ 20)) 1⟩
/-- The log mode (R36): round(256 × 10 log10 x), an input of 0 giving −32,768. -/
def rotatorLog (x : Nat) : Int := if x = 0 then -32768 else dbRound 2560 x 1

/-! ## The compare sort -/

/-- The state of a lane (R36): high at ≥ upper, left at < lower. -/
def compareLane (high : Bool) (upper lower x : Int) : Bool := if upper ≤ x then true else if x < lower then false else high
/-- Lanes that are set (R36), and the event's position: twice the lowest set lane (R41). -/
def compareCount (l : List Bool) : Nat := l.countP id
def compareEvent (l : List Bool) : Option Nat := (l.findIdx? id).map (2 * ·)

end Sys2Proof.Machine
end

