-- ==== Sys2Proof/Machine/RegMap.lean ====
section
/-! DEFINITION. The register map of BAR0, row by row as the chapters' tables give it: name, offset, the count and stride of each
array dimension, and the fields with their bits, access code (R7) and reset value. A reset value the tables leave to the unit
("factory", "from store", "from repair map", "from calibration") stands as 0 here (log entry 1) unless `Special` names it. -/
namespace Sys2Proof.Machine

/-- The access codes of R7. -/
inductive Access where
  | rw | ro | w1c | w1s | wo | rc
deriving DecidableEq, Repr

/-- A field of a register word. -/
structure FieldRow where
  name : String
  hi : Nat
  lo : Nat
  acc : Access
  reset : Nat
deriving DecidableEq, Repr

/-- A register or register array: element (i, j) lies at base + i × stride₁ + j × stride₂. -/
structure RegRow where
  name : String
  base : Nat
  dims : List (Nat × Nat)
  fields : List FieldRow
deriving DecidableEq, Repr

/-- Rows from offset 0. -/
def regRows0 : List RegRow := [
  ⟨"SYS_ID", 0, [], [⟨"ID", 31, 0, .ro, 0x4c580830⟩]⟩,
  ⟨"SYS_STEPPING", 4, [], [⟨"STEPPING", 15, 0, .ro, 0⟩]⟩,
  ⟨"SYS_STATUS", 8, [], [⟨"STBY_UP", 0, 0, .ro, 0⟩, ⟨"PGOOD", 1, 1, .ro, 0⟩, ⟨"REPAIRED", 2, 2, .ro, 0⟩, ⟨"LOCKED", 3, 3, .ro, 0⟩, ⟨"TRAINED", 4, 4, .ro, 0⟩, ⟨"MARCHED", 5, 5, .ro, 0⟩, ⟨"CALIBRATED", 6, 6, .ro, 0⟩, ⟨"READY", 7, 7, .ro, 0⟩, ⟨"PSTATE", 10, 8, .ro, 1⟩, ⟨"PWRFAIL", 12, 12, .w1c, 0⟩, ⟨"TRIPPED", 13, 13, .w1c, 0⟩]⟩,
  ⟨"SYS_ACCESS_ERR", 0xc, [], [⟨"COUNT", 31, 0, .rc, 0⟩]⟩,
  ⟨"SYS_ACCESS_ADDR", 0x10, [], [⟨"OFFSET", 25, 0, .ro, 0⟩, ⟨"VALID", 31, 31, .w1c, 0⟩]⟩,
  ⟨"SYS_EARLY_DROP", 0x14, [], [⟨"COUNT", 31, 0, .rc, 0⟩]⟩,
  ⟨"SYS_SERIAL", 0x18, [(2, 4)], [⟨"SERIAL", 31, 0, .ro, 0⟩]⟩,
  ⟨"PWR_CMD", 0x10000, [], [⟨"CMD", 2, 0, .wo, 0⟩]⟩,
  ⟨"PWR_STATUS", 0x10004, [], [⟨"REEF", 1, 0, .ro, 0⟩, ⟨"ESCALATED", 2, 2, .w1c, 0⟩, ⟨"BY_TEMP", 3, 3, .ro, 0⟩, ⟨"BY_CURRENT", 4, 4, .ro, 0⟩, ⟨"CODE", 15, 8, .ro, 0⟩]⟩,
  ⟨"PWR_DIE_TEMP", 0x10008, [], [⟨"TEMP", 15, 0, .ro, 0⟩, ⟨"MAX", 31, 16, .ro, 0⟩]⟩,
  ⟨"PWR_I12N", 0x1000c, [], [⟨"MA", 15, 0, .ro, 0⟩, ⟨"PEAK", 31, 16, .ro, 0⟩]⟩,
  ⟨"PWR_SHED", 0x10010, [], [⟨"COUNT", 7, 0, .ro, 0⟩, ⟨"LAST", 14, 8, .ro, 0⟩]⟩,
  ⟨"PWR_REEF_TIME", 0x10014, [], [⟨"MS", 31, 0, .ro, 0⟩]⟩,
  ⟨"PWR_HOURS", 0x10040, [(8, 4)], [⟨"HOURS", 31, 0, .ro, 0⟩]⟩,
  ⟨"PWR_AGE", 0x10080, [(32, 4)], [⟨"DEV", 15, 0, .ro, 0⟩, ⟨"WARN", 16, 16, .ro, 0⟩]⟩,
  ⟨"RPR_STATUS", 0x20000, [], [⟨"DONE", 0, 0, .ro, 0⟩, ⟨"COPY_OK", 3, 1, .ro, 0⟩, ⟨"DISAGREE", 4, 4, .w1c, 0⟩, ⟨"COPY_BAD", 5, 5, .w1c, 0⟩, ⟨"FIELD_LOST", 6, 6, .w1c, 0⟩, ⟨"FULL", 7, 7, .w1c, 0⟩, ⟨"CODE", 15, 8, .ro, 0⟩, ⟨"ENTRIES", 31, 16, .ro, 0⟩]⟩,
  ⟨"RPR_SEQ", 0x20004, [], [⟨"SEQ", 31, 0, .ro, 0⟩]⟩,
  ⟨"RPR_CMD", 0x20008, [], [⟨"RETURN", 0, 0, .wo, 0⟩]⟩,
  ⟨"RPR_ENTRY", 0x2000c, [(2, 4)], [⟨"ENTRY", 31, 0, .rw, 0⟩]⟩,
  ⟨"RPR_KIND", 0x20020, [(5, 4)], [⟨"COUNT", 15, 0, .ro, 0⟩]⟩]

/-- Rows from offset 0x21000. -/
def regRows1 : List RegRow := [
  ⟨"RPR_WINDOW", 0x21000, [(3072, 4)], [⟨"WORD", 31, 0, .ro, 0⟩]⟩,
  ⟨"SEC_STATE", 0x24000, [], [⟨"OWNED", 0, 0, .ro, 0⟩, ⟨"DEV", 1, 1, .ro, 0⟩, ⟨"KEYS", 7, 4, .ro, 0⟩, ⟨"CODE", 15, 8, .ro, 0⟩]⟩,
  ⟨"SEC_CMD", 0x24004, [], [⟨"CMD", 2, 0, .wo, 0⟩, ⟨"SLOT", 9, 8, .wo, 0⟩, ⟨"SUBKEY", 21, 16, .wo, 0⟩, ⟨"DEV", 24, 24, .wo, 0⟩]⟩,
  ⟨"SEC_HASH", 0x24040, [(12, 4)], [⟨"HASH", 31, 0, .wo, 0⟩]⟩,
  ⟨"SEC_SUBKEY", 0x24080, [(4, 4)], [⟨"KEY", 31, 0, .wo, 0⟩]⟩,
  ⟨"SEC_SUBKEY_EN", 0x24090, [(2, 4)], [⟨"EN", 31, 0, .ro, 0⟩]⟩,
  ⟨"SEC_AUTH_CTR", 0x24098, [], [⟨"CTR", 31, 0, .ro, 0⟩]⟩,
  ⟨"SEC_FAIL", 0x2409c, [], [⟨"COUNT", 31, 0, .rc, 0⟩]⟩,
  ⟨"SEC_AUTH_CTR_HI", 0x240a0, [], [⟨"CTR", 31, 0, .ro, 0⟩]⟩,
  ⟨"SEC_AUTH", 0x24200, [(128, 4)], [⟨"BLOCK", 31, 0, .rw, 0⟩]⟩,
  ⟨"NVS_PAGE", 0x28000, [], [⟨"PAGE", 10, 0, .rw, 0⟩]⟩,
  ⟨"NVS_STATUS", 0x28004, [], [⟨"BUSY", 0, 0, .ro, 0⟩, ⟨"WRITE_ERR", 1, 1, .w1c, 0⟩]⟩,
  ⟨"NVS_WDROP", 0x28008, [], [⟨"COUNT", 31, 0, .rc, 0⟩]⟩,
  ⟨"NVS_WINDOW", 0x2c000, [(4096, 4)], [⟨"WORD", 31, 0, .rw, 0⟩]⟩,
  ⟨"IRQ_SUM", 0x30000, [(2, 4)], [⟨"ACTIVE", 31, 0, .ro, 0⟩]⟩,
  ⟨"IRQ_PENDING", 0x30100, [(64, 0x20)], [⟨"PENDING", 31, 0, .w1c, 0⟩]⟩,
  ⟨"IRQ_ENABLE", 0x30104, [(64, 0x20)], [⟨"ENABLE", 31, 0, .rw, 0⟩]⟩,
  ⟨"IRQ_LEVEL", 0x30108, [(64, 0x20)], [⟨"LEVEL", 31, 0, .ro, 0⟩]⟩,
  ⟨"IRQ_RAW", 0x3010c, [(64, 0x20)], [⟨"RAW", 31, 0, .ro, 0⟩]⟩,
  ⟨"IRQ_HOLDOFF", 0x30110, [(64, 0x20)], [⟨"US", 15, 0, .rw, 0⟩, ⟨"REMAIN", 31, 16, .ro, 0⟩]⟩]

/-- Rows from offset 0x30114. -/
def regRows2 : List RegRow := [
  ⟨"IRQ_TARGET", 0x30114, [(64, 0x20)], [⟨"TARGET", 1, 0, .rw, 0⟩, ⟨"CORE", 11, 8, .rw, 0⟩, ⟨"OUTSTANDING", 16, 16, .ro, 0⟩]⟩,
  ⟨"IRQ_COMPLETE", 0x30118, [(64, 0x20)], [⟨"COMPLETE", 0, 0, .wo, 0⟩]⟩,
  ⟨"IRQ_DELIVERED", 0x3011c, [(64, 0x20)], [⟨"COUNT", 31, 0, .rc, 0⟩]⟩,
  ⟨"HKA_CTRL", 0x38000, [], [⟨"EN", 0, 0, .rw, 0⟩, ⟨"LEN", 7, 4, .rw, 0⟩, ⟨"PACE_EN", 8, 8, .rw, 0⟩, ⟨"PACE_MOVER", 21, 16, .rw, 0⟩]⟩,
  ⟨"HKA_STATUS", 0x38004, [], [⟨"BUSY", 0, 0, .ro, 0⟩, ⟨"OVR", 1, 1, .w1c, 0⟩, ⟨"ENTRY", 7, 4, .ro, 0⟩]⟩,
  ⟨"HKA_RESULT", 0x38008, [], [⟨"VALUE", 11, 0, .ro, 0⟩, ⟨"ENTRY", 19, 16, .ro, 0⟩, ⟨"INPUT", 29, 24, .ro, 0⟩, ⟨"VALID", 30, 30, .rc, 0⟩, ⟨"OVR", 31, 31, .rc, 0⟩]⟩,
  ⟨"HKA_OVR_COUNT", 0x3800c, [], [⟨"COUNT", 31, 0, .rc, 0⟩]⟩,
  ⟨"HKA_LAST", 0x38040, [(16, 4)], [⟨"VALUE", 11, 0, .ro, 0⟩]⟩,
  ⟨"HKA_SEQ", 0x38100, [(16, 8)], [⟨"INPUT", 5, 0, .rw, 0⟩, ⟨"SAMPLE", 10, 8, .rw, 0⟩, ⟨"GAIN", 13, 12, .rw, 0⟩, ⟨"LIM_EN", 15, 15, .rw, 0⟩]⟩,
  ⟨"HKA_SEQ_LIM", 0x38104, [(16, 8)], [⟨"LO", 11, 0, .rw, 0⟩, ⟨"HI", 27, 16, .rw, 0xfff⟩]⟩,
  ⟨"CLK_STATUS", 0x40000, [], [⟨"ALIGNED", 0, 0, .ro, 0⟩, ⟨"HOLD_ANY", 1, 1, .ro, 0⟩, ⟨"BYPASS_ANY", 2, 2, .ro, 0⟩, ⟨"CODE", 15, 8, .ro, 0⟩]⟩,
  ⟨"CLK_LOCK_SUM", 0x40004, [], [⟨"LOCKED", 28, 0, .ro, 0⟩]⟩,
  ⟨"CLK_HOLD_SUM", 0x40008, [], [⟨"HOLD", 28, 0, .ro, 0⟩]⟩,
  ⟨"CLK_EBUF", 0x40040, [(8, 4)], [⟨"FILL", 7, 0, .ro, 0⟩, ⟨"SLIP_STOP", 8, 8, .w1c, 0⟩]⟩,
  ⟨"CLK_PLL_CTRL", 0x40100, [(29, 0x40)], [⟨"EN", 0, 0, .rw, 1⟩, ⟨"RELOCK", 1, 1, .w1s, 0⟩]⟩,
  ⟨"CLK_PLL_LOCK", 0x40104, [(29, 0x40)], [⟨"WINDOW", 6, 0, .rw, 8⟩, ⟨"CYCLES", 31, 16, .rw, 0x3e8⟩]⟩,
  ⟨"CLK_PLL_LOSS", 0x40108, [(29, 0x40)], [⟨"UNLOCK", 7, 0, .rw, 0x20⟩, ⟨"CYCLES", 15, 8, .rw, 4⟩]⟩,
  ⟨"CLK_PLL_STATUS", 0x4010c, [(29, 0x40)], [⟨"STATE", 2, 0, .ro, 0⟩, ⟨"CLASS", 3, 3, .ro, 0⟩, ⟨"BAND", 13, 8, .ro, 0⟩, ⟨"STALE", 14, 14, .ro, 0⟩, ⟨"DIV", 18, 16, .ro, 0⟩]⟩,
  ⟨"CLK_PLL_PHASE", 0x40110, [(29, 0x40)], [⟨"ERR", 15, 0, .ro, 0⟩]⟩,
  ⟨"CLK_PLL_LOCKTIME", 0x40114, [(29, 0x40)], [⟨"US", 31, 0, .ro, 0⟩]⟩]

/-- Rows from offset 0x40118. -/
def regRows3 : List RegRow := [
  ⟨"CLK_PLL_UNLOCKS", 0x40118, [(29, 0x40)], [⟨"COUNT", 31, 0, .rc, 0⟩]⟩,
  ⟨"CLK_PLL_HOLDTIME", 0x4011c, [(29, 0x40)], [⟨"US", 31, 0, .ro, 0⟩]⟩,
  ⟨"CLK_LO_CTRL", 0x41000, [(4, 0x100)], [⟨"OUT_EN", 0, 0, .rw, 0⟩]⟩,
  ⟨"CLK_LO_CMD", 0x41004, [(4, 0x100)], [⟨"CMD", 2, 0, .wo, 0⟩, ⟨"SEG", 15, 8, .wo, 0⟩]⟩,
  ⟨"CLK_LO_STATUS", 0x41008, [(4, 0x100)], [⟨"PSTATE", 2, 0, .ro, 0⟩, ⟨"SEG", 15, 8, .ro, 0⟩, ⟨"STEP_LATCHED", 16, 16, .ro, 0⟩, ⟨"MUTED", 17, 17, .ro, 1⟩]⟩,
  ⟨"CLK_LO_FREQ_LO", 0x4100c, [(4, 0x100)], [⟨"FREQ", 31, 0, .ro, 0⟩]⟩,
  ⟨"CLK_LO_FREQ_HI", 0x41010, [(4, 0x100)], [⟨"FREQ", 23, 0, .ro, 0⟩]⟩,
  ⟨"CLK_LO_WDROP", 0x41014, [(4, 0x100)], [⟨"COUNT", 31, 0, .rc, 0⟩]⟩,
  ⟨"CLK_LO_STEPDROP", 0x41018, [(4, 0x100)], [⟨"COUNT", 31, 0, .rc, 0⟩]⟩,
  ⟨"CLK_BAND", 0x42000, [(12, 0x100), (64, 4)], [⟨"MHZ", 15, 0, .ro, 0⟩]⟩,
  ⟨"CLK_LO_PROFILE", 0x48000, [(4, 0x2000), (2048, 4)], [⟨"WORD", 31, 0, .rw, 0⟩]⟩,
  ⟨"TIM_CMD", 0x50000, [], [⟨"CMD", 1, 0, .wo, 0⟩, ⟨"MODE", 4, 4, .wo, 0⟩]⟩,
  ⟨"TIM_STATUS", 0x50004, [], [⟨"EPOCH", 15, 0, .ro, 0⟩, ⟨"STEP_AVAIL", 16, 16, .ro, 1⟩, ⟨"UNSET", 17, 17, .ro, 1⟩, ⟨"BYPASS", 18, 18, .ro, 0⟩, ⟨"CODE", 31, 24, .ro, 0⟩]⟩,
  ⟨"TIM_NOW_FRAC", 0x50008, [], [⟨"FRAC", 15, 0, .ro, 0⟩]⟩,
  ⟨"TIM_NOW_NS", 0x5000c, [], [⟨"NS", 29, 0, .ro, 0⟩]⟩,
  ⟨"TIM_NOW_SEC_LO", 0x50010, [], [⟨"SEC", 31, 0, .ro, 0⟩]⟩,
  ⟨"TIM_NOW_SEC_HI", 0x50014, [], [⟨"SEC", 15, 0, .ro, 0⟩]⟩,
  ⟨"TIM_RATE_LO", 0x50018, [], [⟨"RATE", 31, 0, .rw, 0⟩]⟩,
  ⟨"TIM_RATE_HI", 0x5001c, [], [⟨"RATE", 7, 0, .rw, 0⟩]⟩,
  ⟨"TIM_RATE_ACT_LO", 0x50020, [], [⟨"RATE", 31, 0, .ro, 0⟩]⟩]

/-- Rows from offset 0x50024. -/
def regRows4 : List RegRow := [
  ⟨"TIM_RATE_ACT_HI", 0x50024, [], [⟨"RATE", 7, 0, .ro, 0⟩, ⟨"PENDING", 8, 8, .ro, 0⟩]⟩,
  ⟨"TIM_STEP_FRAC", 0x50030, [], [⟨"FRAC", 15, 0, .rw, 0⟩]⟩,
  ⟨"TIM_STEP_NS", 0x50034, [], [⟨"NS", 29, 0, .rw, 0⟩]⟩,
  ⟨"TIM_STEP_SEC_LO", 0x50038, [], [⟨"SEC", 31, 0, .rw, 0⟩]⟩,
  ⟨"TIM_STEP_SEC_HI", 0x5003c, [], [⟨"SEC", 15, 0, .rw, 0⟩]⟩,
  ⟨"TIM_ALIGN", 0x50040, [(3, 4)], [⟨"TS", 31, 0, .ro, 0⟩]⟩,
  ⟨"TIM_ALIGN_EPOCH", 0x5004c, [], [⟨"EPOCH", 15, 0, .ro, 0⟩]⟩,
  ⟨"PTP_GM_ID_LO", 0x50800, [(8, 0x10)], [⟨"ID", 31, 0, .rw, 0⟩]⟩,
  ⟨"PTP_GM_ID_HI", 0x50804, [(8, 0x10)], [⟨"ID", 31, 0, .rw, 0⟩]⟩,
  ⟨"PTP_GM_VALID", 0x50808, [(8, 0x10)], [⟨"VALID", 0, 0, .rw, 0⟩]⟩,
  ⟨"XTL_CTRL", 0x50c00, [], [⟨"MODE", 1, 0, .rw, 0⟩, ⟨"REF_FREQ", 5, 4, .rw, 0⟩, ⟨"DISC_BW", 9, 8, .rw, 1⟩, ⟨"REFOUT_EN", 12, 12, .rw, 1⟩]⟩,
  ⟨"XTL_STATUS", 0x50c04, [], [⟨"REF_OK", 0, 0, .ro, 0⟩, ⟨"REF_DET", 2, 1, .ro, 0⟩, ⟨"CLAMP", 3, 3, .ro, 0⟩]⟩,
  ⟨"XTL_TUNE", 0x50c08, [], [⟨"TUNE", 31, 0, .rw, 0⟩]⟩,
  ⟨"XTL_AGE", 0x50c0c, [], [⟨"AGE", 31, 0, .rw, 0⟩]⟩,
  ⟨"XTL_AGE_RATE", 0x50c10, [], [⟨"RATE", 31, 0, .rw, 0⟩]⟩,
  ⟨"XTL_CORR", 0x50c14, [], [⟨"CORR", 31, 0, .ro, 0⟩]⟩,
  ⟨"XTL_TEMP", 0x50c18, [], [⟨"TEMP", 15, 0, .ro, 0⟩]⟩,
  ⟨"XTL_TC_TEMP", 0x50c40, [(16, 8)], [⟨"TEMP", 15, 0, .ro, 0⟩]⟩,
  ⟨"XTL_TC_CORR", 0x50c44, [(16, 8)], [⟨"CORR", 31, 0, .ro, 0⟩]⟩,
  ⟨"PTP_CFG", 0x51000, [(16, 0x100)], [⟨"EN", 0, 0, .rw, 0⟩, ⟨"L2", 1, 1, .rw, 0⟩, ⟨"UDP4", 2, 2, .rw, 0⟩, ⟨"UDP6", 3, 3, .rw, 0⟩, ⟨"GM_FILT", 4, 4, .rw, 0⟩, ⟨"DOMAIN", 15, 8, .rw, 0⟩]⟩]

/-- Rows from offset 0x51004. -/
def regRows5 : List RegRow := [
  ⟨"PTP_INGRESS_PS", 0x51004, [(16, 0x100)], [⟨"PS", 31, 0, .rw, 0⟩]⟩,
  ⟨"PTP_EGRESS_PS", 0x51008, [(16, 0x100)], [⟨"PS", 31, 0, .rw, 0⟩]⟩,
  ⟨"PTP_ASYM_PS", 0x5100c, [(16, 0x100)], [⟨"PS", 31, 0, .rw, 0⟩]⟩,
  ⟨"PTP_TXQ_STATUS", 0x51010, [(16, 0x100)], [⟨"COUNT", 4, 0, .ro, 0⟩, ⟨"OVF", 8, 8, .w1c, 0⟩]⟩,
  ⟨"PTP_TXQ_LOST", 0x51014, [(16, 0x100)], [⟨"COUNT", 31, 0, .rc, 0⟩]⟩,
  ⟨"PTP_TXQ_ID", 0x51020, [(16, 0x100)], [⟨"ID", 15, 0, .ro, 0⟩, ⟨"VALID", 31, 31, .ro, 0⟩]⟩,
  ⟨"PTP_TXQ_EPOCH", 0x51024, [(16, 0x100)], [⟨"EPOCH", 15, 0, .ro, 0⟩]⟩,
  ⟨"PTP_TXQ_TS", 0x51028, [(16, 0x100), (3, 4)], [⟨"TS", 31, 0, .ro, 0⟩]⟩,
  ⟨"PTP_TXQ_POP", 0x51034, [(16, 0x100)], [⟨"POP", 0, 0, .wo, 0⟩]⟩,
  ⟨"PTP_GM_DROP", 0x51040, [(16, 0x100)], [⟨"COUNT", 31, 0, .rc, 0⟩]⟩,
  ⟨"LQ_CFG", 0x52000, [(4, 0x100), (8, 0x10)], [⟨"EN", 0, 0, .rw, 0⟩, ⟨"LATE", 1, 1, .rw, 0⟩]⟩,
  ⟨"LQ_SENT", 0x52004, [(4, 0x100), (8, 0x10)], [⟨"COUNT", 31, 0, .rc, 0⟩]⟩,
  ⟨"LQ_LATE", 0x52008, [(4, 0x100), (8, 0x10)], [⟨"COUNT", 31, 0, .rc, 0⟩]⟩,
  ⟨"LQ_DROP", 0x5200c, [(4, 0x100), (8, 0x10)], [⟨"COUNT", 31, 0, .rc, 0⟩]⟩,
  ⟨"TDC_IN_CFG", 0x60000, [(20, 0x40)], [⟨"EN", 0, 0, .rw, 0⟩, ⟨"EDGE", 2, 1, .rw, 0⟩, ⟨"DRAIN", 3, 3, .rw, 0⟩, ⟨"HAL_EN", 4, 4, .rw, 0⟩, ⟨"HAL", 13, 8, .rw, 0⟩, ⟨"BATCH_LOG2", 19, 16, .rw, 8⟩, ⟨"SEL", 26, 24, .rw, 0⟩]⟩,
  ⟨"TDC_IN_RING", 0x60004, [(20, 0x40)], [⟨"RING", 9, 0, .rw, 0⟩]⟩,
  ⟨"TDC_IN_STATUS", 0x60008, [(20, 0x40)], [⟨"FILL", 12, 0, .ro, 0⟩, ⟨"OVF", 16, 16, .w1c, 0⟩, ⟨"HAL_CONFLICT", 17, 17, .w1c, 0⟩]⟩,
  ⟨"TDC_IN_LOST", 0x6000c, [(20, 0x40)], [⟨"COUNT", 31, 0, .rc, 0⟩]⟩,
  ⟨"TDC_IN_DEADTIME", 0x60010, [(20, 0x40)], [⟨"COUNT", 31, 0, .rc, 0⟩]⟩,
  ⟨"TDC_IN_EVNO_LO", 0x60014, [(20, 0x40)], [⟨"EVNO", 31, 0, .ro, 0⟩]⟩]

/-- Rows from offset 0x60018. -/
def regRows6 : List RegRow := [
  ⟨"TDC_IN_EVNO_HI", 0x60018, [(20, 0x40)], [⟨"EVNO", 31, 0, .ro, 0⟩]⟩,
  ⟨"TDC_IN_DELAY", 0x6001c, [(20, 0x40)], [⟨"PS", 15, 0, .ro, 0⟩]⟩,
  ⟨"TDC_IN_Q", 0x60020, [(20, 0x40)], [⟨"EPOCH", 15, 0, .ro, 0⟩, ⟨"EDGE", 16, 16, .ro, 0⟩, ⟨"VALID", 31, 31, .ro, 0⟩]⟩,
  ⟨"TDC_IN_Q_TS", 0x60024, [(20, 0x40), (3, 4)], [⟨"TS", 31, 0, .ro, 0⟩]⟩,
  ⟨"TDC_IN_POP", 0x60030, [(20, 0x40)], [⟨"POP", 0, 0, .wo, 0⟩]⟩,
  ⟨"TDC_IN_BATCH_NS", 0x60034, [(20, 0x40)], [⟨"NS", 31, 0, .rw, 0xf4240⟩]⟩,
  ⟨"TDC_M_CFG", 0x61000, [(8, 0x40)], [⟨"MODE", 1, 0, .rw, 0⟩, ⟨"A", 12, 8, .rw, 0⟩, ⟨"B", 20, 16, .rw, 0⟩, ⟨"REPEAT", 24, 24, .rw, 0⟩, ⟨"LOG", 28, 28, .rw, 0⟩]⟩,
  ⟨"TDC_M_N", 0x61004, [(8, 0x40)], [⟨"N", 31, 0, .rw, 0⟩]⟩,
  ⟨"TDC_M_GATE_LO", 0x61008, [(8, 0x40)], [⟨"NS", 31, 0, .rw, 0xf4240⟩]⟩,
  ⟨"TDC_M_GATE_HI", 0x6100c, [(8, 0x40)], [⟨"NS", 7, 0, .rw, 0⟩]⟩,
  ⟨"TDC_M_CMD", 0x61010, [(8, 0x40)], [⟨"CMD", 1, 0, .wo, 0⟩]⟩,
  ⟨"TDC_M_STATUS", 0x61014, [(8, 0x40)], [⟨"STATE", 1, 0, .ro, 0⟩, ⟨"CODE", 15, 8, .ro, 0⟩, ⟨"SEQ", 31, 16, .ro, 0⟩]⟩,
  ⟨"TDC_M_RES", 0x61018, [(8, 0x40), (2, 4)], [⟨"MEAN", 31, 0, .ro, 0⟩]⟩,
  ⟨"TDC_M_SDEV", 0x61020, [(8, 0x40), (2, 4)], [⟨"SDEV", 31, 0, .ro, 0⟩]⟩,
  ⟨"TDC_M_MIN", 0x61028, [(8, 0x40), (2, 4)], [⟨"MIN", 31, 0, .ro, 0⟩]⟩,
  ⟨"TDC_M_MAX", 0x61030, [(8, 0x40), (2, 4)], [⟨"MAX", 31, 0, .ro, 0⟩]⟩,
  ⟨"TDC_M_COUNT", 0x61038, [(8, 0x40)], [⟨"COUNT", 31, 0, .ro, 0⟩]⟩,
  ⟨"TDC_M_RING", 0x6103c, [(8, 0x40)], [⟨"RING", 9, 0, .rw, 0⟩]⟩,
  ⟨"MRK_CFG", 0x62000, [(8, 0x40)], [⟨"MODE", 2, 0, .rw, 0⟩, ⟨"POL", 4, 4, .rw, 0⟩, ⟨"HAL", 13, 8, .rw, 0⟩]⟩,
  ⟨"MRK_WIDTH", 0x62004, [(8, 0x40)], [⟨"NS", 15, 0, .rw, 0x64⟩]⟩]

/-- Rows from offset 0x62008. -/
def regRows7 : List RegRow := [
  ⟨"MRK_TIME_FRAC", 0x62008, [(8, 0x40)], [⟨"FRAC", 15, 0, .rw, 0⟩]⟩,
  ⟨"MRK_TIME_NS", 0x6200c, [(8, 0x40)], [⟨"NS", 29, 0, .rw, 0⟩]⟩,
  ⟨"MRK_TIME_SEC_LO", 0x62010, [(8, 0x40)], [⟨"SEC", 31, 0, .rw, 0⟩]⟩,
  ⟨"MRK_TIME_SEC_HI", 0x62014, [(8, 0x40)], [⟨"SEC", 15, 0, .rw, 0⟩]⟩,
  ⟨"MRK_PERIOD", 0x62018, [(8, 0x40)], [⟨"NS", 31, 0, .rw, 0x3b9aca00⟩]⟩,
  ⟨"MRK_DROP", 0x6201c, [(8, 0x40)], [⟨"COUNT", 31, 0, .rc, 0⟩]⟩,
  ⟨"MRK_STATUS", 0x62020, [(8, 0x40)], [⟨"ARMED", 0, 0, .ro, 0⟩]⟩,
  ⟨"AXS_AX_CFG", 0x80100, [], [⟨"EN", 0, 0, .ro, 1⟩]⟩,
  ⟨"AXS_AX_CFG", 0x80140, [(2, 0x40)], [⟨"EN", 0, 0, .rw, 0⟩, ⟨"MODE", 1, 1, .rw, 0⟩, ⟨"INV", 2, 2, .rw, 0⟩, ⟨"INDEX_EN", 3, 3, .rw, 0⟩, ⟨"FILTER", 15, 8, .rw, 0⟩, ⟨"PRED_LOG2", 19, 16, .rw, 2⟩]⟩,
  ⟨"AXS_AX_CFG", 0x801c0, [], [⟨"EN", 0, 0, .rw, 0⟩, ⟨"BW", 25, 24, .rw, 1⟩]⟩,
  ⟨"AXS_AX_STATUS", 0x80104, [], [⟨"STATE", 2, 0, .ro, 1⟩]⟩,
  ⟨"AXS_AX_STATUS", 0x80144, [(3, 0x40)], [⟨"STATE", 2, 0, .ro, 0⟩, ⟨"DIR", 3, 3, .ro, 0⟩, ⟨"OVERSPEED", 4, 4, .w1c, 0⟩]⟩,
  ⟨"AXS_AX_VAL_LO", 0x80108, [(4, 0x40)], [⟨"VAL", 31, 0, .ro, 0⟩]⟩,
  ⟨"AXS_AX_VAL_HI", 0x8010c, [(4, 0x40)], [⟨"VAL", 31, 0, .ro, 0⟩]⟩,
  ⟨"AXS_AX_VEL", 0x80110, [], [⟨"VEL", 31, 0, .ro, 0x3b9aca00⟩]⟩,
  ⟨"AXS_AX_VEL", 0x80150, [(3, 0x40)], [⟨"VEL", 31, 0, .ro, 0⟩]⟩,
  ⟨"AXS_AX_HOME_LO", 0x80154, [(2, 0x40)], [⟨"HOME", 31, 0, .rw, 0⟩]⟩,
  ⟨"AXS_AX_HOME_HI", 0x80158, [(2, 0x40)], [⟨"HOME", 31, 0, .rw, 0⟩]⟩,
  ⟨"AXS_AX_CMD", 0x8015c, [(2, 0x40)], [⟨"HOME", 0, 0, .w1s, 0⟩]⟩,
  ⟨"AXS_AX_IDX_LO", 0x80160, [(2, 0x40)], [⟨"IDX", 31, 0, .ro, 0⟩]⟩,
  ⟨"AXS_AX_IDX_HI", 0x80164, [(2, 0x40)], [⟨"IDX", 31, 0, .ro, 0⟩]⟩,
  ⟨"AXS_AX_ERR", 0x80168, [(2, 0x40)], [⟨"ILLEGAL", 15, 0, .rc, 0⟩, ⟨"GLITCH", 31, 16, .rc, 0⟩]⟩,
  ⟨"AXS_AX_LOCK", 0x801ec, [], [⟨"WINDOW", 6, 0, .rw, 8⟩, ⟨"CYCLES", 31, 16, .rw, 0x3e8⟩]⟩,
  ⟨"AXS_AX_LOSS", 0x801f0, [], [⟨"UNLOCK", 7, 0, .rw, 0x20⟩, ⟨"CYCLES", 15, 8, .rw, 4⟩]⟩]

/-- Rows from offset 0x80134. -/
def regRows8 : List RegRow := [
  ⟨"AXS_AX_EVT", 0x801f4, [], [⟨"INPUT", 3, 0, .rw, 8⟩, ⟨"EDGE", 4, 4, .rw, 0⟩, ⟨"PHERR", 31, 16, .ro, 0⟩]⟩,
  ⟨"AXS_AX_PERIOD", 0x80178, [(3, 0x40)], [⟨"NS", 31, 0, .ro, 0⟩]⟩,
  ⟨"AXS_AX_PHOFF", 0x801fc, [], [⟨"PHOFF", 31, 0, .rw, 0⟩]⟩,
  ⟨"CUE_CTRL", 0x80400, [], [⟨"EN", 0, 0, .rw, 0⟩, ⟨"LOG", 1, 1, .rw, 0⟩, ⟨"RING", 25, 16, .rw, 0⟩]⟩,
  ⟨"CUE_STATUS", 0x80404, [], [⟨"PREPARED", 6, 0, .ro, 0⟩, ⟨"ARMED", 28, 16, .ro, 0⟩]⟩,
  ⟨"CUE_ERR", 0x80408, [], [⟨"ENTRY", 11, 0, .ro, 0⟩, ⟨"CODE", 23, 16, .ro, 0⟩, ⟨"VALID", 31, 31, .w1c, 0⟩]⟩,
  ⟨"CUE_COMMITS", 0x8040c, [], [⟨"COUNT", 31, 0, .rc, 0⟩]⟩,
  ⟨"CUE_ABANDON", 0x80410, [], [⟨"COUNT", 31, 0, .rc, 0⟩]⟩,
  ⟨"CUE_ABANDON_LAST", 0x80414, [], [⟨"ENTRY", 11, 0, .ro, 0⟩, ⟨"CAUSE", 18, 16, .ro, 0⟩]⟩,
  ⟨"CUE_MISSED", 0x80418, [], [⟨"COUNT", 31, 0, .rc, 0⟩]⟩,
  ⟨"CUE_LATE", 0x8041c, [], [⟨"COUNT", 31, 0, .rc, 0⟩]⟩,
  ⟨"CUE_COLLIDE", 0x80420, [], [⟨"COUNT", 31, 0, .rc, 0⟩]⟩,
  ⟨"CUE_SNAP_MISS", 0x80424, [], [⟨"COUNT", 31, 0, .rc, 0⟩]⟩,
  ⟨"CUE_WDROP", 0x80428, [], [⟨"COUNT", 31, 0, .rc, 0⟩]⟩,
  ⟨"CUE_SKIP", 0x8042c, [], [⟨"COUNT", 31, 0, .rc, 0⟩]⟩,
  ⟨"CUE_LOG_DROP", 0x80430, [], [⟨"COUNT", 31, 0, .rc, 0⟩]⟩,
  ⟨"CUE_EVT_ENTRY", 0x80434, [], [⟨"COMMIT", 11, 0, .ro, 0⟩, ⟨"ABANDON", 27, 16, .ro, 0⟩]⟩,
  ⟨"CUE_GRP_EN", 0x80440, [(8, 4)], [⟨"EN", 31, 0, .rw, 0xffffffff⟩]⟩,
  ⟨"CUE_STATE", 0x81000, [(512, 4)], [⟨"STATES", 31, 0, .ro, 0⟩]⟩,
  ⟨"CUE_ENTRY", 0x90000, [(4096, 0x20), (8, 4)], [⟨"WORD", 31, 0, .rw, 0⟩]⟩]

/-- Rows from offset 0xc0000. -/
def regRows9 : List RegRow := [
  ⟨"CNV_CMD", 0xc0000, [(8, 0x1000)], [⟨"CMD", 1, 0, .wo, 0⟩]⟩,
  ⟨"CNV_CTRL", 0xc0004, [(8, 0x1000)], [⟨"PAIRED", 0, 0, .rw, 0⟩, ⟨"OVR_BLANK", 1, 1, .rw, 0⟩, ⟨"OVR_HAL_EN", 2, 2, .rw, 0⟩, ⟨"OVR_HAL", 13, 8, .rw, 0⟩]⟩,
  ⟨"CNV_STATUS", 0xc0008, [(8, 0x1000)], [⟨"STATE", 2, 0, .ro, 0⟩, ⟨"PAIRED", 3, 3, .ro, 0⟩, ⟨"PAIR_PENDING", 4, 4, .ro, 0⟩, ⟨"OVR", 5, 5, .ro, 0⟩, ⟨"BLANKING", 6, 6, .ro, 0⟩, ⟨"TONE", 7, 7, .ro, 0⟩, ⟨"HOLDOVER", 8, 8, .ro, 0⟩, ⟨"CAL_STALE", 9, 9, .ro, 0⟩, ⟨"HAL_CONFLICT", 10, 10, .w1c, 0⟩, ⟨"CODE", 23, 16, .ro, 0⟩]⟩,
  ⟨"CNV_ATTEN", 0xc000c, [(8, 0x1000)], [⟨"ATTEN", 4, 0, .rw, 0x1f⟩]⟩,
  ⟨"CNV_ATTEN_ACT", 0xc0010, [(8, 0x1000)], [⟨"SETTING", 4, 0, .ro, 0x1f⟩, ⟨"ACTUAL", 31, 16, .ro, 0⟩]⟩,
  ⟨"CNV_OVR_CFG", 0xc0014, [(8, 0x1000)], [⟨"THRESH", 10, 0, .rw, 0x7ff⟩, ⟨"DWELL", 27, 16, .rw, 1⟩]⟩,
  ⟨"CNV_OVR_REL", 0xc0018, [(8, 0x1000)], [⟨"RELEASE", 15, 0, .rw, 0x3e8⟩]⟩,
  ⟨"CNV_OVR_COUNT", 0xc001c, [(8, 0x1000)], [⟨"COUNT", 31, 0, .rc, 0⟩]⟩,
  ⟨"CNV_BLANK_LO", 0xc0020, [(8, 0x1000)], [⟨"BLANK", 31, 0, .ro, 0⟩]⟩,
  ⟨"CNV_BLANK_HI", 0xc0024, [(8, 0x1000)], [⟨"BLANK", 31, 0, .ro, 0⟩]⟩,
  ⟨"CNV_START_IDX_LO", 0xc0028, [(8, 0x1000)], [⟨"IDX", 31, 0, .ro, 0⟩]⟩,
  ⟨"CNV_START_IDX_HI", 0xc002c, [(8, 0x1000)], [⟨"IDX", 31, 0, .ro, 0⟩]⟩,
  ⟨"CNV_IDX_LO", 0xc0030, [(8, 0x1000)], [⟨"IDX", 31, 0, .ro, 0⟩]⟩,
  ⟨"CNV_IDX_HI", 0xc0034, [(8, 0x1000)], [⟨"IDX", 31, 0, .ro, 0⟩]⟩,
  ⟨"CNV_DELAY", 0xc0038, [(8, 0x1000)], [⟨"DELAY", 15, 0, .ro, 0⟩]⟩,
  ⟨"CNV_SLICE", 0xc003c, [(8, 0x1000)], [⟨"SPARES_LEFT", 2, 0, .ro, 0⟩, ⟨"PENDING", 14, 8, .ro, 0⟩, ⟨"RETIRED", 22, 16, .ro, 0⟩, ⟨"DEGRADED", 24, 24, .ro, 0⟩]⟩,
  ⟨"CNV_MON_LIM", 0xc0040, [(8, 0x1000)], [⟨"OFFSET", 7, 0, .rw, 0x40⟩, ⟨"GAIN", 15, 8, .rw, 0x32⟩, ⟨"SKEW", 31, 16, .rw, 0x12c⟩]⟩,
  ⟨"CNV_SLOT", 0xc0100, [(8, 0x1000), (64, 4)], [⟨"PHYS", 6, 0, .ro, 0⟩, ⟨"MON_FAIL", 8, 8, .w1c, 0⟩, ⟨"PENDING_SWAP", 9, 9, .ro, 0⟩, ⟨"STALE", 10, 10, .ro, 0⟩]⟩,
  ⟨"CNV_PHYS", 0xc0200, [(8, 0x1000), (68, 4)], [⟨"ROLE", 1, 0, .ro, 0⟩, ⟨"SLOT", 13, 8, .ro, 0⟩, ⟨"FIELD", 16, 16, .ro, 0⟩]⟩,
  ⟨"CNV_MON", 0xc0400, [(8, 0x1000), (64, 8)], [⟨"OFFSET_ERR", 15, 0, .ro, 0⟩, ⟨"GAIN_ERR", 31, 16, .ro, 0⟩]⟩]

/-- Rows from offset 0xc0404. -/
def regRows10 : List RegRow := [
  ⟨"CNV_MON_SKEW", 0xc0404, [(8, 0x1000), (64, 8)], [⟨"SKEW_ERR", 15, 0, .ro, 0⟩]⟩,
  ⟨"CAL_CMD", 0xc8000, [], [⟨"INPUT", 2, 0, .wo, 0⟩, ⟨"OP", 5, 4, .wo, 0⟩]⟩,
  ⟨"CAL_STATUS", 0xc8004, [], [⟨"POWERUP_DONE", 0, 0, .ro, 0⟩, ⟨"ENGINE_BUSY", 1, 1, .ro, 0⟩, ⟨"ENGINE_INPUT", 4, 2, .ro, 0⟩, ⟨"GEN_USED", 6, 5, .ro, 0⟩, ⟨"FACTORY", 7, 7, .ro, 0⟩, ⟨"GEN_SKIPPED", 8, 8, .ro, 0⟩, ⟨"REF_STALE", 9, 9, .ro, 0⟩, ⟨"TEMP_STALE", 10, 10, .ro, 0⟩, ⟨"PLL_STALE", 22, 11, .ro, 0⟩, ⟨"ARCH_FAIL", 23, 23, .w1c, 0⟩]⟩,
  ⟨"CAL_PU_TIME", 0xc8008, [], [⟨"MS", 31, 0, .ro, 0⟩]⟩,
  ⟨"CAL_SLOT_REFUSE", 0xc800c, [], [⟨"COUNT", 31, 0, .rc, 0⟩]⟩,
  ⟨"CAL_IN_STATUS", 0xc8100, [(8, 0x20)], [⟨"CAUSE", 1, 0, .ro, 0⟩, ⟨"QUEUED", 2, 2, .ro, 0⟩, ⟨"CODE", 15, 8, .ro, 0⟩, ⟨"STALE", 23, 16, .ro, 0⟩]⟩,
  ⟨"CAL_IN_SEQ", 0xc8104, [(8, 0x20)], [⟨"SEQ", 31, 0, .ro, 0⟩]⟩,
  ⟨"CAL_IN_TIME", 0xc8108, [(8, 0x20)], [⟨"US", 31, 0, .ro, 0⟩]⟩,
  ⟨"CAL_IN_TEMP", 0xc810c, [(8, 0x20)], [⟨"TEMP", 15, 0, .ro, 0⟩]⟩,
  ⟨"CAL_IN_TEMP_LIM", 0xc8110, [(8, 0x20)], [⟨"LIM", 7, 0, .rw, 0x28⟩]⟩,
  ⟨"CAL_IN_ACCEPT", 0xc8114, [(8, 0x20)], [⟨"PENDING", 0, 0, .ro, 0⟩]⟩,
  ⟨"CAL_LIMIT_MIN", 0xc8400, [(8, 0x10)], [⟨"MIN", 31, 0, .ro, 0⟩]⟩,
  ⟨"CAL_LIMIT_MAX", 0xc8404, [(8, 0x10)], [⟨"MAX", 31, 0, .ro, 0⟩]⟩,
  ⟨"CAL_LIMIT_DELTA", 0xc8408, [(8, 0x10)], [⟨"DELTA", 31, 0, .ro, 0⟩]⟩,
  ⟨"CAL_REPORT", 0xc9000, [(8, 0x800), (369, 4)], [⟨"WORD", 31, 0, .ro, 0⟩]⟩,
  ⟨"FMR_CTRL", 0x100000, [], [⟨"GOVERN", 0, 0, .rw, 0⟩]⟩,
  ⟨"FMR_STATUS", 0x100004, [], [⟨"ACTIVE", 7, 0, .ro, 0⟩, ⟨"LOADING", 15, 8, .ro, 0⟩, ⟨"REEF", 16, 16, .ro, 0⟩, ⟨"HALTED", 17, 17, .ro, 0⟩]⟩,
  ⟨"FMR_COMPAT", 0x100008, [], [⟨"IDENT", 31, 0, .ro, 0x4c580830⟩]⟩,
  ⟨"FMR_PROFILE", 0x10000c, [], [⟨"PROFILE", 31, 0, .ro, 1⟩]⟩,
  ⟨"FMR_KNOB_ERR", 0x100010, [], [⟨"COUNT", 31, 0, .rc, 0⟩]⟩]

/-- Rows from offset 0x100020. -/
def regRows11 : List RegRow := [
  ⟨"FMR_HAL_SEEN", 0x100020, [(2, 4)], [⟨"SEEN", 31, 0, .w1c, 0⟩]⟩,
  ⟨"FMR_SEC_DONE", 0x100030, [(4, 4)], [⟨"DONE", 31, 0, .w1c, 0⟩]⟩,
  ⟨"FMR_IMG_RING", 0x100100, [(2, 0x40)], [⟨"RING", 9, 0, .rw, 0⟩]⟩,
  ⟨"FMR_IMG_OFFSET_LO", 0x100104, [(2, 0x40)], [⟨"OFFSET_LO", 31, 0, .rw, 0⟩]⟩,
  ⟨"FMR_IMG_OFFSET_HI", 0x100108, [(2, 0x40)], [⟨"OFFSET_HI", 31, 0, .rw, 0⟩]⟩,
  ⟨"FMR_IMG_CMD", 0x10010c, [(2, 0x40)], [⟨"CMD", 1, 0, .wo, 0⟩]⟩,
  ⟨"FMR_IMG_STATUS", 0x100110, [(2, 0x40)], [⟨"STATE", 2, 0, .ro, 0⟩, ⟨"CODE", 15, 8, .ro, 0⟩, ⟨"SIGNED", 16, 16, .ro, 0⟩, ⟨"KEY", 18, 17, .ro, 0⟩, ⟨"DEV", 19, 19, .ro, 0⟩]⟩,
  ⟨"FMR_IMG_SECTIONS", 0x100114, [(2, 0x40)], [⟨"SECTIONS", 7, 0, .ro, 0⟩]⟩,
  ⟨"FMR_IMG_ID", 0x100118, [(2, 0x40), (4, 4)], [⟨"ID0_ID3", 31, 0, .ro, 0⟩]⟩,
  ⟨"FMR_IMG_WDROP", 0x100128, [(2, 0x40)], [⟨"WDROP", 31, 0, .rc, 0⟩]⟩,
  ⟨"FMR_HAL_MERGE", 0x100200, [(64, 4)], [⟨"COUNT", 31, 0, .rc, 0⟩]⟩,
  ⟨"FMR_HAL_DRV", 0x100300, [(64, 4)], [⟨"KIND", 3, 0, .ro, 0⟩, ⟨"INDEX", 15, 8, .ro, 0⟩]⟩,
  ⟨"FMR_CAP", 0x100800, [(64, 4)], [⟨"CAPACITY", 8, 0, .ro, 0⟩, ⟨"SPARES", 15, 12, .ro, 0⟩, ⟨"RETIRED", 24, 16, .ro, 0⟩]⟩,
  ⟨"FMR_SEC_OP", 0x101000, [(128, 0x10)], [⟨"OP", 3, 0, .wo, 0⟩, ⟨"SUPERSEDE", 8, 8, .wo, 0⟩, ⟨"SLOT", 12, 12, .wo, 0⟩]⟩,
  ⟨"FMR_SEC_STATE", 0x101004, [(128, 0x10)], [⟨"STATE", 2, 0, .ro, 0⟩, ⟨"SLOT", 8, 8, .ro, 0⟩, ⟨"CODE", 23, 16, .ro, 0⟩, ⟨"KNOB_HOLD", 24, 24, .ro, 0⟩]⟩,
  ⟨"FMR_SEC_LOADTIME", 0x101008, [(128, 0x10)], [⟨"LOADTIME", 31, 0, .ro, 0⟩]⟩,
  ⟨"FMR_SEC_COUNT", 0x10100c, [(128, 0x10)], [⟨"KNOB_REFUSE", 15, 0, .rc, 0⟩, ⟨"ABANDONED", 31, 16, .rc, 0⟩]⟩,
  ⟨"GAL_STATUS", 0x300000, [], [⟨"READY", 0, 0, .ro, 0⟩, ⟨"STONE", 15, 8, .ro, 0⟩, ⟨"CHANNELS", 22, 16, .ro, 0⟩, ⟨"FROZEN", 23, 23, .ro, 0⟩, ⟨"CODE", 31, 24, .ro, 0⟩]⟩,
  ⟨"GAL_ANCHOR", 0x300004, [], [⟨"RING", 9, 0, .rw, 0x3ff⟩, ⟨"EN", 31, 31, .rw, 0⟩]⟩,
  ⟨"GAL_ANCHOR_LOST", 0x300008, [], [⟨"LOST", 31, 0, .rc, 0⟩]⟩]

/-- Rows from offset 0x30000c. -/
def regRows12 : List RegRow := [
  ⟨"GAL_FAULT_PAGE", 0x30000c, [], [⟨"PAGE", 16, 0, .ro, 0⟩]⟩,
  ⟨"GAL_FAULT_ADDR_LO", 0x300010, [], [⟨"ADDR", 31, 0, .ro, 0⟩]⟩,
  ⟨"GAL_FAULT_ADDR_HI", 0x300014, [], [⟨"ADDR", 7, 0, .ro, 0⟩]⟩,
  ⟨"GAL_FAULT_INFO", 0x300018, [], [⟨"CAUSE", 1, 0, .ro, 0⟩, ⟨"RING", 25, 16, .ro, 0⟩, ⟨"DIR", 28, 28, .ro, 0⟩, ⟨"VALID", 31, 31, .w1c, 0⟩]⟩,
  ⟨"GAL_FAULT_COUNT", 0x30001c, [], [⟨"COUNT", 31, 0, .rc, 0⟩]⟩,
  ⟨"GAL_MAP_IDX", 0x300020, [], [⟨"IDX", 16, 0, .rw, 0⟩]⟩,
  ⟨"GAL_MAP_LO", 0x300024, [], [⟨"ENTRY", 31, 0, .rw, 0⟩]⟩,
  ⟨"GAL_MAP_HI", 0x300028, [], [⟨"ENTRY", 31, 0, .rw, 0⟩]⟩,
  ⟨"GAL_CACHE_MISS", 0x30002c, [], [⟨"COUNT", 31, 0, .rc, 0⟩]⟩,
  ⟨"GAL_STONE_FULL", 0x300030, [], [⟨"COUNT", 31, 0, .rc, 0⟩]⟩,
  ⟨"GAL_HOST_ERR", 0x300034, [], [⟨"COUNT", 31, 0, .rc, 0⟩]⟩,
  ⟨"GAL_NOWHERE", 0x300038, [], [⟨"COUNT", 31, 0, .rc, 0⟩]⟩,
  ⟨"GAL_RING_CFG", 0x304000, [(1024, 0x20)], [⟨"EN", 0, 0, .rw, 0⟩, ⟨"MODE", 1, 1, .rw, 0⟩, ⟨"HOST_RD", 2, 2, .rw, 0⟩, ⟨"AXIS", 5, 4, .rw, 0⟩, ⟨"NOAXIS", 6, 6, .rw, 0⟩, ⟨"IRQ_EN", 15, 8, .rw, 0⟩, ⟨"THRESH", 23, 16, .rw, 0xc0⟩]⟩,
  ⟨"GAL_RING_BASE", 0x304004, [(1024, 0x20)], [⟨"BASE", 16, 0, .rw, 0⟩]⟩,
  ⟨"GAL_RING_PAGES", 0x304008, [(1024, 0x20)], [⟨"PAGES", 16, 0, .rw, 0⟩]⟩,
  ⟨"GAL_RING_WR_LO", 0x30400c, [(1024, 0x20)], [⟨"WR", 31, 0, .rw, 0⟩]⟩,
  ⟨"GAL_RING_WR_HI", 0x304010, [(1024, 0x20)], [⟨"WR", 31, 0, .rw, 0⟩]⟩,
  ⟨"GAL_RING_RD_LO", 0x304014, [(1024, 0x20)], [⟨"RD", 31, 0, .rw, 0⟩]⟩,
  ⟨"GAL_RING_RD_HI", 0x304018, [(1024, 0x20)], [⟨"RD", 31, 0, .rw, 0⟩]⟩,
  ⟨"GAL_RING_STAT", 0x30401c, [(1024, 0x20)], [⟨"EVENTS", 7, 0, .w1c, 0⟩, ⟨"WRITERS", 15, 8, .ro, 0⟩, ⟨"READERS", 23, 16, .ro, 0⟩, ⟨"OVF_OPEN", 24, 24, .ro, 0⟩, ⟨"CODE", 31, 28, .ro, 0⟩]⟩]

/-- Rows from offset 0x30c000. -/
def regRows13 : List RegRow := [
  ⟨"GAL_RING_CNT_OVF", 0x30c000, [(1024, 0x10)], [⟨"OVF_UNITS", 31, 0, .rc, 0⟩]⟩,
  ⟨"GAL_RING_CNT_DROPPED", 0x30c004, [(1024, 0x10)], [⟨"DROPPED", 31, 0, .rc, 0⟩]⟩,
  ⟨"GAL_RING_CNT_OVERRUN", 0x30c008, [(1024, 0x10)], [⟨"OVERRUN", 31, 0, .rc, 0⟩]⟩,
  ⟨"GAL_RING_CNT_MISC", 0x30c00c, [(1024, 0x10)], [⟨"CTX_MERGED", 15, 0, .rc, 0⟩, ⟨"DEAD_PAGES", 31, 16, .ro, 0⟩]⟩,
  ⟨"DRC_CH_STATUS", 0x310000, [(68, 0x400)], [⟨"STATE", 2, 0, .ro, 0⟩, ⟨"SLOT", 13, 8, .ro, 0⟩, ⟨"HOT", 14, 14, .ro, 0⟩, ⟨"INORDER", 15, 15, .ro, 0⟩, ⟨"FIELD", 3, 3, .ro, 0⟩, ⟨"CODE", 23, 16, .ro, 0⟩]⟩,
  ⟨"DRC_CH_CMD", 0x310004, [(68, 0x400)], [⟨"CMD", 1, 0, .wo, 0⟩]⟩,
  ⟨"DRC_CH_CE", 0x310008, [(68, 0x400)], [⟨"COUNT", 31, 0, .rc, 0⟩]⟩,
  ⟨"DRC_CH_UE", 0x31000c, [(68, 0x400)], [⟨"COUNT", 31, 0, .rc, 0⟩]⟩,
  ⟨"DRC_CH_FRZ", 0x310010, [(68, 0x400)], [⟨"CAUSE", 1, 0, .ro, 0⟩, ⟨"SCRUB", 2, 2, .ro, 0⟩]⟩,
  ⟨"DRC_CH_FRZ_ADDR_LO", 0x310014, [(68, 0x400)], [⟨"ADDR", 31, 0, .ro, 0⟩]⟩,
  ⟨"DRC_CH_FRZ_ADDR_HI", 0x310018, [(68, 0x400)], [⟨"ADDR", 5, 0, .ro, 0⟩]⟩,
  ⟨"DRC_CH_FRZ_SYND", 0x31001c, [(68, 0x400)], [⟨"SYND", 31, 0, .ro, 0⟩]⟩,
  ⟨"DRC_CH_EYE", 0x310020, [(68, 0x400)], [⟨"EYE", 31, 0, .ro, 0⟩]⟩,
  ⟨"DRC_CH_INORDER", 0x310024, [(68, 0x400)], [⟨"COUNT", 31, 0, .rc, 0⟩]⟩,
  ⟨"DRC_CH_TEMP", 0x310028, [(68, 0x400)], [⟨"TEMP", 7, 0, .ro, 0⟩]⟩,
  ⟨"DRC_CH_LOG_CMD", 0x310100, [(68, 0x400), (32, 8)], [⟨"CMD", 3, 0, .ro, 0⟩, ⟨"BANK", 7, 4, .ro, 0⟩, ⟨"ROW", 24, 8, .ro, 0⟩]⟩,
  ⟨"DRC_CH_LOG_COL", 0x310104, [(68, 0x400), (32, 8)], [⟨"COL", 10, 0, .ro, 0⟩, ⟨"AGO", 31, 16, .ro, 0⟩]⟩,
  ⟨"DRC_CTRL", 0x328000, [], [⟨"APPLY", 0, 0, .w1s, 0⟩, ⟨"SCRUB_EN", 1, 1, .rw, 1⟩]⟩,
  ⟨"DRC_STATUS", 0x328004, [], [⟨"IN_SERVICE", 6, 0, .ro, 0⟩, ⟨"SPARES", 10, 8, .ro, 0⟩, ⟨"SELFREF", 11, 11, .ro, 0⟩, ⟨"CODE", 23, 16, .ro, 0⟩]⟩,
  ⟨"DRC_TRAIN_TIME", 0x328008, [], [⟨"US", 31, 0, .ro, 0⟩]⟩]

/-- Rows from offset 0x32800c. -/
def regRows14 : List RegRow := [
  ⟨"DRC_SR_TOL", 0x32800c, [], [⟨"NS", 31, 0, .ro, 0⟩]⟩,
  ⟨"DRC_SCRUB", 0x328010, [], [⟨"HOURS", 7, 0, .rw, 0x18⟩, ⟨"CE_THRESH", 23, 8, .rw, 0x3e8⟩]⟩,
  ⟨"DRC_FROZEN", 0x328020, [(3, 4)], [⟨"FROZEN", 31, 0, .ro, 0⟩]⟩,
  ⟨"DRC_MASK_LO", 0x328040, [(10, 8)], [⟨"MASK", 31, 0, .rw, 0⟩]⟩,
  ⟨"DRC_MASK_HI", 0x328044, [(10, 8)], [⟨"MASK", 7, 0, .rw, 0⟩]⟩,
  ⟨"DRC_SLOT", 0x328100, [(64, 4)], [⟨"PHYS", 6, 0, .ro, 0⟩, ⟨"NONE", 7, 7, .ro, 0⟩]⟩,
  ⟨"SPM_MARCH_CMD", 0x330000, [], [⟨"CMD", 1, 0, .wo, 0⟩, ⟨"ALG", 8, 8, .wo, 0⟩, ⟨"SECTION", 22, 16, .wo, 0⟩, ⟨"GANG", 27, 24, .wo, 0⟩]⟩,
  ⟨"SPM_MARCH_STATUS", 0x330004, [], [⟨"STATE", 1, 0, .ro, 0⟩, ⟨"CODE", 15, 8, .ro, 0⟩, ⟨"REPAIRED", 31, 16, .ro, 0⟩]⟩,
  ⟨"SPM_MARCH_TIME", 0x330008, [], [⟨"US", 31, 0, .ro, 0⟩]⟩,
  ⟨"SPM_PU_TIME", 0x33000c, [], [⟨"US", 31, 0, .ro, 0⟩]⟩,
  ⟨"SPM_PU_REPAIRED", 0x330010, [], [⟨"ROWS", 15, 0, .ro, 0⟩]⟩,
  ⟨"SPM_PU_RETIRED", 0x330014, [], [⟨"UNITS", 15, 0, .ro, 0⟩]⟩,
  ⟨"SPM_STONE_ROWS", 0x330018, [], [⟨"ROWS", 15, 0, .ro, 0⟩]⟩,
  ⟨"SPM_CNT_SEL", 0x330020, [], [⟨"SECTION", 6, 0, .rw, 0⟩, ⟨"GANG", 11, 8, .rw, 0⟩, ⟨"MASTER", 20, 16, .rw, 0⟩]⟩,
  ⟨"SPM_CNT_VAL", 0x330024, [], [⟨"COUNT", 31, 0, .rc, 0⟩]⟩,
  ⟨"SPM_ECC_CE", 0x330028, [], [⟨"COUNT", 31, 0, .rc, 0⟩]⟩,
  ⟨"SPM_ECC_UE", 0x33002c, [], [⟨"COUNT", 31, 0, .rc, 0⟩]⟩,
  ⟨"SPM_SORT", 0x330100, [(792, 4)], [⟨"SPARES", 3, 0, .ro, 8⟩, ⟨"RETIRE_PENDING", 8, 8, .ro, 0⟩, ⟨"RETIRED", 9, 9, .ro, 0⟩]⟩,
  ⟨"MOV_CTRL", 0x340000, [(64, 0x100)], [⟨"PRIO", 1, 0, .rw, 0⟩, ⟨"RATE", 15, 8, .rw, 0⟩, ⟨"BURST", 23, 16, .rw, 4⟩, ⟨"FILL", 31, 24, .rw, 0⟩]⟩,
  ⟨"MOV_CMD", 0x340004, [(64, 0x100)], [⟨"CMD", 1, 0, .wo, 0⟩]⟩]

/-- Rows from offset 0x340008. -/
def regRows15 : List RegRow := [
  ⟨"MOV_STATUS", 0x340008, [(64, 0x100)], [⟨"STATE", 1, 0, .ro, 2⟩, ⟨"ELEM", 7, 4, .ro, 0⟩, ⟨"CODE", 15, 8, .ro, 0⟩]⟩,
  ⟨"MOV_HEAD_LO", 0x34000c, [(64, 0x100)], [⟨"ADDR", 31, 0, .rw, 0⟩]⟩,
  ⟨"MOV_HEAD_HI", 0x340010, [(64, 0x100)], [⟨"ADDR", 31, 0, .rw, 0⟩]⟩,
  ⟨"MOV_CUR_LO", 0x340014, [(64, 0x100)], [⟨"ADDR", 31, 0, .ro, 0⟩]⟩,
  ⟨"MOV_CUR_HI", 0x340018, [(64, 0x100)], [⟨"ADDR", 31, 0, .ro, 0⟩]⟩,
  ⟨"MOV_DONE", 0x34001c, [(64, 0x100)], [⟨"COUNT", 31, 0, .rc, 0⟩]⟩,
  ⟨"MOV_BAD", 0x340020, [(64, 0x100)], [⟨"COUNT", 31, 0, .rc, 0⟩]⟩,
  ⟨"MOV_BYTES_LO", 0x340024, [(64, 0x100)], [⟨"BYTES", 31, 0, .ro, 0⟩]⟩,
  ⟨"MOV_BYTES_HI", 0x340028, [(64, 0x100)], [⟨"BYTES", 31, 0, .ro, 0⟩]⟩,
  ⟨"MOV_PREEMPT", 0x34002c, [(64, 0x100)], [⟨"COUNT", 31, 0, .rc, 0⟩]⟩,
  ⟨"MOV_ERR_ADDR_LO", 0x340030, [(64, 0x100)], [⟨"ADDR", 31, 0, .ro, 0⟩]⟩,
  ⟨"MOV_ERR_ADDR_HI", 0x340034, [(64, 0x100)], [⟨"ADDR", 31, 0, .ro, 0⟩]⟩,
  ⟨"MOV_OWNER", 0x340038, [(64, 0x100)], [⟨"PORT", 9, 0, .ro, 0⟩, ⟨"STR", 31, 31, .ro, 0⟩]⟩,
  ⟨"STR_CFG", 0x380000, [(1024, 0x40)], [⟨"TRANSPORT", 1, 0, .rw, 0⟩, ⟨"DIR", 2, 2, .rw, 0⟩, ⟨"PROV", 3, 3, .rw, 0⟩, ⟨"HOLDING", 4, 4, .rw, 1⟩, ⟨"START_AT", 5, 5, .rw, 0⟩, ⟨"RING", 15, 6, .rw, 0⟩, ⟨"MOVER", 21, 16, .rw, 0⟩, ⟨"IRQ_EN", 31, 24, .rw, 0⟩]⟩,
  ⟨"STR_CMD", 0x380004, [(1024, 0x40)], [⟨"CMD", 1, 0, .wo, 0⟩]⟩,
  ⟨"STR_STATUS", 0x380008, [(1024, 0x40)], [⟨"STATE", 2, 0, .ro, 0⟩, ⟨"HOLD_WAIT", 3, 3, .ro, 0⟩, ⟨"CODE", 15, 8, .ro, 0⟩, ⟨"EVENTS", 23, 16, .w1c, 0⟩]⟩,
  ⟨"STR_P", 0x38000c, [(1024, 0x40), (7, 4)], [⟨"P", 31, 0, .rw, 0⟩]⟩,
  ⟨"STR_POS_LO", 0x380028, [(1024, 0x40)], [⟨"POS", 31, 0, .ro, 0⟩]⟩,
  ⟨"STR_POS_HI", 0x38002c, [(1024, 0x40)], [⟨"POS", 31, 0, .ro, 0⟩]⟩,
  ⟨"STR_DROP", 0x380030, [(1024, 0x40)], [⟨"UNITS", 31, 0, .rc, 0⟩]⟩]

/-- Rows from offset 0x380034. -/
def regRows16 : List RegRow := [
  ⟨"STR_GAPS", 0x380034, [(1024, 0x40)], [⟨"COUNT", 31, 0, .rc, 0⟩]⟩,
  ⟨"STR_SKIP", 0x380038, [(1024, 0x40)], [⟨"COUNT", 31, 0, .rc, 0⟩]⟩,
  ⟨"STR_LEASE", 0x38003c, [(1024, 0x40)], [⟨"MS", 31, 0, .ro, 0⟩]⟩,
  ⟨"PCI_LINK", 0x390000, [], [⟨"SPEED", 3, 0, .ro, 0⟩, ⟨"WIDTH", 9, 4, .ro, 0⟩, ⟨"UP", 16, 16, .ro, 0⟩, ⟨"DEGRADED", 17, 17, .ro, 0⟩]⟩,
  ⟨"PCI_CE", 0x390004, [], [⟨"COUNT", 31, 0, .rc, 0⟩]⟩,
  ⟨"PCI_UE", 0x390008, [], [⟨"COUNT", 31, 0, .rc, 0⟩]⟩,
  ⟨"PCI_DOWN", 0x39000c, [], [⟨"COUNT", 31, 0, .rc, 0⟩]⟩,
  ⟨"PCI_ID", 0x390010, [], [⟨"ID", 31, 0, .ro, 0x8301fd4⟩]⟩,
  ⟨"NVM_CTRL", 0x390100, [], [⟨"SCAN", 0, 0, .w1s, 0⟩]⟩,
  ⟨"NVM_SCAN_STATUS", 0x390104, [], [⟨"BUSY", 0, 0, .ro, 0⟩, ⟨"ROUND", 31, 16, .ro, 0⟩]⟩,
  ⟨"NVM_PRESENT", 0x390108, [], [⟨"PRESENT", 15, 0, .ro, 0⟩, ⟨"VANISHED", 31, 16, .ro, 0⟩]⟩,
  ⟨"NVM_ARRIVED", 0x39010c, [], [⟨"ARRIVED", 15, 0, .w1c, 0⟩]⟩,
  ⟨"NVM_TIMEOUT", 0x390110, [], [⟨"MS", 15, 0, .rw, 0x7d0⟩]⟩,
  ⟨"NVM_DRV_STATE", 0x391000, [(16, 0x80)], [⟨"STATE", 2, 0, .ro, 0⟩, ⟨"CODE", 15, 8, .ro, 0⟩, ⟨"SET", 19, 16, .ro, 0⟩, ⟨"ORDINAL", 23, 20, .ro, 0⟩]⟩,
  ⟨"NVM_DRV_LINK", 0x391004, [(16, 0x80)], [⟨"SPEED", 3, 0, .ro, 0⟩, ⟨"WIDTH", 6, 4, .ro, 0⟩]⟩,
  ⟨"NVM_DRV_CAP", 0x391008, [(16, 0x80), (2, 4)], [⟨"LBAS", 31, 0, .ro, 0⟩]⟩,
  ⟨"NVM_DRV_FMT", 0x391010, [(16, 0x80)], [⟨"LBA_LOG2", 3, 0, .ro, 0⟩, ⟨"MDTS_LOG2", 15, 8, .ro, 0⟩]⟩,
  ⟨"NVM_DRV_SERIAL", 0x391014, [(16, 0x80), (5, 4)], [⟨"SN", 31, 0, .ro, 0⟩]⟩,
  ⟨"NVM_DRV_TEMP", 0x391028, [(16, 0x80)], [⟨"KELVIN", 15, 0, .ro, 0⟩]⟩,
  ⟨"NVM_DRV_USED", 0x39102c, [(16, 0x80)], [⟨"PCT", 7, 0, .ro, 0⟩]⟩]

/-- Rows from offset 0x391030. -/
def regRows17 : List RegRow := [
  ⟨"NVM_DRV_ERR", 0x391030, [(16, 0x80)], [⟨"COUNT", 31, 0, .rc, 0⟩]⟩,
  ⟨"NVM_DRV_TMO", 0x391034, [(16, 0x80)], [⟨"COUNT", 31, 0, .rc, 0⟩]⟩,
  ⟨"NVM_DRV_WRITTEN", 0x391038, [(16, 0x80), (2, 4)], [⟨"MIB", 31, 0, .ro, 0⟩]⟩,
  ⟨"NVM_SET_CFG", 0x392000, [(16, 0x40)], [⟨"MEMBERS", 15, 0, .rw, 0⟩, ⟨"CHUNK_LOG2", 20, 16, .rw, 0x14⟩, ⟨"INFLIGHT", 27, 24, .rw, 8⟩, ⟨"TRIM", 28, 28, .rw, 0⟩]⟩,
  ⟨"NVM_SET_CMD", 0x392004, [(16, 0x40)], [⟨"CMD", 1, 0, .wo, 0⟩]⟩,
  ⟨"NVM_SET_STATUS", 0x392008, [(16, 0x40)], [⟨"STATE", 2, 0, .ro, 0⟩, ⟨"WIDTH", 12, 8, .ro, 0⟩, ⟨"CODE", 23, 16, .ro, 0⟩]⟩,
  ⟨"NVM_SET_INSERVICE", 0x39200c, [(16, 0x40)], [⟨"MASK", 15, 0, .ro, 0⟩]⟩,
  ⟨"NVM_SET_ID", 0x392010, [(16, 0x40), (4, 4)], [⟨"ID", 31, 0, .rw, 0⟩]⟩,
  ⟨"NVM_SET_CHUNKS", 0x392020, [(16, 0x40), (2, 4)], [⟨"SEQ", 31, 0, .ro, 0⟩]⟩,
  ⟨"NVM_SET_LOST", 0x392028, [(16, 0x40)], [⟨"COUNT", 31, 0, .ro, 0⟩]⟩,
  ⟨"NVM_SET_EVLOST", 0x39202c, [(16, 0x40)], [⟨"COUNT", 31, 0, .ro, 0⟩]⟩,
  ⟨"ETH_CFG", 0x3a0000, [(4, 0x400)], [⟨"EN", 0, 0, .rw, 0⟩, ⟨"BREAKOUT", 1, 1, .rw, 0⟩, ⟨"MAXFRAME", 29, 16, .rw, 0x2400⟩]⟩,
  ⟨"ETH_STATUS", 0x3a0004, [(4, 0x400)], [⟨"LINK", 3, 0, .ro, 0⟩, ⟨"FEC_LOCK", 7, 4, .ro, 0⟩]⟩,
  ⟨"ETH_FEC_CORR", 0x3a0008, [(4, 0x400)], [⟨"COUNT", 31, 0, .rc, 0⟩]⟩,
  ⟨"ETH_FEC_UNCORR", 0x3a000c, [(4, 0x400)], [⟨"COUNT", 31, 0, .rc, 0⟩]⟩,
  ⟨"ETH_CTL_PORT", 0x3a0010, [(4, 0x400)], [⟨"PORT", 15, 0, .rw, 0xc000⟩]⟩,
  ⟨"ETH_CTL_RATE", 0x3a0014, [(4, 0x400)], [⟨"RATE", 15, 0, .rw, 0x3e8⟩, ⟨"DEPTH", 23, 16, .rw, 0x20⟩]⟩,
  ⟨"ETH_CTL_OK", 0x3a0018, [(4, 0x400)], [⟨"COUNT", 31, 0, .rc, 0⟩]⟩,
  ⟨"ETH_CTL_BAD", 0x3a001c, [(4, 0x400)], [⟨"COUNT", 31, 0, .rc, 0⟩]⟩,
  ⟨"ETH_CTL_LIMITED", 0x3a0020, [(4, 0x400)], [⟨"COUNT", 31, 0, .rc, 0⟩]⟩]

/-- Rows from offset 0x3a1000. -/
def regRows18 : List RegRow := [
  ⟨"ETH_SP_MAC_LO", 0x3a1000, [(16, 0x80)], [⟨"MAC_LO", 31, 0, .rw, 0⟩]⟩,
  ⟨"ETH_SP_MAC_HI", 0x3a1004, [(16, 0x80)], [⟨"MAC_HI", 31, 0, .rw, 0⟩]⟩,
  ⟨"ETH_SP_IPV4", 0x3a1008, [(16, 0x80)], [⟨"IPV4", 31, 0, .rw, 0⟩]⟩,
  ⟨"ETH_SP_IPV6", 0x3a100c, [(16, 0x80), (4, 4)], [⟨"IPV6", 31, 0, .rw, 0⟩]⟩,
  ⟨"ETH_SP_DATA_PORT", 0x3a101c, [(16, 0x80)], [⟨"DATA_PORT", 15, 0, .rw, 0⟩]⟩,
  ⟨"ETH_SP_RX_BASE", 0x3a1020, [(16, 0x80), (2, 4)], [⟨"RX_BASE", 31, 0, .rw, 0⟩]⟩,
  ⟨"ETH_SP_RX_SIZE", 0x3a1028, [(16, 0x80)], [⟨"RX_SIZE", 3, 0, .rw, 0⟩]⟩,
  ⟨"ETH_SP_RX_TAIL", 0x3a102c, [(16, 0x80)], [⟨"RX_TAIL", 31, 0, .rw, 0⟩]⟩,
  ⟨"ETH_SP_RX_HEAD", 0x3a1030, [(16, 0x80)], [⟨"RX_HEAD", 31, 0, .ro, 0⟩]⟩,
  ⟨"ETH_SP_TX_BASE", 0x3a1034, [(16, 0x80), (2, 4)], [⟨"TX_BASE", 31, 0, .rw, 0⟩]⟩,
  ⟨"ETH_SP_TX_SIZE", 0x3a103c, [(16, 0x80)], [⟨"TX_SIZE", 3, 0, .rw, 0⟩]⟩,
  ⟨"ETH_SP_TX_TAIL", 0x3a1040, [(16, 0x80)], [⟨"TX_TAIL", 31, 0, .rw, 0⟩]⟩,
  ⟨"ETH_SP_TX_HEAD", 0x3a1044, [(16, 0x80)], [⟨"TX_HEAD", 31, 0, .ro, 0⟩]⟩,
  ⟨"ETH_SP_RXDROP", 0x3a1048, [(16, 0x80)], [⟨"RXDROP", 31, 0, .rc, 0⟩]⟩,
  ⟨"ETH_UTC_OFFSET", 0x3a2000, [], [⟨"SEC", 31, 0, .rw, 0⟩]⟩,
  ⟨"ETH_SUB_STAT", 0x3a8000, [(1024, 0x20)], [⟨"VALID", 0, 0, .ro, 0⟩, ⟨"IPV6", 1, 1, .ro, 0⟩, ⟨"KEY", 13, 8, .ro, 0⟩]⟩,
  ⟨"ETH_SUB_ADDR", 0x3a8004, [(1024, 0x20), (4, 4)], [⟨"ADDR", 31, 0, .ro, 0⟩]⟩,
  ⟨"ETH_SUB_PORT", 0x3a8014, [(1024, 0x20)], [⟨"PORT", 15, 0, .ro, 0⟩]⟩,
  ⟨"ETH_SUB_MAC", 0x3a8018, [(1024, 0x20), (2, 4)], [⟨"MAC", 31, 0, .ro, 0⟩]⟩,
  ⟨"STY_CTRL", 0x3b0000, [], [⟨"ID", 4, 0, .rw, 0⟩, ⟨"EN", 8, 8, .rw, 0⟩, ⟨"TT_EN", 9, 9, .rw, 0⟩, ⟨"SLEW_PPM", 23, 16, .rw, 0xa⟩]⟩]

/-- Rows from offset 0x3b0004. -/
def regRows19 : List RegRow := [
  ⟨"STY_STATUS", 0x3b0004, [], [⟨"MASTER", 4, 0, .ro, 0⟩, ⟨"ISOLATED", 5, 5, .ro, 0⟩, ⟨"SLEWING", 6, 6, .ro, 0⟩, ⟨"HAL_CONFLICT", 7, 7, .w1c, 0⟩, ⟨"TOPO", 9, 8, .ro, 0⟩, ⟨"GENERATION", 31, 16, .ro, 0⟩]⟩,
  ⟨"STY_MEMBERS", 0x3b0008, [], [⟨"MASK", 31, 0, .rw, 0⟩]⟩,
  ⟨"STY_SEGMENT", 0x3b000c, [], [⟨"MASK", 31, 0, .ro, 0⟩]⟩,
  ⟨"STY_OFFSET", 0x3b0010, [(2, 4)], [⟨"PS", 31, 0, .ro, 0⟩]⟩,
  ⟨"STY_CLK_PS", 0x3b0018, [], [⟨"PS", 31, 0, .ro, 0⟩]⟩,
  ⟨"STY_HAL_OUT", 0x3b0020, [(2, 4)], [⟨"MASK", 31, 0, .rw, 0⟩]⟩,
  ⟨"STY_HAL_IN", 0x3b0028, [(2, 4)], [⟨"MASK", 31, 0, .rw, 0⟩]⟩,
  ⟨"STY_DISC", 0x3b0030, [], [⟨"SCAN", 0, 0, .w1s, 0⟩, ⟨"ROUND", 31, 16, .ro, 0⟩]⟩,
  ⟨"STY_SEEN", 0x3b0034, [], [⟨"MASK", 31, 0, .ro, 0⟩]⟩,
  ⟨"STY_ARRIVED", 0x3b0038, [], [⟨"MASK", 31, 0, .w1c, 0⟩]⟩,
  ⟨"STY_VANISHED", 0x3b003c, [], [⟨"MASK", 31, 0, .ro, 0⟩]⟩,
  ⟨"STY_GCMD", 0x3b0040, [], [⟨"OP", 1, 0, .wo, 0⟩]⟩,
  ⟨"STY_GCMD_ARG", 0x3b0044, [(2, 4)], [⟨"ARG", 31, 0, .rw, 0⟩]⟩,
  ⟨"STY_GCMD_T", 0x3b004c, [(3, 4)], [⟨"T", 31, 0, .rw, 0⟩]⟩,
  ⟨"STY_GCMD_STATUS", 0x3b0058, [], [⟨"CODE", 7, 0, .ro, 0⟩, ⟨"ID", 31, 8, .ro, 0⟩]⟩,
  ⟨"STY_GCMD_LATE", 0x3b005c, [], [⟨"COUNT", 31, 0, .rc, 0⟩]⟩,
  ⟨"STY_LINK_STATE", 0x3b0100, [(4, 0x40)], [⟨"STATE", 1, 0, .ro, 0⟩, ⟨"PEER_ID", 12, 8, .ro, 0⟩, ⟨"PEER_LINK", 17, 16, .ro, 0⟩]⟩,
  ⟨"STY_LINK_CABLE", 0x3b0104, [(4, 0x40)], [⟨"PS", 31, 0, .ro, 0⟩]⟩,
  ⟨"STY_LINK_CRC", 0x3b0108, [(4, 0x40)], [⟨"COUNT", 31, 0, .rc, 0⟩]⟩,
  ⟨"STY_LINK_RETX", 0x3b010c, [(4, 0x40)], [⟨"COUNT", 31, 0, .rc, 0⟩]⟩]

/-- Rows from offset 0x3b0400. -/
def regRows20 : List RegRow := [
  ⟨"STY_REPL_CFG", 0x3b0400, [(32, 0x10)], [⟨"EN", 0, 0, .rw, 0⟩, ⟨"HOLDING", 1, 1, .rw, 0⟩, ⟨"SRC_RING", 11, 2, .rw, 0⟩, ⟨"DST_STATION", 20, 16, .rw, 0⟩]⟩,
  ⟨"STY_REPL_DST", 0x3b0404, [(32, 0x10)], [⟨"DST_RING", 9, 0, .rw, 0⟩]⟩,
  ⟨"STY_REPL_DROP", 0x3b0408, [(32, 0x10)], [⟨"UNITS", 31, 0, .rc, 0⟩]⟩,
  ⟨"STY_REPL_STAT", 0x3b040c, [(32, 0x10)], [⟨"RUNNING", 0, 0, .ro, 0⟩]⟩,
  ⟨"SHT_CFG", 0x3c0000, [(2, 0x2000)], [⟨"EN", 0, 0, .rw, 0⟩, ⟨"CTX", 1, 1, .rw, 0⟩, ⟨"RING", 11, 2, .rw, 0⟩, ⟨"CYCLE_US", 31, 16, .rw, 0x3e8⟩]⟩,
  ⟨"SHT_CMD", 0x3c0004, [(2, 0x2000)], [⟨"SCAN", 0, 0, .w1s, 0⟩]⟩,
  ⟨"SHT_STATUS", 0x3c0008, [(2, 0x2000)], [⟨"ROUND", 31, 16, .ro, 0⟩]⟩,
  ⟨"SHT_PRESENT", 0x3c000c, [(2, 0x2000)], [⟨"MASK", 31, 1, .ro, 0⟩]⟩,
  ⟨"SHT_ABSENT", 0x3c0010, [(2, 0x2000)], [⟨"MASK", 31, 1, .ro, 0⟩]⟩,
  ⟨"SHT_VANISHED", 0x3c0014, [(2, 0x2000)], [⟨"MASK", 31, 1, .ro, 0⟩]⟩,
  ⟨"SHT_ARRIVED", 0x3c0018, [(2, 0x2000)], [⟨"MASK", 31, 1, .w1c, 0⟩]⟩,
  ⟨"SHT_RETRY", 0x3c001c, [(2, 0x2000)], [⟨"COUNT", 31, 0, .rc, 0⟩]⟩,
  ⟨"SHT_CRC_ERR", 0x3c0020, [(2, 0x2000)], [⟨"COUNT", 31, 0, .rc, 0⟩]⟩,
  ⟨"SHT_UNCONF", 0x3c0024, [(2, 0x2000)], [⟨"COUNT", 31, 0, .rc, 0⟩]⟩,
  ⟨"SHT_DIRECT", 0x3c0028, [(2, 0x2000)], [⟨"LIST", 5, 0, .wo, 0⟩]⟩,
  ⟨"SHT_CYCLE_NO", 0x3c002c, [(2, 0x2000)], [⟨"COUNT", 31, 0, .ro, 0⟩]⟩,
  ⟨"SHT_POLL", 0x3c0100, [(2, 0x2000), (32, 4)], [⟨"ENTRY", 31, 0, .rw, 0⟩]⟩,
  ⟨"SHT_LIST", 0x3c1000, [(2, 0x2000), (1024, 4)], [⟨"WORD", 31, 0, .rw, 0⟩]⟩,
  ⟨"VID_CMD", 0x3d0000, [], [⟨"CMD", 1, 0, .wo, 0⟩]⟩,
  ⟨"VID_STATUS", 0x3d0004, [], [⟨"STATE", 1, 0, .ro, 0⟩, ⟨"HPD", 4, 4, .ro, 0⟩, ⟨"CODE", 15, 8, .ro, 0⟩, ⟨"LINE", 28, 16, .ro, 0⟩]⟩]

/-- Rows from offset 0x3d0008. -/
def regRows21 : List RegRow := [
  ⟨"VID_LINK", 0x3d0008, [], [⟨"LANES", 2, 0, .rw, 4⟩, ⟨"RATE", 9, 8, .rw, 3⟩]⟩,
  ⟨"VID_PCLK", 0x3d000c, [], [⟨"KHZ", 19, 0, .rw, 0⟩]⟩,
  ⟨"VID_H", 0x3d0010, [], [⟨"ACTIVE", 12, 0, .rw, 0⟩, ⟨"TOTAL", 28, 16, .rw, 0⟩]⟩,
  ⟨"VID_HSYNC", 0x3d0014, [], [⟨"START", 12, 0, .rw, 0⟩, ⟨"WIDTH", 24, 16, .rw, 0⟩, ⟨"POL", 31, 31, .rw, 0⟩]⟩,
  ⟨"VID_V", 0x3d0018, [], [⟨"ACTIVE", 12, 0, .rw, 0⟩, ⟨"TOTAL", 28, 16, .rw, 0⟩]⟩,
  ⟨"VID_VSYNC", 0x3d001c, [], [⟨"START", 12, 0, .rw, 0⟩, ⟨"WIDTH", 24, 16, .rw, 0⟩, ⟨"POL", 31, 31, .rw, 0⟩]⟩,
  ⟨"VID_BG", 0x3d0020, [], [⟨"RGB", 23, 0, .rw, 0⟩]⟩,
  ⟨"VID_LINE_MATCH", 0x3d0024, [], [⟨"LINE", 12, 0, .rw, 0⟩]⟩,
  ⟨"VID_UNDERRUN", 0x3d0028, [], [⟨"COUNT", 31, 0, .rc, 0⟩]⟩,
  ⟨"VID_SR_TOL", 0x3d002c, [], [⟨"NS", 31, 0, .ro, 0xffffffff⟩]⟩,
  ⟨"VID_FETCH_SKIP", 0x3d0030, [], [⟨"COUNT", 31, 0, .rc, 0⟩]⟩,
  ⟨"VID_FRAMES", 0x3d0034, [], [⟨"COUNT", 31, 0, .ro, 0⟩]⟩,
  ⟨"VID_AUX_CMD", 0x3d0040, [], [⟨"ADDR", 19, 0, .rw, 0⟩, ⟨"LEN", 23, 20, .rw, 0⟩, ⟨"OP", 26, 24, .rw, 0⟩, ⟨"GO", 31, 31, .w1s, 0⟩]⟩,
  ⟨"VID_AUX_STATUS", 0x3d0044, [], [⟨"REPLY", 7, 0, .ro, 0⟩, ⟨"DONE", 8, 8, .w1c, 0⟩]⟩,
  ⟨"VID_AUX_DATA", 0x3d0048, [(4, 4)], [⟨"DATA", 31, 0, .rw, 0⟩]⟩,
  ⟨"VID_LAYER_CFG", 0x3d0100, [(4, 0x40)], [⟨"EN", 0, 0, .rw, 0⟩, ⟨"FORMAT", 3, 1, .rw, 0⟩, ⟨"FOLLOW", 4, 4, .rw, 0⟩, ⟨"FORCE_OPAQUE", 5, 5, .rw, 0⟩, ⟨"GALPHA", 15, 8, .rw, 0xff⟩]⟩,
  ⟨"VID_LAYER_SRC", 0x3d0104, [(4, 0x40)], [⟨"SRC_W", 12, 0, .rw, 0⟩, ⟨"SRC_H", 28, 16, .rw, 0⟩]⟩,
  ⟨"VID_LAYER_DSTP", 0x3d0108, [(4, 0x40)], [⟨"DST_X", 12, 0, .rw, 0⟩, ⟨"DST_Y", 28, 16, .rw, 0⟩]⟩,
  ⟨"VID_LAYER_DSTS", 0x3d010c, [(4, 0x40)], [⟨"DST_W", 12, 0, .rw, 0⟩, ⟨"DST_H", 28, 16, .rw, 0⟩]⟩,
  ⟨"VID_LAYER_BASE", 0x3d0110, [(4, 0x40), (2, 4)], [⟨"BASE", 31, 0, .rw, 0⟩]⟩]

/-- Rows from offset 0x3d0118. -/
def regRows22 : List RegRow := [
  ⟨"VID_LAYER_STRIDE", 0x3d0118, [(4, 0x40)], [⟨"STRIDE", 23, 0, .rw, 0⟩]⟩,
  ⟨"VID_LAYER_CHROMA", 0x3d011c, [(4, 0x40)], [⟨"CHROMA_OFF", 31, 0, .rw, 0⟩]⟩,
  ⟨"VID_LAYER_FOLLOW", 0x3d0120, [(4, 0x40)], [⟨"FOLLOW_RING", 9, 0, .rw, 0⟩, ⟨"FOLLOW_SRC", 23, 16, .rw, 0⟩]⟩,
  ⟨"VID_LAYER_FLIP", 0x3d0124, [(4, 0x40)], [⟨"FLIP", 15, 0, .wo, 0⟩]⟩,
  ⟨"VID_LAYER_TAG", 0x3d0128, [(4, 0x40)], [⟨"SHOWN_TAG", 15, 0, .ro, 0⟩, ⟨"PENDING_TAG", 31, 16, .ro, 0⟩]⟩,
  ⟨"VID_LAYER_NEVER", 0x3d012c, [(4, 0x40)], [⟨"NEVER_TAG", 15, 0, .ro, 0⟩, ⟨"PENDING", 16, 16, .ro, 0⟩]⟩,
  ⟨"VID_LAYER_FLIP_NEVER", 0x3d0130, [(4, 0x40)], [⟨"FLIP_NEVER", 31, 0, .rc, 0⟩]⟩,
  ⟨"VID_PROOF_CFG", 0x3d0200, [(8, 0x20)], [⟨"EN", 0, 0, .rw, 0⟩, ⟨"COMPARE", 1, 1, .rw, 0⟩]⟩,
  ⟨"VID_PROOF_POS", 0x3d0204, [(8, 0x20)], [⟨"X", 12, 0, .rw, 0⟩, ⟨"Y", 28, 16, .rw, 0⟩]⟩,
  ⟨"VID_PROOF_SIZE", 0x3d0208, [(8, 0x20)], [⟨"W", 12, 0, .rw, 0⟩, ⟨"H", 28, 16, .rw, 0⟩]⟩,
  ⟨"VID_PROOF_EXPECTED", 0x3d020c, [(8, 0x20)], [⟨"CRC", 31, 0, .rw, 0⟩]⟩,
  ⟨"VID_PROOF_CRC", 0x3d0210, [(8, 0x20)], [⟨"CRC", 31, 0, .ro, 0⟩]⟩,
  ⟨"VID_PROOF_MISMATCH", 0x3d0214, [(8, 0x20)], [⟨"COUNT", 31, 0, .rc, 0⟩]⟩,
  ⟨"VID_PAL", 0x3d0800, [(4, 0x400), (256, 4)], [⟨"ARGB", 31, 0, .rw, 0⟩]⟩,
  ⟨"CORE_CMD", 0x430000, [(16, 0x40000)], [⟨"CMD", 2, 0, .wo, 0⟩]⟩,
  ⟨"CORE_STATUS", 0x430004, [(16, 0x40000)], [⟨"STATE", 2, 0, .ro, 0⟩, ⟨"CAUSE", 10, 8, .ro, 0⟩, ⟨"CODE", 23, 16, .ro, 0⟩]⟩,
  ⟨"CORE_PC", 0x430008, [(16, 0x40000)], [⟨"PC", 12, 0, .ro, 0⟩]⟩,
  ⟨"CORE_START_PC", 0x43000c, [(16, 0x40000)], [⟨"PC", 12, 0, .rw, 0⟩]⟩,
  ⟨"CORE_DPAGE", 0x430010, [(16, 0x40000)], [⟨"PAGE", 0, 0, .rw, 0⟩]⟩,
  ⟨"CORE_FAULT_PC", 0x430014, [(16, 0x40000)], [⟨"PC", 12, 0, .ro, 0⟩]⟩]

/-- Rows from offset 0x430018. -/
def regRows23 : List RegRow := [
  ⟨"CORE_CYCLES_LO", 0x430018, [(16, 0x40000)], [⟨"COUNT", 31, 0, .ro, 0⟩]⟩,
  ⟨"CORE_CYCLES_HI", 0x43001c, [(16, 0x40000)], [⟨"COUNT", 31, 0, .ro, 0⟩]⟩,
  ⟨"CORE_STALLS", 0x430020, [(16, 0x40000)], [⟨"COUNT", 31, 0, .rc, 0⟩]⟩,
  ⟨"CORE_DB_LO", 0x430024, [(16, 0x40000)], [⟨"DB", 31, 0, .w1s, 0⟩]⟩,
  ⟨"CORE_DB_HI", 0x430028, [(16, 0x40000)], [⟨"DB", 31, 0, .w1s, 0⟩]⟩,
  ⟨"CORE_DB_EN_LO", 0x43002c, [(16, 0x40000)], [⟨"EN", 31, 0, .rw, 0⟩]⟩,
  ⟨"CORE_DB_EN_HI", 0x430030, [(16, 0x40000)], [⟨"EN", 31, 0, .rw, 0⟩]⟩,
  ⟨"CORE_HAL_TAP", 0x430034, [(16, 0x40000)], [⟨"TAP", 31, 0, .rw, 0⟩]⟩,
  ⟨"CORE_HAL_OUT", 0x430038, [(16, 0x40000)], [⟨"HAL", 5, 0, .rw, 0⟩, ⟨"EN", 8, 8, .rw, 0⟩, ⟨"HAL_CONFLICT", 9, 9, .w1c, 0⟩]⟩,
  ⟨"CORE_IN", 0x430040, [(16, 0x40000)], [⟨"RING", 9, 0, .rw, 0⟩, ⟨"HOLD", 16, 16, .rw, 0⟩, ⟨"EN", 31, 31, .rw, 0⟩]⟩,
  ⟨"CORE_OUT", 0x430044, [(16, 0x40000)], [⟨"RING", 9, 0, .rw, 0⟩, ⟨"EN", 31, 31, .rw, 0⟩]⟩,
  ⟨"CORE_IN_SKIP", 0x430048, [(16, 0x40000)], [⟨"COUNT", 31, 0, .rc, 0⟩]⟩,
  ⟨"CORE_OUT_STALL", 0x43004c, [(16, 0x40000)], [⟨"COUNT", 31, 0, .rc, 0⟩]⟩,
  ⟨"CORE_POST", 0x430060, [(16, 0x40000), (8, 4)], [⟨"WORD", 31, 0, .ro, 0⟩]⟩,
  ⟨"CORE_T_CMD", 0x80c000, [(128, 0x10000)], [⟨"CMD", 2, 0, .wo, 0⟩]⟩,
  ⟨"CORE_T_STATUS", 0x80c004, [(128, 0x10000)], [⟨"STATE", 2, 0, .ro, 0⟩, ⟨"CAUSE", 10, 8, .ro, 0⟩, ⟨"CODE", 23, 16, .ro, 0⟩]⟩,
  ⟨"CORE_T_PC", 0x80c008, [(128, 0x10000)], [⟨"PC", 10, 0, .ro, 0⟩]⟩,
  ⟨"CORE_T_START_PC", 0x80c00c, [(128, 0x10000)], [⟨"PC", 10, 0, .rw, 0⟩]⟩,
  ⟨"CORE_T_FAULT_PC", 0x80c014, [(128, 0x10000)], [⟨"PC", 10, 0, .ro, 0⟩]⟩,
  ⟨"CORE_T_CYCLES", 0x80c018, [(128, 0x10000)], [⟨"COUNT", 31, 0, .ro, 0⟩]⟩]

/-- Rows from offset 0x80c020. -/
def regRows24 : List RegRow := [
  ⟨"CORE_T_STALLS", 0x80c020, [(128, 0x10000)], [⟨"COUNT", 31, 0, .rc, 0⟩]⟩]

end Sys2Proof.Machine
end

