-- ==== Sys2Proof/Machine/Fields.lean ====
section
/-! DEFINITION. One name per register field, `F.<register>_<field>`: where it lies (offset of element 0, strides, lowest bit, width),
from the same tables as `RegMap`. A quantity of several words that stands once (`TIM_ALIGN`, `STY_GCMD_ARG`, `STY_GCMD_T`) has its words at m,
as `rdWide` and `wrWide` read and write them. -/
namespace Sys2Proof.Machine

/-- A field of a register array: element (n, m) of the array lies at `off + n * st + m * st2`. -/
structure Fld where
  off : Nat
  st : Nat
  st2 : Nat
  lo : Nat
  w : Nat
deriving DecidableEq, Repr

namespace F

def SYS_ID_ID : Fld := ⟨0, 0, 0, 0, 32⟩
def SYS_STEPPING_STEPPING : Fld := ⟨4, 0, 0, 0, 16⟩
def SYS_STATUS_STBY_UP : Fld := ⟨8, 0, 0, 0, 1⟩
def SYS_STATUS_PGOOD : Fld := ⟨8, 0, 0, 1, 1⟩
def SYS_STATUS_REPAIRED : Fld := ⟨8, 0, 0, 2, 1⟩
def SYS_STATUS_LOCKED : Fld := ⟨8, 0, 0, 3, 1⟩
def SYS_STATUS_TRAINED : Fld := ⟨8, 0, 0, 4, 1⟩
def SYS_STATUS_MARCHED : Fld := ⟨8, 0, 0, 5, 1⟩
def SYS_STATUS_CALIBRATED : Fld := ⟨8, 0, 0, 6, 1⟩
def SYS_STATUS_READY : Fld := ⟨8, 0, 0, 7, 1⟩
def SYS_STATUS_PSTATE : Fld := ⟨8, 0, 0, 8, 3⟩
def SYS_STATUS_PWRFAIL : Fld := ⟨8, 0, 0, 12, 1⟩
def SYS_STATUS_TRIPPED : Fld := ⟨8, 0, 0, 13, 1⟩
def SYS_ACCESS_ERR_COUNT : Fld := ⟨0xc, 0, 0, 0, 32⟩
def SYS_ACCESS_ADDR_OFFSET : Fld := ⟨0x10, 0, 0, 0, 26⟩
def SYS_ACCESS_ADDR_VALID : Fld := ⟨0x10, 0, 0, 31, 1⟩
def SYS_EARLY_DROP_COUNT : Fld := ⟨0x14, 0, 0, 0, 32⟩
def SYS_SERIAL_SERIAL : Fld := ⟨0x18, 4, 0, 0, 32⟩
def PWR_CMD_CMD : Fld := ⟨0x10000, 0, 0, 0, 3⟩
def PWR_STATUS_REEF : Fld := ⟨0x10004, 0, 0, 0, 2⟩
def PWR_STATUS_ESCALATED : Fld := ⟨0x10004, 0, 0, 2, 1⟩
def PWR_STATUS_BY_TEMP : Fld := ⟨0x10004, 0, 0, 3, 1⟩
def PWR_STATUS_BY_CURRENT : Fld := ⟨0x10004, 0, 0, 4, 1⟩
def PWR_STATUS_CODE : Fld := ⟨0x10004, 0, 0, 8, 8⟩
def PWR_DIE_TEMP_TEMP : Fld := ⟨0x10008, 0, 0, 0, 16⟩
def PWR_DIE_TEMP_MAX : Fld := ⟨0x10008, 0, 0, 16, 16⟩
def PWR_I12N_MA : Fld := ⟨0x1000c, 0, 0, 0, 16⟩
def PWR_I12N_PEAK : Fld := ⟨0x1000c, 0, 0, 16, 16⟩
def PWR_SHED_COUNT : Fld := ⟨0x10010, 0, 0, 0, 8⟩
def PWR_SHED_LAST : Fld := ⟨0x10010, 0, 0, 8, 7⟩
def PWR_REEF_TIME_MS : Fld := ⟨0x10014, 0, 0, 0, 32⟩
def PWR_HOURS_HOURS : Fld := ⟨0x10040, 4, 0, 0, 32⟩
def PWR_AGE_DEV : Fld := ⟨0x10080, 4, 0, 0, 16⟩
def PWR_AGE_WARN : Fld := ⟨0x10080, 4, 0, 16, 1⟩
def RPR_STATUS_DONE : Fld := ⟨0x20000, 0, 0, 0, 1⟩
def RPR_STATUS_COPY_OK : Fld := ⟨0x20000, 0, 0, 1, 3⟩
def RPR_STATUS_DISAGREE : Fld := ⟨0x20000, 0, 0, 4, 1⟩
def RPR_STATUS_COPY_BAD : Fld := ⟨0x20000, 0, 0, 5, 1⟩
def RPR_STATUS_FIELD_LOST : Fld := ⟨0x20000, 0, 0, 6, 1⟩
def RPR_STATUS_FULL : Fld := ⟨0x20000, 0, 0, 7, 1⟩
def RPR_STATUS_CODE : Fld := ⟨0x20000, 0, 0, 8, 8⟩
def RPR_STATUS_ENTRIES : Fld := ⟨0x20000, 0, 0, 16, 16⟩
def RPR_SEQ_SEQ : Fld := ⟨0x20004, 0, 0, 0, 32⟩
def RPR_CMD_RETURN : Fld := ⟨0x20008, 0, 0, 0, 1⟩
def RPR_ENTRY_ENTRY : Fld := ⟨0x2000c, 4, 0, 0, 32⟩
def RPR_KIND_COUNT : Fld := ⟨0x20020, 4, 0, 0, 16⟩
def RPR_WINDOW_WORD : Fld := ⟨0x21000, 4, 0, 0, 32⟩
def SEC_STATE_OWNED : Fld := ⟨0x24000, 0, 0, 0, 1⟩
def SEC_STATE_DEV : Fld := ⟨0x24000, 0, 0, 1, 1⟩
def SEC_STATE_KEYS : Fld := ⟨0x24000, 0, 0, 4, 4⟩
def SEC_STATE_CODE : Fld := ⟨0x24000, 0, 0, 8, 8⟩
def SEC_CMD_CMD : Fld := ⟨0x24004, 0, 0, 0, 3⟩
def SEC_CMD_SLOT : Fld := ⟨0x24004, 0, 0, 8, 2⟩
def SEC_CMD_SUBKEY : Fld := ⟨0x24004, 0, 0, 16, 6⟩
def SEC_CMD_DEV : Fld := ⟨0x24004, 0, 0, 24, 1⟩
def SEC_HASH_HASH : Fld := ⟨0x24040, 4, 0, 0, 32⟩
def SEC_SUBKEY_KEY : Fld := ⟨0x24080, 4, 0, 0, 32⟩
def SEC_SUBKEY_EN_EN : Fld := ⟨0x24090, 4, 0, 0, 32⟩
def SEC_AUTH_CTR_CTR : Fld := ⟨0x24098, 0, 0, 0, 32⟩
def SEC_FAIL_COUNT : Fld := ⟨0x2409c, 0, 0, 0, 32⟩
def SEC_AUTH_CTR_HI_CTR : Fld := ⟨0x240a0, 0, 0, 0, 32⟩
def SEC_AUTH_BLOCK : Fld := ⟨0x24200, 4, 0, 0, 32⟩
def NVS_PAGE_PAGE : Fld := ⟨0x28000, 0, 0, 0, 11⟩
def NVS_STATUS_BUSY : Fld := ⟨0x28004, 0, 0, 0, 1⟩
def NVS_STATUS_WRITE_ERR : Fld := ⟨0x28004, 0, 0, 1, 1⟩
def NVS_WDROP_COUNT : Fld := ⟨0x28008, 0, 0, 0, 32⟩
def NVS_WINDOW_WORD : Fld := ⟨0x2c000, 4, 0, 0, 32⟩
def IRQ_SUM_ACTIVE : Fld := ⟨0x30000, 4, 0, 0, 32⟩
def IRQ_PENDING_PENDING : Fld := ⟨0x30100, 0x20, 0, 0, 32⟩
def IRQ_ENABLE_ENABLE : Fld := ⟨0x30104, 0x20, 0, 0, 32⟩
def IRQ_LEVEL_LEVEL : Fld := ⟨0x30108, 0x20, 0, 0, 32⟩
def IRQ_RAW_RAW : Fld := ⟨0x3010c, 0x20, 0, 0, 32⟩
def IRQ_HOLDOFF_US : Fld := ⟨0x30110, 0x20, 0, 0, 16⟩
def IRQ_HOLDOFF_REMAIN : Fld := ⟨0x30110, 0x20, 0, 16, 16⟩
def IRQ_TARGET_TARGET : Fld := ⟨0x30114, 0x20, 0, 0, 2⟩
def IRQ_TARGET_CORE : Fld := ⟨0x30114, 0x20, 0, 8, 4⟩
def IRQ_TARGET_OUTSTANDING : Fld := ⟨0x30114, 0x20, 0, 16, 1⟩
def IRQ_COMPLETE_COMPLETE : Fld := ⟨0x30118, 0x20, 0, 0, 1⟩
def IRQ_DELIVERED_COUNT : Fld := ⟨0x3011c, 0x20, 0, 0, 32⟩
def HKA_CTRL_EN : Fld := ⟨0x38000, 0, 0, 0, 1⟩
def HKA_CTRL_LEN : Fld := ⟨0x38000, 0, 0, 4, 4⟩
def HKA_CTRL_PACE_EN : Fld := ⟨0x38000, 0, 0, 8, 1⟩
def HKA_CTRL_PACE_MOVER : Fld := ⟨0x38000, 0, 0, 16, 6⟩
def HKA_STATUS_BUSY : Fld := ⟨0x38004, 0, 0, 0, 1⟩
def HKA_STATUS_OVR : Fld := ⟨0x38004, 0, 0, 1, 1⟩
def HKA_STATUS_ENTRY : Fld := ⟨0x38004, 0, 0, 4, 4⟩
def HKA_RESULT_VALUE : Fld := ⟨0x38008, 0, 0, 0, 12⟩
def HKA_RESULT_ENTRY : Fld := ⟨0x38008, 0, 0, 16, 4⟩
def HKA_RESULT_INPUT : Fld := ⟨0x38008, 0, 0, 24, 6⟩
def HKA_RESULT_VALID : Fld := ⟨0x38008, 0, 0, 30, 1⟩
def HKA_RESULT_OVR : Fld := ⟨0x38008, 0, 0, 31, 1⟩
def HKA_OVR_COUNT_COUNT : Fld := ⟨0x3800c, 0, 0, 0, 32⟩
def HKA_LAST_VALUE : Fld := ⟨0x38040, 4, 0, 0, 12⟩
def HKA_SEQ_INPUT : Fld := ⟨0x38100, 8, 0, 0, 6⟩
def HKA_SEQ_SAMPLE : Fld := ⟨0x38100, 8, 0, 8, 3⟩
def HKA_SEQ_GAIN : Fld := ⟨0x38100, 8, 0, 12, 2⟩
def HKA_SEQ_LIM_EN : Fld := ⟨0x38100, 8, 0, 15, 1⟩
def HKA_SEQ_LIM_LO : Fld := ⟨0x38104, 8, 0, 0, 12⟩
def HKA_SEQ_LIM_HI : Fld := ⟨0x38104, 8, 0, 16, 12⟩
def CLK_STATUS_ALIGNED : Fld := ⟨0x40000, 0, 0, 0, 1⟩
def CLK_STATUS_HOLD_ANY : Fld := ⟨0x40000, 0, 0, 1, 1⟩
def CLK_STATUS_BYPASS_ANY : Fld := ⟨0x40000, 0, 0, 2, 1⟩
def CLK_STATUS_CODE : Fld := ⟨0x40000, 0, 0, 8, 8⟩
def CLK_LOCK_SUM_LOCKED : Fld := ⟨0x40004, 0, 0, 0, 29⟩
def CLK_HOLD_SUM_HOLD : Fld := ⟨0x40008, 0, 0, 0, 29⟩
def CLK_EBUF_FILL : Fld := ⟨0x40040, 4, 0, 0, 8⟩
def CLK_EBUF_SLIP_STOP : Fld := ⟨0x40040, 4, 0, 8, 1⟩
def CLK_PLL_CTRL_EN : Fld := ⟨0x40100, 0x40, 0, 0, 1⟩
def CLK_PLL_CTRL_RELOCK : Fld := ⟨0x40100, 0x40, 0, 1, 1⟩
def CLK_PLL_LOCK_WINDOW : Fld := ⟨0x40104, 0x40, 0, 0, 7⟩
def CLK_PLL_LOCK_CYCLES : Fld := ⟨0x40104, 0x40, 0, 16, 16⟩
def CLK_PLL_LOSS_UNLOCK : Fld := ⟨0x40108, 0x40, 0, 0, 8⟩
def CLK_PLL_LOSS_CYCLES : Fld := ⟨0x40108, 0x40, 0, 8, 8⟩
def CLK_PLL_STATUS_STATE : Fld := ⟨0x4010c, 0x40, 0, 0, 3⟩
def CLK_PLL_STATUS_CLASS : Fld := ⟨0x4010c, 0x40, 0, 3, 1⟩
def CLK_PLL_STATUS_BAND : Fld := ⟨0x4010c, 0x40, 0, 8, 6⟩
def CLK_PLL_STATUS_STALE : Fld := ⟨0x4010c, 0x40, 0, 14, 1⟩
def CLK_PLL_STATUS_DIV : Fld := ⟨0x4010c, 0x40, 0, 16, 3⟩
def CLK_PLL_PHASE_ERR : Fld := ⟨0x40110, 0x40, 0, 0, 16⟩
def CLK_PLL_LOCKTIME_US : Fld := ⟨0x40114, 0x40, 0, 0, 32⟩
def CLK_PLL_UNLOCKS_COUNT : Fld := ⟨0x40118, 0x40, 0, 0, 32⟩
def CLK_PLL_HOLDTIME_US : Fld := ⟨0x4011c, 0x40, 0, 0, 32⟩
def CLK_LO_CTRL_OUT_EN : Fld := ⟨0x41000, 0x100, 0, 0, 1⟩
def CLK_LO_CMD_CMD : Fld := ⟨0x41004, 0x100, 0, 0, 3⟩
def CLK_LO_CMD_SEG : Fld := ⟨0x41004, 0x100, 0, 8, 8⟩
def CLK_LO_STATUS_PSTATE : Fld := ⟨0x41008, 0x100, 0, 0, 3⟩
def CLK_LO_STATUS_SEG : Fld := ⟨0x41008, 0x100, 0, 8, 8⟩
def CLK_LO_STATUS_STEP_LATCHED : Fld := ⟨0x41008, 0x100, 0, 16, 1⟩
def CLK_LO_STATUS_MUTED : Fld := ⟨0x41008, 0x100, 0, 17, 1⟩
def CLK_LO_FREQ_LO_FREQ : Fld := ⟨0x4100c, 0x100, 0, 0, 32⟩
def CLK_LO_FREQ_HI_FREQ : Fld := ⟨0x41010, 0x100, 0, 0, 24⟩
def CLK_LO_WDROP_COUNT : Fld := ⟨0x41014, 0x100, 0, 0, 32⟩
def CLK_LO_STEPDROP_COUNT : Fld := ⟨0x41018, 0x100, 0, 0, 32⟩
def CLK_BAND_MHZ : Fld := ⟨0x42000, 0x100, 4, 0, 16⟩
def CLK_LO_PROFILE_WORD : Fld := ⟨0x48000, 0x2000, 4, 0, 32⟩
def TIM_CMD_CMD : Fld := ⟨0x50000, 0, 0, 0, 2⟩
def TIM_CMD_MODE : Fld := ⟨0x50000, 0, 0, 4, 1⟩
def TIM_STATUS_EPOCH : Fld := ⟨0x50004, 0, 0, 0, 16⟩
def TIM_STATUS_STEP_AVAIL : Fld := ⟨0x50004, 0, 0, 16, 1⟩
def TIM_STATUS_UNSET : Fld := ⟨0x50004, 0, 0, 17, 1⟩
def TIM_STATUS_BYPASS : Fld := ⟨0x50004, 0, 0, 18, 1⟩
def TIM_STATUS_CODE : Fld := ⟨0x50004, 0, 0, 24, 8⟩
def TIM_NOW_FRAC_FRAC : Fld := ⟨0x50008, 0, 0, 0, 16⟩
def TIM_NOW_NS_NS : Fld := ⟨0x5000c, 0, 0, 0, 30⟩
def TIM_NOW_SEC_LO_SEC : Fld := ⟨0x50010, 0, 0, 0, 32⟩
def TIM_NOW_SEC_HI_SEC : Fld := ⟨0x50014, 0, 0, 0, 16⟩
def TIM_RATE_LO_RATE : Fld := ⟨0x50018, 0, 0, 0, 32⟩
def TIM_RATE_HI_RATE : Fld := ⟨0x5001c, 0, 0, 0, 8⟩
def TIM_RATE_ACT_LO_RATE : Fld := ⟨0x50020, 0, 0, 0, 32⟩
def TIM_RATE_ACT_HI_RATE : Fld := ⟨0x50024, 0, 0, 0, 8⟩
def TIM_RATE_ACT_HI_PENDING : Fld := ⟨0x50024, 0, 0, 8, 1⟩
def TIM_STEP_FRAC_FRAC : Fld := ⟨0x50030, 0, 0, 0, 16⟩
def TIM_STEP_NS_NS : Fld := ⟨0x50034, 0, 0, 0, 30⟩
def TIM_STEP_SEC_LO_SEC : Fld := ⟨0x50038, 0, 0, 0, 32⟩
def TIM_STEP_SEC_HI_SEC : Fld := ⟨0x5003c, 0, 0, 0, 16⟩
def TIM_ALIGN_TS : Fld := ⟨0x50040, 0, 4, 0, 32⟩
def TIM_ALIGN_EPOCH_EPOCH : Fld := ⟨0x5004c, 0, 0, 0, 16⟩
def PTP_GM_ID_LO_ID : Fld := ⟨0x50800, 0x10, 0, 0, 32⟩
def PTP_GM_ID_HI_ID : Fld := ⟨0x50804, 0x10, 0, 0, 32⟩
def PTP_GM_VALID_VALID : Fld := ⟨0x50808, 0x10, 0, 0, 1⟩
def XTL_CTRL_MODE : Fld := ⟨0x50c00, 0, 0, 0, 2⟩
def XTL_CTRL_REF_FREQ : Fld := ⟨0x50c00, 0, 0, 4, 2⟩
def XTL_CTRL_DISC_BW : Fld := ⟨0x50c00, 0, 0, 8, 2⟩
def XTL_CTRL_REFOUT_EN : Fld := ⟨0x50c00, 0, 0, 12, 1⟩
def XTL_STATUS_REF_OK : Fld := ⟨0x50c04, 0, 0, 0, 1⟩
def XTL_STATUS_REF_DET : Fld := ⟨0x50c04, 0, 0, 1, 2⟩
def XTL_STATUS_CLAMP : Fld := ⟨0x50c04, 0, 0, 3, 1⟩
def XTL_TUNE_TUNE : Fld := ⟨0x50c08, 0, 0, 0, 32⟩
def XTL_AGE_AGE : Fld := ⟨0x50c0c, 0, 0, 0, 32⟩
def XTL_AGE_RATE_RATE : Fld := ⟨0x50c10, 0, 0, 0, 32⟩
def XTL_CORR_CORR : Fld := ⟨0x50c14, 0, 0, 0, 32⟩
def XTL_TEMP_TEMP : Fld := ⟨0x50c18, 0, 0, 0, 16⟩
def XTL_TC_TEMP_TEMP : Fld := ⟨0x50c40, 8, 0, 0, 16⟩
def XTL_TC_CORR_CORR : Fld := ⟨0x50c44, 8, 0, 0, 32⟩
def PTP_CFG_EN : Fld := ⟨0x51000, 0x100, 0, 0, 1⟩
def PTP_CFG_L2 : Fld := ⟨0x51000, 0x100, 0, 1, 1⟩
def PTP_CFG_UDP4 : Fld := ⟨0x51000, 0x100, 0, 2, 1⟩
def PTP_CFG_UDP6 : Fld := ⟨0x51000, 0x100, 0, 3, 1⟩
def PTP_CFG_GM_FILT : Fld := ⟨0x51000, 0x100, 0, 4, 1⟩
def PTP_CFG_DOMAIN : Fld := ⟨0x51000, 0x100, 0, 8, 8⟩
def PTP_INGRESS_PS_PS : Fld := ⟨0x51004, 0x100, 0, 0, 32⟩
def PTP_EGRESS_PS_PS : Fld := ⟨0x51008, 0x100, 0, 0, 32⟩
def PTP_ASYM_PS_PS : Fld := ⟨0x5100c, 0x100, 0, 0, 32⟩
def PTP_TXQ_STATUS_COUNT : Fld := ⟨0x51010, 0x100, 0, 0, 5⟩
def PTP_TXQ_STATUS_OVF : Fld := ⟨0x51010, 0x100, 0, 8, 1⟩
def PTP_TXQ_LOST_COUNT : Fld := ⟨0x51014, 0x100, 0, 0, 32⟩
def PTP_TXQ_ID_ID : Fld := ⟨0x51020, 0x100, 0, 0, 16⟩
def PTP_TXQ_ID_VALID : Fld := ⟨0x51020, 0x100, 0, 31, 1⟩
def PTP_TXQ_EPOCH_EPOCH : Fld := ⟨0x51024, 0x100, 0, 0, 16⟩
def PTP_TXQ_TS_TS : Fld := ⟨0x51028, 0x100, 4, 0, 32⟩
def PTP_TXQ_POP_POP : Fld := ⟨0x51034, 0x100, 0, 0, 1⟩
def PTP_GM_DROP_COUNT : Fld := ⟨0x51040, 0x100, 0, 0, 32⟩
def LQ_CFG_EN : Fld := ⟨0x52000, 0x100, 0x10, 0, 1⟩
def LQ_CFG_LATE : Fld := ⟨0x52000, 0x100, 0x10, 1, 1⟩
def LQ_SENT_COUNT : Fld := ⟨0x52004, 0x100, 0x10, 0, 32⟩
def LQ_LATE_COUNT : Fld := ⟨0x52008, 0x100, 0x10, 0, 32⟩
def LQ_DROP_COUNT : Fld := ⟨0x5200c, 0x100, 0x10, 0, 32⟩
def TDC_IN_CFG_EN : Fld := ⟨0x60000, 0x40, 0, 0, 1⟩
def TDC_IN_CFG_EDGE : Fld := ⟨0x60000, 0x40, 0, 1, 2⟩
def TDC_IN_CFG_DRAIN : Fld := ⟨0x60000, 0x40, 0, 3, 1⟩
def TDC_IN_CFG_HAL_EN : Fld := ⟨0x60000, 0x40, 0, 4, 1⟩
def TDC_IN_CFG_HAL : Fld := ⟨0x60000, 0x40, 0, 8, 6⟩
def TDC_IN_CFG_BATCH_LOG2 : Fld := ⟨0x60000, 0x40, 0, 16, 4⟩
def TDC_IN_CFG_SEL : Fld := ⟨0x60000, 0x40, 0, 24, 3⟩
def TDC_IN_RING_RING : Fld := ⟨0x60004, 0x40, 0, 0, 10⟩
def TDC_IN_STATUS_FILL : Fld := ⟨0x60008, 0x40, 0, 0, 13⟩
def TDC_IN_STATUS_OVF : Fld := ⟨0x60008, 0x40, 0, 16, 1⟩
def TDC_IN_STATUS_HAL_CONFLICT : Fld := ⟨0x60008, 0x40, 0, 17, 1⟩
def TDC_IN_LOST_COUNT : Fld := ⟨0x6000c, 0x40, 0, 0, 32⟩
def TDC_IN_DEADTIME_COUNT : Fld := ⟨0x60010, 0x40, 0, 0, 32⟩
def TDC_IN_EVNO_LO_EVNO : Fld := ⟨0x60014, 0x40, 0, 0, 32⟩
def TDC_IN_EVNO_HI_EVNO : Fld := ⟨0x60018, 0x40, 0, 0, 32⟩
def TDC_IN_DELAY_PS : Fld := ⟨0x6001c, 0x40, 0, 0, 16⟩
def TDC_IN_Q_EPOCH : Fld := ⟨0x60020, 0x40, 0, 0, 16⟩
def TDC_IN_Q_EDGE : Fld := ⟨0x60020, 0x40, 0, 16, 1⟩
def TDC_IN_Q_VALID : Fld := ⟨0x60020, 0x40, 0, 31, 1⟩
def TDC_IN_Q_TS_TS : Fld := ⟨0x60024, 0x40, 4, 0, 32⟩
def TDC_IN_POP_POP : Fld := ⟨0x60030, 0x40, 0, 0, 1⟩
def TDC_IN_BATCH_NS_NS : Fld := ⟨0x60034, 0x40, 0, 0, 32⟩
def TDC_M_CFG_MODE : Fld := ⟨0x61000, 0x40, 0, 0, 2⟩
def TDC_M_CFG_A : Fld := ⟨0x61000, 0x40, 0, 8, 5⟩
def TDC_M_CFG_B : Fld := ⟨0x61000, 0x40, 0, 16, 5⟩
def TDC_M_CFG_REPEAT : Fld := ⟨0x61000, 0x40, 0, 24, 1⟩
def TDC_M_CFG_LOG : Fld := ⟨0x61000, 0x40, 0, 28, 1⟩
def TDC_M_N_N : Fld := ⟨0x61004, 0x40, 0, 0, 32⟩
def TDC_M_GATE_LO_NS : Fld := ⟨0x61008, 0x40, 0, 0, 32⟩
def TDC_M_GATE_HI_NS : Fld := ⟨0x6100c, 0x40, 0, 0, 8⟩
def TDC_M_CMD_CMD : Fld := ⟨0x61010, 0x40, 0, 0, 2⟩
def TDC_M_STATUS_STATE : Fld := ⟨0x61014, 0x40, 0, 0, 2⟩
def TDC_M_STATUS_CODE : Fld := ⟨0x61014, 0x40, 0, 8, 8⟩
def TDC_M_STATUS_SEQ : Fld := ⟨0x61014, 0x40, 0, 16, 16⟩
def TDC_M_RES_MEAN : Fld := ⟨0x61018, 0x40, 4, 0, 32⟩
def TDC_M_SDEV_SDEV : Fld := ⟨0x61020, 0x40, 4, 0, 32⟩
def TDC_M_MIN_MIN : Fld := ⟨0x61028, 0x40, 4, 0, 32⟩
def TDC_M_MAX_MAX : Fld := ⟨0x61030, 0x40, 4, 0, 32⟩
def TDC_M_COUNT_COUNT : Fld := ⟨0x61038, 0x40, 0, 0, 32⟩
def TDC_M_RING_RING : Fld := ⟨0x6103c, 0x40, 0, 0, 10⟩
def MRK_CFG_MODE : Fld := ⟨0x62000, 0x40, 0, 0, 3⟩
def MRK_CFG_POL : Fld := ⟨0x62000, 0x40, 0, 4, 1⟩
def MRK_CFG_HAL : Fld := ⟨0x62000, 0x40, 0, 8, 6⟩
def MRK_WIDTH_NS : Fld := ⟨0x62004, 0x40, 0, 0, 16⟩
def MRK_TIME_FRAC_FRAC : Fld := ⟨0x62008, 0x40, 0, 0, 16⟩
def MRK_TIME_NS_NS : Fld := ⟨0x6200c, 0x40, 0, 0, 30⟩
def MRK_TIME_SEC_LO_SEC : Fld := ⟨0x62010, 0x40, 0, 0, 32⟩
def MRK_TIME_SEC_HI_SEC : Fld := ⟨0x62014, 0x40, 0, 0, 16⟩
def MRK_PERIOD_NS : Fld := ⟨0x62018, 0x40, 0, 0, 32⟩
def MRK_DROP_COUNT : Fld := ⟨0x6201c, 0x40, 0, 0, 32⟩
def MRK_STATUS_ARMED : Fld := ⟨0x62020, 0x40, 0, 0, 1⟩
def AXS_AX_CFG_EN : Fld := ⟨0x80100, 0x40, 0, 0, 1⟩
def AXS_AX_CFG_MODE : Fld := ⟨0x80100, 0x40, 0, 1, 1⟩
def AXS_AX_CFG_INV : Fld := ⟨0x80100, 0x40, 0, 2, 1⟩
def AXS_AX_CFG_INDEX_EN : Fld := ⟨0x80100, 0x40, 0, 3, 1⟩
def AXS_AX_CFG_FILTER : Fld := ⟨0x80100, 0x40, 0, 8, 8⟩
def AXS_AX_CFG_PRED_LOG2 : Fld := ⟨0x80100, 0x40, 0, 16, 4⟩
def AXS_AX_CFG_BW : Fld := ⟨0x80100, 0x40, 0, 24, 2⟩
def AXS_AX_STATUS_STATE : Fld := ⟨0x80104, 0x40, 0, 0, 3⟩
def AXS_AX_STATUS_DIR : Fld := ⟨0x80104, 0x40, 0, 3, 1⟩
def AXS_AX_STATUS_OVERSPEED : Fld := ⟨0x80104, 0x40, 0, 4, 1⟩
def AXS_AX_VAL_LO_VAL : Fld := ⟨0x80108, 0x40, 0, 0, 32⟩
def AXS_AX_VAL_HI_VAL : Fld := ⟨0x8010c, 0x40, 0, 0, 32⟩
def AXS_AX_VEL_VEL : Fld := ⟨0x80110, 0x40, 0, 0, 32⟩
def AXS_AX_HOME_LO_HOME : Fld := ⟨0x80114, 0x40, 0, 0, 32⟩
def AXS_AX_HOME_HI_HOME : Fld := ⟨0x80118, 0x40, 0, 0, 32⟩
def AXS_AX_CMD_HOME : Fld := ⟨0x8011c, 0x40, 0, 0, 1⟩
def AXS_AX_IDX_LO_IDX : Fld := ⟨0x80120, 0x40, 0, 0, 32⟩
def AXS_AX_IDX_HI_IDX : Fld := ⟨0x80124, 0x40, 0, 0, 32⟩
def AXS_AX_ERR_ILLEGAL : Fld := ⟨0x80128, 0x40, 0, 0, 16⟩
def AXS_AX_ERR_GLITCH : Fld := ⟨0x80128, 0x40, 0, 16, 16⟩
def AXS_AX_LOCK_WINDOW : Fld := ⟨0x8012c, 0x40, 0, 0, 7⟩
def AXS_AX_LOCK_CYCLES : Fld := ⟨0x8012c, 0x40, 0, 16, 16⟩
def AXS_AX_LOSS_UNLOCK : Fld := ⟨0x80130, 0x40, 0, 0, 8⟩
def AXS_AX_LOSS_CYCLES : Fld := ⟨0x80130, 0x40, 0, 8, 8⟩
def AXS_AX_EVT_INPUT : Fld := ⟨0x80134, 0x40, 0, 0, 4⟩
def AXS_AX_EVT_EDGE : Fld := ⟨0x80134, 0x40, 0, 4, 1⟩
def AXS_AX_EVT_PHERR : Fld := ⟨0x80134, 0x40, 0, 16, 16⟩
def AXS_AX_PERIOD_NS : Fld := ⟨0x80138, 0x40, 0, 0, 32⟩
def AXS_AX_PHOFF_PHOFF : Fld := ⟨0x8013c, 0x40, 0, 0, 32⟩
def CUE_CTRL_EN : Fld := ⟨0x80400, 0, 0, 0, 1⟩
def CUE_CTRL_LOG : Fld := ⟨0x80400, 0, 0, 1, 1⟩
def CUE_CTRL_RING : Fld := ⟨0x80400, 0, 0, 16, 10⟩
def CUE_STATUS_PREPARED : Fld := ⟨0x80404, 0, 0, 0, 7⟩
def CUE_STATUS_ARMED : Fld := ⟨0x80404, 0, 0, 16, 13⟩
def CUE_ERR_ENTRY : Fld := ⟨0x80408, 0, 0, 0, 12⟩
def CUE_ERR_CODE : Fld := ⟨0x80408, 0, 0, 16, 8⟩
def CUE_ERR_VALID : Fld := ⟨0x80408, 0, 0, 31, 1⟩
def CUE_COMMITS_COUNT : Fld := ⟨0x8040c, 0, 0, 0, 32⟩
def CUE_ABANDON_COUNT : Fld := ⟨0x80410, 0, 0, 0, 32⟩
def CUE_ABANDON_LAST_ENTRY : Fld := ⟨0x80414, 0, 0, 0, 12⟩
def CUE_ABANDON_LAST_CAUSE : Fld := ⟨0x80414, 0, 0, 16, 3⟩
def CUE_MISSED_COUNT : Fld := ⟨0x80418, 0, 0, 0, 32⟩
def CUE_LATE_COUNT : Fld := ⟨0x8041c, 0, 0, 0, 32⟩
def CUE_COLLIDE_COUNT : Fld := ⟨0x80420, 0, 0, 0, 32⟩
def CUE_SNAP_MISS_COUNT : Fld := ⟨0x80424, 0, 0, 0, 32⟩
def CUE_WDROP_COUNT : Fld := ⟨0x80428, 0, 0, 0, 32⟩
def CUE_SKIP_COUNT : Fld := ⟨0x8042c, 0, 0, 0, 32⟩
def CUE_LOG_DROP_COUNT : Fld := ⟨0x80430, 0, 0, 0, 32⟩
def CUE_EVT_ENTRY_COMMIT : Fld := ⟨0x80434, 0, 0, 0, 12⟩
def CUE_EVT_ENTRY_ABANDON : Fld := ⟨0x80434, 0, 0, 16, 12⟩
def CUE_GRP_EN_EN : Fld := ⟨0x80440, 4, 0, 0, 32⟩
def CUE_STATE_STATES : Fld := ⟨0x81000, 4, 0, 0, 32⟩
def CUE_ENTRY_WORD : Fld := ⟨0x90000, 0x20, 4, 0, 32⟩
def CNV_CMD_CMD : Fld := ⟨0xc0000, 0x1000, 0, 0, 2⟩
def CNV_CTRL_PAIRED : Fld := ⟨0xc0004, 0x1000, 0, 0, 1⟩
def CNV_CTRL_OVR_BLANK : Fld := ⟨0xc0004, 0x1000, 0, 1, 1⟩
def CNV_CTRL_OVR_HAL_EN : Fld := ⟨0xc0004, 0x1000, 0, 2, 1⟩
def CNV_CTRL_OVR_HAL : Fld := ⟨0xc0004, 0x1000, 0, 8, 6⟩
def CNV_STATUS_STATE : Fld := ⟨0xc0008, 0x1000, 0, 0, 3⟩
def CNV_STATUS_PAIRED : Fld := ⟨0xc0008, 0x1000, 0, 3, 1⟩
def CNV_STATUS_PAIR_PENDING : Fld := ⟨0xc0008, 0x1000, 0, 4, 1⟩
def CNV_STATUS_OVR : Fld := ⟨0xc0008, 0x1000, 0, 5, 1⟩
def CNV_STATUS_BLANKING : Fld := ⟨0xc0008, 0x1000, 0, 6, 1⟩
def CNV_STATUS_TONE : Fld := ⟨0xc0008, 0x1000, 0, 7, 1⟩
def CNV_STATUS_HOLDOVER : Fld := ⟨0xc0008, 0x1000, 0, 8, 1⟩
def CNV_STATUS_CAL_STALE : Fld := ⟨0xc0008, 0x1000, 0, 9, 1⟩
def CNV_STATUS_HAL_CONFLICT : Fld := ⟨0xc0008, 0x1000, 0, 10, 1⟩
def CNV_STATUS_CODE : Fld := ⟨0xc0008, 0x1000, 0, 16, 8⟩
def CNV_ATTEN_ATTEN : Fld := ⟨0xc000c, 0x1000, 0, 0, 5⟩
def CNV_ATTEN_ACT_SETTING : Fld := ⟨0xc0010, 0x1000, 0, 0, 5⟩
def CNV_ATTEN_ACT_ACTUAL : Fld := ⟨0xc0010, 0x1000, 0, 16, 16⟩
def CNV_OVR_CFG_THRESH : Fld := ⟨0xc0014, 0x1000, 0, 0, 11⟩
def CNV_OVR_CFG_DWELL : Fld := ⟨0xc0014, 0x1000, 0, 16, 12⟩
def CNV_OVR_REL_RELEASE : Fld := ⟨0xc0018, 0x1000, 0, 0, 16⟩
def CNV_OVR_COUNT_COUNT : Fld := ⟨0xc001c, 0x1000, 0, 0, 32⟩
def CNV_BLANK_LO_BLANK : Fld := ⟨0xc0020, 0x1000, 0, 0, 32⟩
def CNV_BLANK_HI_BLANK : Fld := ⟨0xc0024, 0x1000, 0, 0, 32⟩
def CNV_START_IDX_LO_IDX : Fld := ⟨0xc0028, 0x1000, 0, 0, 32⟩
def CNV_START_IDX_HI_IDX : Fld := ⟨0xc002c, 0x1000, 0, 0, 32⟩
def CNV_IDX_LO_IDX : Fld := ⟨0xc0030, 0x1000, 0, 0, 32⟩
def CNV_IDX_HI_IDX : Fld := ⟨0xc0034, 0x1000, 0, 0, 32⟩
def CNV_DELAY_DELAY : Fld := ⟨0xc0038, 0x1000, 0, 0, 16⟩
def CNV_SLICE_SPARES_LEFT : Fld := ⟨0xc003c, 0x1000, 0, 0, 3⟩
def CNV_SLICE_PENDING : Fld := ⟨0xc003c, 0x1000, 0, 8, 7⟩
def CNV_SLICE_RETIRED : Fld := ⟨0xc003c, 0x1000, 0, 16, 7⟩
def CNV_SLICE_DEGRADED : Fld := ⟨0xc003c, 0x1000, 0, 24, 1⟩
def CNV_MON_LIM_OFFSET : Fld := ⟨0xc0040, 0x1000, 0, 0, 8⟩
def CNV_MON_LIM_GAIN : Fld := ⟨0xc0040, 0x1000, 0, 8, 8⟩
def CNV_MON_LIM_SKEW : Fld := ⟨0xc0040, 0x1000, 0, 16, 16⟩
def CNV_SLOT_PHYS : Fld := ⟨0xc0100, 0x1000, 4, 0, 7⟩
def CNV_SLOT_MON_FAIL : Fld := ⟨0xc0100, 0x1000, 4, 8, 1⟩
def CNV_SLOT_PENDING_SWAP : Fld := ⟨0xc0100, 0x1000, 4, 9, 1⟩
def CNV_SLOT_STALE : Fld := ⟨0xc0100, 0x1000, 4, 10, 1⟩
def CNV_PHYS_ROLE : Fld := ⟨0xc0200, 0x1000, 4, 0, 2⟩
def CNV_PHYS_SLOT : Fld := ⟨0xc0200, 0x1000, 4, 8, 6⟩
def CNV_PHYS_FIELD : Fld := ⟨0xc0200, 0x1000, 4, 16, 1⟩
def CNV_MON_OFFSET_ERR : Fld := ⟨0xc0400, 0x1000, 8, 0, 16⟩
def CNV_MON_GAIN_ERR : Fld := ⟨0xc0400, 0x1000, 8, 16, 16⟩
def CNV_MON_SKEW_SKEW_ERR : Fld := ⟨0xc0404, 0x1000, 8, 0, 16⟩
def CAL_CMD_INPUT : Fld := ⟨0xc8000, 0, 0, 0, 3⟩
def CAL_CMD_OP : Fld := ⟨0xc8000, 0, 0, 4, 2⟩
def CAL_STATUS_POWERUP_DONE : Fld := ⟨0xc8004, 0, 0, 0, 1⟩
def CAL_STATUS_ENGINE_BUSY : Fld := ⟨0xc8004, 0, 0, 1, 1⟩
def CAL_STATUS_ENGINE_INPUT : Fld := ⟨0xc8004, 0, 0, 2, 3⟩
def CAL_STATUS_GEN_USED : Fld := ⟨0xc8004, 0, 0, 5, 2⟩
def CAL_STATUS_FACTORY : Fld := ⟨0xc8004, 0, 0, 7, 1⟩
def CAL_STATUS_GEN_SKIPPED : Fld := ⟨0xc8004, 0, 0, 8, 1⟩
def CAL_STATUS_REF_STALE : Fld := ⟨0xc8004, 0, 0, 9, 1⟩
def CAL_STATUS_TEMP_STALE : Fld := ⟨0xc8004, 0, 0, 10, 1⟩
def CAL_STATUS_PLL_STALE : Fld := ⟨0xc8004, 0, 0, 11, 12⟩
def CAL_STATUS_ARCH_FAIL : Fld := ⟨0xc8004, 0, 0, 23, 1⟩
def CAL_PU_TIME_MS : Fld := ⟨0xc8008, 0, 0, 0, 32⟩
def CAL_SLOT_REFUSE_COUNT : Fld := ⟨0xc800c, 0, 0, 0, 32⟩
def CAL_IN_STATUS_CAUSE : Fld := ⟨0xc8100, 0x20, 0, 0, 2⟩
def CAL_IN_STATUS_QUEUED : Fld := ⟨0xc8100, 0x20, 0, 2, 1⟩
def CAL_IN_STATUS_CODE : Fld := ⟨0xc8100, 0x20, 0, 8, 8⟩
def CAL_IN_STATUS_STALE : Fld := ⟨0xc8100, 0x20, 0, 16, 8⟩
def CAL_IN_SEQ_SEQ : Fld := ⟨0xc8104, 0x20, 0, 0, 32⟩
def CAL_IN_TIME_US : Fld := ⟨0xc8108, 0x20, 0, 0, 32⟩
def CAL_IN_TEMP_TEMP : Fld := ⟨0xc810c, 0x20, 0, 0, 16⟩
def CAL_IN_TEMP_LIM_LIM : Fld := ⟨0xc8110, 0x20, 0, 0, 8⟩
def CAL_IN_ACCEPT_PENDING : Fld := ⟨0xc8114, 0x20, 0, 0, 1⟩
def CAL_LIMIT_MIN_MIN : Fld := ⟨0xc8400, 0x10, 0, 0, 32⟩
def CAL_LIMIT_MAX_MAX : Fld := ⟨0xc8404, 0x10, 0, 0, 32⟩
def CAL_LIMIT_DELTA_DELTA : Fld := ⟨0xc8408, 0x10, 0, 0, 32⟩
def CAL_REPORT_WORD : Fld := ⟨0xc9000, 0x800, 4, 0, 32⟩
def FMR_CTRL_GOVERN : Fld := ⟨0x100000, 0, 0, 0, 1⟩
def FMR_STATUS_ACTIVE : Fld := ⟨0x100004, 0, 0, 0, 8⟩
def FMR_STATUS_LOADING : Fld := ⟨0x100004, 0, 0, 8, 8⟩
def FMR_STATUS_REEF : Fld := ⟨0x100004, 0, 0, 16, 1⟩
def FMR_STATUS_HALTED : Fld := ⟨0x100004, 0, 0, 17, 1⟩
def FMR_COMPAT_IDENT : Fld := ⟨0x100008, 0, 0, 0, 32⟩
def FMR_PROFILE_PROFILE : Fld := ⟨0x10000c, 0, 0, 0, 32⟩
def FMR_KNOB_ERR_COUNT : Fld := ⟨0x100010, 0, 0, 0, 32⟩
def FMR_HAL_SEEN_SEEN : Fld := ⟨0x100020, 4, 0, 0, 32⟩
def FMR_SEC_DONE_DONE : Fld := ⟨0x100030, 4, 0, 0, 32⟩
def FMR_IMG_RING_RING : Fld := ⟨0x100100, 0x40, 0, 0, 10⟩
def FMR_IMG_OFFSET_LO_OFFSET_LO : Fld := ⟨0x100104, 0x40, 0, 0, 32⟩
def FMR_IMG_OFFSET_HI_OFFSET_HI : Fld := ⟨0x100108, 0x40, 0, 0, 32⟩
def FMR_IMG_CMD_CMD : Fld := ⟨0x10010c, 0x40, 0, 0, 2⟩
def FMR_IMG_STATUS_STATE : Fld := ⟨0x100110, 0x40, 0, 0, 3⟩
def FMR_IMG_STATUS_CODE : Fld := ⟨0x100110, 0x40, 0, 8, 8⟩
def FMR_IMG_STATUS_SIGNED : Fld := ⟨0x100110, 0x40, 0, 16, 1⟩
def FMR_IMG_STATUS_KEY : Fld := ⟨0x100110, 0x40, 0, 17, 2⟩
def FMR_IMG_STATUS_DEV : Fld := ⟨0x100110, 0x40, 0, 19, 1⟩
def FMR_IMG_SECTIONS_SECTIONS : Fld := ⟨0x100114, 0x40, 0, 0, 8⟩
def FMR_IMG_ID_ID : Fld := ⟨0x100118, 0x40, 4, 0, 32⟩
def FMR_IMG_WDROP_WDROP : Fld := ⟨0x100128, 0x40, 0, 0, 32⟩
def FMR_HAL_MERGE_COUNT : Fld := ⟨0x100200, 4, 0, 0, 32⟩
def FMR_HAL_DRV_KIND : Fld := ⟨0x100300, 4, 0, 0, 4⟩
def FMR_HAL_DRV_INDEX : Fld := ⟨0x100300, 4, 0, 8, 8⟩
def FMR_CAP_CAPACITY : Fld := ⟨0x100800, 4, 0, 0, 9⟩
def FMR_CAP_SPARES : Fld := ⟨0x100800, 4, 0, 12, 4⟩
def FMR_CAP_RETIRED : Fld := ⟨0x100800, 4, 0, 16, 9⟩
def FMR_SEC_OP_OP : Fld := ⟨0x101000, 0x10, 0, 0, 4⟩
def FMR_SEC_OP_SUPERSEDE : Fld := ⟨0x101000, 0x10, 0, 8, 1⟩
def FMR_SEC_OP_SLOT : Fld := ⟨0x101000, 0x10, 0, 12, 1⟩
def FMR_SEC_STATE_STATE : Fld := ⟨0x101004, 0x10, 0, 0, 3⟩
def FMR_SEC_STATE_SLOT : Fld := ⟨0x101004, 0x10, 0, 8, 1⟩
def FMR_SEC_STATE_CODE : Fld := ⟨0x101004, 0x10, 0, 16, 8⟩
def FMR_SEC_STATE_KNOB_HOLD : Fld := ⟨0x101004, 0x10, 0, 24, 1⟩
def FMR_SEC_LOADTIME_LOADTIME : Fld := ⟨0x101008, 0x10, 0, 0, 32⟩
def FMR_SEC_COUNT_KNOB_REFUSE : Fld := ⟨0x10100c, 0x10, 0, 0, 16⟩
def FMR_SEC_COUNT_ABANDONED : Fld := ⟨0x10100c, 0x10, 0, 16, 16⟩
def GAL_STATUS_READY : Fld := ⟨0x300000, 0, 0, 0, 1⟩
def GAL_STATUS_STONE : Fld := ⟨0x300000, 0, 0, 8, 8⟩
def GAL_STATUS_CHANNELS : Fld := ⟨0x300000, 0, 0, 16, 7⟩
def GAL_STATUS_FROZEN : Fld := ⟨0x300000, 0, 0, 23, 1⟩
def GAL_STATUS_CODE : Fld := ⟨0x300000, 0, 0, 24, 8⟩
def GAL_ANCHOR_RING : Fld := ⟨0x300004, 0, 0, 0, 10⟩
def GAL_ANCHOR_EN : Fld := ⟨0x300004, 0, 0, 31, 1⟩
def GAL_ANCHOR_LOST_LOST : Fld := ⟨0x300008, 0, 0, 0, 32⟩
def GAL_FAULT_PAGE_PAGE : Fld := ⟨0x30000c, 0, 0, 0, 17⟩
def GAL_FAULT_ADDR_LO_ADDR : Fld := ⟨0x300010, 0, 0, 0, 32⟩
def GAL_FAULT_ADDR_HI_ADDR : Fld := ⟨0x300014, 0, 0, 0, 8⟩
def GAL_FAULT_INFO_CAUSE : Fld := ⟨0x300018, 0, 0, 0, 2⟩
def GAL_FAULT_INFO_RING : Fld := ⟨0x300018, 0, 0, 16, 10⟩
def GAL_FAULT_INFO_DIR : Fld := ⟨0x300018, 0, 0, 28, 1⟩
def GAL_FAULT_INFO_VALID : Fld := ⟨0x300018, 0, 0, 31, 1⟩
def GAL_FAULT_COUNT_COUNT : Fld := ⟨0x30001c, 0, 0, 0, 32⟩
def GAL_MAP_IDX_IDX : Fld := ⟨0x300020, 0, 0, 0, 17⟩
def GAL_MAP_LO_ENTRY : Fld := ⟨0x300024, 0, 0, 0, 32⟩
def GAL_MAP_HI_ENTRY : Fld := ⟨0x300028, 0, 0, 0, 32⟩
def GAL_CACHE_MISS_COUNT : Fld := ⟨0x30002c, 0, 0, 0, 32⟩
def GAL_STONE_FULL_COUNT : Fld := ⟨0x300030, 0, 0, 0, 32⟩
def GAL_HOST_ERR_COUNT : Fld := ⟨0x300034, 0, 0, 0, 32⟩
def GAL_NOWHERE_COUNT : Fld := ⟨0x300038, 0, 0, 0, 32⟩
def GAL_RING_CFG_EN : Fld := ⟨0x304000, 0x20, 0, 0, 1⟩
def GAL_RING_CFG_MODE : Fld := ⟨0x304000, 0x20, 0, 1, 1⟩
def GAL_RING_CFG_HOST_RD : Fld := ⟨0x304000, 0x20, 0, 2, 1⟩
def GAL_RING_CFG_AXIS : Fld := ⟨0x304000, 0x20, 0, 4, 2⟩
def GAL_RING_CFG_NOAXIS : Fld := ⟨0x304000, 0x20, 0, 6, 1⟩
def GAL_RING_CFG_IRQ_EN : Fld := ⟨0x304000, 0x20, 0, 8, 8⟩
def GAL_RING_CFG_THRESH : Fld := ⟨0x304000, 0x20, 0, 16, 8⟩
def GAL_RING_BASE_BASE : Fld := ⟨0x304004, 0x20, 0, 0, 17⟩
def GAL_RING_PAGES_PAGES : Fld := ⟨0x304008, 0x20, 0, 0, 17⟩
def GAL_RING_WR_LO_WR : Fld := ⟨0x30400c, 0x20, 0, 0, 32⟩
def GAL_RING_WR_HI_WR : Fld := ⟨0x304010, 0x20, 0, 0, 32⟩
def GAL_RING_RD_LO_RD : Fld := ⟨0x304014, 0x20, 0, 0, 32⟩
def GAL_RING_RD_HI_RD : Fld := ⟨0x304018, 0x20, 0, 0, 32⟩
def GAL_RING_STAT_EVENTS : Fld := ⟨0x30401c, 0x20, 0, 0, 8⟩
def GAL_RING_STAT_WRITERS : Fld := ⟨0x30401c, 0x20, 0, 8, 8⟩
def GAL_RING_STAT_READERS : Fld := ⟨0x30401c, 0x20, 0, 16, 8⟩
def GAL_RING_STAT_OVF_OPEN : Fld := ⟨0x30401c, 0x20, 0, 24, 1⟩
def GAL_RING_STAT_CODE : Fld := ⟨0x30401c, 0x20, 0, 28, 4⟩
def GAL_RING_CNT_OVF_OVF_UNITS : Fld := ⟨0x30c000, 0x10, 0, 0, 32⟩
def GAL_RING_CNT_DROPPED_DROPPED : Fld := ⟨0x30c004, 0x10, 0, 0, 32⟩
def GAL_RING_CNT_OVERRUN_OVERRUN : Fld := ⟨0x30c008, 0x10, 0, 0, 32⟩
def GAL_RING_CNT_MISC_CTX_MERGED : Fld := ⟨0x30c00c, 0x10, 0, 0, 16⟩
def GAL_RING_CNT_MISC_DEAD_PAGES : Fld := ⟨0x30c00c, 0x10, 0, 16, 16⟩
def DRC_CH_STATUS_STATE : Fld := ⟨0x310000, 0x400, 0, 0, 3⟩
def DRC_CH_STATUS_SLOT : Fld := ⟨0x310000, 0x400, 0, 8, 6⟩
def DRC_CH_STATUS_HOT : Fld := ⟨0x310000, 0x400, 0, 14, 1⟩
def DRC_CH_STATUS_INORDER : Fld := ⟨0x310000, 0x400, 0, 15, 1⟩
def DRC_CH_STATUS_FIELD : Fld := ⟨0x310000, 0x400, 0, 3, 1⟩
def DRC_CH_STATUS_CODE : Fld := ⟨0x310000, 0x400, 0, 16, 8⟩
def DRC_CH_CMD_CMD : Fld := ⟨0x310004, 0x400, 0, 0, 2⟩
def DRC_CH_CE_COUNT : Fld := ⟨0x310008, 0x400, 0, 0, 32⟩
def DRC_CH_UE_COUNT : Fld := ⟨0x31000c, 0x400, 0, 0, 32⟩
def DRC_CH_FRZ_CAUSE : Fld := ⟨0x310010, 0x400, 0, 0, 2⟩
def DRC_CH_FRZ_SCRUB : Fld := ⟨0x310010, 0x400, 0, 2, 1⟩
def DRC_CH_FRZ_ADDR_LO_ADDR : Fld := ⟨0x310014, 0x400, 0, 0, 32⟩
def DRC_CH_FRZ_ADDR_HI_ADDR : Fld := ⟨0x310018, 0x400, 0, 0, 6⟩
def DRC_CH_FRZ_SYND_SYND : Fld := ⟨0x31001c, 0x400, 0, 0, 32⟩
def DRC_CH_EYE_EYE : Fld := ⟨0x310020, 0x400, 0, 0, 32⟩
def DRC_CH_INORDER_COUNT : Fld := ⟨0x310024, 0x400, 0, 0, 32⟩
def DRC_CH_TEMP_TEMP : Fld := ⟨0x310028, 0x400, 0, 0, 8⟩
def DRC_CH_LOG_CMD_CMD : Fld := ⟨0x310100, 0x400, 8, 0, 4⟩
def DRC_CH_LOG_CMD_BANK : Fld := ⟨0x310100, 0x400, 8, 4, 4⟩
def DRC_CH_LOG_CMD_ROW : Fld := ⟨0x310100, 0x400, 8, 8, 17⟩
def DRC_CH_LOG_COL_COL : Fld := ⟨0x310104, 0x400, 8, 0, 11⟩
def DRC_CH_LOG_COL_AGO : Fld := ⟨0x310104, 0x400, 8, 16, 16⟩
def DRC_CTRL_APPLY : Fld := ⟨0x328000, 0, 0, 0, 1⟩
def DRC_CTRL_SCRUB_EN : Fld := ⟨0x328000, 0, 0, 1, 1⟩
def DRC_STATUS_IN_SERVICE : Fld := ⟨0x328004, 0, 0, 0, 7⟩
def DRC_STATUS_SPARES : Fld := ⟨0x328004, 0, 0, 8, 3⟩
def DRC_STATUS_SELFREF : Fld := ⟨0x328004, 0, 0, 11, 1⟩
def DRC_STATUS_CODE : Fld := ⟨0x328004, 0, 0, 16, 8⟩
def DRC_TRAIN_TIME_US : Fld := ⟨0x328008, 0, 0, 0, 32⟩
def DRC_SR_TOL_NS : Fld := ⟨0x32800c, 0, 0, 0, 32⟩
def DRC_SCRUB_HOURS : Fld := ⟨0x328010, 0, 0, 0, 8⟩
def DRC_SCRUB_CE_THRESH : Fld := ⟨0x328010, 0, 0, 8, 16⟩
def DRC_FROZEN_FROZEN : Fld := ⟨0x328020, 4, 0, 0, 32⟩
def DRC_MASK_LO_MASK : Fld := ⟨0x328040, 8, 0, 0, 32⟩
def DRC_MASK_HI_MASK : Fld := ⟨0x328044, 8, 0, 0, 8⟩
def DRC_SLOT_PHYS : Fld := ⟨0x328100, 4, 0, 0, 7⟩
def DRC_SLOT_NONE : Fld := ⟨0x328100, 4, 0, 7, 1⟩
def SPM_MARCH_CMD_CMD : Fld := ⟨0x330000, 0, 0, 0, 2⟩
def SPM_MARCH_CMD_ALG : Fld := ⟨0x330000, 0, 0, 8, 1⟩
def SPM_MARCH_CMD_SECTION : Fld := ⟨0x330000, 0, 0, 16, 7⟩
def SPM_MARCH_CMD_GANG : Fld := ⟨0x330000, 0, 0, 24, 4⟩
def SPM_MARCH_STATUS_STATE : Fld := ⟨0x330004, 0, 0, 0, 2⟩
def SPM_MARCH_STATUS_CODE : Fld := ⟨0x330004, 0, 0, 8, 8⟩
def SPM_MARCH_STATUS_REPAIRED : Fld := ⟨0x330004, 0, 0, 16, 16⟩
def SPM_MARCH_TIME_US : Fld := ⟨0x330008, 0, 0, 0, 32⟩
def SPM_PU_TIME_US : Fld := ⟨0x33000c, 0, 0, 0, 32⟩
def SPM_PU_REPAIRED_ROWS : Fld := ⟨0x330010, 0, 0, 0, 16⟩
def SPM_PU_RETIRED_UNITS : Fld := ⟨0x330014, 0, 0, 0, 16⟩
def SPM_STONE_ROWS_ROWS : Fld := ⟨0x330018, 0, 0, 0, 16⟩
def SPM_CNT_SEL_SECTION : Fld := ⟨0x330020, 0, 0, 0, 7⟩
def SPM_CNT_SEL_GANG : Fld := ⟨0x330020, 0, 0, 8, 4⟩
def SPM_CNT_SEL_MASTER : Fld := ⟨0x330020, 0, 0, 16, 5⟩
def SPM_CNT_VAL_COUNT : Fld := ⟨0x330024, 0, 0, 0, 32⟩
def SPM_ECC_CE_COUNT : Fld := ⟨0x330028, 0, 0, 0, 32⟩
def SPM_ECC_UE_COUNT : Fld := ⟨0x33002c, 0, 0, 0, 32⟩
def SPM_SORT_SPARES : Fld := ⟨0x330100, 4, 0, 0, 4⟩
def SPM_SORT_RETIRE_PENDING : Fld := ⟨0x330100, 4, 0, 8, 1⟩
def SPM_SORT_RETIRED : Fld := ⟨0x330100, 4, 0, 9, 1⟩
def MOV_CTRL_PRIO : Fld := ⟨0x340000, 0x100, 0, 0, 2⟩
def MOV_CTRL_RATE : Fld := ⟨0x340000, 0x100, 0, 8, 8⟩
def MOV_CTRL_BURST : Fld := ⟨0x340000, 0x100, 0, 16, 8⟩
def MOV_CTRL_FILL : Fld := ⟨0x340000, 0x100, 0, 24, 8⟩
def MOV_CMD_CMD : Fld := ⟨0x340004, 0x100, 0, 0, 2⟩
def MOV_STATUS_STATE : Fld := ⟨0x340008, 0x100, 0, 0, 2⟩
def MOV_STATUS_ELEM : Fld := ⟨0x340008, 0x100, 0, 4, 4⟩
def MOV_STATUS_CODE : Fld := ⟨0x340008, 0x100, 0, 8, 8⟩
def MOV_HEAD_LO_ADDR : Fld := ⟨0x34000c, 0x100, 0, 0, 32⟩
def MOV_HEAD_HI_ADDR : Fld := ⟨0x340010, 0x100, 0, 0, 32⟩
def MOV_CUR_LO_ADDR : Fld := ⟨0x340014, 0x100, 0, 0, 32⟩
def MOV_CUR_HI_ADDR : Fld := ⟨0x340018, 0x100, 0, 0, 32⟩
def MOV_DONE_COUNT : Fld := ⟨0x34001c, 0x100, 0, 0, 32⟩
def MOV_BAD_COUNT : Fld := ⟨0x340020, 0x100, 0, 0, 32⟩
def MOV_BYTES_LO_BYTES : Fld := ⟨0x340024, 0x100, 0, 0, 32⟩
def MOV_BYTES_HI_BYTES : Fld := ⟨0x340028, 0x100, 0, 0, 32⟩
def MOV_PREEMPT_COUNT : Fld := ⟨0x34002c, 0x100, 0, 0, 32⟩
def MOV_ERR_ADDR_LO_ADDR : Fld := ⟨0x340030, 0x100, 0, 0, 32⟩
def MOV_ERR_ADDR_HI_ADDR : Fld := ⟨0x340034, 0x100, 0, 0, 32⟩
def MOV_OWNER_PORT : Fld := ⟨0x340038, 0x100, 0, 0, 10⟩
def MOV_OWNER_STR : Fld := ⟨0x340038, 0x100, 0, 31, 1⟩
def STR_CFG_TRANSPORT : Fld := ⟨0x380000, 0x40, 0, 0, 2⟩
def STR_CFG_DIR : Fld := ⟨0x380000, 0x40, 0, 2, 1⟩
def STR_CFG_PROV : Fld := ⟨0x380000, 0x40, 0, 3, 1⟩
def STR_CFG_HOLDING : Fld := ⟨0x380000, 0x40, 0, 4, 1⟩
def STR_CFG_START_AT : Fld := ⟨0x380000, 0x40, 0, 5, 1⟩
def STR_CFG_RING : Fld := ⟨0x380000, 0x40, 0, 6, 10⟩
def STR_CFG_MOVER : Fld := ⟨0x380000, 0x40, 0, 16, 6⟩
def STR_CFG_IRQ_EN : Fld := ⟨0x380000, 0x40, 0, 24, 8⟩
def STR_CMD_CMD : Fld := ⟨0x380004, 0x40, 0, 0, 2⟩
def STR_STATUS_STATE : Fld := ⟨0x380008, 0x40, 0, 0, 3⟩
def STR_STATUS_HOLD_WAIT : Fld := ⟨0x380008, 0x40, 0, 3, 1⟩
def STR_STATUS_CODE : Fld := ⟨0x380008, 0x40, 0, 8, 8⟩
def STR_STATUS_EVENTS : Fld := ⟨0x380008, 0x40, 0, 16, 8⟩
def STR_P_P : Fld := ⟨0x38000c, 0x40, 4, 0, 32⟩
def STR_POS_LO_POS : Fld := ⟨0x380028, 0x40, 0, 0, 32⟩
def STR_POS_HI_POS : Fld := ⟨0x38002c, 0x40, 0, 0, 32⟩
def STR_DROP_UNITS : Fld := ⟨0x380030, 0x40, 0, 0, 32⟩
def STR_GAPS_COUNT : Fld := ⟨0x380034, 0x40, 0, 0, 32⟩
def STR_SKIP_COUNT : Fld := ⟨0x380038, 0x40, 0, 0, 32⟩
def STR_LEASE_MS : Fld := ⟨0x38003c, 0x40, 0, 0, 32⟩
def PCI_LINK_SPEED : Fld := ⟨0x390000, 0, 0, 0, 4⟩
def PCI_LINK_WIDTH : Fld := ⟨0x390000, 0, 0, 4, 6⟩
def PCI_LINK_UP : Fld := ⟨0x390000, 0, 0, 16, 1⟩
def PCI_LINK_DEGRADED : Fld := ⟨0x390000, 0, 0, 17, 1⟩
def PCI_CE_COUNT : Fld := ⟨0x390004, 0, 0, 0, 32⟩
def PCI_UE_COUNT : Fld := ⟨0x390008, 0, 0, 0, 32⟩
def PCI_DOWN_COUNT : Fld := ⟨0x39000c, 0, 0, 0, 32⟩
def PCI_ID_ID : Fld := ⟨0x390010, 0, 0, 0, 32⟩
def NVM_CTRL_SCAN : Fld := ⟨0x390100, 0, 0, 0, 1⟩
def NVM_SCAN_STATUS_BUSY : Fld := ⟨0x390104, 0, 0, 0, 1⟩
def NVM_SCAN_STATUS_ROUND : Fld := ⟨0x390104, 0, 0, 16, 16⟩
def NVM_PRESENT_PRESENT : Fld := ⟨0x390108, 0, 0, 0, 16⟩
def NVM_PRESENT_VANISHED : Fld := ⟨0x390108, 0, 0, 16, 16⟩
def NVM_ARRIVED_ARRIVED : Fld := ⟨0x39010c, 0, 0, 0, 16⟩
def NVM_TIMEOUT_MS : Fld := ⟨0x390110, 0, 0, 0, 16⟩
def NVM_DRV_STATE_STATE : Fld := ⟨0x391000, 0x80, 0, 0, 3⟩
def NVM_DRV_STATE_CODE : Fld := ⟨0x391000, 0x80, 0, 8, 8⟩
def NVM_DRV_STATE_SET : Fld := ⟨0x391000, 0x80, 0, 16, 4⟩
def NVM_DRV_STATE_ORDINAL : Fld := ⟨0x391000, 0x80, 0, 20, 4⟩
def NVM_DRV_LINK_SPEED : Fld := ⟨0x391004, 0x80, 0, 0, 4⟩
def NVM_DRV_LINK_WIDTH : Fld := ⟨0x391004, 0x80, 0, 4, 3⟩
def NVM_DRV_CAP_LBAS : Fld := ⟨0x391008, 0x80, 4, 0, 32⟩
def NVM_DRV_FMT_LBA_LOG2 : Fld := ⟨0x391010, 0x80, 0, 0, 4⟩
def NVM_DRV_FMT_MDTS_LOG2 : Fld := ⟨0x391010, 0x80, 0, 8, 8⟩
def NVM_DRV_SERIAL_SN : Fld := ⟨0x391014, 0x80, 4, 0, 32⟩
def NVM_DRV_TEMP_KELVIN : Fld := ⟨0x391028, 0x80, 0, 0, 16⟩
def NVM_DRV_USED_PCT : Fld := ⟨0x39102c, 0x80, 0, 0, 8⟩
def NVM_DRV_ERR_COUNT : Fld := ⟨0x391030, 0x80, 0, 0, 32⟩
def NVM_DRV_TMO_COUNT : Fld := ⟨0x391034, 0x80, 0, 0, 32⟩
def NVM_DRV_WRITTEN_MIB : Fld := ⟨0x391038, 0x80, 4, 0, 32⟩
def NVM_SET_CFG_MEMBERS : Fld := ⟨0x392000, 0x40, 0, 0, 16⟩
def NVM_SET_CFG_CHUNK_LOG2 : Fld := ⟨0x392000, 0x40, 0, 16, 5⟩
def NVM_SET_CFG_INFLIGHT : Fld := ⟨0x392000, 0x40, 0, 24, 4⟩
def NVM_SET_CFG_TRIM : Fld := ⟨0x392000, 0x40, 0, 28, 1⟩
def NVM_SET_CMD_CMD : Fld := ⟨0x392004, 0x40, 0, 0, 2⟩
def NVM_SET_STATUS_STATE : Fld := ⟨0x392008, 0x40, 0, 0, 3⟩
def NVM_SET_STATUS_WIDTH : Fld := ⟨0x392008, 0x40, 0, 8, 5⟩
def NVM_SET_STATUS_CODE : Fld := ⟨0x392008, 0x40, 0, 16, 8⟩
def NVM_SET_INSERVICE_MASK : Fld := ⟨0x39200c, 0x40, 0, 0, 16⟩
def NVM_SET_ID_ID : Fld := ⟨0x392010, 0x40, 4, 0, 32⟩
def NVM_SET_CHUNKS_SEQ : Fld := ⟨0x392020, 0x40, 4, 0, 32⟩
def NVM_SET_LOST_COUNT : Fld := ⟨0x392028, 0x40, 0, 0, 32⟩
def NVM_SET_EVLOST_COUNT : Fld := ⟨0x39202c, 0x40, 0, 0, 32⟩
def ETH_CFG_EN : Fld := ⟨0x3a0000, 0x400, 0, 0, 1⟩
def ETH_CFG_BREAKOUT : Fld := ⟨0x3a0000, 0x400, 0, 1, 1⟩
def ETH_CFG_MAXFRAME : Fld := ⟨0x3a0000, 0x400, 0, 16, 14⟩
def ETH_STATUS_LINK : Fld := ⟨0x3a0004, 0x400, 0, 0, 4⟩
def ETH_STATUS_FEC_LOCK : Fld := ⟨0x3a0004, 0x400, 0, 4, 4⟩
def ETH_FEC_CORR_COUNT : Fld := ⟨0x3a0008, 0x400, 0, 0, 32⟩
def ETH_FEC_UNCORR_COUNT : Fld := ⟨0x3a000c, 0x400, 0, 0, 32⟩
def ETH_CTL_PORT_PORT : Fld := ⟨0x3a0010, 0x400, 0, 0, 16⟩
def ETH_CTL_RATE_RATE : Fld := ⟨0x3a0014, 0x400, 0, 0, 16⟩
def ETH_CTL_RATE_DEPTH : Fld := ⟨0x3a0014, 0x400, 0, 16, 8⟩
def ETH_CTL_OK_COUNT : Fld := ⟨0x3a0018, 0x400, 0, 0, 32⟩
def ETH_CTL_BAD_COUNT : Fld := ⟨0x3a001c, 0x400, 0, 0, 32⟩
def ETH_CTL_LIMITED_COUNT : Fld := ⟨0x3a0020, 0x400, 0, 0, 32⟩
def ETH_SP_MAC_LO_MAC_LO : Fld := ⟨0x3a1000, 0x80, 0, 0, 32⟩
def ETH_SP_MAC_HI_MAC_HI : Fld := ⟨0x3a1004, 0x80, 0, 0, 32⟩
def ETH_SP_IPV4_IPV4 : Fld := ⟨0x3a1008, 0x80, 0, 0, 32⟩
def ETH_SP_IPV6_IPV6 : Fld := ⟨0x3a100c, 0x80, 4, 0, 32⟩
def ETH_SP_DATA_PORT_DATA_PORT : Fld := ⟨0x3a101c, 0x80, 0, 0, 16⟩
def ETH_SP_RX_BASE_RX_BASE : Fld := ⟨0x3a1020, 0x80, 4, 0, 32⟩
def ETH_SP_RX_SIZE_RX_SIZE : Fld := ⟨0x3a1028, 0x80, 0, 0, 4⟩
def ETH_SP_RX_TAIL_RX_TAIL : Fld := ⟨0x3a102c, 0x80, 0, 0, 32⟩
def ETH_SP_RX_HEAD_RX_HEAD : Fld := ⟨0x3a1030, 0x80, 0, 0, 32⟩
def ETH_SP_TX_BASE_TX_BASE : Fld := ⟨0x3a1034, 0x80, 4, 0, 32⟩
def ETH_SP_TX_SIZE_TX_SIZE : Fld := ⟨0x3a103c, 0x80, 0, 0, 4⟩
def ETH_SP_TX_TAIL_TX_TAIL : Fld := ⟨0x3a1040, 0x80, 0, 0, 32⟩
def ETH_SP_TX_HEAD_TX_HEAD : Fld := ⟨0x3a1044, 0x80, 0, 0, 32⟩
def ETH_SP_RXDROP_RXDROP : Fld := ⟨0x3a1048, 0x80, 0, 0, 32⟩
def ETH_UTC_OFFSET_SEC : Fld := ⟨0x3a2000, 0, 0, 0, 32⟩
def ETH_SUB_STAT_VALID : Fld := ⟨0x3a8000, 0x20, 0, 0, 1⟩
def ETH_SUB_STAT_IPV6 : Fld := ⟨0x3a8000, 0x20, 0, 1, 1⟩
def ETH_SUB_STAT_KEY : Fld := ⟨0x3a8000, 0x20, 0, 8, 6⟩
def ETH_SUB_ADDR_ADDR : Fld := ⟨0x3a8004, 0x20, 4, 0, 32⟩
def ETH_SUB_PORT_PORT : Fld := ⟨0x3a8014, 0x20, 0, 0, 16⟩
def ETH_SUB_MAC_MAC : Fld := ⟨0x3a8018, 0x20, 4, 0, 32⟩
def STY_CTRL_ID : Fld := ⟨0x3b0000, 0, 0, 0, 5⟩
def STY_CTRL_EN : Fld := ⟨0x3b0000, 0, 0, 8, 1⟩
def STY_CTRL_TT_EN : Fld := ⟨0x3b0000, 0, 0, 9, 1⟩
def STY_CTRL_SLEW_PPM : Fld := ⟨0x3b0000, 0, 0, 16, 8⟩
def STY_STATUS_MASTER : Fld := ⟨0x3b0004, 0, 0, 0, 5⟩
def STY_STATUS_ISOLATED : Fld := ⟨0x3b0004, 0, 0, 5, 1⟩
def STY_STATUS_SLEWING : Fld := ⟨0x3b0004, 0, 0, 6, 1⟩
def STY_STATUS_HAL_CONFLICT : Fld := ⟨0x3b0004, 0, 0, 7, 1⟩
def STY_STATUS_TOPO : Fld := ⟨0x3b0004, 0, 0, 8, 2⟩
def STY_STATUS_GENERATION : Fld := ⟨0x3b0004, 0, 0, 16, 16⟩
def STY_MEMBERS_MASK : Fld := ⟨0x3b0008, 0, 0, 0, 32⟩
def STY_SEGMENT_MASK : Fld := ⟨0x3b000c, 0, 0, 0, 32⟩
def STY_OFFSET_PS : Fld := ⟨0x3b0010, 4, 0, 0, 32⟩
def STY_CLK_PS_PS : Fld := ⟨0x3b0018, 0, 0, 0, 32⟩
def STY_HAL_OUT_MASK : Fld := ⟨0x3b0020, 4, 0, 0, 32⟩
def STY_HAL_IN_MASK : Fld := ⟨0x3b0028, 4, 0, 0, 32⟩
def STY_DISC_SCAN : Fld := ⟨0x3b0030, 0, 0, 0, 1⟩
def STY_DISC_ROUND : Fld := ⟨0x3b0030, 0, 0, 16, 16⟩
def STY_SEEN_MASK : Fld := ⟨0x3b0034, 0, 0, 0, 32⟩
def STY_ARRIVED_MASK : Fld := ⟨0x3b0038, 0, 0, 0, 32⟩
def STY_VANISHED_MASK : Fld := ⟨0x3b003c, 0, 0, 0, 32⟩
def STY_GCMD_OP : Fld := ⟨0x3b0040, 0, 0, 0, 2⟩
def STY_GCMD_ARG_ARG : Fld := ⟨0x3b0044, 0, 4, 0, 32⟩
def STY_GCMD_T_T : Fld := ⟨0x3b004c, 0, 4, 0, 32⟩
def STY_GCMD_STATUS_CODE : Fld := ⟨0x3b0058, 0, 0, 0, 8⟩
def STY_GCMD_STATUS_ID : Fld := ⟨0x3b0058, 0, 0, 8, 24⟩
def STY_GCMD_LATE_COUNT : Fld := ⟨0x3b005c, 0, 0, 0, 32⟩
def STY_LINK_STATE_STATE : Fld := ⟨0x3b0100, 0x40, 0, 0, 2⟩
def STY_LINK_STATE_PEER_ID : Fld := ⟨0x3b0100, 0x40, 0, 8, 5⟩
def STY_LINK_STATE_PEER_LINK : Fld := ⟨0x3b0100, 0x40, 0, 16, 2⟩
def STY_LINK_CABLE_PS : Fld := ⟨0x3b0104, 0x40, 0, 0, 32⟩
def STY_LINK_CRC_COUNT : Fld := ⟨0x3b0108, 0x40, 0, 0, 32⟩
def STY_LINK_RETX_COUNT : Fld := ⟨0x3b010c, 0x40, 0, 0, 32⟩
def STY_REPL_CFG_EN : Fld := ⟨0x3b0400, 0x10, 0, 0, 1⟩
def STY_REPL_CFG_HOLDING : Fld := ⟨0x3b0400, 0x10, 0, 1, 1⟩
def STY_REPL_CFG_SRC_RING : Fld := ⟨0x3b0400, 0x10, 0, 2, 10⟩
def STY_REPL_CFG_DST_STATION : Fld := ⟨0x3b0400, 0x10, 0, 16, 5⟩
def STY_REPL_DST_DST_RING : Fld := ⟨0x3b0404, 0x10, 0, 0, 10⟩
def STY_REPL_DROP_UNITS : Fld := ⟨0x3b0408, 0x10, 0, 0, 32⟩
def STY_REPL_STAT_RUNNING : Fld := ⟨0x3b040c, 0x10, 0, 0, 1⟩
def SHT_CFG_EN : Fld := ⟨0x3c0000, 0x2000, 0, 0, 1⟩
def SHT_CFG_CTX : Fld := ⟨0x3c0000, 0x2000, 0, 1, 1⟩
def SHT_CFG_RING : Fld := ⟨0x3c0000, 0x2000, 0, 2, 10⟩
def SHT_CFG_CYCLE_US : Fld := ⟨0x3c0000, 0x2000, 0, 16, 16⟩
def SHT_CMD_SCAN : Fld := ⟨0x3c0004, 0x2000, 0, 0, 1⟩
def SHT_STATUS_ROUND : Fld := ⟨0x3c0008, 0x2000, 0, 16, 16⟩
def SHT_PRESENT_MASK : Fld := ⟨0x3c000c, 0x2000, 0, 1, 31⟩
def SHT_ABSENT_MASK : Fld := ⟨0x3c0010, 0x2000, 0, 1, 31⟩
def SHT_VANISHED_MASK : Fld := ⟨0x3c0014, 0x2000, 0, 1, 31⟩
def SHT_ARRIVED_MASK : Fld := ⟨0x3c0018, 0x2000, 0, 1, 31⟩
def SHT_RETRY_COUNT : Fld := ⟨0x3c001c, 0x2000, 0, 0, 32⟩
def SHT_CRC_ERR_COUNT : Fld := ⟨0x3c0020, 0x2000, 0, 0, 32⟩
def SHT_UNCONF_COUNT : Fld := ⟨0x3c0024, 0x2000, 0, 0, 32⟩
def SHT_DIRECT_LIST : Fld := ⟨0x3c0028, 0x2000, 0, 0, 6⟩
def SHT_CYCLE_NO_COUNT : Fld := ⟨0x3c002c, 0x2000, 0, 0, 32⟩
def SHT_POLL_ENTRY : Fld := ⟨0x3c0100, 0x2000, 4, 0, 32⟩
def SHT_LIST_WORD : Fld := ⟨0x3c1000, 0x2000, 4, 0, 32⟩
def VID_CMD_CMD : Fld := ⟨0x3d0000, 0, 0, 0, 2⟩
def VID_STATUS_STATE : Fld := ⟨0x3d0004, 0, 0, 0, 2⟩
def VID_STATUS_HPD : Fld := ⟨0x3d0004, 0, 0, 4, 1⟩
def VID_STATUS_CODE : Fld := ⟨0x3d0004, 0, 0, 8, 8⟩
def VID_STATUS_LINE : Fld := ⟨0x3d0004, 0, 0, 16, 13⟩
def VID_LINK_LANES : Fld := ⟨0x3d0008, 0, 0, 0, 3⟩
def VID_LINK_RATE : Fld := ⟨0x3d0008, 0, 0, 8, 2⟩
def VID_PCLK_KHZ : Fld := ⟨0x3d000c, 0, 0, 0, 20⟩
def VID_H_ACTIVE : Fld := ⟨0x3d0010, 0, 0, 0, 13⟩
def VID_H_TOTAL : Fld := ⟨0x3d0010, 0, 0, 16, 13⟩
def VID_HSYNC_START : Fld := ⟨0x3d0014, 0, 0, 0, 13⟩
def VID_HSYNC_WIDTH : Fld := ⟨0x3d0014, 0, 0, 16, 9⟩
def VID_HSYNC_POL : Fld := ⟨0x3d0014, 0, 0, 31, 1⟩
def VID_V_ACTIVE : Fld := ⟨0x3d0018, 0, 0, 0, 13⟩
def VID_V_TOTAL : Fld := ⟨0x3d0018, 0, 0, 16, 13⟩
def VID_VSYNC_START : Fld := ⟨0x3d001c, 0, 0, 0, 13⟩
def VID_VSYNC_WIDTH : Fld := ⟨0x3d001c, 0, 0, 16, 9⟩
def VID_VSYNC_POL : Fld := ⟨0x3d001c, 0, 0, 31, 1⟩
def VID_BG_RGB : Fld := ⟨0x3d0020, 0, 0, 0, 24⟩
def VID_LINE_MATCH_LINE : Fld := ⟨0x3d0024, 0, 0, 0, 13⟩
def VID_UNDERRUN_COUNT : Fld := ⟨0x3d0028, 0, 0, 0, 32⟩
def VID_SR_TOL_NS : Fld := ⟨0x3d002c, 0, 0, 0, 32⟩
def VID_FETCH_SKIP_COUNT : Fld := ⟨0x3d0030, 0, 0, 0, 32⟩
def VID_FRAMES_COUNT : Fld := ⟨0x3d0034, 0, 0, 0, 32⟩
def VID_AUX_CMD_ADDR : Fld := ⟨0x3d0040, 0, 0, 0, 20⟩
def VID_AUX_CMD_LEN : Fld := ⟨0x3d0040, 0, 0, 20, 4⟩
def VID_AUX_CMD_OP : Fld := ⟨0x3d0040, 0, 0, 24, 3⟩
def VID_AUX_CMD_GO : Fld := ⟨0x3d0040, 0, 0, 31, 1⟩
def VID_AUX_STATUS_REPLY : Fld := ⟨0x3d0044, 0, 0, 0, 8⟩
def VID_AUX_STATUS_DONE : Fld := ⟨0x3d0044, 0, 0, 8, 1⟩
def VID_AUX_DATA_DATA : Fld := ⟨0x3d0048, 4, 0, 0, 32⟩
def VID_LAYER_CFG_EN : Fld := ⟨0x3d0100, 0x40, 0, 0, 1⟩
def VID_LAYER_CFG_FORMAT : Fld := ⟨0x3d0100, 0x40, 0, 1, 3⟩
def VID_LAYER_CFG_FOLLOW : Fld := ⟨0x3d0100, 0x40, 0, 4, 1⟩
def VID_LAYER_CFG_FORCE_OPAQUE : Fld := ⟨0x3d0100, 0x40, 0, 5, 1⟩
def VID_LAYER_CFG_GALPHA : Fld := ⟨0x3d0100, 0x40, 0, 8, 8⟩
def VID_LAYER_SRC_SRC_W : Fld := ⟨0x3d0104, 0x40, 0, 0, 13⟩
def VID_LAYER_SRC_SRC_H : Fld := ⟨0x3d0104, 0x40, 0, 16, 13⟩
def VID_LAYER_DSTP_DST_X : Fld := ⟨0x3d0108, 0x40, 0, 0, 13⟩
def VID_LAYER_DSTP_DST_Y : Fld := ⟨0x3d0108, 0x40, 0, 16, 13⟩
def VID_LAYER_DSTS_DST_W : Fld := ⟨0x3d010c, 0x40, 0, 0, 13⟩
def VID_LAYER_DSTS_DST_H : Fld := ⟨0x3d010c, 0x40, 0, 16, 13⟩
def VID_LAYER_BASE_BASE : Fld := ⟨0x3d0110, 0x40, 4, 0, 32⟩
def VID_LAYER_STRIDE_STRIDE : Fld := ⟨0x3d0118, 0x40, 0, 0, 24⟩
def VID_LAYER_CHROMA_CHROMA_OFF : Fld := ⟨0x3d011c, 0x40, 0, 0, 32⟩
def VID_LAYER_FOLLOW_FOLLOW_RING : Fld := ⟨0x3d0120, 0x40, 0, 0, 10⟩
def VID_LAYER_FOLLOW_FOLLOW_SRC : Fld := ⟨0x3d0120, 0x40, 0, 16, 8⟩
def VID_LAYER_FLIP_FLIP : Fld := ⟨0x3d0124, 0x40, 0, 0, 16⟩
def VID_LAYER_TAG_SHOWN_TAG : Fld := ⟨0x3d0128, 0x40, 0, 0, 16⟩
def VID_LAYER_TAG_PENDING_TAG : Fld := ⟨0x3d0128, 0x40, 0, 16, 16⟩
def VID_LAYER_NEVER_NEVER_TAG : Fld := ⟨0x3d012c, 0x40, 0, 0, 16⟩
def VID_LAYER_NEVER_PENDING : Fld := ⟨0x3d012c, 0x40, 0, 16, 1⟩
def VID_LAYER_FLIP_NEVER_FLIP_NEVER : Fld := ⟨0x3d0130, 0x40, 0, 0, 32⟩
def VID_PROOF_CFG_EN : Fld := ⟨0x3d0200, 0x20, 0, 0, 1⟩
def VID_PROOF_CFG_COMPARE : Fld := ⟨0x3d0200, 0x20, 0, 1, 1⟩
def VID_PROOF_POS_X : Fld := ⟨0x3d0204, 0x20, 0, 0, 13⟩
def VID_PROOF_POS_Y : Fld := ⟨0x3d0204, 0x20, 0, 16, 13⟩
def VID_PROOF_SIZE_W : Fld := ⟨0x3d0208, 0x20, 0, 0, 13⟩
def VID_PROOF_SIZE_H : Fld := ⟨0x3d0208, 0x20, 0, 16, 13⟩
def VID_PROOF_EXPECTED_CRC : Fld := ⟨0x3d020c, 0x20, 0, 0, 32⟩
def VID_PROOF_CRC_CRC : Fld := ⟨0x3d0210, 0x20, 0, 0, 32⟩
def VID_PROOF_MISMATCH_COUNT : Fld := ⟨0x3d0214, 0x20, 0, 0, 32⟩
def VID_PAL_ARGB : Fld := ⟨0x3d0800, 0x400, 4, 0, 32⟩
def CORE_CMD_CMD : Fld := ⟨0x430000, 0x40000, 0, 0, 3⟩
def CORE_STATUS_STATE : Fld := ⟨0x430004, 0x40000, 0, 0, 3⟩
def CORE_STATUS_CAUSE : Fld := ⟨0x430004, 0x40000, 0, 8, 3⟩
def CORE_STATUS_CODE : Fld := ⟨0x430004, 0x40000, 0, 16, 8⟩
def CORE_PC_PC : Fld := ⟨0x430008, 0x40000, 0, 0, 13⟩
def CORE_START_PC_PC : Fld := ⟨0x43000c, 0x40000, 0, 0, 13⟩
def CORE_DPAGE_PAGE : Fld := ⟨0x430010, 0x40000, 0, 0, 1⟩
def CORE_FAULT_PC_PC : Fld := ⟨0x430014, 0x40000, 0, 0, 13⟩
def CORE_CYCLES_LO_COUNT : Fld := ⟨0x430018, 0x40000, 0, 0, 32⟩
def CORE_CYCLES_HI_COUNT : Fld := ⟨0x43001c, 0x40000, 0, 0, 32⟩
def CORE_STALLS_COUNT : Fld := ⟨0x430020, 0x40000, 0, 0, 32⟩
def CORE_DB_LO_DB : Fld := ⟨0x430024, 0x40000, 0, 0, 32⟩
def CORE_DB_HI_DB : Fld := ⟨0x430028, 0x40000, 0, 0, 32⟩
def CORE_DB_EN_LO_EN : Fld := ⟨0x43002c, 0x40000, 0, 0, 32⟩
def CORE_DB_EN_HI_EN : Fld := ⟨0x430030, 0x40000, 0, 0, 32⟩
def CORE_HAL_TAP_TAP : Fld := ⟨0x430034, 0x40000, 0, 0, 32⟩
def CORE_HAL_OUT_HAL : Fld := ⟨0x430038, 0x40000, 0, 0, 6⟩
def CORE_HAL_OUT_EN : Fld := ⟨0x430038, 0x40000, 0, 8, 1⟩
def CORE_HAL_OUT_HAL_CONFLICT : Fld := ⟨0x430038, 0x40000, 0, 9, 1⟩
def CORE_IN_RING : Fld := ⟨0x430040, 0x40000, 0, 0, 10⟩
def CORE_IN_HOLD : Fld := ⟨0x430040, 0x40000, 0, 16, 1⟩
def CORE_IN_EN : Fld := ⟨0x430040, 0x40000, 0, 31, 1⟩
def CORE_OUT_RING : Fld := ⟨0x430044, 0x40000, 0, 0, 10⟩
def CORE_OUT_EN : Fld := ⟨0x430044, 0x40000, 0, 31, 1⟩
def CORE_IN_SKIP_COUNT : Fld := ⟨0x430048, 0x40000, 0, 0, 32⟩
def CORE_OUT_STALL_COUNT : Fld := ⟨0x43004c, 0x40000, 0, 0, 32⟩
def CORE_POST_WORD : Fld := ⟨0x430060, 0x40000, 4, 0, 32⟩
def CORE_T_CMD_CMD : Fld := ⟨0x80c000, 0x10000, 0, 0, 3⟩
def CORE_T_STATUS_STATE : Fld := ⟨0x80c004, 0x10000, 0, 0, 3⟩
def CORE_T_STATUS_CAUSE : Fld := ⟨0x80c004, 0x10000, 0, 8, 3⟩
def CORE_T_STATUS_CODE : Fld := ⟨0x80c004, 0x10000, 0, 16, 8⟩
def CORE_T_PC_PC : Fld := ⟨0x80c008, 0x10000, 0, 0, 11⟩
def CORE_T_START_PC_PC : Fld := ⟨0x80c00c, 0x10000, 0, 0, 11⟩
def CORE_T_FAULT_PC_PC : Fld := ⟨0x80c014, 0x10000, 0, 0, 11⟩
def CORE_T_CYCLES_COUNT : Fld := ⟨0x80c018, 0x10000, 0, 0, 32⟩
def CORE_T_STALLS_COUNT : Fld := ⟨0x80c020, 0x10000, 0, 0, 32⟩

end F
end Sys2Proof.Machine
end

