-- ==== Sys2Proof/Machine/State.lean ====
section
/-! DEFINITION. The state of the engine as plain data. Every register the spec names is a word of `Dev.regs`, keyed by its BAR0
offset; the fields beside it hold the state that no register word shows. `pending` is the queue of waiting commands. -/
namespace Sys2Proof.Machine

/-- A record before it is placed: the header fields of R311 that do not follow from the placement, and the payload. -/
structure Rec where
  type : Nat
  source : Nat
  flags : Nat
  epoch : Nat
  trig : Nat
  start : Nat
  count : Nat
  /-- TIMESTAMP96 as a number (R11). -/
  time : Nat
  axisId : Nat
  axis : Nat
  scale : Nat
  payload : List Byte
deriving DecidableEq, Repr

/-- Lost units of a product with their cause (R23, R25). -/
structure Loss where
  start : Nat
  count : Nat
  cause : Nat
deriving DecidableEq, Repr

/-- What a run of a product is a stream of. -/
inductive RunKind where
  | raw | chan | trace | dens | captures
deriving DecidableEq, Repr

/-- A run of a product (R21), of the section it is keyed by in `Dev.runs`. -/
structure Run where
  kind : RunKind
  source : Nat
  /-- Product tag (R317). -/
  tag : Nat
  /-- The input whose samples the run counts, and the ring it is bound to (none: its ring was OFF, R325). -/
  input : Nat
  ring : Option Nat
  /-- The next unit to account for (R22). -/
  next : Nat
  /-- The gap held open in the reserve (R24), gaps closed before it that wait with it for space, oldest first, and losses that lie ahead of
  `next`. -/
  gap : Option Loss
  held : List Loss
  losses : List Loss
  /-- The context record waiting in the reserve (R322). -/
  ctxWait : Option Rec
  /-- The newest context record of the run, as written (R385). -/
  ctxLast : Option (List Byte)
  /-- Reserve bytes (R320), and whether the run has written its first record. -/
  reserve : Nat
  taken : Bool
  /-- Product rate: `per` units in each step, steps per composing clock as a fraction, from the clock at which unit `base` begins. -/
  base : Nat
  baseClk : Nat
  rateNum : Nat
  rateDen : Nat
  per : Nat
deriving DecidableEq, Repr

/-- Who reads a ring (R319). -/
inductive ReaderKind where
  | port (n : Nat)
  | fetch (core : Nat)
  | playback (section_ : Nat)
  | replication (e : Nat)
  | layer (l : Nat)
deriving DecidableEq, Repr

/-- A record present in a ring; `pay` is the length of its payload. -/
structure Placed where
  pos : Nat
  len : Nat
  pay : Nat
  type : Nat
  source : Nat
  tag : Nat
  trig : Nat
  flags : Nat
  start : Nat
  count : Nat
deriving DecidableEq, Repr

/-- An attached reader: its position, and the records an overrun skipped that it has not reported yet. -/
structure Reader where
  kind : ReaderKind
  pos : Nat
  holding : Bool
  skipped : List Placed
deriving DecidableEq, Repr

/-- A ring that is ON (R318–R325): write position, next sequence number, records present oldest first, readers, the sections whose
runs write it, dead pages (R330), and the write positions kept per channel at freeze or RETIRE (R333). -/
structure Ring where
  wr : Nat
  seq : Nat
  recs : List Placed
  readers : List Reader
  writers : List Nat
  reserves : Nat
  dead : List Nat
  kept : List (Nat × Nat)
  overThresh : Bool
deriving DecidableEq, Repr

/-- One knob of a section (R45). -/
structure KnobRow where
  off : Nat
  width : Nat
  signed_ : Bool
  readOnly : Bool
  shadowable : Bool
  lockedByRun : Bool
  lo : Int
  hi : Int
deriving DecidableEq, Repr

/-- A placed sort of a body: logical coordinate, length and bytes of its configuration (R49). -/
structure SortEntry where
  col : Nat
  kind : Nat
  row : Nat
  config : List Byte
deriving DecidableEq, Repr

/-- A route of a body (R38, R49). -/
structure RouteEntry where
  srcCol : Nat
  srcKind : Nat
  srcRow : Nat
  dstCol : Nat
  dstKind : Nat
  dstRow : Nat
  srcPort : Nat
  dstPort : Nat
  delay : Nat
  width : Nat
deriving DecidableEq, Repr

/-- An input port of a section: producing section (128 + n: input n, R94) and output port. -/
structure InPort where
  bound : Bool
  producer : Nat
  port : Nat
deriving DecidableEq, Repr

/-- A gang of memory sorts (R356). -/
structure Gang where
  members : Nat
  id : Nat
  first : Nat
  masters : Nat
deriving DecidableEq, Repr

/-- A section as an image describes it (R45, R48, R49). -/
structure SectionDesc where
  index : Nat
  kind : Nat
  bodyLen : Nat
  reefPriority : Nat
  reefStage : Nat
  gating : Nat
  outPorts : Nat
  claim : BitVec 64
  knobs : List KnobRow
  sorts : List SortEntry
  routes : List RouteEntry
  inputs : List InPort
  initial : List (Nat × Nat)
  gangs : List Gang
deriving DecidableEq, Repr

/-- A verified image (R44–R52). -/
structure Image where
  length : Nat
  sections : List SectionDesc
  reef : List (Nat × Nat)
  events : List Nat
deriving DecidableEq, Repr

/-- An image slot: where the image named at VERIFY lies, when verification began, what it found, and the locked galley pages. -/
structure Slot where
  ring : Nat
  offset : Nat
  length : Nat
  since : Nat
  image : Option Image
  locked : List Nat
deriving DecidableEq, Repr

/-- A load that runs or waits (R61). -/
structure Load where
  sec : Nat
  slot : Nat
  started : Nat
deriving DecidableEq, Repr

/-- A halyard event on its way to the taps (R41), with its time tag (R228, a local time) when it carries one, and the origin station and
trigger id of a tag that a trigger unit made. -/
structure HalEvent where
  hal : Nat
  pos : Nat
  clk : Nat
  tag : Option Nat
  origin : Option (Nat × Nat)
deriving DecidableEq, Repr

/-- What leaves the block on a wire or a link: kept as a list, newest last. -/
inductive Out where
  /-- An MSI-X message on table entry `g` (R446). -/
  | msix (g : Nat)
  /-- PGOOD, the regulators (R459, R469). -/
  | pgood (on : Bool)
  /-- An Ethernet frame that software composed, on a sub-port (4 × port + sub-port). -/
  | frame (q : Nat) (bytes : List Byte)
  /-- A UDP datagram that the engine composes on a sub-port: VLAN tag word (none: untagged), IPv6, destination MAC and address, source and
  destination port, payload. Header fields the spec does not state (lifetime, identification) are not part of it. -/
  | datagram (q : Nat) (tag : Option Nat) (v6 : Bool) (mac addr src dst : Nat) (payload : List Byte)
  /-- Bytes stored to host memory. -/
  | hostWrite (addr : Nat) (bytes : List Byte)
  /-- An NVMe command to a drive: opcode (0 Flush, 1 Write, 2 Read, 9 Dataset Management), first byte on the drive, byte count, and the data
  written (zeros at its end are not listed). -/
  | nvme (drive : Nat) (op : Nat) (at_ len : Nat) (bytes : List Byte)
  /-- A control word on a stay link. -/
  | stay (link : Nat) (bytes : List Byte)
  /-- Bulk frames on a stay link that carry a record for a ring of another station: replicator, station, ring, record. -/
  | bulk (link e station ring : Nat) (bytes : List Byte)
  /-- A sheet-bus frame, and the commit strobe of a bus at a time. -/
  | sheet (bus : Nat) (bytes : List Byte)
  | strobe (bus : Nat) (time : Nat)
  /-- A marker pulse edge at a time, high or low (`MRK_CFG.POL`). -/
  | marker (n : Nat) (time : Nat) (width : Nat) (low : Bool)
  /-- An AUX transaction on the display link. -/
  | aux (op addr : Nat) (bytes : List Byte)
  /-- REF OUT starts or stops carrying the crystal's 100 MHz (R121). -/
  | refOut (on : Bool)
  /-- PERST# of a root port (R489). -/
  | perst (port : Nat) (low : Bool)
deriving DecidableEq, Repr

/-- An input's own state beside its registers. -/
structure Input where
  /-- Sample index of the first sample of the clock being sampled (R19). -/
  idx : Nat
  /-- Sample intervals delivered with VALID = 0 since START, oldest first (R76, R79). -/
  lost : List Loss
  /-- Record flags that held before the present ones, newest first: each up to a sample index (R161). -/
  was : List (Nat × Nat)
  /-- Clock of the last declaration or release of overrange (R77), and the first blanked sample of the blanking in progress (R78). -/
  ovrClk : Nat
  blankFrom : Option Nat
  /-- The newest attenuator value held during calibration (R72): setting, and the crossing time and epoch when a cue gave it. -/
  heldAtten : Option (Nat × Option (Nat × Nat))
  /-- The setting the odd input had before its pair was formed (R93). -/
  keptAtten : Nat
  /-- Records carry FRONTEND_UNCONFIRMED (R277). -/
  unconfirmed : Bool
  /-- First lost sample of the calibration slot in progress (R76). -/
  slotFrom : Option Nat
  /-- G6 source 28 was raised for this calibration already (R112). -/
  tempRaised : Bool
deriving DecidableEq, Repr

/-- A section that is not ABSENT: the description it was loaded with, knob writes held (R64), and the clock from which it is dark. -/
structure Section where
  desc : SectionDesc
  held : List (Nat × Nat)
  darkFrom : Option Nat
  /-- A channel's tuning word in force: both halves, as the last write of NCO_HI or the initial knob values applied them (R146). -/
  tw : Nat
  /-- The ring its CHAN or TRACE records go to: the spec names none, so it is a free value of the load (log entry 7). -/
  ring : Nat
deriving DecidableEq, Repr

/-- Interrupt state that no register shows: the clock at which each hold-off ends, the endpoint's MSI-X bits, masks and pending-bit
array (R447), and what STANDBY retained (R449): pending, enable, hold-off, target words. -/
structure Irq where
  holdEnd : Tab Nat
  msixEnable : Bool
  functionMask : Bool
  masked : Tab Unit
  pba : Tab Unit
  retained : List (Nat × Word)
deriving DecidableEq, Repr

/-- Housekeeping conversion in progress: entry, its two words at the start and the start clock; entries whose last result lay outside limits (R455). -/
structure Hka where
  entry : Option (Nat × Word × Word × Nat)
  outside : List Nat
  /-- Results the paced mover has taken and not yet delivered (R454). -/
  paced : List Word
deriving DecidableEq, Repr

/-- Supplies and reefing (R457–R469): whether 3.3 V and 12 V are valid, a STANDBY command in force (R457), a thermal trip whose start waits for
the die to cool, a start that waits for it (R469), the next start-up step 0–6 (R461), REF IN. Reefing: the clock at which the stage in force
was entered, whether the current drove it, the die temperature in 1/16 °C that drives its shedding, the clock of its last shed or of its entry
(R465, R466). -/
structure Power where
  v33 : Bool
  v12 : Bool
  standbyCmd : Bool
  tripWait : Bool
  startWait : Bool
  step : Nat
  refPresent : Bool
  reefSince : Nat
  byCurrent : Bool
  limit : Nat
  paceClk : Nat
deriving DecidableEq, Repr

/-- The repair map (R471–R475): fuse entries, the stored field entries (the three copies in the non-volatile store hold them), their
sequence number, the entries in force since the last power-up (R474), whether a rewrite runs. An entry is its 8 bytes as a number. -/
structure Repair where
  fuses : List Nat
  field : List Nat
  seq : Nat
  inForce : List Nat
  rewriting : Bool
deriving DecidableEq, Repr

/-- The security block (R479–R481): enrolled owner key hashes by slot, OWNED and the policy, the authorization counter, wrapped
subscriber keys and their control-frame counters. -/
structure Security where
  owners : Tab (List Byte)
  owned : Bool
  dev : Bool
  counter : Nat
  wrapped : Tab (List Byte)
  frameCtr : Tab Nat
deriving DecidableEq, Repr

/-- DRAM and on-die memory state that no register shows (spec/13_memory.md). -/
structure Dram where
  /-- Address masks in force (R346, R347). -/
  masks : List Nat
  /-- The spare entering service in a slot (R355). -/
  entering : List (Nat × Nat)
  /-- Corrected reads of each channel in its hour with the hour's first clock; channels whose last reading was 82 °C or below; last refresh
  of each slot. -/
  ceHour : Tab (Nat × Nat)
  cool : Tab Unit
  refreshed : Tab Nat
  /-- The contents are undefined since this many APPLYs (R347); 0: cleared at power-up (R498). -/
  garbled : Nat
  /-- Slots whose spare entered service since that APPLY: they hold 0 (R498). -/
  clean : List Nat
  /-- Entries of the on-die map cache (R328). -/
  cached : List Nat
  march : Option (Nat × Nat × Nat)
deriving DecidableEq, Repr


/-- A stage of a calibration (R99): its number (0 the switch-and-settle), the converter it measures, the trim set it fills; stage 5 of a
pair measures both converters. -/
structure CalStage where
  no : Nat
  conv : Nat
  set : Nat
deriving DecidableEq, Repr

/-- A calibration that measures, is suspended or waits for its archive write. -/
structure CalJob where
  input : Nat
  /-- 0 power-up, 1 request, 2 slot FULL, 3 slot SLICE. -/
  cause : Nat
  paired : Bool
  /-- Stages still to run, the clock the first of them began, the clock the calibration began measuring (a slot: its commit), its end. -/
  todo : List CalStage
  since : Nat
  start : Nat
  ended : Nat
  /-- Results that passed and values kept for those that failed, by item; slices with a result outside its window (68 × converter + slice). -/
  good : List (Nat × Int)
  kept : List (Nat × Int)
  outside : List Nat
  /-- Inputs whose ACCEPT this calibration takes (R105); whether its results are in force already, its slot having returned (R109). -/
  accept : List Nat
  done : Bool
deriving DecidableEq, Repr

/-- Calibration state that no register shows (spec/04_calibration.md). Items are numbered by `itemTrim` and its fellows. -/
structure Cal where
  /-- The measurement engine's calibration, those a slot suspended, inputs waiting, calibrations whose archive write runs or waits. -/
  job : Option CalJob
  suspended : List CalJob
  queue : List Nat
  archive : List CalJob
  archiveSince : Nat
  /-- Values in force and stale items; the same as the last completed calibration left them (R111). -/
  val : Tab Int
  stale : Tab Unit
  last : Tab Int
  lastStale : Tab Unit
  /-- The generation the DELTA checks compare with (R103); the three archive positions, with sequence number (R106). -/
  arch : Tab Int
  gens : Tab (Nat × Tab Int)
  pos : Nat
  /-- Status bits 4 and 5 of report slice entries (R113). -/
  marks : Tab Nat
  /-- Inputs whose ACCEPT waits for the next calibration to start (R105); the temperature map of stage 9 (R99). -/
  accepts : List Nat
  tempMap : List Int
deriving DecidableEq, Repr

/-- An LO profile in progress (R136, R137). -/
structure Lo where
  /-- The frequency word when the count began or now; whether the segment counts, since which clock, clocks left, slope per clock. -/
  base : Nat
  counting : Bool
  since : Nat
  left : Nat
  slope : Int
  /-- The segment acts on the output; it carries MUTE; its count waits for lock; a HOLD waits for lock; HELD came from WAITING; the segment's
  search begins at lock (R127, R136). -/
  started : Bool
  mute : Bool
  lockWait : Bool
  holdLock : Bool
  waitHeld : Bool
  owed : Bool
deriving DecidableEq, Repr

/-- What the lock rule has counted in a loop's present state (R125): consecutive reference cycles inside WINDOW, beyond UNLOCK, without an edge;
the composing clock up to which cycles were counted. -/
structure LoopRun where
  inside : Nat
  outside : Nat
  missing : Nat
  upTo : Nat
deriving DecidableEq, Repr

/-- Host commands that reached an LO in one clock (command, segment), and what the LO was before them: a cue commit of the same clock applies
first (R137). -/
structure LoTurn where
  clk : Nat
  cmds : List (Nat × Nat)
  regs : List (Nat × Word)
  lo : Option Lo
  since : Option Int
  searched : Bool
  run : Option LoopRun
  halyards : List Nat
deriving DecidableEq, Repr

/-- Clock state that no register shows (spec/05_clocks.md): when each loop entered its present chain of states, loops whose ACQUIRE follows a
search, the temperature term, the ageing accumulator, LO profiles, inputs whose slip stop still bars START (R131), the lock rule's counts, host
commands of an LO in the present clock, whether REF OUT is on (R121). -/
structure Clocks where
  since : Tab Int
  searched : Tab Unit
  tempTerm : Int
  ageAcc : Int
  lo : Tab Lo
  slipped : Tab Unit
  runs : Tab LoopRun
  turns : Tab LoTurn
  refOut : Bool
deriving DecidableEq, Repr

/-- A setting of an NCO (R145): the first sample it applies to, the phase there, the word, whether it dithers. -/
structure NcoSet where
  first : Int
  phase : Nat
  tw : Nat
  dither : Bool
deriving DecidableEq, Repr

/-- A RUNNING channel (spec/06_channels.md), keyed by section: its input (8: playback), samples per clock, decimation, span, group delay as
a fraction of samples, the binding of product index `j0` to input sample `s0`, mode, the word in force, threshold state. -/
structure Chan where
  input : Nat
  lanes : Nat
  dec : Nat
  span : Nat
  gNum : Int
  gDen : Nat
  j0 : Nat
  s0 : Nat
  /-- Earlier bindings of a quick-settle run, newest first (R155); the first sample of the selected input that the channel takes. -/
  past : List (Nat × Nat)
  seen : Nat
  qs : Bool
  /-- Settings of the NCO, newest first (R145). -/
  nco : List NcoSet
  /-- Product units lost since START (R159, R160). -/
  lost : List Loss
  high : Bool
  /-- Playback: a sample and its local time and epoch. -/
  refSample : Nat
  refTime : Nat
  refEpoch : Nat
deriving DecidableEq, Repr

/-- A RUNNING transform (spec/07_transforms.md), keyed by section: input 0–7, or 8 with the feeding CHAN section; its source id, samples
per clock as a fraction, the binding S0, log2 of size and hop, window. -/
structure Xfrm where
  input : Nat
  chan : Nat
  source : Nat
  num : Nat
  den : Nat
  s0 : Nat
  size : Nat
  hop : Nat
  window : Nat
  /-- Frames that did not leave while the section was dark or shed, with the cause (R178), and the first frame after those counted invalid. -/
  gone : List Loss
  badTo : Nat
deriving DecidableEq, Repr

/-- A user window: the table in force, and a load in progress with its first clock, ring, byte offset and length (R172). -/
structure Window where
  table : List Nat
  load : Option (Nat × Nat × Nat × Nat)
deriving DecidableEq, Repr

/-- A RUNNING trace: the XFRM section it reads and the first frame of trace 0 (R183), with the settings bound at START. -/
structure Trace where
  xfrm : Nat
  f0 : Nat
  frames : Nat
  points : Nat
  first : Int
  count : Nat
  /-- Values of exponential averaging by point, as fractions, once the first used frame set them (R185). -/
  y : List (Nat × Nat)
deriving DecidableEq, Repr

/-- Where a result in flight goes (R204, R205): a data register, the reader's view of an accumulator, a control register, SADOPT's SHIFT. -/
inductive FlightDest where
  | reg (r : Nat)
  | acc (k : Nat)
  | ctrl (n : Nat)
  | shift
deriving DecidableEq, Repr

/-- A result in flight: issue slots left before it can be read. -/
structure Flight where
  left : Nat
  dest : FlightDest
  value : Int
deriving DecidableEq, Repr

/-- An entry of the loop stack (R199, R211). -/
structure CoreLoop where
  start : Nat
  last : Nat
  count : Nat
  rotate : Bool
deriving DecidableEq, Repr

/-- A vector search in progress (R209): destination, value, index, clocks it takes. -/
structure Search where
  dest : Nat
  value : Nat
  index : Nat
  clocks : Nat
deriving DecidableEq, Repr

/-- A core (R198, R199): frame cores 0–15, tile core t as 16 + t. -/
structure Core where
  d : Tab Word
  /-- Accumulators as the MAC family and as other readers see them (R205). -/
  accMac : Tab Int
  acc : Tab Int
  a : Tab Nat
  b : Tab Nat
  l : Tab Nat
  sr : Word
  cvp : Nat
  lr : Nat
  pc : Nat
  loops : List CoreLoop
  flight : List Flight
  imem : Tab Nat
  dmem : Tab Word
  /-- Tap events seen, TIME1 and TIME2 as latched. -/
  evt : Nat
  time1 : Nat
  time2 : Nat
  /-- Fetch and deposit units: addresses, busy since a clock, done. -/
  fetchAddr : Nat
  fetchMax : Nat
  fetchLen : Nat
  fetchOn : Option Nat
  fetchDone : Bool
  depAddr : Nat
  depOn : Option Nat
  depDone : Bool
  search : Option Search
  /-- WAIT: mask, destination, first clock. -/
  wait : Option (Nat × Nat × Nat)
  /-- Stream queues of a tile core, 64-bit words; a stream stall's first clock; start at activation. -/
  in0 : List Nat
  in1 : List Nat
  out0 : List Nat
  out1 : List Nat
  stall : Option Nat
  autostart : Bool
deriving DecidableEq, Repr

/-- A word of a tile-core stream on its way through the chase (R38, R216): destination tile, input port, the clock at which it arrives. -/
structure ChaseWord where
  tile : Nat
  port : Nat
  word : Nat
  due : Nat
deriving DecidableEq, Repr

/-- A pending capture of a trigger unit (R236): occurrence, decision time (a local time) and epoch, decision clock, deadline clock, kind of
the deciding slot, origin station and trigger id, the Q_MODE word and Q_PRE_NS it was decided under. -/
structure Pending where
  occ : Nat
  time : Nat
  epoch : Nat
  clk : Nat
  deadline : Nat
  kind : Nat
  station : Nat
  originId : Nat
  q : Nat
  qPre : Nat
deriving DecidableEq, Repr

/-- A kept event of a source slot: the slot, the decision time (a local time), the origin station and trigger id of its tag, the deciding frame with its
transform. -/
structure SlotMark where
  slot : Nat
  time : Nat
  station : Nat
  originId : Nat
  frame : Option (Nat × Nat)
deriving DecidableEq, Repr

/-- A trigger unit (spec/09_triggers.md), keyed by section: next occurrence, time and clock of the last decision taken, decisions the
hold-off still ignores, slot events that may complete a combination, stage-2 events kept, pending captures, mask points
(bin, code), the bins the mask was loaded for, first clock of a mask load, whether the last valid frame violated. -/
structure Trig where
  occ : Nat
  last : Option (Nat × Nat)
  left : Nat
  evs : List SlotMark
  stage2 : List (Nat × Nat)
  pending : List Pending
  maskUp : List (Int × Nat)
  maskLo : List (Int × Nat)
  maskBins : Option (Int × Nat)
  maskSince : Option Nat
  violated : Bool
deriving DecidableEq, Repr

/-- A capture part of a RAWC (R242, R247): T, range, next unit to write, confirmed or not, units written, the gap in progress. -/
structure Capture where
  trigId : Nat
  time : Nat
  epoch : Nat
  deadline : Nat
  kind : Nat
  qmode : Nat
  station : Nat
  originId : Nat
  t : Nat
  start : Nat
  stop : Nat
  next : Nat
  confirmed : Bool
  segment : Nat
  written : Nat
  gap : Option Loss
deriving DecidableEq, Repr

/-- Units of a triggered RAWC (R244): an unpublished history record with its payload, or, with a cause, units that were lost. -/
structure Hist where
  start : Nat
  count : Nat
  cause : Nat
  payload : List Byte
  stoneFull : Bool
deriving DecidableEq, Repr

/-- A triggered RAWC (spec/09_triggers.md), keyed by section: the TRIG section it follows, SOURCE (0–9), the section that feeds it, unit kind,
input whose samples it counts, settings bound at START, next segment, history oldest first, end of the previous capture, open captures
oldest first, whether it accepts decisions, whether its run goes on. -/
structure Rawc where
  trig : Nat
  source : Nat
  feed : Nat
  kind : Nat
  input : Nat
  log2 : Nat
  pre : Nat
  post : Nat
  m : Nat
  segMax : Nat
  ring : Nat
  seg : Nat
  hist : List Hist
  floor : Nat
  caps : List Capture
  accepting : Bool
  ended : Bool
deriving DecidableEq, Repr
/-- An encoder edge on its way into its axis (R263): line (0 A, 1 B, 2 index), level after it, local time of its stamp, clock of the edge. -/
structure EncEdge where
  line : Nat
  up : Bool
  time : Nat
  clk : Nat
deriving DecidableEq, Repr

/-- An axis AX1–AX3 (spec/10_axis.md). Encoders: levels of A and B, position of the last entered edge in fine units, entered edges newest
first (entry time, counted up), edges entered since the last reversal, edges on their way, time of the last edge of each line. AX3: the
value at a local time, the loop's frequency in mHz, and whether its first edge came. -/
structure Axis where
  a : Bool
  b : Bool
  pos : Int
  edges : List (Nat × Bool)
  inDir : Nat
  queue : List EncEdge
  lastLine : Tab Nat
  ref : Nat
  val : Nat
  mHz : Nat
  seen : Bool
  /-- AX3 locked again after coasting, its phase not yet back on the edges (R266). -/
  slewing : Bool
  inside : Nat
  outside : Nat
deriving DecidableEq, Repr

/-- An armed cue (R271–R275): whether the live value was seen below and above COMPARE since arming or the last crossing, a crossing not yet
committed (local time, clock, downwards), whether it commits late; when PREPARED: the tolerance's end, the furthest point reached, the
staging tag, whether it holds a latch bank, whether the section of its knob or channel left ACTIVE since; a disarm that came after its
crossing. -/
structure Cue where
  low : Bool
  high : Bool
  cross : Option (Nat × Nat × Bool)
  late : Bool
  expiry : Nat
  far : Int
  tag : Nat
  bank : Bool
  lost : Bool
  disarm : Bool
deriving DecidableEq, Repr

/-- The cue engine: armed cues by entry, latched snapshots waiting to be written (ring, record), the next snapshot number, banks that a
prepared cue reserves, targets set in the present commit clock (kind and target, clock, entry). -/
structure Cues where
  armed : Tab Cue
  snaps : List (Nat × Rec)
  snapNo : Nat
  set_ : List (Nat × Nat × Nat)
  /-- Host values and cue commits (none) that reached an attenuator (its input) or a knob (its offset) in the present clock (R64, R70). -/
  turns : List (Nat × Nat × Option Nat)
deriving DecidableEq, Repr

/-- A stamp of a TDC input: event number, TIMESTAMP96, epoch, falling edge (R302). -/
structure TdcStamp where
  evno : Nat
  time : Nat
  epoch : Nat
  falling : Bool
deriving DecidableEq, Repr

/-- A TDC input (R302–R304): next event number, local time of the last accepted edge, queue, losses and unstamped edges since the last
batch, clock of the open batch's first event. -/
structure Tdc where
  evno : Nat
  last : Option Nat
  queue : List TdcStamp
  lost : Nat
  dead : Nat
  batch : Option Nat
deriving DecidableEq, Repr

/-- A running measurement unit (R306). Stamps are in 2^-18 ns. The open or previous edge, intervals or edges used, their exact sums (of
values, squares, and index times value), least and greatest, the first edge used (stamp, event number, epoch), the last, the gate's end; the `TDC_M_CFG` word,
the number of intervals asked and the gate in ns, bound at START. -/
structure Meas where
  open_ : Option Nat
  n : Nat
  sum : Int
  sq : Int
  ix : Int
  least : Int
  most : Int
  first : Option (Nat × Nat × Nat)
  last : Nat × Nat
  gateEnd : Nat
  cfg : Nat
  target : Nat
  gate : Nat
deriving DecidableEq, Repr

/-- A marker output (R308, R309): pulses to come (placement as a local time, width in ns, clock of the request), the last pulse placed, the
next period of mode 4. -/
structure Marker where
  pulses : List (Nat × Nat × Nat)
  last : Option (Nat × Nat)
  k : Nat
deriving DecidableEq, Repr

/-- Time state that no register shows (spec/11_time.md): the host's committed rate and the pending one (R285), the stay-link
transfer term, TDC inputs, measurement units, marker outputs, transmit-stamp queues (identifier, stamp, epoch). -/
structure Time where
  own : Int
  /-- Rates committed and not yet in force, oldest first, with the clock of the commit (R285). -/
  ratePend : List (Nat × Int)
  transfer : Int
  tdc : Tab Tdc
  meas : Tab Meas
  markers : Tab Marker
  txq : Tab (List (Nat × Nat × Nat))
  /-- Anchor ticks since alignment (R20). -/
  ticks : Nat
  /-- Changes of the local clock's rate and steps, newest first: composing clock, local time there before the change, length of a cycle before
  it (R32). -/
  bends : List (Nat × Nat × Nat)
  /-- Composing clocks since the time base last advanced: it runs in steps of the crystal's cycle in BYPASS and STANDBY (R129, R284). -/
  lag : Nat
deriving DecidableEq, Repr

/-- A running stream port (R383–R396): next ring position to deliver, the WR that stood at STOP, delivered byte position, the next unit of
each product (source, tag, trigger id) it delivered, the units it skipped by product with the cause, since when it is held at an unresolved capture. Host
ring: the consumer position and whether the fill stood at the threshold. UDP: next datagram, acknowledged position, end of the lease,
packet counts. -/
structure Port where
  cursor : Nat
  limit : Option Nat
  pos : Nat
  prods : List ((Nat × Nat × Nat) × Nat)
  lost : List ((Nat × Nat × Nat) × Loss)
  heldSince : Option Nat
  cons : Nat
  full : Bool
  seq : Nat
  acked : Nat
  leaseEnd : Nat
  packets : Nat × Nat
  /-- Stripe set: its set, stream bytes not yet cut into chunks, stream bytes cut, ring positions at the ends of records taken (stream
  position first), records that start in the bytes not yet cut (stream position, TIMESTAMP96, provisional), whether it closes. -/
  set_ : Nat
  buf : List Byte
  cut : Nat
  marks : List (Nat × Nat)
  starts : List (Nat × Nat × Bool)
  closing : Bool
deriving DecidableEq, Repr

/-- A data chunk of a stripe set on its way: sequence, slot, what its index entry says. -/
structure Chunk where
  seq : Nat
  slot : Nat
  first : Nat
  records : Nat
  used : Nat
  crc : Nat
  flags : Nat
  done : Bool
deriving DecidableEq, Repr

/-- A member of a stripe set in service: its drive, slots, next slot, data chunks of its present group, events it has put into an index
chunk. -/
structure Member where
  drive : Nat
  slots : Nat
  next : Nat
  chunks : List Chunk
  told : Nat
deriving DecidableEq, Repr

/-- A stripe set that is not EMPTY (R374–R382): members in service by ordinal, the drives named at FORMAT, chunk log2, ordinal last written, TIMESTAMP96
and epoch of FORMAT, events so far (32 bytes each), ring, captures whose records stand in chunks (trigger id, first and last chunk). -/
structure StripeSet where
  members : Tab Member
  drives : List Nat
  log2 : Nat
  last : Option Nat
  formatted : Nat
  epoch : Nat
  events : List (List Byte)
  ring : Nat
  captures : Tab (Nat × Nat)
deriving DecidableEq, Repr

/-- A drive as a replay reads it (R382): phase (0 label, 1 index chunks, 2 data chunks), slots, next slot, sequence of the last chunk, the
chunk in hand (sequence, first record offset, payload), a Read outstanding, nothing more to read. -/
structure RepDrive where
  phase : Nat
  slots : Nat
  slot : Nat
  seen : Option Nat
  chunk : Option (Nat × Nat × List Byte)
  busy : Bool
  ended : Bool
deriving DecidableEq, Repr

/-- A replay by a stream port: its drives, next chunk sequence, stream bytes not yet delivered, whether they begin at a record, captures that
kind 3 events name, records waiting for ring space. -/
structure Replay where
  drives : Tab RepDrive
  next : Nat
  buf : List Byte
  sync : Bool
  dropped : List Nat
deriving DecidableEq, Repr

/-- A frame of a slow-path transmit queue (R390): sub-port, descriptor address, bytes, requested stamp, launch time, set by a LAUNCH cue,
flags for the write-back; whether it still waits for its stamp. -/
structure TxFrame where
  q : Nat
  desc : Nat
  bytes : List Byte
  ident : Option Nat
  launch : Nat
  cued : Bool
  flags : Nat
deriving DecidableEq, Repr

/-- Ports that no register shows (spec/14_ports.md): stream ports, stripe sets, replays, the scan round (presence at the visits, ports VANISHED in it),
since when each root port waits for its link, launch queues (8 × port + queue), frames
that leave, by sub-port, token buckets (port and source, tokens × 10^9, clock). -/
structure Links where
  ports : Tab Port
  sets : Tab StripeSet
  replays : Tab Replay
  scan : Option (Nat × Nat)
  linkSince : Tab Nat
  launch : Tab (List TxFrame)
  sent : Tab (List TxFrame)
  buckets : List ((Nat × Nat) × Nat × Nat)
deriving DecidableEq, Repr

/-- A sheet-bus request (R412): station, opcode, tag, payload, tries made, the poll entry a READ serves, whether a scan made it. -/
structure ShtReq where
  addr : Nat
  op : Nat
  tag : Nat
  payload : List Byte
  tries : Nat
  poll : Option Nat
  scan : Bool
deriving DecidableEq, Repr

/-- A set staged for a prepared SHEET_COMMIT cue: its tag and its stations with whether each acknowledged (R414). -/
structure ShtStage where
  tag : Nat
  stations : List (Nat × Bool)
deriving DecidableEq, Repr

/-- A commit whose polls run (R414): tag, stations with acknowledgement and the poll's result, inputs named, late, and what its cue record
needs: entry, axis, COMPARE, crossing time and epoch, commit clock, repeats left. -/
structure ShtCommit where
  tag : Nat
  stations : List (Nat × Bool × Option Bool)
  inputs : Nat
  entry : Nat
  axis : Nat
  compare : Nat
  time : Nat
  epoch : Nat
  clk : Nat
  repeats : Nat
  late : Bool
deriving DecidableEq, Repr

/-- A sheet bus (R411–R416): frames waiting, the request in hand and its first clock, the last tag used, staged sets, commits, lists to WRITE
in the next cycle, words read by poll entry, stale entries, first clock of the last cycle, the cycle whose context record waits, the
answers of a scan in progress. -/
structure Sheet where
  queue : List ShtReq
  cur : Option ShtReq
  since : Nat
  tag : Nat
  stages : List ShtStage
  commits : List ShtCommit
  lists : List Nat
  vals : Tab (List Nat)
  stale : List Nat
  cycle : Option Nat
  ctx : Option Nat
  scan : Option Nat
deriving DecidableEq, Repr

/-- A density frame that closed and is being rendered (R421): its histogram (by the places of R420), spectra used and the flags of their samples,
frame number, clock of the close, the settings of its render pass (`DECAY`, `CHROMA`, `Y_GAIN`, palette), the cause when it is lost, row settings at
its close. -/
structure DensFrame where
  hist : Tab Nat
  used : Nat
  flags : Nat
  frame : Nat
  clk : Nat
  decay : Nat
  chroma : Nat
  gain : Nat
  palette : List Nat
  cause : Nat
  bottom : Nat
  step : Nat
deriving DecidableEq, Repr

/-- A RUNNING density display (R418–R430), keyed by section: its XFRM section, first XFRM frame, frame spectra, first bin, bins; row settings with
the XFRM frame from which each holds, newest first (R424); the closed frame in hand; persistence words (count, age) of the bins whose P is not 0. -/
structure Dens where
  xfrm : Nat
  f0 : Nat
  frames : Nat
  first : Int
  count : Nat
  levels : List (Nat × Nat × Nat)
  closing : Option DensFrame
  persist : Tab (Nat × Nat)
deriving DecidableEq, Repr

/-- A display layer (R435): its nine shadowed words in force, the clock of a pending flip, the record a FOLLOW layer shows (ring, payload position). -/
structure VidLayer where
  words : List Word
  flipClk : Option Nat
  shown : Option (Nat × Nat)
  follows : Option Nat
deriving DecidableEq, Repr

/-- Scan-out state that no register shows (spec/16_display.md): layers, proof rectangles in force, the first vertical blanking since ACTIVE with the
number of blankings so far, layers not fetched in this frame, and lost spans of this frame (layer, line, first pixel, rest of the frame). -/
structure Vid where
  layers : Tab VidLayer
  proofs : List (List Word)
  start : Option (Nat × Nat)
  skip : List Nat
  lost : List (Nat × Nat × Nat × Bool)
deriving DecidableEq, Repr

/-- A scheduled global command (R408): origin and command id, op, argument, execution time (a local time). -/
structure GCmd where
  origin : Nat
  id : Nat
  op : Nat
  arg : Nat
  time : Nat
deriving DecidableEq, Repr

/-- Stay-link state that no register shows (spec/15_stays_sheets.md): link and hops to each station of the segment, next sequence number by
word kind, words seen (origin, kind, sequence, clock), a discovery round (first clock, stations that answered, stations lost), global commands and the next id,
bulk credits by link, records arriving (origin × 32 + replicator: link, ring, bytes), whole records that wait for ring space (link, ring, bytes),
clock of the last TIME exchange. -/
structure Stay where
  via : List (Nat × Nat × Nat)
  seqs : Tab Nat
  seen : List (Nat × Nat × Nat × Nat)
  round : Option (Nat × Nat × Nat)
  cmds : List GCmd
  cmdId : Nat
  credits : Tab Nat
  parts : Tab (Nat × Nat × List Byte)
  wait : List (Nat × Nat × List Byte)
  exch : Nat
deriving DecidableEq, Repr


/-- Everything of the engine but the queue of commands. -/
structure Dev where
  /-- The registers that differ from their reset values, keyed by BAR0 offset; `readData` is what the last host read returned, and
  `wide` holds the live value of 64-bit quantities by the offset of their LO word. -/
  regs : Tab Word
  /-- The same as they stood when the present composing clock began, host clears taken out: what an update of this clock is seen by (R8). -/
  regs0 : Tab Word
  wide : Tab Nat
  readData : Nat
  /-- Galley bytes (as differences from what an unwritten byte reads), host memory, the non-volatile store. -/
  mem : Mem
  hostMem : Mem
  nvs : Mem
  /-- Composing clocks since alignment (R19), and the local clock in units of 2^-64 ns (R284). -/
  clk : Nat
  localTime : Nat
  inputs : Tab Input
  sections : Tab Section
  /-- The knob map of the newest load accepted of each section: its kind and rows (R55, R63); it stays while the section is not there. -/
  maps : Tab (Nat × List KnobRow)
  slots : Tab Slot
  loads : List Load
  runs : Tab Run
  rings : Tab Ring
  /-- Movers whose `MOV_ERR_ADDR` holds a first failing address not read yet (R337). -/
  movErr : Tab Unit
  /-- Writes of the non-volatile store in progress, oldest first: offset and the bytes that stood there (R459, R478). -/
  nvsBusy : List (Nat × List Byte)
  halyards : List HalEvent
  dram : Dram
  irq : Irq
  hka : Hka
  power : Power
  repair : Repair
  sec : Security
  cal : Cal
  clocks : Clocks
  /-- Words of the memory sorts (R36, R357), by logical sort (column × 96 + row) × 32,768 + local word, and words of tile-core streams on
  their way through the chase (R38). -/
  sortMem : Tab Nat
  /-- Clocks lost to bank conflicts, by section, gang and master (R358). -/
  conflicts : Tab Nat
  chase : List ChaseWord
  chans : Tab Chan
  xfrms : Tab Xfrm
  windows : Tab Window
  traces : Tab Trace
  cores : Tab Core
  trigs : Tab Trig
  rawcs : Tab Rawc
  axes : Tab Axis
  cues : Cues
  time : Time
  sheets : Tab Sheet
  links : Links
  denses : Tab Dens
  vid : Vid
  stay : Stay
  out : List Out
  /-- Uses made of free values (log entry 2); the model's own. -/
  freeCtr : Nat
deriving DecidableEq, Repr

/-- The machine: the engine and the commands waiting, first in, first out. -/
structure State where
  dev : Dev
  pending : List Instr
deriving DecidableEq, Repr

/-- No command of this block ends in a fault: the type has no constructor. -/
inductive Fault where
deriving DecidableEq, Repr

/-- The one reason a command may be turned away. -/
inductive Refusal where
  /-- The command has no meaning in this model yet. Raised by exec's own arms; safe, since nothing is claimed of it. -/
  | notModelled (mnemonic : String)
deriving DecidableEq, Repr

/-- An input after reset: index 0 (R19). -/
def Input.reset : Input := ⟨0, [], [], 0, none, none, 31, false, none, false⟩
/-- An input port that is not bound. -/
def InPort.none_ : InPort := ⟨false, 0, 0⟩

/-- The engine right after reset: every register at its reset value (the table of `RegMap`), nothing loaded, nothing in flight, the
start-up sequence of R461 before its first step (PSTATE resets to STARTING). Values the spec leaves to the unit: log entry 1. -/
def Dev.reset : Dev where
  regs := Tab.empty
  regs0 := Tab.empty
  wide := Tab.empty
  readData := 0
  mem := Mem.empty
  hostMem := Mem.empty
  nvs := ((Mem.empty.storeBytes 0 (repairCopy [] 0)).storeBytes 0x4000 (repairCopy [] 0)).storeBytes 0x8000 (repairCopy [] 0)
  clk := 0
  localTime := 0
  inputs := Tab.empty
  sections := Tab.empty
  maps := Tab.empty
  slots := Tab.empty
  loads := []
  runs := Tab.empty
  rings := Tab.empty
  movErr := Tab.empty
  nvsBusy := []
  halyards := []
  dram := { masks := [0x8200100, 0x10400200, 0x20800400, 0x41000800, 0x82001000, 0x104002000, 0x200020000, 0x400040000, 0x800080000, 0x1000100000], entering := [], ceHour := Tab.empty, cool := Tab.empty, refreshed := Tab.empty, garbled := 0, clean := [], cached := [], march := none }
  irq := ⟨Tab.empty, false, false, Tab.empty, Tab.empty, []⟩
  hka := ⟨none, [], []⟩
  power := { v33 := true, v12 := true, standbyCmd := false, tripWait := false, startWait := false, step := 0, refPresent := false, reefSince := 0, byCurrent := false, limit := 1600, paceClk := 0 }
  repair := ⟨[], [], 0, [], false⟩
  sec := ⟨Tab.empty, false, true, 0, Tab.empty, Tab.empty⟩
  cal := ⟨none, [], [], [], 0, Tab.empty, Tab.empty, Tab.empty, Tab.empty, Tab.empty, Tab.empty, 2, Tab.empty, [], []⟩
  clocks := ⟨Tab.empty, Tab.empty, 0, 0, Tab.empty, Tab.empty, Tab.empty, Tab.empty, false⟩
  sortMem := Tab.empty
  conflicts := Tab.empty
  chase := []
  chans := Tab.empty
  xfrms := Tab.empty
  windows := Tab.empty
  traces := Tab.empty
  cores := Tab.empty
  trigs := Tab.empty
  rawcs := Tab.empty
  axes := Tab.empty
  cues := ⟨Tab.empty, [], 0, [], []⟩
  time := ⟨0, [], 0, Tab.empty, Tab.empty, Tab.empty, Tab.empty, 0, [], 0⟩
  sheets := Tab.empty
  links := ⟨Tab.empty, Tab.empty, Tab.empty, none, Tab.empty, Tab.empty, Tab.empty, []⟩
  denses := Tab.empty
  vid := ⟨Tab.empty, [], none, [], []⟩
  stay := ⟨[], Tab.empty, [], none, [], 0, Tab.empty, Tab.empty, [], 0⟩
  out := []
  freeCtr := 0

/-- The machine right after reset. -/
def State.reset : State := ⟨Dev.reset, []⟩

end Sys2Proof.Machine
end

