-- ==== Sys2Proof/Machine/Ops.lean ====
section
/-! DEFINITION. The operations every family uses: register words and fields, counters, 64-bit values, the clock and time-stamps,
interrupts, wires. -/
namespace Sys2Proof.Machine

/-! ## Registers -/

/-- Whether `o` is the distance of an element from the first, by the counts and strides of the dimensions. -/
def dimsHold (o : Nat) : List (Nat × Nat) → Bool
  | [] => o == 0
  | (c, s) :: t => decide (o / s < c) && dimsHold (o % s) t

/-- Whether `off` is an element of the row. -/
def RegRow.holds (r : RegRow) (off : Nat) : Bool := decide (r.base ≤ off) && dimsHold (off - r.base) r.dims

/-- The whole table, in pieces by base offset. -/
def regPieces : List (List RegRow) :=
  [regRows0, regRows1, regRows2, regRows3, regRows4, regRows5, regRows6, regRows7, regRows8, regRows9, regRows10, regRows11, regRows12,
   regRows13, regRows14, regRows15, regRows16, regRows17, regRows18, regRows19, regRows20, regRows21, regRows22, regRows23, regRows24]

/-- Bounds of the offsets in each piece, lowest and past the highest (`rowOf_eq`: they leave out no row). -/
def regBounds : List (Nat × Nat) :=
  [(0x0, 0x20034), (0x21000, 0x308f4), (0x30114, 0x40818), (0x40118, 0x50024), (0x50024, 0x51f04), (0x51004, 0x604d8), (0x60018, 0x621c8),
   (0x62008, 0x801f4), (0x80134, 0xb0000), (0xc0000, 0xc75fc), (0xc0404, 0x100014), (0x100020, 0x30000c), (0x30000c, 0x30c000), (0x30c000,
   0x32800c), (0x32800c, 0x343f08), (0x340008, 0x38fff4), (0x380034, 0x3917b0), (0x391030, 0x3a0c24), (0x3a1000, 0x3b0004), (0x3b0004,
   0x3b01d0), (0x3b0400, 0x3d0008), (0x3d0008, 0x3d01d8), (0x3d0118, 0x7f0018), (0x430018, 0xffc01c), (0x80c020, 0xffc024)]
/-- The row of an offset (none: no chapter assigns it, R6), sought in the pieces whose bounds hold it. -/
def rowOf (off : Nat) : Option RegRow :=
  (regBounds.zip regPieces).findSome? (fun p => if Nat.ble p.1.1 off && Nat.blt off p.1.2 then p.2.find? (fun r => r.holds off) else none)

/-- Reset values that depend on the element or on the unit's empty repair map (log entry 1): `FMR_CAP` with every logical row there
(R35, R57), slot maps in order (R344, R474), interrupt kinds (R441), address masks (R346), loop classes (R122), `CAL_LIMIT` windows
over the whole code range (R102, R103). -/
def specialReset (off : Nat) : Option Word :=
  if 0x30108 ≤ off ∧ off < 0x30908 ∧ (off - 0x30108) % 0x20 = 0 then
    let g := (off - 0x30108) / 0x20
    if g = 2 then some 0xFFFF0 else if (16 ≤ g ∧ g < 24) ∨ (28 ≤ g ∧ g < 32) then some 0xFFFFFFFF else if g = 37 then some 1 else some 0
  else if 0x40100 ≤ off ∧ off < 0x40840 ∧ (off - 0x40100) % 0x40 = 0xC then
    let p := (off - 0x40100) / 0x40
    some (if p = 26 ∨ p = 27 then 8 else 0)
  else if 0xC0000 ≤ off ∧ off < 0xC8000 then
    let o := off % 0x1000
    if o = 0x3C then some 4
    else if 0x100 ≤ o ∧ o < 0x200 then some (BitVec.ofNat 32 ((o - 0x100) / 4))
    else if 0x200 ≤ o ∧ o < 0x310 then
      let i := (o - 0x200) / 4
      some (if i < 64 then BitVec.ofNat 32 (i * 256) else 1)
    else none
  else if 0xC8400 ≤ off ∧ off < 0xC8480 then
    let c := (off - 0xC8400) / 16
    if off % 16 = 0 then some (if c < 4 then 0 else 0x80000000)
    else if off % 16 = 4 then some (match c with
      | 0 => 1023 | 1 => 1023 | 2 => 4095 | 3 => 63 | _ => 0x7FFFFFFF)
    else if off % 16 = 8 then some 0xFFFFFFFF
    else none
  else if 0x100800 ≤ off ∧ off < 0x100900 then
    let k := (off - 0x100800) / 4 % 8
    some (match k with
      | 0 => 0x4080 | 1 => 0x8100 | 2 => 0x1030 | 3 => 0x3060 | 4 => 0x1020 | 5 => 0x1010 | _ => 0)
  else if 0x310000 ≤ off ∧ off < 0x321000 ∧ (off - 0x310000) % 0x400 = 0 then
    let ch := (off - 0x310000) / 0x400
    some (if ch < 64 then BitVec.ofNat 32 (ch * 256) else 1)
  else if off = 0x328004 then some 0x400
  else if 0x328040 ≤ off ∧ off < 0x328090 then
    let e := (off - 0x328040) / 8
    let v := if e < 6 then 2 ^ (8 + e) + 2 ^ (21 + e) + 2 ^ (27 + e) else 2 ^ (17 + (e - 6)) + 2 ^ (33 + (e - 6))
    some (BitVec.ofNat 32 (if off % 8 = 0 then v else v / 2 ^ 32))
  else if 0x328100 ≤ off ∧ off < 0x328200 then some (BitVec.ofNat 32 ((off - 0x328100) / 4))
  else if off = 0x24000 then some 2
  else none

/-- The reset value of a register word: its fields' values, or the special one. -/
def resetWord (off : Nat) : Word :=
  match specialReset off with
  | some w => w
  | none =>
    match rowOf off with
    | some r => r.fields.foldl (fun w f => w.setField f.lo (f.hi - f.lo + 1) f.reset) 0
    | none => 0

/-- A stored register word. -/
def Dev.reg (d : Dev) (off : Nat) : Word := (d.regs.get? off).getD (resetWord off)
/-- Store a register word; storing the reset value removes the entry. -/
def Dev.setReg (d : Dev) (off : Nat) (w : Word) : Dev :=
  { d with regs := if w = resetWord off then d.regs.erase off else d.regs.put off w }

/-- The offset of element (n, m) of a field's register. -/
def Fld.at_ (f : Fld) (n m : Nat) : Nat := f.off + n * f.st + m * f.st2
/-- The field's value in element (n, m). -/
def Dev.rd (d : Dev) (f : Fld) (n : Nat := 0) (m : Nat := 0) : Nat := (d.reg (f.at_ n m)).field f.lo f.w
/-- Set the field in element (n, m) to the low bits of `v`. -/
def Dev.wr (d : Dev) (f : Fld) (v : Nat) (n : Nat := 0) (m : Nat := 0) : Dev :=
  d.setReg (f.at_ n m) ((d.reg (f.at_ n m)).setField f.lo f.w v)
/-- Count up by `k`, stopping at the field's highest value (log entry 3). -/
def Dev.inc (d : Dev) (f : Fld) (n : Nat := 0) (m : Nat := 0) (k : Nat := 1) : Dev :=
  d.wr f (min (2 ^ f.w - 1) (d.rd f n m + k)) n m
/-- Set a one-bit field. -/
def Dev.flag (d : Dev) (f : Fld) (b : Bool) (n : Nat := 0) (m : Nat := 0) : Dev := d.wr f (if b then 1 else 0) n m
/-- Whether a one-bit field is 1. -/
def Dev.is (d : Dev) (f : Fld) (n : Nat := 0) (m : Nat := 0) : Bool := d.rd f n m != 0
/-- The signed value of a field. -/
def Dev.rdInt (d : Dev) (f : Fld) (n : Nat := 0) (m : Nat := 0) : Int := signed f.w (d.rd f n m)

/-- A value stored over the words of one field's sub-array, lowest first. -/
def Dev.rdWide (d : Dev) (f : Fld) (n : Nat) : Nat → Nat
  | 0 => 0
  | k + 1 => d.rdWide f n k + d.rd f n k * 2 ^ (32 * k)
/-- Store a value over `k` words of a field's sub-array, lowest first. -/
def Dev.wrWide (d : Dev) (f : Fld) (v : Nat) (n : Nat) : Nat → Dev
  | 0 => d
  | k + 1 => (d.wrWide f v n k).wr f (v / 2 ^ (32 * k)) n k

/-- The live 64-bit value whose LO word is the field `lo` of element n. -/
def Dev.wideAt (d : Dev) (lo : Fld) (n : Nat := 0) : Nat := d.wide.getD (lo.at_ n 0) 0
/-- Set it. -/
def Dev.setWide (d : Dev) (lo : Fld) (v : Nat) (n : Nat := 0) : Dev := { d with wide := d.wide.put (lo.at_ n 0) (v % 2 ^ 64) }

/-- A register word as it stood when the present clock began. -/
def Dev.reg0 (d : Dev) (off : Nat) : Word := (d.regs0.get? off).getD (resetWord off)
/-- Take back what the present clock began with: a host clear of this clock is no update. -/
def Dev.setReg0 (d : Dev) (off : Nat) (w : Word) : Dev :=
  { d with regs0 := if w = resetWord off then d.regs0.erase off else d.regs0.put off w }
/-- The bits of a register that were set in the present clock (R8). -/
def Dev.freshBits (d : Dev) (off : Nat) : Word := d.reg off &&& ~~~(d.reg0 off)

/-- Set bits of a status field: they count as set in the present clock (R8), were they set before or not. -/
def Dev.setBits (d : Dev) (f : Fld) (v : Nat) (n : Nat := 0) (m : Nat := 0) : Dev :=
  let o := f.at_ n m
  let x := (d.reg0 o).field f.lo f.w
  (d.wr f (d.rd f n m ||| v) n m).setReg0 o ((d.reg0 o).setField f.lo f.w (x - (x &&& v)))
/-- Set a one-bit status field. -/
def Dev.mark (d : Dev) (f : Fld) (n : Nat := 0) (m : Nat := 0) : Dev := d.setBits f 1 n m
/-- A host write of 1 clears a one-bit status field that was not set in the present clock (R8). -/
def Dev.unmark (d : Dev) (f : Fld) (n : Nat := 0) (m : Nat := 0) : Dev :=
  let o := f.at_ n m
  if (d.freshBits o).field f.lo f.w = 0 then d.flag f false n m else d

/-- Merge a written word into a register by its fields' access codes (R7): RW stores, W1C clears but for the bits set in the same clock (R8),
W1S sets, the rest ignore it. Bits outside every field ignore it too (R5). -/
def mergeFields (old new fresh : Word) : List FieldRow → Word
  | [] => old
  | f :: t =>
    let len := f.hi - f.lo + 1
    let o := old.field f.lo len
    let v := new.field f.lo len
    let w := match f.acc with
      | .rw => old.setField f.lo len v
      | .w1c => old.setField f.lo len ((o - (o &&& v)) ||| (o &&& v &&& fresh.field f.lo len))
      | .w1s => old.setField f.lo len (o ||| v)
      | _ => old
    mergeFields w new fresh t

/-- What a read of the RC fields leaves (R7, R8): 0, or what the present clock added to the value it began with. -/
def clearRead (old began : Word) : List FieldRow → Word
  | [] => old
  | f :: t =>
    let len := f.hi - f.lo + 1
    clearRead (if f.acc = .rc then old.setField f.lo len (old.field f.lo len - began.field f.lo len) else old) began t
/-- What a read returns (R7, R8): RC fields as they stood when the present clock began, the others as they stand. -/
def readFields (old began : Word) : List FieldRow → Word
  | [] => old
  | f :: t =>
    let len := f.hi - f.lo + 1
    readFields (if f.acc = .rc then old.setField f.lo len (began.field f.lo len) else old) began t
/-- The word with its RC fields 0. -/
def zeroRead (old : Word) : List FieldRow → Word
  | [] => old
  | f :: t => zeroRead (if f.acc = .rc then old.setField f.lo (f.hi - f.lo + 1) 0 else old) t

/-- A host write by access code alone; an unassigned offset ignores it (R6). -/
def Dev.plainWrite (d : Dev) (off : Nat) (v : Word) : Dev :=
  match rowOf off with
  | some r => (d.setReg off (mergeFields (d.reg off) v (d.freshBits off) r.fields)).setReg0 off (mergeFields (d.reg0 off) v 0 r.fields)
  | none => d

/-- A fresh number the spec does not state (log entry 2). -/
def Dev.fresh (d : Dev) : Nat := Config.freeNat d.freeCtr
/-- Note that a fresh number was used. -/
def Dev.usedFree (d : Dev) : Dev := { d with freeCtr := d.freeCtr + 1 }

/-- Put something on a wire. -/
def Dev.send (d : Dev) (o : Out) : Dev := { d with out := d.out ++ [o] }

/-! ## Time -/

/-- The local clock wraps at 2^48 seconds. -/
def localWrap : Nat := 2 ^ 48 * 1000000000 * 2 ^ 64
/-- The rate in force, signed (R285). -/
def Dev.rate (d : Dev) : Int := signed 40 (d.rd F.TIM_RATE_ACT_LO_RATE + d.rd F.TIM_RATE_ACT_HI_RATE * 2 ^ 32)
/-- Local-clock time of one time-base cycle, in 2^-64 ns (R284). -/
def Dev.cycle (d : Dev) : Nat := (2 ^ 64 + d.rate * 2 ^ 16).toNat
/-- The time base runs on the crystal: in BYPASS (R129) and in STANDBY it advances once per crystal cycle of 10 clocks (R284). -/
def Dev.onCrystal (d : Dev) : Bool := d.is F.TIM_STATUS_BYPASS || d.rd F.SYS_STATUS_PSTATE == 0
/-- The local time `k` composing clocks from now, as a time base that keeps up would show it. -/
def Dev.timeIn (d : Dev) (k : Int) : Nat := ((d.localTime + (k + d.time.lag) * d.cycle) % (localWrap : Int)).toNat
/-- Clocks that the time base has not counted yet, `k` clocks from now. -/
def Dev.lagIn (d : Dev) (k : Nat) : Nat := if d.onCrystal then min (d.time.lag + k) ((d.clk + k) % 10) else 0
/-- TIMESTAMP96 of a local time, its fraction truncated to 2^-16 ns and shifted left by 2 (R11). -/
def stamp96 (t : Nat) : Nat :=
  let ns := t / 2 ^ 64
  ns / 1000000000 * 2 ^ 48 + ns % 1000000000 * 2 ^ 18 + t % 2 ^ 64 / 2 ^ 48 * 4
/-- TIMESTAMP96 with an 18-bit fraction, as a TDC stamp has it (R302). -/
def stamp96Tdc (t : Nat) : Nat :=
  let ns := t / 2 ^ 64
  ns / 1000000000 * 2 ^ 48 + ns % 1000000000 * 2 ^ 18 + t % 2 ^ 64 / 2 ^ 46
/-- The local time a TIMESTAMP96 names. -/
def ofStamp96 (s : Nat) : Nat := (s / 2 ^ 48 * 1000000000 + s / 2 ^ 18 % 2 ^ 30) * 2 ^ 64 + s % 2 ^ 18 * 2 ^ 46
/-- Whether the nanoseconds of a TIMESTAMP96 lie in range (R11). -/
def stampOk (s : Nat) : Bool := decide (s / 2 ^ 18 % 2 ^ 30 < 1000000000)
/-- The time-stamp of now. -/
def Dev.now96 (d : Dev) : Nat := stamp96 d.localTime
/-- The epoch in force (R287). -/
def Dev.epoch (d : Dev) : Nat := d.rd F.TIM_STATUS_EPOCH

/-- Input n's own state. -/
def Dev.input (d : Dev) (n : Nat) : Input := d.inputs.getD n Input.reset
/-- Change it. -/
def Dev.setInput (d : Dev) (n : Nat) (f : Input → Input) : Dev := { d with inputs := d.inputs.put n (f (d.input n)) }
/-- Samples per composing clock of input n: 32 on the even input of a pair, else 16 (R19). -/
def Dev.lanes (d : Dev) (n : Nat) : Nat := if d.is F.CNV_STATUS_PAIRED n && n % 2 == 0 then 32 else 16

/-- Advance the sample indices of the inputs below `m` by `k` clocks (R19). -/
def Dev.advanceInputs (d : Dev) (k : Nat) : Nat → Dev
  | 0 => d
  | m + 1 => (d.advanceInputs k m).setInput m (fun i => { i with idx := (i.idx + d.lanes m * k) % 2 ^ 64 })

/-- Let `k` composing clocks pass: the clock count, the local clock (R284) and the sample indices (R19) move, and a new clock begins (R8). -/
def Dev.advance (d : Dev) (k : Nat) : Dev :=
  if k = 0 then d else { d.advanceInputs k 8 with clk := d.clk + k, localTime := d.timeIn ((k : Int) - d.lagIn k), time := { d.time with lag := d.lagIn k }, regs0 := d.regs }
/-- Let time pass up to clock `c`. -/
def Dev.advanceTo (d : Dev) (c : Nat) : Dev := d.advance (c - d.clk)

/-- Sample index of the first sample of the clock at the next composing-clock boundary. -/
def Dev.nextIdx (d : Dev) (n : Nat) : Nat := (d.input n).idx + d.lanes n
/-- The local time of a sample instant of input n at the connector, `k` clocks from now: `CNV_DELAY` ps earlier, scaled to local-clock
time (R84, R293). -/
def Dev.inputTime (d : Dev) (n : Nat) (k : Int) : Nat :=
  ((d.localTime + (k + d.time.lag) * d.cycle - (d.rd F.CNV_DELAY_DELAY n * d.cycle / 1000 : Nat)) % (localWrap : Int)).toNat

/-- An axis that has seen no edge. -/
def Axis.reset : Axis := ⟨false, false, 0, [], 0, [], Tab.empty, 0, 0, 0, false, false, 0, 0⟩
/-- Axis a's own state. -/
def Dev.axis (d : Dev) (a : Nat) : Axis := d.axes.getD a Axis.reset
/-- The sub-count of an encoder axis (R263): time since the last edge over the last interval, never reaching the next count, 0 until two
edges in the direction have entered. -/
def Axis.sub (x : Axis) (now : Nat) : Nat :=
  match x.edges with
  | (t0, _) :: (t1, _) :: _ => if 2 ≤ x.inDir then min 65535 ((now - t0) * 65536 / max 1 (t0 - t1)) else 0
  | _ => 0
/-- Whether the axis counts downwards. -/
def Axis.down (x : Axis) : Bool := match x.edges with
  | (_, u) :: _ => !u
  | [] => false
/-- The live position of an encoder axis (R263), in 2^-16 counts. -/
def Axis.position (x : Axis) (now : Nat) : Int := if x.down then x.pos - x.sub now else x.pos + x.sub now
/-- The live value of AX3 at a local time (R266): the loop runs on at its frequency. -/
def Axis.phase (x : Axis) (t : Nat) : Nat := (((x.val : Int) + ((t : Int) - x.ref) * x.mHz * 2 ^ 32 / (10 ^ 12 * 2 ^ 64)) % 2 ^ 64).toNat
/-- Value of an axis now (R260). -/
def Dev.axisValue (d : Dev) (a : Nat) : Nat :=
  if a = 0 then d.localTime / 2 ^ 64 % 2 ^ 64
  else if a = 3 then (d.axis 3).phase d.localTime
  else unsigned 64 ((d.axis a).position d.localTime)

/-! ## Interrupts -/

/-- The word of set doorbell bits of a frame core gains bit `b` (R221). -/
def Dev.ringDoorbell (d : Dev) (core b : Nat) : Dev :=
  d.setBits (if b < 32 then F.CORE_DB_LO_DB else F.CORE_DB_HI_DB) (2 ^ (b % 32)) core

/-- The sources of group g that are active (R444). -/
def Dev.active (d : Dev) (g : Nat) : Nat := d.rd F.IRQ_PENDING_PENDING g &&& d.rd F.IRQ_ENABLE_ENABLE g

/-- A group's message on its vector: held in the pending-bit array while the entry or the function is masked (R447). -/
def Dev.message (d : Dev) (g : Nat) : Dev :=
  if d.irq.functionMask || (d.irq.masked.get? g).isSome then { d with irq := { d.irq with pba := d.irq.pba.put g () } }
  else d.send (.msix g)

/-- A delivery: the group becomes outstanding, counts it and starts its hold-off (R445, R446). -/
def Dev.deliver (d : Dev) (g : Nat) (host core : Bool) : Dev :=
  let d := (d.flag F.IRQ_TARGET_OUTSTANDING true g).inc F.IRQ_DELIVERED_COUNT g
  let d := { d with irq := { d.irq with holdEnd := d.irq.holdEnd.put g (d.clk + d.rd F.IRQ_HOLDOFF_US g * 1000) } }
  let d := if core then d.ringDoorbell (d.rd F.IRQ_TARGET_CORE g) g else d
  if host then d.message g else d

/-- Deliver group g if R445 admits it: a source active, not outstanding, hold-off run out. MSI-X Enable = 0 keeps the host side from
delivering (R447); TARGET 3 acts as 0. -/
def Dev.tryDeliver (d : Dev) (g : Nat) : Dev :=
  if d.active g = 0 || d.is F.IRQ_TARGET_OUTSTANDING g || decide (d.clk < d.irq.holdEnd.getD g 0) then d
  else
    let t := d.rd F.IRQ_TARGET_TARGET g
    let host := d.irq.msixEnable && (t != 1)
    let core := t == 1 || t == 2
    if host || core then d.deliver g host core else d

/-- An edge source's event (R442): its pending bit is set and the group may deliver. -/
def Dev.raise (d : Dev) (g s : Nat) : Dev :=
  (d.setBits F.IRQ_PENDING_PENDING (2 ^ s) g).tryDeliver g

/-- The condition of a level source (R443): it is shown in `IRQ_RAW`; becoming true sets the pending bit. -/
def Dev.level (d : Dev) (g s : Nat) (b : Bool) : Dev :=
  let raw := d.rd F.IRQ_RAW_RAW g
  let was := raw.testBit s
  if b then
    let d := d.wr F.IRQ_RAW_RAW (raw ||| 2 ^ s) g
    if was then d else d.raise g s
  else d.wr F.IRQ_RAW_RAW (if was then raw - 2 ^ s else raw) g

end Sys2Proof.Machine
end

