-- ==== Sys2Proof/Machine/Instants.lean ====
section
/-! DEFINITION. The instant a unit of a product belongs to, and what the local clock and the axes read there (R32, R33, R84, R151, R169). -/
namespace Sys2Proof.Machine

/-! ## The local clock at any composing clock -/

/-- The local time at composing clock `num / den`, through the bends of the clock before the reference point `ref` (clock, time, cycle). -/
def bentTime (num : Int) (den : Nat) : Nat × Nat × Nat → List (Nat × Nat × Nat) → Int
  | ref, [] => ref.2.1 + (num - (ref.1 * den : Nat)) * ref.2.2 / den
  | ref, e :: t => if num < (e.1 * den : Nat) then bentTime num den e t else ref.2.1 + (num - (ref.1 * den : Nat)) * ref.2.2 / den
/-- A composing clock, the local time it began at, and a cycle's length now. -/
def Dev.reference (d : Dev) : Nat × Nat × Nat := (d.clk - d.time.lag, d.localTime, d.cycle)
/-- The local time at composing clock `num / den` (R32). -/
def Dev.clockTime (d : Dev) (num : Int) (den : Nat) : Int := bentTime num (max 1 den) d.reference d.time.bends
/-- The composing clock at a local time, as a fraction, through the same bends. -/
def bentClock (t : Int) : Nat × Nat × Nat → List (Nat × Nat × Nat) → Int × Nat
  | ref, [] => ((ref.1 * ref.2.2 : Nat) + (t - ref.2.1), max 1 ref.2.2)
  | ref, e :: l => if t < e.2.1 then bentClock t e l else ((ref.1 * ref.2.2 : Nat) + (t - ref.2.1), max 1 ref.2.2)
/-- The rate or the time of the local clock changes now: the past keeps what it was. -/
def Dev.bend (d : Dev) : Dev := { d with time := { d.time with bends := d.reference :: d.time.bends } }
/-- The local time of sample `num / den` of input n at the connector (R32, R84). -/
def Dev.sampleTime (d : Dev) (n : Nat) (num : Int) (den : Nat) : Nat :=
  let den := max 1 den
  let l := d.lanes n * den
  let at_ := d.clockTime ((d.clk * l : Nat) + num - ((d.input n).idx * den : Nat)) l
  ((at_ - (d.rd F.CNV_DELAY_DELAY n * d.cycle / 1000 : Nat)) % (localWrap : Int)).toNat

/-- The sample of input n at a local time, as a fraction (R32, R84). -/
def Dev.sampleAt (d : Dev) (n t : Nat) : Int × Nat :=
  let c := bentClock (t + (d.rd F.CNV_DELAY_DELAY n * d.cycle / 1000 : Nat)) d.reference d.time.bends
  (((d.input n).idx * c.2 : Nat) + (c.1 - (d.clk * c.2 : Nat)) * d.lanes n, c.2)

/-! ## Axes at any local time -/

/-- Position and entered edges of an encoder as they stood at a local time. -/
def rewind (t : Nat) : Int → List (Nat × Bool) → Int × List (Nat × Bool)
  | pos, [] => (pos, [])
  | pos, e :: l => if t < e.1 then rewind t (if e.2 then pos - 65536 else pos + 65536) l else (pos, e :: l)
/-- The live position of an encoder axis at a local time (R263). -/
def Axis.positionAt (x : Axis) (t : Nat) : Int :=
  let r := rewind t x.pos x.edges
  if r.2.length = x.edges.length then x.position t
  else
    let two := match r.2 with | a :: b :: _ => a.2 == b.2 | _ => false
    { x with pos := r.1, edges := r.2, inDir := if two then 2 else 1 }.position t
/-- Value of an axis at a local time (R33, R260). -/
def Dev.axisAt (d : Dev) (a t : Nat) : Nat :=
  if a = 0 then t / 2 ^ 64 % 2 ^ 64
  else if a = 3 then (d.axis 3).phase t
  else unsigned 64 ((d.axis a).positionAt t)

/-! ## Units of products -/

/-- The channel of section i. -/
def Dev.chan (d : Dev) (i : Nat) : Chan := d.chans.getD i ⟨0, 16, 1, 1, 0, 1, 0, 0, [], 0, false, [], [], false, 0, 0, 0⟩
/-- The transform of section i, while RUNNING. -/
def Dev.xfrm (d : Dev) (i : Nat) : Xfrm := d.xfrms.getD i ⟨0, 0, 0, 16, 1, 0, 10, 8, 1, [], 0⟩
/-- The binding that covers product index j: the newest that does not lie after it (R155). -/
def Chan.binding (c : Chan) (j : Nat) : Nat × Nat :=
  if c.j0 ≤ j then (c.j0, c.s0) else (c.past.find? (fun b => decide (b.1 ≤ j))).getD (c.j0, c.s0)
/-- Input sample at which product index j's span begins (R151). -/
def Chan.first (c : Chan) (j : Nat) : Int := (c.binding j).2 + ((j : Int) - (c.binding j).1) * c.dec
/-- Samples in product index j's span: of a boxcar that a change closed, those up to the change (R155). -/
def Chan.spanOf (c : Chan) (j : Nat) : Nat := if c.qs then (c.first (j + 1) - c.first j).toNat else c.span
/-- The local time and epoch of input sample `num / den` of a channel (R151, R163). -/
def Dev.chanInstant (d : Dev) (c : Chan) (num : Int) (den : Nat) : Nat × Nat :=
  if c.input = 8 then (((c.refTime : Int) + (num - (c.refSample * den : Nat)) * 2 ^ 64 / (c.lanes * den : Nat)).toNat, c.refEpoch)
  else (d.sampleTime c.input num den, d.epoch)
/-- The local time and epoch of product index j (R151). -/
def Dev.chanTime (d : Dev) (c : Chan) (j : Nat) : Nat × Nat := d.chanInstant c (c.first j * c.gDen + c.gNum) c.gDen
/-- The local time and epoch of half-sample `num2 / 2` of a transform's source (R169). -/
def Dev.xfrmTime (d : Dev) (i num2 : Nat) : Nat × Nat :=
  let x := d.xfrm i
  if x.input < 8 then (d.sampleTime x.input num2 2, d.epoch)
  else
    let c := d.chan x.chan
    d.chanInstant c ((c.first (num2 / 2) * 2 + (num2 % 2 : Nat) * c.dec) * c.gDen + 2 * c.gNum) (2 * c.gDen)
/-- The first input sample (or channel unit) of frame f of a transform (R169). -/
def Xfrm.frameAt (x : Xfrm) (f : Nat) : Nat := x.s0 + f * 2 ^ x.hop
/-- The local time and epoch of unit j of the run of section i (R33): of its first sample. -/
def Dev.unitTime (d : Dev) (i : Nat) (u : Run) (j : Nat) : Nat × Nat :=
  match u.kind with
  | .raw => (d.sampleTime u.input j 1, d.epoch)
  | .chan => d.chanTime (d.chan i) j
  | .trace => match d.traces.get? i with
    | some t => d.xfrmTime t.xfrm (2 * (d.xfrm t.xfrm).frameAt (t.f0 + j / max 1 t.points * t.frames))
    | none => (d.localTime, d.epoch)
  | .dens => match d.denses.get? i with
    | some t => d.xfrmTime t.xfrm (2 * (d.xfrm t.xfrm).frameAt (t.f0 + j * t.frames))
    | none => (d.localTime, d.epoch)
  | .captures => (d.localTime, d.epoch)

end Sys2Proof.Machine
end

