-- ==== Sys2Proof/Machine/Galley.lean ====
section
/-! DEFINITION. The galley (spec/12_galley.md, and the address mapping of spec/13_memory.md): bytes, the map and its walks, placing
records, free space, gaps and context records of a run, readers. -/
namespace Sys2Proof.Machine

/-- Bytes of a page or frame. -/
def pageSize : Nat := 2097152

/-! ## Bytes and channels -/

/-- Parity of the set bits of a number below 2^40. -/
def parity (v : Nat) : Nat := (List.range 40).foldl (fun p i => p ^^^ (v / 2 ^ i % 2)) 0
/-- The slot of a galley address (R345). -/
def Dev.slotOf (d : Dev) (a : Nat) : Nat :=
  (List.range 6).foldl (fun s i => s + parity (a &&& d.dram.masks.getD i 0) * 2 ^ i) 0
/-- What a galley byte that nothing has written reads as: 0 (R498), or undefined after an APPLY (R347) outside the map table and the slots
that a spare serves since. -/
def Dev.galBase (d : Dev) (a : Nat) : Byte :=
  if d.dram.garbled = 0 ∨ a < 1048576 ∨ d.slotOf a ∈ d.dram.clean then 0 else Config.freeByte d.dram.garbled a
/-- A galley byte. -/
def Dev.galByte (d : Dev) (a : Nat) : Byte := d.mem.byte a ^^^ d.galBase a
/-- Store a galley byte. -/
def Dev.galStore (d : Dev) (a : Nat) (b : Byte) : Dev := { d with mem := d.mem.store a (b ^^^ d.galBase a) }
/-- `n` galley bytes from address `a`. -/
def Dev.galBytes (d : Dev) (a n : Nat) : List Byte := (List.range n).map (fun i => d.galByte (a + i))
/-- Store galley bytes from address `a` up. -/
def Dev.galStoreAll (d : Dev) (a : Nat) : List Byte → Dev
  | [] => d
  | b :: t => (d.galStore a b).galStoreAll (a + 1) t

/-- The bank of a galley address (R345). -/
def Dev.bankOf (d : Dev) (a : Nat) : Nat :=
  (List.range 4).foldl (fun s j => s + parity (a &&& d.dram.masks.getD (6 + j) 0) * 2 ^ j) 0
/-- Row and column byte of a galley address within its slot (R345). -/
def rowColOf (a : Nat) : Nat × Nat :=
  let l := bits a 14 24 * 256 + a % 256
  (bits l 15 17, l % 2048)
/-- Whether a slot has no ACTIVE channel: its granules are dead (R330, R353). -/
def Dev.slotDead (d : Dev) (s : Nat) : Bool :=
  d.is F.DRC_SLOT_NONE s || d.rd F.DRC_CH_STATUS_STATE (d.rd F.DRC_SLOT_PHYS s) != 0
/-- Whether the granule of an address is dead. -/
def Dev.addrDead (d : Dev) (a : Nat) : Bool := d.slotDead (d.slotOf a)

/-! ## Rings and the map -/

/-- The ring, as it stands while ON. -/
def Dev.ring (d : Dev) (r : Nat) : Ring := d.rings.getD r ⟨0, 0, [], [], [], 0, [], [], false⟩
/-- Change it. -/
def Dev.setRing (d : Dev) (r : Nat) (f : Ring → Ring) : Dev := { d with rings := d.rings.put r (f (d.ring r)) }
/-- Whether a ring is ON (R325): EN reads the state. -/
def Dev.ringOn (d : Dev) (r : Nat) : Bool := d.is F.GAL_RING_CFG_EN r
/-- Its byte space (R318). -/
def Dev.ringSize (d : Dev) (r : Nat) : Nat := d.rd F.GAL_RING_PAGES_PAGES r * pageSize
/-- The map table entry of a table index (R327): 8 bytes of frame 0. -/
def Dev.mapEntry (d : Dev) (idx : Nat) : Nat := leNat (d.galBytes (8 * idx) 8)
/-- Table index of the page that holds a ring position. -/
def Dev.pageOf (d : Dev) (r pos : Nat) : Nat := d.rd F.GAL_RING_BASE_BASE r + pos % max 1 (d.ringSize r) / pageSize
/-- The galley address of a ring position, through its entry's FRAME. -/
def Dev.ringAddr (d : Dev) (r pos : Nat) : Nat :=
  bits (d.mapEntry (d.pageOf r pos)) 0 17 * pageSize + pos % max 1 (d.ringSize r) % pageSize
/-- `n` bytes of a ring from a position on. -/
def Dev.ringBytes (d : Dev) (r pos n : Nat) : List Byte := (List.range n).map (fun i => d.galByte (d.ringAddr r (pos + i)))
/-- Whether a frame lies in the device-window frame range (R327). -/
def devFrame (f : Nat) : Bool := f == 0 || decide (0x1E000 ≤ f)

/-- Set a ring event (W1C, shown while set) and the summary source of its four rings (R343). -/
def Dev.ringSummary (d : Dev) (r : Nat) : Dev :=
  let i := r / 4
  let on := (List.range 4).any (fun k => d.rd F.GAL_RING_STAT_EVENTS (4 * i + k) &&& d.rd F.GAL_RING_CFG_IRQ_EN (4 * i + k) != 0)
  d.level (16 + i / 32 % 8) (i % 32) on
def Dev.ringEvent (d : Dev) (r e : Nat) : Dev :=
  (d.setBits F.GAL_RING_STAT_EVENTS (2 ^ e) r).ringSummary r

/-- Why a walk of entry `idx` faults (R328): 1 its entry lies in a frozen channel, 2 device window. An uncorrectable entry (0) freezes
its channel in the same instant (R354), so it shows as 1. A cached entry is not walked. -/
def Dev.walkCause (d : Dev) (idx : Nat) : Option Nat :=
  if d.dram.cached.contains idx then none
  else if d.addrDead (8 * idx) then some 1
  else
    let e := d.mapEntry idx
    if e.testBit 18 || devFrame (bits e 0 17) then some 2 else none

/-- Walk entry `idx` for a ring (dir: 0 write, 1 read): a miss counts; a fault is captured, counted and raised (R328); a good entry is cached,
replacing an entry the spec does not name when all 16,384 places are taken. For an access of no ring the spec states no ring to capture
(log entry 2). -/
def Dev.walkBy (d : Dev) (ring : Option Nat) (idx dir : Nat) : Dev :=
  if d.dram.cached.contains idx then d
  else
    let d := d.inc F.GAL_CACHE_MISS_COUNT
    match d.walkCause idx with
    | some c =>
      let d := if d.is F.GAL_FAULT_INFO_VALID then d
        else ((((((d.wr F.GAL_FAULT_PAGE_PAGE idx).wr F.GAL_FAULT_ADDR_LO_ADDR (8 * idx)).wr F.GAL_FAULT_ADDR_HI_ADDR 0).wr
          F.GAL_FAULT_INFO_CAUSE c).wr F.GAL_FAULT_INFO_RING (ring.getD d.fresh)).wr F.GAL_FAULT_INFO_DIR dir).mark F.GAL_FAULT_INFO_VALID
      let d := d.inc F.GAL_FAULT_COUNT_COUNT
      let d := match ring with
        | some r => d.ringEvent r 5
        | none => d.usedFree
      d.raise 26 28
    | none =>
      if d.dram.cached.length < 16384 then { d with dram := { d.dram with cached := d.dram.cached ++ [idx] } }
      else { d with dram := { d.dram with cached := d.dram.cached.eraseIdx (d.fresh % 16384) ++ [idx] } }.usedFree

/-- Walk for a ring. -/
def Dev.walk (d : Dev) (r idx dir : Nat) : Dev := d.walkBy (some r) idx dir

/-- Mark a page of the ring dead (R329, R330). -/
def Dev.killPage (d : Dev) (r page : Nat) : Dev :=
  if (d.ring r).dead.contains page then d
  else (((d.setRing r (fun g => { g with dead := g.dead ++ [page] })).inc F.GAL_RING_CNT_MISC_DEAD_PAGES r).ringEvent r 6).raise 26 31

/-! ## Free space -/

/-- Host read pointer (R319). -/
def Dev.hostRd (d : Dev) (r : Nat) : Nat := d.wideAt F.GAL_RING_RD_LO_RD r
/-- Whether the ring overwrites: MODE = 1, or the anchor ring while it stores anchors (R319, R323). -/
def Dev.overwrites (d : Dev) (r : Nat) : Bool :=
  d.is F.GAL_RING_CFG_MODE r || (d.is F.GAL_ANCHOR_EN && d.rd F.GAL_ANCHOR_RING == r)
/-- Positions of the holding readers. -/
def Dev.holders (d : Dev) (r : Nat) : List Nat :=
  if d.overwrites r then []
  else ((d.ring r).readers.filter (·.holding)).map (·.pos) ++ (if d.is F.GAL_RING_CFG_HOST_RD r then [d.hostRd r] else [])
/-- Free space of R320; the lowest holding reader counts as WR where there is none. -/
def Dev.free (d : Dev) (r : Nat) : Int :=
  let g := d.ring r
  let low := (d.holders r).foldl min g.wr
  (d.ringSize r : Int) - (g.wr - low : Nat) - (g.dead.length * pageSize : Nat) - g.reserves
/-- Note the fill level: event 2 when it rises to THRESH/256 (R320). -/
def Dev.noteFill (d : Dev) (r : Nat) : Dev :=
  let size : Int := d.ringSize r
  let above := decide (256 * (size - d.free r) ≥ size * d.rd F.GAL_RING_CFG_THRESH r)
  let was := (d.ring r).overThresh
  let d := d.setRing r (fun g => { g with overThresh := above })
  if above && !was then d.ringEvent r 2 else d

/-! ## Placing a record -/

/-- Whether a header may start at a position: a multiple of 8, its 64 bytes in one granule that is not dead, in a live page (R331). -/
def Dev.headerOk (d : Dev) (r pos : Nat) : Bool :=
  pos % 8 == 0 && decide (pos % 256 ≤ 192) &&
    !((d.ring r).dead.contains (pos % max 1 (d.ringSize r) / pageSize)) && !(d.addrDead (d.ringAddr r pos))
/-- The first such position at or after `pos`: within the granule by 8, then granule by granule, dead pages passed whole. -/
def Dev.nextHeader (d : Dev) (r : Nat) : Nat → Nat → Nat
  | 0, pos => pos
  | fuel + 1, pos =>
    if d.headerOk r pos then pos
    else if (d.ring r).dead.contains (pos % max 1 (d.ringSize r) / pageSize) then d.nextHeader r fuel ((pos / pageSize + 1) * pageSize)
    else if d.addrDead (d.ringAddr r pos) then d.nextHeader r fuel ((pos / 256 + 1) * 256)
    else d.nextHeader r fuel (pos + 8)
/-- Steps that surely reach a live position: one pass over the ring's granules. -/
def Dev.headerFuel (d : Dev) (r : Nat) : Nat := d.rd F.GAL_RING_PAGES_PAGES r * 8192 + 64

/-- Walk the pages from WR on until a live one: a page whose walk faults is marked dead and passed (R328, R330, R331). -/
def Dev.liveWr (d : Dev) (r : Nat) : Nat → Dev × Nat
  | 0 => (d, (d.ring r).wr)
  | fuel + 1 =>
    let pos := d.nextHeader r (d.headerFuel r) (d.ring r).wr
    let idx := d.pageOf r pos
    match d.walkCause idx with
    | none => ((d.walk r idx 0), pos)
    | some _ => ((d.walk r idx 0).killPage r (pos % max 1 (d.ringSize r) / pageSize)).liveWr r fuel

/-- The 64 header bytes of R311 for a record of `len` bytes with sequence number `seq`. -/
def Dev.headerBytes (d : Dev) (r : Nat) (x : Rec) (len seq : Nat) : List Byte :=
  let noaxis := d.is F.GAL_RING_CFG_NOAXIS r
  let head (crc : Nat) := leBytes 1 x.type ++ leBytes 1 1 ++ leBytes 1 x.source ++ leBytes 1 (if noaxis then x.axisId ||| 0x80 else x.axisId) ++
    leBytes 2 x.flags ++ leBytes 2 x.epoch ++ leBytes 4 len ++ leBytes 4 x.trig ++ leBytes 8 seq ++ leBytes 8 x.start ++
    leBytes 4 x.count ++ leBytes 12 x.time ++ leBytes 8 (if noaxis then 0 else x.axis) ++ leBytes 2 x.scale ++
    leBytes 2 (d.rd F.STY_STATUS_GENERATION) ++ leBytes 4 crc
  head (crc32 (head 0))

/-- Bytes of a payload before its units: 32 for spectrum frames, traces and pairs (R189, R246). -/
def unitHead (type : Nat) : Nat := if type = 3 ∨ type = 4 ∨ type = 7 then 32 else 0
/-- Bits of a unit in a payload of this type and length: of raw samples 12, of complex samples the payload's share, of a code 16; of a pair the
payload's share (32 or 64), padding aside. -/
def unitBits (type count payload : Nat) : Nat :=
  if type = 1 then 12
  else if type = 3 ∨ type = 4 then 16
  else if type = 7 then (payload - 32) / max 1 count / 4 * 32
  else 8 * payload / max 1 count
/-- The units of a record that have a byte among payload bytes [lo, hi) (R28, R332): unit u has the bits from u × B to (u + 1) × B behind the
head; 12-bit samples share bytes (R95). A lost byte of the head or of the padding loses no unit. -/
def unitsIn (type count payload lo hi : Nat) : Nat × Nat :=
  let b := unitBits type count payload
  let h := unitHead type
  let lo := 8 * (lo - h)
  let hi := 8 * (hi - h)
  let first := lo / max 1 b
  let last := min count ((hi + b - 1) / max 1 b)
  (first, last - first)

/-- The lost parts of a record placed at `pos`: its payload granules that lie in a dead channel (cause 0x03) or a dead page (0x04), as
byte ranges of the payload (R329, R332). -/
def Dev.lostParts (d : Dev) (r pos n : Nat) : Nat → List (Nat × Nat × Nat)
  | 0 => []
  | k + 1 =>
    let g := (pos + 64) / 256 + k
    let lo := max (pos + 64) (g * 256)
    let hi := min (pos + 64 + n) ((g + 1) * 256)
    let rest := d.lostParts r pos n k
    if lo < hi then
      if (d.ring r).dead.contains (lo % max 1 (d.ringSize r) / pageSize) then rest ++ [(lo - pos - 64, hi - pos - 64, 4)]
      else if d.addrDead (d.ringAddr r lo) then rest ++ [(lo - pos - 64, hi - pos - 64, 3)]
      else rest
    else rest

/-- Join neighbouring lost unit ranges of one cause, and drop units an earlier range has already (R23). -/
def joinLosses : List Loss → List Loss
  | [] => []
  | a :: t =>
    match joinLosses t with
    | [] => [a]
    | b :: u =>
      if a.cause = b.cause ∧ b.start ≤ a.start + a.count then
        { a with count := max (a.start + a.count) (b.start + b.count) - a.start } :: u
      else if b.start < a.start + a.count then
        a :: { b with start := a.start + a.count, count := b.start + b.count - (a.start + a.count) } :: u
      else a :: b :: u

/-- Walk the pages a record reaches; a faulting one is marked dead (R329). -/
def Dev.walkSpan (d : Dev) (r pos n : Nat) : Nat → Dev
  | 0 => d
  | k + 1 =>
    let d := d.walkSpan r pos n k
    let p := (pos / pageSize + k) * pageSize
    if pos + n ≤ p then d
    else
      let idx := d.pageOf r p
      let bad := (d.walkCause idx).isSome
      let d := d.walk r idx 0
      if bad then d.killPage r (p % max 1 (d.ringSize r) / pageSize) else d

/-- Write bytes at a ring position, those in a dead granule or page discarded (R332). -/
def Dev.ringStore (d : Dev) (r pos : Nat) : List Byte → Dev
  | [] => d
  | b :: t =>
    let a := d.ringAddr r pos
    let d := if d.addrDead a || (d.ring r).dead.contains (pos % max 1 (d.ringSize r) / pageSize) then d else d.galStore a b
    d.ringStore r (pos + 1) t

/-- Move overrun readers to the oldest record present and forget overwritten records (R319). -/
def Dev.overrun (d : Dev) (r : Nat) : Dev :=
  let g := d.ring r
  let floor := g.wr - d.ringSize r
  let keep := g.recs.filter (fun p => decide (floor ≤ p.pos))
  let oldest := (keep.head?.map (·.pos)).getD g.wr
  let late := g.readers.filter (fun x => decide (x.pos < oldest) && decide (x.pos < floor))
  let d := d.setRing r (fun g => { g with recs := keep, readers := g.readers.map (fun x =>
    if x.pos < floor then { x with pos := oldest, skipped := x.skipped ++ g.recs.filter (fun p => decide (x.pos ≤ p.pos ∧ p.pos < oldest)) } else x) })
  let n := late.length + (if d.is F.GAL_RING_CFG_HOST_RD r && decide (d.hostRd r < floor) then 1 else 0)
  if n = 0 then d
  else
    let d := if d.hostRd r < floor then d.setWide F.GAL_RING_RD_LO_RD oldest r else d
    (d.inc F.GAL_RING_CNT_OVERRUN_OVERRUN r 0 n).ringEvent r 4

/-- Set HDR_VALID and FIRST_HDR of the page when this is the first header to start in it (R327): no earlier record present starts
there. -/
def Dev.noteHeader (d : Dev) (r pos : Nat) : Dev :=
  let idx := d.pageOf r pos
  if (d.ring r).recs.any (fun p => d.pageOf r p.pos == idx && decide (p.pos / pageSize = pos / pageSize)) then d
  else
    let e := d.mapEntry idx
    d.galStoreAll (8 * idx) (leBytes 8 (e % 2 ^ 19 + 2 ^ 19 + pos % pageSize / 8 * 2 ^ 20))

/-- A gap record (R317): 72 bytes, the flags' other bits as given. -/
def gapRec (x : Rec) (tag side port : Nat) (l : Loss) : Rec :=
  { x with type := 8, flags := x.flags ||| 4, start := l.start, count := l.count, scale := 0,
           payload := leBytes 1 l.cause ++ leBytes 1 side ++ leBytes 2 port ++ leBytes 2 tag ++ leBytes 2 0 }

/-- The length a record takes when placed at `pos`: to the next header position (R331). -/
def Dev.recLen (d : Dev) (r pos : Nat) (x : Rec) : Nat :=
  d.nextHeader r (d.headerFuel r) (roundUp (pos + 64 + x.payload.length) 8) - pos

/-- Place one record at `pos` and publish it (R321): payload, then header, then WR; lost parts are discarded and the record carries
PARTIAL, and the lost unit ranges are answered. -/
def Dev.placeAt (d : Dev) (r pos tag : Nat) (x : Rec) : Dev × List Loss :=
  let n := x.payload.length
  let d := d.walkSpan r pos (64 + n) (n / pageSize + 2)
  let parts := d.lostParts r pos n (n / 256 + 2)
  let units (p : Nat × Nat × Nat) : Loss :=
    let u := unitsIn x.type x.count n p.1 p.2.1
    ⟨x.start + u.1, u.2, p.2.2⟩
  let lost := joinLosses ((parts.map units).filter (fun l => l.count != 0))
  let x := if parts.isEmpty then x else { x with flags := x.flags ||| 16 }
  let len := d.recLen r pos x
  let seq := (d.ring r).seq
  let d := d.ringStore r (pos + 64) (x.payload ++ List.replicate (len - 64 - n) 0)
  let d := d.ringStore r pos (d.headerBytes r x len seq)
  let d := d.noteHeader r pos
  let d := d.setRing r (fun g => { g with wr := pos + len, seq := seq + 1, recs := g.recs ++ [⟨pos, len, n, x.type, x.source, tag, x.trig, x.flags, x.start, x.count⟩] })
  let d := (d.setWide F.GAL_RING_WR_LO_WR (pos + len) r).overrun r
  let d := if parts.isEmpty then d else d.ringEvent r 7
  (d.noteFill r, lost)

/-- Whether a page of the ring is not dead: a ring without one has no position for a record (R331). -/
def Dev.hasLive (d : Dev) (r : Nat) : Bool := decide ((d.ring r).dead.length < d.rd F.GAL_RING_PAGES_PAGES r)
/-- Place a record at the first live position, if the ring has one. -/
def Dev.placeNext (d : Dev) (r tag : Nat) (x : Rec) : Dev × List Loss :=
  let (d, pos) := d.liveWr r (d.rd F.GAL_RING_PAGES_PAGES r)
  if d.hasLive r then d.placeAt r pos tag x else (d, [])
/-- Place a record, then gap records for its lost units directly after it (R332); `from_` gives such a gap record the instant of its first
unit (R33). -/
def Dev.placeWith (d : Dev) (r tag : Nat) (x : Rec) (from_ : Dev → Nat → Rec) : Dev :=
  let (d, lost) := d.placeNext r tag x
  lost.foldl (fun d l => (d.placeNext r tag (gapRec { from_ d l.start with flags := x.flags &&& 0x3EF } tag 0 0xFFFF l)).1) d
/-- Place a record whose lost units, if it has any, take its own instant. -/
def Dev.place (d : Dev) (r tag : Nat) (x : Rec) : Dev := d.placeWith r tag x (fun _ _ => x)

/-- The bytes a record would take in the ring now. -/
def Dev.needs (d : Dev) (r : Nat) (x : Rec) : Nat := d.recLen r (d.nextHeader r (d.headerFuel r) (d.ring r).wr) x

/-- Whether the free space takes `need` bytes, the page at WR walked where it seems to: a page whose walk faults is dead, and its bytes are no
free space (R320, R330). -/
def Dev.room (d : Dev) (r : Nat) (need : Dev → Nat) : Dev × Bool :=
  if d.free r < need d then (d, false)
  else
    let d := (d.liveWr r (d.rd F.GAL_RING_PAGES_PAGES r)).1
    (d, decide (d.free r ≥ need d))

/-- A record that belongs to no continuous product (R322): placed where it fits, else dropped, counted, event 3; nothing is stored
while its ring is OFF. `count` notes the drop in the source block's own counter. -/
def Dev.publishLoose (d : Dev) (r : Nat) (x : Rec) (count : Dev → Dev) : Dev :=
  if !(d.ringOn r) then count (d.inc F.GAL_NOWHERE_COUNT)
  else
    let (d, ok) := d.room r (fun d => d.needs r x)
    if ok then d.place r 0 x
    else count ((d.inc F.GAL_RING_CNT_DROPPED_DROPPED r).ringEvent r 3)

/-! ## Runs -/

/-- Priority of a gap cause in R26: lower is first. -/
def causeRank (c : Nat) : Nat := match c with
  | 8 => 0 | 7 => 1 | 6 => 2 | 2 => 3 | 1 => 4 | 3 => 5 | 4 => 6 | 5 => 7 | _ => 8

/-- What is left of a loss when the units of another are taken out of it. -/
def Loss.minus (a b : Loss) : List Loss :=
  let e := a.start + a.count
  let f := b.start + b.count
  (if a.start < min e b.start then [⟨a.start, min e b.start - a.start, a.cause⟩] else []) ++
  (if max a.start f < e then [⟨max a.start f, e - max a.start f, a.cause⟩] else [])

/-- Insert by start. -/
def insertLoss (l : Loss) : List Loss → List Loss
  | [] => [l]
  | a :: t => if l.start < a.start then l :: a :: t else a :: insertLoss l t

/-- Add a loss to those ahead: units several causes cover go to the first cause of R26. -/
def addLoss (ls : List Loss) (n : Loss) : List Loss :=
  let stay := ls.flatMap (fun l => if causeRank l.cause ≤ causeRank n.cause then [l] else l.minus n)
  let new := ls.foldl (fun ps l => if causeRank l.cause ≤ causeRank n.cause then ps.flatMap (·.minus l) else ps) [n]
  (new.filter (fun l => l.count != 0)).foldl (fun acc l => insertLoss l acc) stay

/-- Change a run. -/
def Dev.setRun (d : Dev) (i : Nat) (f : Run → Run) : Dev :=
  match d.runs.get? i with
  | some u => { d with runs := d.runs.put i (f u) }
  | none => d

/-- Unit of a run that begins at a clock, at the product rate (R62). -/
def Run.unitAt (u : Run) (clk : Nat) : Nat := u.base + (clk - u.baseClk) * u.rateNum / max 1 u.rateDen * u.per

/-- Records of a run take their standard flags from its input (R62, R104, R130, R277, R316). -/
def Dev.inputFlags (d : Dev) (n : Nat) : Nat :=
  (if (d.input n).unconfirmed then 32 else 0) + (if d.is F.CNV_STATUS_CAL_STALE n then 64 else 0) +
  (if d.is F.CNV_STATUS_HOLDOVER n then 128 else 0) + (if d.is F.STY_STATUS_ISOLATED then 256 else 0)
/-- A change of what the flags of input n show is remembered with the sample it comes at (R161). -/
def Dev.flagging (d : Dev) (n : Nat) (f : Dev → Dev) : Dev :=
  let e := f d
  if e.inputFlags n = d.inputFlags n then e else e.setInput n (fun i => { i with was := (i.idx, d.inputFlags n) :: i.was })
/-- The same for every input. -/
def Dev.flaggingAll (d : Dev) (f : Dev → Dev) : Dev :=
  let e := f d
  (List.range 8).foldl (fun e n =>
    if e.inputFlags n = d.inputFlags n then e else e.setInput n (fun i => { i with was := (i.idx, d.inputFlags n) :: i.was })) e
/-- The flags of each stretch of samples that reaches into [a, b), those of the present first; `now` are the flags that hold up to sample `end_`. -/
def flagParts (a b : Nat) : Nat → List (Nat × Nat) → List Nat
  | now, [] => [now]
  | now, e :: t => if e.1 ≤ a then [now] else (if e.1 < b then [now] else []) ++ flagParts a b e.2 t
/-- The flags that the samples [a, b) of input n carry (R104, R130, R161, R277); ISOLATED as at the first (R316). -/
def Dev.flagsOver (d : Dev) (n a b : Nat) : Nat :=
  let l := flagParts a b (d.inputFlags n) (d.input n).was
  l.foldl (fun f x => f ||| (x &&& 0x2FF)) ((l.getLast?.getD 0) &&& 256)
/-- REEFED while the producing section is SHED (R62). -/
def Dev.runFlags (d : Dev) (i : Nat) (u : Run) : Nat := d.inputFlags u.input + (if d.rd F.FMR_SEC_STATE_STATE i = 4 then 8 else 0)

/-- The axis id and value a record takes from its ring (R312). -/
def Dev.axisOf (d : Dev) (r : Nat) : Nat := d.rd F.GAL_RING_CFG_AXIS r

/-- A record of a run that starts at unit j: time and axis value are those of the unit's instant (R33). -/
def Dev.runRec (d : Dev) (i : Nat) (u : Run) (j : Nat) : Rec :=
  let a := d.axisOf (u.ring.getD 0)
  let (t, e) := d.unitTime i u j
  { type := 0, source := u.source, flags := d.runFlags i u, epoch := e, trig := 0, start := j, count := 0, time := stamp96 t,
    axisId := a, axis := d.axisAt a t, scale := 0, payload := [] }

/-- Split a loss into gap records of at most 2^32 − 1 units (R23). -/
def splitLoss : Nat → Loss → List Loss
  | 0, l => [l]
  | k + 1, l => if l.count < 2 ^ 32 then [l] else ⟨l.start, 2 ^ 32 - 1, l.cause⟩ :: splitLoss k ⟨l.start + (2 ^ 32 - 1), l.count - (2 ^ 32 - 1), l.cause⟩

/-- Whether an overflow gap of the run is open (R322): held in the reserve, alone or before later gaps. -/
def Run.overflowing (u : Run) : Bool :=
  (match u.gap with | some g => g.cause == 1 | none => false) || u.held.any (fun g => g.cause == 1)
/-- The ring shows an open overflow gap while any run of it has one. -/
def Dev.noteOverflow (d : Dev) (r : Nat) : Dev :=
  d.flag F.GAL_RING_STAT_OVF_OPEN ((d.ring r).writers.any (fun i => match d.runs.get? i with
    | some u => u.overflowing
    | none => false)) r

/-- Place the gap records of a loss, consecutive ones above 2^32 − 1 units (R23), each stamped with its first lost unit (R33). -/
def Dev.placeLoss (d : Dev) (i r : Nat) (u : Run) (l : Loss) : Dev :=
  (splitLoss (l.count / (2 ^ 32 - 1)) l).foldl (fun d l => d.place r u.tag (gapRec (d.runRec i u l.start) u.tag 0 0xFFFF l)) d

/-- Write the gaps a run holds, the older first, and close them (R23, R24, R322): event 1 for an overflow gap. -/
def Dev.closeGap (d : Dev) (i : Nat) : Dev :=
  match d.runs.get? i with
  | none => d
  | some u =>
    let gaps := u.held ++ u.gap.toList
    let d := d.setRun i (fun u => { u with gap := none, held := [] })
    match u.ring with
    | some r =>
      let d := gaps.foldl (fun d g => d.placeLoss i r u g) d
      if u.overflowing then (d.ringEvent r 1).noteOverflow r else d
    | none => d

/-- Another cause's loss follows (R23, R24): the gap in progress is complete. It is written when the ring has space for the reserve to be taken
again, else held with an earlier one until space returns. -/
def Dev.endGap (d : Dev) (i : Nat) : Dev :=
  match d.runs.get? i with
  | none => d
  | some u =>
    let space := match u.ring with | some r => decide (d.free r ≥ 256) | none => true
    if space then d.closeGap i else d.setRun i (fun u => { u with held := u.held ++ u.gap.toList, gap := none })

/-- Grow the run's gap by lost units at `next`, or end another cause's gap and open a new one (R23). -/
def Dev.lose (d : Dev) (i count cause : Nat) : Dev :=
  match d.runs.get? i with
  | none => d
  | some u =>
    if count = 0 then d
    else match u.gap with
      | some g =>
        if g.cause = cause then d.setRun i (fun u => { u with gap := some { g with count := g.count + count }, next := u.next + count })
        else (d.endGap i).setRun i (fun u => { u with gap := some ⟨u.next, count, cause⟩, next := u.next + count })
      | none => d.setRun i (fun u => { u with gap := some ⟨u.next, count, cause⟩, next := u.next + count })

/-- Take the losses that the run has reached into its ledger. -/
def Dev.settle (d : Dev) (i : Nat) : Nat → Dev
  | 0 => d
  | k + 1 =>
    match d.runs.get? i with
    | none => d
    | some u =>
      match u.losses with
      | [] => d
      | l :: t =>
        if l.start + l.count ≤ u.next then (d.setRun i (fun u => { u with losses := t })).settle i k
        else if l.start ≤ u.next then
          ((d.setRun i (fun u => { u with losses := t })).lose i (l.start + l.count - u.next) l.cause).settle i k
        else d

/-- Note a loss of known units of a run (R26) and settle what is reached; a channel remembers it for what reads it (R177). -/
def Dev.noteLoss (d : Dev) (i : Nat) (l : Loss) : Dev :=
  match d.runs.get? i with
  | none => d
  | some u =>
    let ls := addLoss u.losses l
    let d := match d.chans.get? i with
      | some c => if l.count = 0 then d else { d with chans := d.chans.put i { c with lost := addLoss c.lost l } }
      | none => d
    (d.setRun i (fun u => { u with losses := ls })).settle i (ls.length + 1)

/-- The run has written a record: its reserve is taken (R320). -/
def Dev.takeReserve (d : Dev) (i : Nat) : Dev :=
  match d.runs.get? i with
  | some u => match u.ring with
    | some r => if u.taken then d else (d.setRun i (fun u => { u with taken := true })).setRing r (fun g => { g with reserves := g.reserves + u.reserve })
    | none => d
  | none => d

/-- Place a run's context record; the galley keeps a copy of it (R385). -/
def Dev.placeContext (d : Dev) (i r tag : Nat) (x : Rec) : Dev :=
  let d := d.place r tag x
  let bytes := ((d.ring r).recs.reverse.find? (fun (p : Placed) => p.type == 0x0C)).map (fun (p : Placed) => d.ringBytes r p.pos p.len)
  d.setRun i (fun u => { u with ctxWait := none, ctxLast := bytes })

/-- A context record of a run (R322): written when no overflow gap is open and it fits, else it waits in the reserve; a later one
replaces a waiting one. Without a ring it is counted in `GAL_NOWHERE` (R325). -/
def Dev.publishContext (d : Dev) (i : Nat) (x : Rec) : Dev :=
  match d.runs.get? i with
  | none => d
  | some u =>
    match u.ring with
    | none => d.inc F.GAL_NOWHERE_COUNT
    | some r =>
      let d := if u.ctxWait.isSome then d.inc F.GAL_RING_CNT_MISC_CTX_MERGED r else d
      let (d, ok) := if u.overflowing then (d, false) else d.room r (fun d => d.needs r x)
      if ok then
        (d.placeContext i r u.tag x).takeReserve i
      else d.setRun i (fun u => { u with ctxWait := some x })

/-- A data record of a run (R322, R325, R326). It starts at the run's next unit. -/
def Dev.publishData (d : Dev) (i : Nat) (x : Rec) (stoneFull : Bool) : Dev :=
  match d.runs.get? i with
  | none => d
  | some u =>
    let x := { x with start := u.next }
    match u.ring with
    | none => ((d.inc F.GAL_NOWHERE_COUNT).setRun i (fun u => { u with next := u.next + x.count, gap := none, held := [] })).settle i (u.losses.length + 1)
    | some r =>
      let more := 72 * u.held.length + (if u.overflowing || u.ctxWait.isSome then 256 else if u.gap.isSome then 72 else 0)
      let (d, ok) := if stoneFull then (d, false) else d.room r (fun d => d.needs r x + more)
      let d :=
        if ok then
          let d := d.closeGap i
          let d := match u.ctxWait with
            | some c => d.placeContext i r u.tag c
            | none => d
          ((d.placeWith r u.tag x (fun d j => d.runRec i u j)).setRun i (fun u => { u with next := u.next + x.count })).takeReserve i
        else
          let d := if stoneFull then (d.inc F.GAL_STONE_FULL_COUNT).raise 26 29 else d
          let d := (d.lose i x.count 1).inc F.GAL_RING_CNT_OVF_OVF_UNITS r 0 x.count
          if u.overflowing then d else (d.ringEvent r 0).noteOverflow r
      d.settle i (u.losses.length + 1)

/-- A run starts (R21, R325): it is bound to its ring where that is ON, and its first record is the context record. -/
def Dev.startRun (d : Dev) (i ring : Nat) (u : Run) (ctx : Rec) : Dev :=
  let on := d.ringOn ring
  let d := { d with runs := d.runs.put i { u with ring := if on then some ring else none } }
  let d := if on then
      (d.setRing ring (fun g => { g with writers := g.writers ++ [i] })).inc F.GAL_RING_STAT_WRITERS ring
    else d
  d.publishContext i ctx

/-- A run ends (R89, R322): an open gap is its last record, a waiting context record is discarded and counted, reserve and writer go. -/
def Dev.endRun (d : Dev) (i : Nat) : Dev :=
  match d.runs.get? i with
  | none => d
  | some u =>
    let d := d.closeGap i
    let d := match u.ring with
      | some r =>
        let d := if u.ctxWait.isSome then d.inc F.GAL_RING_CNT_MISC_CTX_MERGED r else d
        let d := d.setRing r (fun g => { g with writers := g.writers.erase i, reserves := if u.taken then g.reserves - u.reserve else g.reserves })
        (d.wr F.GAL_RING_STAT_WRITERS (d.rd F.GAL_RING_STAT_WRITERS r - 1) r).noteFill r
      | none => d
    { d with runs := d.runs.erase i }

/-- A run ends at a unit: losses beyond it are dropped, an open gap is cut there (R62: "without a gap"). -/
def Dev.endRunAt (d : Dev) (i unit : Nat) : Dev :=
  let cut (g : Loss) : Option Loss := if unit ≤ g.start then none else some { g with count := min g.count (unit - g.start) }
  (d.setRun i (fun u => { u with losses := [], held := u.held.filterMap cut, gap := u.gap.bind cut })).endRun i

/-- A loose record for the anchor ring (R323): never dropped for space; not stored, and counted, while EN = 0 or the ring is OFF. Its axis
value is that of its time (R33). -/
def Dev.anchorRecord (d : Dev) (x : Rec) : Dev :=
  let r := d.rd F.GAL_ANCHOR_RING
  if d.is F.GAL_ANCHOR_EN && d.ringOn r then d.place r 0 { x with axisId := d.axisOf r, axis := d.axisAt (d.axisOf r) (ofStamp96 x.time) }
  else d.inc F.GAL_ANCHOR_LOST_LOST

end Sys2Proof.Machine
end

