-- ==== Sys2Proof/Machine/Access.lean ====
section
/-! DEFINITION. How a command reaches the engine: the shape of every meaning, and what the power state does to a host access
(R457, R458, R460). -/
namespace Sys2Proof.Machine

/-- The shape of a meaning: a total change of the engine; the queue is step's. -/
def lift (f : Dev → Dev) (s : State) : Host.Outcome State Fault Refusal := .next { s with dev := f s.dev }

/-- Power states of `SYS_STATUS.PSTATE`: 0 STANDBY, 1 STARTING, 2 RUN, 3 IDLE. -/
def Dev.pstate (d : Dev) : Nat := d.rd F.SYS_STATUS_PSTATE

/-- Blocks served before DEVICE_READY (R460): SYS, PWR, RPR, NVS, SEC, IRQ, HKA, CLK and TIM with XTL and PTP. -/
def servedEarly (off : Nat) : Bool := decide (off < 0x60000)
/-- Blocks whose accesses do not wake the engine from IDLE (R458): SYS, PWR, IRQ, HKA. -/
def staysIdle (off : Nat) : Bool := decide (off < 0x20000) || decide (0x30000 ≤ off ∧ off < 0x40000)

/-- Leave IDLE for RUN (R457). -/
def Dev.wake (d : Dev) : Dev := if d.pstate = 3 then ((d.wr F.SYS_STATUS_PSTATE 2).flag F.DRC_STATUS_SELFREF false).raise 0 13 else d

/-- A host write access at a BAR0 offset: unreachable in STANDBY, dropped and counted before DEVICE_READY outside the served blocks,
waking from IDLE, else performed. -/
def Dev.hostWriteAt (d : Dev) (off : Nat) (f : Dev → Dev) : Dev :=
  if d.pstate = 0 then d
  else if d.pstate = 1 && !(servedEarly off) then (d.inc F.SYS_EARLY_DROP_COUNT).raise 0 8
  else if d.pstate = 3 && !(staysIdle off) then f d.wake
  else f d

/-- What a host read returns. -/
def Dev.answer (d : Dev) (v : Nat) : Dev := { d with readData := v }

/-- A host read access: `f` performs it and leaves the answer in `readData`. -/
def Dev.hostReadAt (d : Dev) (off : Nat) (f : Dev → Dev) : Dev :=
  if d.pstate = 0 then d
  else if d.pstate = 1 && !(servedEarly off) then d.answer 0
  else if d.pstate = 3 && !(staysIdle off) then f d.wake
  else f d

/-- A command written to a register: a host write access at its offset. -/
def host (off : Nat) (f : Dev → Dev) (s : State) : Host.Outcome State Fault Refusal := lift (fun d => d.hostWriteAt off f) s

end Sys2Proof.Machine
end

