-- ==== Sys2Proof/Machine/Halyards.lean ====
section
/-! DEFINITION. Halyards and section events (R41–R43, R47, spec/02_formes.md): driving, merging, driver records. Arrival at the taps stands
in `Taps`. -/
namespace Sys2Proof.Machine

/-- The image in a slot. -/
def Dev.slot (d : Dev) (k : Nat) : Slot := d.slots.getD k ⟨0, 0, 0, 0, none, []⟩
/-- The governing slot's image (R55). -/
def Dev.governing (d : Dev) : Option Image := (d.slot (d.rd F.FMR_CTRL_GOVERN)).image

/-- Raise every G8–G15 source the event map gives a code (R47). -/
def Dev.mapped (d : Dev) (code : Nat) : Dev :=
  match d.governing with
  | none => d
  | some im => (im.events.zipIdx).foldl (fun d p => if p.1 = code then d.raise (8 + p.2 / 32 % 8) (p.2 % 32) else d) d

/-- Event e of section i happens (R47). -/
def Dev.sectionEvent (d : Dev) (i e : Nat) : Dev := d.mapped (0x2000 + i * 16 + e)

/-- Which of two same-clock events of one halyard is kept (R41). -/
def keepEvent (a b : HalEvent) : HalEvent :=
  if a.pos < b.pos then a else if b.pos < a.pos then b
  else match a.tag, b.tag with
    | some x, some y => if x ≤ y then a else b
    | some _, none => a
    | none, some _ => b
    | none, none => a

/-- A driver puts an event on a halyard in the present clock: two in one clock are merged and counted (R41, R66). -/
def Dev.driveHalyard (d : Dev) (h pos : Nat) (tag : Option Nat) (origin : Option (Nat × Nat) := none) : Dev :=
  let e : HalEvent := ⟨h, pos % 32, d.clk, tag, origin⟩
  match d.halyards.find? (fun (x : HalEvent) => x.hal == h && x.clk == d.clk) with
  | some o =>
    let d := { d with halyards := d.halyards.map (fun (x : HalEvent) => if x.hal == h && x.clk == d.clk then keepEvent o e else x) }
    (d.inc F.FMR_HAL_MERGE_COUNT h).raise 7 9
  | none => { d with halyards := d.halyards ++ [e] }

/-- Driver kinds of `FMR_HAL_DRV`: 1 section, 2 input overrange, 3 TDC input, 4 frame core, 5 stay-link receive, 6 LO profile. -/
def Dev.hasDriver (d : Dev) (h kind index : Nat) : Bool := d.rd F.FMR_HAL_DRV_KIND h == kind && d.rd F.FMR_HAL_DRV_INDEX h == index
/-- Whether another driver is recorded for the halyard. -/
def Dev.takenByOther (d : Dev) (h kind index : Nat) : Bool := d.is F.FMR_HAL_DRV_KIND h && !(d.hasDriver h kind index)
/-- Record a driver. -/
def Dev.recordDriver (d : Dev) (h kind index : Nat) : Dev := (d.wr F.FMR_HAL_DRV_KIND kind h).wr F.FMR_HAL_DRV_INDEX index h
/-- Release every halyard below `n` recorded for a driver (R43). -/
def Dev.releaseDriver (d : Dev) (kind index : Nat) : Nat → Dev
  | 0 => d
  | n + 1 =>
    let d := d.releaseDriver kind index n
    if d.hasDriver n kind index then d.recordDriver n 0 0 else d
/-- Release one. -/
def Dev.dropDriver (d : Dev) (h kind index : Nat) : Dev := if d.hasDriver h kind index then d.recordDriver h 0 0 else d

end Sys2Proof.Machine
end

