-- ==== Sys2Proof/Machine/Inputs.lean ====
section
/-! DEFINITION. RF inputs and converters (spec/03_inputs.md): start, attenuator, overrange, monitor, pairing requests; anchors (R31, R293).
STOP, which ends runs of other families, stands in `Sections`. -/
namespace Sys2Proof.Machine

/-- Input states of R88: 0 STOPPED, 1 RUNNING, 2 CALIBRATING, 3 SLOT, 4 PAIRED_ODD. -/
def Dev.cnvState (d : Dev) (n : Nat) : Nat := d.rd F.CNV_STATUS_STATE n
/-- Set `CNV_STATUS.CODE`: 0 OK, 1 BUSY, 2 STATE, 3 PAIRED, 4 HALTED. -/
def Dev.cnvCode (d : Dev) (n code : Nat) : Dev := d.wr F.CNV_STATUS_CODE code n
/-- Halt is in force (R464). -/
def Dev.halted (d : Dev) : Bool := d.rd F.PWR_STATUS_REEF == 3

/-- A sign-extended 64-bit pattern of the rate in force (R293). -/
def Dev.rate64 (d : Dev) : Nat := unsigned 64 d.rate

/-- A time anchor of input n for the sample `idx` that clock `clk + k` holds (R31, R293). `kind`: bit 0 tick, bit 1 start. -/
def Dev.anchor (d : Dev) (n idx : Nat) (k : Int) (kind : Nat) : Dev :=
  d.anchorRecord {
    type := 0x0A, source := n, flags := d.inputFlags n &&& 0x180, epoch := d.epoch, trig := 0, start := idx, count := 0,
    time := stamp96 (d.inputTime n k), axisId := 0, axis := 0, scale := 0,
    payload := leBytes 8 (d.clk + k).toNat ++ leBytes 8 d.rate64 ++ leBytes 1 (kind + if d.is F.CNV_STATUS_PAIRED n then 4 else 0) ++
      leBytes 1 (d.lanes n) ++ leBytes 2 (d.rd F.STY_STATUS_GENERATION) ++ leBytes 12 0 }

/-- An input context record (R96): `reason` bits as there, `settle` samples, `idx` the first affected sample, `cross` the crossing time
and epoch when a cue made the change. -/
def Dev.inputContext (d : Dev) (n reason settle idx : Nat) (k : Int) (cross : Option (Nat × Nat)) : Rec :=
  { type := 0x0C, source := n, flags := d.inputFlags n, epoch := d.epoch, trig := 0, start := idx, count := 0,
    time := stamp96 (d.inputTime n k), axisId := 0, axis := 0, scale := 0,
    payload := leBytes 4 (reason + if cross.isSome then 16 else 0) ++ leBytes 1 n ++
      leBytes 1 (d.rd F.CNV_STATUS_PAIRED n + 2 * d.rd F.CNV_CTRL_OVR_BLANK n) ++ leBytes 1 (d.lanes n) ++ leBytes 1 (d.rd F.CNV_ATTEN_ACT_SETTING n) ++
      leBytes 8 (d.lanes n * 1000000000) ++ leBytes 8 idx ++ leBytes 8 idx ++ leBytes 4 1 ++ leBytes 2 (d.rd F.CNV_ATTEN_ACT_ACTUAL n) ++
      leBytes 2 settle ++ leBytes 8 idx ++ leBytes 12 ((cross.map (·.1)).getD 0) ++ leBytes 2 ((cross.map (·.2)).getD 0) ++ leBytes 2 0 }

/-- Give a record the axis of the ring of run i (R312), its value at the record's time (R33); REEFED while the section is SHED (R62). -/
def Dev.withAxisOf (d : Dev) (i : Nat) (x : Rec) : Rec :=
  match d.runs.get? i with
  | some u =>
    let a := d.axisOf (u.ring.getD 0)
    { x with axisId := a, axis := d.axisAt a (ofStamp96 x.time), flags := x.flags ||| (if d.rd F.FMR_SEC_STATE_STATE i = 4 then 8 else 0) }
  | none => x

/-- Sections whose run is a raw stream of input n. -/
def Dev.rawRuns (d : Dev) (n : Nat) : List Nat := (d.runs.cells.filter (fun p => p.2.kind == .raw && p.2.input == n)).map (·.1)

/-- The converter writes its context record into every raw-stream run of the input and into the anchor ring (R96). -/
def Dev.converterContext (d : Dev) (n reason settle idx : Nat) (k : Int) (cross : Option (Nat × Nat)) : Dev :=
  let x := d.inputContext n reason settle idx k cross
  let d := (d.rawRuns n).foldl (fun d i => d.publishContext i (d.withAxisOf i x)) d
  d.anchorRecord x

/-! ## Host writes and cue commits of one clock (R64, R70) -/

/-- Note that a host value (`some`) or a cue commit (`none`) reached a target in the present clock. -/
def Dev.noteTurn (d : Dev) (k : Nat) (v : Option Nat) : Dev :=
  { d with cues := { d.cues with turns := (k, d.clk, v) :: d.cues.turns.filter (fun x => x.2.1 == d.clk) } }
/-- Whether a cue commit reached the target in this clock: a host value then waits one clock more. -/
def Dev.cueCame (d : Dev) (k : Nat) : Bool := d.cues.turns.any (fun x => x.1 == k && x.2.1 == d.clk && x.2.2.isNone)
/-- The newest host value that reached the target in this clock: it follows the cue's on the next. -/
def Dev.hostGave (d : Dev) (k : Nat) : Option Nat :=
  (d.cues.turns.find? (fun x => x.1 == k && x.2.1 == d.clk && x.2.2.isSome)).bind (·.2.2)

/-- A setting takes effect `k` boundaries from now (R70, R71); the setting already in force is no change. -/
def Dev.applyAtten (d : Dev) (n v : Nat) (cross : Option (Nat × Nat)) (k : Nat := 1) : Dev :=
  if d.rd F.CNV_ATTEN_ACT_SETTING n = v then d
  else
    let d := (d.wr F.CNV_ATTEN_ACT_SETTING v n).wr F.CNV_ATTEN_ACT_ACTUAL (unsigned 16 (d.cal.val.getD (4352 + n * 32 + v) 0)) n
    d.converterContext n 2 (if d.is F.CNV_STATUS_PAIRED n then 640 else 320) ((d.input n).idx + k * d.lanes n) k cross

/-- Whether the setting is held for the end of a calibration or slot (R72). -/
def Dev.attenHeld (d : Dev) (n : Nat) : Bool := d.cnvState n == 2 || d.cnvState n == 3
/-- Keep the newest held setting. -/
def Dev.holdAtten (d : Dev) (n v : Nat) (cross : Option (Nat × Nat)) : Dev := d.setInput n (fun i => { i with heldAtten := some (v, cross) })

/-- A host write of `CNV_ATTEN` (R70, R72, R93): ignored on a PAIRED_ODD input, held during calibration; on the clock of a cue commit it applies
one clock later. -/
def Dev.setAtten (d : Dev) (n v : Nat) : Dev :=
  if d.cnvState n = 4 then d
  else
    let d := d.wr F.CNV_ATTEN_ATTEN v n
    if d.attenHeld n then d.holdAtten n v none
    else (d.applyAtten n v none (if d.cueCame n then 2 else 1)).noteTurn n (some v)
/-- A cue commits a setting (R70, R72, R93). The field `CNV_ATTEN.ATTEN` shows the newest setting, the cue's as well: the spec does not say
(DESIGN CHOICE, log entry 33). A host value of the same clock follows on the next. -/
def Dev.cueAtten (d : Dev) (n v : Nat) (cross : Option (Nat × Nat)) : Dev :=
  if d.cnvState n = 4 then d
  else
    let host := d.hostGave n
    if d.attenHeld n then (if host.isSome then d else (d.wr F.CNV_ATTEN_ATTEN v n).holdAtten n v cross)
    else
      let d := ((d.wr F.CNV_ATTEN_ATTEN v n).applyAtten n v cross).noteTurn n none
      match host with
      | some h => (d.wr F.CNV_ATTEN_ATTEN h n).applyAtten n h none 2
      | none => d

/-- Apply the held setting at the end of a calibration or slot (R72). -/
def Dev.releaseAtten (d : Dev) (n : Nat) : Dev :=
  match (d.input n).heldAtten with
  | some (v, c) => (d.setInput n (fun i => { i with heldAtten := none })).applyAtten n v c
  | none => d

/-- CMD START (R88–R90, R131, R288). Where two rows of R88 apply, halt answers first, then BUSY of a pending pairing (R90), then PAIRED: the
spec gives no order for halt (DESIGN CHOICE, log entry 33). -/
def Dev.cnvStart (d : Dev) (n : Nat) : Dev :=
  let st := d.cnvState n
  if d.halted then d.cnvCode n 4
  else if st = 2 ∨ d.is F.CNV_STATUS_PAIR_PENDING n then d.cnvCode n 1
  else if st = 4 then d.cnvCode n 3
  else if st = 1 ∨ st = 3 then d.cnvCode n 2
  else if (d.clocks.slipped.get? n).isSome && decide (8 < (d.rdInt F.CLK_EBUF_FILL n).natAbs) then d.wr F.CLK_STATUS_CODE 4
  else
    let idx := d.nextIdx n
    let d := { d with clocks := { d.clocks with slipped := d.clocks.slipped.erase n } }.setInput n (fun i => { i with lost := [], was := [] })
    let d := ((d.wr F.CNV_STATUS_STATE 1 n).cnvCode n 0).setWide F.CNV_START_IDX_LO_IDX idx n
    let d := d.flag F.TIM_STATUS_STEP_AVAIL false
    d.anchor n idx 1 (2 + if idx % 2 ^ 20 = 0 then 1 else 0)

/-- The pairing part of a `CNV_CTRL` write on an even input (R90). -/
def Dev.pairRequest (d : Dev) (n : Nat) (want : Bool) : Dev :=
  let inForce := d.is F.CNV_STATUS_PAIRED n
  let set (d : Dev) (b : Bool) := ((d.flag F.CNV_STATUS_PAIR_PENDING b n).flag F.CNV_STATUS_PAIR_PENDING b (n + 1))
  if d.is F.CNV_STATUS_PAIR_PENDING n then
    if want = inForce then ((set d false).flag F.CNV_CTRL_PAIRED inForce n).cnvCode n 0 else d
  else if want = inForce then d
  else if d.cnvState n != 0 || (want && d.cnvState (n + 1) != 0) then d.cnvCode n 2
  else (set d true).flag F.CNV_CTRL_PAIRED want n

/-- Units `j ≥ j0` of a grid (unit j covers `span` samples from `s0 + (j − j0)·step`) that hold a sample of [a, b): first and end. -/
def spanHits (j0 s0 step span a b : Nat) : Nat × Nat :=
  (if a < s0 + span then j0 else j0 + (a - s0 - span) / max 1 step + 1, if b ≤ s0 then j0 else j0 + (b - s0 + step - 1) / max 1 step)

/-- Frames [a, b) of a transform were invalid (R177): those not counted before are counted in INVALID, and event 0 marks the first after a
valid one (R197). A dark transform delivers none. -/
def Dev.framesBad (d : Dev) (i a b : Nat) : Dev :=
  match d.xfrms.get? i with
  | none => d
  | some x =>
    let from_ := max a x.badTo
    if b ≤ from_ ∨ d.rd F.FMR_SEC_STATE_STATE i ≠ 2 then d
    else
      let o := 0x1000000 + i * 0x20000 + 0x58
      let d := d.setReg o (BitVec.ofNat 32 (min (2 ^ 32 - 1) ((d.reg o).toNat + (b - from_))))
      let d := { d with xfrms := d.xfrms.put i { x with badTo := b } }
      if x.badTo < a then d.sectionEvent i 0 else d
/-- Source samples (or channel units) [a, b) of a transform are lost. -/
def Dev.frameLoss (d : Dev) (i : Nat) (x : Xfrm) (a b : Nat) : Dev :=
  let r := spanHits 0 x.s0 (2 ^ x.hop) (2 ^ x.size) a b
  d.framesBad i r.1 r.2
/-- Units of a channel that hold a sample of [a, b). -/
def Chan.hits (c : Chan) (a b : Nat) : Nat × Nat := spanHits c.j0 c.s0 c.dec c.span a b

/-- Samples [a, b) of input n were delivered with VALID = 0 for a cause of the converter (R76, R79): every raw stream and channel of the
input records its lost units (R159), every XFRM of the input or of such a channel counts its invalid frames (R177, R197). -/
def Dev.inputLost (d : Dev) (n a b cause : Nat) : Dev :=
  let d := d.setInput n (fun i => { i with lost := addLoss i.lost ⟨a, b - a, cause⟩ })
  let d := (d.rawRuns n).foldl (fun d i => d.noteLoss i ⟨a, b - a, cause⟩) d
  let d := (d.xfrms.cells.filter (fun p => p.2.input == n)).foldl (fun d p => d.frameLoss p.1 p.2 a b) d
  (d.chans.cells.filter (fun p => p.2.input == n)).foldl (fun d p =>
    let r := p.2.hits (max a p.2.seen) b
    let d := d.noteLoss p.1 ⟨r.1, r.2 - r.1, cause⟩
    (d.xfrms.cells.filter (fun q => q.2.input == 8 && q.2.chan == p.1)).foldl (fun d q => d.frameLoss q.1 q.2 r.1 r.2) d) d

/-- What the converter of input n withholds at present (R76, R78): the slot's and the blanking's samples up to the next boundary. -/
def Dev.openLosses (d : Dev) (n : Nat) : List Loss :=
  let x := d.input n
  let part (c : Nat) (a : Option Nat) : List Loss := match a with
    | some a => [⟨a, d.nextIdx n - a, c⟩]
    | none => []
  part 8 x.slotFrom ++ part 7 x.blankFrom
/-- Losses of the converter that are still in progress enter the ledger of a run before another cause's of the same units (R26), on the input
and the binding in force now (R159). -/
def Dev.noteOpen (d : Dev) (i : Nat) : Dev :=
  match d.runs.get? i, d.chans.get? i with
  | some _, some c => if c.input < 8 then (d.openLosses c.input).foldl (fun d l =>
      let r := c.hits (max l.start c.seen) (l.start + l.count)
      d.noteLoss i ⟨r.1, r.2 - r.1, l.cause⟩) d else d
  | some u, none => if u.kind = .raw then (d.openLosses u.input).foldl (fun d l => d.noteLoss i l) d else d
  | none, _ => d

/-- Blanking ends: the blanked samples up to the boundary are counted and recorded with cause 0x07 (R78, R79). -/
def Dev.endBlank (d : Dev) (n : Nat) : Dev :=
  match (d.input n).blankFrom with
  | none => d
  | some a =>
    let b := d.nextIdx n
    let d := (d.setInput n (fun i => { i with blankFrom := none })).flag F.CNV_STATUS_BLANKING false n
    let d := d.setWide F.CNV_BLANK_LO_BLANK (d.wideAt F.CNV_BLANK_LO_BLANK n + (b - a)) n
    d.inputLost n a b 7

/-- Blanking begins with the clock of sample `idx`. -/
def Dev.beginBlank (d : Dev) (n idx : Nat) : Dev :=
  (d.setInput n (fun i => { i with blankFrom := some idx })).flag F.CNV_STATUS_BLANKING true n

/-- OVR_BLANK set or cleared (R81). -/
def Dev.ovrBlank (d : Dev) (n : Nat) (on : Bool) : Dev :=
  let was := d.is F.CNV_CTRL_OVR_BLANK n
  let d := d.flag F.CNV_CTRL_OVR_BLANK on n
  if on = was then d
  else if on then (if d.is F.CNV_STATUS_OVR n then d.beginBlank n (d.nextIdx n) else d)
  else d.endBlank n

/-- The halyard enable of an input's overrange detector (R43, R80). -/
def Dev.ovrHalyard (d : Dev) (n : Nat) (en : Bool) (h : Nat) : Dev :=
  let d := d.releaseDriver 2 n 64
  let d := d.wr F.CNV_CTRL_OVR_HAL h n
  if !en then d.flag F.CNV_CTRL_OVR_HAL_EN false n
  else if d.takenByOther h 2 n then (d.flag F.CNV_CTRL_OVR_HAL_EN false n).mark F.CNV_STATUS_HAL_CONFLICT n
  else (d.flag F.CNV_CTRL_OVR_HAL_EN true n).recordDriver h 2 n

/-- A write of `CNV_CTRL`: PAIRED by R90 on even inputs, the other fields stored in every case. An enable that is turned away leaves the
halyard and the enable as they were. -/
def Dev.cnvCtrl (d : Dev) (n : Nat) (v : Word) : Dev :=
  let en := v.getLsbD 2
  let h := v.field 8 6
  let d := if en && d.takenByOther h 2 n then d.mark F.CNV_STATUS_HAL_CONFLICT n else d.ovrHalyard n en h
  let d := d.ovrBlank n (v.getLsbD 1)
  if n % 2 = 0 then d.pairRequest n (v.getLsbD 0) else d

/-- Lane j of a port word (R94): bits [12j + 11:12j]. -/
def portLane (w : BitVec 384) (j : Nat) : BitVec 12 := (w >>> (12 * j)).truncate 12
/-- The samples of a clock on the converter port, in lane order. -/
def portSamples (lanes : Nat) (w : BitVec 384) : List (BitVec 12) := (List.range lanes).map (portLane w)
/-- The lowest over lane of a clock (R77): a magnitude at or above the threshold, of which values below 1,024 act as 1,024. -/
def overLane (thresh : Nat) (l : List (BitVec 12)) : Option Nat := l.findIdx? (fun x => decide (max 1024 thresh ≤ x.toInt.natAbs))
/-- The OVER sideband of a clock (R94): its lowest over lane. -/
def Dev.portOver (d : Dev) (n : Nat) (w : BitVec 384) : Option Nat := overLane (d.rd F.CNV_OVR_CFG_THRESH n) (portSamples (d.lanes n) w)

/-- The present clock is the last of these over clocks (R77–R80): overrange is declared on the DWELL-th consecutive one, the clocks since the last
release. A detector that has declared, or whose input delivers nothing, takes no notice; STOP, halt and a slot leave a declaration as it is:
the spec does not say (DESIGN CHOICE, log entry 33). -/
def Dev.overrange (d : Dev) (n : Nat) (clocks : List (BitVec 384)) : Dev :=
  let dwell := max 1 (d.rd F.CNV_OVR_CFG_DWELL n)
  if d.is F.CNV_STATUS_OVR n || !(d.cnvState n == 1) || clocks.length != dwell then d
  else match clocks.all (fun w => (d.portOver n w).isSome), clocks.getLast?.bind (d.portOver n) with
    | true, some lane =>
      let d := d.advanceTo ((d.input n).ovrClk + dwell)
      let d := d.setInput n (fun i => { i with ovrClk := d.clk })
      let d := ((d.flag F.CNV_STATUS_OVR true n).inc F.CNV_OVR_COUNT_COUNT n).raise 6 n
      let d := if d.is F.CNV_CTRL_OVR_HAL_EN n then
          d.driveHalyard (d.rd F.CNV_CTRL_OVR_HAL n) (if d.is F.CNV_STATUS_PAIRED n then lane else 2 * lane) none
        else d
      if d.is F.CNV_CTRL_OVR_BLANK n then d.beginBlank n (d.input n).idx else d
    | _, _ => d

/-- The present clock is the last of RELEASE consecutive clean clocks since the declaration (R77, R78): the detector releases and blanking ends on
the following clock. -/
def Dev.overrangeRelease (d : Dev) (n : Nat) (clocks : List (BitVec 384)) : Dev :=
  let need := max 1 (d.rd F.CNV_OVR_REL_RELEASE n)
  if d.is F.CNV_STATUS_OVR n && clocks.length == need && clocks.all (fun w => (d.portOver n w).isNone) then
    let d := d.advanceTo ((d.input n).ovrClk + need)
    ((d.setInput n (fun i => { i with ovrClk := d.clk })).endBlank n).flag F.CNV_STATUS_OVR false n
  else d

/-- One slot's estimate against its limits (R85). -/
def Dev.monitorSlot (d : Dev) (n s : Nat) (e : Int × Int × Int) : Dev :=
  let d := ((d.wr F.CNV_MON_OFFSET_ERR (unsigned 16 e.1) n s).wr F.CNV_MON_GAIN_ERR (unsigned 16 e.2.1) n s).wr F.CNV_MON_SKEW_SKEW_ERR (unsigned 16 e.2.2) n s
  if decide (d.rd F.CNV_MON_LIM_OFFSET n < e.1.natAbs) || decide (d.rd F.CNV_MON_LIM_GAIN n < e.2.1.natAbs) ||
      decide (d.rd F.CNV_MON_LIM_SKEW n < e.2.2.natAbs) then
    let d := d.mark F.CNV_SLOT_MON_FAIL n s
    let d := if d.rd F.CNV_SLICE_SPARES_LEFT n != 0 && !(d.is F.CNV_SLOT_PENDING_SWAP n s) then
        (d.flag F.CNV_SLOT_PENDING_SWAP true n s).inc F.CNV_SLICE_PENDING n else d
    d.raise 6 (8 + n)
  else d

/-- A monitor window of 2^24 samples per slot ends (R85): below an rms of −40 dBFS, a mean square of 2048² / 2 / 10^4, the estimates stay.
`sumsq` is the sum of the squared codes of the window's 2^30 samples. -/
def Dev.monitorEnd (d : Dev) (n sumsq : Nat) (est : List (Int × Int × Int)) : Dev :=
  if 2097152 * 2 ^ 30 ≤ 10000 * sumsq ∧ d.cnvState n = 1 then ((est.take 64).zipIdx).foldl (fun d p => d.monitorSlot n p.2 p.1) d else d

/-! ## Meanings -/

/-- Write START to `CNV_CMD` of input n (R89). -/
def execCnvStart (n : Fin 8) (s : State) := host (0xC0000 + n.val * 0x1000) (fun d => d.cnvStart n) s
/-- Write `CNV_CTRL` of input n (R90). -/
def execPairingRequest (n : Fin 8) (v : Word) (s : State) := host (0xC0004 + n.val * 0x1000) (fun d => d.cnvCtrl n v) s
/-- Write `CNV_ATTEN` of input n (R70). -/
def execAttenWrite (n : Fin 8) (v : Word) (s : State) := host (0xC000C + n.val * 0x1000) (fun d => d.setAtten n (v.field 0 5)) s
/-- Set or clear OVR_BLANK of input n (R81). -/
def execOvrBlankChange (n : Fin 8) (on : Bool) (s : State) := host (0xC0004 + n.val * 0x1000) (fun d => d.ovrBlank n on) s
/-- Over clocks of input n, the last of them now (R80). -/
def execOverrangeDeclared (n : Fin 8) (clocks : List (BitVec 384)) (s : State) := lift (fun d => d.overrange n clocks) s
/-- Clean clocks of input n, the last of them now (R77). -/
def execOverrangeRelease (o : InputClocks) (s : State) := lift (fun d => d.overrangeRelease o.n o.clocks) s
/-- A window of the background monitor of input n ends (R85). -/
def execMonitorWindowEnd (n : Fin 8) (sumsq : Nat) (est : List (Int × Int × Int)) (s : State) := lift (fun d => d.monitorEnd n sumsq est) s

end Sys2Proof.Machine
end

