-- ==== Sys2Proof/Machine/Sheets.lean ====
section
/-! DEFINITION. The sheet buses (R411–R416, spec/15_stays_sheets.md) and the cue record that a SHEET_COMMIT writes when its polls are done
(R282). -/
namespace Sys2Proof.Machine

/-- The flag of a record of the whole unit (R316): ISOLATED. -/
def Dev.unitFlags (d : Dev) : Nat := if d.is F.STY_STATUS_ISOLATED then 256 else 0

/-- A sheet bus after reset. -/
def Sheet.reset : Sheet := ⟨[], none, 0, 0, [], [], [], Tab.empty, [], none, none, none⟩
/-- Bus b. -/
def Dev.sheet (d : Dev) (b : Nat) : Sheet := d.sheets.getD b Sheet.reset
/-- Change it. -/
def Dev.setSheet (d : Dev) (b : Nat) (f : Sheet → Sheet) : Dev := { d with sheets := d.sheets.put b (f (d.sheet b)) }

/-! ## Staging lists and frames -/

/-- The valid entries of staging list `l` of bus b: station, register, value (R416). -/
def Dev.sheetList (d : Dev) (b l : Nat) : List (Nat × Nat × Nat) :=
  (List.range 8).filterMap (fun e =>
    let w := d.rd F.SHT_LIST_WORD b (l * 16 + e * 2)
    if bits w 8 1 = 1 then some (bits w 0 8, bits w 16 16, d.rd F.SHT_LIST_WORD b (l * 16 + e * 2 + 1)) else none)
/-- Whether every entry names a station 1–31. -/
def listOk (es : List (Nat × Nat × Nat)) : Bool := es.all (fun e => decide (1 ≤ e.1 ∧ e.1 ≤ 31))
/-- Its stations in the order of their first entries; entries for other addresses reach no station. -/
def listStations (es : List (Nat × Nat × Nat)) : List Nat := ((es.map (·.1)).filter (fun a => decide (1 ≤ a ∧ a ≤ 31))).reverse.eraseDups.reverse
/-- The payload of a STAGE or WRITE to a station (R412). -/
def listPayload (es : List (Nat × Nat × Nat)) (a : Nat) : List Byte := (es.filter (fun e => e.1 == a)).flatMap (fun e => leBytes 2 e.2.1 ++ leBytes 4 e.2.2)

/-- A frame on the wire (R412): the CRC-16 is sent most significant byte first (R14). -/
def sheetFrame (addr op tag : Nat) (payload : List Byte) : List Byte :=
  let h := leBytes 1 addr ++ leBytes 1 op ++ leBytes 1 tag ++ leBytes 1 payload.length ++ payload
  h ++ beBytes 2 (crc16 h)
/-- A received frame: address, opcode, tag, payload, where its length and CRC are right. -/
def sheetParse (f : List Byte) : Option (Nat × Nat × Nat × List Byte) :=
  let n := leNat ((f.drop 3).take 1)
  if f.length = n + 6 ∧ beNat (f.drop (4 + n)) = crc16 (f.take (4 + n)) then
    some (leNat (f.take 1), leNat ((f.drop 1).take 1), leNat ((f.drop 2).take 1), (f.drop 4).take n)
  else none

/-- Bit of a station in one of the bus's masks (bits 31:1). -/
def Dev.station (d : Dev) (f : Fld) (b a : Nat) : Bool := (d.rd f b).testBit (a - 1)
/-- Set or clear it. -/
def Dev.setStation (d : Dev) (f : Fld) (b a : Nat) (on : Bool) : Dev :=
  let m := d.rd f b
  if on then d.setBits f (2 ^ (a - 1)) b else d.wr f (m - (m &&& 2 ^ (a - 1))) b

/-! ## Commits and their records -/

/-- A cue record (R282); `code` its outcome, `left` the stations that did not apply. -/
def Dev.cueRecord (d : Dev) (entry axis compare time epoch clk repeats code left : Nat) : Dev :=
  let w2 := d.rd F.CUE_ENTRY_WORD entry 2
  d.publishLoose (d.rd F.CUE_CTRL_RING)
    { type := 0x0C, source := 0xF1, flags := d.unitFlags + (if left = 0 then 0 else 32), epoch := epoch, trig := 0, start := 16 * clk, count := 0,
      time := stamp96 time, axisId := axis, axis := compare, scale := 0,
      payload := leBytes 4 4096 ++ leBytes 2 entry ++ leBytes 1 w2 ++ leBytes 1 (w2 / 256) ++ leBytes 8 compare ++ leBytes 8 clk ++ leBytes 2 repeats ++
        leBytes 1 code ++ leBytes 1 left ++ leBytes 4 0 }
    (fun d => d.inc F.CUE_LOG_DROP_COUNT)

/-- Inputs of a mask carry FRONTEND_UNCONFIRMED, or no longer (R277). -/
def Dev.confirmInputs (d : Dev) (mask : Nat) (b : Bool) : Dev :=
  (List.range 8).foldl (fun d n => if mask.testBit n then d.flagging n (fun d => d.setInput n (fun i => { i with unconfirmed := b })) else d) d

/-- A commit whose polls are done (R277, R414). -/
def Dev.sheetConfirm (d : Dev) (b : Nat) (c : ShtCommit) : Dev :=
  let left := (c.stations.filter (fun s => !(s.2.1 && s.2.2 == some true))).length
  let d := if left = 0 then d.confirmInputs c.inputs false
    else (((d.confirmInputs c.inputs true).inc F.SHT_UNCONF_COUNT b 0 left).raise 35 (6 + b)).raise 5 7
  d.cueRecord c.entry c.axis c.compare c.time c.epoch c.clk c.repeats (if left ≠ 0 then 2 else if c.late then 1 else 0) left

/-- Write the records of commits that have every answer. -/
def Dev.sheetDone (d : Dev) (b : Nat) : Dev :=
  let ready (c : ShtCommit) := c.stations.all (fun s => s.2.2.isSome)
  let cs := (d.sheet b).commits
  (cs.filter ready).foldl (fun d c => d.sheetConfirm b c) (d.setSheet b (fun s => { s with commits := cs.filter (fun c => !(ready c)) }))

/-- A station's answer to the poll of a commit. -/
def Dev.pollAnswer (d : Dev) (b tag a : Nat) (ok : Bool) : Dev :=
  (d.setSheet b (fun s => { s with commits := s.commits.map (fun (c : ShtCommit) =>
    if c.tag = tag then { c with stations := c.stations.map (fun t => if t.1 = a then (t.1, t.2.1, some ok) else t) } else c) })).sheetDone b

/-! ## Sending -/

/-- The context record of the cycle in hand, once its READs are complete (R416). -/
def Dev.sheetContext (d : Dev) (b : Nat) : Dev :=
  let s := d.sheet b
  let reads (q : ShtReq) := q.poll.isSome
  match s.ctx with
  | some c =>
    if s.queue.any reads || (s.cur.map reads).getD false then d
    else
      let d := d.setSheet b (fun s => { s with ctx := none })
      if !(d.is F.SHT_CFG_CTX b) then d
      else
        let r := d.rd F.SHT_CFG_RING b
        let polls := (List.range 32).filter (fun k => (d.rd F.SHT_POLL_ENTRY b k).testBit 31)
        let stale := (List.range 32).foldl (fun m k => if s.stale.contains k then m + 2 ^ k else m) 0
        d.publishLoose r
          { type := 0x0C, source := 0xF3, flags := d.unitFlags, epoch := d.epoch, trig := 0, start := 16 * c, count := 0, time := d.now96,
            axisId := d.axisOf r, axis := d.axisValue (d.axisOf r), scale := 0,
            payload := leBytes 4 8192 ++ leBytes 1 b ++ leBytes 3 0 ++ leBytes 8 (d.rd F.SHT_CYCLE_NO_COUNT b) ++ leBytes 4 stale ++
              leBytes 4 (d.rd F.SHT_ABSENT_MASK b * 2) ++ polls.flatMap (fun k => (s.vals.getD k []).flatMap (leBytes 4)) } id
  | none => d

/-- A scan's PRESENCE round is over: one READ to each station that answered, then the round ends (R415). -/
def Dev.scanDone (d : Dev) (b : Nat) : Dev :=
  let s := d.sheet b
  let scans (q : ShtReq) := q.scan
  match s.scan with
  | some seen =>
    if s.queue.any scans || (s.cur.map scans).getD false then d
    else
      let d := d.setSheet b (fun s => { s with scan := none })
      let d := (d.wr F.SHT_PRESENT_MASK (seen / 2) b).inc F.SHT_STATUS_ROUND b
      (d.flag F.SHT_CMD_SCAN false b).raise 35 b
  | none => d

/-- Send the next frame of an enabled bus. An ABSENT station receives only PRESENCE (R413): other requests to it are void. -/
def Dev.sheetSend (d : Dev) (b : Nat) : Nat → Dev
  | 0 => d
  | k + 1 =>
    let s := d.sheet b
    if s.cur.isSome || !(d.is F.SHT_CFG_EN b) then d
    else match s.queue with
      | [] => d
      | q :: t =>
        let d := d.setSheet b (fun s => { s with queue := t })
        if d.station F.SHT_ABSENT_MASK b q.addr && q.op != 6 then
          (if q.op = 3 then d.pollAnswer b q.tag q.addr false
           else match q.poll with
             | some p => d.setSheet b (fun s => { s with stale := p :: s.stale.erase p })
             | none => d).sheetSend b k
        else (d.setSheet b (fun s => { s with cur := some q, since := d.clk })).send (.sheet b (sheetFrame q.addr q.op q.tag q.payload))
/-- Let the bus go on: the next frame, and what the end of a group of frames brings. -/
def Dev.sheetGo (d : Dev) (b : Nat) : Dev :=
  let d := d.sheetSend b ((d.sheet b).queue.length + 1)
  ((d.sheetContext b).scanDone b).sheetSend b ((d.sheet b).queue.length + 1)

/-- Put requests ahead of the cycle, after those already there (R413). -/
def Dev.sheetAhead (d : Dev) (b : Nat) (qs : List ShtReq) : Dev :=
  let ahead (q : ShtReq) := q.op == 2 || q.op == 4
  d.setSheet b (fun s => { s with queue := s.queue.takeWhile ahead ++ qs ++ s.queue.dropWhile ahead })
/-- A request. -/
def shtReq (addr op tag : Nat) (payload : List Byte) : ShtReq := ⟨addr, op, tag, payload, 0, none, false⟩

/-! ## Cues -/

/-- Stage a list for a SHEET_COMMIT cue: its new tag (R277, R414). -/
def Dev.sheetStage (d : Dev) (b l : Nat) : Dev × Nat :=
  let es := d.sheetList b l
  let tag := (d.sheet b).tag % 255 + 1
  let st := listStations es
  let d := d.setSheet b (fun s => { s with tag := tag, stages := s.stages ++ [⟨tag, st.map (fun a => (a, false))⟩] })
  ((d.sheetAhead b (st.map (fun a => shtReq a 2 tag (listPayload es a)))).sheetGo b, tag)

/-- An abandoned SHEET_COMMIT (R274, R277): DISCARD to every station a STAGE was sent to; STAGE frames not yet sent are dropped. -/
def Dev.sheetDiscard (d : Dev) (b tag : Nat) : Dev :=
  let s := d.sheet b
  match s.stages.find? (fun (g : ShtStage) => g.tag == tag) with
  | none => d
  | some g =>
    let unsent (a : Nat) := s.queue.any (fun (q : ShtReq) => q.op == 2 && q.tag == tag && q.addr == a)
    let sent := (g.stations.map (·.1)).filter (fun a => !(unsent a))
    let d := d.setSheet b (fun s => { s with stages := s.stages.filter (fun (g : ShtStage) => g.tag != tag),
                                             queue := s.queue.filter (fun (q : ShtReq) => !(q.op == 2 && q.tag == tag)) })
    (d.sheetAhead b (sent.map (fun a => shtReq a 4 tag []))).sheetGo b

/-- The commit (R277, R414): the strobe at the crossing, inputs named carry FRONTEND_UNCONFIRMED at once where a station has not acknowledged,
and the polls join the next cycle. A list without stations is done at once. -/
def Dev.sheetStrobe (d : Dev) (b : Nat) (stations : List (Nat × Bool)) (c : ShtCommit) : Dev :=
  let d := if d.is F.SHT_CFG_EN b then d.send (.strobe b c.time) else d
  let c := { c with stations := stations.map (fun s => (s.1, s.2, none)) }
  let d := d.setSheet b (fun s => { s with commits := s.commits ++ [c], stages := s.stages.filter (fun (g : ShtStage) => g.tag != c.tag) })
  (if stations.all (·.2) then d else d.confirmInputs c.inputs true).sheetDone b

/-! ## Cycles and answers -/

/-- A sheet cycle begins (R413): READs, due WRITEs, COMMIT polls. -/
def Dev.sheetCycle (d : Dev) (b : Nat) : Dev :=
  if !(d.is F.SHT_CFG_EN b) then d
  else
    let d := match (d.sheet b).cycle with
      | some t => d.advanceTo (t + max 10 (d.rd F.SHT_CFG_CYCLE_US b) * 1000)
      | none => d
    let s := d.sheet b
    let reads := ((List.range 32).filterMap (fun k =>
      let w := d.rd F.SHT_POLL_ENTRY b k
      if w.testBit 31 && decide (1 ≤ bits w 0 5 ∧ 1 ≤ bits w 24 4) then
        some { shtReq (bits w 0 5) 1 0 (leBytes 2 (bits w 8 16) ++ leBytes 1 (bits w 24 4)) with poll := some k } else none))
    let writes := s.lists.flatMap (fun l => let es := d.sheetList b l; (listStations es).map (fun a => shtReq a 5 0 (listPayload es a)))
    let polls := s.commits.flatMap (fun c => (c.stations.filter (fun t => t.2.2.isNone && !(s.queue.any (fun (q : ShtReq) => q.op == 3 && q.tag == c.tag && q.addr == t.1)) &&
      !((s.cur.map (fun (q : ShtReq) => q.op == 3 && q.tag == c.tag && q.addr == t.1)).getD false))).map (fun t => shtReq t.1 3 c.tag []))
    let d := d.setSheet b (fun s => { s with queue := s.queue ++ reads ++ writes ++ polls, lists := [], cycle := some d.clk, ctx := some d.clk, stale := [] })
    (d.inc F.SHT_CYCLE_NO_COUNT b).sheetGo b

/-- A station becomes ABSENT (R413): its staged sets and queued requests are void, its polled words are kept and stale. -/
def Dev.stationLost (d : Dev) (b a : Nat) (absent : Bool) : Dev :=
  let s := d.sheet b
  let polls := (s.queue.filter (fun (q : ShtReq) => q.addr == a && q.op == 3)).map (·.tag)
  let stale := (s.queue.filter (fun (q : ShtReq) => q.addr == a)).filterMap (·.poll)
  let d := d.setSheet b (fun s => { s with
    queue := s.queue.filter (fun (q : ShtReq) => !(q.addr == a && q.op != 6)),
    stages := s.stages.map (fun (g : ShtStage) => { g with stations := g.stations.map (fun t => if t.1 = a then (a, false) else t) }),
    stale := stale ++ s.stale })
  let d := if absent then (d.setStation F.SHT_ABSENT_MASK b a true).raise 35 (4 + b) else d
  polls.foldl (fun d t => d.pollAnswer b t a false) d

/-- The request in hand fails for good. A scan finds nothing at an address that answered no earlier scan. -/
def Dev.sheetFail (d : Dev) (b : Nat) (q : ShtReq) : Dev :=
  let d := d.setSheet b (fun s => { s with cur := none })
  let d := if q.op = 3 then d.pollAnswer b q.tag q.addr false else match q.poll with
    | some k => d.setSheet b (fun s => { s with stale := k :: s.stale.erase k })
    | none => d
  let d := if q.scan && q.op == 1 then d.setStation F.SHT_VANISHED_MASK b q.addr true else d
  if q.op = 6 ∧ !(d.station F.SHT_PRESENT_MASK b q.addr) then d
  else if d.station F.SHT_ABSENT_MASK b q.addr then d
  else d.stationLost b q.addr true

/-- After the last PRESENCE of a scan, one READ of register 0 to each station that answered (R415). -/
def Dev.scanReads (d : Dev) (b : Nat) (q : ShtReq) : Dev :=
  let s := d.sheet b
  if q.scan && q.op == 6 && !(s.queue.any (fun (r : ShtReq) => r.scan && r.op == 6)) then
    let seen := s.scan.getD 0
    d.setSheet b (fun s => { s with queue := s.queue ++ ((List.range 32).filter seen.testBit).map (fun a => { shtReq a 1 0 [0, 0, 1] with scan := true }) })
  else d

/-- Try the request in hand again, at most twice (R413). -/
def Dev.sheetRetry (d : Dev) (b : Nat) : Dev :=
  match (d.sheet b).cur with
  | none => d
  | some q =>
    if q.tries < 2 then
      ((d.inc F.SHT_RETRY_COUNT b).setSheet b (fun s => { s with cur := some { q with tries := q.tries + 1 }, since := d.clk })).send
        (.sheet b (sheetFrame q.addr q.op q.tag q.payload))
    else ((d.sheetFail b q).scanReads b q).sheetGo b

/-- No reply: 20 µs after the end of the request (R411, R413). -/
def Dev.sheetTimeout (d : Dev) (b : Nat) : Dev :=
  match (d.sheet b).cur with
  | none => d
  | some q => (d.advanceTo ((d.sheet b).since + (6 + q.payload.length) * 400 + 20000)).sheetRetry b

/-- The words of a READ reply. -/
def sheetWords : List Byte → List Nat
  | a :: b :: c :: e :: t => leNat [a, b, c, e] :: sheetWords t
  | _ => []

/-- A good reply to the request in hand (R412). -/
def Dev.sheetAnswer (d : Dev) (b : Nat) (q : ShtReq) (pl : List Byte) : Dev :=
  let ok := leNat (pl.take 1) == 0
  let d := d.setSheet b (fun s => { s with cur := none })
  if q.op = 6 then
    -- A scan found the station: it is no longer ABSENT.
    let d := d.setStation F.SHT_ABSENT_MASK b q.addr false
    d.setSheet b (fun s => { s with scan := s.scan.map (fun m => m ||| 2 ^ q.addr) })
  else if q.op = 2 then
    if ok then d.setSheet b (fun s => { s with stages := s.stages.map (fun (g : ShtStage) =>
      if g.tag = q.tag then { g with stations := g.stations.map (fun t => if t.1 = q.addr then (t.1, true) else t) } else g) }) else d
  else if q.op = 3 then d.pollAnswer b q.tag q.addr ok
  else match q.poll with
    | some k => if ok then d.setSheet b (fun s => { s with vals := s.vals.put k (sheetWords (pl.drop 1)), stale := s.stale.erase k })
        else d.setSheet b (fun s => { s with stale := k :: s.stale.erase k })
    | none => d

/-- A PRESENCE answer outside its turn, while a scan runs and after its address was visited: a station arrived (R415). -/
def Dev.stationArrived (d : Dev) (b a op : Nat) : Dev :=
  let s := d.sheet b
  let later := s.queue.any (fun (q : ShtReq) => q.scan && q.op == 6 && q.addr == a)
  if op = 0x86 ∧ 1 ≤ a ∧ a ≤ 31 ∧ s.scan.isSome ∧ !later ∧ !((s.scan.getD 0).testBit a) then
    (d.setStation F.SHT_ARRIVED_MASK b a true).raise 35 (2 + b)
  else d

/-- A reply frame arrives (R412, R413): one that fails its check is an error and a retry; one that no request awaits may show an arrival. -/
def Dev.sheetReply (d : Dev) (b : Nat) (f : List Byte) : Dev :=
  match sheetParse f, (d.sheet b).cur with
  | none, none => d
  | none, some _ => ((d.inc F.SHT_CRC_ERR_COUNT b).raise 35 (8 + b)).sheetRetry b
  | some (a, op, tag, pl), some q =>
    if a = q.addr ∧ op = q.op + 128 ∧ tag = q.tag then ((d.sheetAnswer b q pl).scanReads b q).sheetGo b else d.stationArrived b a op
  | some (a, op, _, _), none => d.stationArrived b a op

/-- SCAN (R415): PRESENCE to every address in order. A scan in progress goes on. -/
def Dev.sheetScan (d : Dev) (b : Nat) : Dev :=
  if (d.sheet b).scan.isSome then d
  else
    let d := (d.wr F.SHT_VANISHED_MASK 0 b).flag F.SHT_CMD_SCAN true b
    (d.setSheet b (fun s => { s with scan := some 0, queue := s.queue ++ (List.range 31).map (fun k => { shtReq (k + 1) 6 0 [] with scan := true }) })).sheetGo b

/-! ## Meanings -/

/-- A sheet cycle of bus b begins (R413). -/
def execSheetCycle (b : Fin 2) (s : State) := lift (fun d => d.sheetCycle b) s
/-- A reply frame arrives on bus b (R412). -/
def execSheetReply (b : Fin 2) (frame : List Byte) (s : State) := lift (fun d => d.sheetReply b frame) s
/-- The reply to bus b's request does not come (R413). -/
def execSheetReplyTimeout (b : Fin 2) (s : State) := lift (fun d => d.sheetTimeout b) s
/-- Write SCAN of bus b (R415). -/
def execShtScan (b : Fin 2) (s : State) := host (0x3C0004 + b.val * 0x2000) (fun d => d.sheetScan b) s
/-- Write `SHT_DIRECT` of bus b (R413). -/
def execShtDirect (b : Fin 2) (l : Fin 64) (s : State) := host (0x3C0028 + b.val * 0x2000) (fun d => d.setSheet b (fun h => { h with lists := h.lists ++ [l.val] })) s

end Sys2Proof.Machine
end

