-- ==== Sys2Proof/Machine/Axis.lean ====
section
/-! DEFINITION. Axes AX1–AX3 and what they do to cues (R260–R267, R274, spec/10_axis.md): edges, velocity, jumps, crossings seen, abandons.
Arming, preparation and commits stand in `Cues`. -/
namespace Sys2Proof.Machine

/-- Change an axis. -/
def Dev.setAxis (d : Dev) (a : Nat) (f : Axis → Axis) : Dev := { d with axes := d.axes.put a (f (d.axis a)) }
/-- `AXS_AX_STATUS.STATE`: 0 OFF, 1 RUNNING, 2 ACQUIRE, 3 LOCKED, 4 HOLDOVER, 5 FAULT. AX0 always runs (R261). -/
def Dev.axisState (d : Dev) (a : Nat) : Nat := if a = 0 then 1 else d.rd F.AXS_AX_STATUS_STATE a
/-- The live value as a number: AX1 and AX2 are signed (R260). -/
def Dev.axisLive (d : Dev) (a : Nat) : Int := if a = 1 ∨ a = 2 then signed 64 (d.axisValue a) else d.axisValue a

/-! ## Cue entries -/

/-- Word k of cue entry e (R268). -/
def Dev.cueWord (d : Dev) (e k : Nat) : Nat := d.rd F.CUE_ENTRY_WORD e k
/-- COMPARE as its 64 bits. -/
def Dev.cueCompare64 (d : Dev) (e : Nat) : Nat := d.cueWord e 0 + d.cueWord e 1 * 2 ^ 32
def Dev.cueAction (d : Dev) (e : Nat) : Nat := bits (d.cueWord e 2) 0 8
def Dev.cueGroup (d : Dev) (e : Nat) : Nat := bits (d.cueWord e 2) 8 8
def Dev.cueAxis (d : Dev) (e : Nat) : Nat := bits (d.cueWord e 2) 16 2
/-- DIR: 0 up, 1 down, 2 either; an AX0 cue takes up (R271). -/
def Dev.cueDir (d : Dev) (e : Nat) : Nat := if d.cueAxis e = 0 then 0 else bits (d.cueWord e 2) 18 2
/-- COMPARE as a number of its axis. -/
def Dev.cueCompare (d : Dev) (e : Nat) : Int :=
  if d.cueAxis e = 1 ∨ d.cueAxis e = 2 then signed 64 (d.cueCompare64 e) else d.cueCompare64 e
/-- State of an entry: 0 IDLE, 1 WAITING, 2 PREPARED, 3 DONE, 4 MISSED, 5 FAILED. -/
def Dev.cueState (d : Dev) (e : Nat) : Nat := bits (d.rd F.CUE_STATE_STATES (e / 8)) (4 * (e % 8)) 4
/-- Set it, and the counts of `CUE_STATUS`. -/
def Dev.setCueState (d : Dev) (e st : Nat) : Dev :=
  let off := F.CUE_STATE_STATES.at_ (e / 8) 0
  let d := d.setReg off ((d.reg off).setField (4 * (e % 8)) 4 st)
  (d.wr F.CUE_STATUS_PREPARED (d.cues.armed.cells.countP (fun p => d.cueState p.1 == 2))).wr F.CUE_STATUS_ARMED d.cues.armed.cells.length
/-- The cue of an armed entry. -/
def Dev.cue (d : Dev) (e : Nat) : Cue := d.cues.armed.getD e ⟨false, false, none, false, 0, 0, 0, false, false, false⟩
/-- Change it. -/
def Dev.setCue (d : Dev) (e : Nat) (f : Cue → Cue) : Dev :=
  if (d.cues.armed.get? e).isSome then { d with cues := { d.cues with armed := d.cues.armed.put e (f (d.cue e)) } } else d
/-- An entry is no longer armed and shows this state. -/
def Dev.endCue (d : Dev) (e st : Nat) : Dev :=
  let off := F.CUE_ENTRY_WORD.at_ e 2
  let d := d.setReg off ((d.reg off).setField 20 1 0)
  { d with cues := { d.cues with armed := d.cues.armed.erase e } }.setCueState e st
/-- FAILED with a code of `CUE_ERR` (R272). -/
def Dev.failCue (d : Dev) (e code : Nat) : Dev :=
  ((((d.endCue e 5).wr F.CUE_ERR_ENTRY e).wr F.CUE_ERR_CODE code).mark F.CUE_ERR_VALID).raise 5 3
/-- MISSED (R272). -/
def Dev.missCue (d : Dev) (e : Nat) : Dev := ((d.endCue e 4).inc F.CUE_MISSED_COUNT).raise 5 2

/-- Latch banks taken: reserved by prepared cues, or latched and not yet written (R280). -/
def Dev.banksUsed (d : Dev) : Nat := d.cues.snaps.length + d.cues.armed.cells.countP (fun p => p.2.bank)
/-- A prepared SNAPSHOT that waits for a bank takes one that is free, in ascending entry order. -/
def Dev.giveBanks (d : Dev) : Dev :=
  d.cues.armed.cells.foldl (fun d p =>
    if d.cueState p.1 == 2 && d.cueAction p.1 == 8 && !((d.cue p.1).bank) && decide (d.banksUsed < 2) then
      d.setCue p.1 (fun c => { c with bank := true }) else d) d

/-- Abandon a PREPARED cue (R273, R274): its shadows go, a bank is released, DISCARD is sent; it waits again. A crossing of the same clock wins (R272). -/
def Dev.abandon (d : Dev) (e cause : Nat) : Dev :=
  if d.cueState e ≠ 2 ∨ (d.cue e).cross.isSome then d
  else
    let d := if d.cueAction e = 6 then d.sheetDiscard (bits (d.cueWord e 6) 0 1) (d.cue e).tag else d
    let d := (d.setCue e (fun c => { c with bank := false, lost := false })).setCueState e 1
    let d := ((d.inc F.CUE_ABANDON_COUNT).wr F.CUE_ABANDON_LAST_ENTRY e).wr F.CUE_ABANDON_LAST_CAUSE cause
    let d := if (d.cueWord e 2).testBit 22 then (d.wr F.CUE_EVT_ENTRY_ABANDON e).raise 5 1 else d
    d.giveBanks

/-- Armed entries of an axis, ascending. -/
def Dev.cuesOn (d : Dev) (a : Nat) : List Nat := (d.cues.armed.cells.map (·.1)).filter (fun e => d.cueAxis e == a)

/-- Whether COMPARE lies behind the live value in the cue's direction (R265, R271): on an axis that only rises, reaching it already counts. -/
def Dev.cueBehind (d : Dev) (e : Nat) : Bool :=
  let a := d.cueAxis e
  let live := d.axisLive a
  let c := d.cueCompare e
  match d.cueDir e with
  | 0 => if a = 0 ∨ a = 3 then decide (c ≤ live) else decide (c < live)
  | 1 => decide (live < c)
  | _ => false

/-- The sides of COMPARE on which the live value stands now. -/
def Dev.cueSides (d : Dev) (e : Nat) : Dev :=
  let live := d.axisLive (d.cueAxis e)
  d.setCue e (fun c => { c with low := decide (live < d.cueCompare e), high := decide (d.cueCompare e < live) })

/-- A jump of axis a (R265). -/
def Dev.jump (d : Dev) (a : Nat) : Dev :=
  ((d.cuesOn a).foldl (fun d e =>
    let d := d.abandon e 4
    if (d.cue e).cross.isSome then d else if d.cueBehind e then d.missCue e else d.cueSides e) d).raise 4 9

/-- Look at one cue after its axis moved, at local time `t`: a crossing is noted (R271); short of it, a PREPARED cue whose axis turned back
by more than its hysteresis is abandoned (R273). -/
def Dev.lookCue (d : Dev) (e t : Nat) : Dev :=
  let c := d.cue e
  let live := d.axisLive (d.cueAxis e)
  let cmp := d.cueCompare e
  let dir := d.cueDir e
  if c.cross.isSome then d
  else
    let up := dir != 1 && c.low && decide (cmp ≤ live)
    let dn := dir != 0 && c.high && decide (live ≤ cmp)
    if d.is F.CUE_CTRL_EN && (up || dn) then (d.setCue e (fun c => { c with cross := some (t, d.clk, !up) })).cueSides e
    else
      let d := d.setCue e (fun c => { c with low := c.low || decide (live < cmp), high := c.high || decide (cmp < live) })
      if d.cueState e ≠ 2 then d
      else
        let far := if c.far < cmp then max c.far live else min c.far live
        let back : Int := ((d.cueWord e 4) % 65536 : Nat) * 65536
        let d := d.setCue e (fun c => { c with far := far })
        if back < (far - live).natAbs then d.abandon e 0 else d
/-- Look at every cue of an axis. -/
def Dev.lookCues (d : Dev) (a t : Nat) : Dev := (d.cuesOn a).foldl (fun d e => d.lookCue e t) d

/-! ## Encoder axes -/

/-- `2^-64 ns` in nanoseconds. -/
def nsUnit : Nat := 2 ^ 64

/-- An edge of an event input that serves an encoder axis joins its way into the axis (R260, R263). -/
def Dev.axisEdge (d : Dev) (n : Nat) (up : Bool) (time : Nat) : Dev :=
  let a := if n < 3 then 1 else 2
  let line := if n < 3 then n else n - 4
  if n < 3 ∨ (4 ≤ n ∧ n < 7) then
    if d.axisState a = 1 then d.setAxis a (fun x => { x with queue := x.queue ++ [⟨line, up, time, d.clk⟩] })
    else if line = 0 then d.setAxis a (fun x => { x with a := up })
    else if line = 1 then d.setAxis a (fun x => { x with b := up }) else d
  else d

/-- Velocity and period of an encoder axis from its entered edges (R263): the mean over the last 2^PRED_LOG2 of them. -/
def Axis.velocity (x : Axis) (n : Nat) : Int × Nat :=
  let m := min n (x.edges.length - 1)
  let net : Int := (x.edges.take m).foldl (fun s e => if e.2 then s + 1 else s - 1) 0
  match x.edges.head?, x.edges[m]? with
  | some t0, some tm => (net, t0.1 - tm.1)
  | _, _ => (0, 0)

/-- The edge is a count in this direction: position, edges, direction, velocity, overspeed (R262, R263). -/
def Dev.count (d : Dev) (a : Nat) (up : Bool) (t : Nat) : Dev :=
  let x := d.axis a
  let same := match x.edges with | (_, u) :: _ => u == up | [] => false
  let gap := match x.edges with | (t0, _) :: _ => some (t - t0) | [] => none
  let d := d.setAxis a (fun x => { x with pos := if up then x.pos + 65536 else x.pos - 65536, edges := ((t, up) :: x.edges).take 257,
                                          inDir := if same then x.inDir + 1 else 1 })
  let d := d.flag F.AXS_AX_STATUS_DIR (!up) a
  let d := match gap with
    | some g =>
      let d := d.wr F.AXS_AX_PERIOD_NS (min (2 ^ 32 - 1) (g / nsUnit)) a
      if g < 20 * nsUnit then (d.mark F.AXS_AX_STATUS_OVERSPEED a).raise 4 a else d
    | none => d
  let v := (d.axis a).velocity (2 ^ min 8 (d.rd F.AXS_AX_CFG_PRED_LOG2 a))
  d.wr F.AXS_AX_VEL_VEL (unsigned 32 (if v.2 = 0 then 0 else (v.1 * (1000000000 * nsUnit : Nat)).tdiv v.2)) a

/-- Set the level of a line. -/
def Axis.setLine (x : Axis) (line : Nat) (up : Bool) : Axis := if line = 0 then { x with a := up } else { x with b := up }

/-- The next edge enters its axis, 24 ns after its stamp (R262, R263). Two edges of A and B within one dead time (2 ns) are an illegal
transition and both leave the position as it was. A leading B counts up. -/
def Dev.encoderEntry (d : Dev) (a : Nat) : Dev :=
  let q := (d.axis a).queue.filter (fun x => x.line != 2)
  match q with
  | [] => d
  | f :: rest =>
    let d := d.advanceTo (f.clk + 24)
    let drop (d : Dev) (g : EncEdge) := d.setAxis a (fun x => ({ x with queue := x.queue.erase g, lastLine := x.lastLine.put g.line g.time }).setLine g.line g.up)
    let last := (d.axis a).lastLine.get? f.line
    let inv := d.is F.AXS_AX_CFG_INV a
    let t := f.time + 24 * nsUnit
    let glitch := match last with
      | some l => decide (f.time - l < d.rd F.AXS_AX_CFG_FILTER a * nsUnit)
      | none => false
    if glitch then (drop d f).inc F.AXS_AX_ERR_GLITCH a
    else if d.is F.AXS_AX_CFG_MODE a then
      let d := drop d f
      if f.line = 0 ∧ f.up then (d.count a ((d.axis a).b != inv) t).lookCues a t else d
    else
      match rest with
      | g :: _ =>
        if g.line ≠ f.line ∧ g.time - f.time < 2 * nsUnit then ((drop (drop d f) g).inc F.AXS_AX_ERR_ILLEGAL a).raise 4 a
        else let up := (if f.line = 0 then f.up != (d.axis a).b else f.up == (d.axis a).a) != inv
             ((drop d f).count a up t).lookCues a t
      | [] =>
        let up := (if f.line = 0 then f.up != (d.axis a).b else f.up == (d.axis a).a) != inv
        ((drop d f).count a up t).lookCues a t

/-- An index edge of axis 1 or 2 enters (R264): rising edges count. -/
def Dev.indexEdge (d : Dev) (a : Nat) : Dev :=
  match (d.axis a).queue.find? (fun x => x.line == 2) with
  | none => d
  | some f =>
    let d := (d.advanceTo (f.clk + 24)).setAxis a (fun x => { x with queue := x.queue.erase f })
    if !f.up then d
    else
      let d := d.lookCues a (f.time + 24 * nsUnit)
      let d := if d.is F.AXS_AX_CFG_INDEX_EN a then (d.setWide F.AXS_AX_IDX_LO_IDX (d.axisValue a) a).raise 4 (3 + a) else d
      if d.is F.AXS_AX_CMD_HOME a then
        let home := d.rd F.AXS_AX_HOME_LO_HOME a + d.rd F.AXS_AX_HOME_HI_HOME a * 2 ^ 32
        ((d.setAxis a (fun x => { x with pos := signed 64 home, inDir := 0 })).flag F.AXS_AX_CMD_HOME false a).jump a
      else d

/-! ## AX3 -/

/-- The loop leaves LOCKED and HOLDOVER: its PREPARED cues are abandoned (R273). -/
def Dev.ax3Out (d : Dev) (st : Nat) : Dev := (d.cuesOn 3).foldl (fun d e => d.abandon e 6) (d.wr F.AXS_AX_STATUS_STATE st 3)

/-- The frequency the AX3 loop goes on at after an edge of state `st`, `dt` after the last (R266): it coasts in HOLDOVER, and after that its phase
moves towards the edges by at most 2^-12 cycle in each. -/
def Axis.steer (x : Axis) (st dt mHz : Nat) : Nat :=
  if st = 4 then x.mHz
  else if x.slewing ∧ dt ≠ 0 then
    let f := 10 ^ 12 * nsUnit / dt
    max (f - f / 4096) (min (f + f / 4096) mHz)
  else mHz
/-- An edge of the AX3 input (R266). The spec gives the loop's order and time constant but not its filter, so the frequency it takes is the
operand's (log entry 12). The first edge after enabling is cycle 0 with phase PHOFF; afterwards the value runs on without a step. -/
def Dev.ax3Edge (d : Dev) (mHz : Nat) : Dev :=
  if d.axisState 3 = 0 ∨ d.axisState 3 = 5 then d
  else
    let now := d.localTime
    let off := d.rd F.AXS_AX_PHOFF_PHOFF 3
    let live := if (d.axis 3).seen then (d.axis 3).phase now else off
    let cyc := (live + 2 ^ 64 - off + 2 ^ 31) / 2 ^ 32 * 2 ^ 32
    let err : Int := signed 64 ((live + 2 ^ 65 - off - cyc) % 2 ^ 64)
    let within (w : Nat) := decide (err.natAbs ≤ w * 2 ^ 20)
    let d := d.setAxis 3 (fun x => { x with
      ref := now, val := live, mHz := x.steer (d.axisState 3) (now - x.ref) mHz, seen := true
      slewing := x.slewing && decide (2 ^ 20 < err.natAbs)
      inside := if within (max 1 (min 64 (d.rd F.AXS_AX_LOCK_WINDOW 3))) then x.inside + 1 else 0
      outside := if within (max 2 (d.rd F.AXS_AX_LOSS_UNLOCK 3)) then 0 else x.outside + 1 })
    let f := (d.axis 3).mHz
    let d := ((d.wr F.AXS_AX_EVT_PHERR (unsigned 16 (err / (2 ^ 20 : Nat))) 3).wr F.AXS_AX_VEL_VEL (min (2 ^ 32 - 1) f) 3).wr F.AXS_AX_PERIOD_NS
      (min (2 ^ 32 - 1) (10 ^ 12 / max 1 f)) 3
    if mHz < 1000 ∨ 10 ^ 9 < mHz then (d.ax3Out 5).raise 4 3 else d.lookCues 3 now
/-- The loop enters a state and counts anew. -/
def Dev.ax3Enter (d : Dev) (st : Nat) : Dev := (d.setAxis 3 (fun x => { x with inside := 0, outside := 0 })).wr F.AXS_AX_STATUS_STATE st 3
/-- The loop locks when its last CYCLES input cycles lay inside the window (R125, R266). -/
def Dev.ax3Lock (d : Dev) : Dev :=
  if (d.axisState 3 = 2 ∨ d.axisState 3 = 4) ∧ max 16 (d.rd F.AXS_AX_LOCK_CYCLES 3) ≤ (d.axis 3).inside then
    ((d.setAxis 3 (fun x => { x with slewing := d.axisState 3 == 4 })).ax3Enter 3).raise 4 8 else d
/-- It loses lock (R125, R266) after CYCLES input cycles outside UNLOCK, else when as many edges are missing: it coasts. -/
def Dev.ax3Loss (d : Dev) : Dev :=
  if d.axisState 3 ≠ 3 then d
  else
    let n := max 1 (d.rd F.AXS_AX_LOSS_CYCLES 3)
    let x := d.axis 3
    let d := if n ≤ x.outside then d else d.advance ((x.ref + n * 10 ^ 12 * nsUnit / max 1 x.mHz - d.localTime + d.cycle - 1) / max 1 d.cycle)
    (d.ax3Enter 4).raise 4 3

/-- A write of `AXS_AX_CFG` (R262, R266). Re-enabling AX3 is a restart. -/
def Dev.axisEnable (d : Dev) (a : Nat) (v : Word) : Dev :=
  if a = 0 then d
  else
    let was := d.is F.AXS_AX_CFG_EN a
    let again := (d.axes.get? 3).isSome
    let d := d.plainWrite (0x80100 + a * 64) v
    let on := d.is F.AXS_AX_CFG_EN a
    if on = was then d
    else if a = 3 then
      if on then
        let d := (d.setAxis 3 (fun x => { x with seen := false, slewing := false, val := 0, mHz := 0, ref := d.localTime, inside := 0, outside := 0 })).wr F.AXS_AX_STATUS_STATE 2 3
        if again then d.jump 3 else d
      else (d.setAxis 3 (fun x => { x with val := x.phase d.localTime, ref := d.localTime, mHz := 0 })).ax3Out 0
    else (d.setAxis a (fun x => { x with edges := [], inDir := 0, queue := [] })).wr F.AXS_AX_STATUS_STATE (if on then 1 else 0) a

/-! ## Meanings -/

/-- Write `AXS_AX_CFG` of axis a (R266). -/
def execAxisEnable (a : Fin 4) (v : Word) (s : State) := host (0x80100 + a.val * 64) (fun d => d.axisEnable a v) s
/-- The next encoder edge enters axis a + 1 (R263). -/
def execEncoderEdgeEntry (a : Fin 2) (s : State) := lift (fun d => d.encoderEntry (a.val + 1)) s
/-- An index edge enters axis a + 1 (R264). -/
def execIndexEdge (a : Fin 2) (s : State) := lift (fun d => d.indexEdge (a.val + 1)) s
/-- Write HOME to `AXS_AX_CMD` of axis a + 1 (R264). -/
def execHome (a : Fin 2) (s : State) := host (0x8011C + (a.val + 1) * 64) (fun d => d.flag F.AXS_AX_CMD_HOME true (a.val + 1)) s
/-- An edge of the AX3 input; the loop goes on at this frequency (R266). -/
def execAx3Edge (mHz : Nat) (s : State) := lift (fun d => d.ax3Edge mHz) s
/-- The AX3 loop locks (R266). -/
def execAx3Lock (s : State) := lift Dev.ax3Lock s
/-- The AX3 loop loses lock (R266). -/
def execAx3Loss (s : State) := lift Dev.ax3Loss s

end Sys2Proof.Machine
end

