-- ==== Sys2Proof/Machine/Crypto.lean ====
section
/-! DEFINITION. The published algorithms the spec names: SHA-384 and ECDSA P-384 (R51, R53, R480), AES with CMAC (R392) and the key wrap of
RFC 3394 (R481). -/
namespace Sys2Proof.Machine

/-! ## SHA-384 -/

/-- ⌊(m)^(1/e)⌋ below `r` + 2^k, found bit by bit. -/
def rootBits (e m : Nat) : Nat → Nat → Nat
  | 0, r => r
  | k + 1, r => rootBits e m k (if (r + 2 ^ k) ^ e ≤ m then r + 2 ^ k else r)
/-- Whether a number from 2 on has no divisor but 1 and itself. -/
def primeTest (n : Nat) : Bool := (List.range (n - 2)).all (fun k => n % (k + 2) != 0)
/-- The first 80 primes: the last is 409. -/
def firstPrimes : List Nat := (List.range 408).filterMap (fun k => if primeTest (k + 2) then some (k + 2) else none)
/-- The 80 round constants: 64 bits of the fraction of each prime's cube root. -/
def shaConstants : List Nat := firstPrimes.map (fun p => rootBits 3 (p * 2 ^ 192) 67 0 % 2 ^ 64)
/-- The initial hash value of SHA-384: the same of the square roots of the 9th to 16th primes. -/
def shaStart : List Nat := ((firstPrimes.drop 8).take 8).map (fun p => rootBits 2 (p * 2 ^ 128) 67 0 % 2 ^ 64)

/-- Exclusive or of right rotations of a 64-bit word. -/
def xorTurns (x : Nat) : List Nat → Nat
  | [] => 0
  | n :: t => (x / 2 ^ n + x % 2 ^ n * 2 ^ (64 - n)) ^^^ xorTurns x t
/-- The message schedule, newest word first, extended by `n` words. -/
def shaSchedule : Nat → List Nat → List Nat
  | 0, w => w
  | n + 1, w =>
    let near := w.getD 1 0
    let far := w.getD 14 0
    let mixed := (xorTurns near [19, 61] ^^^ near / 2 ^ 6) + (xorTurns far [1, 8] ^^^ far / 2 ^ 7)
    shaSchedule n ((mixed + w.getD 6 0 + w.getD 15 0) % 2 ^ 64 :: w)
/-- One round, the working words being the last four of two sequences, newest first: `x` is a round constant plus a schedule word. -/
def shaRound (p : List Nat × List Nat) (x : Nat) : List Nat × List Nat :=
  let a (k : Nat) := p.1.getD k 0
  let e (k : Nat) := p.2.getD k 0
  let choose := e 2 ^^^ (e 0 &&& (e 1 ^^^ e 2))
  let most := (a 0 &&& (a 1 ||| a 2)) ||| (a 1 &&& a 2)
  let t := e 3 + xorTurns (e 0) [14, 18, 41] + choose + x
  ((t + xorTurns (a 0) [28, 34, 39] + most) % 2 ^ 64 :: p.1.take 3, (a 3 + t) % 2 ^ 64 :: p.2.take 3)
/-- One 128-byte block. -/
def shaBlock (h : List Nat) (blk : List Byte) : List Nat :=
  let first := (List.range 16).map (fun i => beNat ((blk.drop (8 * i)).take 8))
  let xs := (shaConstants.zip (shaSchedule 64 first.reverse).reverse).map (fun p => p.1 + p.2)
  let r := xs.foldl shaRound (h.take 4, h.drop 4)
  (h.zip (r.1 ++ r.2)).map (fun p => (p.1 + p.2) % 2 ^ 64)
/-- All blocks of a padded message. -/
def shaBlocks : Nat → List Nat → List Byte → List Nat
  | 0, h, _ => h
  | n + 1, h, m => shaBlocks n (shaBlock h (m.take 128)) (m.drop 128)
/-- SHA-384 of a message: 48 bytes. -/
def sha384 (m : List Byte) : List Byte :=
  let n := m.length
  let total := roundUp (n + 17) 128
  let padded := m ++ [0x80] ++ List.replicate (total - n - 17) 0 ++ beBytes 16 (8 * n)
  ((shaBlocks (total / 128) shaStart padded).take 6).flatMap (beBytes 8)

/-! ## ECDSA P-384 -/

/-- The field prime. -/
def p384P : Nat := 2 ^ 384 - 2 ^ 128 - 2 ^ 96 + 2 ^ 32 - 1
/-- The group order. -/
def p384N : Nat := 0xffffffffffffffffffffffffffffffffffffffffffffffffc7634d81f4372ddf581a0db248b0a77aecec196accc52973
/-- The curve coefficient b. -/
def p384B : Nat := 0xb3312fa7e23ee7e4988e056be3f82d19181d9c6efe8141120314088f5013875ac656398d8a2ed19d2a85c8edd3ec2aef
/-- The base point. -/
def p384G : Nat × Nat :=
  (0xaa87ca22be8b05378eb1c71ef320ad746e1d3b628ba79b9859f741e082542a385502f25dbf55296c3a545e3872760ab7,
   0x3617de4a96262c6f5d9e98bf9292dc29f8f41dbd289a147ce9da3113b5f0b8c00a60b1ce1d7e819d7a431d7c90ea0e5f)
/-- b ^ e mod m, by the bits of e below 2^n. -/
def powModBits (b e m : Nat) : Nat → Nat
  | 0 => 1 % m
  | n + 1 =>
    let h := powModBits b (e / 2) m n
    if e % 2 = 1 then h * h % m * b % m else h * h % m
/-- Inverse modulo a prime below 2^384. -/
def invMod (a m : Nat) : Nat := powModBits a (m - 2) m 384
/-- Sum of two curve points; none is the point at infinity. -/
def p384Add (a b : Option (Nat × Nat)) : Option (Nat × Nat) :=
  match a, b with
  | none, q => q
  | q, none => q
  | some (x1, y1), some (x2, y2) =>
    if x1 = x2 ∧ (y1 + y2) % p384P = 0 then none
    else
      let l := if x1 = x2 then (3 * x1 * x1 + (p384P - 3)) * invMod (2 * y1 % p384P) p384P % p384P
        else (y2 + p384P - y1) * invMod ((x2 + p384P - x1) % p384P) p384P % p384P
      let x := (l * l + 2 * p384P - x1 - x2) % p384P
      some (x, (l * (x1 + p384P - x) + p384P - y1) % p384P)
/-- k times a point, by the bits of k below 2^n. -/
def p384Mul (q : Option (Nat × Nat)) : Nat → Nat → Option (Nat × Nat)
  | 0, _ => none
  | n + 1, k =>
    let h := p384Mul q n (k / 2)
    let h2 := p384Add h h
    if k % 2 = 1 then p384Add h2 q else h2
/-- Whether (r, s) signs the 48-byte digest under the uncompressed public key 0x04 ‖ X ‖ Y. -/
def ecdsaVerify (key digest : List Byte) (r s : Nat) : Bool :=
  let x := beNat ((key.drop 1).take 48)
  let y := beNat ((key.drop 49).take 48)
  if key.length != 97 || key.head? != some 4 || decide (p384P ≤ x) || decide (p384P ≤ y)
      || y * y % p384P != (x * x * x + (p384P - 3) * x + p384B) % p384P
      || r == 0 || decide (p384N ≤ r) || s == 0 || decide (p384N ≤ s) then false
  else
    let w := invMod s p384N
    let u1 := beNat digest * w % p384N
    let u2 := r * w % p384N
    match p384Add (p384Mul (some p384G) 384 u1) (p384Mul (some (x, y)) 384 u2) with
    | none => false
    | some (px, _) => px % p384N == r

/-! ## AES -/

/-- Multiply by x in the field of AES. -/
def xtime (b : Nat) : Nat := if b < 128 then 2 * b else (2 * b - 256) ^^^ 0x1B
/-- Product in the field of AES, by the bits of `b` below 2^n. -/
def gmul (a b : Nat) : Nat → Nat
  | 0 => 0
  | n + 1 => (if b % 2 = 1 then a else 0) ^^^ gmul (xtime a) (b / 2) n
/-- Inverse in the field of AES: a ^ 254. -/
def ginv (a : Nat) : Nat :=
  let sq (x : Nat) := gmul x x 8
  let a2 := sq a
  let a4 := sq a2
  let a8 := sq a4
  let a16 := sq a8
  let a32 := sq a16
  let a64 := sq a32
  let a128 := sq a64
  gmul a128 (gmul a64 (gmul a32 (gmul a16 (gmul a8 (gmul a4 a2 8) 8) 8) 8) 8) 8
/-- The S-box. -/
def sbox (a : Nat) : Nat :=
  let i := ginv a
  let r (k : Nat) := i * 2 ^ k % 256 + i / 2 ^ (8 - k)
  i ^^^ r 1 ^^^ r 2 ^^^ r 3 ^^^ r 4 ^^^ 0x63
/-- The inverse S-box. -/
def sboxInv (a : Nat) : Nat :=
  let r (k : Nat) := a * 2 ^ k % 256 + a / 2 ^ (8 - k)
  ginv (r 1 ^^^ r 3 ^^^ r 6 ^^^ 5)
/-- The key schedule: words, newest first, from `nk` key words to `total` words. -/
def aesExpand (nk : Nat) : Nat → Nat → List (List Nat) → List (List Nat)
  | 0, _, w => w
  | n + 1, rcon, w =>
    let i := w.length
    let t := w.headD []
    let t' := if i % nk = 0 then
        match (t.drop 1 ++ t.take 1).map sbox with
        | a :: u => (a ^^^ rcon) :: u
        | [] => []
      else if nk > 6 && i % nk == 4 then t.map sbox else t
    let v := (t'.zip (w.getD (nk - 1) [])).map (fun p => p.1 ^^^ p.2)
    aesExpand nk n (if i % nk = 0 then xtime rcon else rcon) (v :: w)
/-- Round keys of 16 bytes, first round first. -/
def aesKeys (key : List Byte) : List (List Nat) :=
  let nk := key.length / 4
  let w0 := (List.range nk).map (fun i => ((key.drop (4 * i)).take 4).map BitVec.toNat)
  let rounds := nk + 6
  let w := (aesExpand nk (4 * (rounds + 1) - nk) 1 w0.reverse).reverse
  (List.range (rounds + 1)).map (fun r => (List.range 4).flatMap (fun j => w.getD (4 * r + j) []))
/-- Exclusive or of two byte rows. -/
def xorRow (a b : List Nat) : List Nat := (a.zip b).map (fun p => p.1 ^^^ p.2)
/-- Shift the rows (columns of 4, row r moves r columns); `k` = 1 forward, 3 back. -/
def aesShift (k : Nat) (s : List Nat) : List Nat := (List.range 16).map (fun i => s.getD ((i + 4 * k * (i % 4)) % 16) 0)
/-- Multiply each column by the circulant of `m`. -/
def aesMix (m : List Nat) (s : List Nat) : List Nat :=
  (List.range 16).map (fun i => (List.range 4).foldl (fun a j => a ^^^ gmul (s.getD (i / 4 * 4 + (i % 4 + j) % 4) 0) (m.getD j 0) 8) 0)
/-- Encrypt one 16-byte block. -/
def aesEnc (key blk : List Byte) : List Byte :=
  let ks := aesKeys key
  let n := ks.length - 1
  let s := xorRow (blk.map BitVec.toNat) (ks.getD 0 [])
  let s := ((ks.drop 1).take (n - 1)).foldl (fun s k => xorRow (aesMix [2, 3, 1, 1] (aesShift 1 (s.map sbox))) k) s
  (xorRow (aesShift 1 (s.map sbox)) (ks.getD n [])).map (BitVec.ofNat 8)
/-- Decrypt one 16-byte block. -/
def aesDec (key blk : List Byte) : List Byte :=
  let ks := aesKeys key
  let n := ks.length - 1
  let s := xorRow (blk.map BitVec.toNat) (ks.getD n [])
  let s := ((ks.drop 1).take (n - 1)).reverse.foldl (fun s k => aesMix [14, 11, 13, 9] (xorRow ((aesShift 3 s).map sboxInv) k)) s
  (xorRow ((aesShift 3 s).map sboxInv) (ks.getD 0 [])).map (BitVec.ofNat 8)
/-- Exclusive or of two byte strings. -/
def xorBytes (a b : List Byte) : List Byte := (a.zip b).map (fun p => p.1 ^^^ p.2)
/-- Double a 128-bit block in the field of CMAC. -/
def cmacDouble (b : List Byte) : List Byte :=
  let v := beNat b
  beBytes 16 ((v * 2 % 2 ^ 128) ^^^ (if v / 2 ^ 127 = 1 then 0x87 else 0))
/-- The chaining over full blocks. -/
def cmacChain (key : List Byte) : Nat → List Byte → List Byte → List Byte
  | 0, c, _ => c
  | n + 1, c, m => cmacChain key n (aesEnc key (xorBytes c (m.take 16))) (m.drop 16)
/-- AES-CMAC of a message: 16 bytes. -/
def cmac (key m : List Byte) : List Byte :=
  let k1 := cmacDouble (aesEnc key (List.replicate 16 0))
  let n := if m.isEmpty then 1 else (m.length + 15) / 16
  let tail := m.drop (16 * (n - 1))
  let last := if tail.length = 16 then xorBytes tail k1
    else xorBytes (tail ++ [0x80] ++ List.replicate (15 - tail.length) 0) (cmacDouble k1)
  aesEnc key (xorBytes (cmacChain key (n - 1) (List.replicate 16 0) m) last)
/-- One step of the RFC 3394 wrap on a two-block key (A, R1, R2), step t. -/
def wrapStep (kek : List Byte) (s : List Byte × List Byte × List Byte) (t : Nat) : List Byte × List Byte × List Byte :=
  let b := aesEnc kek (s.1 ++ s.2.1)
  (xorBytes (b.take 8) (beBytes 8 t), s.2.2, b.drop 8)
/-- RFC 3394 wrap of a 16-byte key: 24 bytes. -/
def keyWrap (kek key : List Byte) : List Byte :=
  let r := [1, 2, 3, 4, 5, 6, 7, 8, 9, 10, 11, 12].foldl (wrapStep kek) (List.replicate 8 0xA6, key.take 8, key.drop 8)
  r.1 ++ r.2.1 ++ r.2.2
/-- One step of the unwrap, undoing step t. -/
def unwrapStep (kek : List Byte) (s : List Byte × List Byte × List Byte) (t : Nat) : List Byte × List Byte × List Byte :=
  let b := aesDec kek (xorBytes s.1 (beBytes 8 t) ++ s.2.2)
  (b.take 8, b.drop 8, s.2.1)
/-- RFC 3394 unwrap of a 24-byte value. -/
def keyUnwrap (kek w : List Byte) : List Byte :=
  let r := [12, 11, 10, 9, 8, 7, 6, 5, 4, 3, 2, 1].foldl (unwrapStep kek) (w.take 8, (w.drop 8).take 8, w.drop 16)
  r.2.1 ++ r.2.2
/-- The device key as bytes (R481). -/
def deviceKeyBytes (f : Nat → Byte) : List Byte := (List.range 32).map f

end Sys2Proof.Machine
end

