-- ==== Sys2Proof/Machine/Formes.lean ====
section
/-! DEFINITION. Forme images (R44–R58, R497, spec/02_formes.md; R215, R356 for configuration areas): parsing, the checks of VERIFY in their
order, image slots, and the checks of a section load. -/
namespace Sys2Proof.Machine

/-- Status codes of R65. -/
def codeBusy : Nat := 1
def codeFormat : Nat := 2
def codeCompat : Nat := 3
def codeSignature : Nat := 4
def codeUnsigned : Nat := 5
def codeCapacity : Nat := 6
def codeOverlap : Nat := 7
def codeHalyard : Nat := 8
def codeRoute : Nat := 9
def codeReefed : Nat := 10
def codeNotVerified : Nat := 11
def codeMapFault : Nat := 12
def codeHalted : Nat := 13
def codeAbandoned : Nat := 14
def codeState : Nat := 15

/-! ## Parsing -/

/-- The `n`-byte little-endian number at offset `o` of an image. -/
def u (b : List Byte) (o n : Nat) : Nat := leNat ((b.drop o).take n)
/-- `n` bytes at offset `o`. -/
def sub (b : List Byte) (o n : Nat) : List Byte := (b.drop o).take n

/-- A knob map entry (R45). -/
def knobRow (b : List Byte) : KnobRow :=
  let fl := u b 2 1
  let w := u b 1 1
  let rd (x : Nat) : Int := if fl.testBit 0 then signed 32 x else x
  ⟨u b 4 4, w, fl.testBit 0, fl.testBit 1, fl.testBit 2, fl.testBit 3, rd (u b 8 4), rd (u b 12 4)⟩
/-- Whether a knob's bounds fit its width and are in order, and its offset is one (R45). -/
def knobRowOk (k : KnobRow) : Bool :=
  let fit (x : Int) := if k.signed_ then decide (-(2 ^ (k.width - 1) : Nat) ≤ x ∧ x < (2 ^ (k.width - 1) : Nat)) else decide (0 ≤ x ∧ x < (2 ^ k.width : Nat))
  decide (1 ≤ k.width ∧ k.width ≤ 32) && fit k.lo && fit k.hi && decide (k.lo ≤ k.hi) && k.off % 4 == 0 && decide (k.off < 0x20000)

/-- Whether [o, o + n) lies in an image of length `len`, 8-byte aligned. -/
def inBounds (len o n : Nat) : Bool := o % 8 == 0 && decide (o + n ≤ len)

/-- A sort list entry of a body (R49). -/
def sortEntry (body : List Byte) (e : List Byte) : SortEntry := ⟨u e 0 1, u e 1 1, u e 2 2, sub body (u e 8 8) (u e 4 4)⟩
/-- A route list entry (R49). -/
def routeEntry (e : List Byte) : RouteEntry := ⟨u e 0 1, u e 1 1, u e 2 2, u e 4 1, u e 5 1, u e 6 2, u e 8 1, u e 9 1, u e 10 1, u e 11 1⟩
/-- Table of `n` entries of `sz` bytes. -/
def entries (b : List Byte) (o sz n : Nat) : List (List Byte) := (List.range n).map (fun i => sub b (o + i * sz) sz)
/-- A gang table entry (R356). -/
def gangEntry (e : List Byte) : Gang := ⟨u e 0 2, u e 2 1, u e 4 4, u e 8 1⟩

/-- Whether a gang table obeys R356 for a sort list. -/
def gangsOk (sorts : List SortEntry) (raw : List (List Byte)) : Bool :=
  let gs := raw.map gangEntry
  raw.all (fun e => u e 3 1 == 0 && u e 9 7 == 0) &&
  gs.all (fun g => [1, 2, 4, 8, 16, 32, 64, 128, 256].contains g.members && decide (g.id < 16) &&
    decide (1 ≤ g.masters ∧ g.masters ≤ min 32 (8 * g.members)) && decide (g.first + g.members ≤ sorts.length) &&
    ((sorts.drop g.first).take g.members).all (·.kind == 3)) &&
  (gs.map (·.id)).Nodup && (gs.flatMap (fun g => (List.range g.members).map (g.first + ·))).Nodup

/-- Whether a tile core's configuration obeys R215. -/
def tileConfigOk (c : List Byte) : Bool :=
  let i := u c 8 4
  let w := u c 12 4
  decide (1 ≤ i ∧ i ≤ 2048 ∧ w ≤ 8192) && c.length == roundUp (16 + 8 * i + 4 * w) 8

/-- Bounds, alignment, header and configuration area of a body (R49, R52, R215, R356). -/
def bodyOk (body : List Byte) (index : Nat) : Bool :=
  let len := body.length
  let ns := u body 8 4
  let nr := u body 12 4
  let ni := u body 16 4
  let cfg := u body 0x38 8
  let raw := entries body (u body 0x18 8) 16 ns
  let ng := u body cfg 4
  decide (64 ≤ len) && u body 0 4 == 0x4353584C && u body 4 2 == index && u body 6 2 == 0 && u body 0x14 4 == 0 &&
  inBounds len (u body 0x18 8) (16 * ns) && inBounds len (u body 0x20 8) (16 * nr) && inBounds len (u body 0x28 8) 64 &&
  inBounds len (u body 0x30 8) (8 * ni) && inBounds len cfg 8 &&
  raw.all (fun e => inBounds len (u e 8 8) (u e 4 4) && decide (u e 0 1 < 8 ∧ u e 1 1 < 6)) &&
  decide (ng ≤ 16) && u body (cfg + 4) 4 == 0 && decide (cfg + 8 + 16 * ng ≤ len) &&
  gangsOk (raw.map (sortEntry body)) (entries body (cfg + 8) 16 ng) &&
  (raw.map (sortEntry body)).all (fun s => s.kind != 5 || tileConfigOk s.config)

/-- A section of an image: its descriptor, body and knobs (R45, R48, R49). -/
def sectionDesc (img : List Byte) (dsc : List Byte) (knobs : List (Nat × KnobRow)) : SectionDesc :=
  let body := sub img (u dsc 8 8) (u dsc 16 8)
  let idx := u dsc 0 2
  { index := idx, kind := u dsc 2 2, bodyLen := u dsc 16 8, reefPriority := u dsc 0x18 1, reefStage := u dsc 0x19 1, gating := u dsc 0x1A 1,
    outPorts := u dsc 0x1B 1, claim := BitVec.ofNat 64 (u dsc 0x20 8),
    knobs := (knobs.filter (fun k => k.1 == idx)).map (·.2),
    sorts := (entries body (u body 0x18 8) 16 (u body 8 4)).map (sortEntry body),
    routes := (entries body (u body 0x20 8) 16 (u body 12 4)).map routeEntry,
    inputs := (entries body (u body 0x28 8) 4 16).map (fun e => ⟨(u e 2 1).testBit 0, u e 0 1, u e 1 1⟩),
    initial := (entries body (u body 0x30 8) 8 (u body 16 4)).map (fun e => (u e 0 4, u e 4 4)),
    gangs := (entries body (u body 0x38 8 + 8) 16 (u body (u body 0x38 8) 4)).map gangEntry }

/-- Whether an initial knob value names a knob of the section and lies in its range (R45). -/
def initialOk (s : SectionDesc) : Bool :=
  s.initial.all (fun p => s.knobs.any (fun k => k.off == p.1 &&
    (let v : Int := if k.signed_ then signed 32 p.2 else p.2; decide (k.lo ≤ v ∧ v ≤ k.hi))))

/-- An event map entry (R47). -/
def eventOk (e : Nat) : Bool := e == 0 || decide (0x1000 ≤ e ∧ e < 0x1040) || decide (0x2000 ≤ e ∧ e < 0x2800)

/-- What VERIFY finds: the code, and on success the image, whether signed, the key slot and whether admitted under development mode. -/
structure Verified where
  image : Image
  signed_ : Bool
  key : Nat
  dev : Bool
  id : List Nat
deriving DecidableEq, Repr

/-- Pass when the check holds, else stop with the code. -/
def need (b : Bool) (code : Nat) : Except Nat Unit := if b then .ok () else .error code

/-- The enrolled key slot whose hash is that of the key (R53). -/
def Dev.keySlot (d : Dev) (key : List Byte) : Option Nat := (d.sec.owners.cells.find? (fun p => p.2 == sha384 key)).map (·.1)

/-- A signature block over `covered` (R51, R53): its key's slot when the digest matches and the signature verifies. -/
def Dev.signer (d : Dev) (blk covered : List Byte) : Option Nat :=
  let dig := sub blk 8 48
  let key := sub blk 0x38 97
  if sha384 covered == dig && ecdsaVerify key dig (beNat (sub blk 0x99 48)) (beNat (sub blk 0xC9 48)) then d.keySlot key else none
/-- Magic, algorithm and reserved bytes of a signature block (R51). -/
def signatureForm (blk : List Byte) : Bool := blk.length == 256 && u blk 0 4 == 0x4753584C && u blk 4 2 == 1 && u blk 6 2 == 0 && u blk 0xF9 7 == 0

/-- The checks of R52 in their order. The position in the reef order (R48) counts from 0: the spec says only "position" (DESIGN CHOICE, log
entry 33). -/
def Dev.verifyImage (d : Dev) (img : List Byte) : Except Nat Verified := do
  let len := img.length
  let ns := u img 0x18 2
  let nk := u img 0x1C 4
  let so := u img 0x40 8
  let dscs := entries img (u img 0x30 8) 64 ns
  need (decide (256 ≤ len) && u img 0 4 == 0x4D46584C && u img 4 2 / 256 == 1 && decide (u img 4 2 % 256 ≤ 2) &&
    u img 0xFC 4 == crc32 (sub img 0 0xFC ++ [0, 0, 0, 0])) codeFormat
  need (u img 8 4 == d.rd F.FMR_COMPAT_IDENT && u img 12 4 == d.rd F.FMR_PROFILE_PROFILE) codeCompat
  need (u img 6 2 == 256 && decide (1 ≤ ns ∧ ns ≤ 128) && decide (nk ≤ 65536) && decide (u img 0x1A 2 ≤ 1) &&
    inBounds len (u img 0x20 8) (16 * nk) && inBounds len (u img 0x28 8) (4 * ns) && inBounds len (u img 0x30 8) (64 * ns) &&
    inBounds len (u img 0x38 8) 512 && (so == 0 || (inBounds len so 256 && so + 256 == len)) &&
    dscs.all (fun x => inBounds len (u x 8 8) (u x 16 8) && decide (u x 0 2 < 128) && decide (u x 0x1B 1 ≤ 16) &&
      u x 0x1C 4 == crc32 (sub img (u x 8 8) (u x 16 8)) && bodyOk (sub img (u x 8 8) (u x 16 8)) (u x 0 2) &&
      decide ((1 ≤ u x 2 2 ∧ u x 2 2 ≤ 6) ∨ 0x8000 ≤ u x 2 2)) && decide ((dscs.map (fun x => u x 0 2)).Nodup)) codeFormat
  need (dscs.all (fun x => decide (6 < u x 2 2) || u x 4 4 == 0x302)) codeCompat
  need (dscs.all (fun x => decide (u x 2 2 ≤ 6) || u x 4 4 == 0)) codeFormat
  let rawReef := entries img (u img 0x28 8) 4 ns
  let reef := rawReef.map (fun e => (u e 0 1, u e 1 1))
  need (rawReef.all (fun e => u e 2 2 == 0 && decide (1 ≤ u e 1 1 ∧ u e 1 1 ≤ 3)) && decide ((reef.map (·.1)).Nodup) &&
    dscs.all (fun x => reef[u x 0x18 1]? == some (u x 0 2, u x 0x19 1))) codeFormat
  let rawKnobs := entries img (u img 0x20 8) 16 nk
  let knobs := rawKnobs.map (fun e => (u e 0 1, knobRow e))
  let secs := dscs.map (fun x => sectionDesc img x knobs)
  need (rawKnobs.all (fun e => u e 3 1 == 0 && decide (u e 2 1 < 16)) && knobs.all (fun k => knobRowOk k.2 && (dscs.any (fun x => u x 0 2 == k.1))) &&
    decide ((knobs.map (fun k => (k.1, k.2.off))).Nodup) && secs.all initialOk) codeFormat
  let events := (List.range 256).map (fun n => u img (u img 0x38 8 + 2 * n) 2)
  need (events.all eventOk) codeFormat
  need ((List.range 48).all (fun k => decide (u img (0x58 + 2 * k) 2 ≤ d.rd F.FMR_CAP_CAPACITY (k / 6 * 8 + k % 6)))) codeCapacity
  let signed_ := so != 0
  let blk := sub img so 256
  need ((!signed_ || signatureForm blk) && ((u img 0x1A 2).testBit 0 == signed_)) codeFormat
  need (signed_ || !d.sec.owned || d.sec.dev) codeUnsigned
  let key := d.signer blk (sub img 0 so)
  need (!signed_ || key.isSome) codeSignature
  pure ⟨⟨len, secs, reef, events⟩, signed_, key.getD 0, !signed_, (List.range 4).map (fun i => u img (0x48 + 4 * i) 4)⟩

/-! ## Image slots -/

/-- The table indices of the pages an image occupies in its ring. -/
def Dev.imagePages (d : Dev) (ring off len : Nat) : List Nat := (List.range (len / pageSize + 2)).filterMap (fun k =>
  let p := off / pageSize * pageSize + k * pageSize
  if p < off + len then some (d.pageOf ring p) else none)
/-- Whether a table index is locked by an image (R54). -/
def Dev.pageLocked (d : Dev) (idx : Nat) : Option Nat := ([0, 1] : List Nat).find? (fun k => (d.slot k).locked.contains idx)

/-- Set a slot's state and code (R65, R497). -/
def Dev.imgStatus (d : Dev) (k state code : Nat) : Dev := (d.wr F.FMR_IMG_STATUS_STATE state k).wr F.FMR_IMG_STATUS_CODE code k

/-- CMD VERIFY (R54, R497). An image whose total length exceeds its ring is read and locked up to the ring's size: the spec does not say
(DESIGN CHOICE, log entry 33). -/
def Dev.verify (d : Dev) (k : Nat) : Dev :=
  let st := d.rd F.FMR_IMG_STATUS_STATE k
  if st = 1 ∨ st = 2 then d.wr F.FMR_IMG_STATUS_CODE codeBusy k
  else
    let ring := d.rd F.FMR_IMG_RING_RING k
    let off := d.rd F.FMR_IMG_OFFSET_LO_OFFSET_LO k + d.rd F.FMR_IMG_OFFSET_HI_OFFSET_HI k * 2 ^ 32
    let len := leNat (d.ringBytes ring (off + 0x10) 8)
    let len := min len (d.ringSize ring)
    { d with slots := d.slots.put k ⟨ring, off, len, d.clk, none, d.imagePages ring off len⟩ }.imgStatus k 1 0

/-- Verification ends (R52, R66): at the earliest when the image length ÷ 4 GB/s has passed. A page of the image whose map walk faults cannot be
read: R52 has no row for it, and the image is REJECTED with MAP_FAULT of R65 before the listed checks (DESIGN CHOICE, log entry 33). -/
def Dev.verifyEnd (d : Dev) (k : Nat) : Dev :=
  if d.rd F.FMR_IMG_STATUS_STATE k != 1 then d
  else
    let s := d.slot k
    let d := d.advanceTo (s.since + (s.length + 3) / 4)
    let bad := s.locked.any (fun i => (d.walkCause i).isSome)
    let res := if bad then .error codeMapFault else d.verifyImage (d.ringBytes s.ring s.offset s.length)
    match res with
    | .error c => ((d.imgStatus k 3 c).raise 7 k).raise 7 2
    | .ok v =>
      let d := { d with slots := d.slots.put k { s with image := some v.image } }
      let d := ((((d.imgStatus k 2 0).flag F.FMR_IMG_STATUS_SIGNED v.signed_ k).wr F.FMR_IMG_STATUS_KEY v.key k).flag F.FMR_IMG_STATUS_DEV v.dev k).wr
        F.FMR_IMG_SECTIONS_SECTIONS v.image.sections.length k
      let d := (v.id.zipIdx).foldl (fun d p => d.wr F.FMR_IMG_ID_ID p.1 k p.2) d
      d.raise 7 k

/-- State of a section: 0 ABSENT, 1 LOADING, 2 ACTIVE, 3 HELD, 4 SHED. -/
def Dev.secState (d : Dev) (i : Nat) : Nat := d.rd F.FMR_SEC_STATE_STATE i
/-- Sections whose state `f` accepts. -/
def Dev.sectionsIn (d : Dev) (f : Nat → Bool) : List Nat := (List.range 128).filter (fun i => f (d.secState i))

/-- CMD RELEASE (R54, R497). SIGNED, KEY, DEV, SECTIONS and the identity keep what the last VERIFIED image left, after REJECTED too: the spec does
not say (DESIGN CHOICE, log entry 33). -/
def Dev.imageRelease (d : Dev) (k : Nat) : Dev :=
  let st := d.rd F.FMR_IMG_STATUS_STATE k
  let inUse := (d.sectionsIn (fun s => s == 1 || s == 2 || s == 3)).any (fun i => d.rd F.FMR_SEC_STATE_SLOT i == k)
  let governs := d.rd F.FMR_CTRL_GOVERN == k && !(d.sectionsIn (fun s => s != 0)).isEmpty
  if st = 1 ∨ (st = 2 ∧ (inUse || governs)) then d.wr F.FMR_IMG_STATUS_CODE codeBusy k
  else { d with slots := d.slots.erase k }.imgStatus k 0 0

/-! ## Checks of a load (R39, R42, R58, R59) -/

/-- Tracks a route list uses on the boundary between columns b and b + 1, rightwards or leftwards (R39). -/
def tracksOn (rs : List RouteEntry) (b : Nat) (right : Bool) : Nat :=
  rs.foldl (fun n r => if (if right then decide (r.srcCol ≤ b ∧ b < r.dstCol) else decide (r.dstCol ≤ b ∧ b < r.srcCol)) then n + r.width else n) 0

/-- The other sections that are ACTIVE or HELD. -/
def Dev.placedBeside (d : Dev) (i : Nat) : List Section := ((d.sectionsIn (fun s => s == 2 || s == 3)).filter (· != i)).filterMap d.sections.get?

/-- The outcome code of a completed load of section i: the first check of R59's list that fails. -/
def Dev.loadCode (d : Dev) (i k : Nat) (s : SectionDesc) : Nat :=
  let others := d.placedBeside i
  let claims (h : Nat) := s.claim.getLsbD h
  if s.sorts.any (fun x => decide (d.rd F.FMR_CAP_CAPACITY (x.col * 8 + x.kind) ≤ x.row)) then codeCapacity
  else if s.sorts.any (fun x => others.any (fun o => o.desc.sorts.any (fun y => x.col == y.col && x.kind == y.kind && x.row == y.row))) then codeOverlap
  else if (List.range 7).any (fun b => [true, false].any (fun r =>
      decide (2048 < tracksOn (s.routes ++ others.flatMap (fun o => o.desc.routes)) b r))) then codeRoute
  else if (List.range 64).any (fun h => claims h && d.is F.FMR_HAL_DRV_KIND h && !(d.hasDriver h 1 i)) then codeHalyard
  else if (d.slot k).locked.any (fun x => (d.walkCause x).isSome) then codeMapFault
  else 0

/-! ## Meanings -/

/-- GOVERN (R55). -/
def Dev.governWrite (d : Dev) (k : Nat) : Dev := d.wr F.FMR_CTRL_GOVERN k

/-- CMD VERIFY (R54, R497). -/
def execVerify (k : Fin 2) (s : State) := host (0x10010C + k.val * 0x40) (fun d => d.verify k) s
/-- Verification ends (R52, R66). -/
def execVerifyEnd (k : Fin 2) (s : State) := lift (fun d => d.verifyEnd k) s
/-- CMD RELEASE (R54, R497). -/
def execImageRelease (k : Fin 2) (s : State) := host (0x10010C + k.val * 0x40) (fun d => d.imageRelease k) s
/-- Write `FMR_CTRL` (R55). -/
def execGovernWrite (k : Fin 2) (s : State) := host 0x100000 (fun d => d.governWrite k) s

end Sys2Proof.Machine
end

