-- ==== Sys2Proof/Machine/Descriptors.lean ====
section
/-! DEFINITION. Mover addresses and descriptors (R335, R336, spec/12_galley.md), and what a paced mover waits for (R454). -/
namespace Sys2Proof.Machine

/-! ## Addresses (R335) -/

/-- Space of a mover address: 0 host, 1 ring, 2 device window, 3 transport. -/
def movSpace (a : Nat) : Nat := a / 2 ^ 60
/-- Ring and offset of a space-1 address. -/
def movRing (a : Nat) : Nat := bits a 48 10
def movOffset (a : Nat) : Nat := bits a 0 40
/-- Whether a host-driven mover may read or write there: space 3 belongs to the movers of stream ports, a ring must be ON. -/
def Dev.movAddrOk (d : Dev) (a : Nat) : Bool :=
  match movSpace a with
  | 0 => true
  | 1 => bits a 58 2 == 0 && bits a 40 8 == 0 && d.ringOn (movRing a)
  | 2 => bits a 32 28 == 0
  | _ => false
/-- Whether a descriptor may lie there. -/
def Dev.descAddrOk (d : Dev) (a : Nat) : Bool := a % 32 == 0 && decide (movSpace a < 2) && d.movAddrOk a
/-- `n` bytes of host memory or of a ring. -/
def Dev.movBytes (d : Dev) (a n : Nat) : List Byte :=
  if movSpace a = 1 then d.ringBytes (movRing a) (movOffset a) n else d.hostMem.bytes (a % 2 ^ 60) n

/-! ## Descriptors (R336) -/

/-- A descriptor: control word, next, destination, and each element's source and length. -/
structure MovDesc where
  control : Nat
  next : Nat
  dest : Nat
  elems : List (Nat × Nat)
deriving DecidableEq, Repr

/-- The descriptor at an address. -/
def Dev.descAt (d : Dev) (a : Nat) : MovDesc :=
  let b := d.movBytes a 288
  let c := u b 0 4
  ⟨c, u b 8 8, u b 16 8, (List.range (c % 16 + 1)).map (fun e => (u b (32 + 16 * e) 8, u b (40 + 16 * e) 4))⟩
/-- The bus address of `HKA_RESULT` (R454). -/
def hkaResultAddr : Nat := 2 * 2 ^ 60 + 0x38008
/-- Whether its addresses and lengths are valid (R336, R454). -/
def Dev.descOk (d : Dev) (x : MovDesc) : Bool :=
  (x.control.testBit 5 || d.descAddrOk x.next) && d.movAddrOk x.dest &&
    x.elems.all (fun e => d.movAddrOk e.1 && decide (1 ≤ e.2 ∧ e.2 ≤ 16777216) && (e.1 != hkaResultAddr || e.2 % 4 == 0))
/-- Results that its elements read from `HKA_RESULT`. -/
def MovDesc.results (x : MovDesc) : Nat := x.elems.foldl (fun n e => if e.1 = hkaResultAddr then n + e.2 / 4 else n) 0

/-- Address of the current descriptor of mover m. -/
def Dev.movCur (d : Dev) (m : Nat) : Nat := d.wideAt F.MOV_CUR_LO_ADDR m
/-- State of mover m: 0 IDLE, 1 RUNNING, 2 STOPPED, 3 STOPPING. -/
def Dev.movState (d : Dev) (m : Nat) : Nat := d.rd F.MOV_STATUS_STATE m
/-- The paced mover (R454) takes an unread result its descriptor waits for; VALID and OVR clear, as a host read clears them. -/
def Dev.paceTake (d : Dev) : Dev :=
  let m := d.rd F.HKA_CTRL_PACE_MOVER
  if d.is F.HKA_CTRL_PACE_EN && (d.movState m == 1 || d.movState m == 3) && !(d.is F.MOV_OWNER_STR m) && d.is F.HKA_RESULT_VALID &&
      decide (d.hka.paced.length < (d.descAt (d.movCur m)).results) then
    (({ d with hka := { d.hka with paced := d.hka.paced ++ [d.reg 0x38008] } }.flag F.HKA_RESULT_VALID false).flag F.HKA_RESULT_OVR false).level 37 0 false
  else d

end Sys2Proof.Machine
end

