-- ==== Sys2Proof/Machine/Interrupts.lean ====
section
/-! DEFINITION. Interrupt groups and the housekeeping converter (spec/17_interrupts.md). -/
namespace Sys2Proof.Machine

/-- A host write of 1s to pending bits clears edge bits only (R442, R443), but for those set in the same clock (R8); groups 40–63 ignore writes
(R440). -/
def Dev.pendingClear (d : Dev) (g : Nat) (v : Word) : Dev :=
  if 40 ≤ g then d
  else
    let o := F.IRQ_PENDING_PENDING.at_ g 0
    let edge := v &&& ~~~(d.reg (F.IRQ_LEVEL_LEVEL.at_ g 0))
    (d.setReg o (d.reg o &&& ~~~(edge &&& ~~~(d.freshBits o)))).setReg0 o (d.reg0 o &&& ~~~edge)

/-- A write of the enables: a source already pending becomes active at once (R444). -/
def Dev.irqEnable (d : Dev) (g : Nat) (v : Word) : Dev :=
  if 40 ≤ g then d else (d.wr F.IRQ_ENABLE_ENABLE v.toNat g).tryDeliver g

/-- Sample the level sources of a group (R443). -/
def Dev.sampleLevels (d : Dev) (g : Nat) : Dev :=
  let lv := d.rd F.IRQ_LEVEL_LEVEL g
  let p := d.rd F.IRQ_PENDING_PENDING g
  d.wr F.IRQ_PENDING_PENDING ((p - (p &&& lv)) ||| (d.rd F.IRQ_RAW_RAW g &&& lv)) g

/-- A completion (R446): outstanding is cleared and the level sources are sampled; a source still active delivers as R445 admits. -/
def Dev.irqComplete (d : Dev) (g : Nat) : Dev :=
  if 40 ≤ g then d else ((d.flag F.IRQ_TARGET_OUTSTANDING false g).sampleLevels g).tryDeliver g

/-- A frame core cleared doorbell bits: it completes the groups that deliver to it alone (R446). -/
def Dev.coreCompletes (d : Dev) (core : Nat) (bits_ : Nat) : Dev :=
  (List.range 40).foldl (fun d g =>
    if bits_.testBit g && d.rd F.IRQ_TARGET_TARGET g == 1 && d.rd F.IRQ_TARGET_CORE g == core && d.is F.IRQ_TARGET_OUTSTANDING g
    then d.irqComplete g else d) d

/-- The hold-off of a group runs out (R445). -/
def Dev.holdoffEnd (d : Dev) (g : Nat) : Dev := (d.advanceTo (d.irq.holdEnd.getD g 0)).tryDeliver g

/-- The host unmasks a table entry: a held message is sent (R447). -/
def Dev.msixUnmask (d : Dev) (g : Nat) : Dev :=
  let d := { d with irq := { d.irq with masked := d.irq.masked.erase g } }
  if (d.irq.pba.get? g).isSome && !d.irq.functionMask then { d with irq := { d.irq with pba := d.irq.pba.erase g } }.send (.msix g) else d

/-! ## Housekeeping -/

/-- Begin the conversion of an entry with the fields it has now (R452). -/
def Dev.hkaBegin (d : Dev) (e : Nat) : Dev :=
  let d := { d with hka := { d.hka with entry := some (e, d.reg (F.HKA_SEQ_INPUT.at_ e 0), d.reg (F.HKA_SEQ_LIM_LO.at_ e 0), d.clk) } }
  (d.flag F.HKA_STATUS_BUSY true).wr F.HKA_STATUS_ENTRY e

/-- A write of `HKA_CTRL` (R452): EN rising starts entry 0 and forgets earlier limit states (R455); clearing EN lets the conversion in
progress complete. -/
def Dev.hkaCtrl (d : Dev) (v : Word) : Dev :=
  let was := d.is F.HKA_CTRL_EN
  let d := d.plainWrite 0x38000 v
  if !was && d.is F.HKA_CTRL_EN then
    let d := { d with hka := { d.hka with outside := [] } }
    if d.hka.entry.isNone then (d.hkaBegin 0).paceTake else d.paceTake
  else d.paceTake

/-- A write to a sequence entry: its next result counts as following one within the limits (R455). -/
def Dev.hkaSeqWrite (d : Dev) (off : Nat) (v : Word) : Dev :=
  { d.plainWrite off v with hka := { d.hka with outside := d.hka.outside.erase ((off - 0x38100) / 8) } }

/-- Sampling time + 0.6 µs of a SAMPLE code, in clocks (R452). -/
def hkaClocks (sample : Nat) : Nat := [400, 900, 1900, 3900, 7900, 15900, 31900, 63900].getD sample 400 + 600
/-- The result for an input code at gain 1 (R451): gain on inputs 3–15 only, saturated at 4,095. -/
def hkaResult (input gain code : Nat) : Nat := if 3 ≤ input ∧ input ≤ 15 then min 4095 (code * 2 ^ gain) else code

/-- A conversion ends (R452–R455). -/
def Dev.conversionEnd (d : Dev) (code : Nat) : Dev :=
  match d.hka.entry with
  | none => d
  | some (e, seq, lim, t0) =>
    let d := d.advanceTo (t0 + hkaClocks (seq.field 8 3))
    let input := seq.field 0 6
    let v := hkaResult input (seq.field 12 2) code
    let unread := d.is F.HKA_RESULT_VALID
    let d := if unread then ((d.mark F.HKA_STATUS_OVR).inc F.HKA_OVR_COUNT_COUNT).raise 37 1 else d
    let d := ((((d.wr F.HKA_RESULT_VALUE v).wr F.HKA_RESULT_ENTRY e).wr F.HKA_RESULT_INPUT input).flag F.HKA_RESULT_OVR unread).flag F.HKA_RESULT_VALID true
    let d := (d.wr F.HKA_LAST_VALUE v e).level 37 0 true
    let out := decide (v < lim.field 0 12) || decide (lim.field 16 12 < v)
    let d := if seq.getLsbD 15 && out && !(d.hka.outside.contains e) then d.raise 37 (2 + e) else d
    let d := { d with hka := { d.hka with entry := none, outside := if out then (if d.hka.outside.contains e then d.hka.outside else e :: d.hka.outside) else d.hka.outside.erase e } }
    let d := d.paceTake
    if d.is F.HKA_CTRL_EN then d.hkaBegin (if e < d.rd F.HKA_CTRL_LEN then e + 1 else 0)
    else d.flag F.HKA_STATUS_BUSY false

/-- A read of `HKA_RESULT` answers it and clears VALID and OVR (R453). Where a result arrived on this clock the read answers the one before it, and
the new one waits for the next read without being an overrun (R8, R453). -/
def Dev.hkaRead (d : Dev) : Dev :=
  let o := 0x38008
  if d.reg o = d.reg0 o then (((d.answer (d.reg o).toNat).flag F.HKA_RESULT_VALID false).flag F.HKA_RESULT_OVR false).level 37 0 false
  else
    let d := if (d.reg0 o).field F.HKA_RESULT_VALID.lo 1 = 0 then d
      else ((d.flag F.HKA_RESULT_OVR false).setReg 0x38004 ((d.reg 0x38004).setField 1 1 ((d.reg0 0x38004).field 1 1))).setReg
        F.HKA_OVR_COUNT_COUNT.off (d.reg0 F.HKA_OVR_COUNT_COUNT.off)
    (d.answer (d.reg0 o).toNat).setReg0 o (d.reg o)

/-! ## Meanings -/

/-- Write 1s to `IRQ_PENDING` of group g (R442). -/
def execPendingClear (g : Fin 64) (v : Word) (s : State) := host (0x30100 + g.val * 0x20) (fun d => d.pendingClear g v) s
/-- Write `IRQ_ENABLE` of group g (R444). -/
def execIrqEnableWrite (g : Fin 64) (v : Word) (s : State) := host (0x30104 + g.val * 0x20) (fun d => d.irqEnable g v) s
/-- Write 1 to `IRQ_COMPLETE` of group g (R446). -/
def execIrqComplete (g : Fin 64) (s : State) := host (0x30118 + g.val * 0x20) (fun d => d.irqComplete g) s
/-- The hold-off of group g runs out (R445). -/
def execIrqHoldoffEnd (g : Fin 64) (s : State) := lift (fun d => d.holdoffEnd g) s
/-- The host unmasks MSI-X entry g (R447). -/
def execMsixUnmask (g : Fin 64) (s : State) := lift (fun d => d.msixUnmask g) s
/-- Write `HKA_CTRL` (R452). -/
def execHkaEnable (v : Word) (s : State) := host 0x38000 (fun d => d.hkaCtrl v) s
/-- A housekeeping conversion ends with this code at gain 1 (R453). -/
def execConversionEnd (code : BitVec 12) (s : State) := lift (fun d => d.conversionEnd code.toNat) s
/-- Read `HKA_RESULT` (R453). -/
def execHkaResultRead (s : State) := lift (fun d => d.hostReadAt 0x38008 Dev.hkaRead) s

end Sys2Proof.Machine
end

