-- ==== Sys2Proof/Machine/Knobs.lean ====
section
/-! DEFINITION. Knobs of sections (R45, R63) and what the standard sections share: knob values, refusals, section events. What a write does to a section stands in `Sections`. -/
namespace Sys2Proof.Machine

/-- Offset of knob `off` of section i. -/
def knobAt (i off : Nat) : Nat := 0x1000000 + i * 0x20000 + off
/-- A knob's stored word. -/
def Dev.knob (d : Dev) (i off : Nat) : Nat := (d.reg (knobAt i off)).toNat
/-- A field of it. -/
def Dev.knobBits (d : Dev) (i off lo w : Nat) : Nat := bits (d.knob i off) lo w
/-- Its signed value. -/
def Dev.knobInt (d : Dev) (i off : Nat) : Int := signed 32 (d.knob i off)
/-- Store a knob's word. -/
def Dev.setKnob (d : Dev) (i off v : Nat) : Dev := d.setReg (knobAt i off) (BitVec.ofNat 32 v)
/-- Store a field of it. -/
def Dev.setKnobBits (d : Dev) (i off lo w v : Nat) : Dev := d.setReg (knobAt i off) ((d.reg (knobAt i off)).setField lo w v)
/-- Count a knob up, stopping at its highest value. -/
def Dev.incKnob (d : Dev) (i off : Nat) (k : Nat := 1) : Dev := d.setKnob i off (min (2 ^ 32 - 1) (d.knob i off + k))

/-- The description section i was loaded with. -/
def Dev.desc (d : Dev) (i : Nat) : Option SectionDesc := (d.sections.get? i).map (·.desc)
/-- The kind of section i: 1 CHAN, 2 XFRM, 3 TRACE, 4 TRIG, 5 RAWC, 6 DENS, 0 when absent. -/
def Dev.kind (d : Dev) (i : Nat) : Nat := match d.desc i with | some s => s.kind | none => 0
/-- Whether section i is an ACTIVE section of a kind. -/
def Dev.activeKind (d : Dev) (i k : Nat) : Bool := d.secState i == 2 && d.kind i == k
/-- The producing section and port of an input port (R49), 128 + n being input n (R94). -/
def Dev.inPort (d : Dev) (i p : Nat) : Option (Nat × Nat) := match d.desc i with
  | some s => match s.inputs[p]? with
    | some b => if b.bound then some (b.producer, b.port) else none
    | none => none
  | none => none
/-- Sorts of a kind a section places. -/
def Dev.placed (d : Dev) (i kind : Nat) : Nat := match d.desc i with | some s => s.sorts.countP (·.kind == kind) | none => 0
/-- The column a route starts from: a converter's port enters the chase at the input's own (R94). -/
def SectionDesc.srcCol (s : SectionDesc) (r : RouteEntry) : Nat :=
  if r.srcKind = 0xFF then match s.inputs[r.srcRow]? with
    | some b => if b.bound && decide (128 ≤ b.producer) then b.producer - 128 else r.srcCol
    | none => r.srcCol
  else r.srcCol
/-- Latency of a route (R38, R94). -/
def SectionDesc.routeLatency (s : SectionDesc) (r : RouteEntry) : Nat := 1 + ((s.srcCol r : Int) - r.dstCol).natAbs + r.delay
/-- Latencies of the section's routes: what a path's route latency is taken from (log entry 6). -/
def Dev.routeClocks (d : Dev) (i : Nat) : Nat := match d.desc i with
  | some s => s.routes.foldl (fun n r => n + s.routeLatency r) 0
  | none => 0

/-- The ring of a section whose records' ring the spec leaves open (log entry 7). -/
def Dev.sectionRing (d : Dev) (i : Nat) : Nat := match d.sections.get? i with | some s => s.ring % 1024 | none => 0
/-- The live 64-bit count of a knob pair. -/
def Dev.wideKnob (d : Dev) (i off : Nat) : Nat := d.wide.getD (knobAt i off) 0
/-- Set it. -/
def Dev.setWideKnob (d : Dev) (i off v : Nat) : Dev := { d with wide := d.wide.put (knobAt i off) (v % 2 ^ 64) }

/-- A refused knob write (R63): both counters, G7 source 7. -/
def Dev.refuseKnob (d : Dev) (i : Nat) : Dev := ((d.inc F.FMR_SEC_COUNT_KNOB_REFUSE i).inc F.FMR_KNOB_ERR_COUNT).raise 7 7

/-- A row of a standard knob map: flags "r" read-only, "s" cue-shadowable, "a" refused while the run is active, "i" signed. -/
def kn (off : Nat) (flags : String) (lo hi : Int) : KnobRow :=
  let has (c : Char) := flags.toList.contains c
  ⟨off, 32, has 'i', has 'r', has 's', has 'a', lo, hi⟩
/-- The whole range of a word. -/
def kw (off : Nat) (flags : String) : KnobRow := kn off flags 0 4294967295

end Sys2Proof.Machine
end

