-- ==== Sys2Proof/Machine/Cores.lean ====
section
/-! DEFINITION. Tile cores and frame cores (R198–R223, spec/08_cores.md): state, decoding of instruction words, results in flight, loops,
faults, and every instruction. A core is numbered 0–15 (frame) or 16 + t (tile). POST, STEP and the record units stand in `CoreUnits`. -/
namespace Sys2Proof.Machine

/-! ## State -/

/-- A core with everything 0. -/
def Core.blank : Core :=
  ⟨Tab.empty, Tab.empty, Tab.empty, Tab.empty, Tab.empty, Tab.empty, 0, 0, 0, 0, [], [], Tab.empty, Tab.empty, 0, 0, 0, 0, 0, 0, none, false, 0, none,
   false, none, none, [], [], [], [], none, false⟩
/-- The core. -/
def Dev.core (d : Dev) (c : Nat) : Core := d.cores.getD c Core.blank
/-- Change it. -/
def Dev.setCore (d : Dev) (c : Nat) (f : Core → Core) : Dev := { d with cores := d.cores.put c (f (d.core c)) }


/-- Whether a core is a frame core (R198). -/
def isFrame (c : Nat) : Bool := decide (c < 16)
/-- Words of data memory, instructions of instruction memory (R198). -/
def dataSize (c : Nat) : Nat := if isFrame c then 65536 else 8192
def codeSize (c : Nat) : Nat := if isFrame c then 8192 else 2048

/-- A data register. -/
def Core.r (x : Core) (i : Nat) : Word := x.d.getD i 0
/-- An instruction word. -/
def Core.word (x : Core) (pc : Nat) : Nat := x.imem.getD pc 0
/-- A data memory word. -/
def Core.load (x : Core) (a : Nat) : Word := x.dmem.getD a 0
/-- Store one. -/
def Core.store (x : Core) (a : Nat) (v : Word) : Core := { x with dmem := x.dmem.set0 0 a v }

/-- The status fields of a core (R222): STATE 0 RESET, 1 RUNNING, 2 WAITING, 3 HALTED, 4 FAULT, 5 STOPPED. -/
def coreStateFld (c : Nat) : Fld := if isFrame c then F.CORE_STATUS_STATE else F.CORE_T_STATUS_STATE
def coreCauseFld (c : Nat) : Fld := if isFrame c then F.CORE_STATUS_CAUSE else F.CORE_T_STATUS_CAUSE
def coreCodeFld (c : Nat) : Fld := if isFrame c then F.CORE_STATUS_CODE else F.CORE_T_STATUS_CODE
/-- The core's element number in its register group. -/
def coreIx (c : Nat) : Nat := if isFrame c then c else c - 16
/-- STATE of the core. -/
def Dev.coreState (d : Dev) (c : Nat) : Nat := d.rd (coreStateFld c) (coreIx c)
/-- Set it. -/
def Dev.setCoreState (d : Dev) (c st : Nat) : Dev := d.wr (coreStateFld c) st (coreIx c)
/-- Set CODE: 0 OK, 1 STATE, 2 HALTED. -/
def Dev.coreCode (d : Dev) (c k : Nat) : Dev := d.wr (coreCodeFld c) k (coreIx c)

/-- Whether a section places tile core t (logical column t / 16, row t % 16; R215). -/
def SectionDesc.placesTile (s : SectionDesc) (t : Nat) : Bool := s.sorts.any (fun x => x.kind == 5 && x.col == t / 16 && x.row == t % 16)
/-- The ACTIVE section that places tile core t. -/
def Dev.tileOwner (d : Dev) (t : Nat) : Option Nat :=
  (d.sections.cells.find? (fun p => d.secState p.1 == 2 && p.2.desc.placesTile t)).map (·.1)
/-- Whether commands and instructions reach the core: a tile core's section is ACTIVE (R217). -/
def Dev.coreLive (d : Dev) (c : Nat) : Bool := isFrame c || (d.tileOwner (c - 16)).isSome
/-- Whether an input port of a section carries valid data (R40, R94): its converter delivers, or its producer is ACTIVE. -/
def Dev.portValid (d : Dev) (b : InPort) : Bool :=
  b.bound && (if 128 ≤ b.producer then d.cnvState (b.producer - 128) == 1 || d.cnvState (b.producer - 128) == 3 else d.secState b.producer == 2)
/-- Whether a section is clocked (R48): a gated one while one of its input ports carries valid data. -/
def Dev.clocked (d : Dev) (i : Nat) : Bool := match d.desc i with
  | some s => s.gating != 1 || s.inputs.any d.portValid
  | none => false
/-- Whether clocks reach the core: a tile core's section is ACTIVE and not gated (R48). -/
def Dev.coreClocked (d : Dev) (c : Nat) : Bool := isFrame c || (d.tileOwner (c - 16)).any d.clocked
/-- Whether it issues instructions. -/
def Dev.coreRunning (d : Dev) (c : Nat) : Bool := d.coreClocked c && d.coreState c == 1

/-- Count clocks of RUNNING or WAITING, and stall clocks (R212). -/
def Dev.coreCycles (d : Dev) (c k : Nat) : Dev :=
  if isFrame c then d.setWide F.CORE_CYCLES_LO_COUNT (d.wideAt F.CORE_CYCLES_LO_COUNT c + k) c else d.inc F.CORE_T_CYCLES_COUNT (c - 16) 0 k
def Dev.coreStalls (d : Dev) (c k : Nat) : Dev := d.inc (if isFrame c then F.CORE_STALLS_COUNT else F.CORE_T_STALLS_COUNT) (coreIx c) 0 k

/-- What a core reports when it enters HALTED or FAULT (R216, R223), or STOPPED (frame cores). -/
def Dev.coreEnded (d : Dev) (c : Nat) : Dev :=
  if isFrame c then d.raise 39 c else match d.tileOwner (c - 16) with | some i => d.sectionEvent i 15 | none => d
/-- A software event (R216, R223). -/
def Dev.coreSwi (d : Dev) (c : Nat) : Dev :=
  if isFrame c then d.raise 39 (16 + c) else match d.tileOwner (c - 16) with | some i => d.sectionEvent i 14 | none => d

/-! ## Instruction words (R201, R204) -/

/-- The operation: the code of format S, or 64 + the code of format I. -/
def opOf (w : Nat) : Nat := if w.testBit 63 then 64 + bits w 57 6 else bits w 57 6
def fD (w : Nat) : Nat := bits w 52 5
def fS1 (w : Nat) : Nat := bits w 47 5
def fS2 (w : Nat) : Nat := bits w 42 5
def fAcc (w : Nat) : Nat := bits w 40 2
def fImm (w : Nat) : Nat := bits w 0 32
/-- A memory slot of format S: kind 0 none, 1 load, 2 store, 3 stream; address register; data register. -/
structure MemSlot where
  kind : Nat
  areg : Nat
  dreg : Nat
deriving DecidableEq, Repr
def slotX (w : Nat) : MemSlot := ⟨bits w 38 2, bits w 35 3, bits w 30 5⟩
def slotY (w : Nat) : MemSlot := ⟨bits w 28 2, bits w 25 3, bits w 20 5⟩
/-- Both slots of an instruction; format I has none. -/
def slotsOf (w : Nat) : List MemSlot := if w.testBit 63 then [] else [slotX w, slotY w]
/-- LOOP's fields (R211). -/
def loopLen (w : Nat) : Nat := bits w 20 12

/-- Whether the word is no instruction of this core (R201, R202, R204, R209, R213 cause 1). -/
def illegalWord (c w : Nat) : Bool :=
  if w.testBit 63 then
    decide (8 < bits w 57 6) || bits w 32 20 != 0 || (opOf w == 66 && fD w / 8 == 3) || (opOf w == 72 && loopLen w == 0)
  else decide (0x27 < bits w 57 6) || (!isFrame c && (opOf w == 0x20 || opOf w == 0x21 || opOf w == 0x24)) ||
    (isFrame c && (slotsOf w).any (fun m => m.kind == 3))

/-- The fault of a legal word (R213), the lowest cause first. -/
def Core.faultOf (x : Core) (c w : Nat) : Option Nat :=
  if (slotsOf w).any (fun m => (m.kind == 1 || m.kind == 2) && decide (dataSize c ≤ x.a.getD m.areg 0)) then some 2
  else if opOf w = 72 ∧ (4 ≤ x.loops.length ∨ codeSize c ≤ x.pc + loopLen w) then some 4
  else if (slotsOf w).any (fun m => m.kind == 3 && (decide (4 ≤ m.areg) || m.dreg % 2 == 1)) || ((opOf w = 0x20 ∨ opOf w = 0x21) && fD w % 2 == 1) then some 5
  else none

/-! ## Results in flight (R204, R205) -/

/-- Put a result in flight. -/
def Core.fly (x : Core) (left : Nat) (dest : FlightDest) (v : Int) : Core := { x with flight := x.flight ++ [⟨left, dest, v⟩] }

/-- The conveyor moves n places with the results in flight (R200). -/
def Core.conveyor (x : Core) (n : Nat) : Core :=
  let old := x
  { x with
    d := (List.range 16).foldl (fun (t : Tab Word) i => t.set0 0 (16 + (i + n) % 16) (old.r (16 + i))) x.d
    flight := x.flight.map (fun f => match f.dest with
      | .reg r => if 16 ≤ r then { f with dest := .reg (16 + (r - 16 + n) % 16) } else f
      | _ => f)
    cvp := (x.cvp + n) % 16 }

/-- SR's fields (R199); its other bits read 0. -/
def srMask : Word := 0x007FFF7F

/-- MOVW to FETCH_GO (R218, R219): ignored and counted while the unit is busy or not enabled. -/
def Dev.fetchGo (d : Dev) (c : Nat) : Dev :=
  if !(d.is F.CORE_IN_EN c) || (d.core c).fetchOn.isSome then d.inc F.CORE_IN_SKIP_COUNT c
  else d.setCore c (fun x => { x with fetchOn := some d.clk, fetchDone := false })
/-- MOVW to DEP_GO. -/
def Dev.depGo (d : Dev) (c : Nat) : Dev :=
  if !(d.is F.CORE_OUT_EN c) || (d.core c).depOn.isSome then d.inc F.CORE_OUT_STALL_COUNT c
  else d.setCore c (fun x => { x with depOn := some d.clk, depDone := false })
/-- Doorbell bits cleared by MOVW (R221, R446); those set on the same clock stay (R8). -/
def Dev.dbClear (d : Dev) (c v : Nat) (hi : Bool) : Dev :=
  let f := if hi then F.CORE_DB_HI_DB else F.CORE_DB_LO_DB
  let was := d.rd f c
  let gone := (was - (was &&& (d.freshBits (f.at_ c 0)).toNat)) &&& v
  (d.wr f (was - gone) c).coreCompletes c (gone * (if hi then 2 ^ 32 else 1))

/-- A control register receives its value (R214). -/
def Dev.ctrlWrite (d : Dev) (c n v : Nat) : Dev :=
  match n with
  | 0 => d.setCore c (fun x => { x with sr := BitVec.ofNat 32 v &&& srMask })
  | 1 => d.setCore c (fun x => x.conveyor ((v % 16 + 16 - x.cvp) % 16))
  | 2 => d.setCore c (fun x => { x with lr := v % 8192 })
  | 6 => d.setCore c (fun x => { x with evt := x.evt - (x.evt &&& v) })
  | n =>
    if !isFrame c then d
    else match n with
      | 4 => d.dbClear c v false
      | 5 => d.dbClear c v true
      | 10 => d.setCore c (fun x => { x with fetchAddr := v % 65536 })
      | 11 => d.setCore c (fun x => { x with fetchMax := v })
      | 12 => d.fetchGo c
      | 13 => d.setCore c (fun x => { x with depAddr := v % 65536 })
      | 14 => d.depGo c
      | _ => d

/-- A result reaches its register. -/
def Dev.coreLand (d : Dev) (c : Nat) (f : Flight) : Dev :=
  match f.dest with
  | .reg r => d.setCore c (fun x => { x with d := x.d.set0 0 r (BitVec.ofInt 32 f.value) })
  | .acc k => d.setCore c (fun x => { x with acc := x.acc.set0 0 k f.value })
  | .ctrl n => d.ctrlWrite c n (unsigned 32 f.value)
  | .shift => d.setCore c (fun x => { x with sr := x.sr.setField 0 7 f.value.toNat })

/-- One issue slot passes: every result in flight comes one slot nearer, those that arrive land in the order they were issued. -/
def Dev.coreTick (d : Dev) (c : Nat) : Dev :=
  let ready := (d.core c).flight.filter (fun f => decide (f.left ≤ 1))
  let d := d.setCore c (fun x => { x with flight := (x.flight.filter (fun f => decide (1 < f.left))).map (fun f => { f with left := f.left - 1 }) })
  ready.foldl (fun d f => d.coreLand c f) d
/-- Every result in flight lands (R213, R222): none has more than 4 slots left. -/
def Dev.landAll (d : Dev) (c : Nat) : Dev := (((d.coreTick c).coreTick c).coreTick c).coreTick c

/-! ## Address registers, accumulators, loops -/

/-- The next address of the circular arithmetic of R203. -/
def stepAddr (a b l : Nat) (inc : Int) : Nat :=
  if l = 0 then unsigned 16 (a + inc) else unsigned 16 (b + ((a : Int) - b + inc) % l)
/-- Set an address register. -/
def Core.setA (x : Core) (k v : Nat) : Core := { x with a := x.a.set0 0 k (v % 65536) }
/-- The address-register update of format S. -/
def Core.update (x : Core) (w : Nat) : Core :=
  if w.testBit 16 ∧ ¬ w.testBit 63 then
    let k := bits w 17 3
    x.setA k (stepAddr (x.a.getD k 0) (x.b.getD k 0) (x.l.getD k 0) (signed 16 (bits w 0 16)))
  else x

/-- Accumulators saturate at ±(2^71 − 1) (R199). -/
def accMax : Int := 2 ^ 71 - 1
/-- SR.SAT is sticky. -/
def Core.satIf (x : Core) (b : Bool) : Core := if b then { x with sr := x.sr ||| 0x8000 } else x
/-- A MAC-family result: the next MAC instruction sees it, other readers after 4 slots (R205). -/
def Core.macWrite (x : Core) (k : Nat) (v : Int) : Core :=
  let s := clampInt (-accMax) accMax v
  (({ x with accMac := x.accMac.set0 0 k s }.fly 4 (.acc k) s).satIf (s != v))
/-- ACCSET and DIVS: every reader sees the value next; results of earlier MAC instructions on it do not follow. -/
def Core.accWrite (x : Core) (k : Nat) (v : Int) : Core :=
  let s := clampInt (-accMax) accMax v
  ({ x with accMac := x.accMac.set0 0 k s, acc := x.acc.set0 0 k s, flight := x.flight.filter (fun (f : Flight) => f.dest != FlightDest.acc k) }).satIf (s != v)

/-- Take an iteration end of the innermost loop (R200, R211), when the PC has run past its last instruction. -/
def Core.iterationEnd (x : Core) : Core :=
  match x.loops with
  | [] => x
  | l :: t =>
    if x.pc = (l.last + 1) % 8192 then
      let x := if l.rotate then x.conveyor 1 else x
      if l.count ≤ 1 then { x with loops := t } else { x with pc := l.start, loops := { l with count := l.count - 1 } :: t }
    else x
/-- Take every end that is due: nested bodies may end together. -/
def Core.settleLoops (x : Core) : Core := (((x.iterationEnd).iterationEnd).iterationEnd).iterationEnd
/-- Whether an iteration end is due. -/
def Core.endDue (x : Core) : Bool := match x.loops with | [] => false | l :: _ => x.pc == (l.last + 1) % 8192

/-- Loops whose body does not hold the target of a taken branch end (R211). -/
def dropLoops (t : Nat) : List CoreLoop → List CoreLoop
  | [] => []
  | l :: r => if l.start ≤ t ∧ t ≤ l.last then l :: r else dropLoops t r

/-- A taken branch (R206, R211): 2 further clocks pass. -/
def Dev.takeBranch (d : Dev) (c t : Nat) : Dev :=
  let d := d.setCore c (fun x => { x with pc := t, loops := dropLoops t x.loops })
  ((d.coreTick c).coreTick c).coreCycles c 2
/-- The next instruction in order: PC has 13 bits (R199). -/
def Dev.nextPc (d : Dev) (c : Nat) : Dev := d.setCore c (fun x => { x with pc := (x.pc + 1) % 8192 })

/-! ## Operations (R204, R207, R208) -/

/-- Signed limits of a word. -/
def sat32 (v : Int) : Int := clampInt (-2147483648) 2147483647 v
/-- The ALU operations: result and whether it saturated. -/
def aluResult (op : Nat) (a b : Word) : Int × Bool :=
  let sat (v : Int) : Int × Bool := (sat32 v, sat32 v != v)
  match op with
  | 1 => ((a + b).toInt, false)
  | 2 => ((a - b).toInt, false)
  | 3 => sat (a.toInt + b.toInt)
  | 4 => sat (a.toInt - b.toInt)
  | 5 => ((a &&& b).toInt, false)
  | 6 => ((a ||| b).toInt, false)
  | 7 => ((a ^^^ b).toInt, false)
  | 8 => ((a <<< (b.toNat % 32)).toInt, false)
  | 9 => ((a >>> (b.toNat % 32)).toInt, false)
  | 10 => ((a.sshiftRight (b.toNat % 32)).toInt, false)
  | 11 => (min a.toInt b.toInt, false)
  | 12 => (max a.toInt b.toInt, false)
  | 13 => sat (a.toInt.natAbs : Int)
  | 14 => (if a.toInt < b.toInt then 1 else 0, false)
  | _ => (if a = b then 1 else 0, false)

/-- The addend of a MAC-family operation. -/
def macProduct (op : Nat) (a b : Word) : Int :=
  if op = 0x14 then signed 16 a.toNat * signed 16 b.toNat + signed 16 (a.toNat / 65536) * signed 16 (b.toNat / 65536) else a.toInt * b.toInt

/-- An arithmetic right shift rounded half to even (R207). -/
def roundShift (v : Int) (s : Nat) : Int :=
  let q := v / (2 ^ s : Nat)
  let r := v % (2 ^ s : Nat)
  if 2 * r < (2 ^ s : Nat) then q else if (2 ^ s : Nat) < 2 * r then q + 1 else if q % 2 = 0 then q else q + 1
/-- The smallest shift under which the magnitude lies below 2^31. -/
def needShift (v : Int) : Nat := ((List.range 42).find? (fun (s : Nat) => decide ((v / (2 ^ s : Nat)).natAbs < 2 ^ 31))).getD 42

/-- Results bound for SR that would arrive with this instruction's own effect on it land first. -/
def Dev.landSr (d : Dev) (c : Nat) : Dev :=
  let due (f : Flight) : Bool := decide (f.left ≤ 1) && (f.dest == .ctrl 0 || f.dest == .shift)
  let ready := (d.core c).flight.filter due
  let d := d.setCore c (fun x => { x with flight := x.flight.filter (fun f => !(due f)) })
  ready.foldl (fun d f => d.coreLand c f) d

/-- MOVS (R207). -/
def Dev.coreMovs (d : Dev) (c w : Nat) : Dev :=
  let x := d.core c
  let v := x.acc.getD (fAcc w) 0
  let s := min 71 (x.sr.field 0 7)
  let q := roundShift v s
  let d := d.landSr c
  d.setCore c (fun x =>
    (({ x with sr := (x.sr.setField 16 7 s).setField 8 7 (max (x.sr.field 8 7) (needShift v)) }).satIf (sat32 q != q)).fly 1 (.reg (fD w)) (sat32 q))

/-- DIVS (R208): defined for 0 < d[S1] < 2^31 and a partial remainder in [−X, X); elsewhere both results are free (log entry 2). -/
def Dev.coreDivs (d : Dev) (c w : Nat) : Dev :=
  let x := d.core c
  let v := x.acc.getD (fAcc w) 0
  let den := (x.r (fS1 w)).toNat
  let big : Int := (den * 65536 : Nat)
  let q := x.r (fD w)
  if 0 < den ∧ den < 2 ^ 31 ∧ -big ≤ v ∧ v < big then
    let n := if 0 ≤ v then 2 * v - big else 2 * v + big
    d.setCore c (fun x => (x.accWrite (fAcc w) n).fly 1 (.reg (fD w)) ((q <<< 1) ||| (if 0 ≤ n then 1 else 0)).toInt)
  else
    let a := d.fresh
    let d := d.usedFree
    let b := d.fresh
    d.usedFree.setCore c (fun x => (x.accWrite (fAcc w) (signed 72 a)).fly 1 (.reg (fD w)) (signed 32 b))

/-- MOVR (R214): the value read, and the time latch that reading TIME0 makes. -/
def Dev.ctrlRead (d : Dev) (c n : Nat) : Dev × Nat :=
  let x := d.core c
  match n with
  | 0 => (d, x.sr.toNat)
  | 1 => (d, x.cvp)
  | 2 => (d, x.lr)
  | 3 => (d, match x.loops with | [] => 0 | l :: _ => l.count)
  | 6 => (d, x.evt)
  | 7 =>
    let t := d.now96
    (d.setCore c (fun x => { x with time1 := t / 2 ^ 32 % 2 ^ 32, time2 := t / 2 ^ 64 }), t % 2 ^ 32)
  | 8 => (d, x.time1)
  | 9 => (d, x.time2)
  | 15 => (d, coreIx c)
  | n =>
    if !isFrame c then (d, 0)
    else match n with
      | 4 => (d, d.rd F.CORE_DB_LO_DB c)
      | 5 => (d, d.rd F.CORE_DB_HI_DB c)
      | 10 => (d, x.fetchAddr)
      | 11 => (d, x.fetchMax)
      | 13 => (d, x.depAddr)
      | 16 => (d, x.fetchLen)
      | _ => (d, 0)

/-- Conditions present for WAIT (R210). -/
def Dev.coreConds (d : Dev) (c : Nat) : Nat :=
  let x := d.core c
  if isFrame c then
    let db := (d.rd F.CORE_DB_LO_DB c &&& d.rd F.CORE_DB_EN_LO_EN c) ||| (d.rd F.CORE_DB_HI_DB c &&& d.rd F.CORE_DB_EN_HI_EN c)
    (if db = 0 then 0 else 1) + (if x.fetchDone then 2 else 0) + (if x.depDone then 4 else 0) + x.evt % 16 * 16
  else (if x.in0.isEmpty then 0 else 8) + x.evt % 2 * 16

/-- An element of a searched vector (R209). -/
def Core.element (x : Core) (areg : Nat) (halves : Bool) (k : Nat) : Int :=
  let a := stepAddr (x.a.getD areg 0) (x.b.getD areg 0) (x.l.getD areg 0) (if halves then k / 2 else k : Nat)
  let w := x.load a
  if halves then (bits w.toNat (k % 2 * 16) 16 : Nat) else w.toInt
/-- The extreme element and its lowest index among the first `n`. -/
def Core.searchBest (x : Core) (areg : Nat) (halves maxi : Bool) : Nat → Int × Nat
  | 0 => (x.element areg halves 0, 0)
  | n + 1 =>
    let b := x.searchBest areg halves maxi n
    let v := x.element areg halves n
    if (if maxi then decide (b.1 < v) else decide (v < b.1)) then (v, n) else b
/-- VMAXI and VMINI begin (R209). -/
def Dev.coreSearch (d : Dev) (c w : Nat) (maxi : Bool) : Dev :=
  let x := d.core c
  let n := (x.r (fS1 w)).toNat % 65536
  let len := if n = 0 then 65536 else n
  let b := x.searchBest (slotX w).areg ((fS2 w).testBit 0) maxi len
  d.setCore c (fun x => { x with search := some ⟨fD w, unsigned 32 b.1, b.2, (len + 1) / 2 + 4⟩ })

/-- The halyards of a section's claim. -/
def claimed (s : SectionDesc) : List Nat := (List.range 64).filter (fun h => s.claim.getLsbD h)
/-- SIG (R216, R220). A section that claims several halyards routes one to the output: which, its image does not say here (log entry 2). -/
def Dev.coreSig (d : Dev) (c pos : Nat) : Dev :=
  if isFrame c then (if d.is F.CORE_HAL_OUT_EN c then d.driveHalyard (d.rd F.CORE_HAL_OUT_HAL c) (pos % 32) none else d)
  else match (d.tileOwner (c - 16)).bind d.desc with
    | none => d
    | some s => match claimed s with
      | [] => d
      | [h] => d.driveHalyard h (pos % 32) none
      | hs => (d.driveHalyard (hs.getD (d.fresh % hs.length) 0) (pos % 32) none).usedFree

/-- HALT, or a fault: every result lands and the state is entered. -/
def Dev.coreHalt (d : Dev) (c st : Nat) : Dev := ((d.landAll c).setCoreState c st).coreEnded c

/-- The operation of a format-S word but for branches, WAIT and HALT; none of these moves the PC. -/
def Dev.coreOp (d : Dev) (c w : Nat) : Dev :=
  let x := d.core c
  let op := opOf w
  let a := x.r (fS1 w)
  let b := x.r (fS2 w)
  let acc := x.acc.getD (fAcc w) 0
  let res (v : Int) : Dev := d.setCore c (fun x => x.fly 1 (.reg (fD w)) v)
  if 1 ≤ op ∧ op ≤ 15 then
    let r := aluResult op a b
    (if r.2 then (d.landSr c).setCore c (fun x => x.satIf true) else d).setCore c (fun x => x.fly 1 (.reg (fD w)) r.1)
  else match op with
    | 0x10 => d.setCore c (fun x => x.fly 3 (.reg (fD w)) (a * b).toInt)
    | 0x11 => d.setCore c (fun x => x.macWrite (fAcc w) (x.accMac.getD (fAcc w) 0 + macProduct op a b))
    | 0x12 => d.setCore c (fun x => x.macWrite (fAcc w) (x.accMac.getD (fAcc w) 0 - macProduct op a b))
    | 0x13 => d.setCore c (fun x => x.macWrite (fAcc w) (macProduct op a b))
    | 0x14 => d.setCore c (fun x => x.macWrite (fAcc w) (x.accMac.getD (fAcc w) 0 + macProduct op a b))
    | 0x15 => d.coreMovs c w
    | 0x16 => res (acc % (2 ^ 32 : Nat))
    | 0x17 => res (acc / (2 ^ 32 : Nat) % (2 ^ 32 : Nat))
    | 0x18 => res (acc / (2 ^ 64 : Nat))
    | 0x19 => d.setCore c (fun x => x.accWrite (fAcc w) (signed 64 (b.toNat * 2 ^ 32 + a.toNat)))
    | 0x1A =>
      let n := x.sr.field 8 7
      (d.setCore c (fun x => ({ x with sr := x.sr.setField 8 7 0 }).fly 2 .shift n))
    | 0x1B => d.coreDivs c w
    | 0x1C => let r := d.ctrlRead c (fS1 w); r.1.setCore c (fun x => x.fly 1 (.reg (fD w)) r.2)
    | 0x1D => d.setCore c (fun x => x.fly 2 (.ctrl (fD w)) a.toNat)
    | 0x1E => d.setCore c (fun x => x.setA (fD w % 8) (a.toNat % 65536))
    | 0x1F => res (x.a.getD (fS1 w % 8) 0)
    | 0x20 => d.coreSearch c w true
    | 0x21 => d.coreSearch c w false
    | 0x23 => d.coreSig c (a.toNat % 32)
    | 0x24 => d.wr F.CORE_POST_WORD a.toNat c (fD w % 8)
    | 0x25 => d.coreSwi c
    | _ => d

/-! ## Memory slots (R202, R216) -/

/-- Entries a core may read from and write to its stream queues. -/
def Core.streamBlocked (x : Core) (w : Nat) : Bool :=
  let uses (k : Nat) := (slotsOf w).countP (fun m => m.kind == 3 && m.areg == k)
  decide (x.in0.length < uses 0) || decide (x.in1.length < uses 1) || decide (16 < x.out0.length + uses 2) || decide (16 < x.out1.length + uses 3)

/-- A pair read from a stream into two registers. -/
def Core.pair (x : Core) (r v : Nat) : Core := (x.fly 3 (.reg r) (signed 32 v)).fly 3 (.reg (r + 1)) (signed 32 (v / 2 ^ 32))
/-- One slot: `addr` and `old` are the address registers and data registers as they stood. -/
def Core.access (x : Core) (old : Core) (m : MemSlot) : Core :=
  let a := old.a.getD m.areg 0
  let word := (old.r m.dreg).toNat + (old.r (m.dreg + 1)).toNat * 2 ^ 32
  match m.kind with
  | 1 => x.fly 3 (.reg m.dreg) (x.load a).toInt
  | 2 => x.store a (old.r m.dreg)
  | 3 => match m.areg with
    | 0 => { x with in0 := x.in0.drop 1 }.pair m.dreg (x.in0.headD 0)
    | 1 => { x with in1 := x.in1.drop 1 }.pair m.dreg (x.in1.headD 0)
    | 2 => { x with out0 := x.out0 ++ [word] }
    | _ => { x with out1 := x.out1 ++ [word] }
  | _ => x
/-- Slot X, then slot Y, then the update. -/
def Dev.coreSlots (d : Dev) (c w : Nat) (old : Core) : Dev :=
  d.setCore c (fun x => ((slotsOf w).foldl (fun x m => x.access old m) x).update w)

/-! ## Issue -/

/-- WAIT (R210, R222): completes at once, or the core waits with its PC there. -/
def Dev.coreWait (d : Dev) (c w : Nat) : Dev :=
  let mask := ((d.core c).r (fS1 w)).toNat
  let have_ := d.coreConds c
  if have_ &&& mask ≠ 0 then (d.setCore c (fun x => x.fly 1 (.reg (fD w)) have_)).nextPc c
  else (d.setCore c (fun x => { x with wait := some (mask, fD w, d.clk) })).setCoreState c 2

/-- LOOP (R211). -/
def Dev.coreLoop (d : Dev) (c w : Nat) : Dev :=
  let x := d.core c
  let n := if w.testBit 18 then (x.r (fD w)).toNat else bits w 0 16 + 1
  if n = 0 then d.setCore c (fun x => { x with pc := (x.pc + loopLen w + 1) % 8192 })
  else d.setCore c (fun x => { x with pc := x.pc + 1, loops := ⟨x.pc + 1, x.pc + loopLen w, n, w.testBit 19⟩ :: x.loops })

/-- Format I (R204): immediates, branches, CALL, LOOP. -/
def Dev.coreImm (d : Dev) (c w : Nat) : Dev :=
  let x := d.core c
  let v := x.r (fD w)
  let t := bits w 0 13
  let fly (v : Word) : Dev := (d.setCore c (fun x => x.fly 1 (.reg (fD w)) v.toInt)).nextPc c
  let branchIf (b : Bool) : Dev := if b then d.takeBranch c t else d.nextPc c
  match opOf w with
  | 64 => fly (BitVec.ofNat 32 (fImm w))
  | 65 => fly (v + BitVec.ofNat 32 (fImm w))
  | 66 => (d.setCore c (fun x =>
      let k := fD w % 8
      let n := bits w 0 16
      match fD w / 8 with
      | 0 => x.setA k n
      | 1 => { x with b := x.b.set0 0 k n }
      | _ => { x with l := x.l.set0 0 k n })).nextPc c
  | 67 => d.takeBranch c t
  | 68 => branchIf (v == 0)
  | 69 => branchIf (v != 0)
  | 70 => branchIf (v.toInt < 0)
  | 71 => (d.setCore c (fun x => { x with lr := (x.pc + 1) % 8192 })).takeBranch c t
  | _ => d.coreLoop c w

/-- Execute a legal word that neither faults nor stalls. Slots use the registers as they stood; a core in HALTED has its PC past HALT. -/
def Dev.coreExecute (d : Dev) (c w : Nat) : Dev :=
  let d := (d.coreTick c).coreCycles c 1
  if w.testBit 63 then d.coreImm c w
  else
    let old := d.core c
    let op := opOf w
    if op = 0x22 then
      let d := d.coreWait c w
      if d.coreState c = 2 then d else d.coreSlots c w old
    else
      let d := (d.coreOp c w).coreSlots c w old
      if op = 0x26 then d.takeBranch c old.lr
      else
        let d := d.nextPc c
        if op = 0x27 then d.coreHalt c 3 else d

/-- A fault (R213). -/
def Dev.coreFault (d : Dev) (c cause : Nat) : Dev :=
  let pc := (d.core c).pc
  ((d.wr (coreCauseFld c) cause (coreIx c)).wr (if isFrame c then F.CORE_FAULT_PC_PC else F.CORE_T_FAULT_PC_PC) pc (coreIx c)).coreHalt c 4

/-- The instruction at the PC issues, after the loop ends that are due: `op` none takes any. A stream that blocks stalls the core. -/
def Dev.coreIssue (d : Dev) (c : Nat) (op : Option Nat) : Dev :=
  let e := d.setCore c Core.settleLoops
  let x := e.core c
  let w := x.word x.pc
  if codeSize c ≤ x.pc then e.coreFault c 3
  else if illegalWord c w then e.coreFault c 1
  else if op.any (fun o => o != opOf w) then d
  else match x.faultOf c w with
    | some k => e.coreFault c k
    | none =>
      if x.streamBlocked w then (if x.stall.isSome then d else e.setCore c (fun x => { x with stall := some d.clk }))
      else e.coreExecute c w

/-- An instruction row: the core issues it when it is RUNNING, nothing stalls it and its PC names that instruction. -/
def Dev.coreInstr (d : Dev) (c op : Nat) : Dev :=
  if d.coreRunning c && (d.core c).search.isNone && (d.core c).stall.isNone then d.coreIssue c (some op) else d

/-! ## Ends of stalls -/

/-- A vector search completes (R209, R212). -/
def Dev.searchDone (d : Dev) (c : Nat) : Dev :=
  match (d.core c).search with
  | none => d
  | some s =>
    let d := d.setCore c (fun x => (({ x with search := none }).fly 1 (.reg s.dest) s.value).fly 1 (.reg (s.dest + 1)) s.index)
    (d.coreStalls c s.clocks).coreCycles c (s.clocks - 1)
/-- A masked condition holds for a waiting core (R210, R222). -/
def Dev.waitWake (d : Dev) (c : Nat) : Dev :=
  match (d.core c).wait with
  | none => d
  | some (mask, dst, t0) =>
    let have_ := d.coreConds c
    if d.coreClocked c && d.coreState c == 2 && have_ &&& mask != 0 then
      let x := d.core c
      let w := x.word x.pc
      let d := d.setCore c (fun x => ({ x with wait := none }).fly 1 (.reg dst) have_)
      let d := ((d.setCoreState c 1).coreStalls c (d.clk - t0)).coreCycles c (d.clk - t0)
      (d.coreSlots c w x).nextPc c
    else d
/-! ### Streams through the chase (R38, R216) -/

/-- The tile-core input ports that routes from a sort or section port of section i reach, with the latency: tile, port, clocks. -/
def SectionDesc.tileEnds (s : SectionDesc) (col kind row port : Nat) : List (Nat × Nat × Nat) :=
  s.routes.filterMap (fun r =>
    if r.srcKind = kind ∧ r.srcRow = row ∧ (kind = 0xFF ∨ (r.srcCol = col ∧ r.srcPort = port)) ∧ r.dstKind = 5 then
      some (r.dstCol * 16 + r.dstRow, r.dstPort, s.routeLatency r)
    else none)
/-- The sections' output ports that routes from a tile core's output port reach, with the latency. -/
def SectionDesc.portEnds (s : SectionDesc) (t p : Nat) : List (Nat × Nat) :=
  s.routes.filterMap (fun r =>
    if r.srcKind = 5 ∧ r.srcCol = t / 16 ∧ r.srcRow = t % 16 ∧ r.srcPort = p ∧ r.dstKind = 0xFF then some (r.dstRow, s.routeLatency r) else none)
/-- Where output port k of section i goes on: the tile-core inputs behind the input ports of ACTIVE sections bound to it (R39). -/
def Dev.boundEnds (d : Dev) (i k : Nat) : List (Nat × Nat × Nat) :=
  (d.sections.cells.filter (fun p => d.secState p.1 == 2)).flatMap (fun p =>
    p.2.desc.inputs.zipIdx.flatMap (fun b => if b.1.bound && b.1.producer == i && b.1.port == k then p.2.desc.tileEnds 0 0xFF b.2 0 else []))
/-- The tile-core inputs that output port p of tile core t is joined to (R38). -/
def Dev.joined (d : Dev) (t p : Nat) : List (Nat × Nat × Nat) :=
  match d.tileOwner t with
  | none => []
  | some i => match d.desc i with
    | none => []
    | some s => s.tileEnds (t / 16) 5 (t % 16) p ++ (s.portEnds t p).flatMap (fun e => (d.boundEnds i e.1).map (fun x => (x.1, x.2.1, x.2.2 + e.2)))
/-- Whether a tile core's output comes in at port q of tile core t. -/
def Dev.tileFed (d : Dev) (t q : Nat) : Bool :=
  d.cores.cells.any (fun p => 16 ≤ p.1 && [0, 1].any (fun o => (d.joined (p.1 - 16) o).any (fun e => e.1 == t && e.2.1 == q)))

/-- The queue of a stream: ports 0 and 1 in, 2 and 3 out. -/
def Core.stream (x : Core) : Nat → List Nat
  | 0 => x.in0
  | 1 => x.in1
  | 2 => x.out0
  | _ => x.out1
/-- Change it. -/
def Core.setStream (x : Core) (k : Nat) (l : List Nat) : Core := match k with
  | 0 => { x with in0 := l }
  | 1 => { x with in1 := l }
  | 2 => { x with out0 := l }
  | _ => { x with out1 := l }
/-- Words that have come through the chase enter their queues, oldest first; those for a core of no ACTIVE section go nowhere (R40). -/
def Dev.chaseIn (d : Dev) : Dev :=
  let due := d.chase.filter (fun w => decide (w.due ≤ d.clk))
  due.foldl (fun d w => if (d.tileOwner w.tile).isNone then d
    else d.setCore (16 + w.tile) (fun x => x.setStream w.port (x.stream w.port ++ [w.word])))
    { d with chase := d.chase.filter (fun w => decide (d.clk < w.due)) }
/-- Whether the queue of an input has room for one more, counting the words on their way to it. -/
def Dev.chaseRoom (d : Dev) (t q : Nat) : Bool := decide (((d.core (16 + t)).stream q).length + d.chase.countP (fun w => w.tile == t && w.port == q) < 16)
/-- Words of an output that is joined leave for their inputs while all of these have room. -/
def Dev.chaseOut (d : Dev) (t p : Nat) : Nat → Dev
  | 0 => d
  | n + 1 =>
    match (d.core (16 + t)).stream (2 + p), d.joined t p with
    | w :: rest, e :: es =>
      if (e :: es).all (fun x => d.chaseRoom x.1 x.2.1) then
        ({ d.setCore (16 + t) (fun x => x.setStream (2 + p) rest) with
          chase := d.chase ++ (e :: es).map (fun x => ⟨x.1, x.2.1, w, d.clk + x.2.2⟩) } : Dev).chaseOut t p n
      else d
    | _, _ => d
/-- The chase moves what it can. -/
def Dev.chaseMove (d : Dev) : Dev :=
  let d := d.chaseIn
  d.cores.cells.foldl (fun d p => if 16 ≤ p.1 then (d.chaseOut (p.1 - 16) 0 16).chaseOut (p.1 - 16) 1 16 else d) d
/-- Words come in at a port that no tile core feeds, as many as its queue takes. -/
def Dev.streamIn (d : Dev) (t q : Nat) (l : List (BitVec 64)) : Dev :=
  if d.tileFed t q then d else d.setCore (16 + t) (fun x => x.setStream q ((x.stream q ++ l.map (·.toNat)).take 16))
/-- Words leave a port that no tile core takes from. -/
def Dev.streamOut (d : Dev) (t p n : Nat) : Dev :=
  if (d.joined t p).isEmpty then d.setCore (16 + t) (fun x => x.setStream (2 + p) ((x.stream (2 + p)).drop n)) else d

/-- Words arrive in a tile core's input queues and leave its output queues; a stall that ends issues its instruction (R212, R216). Between cores that
routes join, the chase carries the words; the operands give what comes from and goes to other sorts. -/
def Dev.streamEnd (d : Dev) (t : Nat) (in0 in1 : List (BitVec 64)) (taken0 taken1 : Nat) : Dev :=
  let c := 16 + t
  if (d.tileOwner t).isNone then d
  else
    let d := ((((d.streamIn t 0 in0).streamIn t 1 in1).streamOut t 0 taken0).streamOut t 1 taken1).chaseMove
    match (d.core c).stall with
    | none => d
    | some t0 =>
      let x := d.core c
      if d.coreRunning c && !(x.streamBlocked (x.word x.pc)) then
        let d := (d.setCore c (fun x => { x with stall := none })).coreStalls c (d.clk - t0)
        (d.coreCycles c (d.clk - t0)).coreIssue c none
      else d

/-! ## Commands (R217, R222) -/

/-- Registers cleared, memories kept. -/
def Core.cleared (x : Core) : Core := { Core.blank with imem := x.imem, dmem := x.dmem, autostart := x.autostart }

/-- CMD START. -/
def Dev.coreStart (d : Dev) (c : Nat) : Dev :=
  let st := d.coreState c
  if !(d.coreLive c) then d.coreCode c 1
  else if isFrame c && d.halted then d.coreCode c 2
  else if st = 1 ∨ st = 2 then d.coreCode c 1
  else
    let pc := if isFrame c then d.rd F.CORE_START_PC_PC c else d.rd F.CORE_T_START_PC_PC (c - 16)
    ((d.setCore c (fun x => { x with pc := pc, loops := [], cvp := 0 })).setCoreState c 1).coreCode c 0

/-- CMD STOP: a search completes first, a WAIT or stream stall is abandoned with the PC there. -/
def Dev.coreStop (d : Dev) (c : Nat) : Dev :=
  let st := d.coreState c
  if !(d.coreLive c) || !(st == 1 || st == 2) then d.coreCode c 1
  else
    let d := d.searchDone c
    let since := match (d.core c).wait, (d.core c).stall with | some (_, _, t), _ => d.clk - t | none, some t => d.clk - t | none, none => 0
    let d := (d.coreStalls c since).coreCycles c since
    let d := (d.setCore c (fun x => { x with wait := none, stall := none }.settleLoops)).landAll c
    let d := (d.setCoreState c 5).coreCode c 0
    if isFrame c then d.coreEnded c else d

/-- CMD RESET of a frame core. -/
def Dev.coreReset (d : Dev) (c : Nat) : Dev := ((d.setCore c Core.cleared).setCoreState c 0).coreCode c 0

/-- CMD STEP of a halted or stopped core (R222): one instruction; every result lands, a search completes, a WAIT or stream that would wait is
abandoned with the PC there. -/
def Dev.coreStep (d : Dev) (c : Nat) : Dev :=
  let st := d.coreState c
  if !(d.coreLive c) then d.coreCode c 1
  else if isFrame c && d.halted then d.coreCode c 2
  else if !(st == 3 || st == 5) then d.coreCode c 1
  else
    let d := (((d.setCoreState c 1).coreCode c 0).coreIssue c none).searchDone c
    let d := (d.setCore c (fun x => { x with wait := none, stall := none }.settleLoops)).landAll c
    if d.coreState c = 1 ∨ d.coreState c = 2 then d.setCoreState c st else d

/-- A reefing halt stops the frame cores (R222, R468). -/
def Dev.haltCores (d : Dev) : Dev := (List.range 16).foldl (fun d c => if d.coreState c = 1 ∨ d.coreState c = 2 then d.coreStop c else d) d

/-! ## Tile cores and their sections (R215, R217) -/

/-- The core a sort configuration describes. -/
def tileImage (cfg : List Byte) : Core :=
  let n := leNat ((cfg.drop 8).take 4)
  let w := leNat ((cfg.drop 12).take 4)
  { Core.blank with
    autostart := (leNat (cfg.take 8)).testBit 0
    imem := (List.range n).foldl (fun (t : Tab Nat) k => t.set0 0 k (leNat ((cfg.drop (16 + 8 * k)).take 8))) Tab.empty
    dmem := (List.range w).foldl (fun (t : Tab Word) k => t.set0 0 k (BitVec.ofNat 32 (leNat ((cfg.drop (16 + 8 * n + 4 * k)).take 4)))) Tab.empty }
/-- The status word of a tile core at the first clock of ACTIVE. -/
def Dev.tileBegin (d : Dev) (t : Nat) (x : Core) : Dev :=
  (({ d with cores := d.cores.put (16 + t) x, chase := d.chase.filter (fun w => w.tile != t) }.setCoreState (16 + t) (if x.autostart then 1 else 0)).wr F.CORE_T_STATUS_CAUSE 0 t).wr F.CORE_T_STATUS_CODE 0 t
/-- A section becomes ACTIVE by a load: its tile cores hold their images. -/
def Dev.tilesLoad (d : Dev) (s : SectionDesc) : Dev :=
  s.sorts.foldl (fun d x => if x.kind = 5 then d.tileBegin (x.col * 16 + x.row) (tileImage x.config) else d) d
/-- A section becomes ACTIVE by RELEASE: registers, loop stack and queues are cleared, memories stay. -/
def Dev.tilesRelease (d : Dev) (s : SectionDesc) : Dev :=
  s.sorts.foldl (fun d x => if x.kind = 5 then d.tileBegin (x.col * 16 + x.row) (d.core (16 + x.col * 16 + x.row)).cleared else d) d

/-! ## Registers with an effect of their own -/

/-- A write of `CORE_HAL_OUT` (R43, R220): an enable of a halyard another driver holds is ignored. -/
def Dev.coreHalOut (d : Dev) (c : Nat) (v : Word) : Dev :=
  let h := v.field 0 6
  let d := if v.getLsbD 9 then d.unmark F.CORE_HAL_OUT_HAL_CONFLICT c else d
  if v.getLsbD 8 && d.takenByOther h 4 c then d.mark F.CORE_HAL_OUT_HAL_CONFLICT c
  else
    let d := ((d.releaseDriver 4 c 64).wr F.CORE_HAL_OUT_HAL h c).flag F.CORE_HAL_OUT_EN (v.getLsbD 8) c
    if v.getLsbD 8 then d.recordDriver h 4 c else d

/-- A write of `CORE_IN` (R218): while EN is 1 the fetch unit is one holding reader of the ring, from its oldest record present. -/
def Dev.coreIn (d : Dev) (c : Nat) (v : Word) : Dev :=
  let off := F.CORE_IN_EN.at_ c 0
  let was := d.is F.CORE_IN_EN c
  let old := d.rd F.CORE_IN_RING c
  let d := d.plainWrite off v
  let now := d.is F.CORE_IN_EN c
  let r := d.rd F.CORE_IN_RING c
  if was == now && old == r then d
  else
    let d := if was && d.ringOn old then d.setRing old (fun g => { g with readers := g.readers.filter (fun x => x.kind != .fetch c) }) else d
    if now && d.ringOn r then
      d.setRing r (fun g => { g with readers := g.readers ++ [⟨.fetch c, (g.recs.head?.map (·.pos)).getD g.wr, true, []⟩] })
    else d

/-- A host write of 1s to the doorbells (R221). -/
def Dev.doorbell (d : Dev) (c v : Nat) (hi : Bool) : Dev :=
  d.setBits (if hi then F.CORE_DB_HI_DB else F.CORE_DB_LO_DB) v c

/-- The memory a window offset names: core, whether instruction memory, word or instruction index, half. -/
def Dev.coreWindow (d : Dev) (off : Nat) : Option (Nat × Bool × Nat × Nat) :=
  if 0x400000 ≤ off ∧ off < 0x800000 then
    let c := (off - 0x400000) / 0x40000
    let o := (off - 0x400000) % 0x40000
    if o < 0x20000 then some (c, false, d.rd F.CORE_DPAGE_PAGE c * 32768 + o / 4, 0)
    else if o < 0x30000 then some (c, true, (o - 0x20000) / 8, o / 4 % 2)
    else none
  else if 0x800000 ≤ off ∧ off < 0x1000000 then
    let t := (off - 0x800000) / 0x10000
    let o := (off - 0x800000) % 0x10000
    if o < 0x8000 then some (16 + t, false, o / 4, 0)
    else if o < 0xC000 then some (16 + t, true, (o - 0x8000) / 8, o / 4 % 2)
    else none
  else none
/-- A host read of core memory; a tile core of no ACTIVE section reads 0. -/
def Dev.coreMemRead (d : Dev) (m : Nat × Bool × Nat × Nat) : Nat :=
  let x := d.core m.1
  if !(d.coreLive m.1) then 0
  else if m.2.1 then bits (x.word m.2.2.1) (32 * m.2.2.2) 32 else (x.load m.2.2.1).toNat
/-- A host write of core memory. -/
def Dev.coreMemWrite (d : Dev) (m : Nat × Bool × Nat × Nat) (v : Word) : Dev :=
  if !(d.coreLive m.1) then d
  else if m.2.1 then d.setCore m.1 (fun x =>
    let w := x.word m.2.2.1
    let n := if m.2.2.2 = 0 then w / 2 ^ 32 * 2 ^ 32 + v.toNat else w % 2 ^ 32 + v.toNat * 2 ^ 32
    { x with imem := x.imem.set0 0 m.2.2.1 n })
  else d.setCore m.1 (fun x => x.store m.2.2.1 v)

/-! ## Meanings -/

/-- Offset of a core's CMD register. -/
def coreCmdOff (c : Nat) : Nat := if isFrame c then 0x430000 + c * 0x40000 else 0x80C000 + (c - 16) * 0x10000

/-- CMD START (R222). -/
def execCoreStart (c : Fin 144) (s : State) := host (coreCmdOff c) (fun d => d.coreStart c) s
/-- CMD STOP (R222). -/
def execCoreStop (c : Fin 144) (s : State) := host (coreCmdOff c) (fun d => d.coreStop c) s
/-- CMD RESET of a frame core (R222). -/
def execCoreReset (c : Fin 16) (s : State) := host (0x430000 + c.val * 0x40000) (fun d => d.coreReset c) s
/-- Write 1s to `CORE_DB` (R221). -/
def execDoorbellRing (c : Fin 16) (hi : Bool) (v : Word) (s : State) := host (0x430024 + c.val * 0x40000) (fun d => d.doorbell c v.toNat hi) s
/-- NOP: nothing beyond its slots and update (R204). -/
def execNop (c : Fin 144) (s : State) := lift (fun d => d.coreInstr c 0) s
/-- ADD: d[D] ← d[S1] + d[S2] (R204). -/
def execAdd (c : Fin 144) (s : State) := lift (fun d => d.coreInstr c 1) s
/-- SUB: d[D] ← d[S1] − d[S2] (R204). -/
def execSub (c : Fin 144) (s : State) := lift (fun d => d.coreInstr c 2) s
/-- ADDS: saturating sum (R204). -/
def execAdds (c : Fin 144) (s : State) := lift (fun d => d.coreInstr c 3) s
/-- SUBS: saturating difference (R204). -/
def execSubs (c : Fin 144) (s : State) := lift (fun d => d.coreInstr c 4) s
/-- AND: bitwise and (R204). -/
def execAnd (c : Fin 144) (s : State) := lift (fun d => d.coreInstr c 5) s
/-- OR: bitwise or (R204). -/
def execOr (c : Fin 144) (s : State) := lift (fun d => d.coreInstr c 6) s
/-- XOR: bitwise exclusive or (R204). -/
def execXor (c : Fin 144) (s : State) := lift (fun d => d.coreInstr c 7) s
/-- SHL: left shift (R204). -/
def execShl (c : Fin 144) (s : State) := lift (fun d => d.coreInstr c 8) s
/-- SHR: logical right shift (R204). -/
def execShr (c : Fin 144) (s : State) := lift (fun d => d.coreInstr c 9) s
/-- SRA: arithmetic right shift (R204). -/
def execSra (c : Fin 144) (s : State) := lift (fun d => d.coreInstr c 10) s
/-- MIN: signed minimum (R204). -/
def execMin (c : Fin 144) (s : State) := lift (fun d => d.coreInstr c 11) s
/-- MAX: signed maximum (R204). -/
def execMax (c : Fin 144) (s : State) := lift (fun d => d.coreInstr c 12) s
/-- ABS: saturating absolute value (R204). -/
def execAbs (c : Fin 144) (s : State) := lift (fun d => d.coreInstr c 13) s
/-- CMPLT: 1 when d[S1] < d[S2], signed (R204). -/
def execCmplt (c : Fin 144) (s : State) := lift (fun d => d.coreInstr c 14) s
/-- CMPEQ: 1 when equal (R204). -/
def execCmpeq (c : Fin 144) (s : State) := lift (fun d => d.coreInstr c 15) s
/-- MUL: low 32 bits of the product (R204). -/
def execMul (c : Fin 144) (s : State) := lift (fun d => d.coreInstr c 16) s
/-- MAC: acc + product (R204). -/
def execMac (c : Fin 144) (s : State) := lift (fun d => d.coreInstr c 17) s
/-- MSU: acc − product (R204). -/
def execMsu (c : Fin 144) (s : State) := lift (fun d => d.coreInstr c 18) s
/-- MACZ: product (R204). -/
def execMacz (c : Fin 144) (s : State) := lift (fun d => d.coreInstr c 19) s
/-- MAC2: acc + products of the halves (R204). -/
def execMac2 (c : Fin 144) (s : State) := lift (fun d => d.coreInstr c 20) s
/-- MOVS: the shifted accumulator (R207) (R204). -/
def execMovs (c : Fin 144) (s : State) := lift (fun d => d.coreInstr c 21) s
/-- MOVAL: acc bits 31:0 (R204). -/
def execMoval (c : Fin 144) (s : State) := lift (fun d => d.coreInstr c 22) s
/-- MOVAH: acc bits 63:32 (R204). -/
def execMovah (c : Fin 144) (s : State) := lift (fun d => d.coreInstr c 23) s
/-- MOVAG: acc bits 71:64 (R204). -/
def execMovag (c : Fin 144) (s : State) := lift (fun d => d.coreInstr c 24) s
/-- ACCSET: acc ← d[S2]:d[S1] (R204). -/
def execAccset (c : Fin 144) (s : State) := lift (fun d => d.coreInstr c 25) s
/-- SADOPT: SHIFT ← NEED (R204). -/
def execSadopt (c : Fin 144) (s : State) := lift (fun d => d.coreInstr c 26) s
/-- DIVS: one division step (R208) (R204). -/
def execDivs (c : Fin 144) (s : State) := lift (fun d => d.coreInstr c 27) s
/-- MOVR: reads a control register (R214) (R204). -/
def execMovr (c : Fin 144) (s : State) := lift (fun d => d.coreInstr c 28) s
/-- MOVW: writes a control register (R214) (R204). -/
def execMovw (c : Fin 144) (s : State) := lift (fun d => d.coreInstr c 29) s
/-- MOVAD: aD ← d[S1] (R204). -/
def execMovad (c : Fin 144) (s : State) := lift (fun d => d.coreInstr c 30) s
/-- MOVDA: d[D] ← aS1 (R204). -/
def execMovda (c : Fin 144) (s : State) := lift (fun d => d.coreInstr c 31) s
/-- VMAXI: search for the largest element (R209) (R204). -/
def execVmaxi (c : Fin 144) (s : State) := lift (fun d => d.coreInstr c 32) s
/-- VMINI: search for the smallest element (R209) (R204). -/
def execVmini (c : Fin 144) (s : State) := lift (fun d => d.coreInstr c 33) s
/-- WAIT: R210 (R204). -/
def execWait (c : Fin 144) (s : State) := lift (fun d => d.coreInstr c 34) s
/-- SIG: drives the halyard output (R216, R220) (R204). -/
def execSig (c : Fin 144) (s : State) := lift (fun d => d.coreInstr c 35) s
/-- SWI: software event (R216, R223) (R204). -/
def execSwi (c : Fin 144) (s : State) := lift (fun d => d.coreInstr c 37) s
/-- RET: PC ← LR (R204). -/
def execRet (c : Fin 144) (s : State) := lift (fun d => d.coreInstr c 38) s
/-- HALT: enters HALTED (R204). -/
def execHalt (c : Fin 144) (s : State) := lift (fun d => d.coreInstr c 39) s
/-- MOVI: d[D] ← IMM (R204). -/
def execMovi (c : Fin 144) (s : State) := lift (fun d => d.coreInstr c 64) s
/-- ADDI: d[D] + IMM (R204). -/
def execAddi (c : Fin 144) (s : State) := lift (fun d => d.coreInstr c 65) s
/-- MOVIA: an address, base or length register ← IMM (R204). -/
def execMovia (c : Fin 144) (s : State) := lift (fun d => d.coreInstr c 66) s
/-- BR: branch (R204). -/
def execBr (c : Fin 144) (s : State) := lift (fun d => d.coreInstr c 67) s
/-- BRZ: branch when d[D] = 0 (R204). -/
def execBrz (c : Fin 144) (s : State) := lift (fun d => d.coreInstr c 68) s
/-- BRNZ: branch when d[D] ≠ 0 (R204). -/
def execBrnz (c : Fin 144) (s : State) := lift (fun d => d.coreInstr c 69) s
/-- BRNEG: branch when d[D] < 0 (R204). -/
def execBrneg (c : Fin 144) (s : State) := lift (fun d => d.coreInstr c 70) s
/-- CALL: LR ← PC + 1, branch (R204). -/
def execCall (c : Fin 144) (s : State) := lift (fun d => d.coreInstr c 71) s
/-- LOOP: a hardware loop (R211) (R204). -/
def execLoop (c : Fin 144) (s : State) := lift (fun d => d.coreInstr c 72) s
/-- A vector search completes (R209). -/
def execSearchDone (c : Fin 16) (s : State) := lift (fun d => d.searchDone c) s
/-- A masked condition arrives (R210). -/
def execWaitWake (c : Fin 144) (s : State) := lift (fun d => d.waitWake c) s
/-- Stream words arrive and leave, a stalled instruction proceeds (R212). -/
def execStreamStallEnd (t : Fin 128) (in0 in1 : List (BitVec 64)) (taken0 taken1 : Nat) (s : State) := lift (fun d => d.streamEnd t in0 in1 taken0 taken1) s
/-- An iteration of the innermost loop ends (R200). -/
def execLoopIterationEnd (c : Fin 144) (s : State) :=
  lift (fun d => if d.coreRunning c && (d.core c).endDue then d.setCore c Core.iterationEnd else d) s

end Sys2Proof.Machine
end

