-- ==== Sys2Proof/Machine/Repair.lean ====
section
/-! DEFINITION. The repair map (R471–R477, spec/18_power.md): entries, field retirements, RETURN, the vote at power-up. -/
namespace Sys2Proof.Machine

/-- An entry's kind, cause (bit 7: fuse) and locator bytes 2–7 (R472). -/
def rprKind (e : Nat) : Nat := e % 256
def rprCause (e : Nat) : Nat := e / 256 % 256
def rprLoc (e : Nat) : Nat := e / 65536
/-- An entry from its parts. -/
def rprEntry (kind cause loc : Nat) : Nat := kind + cause * 256 + loc % 2 ^ 48 * 65536
/-- Two entries are the same when kind and locator agree (R473). -/
def rprSame (a b : Nat) : Bool := rprKind a == rprKind b && rprLoc a == rprLoc b
/-- Order of entries: byte 0, then bytes 2–7 (R471). -/
def rprOrder (e : Nat) : Nat := rprKind e * 2 ^ 48 + beNat (leBytes 6 (rprLoc e))
/-- Insert in order; of the same entry the lowest cause is kept (R473). -/
def rprInsert (e : Nat) : List Nat → List Nat
  | [] => [e]
  | a :: t => if rprSame e a then (if rprCause e % 128 < rprCause a % 128 then e else a) :: t
    else if rprOrder e < rprOrder a then e :: a :: t else a :: rprInsert e t

/-- Note a write of the store in progress: `n` bytes at an offset are about to change (R459, R478). -/
def Dev.nvsNote (d : Dev) (o n : Nat) : Dev :=
  { d with nvsBusy := d.nvsBusy ++ [(o, d.nvs.bytes o n)] }.flag F.NVS_STATUS_BUSY true

/-- Rewrite the three copies with the next sequence number (R473, R474); the store is busy until the write is done. -/
def Dev.storeRepair (d : Dev) (field : List Nat) : Dev :=
  let seq := (d.repair.seq + 1) % 2 ^ 32
  let b := repairCopy field seq
  let d := ([0, 0x4000, 0x8000] : List Nat).foldl (fun d o => d.nvsNote o b.length) d
  let d := { d with repair := { d.repair with field := field, seq := seq, rewriting := true },
                    nvs := ((d.nvs.storeBytes 0 b).storeBytes 0x4000 b).storeBytes 0x8000 b }
  let d := (d.wr F.RPR_SEQ_SEQ seq).wr F.RPR_STATUS_ENTRIES (d.repair.fuses.length + field.length)
  (List.range 5).foldl (fun d k => d.wr F.RPR_KIND_COUNT (field.filter (fun e => rprKind e == k + 1)).length k) d

/-- A field retirement (R474): in force for what is derived at the next power-up; stored unless the map is full. -/
def Dev.fieldRetire (d : Dev) (kind cause loc : Nat) : Dev :=
  let e := rprEntry kind cause loc
  if d.repair.field.any (rprSame e) then d
  else if 1535 ≤ d.repair.field.length then (d.mark F.RPR_STATUS_FULL).raise 0 10
  else (d.storeRepair (rprInsert e d.repair.field)).raise 0 11

/-- RETURN (R475): removes a stored field entry; the unit returns at the next power-up. Before the vote the command is turned away. -/
def Dev.rprReturn (d : Dev) : Dev :=
  let e := d.rd F.RPR_ENTRY_ENTRY 0 + d.rd F.RPR_ENTRY_ENTRY 1 * 2 ^ 32
  if !(d.is F.RPR_STATUS_DONE) then d.wr F.RPR_STATUS_CODE 1
  else if d.repair.rewriting then d.wr F.RPR_STATUS_CODE 3
  else if d.repair.fuses.any (rprSame e) then d.wr F.RPR_STATUS_CODE 4
  else if !(d.repair.field.any (rprSame e)) then d.wr F.RPR_STATUS_CODE 2
  else (d.storeRepair (d.repair.field.filter (fun a => !(rprSame e a)))).wr F.RPR_STATUS_CODE 0

/-- A copy read from the store: its entries and sequence when magic, version and CRC-32 pass (R473). -/
def Dev.readCopy (d : Dev) (o : Nat) : Option (List Nat × Nat) :=
  let head := d.nvs.bytes o 64
  let n := leNat ((head.drop 6).take 2)
  let body := d.nvs.bytes (o + 64) (8 * n)
  if leNat (head.take 4) = 0x5052584C ∧ leNat ((head.drop 4).take 2) = 0x0100 ∧ n ≤ 1535 ∧
      leNat ((head.drop 60).take 4) = crc32 (head.take 60 ++ [0, 0, 0, 0] ++ body) then
    some ((List.range n).map (fun i => leNat ((body.drop (8 * i)).take 8)), leNat ((head.drop 8).take 4))
  else none

/-- The vote of R473: the union of the valid copies is used and, unless three identical copies stood there, rewritten. The retirements in
force are the fuses' and the union's (R474). -/
def Dev.repairVote (d : Dev) : Dev :=
  let cs := [d.readCopy 0, d.readCopy 0x4000, d.readCopy 0x8000]
  let ok := cs.filterMap id
  let un := (ok.flatMap (·.1)).foldl (fun l e => rprInsert e l) []
  let seq := ok.foldl (fun m c => max m c.2) 0
  let bits_ := (cs.zipIdx).foldl (fun n p => if p.1.isSome then n + 2 ^ p.2 else n) 0
  let same := ok.length == 3 && ok.all (fun c => decide (c = ok.headD ([], 0)))
  let d := { d with repair := { d.repair with field := un, seq := seq, inForce := d.repair.fuses ++ un } }
  let d := (((d.flag F.RPR_STATUS_DONE true).wr F.RPR_STATUS_COPY_OK bits_).wr F.RPR_SEQ_SEQ seq).wr F.RPR_STATUS_ENTRIES (d.repair.fuses.length + un.length)
  let d := (List.range 5).foldl (fun d k => d.wr F.RPR_KIND_COUNT (un.filter (fun e => rprKind e == k + 1)).length k) d
  if same then d
  else
    let d := d.mark (if ok.length = 3 then F.RPR_STATUS_DISAGREE else if ok.length = 0 then F.RPR_STATUS_FIELD_LOST else F.RPR_STATUS_COPY_BAD)
    (d.storeRepair un).raise 0 9

/-! ## What is derived from the retirements in force (R474) -/

/-- Physical rows per column of a sort kind (R35). -/
def physicalRows : Nat → Nat
  | 0 => 132 | 1 => 264 | 2 => 49 | 3 => 99 | 4 => 33 | 5 => 17 | _ => 0
/-- Logical rows per column (R35). -/
def logicalRowsOf : Nat → Nat
  | 0 => 128 | 1 => 256 | 2 => 48 | 3 => 96 | 4 => 32 | 5 => 16 | _ => 0
/-- The sort a retired SRAM unit belongs to (R472): column and physical row of a memory sort or of a tile core. -/
def unitSort (kind unit : Nat) : Option (Nat × Nat) :=
  let u := unit % 2 ^ 15
  if kind = 3 ∧ unit < 792 then some (unit / 99, unit % 99)
  else if kind = 5 ∧ 1048 ≤ u ∧ u < 1184 then some ((u - 1048) / 17, (u - 1048) % 17) else none
/-- Retired physical rows of a column-kind: its own entries, and those of its SRAM units. -/
def Dev.retiredRows (d : Dev) (col kind : Nat) : List Nat :=
  (d.repair.inForce.filterMap (fun e =>
    if rprKind e = 1 ∧ rprLoc e % 256 = col ∧ rprLoc e / 256 % 256 = kind then some (rprLoc e / 65536 % 65536)
    else if rprKind e = 5 then (unitSort kind (rprLoc e % 65536)).bind (fun p => if p.1 = col then some p.2 else none) else none)).dedup
/-- The physical row a logical row is placed on: the r-th that is not retired (R56). -/
def Dev.physicalRow (d : Dev) (col kind r : Nat) : Option Nat :=
  ((List.range (physicalRows kind)).filter (fun p => !((d.retiredRows col kind).contains p)))[r]?
/-- Form `FMR_CAP` (R57). -/
def Dev.formCapacity (d : Dev) : Dev :=
  (List.range 48).foldl (fun d k =>
    let col := k / 6
    let kind := k % 6
    let e := col * 8 + kind
    let ret := (d.retiredRows col kind).length
    let left := physicalRows kind - ret
    let cap := min (logicalRowsOf kind) left
    ((d.wr F.FMR_CAP_CAPACITY cap e).wr F.FMR_CAP_SPARES (left - cap) e).wr F.FMR_CAP_RETIRED ret e) d
/-- Retired units of a kind with one-byte locators: DRAM channels (2), or slices of an input (3: input, slice). -/
def Dev.retiredChannels (d : Dev) : List Nat := (d.repair.inForce.filter (fun e => rprKind e == 2)).map (fun e => rprLoc e % 256)
def Dev.retiredSlices (d : Dev) (n : Nat) : List Nat :=
  (d.repair.inForce.filter (fun e => rprKind e == 3 && rprLoc e % 256 == n)).map (fun e => rprLoc e / 256 % 256)

/-- The DRAM slot map at power-up (R344, R353): slot s by channel s, or by the lowest spare neither retired nor in use. -/
def Dev.formDramSlots (d : Dev) : Dev :=
  let ret := d.retiredChannels
  let spares := [64, 65, 66, 67].filter (fun c => !(ret.contains c))
  let field (c : Nat) := d.repair.field.any (rprSame (rprEntry 2 0 c))
  let d := (List.range 68).foldl (fun d c =>
    (d.wr F.DRC_CH_STATUS_STATE (if ret.contains c then 3 else if c < 64 then 0 else 1) c).flag F.DRC_CH_STATUS_FIELD (field c) c) d
  let step (p : Dev × List Nat) (s : Nat) : Dev × List Nat :=
    if !(ret.contains s) then (((p.1.wr F.DRC_SLOT_PHYS s s).flag F.DRC_SLOT_NONE false s).wr F.DRC_CH_STATUS_SLOT s s, p.2)
    else match p.2 with
      | c :: t => ((((p.1.wr F.DRC_SLOT_PHYS c s).flag F.DRC_SLOT_NONE false s).wr F.DRC_CH_STATUS_STATE 0 c).wr F.DRC_CH_STATUS_SLOT s c, t)
      | [] => (p.1.flag F.DRC_SLOT_NONE true s, [])
  let r := (List.range 64).foldl step (d, spares)
  r.1.wr F.DRC_STATUS_SPARES r.2.length

/-- A converter's slot map at power-up (R474): slot s by the s-th slice that is not retired. -/
def Dev.formSlices (d : Dev) (n : Nat) : Dev :=
  let ret := d.retiredSlices n
  let live := (List.range 68).filter (fun p => !(ret.contains p))
  let field (p : Nat) := d.repair.field.any (rprSame (rprEntry 3 0 (n + 256 * p)))
  let d := (List.range 68).foldl (fun d p =>
    let s := live.idxOf p
    ((d.wr F.CNV_PHYS_ROLE (if ret.contains p then 2 else if s < 64 then 0 else 1) n p).wr F.CNV_PHYS_SLOT (if ret.contains p || decide (64 ≤ s) then 0 else s) n p).flag
      F.CNV_PHYS_FIELD (field p) n p) d
  let d := (List.range 64).foldl (fun d s => match live[s]? with | some p => d.wr F.CNV_SLOT_PHYS p n s | none => d) d
  (d.wr F.CNV_SLICE_SPARES_LEFT (live.length - 64) n).wr F.CNV_SLICE_RETIRED ret.length n

/-! ## Meanings -/

/-- Write RETURN to `RPR_CMD` (R475). -/
def execReturnUnit (s : State) := host 0x20008 Dev.rprReturn s

end Sys2Proof.Machine
end

