-- ==== Sys2Proof/Machine/Memory.lean ====
section
/-! DEFINITION. DRAM channels and on-die memory (spec/13_memory.md): masks, freeze, RESUME, RETIRE, refresh, self-refresh, marches. -/
namespace Sys2Proof.Machine

/-- A staged mask obeys R346. -/
def maskOk (e v : Nat) : Bool :=
  bits v 0 8 == 0 && bits v 38 2 == 0 &&
    (if e < 6 then bits v 8 6 == 2 ^ e && bits v 17 4 == 0 else bits v 17 4 == 2 ^ (e - 6) && bits v 8 6 == 0)
/-- A mask element as staged. -/
def Dev.stagedMask (d : Dev) (e : Nat) : Nat := d.rd F.DRC_MASK_LO_MASK e + d.rd F.DRC_MASK_HI_MASK e * 2 ^ 32
/-- A host write to a word of `DRC_MASK` (R346). -/
def Dev.maskWrite (d : Dev) (off : Nat) (v : Word) : Dev :=
  let e := (off - 0x328040) / 8
  let d' := d.plainWrite off v
  if maskOk e (d'.stagedMask e) then d' else d.wr F.DRC_STATUS_CODE 2

/-- APPLY (R347). -/
def Dev.applyMasks (d : Dev) : Dev :=
  if (List.range 1024).any d.ringOn then d.wr F.DRC_STATUS_CODE 1
  else
    { d with mem := Mem.empty,
             dram := { d.dram with masks := (List.range 10).map d.stagedMask, garbled := d.dram.garbled + 1, clean := [], cached := [] } }.wr F.DRC_STATUS_CODE 0

/-- Set or clear a channel's bit of `DRC_FROZEN`. -/
def Dev.frozenBit (d : Dev) (ch : Nat) (b : Bool) : Dev :=
  let w := d.rd F.DRC_FROZEN_FROZEN (ch / 32)
  d.wr F.DRC_FROZEN_FROZEN (if b then w ||| 2 ^ (ch % 32) else w - (w &&& 2 ^ (ch % 32))) (ch / 32)

/-- Store a captured word, its reserved bits 0. -/
def Dev.plainSet (d : Dev) (off : Nat) (w : Word) : Dev :=
  match rowOf off with
  | some r => d.setReg off (r.fields.foldl (fun a f => a.setField f.lo (f.hi - f.lo + 1) (w.field f.lo (f.hi - f.lo + 1))) 0)
  | none => d

/-- An uncorrectable error or a command-path parity error of a channel (R354, R355): an ACTIVE channel freezes with its capture; on a
frozen one the error is only counted. Every ring's write position is kept (R333). -/
def Dev.channelFreeze (d : Dev) (ch : Nat) (c : FreezeCapture) : Dev :=
  let st := d.rd F.DRC_CH_STATUS_STATE ch
  if st = 2 then d.inc F.DRC_CH_UE_COUNT ch
  else if st ≠ 0 then d
  else
    let slot := d.rd F.DRC_CH_STATUS_SLOT ch
    let d := (d.wr F.DRC_CH_STATUS_STATE 2 ch).frozenBit ch true
    let d := if c.parity then d else d.inc F.DRC_CH_UE_COUNT ch
    let d := ((((d.wr F.DRC_CH_FRZ_CAUSE (if c.parity then 2 else 1) ch).flag F.DRC_CH_FRZ_SCRUB c.scrub ch).wr F.DRC_CH_FRZ_ADDR_LO_ADDR c.addr.toNat ch).wr
      F.DRC_CH_FRZ_ADDR_HI_ADDR (c.addr.toNat / 2 ^ 32) ch).wr F.DRC_CH_FRZ_SYND_SYND (if c.parity then 0 else c.syndrome.toNat) ch
    let d := ((c.log.take 32).zipIdx).foldl (fun d p =>
      (d.plainSet (F.DRC_CH_LOG_CMD_CMD.at_ ch p.2) p.1.1).plainSet (F.DRC_CH_LOG_COL_COL.at_ ch p.2) p.1.2) d
    let d := d.rings.cells.foldl (fun d p => d.setRing p.1 (fun g => { g with kept := g.kept ++ [(slot, g.wr)] })) d
    d.raise 26 0

/-- Forget the positions kept for a slot. -/
def Dev.dropKept (d : Dev) (slot : Nat) : Dev :=
  d.rings.cells.foldl (fun d p => d.setRing p.1 (fun g => { g with kept := g.kept.filter (fun k => k.1 != slot) })) d

/-- RESUME (R355). -/
def Dev.drcResume (d : Dev) (ch : Nat) : Dev :=
  if d.rd F.DRC_CH_STATUS_STATE ch = 2 then
    ((((d.wr F.DRC_CH_STATUS_STATE 0 ch).wr F.DRC_CH_STATUS_CODE 0 ch).frozenBit ch false).dropKept (d.rd F.DRC_CH_STATUS_SLOT ch)).raise 26 3
  else d.wr F.DRC_CH_STATUS_CODE 1 ch

/-- The lowest spare that is available (R344). -/
def Dev.spareChannel (d : Dev) : Option Nat :=
  ([64, 65, 66, 67] : List Nat).find? (fun c => d.rd F.DRC_CH_STATUS_STATE c == 1 && !(d.dram.entering.any (fun p => p.2 == c)))

/-- RETIRE (R355, R474). -/
def Dev.drcRetire (d : Dev) (ch : Nat) : Dev :=
  if d.rd F.DRC_CH_STATUS_STATE ch ≠ 2 then d.wr F.DRC_CH_STATUS_CODE 1 ch
  else match d.spareChannel with
    | none => (d.wr F.DRC_CH_STATUS_CODE 2 ch).raise 26 5
    | some sp =>
      let slot := d.rd F.DRC_CH_STATUS_SLOT ch
      let d := (((d.wr F.DRC_CH_STATUS_STATE 3 ch).flag F.DRC_CH_STATUS_FIELD true ch).wr F.DRC_CH_STATUS_CODE 0 ch).frozenBit ch false
      let d := { d with dram := { d.dram with entering := d.dram.entering ++ [(slot, sp)] } }
      let d := d.wr F.DRC_STATUS_SPARES (d.rd F.DRC_STATUS_SPARES - 1)
      (d.raise 26 2).fieldRetire 2 6 ch

/-- The spare enters service in its slot (R355): its granules hold 0 (R498). -/
def Dev.spareIn (d : Dev) (slot : Nat) : Dev :=
  match d.dram.entering.find? (fun p => p.1 == slot) with
  | none => d
  | some (_, sp) =>
    let d := { d with mem := d.mem.keep (fun a => d.slotOf a != slot),
                      dram := { d.dram with entering := d.dram.entering.filter (fun p => p.1 != slot), clean := d.dram.clean ++ [slot] } }
    let d := ((d.wr F.DRC_CH_STATUS_STATE 0 sp).wr F.DRC_CH_STATUS_SLOT slot sp).wr F.DRC_SLOT_PHYS sp slot
    d.raise 26 4

/-- Whether a read of a ring position meets an error (R333, R354): the slot has no ACTIVE channel, or its channel was retired, and the
position lies below the one kept at the freeze. The kept position applies until WR passed it by the ring's size. -/
def Dev.readError (d : Dev) (r pos : Nat) : Bool :=
  let slot := d.slotOf (d.ringAddr r pos)
  (d.ring r).kept.any (fun k => k.1 == slot && decide (pos < k.2) && decide ((d.ring r).wr < k.2 + d.ringSize r))
/-- Whether a read of a ring position returns fill instead of the byte (R333): it errs, or its granule is dead. -/
def Dev.readFill (d : Dev) (r pos : Nat) : Bool := d.readError r pos || d.addrDead (d.ringAddr r pos)

/-- A slot's refresh (R349): only an ACTIVE channel issues it. -/
def Dev.refresh (d : Dev) (s : Nat) : Dev :=
  if d.slotDead s || d.is F.DRC_STATUS_SELFREF then d else { d with dram := { d.dram with refreshed := d.dram.refreshed.put s d.clk } }

/-- One die's temperature (R349): above 85 °C the interval halves; at 82 °C or below for 1 ms it returns. -/
def Dev.dieTemp (d : Dev) (ch : Nat) (t : Int) : Dev :=
  let d := d.wr F.DRC_CH_TEMP_TEMP (unsigned 8 t) ch
  let hot := d.is F.DRC_CH_STATUS_HOT ch
  let wasCool := (d.dram.cool.get? ch).isSome
  let d := { d with dram := { d.dram with cool := if t ≤ 82 then d.dram.cool.put ch () else d.dram.cool.erase ch } }
  if !hot && decide (85 < t) then (d.flag F.DRC_CH_STATUS_HOT true ch).raise 26 6
  else if hot && decide (t ≤ 82) && wasCool then (d.flag F.DRC_CH_STATUS_HOT false ch).raise 26 6
  else d
/-- The 1 ms reading of every die (R349). -/
def Dev.dramTemps (d : Dev) (ts : List Int) : Dev := ((ts.take 68).zipIdx).foldl (fun d p => d.dieTemp p.2 p.1) d

/-- The galley's latency tolerance (R350): the least of scan-out's figure and 0 for each running mover, stream port or frame-core unit. While
scan-out runs, its figure is one the spec does not compute (log entry 2). -/
def Dev.srTolerance (d : Dev) : Nat :=
  if (List.range 64).any (fun m => d.rd F.MOV_STATUS_STATE m == 1 || d.rd F.MOV_STATUS_STATE m == 3) ||
      (List.range 1024).any (fun p => let s := d.rd F.STR_STATUS_STATE p; s == 2 || s == 3) ||
      (List.range 16).any (fun c => let s := d.rd F.CORE_STATUS_STATE c; s == 1 || s == 2) then 0
  else if d.rd F.VID_STATUS_STATE = 0 then 2 ^ 32 - 1 else d.fresh % 2 ^ 32
/-- Active channels enter self-refresh in IDLE when the tolerance exceeds 2 µs (R350). -/
def Dev.selfRefreshIn (d : Dev) : Dev :=
  let t := d.srTolerance
  let d := (d.wr F.DRC_SR_TOL_NS t).usedFree
  if d.pstate = 3 ∧ 2000 < t then d.flag F.DRC_STATUS_SELFREF true else d
/-- A galley request wakes every channel (R350). -/
def Dev.selfRefreshOut (d : Dev) : Dev := d.flag F.DRC_STATUS_SELFREF false

/-- Corrected reads of a channel (R348, R365): source 1 when they pass CE_THRESH within one hour. -/
def Dev.corrected (d : Dev) (ch k : Nat) : Dev :=
  let d := d.inc F.DRC_CH_CE_COUNT ch 0 k
  let h := d.dram.ceHour.getD ch (0, d.clk)
  let h' := if h.2 + 3600000000000 ≤ d.clk then (k, d.clk) else (h.1 + k, h.2)
  let was := if h.2 + 3600000000000 ≤ d.clk then 0 else h.1
  let d := { d with dram := { d.dram with ceHour := d.dram.ceHour.put ch h' } }
  let th := d.rd F.DRC_SCRUB_CE_THRESH
  if was ≤ th ∧ th < h'.1 then d.raise 26 1 else d
/-- A patrol pass ends (R348): what it corrected, and source 7. -/
def Dev.scrubEnd (d : Dev) (cs : List (Nat × Nat)) : Dev :=
  if d.is F.DRC_CTRL_SCRUB_EN then ((cs.filter (fun c => decide (c.1 < 68))).foldl (fun d c => d.corrected c.1 c.2) d).raise 26 7 else d

/-- A preserving march is asked for (R364). -/
def Dev.march (d : Dev) (i gang : Nat) : Dev :=
  let g : Option Gang := (d.sections.get? i).bind (fun s => s.desc.gangs.find? (fun g => g.id == gang))
  if d.rd F.FMR_SEC_STATE_STATE i ≠ 3 ∨ g.isNone ∨ d.rd F.SPM_MARCH_STATUS_STATE = 1 then d.wr F.SPM_MARCH_STATUS_CODE 1
  else
    let d := { d with dram := { d.dram with march := some (i, (g.map Gang.members).getD 1, d.clk) } }
    ((d.wr F.SPM_MARCH_STATUS_STATE 1).wr F.SPM_MARCH_STATUS_CODE 0).wr F.SPM_MARCH_STATUS_REPAIRED 0
/-- It ends (R362, R364): 1.278 ms per round of 8 members; rows repaired go to the repair map, a member past its spares is retired at the
next power-up. -/
def Dev.marchEnd (d : Dev) (rows : List (Nat × Nat × Nat)) (over_ : List Nat) : Dev :=
  match d.dram.march with
  | none => d
  | some (_, n, t0) =>
    let us := (n + 7) / 8 * 1278
    let d := d.advanceTo (t0 + us * 1000)
    let d := { d with dram := { d.dram with march := none } }
    let d := ((d.wr F.SPM_MARCH_STATUS_STATE 2).wr F.SPM_MARCH_STATUS_REPAIRED rows.length).wr F.SPM_MARCH_TIME_US us
    let d := rows.foldl (fun d x => (d.wr F.SPM_SORT_SPARES (d.rd F.SPM_SORT_SPARES x.1 - 1) x.1).fieldRetire 4 1 (x.1 + x.2.1 * 65536 + x.2.2 * 2 ^ 24)) d
    let d := over_.foldl (fun d x => ((d.flag F.SPM_SORT_RETIRE_PENDING true x).fieldRetire 5 1 x).raise 27 1) d
    d.raise 27 0
/-- A RELEASE, UNLOAD or shed of the section ends its march (R364). -/
def Dev.marchAbort (d : Dev) (i : Nat) : Dev :=
  match d.dram.march with
  | some (j, _, t0) =>
    if i = j then
      let d := { d with dram := { d.dram with march := none } }
      (((d.wr F.SPM_MARCH_STATUS_STATE 2).wr F.SPM_MARCH_STATUS_CODE 2).wr F.SPM_MARCH_TIME_US ((d.clk - t0) / 1000)).raise 27 0
    else d
  | none => d

/-- A stone row gives an uncorrectable error (R363, R472). -/
def Dev.stoneRow (d : Dev) (r : StoneRow) : Dev :=
  ((d.inc F.SPM_STONE_ROWS_ROWS).raise 27 2).fieldRetire 4 5 (792 + r.macro_.val + r.bank.val * 65536 + r.row.val * 2 ^ 24)
/-- The rows that reads met. -/
def Dev.stoneRows (d : Dev) (l : List StoneRow) : Dev := l.foldl Dev.stoneRow d

/-! ## Meanings -/

/-- A refresh of slot s (R349). -/
def execRefresh (s_ : Fin 64) (s : State) := lift (fun d => d.refresh s_) s
/-- The die temperatures are read (R349). -/
def execDramTempRead (temps : List Int) (s : State) := lift (fun d => d.dramTemps temps) s
/-- Self-refresh is entered (R350). -/
def execSelfRefreshEntry (s : State) := lift Dev.selfRefreshIn s
/-- Self-refresh is left (R350). -/
def execSelfRefreshExit (s : State) := lift Dev.selfRefreshOut s
/-- A scrub pass ends (R348). -/
def execScrubPassEnd (corrected : List (Nat × Nat)) (s : State) := lift (fun d => d.scrubEnd corrected) s
/-- A channel errs (R354). -/
def execChannelFreeze (ch : Fin 68) (c : FreezeCapture) (s : State) := lift (fun d => d.channelFreeze ch c) s
/-- Write RESUME (R355). -/
def execDrcResume (ch : Fin 68) (s : State) := host (0x310004 + ch.val * 0x400) (fun d => d.drcResume ch) s
/-- Write RETIRE (R355). -/
def execDrcRetire (ch : Fin 68) (s : State) := host (0x310004 + ch.val * 0x400) (fun d => d.drcRetire ch) s
/-- A spare enters service (R355). -/
def execSpareInService (slot : Fin 64) (s : State) := lift (fun d => d.spareIn slot) s
/-- Write 1 to APPLY (R347). -/
def execApply (s : State) := host 0x328000 Dev.applyMasks s
/-- Write `SPM_MARCH_CMD` (R364). Both algorithms take the time of R364. -/
def execPreservingMarch (i : Fin 128) (gang : Fin 16) (_lx : Bool) (s : State) := host 0x330000 (fun d => d.march i gang) s
/-- The preserving march ends (R364). -/
def execMarchEnd (rows : List (Nat × Nat × Nat)) (overflowed : List Nat) (s : State) := lift (fun d => d.marchEnd rows overflowed) s

end Sys2Proof.Machine
end

