-- ==== Sys2Proof/Machine/Rings.lean ====
section
/-! DEFINITION. Ring commands, the map, BAR2 (R319–R329, spec/12_galley.md). -/
namespace Sys2Proof.Machine

/-- Whether the enabled ring q uses table entry idx. -/
def Dev.usesEntry (d : Dev) (q idx : Nat) : Bool :=
  d.ringOn q && decide (d.rd F.GAL_RING_BASE_BASE q ≤ idx ∧ idx < d.rd F.GAL_RING_BASE_BASE q + d.rd F.GAL_RING_PAGES_PAGES q)
/-- The enabled ring that uses a table entry. -/
def Dev.ringOwning (d : Dev) (idx : Nat) : Option Nat := (List.range 1024).find? (fun q => d.usesEntry q idx)

/-- Whether a ring's range may be turned ON (R325). -/
def Dev.rangeOk (d : Dev) (r : Nat) : Bool :=
  let b := d.rd F.GAL_RING_BASE_BASE r
  let n := d.rd F.GAL_RING_PAGES_PAGES r
  decide (1 ≤ n ∧ n ≤ 122879 ∧ b + n ≤ 131072) &&
    (List.range n).all (fun k => let e := d.mapEntry (b + k); e.testBit 17 && !(e.testBit 18) && !(devFrame (bits e 0 17))) &&
    (List.range 1024).all (fun q => q == r || !(d.ringOn q) ||
      decide (b + n ≤ d.rd F.GAL_RING_BASE_BASE q ∨ d.rd F.GAL_RING_BASE_BASE q + d.rd F.GAL_RING_PAGES_PAGES q ≤ b))

/-- EN = 1 (R325). -/
def Dev.ringEnable (d : Dev) (r : Nat) : Dev :=
  if d.ringOn r then d
  else if d.rangeOk r then
    let d := { d with rings := d.rings.put r ⟨0, 0, [], [], [], 0, [], [], false⟩ }
    let d := ((d.setWide F.GAL_RING_WR_LO_WR 0 r).setWide F.GAL_RING_RD_LO_RD 0 r).wr F.GAL_RING_CNT_MISC_DEAD_PAGES 0 r
    (d.flag F.GAL_RING_CFG_EN true r).wr F.GAL_RING_STAT_CODE 0 r
  else d.wr F.GAL_RING_STAT_CODE 2 r

/-- EN = 0 (R325): refused while a writer or an engine reader is bound. -/
def Dev.ringDisable (d : Dev) (r : Nat) : Dev :=
  if !(d.ringOn r) then d
  else if !(d.ring r).writers.isEmpty || !(d.ring r).readers.isEmpty then d.wr F.GAL_RING_STAT_CODE 1 r
  else ({ d with rings := d.rings.erase r }.flag F.GAL_RING_CFG_EN false r).wr F.GAL_RING_STAT_CODE 0 r

/-- A host write of `GAL_RING_CFG`: EN by R325, the other fields stored. -/
def Dev.ringCfg (d : Dev) (r : Nat) (v : Word) : Dev :=
  let off := 0x304000 + r * 32
  let d := d.setReg off ((mergeFields (d.reg off) v 0 regCfgFields).setField 0 1 (d.rd F.GAL_RING_CFG_EN r))
  let d := if v.getLsbD 0 then d.ringEnable r else d.ringDisable r
  if d.ringOn r then (d.noteFill r).ringSummary r else d.ringSummary r
where
  /-- The fields of `GAL_RING_CFG`. -/
  regCfgFields : List FieldRow := (rowOf 0x304000).elim [] (·.fields)

/-- The write of `GAL_RING_RD_HI` commits the host pointer with the LO word written before it; values above WR are ignored. -/
def Dev.hostRdWrite (d : Dev) (r : Nat) (hi : Word) : Dev :=
  let d := d.plainWrite (0x304018 + r * 32) hi
  let v := (d.reg (0x304014 + r * 32)).toNat + hi.toNat * 2 ^ 32
  if (d.ring r).wr < v ∨ !(d.ringOn r) then d else (d.setWide F.GAL_RING_RD_LO_RD v r).noteFill r

/-- A host access error of the galley (R324, R343). -/
def Dev.hostErr (d : Dev) : Dev := (d.inc F.GAL_HOST_ERR_COUNT).raise 26 30

/-- Walk host-placed headers from `pos` to `stop`, sequence from `seq` (R324): the records, where every check passes. -/
def Dev.walkHeaders (d : Dev) (r stop : Nat) : Nat → Nat → Nat → Option (List Placed)
  | 0, pos, _ => if pos = stop then some [] else none
  | fuel + 1, pos, seq =>
    if pos = stop then some []
    else
      let h := d.ringBytes r pos 64
      let len := leNat ((h.drop 8).take 4)
      if stop < pos + 64 ∨ d.readFill r pos ∨ leNat ((h.drop 60).take 4) ≠ crc32 (h.take 60 ++ [0, 0, 0, 0]) ∨
          leNat ((h.drop 16).take 8) ≠ seq ∨ len % 8 ≠ 0 ∨ len < 64 ∨ stop < pos + len then none
      else
        (d.walkHeaders r stop fuel (pos + len) (seq + 1)).map (fun l =>
          ⟨pos, len, len - 64, leNat (h.take 1), leNat ((h.drop 2).take 1), 0, leNat ((h.drop 12).take 4), leNat ((h.drop 4).take 2),
           leNat ((h.drop 24).take 8), leNat ((h.drop 32).take 4)⟩ :: l)

/-- The write of `GAL_RING_WR_HI` (R324): one that is not accepted leaves WR as it was. -/
def Dev.hostPublish (d : Dev) (r : Nat) (hi : Word) : Dev :=
  let v := (d.reg (0x30400C + r * 32)).toNat + hi.toNat * 2 ^ 32
  let g := d.ring r
  if !(d.ringOn r) || !g.writers.isEmpty || decide (v < g.wr) || v % 8 != 0 || !(d.headerOk r v) then d.hostErr
  else
    match d.walkHeaders r v ((v - g.wr) / 64 + 1) g.wr g.seq with
    | none => d.hostErr
    | some ps =>
      let d' := ps.foldl (fun d p => ((d.noteHeader r p.pos).setRing r (fun g => { g with recs := g.recs ++ [p], seq := g.seq + 1 }))) d
      let d' := (d'.setRing r (fun g => { g with wr := v })).setWide F.GAL_RING_WR_LO_WR v r
      if d'.free r < 0 then d.hostErr else (d'.overrun r).noteFill r

/-- The write of `GAL_MAP_HI` (R327): refused inside an enabled ring's range, else FRAME, VALID and DEVWIN are stored. -/
def Dev.mapWrite (d : Dev) (hi : Word) : Dev :=
  let idx := d.rd F.GAL_MAP_IDX_IDX
  let d := d.plainWrite 0x300028 hi
  if (d.ringOwning idx).isSome then d.wr F.GAL_STATUS_CODE 1
  else
    let e := (d.reg 0x300024).toNat % 2 ^ 19
    let d := d.galStoreAll (8 * idx) (leBytes 8 e)
    { d with dram := { d.dram with cached := d.dram.cached.filter (· != idx) } }.wr F.GAL_STATUS_CODE 0

/-- A host access walks the map: a fault is captured for the ring that owns the entry, if one does (R324, R328). -/
def Dev.hostWalk (d : Dev) (idx dir : Nat) : Dev := d.walkBy (d.ringOwning idx) idx dir

/-- A BAR2 read of 4 bytes at offset `a` (R324, R460). In a granule with no active channel the bytes are not stated (log entry 2). -/
def Dev.bar2Read (d : Dev) (a : Nat) : Dev :=
  if d.pstate = 0 then d
  else if d.pstate = 1 then d.answer 0xFFFFFFFF
  else
    let d := d.wake
    let idx := a / pageSize
    let e := d.mapEntry idx
    if !(e.testBit 17) then (d.answer 0xFFFFFFFF).hostErr
    else if (d.walkCause idx).isSome then ((d.hostWalk idx 1).answer 0xFFFFFFFF).hostErr
    else
      let d := d.hostWalk idx 1
      let g := bits e 0 17 * pageSize + a % pageSize
      if d.addrDead g then (d.answer (d.fresh % 2 ^ 32)).usedFree else d.answer (leNat (d.galBytes g 4))

/-- A BAR2 write of 4 bytes (R54, R324, R460). -/
def Dev.bar2Write (d : Dev) (a : Nat) (v : Word) : Dev :=
  if d.pstate = 0 then d
  else if d.pstate = 1 then (d.inc F.SYS_EARLY_DROP_COUNT).raise 0 8
  else
    let d := d.wake
    let idx := a / pageSize
    let e := d.mapEntry idx
    if !(e.testBit 17) then d.hostErr
    else if (d.walkCause idx).isSome then (d.hostWalk idx 0).hostErr
    else
      let d := d.hostWalk idx 0
      let g := bits e 0 17 * pageSize + a % pageSize
      match d.pageLocked idx with
      | some k => (d.inc F.FMR_IMG_WDROP_WDROP k).raise 7 8
      | none => if d.addrDead g then d else d.galStoreAll g (leBytes 4 v.toNat)

/-! ## Meanings -/

/-- Write EN = 1 to `GAL_RING_CFG` (R325). -/
def execRingEnable (r : Fin 1024) (s : State) := host (0x304000 + r.val * 32) (fun d => d.ringEnable r) s
/-- Write EN = 0 (R325). -/
def execRingDisable (r : Fin 1024) (s : State) := host (0x304000 + r.val * 32) (fun d => d.ringDisable r) s
/-- Write `GAL_RING_RD_HI` (R319). -/
def execHostRdWrite (r : Fin 1024) (hi : Word) (s : State) := host (0x304018 + r.val * 32) (fun d => d.hostRdWrite r hi) s
/-- Write `GAL_RING_WR_HI` (R324). -/
def execHostWrPublish (r : Fin 1024) (hi : Word) (s : State) := host (0x304010 + r.val * 32) (fun d => d.hostPublish r hi) s
/-- Write `GAL_MAP_HI` (R327). -/
def execMapEntryWrite (hi : Word) (s : State) := host 0x300028 (fun d => d.mapWrite hi) s
/-- Read BAR2 (R324). -/
def execBar2Read (a : BitVec 38) (s : State) := lift (fun d => d.bar2Read a.toNat) s
/-- Write BAR2 (R324). -/
def execBar2Write (a : BitVec 38) (v : Word) (s : State) := lift (fun d => d.bar2Write a.toNat v) s

end Sys2Proof.Machine
end

