-- ==== Sys2Proof/Machine/Reading.lean ====
section
/-! DEFINITION. How an engine reader takes records from a ring (R250, R319, R333, R334, R338, spec/12_galley.md): bytes with fill, unreadable
headers, captures not yet resolved, gap records added on the way out. -/
namespace Sys2Proof.Machine

/-- The bytes of `l` with `v` put at offset `o`. -/
def setBytes (l : List Byte) (o : Nat) (v : List Byte) : List Byte := l.take o ++ v ++ l.drop (o + v.length)
/-- A record's bytes with the CRC-32 of its header recomputed (R311). -/
def fixHeader (l : List Byte) : List Byte := setBytes l 60 (leBytes 4 (crc32 (l.take 60 ++ [0, 0, 0, 0])))
/-- The flags of a record's bytes, changed. -/
def withFlags (l : List Byte) (f : Nat → Nat) : List Byte := fixHeader (setBytes l 4 (leBytes 2 (f (leNat ((l.drop 4).take 2)))))

/-- The first failing byte of a record and its cause: 0x04 a page whose walk faults on read, 0x05 a read error (R333, R338). -/
def Dev.firstBad (d : Dev) (r pos len : Nat) : Nat → Option (Nat × Nat)
  | 0 => none
  | k + 1 =>
    match d.firstBad r pos len k with
    | some x => some x
    | none =>
      let p := max pos ((pos / 256 + k) * 256)
      if pos + len ≤ p then none
      else if (d.walkCause (d.pageOf r p)).isSome then some (p - pos, 4)
      else if d.readError r p then some (p - pos, 5) else none

/-- The pages of a record are walked (R328). -/
def Dev.walkRead (d : Dev) (r pos len : Nat) : Nat → Dev
  | 0 => d
  | k + 1 =>
    let d := d.walkRead r pos len k
    let p := (pos / pageSize + k) * pageSize
    if pos + len ≤ p then d else d.walk r (d.pageOf r p) 1

/-- Bytes of a ring as a reader gets them: granules without an active channel read as the fill byte (R333). -/
def Dev.fillBytes (d : Dev) (r pos len fill : Nat) : List Byte :=
  (List.range len).map (fun i => if d.readFill r (pos + i) then BitVec.ofNat 8 fill else d.galByte (d.ringAddr r (pos + i)))

/-- Whether the header of a record present can be read: its bytes, and its CRC-32 (R334). -/
def Dev.headerGood (d : Dev) (r : Nat) (p : Placed) : Bool :=
  (d.walkCause (d.pageOf r p.pos)).isNone && !(d.readFill r p.pos) &&
    (let h := d.ringBytes r p.pos 64; leNat ((h.drop 60).take 4) == crc32 (h.take 60 ++ [0, 0, 0, 0]))

/-- The first record at or after a position. -/
def Dev.recordAt (d : Dev) (r pos : Nat) : Option Placed := (d.ring r).recs.find? (fun (p : Placed) => decide (pos ≤ p.pos))
/-- The record at which a reader resumes after an unreadable header at `pos` (R334): the first header of a later page that has HDR_VALID. -/
def Dev.resumeAt (d : Dev) (r pos : Nat) : Option Placed :=
  (d.ring r).recs.find? (fun (p : Placed) =>
    let e := d.mapEntry (d.pageOf r p.pos)
    decide (pos / pageSize < p.pos / pageSize) && e.testBit 19 && bits e 20 18 == p.pos % pageSize / 8)

/-- What a HOLD consumer does with a record (R250): 0 takes it as it is, 1 waits, 2 skips it, 3 takes it with PROVISIONAL cleared. -/
def Dev.holdWhat (d : Dev) (r : Nat) (p : Placed) : Nat :=
  if p.type = 9 ∨ !(p.flags.testBit 9) then 0
  else
    match (d.ring r).recs.find? (fun (x : Placed) => decide (p.pos < x.pos) && x.trig == p.trig && (x.type == 9 || x.type == 0x0C)) with
    | some x => if x.type = 9 then 2 else if p.flags.testBit 0 then 3 else 0
    | none => if p.flags.testBit 0 then 1 else 0

/-- The product a record belongs to (R317), where its type is ledgered. -/
def Placed.product (p : Placed) : Option (Nat × Nat × Nat) :=
  if p.type = 1 ∨ p.type = 2 ∨ p.type = 3 ∨ p.type = 4 ∨ p.type = 5 ∨ p.type = 7 ∨ p.type = 8 then
    some (p.source, p.tag, if p.flags.testBit 9 then p.trig else 0)
  else none

/-- The product tag a copied record belongs to (R317). -/
def recordTag (b : List Byte) : Nat :=
  let t := u b 0 1
  if t = 8 then u b 68 2
  else if (t = 3 ∨ t = 4 ∨ t = 7) ∧ !((u b 4 2).testBit 9) then 0x8000 + u b 84 2
  else 0
/-- A record's ledger data, from its bytes. -/
def placedOf (b : List Byte) : Placed := ⟨0, b.length, b.length - 64, u b 0 1, u b 2 1, recordTag b, u b 12 4, u b 4 2, u b 24 8, u b 32 4⟩
/-- A gap record added on the way out (R317, side 1), made from the header of a neighbouring record; `len` bytes, its sequence number being
free. -/
def gapBytes (hdr : List Byte) (p : Placed) (port cause start count len seq fill : Nat) : List Byte :=
  let h := setBytes (setBytes (hdr.take 64) 0 [8]) 4 (leBytes 2 ((p.flags &&& 0x3E8) + 4))
  let h := setBytes (setBytes (setBytes (setBytes h 8 (leBytes 4 len)) 16 (leBytes 8 seq)) 24 (leBytes 8 start)) 32 (leBytes 4 count)
  let h := setBytes h 56 [0, 0]
  fixHeader h ++ leBytes 1 cause ++ [1] ++ leBytes 2 port ++ leBytes 2 p.tag ++ [0, 0] ++ List.replicate (len - 72) (BitVec.ofNat 8 fill)

/-- The header of a gap record's first unit (R33), of a product whose run goes on: time, epoch and axis value are those of that unit's instant. Of
another product the neighbour's stay: the spec gives no rate for it. -/
def Dev.gapHead (d : Dev) (r : Nat) (p : Placed) (start : Nat) (hdr : List Byte) : List Byte :=
  match d.runs.cells.find? (fun u => u.2.source == p.source && u.2.tag == p.tag && u.2.ring == some r && u.2.kind != .captures) with
  | some u =>
    let t := d.unitTime u.1 u.2 start
    let h := setBytes (setBytes hdr 6 (leBytes 2 t.2)) 36 (leBytes 12 (stamp96 t.1))
    if (u8 hdr 3).testBit 7 then h else setBytes h 48 (leBytes 8 (d.axisAt (u8 hdr 3) t.1))
  | none => hdr
where
  /-- One byte. -/
  u8 (b : List Byte) (o : Nat) : Nat := leNat ((b.drop o).take 1)

/-- Bytes in one element of a descriptor at the most (R336). -/
def elementMax : Nat := 16777216

/-- A record as a stream port delivers it after what its mover met (R338): the whole record becomes a gap record when the element that holds
its header failed; a later element sets PARTIAL and adds a gap record for its units. `fail`: first failing byte and cause. -/
def Dev.deliverBytes (d : Dev) (r port : Nat) (p : Placed) (fill : Nat) (fail : Option (Nat × Nat)) : Dev × List (List Byte) :=
  let hdr := d.ringBytes r p.pos 64
  match fail with
  | none => (d, [d.fillBytes r p.pos p.len fill])
  | some (o, cause) =>
    let g (d : Dev) (start count len : Nat) := (d.usedFree, gapBytes (d.gapHead r p start hdr) p port cause start count len (d.fresh % 2 ^ 64) fill)
    if o < elementMax then
      if p.product.isSome && p.count != 0 then
        let x := g d p.start p.count (max 72 p.len)
        (x.1, [x.2])
      else (d, [])
    else
      let e := o / elementMax
      let end_ := min p.len ((e + 1) * elementMax)
      let bytes := d.fillBytes r p.pos o fill ++ List.replicate (end_ - o) (BitVec.ofNat 8 fill) ++ d.fillBytes r (p.pos + end_) (p.len - end_) fill
      let u := unitsIn p.type p.count p.pay (o - 64) (end_ - 64)
      let x := g d (p.start + u.1) u.2 72
      (x.1, [withFlags bytes (fun f => f ||| 16), x.2])

/-- Append a record whose maker gave its header (R219, R382): length, sequence and CRC-32 are filled in, bytes for dead granules or pages are
discarded with PARTIAL (R332). -/
def Dev.placeRaw (d : Dev) (r tag : Nat) (b : List Byte) : Dev :=
  let (d, pos) := d.liveWr r (d.rd F.GAL_RING_PAGES_PAGES r)
  if !(d.hasLive r) then d else
  let n := b.length - 64
  let d := d.walkSpan r pos b.length (b.length / pageSize + 2)
  let parts := d.lostParts r pos n (n / 256 + 2)
  let b := if parts.isEmpty then b else setBytes b 4 (leBytes 2 (leNat ((b.drop 4).take 2) ||| 16))
  let len := d.nextHeader r (d.headerFuel r) (roundUp (pos + b.length) 8) - pos
  let seq := (d.ring r).seq
  let h := fixHeader (setBytes (setBytes (b.take 64) 8 (leBytes 4 len)) 16 (leBytes 8 seq))
  let d := d.ringStore r (pos + 64) (b.drop 64 ++ List.replicate (len - b.length) 0)
  let d := (d.ringStore r pos h).noteHeader r pos
  let f (o k : Nat) := leNat ((h.drop o).take k)
  let d := d.setRing r (fun g => { g with wr := pos + len, seq := seq + 1, recs := g.recs ++ [⟨pos, len, n, f 0 1, f 2 1, tag, f 12 4, f 4 2, f 24 8, f 32 4⟩] })
  let d := (d.setWide F.GAL_RING_WR_LO_WR (pos + len) r).overrun r
  (if parts.isEmpty then d else d.ringEvent r 7).noteFill r
/-- Whether a record of these bytes fits the ring now. -/
def Dev.fitsRaw (d : Dev) (r : Nat) (b : List Byte) : Bool :=
  let pos := d.nextHeader r (d.headerFuel r) (d.ring r).wr
  decide (((d.nextHeader r (d.headerFuel r) (roundUp (pos + b.length) 8) - pos : Nat) : Int) ≤ d.free r)

end Sys2Proof.Machine
end

