-- ==== Sys2Proof/Machine/Drives.lean ====
section
/-! DEFINITION. Root ports, drives and stripe sets (R369–R381, spec/14_ports.md): states, scans, formatting, chunks and their index. What a
stream port puts into chunks stands in `Delivery`. -/
namespace Sys2Proof.Machine

/-- Change the state of the ports. -/
def Dev.setLinks (d : Dev) (f : Links → Links) : Dev := { d with links := f d.links }

/-! ## Root ports -/

/-- State of root port n: 0 EMPTY, 1 LINK, 2 INIT, 3 READY, 4 MEMBER, 5 FAILED, 6 VANISHED. -/
def Dev.drvState (d : Dev) (n : Nat) : Nat := d.rd F.NVM_DRV_STATE_STATE n
/-- PERST# of root port n (R489): low while its port is EMPTY (a port that goes back to EMPTY takes it low again: DESIGN CHOICE, log entry 33). -/
def Dev.perstLow (d : Dev) (n : Nat) : Bool := d.drvState n == 0
/-- A transition (R371): G32 source n; PERST# follows (R489). -/
def Dev.setDrv (d : Dev) (n st code : Nat) : Dev :=
  let was := d.perstLow n
  let d := ((d.wr F.NVM_DRV_STATE_STATE st n).wr F.NVM_DRV_STATE_CODE code n).raise 32 n
  if d.perstLow n == was then d else d.send (.perst n (d.perstLow n))
/-- STANDBY drives every PERST# low (R486). -/
def Dev.perstOff (d : Dev) : Dev := (List.range 16).foldl (fun d n => if d.perstLow n then d else d.send (.perst n true)) d
/-- Capacity of a drive in bytes. -/
def Dev.drvBytes (d : Dev) (n : Nat) : Nat := d.rdWide F.NVM_DRV_CAP_LBAS n 2 * 2 ^ d.rd F.NVM_DRV_FMT_LBA_LOG2 n
/-- Its serial number. -/
def Dev.drvSerial (d : Dev) (n : Nat) : List Byte := (List.range 5).flatMap (fun k => leBytes 4 (d.rd F.NVM_DRV_SERIAL_SN n k))

/-- Write bytes to a drive in Write commands of min(MDTS, 1 MiB) (R370); `len` counts the zeros after `bytes`. `NVM_DRV_WRITTEN` counts them
(in bytes; it reads in MiB). -/
def Dev.driveWrites (d : Dev) (n size : Nat) : Nat → Nat → List Byte → Nat → Dev
  | 0, _, _, _ => d
  | k + 1, a, bytes, len =>
    if len = 0 then d
    else
      let m := min size len
      (d.send (.nvme n 1 a m (bytes.take m))).driveWrites n size k (a + m) (bytes.drop m) (len - m)
/-- The same, whole. -/
def Dev.driveWrite (d : Dev) (n a : Nat) (bytes : List Byte) (len : Nat) : Dev :=
  let mdts := d.rd F.NVM_DRV_FMT_MDTS_LOG2 n
  let size := if mdts = 0 ∨ 20 < mdts then 2 ^ 20 else 2 ^ mdts
  let d := d.setWide F.NVM_DRV_WRITTEN_MIB (d.wideAt F.NVM_DRV_WRITTEN_MIB n + len) n
  d.driveWrites n size (len / size + 1) a bytes len
/-- Flush. -/
def Dev.driveFlush (d : Dev) (n : Nat) : Dev := d.send (.nvme n 0 0 0 [])

/-! ## Sets -/

/-- Set k. -/
def Dev.sset (d : Dev) (k : Nat) : StripeSet := d.links.sets.getD k ⟨Tab.empty, [], 20, none, 0, 0, [], 65535, Tab.empty⟩
/-- Change it. -/
def Dev.setSset (d : Dev) (k : Nat) (f : StripeSet → StripeSet) : Dev := d.setLinks (fun l => { l with sets := l.sets.put k (f (d.sset k)) })
/-- Change a member. -/
def Dev.setMember (d : Dev) (k o : Nat) (f : Member → Member) : Dev :=
  d.setSset k (fun s => match s.members.get? o with
    | some m => { s with members := s.members.put o (f m) }
    | none => s)
/-- State of a set: 0 EMPTY, 1 FORMATTING, 2 READY, 3 WRITING, 4 CLOSED, 5 FULL, 6 FAILED. -/
def Dev.setState (d : Dev) (k : Nat) : Nat := d.rd F.NVM_SET_STATUS_STATE k
/-- Show the members in service. -/
def Dev.showSet (d : Dev) (k : Nat) : Dev :=
  let os := (d.sset k).members.cells.map (·.1)
  (d.wr F.NVM_SET_STATUS_WIDTH os.length k).wr F.NVM_SET_INSERVICE_MASK (os.foldl (fun m o => m + 2 ^ o) 0) k
/-- Bytes of a chunk. -/
def StripeSet.chunkSize (s : StripeSet) : Nat := 2 ^ s.log2
/-- The 16 bytes of a set's id. -/
def Dev.setId (d : Dev) (k : Nat) : List Byte := (List.range 4).flatMap (fun i => leBytes 4 (d.rd F.NVM_SET_ID_ID k i))
/-- Slots of a drive with chunks of this size (R375). -/
def Dev.slotsOf (d : Dev) (n log2 : Nat) : Nat := (d.drvBytes n - 0x100000) / 2 ^ log2

/-- The set label of an ordinal (R376). -/
def Dev.setLabel (d : Dev) (k o : Nat) : List Byte :=
  let s := d.sset k
  let lba := d.rd F.NVM_DRV_FMT_LBA_LOG2 (s.drives.headD 0)
  let members := s.drives.flatMap (fun n => d.drvSerial n ++ leBytes 4 0 ++ leBytes 8 (d.drvBytes n) ++ leBytes 4 (d.slotsOf n s.log2) ++ leBytes 12 0)
  let body := leBytes 4 0x5353584C ++ leBytes 2 0x0100 ++ leBytes 2 4096 ++ d.setId k ++ leBytes 1 o ++ leBytes 1 s.drives.length ++ leBytes 1 s.log2 ++
    leBytes 1 lba ++ leBytes 2 s.ring ++ leBytes 2 0 ++ leBytes 12 s.formatted ++ leBytes 2 s.epoch ++ leBytes 2 0 ++ leBytes 8 0x100000 ++ leBytes 8 0 ++
    members ++ List.replicate (4096 - 4 - 0x40 - members.length) 0
  body ++ leBytes 4 (crc32 (body ++ leBytes 4 0))
/-- Write the label on every member in service. -/
def Dev.writeLabels (d : Dev) (k : Nat) : Dev := (d.sset k).members.cells.foldl (fun d p => d.driveWrite p.2.drive 0 (d.setLabel k p.1) 4096) d

/-- An index event (R379). -/
def Dev.setEvent (d : Dev) (k kind o trig seq count : Nat) : Dev :=
  let w := (d.sset k).members.cells.length
  d.setSset k (fun s => { s with events := s.events ++ [leBytes 1 kind ++ leBytes 1 o ++ leBytes 1 w ++ [0] ++ leBytes 4 trig ++ leBytes 8 seq ++ leBytes 4 count ++ leBytes 12 d.now96] })

/-- The header of a chunk (R377), its CRC over itself and the bytes used. -/
def Dev.chunkHeader (d : Dev) (k kind o flags seq first width time : Nat) (payload : List Byte) : List Byte :=
  let h (crc : Nat) := leBytes 4 0x4B43584C ++ leBytes 1 kind ++ leBytes 1 o ++ leBytes 2 flags ++ d.setId k ++ leBytes 8 seq ++ leBytes 2 (d.sset k).ring ++
    leBytes 2 0 ++ leBytes 4 first ++ leBytes 4 payload.length ++ leBytes 1 width ++ leBytes 3 0 ++ leBytes 12 time ++ leBytes 4 crc
  h (crc32 (h 0 ++ payload))

/-- Member o writes its index chunk for the group of slot `slot`, then a Flush (R378, R379). A group whose index slot lies beyond the member's
slots gets none (DESIGN CHOICE, log entry 33). -/
def Dev.indexChunk (d : Dev) (k o slot : Nat) : Dev :=
  let s := d.sset k
  match s.members.get? o with
  | none => d
  | some m =>
    let g := slot / 256
    let mine := m.chunks.filter (fun c => c.slot / 256 == g)
    let evs := s.events.drop m.told
    let keep := evs.take 4096
    let lost := evs.length - keep.length
    let entries := (List.range 255).flatMap (fun i => match mine.find? (fun c => c.slot % 256 == i) with
      | some c => leBytes 8 c.seq ++ leBytes 4 c.first ++ leBytes 4 c.records ++ leBytes 4 c.used ++ leBytes 4 c.crc ++
          leBytes 2 ((if c.done then 1 else 0) + 2 * (c.flags % 2)) ++ leBytes 6 0
      | none => leBytes 32 0)
    let payload := leBytes 4 (mine.countP (·.done)) ++ leBytes 4 keep.length ++ leBytes 4 lost ++ leBytes 4 0 ++ entries ++ keep.flatten
    let h := d.chunkHeader k 1 o 0 g 0xFFFFFFFF s.members.cells.length 0 payload
    if m.slots ≤ 256 * g + 255 then d else
    let d := (d.driveWrite m.drive (0x100000 + (256 * g + 255) * s.chunkSize) (h ++ payload) s.chunkSize).driveFlush m.drive
    let d := d.inc F.NVM_SET_EVLOST_COUNT k 0 lost
    d.setMember k o (fun m => { m with told := s.events.length, chunks := m.chunks.filter (fun c => !c.done || c.slot / 256 != g), next := max m.next (256 * g + 256) })

/-! ## Set commands -/

/-- FORMAT (R374, R375): label, zeros to the data start, Flush; deallocate first when TRIM = 1. -/
def Dev.setFormat (d : Dev) (k : Nat) : Dev :=
  let st := d.setState k
  let mask := d.rd F.NVM_SET_CFG_MEMBERS k
  let named := (List.range 16).filter mask.testBit
  let mine (n : Nat) := d.drvState n == 4 && d.rd F.NVM_DRV_STATE_SET n == k
  if st = 1 ∨ st = 3 ∨ st = 6 then d.wr F.NVM_SET_STATUS_CODE 1 k
  else if st = 0 ∧ (named.isEmpty || !(named.all (fun n => d.drvState n == 3))) then d.wr F.NVM_SET_STATUS_CODE 2 k
  else
    let drives := named.filter (fun n => d.drvState n == 3 || mine n)
    let log2 := max 18 (min 24 (d.rd F.NVM_SET_CFG_CHUNK_LOG2 k))
    let d := ((List.range 16).filter (fun n => mine n && !(drives.contains n))).foldl (fun d n => d.setDrv n 3 0) d
    let d := (drives.zipIdx).foldl (fun d p =>
      let d := if d.drvState p.1 = 4 then d else d.setDrv p.1 4 0
      (d.wr F.NVM_DRV_STATE_SET k p.1).wr F.NVM_DRV_STATE_ORDINAL p.2 p.1) d
    let ms := (drives.zipIdx).foldl (fun (t : Tab Member) p => t.put p.2 ⟨p.1, d.slotsOf p.1 log2, 0, [], 0⟩) Tab.empty
    let d := d.setSset k (fun _ => ⟨ms, drives, log2, none, d.now96, d.epoch, [], 65535, Tab.empty⟩)
    let d := (((d.wr F.NVM_SET_STATUS_STATE 1 k).wr F.NVM_SET_STATUS_CODE 0 k).wr F.NVM_SET_LOST_COUNT 0 k).wr F.NVM_SET_EVLOST_COUNT 0 k
    let d := (d.setWide F.NVM_SET_CHUNKS_SEQ 0 k).showSet k
    let d := if d.is F.NVM_SET_CFG_TRIM k then drives.foldl (fun d n => d.send (.nvme n 9 0 (d.drvBytes n) [])) d else d
    let d := d.writeLabels k
    drives.foldl (fun d n => (d.driveWrite n 4096 [] (0x100000 - 4096)).driveFlush n) d
/-- The labels are written and flushed (R374). -/
def Dev.formatDone (d : Dev) (k : Nat) : Dev := if d.setState k = 1 then d.wr F.NVM_SET_STATUS_STATE 2 k else d
/-- RELEASE (R374). -/
def Dev.setRelease (d : Dev) (k : Nat) : Dev :=
  let st := d.setState k
  if st = 2 ∨ st = 4 ∨ st = 5 ∨ st = 6 then
    let d := ((List.range 16).filter (fun n => d.drvState n == 4 && d.rd F.NVM_DRV_STATE_SET n == k)).foldl (fun d n => d.setDrv n 3 0) d
    let d := d.setLinks (fun l => { l with sets := l.sets.erase k })
    ((d.wr F.NVM_SET_STATUS_STATE 0 k).wr F.NVM_SET_STATUS_CODE 0 k).showSet k
  else d.wr F.NVM_SET_STATUS_CODE 1 k

/-! ## Stream-port status shared with members and links -/

/-- Port n. -/
def Dev.port (d : Dev) (n : Nat) : Port := d.links.ports.getD n ⟨0, none, 0, [], [], none, 0, false, 0, 0, 0, (0, 0), 0, [], 0, [], [], false⟩
/-- Change it. -/
def Dev.setPort (d : Dev) (n : Nat) (f : Port → Port) : Dev :=
  if (d.links.ports.get? n).isSome then d.setLinks (fun l => { l with ports := l.ports.put n (f (d.port n)) }) else d
/-- State of port n: 0 OFF, 1 WAITING, 2 RUNNING, 3 STOPPING, 4 STOPPED. -/
def Dev.strState (d : Dev) (n : Nat) : Nat := d.rd F.STR_STATUS_STATE n
def Dev.strCode (d : Dev) (n code : Nat) : Dev := d.wr F.STR_STATUS_CODE code n
/-- The summary source of eight ports (R400). -/
def Dev.strSummary (d : Dev) (n : Nat) : Dev :=
  let i := n / 8
  d.level (28 + i / 32 % 4) (i % 32) ((List.range 8).any (fun k => d.rd F.STR_STATUS_EVENTS (8 * i + k) &&& d.rd F.STR_CFG_IRQ_EN (8 * i + k) != 0))
/-- A port's event. -/
def Dev.strEvent (d : Dev) (n e : Nat) : Dev := (d.setBits F.STR_STATUS_EVENTS (2 ^ e) n).strSummary n
/-- The ring a port serves, its mover, its P words. -/
def Dev.strRing (d : Dev) (n : Nat) : Nat := d.rd F.STR_CFG_RING n
def Dev.strP (d : Dev) (n k : Nat) : Nat := d.rd F.STR_P_P n k
/-- A port's reader leaves its ring (R383). -/
def Dev.detachPort (d : Dev) (n : Nat) : Dev :=
  let r := d.strRing n
  if (d.ring r).readers.any (fun (x : Reader) => x.kind == .port n) then
    let d := d.setRing r (fun g => { g with readers := g.readers.filter (fun (x : Reader) => x.kind != .port n) })
    (d.wr F.GAL_RING_STAT_READERS (d.rd F.GAL_RING_STAT_READERS r - 1) r).noteFill r
  else d
/-- The mover a port named is free again when no other port that is not OFF names it (R341, R383). -/
def Dev.freeMover (d : Dev) (n : Nat) : Dev :=
  let m := d.rd F.STR_CFG_MOVER n
  if d.links.ports.cells.any (fun p => p.1 != n && d.rd F.STR_CFG_MOVER p.1 == m) then d else (d.flag F.MOV_OWNER_STR false m).wr F.MOV_OWNER_PORT 0 m
/-- A port enters STOPPED with a code (R384). -/
def Dev.strStopped (d : Dev) (n code : Nat) : Dev :=
  (((d.detachPort n).wr F.STR_STATUS_STATE 4 n).strCode n code).strEvent n 1
/-- It enters OFF. -/
def Dev.strOff (d : Dev) (n : Nat) : Dev :=
  let d := ((d.detachPort n).freeMover n).setLinks (fun l => { l with ports := l.ports.erase n, replays := l.replays.erase n })
  (((d.wr F.STR_STATUS_STATE 0 n).flag F.STR_STATUS_HOLD_WAIT false n).strCode n 0).strEvent n 1
/-- The port that writes or replays set k. -/
def Dev.portOfSet (d : Dev) (k : Nat) : Option Nat :=
  (d.links.ports.cells.find? (fun p => d.rd F.STR_CFG_TRANSPORT p.1 == 1 && p.2.set_ == k && (d.strState p.1 == 2 || d.strState p.1 == 3))).map (·.1)

/-- A member leaves service (R380): its incomplete chunks are lost. -/
def Dev.memberLost (d : Dev) (k o : Nat) : Dev :=
  match (d.sset k).members.get? o with
  | none => d
  | some m =>
    let lost := (m.chunks.filter (fun c => !c.done)).map (·.seq)
    let d := d.setSset k (fun s => { s with members := s.members.erase o })
    let d := lost.foldl (fun d s => d.setEvent k 2 o 0 s 1) d
    let d := ((d.setEvent k 1 o 0 0 0).wr F.NVM_SET_LOST_COUNT (d.rd F.NVM_SET_LOST_COUNT k + lost.length) k).showSet k
    let d := d.raise 32 17
    let port := d.portOfSet k
    let d := match port with
      | some n => d.strEvent n 6
      | none => d
    if (d.sset k).members.cells.isEmpty then
      let d := (d.wr F.NVM_SET_STATUS_STATE 6 k).raise 32 19
      match port with
      | some n => d.strStopped n 5
      | none => d
    else d

/-- A drive leaves service: FAILED or VANISHED with a code (R371, R373, R380). -/
def Dev.driveOut (d : Dev) (n st code : Nat) : Dev :=
  let was := d.drvState n
  let k := d.rd F.NVM_DRV_STATE_SET n
  let o := d.rd F.NVM_DRV_STATE_ORDINAL n
  let d := d.setDrv n st code
  if was = 4 then d.memberLost k o else d

/-! ## Scans and drive events -/

/-- SCAN (R372): the round visits every port; a present drive goes to LINK. -/
def Dev.nvmScan (d : Dev) (present : Nat) : Dev :=
  if d.is F.NVM_SCAN_STATUS_BUSY then d
  else
    let d := (d.flag F.NVM_SCAN_STATUS_BUSY true).flag F.NVM_CTRL_SCAN true
    let d := d.setLinks (fun l => { l with scan := some (present % 65536, 0) })
    (List.range 16).foldl (fun d n =>
      let st := d.drvState n
      if present.testBit n && (st == 0 || st == 5 || st == 6) then
        (d.setDrv n 1 0).setLinks (fun l => { l with linkSince := l.linkSince.put n d.clk })
      else if !(present.testBit n) && (st == 5 || st == 6) then d.setDrv n 0 0 else d) d
/-- The round ends (R372) once no port is in LINK or INIT. -/
def Dev.scanRoundEnd (d : Dev) : Dev :=
  match d.links.scan with
  | none => d
  | some (present, vanished) =>
    if (List.range 16).any (fun n => d.drvState n == 1 || d.drvState n == 2) then d
    else
      let d := (((d.flag F.NVM_SCAN_STATUS_BUSY false).flag F.NVM_CTRL_SCAN false).wr F.NVM_SCAN_STATUS_ROUND (d.rd F.NVM_SCAN_STATUS_ROUND + 1)).setLinks
        (fun l => { l with scan := none })
      ((d.wr F.NVM_PRESENT_PRESENT present).wr F.NVM_PRESENT_VANISHED vanished).raise 32 16
/-- A root port's link comes up (R371). -/
def Dev.rootUp (d : Dev) (n speed width : Nat) : Dev :=
  if d.drvState n = 1 then ((d.setDrv n 2 0).wr F.NVM_DRV_LINK_SPEED speed n).wr F.NVM_DRV_LINK_WIDTH width n else d
/-- No link within 100 ms (R371). -/
def Dev.rootTimeout (d : Dev) (n : Nat) : Dev :=
  if d.drvState n = 1 then (d.advanceTo (d.links.linkSince.getD n d.clk + 100000000)).setDrv n 5 1 else d
/-- Identify and queue creation are complete (R370, R371). -/
def Dev.driveInit (d : Dev) (n : Nat) (i : DriveInfo) : Dev :=
  if d.drvState n ≠ 2 then d
  else if !i.qualifies || !(i.lbaLog2 == 9 || i.lbaLog2 == 12) then d.setDrv n 5 2
  else
    let d := (((d.wrWide F.NVM_DRV_CAP_LBAS i.lbas n 2).wr F.NVM_DRV_FMT_LBA_LOG2 i.lbaLog2 n).wr F.NVM_DRV_FMT_MDTS_LOG2 i.mdtsLog2 n).wrWide
      F.NVM_DRV_SERIAL_SN (leNat (i.serial.take 20)) n 5
    (d.wr F.NVM_DRV_USED_PCT i.used n).setDrv n 3 0
/-- Presence or the link of a drive is lost (R369, R371, R372): a drive that leaves during its own INIT keeps nothing. -/
def Dev.presenceLost (d : Dev) (n : Nat) : Dev :=
  let st := d.drvState n
  if st = 1 ∨ st = 2 ∨ st = 3 ∨ st = 4 then
    let d := d.setLinks (fun l => { l with scan := l.scan.map (fun s => (s.1, s.2 ||| 2 ^ n)) })
    d.driveOut n 6 5
  else d
/-- A drive arrives after its port's visit (R372). -/
def Dev.presenceArrival (d : Dev) (n : Nat) : Dev :=
  let st := d.drvState n
  if st = 0 ∨ st = 5 ∨ st = 6 then (d.setBits F.NVM_ARRIVED_ARRIVED (2 ^ n)).raise 32 n else d
/-- A command of a drive has no completion within `NVM_TIMEOUT` (R373). -/
def Dev.nvmeTimeout (d : Dev) (n : Nat) : Dev :=
  let st := d.drvState n
  if st = 2 ∨ st = 3 ∨ st = 4 then ((d.advance (max 1 (d.rd F.NVM_TIMEOUT_MS) * 1000000)).inc F.NVM_DRV_TMO_COUNT n).driveOut n 5 3 else d
/-- A command completes with an error status (R373). -/
def Dev.nvmeError (d : Dev) (n : Nat) : Dev :=
  let st := d.drvState n
  if st = 2 ∨ st = 3 ∨ st = 4 then (d.inc F.NVM_DRV_ERR_COUNT n).driveOut n 5 4 else d
/-- The composite temperature and percentage used of drives (R400): drive, kelvin, percent. -/
def Dev.driveTemps (d : Dev) (ts : List (Nat × Nat × Nat)) : Dev :=
  ts.foldl (fun d t => if t.1 < 16 ∧ (d.drvState t.1 = 3 ∨ d.drvState t.1 = 4) then
    (d.wr F.NVM_DRV_TEMP_KELVIN t.2.1 t.1).wr F.NVM_DRV_USED_PCT t.2.2 t.1 else d) d

/-! ## The host link -/

/-- The host link trains up (R366). Its MSI-X configuration is the host's (R447). -/
def Dev.linkUp (d : Dev) (speed width : Nat) (enable mask : Bool) (masked : List Nat) : Dev :=
  let d := (((d.wr F.PCI_LINK_SPEED speed).wr F.PCI_LINK_WIDTH width).flag F.PCI_LINK_UP true).flag F.PCI_LINK_DEGRADED (decide (width < 8))
  { d with irq := { d.irq with msixEnable := enable, functionMask := mask, masked := masked.foldl (fun t g => t.put (g % 64) ()) Tab.empty } }
/-- A host-link reset or link-down (R368). -/
def Dev.linkDown (d : Dev) : Dev :=
  let d := (((d.flag F.PCI_LINK_UP false).inc F.PCI_DOWN_COUNT).raise 32 20)
  d.links.ports.cells.foldl (fun d p => if d.rd F.STR_CFG_TRANSPORT p.1 = 0 ∧ d.strState p.1 = 2 then d.strStopped p.1 6 else d) d

/-! ## Meanings -/

/-- Write SCAN to `NVM_CTRL`; `present` is what the visits find (R372). -/
def execNvmScan (present : BitVec 16) (s : State) := host 0x390100 (fun d => d.nvmScan present.toNat) s
/-- The scan round ends (R372). -/
def execScanRoundEnd (s : State) := lift Dev.scanRoundEnd s
/-- The link of root port n comes up (R371). -/
def execRootPortLinkUp (n : Fin 16) (speed width : Nat) (s : State) := lift (fun d => d.rootUp n speed width) s
/-- Root port n gets no link (R371). -/
def execRootPortLinkTimeout (n : Fin 16) (s : State) := lift (fun d => d.rootTimeout n) s
/-- The drive of root port n is initialised (R371). -/
def execDriveInitDone (n : Fin 16) (i : DriveInfo) (s : State) := lift (fun d => d.driveInit n i) s
/-- The drive of root port n is gone (R369). -/
def execPresenceLost (n : Fin 16) (s : State) := lift (fun d => d.presenceLost n) s
/-- A drive arrives at root port n (R372). -/
def execPresenceArrival (n : Fin 16) (s : State) := lift (fun d => d.presenceArrival n) s
/-- A command of drive n times out (R373). -/
def execNvmeTimeout (n : Fin 16) (s : State) := lift (fun d => d.nvmeTimeout n) s
/-- Write FORMAT to `NVM_SET_CMD` of set k (R374). -/
def execSetFormat (k : Fin 16) (s : State) := host (0x392004 + k.val * 64) (fun d => d.setFormat k) s
/-- The labels of set k are written (R374). -/
def execFormatDone (k : Fin 16) (s : State) := lift (fun d => d.formatDone k) s
/-- Write RELEASE (R374). -/
def execSetRelease (k : Fin 16) (s : State) := host (0x392004 + k.val * 64) (fun d => d.setRelease k) s
/-- The 10 s reading of drive temperatures (R400). -/
def execDriveTempPoll (temps : List (Nat × Nat × Nat)) (s : State) := lift (fun d => d.driveTemps temps) s
/-- The host link comes up (R366). -/
def execHostLinkUp (speed width : Nat) (enable mask : Bool) (masked : List Nat) (s : State) := lift (fun d => d.linkUp speed width enable mask masked) s
/-- The host link goes down (R368). -/
def execPciLinkDown (s : State) := lift Dev.linkDown s

end Sys2Proof.Machine
end

