-- ==== Sys2Proof/Machine/Delivery.lean ====
section
/-! DEFINITION. What a stream port delivers (R377–R387, R395–R398, spec/14_ports.md): the records of its ring one by one with the gaps of the
way out, into a host ring, into the chunks of a stripe set, or as datagrams; and the replay of a set. -/
namespace Sys2Proof.Machine

/-! ## Host memory and host rings -/

/-- The engine stores bytes in host memory. -/
def Dev.hostStore (d : Dev) (a : Nat) (b : List Byte) : Dev := { d with hostMem := d.hostMem.storeBytes a b }.send (.hostWrite a b)
/-- What the host itself stored before a command (log entry 13). -/
def Dev.hostStores (d : Dev) (l : List (Nat × List Byte)) : Dev := l.foldl (fun d x => { d with hostMem := d.hostMem.storeBytes x.1 x.2 }) d
/-- Size of a host ring (R387). -/
def Dev.hostRingSize (d : Dev) (n : Nat) : Nat := 2 ^ bits (d.strP n 2) 0 6
/-- Space in it. -/
def Dev.hostRingFree (d : Dev) (n : Nat) : Nat := d.hostRingSize n - ((d.port n).pos - (d.port n).cons)
/-- Bytes go into the host ring at the delivered position and may wrap. -/
def Dev.toHostRing (d : Dev) (n : Nat) (b : List Byte) : Dev :=
  let base := d.strP n 0 + d.strP n 1 * 2 ^ 32
  let size := d.hostRingSize n
  let o := (d.port n).pos % size
  let d := d.hostStore (base + o) (b.take (size - o))
  if b.length ≤ size - o then d else d.hostStore base (b.drop (size - o))
/-- Event 5: the fill reaches THRESH/256 of the size. -/
def Dev.hostRingFill (d : Dev) (n : Nat) : Dev :=
  let size := d.hostRingSize n
  let above := decide (size * bits (d.strP n 2) 8 8 ≤ 256 * (size - d.hostRingFree n))
  let was := (d.port n).full
  let d := d.setPort n (fun p => { p with full := above })
  if above && !was then d.strEvent n 5 else d

/-! ## UDP -/

/-- A datagram of port n to its subscriber (R388, R394). -/
def Dev.toSubscriber (d : Dev) (n : Nat) (payload : List Byte) : Dev :=
  if !(d.is F.ETH_SUB_STAT_VALID n) then d
  else
    let q := bits (d.strP n 0) 0 4
    let p6 := d.strP n 6
    let v6 := d.is F.ETH_SUB_STAT_IPV6 n
    let addr := if v6 then (List.range 4).foldl (fun a k => a * 2 ^ 32 + d.rd F.ETH_SUB_ADDR_ADDR n k) 0 else d.rd F.ETH_SUB_ADDR_ADDR n
    d.send (.datagram q (if p6.testBit 15 then some (bits p6 12 3 * 2 ^ 13 + bits p6 0 12) else none) v6 (d.rdWide F.ETH_SUB_MAC_MAC n 2) addr
      (d.rd F.ETH_SP_DATA_PORT_DATA_PORT q) (d.rd F.ETH_SUB_PORT_PORT n) payload)
/-- MAXPAY of a UDP port. -/
def Dev.maxPay (d : Dev) (n : Nat) : Nat := max 256 (min 9100 (bits (d.strP n 0) 16 14))

/-- The datagrams of one record in verbatim format (R396). -/
def Dev.verbatim (d : Dev) (n at_ : Nat) (first : Bool) : Nat → List Byte → Dev
  | 0, _ => d
  | k + 1, b =>
    if b.isEmpty then d
    else
      let m := d.maxPay n
      let fl := (if first then 1 else 0) + (if b.length ≤ m then 2 else 0)
      let d := d.toSubscriber n (leBytes 4 0x5552584C ++ leBytes 1 1 ++ leBytes 1 fl ++ leBytes 2 n ++ leBytes 8 (d.port n).seq ++ leBytes 8 at_ ++ b.take m)
      (d.setPort n (fun p => { p with seq := p.seq + 1 })).verbatim n (at_ + m) false k (b.drop m)

/-- Seconds and picoseconds of a packet of VITA 49.2 (R397) at a local time. -/
def Dev.vitaTime (d : Dev) (t : Nat) : Nat × Nat :=
  let ns := t / 2 ^ 64
  let frac := t % 2 ^ 64 / 2 ^ 46
  let q := frac * 1000 / 2 ^ 18
  let r := frac * 1000 % 2 ^ 18
  let ps := if 2 ^ 17 < r ∨ (r = 2 ^ 17 ∧ q % 2 = 1) then q + 1 else q
  (unsigned 32 ((ns / 1000000000 : Nat) - signed 32 (d.rd F.ETH_UTC_OFFSET_SEC)), ns % 1000000000 * 1000 + ps)
/-- A packet: type 1 data or 5 extension context; its own count (R397, R398). -/
def Dev.vitaPacket (d : Dev) (n type t : Nat) (payload : List Byte) : Dev :=
  let pk := (d.port n).packets
  let count := if type = 1 then pk.1 else pk.2
  let words := 7 + payload.length / 4
  let w0 := type * 2 ^ 28 + 2 ^ 27 + 2 ^ 22 + 2 ^ 21 + count % 16 * 2 ^ 16 + words
  let tm := d.vitaTime t
  let d := d.toSubscriber n (beBytes 4 w0 ++ beBytes 4 (d.strP n 1) ++ beBytes 4 (d.strP n 2 % 2 ^ 27) ++ beBytes 4 (d.strP n 3) ++ beBytes 4 tm.1 ++ beBytes 8 tm.2 ++ payload)
  d.setPort n (fun p => { p with packets := if type = 1 then (pk.1 + 1, pk.2) else (pk.1, pk.2 + 1) })

/-- One sample of a raw record (R95). -/
def rawSample (b : List Byte) (k : Nat) : Nat :=
  let g := leNat ((b.drop (k / 2 * 3)).take 3)
  if k % 2 = 0 then g % 4096 else g / 4096
/-- Bytes of samples `k` to `k + m − 1` of a data record's payload as big-endian words (R397), `size` bytes a sample. -/
def vitaSamples (type size : Nat) (b : List Byte) (k m : Nat) : List Byte :=
  (List.range m).flatMap (fun i =>
    if type = 1 then beBytes 2 (unsigned 16 (signed 12 (rawSample b (k + i))))
    else
      let s := (b.drop ((k + i) * size)).take size
      let half := size / 2
      if size = 4 then beBytes 2 (leNat (s.take 2)) ++ beBytes 2 (leNat (s.drop 2))
      else beBytes 4 (unsigned 32 (signed (8 * half) (leNat (s.take half)))) ++ beBytes 4 (unsigned 32 (signed (8 * half) (leNat (s.drop half)))))
/-- Units per clock of a source while it runs: the raw stream of an input, else the run that writes it. -/
def Dev.unitRate (d : Dev) (source : Nat) : Option (Nat × Nat) :=
  if source < 8 then some (d.lanes source, 1)
  else (d.runs.cells.find? (fun p => p.2.source == source && p.2.kind == .chan)).map (fun p => (p.2.rateNum * p.2.per, max 1 p.2.rateDen))

/-- Split a data record into packets of whole samples within MAXPAY bytes (R397). A packet past the first is timed by the product's rate; of a
source that no longer runs the spec gives none, so that time is free. -/
def Dev.vitaData (d : Dev) (n type size : Nat) (rate : Option (Nat × Nat)) (t : Nat) (b : List Byte) (count k : Nat) : Nat → Dev
  | 0 => d
  | fuel + 1 =>
    if count ≤ k then d
    else
      let per := if type = 1 then 2 else if size = 4 then 4 else 8
      let m := min (count - k) (max 2 ((d.maxPay n - 28) / per / 2 * 2))
      let pad : List Byte := if type = 1 ∧ m % 2 = 1 then [0, 0] else []
      let x : Dev × Nat := if k = 0 then (d, t) else match rate with
        | some (num, den) => (d, (t + k * den * d.cycle / max 1 num) % localWrap)
        | none => (d.usedFree, d.fresh % localWrap)
      (x.1.vitaPacket n 1 x.2 (vitaSamples type size b k m ++ pad)).vitaData n type size rate t b count (k + m) fuel

/-- A delivered record, of `pay` payload bytes, in VITA 49.2 format (R397, R398). -/
def Dev.vitaRecord (d : Dev) (n pay : Nat) (b : List Byte) : Dev :=
  let type := leNat (b.take 1)
  let count := leNat ((b.drop 32).take 4)
  let t := ofStamp96 (leNat ((b.drop 36).take 12))
  if type = 1 ∨ type = 2 then
    let size := if count * 6 ≤ pay then 6 else 4
    d.vitaData n type size (d.unitRate (leNat ((b.drop 2).take 1))) t (b.drop 64) count 0 (count + 1)
  else if type = 8 ∨ type = 9 ∨ type = 0x0A ∨ type = 0x0C then d.vitaPacket n 5 t (b ++ List.replicate (roundUp b.length 4 - b.length) 0)
  else d.inc F.STR_SKIP_COUNT n

/-! ## Stripe sets -/

/-- Bytes of the stream in one chunk (R377). -/
def StripeSet.room (s : StripeSet) : Nat := s.chunkSize - 64
/-- The ordinal in service that takes the next chunk. -/
def StripeSet.turn (s : StripeSet) : Option Nat :=
  let os := s.members.cells.map (·.1)
  match s.last with
  | none => os.head?
  | some l => (os.find? (fun o => decide (l < o))).or os.head?
/-- The member's next data slot: the index slot of a group is passed. -/
def Member.slot (m : Member) : Nat := if m.next % 256 = 255 then m.next + 1 else m.next

/-- The port's reader follows the chunks that are complete (R377). -/
def Dev.setReader (d : Dev) (n : Nat) : Dev :=
  let p := d.port n
  let s := d.sset p.set_
  let open_ := s.members.cells.flatMap (fun m => (m.2.chunks.filter (fun c => !c.done)).map (fun c => c.seq * s.room))
  let low := open_.foldl min p.cut
  match (p.marks.filter (fun m => decide (m.1 ≤ low))).getLast? with
  | none => d
  | some (_, pos) =>
    let r := d.strRing n
    let d := d.setPort n (fun p => { p with marks := p.marks.filter (fun m => decide (low < m.1)) })
    (d.setRing r (fun g => { g with readers := g.readers.map (fun (x : Reader) => if x.kind = .port n then { x with pos := max x.pos pos } else x) })).noteFill r

/-- Cut one chunk and write it (R377): `closing` cuts what is left. Answers whether a chunk was cut. -/
def Dev.cutChunk (d : Dev) (n : Nat) (closing : Bool) : Dev × Bool :=
  let p := d.port n
  let k := p.set_
  let s := d.sset k
  if d.setState k ≠ 3 then (d, false)
  else if p.buf.length < s.room ∧ !(closing && !p.buf.isEmpty) then (d, false)
  else match s.turn with
    | none => (d, false)
    | some o =>
      match s.members.get? o with
      | none => (d, false)
      | some m =>
        let slot := m.slot
        if m.slots ≤ slot then ((d.wr F.NVM_SET_STATUS_STATE 5 k).raise 32 18, false)
        else if max 1 (d.rd F.NVM_SET_CFG_INFLIGHT k) ≤ (m.chunks.countP (fun c => !c.done)) then (d, false)
        else
          let payload := p.buf.take s.room
          let end_ := p.cut + payload.length
          let inside := p.starts.filter (fun x => decide (p.cut ≤ x.1 ∧ x.1 < end_))
          let before := p.starts.filter (fun x => decide (x.1 < p.cut))
          let prov := inside.any (fun x => x.2.2) || (((before.getLast?).map (fun x => x.2.2)).getD false)
          let seq := p.cut / s.room
          let first := match inside.head? with | some x => x.1 - p.cut | none => 0xFFFFFFFF
          let flags := (if prov then 1 else 0) + (if closing && decide (p.buf.length ≤ s.room) then 2 else 0)
          let h := d.chunkHeader k 0 o flags seq first s.members.cells.length (match inside.head? with | some x => x.2.1 | none => 0) payload
          let d := d.driveWrite m.drive (0x100000 + slot * s.chunkSize) (h ++ payload) s.chunkSize
          let d := d.setMember k o (fun m => { m with next := slot + 1, chunks := m.chunks ++ [⟨seq, slot, first, inside.length, payload.length, leNat ((h.drop 60).take 4), flags, false⟩] })
          let d := (d.setSset k (fun s => { s with last := some o })).setWide F.NVM_SET_CHUNKS_SEQ (seq + 1) k
          (d.setPort n (fun p => { p with buf := p.buf.drop s.room, cut := end_, starts := (before.getLast?.toList ++ p.starts.filter (fun x => decide (p.cut ≤ x.1))) }), true)

/-- Whether every chunk of a set's members is complete. -/
def StripeSet.quiet (s : StripeSet) : Bool := s.members.cells.all (fun m => m.2.chunks.all (·.done))
/-- The set closes: a kind 4 event, the index chunks (R378, R379). -/
def Dev.closeSet (d : Dev) (k : Nat) : Dev :=
  let d := d.setEvent k 4 0 0 0 0
  (d.sset k).members.cells.foldl (fun d m => d.indexChunk k m.1 m.2.next) d

/-- Cut every chunk that can be cut; a set that turned FULL closes once its chunks are complete (R381). -/
def Dev.pumpSet (d : Dev) (n : Nat) : Nat → Dev
  | 0 => d
  | fuel + 1 =>
    let k := (d.port n).set_
    let (d, go) := d.cutChunk n (d.port n).closing
    if go then d.pumpSet n fuel
    else if d.setState k = 5 ∧ (d.strState n = 2 ∨ d.strState n = 3) ∧ (d.sset k).quiet then (d.closeSet k).strStopped n 7
    else d.setReader n

/-- A record joins the stream of a stripe set. Under EAGER, captures are followed: a retraction becomes a kind 3 event (R379, R386). -/
def Dev.toSet (d : Dev) (n : Nat) (b : List Byte) (ringEnd : Nat) : Dev :=
  let p := d.port n
  let k := p.set_
  let room := (d.sset k).room
  let a := p.cut + p.buf.length
  let fl := leNat ((b.drop 4).take 2)
  let trig := leNat ((b.drop 12).take 4)
  let d := d.setPort n (fun p => { p with buf := p.buf ++ b, marks := p.marks ++ [(a + b.length, ringEnd)],
                                          starts := p.starts ++ [(a, leNat ((b.drop 36).take 12), fl.testBit 0)] })
  if !(d.is F.STR_CFG_PROV n) then d
  else if leNat (b.take 1) = 9 then
    match (d.sset k).captures.get? trig with
    | some (x, y) => d.setEvent k 3 0 trig x (y - x + 1)
    | none => d
  else if fl.testBit 9 then
    let x := ((d.sset k).captures.getD trig (a / max 1 room, 0)).1
    d.setSset k (fun s => { s with captures := s.captures.put trig (x, (a + b.length - 1) / max 1 room) })
  else d

/-- A data chunk of member o completes (R377, R379). -/
def Dev.chunkDone (d : Dev) (k o : Nat) : Dev :=
  match (d.sset k).members.get? o with
  | none => d
  | some m =>
    match m.chunks.find? (fun c => !c.done) with
    | none => d
    | some c =>
      let d := d.setMember k o (fun m => { m with chunks := m.chunks.map (fun (x : Chunk) => if x.seq = c.seq then { x with done := true } else x) })
      let d := if c.slot % 256 = 254 then d.indexChunk k o c.slot else d
      match d.portOfSet k with
      | some n => d.pumpSet n ((d.port n).buf.length + 2)
      | none => d

/-! ## Taking records -/

/-- The port skips records (R29): their units are lost to its delivered ledger for a cause. A gap record skipped keeps a cause that comes first (R26). -/
def Dev.portSkip (d : Dev) (n cause : Nat) (ps : List Placed) : Dev :=
  let r := d.strRing n
  let lost := ps.filterMap (fun (p : Placed) => p.product.map (fun key =>
    let own := if p.type = 8 then leNat (d.ringBytes r (p.pos + 64) 1) else 0
    (key, (⟨p.start, p.count, if own ≠ 0 ∧ causeRank own < causeRank cause then own else cause⟩ : Loss))))
  d.setPort n (fun q => { q with lost := q.lost ++ lost })
/-- Where the delivery of a port stands: its reader was moved past skipped records when it was overrun (R319). -/
def Dev.portCursor (d : Dev) (n : Nat) : Dev :=
  let r := d.strRing n
  match (d.ring r).readers.find? (fun (x : Reader) => x.kind == .port n) with
  | some x =>
    if (d.port n).cursor < x.pos then
      let d := (d.portSkip n 9 (x.skipped.filter (fun p => decide ((d.port n).cursor ≤ p.pos)))).setPort n (fun p => { p with cursor := x.pos })
      d.setRing r (fun g => { g with readers := g.readers.map (fun (y : Reader) => if y.kind = .port n then { y with skipped := [] } else y) })
    else d
  | none => d
/-- Move the port past a record; the reader of a host ring or a UDP flow follows at once. -/
def Dev.portPast (d : Dev) (n pos : Nat) : Dev :=
  let r := d.strRing n
  let d := d.setPort n (fun p => { p with cursor := pos })
  if d.rd F.STR_CFG_TRANSPORT n = 1 then d
  else (d.setRing r (fun g => { g with readers := g.readers.map (fun (x : Reader) => if x.kind = .port n then { x with pos := pos } else x) })).noteFill r

/-- The gaps [v, stop) of a product on the way out, each with its cause: what was noted as skipped, else a header that could not be read (R26, R29). -/
def Dev.portGaps (d : Dev) (n : Nat) (key : Nat × Nat × Nat) (v stop : Nat) : List Loss :=
  let noted := (((d.port n).lost.filter (fun x => x.1 == key)).map (fun x =>
    let a := max v x.2.start
    (⟨a, min stop (x.2.start + x.2.count) - a, x.2.cause⟩ : Loss))).filter (fun l => l.count != 0)
  let all := noted.foldl addLoss []
  let rest := all.foldl (fun ps l => ps.flatMap (fun p => p.minus l)) [(⟨v, stop - v, 5⟩ : Loss)]
  (joinLosses (rest.foldl (fun acc l => insertLoss l acc) all)).flatMap (fun l => splitLoss (l.count / (2 ^ 32 - 1)) l)
/-- What goes before a record (R385, R399): a copy of the newest context record of a product that is new to this delivery, and gap records for
units of its product that were skipped. The product's next unit is noted. -/
def Dev.portBefore (d : Dev) (n : Nat) (p : Placed) : Dev × List (List Byte) :=
  let r := d.strRing n
  let note (d : Dev) (key : Nat × Nat × Nat) (v : Nat) :=
    d.setPort n (fun q => { q with prods := (key, v) :: q.prods.filter (fun x => x.1 != key), lost := q.lost.filter (fun x => x.1 != key) })
  if p.type = 0x0C then
    let reason := leNat (d.ringBytes r (p.pos + 64) 4)
    let key := (p.source, p.tag, if p.flags.testBit 9 then p.trig else 0)
    if reason.testBit 0 || reason.testBit 8 then (note d key p.start, []) else (d, [])
  else
    match p.product with
    | none => (d, [])
    | some key =>
      let copy : List (List Byte) :=
        if (d.port n).prods.any (fun x => x.1 == key) || key.2.2 != 0 then []
        else match d.runs.cells.find? (fun u => u.2.source == p.source && u.2.tag == p.tag && u.2.ring == some r) with
          | some u => u.2.ctxLast.toList
          | none => []
      let gaps := match (d.port n).prods.find? (fun x => x.1 == key) with
        | some (_, v) => if v < p.start then d.portGaps n key v p.start else []
        | none => []
      let x := gaps.foldl (fun (x : Dev × List (List Byte)) l =>
        let d := x.1
        let g := gapBytes (d.gapHead r p l.start (d.ringBytes r p.pos 64)) p n l.cause l.start l.count 72 (d.fresh % 2 ^ 64) 0
        let d := d.usedFree.inc F.STR_GAPS_COUNT n
        (if l.cause = 9 then (d.inc F.STR_DROP_UNITS n 0 l.count).strEvent n 2 else d, x.2 ++ [g])) (d, [])
      (note x.1 key (p.start + p.count), copy ++ x.2)

/-- The transport has room for these bytes now. -/
def Dev.portRoom (d : Dev) (n len : Nat) : Bool :=
  match d.rd F.STR_CFG_TRANSPORT n with
  | 0 => decide (len ≤ d.hostRingFree n)
  | 1 => let p := d.port n; decide (p.buf.length < (d.sset p.set_).room)
  | _ =>
    let p := d.port n
    !((d.strP n 0).testBit 11) || decide (p.pos + len - p.acked ≤ d.strP n 5 * 1024)
/-- Without room the port waits (holding, STALL, a stripe set), or else skips the record (R387, R395). -/
def Dev.portWaits (d : Dev) (n : Nat) : Bool :=
  match d.rd F.STR_CFG_TRANSPORT n with
  | 0 => d.is F.STR_CFG_HOLDING n
  | 1 => true
  | _ => (d.strP n 0).testBit 12

/-- Deliver one record's bytes, of which `pay` are payload. -/
def Dev.portEmit (d : Dev) (n ringEnd pay : Nat) (b : List Byte) : Dev :=
  let d := match d.rd F.STR_CFG_TRANSPORT n with
    | 0 => d.toHostRing n b
    | 1 => d.toSet n b ringEnd
    | _ => if (d.strP n 0).testBit 10 then d.verbatim n (d.port n).pos true (b.length + 1) b else d.vitaRecord n pay b
  let pos := (d.port n).pos + b.length
  (d.setPort n (fun p => { p with pos := pos })).setWide F.STR_POS_LO_POS pos n

/-- Note that a port is held at an unresolved capture, or no longer. -/
def Dev.portHeld (d : Dev) (n : Nat) (b : Bool) : Dev :=
  (d.flag F.STR_STATUS_HOLD_WAIT b n).setPort n (fun p => { p with heldSince := if b then some (p.heldSince.getD d.clk) else none })

/-- Take the next record of a port as element e of a descriptor (R338, R385–R387, R395). `fails` are read errors of elements: element and first
failing byte. Answers whether the descriptor goes on, and the element's failing byte. -/
def Dev.portTake (d : Dev) (n e : Nat) (fails : List (Nat × Nat)) : Dev × Bool × Option (Nat × Nat) :=
  let r := d.strRing n
  let d := d.portCursor n
  match d.recordAt r (d.port n).cursor with
  | none => (d.portHeld n false, false, none)
  | some p =>
    if ((d.port n).limit.map (fun l => decide (l ≤ p.pos))).getD false then (d, false, none)
    else if !(d.headerGood r p) then
      match d.resumeAt r p.pos with
      | some q => ((d.portSkip n 5 ((d.ring r).recs.filter (fun (x : Placed) => decide (p.pos ≤ x.pos ∧ x.pos < q.pos)))).portPast n q.pos, true, none)
      | none => (d, false, none)
    else
      let what := if d.is F.STR_CFG_PROV n then 0 else d.holdWhat r p
      if what = 1 then (d.portHeld n true, false, none)
      else
        let d := d.portHeld n false
        if what = 2 then (d.portPast n (p.pos + p.len), true, none)
        else
          let d := d.walkRead r p.pos p.len (p.len / pageSize + 2)
          let fill := d.rd F.MOV_CTRL_FILL (d.rd F.STR_CFG_MOVER n)
          let bad := match d.firstBad r p.pos p.len (p.len / 256 + 2), fails.find? (fun f => f.1 == e && decide (f.2 < p.len)) with
            | some x, some f => some (if f.2 < x.1 then (f.2, 5) else x)
            | some x, none => some x
            | none, some f => some (f.2, 5)
            | none, none => none
          let (d', outs) := d.deliverBytes r n p fill bad
          let outs := if what = 3 then outs.map (fun b => if leNat (b.take 1) = 8 then b else withFlags b (fun f => f - f % 2)) else outs
          let (d', pre) := d'.portBefore n p
          let all := pre ++ outs
          let len := (all.map (·.length)).sum
          if !(d.portRoom n len) then
            if d.portWaits n then (d, false, none)
            else ((d.portSkip n 9 [p]).portPast n (p.pos + p.len), true, none)
          else
            let d := all.foldl (fun d b => d.portEmit n (p.pos + p.len) p.pay b) d'
            let d := if bad.isSome then d.inc F.STR_GAPS_COUNT n else d
            (d.portPast n (p.pos + p.len), true, bad.map (fun x => (2 ^ 60 + r * 2 ^ 48 + (p.pos + x.1) % max 1 (d.ringSize r), e)))

/-- Up to 16 elements of one descriptor. -/
def Dev.portElements (d : Dev) (n : Nat) (fails : List (Nat × Nat)) : Nat → List (Nat × Nat) → Dev × List (Nat × Nat)
  | 0, bad => (d, bad)
  | k + 1, bad =>
    let (d, go, x) := d.portTake n (15 - k) fails
    if go then d.portElements n fails k (bad ++ x.toList) else (d, bad ++ x.toList)

/-- A failing source address of mover m: the first since the last read is captured (R337). -/
def Dev.movFailed (d : Dev) (m a : Nat) : Dev :=
  if (d.movErr.get? m).isSome then d else { d.setWide F.MOV_ERR_ADDR_LO_ADDR a m with movErr := d.movErr.put m () }

/-- A descriptor of a port's mover completes (R336, R338, R383): up to 16 records are delivered; a host-ring port then writes its position. -/
def Dev.portDescriptor (d : Dev) (n : Nat) (fails : List (Nat × Nat)) : Dev :=
  let m := d.rd F.STR_CFG_MOVER n
  let pos0 := (d.port n).pos
  let cur0 := (d.port n).cursor
  let (d, bad) := d.portElements n fails 16 []
  if bad.isEmpty && (d.port n).pos == pos0 && (d.port n).cursor == cur0 then d
  else
  let pos := (d.port n).pos
  let d := (d.inc F.MOV_DONE_COUNT m).setWide F.MOV_BYTES_LO_BYTES (d.wideAt F.MOV_BYTES_LO_BYTES m + (pos - pos0)) m
  let d := if bad.isEmpty then d else
    ((d.inc F.MOV_BAD_COUNT m 0 bad.length).movFailed m (match bad.head? with | some x => x.1 | none => 0)).raise (24 + m / 32 % 2) (m % 32)
  match d.rd F.STR_CFG_TRANSPORT n with
  | 0 =>
    let d := if pos = pos0 then d else d.hostStore (d.strP n 3 + d.strP n 4 * 2 ^ 32) (leBytes 8 pos)
    d.hostRingFill n
  | 1 => d.pumpSet n ((d.port n).buf.length + 2)
  | _ => d

/-- The ports that mover m serves: it takes them in turn (R383). -/
def Dev.moverPorts (d : Dev) (m : Nat) : List Nat :=
  (d.links.ports.cells.map (·.1)).filter (fun n => d.rd F.STR_CFG_MOVER n == m && (d.strState n == 2 || d.strState n == 3) && !(d.is F.STR_CFG_DIR n && d.rd F.STR_CFG_TRANSPORT n == 1))
/-- The next port after the one served last. -/
def Dev.nextPort (d : Dev) (m : Nat) : Option Nat :=
  let ps := d.moverPorts m
  (ps.find? (fun n => decide (d.rd F.MOV_OWNER_PORT m < n))).or ps.head?

/-! ## Replay -/

/-- Read the next piece a replay needs from a drive. -/
def Dev.replayRead (d : Dev) (n drive : Nat) : Dev :=
  match d.links.replays.get? n with
  | none => d
  | some rp =>
    match rp.drives.get? drive with
    | none => d
    | some x =>
      if x.busy || x.ended || x.chunk.isSome then d
      else
        let c := (d.sset (d.port n).set_).chunkSize
        let d := d.setLinks (fun l => { l with replays := l.replays.put n { rp with drives := rp.drives.put drive { x with busy := true } } })
        match x.phase with
        | 0 => d.send (.nvme drive 2 0 4096 [])
        | 1 => d.send (.nvme drive 2 (0x100000 + (256 * x.slot + 255) * c) c [])
        | _ => d.send (.nvme drive 2 (0x100000 + x.slot * c) c [])
/-- Every drive reads on. -/
def Dev.replayReads (d : Dev) (n : Nat) : Dev :=
  match d.links.replays.get? n with
  | none => d
  | some rp => rp.drives.cells.foldl (fun d x => d.replayRead n x.1) d

/-- Whether bytes are a chunk of the set, of a kind, with a good CRC-32 (R377). -/
def Dev.chunkGood (d : Dev) (k kind : Nat) (b : List Byte) : Bool :=
  let used := leNat ((b.drop 40).take 4)
  decide (64 + used ≤ b.length) && leNat (b.take 4) == 0x4B43584C && leNat ((b.drop 4).take 1) == kind && ((b.drop 8).take 16) == d.setId k &&
    leNat ((b.drop 60).take 4) == crc32 (b.take 60 ++ [0, 0, 0, 0] ++ (b.drop 64).take used)

/-- What a drive answered (R376–R378, R382): its label, an index chunk with kind 3 events, or a data chunk. A slot past the chunks written ends it. -/
def Dev.replayAnswer (d : Dev) (n drive : Nat) (b : List Byte) : Dev :=
  match d.links.replays.get? n with
  | none => d
  | some rp =>
    match rp.drives.get? drive with
    | none => d
    | some x =>
      if !x.busy then d
      else
        let k := (d.port n).set_
        let x := { x with busy := false }
        let put (x : RepDrive) (rp : Replay) := d.setLinks (fun l => { l with replays := l.replays.put n { rp with drives := rp.drives.put drive x } })
        match x.phase with
        | 0 =>
          if leNat (b.take 4) = 0x5353584C ∧ (b.drop 8).take 16 = d.setId k then put { x with phase := 1, slot := 0, slots := d.slotsOf drive (d.sset k).log2 } rp
          else put { x with ended := true } rp
        | 1 =>
          if d.chunkGood k 1 b ∧ leNat ((b.drop 24).take 8) = x.slot then
            let nev := leNat ((b.drop 68).take 4)
            let evs := (List.range nev).map (fun i => (b.drop (64 + 0x1FF0 + 32 * i)).take 32)
            let gone := (evs.filter (fun e => leNat (e.take 1) == 3)).map (fun e => leNat ((e.drop 4).take 4))
            put { x with slot := x.slot + 1 } { rp with dropped := rp.dropped ++ gone }
          else put { x with phase := 2, slot := 0 } rp
        | _ =>
          let seq := leNat ((b.drop 24).take 8)
          let next := if (x.slot + 1) % 256 = 255 then x.slot + 2 else x.slot + 1
          if x.slots ≤ x.slot then put { x with ended := true } rp
          else if d.chunkGood k 0 b then
            if (x.seen.map (fun s => decide (seq ≤ s))).getD false then put { x with ended := true } rp
            else put { x with slot := next, seen := some seq, chunk := some (seq, leNat ((b.drop 36).take 4), (b.drop 64).take (leNat ((b.drop 40).take 4))) } rp
          else if leNat (b.take 4) = 0x4B43584C ∧ (b.drop 8).take 16 = d.setId k ∧ x.slot + 1 < x.slots then put { x with slot := next } rp
          else put { x with ended := true } rp

/-- Place a replayed record with the gaps before it (R382): bytes, whether part of it was lost and from which byte. -/
def Dev.replayPlace (d : Dev) (n : Nat) (b : List Byte) (lostAt : Option Nat) : Dev :=
  let r := d.strRing n
  let f (o k : Nat) := leNat ((b.drop o).take k)
  let type := f 0 1
  let tag := recordTag b
  let p : Placed := ⟨0, b.length, b.length - 64, type, f 2 1, tag, f 12 4, f 4 2, f 24 8, f 32 4⟩
  let gap (d : Dev) (start count : Nat) :=
    (splitLoss (count / (2 ^ 32 - 1)) ⟨start, count, 5⟩).foldl (fun d l =>
      (d.usedFree.placeRaw r tag (gapBytes (b.take 64) p n 5 l.start l.count 72 0 0)).inc F.STR_GAPS_COUNT n) d
  let key := (p.source, p.tag, if p.flags.testBit 9 then p.trig else 0)
  let d := match p.product, (d.port n).prods.find? (fun x => x.1 == key) with
    | some _, some (_, v) => if v < p.start then gap d v (p.start - v) else d
    | _, _ => d
  let next := if type = 0x0C then (if (f 64 4).testBit 0 || (f 64 4).testBit 8 then some p.start else none) else if p.product.isSome then some (p.start + p.count) else none
  let d := match next with
    | some v => d.setPort n (fun q => { q with prods := (key, v) :: q.prods.filter (fun x => x.1 != key) })
    | none => d
  let pos := (d.port n).pos + b.length
  let d := (d.setPort n (fun q => { q with pos := pos })).setWide F.STR_POS_LO_POS pos n
  match lostAt with
  | none => d.placeRaw r tag b
  | some o =>
    let u := unitsIn p.type p.count p.pay (o - 64) (b.length - 64)
    let d := d.placeRaw r tag (setBytes b 4 (leBytes 2 (p.flags ||| 16)))
    if p.product.isSome && u.2 != 0 then gap d (p.start + u.1) u.2 else d

/-- Deliver the whole records at the head of a replay's stream, as far as the ring has space. -/
def Dev.replayRecords (d : Dev) (n : Nat) : Nat → Dev
  | 0 => d
  | k + 1 =>
    match d.links.replays.get? n with
    | none => d
    | some rp =>
      let len := leNat ((rp.buf.drop 8).take 4)
      if rp.buf.length < 64 ∨ rp.buf.length < len ∨ len < 64 then d
      else
        let b := rp.buf.take len
        let d := d.setLinks (fun l => { l with replays := l.replays.put n { rp with buf := rp.buf.drop len } })
        let fl := leNat ((b.drop 4).take 2)
        if fl.testBit 9 && leNat (b.take 1) != 9 && !(d.is F.STR_CFG_PROV n) && rp.dropped.contains (leNat ((b.drop 12).take 4)) then d.replayRecords n k
        else if d.fitsRaw (d.strRing n) b then (d.replayPlace n b none).replayRecords n k
        else d.setLinks (fun l => { l with replays := l.replays.put n rp })

/-- Chunk `next` is lost: the record it cut off is delivered as far as its bytes came, with PARTIAL. -/
def Dev.replayLost (d : Dev) (n : Nat) : Dev :=
  match d.links.replays.get? n with
  | none => d
  | some rp =>
    let len := leNat ((rp.buf.drop 8).take 4)
    let d := d.setLinks (fun l => { l with replays := l.replays.put n { rp with buf := [], sync := false, next := rp.next + 1 } })
    if 64 ≤ rp.buf.length ∧ rp.buf.length < len then
      let fill := d.rd F.MOV_CTRL_FILL (d.rd F.STR_CFG_MOVER n)
      d.replayPlace n (rp.buf ++ List.replicate (len - rp.buf.length) (BitVec.ofNat 8 fill)) (some rp.buf.length)
    else d

/-- Deliver chunks in sequence order (R382): a sequence that every drive has passed is lost. -/
def Dev.replayGo (d : Dev) (n : Nat) : Nat → Dev
  | 0 => d
  | k + 1 =>
    let d := d.replayRecords n (((d.links.replays.get? n).map (fun r => r.buf.length)).getD 0 + 1)
    match d.links.replays.get? n with
    | none => d
    | some rp =>
      let len := leNat ((rp.buf.drop 8).take 4)
      if 64 ≤ rp.buf.length ∧ len ≤ rp.buf.length ∧ 64 ≤ len then d
      else if rp.drives.cells.any (fun x => x.2.chunk.isNone && !x.2.ended) then d.replayReads n
      else
        match rp.drives.cells.find? (fun x => (x.2.chunk.map (fun c => c.1 == rp.next)).getD false) with
        | some (dr, x) =>
          match x.chunk with
          | some (_, first, payload) =>
            let add := if rp.sync then payload else if first = 0xFFFFFFFF then [] else payload.drop first
            let rp := { rp with next := rp.next + 1, buf := rp.buf ++ add, sync := rp.sync || first != 0xFFFFFFFF, drives := rp.drives.put dr { x with chunk := none } }
            (d.setLinks (fun l => { l with replays := l.replays.put n rp })).replayGo n k
          | none => d
        | none => if rp.drives.cells.any (fun x => x.2.chunk.isSome) then (d.replayLost n).replayGo n k else d.replayLost n

/-- A command of drive `drive` completes (R373): with an error, or with the data of a Read that a replay made. -/
def Dev.nvmeCompletion (d : Dev) (drive : Nat) (ok : Bool) (data : List Byte) : Dev :=
  if !ok then
    let d := d.nvmeError drive
    d.links.replays.cells.foldl (fun d r => match r.2.drives.get? drive with
      | some x => (d.setLinks (fun l => { l with replays := l.replays.put r.1 { r.2 with drives := r.2.drives.put drive { x with busy := false, ended := true } } })).replayGo r.1 100000
      | none => d) d
  else d.links.replays.cells.foldl (fun d r => ((d.replayAnswer r.1 drive data).replayReads r.1).replayGo r.1 100000) d

/-! ## Meanings -/

/-- A command of drive n completes: its status, and the data of a Read (R373). -/
def execNvmeCompletion (n : Fin 16) (ok : Bool) (data : List Byte) (s : State) := lift (fun d => d.nvmeCompletion n ok data) s
/-- Every Write of the oldest chunk of member o of set k completes (R377). -/
def execChunkWriteDone (k o : Fin 16) (s : State) := lift (fun d => d.chunkDone k o) s

end Sys2Proof.Machine
end

