-- ==== Sys2Proof/Machine/CoreUnits.lean ====
section
/-! DEFINITION. The fetch and deposit units of frame cores (R218, R219), and records made of data the fabric hands over (R321, R322, R325). -/
namespace Sys2Proof.Machine

/-- Words of a record. -/
def wordsOf : Nat → List Byte → List Nat
  | 0, _ => []
  | n + 1, b => leNat (b.take 4) :: wordsOf n (b.drop 4)
/-- Put words into a core's data memory from an address up, wrapping at its end. -/
def Core.storeWords (x : Core) (a : Nat) (l : List Nat) : Core :=
  (l.zipIdx).foldl (fun x p => x.store ((a + p.2) % 65536) (BitVec.ofNat 32 p.1)) x
/-- Bytes of a frame core's data memory from a word address up. -/
def Core.bytesAt (x : Core) (a words : Nat) : List Byte := (List.range words).flatMap (fun k => leBytes 4 (x.load ((a + k) % 65536)).toNat)

/-- Move the fetch unit's reader. -/
def Dev.fetchPast (d : Dev) (c pos : Nat) : Dev :=
  let r := d.rd F.CORE_IN_RING c
  (d.setRing r (fun g => { g with readers := g.readers.map (fun (x : Reader) => if x.kind = .fetch c then { x with pos := pos, skipped := [] } else x) })).noteFill r
/-- The fetch takes the next record that fits (R218): with HOLD as a HOLD consumer (R250); an unreadable header is passed by R334. Bytes of a dead
granule read as fill, whose value is not stated for a fetch (log entry 2). -/
def Dev.fetchTake (d : Dev) (c : Nat) : Nat → Dev
  | 0 => d
  | k + 1 =>
    let r := d.rd F.CORE_IN_RING c
    match (d.ring r).readers.find? (fun (x : Reader) => x.kind == .fetch c) with
    | none => d
    | some x =>
      match d.recordAt r x.pos with
      | none => d
      | some p =>
        if !(d.headerGood r p) then
          match d.resumeAt r p.pos with
          | some q => (d.fetchPast c q.pos).fetchTake c k
          | none => d
        else
          let what := if d.is F.CORE_IN_HOLD c then d.holdWhat r p else 0
          if what = 1 then d
          else
            let d := d.fetchPast c (p.pos + p.len)
            if what = 2 then d.fetchTake c k
            else if (d.core c).fetchMax < p.len / 4 then (d.inc F.CORE_IN_SKIP_COUNT c).fetchTake c k
            else
              let d := d.walkRead r p.pos p.len (p.len / pageSize + 2)
              let b := d.fillBytes r p.pos p.len (d.fresh % 256)
              let b := if what = 3 then withFlags b (fun f => f - f % 2) else b
              (d.setCore c (fun x => { x.storeWords x.fetchAddr (wordsOf (p.len / 4) b) with
                fetchLen := p.len / 4, fetchOn := none, fetchDone := true })).usedFree
/-- The fetch unit of core c, when it is busy. -/
def Dev.fetchUnit (d : Dev) (c : Nat) : Dev :=
  if (d.core c).fetchOn.isNone || !(d.is F.CORE_IN_EN c) then d else d.fetchTake c ((d.ring (d.rd F.CORE_IN_RING c)).recs.length + 1)

/-- The record at DEP_ADDR: its length comes from its header, at the least the header, at the most the memory (R219). -/
def Dev.depRecord (d : Dev) (c : Nat) : List Byte :=
  let x := d.core c
  let len := (x.load ((x.depAddr + 2) % 65536)).toNat
  x.bytesAt x.depAddr (min 65536 (max 16 ((len + 3) / 4)))
/-- The deposit unit of core c, when it is busy: the record is appended when the ring has space, else the clocks waited since the last look are
counted (R219). Into a ring that is OFF nothing is stored. -/
def Dev.depositUnit (d : Dev) (c : Nat) : Dev :=
  match (d.core c).depOn with
  | none => d
  | some t =>
    let r := d.rd F.CORE_OUT_RING c
    let b := d.depRecord c
    let done (d : Dev) := d.setCore c (fun x => { x with depOn := none, depDone := true })
    if !(d.ringOn r) then done (d.inc F.GAL_NOWHERE_COUNT)
    else if d.fitsRaw r b then done (d.placeRaw r (recordTag b) b)
    else (d.inc F.CORE_OUT_STALL_COUNT c 0 (d.clk - t)).setCore c (fun x => { x with depOn := some d.clk })

/-- The fetch unit copies the next record (R218). -/
def execFetchDone (c : Fin 16) (s : State) := lift (fun d => d.fetchUnit c) s
/-- The deposit unit appends its record (R219). -/
def execDepositDone (c : Fin 16) (s : State) := lift (fun d => d.depositUnit c) s

end Sys2Proof.Machine
end

