-- ==== Sys2Proof/Machine/Calibration.lean ====
section
/-! DEFINITION. Calibration (R99–R115, spec/04_calibration.md; slice swaps R86, R87): the measurement engine, checks, the archive, slots, reports. -/
namespace Sys2Proof.Machine

/-! ## Items -/

/-- Trim of class 0–3 of slice `p` of converter `n` in set `s`. -/
def itemTrim (n s p c : Nat) : Nat := ((n * 2 + s) * 68 + p) * 4 + c
/-- Actual attenuation of a setting of input n. -/
def itemAtten (n v : Nat) : Nat := 4352 + n * 32 + v
/-- Response level and phase of point i of input n. -/
def itemLevel (n i : Nat) : Nat := 4608 + n * 64 + i
def itemPhase (n i : Nat) : Nat := 5120 + n * 64 + i
/-- The crystal offset, the frequency of band b of loop p (0–7 sample clocks, 8–11 LO). -/
def itemCrystal : Nat := 5632
def itemBand (p b : Nat) : Nat := 5633 + p * 64 + b
/-- The mark of a slot that needed a swap with no spare left (R87): stale, without a value. -/
def itemSwap (n s : Nat) : Nat := 6401 + n * 64 + s
/-- The `CAL_LIMIT` class of an item. -/
def itemClass (k : Nat) : Nat :=
  if k < 4352 then k % 4 else if k < 4608 then 4 else if k < 5632 then 5 else if k = 5632 then 6 else 7
/-- Value of an item nothing has set: a trim's mid code, which applies no correction (R102), else 0 (log entry 1). -/
def itemDefault (k : Nat) : Int := if k < 4352 then [512, 512, 2048, 32].getD (k % 4) 0 else 0
/-- Whether an item belongs to converter n. -/
def itemOf (n k : Nat) : Bool :=
  if k < 4352 then k / 544 == n else if k < 4608 then (k - 4352) / 32 == n else if k < 5120 then (k - 4608) / 64 == n
  else if k < 5632 then (k - 5120) / 64 == n else decide (6401 ≤ k) && (k - 6401) / 64 == n

/-- The value of an item in force. -/
def Dev.calVal (d : Dev) (k : Nat) : Int := d.cal.val.getD k (itemDefault k)
/-- Its archived value. -/
def Dev.calArch (d : Dev) (k : Nat) : Int := d.cal.arch.getD k (itemDefault k)
/-- Whether it is stale. -/
def Dev.calStale (d : Dev) (k : Nat) : Bool := (d.cal.stale.get? k).isSome
/-- The trim set a converter runs on (R91): the paired one while its pair lasts. -/
def Dev.trimSet (d : Dev) (n : Nat) : Nat := if d.is F.CNV_STATUS_PAIRED (n - n % 2) then 1 else 0
/-- Any trim of a slice stale in a set. -/
def Dev.sliceStale (d : Dev) (n s p : Nat) : Bool := (List.range 4).any (fun c => d.calStale (itemTrim n s p c))

/-- A slice that a slot may be given: no trim of it is stale, counting what the calibration in hand has passed already (R103). -/
def Dev.sliceSound (d : Dev) (n s p : Nat) : Bool :=
  (List.range 4).all (fun c => !(d.calStale (itemTrim n s p c)) || (d.cal.job.any (fun j => j.good.any (·.1 == itemTrim n s p c))))

/-- Show `CNV_SLOT.STALE` of converter n. -/
def Dev.showSlots (d : Dev) (n : Nat) : Dev :=
  (List.range 64).foldl (fun d s =>
    d.flag F.CNV_SLOT_STALE (d.sliceStale n (d.trimSet n) (d.rd F.CNV_SLOT_PHYS n s) || d.calStale (itemSwap n s)) n s) d
/-- The stale conditions of a converter alone: an active slot, its clock's band table. -/
def Dev.converterStale (d : Dev) (n : Nat) : Bool :=
  (List.range 64).any (fun s => d.is F.CNV_SLOT_STALE n s) || (List.range 64).any (fun b => d.calStale (itemBand n b))
/-- Show `CNV_STATUS.CAL_STALE` (R104), of a pair on its even input. -/
def Dev.showStale (d : Dev) (n : Nat) : Dev :=
  let d := (d.showSlots n).showSlots (if d.is F.CNV_STATUS_PAIRED n then n + 1 else n)
  d.flagging n (fun d => d.flag F.CNV_STATUS_CAL_STALE (d.converterStale n || (d.is F.CNV_STATUS_PAIRED n && d.converterStale (n + 1)) ||
    (List.range 32).any (fun v => d.calStale (itemAtten n v)) || (List.range 64).any (fun i => d.calStale (itemLevel n i))) n)
/-- Show it on both inputs of the pair that converter n belongs to. -/
def Dev.showPair (d : Dev) (n : Nat) : Dev := (d.showStale (n - n % 2)).showStale (n - n % 2 + 1)

/-! ## Stages -/

/-- Duration of a stage in clocks (R99). -/
def stageClocks : Nat → Nat
  | 0 => 2000000 | 1 => 20000000 | 2 => 80000000 | 3 => 16000000 | 4 => 32000000 | 5 => 104000000 | 6 => 32000000 | 7 => 48000000
  | 8 => 4000000 | 9 => 40000000 | _ => 0

/-- The stages of a calibration of input n (R99, R100, R109). -/
def calStages (n : Nat) (paired slice : Bool) : List CalStage :=
  let s := if paired then 1 else 0
  let each (k : Nat) : List CalStage := if paired then [⟨k, n, s⟩, ⟨k, n + 1, s⟩] else [⟨k, n, s⟩]
  [⟨0, n, s⟩] ++ each 3 ++ each 4 ++ [⟨5, n, s⟩] ++ each 6 ++ (if slice then [] else [⟨7, n, s⟩]) ++ each 8
/-- The stages of the power-up calibration (R101). -/
def powerUpStages (refPresent : Bool) : List CalStage :=
  (if refPresent then [⟨1, 0, 0⟩] else []) ++ [⟨2, 0, 0⟩] ++ (List.range 8).flatMap (fun n => calStages n false false) ++
  ([0, 2, 4, 6] : List Nat).map (fun n => ⟨5, n, 1⟩) ++ [⟨9, 0, 0⟩]
/-- Converters a job calibrates. -/
def CalJob.convs (j : CalJob) : List Nat := if j.cause = 0 then List.range 8 else if j.paired then [j.input, j.input + 1] else [j.input]

/-- Change the calibration state, or the job that measures. -/
def Dev.setCal (d : Dev) (f : Cal → Cal) : Dev := { d with cal := f d.cal }
def Dev.setJob (d : Dev) (f : CalJob → CalJob) : Dev := d.setCal (fun c => { c with job := c.job.map f })

/-- Check one result (R103, R105): outside its window, beyond DELTA. -/
def Dev.calCheck (d : Dev) (k : Nat) (v : Int) (accept : Bool) : Bool × Bool :=
  let c := itemClass k
  (decide (v < d.rdInt F.CAL_LIMIT_MIN_MIN c) || decide (d.rdInt F.CAL_LIMIT_MAX_MAX c < v),
   !accept && decide (d.rd F.CAL_LIMIT_DELTA_DELTA c < (v - d.calArch k).natAbs))

/-- Take a result into the job: it passes, or its archived value stays and the item is stale at once. -/
def Dev.calResult (d : Dev) (accept : Bool) (k : Nat) (v : Int) : Dev :=
  let (out, far) := d.calCheck k v accept
  if out || far then
    let kept := d.calArch k
    let d := d.setJob (fun j => { j with good := j.good.filter (·.1 != k), kept := j.kept ++ [(k, kept)], outside := if out && decide (k < 4352) then (k / 544 * 68 + k / 4 % 68) :: j.outside else j.outside })
    let d := d.setCal (fun c => { c with stale := c.stale.put k () })
    if k < 4352 then d.setCal (fun c => { c with marks := c.marks.put (k / 4) ((c.marks.getD (k / 4) 0) ||| (if out then 16 else 0) ||| (if far then 32 else 0)) }) else d
  else d.setJob (fun j => { j with good := j.good ++ [(k, v)] })

/-- The result list of a stage names these items in order (a missing result repeats the archived value). -/
def Dev.stageItems (d : Dev) (g : CalStage) : List Nat :=
  let slices (n c : Nat) := ((List.range 68).filter (fun p => d.rd F.CNV_PHYS_ROLE n p != 2)).map (fun p => itemTrim n g.set p c)
  match g.no with
  | 1 => [itemCrystal]
  | 2 => (List.range 768).map (5633 + ·)
  | 3 => slices g.conv 0
  | 4 => slices g.conv 1
  | 5 => slices g.conv 2 ++ (if g.set = 1 then slices (g.conv + 1) 2 else [])
  | 6 => slices g.conv 3
  | 7 => (List.range 31).map (fun v => itemAtten g.conv (v + 1)) ++ (List.range 64).map (fun i => itemLevel g.conv i)
  | _ => []

/-- A slice with no spare to replace it keeps its archived trims (R87). -/
def Dev.keepSlice (d : Dev) (n set p : Nat) : Dev :=
  (List.range 4).foldl (fun d c =>
    let k := itemTrim n set p c
    let v := d.calArch k
    d.setJob (fun j => { j with good := j.good.filter (·.1 != k), kept := if j.kept.any (·.1 == k) then j.kept else j.kept ++ [(k, v)] })) d

/-- The slot of converter n gets the lowest spare that is not stale, or stays and is marked (R86, R87). -/
def Dev.swapSlot (d : Dev) (n set s : Nat) (cause : Nat) : Dev :=
  let old := d.rd F.CNV_SLOT_PHYS n s
  match (List.range 68).find? (fun p => d.rd F.CNV_PHYS_ROLE n p == 1 && d.sliceSound n set p) with
  | none => (((d.keepSlice n set old).setCal (fun c => { c with stale := c.stale.put (itemSwap n s) () })).flag F.CNV_SLICE_DEGRADED true n).raise 6 (8 + n)
  | some p =>
    let d := (((d.wr F.CNV_PHYS_ROLE 2 n old).wr F.CNV_PHYS_SLOT 0 n old).flag F.CNV_PHYS_FIELD true n old)
    let d := ((d.wr F.CNV_PHYS_ROLE 0 n p).wr F.CNV_PHYS_SLOT s n p).wr F.CNV_SLOT_PHYS p n s
    let d := if d.is F.CNV_SLOT_PENDING_SWAP n s then (d.flag F.CNV_SLOT_PENDING_SWAP false n s).wr F.CNV_SLICE_PENDING (d.rd F.CNV_SLICE_PENDING n - 1) n else d
    let d := (d.wr F.CNV_SLICE_SPARES_LEFT (d.rd F.CNV_SLICE_SPARES_LEFT n - 1) n).inc F.CNV_SLICE_RETIRED n
    d.fieldRetire 3 cause (n + 256 * old)

/-- Stage 8 of a converter (R86). -/
def Dev.swapStage (d : Dev) (n set : Nat) (outside : List Nat) : Dev :=
  let d := d.setCal (fun c => { c with stale := c.stale.keep (fun p => !(decide (6401 + n * 64 ≤ p.1) && decide (p.1 < 6465 + n * 64))) })
  (List.range 64).foldl (fun d s =>
    let out := outside.contains (n * 68 + d.rd F.CNV_SLOT_PHYS n s)
    if out || d.is F.CNV_SLOT_PENDING_SWAP n s then d.swapSlot n set s (if out then 3 else 4) else d) d

/-- Copy an item of the unpaired set into the paired set with its stale flag (R101). -/
def Dev.copyItem (d : Dev) (n p c : Nat) : Dev :=
  let a := itemTrim n 0 p c
  let b := itemTrim n 1 p c
  match d.cal.job with
  | none => d
  | some j =>
    let v := match (j.good ++ j.kept).find? (·.1 == a) with | some x => x.2 | none => d.calVal a
    if d.calStale a then (d.setJob (fun j => { j with kept := j.kept ++ [(b, v)] })).setCal (fun c => { c with stale := c.stale.put b () })
    else d.setJob (fun j => { j with good := j.good ++ [(b, v)] })
/-- Copy a converter's offset, gain and bandwidth trims. -/
def Dev.copySet (d : Dev) (n : Nat) : Dev :=
  (List.range 68).foldl (fun d p => ([0, 1, 3] : List Nat).foldl (fun d c => d.copyItem n p c) d) d

/-- Put the results of a calibration in force: passed items are fresh, kept ones stay stale (R103, R104). -/
def Dev.calCommit (d : Dev) (j : CalJob) : Dev :=
  let d := d.setCal (fun c => { c with
    val := (j.good ++ j.kept).foldl (fun t p => t.put p.1 p.2) c.val
    stale := j.good.foldl (fun t p => t.erase p.1) c.stale })
  let d := j.convs.foldl (fun d n => (d.showStale n).wr F.CNV_ATTEN_ACT_ACTUAL (unsigned 16 (d.calVal (itemAtten n (d.rd F.CNV_ATTEN_ACT_SETTING n)))) n) d
  let d := d.flag F.CAL_STATUS_REF_STALE (d.calStale itemCrystal)
  d.wr F.CAL_STATUS_PLL_STALE ((List.range 12).foldl (fun w p => if (List.range 64).any (fun b => d.calStale (itemBand p b)) then w + 2 ^ p else w) 0)

/-- Begin the measurement of a job: it takes the ACCEPTs that wait for its inputs (R105). -/
def Dev.calBegin (d : Dev) (j : CalJob) : Dev :=
  d.setCal (fun c => { c with
    job := some { j with accept := c.accepts.filter (fun n => j.convs.contains n) }
    accepts := c.accepts.filter (fun n => !(j.convs.contains n))
    marks := c.marks.keep (fun p => !(j.convs.contains (p.1 / 136))) })

/-- The measurement is complete: the archive write waits its turn, and a suspended calibration resumes at the start of its stage (R108, R110). -/
def Dev.calMeasured (d : Dev) : Dev :=
  match d.cal.job with
  | none => d
  | some j =>
    let d := d.setCal (fun c => { c with archive := c.archive ++ [{ j with ended := d.clk }], archiveSince := if c.archive.isEmpty then d.clk else c.archiveSince })
    match d.cal.suspended with
    | [] => (d.setCal (fun c => { c with job := none })).flag F.CAL_STATUS_ENGINE_BUSY false
    | x :: t => (d.setCal (fun c => { c with job := some { x with since := d.clk }, suspended := t })).wr F.CAL_STATUS_ENGINE_INPUT x.input

/-- The stage in hand is over: the next begins, or the measurement is complete. -/
def Dev.calNext (d : Dev) : Dev :=
  let d := d.setJob (fun j => { j with todo := j.todo.tail, since := d.clk })
  match d.cal.job with
  | some j =>
    match j.todo with
    | [] => d.calMeasured
    | g :: _ => d.wr F.CAL_STATUS_ENGINE_INPUT g.conv
  | none => d

/-- Stage 9: the readings of the 24 sensors are stored (R99). The spec gives the map no window: it failed when it is not complete (DESIGN CHOICE,
log entry 33). -/
def Dev.tempStage (d : Dev) (res : List Int) : Dev :=
  (d.setCal (fun c => { c with tempMap := res.take 24 })).flag F.CAL_STATUS_TEMP_STALE (res.length != 24)

/-- A stage ends with these results (R99–R103). A response phase has no window: it follows its level. -/
def Dev.stageEnd (d : Dev) (res : List Int) : Dev :=
  match d.cal.job with
  | none => d
  | some j =>
    match j.todo with
    | [] => d
    | g :: _ =>
      if g.no = 0 then d
      else
        let d := d.advanceTo (j.since + stageClocks g.no)
        let d := if g.no = 5 ∧ j.cause = 0 ∧ g.set = 1 then (d.copySet g.conv).copySet (g.conv + 1) else d
        let accept := j.accept.contains (if g.set = 1 then g.conv - g.conv % 2 else g.conv)
        let items := d.stageItems g
        let d := (items.zipIdx).foldl (fun d p => d.calResult accept p.1 (res.getD p.2 (d.calArch p.1))) d
        let d := if g.no = 7 then
            (List.range 64).foldl (fun d i => let k := itemPhase g.conv i
              let old := d.calArch k
              d.setJob (fun j => if j.good.any (·.1 == itemLevel g.conv i) then { j with good := j.good ++ [(k, res.getD (95 + i) old)] }
                else { j with kept := j.kept ++ [(k, old)] })) d
          else if g.no = 8 then (match d.cal.job with | some j => d.swapStage g.conv g.set j.outside | none => d)
          else if g.no = 9 then d.tempStage res
          else d
        (if g.no = 2 then (List.range 8).foldl (fun d n => d.showStale n) d else d.showPair g.conv).calNext

/-- The switch-and-settle ends and the first stage begins (R99, R108). -/
def Dev.settleEnd (d : Dev) : Dev :=
  match d.cal.job with
  | some j =>
    match j.todo with
    | g :: _ =>
      if g.no = 0 then
        ((d.advanceTo (j.since + stageClocks 0)).calNext).flag F.CAL_STATUS_ENGINE_BUSY true
      else d
    | [] => d
  | none => d

/-- A slot's job of input n. -/
def CalJob.slotOf (j : CalJob) (n : Nat) : Bool := j.input == n && decide (2 ≤ j.cause)
/-- End every stage left of the slot of input n with results equal to the archived values: what its return, after its last stage, implies. -/
def Dev.calFinish (d : Dev) (n : Nat) : Nat → Dev
  | 0 => d
  | k + 1 => match d.cal.job with
    | some j => if j.slotOf n then (match j.todo with
        | g :: _ => if g.no = 0 then d.settleEnd.calFinish n k else (d.stageEnd []).calFinish n k
        | [] => d) else d
    | none => d

/-! ## Requests and slots -/

/-- A free calibration record of input n. -/
def calJob (n cause : Nat) (paired : Bool) (clk : Nat) : CalJob :=
  ⟨n, cause, paired, calStages n paired (cause == 3), clk, clk, 0, [], [], [], [], false⟩

/-- CAL for input n (R88, R108, R115). Where several rows of R108 apply, halt answers first, then BUSY of a pending pairing (R90), PAIRED, STATE:
the spec gives no order (DESIGN CHOICE, log entry 33). -/
def Dev.calRequest (d : Dev) (n : Nat) : Dev :=
  let st := d.cnvState n
  if d.halted then (d.cnvCode n 4).raise 6 (16 + n)
  else if d.is F.CNV_STATUS_PAIR_PENDING n then d.cnvCode n 1
  else if st = 4 then d.cnvCode n 3
  else if st != 0 then d.cnvCode n 2
  else ((((d.wr F.CNV_STATUS_STATE 2 n).flag F.CNV_STATUS_TONE true n).flag F.CAL_IN_STATUS_QUEUED true n)).setCal (fun c => { c with queue := c.queue ++ [n] })

/-- ACCEPT for input n (R105): for the calibration of it that measures or is suspended, else for the one queued or next to start. -/
def Dev.calAccept (d : Dev) (n : Nat) : Dev :=
  let d := d.flag F.CAL_IN_ACCEPT_PENDING true n
  let takes (j : CalJob) := j.input == n || j.cause == 0
  let give (j : CalJob) : CalJob := if takes j then { j with accept := n :: j.accept.erase n } else j
  if d.cal.job.any takes || d.cal.suspended.any takes then
    d.setCal (fun c => { c with job := c.job.map give, suspended := c.suspended.map give })
  else d.setCal (fun c => { c with accepts := n :: c.accepts.erase n })

/-- A queued calibration begins measuring when the engine is free (R108). -/
def Dev.measureStart (d : Dev) : Dev :=
  match d.cal.job, d.cal.queue with
  | none, n :: t =>
    let d := (d.setCal (fun c => { c with queue := t })).flag F.CAL_IN_STATUS_QUEUED false n
    d.calBegin (calJob n 1 (d.is F.CNV_STATUS_PAIRED n) d.clk)
  | _, _ => d

/-- A slot commits at the next boundary (R109, R110): the switch moves to TONE and the measurement begins, suspending a request; or the slot is refused. -/
def Dev.openSlot (d : Dev) (n kind : Nat) : Dev :=
  if d.cnvState n != 1 || (List.range 8).any (fun m => d.cnvState m == 3) then (d.inc F.CAL_SLOT_REFUSE_COUNT).raise 6 27
  else
    let d := ((d.wr F.CNV_STATUS_STATE 3 n).flag F.CNV_STATUS_TONE true n).setInput n (fun i => { i with slotFrom := some (d.nextIdx n) })
    let d := match d.cal.job with
      | some j => d.setCal (fun c => { c with suspended := j :: c.suspended })
      | none => d
    (d.flag F.CAL_STATUS_ENGINE_BUSY false).calBegin (calJob n (2 + kind) (d.is F.CNV_STATUS_PAIRED n) (d.clk + 1))

/-- The length of a slot in clocks (R109). -/
def slotClocks (cause : Nat) (paired : Bool) : Nat :=
  match cause, paired with
  | 2, false => 238000000 | 2, true => 322000000 | _, false => 190000000 | _, true => 274000000

/-- The job of an input whose slot is open or stopped, wherever it stands. -/
def Dev.slotJob (d : Dev) (n : Nat) : Option CalJob :=
  (d.cal.job.toList ++ d.cal.suspended ++ d.cal.archive).find? (fun j => j.slotOf n && !j.done)

/-- Close the calibration-slot gap at sample `upto` (R76, R109): recorded with cause 0x08. -/
def Dev.closeSlotGap (d : Dev) (n upto : Nat) : Dev :=
  match (d.input n).slotFrom with
  | none => d
  | some a =>
    let d := d.setInput n (fun i => { i with slotFrom := none })
    d.inputLost n a upto 8

/-- The switch returns (R109): new trims in force, the gap of the slot and its 64 settling clocks recorded, the input RUNNING with the
first clock delivered after them, to which a held attenuator setting applies (R72). -/
def Dev.slotReturn (d : Dev) (n : Nat) : Dev :=
  if d.cnvState n != 3 then d
  else match d.slotJob n with
    | none => d
    | some j =>
      let d := (d.calFinish n 16).advanceTo (j.start + slotClocks j.cause j.paired)
      let d := match d.slotJob n with | some j => d.calCommit j | none => d
      let d := d.setCal (fun c => { c with archive := c.archive.map (fun x => if x.slotOf n then { x with done := true } else x) })
      let d := (d.flag F.CNV_STATUS_TONE false n).advance 63
      let d := (d.closeSlotGap n (d.nextIdx n)).wr F.CNV_STATUS_STATE 1 n
      d.releaseAtten n

/-! ## The archive and the report -/

/-- A slice entry of a report (R113). -/
def Dev.sliceEntry (d : Dev) (n s p : Nat) : List Byte :=
  let v (c : Nat) := (d.calVal (itemTrim n s p c)).toNat
  let st := (List.range 4).foldl (fun w c => if d.calStale (itemTrim n s p c) then w + 2 ^ c else w) (d.cal.marks.getD ((n * 2 + s) * 68 + p) 0)
  leBytes 2 (v 0) ++ leBytes 2 (v 1) ++ leBytes 2 (v 2) ++ leBytes 1 (v 3) ++ leBytes 1 st
/-- Items whose staleness the registers and the report of input n show: its own, the trims of a pair's odd converter, the band table of the
sample clock it runs on, the crystal (which class a pair and the engine's items belong to: DEDUCED, log entry 33). -/
def Dev.shows (d : Dev) (n k : Nat) : Bool :=
  let odd := d.is F.CNV_STATUS_PAIRED n
  k == itemCrystal || (itemOf n k && decide (k < 6401)) || (odd && itemOf (n + 1) k && decide (k < 4352)) ||
    (decide (itemBand n 0 ≤ k) && decide (k < itemBand (n + 1) 0)) || (odd && decide (itemBand (n + 1) 0 ≤ k) && decide (k < itemBand (n + 2) 0))
/-- Classes with a stale item of input n. -/
def Dev.staleClasses (d : Dev) (n : Nat) : Nat :=
  ((d.cal.stale.cells.filter (fun p => d.shows n p.1)).map (fun p => itemClass p.1)).foldl (fun w c => w ||| 2 ^ c) 0
/-- Any stale item of input n, a swap that found no spare among them (R87). -/
def Dev.anyStale (d : Dev) (n : Nat) : Bool :=
  d.staleClasses n != 0 || (List.range 64).any (fun s => d.calStale (itemSwap n s)) ||
    (d.is F.CNV_STATUS_PAIRED n && (List.range 64).any (fun s => d.calStale (itemSwap (n + 1) s)))
/-- The report of input n (R113). -/
def Dev.report (d : Dev) (n : Nat) (j : CalJob) (seq : Nat) : List Byte :=
  let cl := d.staleClasses n
  let b := [0x4C, 0x58, 0x43, 0x52] ++ leBytes 2 0x100 ++
    leBytes 2 ((if d.anyStale n then 1 else 0) + (if d.is F.CAL_STATUS_FACTORY then 2 else 0) + (if j.paired || j.cause == 0 then 4 else 0)) ++
    leBytes 12 d.now96 ++ leBytes 2 d.epoch ++ leBytes 1 j.cause ++ leBytes 1 0 ++ leBytes 4 seq ++ leBytes 2 (d.rd F.CAL_IN_TEMP_TEMP n) ++
    leBytes 2 0 ++ leBytes 4 cl ++ leBytes 4 250000 ++ leBytes 24 0 ++
    ([0, 1] : List Nat).flatMap (fun s => (List.range 68).flatMap (fun p => d.sliceEntry n s p)) ++
    (List.range 32).flatMap (fun v => leBytes 2 (unsigned 16 (d.calVal (itemAtten n v)))) ++
    (List.range 64).flatMap (fun i => leBytes 2 (unsigned 16 (d.calVal (itemLevel n i))) ++ leBytes 2 (unsigned 16 (d.calVal (itemPhase n i))))
  b ++ leBytes 4 (crc32 b)
/-- Store a report in its window. -/
def Dev.putReport (d : Dev) (n : Nat) (b : List Byte) : Dev :=
  (List.range 369).foldl (fun d k => d.wr F.CAL_REPORT_WORD (leNat ((b.drop (4 * k)).take 4)) n k) d

/-- What the end of a calibration leaves for input n (R105, R115): code 0 OK or 1 STALE, 2 ABANDONED. An ACCEPT or a place in the queue that
belongs to a later calibration stays. -/
def Dev.calInEnd (d : Dev) (n : Nat) (j : CalJob) (abandoned : Bool) : Dev :=
  let d := ((d.wr F.CAL_IN_STATUS_CAUSE j.cause n).wr F.CAL_IN_STATUS_STALE (d.staleClasses n) n).flag F.CAL_IN_STATUS_QUEUED (d.cal.queue.contains n) n
  let d := d.wr F.CAL_IN_STATUS_CODE (if abandoned then 2 else if d.anyStale n then 1 else 0) n
  let waits := d.cal.accepts.contains n || (d.cal.job.toList ++ d.cal.suspended ++ d.cal.archive).any (fun x => x.accept.contains n)
  (d.flag F.CAL_IN_ACCEPT_PENDING waits n).raise 6 (16 + n)

/-- Whether a calibration of input n is still to come or to end. -/
def Dev.calComes (d : Dev) (n : Nat) : Bool :=
  d.cal.queue.contains n || (d.cal.job.toList ++ d.cal.suspended ++ d.cal.archive).any (fun j => j.input == n || j.cause == 0)
/-- An input whose last calibration ended enters STOPPED (R88, R108) and its held attenuator setting applies (R72). -/
def Dev.calStopped (d : Dev) (n : Nat) : Dev :=
  if d.cnvState n = 2 ∧ d.calComes n = false then ((d.wr F.CNV_STATUS_STATE 0 n).flag F.CNV_STATUS_TONE false n).releaseAtten n else d

/-- The archive write completes (R106, R108, R113–R115); `ok = false`: it failed, the previous generation stays, and so do the
reports, which carry the number of a generation that was written (DEDUCED, log entry 33). `temps`: the die temperatures near the inputs, 1/16 °C. -/
def Dev.archiveEnd (d : Dev) (ok : Bool) (temps : List Int) : Dev :=
  match d.cal.archive with
  | [] => d
  | j :: t =>
    let d := d.advanceTo (d.cal.archiveSince + 12000000)
    let d := if j.done then d else d.calCommit j
    let seq := (d.cal.gens.cells.foldl (fun m p => max m p.2.1) 0 + 1) % 2 ^ 32
    let pos := (d.cal.pos + 1) % 3
    let d := if ok then d.setCal (fun c => { c with gens := c.gens.put pos (seq, c.val), pos := pos, arch := c.val })
      else (d.mark F.CAL_STATUS_ARCH_FAIL).raise 6 29
    let own (k : Nat) := j.convs.any (fun n => itemOf n k) || (j.cause == 0)
    let d := d.setCal (fun c => { c with
      archive := t, archiveSince := d.clk,
      last := (c.val.cells.filter (fun p => own p.1)).foldl (fun m p => m.put p.1 p.2) c.last,
      lastStale := (c.stale.cells.filter (fun p => own p.1)).foldl (fun m p => m.put p.1 ()) (c.lastStale.keep (fun p => !(own p.1))) })
    let ins := if j.cause = 0 then List.range 8 else [j.input]
    let d := ins.foldl (fun d n =>
      let d := (d.wr F.CAL_IN_TEMP_TEMP (unsigned 16 (temps.getD n 0)) n).setInput n (fun i => { i with tempRaised := false })
      let d := d.wr F.CAL_IN_TIME_US ((j.ended - j.start) / 1000) n
      let d := if ok then (d.wr F.CAL_IN_SEQ_SEQ seq n).putReport n (d.report n j seq) else d
      (d.calInEnd n j false).calStopped n) d
    let d := if j.kept.isEmpty then d else d.raise 6 25
    if j.cause = 0 then
      ((d.flag F.CAL_STATUS_POWERUP_DONE true).wr F.CAL_PU_TIME_MS ((d.clk - j.start) / 1000000)).raise 6 24
    else d

/-- Whether a generation's items all lie inside their windows (R107); a response phase has none. -/
def Dev.genOk (d : Dev) (g : Nat × Tab Int) : Bool :=
  g.2.cells.all (fun p => (decide (5120 ≤ p.1) && decide (p.1 < 5632)) || !(d.calCheck p.1 p.2 true).1)

/-- Power-up selects a generation (R107) and holds every input in CALIBRATING (R101). -/
def Dev.powerUpCal (d : Dev) (refPresent : Bool) : Dev :=
  let newest (l : List (Nat × Nat × Tab Int)) := l.foldl (fun (b : Option (Nat × Nat × Tab Int)) p => match b with
    | some x => if x.2.1 < p.2.1 then some p else b
    | none => some p) none
  let all := newest d.cal.gens.cells
  let sel := newest (d.cal.gens.cells.filter (fun p => d.genOk p.2))
  let v := match sel with | some p => p.2.2 | none => Tab.empty
  let d := d.setCal (fun c => { c with
    val := v, arch := v, stale := Tab.empty, last := v, lastStale := Tab.empty, queue := [], suspended := [], archive := [], marks := Tab.empty, accepts := [], tempMap := [],
    pos := match all with | some p => p.1 | none => 2 })
  let d := d.flag F.CAL_STATUS_GEN_SKIPPED (decide (all.map (·.1) ≠ sel.map (·.1)))
  let d := match sel with
    | some p => (d.wr F.CAL_STATUS_GEN_USED p.1).flag F.CAL_STATUS_FACTORY false
    | none => (d.flag F.CAL_STATUS_FACTORY true).raise 6 26
  let d := (List.range 8).foldl (fun d n => (d.wr F.CNV_STATUS_STATE 2 n).flag F.CNV_STATUS_TONE true n) d
  (d.flag F.CAL_STATUS_ENGINE_BUSY true).calBegin ⟨0, 0, false, powerUpStages refPresent, d.clk, d.clk, 0, [], [], [], [], false⟩

/-- Calibrations go unfinished (R111): nothing of them is archived, a generation being written is void, and the items they own return to what
the last completed calibration left. -/
def Dev.calWithdraw (d : Dev) (mine : CalJob → Bool) (own : Nat → Bool) : Dev :=
  let writing := d.cal.archive.head?.any mine
  let d := d.setCal (fun c => { c with
    job := c.job.filter (fun x => !(mine x))
    suspended := c.suspended.filter (fun x => !(mine x))
    archive := c.archive.filter (fun x => !(mine x))
    archiveSince := if writing then d.clk else c.archiveSince
    gens := if writing then c.gens.erase ((c.pos + 1) % 3) else c.gens
    val := (c.last.cells.filter (fun p => own p.1)).foldl (fun m p => m.put p.1 p.2) (c.val.keep (fun p => !(own p.1)))
    stale := (c.lastStale.cells.filter (fun p => own p.1)).foldl (fun m p => m.put p.1 ()) (c.stale.keep (fun p => !(own p.1))) })
  if d.cal.job.isNone then d.flag F.CAL_STATUS_ENGINE_BUSY false else d
/-- Show the items in force of input n again. -/
def Dev.calRestore (d : Dev) (n : Nat) : Dev :=
  (d.showStale n).wr F.CNV_ATTEN_ACT_ACTUAL (unsigned 16 (d.calVal (itemAtten n (d.rd F.CNV_ATTEN_ACT_SETTING n)))) n
/-- A halt abandons the calibrations of input n (R88, R111), queued, measuring or waiting for their archive write. -/
def Dev.calAbandon (d : Dev) (n : Nat) : Dev :=
  let mine (j : CalJob) := j.input == n && j.cause != 0
  match (d.cal.job.toList ++ d.cal.suspended ++ d.cal.archive).find? mine, d.cal.queue.contains n with
  | none, false => d
  | found, queued =>
    let j := found.getD (calJob n 1 (d.is F.CNV_STATUS_PAIRED n) d.clk)
    let d := d.calWithdraw mine (fun k => j.convs.any (fun m => itemOf m k))
    let d := d.setCal (fun c => { c with queue := c.queue.erase n, accepts := if queued then c.accepts.erase n else c.accepts })
    (j.convs.foldl (fun d m => d.calRestore m) d).calInEnd n j true
/-- A halt abandons the power-up calibration (R88, R111): it ended for every input (R115). -/
def Dev.powerUpAbandon (d : Dev) : Dev :=
  match (d.cal.job.toList ++ d.cal.archive).find? (fun j => j.cause == 0) with
  | none => d
  | some j =>
    let d := d.calWithdraw (fun j => j.cause == 0) (fun _ => true)
    let d := (d.flag F.CAL_STATUS_REF_STALE false).wr F.CAL_STATUS_PLL_STALE 0
    ((List.range 8).foldl (fun d n => (d.calRestore n).calInEnd n j true) d).raise 6 24

/-- The die temperature near input n is read (R112). -/
def Dev.tempDrift (d : Dev) (n : Nat) (t : Int) : Dev :=
  let lim := d.rd F.CAL_IN_TEMP_LIM_LIM n * 4
  if lim != 0 && decide (lim < (t - d.rdInt F.CAL_IN_TEMP_TEMP n).natAbs) && !(d.input n).tempRaised then
    (d.setInput n (fun i => { i with tempRaised := true })).raise 6 28
  else d

/-! ## Meanings -/

/-- Write CAL for input n to `CAL_CMD` (R108). -/
def execCalRequest (n : Fin 8) (s : State) := host 0xC8000 (fun d => d.calRequest n) s
/-- Write ACCEPT for input n to `CAL_CMD` (R105). -/
def execAccept (n : Fin 8) (s : State) := host 0xC8000 (fun d => d.calAccept n) s
/-- The measurement engine takes the next queued calibration (R108). -/
def execCalMeasureStart (s : State) := lift Dev.measureStart s
/-- The switch-and-settle ends (R99). -/
def execCalSettleEnd (s : State) := lift Dev.settleEnd s
/-- The stage in hand ends with these measured values (R99). -/
def execCalStageEnd (res : List Int) (s : State) := lift (fun d => d.stageEnd res) s
/-- The archive write in hand completes or fails (R106). -/
def execArchiveWriteEnd (ok : Bool) (temps : List Int) (s : State) := lift (fun d => d.archiveEnd ok temps) s
/-- The calibration switch of input n returns at the end of its slot (R109). -/
def execSlotReturn (n : Fin 8) (s : State) := lift (fun d => d.slotReturn n) s
/-- The die temperature near input n reads `t` sixteenths of a degree (R112). -/
def execTempDriftDetect (n : Fin 8) (t : Int) (s : State) := lift (fun d => d.tempDrift n t) s

end Sys2Proof.Machine
end

