-- ==== Sys2Proof/Machine/Clocks.lean ====
section
/-! DEFINITION. The crystal, the loops and the LO outputs (R116–R140, spec/05_clocks.md). EBUF_SLIP_STOP, which ends runs, stands in `Stops`. -/
namespace Sys2Proof.Machine

/-! ## The crystal -/

/-- Temperature term (R117): linear between the points of `XTL_TC` that bracket the temperature, the nearest point's value outside; the
quotient rounds down (DEDUCED, log entry 4). -/
def Dev.tempTerm (d : Dev) (t : Int) : Int :=
  let pt (k : Nat) : Int × Int := (d.rdInt F.XTL_TC_TEMP_TEMP k, d.rdInt F.XTL_TC_CORR_CORR k)
  if t ≤ (pt 0).1 then (pt 0).2
  else match (List.range 15).find? (fun k => decide (t < (pt (k + 1)).1)) with
    | some k =>
      let (a, u) := pt k
      let (b, v) := pt (k + 1)
      if b = a then v else u + (v - u) * (t - a) / (b - a)
    | none => (pt 15).2

/-- Form the total correction and clamp it (R116). -/
def Dev.applyXtl (d : Dev) : Dev :=
  let t := d.clocks.tempTerm + d.rdInt F.XTL_AGE_AGE + d.rdInt F.XTL_TUNE_TUNE
  let c := clampInt (-50000000) 50000000 t
  (d.wr F.XTL_CORR_CORR (unsigned 32 c)).flag F.XTL_STATUS_CLAMP (decide (c ≠ t))

/-! ## Loop states (R127): 0 OFF, 1 SEARCH, 2 ACQUIRE, 3 LOCKED, 4 HOLDOVER, 5 BYPASS, 6 FAULT -/

/-- State of loop p. -/
def Dev.loop (d : Dev) (p : Nat) : Nat := d.rd F.CLK_PLL_STATUS_STATE p
/-- The holdover condition of input n's records (R130). -/
def Dev.holdover (d : Dev) (n : Nat) : Bool :=
  d.loop n == 4 || d.loop 12 == 4 || d.loop 13 == 4 || (d.rd F.XTL_CTRL_MODE == 1 && d.loop 28 == 4)
/-- Show the holdover condition of every input. -/
def Dev.showHoldover (d : Dev) : Dev := (List.range 8).foldl (fun d n => d.flagging n (fun d => d.flag F.CNV_STATUS_HOLDOVER (d.holdover n) n)) d
/-- Output mute of LO i (R133); halt mutes it while it is in force (R468). -/
def Dev.showMuted (d : Dev) (i : Nat) : Dev :=
  let st := d.loop (8 + i)
  let seg := match d.clocks.lo.get? i with | some l => l.mute && decide (d.rd F.CLK_LO_STATUS_PSTATE i = 1 ∨ d.rd F.CLK_LO_STATUS_PSTATE i = 3) | none => false
  d.flag F.CLK_LO_STATUS_MUTED (d.rd F.PWR_STATUS_REEF == 3 || !(d.is F.CLK_LO_CTRL_OUT_EN i) || st == 0 || st == 1 || st == 6 ||
    (st == 2 && (d.clocks.searched.get? (8 + i)).isSome) || seg) i

/-- Put loop p in a state: the sums, HOLDTIME and what depends on the loop follow. -/
def Dev.setLoop (d : Dev) (p st : Nat) : Dev :=
  let old := d.loop p
  let now := d.clk
  let d := if old = 4 ∨ old = 5 then d.inc F.CLK_PLL_HOLDTIME_US p 0 (((now : Int) - d.clocks.since.getD p 0).toNat / 1000) else d
  let d := d.wr F.CLK_PLL_STATUS_STATE st p
  let keep := old = 1 ∧ st = 2
  let d := { d with clocks := { d.clocks with
    since := if keep then d.clocks.since else d.clocks.since.put p now,
    runs := d.clocks.runs.put p ⟨0, 0, 0, now⟩,
    searched := if keep then d.clocks.searched.put p () else d.clocks.searched.erase p } }
  let d := d.wr F.CLK_LOCK_SUM_LOCKED ((List.range 29).foldl (fun w q => if d.loop q = 3 then w + 2 ^ q else w) 0)
  let hold := (List.range 29).foldl (fun w q => if d.loop q = 4 ∨ d.loop q = 5 then w + 2 ^ q else w) 0
  let d := d.wr F.CLK_HOLD_SUM_HOLD hold
  let d := (d.flag F.CLK_STATUS_HOLD_ANY ((List.range 29).any (fun q => d.loop q == 4))).flag F.CLK_STATUS_BYPASS_ANY (d.loop 26 == 5 || d.loop 27 == 5)
  let d := if p = 27 then d.flag F.TIM_STATUS_BYPASS (st == 5) else d
  let d := d.showHoldover
  if 8 ≤ p ∧ p < 12 then d.showMuted (p - 8) else d

/-- A LOCKED loop leaves LOCKED by command (R140). -/
def Dev.leftLocked (d : Dev) (p old : Nat) : Dev := if old = 3 then d.raise 1 p else d
/-- REF OUT is on (R121): enabled, and 12 V is up and past the regulators' start. -/
def Dev.refOutOn (d : Dev) : Bool := d.is F.XTL_CTRL_REFOUT_EN && d.rd F.SYS_STATUS_PSTATE != 0 && decide (2 ≤ d.power.step)
/-- Drive REF OUT as R121 has it now. -/
def Dev.showRefOut (d : Dev) : Dev :=
  if d.refOutOn = d.clocks.refOut then d else { d with clocks := { d.clocks with refOut := d.refOutOn } }.send (.refOut d.refOutOn)

/-- Loop 28 follows the mode and REF IN (R127, R140). -/
def Dev.loop28 (d : Dev) : Dev :=
  if d.rd F.XTL_CTRL_MODE != 1 then (if d.loop 28 = 0 then d else (d.setLoop 28 0).leftLocked 28 (d.loop 28))
  else if d.loop 28 = 0 && d.is F.XTL_STATUS_REF_OK then d.setLoop 28 2 else d

/-- A write of `XTL_CTRL` (R119, R120, R121). -/
def Dev.xtlCtrl (d : Dev) (v : Word) : Dev := ((d.plainWrite 0x50C00 v).loop28).showHoldover.applyXtl.showRefOut
/-- A write of `XTL_TUNE`: ignored in mode REF (R119). -/
def Dev.xtlTune (d : Dev) (v : Word) : Dev := if d.rd F.XTL_CTRL_MODE = 1 then d else (d.wr F.XTL_TUNE_TUNE v.toNat).applyXtl
/-- A write of `XTL_AGE` or `XTL_AGE_RATE` (R118). -/
def Dev.xtlAge (d : Dev) (rate : Bool) (v : Word) : Dev :=
  if rate then d.wr F.XTL_AGE_RATE_RATE v.toNat else (d.wr F.XTL_AGE_AGE v.toNat).applyXtl
/-- The 1 ms update (R117). While loop 28 steers, its value is one the spec does not compute: a free number; without a qualified REF IN it is
frozen (R120). -/
def Dev.xtlTick (d : Dev) (t : Int) : Dev :=
  let d := d.wr F.XTL_TEMP_TEMP (unsigned 16 t)
  let d := { d with clocks := { d.clocks with tempTerm := d.tempTerm t } }
  let d := if d.rd F.XTL_CTRL_MODE = 1 ∧ d.is F.XTL_STATUS_REF_OK = true ∧ (d.loop 28 = 2 ∨ d.loop 28 = 3) then (d.wr F.XTL_TUNE_TUNE d.fresh).usedFree else d
  d.applyXtl
/-- The 86.4 s ageing update (R118): a thousandth of a day of `XTL_AGE_RATE`, through a fraction of 1e-18. -/
def Dev.xtlAged (d : Dev) : Dev :=
  let acc := d.clocks.ageAcc + d.rdInt F.XTL_AGE_RATE_RATE
  let d := { d with clocks := { d.clocks with ageAcc := acc % 1000000 } }
  (d.wr F.XTL_AGE_AGE (unsigned 32 (d.rdInt F.XTL_AGE_AGE + acc / 1000000))).applyXtl
/-- The daily store (R118), at the head of the store's ageing region (log entry 5). -/
def Dev.xtlStore (d : Dev) : Dev :=
  { d with nvs := d.nvs.storeBytes 0x50000 (leBytes 4 (d.rd F.XTL_AGE_AGE) ++ leBytes 4 (d.rd F.XTL_AGE_RATE_RATE)) }

/-- A 1 ms gate finds REF IN at 10 or 100 MHz within ±50 ppm (R120). -/
def Dev.refQualified (d : Dev) (hundred : Bool) : Dev :=
  let want := d.rd F.XTL_CTRL_REF_FREQ
  if (want = 1 && hundred) || (want = 2 && !hundred) then d
  else
    let d := (d.flag F.XTL_STATUS_REF_OK true).wr F.XTL_STATUS_REF_DET (if hundred then 2 else 1)
    { d with power := { d.power with refPresent := true } }.loop28
/-- REF IN is disqualified (R120): a locked loop 28 coasts, and its value stays. -/
def Dev.refDisqualified (d : Dev) : Dev :=
  let d := (d.flag F.XTL_STATUS_REF_OK false).wr F.XTL_STATUS_REF_DET 0
  let d := { d with power := { d.power with refPresent := false } }
  if d.loop 28 = 3 then ((d.setLoop 28 4).inc F.CLK_PLL_UNLOCKS_COUNT 28).raise 1 28 else d

/-! ## LO profiles -/

/-- A segment of a profile (R135). -/
structure Segment where
  freq : Nat
  slope : Int
  duration : Nat
  kind : Nat
  wait : Bool
  mute : Bool
  event : Bool
  cont : Bool
  halyard : Nat
  reserved : Bool
deriving DecidableEq, Repr

/-- Segment s of LO i's profile. -/
def Dev.segment (d : Dev) (i s : Nat) : Segment :=
  let w (k : Nat) := d.rd F.CLK_LO_PROFILE_WORD i (8 * s + k)
  { freq := w 0 + w 1 * 2 ^ 32, slope := signed 64 (w 2 + w 3 * 2 ^ 32), duration := w 4 + w 5 * 2 ^ 32, kind := w 6 % 256,
    wait := (w 6 / 256).testBit 0, mute := (w 6 / 256).testBit 1, event := (w 6 / 256).testBit 2, cont := (w 6 / 256).testBit 3,
    halyard := w 6 / 65536 % 256, reserved := decide (w 6 / 2 ^ 24 ≠ 0 ∨ w 7 ≠ 0) }

/-- LO i's profile state. -/
def Dev.lo (d : Dev) (i : Nat) : Lo := d.clocks.lo.getD i ⟨0, false, 0, 0, 0, false, false, false, false, false, false⟩
/-- Change it. -/
def Dev.setLo (d : Dev) (i : Nat) (f : Lo → Lo) : Dev := { d with clocks := { d.clocks with lo := d.clocks.lo.put i (f (d.lo i)) } }
/-- 0 IDLE, 1 RUNNING, 2 WAITING, 3 HELD, 4 ENDED. -/
def Dev.loState (d : Dev) (i : Nat) : Nat := d.rd F.CLK_LO_STATUS_PSTATE i
/-- Clocks of the segment's count that have passed `k` clocks from now. -/
def Dev.loElapsed (d : Dev) (i : Nat) (k : Nat := 0) : Nat := if (d.lo i).counting then min (d.lo i).left (d.clk + k - (d.lo i).since) else 0
/-- The frequency word `k` clocks from now (R134, R136). -/
def Dev.loFreq (d : Dev) (i : Nat) (k : Nat := 0) : Nat := unsigned 56 ((d.lo i).base + (d.lo i).slope * d.loElapsed i k)

/-- Whether a word lies in 0.5–16 GHz (R134). -/
def loWordOk (f : Int) : Bool := decide (5 * 2 ^ 48 ≤ f ∧ f ≤ 160 * 2 ^ 48)
/-- The smallest divider (log2) whose VCO lies in 8–16 GHz (R133). -/
def loDiv (f : Nat) : Nat := (([0, 1, 2, 3, 4] : List Nat).find? (fun k => decide (80 * 2 ^ 48 ≤ f * 2 ^ k))).getD 4
/-- Whether a word at a divider lies within ±3 % of a band centre in MHz. -/
def inBand (f div mhz : Nat) : Bool := decide ((((f * 2 ^ div * 100 : Nat) : Int) - (mhz * 2 ^ 48 : Nat)).natAbs * 100 ≤ 3 * mhz * 2 ^ 48)
/-- The measured centre of a band of loop table q (0–7 sample clocks, 8–11 LO), MHz. -/
def Dev.bandMhz (d : Dev) (q b : Nat) : Nat := (d.calVal (itemBand q b)).toNat
/-- The band whose measured centre lies closest to a word at a divider. -/
def Dev.nearBand (d : Dev) (i f div : Nat) : Nat :=
  let err (b : Nat) := (((f * 2 ^ div * 100 : Nat) : Int) - (d.bandMhz (8 + i) b * 2 ^ 48 : Nat)).natAbs
  (List.range 64).foldl (fun b c => if err c < err b then c else b) 0
/-- Whether a start at word f needs a search (R136): outside the band in use or another divider. -/
def Dev.needsSearch (d : Dev) (i f : Nat) : Bool :=
  loDiv f != d.rd F.CLK_PLL_STATUS_DIV (8 + i) || !(inBand f (loDiv f) (d.bandMhz (8 + i) (d.rd F.CLK_PLL_STATUS_BAND (8 + i))))

/-- START's checks from segment s (R134–R137): 0, RANGE 3, BAND 2, HALYARD 6. `f` is where a CONT ramp starts. `fuel` 256 reaches the
window's end: no END there is RANGE. -/
def Dev.loCheck (d : Dev) (i : Nat) : Nat → Nat → Nat → Nat
  | 0, _, _ => 3
  | fuel + 1, s, f =>
    let g := d.segment i s
    if 256 ≤ s || g.reserved || decide (64 ≤ g.halyard) then 3
    else if g.event && d.takenByOther g.halyard 6 i then 6
    else if g.kind = 0xFF then 0
    else if 1 < g.kind || decide (g.duration = 0) || decide (2 ^ 40 < g.duration) then 3
    else if g.kind = 0 then (if loWordOk g.freq then d.loCheck i fuel (s + 1) g.freq else 3)
    else
      let a := if g.cont then f else g.freq
      let b : Int := a + g.slope * g.duration
      if !(loWordOk a) || !(loWordOk b) || decide (28147497671 < g.slope.natAbs) then 3
      else if !(inBand b.toNat (loDiv a) (d.bandMhz (8 + i) (d.nearBand i a (loDiv a)))) then 2
      else d.loCheck i fuel (s + 1) b.toNat

/-- The halyards of the EVENT segments from s to END. -/
def Dev.loHalyards (d : Dev) (i : Nat) : Nat → Nat → List Nat
  | 0, _ => []
  | fuel + 1, s =>
    let g := d.segment i s
    (if g.event then [g.halyard] else []) ++ (if g.kind = 0xFF ∨ 255 ≤ s then [] else d.loHalyards i fuel (s + 1))

/-- The segment in hand begins to act on the output (R136): EVENT, and the count — a STEP's dwell from lock. -/
def Dev.loActs (d : Dev) (i : Nat) : Dev :=
  let g := d.segment i (d.rd F.CLK_LO_STATUS_SEG i)
  let locked := d.loop (8 + i) == 3
  let d := d.setLo i (fun l => { l with started := true, counting := g.kind == 1 || locked, since := d.clk, lockWait := g.kind == 0 && !locked })
  if g.event then (d.raise 1 30).driveHalyard g.halyard 0 none else d

/-- Begin segment s: its frequency is commanded; it searches or acts at once (R136, R126, R127). Only a LOCKED loop starts a search: in ACQUIRE and
HOLDOVER the search waits for lock, and a loop that is to search anyway takes the new word as its target. -/
def Dev.loBegin (d : Dev) (i s : Nat) : Dev :=
  let g := d.segment i s
  let f := if g.kind = 1 && g.cont then d.loFreq i else g.freq % 2 ^ 56
  let same := f == d.loFreq i
  let d := (d.wr F.CLK_LO_STATUS_SEG s i).wr F.CLK_LO_STATUS_PSTATE 1 i
  let search := d.needsSearch i f
  let st := d.loop (8 + i)
  let owed := search && (st == 2 || st == 4)
  let d := d.setLo i (fun _ => ⟨f, false, d.clk, g.duration, if g.kind = 1 then g.slope else 0, false, g.mute, false, false, false, owed⟩)
  if search && st == 3 then (d.wr F.CLK_PLL_STATUS_DIV (loDiv f) (8 + i)).setLoop (8 + i) 1
  else if owed then d.showMuted i
  else
    let d := if st = 3 && !same then d.setLoop (8 + i) 2 else d
    if st = 2 ∨ st = 3 ∨ st = 4 then (d.loActs i).showMuted i else d.showMuted i

/-- The profile reaches IDLE or ENDED: its halyards are released (R43). -/
def Dev.loRelease (d : Dev) (i st : Nat) : Dev :=
  let f := d.loFreq i
  let d := (d.wr F.CLK_LO_STATUS_PSTATE st i).setLo i (fun _ => ⟨f, false, 0, 0, 0, false, false, false, false, false, false⟩)
  (d.releaseDriver 6 i 64).showMuted i

/-- Segment s starts: END, which may drive its halyard, ends the profile (R135, R136). -/
def Dev.loEnter (d : Dev) (i s : Nat) : Dev :=
  let g := d.segment i s
  if g.kind = 0xFF then
    let d := d.wr F.CLK_LO_STATUS_SEG s i
    ((if g.event then d.driveHalyard g.halyard 0 none else d).loRelease i 4).raise 1 30
  else d.loBegin i s
/-- Run segment s: a WAIT without a latched STEP, or its start. -/
def Dev.loRun (d : Dev) (i s : Nat) : Dev :=
  let f := d.loFreq i
  let d := d.setLo i (fun l => { l with base := f, counting := false, slope := 0, left := 0, mute := false })
  if !(d.segment i s).wait then d.loEnter i s
  else if d.is F.CLK_LO_STATUS_STEP_LATCHED i then (d.flag F.CLK_LO_STATUS_STEP_LATCHED false i).loEnter i s
  else ((d.wr F.CLK_LO_STATUS_SEG s i).wr F.CLK_LO_STATUS_PSTATE 2 i).showMuted i

/-- A command's code. -/
def Dev.clkCode (d : Dev) (c : Nat) : Dev := d.wr F.CLK_STATUS_CODE c

/-- START s (R137), `k` clocks from now. -/
def Dev.loStart (d : Dev) (i s : Nat) (k : Nat := 0) : Dev :=
  if d.loState i = 2 then d.clkCode 5
  else
    let f := d.loFreq i k
    let c := d.loCheck i 257 s f
    if c ≠ 0 then d.clkCode c
    else
      let d := (d.clkCode 0).releaseDriver 6 i 64
      let d := (d.loHalyards i 256 s).foldl (fun d h => d.recordDriver h 6 i) d
      let d := d.setLo i (fun l => { l with base := f, counting := false, slope := 0 })
      d.loRun i s
/-- STEP (R137). -/
def Dev.loStep (d : Dev) (i : Nat) : Dev :=
  let d := d.clkCode 0
  if d.loState i = 2 then d.loEnter i (d.rd F.CLK_LO_STATUS_SEG i)
  else if d.is F.CLK_LO_STATUS_STEP_LATCHED i then d.inc F.CLK_LO_STEPDROP_COUNT i
  else d.flag F.CLK_LO_STATUS_STEP_LATCHED true i
/-- Stop the count where it stands `k` clocks from now. -/
def Dev.loPause (d : Dev) (i : Nat) (k : Nat := 0) : Dev :=
  let f := d.loFreq i k
  let e := d.loElapsed i k
  d.setLo i (fun l => { l with base := f, left := l.left - e, counting := false })
/-- A search of LO i runs, or the ACQUIRE that follows it. -/
def Dev.loSearches (d : Dev) (i : Nat) : Bool := d.loop (8 + i) == 1 || (d.loop (8 + i) == 2 && (d.clocks.searched.get? (8 + i)).isSome)
/-- HOLD (R137), `k` clocks from now: during a search, a RELOCK's too, it takes effect at lock. -/
def Dev.loHold (d : Dev) (i : Nat) (k : Nat := 0) : Dev :=
  let st := d.loState i
  if st = 2 then (((d.clkCode 0).wr F.CLK_LO_STATUS_PSTATE 3 i).setLo i (fun l => { l with waitHeld := true })).showMuted i
  else if st = 1 then
    if (d.lo i).started && !((d.lo i).lockWait && d.loSearches i) then (((d.clkCode 0).loPause i k).wr F.CLK_LO_STATUS_PSTATE 3 i).showMuted i
    else (d.clkCode 0).setLo i (fun l => { l with holdLock := true })
  else d.clkCode 5
/-- RESUME (R137). -/
def Dev.loResume (d : Dev) (i : Nat) : Dev :=
  if d.loState i != 3 then d.clkCode 5
  else
    let d := d.clkCode 0
    if (d.lo i).waitHeld then
      let d := d.setLo i (fun l => { l with waitHeld := false })
      if d.is F.CLK_LO_STATUS_STEP_LATCHED i then (d.flag F.CLK_LO_STATUS_STEP_LATCHED false i).loEnter i (d.rd F.CLK_LO_STATUS_SEG i)
      else d.wr F.CLK_LO_STATUS_PSTATE 2 i
    else
      let wait := (d.lo i).lockWait
      ((d.wr F.CLK_LO_STATUS_PSTATE 1 i).setLo i (fun l => { l with counting := !wait, since := d.clk, lockWait := wait })).showMuted i
/-- STOP (R137), `k` clocks from now. -/
def Dev.loStop (d : Dev) (i : Nat) (k : Nat := 0) : Dev := (d.loPause i k).clkCode 0 |>.loRelease i 0

/-- An LO command (R137): 1 START, 2 STEP, 3 HOLD, 4 RESUME, 5 STOP; with `k = 1` it applies on the next clock. -/
def Dev.loDo (d : Dev) (i k : Nat) (c : Nat × Nat) : Dev :=
  let e := match c.1 with
    | 1 => d.loStart i c.2 k
    | 2 => d.loStep i
    | 3 => d.loHold i k
    | 4 => d.loResume i
    | 5 => d.loStop i k
    | _ => d
  if k = 0 ∨ e.lo i = d.lo i then e
  else
    let e := if (e.lo i).counting && (e.lo i).since == e.clk then e.setLo i (fun l => { l with since := e.clk + k }) else e
    if e.loop (8 + i) = 1 ∧ d.loop (8 + i) ≠ 1 then { e with clocks := { e.clocks with since := e.clocks.since.put (8 + i) (e.clk + k) } } else e

/-- Registers that an LO command may write. -/
def loWords (i : Nat) : List Nat :=
  [F.CLK_STATUS_CODE.at_ 0 0, F.CLK_LOCK_SUM_LOCKED.at_ 0 0, F.CLK_HOLD_SUM_HOLD.at_ 0 0, F.CLK_PLL_STATUS_STATE.at_ (8 + i) 0, F.CLK_PLL_HOLDTIME_US.at_ (8 + i) 0,
   F.CLK_LO_STATUS_PSTATE.at_ i 0, F.CLK_LO_STEPDROP_COUNT.at_ i 0]
/-- LO i as it stands before a host command. -/
def Dev.loTurn (d : Dev) (i : Nat) (c : Nat × Nat) : LoTurn :=
  ⟨d.clk, [c], (loWords i).map (fun o => (o, d.reg o)), d.clocks.lo.get? i, d.clocks.since.get? (8 + i), (d.clocks.searched.get? (8 + i)).isSome,
   d.clocks.runs.get? (8 + i), (List.range 64).filter (fun h => d.hasDriver h 6 i)⟩
/-- Note a host command of LO i, and what the LO was before the first one of the clock. -/
def Dev.loNote (d : Dev) (i : Nat) (c : Nat × Nat) : Dev :=
  let t := match d.clocks.turns.get? i with
    | some t => if t.clk = d.clk then { t with cmds := t.cmds ++ [c] } else d.loTurn i c
    | none => d.loTurn i c
  { d with clocks := { d.clocks with turns := d.clocks.turns.put i t } }
/-- Take back the host's commands of the present clock. -/
def Dev.loUndo (d : Dev) (i : Nat) (t : LoTurn) : Dev :=
  let back {α : Type} (m : Tab α) (k : Nat) : Option α → Tab α
    | some v => m.put k v
    | none => m.erase k
  let d := t.regs.foldl (fun d p => d.setReg p.1 p.2) (d.releaseDriver 6 i 64)
  let d := t.halyards.foldl (fun d h => d.recordDriver h 6 i) d
  { d with clocks := { d.clocks with
      lo := back d.clocks.lo i t.lo, since := back d.clocks.since (8 + i) t.since, runs := back d.clocks.runs (8 + i) t.run,
      searched := if t.searched then d.clocks.searched.put (8 + i) () else d.clocks.searched.erase (8 + i), turns := d.clocks.turns.erase i } }
/-- A host command of LO i (R137): one clock behind a cue commit of the same clock. -/
def Dev.loHost (d : Dev) (i cmd seg : Nat) : Dev := (d.loNote i (cmd, seg)).loDo i (if d.cueCame (16 + i) then 1 else 0) (cmd, seg)
/-- A cue commit of LO i (R137): host commands of the same clock follow on the next. Says whether the cue's command had its effect. -/
def Dev.loCue (d : Dev) (i cmd seg : Nat) : Dev × Bool :=
  let t := (d.clocks.turns.get? i).filter (fun t => t.clk == d.clk)
  let d := match t with | some t => d.loUndo i t | none => d
  let d := (d.loDo i 0 (cmd, seg)).noteTurn (16 + i) none
  (((t.map (·.cmds)).getD []).foldl (fun d c => d.loDo i 1 c) d, d.rd F.CLK_STATUS_CODE == 0)

/-- A STEP dwell or RAMP duration runs out (R136). -/
def Dev.segmentEnd (d : Dev) (i : Nat) : Dev :=
  if d.loState i = 1 ∧ (d.lo i).counting then
    let d := d.advanceTo ((d.lo i).since + (d.lo i).left)
    d.loRun i (d.rd F.CLK_LO_STATUS_SEG i + 1)
  else d

/-- A write to a profile window (R138). -/
def Dev.profileWrite (d : Dev) (i k : Nat) (v : Word) : Dev :=
  if d.loState i = 1 ∨ d.loState i = 2 ∨ d.loState i = 3 then d.inc F.CLK_LO_WDROP_COUNT i else d.wr F.CLK_LO_PROFILE_WORD v.toNat i k

/-! ## Loop events -/

/-- Whether p is an LO loop. -/
def isLo (p : Nat) : Bool := decide (8 ≤ p ∧ p < 12)
/-- The target VCO frequency of a loop in kHz (R122); of an LO its word at its divider, rounded down. -/
def Dev.loopTarget (d : Dev) (p : Nat) : Nat :=
  if isLo p then d.loFreq (p - 8) * 2 ^ loDiv (d.loFreq (p - 8)) * 100000 / 2 ^ 48
  else if p < 8 then 16000000 else if p < 14 then 1000000 else if p < 18 then 4266500 else if p < 23 then 16000000
  else if p = 23 then 26562500 else if p = 24 then 14000000 else if p = 25 then 4050000 else if p = 26 then 500000 else 1000000

/-- A search of loop p ends (R124, R127) with these measured band frequencies in kHz. -/
def Dev.searchEnd (d : Dev) (p : Nat) (freqs : List Nat) : Dev :=
  if d.loop p != 1 then d
  else
    let d := (d.advanceTo (d.clocks.since.getD p 0 + 40000).toNat).flag F.CLK_PLL_CTRL_RELOCK false p
    let t := d.loopTarget p
    let err (b : Nat) := ((freqs.getD b 0 : Int) - t).natAbs
    let b := (List.range 64).foldl (fun b c => if err c < err b then c else b) 0
    if err b * 100 ≤ 3 * t then
      let d := d.wr F.CLK_PLL_STATUS_BAND b p
      let d := if isLo p then d.wr F.CLK_PLL_STATUS_DIV (loDiv (d.loFreq (p - 8))) p else d
      d.setLoop p 2
    else (d.setLoop p 6).raise 1 p

/-- Alignment (R132, R292): sample index 0 of every input and composing clock 0; times kept in clocks are rebased. -/
def Dev.alignClocks (d : Dev) : Dev :=
  let c := d.clk
  let d := (List.range 4).foldl (fun d i => if (d.lo i).counting then (d.loPause i).setLo i (fun l => { l with counting := true, since := 0 }) else d) d
  let d := { d with
    clk := 0,
    halyards := d.halyards.map (fun (e : HalEvent) => { e with clk := e.clk - c }),
    axes := d.axes.map (fun (x : Axis) => { x with queue := x.queue.map (fun (e : EncEdge) => { e with clk := e.clk - c }) }),
    power := { d.power with reefSince := d.power.reefSince - c, paceClk := d.power.paceClk - c },
    time := { d.time with ticks := 0, bends := [], tdc := d.time.tdc.map (fun (x : Tdc) => { x with batch := x.batch.map (fun e => e - c) }) },
    inputs := d.inputs.map (fun (x : Input) => { x with idx := 0 }),
    irq := { d.irq with holdEnd := d.irq.holdEnd.map (fun e => e - c) },
    cues := { d.cues with turns := [] },
    hka := { d.hka with entry := d.hka.entry.map (fun (e : Nat × Word × Word × Nat) => (e.1, e.2.1, e.2.2.1, e.2.2.2 - c)) },
    clocks := { d.clocks with
      since := d.clocks.since.map (fun e => e - c), runs := d.clocks.runs.map (fun (r : LoopRun) => { r with upTo := r.upTo - c }),
      turns := Tab.empty } }
  ((d.flag F.CLK_STATUS_ALIGNED true).wrWide F.TIM_ALIGN_TS d.now96 0 3).wr F.TIM_ALIGN_EPOCH_EPOCH d.epoch

/-- Loops whose lock makes the sample-clock alignment possible (R132). -/
def alignLoops : List Nat := [0, 1, 2, 3, 4, 5, 6, 7, 12, 13]

/-- What lock means to an LO profile (R124, R136, R137): the search a segment waited to make begins, or the segment acts, or its count goes on. -/
def Dev.loLocked (d : Dev) (i : Nat) : Dev :=
  let l := d.lo i
  let st := d.loState i
  if st = 3 then (d.setLo i (fun l => { l with lockWait := false })).showMuted i
  else if st ≠ 1 then d.showMuted i
  else if l.owed then
    let f := d.loFreq i
    ((d.setLo i (fun l => { l with owed := false })).wr F.CLK_PLL_STATUS_DIV (loDiv f) (8 + i)).setLoop (8 + i) 1
  else
    let d := if !l.started then d.loActs i
      else if l.lockWait then d.setLo i (fun l => { l with counting := true, since := d.clk, lockWait := false }) else d
    let d := if l.holdLock then ((d.loPause i).setLo i (fun l => { l with holdLock := false })).wr F.CLK_LO_STATUS_PSTATE 3 i else d
    d.showMuted i

/-! ## The lock rule (R125) -/

/-- One reference cycle with its phase error in ps, or with its edge missing. -/
def LoopRun.cycle (window unlock : Nat) (r : LoopRun) : Option Int → LoopRun
  | none => { r with inside := 0, outside := 0, missing := r.missing + 1 }
  | some e => { r with inside := if e.natAbs ≤ window then r.inside + 1 else 0, outside := if unlock < e.natAbs then r.outside + 1 else 0, missing := 0 }
/-- Cycles up to the first after which `stop` holds: the counts there, how many passed, whether it held. -/
def LoopRun.pass (window unlock : Nat) (stop : LoopRun → Bool) : List (Option Int) → LoopRun → LoopRun × Nat × Bool
  | [], r => (r, 0, false)
  | e :: t, r =>
    let r := r.cycle window unlock e
    if stop r then (r, 1, true) else
      let x := LoopRun.pass window unlock stop t r
      (x.1, x.2.1 + 1, x.2.2)
/-- WINDOW, CYCLES, UNLOCK and the loss CYCLES of loop p as they act. -/
def Dev.lockWindow (d : Dev) (p : Nat) : Nat := max 1 (min 64 (d.rd F.CLK_PLL_LOCK_WINDOW p))
def Dev.lockCycles (d : Dev) (p : Nat) : Nat := max 16 (d.rd F.CLK_PLL_LOCK_CYCLES p)
def Dev.lossUnlock (d : Dev) (p : Nat) : Nat := max 2 (d.rd F.CLK_PLL_LOSS_UNLOCK p)
def Dev.lossCycles (d : Dev) (p : Nat) : Nat := max 1 (d.rd F.CLK_PLL_LOSS_CYCLES p)
/-- Composing clocks of a reference cycle: 10 ns, for loop 28 the REF IN cycle. -/
def Dev.refClocks (d : Dev) (p : Nat) : Nat := if p = 28 ∧ d.rd F.XTL_STATUS_REF_DET = 1 then 100 else 10
/-- Reference cycles of loop p pass until `stop` holds: the counts, the time, the phase error shown. -/
def Dev.refCycles (d : Dev) (p : Nat) (errs : List (Option Int)) (stop : LoopRun → Bool) : Dev × Bool :=
  let r := d.clocks.runs.getD p ⟨0, 0, 0, d.clk⟩
  let x := LoopRun.pass (d.lockWindow p) (d.lossUnlock p) stop errs r
  let d := d.advanceTo (r.upTo + x.2.1 * d.refClocks p)
  let d := { d with clocks := { d.clocks with runs := d.clocks.runs.put p { x.1 with upTo := d.clk } } }
  (match (errs.take x.2.1).reverse.find? Option.isSome with
    | some (some e) => d.wr F.CLK_PLL_PHASE_ERR (unsigned 16 e) p
    | _ => d, x.2.2)

/-- Inputs whose elastic buffer is centred when loop p has slewed back (R128, R131): those of which no other loop coasts. -/
def Dev.centred (d : Dev) (p : Nat) : List Nat :=
  if p < 8 then (if d.loop 12 = 4 ∨ d.loop 13 = 4 then [] else [p])
  else if p = 12 ∨ p = 13 then (if d.loop 12 = 4 ∨ d.loop 13 = 4 then [] else (List.range 8).filter (fun n => d.loop n != 4)) else []
/-- Loop p enters LOCKED (R127); the time base switches back from the crystal at a crystal edge (R129). LOCKTIME is the time from SEARCH or
ACQUIRE (R140). -/
def Dev.enterLocked (d : Dev) (p : Nat) : Dev :=
  let st := d.loop p
  let d := if p = 27 ∧ st = 5 then d.advance ((10 - d.clk % 10) % 10) else d
  let d := if st = 2 then d.wr F.CLK_PLL_LOCKTIME_US (((d.clk : Int) - d.clocks.since.getD p 0).toNat / 1000) p else d
  let d := (d.setLoop p 3).raise 1 29
  let d := if st = 4 then (d.centred p).foldl (fun d n => d.wr F.CLK_EBUF_FILL 0 n) d else d
  let d := if isLo p then d.loLocked (p - 8) else d
  if !(d.is F.CLK_STATUS_ALIGNED) && alignLoops.all (fun q => d.loop q == 3) then d.alignClocks else d
/-- Reference cycles of a loop that is not LOCKED, with their phase errors (R125, R127): it locks when CYCLES consecutive ones lay inside WINDOW.
Loop 28 compares nothing without a qualified REF IN (R120). -/
def Dev.lockDeclared (d : Dev) (p : Nat) (errs : List (Option Int)) : Dev :=
  let st := d.loop p
  if (st = 2 ∨ st = 4 ∨ st = 5) ∧ (p = 28 → d.is F.XTL_STATUS_REF_OK = true) then
    let n := d.lockCycles p
    let r := d.refCycles p errs (fun r => decide (n ≤ r.inside))
    if r.2 then r.1.enterLocked p else r.1
  else d

/-- Reference cycles of a LOCKED loop (R125, R127): it loses lock when CYCLES consecutive ones lay beyond UNLOCK, or lacked their edge. -/
def Dev.lossOfLock (d : Dev) (p : Nat) (errs : List (Option Int)) : Dev :=
  if d.loop p = 3 then
    let n := d.lossCycles p
    let r := d.refCycles p errs (fun r => decide (n ≤ r.outside) || decide (n ≤ r.missing))
    if r.2 then ((r.1.setLoop p (if p = 26 ∨ p = 27 then 5 else 4)).inc F.CLK_PLL_UNLOCKS_COUNT p).raise 1 p else r.1
  else d

/-- A segment in progress, held ones too, counts on only when the loop has locked again (R124). -/
def Dev.loBreak (d : Dev) (i : Nat) : Dev :=
  let l := d.lo i
  let d := d.setLo i (fun l => { l with owed := false })
  if l.started && (d.loState i == 1 || d.loState i == 3) then
    (if l.counting then d.loPause i else d).setLo i (fun l => { l with lockWait := true })
  else d

/-- RELOCK (R124, R127). -/
def Dev.relock (d : Dev) (p : Nat) : Dev :=
  let st := d.loop p
  if !(isLo p) then d.clkCode 1
  else if st = 0 ∨ st = 1 then d.clkCode 5
  else
    let d := d.loBreak (p - 8)
    (((d.clkCode 0).flag F.CLK_PLL_CTRL_RELOCK true p).setLoop p 1).leftLocked p st

/-- EN = 1 on an LO loop (R127). -/
def Dev.pllEnable (d : Dev) (p : Nat) : Dev :=
  if !(isLo p) then d
  else
    let d := d.flag F.CLK_PLL_CTRL_EN true p
    if d.loop p = 0 then d.setLoop p 1 else d
/-- EN = 0 on an LO loop (R127). -/
def Dev.pllDisable (d : Dev) (p : Nat) : Dev :=
  if !(isLo p) then d
  else
    let st := d.loop p
    let d := d.loBreak (p - 8)
    (((d.flag F.CLK_PLL_CTRL_EN false p).flag F.CLK_PLL_CTRL_RELOCK false p).setLoop p 0).leftLocked p st

/-! ## Meanings -/

/-- The crystal temperature reads `t` sixteenths of a degree at the 1 ms update (R117). -/
def execXtlTempUpdate (t : Int) (s : State) := lift (fun d => d.xtlTick t) s
/-- The ageing accumulator updates (R118). -/
def execXtlAgeUpdate (s : State) := lift Dev.xtlAged s
/-- The daily store of the ageing values (R118). -/
def execXtlDailyStore (s : State) := lift Dev.xtlStore s
/-- Write `XTL_CTRL` (R119). -/
def execXtlModeWrite (v : Word) (s : State) := host 0x50C00 (fun d => d.xtlCtrl v) s
/-- Write `XTL_TUNE` (R119). -/
def execXtlTuneWrite (v : Word) (s : State) := host 0x50C08 (fun d => d.xtlTune v) s
/-- Write `XTL_AGE`, or `XTL_AGE_RATE` (R118). -/
def execXtlAgeWrite (rate : Bool) (v : Word) (s : State) := host (if rate then 0x50C10 else 0x50C0C) (fun d => d.xtlAge rate v) s
/-- A gate qualifies REF IN at 10 MHz, or 100 MHz (R120). -/
def execRefQualified (hundred : Bool) (s : State) := lift (fun d => d.refQualified hundred) s
/-- REF IN is disqualified (R120). -/
def execRefDisqualified (s : State) := lift Dev.refDisqualified s
/-- Write 1 to RELOCK of loop p (R124). -/
def execRelock (p : Fin 29) (s : State) := host (0x40100 + p.val * 0x40) (fun d => d.relock p) s
/-- Write EN = 1 to loop p (R127). -/
def execPllEnable (p : Fin 29) (s : State) := host (0x40100 + p.val * 0x40) (fun d => d.pllEnable p) s
/-- Write EN = 0 to loop p (R127). -/
def execPllDisable (p : Fin 29) (s : State) := host (0x40100 + p.val * 0x40) (fun d => d.pllDisable p) s
/-- A band search ends with these measured band frequencies (R124). -/
def execBandSearchEnd (p : Fin 28) (freqs : List Nat) (s : State) := lift (fun d => d.searchEnd p freqs) s
/-- Reference cycles of loop p, the last of which meets the lock rule (R125). -/
def execLockDeclared (o : LoopEdges) (s : State) := lift (fun d => d.lockDeclared o.p o.errs) s
/-- Reference cycles of loop p, the last of which loses lock (R125). -/
def execLossOfLock (o : LoopEdges) (s : State) := lift (fun d => d.lossOfLock o.p o.errs) s
/-- Write START to `CLK_LO_CMD` of LO i (R137). -/
def execLoStart (i : Fin 4) (seg : Fin 256) (s : State) := host (0x41004 + i.val * 0x100) (fun d => d.loHost i 1 seg) s
/-- Write STEP (R137). -/
def execLoStep (i : Fin 4) (s : State) := host (0x41004 + i.val * 0x100) (fun d => d.loHost i 2 0) s
/-- Write HOLD (R137). -/
def execLoHold (i : Fin 4) (s : State) := host (0x41004 + i.val * 0x100) (fun d => d.loHost i 3 0) s
/-- Write RESUME (R137). -/
def execLoResume (i : Fin 4) (s : State) := host (0x41004 + i.val * 0x100) (fun d => d.loHost i 4 0) s
/-- Write STOP (R137). -/
def execLoStop (i : Fin 4) (s : State) := host (0x41004 + i.val * 0x100) (fun d => d.loHost i 5 0) s
/-- A dwell or ramp of LO i runs out (R136). -/
def execSegmentEnd (i : Fin 4) (s : State) := lift (fun d => d.segmentEnd i) s
/-- Write word k of LO i's profile window (R138). -/
def execProfileWrite (i : Fin 4) (k : Fin 2048) (v : Word) (s : State) :=
  host (0x48000 + i.val * 0x2000 + k.val * 4) (fun d => d.profileWrite i k v) s

end Sys2Proof.Machine
end

