-- ==== Sys2Proof/Machine/Sorts.lean ====
section
/-! DEFINITION. What the configuration of a sort says (R50, spec/02_formes.md) and what the sort then does with its operands (R36), and gangs of
memory sorts: where their words lie, atomics, unaligned accesses, bank conflicts (R357–R360, spec/13_memory.md). -/
namespace Sys2Proof.Machine

/-! ## Configurations (R50) -/

/-- The mode word of a configuration. -/
def modeWord (c : List Byte) : Nat := u c 0 8
/-- Words of 4 bytes after the mode word, as signed numbers of `w` bits. -/
def modeData (c : List Byte) (w n : Nat) : List Int := (List.range n).map (fun k => signed w (u c (8 + 4 * k) 4))

/-- A MAC sort's configuration. -/
structure MacMode where
  mode : Nat
  shift : Nat
  width : Nat
  cascade : Bool
  phases : Nat
  coefs : List Int
deriving DecidableEq, Repr
/-- Read it. Width code 3 stands for no width of R50; it is read as 32. -/
def macMode (c : List Byte) : MacMode :=
  let m := modeWord c
  ⟨bits m 0 3, bits m 3 6, (match bits m 9 2 with | 0 => 18 | 1 => 24 | _ => 32), m.testBit 11, bits m 22 4 + 1, modeData c 18 (bits m 12 10 + 1)⟩
/-- The sum of products in an accumulator. -/
def MacMode.sum (start : Int) (cs xs : List Int) : Int := (cs.zip xs).foldl (fun a p => accumulate a (p.1 * p.2)) start
/-- Neighbouring values as complex numbers. -/
def asComplex : List Int → List Cx
  | a :: b :: t => ⟨a, b⟩ :: asComplex t
  | _ => []
/-- The accumulators of a clock from the operands `xs`, a cascade input and a commutator position (R36): 0 each product by itself, 1 the cascaded sum,
2 the sum over the coefficients of one phase, 3 symmetric operands added before the multiplier, zero taps skipped, 4 complex products with the
coefficients, 5 squared magnitudes. -/
def MacMode.accumulators (m : MacMode) (xs : List Int) (casc : Int) (phase : Nat) : List Int :=
  let start : Int := if m.cascade then casc else 0
  match m.mode with
  | 0 => ((m.coefs.zip xs).take 16).map (fun p => accumulate start (p.1 * p.2))
  | 1 => [MacMode.sum start m.coefs xs]
  | 2 => [MacMode.sum start ((m.coefs.zipIdx.filter (fun p => p.2 % m.phases == phase % m.phases)).map (·.1)) xs]
  | 3 => [MacMode.sum start m.coefs (((xs.zip xs.reverse).take ((xs.length + 1) / 2)).map (fun p => preAdd p.1 p.2))]
  | 4 => (((asComplex m.coefs).zip (asComplex xs)).take 4).flatMap (fun p => let z := p.2.mul p.1; [accumulate start z.re, accumulate start z.im])
  | _ => ((asComplex xs).take 8).map (fun z => accumulate start z.power)
/-- The outputs of a clock, and how many saturated. -/
def MacMode.outputs (m : MacMode) (xs : List Int) (casc : Int) (phase : Nat) : List Int × Nat :=
  let o := (m.accumulators xs casc phase).map (macOut m.shift m.width)
  (o.map (·.1), o.countP (·.2))

/-- A butterfly sort's configuration. -/
structure ButterflyMode where
  inFreq : Bool
  stage : Nat
  size : Nat
  twiddles : List Cx
deriving DecidableEq, Repr
/-- Read it. -/
def butterflyMode (c : List Byte) : ButterflyMode :=
  let m := modeWord c
  ⟨m.testBit 0, bits m 1 4, bits m 5 5, asComplex (modeData c 18 8192)⟩
/-- One butterfly with table entry k, the frame's largest component being `size` (R36, R37). -/
def ButterflyMode.run (m : ButterflyMode) (size k : Nat) (a b : Cx) : Cx × Cx := butterfly m.inFreq (blockShift size) a b (m.twiddles.getD k ⟨0, 0⟩)

/-- A rotator sort's configuration. -/
structure RotatorMode where
  mode : Nat
  dither : Bool
  paired : Bool
  increment : Nat
deriving DecidableEq, Repr
/-- Read it. -/
def rotatorMode (c : List Byte) : RotatorMode :=
  let m := modeWord c
  ⟨bits m 0 2, m.testBit 2, m.testBit 3, bits m 16 48⟩
/-- An NCO's outputs of a clock from the phase of its first lane: 16 consecutive phases, lanes 16–31 on the sort of a pair's second half. -/
def RotatorMode.clock (m : RotatorMode) (phase dither : Nat) : List Cx :=
  (List.range 16).map (fun k => ncoOut ((phase + (k + if m.paired then 16 else 0) * m.increment) % 2 ^ 48) (if m.dither then dither % 2 ^ 28 else 0))

/-- A memory sort's configuration. -/
structure MemoryMode where
  ports : Nat
  eccEvent : Bool
  initial : List Nat
deriving DecidableEq, Repr
/-- Read it. -/
def memoryMode (c : List Byte) : MemoryMode :=
  let m := modeWord c
  ⟨bits m 0 4 + 1, m.testBit 4, (List.range (bits m 16 16)).map (fun k => u c (8 + 8 * k) 8)⟩

/-- A compare sort's configuration. -/
structure CompareMode where
  signed_ : Bool
  stream : Bool
  counters : Nat
  upper : List Int
  lower : List Int
deriving DecidableEq, Repr
/-- Read it. -/
def compareMode (c : List Byte) : CompareMode :=
  let m := modeWord c
  let num (k : Nat) : Int := if m.testBit 0 then signed 32 (u c (8 + 4 * k) 4) else (u c (8 + 4 * k) 4 : Nat)
  ⟨m.testBit 0, m.testBit 1, bits m 2 8, (List.range 16).map num, (List.range 16).map (fun k => num (16 + k))⟩
/-- The lanes' states after a clock (R36); with thresholds from a stream `th` gives them, upper and lower by lane. -/
def CompareMode.lanes (m : CompareMode) (high : List Bool) (xs : List Int) (th : List (Int × Int)) : List Bool :=
  let t := if m.stream then th else m.upper.zip m.lower
  ((high.zip xs).zip t).map (fun p => compareLane p.1.1 p.2.1 p.2.2 p.1.2)
/-- A counter after a clock (R36, R50): mode 0 counts the set flags, mode 1 the clocks in which one is set, saturating. -/
def CompareMode.count (m : CompareMode) (k old : Nat) (lanes : List Bool) : Nat :=
  min (2 ^ 32 - 1) (old + if m.counters.testBit k then (if lanes.any id then 1 else 0) else compareCount lanes)

/-! ## Memory sorts and gangs -/

/-- A word of a memory sort among all of them: its logical column and row, and the local word. -/
def sortWord (x : SortEntry) (local_ : Nat) : Nat := (x.col * 96 + x.row) * 32768 + local_
/-- What a load places in a section's memory sorts (R50, R60); words beyond the initial content keep what they held (DESIGN CHOICE, log entry 33). -/
def Dev.sortsLoad (d : Dev) (s : SectionDesc) : Dev :=
  { d with sortMem := s.sorts.foldl (fun m x => if x.kind = 3 then
      (memoryMode x.config).initial.zipIdx.foldl (fun (m : Tab Nat) p => m.set0 0 (sortWord x p.2) p.1) m else m) d.sortMem }

/-- Banks and words of a gang (R357). -/
def Gang.banks (g : Gang) : Nat := 8 * g.members
def Gang.words (g : Gang) : Nat := 32768 * g.members
/-- The bank, the member and the local word of gang word w (R357). -/
def Gang.bank (g : Gang) (w : Nat) : Nat := w % g.banks
def Gang.member (g : Gang) (w : Nat) : Nat := g.bank w / 8
def Gang.localWord (g : Gang) (w : Nat) : Nat := w / g.banks * 8 + w % 8
/-- The gang of a sort (R356): a memory sort in no gang of the table is a gang of 1 with 8 masters. -/
def SectionDesc.gangOf (s : SectionDesc) (k : Nat) : Gang := (s.gangs.find? (fun g => g.first ≤ k ∧ k < g.first + g.members)).getD ⟨1, 16, k, 8⟩
/-- The member sorts. -/
def SectionDesc.gangSorts (s : SectionDesc) (g : Gang) : List SortEntry := (s.sorts.drop g.first).take g.members
/-- Where gang word w stands. -/
def SectionDesc.gangWord (s : SectionDesc) (g : Gang) (w : Nat) : Nat :=
  sortWord ((s.gangSorts g).getD (g.member w) ⟨0, 3, 0, []⟩) (g.localWord w)
/-- Read latency without conflicts (R357): 3 clocks for one member, else 3 + 2 + the spread of the members' columns. -/
def SectionDesc.gangLatency (s : SectionDesc) (g : Gang) : Nat :=
  let cs := (s.gangSorts g).map (·.col)
  if g.members = 1 then 3 else 5 + (cs.foldl max 0 - cs.foldl min 7)

/-- What a request does with its word (R359). -/
inductive MemOp where
  | read
  | write (v : BitVec 64)
  | addLo (v : Word)
  | addHi (v : Word)
  | saddLo (v : Word)
  | saddHi (v : Word)
  | swap (v : BitVec 64)
deriving DecidableEq, Repr
/-- Whether it is an atomic. -/
def MemOp.atomic : MemOp → Bool
  | .read => false
  | .write _ => false
  | .addLo _ => true
  | .addHi _ => true
  | .saddLo _ => true
  | .saddHi _ => true
  | .swap _ => true
/-- Unsigned 32-bit sum, saturating (R359). -/
def addSat (a b : Nat) : Nat := min (2 ^ 32 - 1) (a + b)
/-- Signed 32-bit sum, saturating (R359). -/
def saddSat (a b : Nat) : Nat := unsigned 32 (saturate 32 (signed 32 a + signed 32 b))
/-- Change one half of a word. -/
def onLow (f : Nat → Nat) (w : Nat) : Nat := w / 2 ^ 32 * 2 ^ 32 + f (w % 2 ^ 32)
def onHigh (f : Nat → Nat) (w : Nat) : Nat := f (w / 2 ^ 32) * 2 ^ 32 + w % 2 ^ 32
/-- The word after the request. -/
def MemOp.after (w : Nat) : MemOp → Nat
  | .read => w
  | .write v => v.toNat
  | .addLo v => onLow (addSat · v.toNat) w
  | .addHi v => onHigh (addSat · v.toNat) w
  | .saddLo v => onLow (saddSat · v.toNat) w
  | .saddHi v => onHigh (saddSat · v.toNat) w
  | .swap v => v.toNat

/-- A request of a master: a byte address, the operation, and what the check bytes of its word show: 0 no error, 1 a single-bit, 2 a double-bit error. -/
structure MemReq where
  master : Nat
  byte : Nat
  op : MemOp
  ecc : Nat
deriving DecidableEq, Repr
/-- Whether it is unaligned: only gangs of 128 or 256 members take any byte address (R360); others address words. -/
def MemReq.unaligned (r : MemReq) (g : Gang) : Bool := r.byte % 8 != 0 && decide (128 ≤ g.members) && !r.op.atomic
/-- The words it uses (R360): the last wraps to word 0. -/
def MemReq.wordsOf (r : MemReq) (g : Gang) : List Nat :=
  let w := r.byte / 8 % g.words
  if r.unaligned g then [w, (w + 1) % g.words] else [w]
/-- Clocks that it adds to the gang's latency. -/
def MemReq.clocks (r : MemReq) (g : Gang) : Nat := if r.unaligned g then 1 else 0

/-- The memory-error event of section i (R36, R359): which of its 16 events it is, the spec does not state (log entry 2). -/
def Dev.memoryError (d : Dev) (i : Nat) : Dev := (d.sectionEvent i (d.fresh % 16)).usedFree
/-- What the check bytes show (R36): a correction counts; a double-bit error counts and raises the event, where the sort's mode word enables it. -/
def Dev.memoryEcc (d : Dev) (i : Nat) (x : SortEntry) (ecc : Nat) : Dev :=
  if ecc = 1 then d.inc F.SPM_ECC_CE_COUNT
  else if ecc = 2 then
    let d := d.inc F.SPM_ECC_UE_COUNT
    if (memoryMode x.config).eccEvent then d.memoryError i else d
  else d
/-- A request is served (R359, R360): the word or the bytes as they stood are the answer; a word with a double-bit error answers a value that the spec
does not state and is left as it was; an atomic on a gang of 32 or more does nothing but raise the event. -/
def Dev.gangServe (d : Dev) (i : Nat) (s : SectionDesc) (g : Gang) (r : MemReq) : Dev × Nat :=
  let at_ (w : Nat) := s.gangWord g w
  let x := (s.gangSorts g).getD (g.member (r.byte / 8 % g.words)) ⟨0, 3, 0, []⟩
  match r.wordsOf g with
  | [w] =>
    let old := d.sortMem.getD (at_ w) 0
    if r.op.atomic && decide (32 ≤ g.members) then (d.memoryError i, old)
    else
      let d := d.memoryEcc i x r.ecc
      if r.ecc = 2 ∧ (r.op.atomic ∨ r.op = .read) then (d.usedFree, d.fresh % 2 ^ 64)
      else ({ d with sortMem := d.sortMem.set0 0 (at_ w) (r.op.after old) }, old)
  | w :: v :: _ =>
    let pair := d.sortMem.getD (at_ w) 0 + d.sortMem.getD (at_ v) 0 * 2 ^ 64
    let o := 8 * (r.byte % 8)
    let old := bits pair o 64
    let d := d.memoryEcc i x r.ecc
    if r.ecc = 2 ∧ r.op = .read then (d.usedFree, d.fresh % 2 ^ 64)
    else
      let new := pair - old * 2 ^ o + r.op.after old * 2 ^ o
      ({ d with sortMem := (d.sortMem.set0 0 (at_ w) (new % 2 ^ 64)).set0 0 (at_ v) (new / 2 ^ 64) }, old)
  | [] => (d, 0)
/-- The key of a conflict counter. -/
def conflictKey (i gang master : Nat) : Nat := (i * 16 + gang) * 32 + master
/-- One clock of a gang's requests, in the order of their masters (R358): `used` banks are taken; a request whose bank is taken retries on the next clock
and counts the lost clock. The answers by master, and the requests that retry. -/
def Dev.gangClock (d : Dev) (i : Nat) (s : SectionDesc) (g : Gang) : List Nat → List MemReq → Dev × List (Nat × Nat) × List MemReq
  | _, [] => (d, [], [])
  | used, r :: t =>
    let banks := (r.wordsOf g).map g.bank
    if banks.any used.contains then
      let k := conflictKey i (g.id % 16) r.master
      let d := { d with conflicts := d.conflicts.put k (min (2 ^ 32 - 1) (d.conflicts.getD k 0 + 1)) }
      let x := d.gangClock i s g used t
      (x.1, x.2.1, r :: x.2.2)
    else
      let y := d.gangServe i s g r
      let x := y.1.gangClock i s g (used ++ banks) t
      (x.1, (r.master, y.2) :: x.2.1, x.2.2)
/-- Requests until all are served, one clock after the other; `n` bounds the clocks. -/
def Dev.gangRun (d : Dev) (i : Nat) (s : SectionDesc) (g : Gang) : Nat → List MemReq → Dev × List (Nat × Nat)
  | 0, _ => (d, [])
  | _, [] => (d, [])
  | n + 1, rs =>
    let x := d.gangClock i s g [] rs
    let y := x.1.gangRun i s g n x.2.2
    (y.1, x.2.1 ++ y.2)
/-- A read of `SPM_CNT_VAL` (R358): the selected counter, and it is cleared. -/
def Dev.conflictRead (d : Dev) : Dev :=
  let k := conflictKey (d.rd F.SPM_CNT_SEL_SECTION) (d.rd F.SPM_CNT_SEL_GANG) (d.rd F.SPM_CNT_SEL_MASTER)
  { d with readData := d.conflicts.getD k 0, conflicts := d.conflicts.erase k }
/-- A section load clears its counters (R358). -/
def Dev.conflictsClear (d : Dev) (i : Nat) : Dev := { d with conflicts := d.conflicts.keep (fun p => p.1 / 512 != i) }

end Sys2Proof.Machine
end

