-- ==== Sys2Proof/Machine/Signal.lean ====
section
/-! DEFINITION. What the standard sections compute from samples: the decimation chain of CHAN (R145–R157), spectra, levels and codes of XFRM
(R171–R177), detectors of TRACE (R184–R186), raw records and time-domain pairs (R95, R246). Coefficients the spec does not state are opaque
constants (log entry 22). -/
namespace Sys2Proof.Machine

/-! ## The decimation chain -/

/-- The stage factors of a chain: D1, N, Dc, H, T, Df. -/
structure Chain where
  d1 : Nat
  n : Nat
  dc : Nat
  h : Nat
  t : Nat
  df : Nat
deriving DecidableEq, Repr

/-- The built-in sets (R148). -/
def builtIn (k : Nat) : Chain :=
  match k with
  | 0 => ⟨2, 0, 1, 1, 0, 1⟩
  | 1 => ⟨2, 0, 1, 1, 63, 2⟩
  | 2 => ⟨4, 0, 1, 1, 127, 2⟩
  | 3 => ⟨8, 0, 1, 1, 127, 2⟩
  | 4 => ⟨16, 0, 1, 1, 127, 2⟩
  | 21 => ⟨16, 4, 4096, 5, 511, 4⟩
  | 22 => ⟨16, 4, 4096, 5, 511, 8⟩
  | 23 => ⟨2, 2, 5, 0, 127, 1⟩
  | k => if k < 9 then ⟨16, 0, 1, k - 3, 255, 2⟩ else ⟨16, 4, 2 ^ (k - 8), 5, 255, 2⟩

/-- Total decimation; the boxcar's length in quick-settle mode (R154). -/
def Chain.dec (c : Chain) (qs : Bool) : Nat := if qs then c.d1 * c.dc else c.d1 * c.dc * 2 ^ c.h * c.df
/-- Span W (R150); the boxcar in quick-settle (R154). -/
def Chain.span (c : Chain) (qs : Bool) : Nat :=
  if qs then c.d1 * c.dc
  else 1 + (2 * c.d1 - 1) + c.n * (c.dc - 1) * c.d1 + 30 * c.d1 * c.dc * (2 ^ c.h - 1) + (c.t - 1) * c.d1 * c.dc * 2 ^ c.h
/-- Twice the group delay of the stages before the FIR. -/
def Chain.delay2 (c : Chain) : Nat := 2 * c.d1 - 1 + c.n * (c.dc - 1) * c.d1 + 30 * c.d1 * c.dc * (2 ^ c.h - 1)

/-- A mixed sample (R145): the code times e^(−jθ), θ the NCO's phase. -/
def mix (code : Int) (nco : Cx) : Cx := ⟨code * nco.re, -(code * nco.im)⟩
/-- One output of a filter: coefficient k weighs the k-th sample of its span (R150), in saturating accumulators. -/
def weigh (taps : List Int) (l : List Cx) : Cx :=
  (taps.zip l).foldl (fun a p => ⟨accumulate a.re (p.1 * p.2.re), accumulate a.im (p.1 * p.2.im)⟩) ⟨0, 0⟩
/-- A filter that keeps every `step`-th output. -/
def filterBy (taps : List Int) (step : Nat) (l : List Cx) : List Cx :=
  if l.length < taps.length then []
  else (List.range ((l.length - taps.length) / max 1 step + 1)).map (fun k => weigh taps (l.drop (k * step)))
/-- Sums over `n` neighbouring samples, each sample beginning one. -/
def boxSums (n : Nat) (l : List Cx) : List Cx := filterBy (List.replicate n 1) 1 l
/-- The CIC stage (R147): order `n`, factor `dc`, unity gain at powers of two after its built-in shift. -/
def cicStage (n dc : Nat) (l : List Cx) : List Cx :=
  let y := (List.range n).foldl (fun x _ => boxSums dc x) l
  (filterBy [1] dc y).map (·.each (halfEven · (Nat.clog 2 (dc ^ n))))
/-- The taps of the polyphase stage (R147): 2·D1, symmetric. -/
def polyTaps (d1 : Nat) : List Int := (List.range (2 * d1)).map (fun k => Config.polyTap d1 (min k (2 * d1 - 1 - k)))
/-- The 31 taps of a half-band (R147): 16 outside the centre, symmetric. -/
def halfTaps : List Int := (List.range 31).map (fun k => if k % 2 = 1 ∧ k ≠ 15 then 0 else Config.halfTap (min k (30 - k)))
/-- The word a stage hands to the next: 24 bits (R36). -/
def stageWord (kind d1 : Nat) (l : List Cx) : List Cx := l.map (·.each (fun v => (macOut (Config.stageShift kind d1) 24 v).1))
/-- The accumulators at the end of the chain (R147), the stages in the order of R147; the last one's output stage is that of R157. -/
def Chain.run (c : Chain) (fir : List Int) (l : List Cx) : List Cx :=
  let poly := filterBy (polyTaps c.d1) c.d1 l
  let l := if c.n = 0 ∧ c.h = 0 ∧ c.t = 0 then poly else stageWord 0 c.d1 poly
  let l := if c.n = 0 then l else cicStage c.n c.dc l
  let l := (List.range c.h).foldl (fun x k =>
    let y := filterBy halfTaps 2 x
    if k + 1 = c.h ∧ c.t = 0 then y else stageWord 1 c.d1 y) l
  filterBy (if c.t = 0 then [1] else fir) c.df l
/-- The boxcars of quick-settle mode (R154, R155): sums over `n` samples each. -/
def boxcars (n : Nat) (l : List Cx) : List Cx := filterBy (List.replicate n 1) n l
/-- The gain of a chain at 0 Hz as a fraction, its accumulators at the mixer's scale: sums of coefficients, the CIC's and the stages' shifts. -/
def Chain.dcGain (c : Chain) (fir : List Int) (qs : Bool) : Int × Nat :=
  if qs then (c.dec true, 1)
  else
    let half := halfTaps.sum
    let cut := c.h - (if c.t = 0 then 1 else 0)
    (((polyTaps c.d1).sum) * (c.dc ^ c.n : Nat) * half ^ c.h * (if c.t = 0 then 1 else fir.sum),
      2 ^ ((if c.n = 0 ∧ c.h = 0 ∧ c.t = 0 then 0 else Config.stageShift 0 c.d1) + Nat.clog 2 (c.dc ^ c.n) + cut * Config.stageShift 1 c.d1))
/-- Bits between an accumulator of gain 1 and a channel sample of unity gain (R157): a full-scale code of 11 bits and 17 of the mixer against 15
or 23. -/
def unityShift (fmt : Nat) : Nat := if fmt = 1 then 5 else 13
/-- The shift that `OUT.AUTO` chooses (R157): the least that keeps the gain at or below unity; in quick-settle the gain is then n / 2^⌈log2 n⌉
(R154). -/
def autoShift (g : Int × Nat) (fmt : Nat) : Nat := min 47 (unityShift fmt + Nat.clog 2 (ceilDiv g.1.natAbs g.2))
/-- The gain of the passband in 1/256 dB (R150, R154), taken at 0 Hz. -/
def gainDb (g : Int × Nat) (shift fmt : Nat) : Int := dbRound 5120 (g.1.natAbs * 2 ^ unityShift fmt) (g.2 * 2 ^ shift)
/-- Bits of a component of a channel sample (R157). -/
def fmtBits (fmt : Nat) : Nat := if fmt = 1 then 24 else 16
/-- A channel sample from its accumulator (R157), and the components that saturated. -/
def formatUnit (shift w : Nat) (a : Cx) : Cx × Nat :=
  let i := macOut shift w a.re
  let q := macOut shift w a.im
  (⟨i.1, q.1⟩, (if i.2 then 1 else 0) + (if q.2 then 1 else 0))
/-- Its bytes: I then Q (R157). -/
def unitLe (w : Nat) (a : Cx) : List Byte := leBytes (w / 8) (unsigned w a.re) ++ leBytes (w / 8) (unsigned w a.im)
/-- Whether |x|² is at or above a level in 1/256 dB of the complex full scale of its format (R156, R229). -/
def unitReaches (w : Nat) (x : Cx) (l : Int) : Bool := powerReaches x.power (2 ^ (2 * (w - 1))) l

/-! ## Raw samples -/

/-- The bytes of raw samples (R95): two samples in 24 bits, the earlier one low. -/
def packRaw : List (BitVec 12) → List Byte
  | a :: b :: t => leBytes 3 (a.toNat + b.toNat * 4096) ++ packRaw t
  | _ => []
/-- The samples those bytes hold. -/
def unpackRaw : Nat → List Byte → List (BitVec 12)
  | 0, _ => []
  | k + 1, l =>
    let g := leNat (l.take 3)
    BitVec.ofNat 12 g :: BitVec.ofNat 12 (g / 4096) :: unpackRaw k (l.drop 3)
/-- Smallest and largest of a list. -/
def extremes (l : List Int) : Int × Int := (l.foldl min (l.headD 0), l.foldl max (l.headD 0))
/-- The value bytes of a real point (R246). -/
def realPoint (l : List (BitVec 12)) : List Byte :=
  let e := extremes (l.map (·.toInt))
  leBytes 2 (unsigned 16 e.1) ++ leBytes 2 (unsigned 16 e.2)
/-- The value bytes of a complex point; 24-bit components are rounded half to even to their upper 16 bits (R246). -/
def complexPoint (w : Nat) (l : List Cx) : List Byte :=
  let up (v : Int) := if w = 24 then saturate 16 (halfEven v 8) else v
  let i := extremes (l.map (fun a => up a.re))
  let q := extremes (l.map (fun a => up a.im))
  leBytes 2 (unsigned 16 i.1) ++ leBytes 2 (unsigned 16 i.2) ++ leBytes 2 (unsigned 16 q.1) ++ leBytes 2 (unsigned 16 q.2)

/-! ## Spectra -/

/-- Coefficients of a window of N points (R171): 0 is the rectangle, 255 a user table. -/
def windowTaps (code n : Nat) (table : List Nat) : List Nat :=
  if code = 0 then List.replicate n 131072 else if code = 255 then table
  else (List.range n).map (fun k => min 131072 (Config.windowTap code n k))
/-- A real frame's bins with their exponent (R173): windowed to 24 bits, transformed, split, rounded. -/
def realFrame (size : Nat) (taps : List Nat) (l : List (BitVec 12)) : List Cx × Nat :=
  round18 (splitStage (2 ^ size) (fft (size - 1) (pairUp ((l.zip taps).map (fun p => halfEven (p.1.toInt * p.2) 6)))))
/-- A complex frame's bins with their exponent: components of `w` bits, left-aligned in 24. -/
def complexFrame (size w : Nat) (taps : List Nat) (l : List Cx) : List Cx × Nat :=
  round18 (centred (fft size ((l.zip taps).map (fun p => p.1.each (fun v => halfEven (v * 2 ^ (24 - w) * p.2) 17)))))
/-- A frame on output port 0 (R177): power words of the bins, and the exponent. -/
structure Spectrum where
  words : List Nat
  exp : Nat
deriving DecidableEq, Repr
/-- The power words of a frame. -/
def spectrumOf (x : List Cx × Nat) : Spectrum := ⟨x.1.map powerWord, x.2⟩
/-- The linear power of a word with the frame's exponent, in squared bin units. -/
def Spectrum.linear (s : Spectrum) (w : Nat) : Nat := w * 8 * 4 ^ s.exp
/-- The amplitude of a bin at 0 dBFS (R174), in bin units: window sum times 16 for a real input; for a complex one times 32, which has the
6.02 dB of R174 in it. -/
def fullScale (complex : Bool) (taps : List Nat) : Nat := (if complex then 32 else 16) * taps.sum
/-- The code of a linear power `num / den` against a full-scale amplitude (R173, R176): within 2/256 dB of the level, `err` choosing which;
`gain` is what is subtracted, in 1/256 dB. -/
def levelCode (num den ref : Nat) (gain : Int) (err : Nat) : Nat :=
  if num = 0 then 0
  else
    let x := dbFloor num (den * (ref * ref))
    (clampInt 0 65535 (51200 + x.1 - gain + 2 - (err % (if x.2 then 5 else 4) : Nat))).toNat

/-! ## Detectors -/

/-- First and last offset, within the selected bins, of point p (R186). -/
def pointBins (points count p : Nat) : Nat × Nat :=
  if points ≤ count then (p * count / points, (p + 1) * count / points - 1) else ((2 * p + 1) * count / (2 * points), (2 * p + 1) * count / (2 * points))
/-- The values a point gathers from a frame. -/
def gather (codes : List Nat) (skip : Nat) (b : Nat × Nat) : List Nat := (codes.drop (skip + b.1)).take (b.2 + 1 - b.1)
/-- The value of point p by a detector on codes: 0 PEAK, 1 MIN, 2 SAMPLE, 3 AVERAGE (R184). -/
def detect (det : Nat) (frames : List (List Nat)) (skip : Nat) (b : Nat × Nat) : Nat :=
  let all := frames.flatMap (fun c => gather c skip b)
  match det with
  | 0 => all.foldl max 0
  | 1 => all.foldl min 65535
  | 2 => ((frames.getLast?.getD [])[skip + (b.1 + b.2) / 2]?).getD 0
  | _ => roundEven all.sum all.length
/-- The mean of a point's values over frames, as a fraction. -/
def meanOf (l : List Nat) : Nat × Nat := (l.sum, max 1 l.length)
/-- One step of exponential averaging (R185): y + (f − y)/2^k, exactly. -/
def expStep (k : Nat) (y f : Nat × Nat) : Nat × Nat :=
  let n := y.1 * (2 ^ k - 1) * f.2 + f.1 * y.2
  let m := y.2 * f.2 * 2 ^ k
  (n / Nat.gcd n m, m / Nat.gcd n m)
/-- Exponential averaging over the frames of an interval: the first used frame of the run sets y. -/
def expRun (k : Nat) : Option (Nat × Nat) → List (Nat × Nat) → Option (Nat × Nat)
  | y, [] => y
  | none, f :: t => expRun k (some f) t
  | some y, f :: t => expRun k (some (expStep k y f)) t

end Sys2Proof.Machine
end

