-- ==== Sys2Proof/Machine/Channels.lean ====
section
/-! DEFINITION. CHAN (R141–R166, spec/06_channels.md): start and its checks, the units its chain forms, retune and input switch, playback,
thresholds, context records. -/
namespace Sys2Proof.Machine

/-! ## The chain (R147–R150, R154, R158) -/

/-- The chain the knobs name. -/
def Dev.chain (d : Dev) (i : Nat) : Chain :=
  if d.knob i 0x24 = 255 then
    { d1 := 2 ^ d.knob i 0x28, n := d.knobBits i 0x2C 0 3, dc := d.knobBits i 0x2C 16 13, h := d.knob i 0x30, t := d.knobBits i 0x34 0 10, df := d.knobBits i 0x34 16 4 }
  else builtIn (d.knob i 0x24)
/-- The coefficients of the FIR: the host's, or the built-in set's, which are symmetric (R148, R149). -/
def Dev.firTaps (d : Dev) (i : Nat) (c : Chain) : List Int :=
  (List.range c.t).map (fun k => if d.knob i 0x24 = 255 then signed 18 (d.knob i (0x1000 + 4 * k)) else Config.setTap (d.knob i 0x24) (min k (c.t - 1 - k)))
/-- Group delay as a fraction: the symmetric formula, or the coefficients' own centre for a user FIR (R148, R150). `true`: nominal. -/
def Dev.groupDelay (d : Dev) (i : Nat) (c : Chain) (qs : Bool) : Int × Nat × Bool :=
  if qs then ((c.d1 * c.dc : Nat) - 1, 2, false)
  else
    let sym : Int × Nat := ((c.delay2 + (c.t - 1) * c.d1 * c.dc * 2 ^ c.h : Nat), 2)
    if d.knob i 0x24 = 255 ∧ c.t ≠ 0 then
      let h (k : Nat) : Int := signed 18 (d.knob i (0x1000 + 4 * k))
      let sum := (List.range c.t).foldl (fun a k => a + h k) 0
      let mom := (List.range c.t).foldl (fun (a : Int) k => a + k * h k) 0
      if sum = 0 then (sym.1, sym.2, true)
      else
        let num : Int := c.delay2 * sum + 2 * (c.d1 * c.dc * 2 ^ c.h : Nat) * mom
        (if sum < 0 then -num else num, 2 * sum.natAbs, false)
    else (sym.1, sym.2, false)

/-- MAC sorts needed (R158): `lanes` over the decimation ahead is the complex rate per clock. -/
def Chain.macs (c : Chain) (lanes : Nat) (qs : Bool) : Nat :=
  let p := lanes / 16
  let hb := (List.range c.h).foldl (fun n k => n + max 1 (ceilDiv (2 * lanes) (c.d1 * c.dc * 2 ^ (k + 1)))) 0
  if qs then 2 * p + 4 * p + 2 + 1
  else 2 * p + 4 * p + (if c.n = 0 then 0 else 2) + hb + (if c.t = 0 then 0 else max 1 (ceilDiv (c.t * lanes) (8 * c.dec false))) + 1
/-- NEED: MAC, rotator, memory, compare. -/
def Chain.need (c : Chain) (lanes : Nat) (qs : Bool) : Nat × Nat × Nat × Nat :=
  (c.macs lanes qs, lanes / 16, if qs then 0 else 2, if qs then 0 else 1)
/-- Pack a NEED or PLACED word, each part limited to its bits. -/
def packNeed (x : Nat × Nat × Nat × Nat) : Nat := min 255 x.1 + min 15 x.2.1 * 256 + min 15 x.2.2.1 * 4096 + min 15 x.2.2.2 * 65536
/-- Clocks from the converter port to the section's output (R152). -/
def Dev.pipeClocks (d : Dev) (i : Nat) (c : Chain) (qs : Bool) : Nat :=
  6 + 6 + (if c.n = 0 ∧ !qs then 0 else 4) + (if qs then 0 else 7 * c.h + (if c.t = 0 then 0 else 8)) + 3 + d.routeClocks i

/-- The knob map of CHAN (R165). -/
def chanKnobs : List KnobRow :=
  [kn 0 "" 0 2, kw 4 "r", kn 8 "a" 0 47, kn 0xC "s" 0 8, kn 0x10 "a" 0 1023, kn 0x14 "a" 0 15, kw 0x18 "s", kn 0x1C "s" 0 65535, kn 0x20 "s" 0 3,
   kn 0x24 "a" 0 255, kn 0x28 "a" 1 4, kw 0x2C "a", kn 0x30 "a" 0 5, kw 0x34 "a", kn 0x38 "a" 0 1, kw 0x3C "a", kn 0x40 "si" (-51200) 0,
   kn 0x44 "si" (-51200) 0, kn 0x48 "s" 1 65535, kw 0x4C "s"] ++
  ([0x50, 0x54, 0x58, 0x5C, 0x60, 0x64, 0x68, 0x6C, 0x70, 0x74, 0x78, 0x7C, 0x80, 0x84] : List Nat).map (fun o => kw o "r")
/-- The row of a CHAN knob, coefficients among them. -/
def chanKnob (off : Nat) : Option KnobRow :=
  if 0x1000 ≤ off ∧ off < 0x1800 then some (kn off "ai" (-131072) 131071) else chanKnobs.find? (·.off == off)
/-- Reset values of CHAN knobs (R165). -/
def chanReset (i off : Nat) : Nat := match off with
  | 8 => i % 48 | 0x24 => 6 | 0x28 => 4 | 0x3C => 0x10000 | 0x48 => 1 | _ => 0

/-! ## What a channel reads and forms -/

/-- Change the channel of section i. -/
def Dev.setChan (d : Dev) (i : Nat) (f : Chan → Chan) : Dev := { d with chans := d.chans.put i (f (d.chan i)) }
/-- Whether the channel is RUNNING. -/
def Dev.chanRunning (d : Dev) (i : Nat) : Bool := (d.chans.get? i).isSome
/-- The record playback starts with: the oldest raw record present (R162). -/
def Dev.oldestRaw (d : Dev) (r : Nat) : Option Placed := (d.ring r).recs.find? (fun p => p.type == 1)
/-- The newest context record of a raw record's source that lies before it in its ring. -/
def Dev.contextOf (d : Dev) (r : Nat) (p : Placed) : Option Placed :=
  (d.ring r).recs.reverse.find? (fun q => q.type == 0x0C && q.source == p.source && decide (q.pos < p.pos))
/-- Samples per clock of the input a channel selects: of playback, by the context record of the played run (R162); where the ring holds none any more,
as the engine's own copy of that run says (R385), else 16. -/
def Dev.chanLanes (d : Dev) (i : Nat) : Nat :=
  let n := d.knob i 0xC
  let r := d.knob i 0x10
  if n < 8 then d.lanes n
  else match d.oldestRaw r with
    | none => 16
    | some p =>
      let bytes := match d.contextOf r p with
        | some q => d.ringBytes r (q.pos + 72) 8
        | none => match d.runs.cells.find? (fun u => u.2.kind == .raw && u.2.ring == some r && u.2.source == p.source) with
          | some u => ((u.2.ctxLast.getD []).drop 72).take 8
          | none => []
      if leNat bytes = 32000000000 then 32 else 16

/-- The phase of the NCO at a sample, and whether it dithers there (R145). -/
def Chan.phaseAt (c : Chan) (x : Int) : Nat × Bool :=
  match c.nco.find? (fun e => decide (e.first ≤ x)) with
  | some e => (((e.phase + (x - e.first) * e.tw) % 2 ^ 48).toNat, e.dither)
  | none => (0, false)
/-- The word in force. -/
def Chan.tw (c : Chan) : Nat := match c.nco with | e :: _ => e.tw | [] => 0
/-- Samples from `x` on, mixed (R145). -/
def Chan.mixed (c : Chan) (i : Nat) (x : Int) (l : List (BitVec 12)) : List Cx :=
  l.zipIdx.map (fun p =>
    let at_ := x + (p.2 : Nat)
    let ph := c.phaseAt at_
    mix p.1.toInt (ncoOut ph.1 (if ph.2 then Config.ncoDither i at_.toNat % 2 ^ 28 else 0)))
/-- Samples that product indices j to j + n − 1 rest on. -/
def Chan.spanFor (c : Chan) (j n : Nat) : Nat := (c.first (j + n - 1) + c.spanOf (j + n - 1) - c.first j).toNat
/-- The output shift in force (R157). -/
def Dev.outShift (d : Dev) (i : Nat) : Nat :=
  let c := d.chain i
  if d.knobBits i 0x3C 16 1 = 1 then autoShift (c.dcGain (d.firTaps i c) (d.knob i 0x38 == 1)) (d.knobBits i 0x3C 0 1) else d.knobBits i 0x3C 8 6
/-- Bits of a component of its samples. -/
def Dev.chanBits (d : Dev) (i : Nat) : Nat := fmtBits (d.knobBits i 0x3C 0 1)
/-- Product indices j to j + n − 1 of channel i with the components of each that saturated, from the codes of their spans (R145–R157); none where the
codes are not those of the spans. -/
def Dev.chanUnits (d : Dev) (i j n : Nat) (l : List (BitVec 12)) : Option (List (Cx × Nat)) :=
  let c := d.chan i
  if n = 0 ∨ l.length ≠ c.spanFor j n then none
  else
    let x := c.mixed i (c.first j) l
    let acc := if c.qs then (List.range n).map (fun k =>
        let s := c.spanOf (j + k)
        weigh (List.replicate s 1) ((x.drop (c.first (j + k) - c.first j).toNat).take s))
      else (d.chain i).run (d.firTaps i (d.chain i)) x
    some (acc.map (formatUnit (d.outShift i) (d.chanBits i)))

/-! ## Playback (R162, R163) -/

/-- Where the playback reader of section i stands. -/
def Dev.playPos (d : Dev) (i : Nat) : Nat :=
  let g := d.ring (d.knob i 0x10)
  match g.readers.find? (fun (x : Reader) => x.kind == .playback i) with | some x => x.pos | none => g.wr
/-- The raw records the reader has before it. -/
def Dev.playRecs (d : Dev) (i : Nat) : List Placed :=
  (d.ring (d.knob i 0x10)).recs.filter (fun (p : Placed) => decide (d.playPos i ≤ p.pos) && p.type == 1)
/-- The played record that holds a sample. -/
def Dev.playedAt (d : Dev) (i : Nat) (x : Int) : Option Placed :=
  (d.playRecs i).find? (fun (p : Placed) => decide ((p.start : Int) ≤ x ∧ x < (p.start : Int) + p.count))
/-- The code of a played sample. -/
def Dev.playCode (d : Dev) (i : Nat) (x : Int) : Option (BitVec 12) :=
  (d.playedAt i x).map (fun p =>
    let k := (x - p.start).toNat
    BitVec.ofNat 12 (leNat (d.ringBytes (d.knob i 0x10) (p.pos + 64 + k / 2 * 3) 3) / 4096 ^ (k % 2)))
/-- The codes that product indices j to j + n − 1 rest on: of a converter as it delivered them, of playback as the ring holds them. -/
def Dev.chanCodes (d : Dev) (i j n : Nat) (given : List (BitVec 12)) : List (BitVec 12) :=
  let c := d.chan i
  if c.input < 8 then given else (List.range (c.spanFor j n)).filterMap (fun (k : Nat) => d.playCode i (c.first j + k))
/-- The time and epoch of the played record that holds product index j's instant become the channel's (R163). -/
def Dev.playRef (d : Dev) (i j : Nat) : Dev :=
  let c := d.chan i
  if c.input < 8 then d
  else match d.playedAt i (c.first j + c.gNum / c.gDen) with
    | some p =>
      let h := d.ringBytes (d.knob i 0x10) p.pos 64
      d.setChan i (fun c => { c with refSample := p.start, refTime := ofStamp96 (leNat ((h.drop 0x24).take 12)), refEpoch := leNat ((h.drop 6).take 2) })
    | none => d
/-- Gap records before the reader, of the source it plays: the samples are invalid, for the cause they name (R163). -/
def Dev.playLosses (d : Dev) (i : Nat) : Dev :=
  let r := d.knob i 0x10
  let c := d.chan i
  let src := match d.playRecs i with | p :: _ => some p.source | [] => none
  (d.ring r).recs.foldl (fun d (p : Placed) =>
    if p.type = 8 ∧ d.playPos i ≤ p.pos ∧ (src = none ∨ src = some p.source) then
      let h := c.hits (max p.start c.seen) (p.start + p.count)
      d.noteLoss i ⟨h.1, h.2 - h.1, leNat (d.ringBytes r (p.pos + 64) 1)⟩
    else d) d
/-- The flags of the played records that product indices j to j + n − 1 rest on (R161). -/
def Dev.playFlags (d : Dev) (i j n : Nat) : Nat :=
  let c := d.chan i
  let e := c.first (j + n - 1) + c.spanOf (j + n - 1)
  (d.playRecs i).foldl (fun f (p : Placed) => if (p.start : Int) < e ∧ c.first j < (p.start : Int) + p.count then f ||| p.flags else f) 0
/-- The reader moves past the records that no later unit needs: they end before the first sample of product index j's span. -/
def Dev.playTo (d : Dev) (i j : Nat) : Dev :=
  let c := d.chan i
  let r := d.knob i 0x10
  let pos := match (d.playRecs i).find? (fun (p : Placed) => decide (c.first j < (p.start : Int) + p.count)) with
    | some p => p.pos
    | none => (d.ring r).wr
  (d.setRing r (fun g => { g with readers := g.readers.map (fun (x : Reader) => if x.kind = .playback i then { x with pos := max x.pos pos } else x) })).noteFill r
/-- The channel begins or ends to read its ring. -/
def Dev.playAttach (d : Dev) (i : Nat) : Dev :=
  d.setRing (d.knob i 0x10) (fun g => { g with readers := g.readers ++
    [⟨.playback i, (match g.recs.find? (fun p => p.type == 1) with | some p => p.pos | none => g.wr), true, []⟩] })
def Dev.playDetach (d : Dev) (i : Nat) : Dev :=
  if (d.chan i).input < 8 then d
  else d.setRing (d.knob i 0x10) (fun g => { g with readers := g.readers.filter (fun x => x.kind != .playback i) })

/-! ## Runs and context records -/

/-- A CHAN context record (R164). -/
def Dev.chanContext (d : Dev) (i reason aff settled change m : Nat) (cross : Option (Nat × Nat)) : Rec :=
  let c := d.chan i
  let (t, e) := d.chanTime c aff
  let ps := roundDiv (c.gNum * 1000) (c.gDen * c.lanes)
  d.withAxisOf i {
    type := 0x0C, source := 0x10 + d.knob i 8, flags := if c.input < 8 then d.inputFlags c.input else 0, epoch := e, trig := 0,
    start := aff, count := 0, time := stamp96 t, axisId := 0, axis := 0, scale := 0,
    payload := leBytes 4 (reason + if cross.isSome then 32 else 0) ++ leBytes 1 c.input ++ leBytes 1 (d.knob i 0x24) ++
      leBytes 1 ((if c.qs then 1 else 0) + (if c.lanes = 32 then 2 else 0) + 4 * d.knobBits i 0x3C 0 1) ++ leBytes 1 0 ++
      leBytes 8 c.j0 ++ leBytes 8 c.s0 ++ leBytes 8 change ++ leBytes 4 c.dec ++ leBytes 4 c.span ++ leBytes 8 ps.toNat ++
      leBytes 8 (unsigned 64 (signed 48 c.tw)) ++ leBytes 8 settled ++ leBytes 4 m ++ leBytes 4 0 ++
      leBytes 12 ((cross.map (·.1)).getD 0) ++ leBytes 2 ((cross.map (·.2)).getD 0) ++ leBytes 2 0 }

/-- Set STATUS.CODE: 0 OK, 1 STATE, 2 RATE, 3 DECIM, 4 BUDGET, 5 INPUT, 6 ID, 7 INPUT_STOPPED. -/
def Dev.chanCode (d : Dev) (i c : Nat) : Dev := d.setKnobBits i 4 8 8 c

/-- The checks of R147 in their order; 0 passes. A factor outside its stage's range lies in a hole of its knob (R45) and is refused with DECIM;
quick-settle looks at Lb alone (R154). -/
def Dev.chanCheck (d : Dev) (i : Nat) : Nat :=
  let c := d.chain i
  let qs := d.knob i 0x38 == 1
  let set := d.knob i 0x24
  let n := d.knob i 0xC
  let lanes := d.chanLanes i
  let dec := c.dec qs
  let need := c.need lanes qs
  let id := d.knob i 8
  if (23 < set ∧ set ≠ 255) ∨ dec < 4 ∨ 4096 < c.dc ∨ (!qs ∧ (2 ^ 24 < dec ∨ (c.n = 0 ∧ c.dc ≠ 1) ∨ 6 < c.n ∨ 512 < c.t ∨ 8 < c.df)) then 3
  else if 4 * dec < lanes ∨ (!qs ∧ c.t ≠ 0 ∧ 25 * dec < 10 * lanes) then 2
  else if d.placed i 0 < need.1 ∨ d.placed i 2 < need.2.1 ∨ d.placed i 3 < need.2.2.1 ∨ d.placed i 4 < need.2.2.2 then 4
  else if n < 8 ∧ d.cnvState n ≠ 1 then 5
  else if d.chans.cells.any (fun p => p.1 != i && d.knob p.1 8 == id) then 6
  else 0

/-- What composition fixed: PIPE_CLK and PLACED (R152, R158, R165). -/
def Dev.chanComposed (d : Dev) (i : Nat) : Dev :=
  (d.setKnob i 0x68 (d.pipeClocks i (d.chain i) (d.knob i 0x38 == 1))).setKnob i 0x74 (packNeed (d.placed i 0, d.placed i 2, d.placed i 3, d.placed i 4))
/-- NEED of the configuration in force (R158). -/
def Dev.chanNeed (d : Dev) (i : Nat) : Dev := d.setKnob i 0x70 (packNeed ((d.chain i).need (d.chanLanes i) (d.knob i 0x38 == 1)))

/-- Report what START computes (R150, R152, R154). -/
def Dev.chanReport (d : Dev) (i lanes : Nat) : Dev :=
  let c := d.chain i
  let qs := d.knob i 0x38 == 1
  let (num, den, nom) := d.groupDelay i c qs
  let dec := c.dec qs
  let w := c.span qs
  let ps := (roundDiv (num * 1000) (den * lanes)).toNat
  let pipe := d.pipeClocks i c qs
  let tail : Int := ((((w : Int) - 1) * den - num) + (lanes * den : Nat) - 1) / (lanes * den : Nat)
  let d := (((d.setKnob i 0x50 dec).setKnob i 0x54 (roundDiv (num * 65536) (den * dec)).toNat).setKnob i 0x58 (ps % 2 ^ 32)).setKnob i 0x5C (ps / 2 ^ 32)
  let d := (((d.setKnob i 0x60 w).setKnob i 0x64 (38 + pipe + tail + 1 : Int).toNat).chanComposed i).chanNeed i
  let d := d.setKnob i 0x6C (unsigned 32 (gainDb (c.dcGain (d.firTaps i c) qs) (d.outShift i) (d.knobBits i 0x3C 0 1)))
  (((d.setKnobBits i 4 2 1 (if nom then 1 else 0)).setKnobBits i 4 1 1 (if qs then 1 else 0)).setKnob i 0x84 (if qs then dec else 0))

/-- The word TW in force (R145, R146). -/
def Dev.tuning (d : Dev) (i : Nat) : Nat := match d.sections.get? i with | some s => s.tw | none => 0
/-- The word that NCO_HI and NCO_LO spell. -/
def Dev.ncoWord (d : Dev) (i : Nat) : Nat := d.knob i 0x18 + d.knob i 0x1C % 65536 * 2 ^ 32

/-- Bind the channel's settings to product index j0 at input sample s0. The NCO's phase at the first sample taken is 0: the spec does not say (log
entry 33); the threshold state is low. -/
def Dev.bindChan (d : Dev) (i j0 s0 : Nat) : Dev :=
  let c := d.chain i
  let qs := d.knob i 0x38 == 1
  let g := d.groupDelay i c qs
  let x : Chan := {
    input := d.knob i 0xC, lanes := d.chanLanes i, dec := c.dec qs, span := c.span qs, gNum := g.1, gDen := g.2.1, j0 := j0, s0 := s0, past := [],
    seen := s0, qs := qs, nco := [⟨s0, 0, d.tuning i, d.knobBits i 0x20 1 1 == 1⟩], lost := [], high := false, refSample := 0, refTime := 0, refEpoch := 0 }
  ({ d with chans := d.chans.put i x } : Dev).playRef i j0

/-- The run of a RUNNING channel begins at input sample s0 with its context record (R151, R164). -/
def Dev.chanBegin (d : Dev) (i s0 : Nat) : Dev :=
  let d := d.bindChan i 0 s0
  let c := d.chan i
  let u : Run := {
    kind := .chan, source := 0x10 + d.knob i 8, tag := 0, input := if c.input < 8 then c.input else 0, ring := none, next := 0, gap := none,
    held := [], losses := [], ctxWait := none, ctxLast := none, reserve := 256, taken := false, base := 0, baseClk := d.clk + 1, rateNum := c.lanes,
    rateDen := c.dec, per := 1 }
  let d := { d with runs := d.runs.put i u }
  d.startRun i (d.sectionRing i) u (d.chanContext i 1 0 0 s0 0 none)

/-- CMD START (R142, R147, R150, R151, R162). A user chain's computation takes 20 µs first. NEED is reported whenever it was compared. Playback of
a ring without a raw record begins its run with the first one. -/
def Dev.chanStart (d : Dev) (i : Nat) : Dev :=
  if d.chanRunning i then d.chanCode i 1
  else
    let code := d.chanCheck i
    let d := if code = 2 ∨ code = 3 then d else d.chanNeed i
    if code ≠ 0 then d.chanCode i code
    else
      let n := d.knob i 0xC
      let d := if d.knob i 0x24 = 255 then d.advance 20000 else d
      let d := ((d.setKnob i 0x78 0).setKnob i 0x7C 0).setKnob i 0x80 0
      let d := ((d.chanReport i (d.chanLanes i)).setKnobBits i 4 0 1 1).chanCode i 0
      if n < 8 then d.chanBegin i (d.nextIdx n)
      else
        let d := (d.bindChan i 0 0).playAttach i
        match d.oldestRaw (d.knob i 0x10) with
        | some p => d.chanBegin i p.start
        | none => d

/-- The channel stops with a code: the run ends, a playback reader detaches, no quick-settle is in force. -/
def Dev.chanEnd (d : Dev) (i code : Nat) : Dev :=
  let d := (d.playDetach i).endRun i
  (({ d with chans := d.chans.erase i }.setKnobBits i 4 0 2 0).setKnob i 0x84 0).chanCode i code
/-- CMD STOP (R142): the run ends at its last output. -/
def Dev.chanStop (d : Dev) (i : Nat) : Dev := if d.chanRunning i then d.chanEnd i 0 else d.chanCode i 1
/-- The selected converter left RUNNING, or the section is unloaded (R142, R166). -/
def Dev.chanInputStopped (d : Dev) (i : Nat) : Dev := (d.chanEnd i 7).sectionEvent i 4

/-! ## Changes of a running channel -/

/-- First affected and first settled product index of a change at sample k in normal mode (R153). -/
def Chan.affected (c : Chan) (k : Nat) : Nat × Nat :=
  let x : Int := (k : Int) - c.s0
  let aff : Int := if x < c.span then c.j0 else c.j0 + (x - c.span) / c.dec + 1
  let set : Int := if x ≤ 0 then c.j0 else c.j0 + (x + c.dec - 1) / c.dec
  (aff.toNat, set.toNat)

/-- The first sample of the clock at the `n`-th boundary from now. A playback channel has taken the samples its records needed so far (log entry 33). -/
def Dev.chanEdge (d : Dev) (i n : Nat) : Nat :=
  let c := d.chan i
  if c.input < 8 then (d.input c.input).idx + n * c.lanes
  else
    let next := match d.runs.get? i with | some u => u.next | none => 0
    (c.first next + c.span - c.dec).toNat

/-- A change at sample k (R153, R155): `reason` bits, `cross` when a cue made it. In quick-settle mode the boxcar restarts and the binding moves
when `rebind` says the change touches the mixer. -/
def Dev.chanChange (d : Dev) (i reason : Nat) (rebind : Bool) (k : Nat) (cross : Option (Nat × Nat)) : Dev :=
  let c := d.chan i
  if c.qs ∧ rebind then
    let x := k - c.s0
    let m := x % c.dec
    let j := c.j0 + x / c.dec + (if m = 0 then 0 else 1)
    let d := if k = c.s0 then d else d.setChan i (fun c => { c with j0 := j, s0 := k, past := (c.j0, c.s0) :: c.past })
    let d := d.setRun i (fun u => { u with base := j, baseClk := d.clk + 1 })
    d.publishContext i ((d.playRef i j).chanContext i reason j j k m cross)
  else
    let (a, s) := c.affected k
    d.publishContext i ((d.playRef i a).chanContext i reason a s k 0 cross)

/-- The NCO takes a setting at sample k: the phase runs on, or is 0 where `reset` says so (R145). -/
def Dev.ncoSet (d : Dev) (i k : Nat) (reset : Bool) : Dev :=
  d.setChan i (fun c => { c with nco := ⟨k, if reset then 0 else (c.phaseAt k).1, d.tuning i, d.knobBits i 0x20 1 1 == 1⟩ :: c.nco })

/-- A retune: NCO_HI applies both halves (R146, R153, R155), at the `n`-th boundary. -/
def Dev.chanRetune (d : Dev) (i : Nat) (cross : Option (Nat × Nat)) (n : Nat) : Dev :=
  let d := match d.sections.get? i with
    | some s => { d with sections := d.sections.put i { s with tw := d.ncoWord i } }
    | none => d
  if d.chanRunning i then
    let k := d.chanEdge i n
    ((d.noteOpen i).ncoSet i k (d.knobBits i 0x20 0 1 == 1)).chanChange i 2 true k cross
  else d

/-- A write of NCO_CTRL: DITHER applies from the boundary on, PHASE_RESET to the next change. -/
def Dev.chanDither (d : Dev) (i v n : Nat) : Dev :=
  let d := d.setKnob i 0x20 v
  if d.chanRunning i then d.ncoSet i (d.chanEdge i n) false else d

/-- The channel takes input v from its sample `b` on, where the old input's sample `a` would have stood: the grid keeps its place in time (R153). -/
def Chan.switch (c : Chan) (v a b : Nat) : Chan :=
  let shift : Int := (b : Int) - a
  let back : Nat := ((-((c.s0 : Int) + shift) + c.dec - 1) / c.dec).toNat
  { c with input := v, seen := b, j0 := c.j0 + back, s0 := ((c.s0 : Int) + shift + back * c.dec).toNat,
           past := c.past.map (fun p => (p.1, ((p.2 : Int) + shift).toNat)), nco := c.nco.map (fun e => { e with first := e.first + shift }) }

/-- A write of INPUT_SEL (R144): refused on a running channel unless it names a RUNNING input with the same fs. -/
def Dev.chanInput (d : Dev) (i v : Nat) (cross : Option (Nat × Nat)) (n : Nat) : Dev :=
  if !(d.chanRunning i) then d.setKnob i 0xC v
  else if 8 ≤ v ∨ d.cnvState v ≠ 1 ∨ d.lanes v ≠ (d.chan i).lanes then (d.refuseKnob i).sectionEvent i 3
  else
    let same := (d.chan i).input == v
    let d := d.setKnob i 0xC v
    if same then d
    else if (d.runs.get? i).isNone then (d.playDetach i).chanBegin i ((d.input v).idx + n * d.lanes v)
    else
      let a := d.chanEdge i n
      let b := (d.input v).idx + n * d.lanes v
      let d := (((d.noteOpen i).playDetach i).setChan i (fun c => c.switch v a b)).setRun i (fun u => { u with input := v })
      (if d.knobBits i 0x20 0 1 = 1 then d.ncoSet i b true else d).chanChange i 4 true b cross

/-- Threshold settings: a running channel writes their context record (R164, reason bit 4). -/
def Dev.chanSet (d : Dev) (i off v : Nat) (cross : Option (Nat × Nat)) (n : Nat) : Dev :=
  let d := d.setKnob i off v
  if d.chanRunning i then d.chanChange i 16 false (d.chanEdge i n) cross else d

/-- An accepted knob write of a channel (R144, R146, R149, R156); it takes effect at the `n`-th boundary. -/
def Dev.chanWrite (d : Dev) (i off v : Nat) (cross : Option (Nat × Nat)) (n : Nat) : Dev :=
  match off with
  | 0 => if v = 1 then d.chanStart i else if v = 2 then d.chanStop i else d
  | 0xC => d.chanInput i v cross n
  | 0x1C => (d.setKnob i off v).chanRetune i cross n
  | 0x20 => d.chanDither i v n
  | 0x40 => if signed 32 v < d.knobInt i 0x44 then (d.refuseKnob i).sectionEvent i 3 else d.chanSet i off v cross n
  | 0x44 => if d.knobInt i 0x40 < signed 32 v then (d.refuseKnob i).sectionEvent i 3 else d.chanSet i off v cross n
  | 0x48 => d.chanSet i off v cross n
  | 0x4C => d.chanSet i off v cross n
  | _ => d.setKnob i off v

/-- A write that R149's lock refuses counts in COEF_IGN as well: chain and coefficient knobs. -/
def Dev.chanRefused (d : Dev) (i off : Nat) : Dev :=
  let d := if (0x28 ≤ off ∧ off ≤ 0x34) ∨ 0x1000 ≤ off then d.incKnob i 0x7C else d
  d.sectionEvent i 3

/-- The first unit whose span lies wholly after the section left dark, on the grid in force, and the old input's sample where it begins (R160). -/
def Chan.resumeAt (c : Chan) (next k : Nat) : Nat × Nat :=
  let x : Int := (k : Int) - c.s0
  let j : Int := c.j0 + (if x ≤ 0 then 0 else (x + c.dec - 1) / c.dec)
  let j := max next j.toNat
  (j, (c.first j).toNat)

/-- The section leaves dark (R160): the run goes on with the settings now in force, its source, input and reader among them, or ends with the code
of the check that fails. An input of another rate cannot carry the run on (R143): it is refused as INPUT (DESIGN CHOICE, log entry 33). With the
chain's decimation unchanged the units keep their grid; otherwise the first unit not accounted for begins at the boundary. -/
def Dev.chanResume (d : Dev) (i : Nat) : Dev :=
  if !(d.chanRunning i) then d
  else
    let code := d.chanCheck i
    let c := d.chan i
    if code ≠ 0 then d.chanEnd i code
    else if d.chanLanes i ≠ c.lanes then d.chanEnd i 5
    else match d.runs.get? i with
      | none => d
      | some u =>
        let n := d.knob i 0xC
        let keep := decide ((d.chain i).dec (d.knob i 0x38 == 1) = c.dec)
        let back := n = 8
        let d := if c.input = 8 ∧ back then d else (d.playDetach i)
        let a := if c.input < 8 then d.nextIdx c.input else (c.first u.next).toNat
        let b := if n < 8 then d.nextIdx n else if c.input = 8 then a else match d.oldestRaw (d.knob i 0x10) with | some p => p.start | none => 0
        let d := if back ∧ c.input < 8 then d.playAttach i else d
        let at_ := if keep then c.resumeAt u.next a else (u.next, a)
        let j := at_.1
        let s0 := ((b : Int) + at_.2 - a).toNat
        let d := (d.noteLoss i ⟨u.next, j - u.next, 6⟩).closeGap i
        let lost := (d.chan i).lost
        let d := ((d.chanReport i c.lanes).bindChan i j s0).setChan i (fun c => { c with lost := lost })
        let d := (d.setKnobBits i 4 0 1 1).setRun i (fun u => { u with
          source := 0x10 + d.knob i 8, base := j, baseClk := d.clk + 1, rateNum := c.lanes, rateDen := (d.chan i).dec, input := if n < 8 then n else u.input })
        d.publishContext i (d.chanContext i 8 j j s0 0 none)

/-! ## Threshold events (R156) -/

/-- Whether the codes form the THR_MIN outputs up to product index j, none of them lost, and all of them decide an entry (or a leave). -/
def Dev.thresholdHolds (d : Dev) (i j : Nat) (enter : Bool) (codes : List (BitVec 12)) : Bool :=
  let m := d.knob i 0x48
  let a := j + 1 - m
  decide (1 ≤ m ∧ m ≤ j + 1) && ((d.noteOpen i).chan i).lost.all (fun l => decide (l.start + l.count ≤ a ∨ j < l.start)) &&
    (match d.chanUnits i a m (d.chanCodes i a m codes) with
    | some l => l.all (fun x => if enter then unitReaches (d.chanBits i) x.1 (d.knobInt i 0x40) else !(unitReaches (d.chanBits i) x.1 (d.knobInt i 0x44)))
    | none => false)
/-- The channel enters or leaves the high state at product index j, on the outputs that its codes form. -/
def Dev.threshold (d : Dev) (i j : Nat) (enter : Bool) (codes : List (BitVec 12)) : Dev :=
  if d.activeKind i 1 && d.chanRunning i && d.knob i 0x4C % 2 == 1 && (d.chan i).high != enter && d.thresholdHolds i j enter codes then
    let c := d.chan i
    let d := ((d.setChan i (fun c => { c with high := enter })).sectionEvent i (if enter then 0 else 1)).incKnob i 0x80
    let h := d.knobBits i 0x4C 8 6
    if d.knobBits i 0x4C 1 1 = 1 ∧ d.hasDriver h 1 i then
      let x := ((c.first j * c.gDen + c.gNum) / c.gDen).toNat
      d.driveHalyard h (if c.lanes = 32 then x % 32 else 2 * (x % 16)) none
    else d
  else d

/-! ## Meanings -/

/-- The deciding output `j` completes an entry of the high state (R156), on the codes of its last THR_MIN outputs. -/
def execThresholdEnter (i : Fin 128) (o : OutputRun) (s : State) := lift (fun d => d.threshold i o.j true o.samples) s
/-- The deciding output `j` completes a leave of the high state (R156). -/
def execThresholdLeave (i : Fin 128) (o : OutputRun) (s : State) := lift (fun d => d.threshold i o.j false o.samples) s

end Sys2Proof.Machine
end

