-- ==== Sys2Proof/Machine/Transforms.lean ====
section
/-! DEFINITION. XFRM and TRACE (R167–R197, spec/07_transforms.md): the frame grid, windows, the frames and their
levels, budgets, detectors, traces and their ledger. -/
namespace Sys2Proof.Machine

/-- The knob map of XFRM (R195). -/
def xfrmKnobs : List KnobRow :=
  [kn 0 "" 0 2, kw 4 "r", kn 8 "a" 0 8, kn 0xC "a" 6 16, kn 0x10 "a" 2 16, kn 0x14 "a" 0 255, kn 0x18 "a" 0 1, kn 0x1C "a" 0 1023, kw 0x20 "a",
   kw 0x24 "a", kn 0x28 "a" 64 65536] ++
  ([0x2C, 0x30, 0x34, 0x38, 0x3C, 0x40, 0x44, 0x48, 0x4C, 0x50, 0x54, 0x58] : List Nat).map (fun o => kw o "r")
/-- Reset values of XFRM knobs. -/
def xfrmReset (off : Nat) : Nat := match off with
  | 0xC => 10 | 0x10 => 8 | 0x14 => 1 | 0x28 => 1024 | _ => 0
/-- The knob map of TRACE (R196). -/
def traceKnobs : List KnobRow :=
  [kn 0 "" 0 2, kw 4 "r", kn 8 "a" 0 255, kn 0xC "a" 0 4, kw 0x10 "a", kn 0x14 "a" 1 16777216, kn 0x18 "a" 101 65536, kn 0x1C "ai" (-32768) 65535,
   kn 0x20 "a" 0 65536, kn 0x24 "a" 0 3] ++
  ([0x28, 0x2C, 0x30, 0x34, 0x38, 0x3C, 0x40, 0x44] : List Nat).map (fun o => kw o "r")
/-- Reset values of TRACE knobs. -/
def traceReset (i off : Nat) : Nat := match off with
  | 8 => i | 0x14 => 1 | 0x18 => 1001 | _ => 0

/-! ## XFRM -/

/-- Whether the transform of section i is RUNNING. -/
def Dev.xfrmRunning (d : Dev) (i : Nat) : Bool := (d.xfrms.get? i).isSome
/-- STATUS.CODE: 0 OK, 1 STATE, 2 SIZE, 3 BUDGET, 4 INPUT, 5 WINDOW, 6 INPUT_STOPPED. -/
def Dev.xfrmCode (d : Dev) (i c : Nat) : Dev := d.setKnobBits i 4 8 8 c
/-- The CHAN section bound to input port 0, when it is one (R168). -/
def Dev.xfrmChan (d : Dev) (i : Nat) : Option Nat := match d.inPort i 0 with
  | some (p, _) => if p < 128 ∧ d.kind p = 1 then some p else none
  | none => none
/-- Samples per clock of the selected source, as a fraction, and whether it is complex. -/
def Dev.xfrmRate (d : Dev) (i : Nat) : Nat × Nat × Bool :=
  let n := d.knob i 8
  if n < 8 then (d.lanes n, 1, false)
  else match d.xfrmChan i with
    | some c => ((d.chan c).lanes, (d.chan c).dec, true)
    | none => (16, 1, true)

/-- Bins per clock as a fraction (R177). -/
def binRate (size hop num den : Nat) (complex : Bool) : Nat × Nat := (2 ^ size * num, (if complex then 1 else 2) * 2 ^ hop * den)
/-- Bins of a frame. -/
def binCount (size : Nat) (complex : Bool) : Nat := if complex then 2 ^ size else 2 ^ size / 2
/-- NEED of XFRM: butterfly, MAC, rotator, memory (R180). -/
def xfrmNeed (size hop num den : Nat) (complex : Bool) : Nat × Nat × Nat × Nat :=
  let n := 2 ^ size
  let h := 2 ^ hop
  let b := binRate size hop num den complex
  (size * ceilDiv (n * num) ((if complex then 2 else 4) * h * den),
   ceilDiv ((if complex then 2 else 1) * n * num) (16 * h * den) + ceilDiv b.1 (8 * b.2),
   ceilDiv b.1 (16 * b.2),
   if num = 32 ∧ !complex then 6 + ceilDiv n 8192 else 4 + ceilDiv n 16384)
/-- Pack XFRM's NEED or PLACED. -/
def packXfrm (x : Nat × Nat × Nat × Nat) : Nat := min 4095 x.1 + min 255 x.2.1 * 2 ^ 12 + min 63 x.2.2.1 * 2 ^ 20 + min 63 x.2.2.2 * 2 ^ 26
/-- Clocks of the pipeline (R179). -/
def Dev.xfrmPipe (d : Dev) (i size num den : Nat) : Nat := 5 + ceilDiv (2 ^ size * den) num + 6 * size + 5 + 9 + 1 + d.routeClocks i


/-- The user window of a section. -/
def Dev.window (d : Dev) (i : Nat) : Window := d.windows.getD i ⟨[], none⟩
/-- Coefficients of the window of N points a code names (R171). -/
def Dev.taps (d : Dev) (i code size : Nat) : List Nat := windowTaps code (2 ^ size) (d.window i).table

/-- The checks of R170 in their order; 0 passes. -/
def Dev.xfrmCheck (d : Dev) (i : Nat) : Nat :=
  let size := d.knob i 0xC
  let hop := d.knob i 0x10
  let w := d.knob i 0x14
  let (num, den, complex) := d.xfrmRate i
  let need := xfrmNeed size hop num den complex
  let n := d.knob i 8
  if size < 6 ∨ 16 < size ∨ hop + 4 < size ∨ size < hop then 2
  else if (6 < w ∧ w ≠ 255) ∨ (w = 255 ∧ (d.window i).table.length ≠ 2 ^ size) then 5
  else if d.placed i 1 < need.1 ∨ d.placed i 0 < need.2.1 ∨ d.placed i 2 < need.2.2.1 ∨ d.placed i 3 < need.2.2.2 then 3
  else if n < 8 then (if d.cnvState n = 1 then 0 else 4)
  else match d.xfrmChan i with
    | some c => if d.chanRunning c then 0 else 4
    | none => 4

/-- Coherent gain in thousandths and ENBW in thousandths of a bin at N = 1,024 (R171). -/
def windowFigures : Nat → Nat × Nat
  | 1 => (500, 1500) | 2 => (216, 3770) | 3 => (359, 2004) | 4 => (500, 1470) | 5 => (412, 1760) | 6 => (344, 2080) | _ => (1000, 1000)
/-- Report a window's figures from its coefficients (R171, R172). -/
def Dev.putFigures (d : Dev) (i : Nat) (t : List Nat) : Dev :=
  let s := t.sum
  let q := (t.map (fun x => x * x)).sum
  (d.setKnob i 0x38 (unsigned 32 (dbRound 5120 s (t.length * 131072)))).setKnob i 0x3C (if s = 0 then 0 else (roundDiv (q * t.length * 65536) (s * s)).toNat)
/-- Report the figures of the window in force (R171, R172): those of R171's table at N = 1,024, of the coefficients otherwise. -/
def Dev.windowReport (d : Dev) (i : Nat) : Dev :=
  let w := d.knob i 0x14
  let size := d.knob i 0xC
  if w = 0 then (d.setKnob i 0x38 0).setKnob i 0x3C 65536
  else if w ≤ 6 ∧ size = 10 then
    let f := windowFigures w
    (d.setKnob i 0x38 (unsigned 32 (dbRound 5120 f.1 1000))).setKnob i 0x3C (roundDiv (f.2 * 65536 : Nat) 1000).toNat
  else d.putFigures i (d.taps i w size)

/-! ## When frames leave (R83, R152, R178, R179) -/

/-- Clocks from a converter's sampling to its port (R83). -/
def Dev.portDelay (d : Dev) (n : Nat) : Nat := if d.lanes n = 32 then 40 else 38
/-- The first product index of a channel that leaves it after composing clock `k` (R152). -/
def Dev.unitFrom (d : Dev) (c : Nat) (k : Int) : Nat :=
  let x := d.chan c
  if x.input < 8 then
    let idx : Int := (d.input x.input).idx + (k + 1 - d.clk - d.portDelay x.input - d.knob c 0x68) * x.lanes
    let ahead : Int := idx + 1 - x.span - x.s0
    if ahead ≤ 0 then x.j0 else x.j0 + ((ahead + x.dec - 1) / x.dec).toNat
  else match d.runs.get? c with | some u => max u.next (u.unitAt k.toNat) | none => 0
/-- The first frame whose last bin leaves after composing clock `k` (R179). -/
def Dev.frameFrom (d : Dev) (i : Nat) (k : Int) : Nat :=
  let x := d.xfrm i
  let pipe := d.knob i 0x40
  let last : Int := if x.input < 8 then (d.input x.input).idx + (k + 1 - d.clk - d.portDelay x.input - pipe) * x.num else d.unitFrom x.chan (k - pipe)
  ((last + 1 - (2 ^ x.size : Nat) - x.s0 + (2 ^ x.hop : Nat) - 1) / (2 ^ x.hop : Nat)).toNat
/-- The first frame that leaves after now (R183). -/
def Dev.frameNow (d : Dev) (i : Nat) : Nat := d.frameFrom i d.clk
/-- The clock from which a section is dark or shed. -/
def Dev.darkSince (d : Dev) (i : Nat) : Nat := match d.sections.get? i with | some s => s.darkFrom.getD d.clk | none => d.clk
/-- Frames up to `to` that have not left since the section went dark join those that never leave, with the cause of its state (R40, R178). -/
def Dev.framesGone (d : Dev) (i cause to_ : Nat) : Dev :=
  match d.xfrms.get? i with
  | none => d
  | some x =>
    let from_ := max (d.frameFrom i (d.darkSince i)) (match x.gone.getLast? with | some l => l.start + l.count | none => 0)
    if to_ ≤ from_ then d else { d with xfrms := d.xfrms.put i { x with gone := x.gone ++ [⟨from_, to_ - from_, cause⟩] } }
/-- Frames of a running transform delivered so far (R195). -/
def Dev.framesOut (d : Dev) (i : Nat) : Nat :=
  let n := if d.secState i = 2 then d.frameNow i else d.frameFrom i (d.darkSince i)
  n - (((d.xfrm i).gone.map (·.count)).sum)
/-- FRAMES as it reads now. -/
def Dev.framesLive (d : Dev) (i : Nat) : Nat := if d.xfrmRunning i then d.framesOut i else d.wideKnob i 0x50

/-! ## Runs -/

/-- What composition fixed: PIPE_CLK and PLACED (R179, R180, R195). -/
def Dev.xfrmComposed (d : Dev) (i : Nat) : Dev :=
  let r := d.xfrmRate i
  (d.setKnob i 0x40 (d.xfrmPipe i (d.knob i 0xC) r.1 r.2.1)).setKnob i 0x4C (packXfrm (d.placed i 1, d.placed i 0, d.placed i 2, d.placed i 3))
/-- NEED of the settings in force (R180). -/
def Dev.xfrmNeeds (d : Dev) (i : Nat) : Dev :=
  let r := d.xfrmRate i
  d.setKnob i 0x48 (packXfrm (xfrmNeed (d.knob i 0xC) (d.knob i 0x10) r.1 r.2.1 r.2.2))
/-- What START reports (R171, R179, R180, R195). -/
def Dev.xfrmReport (d : Dev) (i : Nat) : Dev :=
  let size := d.knob i 0xC
  let (num, den, complex) := d.xfrmRate i
  let bw := num * 1000000000 * 1000000 / (den * 2 ^ size)
  let d := (((d.windowReport i).setKnob i 0x2C (binCount size complex)).setKnob i 0x30 (bw % 2 ^ 32)).setKnob i 0x34 (bw / 2 ^ 32)
  let d := ((d.xfrmComposed i).setKnob i 0x44 (d.xfrmPipe i size num den + 38 + ceilDiv (2 ^ size * den) num)).xfrmNeeds i
  d.setKnobBits i 4 0 3 (1 + (if num = 32 ∧ !complex then 2 else 0) + (if complex then 4 else 0))

/-- CMD START (R167–R170). NEED is reported whenever it was compared. -/
def Dev.xfrmStart (d : Dev) (i : Nat) : Dev :=
  if d.xfrmRunning i then d.xfrmCode i 1
  else
    let code := d.xfrmCheck i
    let d := if code = 2 ∨ code = 5 then d else d.xfrmNeeds i
    if code ≠ 0 then d.xfrmCode i code
    else
      let (num, den, _) := d.xfrmRate i
      let n := d.knob i 8
      let c := (d.xfrmChan i).getD 0
      let s0 := if n < 8 then d.nextIdx n else d.unitFrom c d.clk
      let x : Xfrm := ⟨n, c, if n < 8 then n else 0x10 + d.knob c 8, num, den, s0, d.knob i 0xC, d.knob i 0x10, d.knob i 0x14, [], 0⟩
      let d := (((d.setKnob i 0x58 0).setWideKnob i 0x50 0).xfrmReport i).xfrmCode i 0
      { d with xfrms := d.xfrms.put i x }

/-- The transform stops with a code; what reads it follows in `Sections`. -/
def Dev.xfrmEnd (d : Dev) (i code : Nat) : Dev :=
  let d := d.setWideKnob i 0x50 (d.framesLive i)
  ({ d with xfrms := d.xfrms.erase i }.setKnobBits i 4 0 1 0).xfrmCode i code
/-- CMD STOP. -/
def Dev.xfrmStop (d : Dev) (i : Nat) : Dev := if d.xfrmRunning i then d.xfrmEnd i 0 else d.xfrmCode i 1
/-- The source stopped, or the section is unloaded (R142, R167, R197). -/
def Dev.xfrmInputStopped (d : Dev) (i : Nat) : Dev := (d.xfrmEnd i 6).sectionEvent i 1

/-- The input whose samples a transform analyses. -/
def Dev.xfrmInput (d : Dev) (i : Nat) : Nat := let x := d.xfrm i; if x.input < 8 then x.input else (d.chan x.chan).input % 8

/-! ## User windows (R172) -/

/-- WIN_CMD = 1: ring, offset and length are those of the command. -/
def Dev.windowLoad (d : Dev) (i : Nat) : Dev :=
  let n := d.knob i 0x28
  if d.xfrmRunning i || (d.window i).load.isSome || decide (n < 64) || decide (65536 < n) || decide (2 ^ Nat.log2 n ≠ n) then d.xfrmCode i 1
  else
    let w : Window := { d.window i with load := some (d.clk, d.knob i 0x1C, d.knob i 0x20 + d.knob i 0x24 * 2 ^ 32, n) }
    ({ d with windows := d.windows.put i w }.setKnobBits i 4 3 1 1).xfrmCode i 0

/-- The copy completes (R172): the table enters force with its figures, or a bad word ends the load with WINDOW. -/
def Dev.windowLoadEnd (d : Dev) (i : Nat) : Dev :=
  match (d.window i).load with
  | none => d
  | some (t, ring, off, n) =>
    let d := d.advanceTo (t + 50000 + 4 * n)
    let words := (List.range n).map (fun k => leNat (d.ringBytes ring (off + 4 * k) 4))
    let d := (d.setKnobBits i 4 3 1 0).sectionEvent i 3
    if words.any (fun w => decide (131072 < w)) then ({ d with windows := d.windows.put i { d.window i with load := none } }).xfrmCode i 5
    else ({ d with windows := d.windows.put i ⟨words, none⟩ }.putFigures i words).xfrmCode i 0

/-- An accepted knob write of a transform. -/
def Dev.xfrmWrite (d : Dev) (i off v : Nat) : Dev :=
  match off with
  | 0 => if v = 1 then d.xfrmStart i else if v = 2 then d.xfrmStop i else d
  | 0x18 => if v = 1 then d.windowLoad i else d
  | _ => d.setKnob i off v
/-- A refused write (R197); a window load refused while RUNNING shows STATE (R172). -/
def Dev.xfrmRefused (d : Dev) (i off v : Nat) : Dev := (if off = 0x18 ∧ v = 1 ∧ d.xfrmRunning i then d.xfrmCode i 1 else d).sectionEvent i 2

/-! ## Frames (R169, R173–R177) -/

/-- Losses of a transform's source in its own units: samples of a converter, product indices of a channel; those in progress among them. -/
def Dev.sourceLost (d : Dev) (i : Nat) : List Loss :=
  let x := d.xfrm i
  if x.input < 8 then (d.input x.input).lost ++ d.openLosses x.input else ((d.noteOpen x.chan).chan x.chan).lost
/-- The cause that makes frame f invalid or kept it from leaving, 0 for a valid frame (R40, R177, R178): the first in the order of R26. -/
def Dev.frameCause (d : Dev) (i f : Nat) : Nat :=
  let x := d.xfrm i
  let cover (l : Loss) (a b : Nat) : Bool := decide (l.start < b ∧ a < l.start + l.count)
  let away := if d.secState i ≠ 2 ∧ d.frameFrom i (d.darkSince i) ≤ f then some (if d.secState i = 4 then 2 else 6)
    else (x.gone.find? (fun l => cover l f (f + 1))).map (·.cause)
  match away with
  | some c => c
  | none => ((d.sourceLost i).filter (fun l => cover l (x.frameAt f) (x.frameAt f + 2 ^ x.size))).foldl
      (fun c l => if c = 0 ∨ causeRank l.cause < causeRank c then l.cause else c) 0
/-- The bins, with their exponents, of frames f to f + n − 1 of a transform from the codes of their spans: those a converter delivered, or those the
channel's units are made of. None where the codes are not those of the spans. -/
def Dev.framesOf (d : Dev) (i f n : Nat) (l : List (BitVec 12)) : Option (List (List Cx × Nat)) :=
  let x := d.xfrm i
  let taps := d.taps i x.window x.size
  let m := (n - 1) * 2 ^ x.hop + 2 ^ x.size
  let slice {α : Type} (l : List α) (k : Nat) : List α := (l.drop (k * 2 ^ x.hop)).take (2 ^ x.size)
  if n = 0 then none
  else if x.input < 8 then
    if l.length = m then some ((List.range n).map (fun k => realFrame x.size taps (slice l k))) else none
  else match d.chanUnits x.chan (x.frameAt f) m l with
    | some us => some ((List.range n).map (fun k => complexFrame x.size (d.chanBits x.chan) taps (slice (us.map (·.1)) k)))
    | none => none
/-- The code of a linear power `num / den` of bin number `b` of frame f (R173, R174, R176). -/
def Dev.codeOf (d : Dev) (i f b num den : Nat) : Nat :=
  let x := d.xfrm i
  let complex := x.input == 8
  levelCode num den (fullScale complex (d.taps i x.window x.size)) (if complex then d.knobInt x.chan 0x6C else 0) (Config.logError i x.s0 f b)
/-- The codes of a frame's bins on output port 1 (R177). -/
def Dev.frameCodes (d : Dev) (i f : Nat) (s : Spectrum) : List Nat := s.words.zipIdx.map (fun p => d.codeOf i f p.2 (s.linear p.1) 1)
/-- The flags that the samples of frames f to f + n − 1 carry (R161, R191). -/
def Dev.frameFlags (d : Dev) (i f n : Nat) : Nat :=
  let x := d.xfrm i
  let a := x.frameAt f
  let b := x.frameAt (f + n - 1) + 2 ^ x.size
  if x.input < 8 then d.flagsOver x.input a b
  else
    let c := d.chan x.chan
    if c.input < 8 then d.flagsOver c.input (c.first a).toNat (c.first (b - 1) + c.spanOf (b - 1)).toNat else d.playFlags x.chan a (b - a)
/-- What stopped feeding a transform up to now enters the ledgers its frames are judged by (R40). -/
def Dev.judge (d : Dev) (i : Nat) : Dev :=
  let x := d.xfrm i
  if x.input < 8 ∨ d.secState x.chan = 2 then d
  else match d.runs.get? x.chan with
    | some u => d.noteLoss x.chan ⟨u.next, u.unitAt d.clk - u.next, if d.secState x.chan = 4 then 2 else 6⟩
    | none => d

/-! ## TRACE -/

/-- Whether the trace is RUNNING. -/
def Dev.traceRunning (d : Dev) (i : Nat) : Bool := (d.traces.get? i).isSome
/-- Its state. -/
def Dev.trace (d : Dev) (i : Nat) : Trace := d.traces.getD i ⟨0, 0, 1, 1, 0, 1, []⟩
/-- STATUS.CODE: 0 OK, 1 STATE, 2 POINTS, 3 BUDGET, 4 SOURCE, 5 ID, 6 SOURCE_STOPPED. -/
def Dev.traceCode (d : Dev) (i c : Nat) : Dev := d.setKnobBits i 4 8 8 c
/-- The XFRM a consumer's input port is bound to. -/
def Dev.boundXfrm (d : Dev) (i port : Nat) : Option Nat := match d.inPort i port with
  | some (p, _) => if p < 128 ∧ d.kind p = 2 then some p else none
  | none => none
/-- Bins per clock of a running transform, as a fraction. -/
def Xfrm.bins (x : Xfrm) : Nat × Nat := binRate x.size x.hop x.num x.den (x.input == 8)
/-- The lowest bin number of a transform (R175). -/
def Xfrm.lowest (x : Xfrm) : Int := if x.input = 8 then -(2 ^ x.size / 2 : Nat) else 0
/-- NEED of TRACE: MAC, rotator, memory, compare (R193). -/
def traceNeed (b : Nat × Nat) (det mode points : Nat) (minmax : Bool) : Nat × Nat × Nat × Nat :=
  let acc := det = 3 ∨ det = 4
  (if minmax ∨ ¬acc then 0 else if mode = 1 then ceilDiv b.1 (8 * b.2) else ceilDiv b.1 (16 * b.2), 1, 2 + 2 * ceilDiv points 16384,
   if minmax then ceilDiv b.1 (8 * b.2) else if acc then 0 else ceilDiv b.1 (16 * b.2))
/-- Pack TRACE's NEED or PLACED. -/
def packTrace (x : Nat × Nat × Nat × Nat) : Nat := min 255 x.1 + min 15 x.2.1 * 2 ^ 8 + min 15 x.2.2.1 * 2 ^ 12 + min 255 x.2.2.2 * 2 ^ 16

/-- START's checks (R183, R185–R187, R193); 0 passes. -/
def Dev.traceCheck (d : Dev) (i : Nat) : Nat :=
  match d.boundXfrm i 0 with
  | none => 4
  | some x =>
    if !(d.xfrmRunning x) then 4
    else if d.traces.cells.any (fun p => p.1 != i && d.knob p.1 8 == d.knob i 8) then 5
    else
      let f := d.xfrm x
      let all := binCount f.size (f.input == 8)
      let c := d.knob i 0x20
      let a := d.knobInt i 0x1C
      let out := d.knob i 0x24
      let mode := d.knobBits i 0x10 0 1
      let need := traceNeed f.bins (d.knob i 0xC) mode (d.knob i 0x18) (out.testBit 0)
      if (mode = 1 ∧ d.knob i 0xC ≤ 2) ∨ 16 < d.knobBits i 0x10 8 5 ∨ (c ≠ 0 ∧ (a < f.lowest ∨ f.lowest + all < a + c)) ∨ out = 3 ∨
          (out = 2 ∧ d.knob i 0x18 ≠ (if c = 0 then all else c)) then 2
      else if d.placed i 0 < need.1 ∨ d.placed i 2 < need.2.1 ∨ d.placed i 3 < need.2.2.1 ∨ d.placed i 4 < need.2.2.2 then 3
      else 0

/-- A TRACE context record (R192) bound to trace t. -/
def Dev.traceContext (d : Dev) (i reason t : Nat) (cross : Option (Nat × Nat)) : Rec :=
  let r := d.trace i
  let x := d.xfrm r.xfrm
  let f := r.f0 + t * r.frames
  let first := x.frameAt f
  d.withAxisOf i {
    type := 0x0C, source := x.source, flags := d.inputFlags (d.xfrmInput r.xfrm), epoch := (d.xfrmTime r.xfrm (2 * first)).2, trig := 0, start := t * r.points, count := 0,
    time := stamp96 (d.xfrmTime r.xfrm (2 * first)).1, axisId := 0, axis := 0, scale := 0,
    payload := leBytes 4 (reason + if cross.isSome then 16 else 0) ++ leBytes 2 (d.knob i 8) ++ leBytes 2 0 ++ leBytes 8 (t * r.points) ++
      leBytes 8 first ++ leBytes 8 f ++ leBytes 4 r.points ++ leBytes 4 r.frames ++ leBytes 4 (2 ^ x.hop) ++ leBytes 4 (2 ^ x.size) ++
      leBytes 12 ((cross.map (·.1)).getD 0) ++ leBytes 2 ((cross.map (·.2)).getD 0) ++ leBytes 2 0 }

/-- Bytes of one trace's record (R188). -/
def traceBytes (points out : Nat) : Nat := roundUp (96 + (if out = 1 then 4 else 2) * points) 8

/-- What composition fixed: PLACED (R196). -/
def Dev.traceComposed (d : Dev) (i : Nat) : Dev := d.setKnob i 0x3C (packTrace (d.placed i 0, d.placed i 2, d.placed i 3, d.placed i 4))
/-- NEED of the settings in force (R193). -/
def Dev.traceNeeds (d : Dev) (i x : Nat) : Dev :=
  d.setKnob i 0x38 (packTrace (traceNeed (d.xfrm x).bins (d.knob i 0xC) (d.knobBits i 0x10 0 1) (d.knob i 0x18) ((d.knob i 0x24).testBit 0)))
/-- The run of a RUNNING trace begins with frame f0, the first that leaves its XFRM (R183). -/
def Dev.traceBegin (d : Dev) (i f0 : Nat) : Dev :=
  let t := d.trace i
  let f := d.xfrm t.xfrm
  let d := { d with traces := d.traces.put i { t with f0 := f0 } }
  let u : Run := {
    kind := .trace, source := f.source, tag := 0x8000 + d.knob i 8, input := d.xfrmInput t.xfrm, ring := none, next := 0, gap := none, held := [], losses := [],
    ctxWait := none, ctxLast := none, reserve := 256, taken := false, base := 0, baseClk := d.clk + 1, rateNum := f.num,
    rateDen := f.den * t.frames * 2 ^ f.hop, per := t.points }
  let d := { d with runs := d.runs.put i u }
  d.startRun i (d.sectionRing i) u (d.traceContext i 1 0 none)
/-- The trace that the knobs name on an XFRM; its first frame is not known yet. -/
def Dev.traceOf (d : Dev) (i x : Nat) : Trace :=
  let f := d.xfrm x
  let c := d.knob i 0x20
  { xfrm := x, f0 := 0, frames := d.knob i 0x14, points := d.knob i 0x18, first := if c = 0 then f.lowest else d.knobInt i 0x1C,
    count := if c = 0 then binCount f.size (f.input == 8) else c, y := [] }
/-- What START clears and reports (R188, R194, R196). -/
def Dev.traceReport (d : Dev) (i : Nat) : Dev :=
  let t := d.trace i
  let f := d.xfrm t.xfrm
  let d := (((d.setWideKnob i 0x28 0).setKnob i 0x30 0).setKnob i 0x34 0).traceComposed i
  let d := d.setKnob i 0x40 (12 + ceilDiv t.points 16 + d.routeClocks i)
  let d := d.setKnob i 0x44 (f.num * 1000000 * traceBytes t.points (d.knob i 0x24) / (f.den * 2 ^ f.hop * t.frames))
  (d.setKnobBits i 4 0 1 1).traceCode i 0
/-- CMD START (R183). NEED is reported whenever it was compared. A run on a dark XFRM begins when that leaves dark, since no frame leaves it before
(R178). -/
def Dev.traceStart (d : Dev) (i : Nat) : Dev :=
  if d.traceRunning i then d.traceCode i 1
  else
    let code := d.traceCheck i
    match d.boundXfrm i 0 with
    | none => d.traceCode i 4
    | some x =>
      let d := if code = 0 ∨ code = 3 then d.traceNeeds i x else d
      if code ≠ 0 then d.traceCode i code
      else
        let d := ({ d with traces := d.traces.put i (d.traceOf i x) } : Dev).traceReport i
        if d.secState x = 2 then d.traceBegin i (d.frameNow x) else d

/-- The trace stops with a code: the run ends at its last complete trace. -/
def Dev.traceEnd (d : Dev) (i code : Nat) : Dev := ({ d.endRun i with traces := d.traces.erase i }.setKnobBits i 4 0 1 0).traceCode i code
/-- CMD STOP. -/
def Dev.traceStop (d : Dev) (i : Nat) : Dev := if d.traceRunning i then d.traceEnd i 0 else d.traceCode i 1
/-- The XFRM run ended, or the section is unloaded (R142, R183, R197). -/
def Dev.traceSourceStopped (d : Dev) (i : Nat) : Dev := (d.traceEnd i 6).sectionEvent i 1

/-- An XFRM section leaves dark (R160, R167, R178): the knob values now in force are checked again, and end the run where they fail. The grid holds for the
whole run (R169): size, hop and input stay those of START, the window is the one now in force. Frames before the first whose span lies wholly after
this clock never leave; traces that waited for a frame begin with that one. -/
def Dev.xfrmResume (d : Dev) (i : Nat) : Dev :=
  match d.xfrms.get? i with
  | none => d
  | some x =>
    let code := d.xfrmCheck i
    if code ≠ 0 then d.xfrmEnd i code
    else
      let k : Int := if x.input < 8 then d.nextIdx x.input else (match d.chans.get? x.chan with
        | some c => if c.input < 8 then c.j0 + ((d.nextIdx c.input : Int) - c.s0 + c.dec - 1) / c.dec else d.unitFrom x.chan d.clk
        | none => x.s0)
      let f := ((k - x.s0 + (2 ^ x.hop : Nat) - 1) / (2 ^ x.hop : Nat)).toNat
      let d := (d.framesGone i 6 f).xfrmReport i
      let d := { d with xfrms := d.xfrms.put i { d.xfrm i with window := d.knob i 0x14 } }
      d.traces.cells.foldl (fun d p => if p.2.xfrm = i ∧ (d.runs.get? p.1).isNone then d.traceBegin p.1 f else d) d

/-! ## Detectors (R184–R187) -/

/-- A used frame: its number, the codes and the linear powers of its bins. -/
structure UsedFrame where
  frame : Nat
  codes : List Nat
  powers : List Nat
deriving DecidableEq, Repr
/-- The frames of the interval from frame f on that enter its trace: those that left and are valid. -/
def Dev.usedFrames (d : Dev) (x f n : Nat) (l : List (BitVec 12)) : Option (List UsedFrame) :=
  (d.framesOf x f n l).map (fun all => (all.zipIdx.filter (fun p => d.frameCause x (f + p.2) == 0)).map (fun p =>
    let s := spectrumOf p.1
    ⟨f + p.2, d.frameCodes x (f + p.2) s, s.words.map s.linear⟩))

/-- The averages of a point over the frames of its interval (R184, R185): AVERAGE of codes, RMS of linear powers; block mode from the frames alone,
exponential mode on from `y`. -/
def Dev.pointMean (d : Dev) (i : Nat) (frames : List UsedFrame) (y : Option (Nat × Nat)) (p : Nat) : Option (Nat × Nat) :=
  let t := d.trace i
  let skip := (t.first - (d.xfrm t.xfrm).lowest).toNat
  let b := pointBins t.points t.count p
  let rms := d.knob i 0xC == 4
  let of_ (f : UsedFrame) := gather (if rms then f.powers else f.codes) skip b
  if d.knobBits i 0x10 0 1 = 1 then expRun (d.knobBits i 0x10 8 5) y (frames.map (fun f => meanOf (of_ f)))
  else some (meanOf (frames.flatMap of_))

/-- The payload of one trace (R189). -/
def Dev.tracePayload (d : Dev) (i : Nat) (frames : List UsedFrame) (ys : List (Nat × Nat)) : List Byte :=
  let t := d.trace i
  let x := d.xfrm t.xfrm
  let codes := frames.map (·.codes)
  let skip := (t.first - x.lowest).toNat
  let out := d.knob i 0x24
  let det := d.knob i 0xC
  let mode := d.knobBits i 0x10 0 1
  let last := match frames.getLast? with | some f => f.frame | none => 0
  let head := leBytes 1 (if out = 1 then 255 else det) ++ leBytes 1 mode ++ leBytes 1 (d.knobBits i 0x10 8 5) ++
    leBytes 1 ((if x.input = 8 then 1 else 0) + (if x.num = 32 ∧ x.input < 8 then 2 else 0) + (if frames.length < t.frames then 4 else 0) + 8) ++
    leBytes 4 t.points ++ leBytes 4 (unsigned 32 t.first) ++ leBytes 4 t.count ++ leBytes 4 frames.length ++ leBytes 2 (d.knob i 8) ++
    leBytes 1 x.size ++ leBytes 1 x.hop ++ leBytes 1 x.window ++ leBytes 3 0 ++ leBytes 4 t.frames
  head ++ (List.range t.points).flatMap (fun p =>
    let b := pointBins t.points t.count p
    let y := ys.getD p (0, 1)
    if out = 1 then leBytes 2 (detect 1 codes skip b) ++ leBytes 2 (detect 0 codes skip b)
    else leBytes 2 (if det = 4 then d.codeOf t.xfrm last (65536 + p) y.1 y.2 else if det = 3 then roundEven y.1 y.2 else detect det codes skip b))

/-- The first applicable cause in the order of R26 among the frames of an interval (R190). -/
def Dev.firstCause (d : Dev) (x f n : Nat) : Nat :=
  (List.range n).foldl (fun b k => let c := d.frameCause x (f + k); if c ≠ 0 ∧ (b = 0 ∨ causeRank c < causeRank b) then c else b) 0

/-- The interval of trace `n` ends, the next of the run (R183–R191); `codes` are those of the spans of its frames. A trace without a used frame is a
gap. -/
def Dev.traceComplete (d : Dev) (i n : Nat) (codes : List (BitVec 12)) : Dev :=
  if !(d.activeKind i 3 && d.traceRunning i) then d
  else
    let t := d.trace i
    let d := d.judge t.xfrm
    match d.runs.get? i with
    | none => d
    | some u =>
      let f := t.f0 + n * t.frames
      if u.next ≠ n * t.points then d
      else if (List.range t.frames).all (fun k => d.frameCause t.xfrm (f + k) != 0) then
        ((d.lose i t.points (d.firstCause t.xfrm f t.frames)).incKnob i 0x30).sectionEvent i 0
      else match d.usedFrames t.xfrm f t.frames codes with
        | none => d
        | some frames =>
          let x := d.xfrm t.xfrm
          let out := d.knob i 0x24
          let ys := (List.range t.points).map (fun p => (d.pointMean i frames (t.y[p]?) p).getD (0, 1))
          let at_ := d.xfrmTime t.xfrm (2 * x.frameAt f + if out = 2 then 2 ^ x.size - 1 else 0)
          let payload := d.tracePayload i frames ys
          let r : Rec := {
            type := if out = 1 then 7 else if out = 2 then 3 else 4, source := x.source, flags := frames.foldl (fun g y => g ||| d.frameFlags t.xfrm y.frame 1) 0,
            epoch := at_.2, trig := 0, start := u.next, count := t.points, time := stamp96 at_.1, axisId := 0, axis := 0, scale := 0,
            payload := payload ++ List.replicate (roundUp payload.length 8 - payload.length) 0 }
          let d := if d.knobBits i 0x10 0 1 = 1 then { d with traces := d.traces.put i { t with y := ys } } else d
          let d := (d.publishData i (d.withAxisOf i r) false).setWideKnob i 0x28 (d.wideKnob i 0x28 + 1)
          if frames.length < t.frames then d.incKnob i 0x34 else d

/-- The cause of a lost interval of frames f to f + n − 1 (R26): `own`, or what makes all of its frames invalid where that comes first. -/
def Dev.ownCause (d : Dev) (x f n own : Nat) : Nat :=
  if (List.range n).all (fun k => d.frameCause x (f + k) != 0) && decide (causeRank (d.firstCause x f n) < causeRank own) then d.firstCause x f n else own
/-- Whole traces up to a unit are lost while TRACE itself was dark or shed: they count in LOST (R191, R196). -/
def Dev.traceDark (d : Dev) (i stop cause : Nat) : Dev :=
  match d.runs.get? i with
  | none => d
  | some u =>
    let t := d.trace i
    let n := (stop - u.next) / max 1 t.points
    let d := (List.range n).foldl (fun d k =>
      d.lose i t.points (d.ownCause t.xfrm (t.f0 + (u.next / max 1 t.points + k) * t.frames) t.frames cause)) (d.judge t.xfrm)
    d.incKnob i 0x30 n
/-- The section leaves dark (R191): traces that began before are lost, exponential averaging starts anew, and a context record binds the next. -/
def Dev.traceResume (d : Dev) (i : Nat) : Dev :=
  match d.traces.get? i, d.runs.get? i with
  | some t, some u =>
    let d := { d with traces := d.traces.put i { t with y := [] } }
    let k := max (u.next / t.points) (((d.frameNow t.xfrm - t.f0) + t.frames - 1) / t.frames)
    let d := (d.traceDark i (k * t.points) 6).closeGap i
    d.publishContext i (d.traceContext i 2 k none)
  | _, _ => d

/-- An accepted knob write of a trace. -/
def Dev.traceWrite (d : Dev) (i off v : Nat) : Dev :=
  match off with
  | 0 => if v = 1 then d.traceStart i else if v = 2 then d.traceStop i else d
  | _ => d.setKnob i off v

/-! ## Meanings -/

/-- The window copy of section i completes (R172). -/
def execWindowLoadEnd (i : Fin 128) (s : State) := lift (fun d => if d.activeKind i 2 then d.windowLoadEnd i else d) s
/-- A trace interval of section i ends, its frames made of these codes (R190). -/
def execTraceComplete (i : Fin 128) (t : Nat) (codes : List (BitVec 12)) (s : State) := lift (fun d => d.traceComplete i t codes) s

end Sys2Proof.Machine
end

