-- ==== Sys2Proof/Machine/Density.lean ====
section
/-! DEFINITION. The standard section DENS (R418–R430, spec/16_display.md): density displays. -/
namespace Sys2Proof.Machine

/-- The knob map of DENS (R429). -/
def densKnobs : List KnobRow :=
  [kn 0 "" 0 2, kw 4 "r", kn 8 "a" 0 7, kn 0xC "a" 0 1023, kn 0x10 "ai" (-32768) 65535, kn 0x14 "a" 0 65536, kn 0x18 "a" 1 16777216, kn 0x1C "s" 0 65535,
   kn 0x20 "s" 1 128, kn 0x24 "s" 0 24, kw 0x28 "s", kn 0x2C "s" 0 65535] ++
  ([0x30, 0x34, 0x38, 0x3C, 0x40, 0x44, 0x48, 0x4C] : List Nat).map (fun o => kw o "r")
/-- The row of a DENS knob, the palette among them. -/
def densKnob (off : Nat) : Option KnobRow :=
  if 0x1000 ≤ off ∧ off < 0x1400 ∧ off % 4 = 0 then some (kw off "s") else densKnobs.find? (fun k => k.off == off)
/-- Reset values of DENS knobs. -/
def densReset (i off : Nat) : Nat :=
  if 0x1000 ≤ off ∧ off < 0x1400 then 0x8080
  else match off with
    | 8 => i % 8 | 0x18 => 1041667 | 0x1C => 25600 | 0x20 => 50 | 0x24 => 4 | 0x28 => 0x800 | 0x2C => 900 | _ => 0

/-- Whether the display is RUNNING. -/
def Dev.densRunning (d : Dev) (i : Nat) : Bool := (d.denses.get? i).isSome
/-- Its state. -/
def Dev.dens (d : Dev) (i : Nat) : Dens := d.denses.getD i ⟨0, 0, 1, 0, 1, [], none, Tab.empty⟩
/-- Change it. -/
def Dev.setDens (d : Dev) (i : Nat) (f : Dens → Dens) : Dev := { d with denses := d.denses.put i (f (d.dens i)) }
/-- STATUS.CODE: 0 OK, 1 STATE, 2 POINTS, 3 BUDGET, 4 SOURCE, 5 ID, 6 RATE, 7 SOURCE_STOPPED. -/
def Dev.densCode (d : Dev) (i c : Nat) : Dev := d.setKnobBits i 4 8 8 c

/-- Compare sorts needed (R427). -/
def Xfrm.densCompare (x : Xfrm) : Nat := ceilDiv x.bins.1 (16 * x.bins.2)
/-- NEED and PLACED of DENS: MAC, rotator, memory, compare. -/
def packDens (mac rot mem cmp : Nat) : Nat := min 255 mac + min 15 rot * 2 ^ 8 + min 255 mem * 2 ^ 12 + min 255 cmp * 2 ^ 20

/-- START's checks (R418, R427); 0 passes. -/
def Dev.densCheck (d : Dev) (i : Nat) : Nat :=
  match d.boundXfrm i 0 with
  | none => 4
  | some x =>
    if !(d.xfrmRunning x) then 4
    else if d.denses.cells.any (fun p => p.1 != i && d.knob p.1 8 == d.knob i 8) then 5
    else
      let f := d.xfrm x
      let all := binCount f.size (f.input == 8)
      let c := d.knob i 0x14
      let a := d.knobInt i 0x10
      if c ≠ 0 ∧ (a < f.lowest ∨ f.lowest + all < a + c) then 2
      else if d.placed i 0 < 2 ∨ d.placed i 2 < 1 ∨ d.placed i 3 < 25 ∨ d.placed i 4 < f.densCompare then 3
      else if f.den * 2 ^ f.hop < 16 * f.num ∨ d.knob i 0x18 * 2 ^ f.hop * f.den < 8448 * f.num then 6
      else 0

/-- A DENS context record (R424) bound to frame `f`. -/
def Dev.densContext (d : Dev) (i reason f : Nat) (cross : Option (Nat × Nat)) : Rec :=
  let r := d.dens i
  let x := d.xfrm r.xfrm
  let g := r.f0 + f * r.frames
  let first := x.frameAt g
  d.withAxisOf i {
    type := 0x0C, source := 0x50 + d.knob i 8, flags := d.inputFlags (d.xfrmInput r.xfrm), epoch := (d.xfrmTime r.xfrm (2 * first)).2, trig := 0, start := f, count := 0,
    time := stamp96 (d.xfrmTime r.xfrm (2 * first)).1, axisId := 0, axis := 0, scale := 0,
    payload := leBytes 4 (reason + if cross.isSome then 16 else 0) ++ leBytes 2 (d.knob i 8) ++ leBytes 2 0 ++ leBytes 8 f ++
      leBytes 8 first ++ leBytes 8 g ++ leBytes 4 1 ++ leBytes 4 r.frames ++ leBytes 4 (2 ^ x.hop) ++ leBytes 4 (2 ^ x.size) ++
      leBytes 12 ((cross.map (·.1)).getD 0) ++ leBytes 2 ((cross.map (·.2)).getD 0) ++ leBytes 2 0 }

/-- What composition fixed: PLACED (R429). -/
def Dev.densComposed (d : Dev) (i : Nat) : Dev := d.setKnob i 0x44 (packDens (d.placed i 0) (d.placed i 2) (d.placed i 3) (d.placed i 4))
/-- NEED of the settings in force (R427). -/
def Dev.densNeeds (d : Dev) (i x : Nat) : Dev := d.setKnob i 0x40 (packDens 2 1 25 (d.xfrm x).densCompare)
/-- The display that the knobs name on an XFRM; its first frame is not known yet. -/
def Dev.densOf (d : Dev) (i x : Nat) : Dens :=
  let f := d.xfrm x
  let c := d.knob i 0x14
  { xfrm := x, f0 := 0, frames := d.knob i 0x18, first := if c = 0 then f.lowest else d.knobInt i 0x10,
    count := if c = 0 then binCount f.size (f.input == 8) else c, levels := [(0, d.knob i 0x1C, d.knob i 0x20)], closing := none, persist := Tab.empty }
/-- What START clears and reports (R428, R429). -/
def Dev.densReport (d : Dev) (i : Nat) : Dev :=
  let r := d.dens i
  let f := d.xfrm r.xfrm
  let per := f.den * 2 ^ f.hop * r.frames
  let d := (((d.setWideKnob i 0x30 0).setKnob i 0x38 0).setKnob i 0x3C 0).densComposed i
  let d := (d.setKnob i 0x48 (8256 + d.routeClocks i)).setKnob i 0x4C ((2 * (f.num * 1000000 * 786560) + per) / (2 * per))
  (d.setKnobBits i 4 0 1 1).densCode i 0
/-- The run of a RUNNING display begins with XFRM frame f0, the first delivered (R421). -/
def Dev.densBegin (d : Dev) (i f0 : Nat) : Dev :=
  let d := d.setDens i (fun r => { r with f0 := f0 })
  let r := d.dens i
  let f := d.xfrm r.xfrm
  let u : Run := {
    kind := .dens, source := 0x50 + d.knob i 8, tag := 0, input := d.xfrmInput r.xfrm, ring := none, next := 0, gap := none, held := [], losses := [],
    ctxWait := none, ctxLast := none, reserve := 256, taken := false, base := 0, baseClk := d.clk + 1, rateNum := f.num,
    rateDen := f.den * 2 ^ f.hop * r.frames, per := 1 }
  let d := { d with runs := d.runs.put i u }
  d.startRun i (d.knob i 0xC) u (d.densContext i 1 0 none)
/-- CMD START (R418, R426). NEED is reported whenever it was compared. A run on a dark XFRM begins when that leaves dark (R178). -/
def Dev.densStart (d : Dev) (i : Nat) : Dev :=
  if d.densRunning i then d.densCode i 1
  else
    let code := d.densCheck i
    match d.boundXfrm i 0 with
    | none => d.densCode i 4
    | some x =>
      let d := if code = 0 ∨ code = 3 ∨ code = 6 then d.densNeeds i x else d
      if code ≠ 0 then d.densCode i code
      else
        let d := ({ d with denses := d.denses.put i (d.densOf i x) } : Dev).densReport i
        if d.secState x = 2 then d.densBegin i (d.frameNow x) else d

/-- The display stops with a code: the run ends at its last written frame. -/
def Dev.densEnd (d : Dev) (i code : Nat) : Dev := ({ d.endRun i with denses := d.denses.erase i }.setKnobBits i 4 0 1 0).densCode i code
/-- CMD STOP. -/
def Dev.densStop (d : Dev) (i : Nat) : Dev := if d.densRunning i then d.densEnd i 0 else d.densCode i 1
/-- The XFRM run ended, or the section is unloaded (R142, R418, R430). -/
def Dev.densSourceStopped (d : Dev) (i : Nat) : Dev := (d.densEnd i 7).sectionEvent i 1

/-! ## Accumulation and rendering (R419–R423) -/

/-- The row of a code. -/
def densRow (bottom step code : Nat) : Nat := (clampInt 0 511 (((code : Int) - bottom) / (max 1 step : Nat))).toNat
/-- The code of column x: the largest among its bins, or its single bin (R419). -/
def densColumn (codes : List Nat) (skip count x : Nat) : Nat := (gather codes skip (pointBins 1024 count x)).foldl max 0
/-- The row settings in force for an XFRM frame. -/
def Dens.level (r : Dens) (index : Nat) : Nat × Nat := match r.levels.find? (fun l => decide (l.1 ≤ index)) with
  | some l => l.2
  | none => (0, 1)
/-- Where column x and row y stand in a set of eight memory sorts (R420): sort, local word and half as one number. -/
def densKey (x y : Nat) : Nat := ((x % 64 / 8) * 32768 + (y / 2 * 128 + x / 64 * 8 + x % 8)) * 2 + y % 2
/-- The increments of a spectrum on output port 0 (R419, R423): column and row, in the order in which the columns are issued. -/
def Dens.increments (r : Dens) (skip index : Nat) (codes : List Nat) : List (Nat × Nat) :=
  let l := r.level index
  (List.range 1024).map (fun x => (x, densRow l.1 l.2 (densColumn codes skip r.count x)))
/-- Each increment adds 1 to its bin by ADD_LO or ADD_HI (R359, R420). -/
def densAdd (h : Tab Nat) (l : List (Nat × Nat)) : Tab Nat := l.foldl (fun (h : Tab Nat) p => h.put (densKey p.1 p.2) (addSat (h.getD (densKey p.1 p.2) 0) 1)) h
/-- The increments of a closed frame that fall in a rectangle (R230, R423): columns and rows from the first to the last. -/
def densSum (h : Tab Nat) (x0 x1 y0 y1 : Nat) : Nat :=
  (List.range (x1 + 1 - x0)).foldl (fun n i => (List.range (y1 + 1 - y0)).foldl (fun n j => n + h.getD (densKey (x0 + i) (y0 + j)) 0) n) 0

/-- The persistence words after a render pass (R421): P and age of every bin whose P is not 0. The age of a bin whose P is 0 shows nowhere. -/
def densPersist (old : Tab (Nat × Nat)) (hist : Tab Nat) (decay : Nat) : Tab (Nat × Nat) :=
  let aged := (old.cells.foldl (fun (t : Tab (Nat × Nat)) p =>
    let c := hist.getD p.1 0
    let v := min (2 ^ 24 - 1) (p.2.1 - p.2.1 / 2 ^ decay + c)
    if v = 0 then t else t.put p.1 (v, if 0 < c then 0 else min 255 (p.2.2 + 1))) Tab.empty)
  hist.cells.foldl (fun (t : Tab (Nat × Nat)) p => if (old.get? p.1).isSome || p.2 == 0 then t else t.put p.1 (min (2 ^ 24 - 1) p.2, 0)) aged
/-- Luma of a persistence value (R422). -/
def densLuma (gain p : Nat) : Nat := if p = 0 then 0 else (clampInt 1 255 (1 + dbRound 2560 p 1 * gain / 65536)).toNat
/-- The coordinate u of a bin whose P is not 0. -/
def densCoord (chroma gain : Nat) (p : Nat × Nat) : Nat := if chroma.testBit 0 then densLuma gain p.1 else 255 - min 255 (p.2 * bits chroma 8 8)
/-- The luma plane: image row r shows histogram row 511 − r. -/
def lumaPlane (t : Tab (Nat × Nat)) (gain : Nat) : List Byte :=
  (List.range 512).flatMap (fun r => (List.range 1024).map (fun x => BitVec.ofNat 8 (densLuma gain (t.getD (densKey x (511 - r)) (0, 0)).1)))
/-- The chroma plane: the palette at the largest u of each 2 × 2 block. -/
def chromaPlane (t : Tab (Nat × Nat)) (chroma gain : Nat) (palette : List Nat) : List Byte :=
  (List.range 256).flatMap (fun r => (List.range 512).flatMap (fun x =>
    let at_ (dx dy : Nat) := t.get? (densKey (2 * x + dx) (511 - (2 * r + dy)))
    let us := ([at_ 0 0, at_ 1 0, at_ 0 1, at_ 1 1].filterMap id).map (densCoord chroma gain)
    match us with
    | [] => [128, 128]
    | a :: l => let e := palette.getD (l.foldl max a) 0x8080; [BitVec.ofNat 8 (bits e 8 8), BitVec.ofNat 8 (bits e 0 8)]))

/-- The render pass of the closed frame ends (R421, R425, R426): the density frame record, or a gap, is written. -/
def Dev.renderEnd (d : Dev) (i : Nat) : Dev :=
  match (d.denses.get? i).bind (fun r => r.closing), d.runs.get? i with
  | some c, some _ =>
    let d := d.advanceTo (c.clk + 8192)
    let r := d.dens i
    let p := densPersist r.persist c.hist c.decay
    let d := d.setDens i (fun r => { r with closing := none, persist := p })
    if c.used = 0 then ((d.lose i 1 (if c.cause = 0 then 6 else c.cause)).incKnob i 0x38).sectionEvent i 0
    else
      let x := d.xfrm r.xfrm
      let g := r.f0 + c.frame * r.frames
      let flags := (if c.used < r.frames then 1 else 0) + (if x.num = 32 ∧ x.input < 8 then 2 else 0) + (if x.input = 8 then 4 else 0)
      let at_ := d.xfrmTime r.xfrm (2 * x.frameAt g)
      let rec_ : Rec := {
        type := 5, source := 0x50 + d.knob i 8, flags := c.flags, epoch := at_.2, trig := 0, start := c.frame, count := 1,
        time := stamp96 at_.1, axisId := 0, axis := 0, scale := 0,
        payload := leBytes 1 (d.knob i 8) ++ leBytes 1 flags ++ leBytes 1 (c.chroma % 2) ++ leBytes 1 c.decay ++ leBytes 4 c.used ++ leBytes 4 r.frames ++
          leBytes 4 (unsigned 32 r.first) ++ leBytes 4 r.count ++ leBytes 2 c.bottom ++ leBytes 2 c.step ++ leBytes 8 g ++
          leBytes 4 (c.hist.cells.foldl (fun m q => max m q.2) 0) ++ leBytes 4 c.gain ++ List.replicate 24 0 ++ lumaPlane p c.gain ++ chromaPlane p c.chroma c.gain c.palette }
      let d := d.publishData i (d.withAxisOf i rec_) false
      let d := d.setWideKnob i 0x30 (d.wideKnob i 0x30 + 1)
      if c.used < r.frames then d.incKnob i 0x3C else d
  | _, _ => d

/-- A frame closes, its spectra made of these codes (R419–R421): the sets swap, a render pass begins with the settings of now. -/
def Dev.densFrame (d : Dev) (i : Nat) (codes : List (BitVec 12)) : Dev :=
  if !(d.activeKind i 6 && d.densRunning i) then d
  else
    let d := (d.renderEnd i).judge (d.dens i).xfrm
    match d.runs.get? i with
    | none => d
    | some u =>
      let r := d.dens i
      let g := r.f0 + u.next * r.frames
      let none_ := (List.range r.frames).all (fun k => d.frameCause r.xfrm (g + k) != 0)
      match (if none_ then some [] else d.usedFrames r.xfrm g r.frames codes) with
      | none => d
      | some good =>
        let skip := (r.first - (d.xfrm r.xfrm).lowest).toNat
        let last := r.level (g + (r.frames - 1))
        let c : DensFrame := {
          hist := good.foldl (fun h f => densAdd h (r.increments skip f.frame f.codes)) Tab.empty, used := good.length,
          flags := good.foldl (fun w f => w ||| d.frameFlags r.xfrm f.frame 1) 0, frame := u.next, clk := d.clk, decay := d.knob i 0x24,
          chroma := d.knob i 0x28, gain := d.knob i 0x2C, palette := (List.range 256).map (fun k => d.knob i (0x1000 + 4 * k)),
          cause := d.firstCause r.xfrm g r.frames, bottom := last.1, step := last.2 }
        d.setDens i (fun r => { r with closing := some c })

/-- A change of a setting writes a context record naming the first frame affected (R424). -/
def Dev.densChanged (d : Dev) (i g : Nat) (cross : Option (Nat × Nat)) : Dev :=
  let r := d.dens i
  d.publishContext i (d.densContext i 4 ((g - r.f0) / max 1 r.frames) cross)
/-- An accepted knob write of a display, at the `n`-th boundary. -/
def Dev.densWrite (d : Dev) (i off v : Nat) (cross : Option (Nat × Nat)) (n : Nat) : Dev :=
  if off = 0 then (if v = 1 then d.densStart i else if v = 2 then d.densStop i else d)
  else
    let d := d.setKnob i off v
    if !(d.densRunning i) then d
    else
      let g := d.frameFrom (d.dens i).xfrm (d.clk + n - 1)
      if off = 0x1C ∨ off = 0x20 then
        (d.setDens i (fun r => { r with levels := (g + 1, d.knob i 0x1C, d.knob i 0x20) :: r.levels })).densChanged i (g + 1) cross
      else d.densChanged i g cross

/-- Frames up to a number are lost while DENS itself was dark or shed: they count in LOST (R426). -/
def Dev.densDark (d : Dev) (i stop cause : Nat) : Dev :=
  match d.runs.get? i with
  | none => d
  | some u =>
    let t := d.dens i
    let d := (List.range (stop - u.next)).foldl (fun d k => d.lose i 1 (d.ownCause t.xfrm (t.f0 + (u.next + k) * t.frames) t.frames cause)) (d.judge t.xfrm)
    d.incKnob i 0x38 (stop - u.next)
/-- The section leaves dark (R426): the sets are clear, and the first frame is the first whose interval begins after this point. -/
def Dev.densResume (d : Dev) (i : Nat) : Dev :=
  match d.denses.get? i, d.runs.get? i with
  | some t, some u =>
    let k := max u.next (((d.frameNow t.xfrm - t.f0) + t.frames - 1) / t.frames)
    let d := (d.setDens i (fun r => { r with closing := none, persist := Tab.empty }))
    let d := (d.densDark i k 6).closeGap i
    d.publishContext i (d.densContext i 2 k none)
  | _, _ => d

/-! ## Meanings -/

/-- The spectra of a density frame of section i are complete, made of these codes (R421). -/
def execDensFrameEnd (i : Fin 128) (codes : List (BitVec 12)) (s : State) := lift (fun d => d.densFrame i codes) s
/-- The render pass of section i ends (R421). -/
def execRenderPassEnd (i : Fin 128) (s : State) := lift (fun d => if d.activeKind i 6 then d.renderEnd i else d) s

end Sys2Proof.Machine
end

