-- ==== Sys2Proof/Machine/Triggers.lean ====
section
/-! DEFINITION. TRIG and RAWC (R224–R259, spec/09_triggers.md): arming, slot events and combinations, decisions, pending captures and their
resolution, frequency masks, continuous and triggered capture. -/
namespace Sys2Proof.Machine

/-! ## Knob maps (R256, R257) -/

/-- The knob map of TRIG. -/
def trigKnobs : List KnobRow :=
  [kn 0 "s" 0 3, kw 4 "r", kn 8 "a" 0 63, kw 0xC "a", kw 0x10 "a", kw 0x14 "a", kw 0x18 "a", kw 0x1C "a", kn 0x20 "a" 1 4294967295, kw 0x24 "a",
   kn 0x28 "a" 1 65535, kn 0x2C "s" 0 3, kn 0x30 "si" (-51200) 0, kn 0x34 "si" (-51200) 0, kn 0x38 "a" 0 1, kn 0x3C "a" 0 1023, kw 0x40 "a", kw 0x44 "a",
   kn 0x48 "a" 0 7, kn 0x4C "a" 1 65536, kw 0x50 "a", kw 0x54 "a", kn 0x58 "a" 1 4294967295, kw 0x5C "a", kw 0x60 "a", kw 0x64 "a", kn 0x68 "a" 0 1000000,
   kn 0x6C "a" 0 1, kw 0x70 "a", kw 0x74 "a", kn 0x78 "a" 0 1, kw 0x7C "a", kw 0x80 "a"] ++
  ([0x84, 0x88, 0x8C, 0x90, 0x94, 0x98, 0x9C, 0xA0, 0xA4, 0xA8, 0xAC] : List Nat).map (fun o => kw o "r")
/-- Reset values of TRIG knobs. -/
def trigReset (i off : Nat) : Nat := match off with
  | 8 => i % 64 | 0x1C => 0x10 | 0x20 => 1000 | 0x28 => 1 | 0x48 => 1 | 0x4C => 1 | 0x50 => 0x03FF0000 | 0x54 => 0x01FF0000 | 0x58 => 1
  | 0x60 => 1000000 | 0x78 => 1 | _ => 0
/-- The knob map of RAWC. -/
def rawcKnobs : List KnobRow :=
  [kn 0 "s" 0 2, kw 4 "r", kn 8 "a" 0 1, kn 0xC "a" 0 9, kn 0x10 "a" 0 1023, kn 0x14 "a" 10 20, kw 0x18 "a", kw 0x1C "a", kw 0x20 "a", kw 0x24 "a",
   kw 0x28 "a", kn 0x2C "a" 0 1048576] ++
  ([0x30, 0x34, 0x38, 0x3C, 0x40, 0x44, 0x48, 0x4C, 0x50] : List Nat).map (fun o => kw o "r")
/-- Reset values of RAWC knobs. -/
def rawcReset (off : Nat) : Nat := match off with
  | 0x14 => 16 | 0x20 => 65536 | _ => 0

/-! ## Units -/

/-- The trigger unit of section i. -/
def Dev.trig (d : Dev) (i : Nat) : Trig := d.trigs.getD i ⟨0, none, 0, [], [], [], [], [], none, none, false⟩
/-- Change it. -/
def Dev.setTrig (d : Dev) (i : Nat) (f : Trig → Trig) : Dev := { d with trigs := d.trigs.put i (f (d.trig i)) }
/-- STATE: 0 DISARMED, 1 ARMED, 2 HOLDOFF, 3 DONE. -/
def Dev.trigState (d : Dev) (i : Nat) : Nat := d.knobBits i 4 0 3
/-- Set it. -/
def Dev.setTrigState (d : Dev) (i st : Nat) : Dev := d.setKnobBits i 4 0 3 st
/-- CODE: 0 OK, 1 STATE, 2 SOURCE, 3 BUDGET, 4 ID, 5 MASK, 6 DEADLINE. -/
def Dev.trigCode (d : Dev) (i c : Nat) : Dev := d.setKnobBits i 4 16 8 c
/-- Kind and parameter of a slot. -/
def Dev.slotKind (d : Dev) (i k : Nat) : Nat := d.knobBits i (0xC + 4 * k) 0 4
def Dev.slotParam (d : Dev) (i k : Nat) : Nat := d.knobBits i (0xC + 4 * k) 8 8
/-- Whether a slot is enabled for stage 1. -/
def Dev.slotOn (d : Dev) (i k : Nat) : Bool := (d.knobBits i 0x1C 4 4).testBit k
/-- The enabled slots. -/
def Dev.slotsOn (d : Dev) (i : Nat) : List Nat := (List.range 4).filter (d.slotOn i)
/-- The CHAN section bound to an input port. -/
def Dev.boundChan (d : Dev) (i port : Nat) : Option Nat := match d.inPort i port with
  | some (p, _) => if p < 128 ∧ d.kind p = 1 then some p else none
  | none => none
/-- Lowest bin and number of bins of a running transform (R175). -/
def Dev.xfrmBins (d : Dev) (x : Nat) : Int × Nat := ((d.xfrm x).lowest, binCount (d.xfrm x).size ((d.xfrm x).input == 8))

/-- Whether a slot has its port bound and its source RUNNING (R243). -/
def Dev.slotSource (d : Dev) (i k : Nat) : Bool :=
  match d.slotKind i k with
  | 1 => match d.boundChan i 0 with | some c => d.chanRunning c | none => false
  | 2 => match d.boundXfrm i 1 with | some x => d.xfrmRunning x | none => false
  | 3 => match d.inPort i 2 with | some (p, _) => decide (p < 128) && d.activeKind p 6 && d.knobBits p 4 0 1 == 1 | none => false
  | 4 => decide (d.slotParam i k < 64)
  | 5 => decide (d.slotParam i k < 20)
  | 6 => true
  | 7 => decide (d.slotParam i k < 64)
  | 8 => true
  | _ => false

/-- NEED of a unit: MAC, compare, memory (R254). -/
def Dev.trigNeed (d : Dev) (i : Nat) : Nat × Nat × Nat :=
  (d.slotsOn i).foldl (fun n k => match d.slotKind i k with
    | 1 => (n.1 + 2, n.2.1 + 1, n.2.2)
    | 2 => match d.boundXfrm i 1 with
      | some x => let b := (d.xfrm x).bins; (n.1, n.2.1 + 2 * ceilDiv b.1 (16 * b.2) + 1, n.2.2 + ceilDiv (4 * (d.xfrmBins x).2) 262144)
      | none => n
    | 3 => (n.1 + 2, n.2.1, n.2.2 + 1)
    | _ => n) (0, 2, 1)
/-- Pack MAC, compare, memory. -/
def packTrig (x : Nat × Nat × Nat) : Nat := min 255 x.1 + min 255 x.2.1 * 256 + min 255 x.2.2 * 65536
/-- Those a section places. -/
def Dev.trigPlaced (d : Dev) (i : Nat) : Nat × Nat × Nat := (d.placed i 0, d.placed i 4, d.placed i 3)
/-- Whether a need is met. -/
def fits3 (n p : Nat × Nat × Nat) : Bool := decide (n.1 ≤ p.1 ∧ n.2.1 ≤ p.2.1 ∧ n.2.2 ≤ p.2.2)

/-- The deadline setting. -/
def Dev.deadlineNs (d : Dev) (i : Nat) : Nat := d.knob i 0x60 + d.knobBits i 0x64 0 2 * 2 ^ 32
/-- The hold-off setting. -/
def Dev.holdoffOf (d : Dev) (i : Nat) : Nat := d.knob i 0x70 + d.knobBits i 0x74 0 16 * 2 ^ 32

/-- ARM's checks in their order (R243); 0 passes. -/
def Dev.trigCheck (d : Dev) (i : Nat) : Nat :=
  if !((d.slotsOn i).all (d.slotSource i)) then 2
  else if (d.slotsOn i).any (fun k => d.slotKind i k == 2 && (match d.boundXfrm i 1 with
      | some x => (d.trig i).maskBins != some (d.xfrmBins x)
      | none => true)) then 5
  else if !(fits3 (d.trigNeed i) (d.trigPlaced i)) then 3
  else if d.trigs.cells.any (fun p => p.1 != i && d.activeKind p.1 4 && d.trigState p.1 != 0 && d.knob p.1 8 == d.knob i 8) then 4
  else if d.knobBits i 0x5C 0 2 ≠ 0 ∧ ¬(100 ≤ d.deadlineNs i ∧ d.deadlineNs i ≤ 10000000000) then 6
  else 0

/-- Decision latency of the slowest enabled slot (R227): exact for LEVEL, CUE and SOFTWARE; the other kinds have a bound or a source whose
own latency the spec does not give, so the reported figure is free (log entry 2). -/
def Dev.trigLatency (d : Dev) (i : Nat) : Option Nat :=
  (d.slotsOn i).foldl (fun (m : Option Nat) k =>
    let own : Option Nat := match d.slotKind i k with
      | 1 => match d.boundChan i 0 with | some c => some (d.knob c 0x64 + 24 + d.routeClocks i) | none => some 0
      | 6 => some 4
      | 8 => some 4
      | _ => none
    match m, own with | some a, some b => some (max a b) | _, _ => none) (some 0)

/-- What composition fixed: PLACED (R256). -/
def Dev.trigComposed (d : Dev) (i : Nat) : Dev := d.setKnob i 0xA8 (packTrig (d.trigPlaced i))
/-- NEED of the slots enabled (R254). -/
def Dev.trigNeeds (d : Dev) (i : Nat) : Dev := d.setKnob i 0xA4 (packTrig (d.trigNeed i))
/-- The unit is armed: counters clear (R256), the first frame follows a non-violating one (R234). -/
def Dev.trigArmed (d : Dev) (i : Nat) : Dev :=
  let d := ([0x84, 0x88, 0x8C, 0x90, 0x94, 0x98, 0x9C] : List Nat).foldl (fun d o => d.setKnob i o 0) d
  let d := d.setTrig i (fun t => { t with left := 0, evs := [], violated := false })
  let d := match d.trigLatency i with | some l => d.setKnob i 0xA0 l | none => (d.setKnob i 0xA0 d.fresh).usedFree
  let d := ((d.trigNeeds i).trigComposed i).setKnob i 0xAC (d.trig i).occ
  (d.setTrigState i 1).trigCode i 0

/-- CMD ARM (R226, R243). NEED is reported whenever it was compared. -/
def Dev.trigArm (d : Dev) (i : Nat) : Dev :=
  match d.trigState i with
  | 0 =>
    let c := d.trigCheck i
    if c = 0 then d.trigArmed i else (if c = 2 ∨ c = 5 then d else d.trigNeeds i).trigCode i c
  | 3 => d.trigArmed i
  | _ => d.trigCode i 1
/-- CMD DISARM (R226). -/
def Dev.trigDisarm (d : Dev) (i : Nat) : Dev := if d.trigState i = 0 then d.trigCode i 1 else (d.setTrigState i 0).trigCode i 0

/-! ## Capture ranges (R241, R242) -/

/-- Change a RAWC. -/
def Dev.setRawc (d : Dev) (i : Nat) (f : Rawc → Rawc) : Dev :=
  match d.rawcs.get? i with
  | some w => { d with rawcs := d.rawcs.put i (f w) }
  | none => d

/-- The product index of a channel at a local time, as a fraction (R151). -/
def Dev.chanAt (d : Dev) (c : Chan) (t : Nat) : Int × Nat :=
  let x : Int × Nat := if c.input = 8 then ((c.refSample * 2 ^ 64 : Nat) + ((t : Int) - c.refTime) * c.lanes, 2 ^ 64) else d.sampleAt c.input t
  let den := x.2 * c.gDen * c.dec
  (c.j0 * den + (x.1 * c.gDen - ((c.s0 * c.gDen : Nat) + c.gNum) * x.2), den)
/-- The last frame whose frame time lies at or before a local time (R169). -/
def Dev.frameAt (d : Dev) (x t : Nat) : Int :=
  let f := d.xfrm x
  let s := if f.input < 8 then d.sampleAt f.input t else d.chanAt (d.chan f.chan) t
  (2 * s.1 - (2 * f.s0 + 2 ^ f.size - 1 : Nat) * s.2) / (2 * 2 ^ f.hop * s.2 : Nat)
/-- The last unit of a RAWC whose time lies at or before a local time. -/
def Dev.rawcUnitAt (d : Dev) (w : Rawc) (t : Nat) : Int :=
  if w.source = 9 then d.frameAt w.feed t
  else
    let s := if w.source < 8 then d.sampleAt w.source t else d.chanAt (d.chan w.feed) t
    s.1 / s.2 / w.m
/-- The local time and epoch of a unit. -/
def Dev.rawcTime (d : Dev) (w : Rawc) (u : Nat) : Nat × Nat :=
  if w.source < 8 then (d.sampleTime w.source (u * w.m : Nat) 1, d.epoch)
  else if w.source = 8 then d.chanTime (d.chan w.feed) (u * w.m)
  else
    let f := d.xfrm w.feed
    d.xfrmTime w.feed (2 * f.frameAt u + 2 ^ f.size - 1)

/-! ## Units of a capture (R241, R245, R246, R253) -/

/-- Units lost at the source or before it, in units of the RAWC, by source index ranges (R253). -/
def unitLosses (m : Nat) (l : List Loss) : List Loss := l.map (fun x => ⟨x.start / m, ceilDiv (x.start + x.count) m - x.start / m, x.cause⟩)
/-- The units [a, b) that the source does not deliver, with the first cause of R26: samples that were not valid, channel outputs that were lost,
frames that did not leave or are invalid. -/
def Dev.rawcLost (d : Dev) (w : Rawc) (a b : Nat) : List Loss :=
  if w.source < 8 then unitLosses w.m ((d.input w.source).lost ++ d.openLosses w.source)
  else if w.source = 8 then unitLosses w.m ((d.noteOpen w.feed).chan w.feed).lost
  else (List.range (b - a)).filterMap (fun k => let c := d.frameCause w.feed (a + k); if c = 0 then none else some ⟨a + k, 1, c⟩)
/-- The flags that the samples of units [a, b) carry (R62, R104, R130, R161). -/
def Dev.rawcFlags (d : Dev) (w : Rawc) (a b : Nat) : Nat :=
  if w.source < 8 then d.flagsOver w.source (a * w.m) (b * w.m)
  else if w.source = 8 then
    let c := d.chan w.feed
    if c.input < 8 then d.flagsOver c.input (c.first (a * w.m)).toNat (c.first (b * w.m - 1) + c.spanOf (b * w.m - 1)).toNat
    else d.playFlags w.feed (a * w.m) ((b - a) * w.m)
  else d.frameFlags w.feed a (b - a)
/-- The payload of `n` units from unit `a` on, behind a header where their record has one: samples, channel outputs, points, a frame. None where the
codes are not those of the units. -/
def Dev.rawcUnits (d : Dev) (w : Rawc) (a n : Nat) (codes : List (BitVec 12)) : Option (List Byte) :=
  let groups {α : Type} (l : List α) : List (List α) := (List.range n).map (fun k => (l.drop (k * w.m)).take w.m)
  if w.source < 8 then
    if codes.length ≠ n * w.m then none else if w.m = 1 then some (packRaw codes) else some ((groups codes).flatMap realPoint)
  else if w.source = 8 then
    let bits := d.chanBits w.feed
    (d.chanUnits w.feed (a * w.m) (n * w.m) (d.chanCodes w.feed (a * w.m) (n * w.m) codes)).map (fun us =>
      if w.m = 1 then us.flatMap (fun u => unitLe bits u.1) else (groups (us.map (·.1))).flatMap (complexPoint bits))
  else match d.framesOf w.feed a n codes with
    | some [f] => some ((d.frameCodes w.feed a (spectrumOf f)).flatMap (leBytes 2))
    | _ => none

/-! ## Records of a capture (R246–R249) -/

/-- Source id of a RAWC's data. -/
def Dev.rawcSource (d : Dev) (w : Rawc) : Nat := if w.source < 8 then w.source else if w.source = 8 then 0x10 + d.knob w.feed 8 else (d.xfrm w.feed).source
/-- A record of a capture at the decision's time, with the axis value there (R33). -/
def Dev.capRec (d : Dev) (w : Rawc) (c : Capture) : Rec :=
  { type := 0x0C, source := 0x60 + c.trigId / 2 ^ 26, flags := d.inputFlags w.input + 512, epoch := c.epoch, trig := c.trigId, start := c.start, count := 0,
    time := stamp96 c.time, axisId := d.axisOf w.ring, axis := d.axisAt (d.axisOf w.ring) c.time, scale := 0, payload := [] }
/-- A record of a capture's units from `u` on, at the instant of that unit (R33). -/
def Dev.capUnits (d : Dev) (w : Rawc) (c : Capture) (u : Nat) : Rec :=
  let t := d.rawcTime w u
  { d.capRec w c with
    source := d.rawcSource w, flags := d.inputFlags w.input + 512 + (if c.confirmed then 0 else 1), start := u, time := stamp96 t.1, epoch := t.2,
    axis := d.axisAt (d.axisOf w.ring) t.1 }
/-- The context payload of R248: reason, length and event time are the record's own. -/
def Dev.capContext (d : Dev) (w : Rawc) (c : Capture) (reason length event : Nat) : Rec :=
  { d.capRec w c with
    payload := leBytes 4 reason ++ leBytes 1 c.kind ++ leBytes 1 c.qmode ++ leBytes 1 c.station ++ leBytes 1 w.kind ++ leBytes 8 c.t ++ leBytes 8 c.start ++
      leBytes 8 length ++ leBytes 12 (stamp96 c.time) ++ leBytes 2 c.epoch ++ leBytes 2 0 ++ leBytes 12 (stamp96 event) ++ leBytes 4 c.segment ++
      leBytes 4 c.originId ++ leBytes 4 (w.m - 1) ++ leBytes 8 (unsigned 64 ((c.t : Int) - c.start)) }
/-- Place a record of section i's captures; a ring that is OFF stores nothing (R325). -/
def Dev.capPlace (d : Dev) (i ring : Nat) (x : Rec) : Dev := if d.ringOn ring then (d.place ring 0 x).takeReserve i else d.inc F.GAL_NOWHERE_COUNT

/-- Payload of a data record: raw samples and channel outputs as they are; points behind the header of R246; frames behind that of R189. -/
def Dev.capPayload (d : Dev) (w : Rawc) (h : Hist) : List Byte :=
  let body :=
    if w.m ≠ 1 then
      leBytes 1 255 ++ leBytes 2 0 ++ leBytes 1 ((if w.source = 8 then 1 else 0) + (if w.source < 8 ∧ d.lanes w.source = 32 then 2 else 0)) ++
        leBytes 4 h.count ++ leBytes 4 (w.m - 1) ++ leBytes 20 0 ++ h.payload
    else if w.source = 9 then
      let f := d.xfrm w.feed
      let b := d.xfrmBins w.feed
      leBytes 3 0 ++ leBytes 1 ((if f.input = 8 then 1 else 0) + (if f.num = 32 ∧ f.input < 8 then 2 else 0) + 8) ++ leBytes 4 b.2 ++
        leBytes 4 (unsigned 32 b.1) ++ leBytes 4 b.2 ++ leBytes 4 1 ++ leBytes 2 0 ++ leBytes 1 f.size ++ leBytes 1 f.hop ++ leBytes 1 f.window ++
        leBytes 3 0 ++ leBytes 4 1 ++ h.payload
    else h.payload
  body ++ List.replicate (roundUp body.length 8 - body.length) 0
/-- A data record of a capture. -/
def Dev.capData (d : Dev) (w : Rawc) (c : Capture) (h : Hist) : Rec :=
  { d.capUnits w c h.start with
    type := if w.m ≠ 1 then 7 else if w.source < 8 then 1 else if w.source = 8 then 2 else 3,
    flags := d.rawcFlags w h.start (h.start + h.count) + 512 + (if c.confirmed then 0 else 1),
    count := if w.source = 9 then (d.xfrmBins w.feed).2 else h.count, payload := d.capPayload w h }

/-- Write the gap a capture holds open. -/
def Dev.capCloseGap (d : Dev) (i : Nat) (w : Rawc) (c : Capture) : Dev × Capture :=
  match c.gap with
  | none => (d, c)
  | some g =>
    let d := (splitLoss (g.count / (2 ^ 32 - 1)) g).foldl (fun d l => d.capPlace i w.ring (gapRec (d.capUnits w c l.start) 0 0 0xFFFF l)) d
    (if g.cause = 1 then d.ringEvent w.ring 1 else d, { c with gap := none })
/-- Units of a capture are lost (R253). -/
def Dev.capLose (d : Dev) (i : Nat) (w : Rawc) (c : Capture) (count cause : Nat) : Dev × Capture :=
  let r := match c.gap with
    | some g => if g.cause = cause then (d, c) else d.capCloseGap i w c
    | none => (d, c)
  let c := r.2
  (r.1, { c with gap := some (match c.gap with | some g => { g with count := g.count + count } | none => ⟨c.next, count, cause⟩), next := c.next + count })

/-- A record of units that belong to a capture: data, or a loss, of which the part in the capture counts. What does not fit is a ring-overflow gap. -/
def Dev.capWrite (d : Dev) (i : Nat) (w : Rawc) (c : Capture) (h : Hist) : Dev × Capture :=
  if h.cause ≠ 0 then d.capLose i w c (min (h.start + h.count) c.stop - max h.start c.next) h.cause
  else if !(d.ringOn w.ring) then (d.inc F.GAL_NOWHERE_COUNT, { c with next := h.start + h.count, written := c.written + h.count })
  else
    let x := d.capData w c h
    let over_ := match c.gap with | some g => g.cause == 1 | none => false
    if !h.stoneFull && decide (d.free w.ring ≥ d.needs w.ring x + (if c.gap.isSome then 72 else 0)) then
      let r := d.capCloseGap i w c
      ((r.1.capPlace i w.ring (r.1.capData w r.2 h)), { r.2 with next := h.start + h.count, written := r.2.written + h.count })
    else
      let d := if h.stoneFull then (d.inc F.GAL_STONE_FULL_COUNT).raise 26 29 else d
      let d := d.inc F.GAL_RING_CNT_OVF_OVF_UNITS w.ring 0 h.count
      (if over_ then d else d.ringEvent w.ring 0).capLose i w c h.count 1

/-! ## Open captures of a RAWC -/

/-- Show open captures and history held (R257). -/
def Dev.rawcShow (d : Dev) (i : Nat) : Dev :=
  match d.rawcs.get? i with
  | none => d
  | some w => (d.setKnobBits i 4 4 4 (min 15 w.caps.length)).setWideKnob i 0x38 (w.hist.foldl (fun n h => if h.cause = 0 then n + h.count else n) 0)

/-- History reaches as far back as the ring's free space holds, or as the memory sorts hold frames (R244, R245). -/
def Dev.pruneHist (d : Dev) (w : Rawc) (l : List Hist) : List Hist :=
  if w.source = 9 then l.drop (l.length - (w.pre + 1))
  else
    let room := d.free w.ring
    let size (h : Hist) : Int := if h.cause = 0 then roundUp (64 + (if w.m ≠ 1 then 32 else 0) + h.payload.length) 8 else 72
    ((l.reverse.foldl (fun (a : List Hist × Int) h => if a.2 + size h ≤ room then (h :: a.1, a.2 + size h) else (a.1, room + 1)) ([], 0))).1

/-- Units of a triggered RAWC from its run's next one on (R244, R247, R253): into the capture that holds them, else into history. -/
def Dev.rawcTake (d : Dev) (i : Nat) (h : Hist) : Dev :=
  match d.rawcs.get? i with
  | none => d
  | some w =>
    match w.caps.find? (fun c => decide (c.start ≤ h.start ∧ h.start < c.stop)) with
    | some c =>
      let r := d.capWrite i w c h
      (r.1.setRawc i (fun w => { w with caps := w.caps.map (fun x => if x.trigId = c.trigId then r.2 else x) })).rawcShow i
    | none => (d.setRawc i (fun w => { w with hist := d.pruneHist w (w.hist ++ [h]) })).rawcShow i
/-- The parts of a loss that lie in one capture, or between captures. -/
def lossParts (h : Hist) : List Nat → List Hist
  | [] => [h]
  | b :: t => if h.start < b ∧ b < h.start + h.count then { h with count := b - h.start } :: lossParts { h with start := b, count := h.start + h.count - b } t else lossParts h t
/-- Units of a triggered RAWC are lost up to a unit. -/
def Dev.rawcLose (d : Dev) (i stop cause : Nat) : Dev :=
  match d.rawcs.get? i, d.runs.get? i with
  | some w, some u =>
    if stop ≤ u.next then d
    else (lossParts ⟨u.next, stop - u.next, cause, [], false⟩ (w.caps.flatMap (fun c => [c.start, c.stop]))).foldl
      (fun d h => (d.setRun i (fun u => { u with next := h.start + h.count })).rawcTake i h) d
  | _, _ => d
/-- The units that a triggered RAWC has reached in the losses of its source, `own` among them, are lost (R253), each for the first cause of R26. -/
def Dev.rawcSettle (d : Dev) (i : Nat) (own : List Loss) : Dev :=
  match d.rawcs.get? i, d.runs.get? i with
  | some w, some u =>
    let stop := own.foldl (fun m l => max m (l.start + l.count)) u.next
    ((d.rawcLost w u.next stop).foldl addLoss own).foldl (fun d l =>
      match d.runs.get? i with
      | some u => if l.start ≤ u.next then d.rawcLose i (l.start + l.count) l.cause else d
      | none => d) d
  | _, _ => d

/-- The close record of a confirmed capture whose last unit is written (R247); its length is the units from its start to the next one. -/
def Dev.capClose (d : Dev) (i : Nat) (w : Rawc) (c : Capture) : Dev :=
  let r := d.capCloseGap i w c
  let c := r.2
  (r.1.capPlace i w.ring (r.1.capContext w c 1024 (c.next - c.start) (r.1.rawcTime w (c.next - 1)).1)).sectionEvent i 1

/-- Close the confirmed captures that are complete; a stopping run with none left ends (R258). -/
def Dev.rawcClose (d : Dev) (i : Nat) : Dev :=
  let d := d.rawcSettle i []
  match d.rawcs.get? i with
  | none => d
  | some w =>
    let done (c : Capture) : Bool := c.confirmed && decide (c.stop ≤ c.next)
    let d := (w.caps.filter done).foldl (fun d c => d.capClose i w c) d
    let d := (d.setRawc i (fun w => { w with caps := w.caps.filter (fun c => !(done c)) })).rawcShow i
    match d.rawcs.get? i with
    | none => d
    | some w =>
      if !w.caps.isEmpty then d
      else if w.ended then { d with rawcs := d.rawcs.erase i }
      else if !w.accepting && d.knobBits i 4 1 1 == 1 then
        (({ d.endRun i with rawcs := d.rawcs.erase i }.setKnobBits i 4 0 2 0).setKnobBits i 4 16 8 0)
      else d

/-- Give a capture the records that lie in its range, in order. -/
def Dev.capFill (d : Dev) (i : Nat) (w : Rawc) (c : Capture) (l : List Hist) : Dev × Capture :=
  l.foldl (fun a h => a.1.capWrite i w a.2 h) (d, c)

/-- A RAWC receives a decision (R242, R244, R247, R251): the range, the open record, a confirmation for Q_MODE 0, the history. `frame` is
the deciding frame when the RAWC writes the transform of a MASK decision. -/
def Dev.capOpen (d : Dev) (i : Nat) (p : Pending) (trigId : Nat) (frame : Option (Nat × Nat)) : Dev :=
  let d := d.rawcSettle i []
  match d.rawcs.get? i with
  | none => d
  | some w =>
    if !w.accepting then d
    else if (if w.segMax = 0 then 1048576 else w.segMax) ≤ d.knob i 0x30 then (d.incKnob i 0x34).sectionEvent i 3
    else
      let t : Int := match frame with
        | some (x, f) => if w.source = 9 ∧ w.feed = x then (f : Int) else d.rawcUnitAt w p.time
        | none => d.rawcUnitAt w p.time
      let g := if w.source = 9 then 1 else 2 ^ w.log2
      let start : Nat := ((t - w.pre) / g * g).toNat
      let stop : Nat := (-(-(t + w.post) / g) * g).toNat
      let start := max start w.floor
      if stop ≤ start then d.incKnob i 0x34
      else
        let hist := d.pruneHist w w.hist
        let next := match d.runs.get? i with | some u => u.next | none => 0
        let oldest := match hist with | h :: _ => h.start | [] => next
        let short := decide (start < oldest)
        let start := max start oldest
        if stop ≤ start then d.incKnob i 0x34
        else
          let d := if short then (d.incKnob i 0x40).sectionEvent i 2 else d
          let q := p.q % 4
          let now := q = 0 ∨ q = 3
          let c : Capture := ⟨trigId, p.time, p.epoch, d.timeIn (p.deadline - d.clk), p.kind, if q = 3 then 0 else q, p.station, p.originId, t.toNat, start, stop, start, now, w.seg, 0, none⟩
          let d := (d.capPlace i w.ring { d.capContext w c 256 (stop - start) c.deadline with flags := d.inputFlags w.input + 512 + (if now then 0 else 1) }).sectionEvent i 0
          let d := if now then (d.capPlace i w.ring (d.capContext w c 512 (stop - start) d.localTime)).incKnob i 0x30 else d
          let inside (h : Hist) : Bool := decide (h.start + h.count > start ∧ h.start < stop)
          let r := d.capFill i w c (hist.filter inside)
          let d := r.1.setRawc i (fun w => { w with
            seg := w.seg + 1, floor := stop, hist := hist.filter (fun h => decide (stop ≤ h.start)), caps := w.caps ++ [r.2] })
          (d.rawcShow i)

/-- The capture of a RAWC resolves: confirmed (`kept` on expiry), or a notice with outcome and cause; after it the remaining units are
history again (R247, R249). -/
def Dev.capResolve (d : Dev) (i trigId outcome cause : Nat) : Dev :=
  match d.rawcs.get? i with
  | none => d
  | some w =>
    match w.caps.find? (fun c => c.trigId == trigId && !c.confirmed) with
    | none => d
    | some c =>
      if outcome = 0 ∨ outcome = 4 then
        let c' := { c with confirmed := true }
        let d := (d.capPlace i w.ring (d.capContext w c' (512 + if outcome = 4 then 2048 else 0) (c.stop - c.start) d.localTime)).incKnob i 0x30
        (d.setRawc i (fun w => { w with caps := w.caps.map (fun x => if x.trigId = trigId then c' else x) })).rawcShow i
      else
        let x := { d.capRec w c with
          type := 9, flags := d.inputFlags w.input + 514,
          payload := leBytes 1 outcome ++ leBytes 1 cause ++ leBytes 2 0 ++ leBytes 4 c.segment ++ leBytes 8 c.written ++ leBytes 12 d.now96 ++
            leBytes 2 d.epoch ++ leBytes 2 0 }
        let d := d.capPlace i w.ring x
        let d := d.setRawc i (fun w => { w with
          caps := w.caps.filter (fun x => x.trigId != trigId), floor := if w.floor = c.stop then c.next else w.floor })
        (d.rawcShow i).rawcClose i

/-- A record of units reaches a triggered RAWC (R244–R247, R253). A record ends at a multiple of 2^REC_LOG2 units or where a loss begins; a frame is a
record of its own, and an invalid one is a loss. -/
def Dev.rawcRecord (d : Dev) (i : Nat) (r : DataRecord) : Dev :=
  let d := d.rawcClose i
  match d.rawcs.get? i, d.runs.get? i with
  | some w, some u =>
    let a := u.next
    if w.source = 9 then
      let d := d.judge w.feed
      let cause := d.frameCause w.feed a
      if r.count ≠ 1 then d
      else if cause ≠ 0 then d.rawcLose i (a + 1) cause
      else match d.rawcUnits w a 1 r.samples with
        | some p => (d.setRun i (fun u => { u with next := a + 1 })).rawcTake i ⟨a, 1, 0, p, r.stoneFull⟩
        | none => d
    else
      let end_ := a + r.count
      let lost := d.rawcLost w a end_
      let whole := end_ % 2 ^ w.log2 == 0 || lost.any (fun l => l.start == end_)
      if r.count = 0 ∨ (a / 2 ^ w.log2 + 1) * 2 ^ w.log2 < end_ ∨ !whole ∨ lost.any (fun l => decide (l.start < end_ ∧ a < l.start + l.count)) then d
      else match d.rawcUnits w a r.count r.samples with
        | some p => (d.setRun i (fun u => { u with next := end_ })).rawcTake i ⟨a, r.count, 0, p, r.stoneFull⟩
        | none => d
  | _, _ => d

/-- RAWC sections that follow unit i. -/
def Dev.followers (d : Dev) (i : Nat) : List Nat := (d.rawcs.cells.filter (fun p => p.2.trig == i)).map (·.1)

/-! ## Decisions (R226, R235–R240) -/

/-- Show the number of pending captures. -/
def Dev.trigShow (d : Dev) (i : Nat) : Dev := d.setKnobBits i 4 4 4 (d.trig i).pending.length
/-- The trigger id of an occurrence (R225). -/
def Dev.trigId (d : Dev) (i occ : Nat) : Nat := d.knobBits i 8 0 6 * 2 ^ 26 + occ
/-- Drive a unit's halyard with a decision's tag (R228); the event's place in its clock is the clock's start, the tag says the time. -/
def Dev.trigDrive (d : Dev) (i off time trigId : Nat) : Dev :=
  if d.knobBits i off 8 1 = 1 then d.driveHalyard (d.knobBits i off 0 6) 0 (some time) (some (d.rd F.STY_CTRL_ID, trigId)) else d

/-- A pending capture resolves (R236, R238): outcome 0 CONFIRMED, 4 kept on expiry, 1 RETRACTED, 2 EXPIRED, 3 ABORTED. -/
def Dev.resolve (d : Dev) (i : Nat) (p : Pending) (outcome cause : Nat) : Dev :=
  let d := (d.setTrig i (fun t => { t with pending := t.pending.erase p })).trigShow i
  let id := d.trigId i p.occ
  let d := if outcome = 2 ∨ outcome = 4 then (d.incKnob i 0x90).sectionEvent i 3 else d
  let d := if outcome = 0 ∨ outcome = 4 then ((d.incKnob i 0x88).sectionEvent i 1).trigDrive i 0x80 p.time id else d
  let d := if outcome = 1 then d.incKnob i 0x8C else d
  let d := if outcome = 1 ∨ outcome = 3 then d.sectionEvent i 2 else d
  (d.followers i).foldl (fun d r => d.capResolve r id outcome cause) d

/-- Whether a kept event of a stage-2 slot counts for a pending capture (R236). -/
def Dev.counts (d : Dev) (i : Nat) (p : Pending) (slot : Nat) : Bool :=
  (d.trig i).stage2.any (fun e => e.1 == slot && decide (p.time ≤ e.2 + p.qPre * 2 ^ 64))
/-- Resolve a pending capture by the stage-2 events kept: a retraction wins (R238). -/
def Dev.tryResolve (d : Dev) (i : Nat) (p : Pending) : Dev :=
  if p.q % 4 = 1 ∧ d.clk ≤ p.deadline then
    if p.q.testBit 4 && d.counts i p (bits p.q 5 2) then d.resolve i p 1 0
    else if d.counts i p (bits p.q 2 2) then d.resolve i p 0 0
    else d
  else d

/-- The unit decides at a local time (R225, R226, R231, R239, R240). -/
def Dev.takeDecision (d : Dev) (i kind time station originId : Nat) (frame : Option (Nat × Nat)) : Dev :=
  let t := d.trig i
  let st := d.trigState i
  let hold := d.holdoffOf i
  let byCount := d.knob i 0x6C == 1
  if ¬(st = 1 ∨ st = 2) then d
  else if (match t.last with | some (_, c) => c == d.clk | none => false) then d
  else if !byCount && (match t.last with | some (x, _) => decide (time < x + hold * 2 ^ 64) | none => false) then d.incKnob i 0x98
  else if byCount && t.left != 0 then
    let d := (d.incKnob i 0x98).setTrig i (fun t => { t with left := t.left - 1 })
    if t.left = 1 ∧ st = 2 then d.setTrigState i 1 else d
  else if 8 ≤ t.pending.length then (d.incKnob i 0x94).sectionEvent i 4
  else
    let p : Pending := ⟨t.occ, time, d.epoch, d.clk, d.clk + d.deadlineNs i, kind, station, originId, d.knob i 0x5C, d.knob i 0x68⟩
    let id := d.trigId i t.occ
    let d := d.setTrig i (fun t => { t with
      occ := (t.occ + 1) % 2 ^ 26, last := some (time, d.clk), left := if byCount then hold else 0, pending := t.pending ++ [p] })
    let d := ((d.setKnob i 0xAC (d.trig i).occ).incKnob i 0x84).sectionEvent i 0
    let d := (d.trigDrive i 0x7C time id).trigShow i
    let d := d.setTrigState i (if d.knob i 0x78 = 0 then 3 else if hold ≠ 0 then 2 else 1)
    let d := (d.followers i).foldl (fun d r => d.capOpen r p id frame) d
    if p.q % 4 = 0 ∨ p.q % 4 = 3 then d.resolve i p 0 0 else d.tryResolve i p

/-- The combination of R235 over kept slot events: the event that completes it. -/
def Dev.completes (d : Dev) (i : Nat) (evs : List SlotMark) : Option SlotMark :=
  let win := d.knob i 0x20 * 2 ^ 64
  let a := d.knobBits i 0x1C 8 2
  let b := d.knobBits i 0x1C 10 2
  match d.knobBits i 0x1C 0 2 with
  | 0 => evs.head?
  | 1 => evs.find? (fun e => (d.slotsOn i).all (fun k => evs.any (fun f => f.slot == k && decide (f.time ≤ e.time ∧ e.time ≤ f.time + win))))
  | 2 => evs.find? (fun e => e.slot == b &&
      (match (evs.filter (fun f => f.slot == a && decide (f.time ≤ e.time) && f != e)).map (·.time) with
        | [] => false
        | x :: r => let u := r.foldl max x; decide (u + d.knob i 0x24 * 2 ^ 64 ≤ e.time ∧ e.time ≤ u + win)))
  | _ => evs.find? (fun e => e.slot == a && decide (d.knob i 0x28 ≤ evs.countP (fun f => f.slot == a && decide (f.time ≤ e.time ∧ e.time ≤ f.time + win))))

/-- A stage-1 event of a slot at a local time. Events that complete a condition are used up. -/
def Dev.stage1 (d : Dev) (i slot time station originId : Nat) (frame : Option (Nat × Nat)) : Dev :=
  let st := d.trigState i
  if ¬(st = 1 ∨ st = 2) ∨ !(d.slotOn i slot) then d
  else if time + (d.knob i 0x20 + 1000) * 2 ^ 64 < d.localTime then d.incKnob i 0x9C
  else
    let evs := (d.trig i).evs ++ [⟨slot, time, station, originId, frame⟩]
    match d.completes i evs with
    | some e => (d.setTrig i (fun t => { t with evs := [] })).takeDecision i (d.slotKind i e.slot) e.time e.station e.originId e.frame
    | none => d.setTrig i (fun t => { t with evs := evs })

/-- A stage-2 event of a slot: the 16 latest are kept, and pending captures may resolve. -/
def Dev.stage2 (d : Dev) (i slot time : Nat) : Dev :=
  let own := (d.trig i).stage2.filter (fun e => e.1 == slot)
  let rest := (d.trig i).stage2.filter (fun e => e.1 != slot)
  let d := d.setTrig i (fun t => { t with stage2 := rest ++ (own ++ [(slot, time)]).drop (own.length + 1 - 16) })
  (d.trig i).pending.foldl (fun d p => d.tryResolve i p) d

/-- An event that the engine itself delivers to a slot: it may serve both stages. -/
def Dev.slotEvent (d : Dev) (i slot time station originId : Nat) : Dev :=
  if d.activeKind i 4 then (d.stage1 i slot time station originId none).stage2 i slot time else d
/-- Give every slot of a kind and parameter, in every ACTIVE unit, an event; `edge` selects slots by their EDGE bit. -/
def Dev.feedSlots (d : Dev) (kind param : Nat) (edge : Option Nat) (time station originId : Nat) : Dev :=
  (List.range 128).foldl (fun d i =>
    if d.activeKind i 4 then
      (List.range 4).foldl (fun d k =>
        if d.slotKind i k = kind ∧ d.slotParam i k = param ∧ (edge.all (fun e => e == d.knobBits i (0xC + 4 * k) 16 1)) then
          d.slotEvent i k time station originId
        else d) d
    else d) d

/-- CMD SOFTWARE (R227): every SOFTWARE slot has an event at the next boundary. -/
def Dev.trigSoftware (d : Dev) (i : Nat) : Dev :=
  (List.range 4).foldl (fun d k => if d.slotKind i k = 8 then d.slotEvent i k (d.timeIn 1) (d.rd F.STY_CTRL_ID) 0 else d) d

/-! ## Frequency mask (R232–R234) -/

/-- The threshold of a bin: none outside the points (R233). -/
def maskAt (bin : Int) : List (Int × Nat) → Option Nat
  | a :: b :: t =>
    if a.1 ≤ bin ∧ bin ≤ b.1 then
      let n : Nat := ((b.1 - bin) * a.2 + (bin - a.1) * b.2).toNat
      some (roundEven n (b.1 - a.1).toNat)
    else maskAt bin (b :: t)
  | _ => none
/-- Whether a bin's code violates. -/
def maskBin (mode : Nat) (up lo : List (Int × Nat)) (bin : Int) (code : Nat) : Bool :=
  (mode.testBit 0 && (match maskAt bin up with | some v => decide (v < code) | none => false)) ||
  (mode.testBit 1 && (match maskAt bin lo with | some v => decide (code < v) | none => false))
/-- Whether a frame violates. -/
def Dev.frameViolates (d : Dev) (i : Nat) (codes : List Nat) : Bool :=
  let t := d.trig i
  let lowest := match t.maskBins with | some b => b.1 | none => 0
  decide (d.knob i 0x4C ≤ (codes.zipIdx).countP (fun p => maskBin (d.knob i 0x48) t.maskUp t.maskLo (lowest + (p.2 : Nat)) p.1))

/-- MASK_CMD = 1. -/
def Dev.maskLoad (d : Dev) (i : Nat) : Dev :=
  let running := match d.boundXfrm i 1 with | some x => d.xfrmRunning x | none => false
  if d.trigState i ≠ 0 ∨ (d.trig i).maskSince.isSome ∨ !running then d.trigCode i 1
  else ((d.setTrig i (fun t => { t with maskSince := some d.clk })).setKnobBits i 4 8 1 1).trigCode i 0

/-- The points of a mask table rise strictly in bin. -/
def pointsRise : List (Int × Nat) → Bool
  | a :: b :: t => decide (a.1 < b.1) && pointsRise (b :: t)
  | _ => true
/-- The mask expansion ends (R232). -/
def Dev.maskLoadEnd (d : Dev) (i : Nat) : Dev :=
  match (d.trig i).maskSince with
  | none => d
  | some t0 =>
    let bins := match d.boundXfrm i 1 with | some x => d.xfrmBins x | none => (0, 0)
    let d := d.advanceTo (t0 + 50000 + 2 * bins.2)
    let ring := d.knob i 0x3C
    let off := d.knob i 0x40 + d.knob i 0x44 * 2 ^ 32
    let head := d.ringBytes ring off 16
    let nu := leNat ((head.drop 4).take 2)
    let nl := leNat ((head.drop 6).take 2)
    let okN (n : Nat) : Bool := n == 0 || decide (2 ≤ n ∧ n ≤ 4097)
    let d := (d.setTrig i (fun t => { t with maskSince := none })).setKnobBits i 4 8 1 0
    let bad := (d.sectionEvent i 6).trigCode i 5
    if leNat (head.take 4) ≠ 0x4B4D584C ∨ !(okN nu) ∨ !(okN nl) ∨ leNat ((head.drop 8).take 4) ≠ 0 then bad
    else
      let b := d.ringBytes ring off (16 + 8 * (nu + nl))
      let point (k : Nat) : Int × Nat := (signed 32 (leNat ((b.drop (16 + 8 * k)).take 4)), leNat ((b.drop (20 + 8 * k)).take 2))
      let up := (List.range nu).map point
      let lo := (List.range nl).map (fun k => point (nu + k))
      if leNat ((head.drop 12).take 4) ≠ crc32 (b.take 12 ++ [0, 0, 0, 0] ++ b.drop 16) ∨ !(pointsRise up) ∨ !(pointsRise lo) then bad
      else ((d.setTrig i (fun t => { t with maskUp := up, maskLo := lo, maskBins := some bins })).sectionEvent i 6).trigCode i 0

/-! ## Events from outside (R227, R229, R230, R234) -/

/-- Whether the outputs, the deciding one last, are an entry of the level condition (R229): above and below decide on the step into them, an edge when the
magnitude comes from beyond the other threshold. A run's first output is an entry by itself (DESIGN CHOICE, log entry 33). -/
def Dev.levelEnters (d : Dev) (i w : Nat) (l : List Cx) : Bool :=
  let up := d.knobInt i 0x30
  let lo := d.knobInt i 0x34
  let band := (l.drop 1).dropLast
  match l, l.getLast? with
  | [x], some _ => (match d.knob i 0x2C with | 0 => unitReaches w x up | 1 => !(unitReaches w x lo) | _ => false)
  | a :: _ :: _, some x => (match d.knob i 0x2C with
    | 0 => band.isEmpty && !(unitReaches w a up) && unitReaches w x up
    | 1 => band.isEmpty && unitReaches w a lo && !(unitReaches w x lo)
    | 2 => !(unitReaches w a lo) && unitReaches w x up && band.all (fun b => unitReaches w b lo && !(unitReaches w b up))
    | _ => unitReaches w a up && !(unitReaches w x lo) && band.all (fun b => unitReaches w b lo && !(unitReaches w b up)))
  | _, _ => false
/-- Sixteenths of an output from output `a` to the crossing before output `x`: the first at which |x|², running linearly, has crossed (R227; that it is
the first: log entry 33). -/
def crossSixteenth (w : Nat) (level : Int) (up : Bool) (a x : Cx) : Nat :=
  let at_ (k : Nat) := powerReaches ((16 - k) * a.power + k * x.power) (16 * 2 ^ (2 * (w - 1))) level
  ((List.range 17).find? (fun k => at_ k == up)).getD 16
/-- The decision time of a level event at output j, from the last two outputs (R151, R227). -/
def Dev.levelTime (d : Dev) (i x j w : Nat) (l : List Cx) : Nat :=
  let c := d.chan x
  let up := d.knob i 0x2C % 2 == 0
  let k := match l.reverse with
    | b :: a :: _ => crossSixteenth w (if up then d.knobInt i 0x30 else d.knobInt i 0x34) up a b
    | _ => 16
  let a := c.first (j - 1)
  let base : Int := if k = 16 then 16 * c.first j else 16 * a + k * (c.first j - a)
  (d.chanInstant c (base * c.gDen + 16 * c.gNum) (16 * c.gDen)).1

/-- What a slot event shows: decision time, origin and frame when it makes an event. -/
def Dev.readEvent (d : Dev) (i : Nat) (ev : SlotEvent) : Dev × Option (Nat × Nat × Nat × Option (Nat × Nat)) :=
  let own := d.rd F.STY_CTRL_ID
  match ev with
  | .level n j codes =>
    match d.boundChan i 0 with
    | none => (d, none)
    | some x =>
      let a := j - n
      let w := d.chanBits x
      if j < n ∨ (n = 0 ∧ j ≠ 0) ∨ ((d.noteOpen x).chan x).lost.any (fun l => decide (l.start ≤ j ∧ a < l.start + l.count)) then (d, none)
      else match d.chanUnits x a (n + 1) (d.chanCodes x a (n + 1) codes) with
        | none => (d, none)
        | some us => (d, if d.levelEnters i w (us.map (·.1)) then some (d.levelTime i x j w (us.map (·.1)), own, 0, none) else none)
  | .frame f codes =>
    match d.boundXfrm i 1 with
    | none => (d, none)
    | some x =>
      let d := d.judge x
      if d.frameCause x f ≠ 0 then (d, none)
      else match d.framesOf x f 1 codes with
        | some [b] =>
          let v := d.frameViolates i (d.frameCodes x f (spectrumOf b))
          let was := (d.trig i).violated
          let leave := (d.knob i 0x48).testBit 2
          let d := d.setTrig i (fun t => { t with violated := v })
          let g := d.xfrm x
          if (if leave then was && !v else v && !was) then (d, some ((d.xfrmTime x (2 * g.frameAt f + 2 ^ g.size - 1)).1, own, 0, some (x, f)))
          else (d, none)
        | _ => (d, none)
  | .density f =>
    match d.inPort i 2 with
    | none => (d, none)
    | some (p, _) =>
      match (d.denses.get? p).bind (fun (r : Dens) => r.closing.map (fun c => (r, c))) with
      | none => (d, none)
      | some (r, c) =>
        let cols := d.knob i 0x50
        let rows := d.knob i 0x54
        let sum := densSum c.hist (bits cols 0 10) (bits cols 16 10) (bits rows 0 9) (bits rows 16 9)
        let g := d.xfrm r.xfrm
        (d, if c.frame = f ∧ d.knob i 0x58 ≤ sum then
            some ((d.xfrmTime r.xfrm (2 * g.frameAt (r.f0 + f * r.frames + (r.frames - 1)) + 2 ^ g.size - 1)).1, own, 0, none)
          else none)
  | .timed t st o => (d, some (ofStamp96 t, st, o, none))

/-- Whether an event fits the kind of a slot. -/
def SlotEvent.fits (ev : SlotEvent) (kind : Nat) : Bool := match ev with
  | .level _ _ _ => kind == 1
  | .frame _ _ => kind == 2
  | .density _ => kind == 3
  | .timed _ _ _ => decide (4 ≤ kind ∧ kind ≤ 8)

/-- An event of a slot, for stage 1 or for stage 2. -/
def Dev.outsideEvent (d : Dev) (i slot : Nat) (ev : SlotEvent) (second : Bool) : Dev :=
  if !(d.activeKind i 4) || !(ev.fits (d.slotKind i slot)) then d
  else
    let r := d.readEvent i ev
    match r.2 with
    | none => r.1
    | some (t, st, o, f) => if second then r.1.stage2 i slot t else r.1.stage1 i slot t st o f

/-- The pending capture whose deadline comes first expires (R238). -/
def Dev.deadlineExpiry (d : Dev) (i : Nat) : Dev :=
  match (d.trig i).pending with
  | [] => d
  | p :: r =>
    let p := r.foldl (fun a b => if b.deadline < a.deadline then b else a) p
    let d := d.advanceTo (p.deadline + 1)
    d.resolve i p (if p.q.testBit 16 then 4 else 2) 2

/-- A hold-off by time ends (R240). -/
def Dev.trigHoldoffEnd (d : Dev) (i : Nat) : Dev :=
  if d.trigState i = 2 ∧ d.knob i 0x6C = 0 then
    match (d.trig i).last with
    | some (t, _) =>
      let stop := t + d.holdoffOf i * 2 ^ 64
      let d := d.advance ((stop - d.localTime + d.cycle - 1) / max 1 d.cycle)
      d.setTrigState i 1
    | none => d.setTrigState i 1
  else d

/-- A post word from a frame core (R237). -/
def Dev.verdict (d : Dev) (i v : Nat) : Dev :=
  let late := d.incKnob i 0x9C
  match (d.trig i).pending.find? (fun p => p.occ == v % 2 ^ 26 && p.q % 4 == 2 && decide (d.clk ≤ p.deadline)) with
  | none => late
  | some p => match v / 2 ^ 30 with
    | 1 => d.resolve i p 0 0
    | 2 => d.resolve i p 1 1
    | _ => late
/-- Every unit that reads this core's post channel takes the word. -/
def Dev.postVerdicts (d : Dev) (core ch v : Nat) : Dev :=
  (List.range 128).foldl (fun d i =>
    if d.activeKind i 4 && d.knobBits i 0x5C 0 2 == 2 && d.knobBits i 0x5C 8 4 == core && d.knobBits i 0x5C 12 3 == ch then d.verdict i v else d) d

/-- The unit's section goes dark, is shed or unloaded (R226). -/
def Dev.trigDark (d : Dev) (i : Nat) : Dev :=
  let d := (d.trig i).pending.foldl (fun d p => d.resolve i p 3 3) d
  { d with trigs := d.trigs.erase i }.setTrigState i 0

/-! ## RAWC (R241–R243, R252–R258) -/

/-- RAWC's CODE: 0 OK, 1 STATE, 2 SOURCE, 3 BUDGET, 4 RING, 5 RANGE, 6 INPUT_STOPPED. -/
def Dev.rawcCode (d : Dev) (i c : Nat) : Dev := d.setKnobBits i 4 16 8 c
/-- Whether it is RUNNING. -/
def Dev.rawcRunning (d : Dev) (i : Nat) : Bool := d.knobBits i 4 0 1 == 1
/-- PRE and POST. -/
def Dev.rawcPre (d : Dev) (i : Nat) : Nat := d.knob i 0x18 + d.knobBits i 0x1C 0 8 * 2 ^ 32
def Dev.rawcPost (d : Dev) (i : Nat) : Nat := d.knob i 0x20 + d.knobBits i 0x24 0 8 * 2 ^ 32
/-- The section that feeds a source: CHAN for 8, XFRM for 9. -/
def Dev.rawcFeed (d : Dev) (i source : Nat) : Option Nat := if source = 8 then d.boundChan i 0 else if source = 9 then d.boundXfrm i 0 else some 0
/-- Units per clock of a source, as a fraction. -/
def Dev.rawcRate (d : Dev) (source feed m : Nat) : Nat × Nat :=
  if source < 8 then (d.lanes source, m)
  else if source = 8 then ((d.chan feed).lanes, (d.chan feed).dec * m)
  else ((d.xfrm feed).num, (d.xfrm feed).den * 2 ^ (d.xfrm feed).hop)
/-- The TRIG section on input port 1. -/
def Dev.rawcTrig (d : Dev) (i : Nat) : Option Nat := match d.inPort i 1 with
  | some (p, o) => if p < 128 ∧ o = 0 ∧ d.kind p = 4 then some p else none
  | none => none
/-- NEED of a RAWC (R254). -/
def Dev.rawcNeed (d : Dev) (source feed m pre : Nat) : Nat × Nat × Nat :=
  if source = 9 then (0, 0, 2 + ceilDiv (2 * (d.xfrmBins feed).2 * (pre + 1)) 262144)
  else if m ≠ 1 then let r := d.rawcRate source feed 1; (0, 2 * ceilDiv r.1 (16 * r.2), 2)
  else (0, 0, 2)

/-- START's checks; 0 passes. -/
def Dev.rawcCheck (d : Dev) (i : Nat) : Nat :=
  let triggered := d.knob i 8 == 1
  let source := d.knob i 0xC
  let m := d.knob i 0x28 + 1
  let sourceOk := if source < 8 then d.cnvState source == 1
    else triggered && (match d.rawcFeed i source with
      | some f => if source = 8 then d.chanRunning f else d.xfrmRunning f && m == 1
      | none => false)
  if !sourceOk || (triggered && (d.rawcTrig i).isNone) then 2
  else if !(fits3 (d.rawcNeed source ((d.rawcFeed i source).getD 0) (if triggered then m else 1) (d.rawcPre i)) (d.trigPlaced i)) then 3
  else if triggered && (d.sectionsIn (fun s => s == 2 || s == 1 || s == 3 || s == 4)).any (fun j => j != i && d.kind j == 5 && (d.runs.get? j).isSome && d.knob j 0x10 == d.knob i 0x10) then 4
  else if triggered && decide (2 ^ 40 < d.rawcPre i + d.rawcPost i) then 5
  else 0

/-- What composition fixed: PLACED (R257). -/
def Dev.rawcComposed (d : Dev) (i : Nat) : Dev := d.setKnob i 0x4C (packTrig (d.trigPlaced i))
/-- NEED of the settings in force (R254). -/
def Dev.rawcNeeds (d : Dev) (i : Nat) : Dev :=
  let source := d.knob i 0xC
  d.setKnob i 0x48 (packTrig (d.rawcNeed source ((d.rawcFeed i source).getD 0) (if d.knob i 8 = 1 then d.knob i 0x28 + 1 else 1) (d.rawcPre i)))
/-- Bytes of a record of 2^REC_LOG2 units, or of a frame. -/
def Dev.rawcBytes (d : Dev) (source feed m log2 : Nat) : Nat :=
  if source = 9 then 96 + 2 * (d.xfrmBins feed).2
  else if m ≠ 1 then 96 + (if source = 8 then 8 else 4) * 2 ^ log2
  else if source = 8 then 64 + (if d.knobBits feed 0x3C 0 1 = 1 then 6 else 4) * 2 ^ log2 else 64 + 3 * 2 ^ log2 / 2
/-- What START clears and reports (R254, R255, R257). -/
def Dev.rawcReport (d : Dev) (i source feed m : Nat) : Dev :=
  let log2 := d.knob i 0x14
  let rate := d.rawcRate source feed m
  let d := ([0x30, 0x34, 0x40] : List Nat).foldl (fun d o => d.setKnob i o 0) (d.setWideKnob i 0x38 0)
  let d := (((d.setKnob i 0x44 (8 + d.routeClocks i)).rawcNeeds i).rawcComposed i)
  let d := d.setKnob i 0x50 (rate.1 * 1000000 * d.rawcBytes source feed m log2 / (rate.2 * (if source = 9 then 1 else 2 ^ log2)))
  (d.setKnobBits i 4 0 2 1).rawcCode i 0
/-- The first unit of a source that begins at or after the `n`-th boundary. -/
def Dev.rawcBase (d : Dev) (source feed m n : Nat) : Nat :=
  if source < 8 then ceilDiv ((d.input source).idx + n * d.lanes source) m
  else if source = 8 then ceilDiv (d.unitFrom feed (d.clk + n - 1)) m
  else d.frameFrom feed (d.clk + n - 1)
/-- CMD START (R243, R252, R257), at the `n`-th boundary: a continuous run binds its sample index, its context record says so (R34: with the crossing
when a cue made it); a triggered one begins its history at the next record boundary. NEED is reported whenever it was compared. -/
def Dev.rawcStart (d : Dev) (i : Nat) (cross : Option (Nat × Nat)) (n : Nat) : Dev :=
  if d.rawcRunning i then d.rawcCode i 1
  else
    let code := d.rawcCheck i
    if code ≠ 0 then (if code = 2 then d else d.rawcNeeds i).rawcCode i code
    else
      let triggered := d.knob i 8 == 1
      let source := d.knob i 0xC
      let feed := (d.rawcFeed i source).getD 0
      let m := if triggered then d.knob i 0x28 + 1 else 1
      let log2 := d.knob i 0x14
      let ring := d.knob i 0x10
      let input := if source < 8 then source else if source = 8 then (d.chan feed).input % 8 else d.xfrmInput feed
      let rate := d.rawcRate source feed m
      let d := d.rawcReport i source feed m
      let base := d.rawcBase source feed m n
      let u : Run := {
        kind := if triggered then .captures else .raw, source := source, tag := 0, input := input, ring := none,
        next := if triggered && source ≠ 9 then roundUp base (2 ^ log2) else base, gap := none, held := [], losses := [], ctxWait := none, ctxLast := none,
        reserve := if triggered then 512 else 256, taken := false, base := base, baseClk := d.clk + 1, rateNum := rate.1, rateDen := rate.2, per := 1 }
      let on := d.ringOn ring
      if triggered then
        let old := match d.rawcs.get? i with | some w => w.caps | none => []
        let w : Rawc := {
          trig := (d.rawcTrig i).getD 0, source := source, feed := feed,
          kind := (if m ≠ 1 then 3 else if source < 8 then 0 else if source = 8 then 1 else 2),
          input := input, log2 := log2, pre := d.rawcPre i, post := d.rawcPost i, m := m, segMax := d.knob i 0x2C, ring := ring, seg := 0, hist := [],
          floor := u.next, caps := old, accepting := true, ended := false }
        let d := { d with runs := d.runs.put i { u with ring := if on then some ring else none }, rawcs := d.rawcs.put i w }
        if on then (d.setRing ring (fun g => { g with writers := g.writers ++ [i] })).inc F.GAL_RING_STAT_WRITERS ring else d
      else
        let d := { d with runs := d.runs.put i u }
        d.startRun i ring u (d.withAxisOf i (d.inputContext source 1 0 base n cross))

/-- The run of a triggered RAWC ends at once: confirmed captures close at the last delivered unit, pending ones still resolve (R253, R258). -/
def Dev.rawcEnd (d : Dev) (i code : Nat) : Dev :=
  let d := d.rawcSettle i []
  let d := match d.rawcs.get? i with
    | none => d
    | some _ => (d.setRawc i (fun w => { w with accepting := false, ended := true, hist := [], caps := w.caps.map (fun (c : Capture) => { c with stop := min c.stop c.next }) })).rawcClose i
  ((d.endRun i).setKnobBits i 4 0 2 0).rawcCode i code

/-- CMD STOP (R258). -/
def Dev.rawcStop (d : Dev) (i : Nat) : Dev :=
  if !(d.rawcRunning i) then d.rawcCode i 1
  else match d.rawcs.get? i with
    | some w => if w.ended then d.rawcEnd i 0
      else (((d.setRawc i (fun w => { w with accepting := false })).setKnobBits i 4 1 1 1).rawcCode i 0).rawcClose i
    | none => d.rawcEnd i 0
/-- The input of the run stopped (R89, R258, R259). -/
def Dev.rawcInputStopped (d : Dev) (i : Nat) : Dev := (d.rawcEnd i 6).sectionEvent i 4

/-- The section was dark or shed up to now: the units that its run reached are lost (R62, R253), those of the source's own losses first (R26). -/
def Dev.rawcDark (d : Dev) (i cause : Nat) : Dev :=
  match d.runs.get? i with
  | none => d
  | some u =>
    let now := u.unitAt d.clk
    if now ≤ u.next then d else d.rawcSettle i [⟨u.next, now - u.next, cause⟩]
/-- The section leaves dark: a continuous run writes its context record (R96); a triggered one goes on at the next record boundary. -/
def Dev.rawcResume (d : Dev) (i cause : Nat) : Dev :=
  match d.runs.get? i with
  | none => d
  | some u =>
    if u.kind = .captures then d.rawcDark i cause
    else
      let d := d.closeGap i
      let idx := match d.runs.get? i with | some u => u.next | none => 0
      d.publishContext i (d.withAxisOf i (d.inputContext u.input 8 0 idx 1 none))

/-! ## Accepted and refused knob writes -/

/-- An accepted knob write of a TRIG. -/
def Dev.trigWrite (d : Dev) (i off v : Nat) : Dev :=
  match off with
  | 0 => if v = 1 then d.trigArm i else if v = 2 then d.trigDisarm i else if v = 3 then d.trigSoftware i else d
  | 0x38 => if v = 1 then d.maskLoad i else d
  | 0x34 => if d.knobInt i 0x30 < signed 32 v then (d.refuseKnob i).sectionEvent i 5 else d.setKnob i off v
  | _ =>
    if (off = 0x7C ∨ off = 0x80) ∧ bits v 8 1 = 1 ∧ !(match d.desc i with | some s => s.claim.getLsbD (v % 64) | none => false) then
      (d.refuseKnob i).sectionEvent i 5
    else d.setKnob i off v
/-- A refused one: MASK_CMD while armed shows STATE (R232). -/
def Dev.trigRefused (d : Dev) (i off : Nat) : Dev := (if off = 0x38 then d.trigCode i 1 else d).sectionEvent i 5
/-- An accepted knob write of a RAWC, at the `n`-th boundary. -/
def Dev.rawcWrite (d : Dev) (i off v : Nat) (cross : Option (Nat × Nat)) (n : Nat) : Dev :=
  match off with
  | 0 => if v = 1 then d.rawcStart i cross n else if v = 2 then d.rawcStop i else d
  | _ => d.setKnob i off v

/-! ## Meanings -/

/-- The mask expansion of section i ends (R232). -/
def execMaskLoadEnd (i : Fin 128) (s : State) := lift (fun d => if d.activeKind i 4 then d.maskLoadEnd i else d) s
/-- A stage-1 event on a slot; the unit decides when it completes the condition (R226–R235). -/
def execStage1Decision (i : Fin 128) (slot : Fin 4) (ev : SlotEvent) (s : State) := lift (fun d => d.outsideEvent i slot ev false) s
/-- A stage-2 event on a slot (R236). -/
def execStage2Event (i : Fin 128) (slot : Fin 4) (ev : SlotEvent) (s : State) := lift (fun d => d.outsideEvent i slot ev true) s
/-- The earliest deadline of unit i passes (R238). -/
def execDeadlineExpiry (i : Fin 128) (s : State) := lift (fun d => if d.activeKind i 4 then d.deadlineExpiry i else d) s
/-- The hold-off of unit i runs out (R240). -/
def execTrigHoldoffEnd (i : Fin 128) (s : State) := lift (fun d => if d.activeKind i 4 then d.trigHoldoffEnd i else d) s
/-- Captures of section i whose last unit is written close (R247). -/
def execCaptureClose (i : Fin 128) (s : State) := lift (fun d => d.rawcClose i) s

/-- POST: the word appears on the core's post channel and reaches the units that read it (R220, R237). -/
def Dev.corePost (d : Dev) (c : Nat) : Dev :=
  let x := (d.core c).settleLoops
  let w := x.word x.pc
  let issues := d.coreRunning c && isFrame c && (d.core c).search.isNone && (d.core c).stall.isNone && decide (x.pc < codeSize c) && !(illegalWord c w) && opOf w == 0x24 && (x.faultOf c w).isNone
  let v := (((d.setCore c Core.settleLoops).coreTick c).core c).r (fS1 w)
  let d := d.coreInstr c 0x24
  if issues then d.postVerdicts c (fD w % 8) v.toNat else d
/-- STEP of a core whose next instruction may be POST. -/
def Dev.coreStepPost (d : Dev) (c : Nat) : Dev :=
  let x := (d.core c).settleLoops
  let w := x.word x.pc
  let st := d.coreState c
  let d' := d.coreStep c
  if isFrame c && !d.halted && (st == 3 || st == 5) && decide (x.pc < codeSize c) && opOf w == 0x24 && !(illegalWord c w) && (x.faultOf c w).isNone then
    d'.postVerdicts c (fD w % 8) (x.r (fS1 w)).toNat
  else d'
/-- POST (R204, R220). -/
def execPost (c : Fin 144) (s : State) := lift (fun d => d.corePost c) s
/-- CMD STEP (R222). -/
def execCoreStep (c : Fin 144) (s : State) := host (coreCmdOff c) (fun d => d.coreStepPost c) s

end Sys2Proof.Machine
end

