-- ==== Sys2Proof/Machine/Sections.lean ====
section
/-! DEFINITION. Sections (R55, R59–R66, spec/02_formes.md): loads, dark states, knob writes, and what the stop of a source does to the runs
fed from it (R89, R142). -/
namespace Sys2Proof.Machine

/-! ## States -/

/-- Set a section's state and the counts of `FMR_STATUS`. -/
def Dev.setSec (d : Dev) (i st : Nat) : Dev :=
  let d := d.wr F.FMR_SEC_STATE_STATE st i
  (d.wr F.FMR_STATUS_ACTIVE (d.sectionsIn (· == 2)).length).wr F.FMR_STATUS_LOADING (d.sectionsIn (· == 1)).length
/-- The last status code of a section. -/
def Dev.secCode (d : Dev) (i c : Nat) : Dev := d.wr F.FMR_SEC_STATE_CODE c i
/-- A load of section i ended: its done bit (R66). -/
def Dev.secDone (d : Dev) (i : Nat) : Dev := d.setBits F.FMR_SEC_DONE_DONE (2 ^ (i % 32)) (i / 32)
/-- Change what the section keeps. -/
def Dev.setSection (d : Dev) (i : Nat) (f : Section → Section) : Dev :=
  match d.sections.get? i with
  | some s => { d with sections := d.sections.put i (f s) }
  | none => d

/-! ## Sources that stopped (R89, R142, R174, R258, R425) -/

/-- Whether converter n delivers, slots included. -/
def Dev.delivers (d : Dev) (n : Nat) : Bool := d.cnvState n == 1 || d.cnvState n == 3
/-- Whether the source of a channel, transform or capture goes on: an input below 8, channel 8, transform 9. -/
def Dev.fed (d : Dev) (source feed : Nat) : Bool :=
  if source < 8 then d.delivers source else if source = 8 then d.chanRunning feed else d.xfrmRunning feed

/-- Channels of inputs that stopped end, then the captures, transforms, traces and densities they fed. -/
def Dev.cascade (d : Dev) : Dev :=
  let d := d.rawcs.cells.foldl (fun d p => d.rawcSettle p.1 []) d
  let d := d.chans.cells.foldl (fun d p => if p.2.input < 8 && !(d.delivers p.2.input) then d.chanInputStopped p.1 else d) d
  let d := d.runs.cells.foldl (fun d p => if p.2.kind == .raw && !(d.delivers p.2.input) then d.rawcInputStopped p.1 else d) d
  let d := d.xfrms.cells.foldl (fun d p => if !(d.fed p.2.input p.2.chan) then d.xfrmInputStopped p.1 else d) d
  let d := d.rawcs.cells.foldl (fun d p => if !p.2.ended && !(d.fed p.2.source p.2.feed) then d.rawcInputStopped p.1 else d) d
  let d := d.traces.cells.foldl (fun d p => if d.xfrmRunning p.2.xfrm then d else d.traceSourceStopped p.1) d
  d.denses.cells.foldl (fun d p => if d.xfrmRunning p.2.xfrm then d else d.densSourceStopped p.1) d

/-! ## Knobs (R45, R63, R64) -/

/-- The knob map of a standard kind. -/
def stdKnob (kind off : Nat) : Option KnobRow :=
  match kind with
  | 1 => chanKnob off
  | 2 => xfrmKnobs.find? (·.off == off)
  | 3 => traceKnobs.find? (·.off == off)
  | 4 => trigKnobs.find? (·.off == off)
  | 5 => rawcKnobs.find? (·.off == off)
  | 6 => densKnob off
  | _ => none
/-- A knob of an image that stands for a standard one (R45, R165): what either row forbids is refused, and the bounds are the narrower ones; with another
sign the standard bounds (DESIGN CHOICE, log entry 33: a composer's maps agree with the chapters). -/
def KnobRow.within (k s : KnobRow) : KnobRow :=
  { k with
    signed_ := s.signed_, readOnly := k.readOnly || s.readOnly, shadowable := k.shadowable && s.shadowable, lockedByRun := k.lockedByRun || s.lockedByRun,
    lo := if k.signed_ = s.signed_ then max k.lo s.lo else s.lo, hi := if k.signed_ = s.signed_ then min k.hi s.hi else s.hi }
/-- The knob map entry of an offset (R45, R55, R63): none where the map of the section's newest load has no such offset (R6). -/
def Dev.knobRow (d : Dev) (i off : Nat) : Option KnobRow :=
  match d.maps.get? i with
  | none => none
  | some m => (m.2.find? (·.off == off)).map (fun k => match stdKnob m.1 off with
    | some s => k.within s
    | none => k)
/-- Whether a value lies within a knob's bounds. -/
def KnobRow.accepts (k : KnobRow) (v : Nat) : Bool :=
  let x : Int := if k.signed_ then signed 32 v else v
  decide (k.lo ≤ x ∧ x ≤ k.hi)
/-- Whether the section's run is active. -/
def Dev.runActive (d : Dev) (i : Nat) : Bool :=
  match d.kind i with
  | 1 => d.chanRunning i
  | 2 => d.xfrmRunning i
  | 3 => d.traceRunning i
  | 4 => d.trigState i != 0
  | 5 => d.rawcRunning i
  | 6 => d.densRunning i
  | _ => false

/-- A refused write of an ACTIVE section's knob: what its kind adds to R63. -/
def Dev.knobRefused (d : Dev) (i off v : Nat) : Dev :=
  let d := d.refuseKnob i
  match d.kind i with
  | 1 => d.chanRefused i off
  | 2 => d.xfrmRefused i off v
  | 3 => d.sectionEvent i 2
  | 4 => d.trigRefused i off
  | 5 => d.sectionEvent i 5
  | 6 => d.sectionEvent i 2
  | _ => d
/-- An accepted write takes effect at the `n`-th boundary; `cross` when a cue made it. -/
def Dev.knobTake (d : Dev) (i off v : Nat) (cross : Option (Nat × Nat)) (n : Nat) : Dev :=
  (match d.kind i with
  | 1 => d.chanWrite i off v cross n
  | 2 => d.xfrmWrite i off v
  | 3 => d.traceWrite i off v
  | 4 => d.trigWrite i off v
  | 5 => d.rawcWrite i off v cross n
  | 6 => d.densWrite i off v cross n
  | _ => d.setKnob i off v).cascade
/-- A host write in a knob window (R63, R64; R6 outside the knob map); on the clock of a cue commit it takes effect one clock later. -/
def Dev.knobWrite (d : Dev) (i off v : Nat) : Dev :=
  match d.knobRow i off with
  | none => d
  | some k =>
    if d.secState i ≠ 2 then d.refuseKnob i
    else if k.readOnly || !(k.accepts v) || (k.lockedByRun && d.runActive i) then d.knobRefused i off v
    else if d.is F.FMR_SEC_STATE_KNOB_HOLD i then d.setSection i (fun s => { s with held := s.held.filter (fun p => p.1 != off) ++ [(off, v)] })
    else (d.knobTake i off v none (if d.cueCame (knobAt i off) then 2 else 1)).noteTurn (knobAt i off) (some v)
/-- A cue commits a knob (R34, R64); a host value of the same clock follows on the next. -/
def Dev.knobCommit (d : Dev) (i off v : Nat) (cross : Option (Nat × Nat)) : Dev :=
  let host := d.hostGave (knobAt i off)
  let d := (d.knobTake i off v cross 1).noteTurn (knobAt i off) none
  match host with
  | some h => d.knobTake i off h none 2
  | none => d
/-- A cue commits both halves of a tuning word (R146); host values of the same clock follow on the next. -/
def Dev.ncoCommit (d : Dev) (i lo hi : Nat) (cross : Option (Nat × Nat)) : Dev :=
  let hostLo := d.hostGave (knobAt i 0x18)
  let hostHi := d.hostGave (knobAt i 0x1C)
  let d := (((d.setKnob i 0x18 lo).setKnob i 0x1C hi).chanRetune i cross 1).noteTurn (knobAt i 0x1C) none
  let d := match hostLo with
    | some v => d.setKnob i 0x18 v
    | none => d
  match hostHi with
  | some v => (d.setKnob i 0x1C v).chanRetune i none 2
  | none => d

/-! ## Entering and leaving ACTIVE -/

/-- Prepared KNOB and NCO cues of a section that leaves ACTIVE lose what they prepared (R275). -/
def Dev.cuesLose (d : Dev) (i : Nat) : Dev :=
  d.cues.armed.cells.foldl (fun d p =>
    if d.cueState p.1 = 2 ∧ ((d.cueAction p.1 = 1 ∧ bits (d.cueWord p.1 6) 24 7 = i) ∨ (d.cueAction p.1 = 2 ∧ bits (d.cueWord p.1 7) 24 7 = i)) then
      d.setCue p.1 (fun c => { c with lost := true }) else d) d

/-- Section i leaves ACTIVE: held knob values go (R64), a trigger unit resolves what it holds (R226), the march of its sorts ends (R364),
its halyards are released unless it is HELD (R43). -/
def Dev.leaveActive (d : Dev) (i : Nat) (held : Bool) : Dev :=
  let d := (d.setSection i (fun s => { s with held := [], darkFrom := some (s.darkFrom.getD d.clk) })).flag F.FMR_SEC_STATE_KNOB_HOLD false i
  let d := (if d.kind i = 4 then d.trigDark i else d).cuesLose i
  if held then d else (d.marchAbort i).releaseDriver 1 i 64

/-- What section i lost up to now while it was dark or shed goes into the ledgers (R62): of its run's units those that a slot or blanking of the
converter withholds first (R26); of a transform the frames that did not leave (R178). -/
def Dev.darkLoss (d : Dev) (i cause : Nat) : Dev :=
  let d := if d.xfrmRunning i then d.framesGone i cause (d.frameNow i) else d
  match d.runs.get? i with
  | none => d
  | some u =>
    let now := u.unitAt d.clk
    if now ≤ u.next then d
    else match u.kind with
      | .captures => d.rawcDark i cause
      | .trace => d.traceDark i now cause
      | .dens => d.densDark i now cause
      | _ => (d.noteOpen i).noteLoss i ⟨u.next, now - u.next, cause⟩

/-- Every run and stream of a section ends now, without a record of its own beyond an open gap; its registers forget it. UNLOAD ends the run of a
standard product as the stop of its source does (R142, R167, R183, R418). -/
def Dev.endSection (d : Dev) (i : Nat) (unload : Bool) : Dev :=
  let d := match d.kind i with
    | 1 => if d.chanRunning i then (if unload then d.chanInputStopped i else d.chanEnd i 0) else d
    | 2 => if d.xfrmRunning i then (if unload then d.xfrmInputStopped i else d.xfrmEnd i 0) else d
    | 3 => if d.traceRunning i then (if unload then d.traceSourceStopped i else d.traceEnd i 0) else d
    | 4 => d.trigDark i
    | 5 => if d.rawcRunning i then d.rawcEnd i 0 else d
    | 6 => if d.densRunning i then (if unload then d.densSourceStopped i else d.densEnd i 0) else d
    | _ => d
  { d.endRun i with
    sections := d.sections.erase i,
    windows := d.windows.erase i }
/-- Whether a loss is one of the section's own states. -/
def Loss.dark (l : Loss) : Bool := l.cause == 6 || l.cause == 2
/-- UNLOAD ends the run at the last unit accounted for, without a gap for dark units (R62): the dark gap in progress goes, with those it follows. -/
def Dev.endQuiet (d : Dev) (i : Nat) : Dev :=
  d.setRun i (fun u =>
    if (match u.gap with | some g => g.dark | none => false) then
      { u with losses := [], gap := none, held := (u.held.reverse.dropWhile Loss.dark).reverse }
    else { u with losses := [] })

/-- Reset values of the knobs of a kind. -/
def knobReset (kind i off : Nat) : Nat :=
  match kind with
  | 1 => chanReset i off
  | 2 => xfrmReset off
  | 3 => traceReset i off
  | 4 => trigReset i off
  | 5 => rawcReset off
  | 6 => densReset i off
  | _ => 0
/-- Offsets among which a kind's knobs with reset values other than 0 lie. -/
def resetOffsets (kind : Nat) : List Nat := (List.range 96).map (4 * ·) ++ (if kind = 6 then (List.range 256).map (fun k => 0x1000 + 4 * k) else [])
/-- The knob window of a section after a load: reset values, the image's initial values (R45), the sorts placed. -/
def Dev.initKnobs (d : Dev) (i : Nat) (s : SectionDesc) : Dev :=
  let lo := knobAt i 0
  let d := { d with
    regs := d.regs.keep (fun p => !(decide (lo ≤ p.1 ∧ p.1 < lo + 0x20000))),
    wide := d.wide.keep (fun p => !(decide (lo ≤ p.1 ∧ p.1 < lo + 0x20000))) }
  let d := (resetOffsets s.kind).foldl (fun d o => d.setKnob i o (knobReset s.kind i o)) d
  s.initial.foldl (fun d p => d.setKnob i p.1 p.2) d

/-! ## Loads (R59–R62) -/

/-- The head of the load queue begins to run, when it waits. -/
def Dev.kickLoad (d : Dev) : Dev :=
  match d.loads with
  | [] => d
  | l :: t => if l.started = 0 then { d with loads := ⟨l.sec, l.slot, d.clk + 1⟩ :: t } else d
/-- Section i leaves the load queue. -/
def Dev.dropLoad (d : Dev) (i : Nat) : Dev := ({ d with loads := d.loads.filter (fun (l : Load) => l.sec != i) } : Dev).kickLoad

/-- OP LOAD (R59, R61). A LOAD from HELD is no row of R59: the state stays, and CODE shows STATE, as OP KNOB_HOLD does (DESIGN CHOICE, log entry 33).
The knob map of the section is now that of this load (R55, R63). -/
def Dev.secLoad (d : Dev) (i k : Nat) (supersede : Bool) : Dev :=
  let st := d.secState i
  let reef := d.rd F.PWR_STATUS_REEF
  if reef = 3 then d.secCode i codeHalted
  else if reef ≠ 0 then d.secCode i codeReefed
  else if d.rd F.FMR_IMG_STATUS_STATE k ≠ 2 || ((d.slot k).image.bind (fun im => im.sections.find? (·.index == i))).isNone then d.secCode i codeNotVerified
  else if st = 3 then d.secCode i codeState
  else if st = 1 ∧ !supersede then d.secCode i codeBusy
  else
    let d := if st = 1 then (((d.dropLoad i).inc F.FMR_SEC_COUNT_ABANDONED i).secDone i).raise 7 5 else d
    let d := if st = 2 then d.leaveActive i false else if st = 4 then d.darkLoss i 2 else d
    let d := ((d.setSec i 1).wr F.FMR_SEC_STATE_SLOT k i).secCode i 0
    let maps := match (d.slot k).image.bind (fun im => im.sections.find? (·.index == i)) with
      | some s => d.maps.put i (s.kind, s.knobs)
      | none => d.maps
    ({ d with loads := d.loads ++ [(⟨i, k, 0⟩ : Load)], maps := maps } : Dev).kickLoad

/-- Densities of a transform that waited for its first frame begin with frame f (R178, R421). -/
def Dev.densesBegin (d : Dev) (x f : Nat) : Dev :=
  d.denses.cells.foldl (fun d p => if p.2.xfrm = x ∧ (d.runs.get? p.1).isNone then d.densBegin p.1 f else d) d
/-- Every run of the section that goes on leaves dark with its first context record (R62), each kind by its own chapter. -/
def Dev.resumeRuns (d : Dev) (i : Nat) : Dev :=
  let d := match d.kind i with
    | 1 => if d.chanRunning i then (d.setKnobBits i 4 0 1 1).chanResume i else d
    | 2 =>
      if d.xfrmRunning i then
        let d := (d.setKnobBits i 4 0 1 1).xfrmResume i
        match (d.xfrm i).gone.getLast? with
        | some l => if d.xfrmRunning i then d.densesBegin i (l.start + l.count) else d
        | none => if d.xfrmRunning i then d.densesBegin i (d.frameNow i) else d
      else d
    | 3 => if d.traceRunning i && (d.runs.get? i).isSome then (d.setKnobBits i 4 0 1 1).traceResume i else d
    | 5 => if (d.runs.get? i).isSome then (d.setKnobBits i 4 0 1 1).rawcResume i 6 else d
    | 6 => if d.densRunning i && (d.runs.get? i).isSome then (d.setKnobBits i 4 0 1 1).densResume i else d
    | _ => d
  d.setSection i (fun s => { s with darkFrom := none })
/-- What composition fixed is shown from the load on: PLACED, and PIPE_CLK of channels and transforms (R165, R195, R196, R256, R257, R429). -/
def Dev.composed (d : Dev) (i : Nat) : Dev :=
  match d.kind i with
  | 1 => d.chanComposed i
  | 2 => d.xfrmComposed i
  | 3 => d.traceComposed i
  | 4 => d.trigComposed i
  | 5 => d.rawcComposed i
  | 6 => d.densComposed i
  | _ => d

/-- The load at the head of the queue ends (R59–R62): the first failing check's code, or the section ACTIVE at the next clock. -/
def Dev.loadComplete (d : Dev) : Dev :=
  match d.kickLoad.loads with
  | [] => d
  | l :: rest =>
    let i := l.sec
    match (d.slot l.slot).image.bind (fun im => im.sections.find? (·.index == i)) with
    | none => d
    | some s =>
      let clocks := 50000 + (s.bodyLen + 7) / 8
      let d := d.kickLoad.advanceTo (l.started - 1 + clocks)
      let d := { d with loads := rest }.secDone i
      let code := d.loadCode i l.slot s
      let old := d.kind i
      let d := if code ≠ 0 ∨ (old ≠ 0 ∧ old ≠ s.kind) then (d.darkLoss i 6).endSection i false else d
      let d :=
        if code ≠ 0 then ((d.setSec i 0).secCode i code).raise 7 4
        else
          let d := d.darkLoss i 6
          let from_ := (d.sections.get? i).bind (·.darkFrom)
          let ring := match d.sections.get? i with
            | some x => x.ring
            | none => d.fresh % 1024
          let d := { d with sections := d.sections.put i ⟨s, [], from_, 0, ring⟩, windows := d.windows.erase i }.usedFree
          let d := ((List.range 64).filter (fun h => s.claim.getLsbD h)).foldl (fun d h => d.recordDriver h 1 i) d
          let d := ((d.initKnobs i s).setSection i (fun x => { x with tw := (d.initKnobs i s).ncoWord i })).composed i
          let d := ((d.setSec i 2).secCode i 0).wr F.FMR_SEC_LOADTIME_LOADTIME (clocks / 1000) i
          ((((d.sortsLoad s).conflictsClear i).tilesLoad s).raise 7 3).resumeRuns i
      d.kickLoad.cascade

/-- OP UNLOAD (R59, R62). -/
def Dev.secUnload (d : Dev) (i : Nat) : Dev :=
  let st := d.secState i
  let d := if st = 1 then (d.dropLoad i).secDone i else d
  let d := if st = 2 ∨ st = 3 then d.leaveActive i false else d
  let d := ((d.endQuiet i).endSection i true).releaseDriver 1 i 64
  ((d.setSec i 0).secCode i 0).cascade
/-- OP HOLD_DARK (R60). In a state that R59 does not list the code is STATE (DESIGN CHOICE, log entry 33). -/
def Dev.secHold (d : Dev) (i : Nat) : Dev :=
  if d.secState i = 2 then ((d.leaveActive i true).setSec i 3).secCode i 0 else d.secCode i codeState
/-- OP RELEASE (R59): the section's state is cleared by reset; its knobs keep their values. In a state that R59 does not list the code is STATE
(DESIGN CHOICE, log entry 33). -/
def Dev.secRelease (d : Dev) (i : Nat) : Dev :=
  if d.secState i = 3 then
    let d := ((((d.marchAbort i).darkLoss i 6).setSec i 2).secCode i 0)
    let d := match d.desc i with
      | some s => d.tilesRelease s
      | none => d
    (d.resumeRuns i).cascade
  else d.secCode i codeState
/-- OP KNOB_HOLD (R64). -/
def Dev.knobHold (d : Dev) (i : Nat) : Dev :=
  if d.secState i = 2 then (d.flag F.FMR_SEC_STATE_KNOB_HOLD true i).secCode i 0 else d.secCode i codeState
/-- OP KNOB_APPLY (R64). -/
def Dev.knobApply (d : Dev) (i : Nat) : Dev :=
  if d.secState i = 2 then
    let held := match d.sections.get? i with
      | some s => s.held
      | none => []
    let d := (((d.setSection i (fun s => { s with held := [] })).flag F.FMR_SEC_STATE_KNOB_HOLD false i).secCode i 0)
    held.foldl (fun d p => d.knobTake i p.1 p.2 none 1) d
  else d.secCode i codeState

/-- A reef or the halt sheds section i (R59, R62, R66, R465). -/
def Dev.shed (d : Dev) (i : Nat) : Dev :=
  let st := d.secState i
  if st = 0 ∨ st = 4 then d
  else
    let d := if st = 1 then ((d.dropLoad i).secDone i).secCode i codeReefed else d
    let d := if st = 2 ∨ st = 3 then d.leaveActive i false else d
    let d := if st = 1 ∨ st = 3 then d.darkLoss i 6 else d
    (d.setSec i 4).raise 7 6

/-! ## Stop of a converter (R88, R89) -/

/-- Converter n stops at the next boundary: blanking and a slot's gap end there, runs fed from it end without a gap. -/
def Dev.cnvHalt (d : Dev) (n st code : Nat) : Dev :=
  let d := (d.endBlank n).closeSlotGap n (d.nextIdx n)
  ((d.wr F.CNV_STATUS_STATE st n).cnvCode n code).cascade
/-- A halt takes input n to STOPPED (R88, R468): its calibration is abandoned, the switch returns, a held attenuator setting applies (R72). -/
def Dev.haltInput (d : Dev) (n : Nat) : Dev :=
  let st := d.cnvState n
  let d := d.calAbandon n
  if st = 1 ∨ st = 2 ∨ st = 3 then (((d.cnvHalt n 0 (d.rd F.CNV_STATUS_CODE n)).flag F.CNV_STATUS_TONE false n)).releaseAtten n else d
/-- CMD STOP (R88, R89). -/
def Dev.cnvStop (d : Dev) (n : Nat) : Dev :=
  match d.cnvState n with
  | 0 => d.cnvCode n 2
  | 1 => d.cnvHalt n 0 0
  | 2 => d.cnvCode n 1
  | 3 => d.cnvHalt n 2 0
  | _ => d.cnvCode n 3
/-- The elastic buffer of input n shows `fill` (R131). -/
def Dev.ebufSlip (d : Dev) (n : Nat) (fill : Int) : Dev :=
  let d := d.wr F.CLK_EBUF_FILL (unsigned 8 fill) n
  if 56 ≤ fill.natAbs ∧ d.cnvState n = 1 then
    let d := (d.cnvHalt n 0 0).mark F.CLK_EBUF_SLIP_STOP n
    { d with clocks := { d.clocks with slipped := d.clocks.slipped.put n () } }.raise 1 31
  else d

/-! ## Meanings -/

/-- Offset of a section's OP register, and of a knob. -/
def secOp (i : Nat) : Nat := 0x101000 + i * 0x10

/-- OP LOAD without SUPERSEDE (R59, R61). -/
def execLoad (i : Fin 128) (k : Fin 2) (s : State) := host (secOp i) (fun d => d.secLoad i k false) s
/-- OP LOAD with SUPERSEDE (R59). -/
def execLoadSupersede (i : Fin 128) (k : Fin 2) (s : State) := host (secOp i) (fun d => d.secLoad i k true) s
/-- The next queued load starts when none runs (R61). -/
def execQueuedLoadStart (s : State) := lift Dev.kickLoad s
/-- The running load ends (R59–R62). -/
def execLoadComplete (s : State) := lift Dev.loadComplete s
/-- OP UNLOAD (R59, R62). -/
def execUnload (i : Fin 128) (s : State) := host (secOp i) (fun d => d.secUnload i) s
/-- OP HOLD_DARK (R59, R60). -/
def execHoldDark (i : Fin 128) (s : State) := host (secOp i) (fun d => d.secHold i) s
/-- OP RELEASE (R59). -/
def execSectionRelease (i : Fin 128) (s : State) := host (secOp i) (fun d => d.secRelease i) s
/-- OP KNOB_HOLD (R64). -/
def execKnobHold (i : Fin 128) (s : State) := host (secOp i) (fun d => d.knobHold i) s
/-- OP KNOB_APPLY (R64). -/
def execKnobApply (i : Fin 128) (s : State) := host (secOp i) (fun d => d.knobApply i) s
/-- A host write of a knob (R63, R64). -/
def execKnobWrite (i : Fin 128) (off : BitVec 17) (v : Word) (s : State) := host (knobAt i off.toNat) (fun d => d.knobWrite i off.toNat v.toNat) s
/-- CHAN CMD START (R142, R147). -/
def execChanStart (i : Fin 128) (s : State) := host (knobAt i 0) (fun d => if d.kind i = 1 then d.knobWrite i 0 1 else d) s
/-- CHAN CMD STOP (R142). -/
def execChanStop (i : Fin 128) (s : State) := host (knobAt i 0) (fun d => if d.kind i = 1 then d.knobWrite i 0 2 else d) s
/-- CHAN INPUT_SEL (R144). -/
def execInputSwitch (i : Fin 128) (v : Fin 9) (s : State) := host (knobAt i 0xC) (fun d => if d.kind i = 1 then d.knobWrite i 0xC v else d) s
/-- CHAN NCO_HI (R145, R146). -/
def execNcoHiWrite (i : Fin 128) (v : BitVec 16) (s : State) := host (knobAt i 0x1C) (fun d => if d.kind i = 1 then d.knobWrite i 0x1C v.toNat else d) s
/-- XFRM CMD START (R174). -/
def execXfrmStart (i : Fin 128) (s : State) := host (knobAt i 0) (fun d => if d.kind i = 2 then d.knobWrite i 0 1 else d) s
/-- XFRM CMD STOP (R174). -/
def execXfrmStop (i : Fin 128) (s : State) := host (knobAt i 0) (fun d => if d.kind i = 2 then d.knobWrite i 0 2 else d) s
/-- XFRM WIN_CMD (R172). -/
def execWindowLoad (i : Fin 128) (s : State) := host (knobAt i 0x18) (fun d => if d.kind i = 2 then d.knobWrite i 0x18 1 else d) s
/-- TRACE CMD START (R182). -/
def execTraceStart (i : Fin 128) (s : State) := host (knobAt i 0) (fun d => if d.kind i = 3 then d.knobWrite i 0 1 else d) s
/-- TRACE CMD STOP (R182). -/
def execTraceStop (i : Fin 128) (s : State) := host (knobAt i 0) (fun d => if d.kind i = 3 then d.knobWrite i 0 2 else d) s
/-- TRIG CMD ARM (R225, R226). -/
def execTrigArm (i : Fin 128) (s : State) := host (knobAt i 0) (fun d => if d.kind i = 4 then d.knobWrite i 0 1 else d) s
/-- TRIG CMD DISARM (R226). -/
def execTrigDisarm (i : Fin 128) (s : State) := host (knobAt i 0) (fun d => if d.kind i = 4 then d.knobWrite i 0 2 else d) s
/-- TRIG CMD SOFTWARE (R227). -/
def execTrigSoftware (i : Fin 128) (s : State) := host (knobAt i 0) (fun d => if d.kind i = 4 then d.knobWrite i 0 3 else d) s
/-- TRIG MASK_CMD (R232). -/
def execMaskLoad (i : Fin 128) (s : State) := host (knobAt i 0x38) (fun d => if d.kind i = 4 then d.knobWrite i 0x38 1 else d) s
/-- RAWC CMD START (R243, R252, R257). -/
def execRawcStart (i : Fin 128) (s : State) := host (knobAt i 0) (fun d => if d.kind i = 5 then d.knobWrite i 0 1 else d) s
/-- RAWC CMD STOP (R258). -/
def execRawcStop (i : Fin 128) (s : State) := host (knobAt i 0) (fun d => if d.kind i = 5 then d.knobWrite i 0 2 else d) s
/-- DENS CMD START (R419). -/
def execDensStart (i : Fin 128) (s : State) := host (knobAt i 0) (fun d => if d.kind i = 6 then d.knobWrite i 0 1 else d) s
/-- DENS CMD STOP (R419). -/
def execDensStop (i : Fin 128) (s : State) := host (knobAt i 0) (fun d => if d.kind i = 6 then d.knobWrite i 0 2 else d) s
/-- CMD STOP of an input (R88, R89). -/
def execCnvStop (n : Fin 8) (s : State) := host (0xC0000 + n.val * 0x1000) (fun d => d.cnvStop n) s
/-- The elastic buffer of input n drifted to `fill` (R131). -/
def execEbufSlipStop (n : Fin 8) (fill : Int) (s : State) := lift (fun d => d.ebufSlip n fill) s

end Sys2Proof.Machine
end

