-- ==== Sys2Proof/Machine/Time.lean ====
section
/-! DEFINITION. Timekeeping (R284–R292), event time-stamps and measurement units (R301–R307), marker outputs (R308, R309)
(spec/11_time.md). PTP stamps and launch queues stand with the Ethernet ports. -/
namespace Sys2Proof.Machine

/-- Change the time state. -/
def Dev.setTime (d : Dev) (f : Time → Time) : Dev := { d with time := f d.time }
/-- Let time pass until the local clock reaches `t` (nothing when it has). -/
def Dev.advanceLocal (d : Dev) (t : Nat) : Dev := d.advance ((t - d.localTime + d.cycle - 1) / max 1 d.cycle)

/-! ## Rate, epochs, steps -/

/-- The bound of the rate: 1,000 ppm (R285). -/
def rateBound : Int := 281474976710
/-- Put a rate in force (R285): the sum of the host's and the transfer term, clamped. -/
def Dev.putRate (d : Dev) : Dev :=
  let v := unsigned 40 (clampInt (-rateBound) rateBound (d.time.own + d.time.transfer))
  let d := if unsigned 40 d.rate = v then d else d.bend
  (d.wr F.TIM_RATE_ACT_LO_RATE v).wr F.TIM_RATE_ACT_HI_RATE (v / 2 ^ 32)
/-- The newest rate committed on a clock that is `due` takes effect (R285); one committed on another still waits. -/
def Dev.takeRate (d : Dev) (due : Nat → Bool) : Dev :=
  let rest := d.time.ratePend.filter (fun p => !(due p.1))
  let due := d.time.ratePend.filter (fun p => due p.1)
  ((d.setTime (fun t => { t with own := (due.getLast?.map (·.2)).getD t.own, ratePend := rest })).flag F.TIM_RATE_ACT_HI_PENDING (!rest.isEmpty)).putRate
/-- The write of `TIM_RATE_HI` (R285): before the first alignment the rate takes effect at once, afterwards at the next anchor tick. -/
def Dev.rateCommit (d : Dev) (hi : Word) : Dev :=
  let d := d.plainWrite 0x5001C hi
  let v := signed 40 (d.rd F.TIM_RATE_LO_RATE + d.rd F.TIM_RATE_HI_RATE * 2 ^ 32)
  if v < -rateBound ∨ rateBound < v then d.wr F.TIM_STATUS_CODE 3
  else
    let d := (d.setTime (fun t => { t with ratePend := t.ratePend ++ [(d.clk, v)] })).wr F.TIM_STATUS_CODE 0
    if d.is F.CLK_STATUS_ALIGNED then d.flag F.TIM_RATE_ACT_HI_PENDING true else d.takeRate (fun _ => true)

/-- Whether no input is RUNNING or in SLOT (R287). -/
def Dev.acqStopped (d : Dev) : Bool := (List.range 8).all (fun n => d.cnvState n != 1 && d.cnvState n != 3)
/-- A refused command of `TIM_CMD` (R288). -/
def Dev.timRefuse (d : Dev) (code : Nat) : Dev := (d.wr F.TIM_STATUS_CODE code).raise 2 2
/-- NEW_EPOCH (R288). -/
def Dev.newEpoch (d : Dev) : Dev :=
  if d.is F.STY_STATUS_ISOLATED || d.is F.STY_STATUS_SLEWING then d.timRefuse 4
  else if !d.acqStopped then d.timRefuse 2
  else (((d.wr F.TIM_STATUS_EPOCH (d.epoch + 1)).flag F.TIM_STATUS_STEP_AVAIL true).wr F.TIM_STATUS_CODE 0).raise 2 0

/-! ## TDC and measurement units -/

/-- TDC input n. -/
def Dev.tdc (d : Dev) (n : Nat) : Tdc := d.time.tdc.getD n ⟨0, none, [], 0, 0, none⟩
/-- Change it; FILL shows its queue. -/
def Dev.setTdc (d : Dev) (n : Nat) (f : Tdc → Tdc) : Dev :=
  let d := d.setTime (fun t => { t with tdc := t.tdc.put n (f (d.tdc n)) })
  d.wr F.TDC_IN_STATUS_FILL (d.tdc n).queue.length n
/-- Source id of a TDC input (R301). -/
def tdcSource (n : Nat) : Nat := if n < 16 then 0x40 + n else 0xF4 + (n - 16)

/-- The events at the head of a queue with consecutive numbers. -/
def evenRun : Nat → List TdcStamp → List TdcStamp
  | 0, _ => []
  | _, [] => []
  | k + 1, a :: t => match t with
    | b :: _ => if b.evno = a.evno + 1 then a :: evenRun k t else [a]
    | [] => [a]

/-- Close the open batch of an input (R303, R304). A ring without space stalls the drain. -/
def Dev.batchClose (d : Dev) (n : Nat) : Dev :=
  let t := d.tdc n
  let evs := evenRun (2 ^ min 8 (d.rd F.TDC_IN_CFG_BATCH_LOG2 n)) t.queue
  match evs with
  | [] => d.setTdc n (fun t => { t with batch := none })
  | e :: _ =>
    let r := d.rd F.TDC_IN_RING_RING n
    let x : Rec :=
      { type := 6, source := tdcSource n, flags := d.unitFlags, epoch := e.epoch, trig := 0, start := e.evno, count := evs.length, time := e.time,
        axisId := d.axisOf r, axis := d.axisValue (d.axisOf r), scale := 0,
        payload := leBytes 8 t.lost ++ leBytes 8 t.dead ++
          evs.flatMap (fun e => leBytes 12 e.time ++ leBytes 2 e.epoch ++ leBytes 1 (if e.falling then 1 else 0) ++ leBytes 1 0) }
    if d.ringOn r && decide (d.free r < d.needs r x) then d
    else
      let d := d.publishLoose r x id
      let rest := t.queue.drop evs.length
      d.setTdc n (fun t => { t with queue := rest, lost := 0, dead := 0, batch := if rest.isEmpty then none else some d.clk })

/-- Round half to even a quotient. -/
def divEven (a : Int) (b : Nat) : Int :=
  let b := max 1 b
  let q := a / b
  let r := a % b
  if 2 * r < b then q else if (b : Int) < 2 * r then q + 1 else if q % 2 = 0 then q else q + 1
/-- The square root of a / b, rounded half to even. -/
def sqrtEven (a b : Nat) : Nat :=
  let b := max 1 b
  let r := Nat.sqrt (a / b)
  let m := (2 * r + 1) * (2 * r + 1) * b
  if 4 * a < m then r else if m < 4 * a then r + 1 else if r % 2 = 0 then r else r + 1

/-- Mean, deviation, least, greatest of a measurement (R306). FREQUENCY: the line through (index, stamp). -/
def Meas.results (m : Meas) (mode : Nat) : Int × Nat × Int × Int :=
  if mode = 3 then
    let n := m.n
    let si : Int := (n * (n - 1) / 2 : Nat)
    let sii : Int := (n * (n - 1) * (2 * n - 1) / 6 : Nat)
    let dxx := n * sii - si * si
    let dxy := n * m.ix - si * m.sum
    let dyy := n * m.sq - m.sum * m.sum
    (if dxy ≤ 0 then 0 else divEven ((10 ^ 15 * 2 ^ 18 : Nat) * dxx) dxy.toNat, sqrtEven (dyy * dxx - dxy * dxy).toNat (n * n * dxx.toNat), 0, 0)
  else (divEven m.sum m.n, sqrtEven (m.n * m.sq - m.sum * m.sum).toNat (m.n * m.n), m.least, m.most)

/-- The TIMESTAMP96 of a stamp counted in 2^-18 ns. -/
def stampOf (t : Nat) : Nat := t / (2 ^ 18 * 1000000000) * 2 ^ 48 + t % (2 ^ 18 * 1000000000)
/-- The stamp of a local time, in 2^-18 ns. -/
def stampTicks (t : Nat) : Nat := t / 2 ^ 46

/-- Units of a measurement used: edges for FREQUENCY, else intervals. -/
def Dev.meas (d : Dev) (u : Nat) : Option Meas := d.time.meas.get? u
/-- Replace a unit's measurement. -/
def Dev.setMeas (d : Dev) (u : Nat) (m : Option Meas) : Dev :=
  d.setTime (fun t => { t with meas := match m with | some x => t.meas.put u x | none => t.meas.erase u })
/-- A measurement that has used nothing yet. -/
def Meas.fresh (cfg target gate : Nat) : Meas := ⟨none, 0, 0, 0, 0, 0, 0, none, (0, 0), 0, cfg, target, gate⟩

/-- The statistics record of a completed or aborted measurement (R307). -/
def Dev.statRecord (d : Dev) (u code : Nat) (m : Meas) : Dev :=
  let mode := bits m.cfg 0 2
  let a := bits m.cfg 8 5
  if !(m.cfg.testBit 28) then d
  else
    let r := d.rd F.TDC_M_RING_RING u
    let f := m.first.getD (0, 0, 0)
    let v := if m.n = 0 then (0, 0, 0, 0) else m.results mode
    let span := if mode = 3 then m.gate else (divEven ((m.last.1 - f.1 : Nat) : Int) (2 ^ 18)).toNat
    d.publishLoose r
      { type := 0x0D, source := tdcSource a, flags := d.unitFlags, epoch := f.2.2, trig := 0, start := f.2.1, count := min (2 ^ 32 - 1) m.n, time := stampOf f.1,
        axisId := d.axisOf r, axis := d.axisValue (d.axisOf r), scale := 0,
        payload := leBytes 1 u ++ leBytes 1 mode ++ leBytes 1 code ++ leBytes 1 (bits m.cfg 24 1) ++ leBytes 2 (d.rd F.TDC_M_STATUS_SEQ u) ++ leBytes 1 a ++
          leBytes 1 (if mode = 2 then bits m.cfg 16 5 else 0) ++ leBytes 8 (unsigned 64 v.1) ++ leBytes 8 v.2.1 ++ leBytes 8 (unsigned 64 v.2.2.1) ++
          leBytes 8 (unsigned 64 v.2.2.2) ++ leBytes 8 span ++ leBytes 12 (stampOf m.last.1) ++ leBytes 2 m.last.2 ++ leBytes 2 0 } id

/-- A measurement ends without a result: ABORT, EPOCH, INPUT, FEW (R306). -/
def Dev.measAbort (d : Dev) (u code : Nat) : Dev :=
  match d.meas u with
  | some m => (((d.setMeas u none).wr F.TDC_M_STATUS_STATE 3 u).wr F.TDC_M_STATUS_CODE code u).statRecord u code m
  | none => d

/-- The measurement that follows one under REPEAT: consecutive intervals and gates share an edge. -/
def Meas.next (m : Meas) (mode ev : Nat) : Meas :=
  let f := Meas.fresh m.cfg m.target m.gate
  if mode = 2 then f
  else
    let f := { f with open_ := some m.last.1, first := some (m.last.1, ev, m.last.2), last := m.last }
    if mode = 3 then { f with n := 1, gateEnd := m.last.1 + m.gate * 2 ^ 18 } else f

/-- A measurement completes (R306): its results stand, the sequence number counts, G3 source 20 + u; `ev` is the event number of its last edge. -/
def Dev.measDone (d : Dev) (u ev : Nat) (m : Meas) : Dev :=
  let mode := bits m.cfg 0 2
  let v := m.results mode
  let d := (((d.setWide F.TDC_M_RES_MEAN (unsigned 64 v.1) u).setWide F.TDC_M_SDEV_SDEV v.2.1 u).setWide F.TDC_M_MIN_MIN (unsigned 64 v.2.2.1) u).setWide
    F.TDC_M_MAX_MAX (unsigned 64 v.2.2.2) u
  let d := (d.setWide F.TDC_M_COUNT_COUNT (min (2 ^ 32 - 1) m.n) u).wr F.TDC_M_STATUS_SEQ (d.rd F.TDC_M_STATUS_SEQ u + 1) u
  let d := ((d.wr F.TDC_M_STATUS_CODE 0 u).raise 3 (20 + u)).statRecord u 0 m
  if m.cfg.testBit 24 then d.setMeas u (some (m.next mode ev)) else (d.setMeas u none).wr F.TDC_M_STATUS_STATE 2 u

/-- A gate ends (R306): fewer than 3 edges end it with FEW. -/
def Dev.gateEnd (d : Dev) (u ev : Nat) (m : Meas) : Dev :=
  if 3 ≤ m.n then d.measDone u ev m
  else if m.cfg.testBit 24 then ((d.wr F.TDC_M_STATUS_CODE 2 u).statRecord u 2 m).setMeas u (some (m.next 3 ev))
  else d.measAbort u 2

/-- One interval joins the sums. -/
def Meas.add (m : Meas) (v : Int) (t ep : Nat) : Meas :=
  { m with n := m.n + 1, sum := m.sum + v, sq := m.sq + v * v, least := if m.n = 0 then v else min m.least v, most := if m.n = 0 then v else max m.most v, last := (t, ep) }

/-- A stamped edge reaches a unit (R306); stamps in 2^-18 ns. -/
def Dev.measEdge (d : Dev) (u n t ev ep : Nat) : Dev :=
  match d.meas u with
  | none => d
  | some m =>
    let mode := bits m.cfg 0 2
    let a := bits m.cfg 8 5 == n
    let b := bits m.cfg 16 5 == n
    if mode = 1 ∧ a then
      match m.open_ with
      | none => d.setMeas u (some { m with open_ := some t, first := some (t, ev, ep), last := (t, ep) })
      | some p =>
        let m := { m.add (t - p : Int) t ep with open_ := some t }
        if m.target ≤ m.n then d.measDone u ev m else d.setMeas u (some m)
    else if mode = 2 then
      match m.open_ with
      | none => if a then d.setMeas u (some { m with open_ := some t, first := if m.first.isNone then some (t, ev, ep) else m.first }) else d
      | some p =>
        if b then
          let m := { m.add (t - p : Int) t ep with open_ := none }
          if m.target ≤ m.n then d.measDone u ev m else d.setMeas u (some m)
        else d
    else if mode = 3 ∧ a then
      let d := if m.first.isSome && decide (m.gateEnd < t) then d.gateEnd u (ev - 1) m else d
      match d.meas u with
      | none => d
      | some m =>
        match m.first with
        | none => d.setMeas u (some { m with n := 1, first := some (t, ev, ep), last := (t, ep), gateEnd := t + m.gate * 2 ^ 18 })
        | some f =>
          let y : Int := t - f.1
          d.setMeas u (some { m with n := m.n + 1, sum := m.sum + y, sq := m.sq + y * y, ix := m.ix + m.n * y, last := (t, ep) })
    else d

/-- START of a unit (R306); mode 0 is off. A unit that runs begins anew. -/
def Dev.measStart (d : Dev) (u : Nat) : Dev :=
  if d.rd F.TDC_M_CFG_MODE u = 0 then d
  else
    let m := Meas.fresh (d.reg (F.TDC_M_CFG_MODE.at_ u 0)).toNat (d.rd F.TDC_M_N_N u + 1) (d.rd F.TDC_M_GATE_LO_NS u + d.rd F.TDC_M_GATE_HI_NS u * 2 ^ 32)
    ((d.setMeas u (some m)).wr F.TDC_M_STATUS_STATE 1 u).wr F.TDC_M_STATUS_CODE 0 u
/-- The gate of a FREQUENCY measurement runs out. -/
def Dev.gateTime (d : Dev) (u : Nat) : Dev :=
  match d.meas u with
  | some m =>
    if bits m.cfg 0 2 = 3 ∧ m.first.isSome then
      (d.advanceLocal (m.gateEnd * 2 ^ 46)).gateEnd u ((d.tdc (bits m.cfg 8 5)).evno - 1) m
    else d
  | none => d

/-- A stamped edge of input n (R302–R306). -/
def Dev.stampEdge (d : Dev) (n : Nat) (falling : Bool) (bin raw time : Nat) : Dev :=
  let ev := (d.tdc n).evno
  let st : TdcStamp := ⟨ev, stamp96Tdc time, d.epoch, falling⟩
  let d := (d.setTdc n (fun t => { t with evno := (ev + 1) % 2 ^ 64, last := some raw })).setWide F.TDC_IN_EVNO_LO_EVNO (ev + 1) n
  let drain := d.is F.TDC_IN_CFG_DRAIN n
  let d :=
    if 4096 ≤ (d.tdc n).queue.length then
      let d := (((d.inc F.TDC_IN_LOST_COUNT n).mark F.TDC_IN_STATUS_OVF n).raise 3 n).setTdc n (fun t => { t with lost := t.lost + 1 })
      if drain then d.batchClose n else d
    else
      let d := d.setTdc n (fun t => { t with queue := t.queue ++ [st], batch := if drain && t.batch.isNone then some d.clk else t.batch })
      if drain && decide (2 ^ min 8 (d.rd F.TDC_IN_CFG_BATCH_LOG2 n) ≤ (d.tdc n).queue.length) then d.batchClose n else d
  let d := (List.range 8).foldl (fun d u => d.measEdge u n (stampTicks time) ev d.epoch) d
  if n < 16 ∧ d.is F.TDC_IN_CFG_HAL_EN n then d.driveHalyard (d.rd F.TDC_IN_CFG_HAL n) (bin / 16) (some (ofStamp96 st.time)) else d

/-- An edge of TDC input n in the present clock, `bin`/512 of a cycle after its start (R302): axes and trigger units see every edge of an
event input; the TDC stamps the selected ones outside the dead time. -/
def Dev.eventEdge (d : Dev) (n : Nat) (falling : Bool) (bin : Nat) : Dev :=
  let raw := d.localTime + bin * d.cycle / 512
  let time := (raw + localWrap - d.rd F.TDC_IN_DELAY_PS n * d.cycle / 1000) % localWrap
  let d := if n < 16 then (d.axisEdge n (!falling) time).feedSlots 5 n (some (if falling then 1 else 0)) time (d.rd F.STY_CTRL_ID) 0 else d
  let sel := d.rd F.TDC_IN_CFG_EDGE n
  if !(d.is F.TDC_IN_CFG_EN n) || (sel == 0 && falling) || (sel == 1 && !falling) then d
  else
    let near := match (d.tdc n).last with
      | some l => decide (raw - l < 2 * nsUnit)
      | none => false
    if near then (d.inc F.TDC_IN_DEADTIME_COUNT n).setTdc n (fun t => { t with dead := t.dead + 1 })
    else d.stampEdge n falling bin raw time

/-- `TDC_IN_BATCH_NS` after its first event (R303). -/
def Dev.batchTimeout (d : Dev) (n : Nat) : Dev :=
  match (d.tdc n).batch with
  | some t => if d.is F.TDC_IN_CFG_DRAIN n then (d.advanceTo (t + max 1 (d.rd F.TDC_IN_BATCH_NS_NS n))).batchClose n else d
  | none => d

/-- POP (R303). -/
def Dev.tdcPop (d : Dev) (n : Nat) : Dev :=
  if d.is F.TDC_IN_CFG_DRAIN n then d else d.setTdc n (fun t => { t with queue := t.queue.drop 1 })

/-- A write of `TDC_IN_CFG` (R303, R305, R306): an enable for a halyard another driver holds is ignored; disabling an input aborts its units. -/
def Dev.tdcCfg (d : Dev) (n : Nat) (v : Word) : Dev :=
  let was := d.is F.TDC_IN_CFG_EN n
  let old := (d.is F.TDC_IN_CFG_HAL_EN n, d.rd F.TDC_IN_CFG_HAL n)
  let d := d.plainWrite (0x60000 + n * 64) v
  let want := n < 16 && d.is F.TDC_IN_CFG_HAL_EN n
  let h := d.rd F.TDC_IN_CFG_HAL n
  let d := if want && d.takenByOther h 3 n then
      ((d.flag F.TDC_IN_CFG_HAL_EN old.1 n).wr F.TDC_IN_CFG_HAL old.2 n).mark F.TDC_IN_STATUS_HAL_CONFLICT n
    else
      let d := d.releaseDriver 3 n 64
      if want then d.recordDriver h 3 n else d
  let d := if !(d.is F.TDC_IN_CFG_DRAIN n) then d.setTdc n (fun t => { t with batch := none })
    else if (d.tdc n).batch.isNone && !(d.tdc n).queue.isEmpty then d.setTdc n (fun t => { t with batch := some d.clk }) else d
  if was && !(d.is F.TDC_IN_CFG_EN n) then
    (List.range 8).foldl (fun d u => match d.meas u with
      | some m => if bits m.cfg 8 5 = n ∨ (bits m.cfg 0 2 = 2 ∧ bits m.cfg 16 5 = n) then d.measAbort u 3 else d
      | none => d) d
  else d

/-! ## Markers -/

/-- Marker output n. -/
def Dev.marker (d : Dev) (n : Nat) : Marker := d.time.markers.getD n ⟨[], none, 0⟩
/-- Change it. -/
def Dev.setMarker (d : Dev) (n : Nat) (f : Marker → Marker) : Dev := d.setTime (fun t => { t with markers := t.markers.put n (f (d.marker n)) })
/-- A dropped request (R309). -/
def Dev.markDrop (d : Dev) (n : Nat) : Dev := (d.inc F.MRK_DROP_COUNT n).raise 3 28
/-- The width of a marker's own pulses. -/
def Dev.markWidth (d : Dev) (n : Nat) : Nat := max 1 (d.rd F.MRK_WIDTH_NS n)
/-- Whether a pulse placed at `t` falls within pulse (p, w) or within 4 ns after it (R309). -/
def pulseHits (p w t : Nat) : Bool := decide (p ≤ t ∧ t < p + (w + 4) * nsUnit)

/-- Insert a pulse by its placement. -/
def insertPulse (x : Nat × Nat × Nat) : List (Nat × Nat × Nat) → List (Nat × Nat × Nat)
  | [] => [x]
  | y :: t => if x.1 < y.1 then x :: y :: t else y :: insertPulse x t

/-- A pulse request placed at a local time, quantized to 1/128 ns (R308, R309). One that would fall into an earlier pulse is dropped, as is a
waiting one that would fall into it. -/
def Dev.markRequest (d : Dev) (n t width : Nat) : Dev :=
  let t := t / 2 ^ 57 * 2 ^ 57
  let m := d.marker n
  let earlier := m.pulses.map (fun p => (p.1, p.2.1)) ++ m.last.toList
  if earlier.any (fun p => pulseHits p.1 p.2 t) then d.markDrop n
  else
    let lost := m.pulses.filter (fun p => pulseHits t width p.1)
    let d := d.setMarker n (fun m => { m with pulses := insertPulse (t, width, d.clk) (m.pulses.filter (fun p => !(pulseHits t width p.1))) })
    lost.foldl (fun d _ => d.markDrop n) d

/-- The local time written to `MRK_TIME`. -/
def Dev.markTime (d : Dev) (n : Nat) : Nat :=
  ((d.rd F.MRK_TIME_SEC_LO_SEC n + d.rd F.MRK_TIME_SEC_HI_SEC n * 2 ^ 32) * 1000000000 + d.rd F.MRK_TIME_NS_NS n) * nsUnit + d.rd F.MRK_TIME_FRAC_FRAC n * 2 ^ 48
/-- Place period k of mode 4. -/
def Dev.markPeriod (d : Dev) (n k : Nat) : Dev :=
  (d.setMarker n (fun m => { m with k := k })).markRequest n (d.markTime n + k * (d.rd F.MRK_PERIOD_NS n * nsUnit)) (d.markWidth n)
/-- The first period placed at least 1 µs after now (R290). -/
def Dev.firstPeriod (d : Dev) (n : Nat) : Nat :=
  let p := max 1 (d.rd F.MRK_PERIOD_NS n) * nsUnit
  (d.localTime + 1000 * nsUnit - d.markTime n + p - 1) / p
/-- The write of `MRK_TIME_SEC_HI` (R308, R309): the periods of mode 4 placed less than 1 µs after it are dropped requests, and the rest follow. -/
def Dev.markArm (d : Dev) (n : Nat) (hi : Word) : Dev :=
  let d := d.plainWrite (0x62014 + n * 64) hi
  let mode := d.rd F.MRK_CFG_MODE n
  if mode = 3 ∨ (mode = 4 ∧ d.markWidth n + 4 < d.rd F.MRK_PERIOD_NS n) then
    let d := d.setMarker n (fun m => { m with pulses := [] })
    let k := d.firstPeriod n
    if mode = 4 then
      ((if k = 0 then d else (d.inc F.MRK_DROP_COUNT n 0 k).raise 3 28).markPeriod n k).flag F.MRK_STATUS_ARMED true n
    else if d.markTime n < d.localTime + 1000 * nsUnit then (d.flag F.MRK_STATUS_ARMED false n).markDrop n
    else (d.markRequest n (d.markTime n) (d.markWidth n)).flag F.MRK_STATUS_ARMED true n
  else d
/-- The next pulse's placement is reached: it leaves the land 40 ns later (R308). -/
def Dev.markPlace (d : Dev) (n : Nat) : Dev :=
  match (d.marker n).pulses with
  | [] => d
  | p :: t =>
    let d := (d.advanceLocal p.1).setMarker n (fun m => { m with pulses := t, last := some (p.1, p.2.1) })
    let d := d.send (.marker n (p.1 + 40 * nsUnit) p.2.1 (d.is F.MRK_CFG_POL n))
    let mode := d.rd F.MRK_CFG_MODE n
    if mode = 4 then d.markPeriod n ((d.marker n).k + 1) else if mode = 3 then d.flag F.MRK_STATUS_ARMED false n else d
/-- A write of `MRK_CFG`, `MRK_WIDTH` or `MRK_PERIOD`: one that breaks mode 4's rule is ignored (R309); a change of mode withdraws pulses to come. -/
def Dev.markCfg (d : Dev) (off : Nat) (v : Word) : Dev :=
  let n := (off - 0x62000) / 64
  let d' := d.plainWrite off v
  if d'.rd F.MRK_CFG_MODE n = 4 ∧ d'.rd F.MRK_PERIOD_NS n ≤ d'.markWidth n + 4 then d
  else if d'.rd F.MRK_CFG_MODE n = d.rd F.MRK_CFG_MODE n then d'
  else (d'.setMarker n (fun m => { m with pulses := [] })).flag F.MRK_STATUS_ARMED false n

/-! ## The step -/

/-- Move a time that is kept as a local time with the clock. -/
def moveTime (by_ : Int) (t : Nat) : Nat := ((t + by_) % (localWrap : Int)).toNat
/-- What a step of the clock does to a marker (R290): the placements of modes 1 and 2 move with the clock. -/
def Dev.markStep (d : Dev) (by_ : Int) (n : Nat) : Dev :=
  let mode := d.rd F.MRK_CFG_MODE n
  let ps := (d.marker n).pulses
  if mode = 3 then
    let lost := ps.filter (fun p => decide (p.1 < d.localTime))
    let d := d.setMarker n (fun m => { m with pulses := ps.filter (fun p => !(decide (p.1 < d.localTime))) })
    lost.foldl (fun d _ => (d.flag F.MRK_STATUS_ARMED false n).markDrop n) d
  else if mode = 4 ∧ !ps.isEmpty then
    (d.setMarker n (fun m => { m with pulses := [] })).markPeriod n (d.firstPeriod n)
  else d.setMarker n (fun m => { m with pulses := m.pulses.map (fun (p : Nat × Nat × Nat) => (moveTime by_ p.1, p.2)) })

/-- STEP (R288–R290): `set_` gives the value, else it is added. The times that the engine keeps move with the clock, those the host or a
stamp fixed do not. -/
def Dev.timStep (d : Dev) (set_ : Bool) : Dev :=
  let sec : Nat := d.rd F.TIM_STEP_SEC_LO_SEC + d.rd F.TIM_STEP_SEC_HI_SEC * 2 ^ 32
  let low : Int := (d.rd F.TIM_STEP_NS_NS * nsUnit + d.rd F.TIM_STEP_FRAC_FRAC * 2 ^ 48 : Nat)
  let unit : Int := (1000000000 * nsUnit : Nat)
  let new : Int := if set_ then (sec : Int) * unit + low else (d.localTime : Int) + signed 48 sec * unit + low
  if d.is F.STY_STATUS_ISOLATED || d.is F.STY_STATUS_SLEWING then d.timRefuse 4
  else if !d.acqStopped then d.timRefuse 2
  else if !(d.is F.TIM_STATUS_STEP_AVAIL) then d.timRefuse 1
  else if 999999999 < d.rd F.TIM_STEP_NS_NS ∨ new < 0 ∨ (localWrap : Int) ≤ new then d.timRefuse 3
  else
    let by_ : Int := new - d.localTime
    let mv := moveTime by_
    let d := d.bend
    let d := { d with localTime := new.toNat, axes := d.axes.map (fun (x : Axis) =>
      { x with edges := x.edges.map (fun (e : Nat × Bool) => (mv e.1, e.2)), queue := x.queue.map (fun (e : EncEdge) => { e with time := mv e.time }), lastLine := x.lastLine.map mv, ref := mv x.ref }) }
    let d := d.setTime (fun t => { t with
      tdc := t.tdc.map (fun (x : Tdc) => { x with last := x.last.map mv }), markers := t.markers.map (fun (x : Marker) => { x with last := x.last.map (fun (p : Nat × Nat) => (mv p.1, p.2)) }) })
    let d := { d with cues := { d.cues with armed := d.cues.armed.map (fun (c : Cue) => { c with expiry := mv c.expiry }) } }
    let d := ((d.flag F.TIM_STATUS_STEP_AVAIL false).flag F.TIM_STATUS_UNSET false).wr F.TIM_STATUS_CODE 0
    let d := (d.raise 2 1).jump 0
    let d := (List.range 8).foldl (fun d u => d.measAbort u 1) d
    (List.range 8).foldl (fun d n => d.markStep by_ n) d

/-- A read of `TIM_NOW_FRAC` (R286). -/
def Dev.nowRead (d : Dev) : Dev :=
  let ns := d.localTime / nsUnit
  let sec := ns / 1000000000
  (((d.wr F.TIM_NOW_NS_NS (ns % 1000000000)).wr F.TIM_NOW_SEC_LO_SEC sec).wr F.TIM_NOW_SEC_HI_SEC (sec / 2 ^ 32)).answer (d.localTime % nsUnit / 2 ^ 48)

/-! ## Meanings -/

/-- Write NEW_EPOCH to `TIM_CMD` (R288). -/
def execTimNewEpoch (s : State) := host 0x50000 Dev.newEpoch s
/-- Write STEP to `TIM_CMD` (R289). -/
def execTimStep (mode : Bool) (s : State) := host 0x50000 (fun d => d.timStep mode) s
/-- Write `TIM_RATE_HI` (R285). -/
def execRateCommit (hi : Word) (s : State) := host 0x5001C (fun d => d.rateCommit hi) s
/-- Read `TIM_NOW_FRAC` (R286). -/
def execTimNowRead (s : State) := lift (fun d => d.hostReadAt 0x50008 Dev.nowRead) s
/-- An edge of TDC input n, `bin`/512 of a cycle into the present clock (R302). -/
def execEventEdge (n : Fin 20) (falling : Bool) (bin : Fin 512) (s : State) := lift (fun d => d.eventEdge n falling bin) s
/-- The batch of input n times out (R303). -/
def execBatchTimeout (n : Fin 20) (s : State) := lift (fun d => d.batchTimeout n) s
/-- Write POP of input n (R303). -/
def execTdcPop (n : Fin 20) (s : State) := host (0x60030 + n.val * 64) (fun d => d.tdcPop n) s
/-- Write START to `TDC_M_CMD` of unit u (R306). -/
def execTdcMStart (u : Fin 8) (s : State) := host (0x61010 + u.val * 64) (fun d => d.measStart u) s
/-- Write ABORT (R306). -/
def execTdcMAbort (u : Fin 8) (s : State) := host (0x61010 + u.val * 64) (fun d => d.measAbort u 0) s
/-- The gate of unit u ends (R306). -/
def execGateEnd (u : Fin 8) (s : State) := lift (fun d => d.gateTime u) s
/-- Write `MRK_TIME_SEC_HI` of marker n (R308). -/
def execMarkerArm (n : Fin 8) (hi : Word) (s : State) := host (0x62014 + n.val * 64) (fun d => d.markArm n hi) s
/-- The next pulse of marker n is placed (R308). -/
def execMarkerPlacement (n : Fin 8) (s : State) := lift (fun d => d.markPlace n) s

end Sys2Proof.Machine
end

