-- ==== Sys2Proof/Machine/Cues.lean ====
section
/-! DEFINITION. Cues and run-ahead (R268–R282, spec/10_axis.md): arming, prediction and preparation, commits, snapshots, cue records. What an
axis does to its cues stands in `Axis`. -/
namespace Sys2Proof.Machine

/-! ## Arming (R270) -/

/-- Whether an axis is enabled: AX0 always. -/
def Dev.axisOn (d : Dev) (a : Nat) : Bool := a == 0 || d.is F.AXS_AX_CFG_EN a
/-- Whether the arguments of an action are in range (R269). -/
def Dev.cueArgs (d : Dev) (e : Nat) : Bool :=
  let a0 := d.cueWord e 6
  let a1 := d.cueWord e 7
  match d.cueAction e with
  | 5 => decide (1 ≤ bits a0 4 3 ∧ bits a0 4 3 ≤ 5)
  | 6 => decide (bits a0 8 8 < 64) && listOk (d.sheetList (bits a0 0 1) (bits a0 8 8))
  | 7 => decide (bits a0 8 8 < 64) && listOk (d.sheetList (bits a0 0 1) (bits a0 8 8))
  | 11 => decide (1 ≤ a1 ∧ a1 ≤ 65535)
  | _ => true
/-- The checks at arming; 0 passes, else the code of `CUE_ERR`. -/
def Dev.armCode (d : Dev) (e : Nat) : Nat :=
  let dir := bits (d.cueWord e 2) 18 2
  if !(d.axisOn (d.cueAxis e)) then 1
  else if 12 < d.cueAction e then 2
  else if (d.cueAxis e ≠ 0 ∧ dir = 3) || !(d.cueArgs e) then 3
  else if 10000000 < bits (d.cueWord e 3) 0 24 then 4
  else if d.cueAxis e ≠ 0 ∧ dir = 2 ∧ d.cueWord e 4 / 65536 ≠ 0 then 5
  else 0
/-- A write to an armed entry is discarded (R270). -/
def Dev.cueDrop (d : Dev) : Dev := (d.inc F.CUE_WDROP_COUNT).raise 5 8
/-- A word of an entry without its reserved bits (R5, R268): CTRL[15:8] of word 2, LEAD[31:29] of word 3. -/
def cueVisible (k : Nat) (w : Word) : Word := if k = 2 then w &&& 0x00FFFFFF else if k = 3 then w &&& 0x1FFFFFFF else w
/-- Word 0x08 is written with ARMED = 1 (R270, R271). -/
def Dev.cueArm (d : Dev) (e : Nat) (w : Word) : Dev :=
  if (d.cues.armed.get? e).isSome then d.cueDrop
  else
    let d := d.setReg (F.CUE_ENTRY_WORD.at_ e 2) (cueVisible 2 (w.setField 20 1 1))
    let code := d.armCode e
    if code ≠ 0 then d.failCue e code
    else
      let d := { d with cues := { d.cues with armed := d.cues.armed.put e ⟨false, false, none, false, 0, 0, 0, false, false, false⟩ } }
      let d := (d.setCueState e 1).cueSides e
      if d.cueAxis e = 0 ∧ d.cueCompare e ≤ d.axisLive 0 then d.missCue e else d
/-- Word 0x08 of an armed entry is written with ARMED = 0 (R270, R272): a crossing that was noted wins. -/
def Dev.cueDisarm (d : Dev) (e : Nat) : Dev :=
  if (d.cues.armed.get? e).isNone then d
  else if (d.cue e).cross.isSome then d.setCue e (fun c => { c with disarm := true })
  else (d.abandon e 3).endCue e 0

/-! ## Groups (R272, R273) -/

/-- Whether group g is enabled. -/
def Dev.groupOn (d : Dev) (g : Nat) : Bool := (d.rd F.CUE_GRP_EN_EN (g / 32)).testBit (g % 32)
/-- Abandon the PREPARED cues of disabled groups. -/
def Dev.groupsOff (d : Dev) : Dev :=
  d.cues.armed.cells.foldl (fun d p => if d.groupOn (d.cueGroup p.1) || (d.cue p.1).cross.isSome then d else d.abandon p.1 2) d
/-- A write of word k of `CUE_GRP_EN`. -/
def Dev.groupWrite (d : Dev) (k : Nat) (v : Word) : Dev := (d.wr F.CUE_GRP_EN_EN v.toNat k).groupsOff
/-- Action GROUP. -/
def Dev.groupSet (d : Dev) (g : Nat) (on : Bool) : Dev :=
  let m := d.rd F.CUE_GRP_EN_EN (g / 32)
  d.groupWrite (g / 32) (BitVec.ofNat 32 (if on then m ||| 2 ^ (g % 32) else m - (m &&& 2 ^ (g % 32))))

/-! ## Prediction and preparation (R269, R273) -/

/-- The local time at which the axis, running on, reaches COMPARE, where it is exact: AX0 by its clock, AX3 by its loop, an encoder axis
within the sub-count after its last edge (R263, R266). -/
def Dev.crossTime (d : Dev) (e : Nat) : Option (Nat × Bool) :=
  let a := d.cueAxis e
  let cmp := d.cueCompare e
  let live := d.axisLive a
  let x := d.axis a
  if a = 0 then (if live < cmp then some (cmp.toNat * nsUnit, false) else none)
  else if a = 3 then
    (if d.cueDir e ≠ 1 ∧ live < cmp ∧ x.seen ∧ x.mHz ≠ 0 ∧ (x.val : Int) ≤ cmp then
      some (x.ref + ceilDiv ((cmp - x.val).toNat * (10 ^ 12 * 2 ^ 64)) (x.mHz * 2 ^ 32), false) else none)
  else match x.edges with
    | (t0, up) :: (t1, _) :: _ =>
      let k : Int := if up then cmp - x.pos else x.pos - cmp
      let ahead := if up then decide (live < cmp) && d.cueDir e != 1 else decide (cmp < live) && d.cueDir e != 0
      if 2 ≤ x.inDir ∧ ahead ∧ 0 < k ∧ k ≤ 65535 then some (t0 + ceilDiv (k.toNat * (t0 - t1)) 65536, !up) else none
    | _ => none
/-- The predicted local time of a crossing (R273): none while the axis is still or moves away. -/
def Dev.predict (d : Dev) (e : Nat) : Option Nat :=
  let a := d.cueAxis e
  if a = 0 then (d.crossTime e).map (·.1)
  else if a = 3 then (if d.axisState 3 = 3 ∨ d.axisState 3 = 4 then (d.crossTime e).map (·.1) else none)
  else
    let (net, dt) := (d.axis a).velocity (2 ^ min 8 (d.rd F.AXS_AX_CFG_PRED_LOG2 a))
    let dist := d.cueCompare e - d.axisLive a
    if (0 < dist ∧ 0 < net ∧ d.cueDir e ≠ 1) ∨ (dist < 0 ∧ net < 0 ∧ d.cueDir e ≠ 0) then
      some (d.localTime + dist.natAbs * dt / (net.natAbs * 65536))
    else none
/-- KNOB's check (R269): the section ACTIVE, the knob cue-shadowable, the value in range. -/
def Dev.knobCue (d : Dev) (i off v : Nat) : Bool := d.secState i == 2 && (match d.knobRow i off with
  | some k => k.shadowable && !k.readOnly && k.accepts v
  | none => false)
/-- The checks of R269 at preparation. -/
def Dev.prepOk (d : Dev) (e : Nat) : Bool :=
  let a0 := d.cueWord e 6
  let a1 := d.cueWord e 7
  match d.cueAction e with
  | 1 => d.knobCue (bits a0 24 7) (bits a0 0 17) a1
  | 2 => d.activeKind (bits a1 24 7) 1
  | 5 => bits a0 4 3 != 1 || d.loCheck (bits a0 0 2) 257 (bits a0 8 8) (d.loFreq (bits a0 0 2)) == 0
  | 9 => !(d.links.launch.getD (8 * bits a0 0 2 + bits a0 2 3) []).isEmpty
  | _ => true
/-- A check of R269 that fails before the crossing ends a PREPARED cue FAILED (R272). -/
def Dev.cueRecheck (d : Dev) (e : Nat) : Dev := if d.cueState e = 2 ∧ (d.cue e).cross.isNone ∧ !(d.prepOk e) then d.failCue e 6 else d
/-- Prepare a WAITING cue that is due, where a shadow slot is free (R272, R273, R277, R280). -/
def Dev.cueTry (d : Dev) (e : Nat) : Dev :=
  if d.cueState e ≠ 1 ∨ (d.cue e).cross.isSome ∨ !(d.groupOn (d.cueGroup e)) then d
  else match d.predict e with
    | none => d
    | some p =>
      if d.localTime + max 8 (bits (d.cueWord e 3) 0 24) * nsUnit < p ∨ 64 ≤ d.rd F.CUE_STATUS_PREPARED then d
      else if !(d.prepOk e) then d.failCue e 6
      else
        let (d, tag) := if d.cueAction e = 6 then d.sheetStage (bits (d.cueWord e 6) 0 1) (bits (d.cueWord e 6) 8 8) else (d, 0)
        let live := d.axisLive (d.cueAxis e)
        let d := d.setCue e (fun c => { c with expiry := p + 2 ^ bits (d.cueWord e 3) 24 5 * nsUnit, far := live, tag := tag, bank := false, lost := false })
        (d.setCueState e 2).giveBanks
/-- The prediction of every 64 composing clocks (R273). -/
def Dev.cuePredict (d : Dev) : Dev :=
  let d := d.advanceTo ((d.clk / 64 + 1) * 64)
  if !(d.is F.CUE_CTRL_EN) || d.halted then d
  else d.cues.armed.cells.foldl (fun d p => (d.cueRecheck p.1).cueTry p.1) d
/-- A PREPARED cue's tolerance runs out without a crossing (R273). -/
def Dev.cueExpire (d : Dev) (e : Nat) : Dev :=
  if d.cueState e ≠ 2 ∨ (d.cue e).cross.isSome then d else (d.advanceLocal (d.cue e).expiry).abandon e 1

/-! ## Snapshots (R280, R281) -/

/-- The section that stands for a number: a running one, else the first ACTIVE one of the kind with it. -/
def Dev.numbered (d : Dev) (kind w id : Nat) (running : Nat → Bool) : Option Nat :=
  let l := (d.sections.cells.map (·.1)).filter (fun i => d.activeKind i kind && d.knobBits i 8 0 w == id)
  match l.find? running with
  | some i => some i
  | none => l.head?
/-- A channel's 32 bytes. -/
def Dev.snapChan (d : Dev) (k : Nat) : List Byte :=
  match d.numbered 1 6 k d.chanRunning with
  | none => leBytes 1 0xFF ++ List.replicate 31 0
  | some i =>
    let next := match d.runs.get? i with
      | some u => max u.next (u.unitAt (d.clk + 1))
      | none => 0
    leBytes 1 i ++ leBytes 1 (d.knob i 4) ++ leBytes 1 (d.knob i 0xC) ++ leBytes 1 (if (d.chan i).high then 1 else 0) ++ leBytes 8 next ++
      leBytes 8 (d.tuning i) ++ leBytes 4 (d.knob i 0x80) ++ leBytes 4 (d.knob i 0x78) ++ leBytes 4 0
/-- A trigger unit's 32 bytes. -/
def Dev.snapTrig (d : Dev) (k : Nat) : List Byte :=
  match d.numbered 4 6 k (fun i => d.trigState i != 0) with
  | none => leBytes 1 0xFF ++ List.replicate 31 0
  | some i => leBytes 1 i ++ leBytes 1 (d.trigState i) ++ leBytes 1 (d.trig i).pending.length ++ leBytes 1 0 ++
      ([0xAC, 0x84, 0x88, 0x8C, 0x90, 0x94, 0x98] : List Nat).flatMap (fun o => leBytes 4 (d.knob i o))
/-- An input's 8 bytes. -/
def Dev.snapInput (d : Dev) (n : Nat) : List Byte :=
  let b (x : Bool) (k : Nat) := if x then k else 0
  leBytes 1 (d.reg (F.CNV_STATUS_STATE.at_ n 0)).toNat ++ leBytes 1 (d.rd F.CNV_ATTEN_ATTEN n) ++
    leBytes 1 (b (d.is F.CNV_STATUS_HOLDOVER n) 1 + b (d.is F.CNV_STATUS_CAL_STALE n) 2 + b (d.is F.CNV_STATUS_OVR n) 4) ++ leBytes 1 0 ++
    leBytes 4 (d.rd F.CNV_OVR_COUNT_COUNT n)
/-- The snapshot record of the next boundary. -/
def Dev.snapRec (d : Dev) (e group axis axisVal t : Nat) : Rec :=
  { type := 0x0B, source := 0xF1, flags := d.unitFlags, epoch := d.epoch, trig := 0, start := 16 * (d.clk + 1), count := 0, time := stamp96 t,
    axisId := axis, axis := axisVal, scale := 0,
    payload := leBytes 4 (e + group * 65536) ++ leBytes 4 d.cues.snapNo ++ leBytes 8 (d.clk + 1) ++ leBytes 12 (stamp96 (d.timeIn 1)) ++ leBytes 2 d.epoch ++
      leBytes 2 ((List.range 4).foldl (fun w a => w + d.axisState a * 16 ^ a) 0) ++ (List.range 4).flatMap (fun a => leBytes 8 (d.axisAt a (d.timeIn 1))) ++
      (List.range 8).flatMap (fun n => leBytes 8 (d.nextIdx n)) ++ (List.range 8).flatMap d.snapInput ++ (List.range 48).flatMap d.snapChan ++
      (List.range 64).flatMap d.snapTrig ++
      (List.range 4).flatMap (fun i => leBytes 8 (d.loFreq i) ++ leBytes 1 (d.rd F.CLK_LO_STATUS_SEG i) ++ leBytes 1 (d.loState i) ++ leBytes 6 0) }
/-- Latch into a bank, or miss (R280). -/
def Dev.latch (d : Dev) (ring : Nat) (x : Rec) : Dev × Bool :=
  if d.banksUsed < 2 then ({ d with cues := { d.cues with snaps := d.cues.snaps ++ [(ring, x)], snapNo := d.cues.snapNo + 1 } }, true)
  else ((d.inc F.CUE_SNAP_MISS_COUNT).raise 5 6, false)
/-- The oldest latched snapshot is written and its bank freed. -/
def Dev.snapWrite (d : Dev) : Dev :=
  match d.cues.snaps with
  | [] => d
  | (r, x) :: t => (({ d with cues := { d.cues with snaps := t } } : Dev).publishLoose r x (fun d => d.inc F.CUE_SNAP_MISS_COUNT)).giveBanks

/-! ## Commits (R275, R276) -/

/-- The one-value target that an action sets. -/
def Dev.cueTarget (d : Dev) (e : Nat) : Option Nat :=
  let a0 := d.cueWord e 6
  match d.cueAction e with
  | 1 => some (2 ^ 32 + bits a0 0 31)
  | 2 => some (2 * 2 ^ 32 + bits (d.cueWord e 7) 24 7)
  | 4 => some (3 * 2 ^ 32 + a0 % 8)
  | 5 => some (4 * 2 ^ 32 + a0 % 4)
  | _ => none
/-- The clock whose boundary follows the commit of a cue that crossed: 8 clocks later without preparation. -/
def Dev.commitClk (d : Dev) (e : Nat) : Option Nat := (d.cue e).cross.map (fun x => x.2.1 + (if d.cueState e = 2 then 0 else 8))
/-- Whether a higher entry sets the same target on the same clock. -/
def Dev.overridden (d : Dev) (e : Nat) : Bool :=
  match d.cueTarget e with
  | none => false
  | some k =>
    d.cues.set_.any (fun x => x.1 == k && x.2.1 == d.clk && decide (e < x.2.2)) ||
    d.cues.armed.cells.any (fun p => decide (e < p.1) && d.cueTarget p.1 == some k && d.commitClk p.1 == some d.clk && d.groupOn (d.cueGroup p.1))

/-- The units named by TRIGGER get their CUE-slot event. -/
def Dev.cueTrigger (d : Dev) (id g t : Nat) : Dev × Nat :=
  let us := (d.sections.cells.map (·.1)).filter (fun i => d.activeKind i 4 && d.knobBits i 8 0 6 == id)
  (us.foldl (fun d i => (List.range 4).foldl (fun d k =>
    if d.slotKind i k = 6 ∧ d.slotParam i k = g then d.slotEvent i k t (d.rd F.STY_CTRL_ID) 0 else d) d) d, if us.isEmpty then 1 else 0)
/-- LO's command (R137); one that is refused has no effect. -/
def Dev.cueLo (d : Dev) (a0 : Nat) : Dev × Nat :=
  let r := d.loCue (a0 % 4) (bits a0 4 3) (if bits a0 4 3 = 1 then bits a0 8 8 else 0)
  (r.1, if r.2 then 0 else 1)

/-- The effect of a cue's action at the next boundary, the crossing at local time `t`: 0 done, 1 none, 2 none and FAILED. -/
def Dev.cueEffect (d : Dev) (e t left : Nat) (late : Bool) : Dev × Nat :=
  let a0 := d.cueWord e 6
  let a1 := d.cueWord e 7
  let cross := some (stamp96 t, d.epoch)
  let c := d.cue e
  match d.cueAction e with
  | 1 =>
    if c.lost || !(d.knobCue (bits a0 24 7) (bits a0 0 17) a1) then (d, 2) else (d.knobCommit (bits a0 24 7) (bits a0 0 17) a1 cross, 0)
  | 2 =>
    let i := bits a1 24 7
    if c.lost || !(d.activeKind i 1) then (d, 2) else (d.ncoCommit i a0 (a1 % 65536) cross, 0)
  | 3 => d.cueTrigger (a0 % 64) (d.cueGroup e) t
  | 4 => if d.cnvState (a0 % 8) = 4 then (d, 1) else (d.cueAtten (a0 % 8) (a1 % 32) cross, 0)
  | 5 => if d.cueState e == 2 && !(d.prepOk e) then (d, 2) else d.cueLo a0
  | 6 =>
    let b := a0 % 2
    let sts := match (d.sheet b).stages.find? (fun (g : ShtStage) => g.tag == c.tag) with
      | some g => if d.cueState e = 2 then g.stations else (listStations (d.sheetList b (bits a0 8 8))).map (fun a => (a, false))
      | none => (listStations (d.sheetList b (bits a0 8 8))).map (fun a => (a, false))
    (d.sheetStrobe b sts ⟨if d.cueState e = 2 then c.tag else 0, [], a1 % 256, e, d.cueAxis e, d.cueCompare64 e, t, d.epoch, d.clk + 1, left, late⟩, 0)
  | 7 => (d.setSheet (a0 % 2) (fun s => { s with lists := s.lists ++ [bits a0 8 8] }), 0)
  | 8 =>
    let x := d.snapRec e (d.cueGroup e) (d.cueAxis e) (d.cueCompare64 e) t
    let waits := d.cueState e == 2 && !c.bank
    let d := d.setCue e (fun c => { c with bank := false })
    if waits then ((d.inc F.CUE_SNAP_MISS_COUNT).raise 5 6, 1)
    else
      let r := d.latch (a0 % 1024) x
      (r.1, if r.2 then 0 else 1)
  | 9 =>
    let k := 8 * (a0 % 4) + bits a0 2 3
    match d.links.launch.getD k [] with
    | [] => (d, 2)
    | f :: rest => (d.setLinks (fun l => { l with launch := l.launch.put k ({ f with launch := t, cued := true } :: rest) }), 0)
  | 10 =>
    let d' := d.openSlot (a0 % 8) (bits a0 8 1)
    (d', if d'.cnvState (a0 % 8) = 3 ∧ d.cnvState (a0 % 8) = 1 then 0 else 1)
  | 11 => if d.rd F.MRK_CFG_MODE (a0 % 8) = 1 then (d.markRequest (a0 % 8) t a1, 0) else (d, 1)
  | 12 => (d.groupSet (a0 % 256) (a0.testBit 8), 0)
  | _ => (d, 0)

/-- The next COMPARE of a repeating cue (R276): up or down by REPEAT; REPEATS counts down unless it is 65,535. -/
def Dev.cueAdvance (d : Dev) (e : Nat) (dec : Bool) : Dev :=
  let w2 := d.cueWord e 2
  let stp : Int := d.cueWord e 5 * (if w2.testBit 23 then 65536 else 1)
  let c := unsigned 64 ((d.cueCompare64 e : Int) + (if d.cueDir e = 1 then -stp else stp))
  let reps := d.cueWord e 4 / 65536
  let d := (d.wr F.CUE_ENTRY_WORD (c % 2 ^ 32) e 0).wr F.CUE_ENTRY_WORD (c / 2 ^ 32) e 1
  if dec && reps != 65535 then d.wr F.CUE_ENTRY_WORD (d.cueWord e 4 % 65536 + (reps - 1) * 65536) e 4 else d
/-- A cue waits again after a crossing: sides anew, MISSED where a repeating AX0 cue lies behind already (R276). -/
def Dev.cueAgain (d : Dev) (e : Nat) (repeats : Bool) : Dev :=
  let d := ((d.setCue e (fun c => { c with cross := none, late := false, bank := false, lost := false })).setCueState e 1).cueSides e
  if d.cueAxis e = 0 ∧ repeats ∧ d.cueCompare e ≤ d.axisLive 0 then d.missCue e else d
/-- A disarm that waited for the commit (R272). -/
def Dev.cueDisarmed (d : Dev) (e : Nat) (b : Bool) : Dev := if b && (d.cues.armed.get? e).isSome then d.endCue e 0 else d

/-- A crossing is skipped (R276). -/
def Dev.cueSkip (d : Dev) (e : Nat) : Dev :=
  let dis := (d.cue e).disarm
  let d := d.inc F.CUE_SKIP_COUNT
  let repeats := d.cueWord e 4 / 65536 != 0
  let d := if repeats then d.cueAdvance e false else d
  (d.cueAgain e repeats).cueDisarmed e dis

/-- Cue e commits at the next boundary (R272, R275, R276, R282). -/
def Dev.cueCommit (d : Dev) (e : Nat) (late : Bool) : Dev :=
  match (d.cue e).cross with
  | none => d
  | some (t, _, _) =>
    let dis := (d.cue e).disarm
    let sheet := d.cueAction e == 6
    let reps := d.cueWord e 4 / 65536
    let left := if reps = 65535 then reps else reps - 1
    let compare := d.cueCompare64 e
    let d := d.inc F.CUE_COMMITS_COUNT
    let d := if (d.cueWord e 2).testBit 21 then (d.wr F.CUE_EVT_ENTRY_COMMIT e).raise 5 0 else d
    let d := if late then (d.inc F.CUE_LATE_COUNT).raise 5 4 else d
    let over_ := d.overridden e
    let low := match d.cueTarget e with
      | some k => d.cues.set_.any (fun x => x.1 == k && x.2.1 == d.clk && decide (x.2.2 < e))
      | none => false
    let d := if over_ || low then (d.inc F.CUE_COLLIDE_COUNT).raise 5 5 else d
    let d := match d.cueTarget e with
      | some k => { d with cues := { d.cues with set_ := d.cues.set_.filter (fun (x : Nat × Nat × Nat) => x.2.1 == d.clk) ++ (if over_ then [] else [(k, d.clk, e)]) } }
      | none => d
    let r := if over_ then (d, 1) else d.cueEffect e t left late
    let outcome := if r.2 ≠ 0 then 3 else if late then 1 else 0
    let d := if r.1.is F.CUE_CTRL_LOG && !sheet then r.1.cueRecord e (r.1.cueAxis e) compare t r.1.epoch (r.1.clk + 1) left outcome 0 else r.1
    let d := if r.2 = 2 then d.failCue e 6
      else if reps ≠ 0 then (d.cueAdvance e true).cueAgain e true
      else d.endCue e 3
    (d.cueDisarmed e dis).giveBanks

/-- The crossing of cue e (R272, R275, R276): noted by its axis already, or reached as the axis runs on. A prepared cue commits; one that
is not prepared commits 8 clocks later, or is skipped. -/
def Dev.cueCross (d : Dev) (e : Nat) : Dev :=
  if (d.cues.armed.get? e).isNone || (d.cue e).late then d
  else
    let d := if (d.cue e).cross.isSome || !(d.is F.CUE_CTRL_EN) then d
      else match d.crossTime e with
        | none => d
        | some (t, down) =>
          let n := (t - d.localTime + d.cycle - 1) / max 1 d.cycle
          let d := d.advance (n - 1)
          d.setCue e (fun c => { c with cross := some (t, d.clk, down) })
    if (d.cue e).cross.isNone then d
    else if d.cueState e = 2 then d.cueCommit e false
    else if d.halted || !(d.groupOn (d.cueGroup e)) then d.cueSkip e
    else d.setCue e (fun c => { c with late := true })
/-- The late commit of cue e (R275). -/
def Dev.cueLate (d : Dev) (e : Nat) : Dev :=
  match (d.cue e).cross with
  | some (_, c, _) => if (d.cue e).late then (d.advanceTo (c + 8)).cueCommit e true else d
  | none => d

/-- A host write to a word of the cue table (R270). -/
def Dev.cueTable (d : Dev) (e k : Nat) (v : Word) : Dev :=
  let armed := (d.cues.armed.get? e).isSome
  if k = 2 ∧ v.getLsbD 20 then d.cueArm e v
  else if armed then (if k = 2 then d.cueDisarm e else d.cueDrop)
  else d.setReg (F.CUE_ENTRY_WORD.at_ e k) (cueVisible k v)

/-! ## Meanings -/

/-- Offset of word 0x08 of an entry. -/
def cueOff (e : Nat) : Nat := 0x90008 + e * 32

/-- Arm entry e (R270): `word` is written with ARMED = 1. -/
def execCueArm (e : Fin 4096) (word : Word) (s : State) := host (cueOff e) (fun d => d.cueArm e word) s
/-- Disarm entry e (R270). -/
def execCueDisarm (e : Fin 4096) (s : State) := host (cueOff e) (fun d => d.cueDisarm e) s
/-- Write word k of `CUE_GRP_EN` (R273). -/
def execGroupEnableWrite (k : Fin 8) (v : Word) (s : State) := host (0x80440 + k.val * 4) (fun d => d.groupWrite k v) s
/-- The prediction of every 64 clocks (R273). -/
def execCuePredict (s : State) := lift Dev.cuePredict s
/-- Entry e's tolerance runs out (R273). -/
def execCueToleranceExpiry (e : Fin 4096) (s : State) := lift (fun d => d.cueExpire e) s
/-- Entry e's axis crosses its COMPARE (R271, R275). -/
def execCueCrossing (e : Fin 4096) (s : State) := lift (fun d => d.cueCross e) s
/-- Entry e commits without preparation (R275). -/
def execLateCommit (e : Fin 4096) (s : State) := lift (fun d => d.cueLate e) s
/-- The oldest latched snapshot is written (R280). -/
def execSnapshotRecord (s : State) := lift Dev.snapWrite s

end Sys2Proof.Machine
end

