-- ==== Sys2Proof/Machine/Display.lean ====
section
/-! DEFINITION. Scan-out (R431–R439, spec/16_display.md): states, flips, FOLLOW layers, composition, proof rectangles, AUX. -/
namespace Sys2Proof.Machine

/-- State of scan-out: 0 OFF, 1 TRAINING, 2 ACTIVE, 3 FAILED. -/
def Dev.vidState (d : Dev) : Nat := d.rd F.VID_STATUS_STATE
/-- STATUS.CODE: 0 OK, 1 STATE, 2 BANDWIDTH, 3 TRAIN, 4 RANGE. -/
def Dev.vidCode (d : Dev) (c : Nat) : Dev := d.wr F.VID_STATUS_CODE c
/-- Change scan-out's own state. -/
def Dev.setVid (d : Dev) (f : Vid → Vid) : Dev := { d with vid := f d.vid }
/-- A layer as it is scanned: its nine words in force. -/
def Dev.layer (d : Dev) (l : Nat) : VidLayer := d.vid.layers.getD l ⟨List.replicate 9 0, none, none, none⟩
/-- Change it. -/
def Dev.setLayer (d : Dev) (l : Nat) (f : VidLayer → VidLayer) : Dev := d.setVid (fun v => { v with layers := v.layers.put l (f (d.layer l)) })
/-- Field of a word in force. -/
def VidLayer.bits (x : VidLayer) (k lo w : Nat) : Nat := Sys2Proof.bits (x.words.getD k 0).toNat lo w
/-- EN, FOLLOW of a layer in force. -/
def VidLayer.on (x : VidLayer) : Bool := x.bits 0 0 1 == 1
def VidLayer.follow (x : VidLayer) : Bool := x.on && x.bits 0 4 1 == 1

/-! ## Commands and link -/

/-- The reader of a FOLLOW layer leaves its ring. -/
def Dev.unfollow (d : Dev) (l : Nat) : Dev :=
  match (d.layer l).follows with
  | none => d
  | some r =>
    let d := d.setRing r (fun g => { g with readers := g.readers.filter (fun (x : Reader) => x.kind != .layer l) })
    (d.setLayer l (fun x => { x with follows := none, shown := none })).noteFill r
/-- Scan-out is no longer ACTIVE. -/
def Dev.vidLeave (d : Dev) (st : Nat) : Dev :=
  let d := (List.range 4).foldl (fun d l => d.unfollow l) d
  (d.setVid (fun v => { v with start := none, skip := [], lost := [] })).wr F.VID_STATUS_STATE st

/-- Link rate in Mbit/s per lane. -/
def vidRate (k : Nat) : Nat := [1620, 2700, 5400, 8100].getD k 0
/-- ENABLE (R431, R432): a lane count that is not 1, 2 or 4 carries nothing. -/
def Dev.vidEnable (d : Dev) : Dev :=
  let lanes := d.rd F.VID_LINK_LANES
  let lanes := if lanes = 1 ∨ lanes = 2 ∨ lanes = 4 then lanes else 0
  if d.vidState ≠ 0 ∨ !(d.is F.VID_STATUS_HPD) then d.vidCode 1
  else if lanes * vidRate (d.rd F.VID_LINK_RATE) * 8000 < d.rd F.VID_PCLK_KHZ * 240 then d.vidCode 2
  else (d.wr F.VID_STATUS_STATE 1).vidCode 0
/-- DISABLE (R432). -/
def Dev.vidDisable (d : Dev) : Dev := (d.vidLeave 0).vidCode 0
/-- Training ends (R432, R439). -/
def Dev.trainEnd (d : Dev) (ok : Bool) : Dev :=
  if d.vidState ≠ 1 then d
  else if ok then ((d.wr F.VID_STATUS_STATE 2).vidCode 0).raise 36 21
  else ((d.wr F.VID_STATUS_STATE 3).vidCode 3).raise 36 21
/-- Hot-plug detect changes (R432, R439). -/
def Dev.hpdChange (d : Dev) (on : Bool) : Dev :=
  if d.is F.VID_STATUS_HPD = on then d
  else
    let d := (d.flag F.VID_STATUS_HPD on).raise 36 20
    if !on && d.vidState == 2 then d.vidLeave 3 else d
/-- The link is lost while ACTIVE (R432). -/
def Dev.vidLoss (d : Dev) : Dev := if d.vidState = 2 then d.vidLeave 3 else d

/-! ## Timing -/

/-- Clocks from the first vertical blanking to pixel `px` of line `k` counted from it (R432, R438): H total pixels a line. -/
def Dev.vidClocks (d : Dev) (k px : Nat) : Nat :=
  ((k * d.rd F.VID_H_TOTAL + px) * 1000000 + d.rd F.VID_PCLK_KHZ - 1) / max 1 (d.rd F.VID_PCLK_KHZ)
/-- Let time pass to line `k` (from the start of the present frame's blanking), pixel `px`. -/
def Dev.vidTime (d : Dev) (k px : Nat) : Dev :=
  match d.vid.start with
  | some (c, n) => d.advanceTo (c + d.vidClocks ((n - 1) * d.rd F.VID_V_TOTAL + k) px)
  | none => d
/-- Lines of blanking before line `l` of the frame: blanking begins at line V_ACTIVE. -/
def Dev.linesTo (d : Dev) (l : Nat) : Nat :=
  let total := max 1 (d.rd F.VID_V_TOTAL)
  (l + total - d.rd F.VID_V_ACTIVE % total) % total
/-- The current line (`VID_STATUS.LINE`). -/
def Dev.vidLine (d : Dev) : Nat :=
  match d.vid.start with
  | some (c, n) =>
    let total := max 1 (d.rd F.VID_V_TOTAL)
    let lines := (d.clk - c) * d.rd F.VID_PCLK_KHZ / (max 1 (d.rd F.VID_H_TOTAL) * 1000000) - (n - 1) * total
    (d.rd F.VID_V_ACTIVE + lines) % total
  | none => 0

/-! ## Rectangles -/

/-- Destination of a layer clipped to the active area: x, y, end x, end y. -/
def Dev.layerRect (d : Dev) (x : VidLayer) : Nat × Nat × Nat × Nat :=
  (x.bits 2 0 13, x.bits 2 16 13, min (d.rd F.VID_H_ACTIVE) (x.bits 2 0 13 + x.bits 3 0 13), min (d.rd F.VID_V_ACTIVE) (x.bits 2 16 13 + x.bits 3 16 13))
/-- The format a layer is read in: a FOLLOW layer shows 4:2:0. -/
def VidLayer.format (x : VidLayer) : Nat := if x.follow then 2 else x.bits 0 1 3
/-- Opaque (R434). -/
def VidLayer.opaque_ (x : VidLayer) : Bool := x.format == 1 || x.format == 2 || x.format == 3 || x.bits 0 5 1 == 1
/-- Whether a layer is covered by a single higher one (R434). -/
def Dev.covered (d : Dev) (l : Nat) : Bool :=
  let r := d.layerRect (d.layer l)
  (List.range 4).any (fun h =>
    let x := d.layer h
    let q := d.layerRect x
    decide (l < h) && x.on && x.bits 0 8 8 == 255 && x.opaque_ && (!x.follow || x.shown.isSome) &&
      decide (q.1 ≤ r.1 ∧ q.2.1 ≤ r.2.1 ∧ r.2.2.1 ≤ q.2.2.1 ∧ r.2.2.2 ≤ q.2.2.2))

/-! ## Vertical blanking -/

/-- A pending flip latches every shadow of the layer (R435); one written on the clock of this start waits. -/
def Dev.latchFlip (d : Dev) (l : Nat) : Dev :=
  match (d.layer l).flipClk with
  | some c =>
    if c < d.clk then
      let words := (List.range 9).map (fun k => d.reg (0x3D0100 + l * 64 + 4 * k))
      let d := d.setLayer l (fun x => { x with words := words, flipClk := none })
      let d := ((d.wr F.VID_LAYER_TAG_SHOWN_TAG (d.rd F.VID_LAYER_TAG_PENDING_TAG l) l).wr F.VID_LAYER_TAG_PENDING_TAG 0 l).flag F.VID_LAYER_NEVER_PENDING false l
      d.raise 36 (4 + l)
    else d
  | none => d
/-- A FOLLOW layer latches the newest complete density frame record of its source (R435) and holds the ring there. -/
def Dev.latchFollow (d : Dev) (l : Nat) : Dev :=
  let x := d.layer l
  let r := x.bits 8 0 10
  if !x.follow || !(d.ringOn r) then d.unfollow l
  else
    let d := if x.follows = some r then d else d.unfollow l
    match (d.ring r).recs.reverse.find? (fun (p : Placed) => p.type == 5 && p.source == x.bits 8 16 8) with
    | none => d
    | some p =>
      let d := if (d.layer l).follows.isSome then
          d.setRing r (fun g => { g with readers := g.readers.map (fun (y : Reader) => if y.kind = .layer l then { y with pos := p.pos } else y) })
        else d.setRing r (fun g => { g with readers := g.readers ++ [⟨.layer l, p.pos, true, []⟩] })
      (d.setLayer l (fun x => { x with follows := some r, shown := some (r, p.pos + 64) })).noteFill r

/-- Vertical blanking starts (R434, R435, R438, R439). -/
def Dev.vblank (d : Dev) : Dev :=
  if d.vidState ≠ 2 then d
  else
    let d := match d.vid.start with
      | some (c, n) => (d.advanceTo (c + d.vidClocks (n * d.rd F.VID_V_TOTAL) 0)).setVid (fun v => { v with start := some (c, n + 1), lost := [] })
      | none => d.setVid (fun v => { v with start := some (d.clk, 1), lost := [] })
    let d := (d.wr F.VID_STATUS_LINE (d.rd F.VID_V_ACTIVE)).raise 36 0
    let d := (List.range 4).foldl (fun d l => (d.latchFlip l).latchFollow l) d
    let proofs := (List.range 8).map (fun n => (List.range 4).map (fun k => d.reg (0x3D0200 + n * 32 + 4 * k)))
    let skip := (List.range 4).filter (fun l => (d.layer l).on && d.covered l)
    (d.setVid (fun v => { v with proofs := proofs, skip := skip })).inc F.VID_FETCH_SKIP_COUNT 0 0 skip.length

/-- A FLIP (R433, R435): a base that is not a ring address is refused, but for a FOLLOW layer, which has no base. -/
def Dev.flip (d : Dev) (l tag : Nat) : Dev :=
  let base := d.rdWide F.VID_LAYER_BASE_BASE l 2
  if !(d.is F.VID_LAYER_CFG_FOLLOW l) && (bits base 60 4 != 1 || bits base 58 2 != 0 || bits base 40 8 != 0) then d.vidCode 4
  else
    let d := if d.is F.VID_LAYER_NEVER_PENDING l then
        ((d.wr F.VID_LAYER_NEVER_NEVER_TAG (d.rd F.VID_LAYER_TAG_PENDING_TAG l) l).inc F.VID_LAYER_FLIP_NEVER_FLIP_NEVER l).raise 36 (8 + l)
      else d
    ((d.wr F.VID_LAYER_TAG_PENDING_TAG tag l).flag F.VID_LAYER_NEVER_PENDING true l).setLayer l (fun x => { x with flipClk := some d.clk })

/-! ## Composition (R433) -/

/-- Red, green, blue and alpha of a source pixel; none: the spec does not state the rounding of its colour conversion. -/
abbrev Pixel := Option (Nat × Nat × Nat × Nat)
/-- An ARGB word. -/
def argb (w : Nat) : Pixel := some (bits w 16 8, bits w 8 8, bits w 0 8, bits w 24 8)
/-- BT.709 full range: a grey pixel converts exactly. -/
def ycbcr (y cb cr : Nat) : Pixel := if cb = 128 ∧ cr = 128 then some (y, y, y, 255) else none
/-- Source pixel (x, y) of a layer. -/
def Dev.source (d : Dev) (l : Nat) (a : VidLayer) (x y : Nat) : Pixel :=
  let base := a.bits 4 0 32 + a.bits 5 0 32 * 2 ^ 32
  let (r, o, stride, off) := match a.follow, a.shown with
    | true, some (r, p) => (r, p + 0x40, 1024, 0x80000)
    | _, _ => (bits base 48 10, bits base 0 40, a.bits 6 0 24, a.bits 7 0 32)
  let at_ (k : Nat) : Nat := (d.galByte (d.ringAddr r (o + k))).toNat
  match a.format with
  | 0 => let k := y * stride + 4 * x; some (at_ (k + 2), at_ (k + 1), at_ k, at_ (k + 3))
  | 1 => let k := y * stride + 3 * x; some (at_ (k + 2), at_ (k + 1), at_ k, 255)
  | 2 => let k := off + y / 2 * stride + x / 2 * 2; ycbcr (at_ (y * stride + x)) (at_ k) (at_ (k + 1))
  | 3 => let k := off + y * stride + x / 2 * 2; ycbcr (at_ (y * stride + x)) (at_ k) (at_ (k + 1))
  | 4 => argb (d.rd F.VID_PAL_ARGB l (at_ (y * stride + x)))
  | _ => none
/-- One component blended (R433): exact where the quotient is whole. -/
def blend (a layer below : Nat) : Option Nat :=
  let v := a * layer + (65025 - a) * below
  if v % 65025 = 0 then some (v / 65025) else none
/-- A layer over what lies below, both in R, G, B. -/
def blendPixel (galpha : Nat) (p : Pixel) (below : Option (Nat × Nat × Nat)) : Option (Nat × Nat × Nat) :=
  if galpha = 0 then below
  else match p with
    | none => none
    | some (r, g, b, a) =>
      let k := a * galpha
      if k = 0 then below
      else if k = 65025 then some (r, g, b)
      else match below with
        | none => none
        | some (r', g', b') => match blend k r r', blend k g g', blend k b b' with
          | some x, some y, some z => some (x, y, z)
          | _, _, _ => none
/-- Whether a lost span of a layer holds a pixel (R436). -/
def Vid.hides (v : Vid) (l x y : Nat) : Bool :=
  v.lost.any (fun s => s.1 == l && ((s.2.1 == y && decide (s.2.2.1 ≤ x)) || (s.2.2.2 && decide (s.2.1 < y))))
/-- Output pixel (x, y). -/
def Dev.pixel (d : Dev) (x y : Nat) : Option (Nat × Nat × Nat) :=
  let bg := d.rd F.VID_BG_RGB
  (List.range 4).foldl (fun below l =>
    let a := d.layer l
    let r := d.layerRect a
    if a.on && !(d.vid.skip.contains l) && (!a.follow || a.shown.isSome) && decide (r.1 ≤ x ∧ r.2.1 ≤ y ∧ x < r.2.2.1 ∧ y < r.2.2.2) && !(d.vid.hides l x y) then
      let w := if a.follow then 1024 else a.bits 1 0 13
      let h := if a.follow then 512 else a.bits 1 16 13
      blendPixel (a.bits 0 8 8) (d.source l a ((x - r.1) * w / max 1 (a.bits 3 0 13)) ((y - r.2.1) * h / max 1 (a.bits 3 16 13))) below
    else below) (some (bits bg 16 8, bits bg 8 8, bits bg 0 8))
/-- The bytes of a rectangle in raster order, where every one is stated. -/
def Dev.rectBytes (d : Dev) (x y w h : Nat) : Option (List Byte) :=
  ((List.range (w * h)).mapM (fun k => d.pixel (x + k % max 1 w) (y + k / max 1 w))).map
    (fun ps => ps.flatMap (fun p => [BitVec.ofNat 8 p.1, BitVec.ofNat 8 p.2.1, BitVec.ofNat 8 p.2.2]))

/-- Proof rectangle n at frame done (R438). A frame with pixels whose rounding is not stated has a free CRC (log entry 2). -/
def Dev.proof (d : Dev) (n : Nat) : Dev :=
  let ws := d.vid.proofs.getD n []
  let f (k lo w : Nat) := bits (ws.getD k 0).toNat lo w
  let x := f 1 0 13
  let y := f 1 16 13
  let w := f 2 0 13
  let h := f 2 16 13
  if f 0 0 1 = 0 ∨ d.rd F.VID_H_ACTIVE < x + w ∨ d.rd F.VID_V_ACTIVE < y + h then d
  else
    let (d, c) := match d.rectBytes x y w h with
      | some b => (d, crc32 b)
      | none => (d.usedFree, d.fresh % 2 ^ 32)
    let d := d.wr F.VID_PROOF_CRC_CRC c n
    if f 0 1 1 = 1 ∧ c ≠ f 3 0 32 then (d.inc F.VID_PROOF_MISMATCH_COUNT n).raise 36 (12 + n) else d

/-- The last active pixel of a frame is sent (R438, R439). -/
def Dev.frameDone (d : Dev) : Dev :=
  if d.vidState ≠ 2 ∨ d.vid.start.isNone then d
  else
    let d := d.vidTime (d.linesTo (d.rd F.VID_V_ACTIVE - 1)) (d.rd F.VID_H_ACTIVE)
    let d := (d.wr F.VID_FRAMES_COUNT (d.rd F.VID_FRAMES_COUNT + 1)).raise 36 2
    (List.range 8).foldl (fun d n => d.proof n) d
/-- The output reaches `VID_LINE_MATCH` (R439). -/
def Dev.lineMatch (d : Dev) : Dev :=
  let l := d.rd F.VID_LINE_MATCH_LINE
  if d.vidState ≠ 2 ∨ d.vid.start.isNone ∨ d.rd F.VID_V_TOTAL ≤ l then d
  else ((d.vidTime (d.linesTo l) 0).wr F.VID_STATUS_LINE l).raise 36 1
/-- A pixel of a layer is not there in time; `walk`: a walk fault, for the rest of the frame (R436). -/
def Dev.underrun (d : Dev) (l line x : Nat) (walk : Bool) : Dev :=
  if d.vidState ≠ 2 ∨ !(d.layer l).on ∨ d.vid.skip.contains l then d
  else ((d.setVid (fun v => { v with lost := v.lost ++ [(l, line, x, walk)] })).inc F.VID_UNDERRUN_COUNT).raise 36 3

/-! ## AUX and registers -/

/-- A write of `VID_AUX_CMD` with GO (R431): a transaction of up to 16 bytes; operations 4–7 are none. -/
def Dev.auxGo (d : Dev) (v : Word) : Dev :=
  if d.is F.VID_AUX_CMD_GO then d
  else
    let d := ((d.wr F.VID_AUX_CMD_ADDR (v.field 0 20)).wr F.VID_AUX_CMD_LEN (v.field 20 4)).wr F.VID_AUX_CMD_OP (v.field 24 3)
    let op := v.field 24 3
    if !(v.getLsbD 31) || decide (4 ≤ op) then d
    else
      let data := ((List.range 4).flatMap (fun k => leBytes 4 (d.rd F.VID_AUX_DATA_DATA k))).take (v.field 20 4 + 1)
      (d.flag F.VID_AUX_CMD_GO true).send (.aux op (v.field 0 20) (if op % 2 = 0 then data else []))
/-- The sink answers (R439): a read's bytes are stored. -/
def Dev.auxDone (d : Dev) (reply : Nat) (data : List Byte) : Dev :=
  if !(d.is F.VID_AUX_CMD_GO) then d
  else
    let d := ((d.flag F.VID_AUX_CMD_GO false).wr F.VID_AUX_STATUS_REPLY reply).mark F.VID_AUX_STATUS_DONE
    let old := (List.range 4).flatMap (fun k => leBytes 4 (d.rd F.VID_AUX_DATA_DATA k))
    let got := if d.rd F.VID_AUX_CMD_OP % 2 = 1 then data.take (d.rd F.VID_AUX_CMD_LEN + 1) else []
    let b := got ++ old.drop got.length
    ((List.range 4).foldl (fun d k => d.wr F.VID_AUX_DATA_DATA (leNat ((b.drop (4 * k)).take 4)) k) d).raise 36 22
/-- A write of a timing or link register: only in OFF (R432). -/
def Dev.vidTiming (d : Dev) (off : Nat) (v : Word) : Dev := if d.vidState = 0 then d.plainWrite off v else d.vidCode 1

/-! ## Meanings -/

/-- Write ENABLE to `VID_CMD` (R431). -/
def execVidEnable (s : State) := host 0x3D0000 Dev.vidEnable s
/-- Write DISABLE (R432). -/
def execVidDisable (s : State) := host 0x3D0000 Dev.vidDisable s
/-- Link training ends (R432). -/
def execLinkTrainingEnd (ok : Bool) (s : State) := lift (fun d => d.trainEnd ok) s
/-- Hot-plug detect changes (R432). -/
def execHpdChange (on : Bool) (s : State) := lift (fun d => d.hpdChange on) s
/-- The main link is lost (R432). -/
def execDisplayLinkLoss (s : State) := lift Dev.vidLoss s
/-- Vertical blanking starts (R435). -/
def execVblankStart (s : State) := lift Dev.vblank s
/-- The output reaches the match line (R439). -/
def execLineMatch (s : State) := lift Dev.lineMatch s
/-- The last active pixel of a frame is sent (R438). -/
def execFrameDone (s : State) := lift Dev.frameDone s
/-- A pixel of layer l is not fetched in time (R436). -/
def execUnderrun (l : Fin 4) (line x : Fin 8192) (walk : Bool) (s : State) := lift (fun d => d.underrun l line x walk) s
/-- Write FLIP of layer l with a tag (R435). -/
def execFlip (l : Fin 4) (tag : BitVec 16) (s : State) := host (0x3D0124 + l.val * 64) (fun d => d.flip l tag.toNat) s
/-- Write `VID_AUX_CMD` (R431). -/
def execAuxGo (v : Word) (s : State) := host 0x3D0040 (fun d => d.auxGo v) s
/-- An AUX transaction completes (R439). -/
def execAuxDone (reply : Byte) (data : List Byte) (s : State) := lift (fun d => d.auxDone reply.toNat data) s

end Sys2Proof.Machine
end

