-- ==== Sys2Proof/Machine/Streams.lean ====
section
/-! DEFINITION. Commands of stream ports (R383–R387) and their subscriptions (R391–R395) (spec/14_ports.md). -/
namespace Sys2Proof.Machine

/-! ## Start and stop -/

/-- A port that begins. -/
def Port.fresh (cursor set_ : Nat) : Port := ⟨cursor, none, 0, [], [], none, 0, false, 0, 0, 0, (0, 0), set_, [], 0, [], [], false⟩
/-- The reader of a port holds its ring (R383, R395): a UDP port only with ACK_MODE and STALL. -/
def Dev.portHolds (d : Dev) (n : Nat) : Bool :=
  d.is F.STR_CFG_HOLDING n && (d.rd F.STR_CFG_TRANSPORT n != 2 || ((d.strP n 0).testBit 11 && (d.strP n 0).testBit 12))
/-- A delivery begins (R385): at WR, or at the oldest record present; the port is attached as a reader. -/
def Dev.portBegin (d : Dev) (n : Nat) (oldest : Bool) : Dev :=
  let r := d.strRing n
  let wr := (d.ring r).wr
  let at_ := if oldest then (((d.ring r).recs.head?).map (·.pos)).getD wr else wr
  let d := d.setRing r (fun g => { g with readers := g.readers ++ [⟨.port n, at_, d.portHolds n, []⟩] })
  let d := d.wr F.GAL_RING_STAT_READERS (d.rd F.GAL_RING_STAT_READERS r + 1) r
  let set_ := bits (d.strP n 0) 0 4
  (d.setLinks (fun l => { l with ports := l.ports.put n (Port.fresh at_ set_) })).setWide F.STR_POS_LO_POS 0 n
/-- The port's mover is its own from START on (R341, R383). -/
def Dev.takeMover (d : Dev) (n : Nat) : Dev :=
  let m := d.rd F.STR_CFG_MOVER n
  if d.is F.MOV_OWNER_STR m then d else (d.flag F.MOV_OWNER_STR true m).wr F.MOV_OWNER_PORT n m

/-- What START checks (R384): 2 RING, 3 TRANSPORT, 4 MOVER, 5 SET, 0 nothing wrong. -/
def Dev.startCode (d : Dev) (n : Nat) : Nat :=
  let t := d.rd F.STR_CFG_TRANSPORT n
  let m := d.rd F.STR_CFG_MOVER n
  let log2 := bits (d.strP n 2) 0 6
  let st := d.setState (bits (d.strP n 0) 0 4)
  if !(d.ringOn (d.strRing n)) then 2
  else if t = 3 ∨ (t = 0 ∧ (log2 < 16 ∨ 40 < log2 ∨ d.strP n 0 % 4096 ≠ 0)) then 3
  else if !(d.is F.MOV_OWNER_STR m) && (d.rd F.MOV_STATUS_STATE m == 1 || d.rd F.MOV_STATUS_STATE m == 3) then 4
  else if t = 1 ∧ (if d.is F.STR_CFG_DIR n then st ≠ 4 ∧ st ≠ 5 ∧ st ≠ 6 else st ≠ 2) then 5
  else 0

/-- The replay of a set begins (R382): every drive that serves is asked for its label. -/
def Dev.replayBegin (d : Dev) (n : Nat) : Dev :=
  let served := (List.range 16).filter (fun i => d.drvState i == 3 || d.drvState i == 4)
  let drives := served.foldl (fun (t : Tab RepDrive) i => t.put i ⟨0, 0, 0, none, none, false, false⟩) Tab.empty
  (d.setLinks (fun l => { l with replays := l.replays.put n ⟨drives, 0, [], false, []⟩ })).replayReads n

/-- START (R384). -/
def Dev.strStart (d : Dev) (n : Nat) : Dev :=
  if d.strState n ≠ 0 then d.strCode n 1
  else
    let c := d.startCode n
    if c ≠ 0 then d.strCode n c
    else
      let t := d.rd F.STR_CFG_TRANSPORT n
      let d := (d.takeMover n).strCode n 0
      let k := bits (d.strP n 0) 0 4
      if t = 2 then
        (((d.setLinks (fun l => { l with ports := l.ports.put n (Port.fresh 0 0) })).setWide F.STR_POS_LO_POS 0 n).wr F.STR_STATUS_STATE 1 n).strEvent n 0
      else if t = 1 ∧ d.is F.STR_CFG_DIR n then
        let d := ((d.setLinks (fun l => { l with ports := l.ports.put n (Port.fresh 0 k) })).setWide F.STR_POS_LO_POS 0 n).wr F.STR_STATUS_STATE 2 n
        (d.replayBegin n).strEvent n 0
      else
        let d := ((d.portBegin n (d.is F.STR_CFG_START_AT n)).wr F.STR_STATUS_STATE 2 n).strEvent n 0
        if t = 1 then ((d.setSset k (fun s => { s with ring := d.strRing n })).wr F.NVM_SET_STATUS_STATE 3 k).writeLabels k else d

/-- STOP (R384): a UDP port stops sending at once, the others deliver what stood below WR. -/
def Dev.strStop (d : Dev) (n : Nat) : Dev :=
  match d.strState n with
  | 1 => d.strOff n
  | 4 => d.strOff n
  | 2 =>
    let udp := d.rd F.STR_CFG_TRANSPORT n == 2
    let limit := if udp then (d.port n).cursor else (d.ring (d.strRing n)).wr
    let d := ((d.setPort n (fun p => { p with limit := some limit })).wr F.STR_STATUS_STATE 3 n).strCode n 0
    if udp then d.flag F.ETH_SUB_STAT_VALID false n else d
  | _ => d.strCode n 1

/-- Whether every record below the STOP position was taken. -/
def Dev.portDrained (d : Dev) (n : Nat) : Bool :=
  match (d.port n).limit, d.recordAt (d.strRing n) (d.port n).cursor with
  | some l, some p => decide (l ≤ p.pos)
  | _, _ => true

/-- The transport of a stopping port closes (R384): its last writes, then OFF. A stripe set first cuts and completes its last chunks. -/
def Dev.transportClosed (d : Dev) (n : Nat) : Dev :=
  if d.strState n ≠ 3 then d
  else match d.rd F.STR_CFG_TRANSPORT n with
    | 0 =>
      if d.portDrained n then (d.hostStore (d.strP n 3 + d.strP n 4 * 2 ^ 32) (leBytes 8 (d.port n).pos)).strOff n else d
    | 1 =>
      if d.is F.STR_CFG_DIR n then d.strOff n
      else if !(d.portDrained n) then d
      else
        let k := (d.port n).set_
        let d := (d.setPort n (fun p => { p with closing := true })).pumpSet n ((d.port n).buf.length + 2)
        if d.setState k = 3 ∧ (d.port n).buf.isEmpty ∧ (d.sset k).quiet then
          (((d.closeSet k).wr F.NVM_SET_STATUS_STATE 4 k).raise 32 19).strOff n
        else d
    | _ => d.strOff n

/-- The write of `STR_CONS`, bits 63:32 (R387): a position above the producer position is ignored. -/
def Dev.strCons (d : Dev) (n : Nat) (hi : Word) : Dev :=
  if d.rd F.STR_CFG_TRANSPORT n = 0 then
    let d := d.wr F.STR_P_P hi.toNat n 6
    let v := d.strP n 5 + d.strP n 6 * 2 ^ 32
    if (d.strState n = 2 ∨ d.strState n = 3) ∧ v ≤ (d.port n).pos then (d.setPort n (fun p => { p with cons := v })).hostRingFill n else d
  else if d.strState n = 0 then d.wr F.STR_P_P hi.toNat n 6
  else d

/-- A port was held at an unresolved capture for 1 s (R400). -/
def Dev.heldOver (d : Dev) (n : Nat) : Dev :=
  match (d.port n).heldSince with
  | some t => (d.advanceTo (t + 1000000000)).strEvent n 7
  | none => d

/-- A lease ends (R393): WAITING with LAPSED. -/
def Dev.leaseLapse (d : Dev) (n : Nat) : Dev :=
  if d.strState n = 2 ∧ d.rd F.STR_CFG_TRANSPORT n = 2 then
    let d := (((d.advanceTo (d.port n).leaseEnd).detachPort n).wr F.STR_STATUS_STATE 1 n).strCode n 8
    ((d.flag F.ETH_SUB_STAT_VALID false n).strEvent n 3).raise 33 17
  else d

/-! ## Control frames -/

/-- Take a token for a source (R392): buckets for 256 sources and one that the others share. Tokens are counted in 10^-9. -/
def Dev.takeToken (d : Dev) (p source : Nat) : Dev × Bool :=
  let bs := d.links.buckets
  let depth := d.rd F.ETH_CTL_RATE_DEPTH p * 1000000000
  let key := if bs.any (fun b => b.1 == (p, source)) || decide (bs.length < 256) then (p, source) else (p, 2 ^ 130)
  let now := match bs.find? (fun b => b.1 == key) with
    | some b => min depth (b.2.1 + (d.clk - b.2.2) * d.rd F.ETH_CTL_RATE_RATE p)
    | none => depth
  let ok := decide (1000000000 ≤ now)
  (d.setLinks (fun l => { l with buckets := bs.filter (fun b => b.1 != key) ++ [(key, if ok then now - 1000000000 else now, d.clk)] }), ok)

/-- The subscriber key in slot k (R481). -/
def Dev.subKey (d : Dev) (k : Nat) : Option (List Byte) :=
  if k < 64 then (d.sec.wrapped.get? k).map (keyUnwrap (deviceKeyBytes Config.deviceKey)) else none
/-- Whether a control frame passes the checks of R392 that follow the rate. -/
def Dev.ctlGood (d : Dev) (b : List Byte) : Bool :=
  match d.subKey (leNat ((b.drop 6).take 1)) with
  | some key => b.length == 56 && leNat (b.take 4) == 0x4253584C && leNat ((b.drop 4).take 1) == 1 && cmac key (b.take 40) == (b.drop 40).take 16 &&
      decide (d.sec.frameCtr.getD (leNat ((b.drop 6).take 1)) 0 < leNat ((b.drop 8).take 8))
  | none => false

/-- The STATUS frame that answers a control frame (R391, R393): its own counter is not stated (log entry 2). -/
def Dev.status (d : Dev) (q : Nat) (f : CtlFrame) (result lease : Nat) : Dev :=
  let k := leNat ((f.payload.drop 6).take 1)
  let body := leBytes 4 0x4253584C ++ [1, 0x80] ++ leBytes 1 k ++ leBytes 1 result ++ leBytes 8 (d.fresh % 2 ^ 64) ++ (f.payload.drop 16).take 4 ++
    leBytes 4 lease ++ List.replicate 16 0
  match d.subKey k with
  | some key => d.usedFree.send (.datagram q none f.v6 f.mac f.addr (d.rd F.ETH_CTL_PORT_PORT (q / 4)) f.port (body ++ cmac key body))
  | none => d

/-- The address of the subscriber of port n. -/
def Dev.subAddr (d : Dev) (n : Nat) : Nat :=
  if d.is F.ETH_SUB_STAT_IPV6 n then (List.range 4).foldl (fun a k => a * 2 ^ 32 + d.rd F.ETH_SUB_ADDR_ADDR n k) 0 else d.rd F.ETH_SUB_ADDR_ADDR n
/-- Whether a control frame comes from the subscriber of port n. -/
def Dev.fromSubscriber (d : Dev) (n : Nat) (f : CtlFrame) : Bool :=
  d.is F.ETH_SUB_STAT_VALID n && d.is F.ETH_SUB_STAT_IPV6 n == f.v6 && d.subAddr n == f.addr
/-- Record the sender of an accepted SUBSCRIBE (R393). -/
def Dev.recordSubscriber (d : Dev) (n : Nat) (f : CtlFrame) : Dev :=
  let d := ((d.flag F.ETH_SUB_STAT_VALID true n).flag F.ETH_SUB_STAT_IPV6 f.v6 n).wr F.ETH_SUB_STAT_KEY (leNat ((f.payload.drop 6).take 1)) n
  let d := (List.range 4).foldl (fun d k => d.wr F.ETH_SUB_ADDR_ADDR (if f.v6 then f.addr / 2 ^ (32 * (3 - k)) else if k = 0 then f.addr else 0) n k) d
  (d.wr F.ETH_SUB_PORT_PORT (leNat ((f.payload.drop 18).take 2)) n).wrWide F.ETH_SUB_MAC_MAC f.mac n 2

/-- What an accepted control frame does (R393, R395). Results: 0 OK, 1 BUSY, 2 PORT, 3 KEY, 4 LEASE. -/
def Dev.subscription (d : Dev) (q : Nat) (f : CtlFrame) : Dev :=
  let b := f.payload
  let op := leNat ((b.drop 5).take 1)
  let n := leNat ((b.drop 16).take 2)
  let asked := leNat ((b.drop 20).take 4)
  let lease := min asked (d.strP n 4)
  let same := d.fromSubscriber n f
  let end_ := d.clk + lease * 1000000
  if 1024 ≤ n ∨ d.rd F.STR_CFG_TRANSPORT n ≠ 2 ∨ d.strState n = 0 then if op = 4 then d else d.status q f 2 0
  else if bits (d.strP n 0) 4 6 ≠ leNat ((b.drop 6).take 1) then if op = 4 then d else d.status q f 3 0
  else if (op = 1 ∨ op = 2) ∧ d.strState n = 2 ∧ !same then d.status q f 1 0
  else if (op = 1 ∨ op = 2) ∧ asked = 0 then d.status q f 4 0
  else if op = 1 ∧ d.strState n = 1 then
    let d := (d.portBegin n (leNat ((b.drop 24).take 1) == 1)).setPort n (fun p => { p with leaseEnd := end_ })
    (((((d.recordSubscriber n f).wr F.STR_STATUS_STATE 2 n).strCode n 0).strEvent n 4).status q f 0 lease)
  else if op = 2 ∧ d.strState n = 2 then (d.setPort n (fun p => { p with leaseEnd := end_ })).status q f 0 lease
  else if op = 3 ∧ d.strState n = 2 ∧ same then
    ((((d.detachPort n).wr F.STR_STATUS_STATE 1 n).strCode n 0).flag F.ETH_SUB_STAT_VALID false n).status q f 0 0
  else if op = 4 then
    let ack := leNat ((b.drop 32).take 8)
    if d.strState n = 2 ∧ same ∧ (d.port n).acked ≤ ack ∧ ack ≤ (d.port n).pos then d.setPort n (fun p => { p with acked := ack }) else d
  else d.status q f 1 0

/-- A control frame on sub-port q (R392): rate, checks, then its effect. -/
def Dev.control (d : Dev) (q : Nat) (f : CtlFrame) : Dev :=
  let p := q / 4
  let (d, ok) := d.takeToken p (f.addr + (if f.v6 then 2 ^ 129 else 0))
  if !ok then (d.inc F.ETH_CTL_LIMITED_COUNT p).raise 33 16
  else if !(d.ctlGood f.payload) then (d.inc F.ETH_CTL_BAD_COUNT p).raise 33 16
  else
    let d := { d with sec := { d.sec with frameCtr := d.sec.frameCtr.put (leNat ((f.payload.drop 6).take 1)) (leNat ((f.payload.drop 8).take 8)) } }
    (d.inc F.ETH_CTL_OK_COUNT p).subscription q f
/-- A control frame whose opcode is `op`. -/
def Dev.controlOp (d : Dev) (q op : Nat) (f : CtlFrame) : Dev :=
  if leNat ((f.payload.drop 5).take 1) = op then d.control q f else d

/-! ## Meanings -/

/-- Write START to `STR_CMD` of port n (R384). -/
def execStrStart (n : Fin 1024) (s : State) := host (0x380004 + n.val * 64) (fun d => d.strStart n) s
/-- Write STOP (R384). -/
def execStrStop (n : Fin 1024) (s : State) := host (0x380004 + n.val * 64) (fun d => d.strStop n) s
/-- The transport of port n closes (R384). -/
def execTransportClosed (n : Fin 1024) (s : State) := lift (fun d => d.transportClosed n) s
/-- Write `STR_CONS`, bits 63:32 (R387). -/
def execStrConsWrite (n : Fin 1024) (hi : Word) (s : State) := host (0x380024 + n.val * 64) (fun d => d.strCons n hi) s
/-- A SUBSCRIBE frame reaches sub-port q (R393). -/
def execSubscribe (q : Fin 16) (f : CtlFrame) (s : State) := lift (fun d => d.controlOp q 1 f) s
/-- A RENEW frame (R393). -/
def execRenew (q : Fin 16) (f : CtlFrame) (s : State) := lift (fun d => d.controlOp q 2 f) s
/-- An UNSUBSCRIBE frame (R393). -/
def execUnsubscribe (q : Fin 16) (f : CtlFrame) (s : State) := lift (fun d => d.controlOp q 3 f) s
/-- An ACK frame (R395). -/
def execAck (q : Fin 16) (f : CtlFrame) (s : State) := lift (fun d => d.controlOp q 4 f) s
/-- The lease of port n ends (R393). -/
def execLeaseLapse (n : Fin 1024) (s : State) := lift (fun d => d.leaseLapse n) s
/-- Port n has been held at an unresolved capture for 1 s (R400). -/
def execProvisionalHeldOver1s (n : Fin 1024) (s : State) := lift (fun d => d.heldOver n) s

end Sys2Proof.Machine
end

