-- ==== Sys2Proof/Machine/Ethernet.lean ====
section
/-! DEFINITION. Ethernet ports: received frames (R388, R389), PTP stamps (R294–R298), slow-path queues (R390) and scheduled launch
(R299, R300). -/
namespace Sys2Proof.Machine

/-- Bytes `o` to `o + n − 1` of a frame as a big-endian number. -/
def be (b : List Byte) (o n : Nat) : Nat := beNat ((b.drop o).take n)

/-- What the engine reads in a frame: EtherType and what follows the tags, and the UDP datagram in it: IPv6, source and destination address, source
and destination port, payload. -/
structure Parsed where
  type : Nat
  body : List Byte
  udp : Option (Bool × Nat × Nat × Nat × Nat × List Byte)
deriving Repr

/-- Read a frame (802.1Q tags are accepted, R388); an IPv4 fragment carries no datagram. -/
def parseFrame (b : List Byte) : Parsed :=
  let o := if be b 12 2 = 0x8100 then 18 else 14
  let type := be b (o - 2) 2
  let x := b.drop o
  let udp (h : Nat) (v6 : Bool) (s d : Nat) : Option (Bool × Nat × Nat × Nat × Nat × List Byte) :=
    some (v6, s, d, be x h 2, be x (h + 2) 2, (x.drop (h + 8)).take (be x (h + 4) 2 - 8))
  ⟨type, x,
    if type = 0x0800 ∧ be x 9 1 = 17 ∧ be x 6 2 % 2 ^ 14 = 0 then udp (be x 0 1 % 16 * 4) false (be x 12 4) (be x 16 4)
    else if type = 0x86DD ∧ be x 6 1 = 17 then udp 40 true (be x 8 16) (be x 24 16)
    else none⟩

/-- The PTP message in a frame with its transport: 0 layer 2, 1 UDP/IPv4, 2 UDP/IPv6 (R294). -/
def Parsed.ptp (p : Parsed) : Option (Nat × List Byte) :=
  if p.type = 0x88F7 then some (0, p.body)
  else match p.udp with
    | some (v6, _, _, _, port, x) => if port = 319 ∨ port = 320 then some (if v6 then 2 else 1, x) else none
    | none => none
/-- Whether a message is stamped at a stamping point (R294): Sync, Delay_Req, Pdelay_Req, Pdelay_Resp of its domain over an enabled transport. -/
def Dev.stamps (d : Dev) (q : Nat) (m : Nat × List Byte) : Bool :=
  d.is F.PTP_CFG_EN q && (match m.1 with
    | 0 => d.is F.PTP_CFG_L2 q
    | 1 => d.is F.PTP_CFG_UDP4 q
    | _ => d.is F.PTP_CFG_UDP6 q) && decide (be m.2 0 1 % 16 < 4) && be m.2 4 1 == d.rd F.PTP_CFG_DOMAIN q
/-- Whether R298 drops a message. -/
def Dev.gmDrops (d : Dev) (q : Nat) (m : List Byte) : Bool :=
  let t := be m 0 1 % 16
  d.is F.PTP_CFG_GM_FILT q && (t == 0 || t == 8 || t == 9 || t == 11) &&
    !((List.range 8).any (fun i => d.is F.PTP_GM_VALID_VALID i && d.rd F.PTP_GM_ID_LO_ID i + d.rd F.PTP_GM_ID_HI_ID i * 2 ^ 32 == leNat ((m.drop 20).take 8)))
/-- A time `ps` picoseconds after now, scaled to local-clock time (R295). -/
def Dev.stampAt (d : Dev) (ps : Int) : Nat := (((d.localTime : Int) + ps * d.cycle / 1000) % (localWrap : Int)).toNat

/-- Whether sub-port q exists in the port's mode and its port is enabled (R388). -/
def Dev.subPortOn (d : Dev) (q : Nat) : Bool := d.is F.ETH_CFG_EN (q / 4) && (d.is F.ETH_CFG_BREAKOUT (q / 4) || q % 4 == 0)

/-! ## Receive -/

/-- A frame goes to the receive queue of its sub-port (R389, R390, R296). -/
def Dev.rxQueue (d : Dev) (q : Nat) (b : List Byte) (stamp : Option Nat) : Dev :=
  let head := d.rd F.ETH_SP_RX_HEAD_RX_HEAD q
  if head = d.rd F.ETH_SP_RX_TAIL_RX_TAIL q then (d.inc F.ETH_SP_RXDROP_RXDROP q).raise 33 20
  else
    let size := 2 ^ max 4 (min 12 (d.rd F.ETH_SP_RX_SIZE_RX_SIZE q))
    let desc := d.rdWide F.ETH_SP_RX_BASE_RX_BASE q 2 + head % size * 32
    let d := d.hostStore (leNat (d.hostMem.bytes desc 8)) (b.take 16384)
    let d := d.hostStore (desc + 8) (leBytes 2 b.length ++ leBytes 2 (if stamp.isSome then 3 else 1) ++ leBytes 2 (if stamp.isSome then d.epoch else 0))
    let d := match stamp with
      | some t => d.hostStore (desc + 16) (leBytes 12 t)
      | none => d
    (d.wr F.ETH_SP_RX_HEAD_RX_HEAD (head + 1) q).raise 33 18

/-- A frame is received on sub-port q (R389): destination MAC to the last byte before the frame check sequence. -/
def Dev.rxFrame (d : Dev) (q : Nat) (b : List Byte) : Dev :=
  if !(d.subPortOn q) || decide (d.rd F.ETH_CFG_MAXFRAME (q / 4) < b.length + 4) then d
  else
    let p := parseFrame b
    let drop := match p.ptp with
      | some m => d.gmDrops q m.2
      | none => false
    if drop then (d.inc F.PTP_GM_DROP_COUNT q).raise 2 21
    else
      let stamp := match p.ptp with
        | some m => if d.stamps q m then some (stamp96 (d.stampAt (-((d.rd F.PTP_INGRESS_PS_PS q : Int) + d.rdInt F.PTP_ASYM_PS_PS q)))) else none
        | none => none
      let own := d.rd F.ETH_SP_MAC_LO_MAC_LO q + d.rd F.ETH_SP_MAC_HI_MAC_HI q % 2 ^ 16 * 2 ^ 32
      let v6 := (List.range 4).foldl (fun a k => a * 2 ^ 32 + d.rd F.ETH_SP_IPV6_IPV6 q k) 0
      match p.udp with
      | some (six, src, dst, sport, dport, x) =>
        if dport = d.rd F.ETH_CTL_PORT_PORT (q / 4) ∧ dst = (if six then v6 else d.rd F.ETH_SP_IPV4_IPV4 q) ∧ leNat (b.take 6) = own then
          d.control q ⟨six, leNat ((b.drop 6).take 6), src, sport, x⟩
        else d.rxQueue q b stamp
      | none => d.rxQueue q b stamp

/-! ## Transmit -/

/-- `TX_HEAD` passes every leading descriptor that was written back (R390). -/
def Dev.txHead (d : Dev) (q : Nat) : Nat → Dev
  | 0 => d
  | k + 1 =>
    let head := d.rd F.ETH_SP_TX_HEAD_TX_HEAD q
    let size := 2 ^ max 4 (min 12 (d.rd F.ETH_SP_TX_SIZE_TX_SIZE q))
    let desc := d.rdWide F.ETH_SP_TX_BASE_TX_BASE q 2 + head % size * 32
    let waits (l : List TxFrame) := l.any (fun f => f.q == q && f.desc == desc)
    if head = d.rd F.ETH_SP_TX_TAIL_TX_TAIL q || waits (d.links.sent.getD q []) || d.links.launch.cells.any (fun c => waits c.2) then d
    else (d.wr F.ETH_SP_TX_HEAD_TX_HEAD (head + 1) q).txHead q k
/-- Write a transmit descriptor back with its flags and move the head. -/
def Dev.txBack (d : Dev) (f : TxFrame) : Dev := (d.hostStore (f.desc + 10) (leBytes 2 f.flags)).txHead f.q 4096

/-- A frame goes to its sub-port. -/
def Dev.txSend (d : Dev) (f : TxFrame) : Dev :=
  (d.send (.frame f.q f.bytes)).setLinks (fun l => { l with sent := l.sent.put f.q (l.sent.getD f.q [] ++ [f]) })

/-- Take the descriptor at index `i` of the transmit queue of sub-port q (R390). A Queue byte above 8 names no queue, and a launch
time with more than 999,999,999 ns is refused (R11): the frame is dropped. -/
def Dev.txTake (d : Dev) (q i : Nat) : Dev :=
  let size := 2 ^ max 4 (min 12 (d.rd F.ETH_SP_TX_SIZE_TX_SIZE q))
  let desc := d.rdWide F.ETH_SP_TX_BASE_TX_BASE q 2 + i % size * 32
  let b := d.hostMem.bytes desc 32
  let f (o k : Nat) := leNat ((b.drop o).take k)
  let bytes := d.hostMem.bytes (f 0 8) (f 8 2)
  let wants := (f 10 2).testBit 0
  let ident := match (parseFrame bytes).ptp with
    | some m => if wants && d.stamps q m then some (f 12 2) else none
    | none => none
  let x : TxFrame := ⟨q, desc, bytes, ident, ofStamp96 (f 16 12), false, f 10 2 % 2⟩
  if f 14 1 = 0 then d.txSend x
  else if f 14 1 ≤ 8 && stampOk (f 16 12) then
    let k := 8 * (q / 4) + (f 14 1 - 1)
    d.setLinks (fun l => { l with launch := l.launch.put k (l.launch.getD k [] ++ [x]) })
  else d.txBack { x with flags := x.flags + 18 }
/-- Take the descriptors from index `i` on. -/
def Dev.txTakes (d : Dev) (q i : Nat) : Nat → Dev
  | 0 => d
  | k + 1 => (d.txTake q i).txTakes q (i + 1) k

/-- The host advances a transmit tail (R390): at most the queue's entries are taken. -/
def Dev.txTail (d : Dev) (q : Nat) (tail : Word) (stores : List (Nat × List Byte)) : Dev :=
  let d := d.hostStores stores
  let old := d.rd F.ETH_SP_TX_TAIL_TX_TAIL q
  let size := 2 ^ max 4 (min 12 (d.rd F.ETH_SP_TX_SIZE_TX_SIZE q))
  let n := (tail - BitVec.ofNat 32 old).toNat
  (d.wr F.ETH_SP_TX_TAIL_TX_TAIL tail.toNat q).txTakes q old (min n size)

/-- Show the head of a stamp queue; G2 source 4 + q stands while it holds entries (R297). -/
def Dev.showTxq (d : Dev) (q : Nat) : Dev :=
  let l := d.time.txq.getD q []
  let d := (d.wr F.PTP_TXQ_STATUS_COUNT l.length q).level 2 (4 + q) (!l.isEmpty)
  match l with
  | e :: _ => (d.wr F.PTP_TXQ_ID_ID e.1 q).flag F.PTP_TXQ_ID_VALID true q
  | [] => (d.wr F.PTP_TXQ_ID_ID 0 q).flag F.PTP_TXQ_ID_VALID false q
/-- A frame that wants a stamp passes the stamp point (R295, R297). -/
def Dev.txStamp (d : Dev) (q : Nat) : Dev :=
  let fs := d.links.sent.getD q []
  match fs.find? (fun f => f.ident.isSome) with
  | none => d
  | some f =>
    let d := d.setLinks (fun l => { l with sent := l.sent.put q (fs.map (fun (x : TxFrame) => if x = f then { x with ident := none } else x)) })
    let l := d.time.txq.getD q []
    if 16 ≤ l.length then ((d.mark F.PTP_TXQ_STATUS_OVF q).inc F.PTP_TXQ_LOST_COUNT q).raise 2 20
    else (d.setTime (fun t => { t with txq := t.txq.put q (l ++ [(f.ident.getD 0, stamp96 (d.stampAt (d.rd F.PTP_EGRESS_PS_PS q)), d.epoch)]) })).showTxq q
/-- The oldest frame of sub-port q finishes leaving (R390). -/
def Dev.txDone (d : Dev) (q : Nat) : Dev :=
  match d.links.sent.getD q [] with
  | [] => d
  | f :: t =>
    if f.ident.isSome then d
    else
      let d := d.setLinks (fun l => { l with sent := l.sent.put q t })
      (d.txBack { f with flags := f.flags % 2 + 2 + f.flags / 4 * 4 }).raise 33 19
/-- POP (R297). -/
def Dev.txqPop (d : Dev) (q : Nat) : Dev := (d.setTime (fun t => { t with txq := t.txq.put q ((t.txq.getD q []).drop 1) })).showTxq q

/-- When a frame of a launch queue is due (R299, R300). -/
def TxFrame.due (f : TxFrame) : Nat := f.launch + (if f.cued then 200 * nsUnit else 0)
/-- The head frame of launch queue k of port p is due (R299): late by more than 2 ns it is dropped or sent flagged; a lower queue whose head is
due at the same time goes first. A disabled queue holds its frames. -/
def Dev.launch (d : Dev) (p k : Nat) : Dev :=
  match d.links.launch.getD (8 * p + k) [] with
  | [] => d
  | f :: t =>
    let before := (List.range k).any (fun j => d.is F.LQ_CFG_EN p j && ((d.links.launch.getD (8 * p + j) []).head?.map (fun g => g.due == f.due)).getD false)
    if before || !(d.is F.LQ_CFG_EN p k) then d
    else
      let late := !f.cued && decide (f.due + 2 * nsUnit < d.localTime)
      let d := (d.advanceLocal f.due).setLinks (fun l => { l with launch := l.launch.put (8 * p + k) t })
      if !late then (d.inc F.LQ_SENT_COUNT p k).txSend { f with flags := f.flags + (if f.cued then 8 else 0) }
      else if d.is F.LQ_CFG_LATE p k then (((d.inc F.LQ_SENT_COUNT p k).inc F.LQ_LATE_COUNT p k).raise 2 (24 + p)).txSend { f with flags := f.flags + 4 }
      else ((d.inc F.LQ_DROP_COUNT p k).raise 2 (24 + p)).txBack { f with flags := f.flags + 18 }

/-- The link of sub-port q changes (R400). -/
def Dev.ethLink (d : Dev) (q : Nat) (up : Bool) : Dev :=
  let p := q / 4
  let set_ (v : Nat) := if v.testBit (q % 4) = up then v else v ^^^ 2 ^ (q % 4)
  if (d.rd F.ETH_STATUS_LINK p).testBit (q % 4) = up then d
  else ((d.wr F.ETH_STATUS_LINK (set_ (d.rd F.ETH_STATUS_LINK p)) p).wr F.ETH_STATUS_FEC_LOCK (set_ (d.rd F.ETH_STATUS_FEC_LOCK p)) p).raise 33 q

/-! ## Meanings -/

/-- A frame is received on sub-port q (R389). -/
def execEthRxFrame (q : Fin 16) (bytes : List Byte) (s : State) := lift (fun d => d.rxFrame q bytes) s
/-- A frame that requested a stamp leaves sub-port q (R297). -/
def execPtpTxStamp (q : Fin 16) (s : State) := lift (fun d => d.txStamp q) s
/-- Write POP of stamping point q (R297). -/
def execTxqPop (q : Fin 16) (s : State) := host (0x51034 + q.val * 256) (fun d => d.txqPop q) s
/-- The head frame of launch queue k of port p is due (R299). -/
def execLaunchTime (p : Fin 4) (k : Fin 8) (s : State) := lift (fun d => d.launch p k) s
/-- The host advances a receive tail (R390); what it stored in host memory before comes with it. -/
def execSpRxTailWrite (q : Fin 16) (tail : Word) (stores : List (Nat × List Byte)) (s : State) :=
  host (0x3A102C + q.val * 128) (fun d => (d.hostStores stores).wr F.ETH_SP_RX_TAIL_RX_TAIL tail.toNat q) s
/-- The host advances a transmit tail (R390); what it stored in host memory before comes with it. -/
def execSpTxTailWrite (q : Fin 16) (tail : Word) (stores : List (Nat × List Byte)) (s : State) :=
  host (0x3A1040 + q.val * 128) (fun d => d.txTail q tail stores) s
/-- The oldest slow-path frame of sub-port q finishes leaving (R390). -/
def execSlowPathTransmitDone (q : Fin 16) (s : State) := lift (fun d => d.txDone q) s
/-- The link of sub-port q changes (R388). -/
def execEthLinkChange (q : Fin 16) (up : Bool) (s : State) := lift (fun d => d.ethLink q up) s

end Sys2Proof.Machine
end

