-- ==== Sys2Proof/Machine/Movers.lean ====
section
/-! DEFINITION. Movers (R335–R341, spec/12_galley.md): commands, the look at a descriptor, its elements and its write-back. Device-window
elements are register accesses: how one is made is an argument here, and `Bus` gives it. -/
namespace Sys2Proof.Machine

/-- A mover's interrupt (R343). -/
def Dev.movRaise (d : Dev) (m : Nat) : Dev := d.raise (24 + m / 32 % 2) (m % 32)
/-- `MOV_STATUS.CODE`: 0 OK, 1 STATE, 2 OWNED, 3 FORMAT. -/
def Dev.movCode (d : Dev) (m c : Nat) : Dev := d.wr F.MOV_STATUS_CODE c m
/-- Put mover m in a state. -/
def Dev.setMov (d : Dev) (m st : Nat) : Dev := (d.wr F.MOV_STATUS_STATE st m).wr F.MOV_STATUS_ELEM 0 m
/-- Whether the host can be reached (R368). -/
def Dev.hostUp (d : Dev) : Bool := d.is F.PCI_LINK_UP

/-! ## Stores -/

/-- Pages of a ring from a position on, walked for a write (R328). -/
def Dev.walkWrite (d : Dev) (r pos len : Nat) : Nat → Dev
  | 0 => d
  | k + 1 =>
    let d := d.walkWrite r pos len k
    let p := (pos / pageSize + k) * pageSize
    if pos + len ≤ p then d else d.walk r (d.pageOf r p) 0
/-- Bytes put at a ring position: those of a page that an image locks, of a page that cannot be walked, and of a dead granule are discarded. -/
def Dev.ringPut (d : Dev) (r pos : Nat) : List Byte → Dev
  | [] => d
  | b :: t =>
    let idx := d.pageOf r pos
    let a := d.ringAddr r pos
    let d := if (d.pageLocked idx).isSome || (d.walkCause idx).isSome || d.addrDead a then d else d.galStore a b
    d.ringPut r (pos + 1) t
/-- Count a write into locked pages (R54): once for each store that meets one. -/
def Dev.lockedDrop (d : Dev) (r pos len : Nat) : Dev :=
  match (List.range (len / pageSize + 2)).findSome? (fun k =>
      let p := max pos ((pos / pageSize + k) * pageSize)
      if p < pos + len then d.pageLocked (d.pageOf r p) else none) with
  | some k => (d.inc F.FMR_IMG_WDROP_WDROP k).raise 7 8
  | none => d
/-- Store bytes in host memory or a ring. -/
def Dev.movStore (d : Dev) (a : Nat) (b : List Byte) : Dev :=
  if movSpace a = 1 then
    let r := movRing a
    let pos := movOffset a
    ((d.walkWrite r pos b.length (b.length / pageSize + 2)).lockedDrop r pos b.length).ringPut r pos b
  else if d.hostUp then d.hostStore (a % 2 ^ 60) b
  else d

/-! ## Descriptors -/

/-- Write back a descriptor: OWN cleared, status word, bytes delivered, element statuses; it counts (R336). -/
def Dev.writeBack (d : Dev) (m a : Nat) (x : MovDesc) (status bytes : Nat) (elems : List Nat) : Dev :=
  let d := d.movStore a (leBytes 4 (x.control % 2 ^ 31) ++ leBytes 4 status)
  let d := d.movStore (a + 24) (leBytes 4 bytes)
  let d := elems.zipIdx.foldl (fun d p => d.movStore (a + 0x2E + 16 * p.2) (leBytes 2 p.1)) d
  d.inc F.MOV_DONE_COUNT m
/-- The mover enters STOPPED with FORMAT. -/
def Dev.movFormat (d : Dev) (m : Nat) : Dev := ((d.setMov m 2).movCode m 3).movRaise m
/-- A RUNNING mover looks at its current descriptor (R336, R341): OWN = 0 makes it IDLE there; an invalid one, or one that cannot be
reached, stops it with FORMAT. -/
def Dev.movLook (d : Dev) (m : Nat) : Dev :=
  let a := d.movCur m
  if !(d.descAddrOk a) || (movSpace a == 0 && !d.hostUp) then d.movFormat m
  else
    let x := d.descAt a
    if !(x.control.testBit 31) then d.setMov m 0
    else if d.descOk x then d.paceTake
    else (d.writeBack m a x 2 0 (x.elems.map (fun _ => 2))).movFormat m
/-- START (R341). `stores` is what the host itself put in its memory before (log entry 13). -/
def Dev.movStart (d : Dev) (m : Nat) (stores : List (Nat × List Byte)) : Dev :=
  let d := d.hostStores stores
  if d.is F.MOV_OWNER_STR m then d.movCode m 2
  else match d.movState m with
    | 1 => d.movCode m 1
    | 3 => d.movCode m 1
    | st =>
      let d := if st = 2 then d.setWide F.MOV_CUR_LO_ADDR (d.rd F.MOV_HEAD_LO_ADDR m + d.rd F.MOV_HEAD_HI_ADDR m * 2 ^ 32) m else d
      ((d.setMov m 1).movCode m 0).movLook m
/-- STOP (R341). -/
def Dev.movStop (d : Dev) (m : Nat) : Dev :=
  if d.is F.MOV_OWNER_STR m then d.movCode m 2
  else if d.movState m = 1 then (d.wr F.MOV_STATUS_STATE 3 m).movCode m 0 else d.movCode m 1

/-! ## Elements (R337) -/

/-- How register accesses are made: a read that leaves its answer in `readData`, and a write. -/
structure RegAccess where
  read : Dev → Nat → Dev
  write : Dev → Nat → Word → Dev
  narrow : Dev → Nat → Dev

/-- Bytes of a device window: each word they touch is read once. -/
def Dev.deviceBytes (d : Dev) (acc : RegAccess) (off len : Nat) : Dev × List Byte :=
  let w0 := off / 4
  let n := (off + len + 3) / 4 - w0
  let r := (List.range n).foldl (fun (p : Dev × List Byte) k =>
    let d := acc.read p.1 (4 * (w0 + k))
    (d, p.2 ++ leBytes 4 d.readData)) (d, [])
  ({ r.1 with readData := d.readData }, (r.2.drop (off % 4)).take len)
/-- Results read from `HKA_RESULT` (R454): those the paced mover took, else the register as it stands, word by word. -/
def Dev.resultBytes (d : Dev) (acc : RegAccess) (m n : Nat) : Dev × List Byte :=
  if d.is F.HKA_CTRL_PACE_EN && d.rd F.HKA_CTRL_PACE_MOVER == m then
    ({ d with hka := { d.hka with paced := d.hka.paced.drop n } }, (d.hka.paced.take n).flatMap (fun w => leBytes 4 w.toNat))
  else
    let r := (List.range n).foldl (fun (p : Dev × List Byte) _ =>
      let d := acc.read p.1 0x38008
      (d, p.2 ++ leBytes 4 d.readData)) (d, [])
    ({ r.1 with readData := d.readData }, r.2)
/-- Bytes written to a device window: whole words are register writes, the others narrow ones (R483). -/
def Dev.devicePut (d : Dev) (acc : RegAccess) (off : Nat) : Nat → List Byte → Dev
  | 0, _ => d
  | k + 1, b =>
    if b.isEmpty then d
    else if off % 4 = 0 ∧ 4 ≤ b.length then (acc.write d off (BitVec.ofNat 32 (leNat (b.take 4)))).devicePut acc (off + 4) k (b.drop 4)
    else (acc.narrow d off).devicePut acc (off + (4 - off % 4)) k (b.drop (4 - off % 4))

/-- Read element e of mover m: its bytes with fill from the first failing byte on, and that byte with the galley bytes read. -/
def Dev.elemRead (d : Dev) (acc : RegAccess) (m e src len : Nat) (fails : List (Nat × Nat)) : Dev × List Byte × Option Nat × Nat :=
  let fill := BitVec.ofNat 8 (d.rd F.MOV_CTRL_FILL m)
  let own := (fails.find? (fun f => f.1 == e && decide (f.2 < len))).map (·.2)
  let cut (o : Option Nat) (b : List Byte) : List Byte := match o with | some k => b.take k ++ List.replicate (len - k) fill | none => b
  match movSpace src with
  | 1 =>
    let r := movRing src
    let pos := movOffset src
    let bad := (d.firstBad r pos len (len / 256 + 2)).map (·.1)
    let bad := match own, bad with
      | some a, some b => some (min a b)
      | some a, none => some a
      | none, b => b
    let d := d.walkRead r pos len (len / pageSize + 2)
    (d, cut bad (d.ringBytes r pos len), bad, bad.getD len)
  | 2 =>
    let x := if src = hkaResultAddr then d.resultBytes acc m (len / 4) else d.deviceBytes acc (src % 2 ^ 32) len
    (x.1, cut own x.2, own, 0)
  | _ =>
    let bad := if d.hostUp then own else some 0
    (d, cut bad (d.hostMem.bytes (src % 2 ^ 60) len), bad, 0)
/-- The source address of byte `o` of an element. -/
def Dev.elemAddr (d : Dev) (src o : Nat) : Nat :=
  if movSpace src = 1 then 2 ^ 60 + movRing src * 2 ^ 48 + (movOffset src + o) % max 1 (d.ringSize (movRing src)) else src + o
/-- Deliver an element's bytes at a destination. -/
def Dev.elemPut (d : Dev) (acc : RegAccess) (dst : Nat) (b : List Byte) : Dev :=
  if movSpace dst = 2 then d.devicePut acc (dst % 2 ^ 32) (b.length + 1) b else d.movStore dst b
/-- Run one element: its bytes go to `dst`, a failure counts and is captured; a host destination that cannot be reached fails as well (R368).
Answers whether it is BAD. -/
def Dev.elemRun (d : Dev) (acc : RegAccess) (m e src len dst : Nat) (fails : List (Nat × Nat)) : Dev × Bool :=
  let (d, b, bad, n) := d.elemRead acc m e src len fails
  let bad := if movSpace dst = 0 && !d.hostUp then some 0 else bad
  let d := d.elemPut acc dst b
  let moved := n + if movSpace dst = 1 then bad.getD len else 0
  let d := d.setWide F.MOV_BYTES_LO_BYTES (d.wideAt F.MOV_BYTES_LO_BYTES m + moved) m
  match bad with
  | some o => ((d.inc F.MOV_BAD_COUNT m).movFailed m (d.elemAddr src o), true)
  | none => (d, false)
/-- Run elements in order, the first being number `e`: the destinations follow each other. -/
def Dev.elemsRun (d : Dev) (acc : RegAccess) (m : Nat) (fails : List (Nat × Nat)) : Nat → Nat → List (Nat × Nat) → Dev × List Nat
  | _, _, [] => (d, [])
  | e, dst, (src, len) :: t =>
    let r := d.elemRun acc m e src len dst fails
    let rest := r.1.elemsRun acc m fails (e + 1) (dst + len) t
    (rest.1, (if r.2 then 1 else 0) :: rest.2)

/-- The status word of a write-back from the element statuses: PARTIAL with any BAD one, and the mask. -/
def descStatus (st : List Nat) : Nat := (if st.contains 1 then 1 else 0) + st.zipIdx.foldl (fun w p => if p.1 = 1 then w + 2 ^ (16 + p.2) else w) 0
/-- Pre-emptions (R340): how many the spec does not state, and none unless a mover of higher priority runs. -/
def Dev.preempted (d : Dev) (m : Nat) : Dev :=
  if (List.range 64).any (fun k => d.movState k == 1 && decide (d.rd F.MOV_CTRL_PRIO m < d.rd F.MOV_CTRL_PRIO k)) then
    (d.inc F.MOV_PREEMPT_COUNT m 0 (d.fresh % 2 ^ 32)).usedFree
  else d
/-- The current descriptor of a host-driven mover completes (R336, R337, R341). A paced one waits for its results. -/
def Dev.descriptorDone (d : Dev) (acc : RegAccess) (m : Nat) (fails : List (Nat × Nat)) : Dev :=
  let a := d.movCur m
  let x := d.descAt a
  let paced := d.is F.HKA_CTRL_PACE_EN && d.rd F.HKA_CTRL_PACE_MOVER == m
  if paced && decide (d.hka.paced.length < x.results) then d
  else
    let (d, st) := (d.preempted m).elemsRun acc m fails 0 x.dest x.elems
    let status := descStatus st
    let d := d.writeBack m a x status ((x.elems.map (·.2)).sum) st
    let d := if x.control.testBit 4 || status % 8 == 1 then d.movRaise m else d
    let d := d.setWide F.MOV_CUR_LO_ADDR x.next m
    if d.movState m = 3 then (d.setMov m 2).movRaise m
    else if d.movState m ≠ 1 then d
    else if x.control.testBit 5 then d.setMov m 0
    else d.movLook m
/-- RESET (R341): `ran` elements of a descriptor in progress were run; the others are written back NOT_RUN. -/
def Dev.movReset (d : Dev) (acc : RegAccess) (m ran : Nat) : Dev :=
  if d.is F.MOV_OWNER_STR m then d.movCode m 2
  else
    let st := d.movState m
    if st = 1 ∨ st = 3 then
      let a := d.movCur m
      let x := d.descAt a
      let k := min ran (x.elems.length - 1)
      let (d, es) := d.elemsRun acc m [] 0 x.dest (x.elems.take k)
      let d := d.writeBack m a x (descStatus es) (((x.elems.take k).map (·.2)).sum) (es ++ List.replicate (x.elems.length - k) 2)
      let d := if d.rd F.HKA_CTRL_PACE_MOVER = m then { d with hka := { d.hka with paced := [] } } else d
      ((d.setMov m 2).movCode m 0).movRaise m
    else
      let d := (d.setMov m 2).movCode m 0
      if st = 0 then d.movRaise m else d

/-! ## Meanings of commands that make no register access -/

/-- Write START to `MOV_CMD` of mover m (R341). -/
def execMovStart (m : Fin 64) (stores : List (Nat × List Byte)) (s : State) := host (0x340004 + m.val * 0x100) (fun d => d.movStart m stores) s
/-- Write STOP (R341). -/
def execMovStop (m : Fin 64) (s : State) := host (0x340004 + m.val * 0x100) (fun d => d.movStop m) s

end Sys2Proof.Machine
end

