-- ==== Sys2Proof/Machine/Power.lean ====
section
/-! DEFINITION. Supplies, power states, start-up, reefing and ageing (R456–R470, R477, spec/18_power.md). -/
namespace Sys2Proof.Machine

/-- Change the power state that no register shows. -/
def Dev.setPower (d : Dev) (f : Power → Power) : Dev := { d with power := f d.power }
/-- `PWR_STATUS.CODE`: 0 OK, 1 STATE, 2 BUSY, 3 HOT. -/
def Dev.pwrCode (d : Dev) (c : Nat) : Dev := d.wr F.PWR_STATUS_CODE c
/-- The reef stage in force: 0 none, 1 first, 2 second, 3 halt. -/
def Dev.reefStage (d : Dev) : Nat := d.rd F.PWR_STATUS_REEF

/-! ## The comparators (R463) -/

/-- A die temperature of 100 °C and a current of 25 A: the first reef's condition (R464). -/
def PowerReading.hot (r : PowerReading) : Bool := decide (1600 ≤ r.temp)
def PowerReading.strong (r : PowerReading) : Bool := decide (25000 ≤ r.ma)
/-- Die at most 100 °C and I_N at most 23 A: what RESUME asks (R468). -/
def PowerReading.calm (r : PowerReading) : Bool := decide (r.temp ≤ 1600 ∧ r.ma ≤ 23000)
/-- `PWR_DIE_TEMP`, `PWR_I12N` and the conditions that hold show a reading. -/
def Dev.reading (d : Dev) (r : PowerReading) : Dev :=
  let top := max (d.rdInt F.PWR_DIE_TEMP_MAX) r.temp
  let d := (d.wr F.PWR_DIE_TEMP_TEMP (unsigned 16 r.temp)).wr F.PWR_DIE_TEMP_MAX (unsigned 16 top)
  let d := (d.wr F.PWR_I12N_MA (min 65535 r.ma)).wr F.PWR_I12N_PEAK (max (d.rd F.PWR_I12N_PEAK) (min 65535 (r.ma / 2)))
  (d.flag F.PWR_STATUS_BY_TEMP r.hot).flag F.PWR_STATUS_BY_CURRENT r.strong

/-! ## Shedding (R465) -/

/-- The sections a stage may shed, in order: those the governing reef order does not name, ascending, then the order itself, lowest priority
first (R46, R55). -/
def Dev.shedOrder (d : Dev) (stage : Nat) : List Nat :=
  let order := match d.governing with | some im => im.reef | none => []
  let live (i : Nat) := d.secState i == 1 || d.secState i == 2 || d.secState i == 3
  ((List.range 128).filter (fun i => live i && !(order.any (fun p => p.1 == i)))) ++
    ((order.filter (fun p => live p.1 && decide (p.2 ≤ stage))).map (·.1))
/-- Shed one section: it counts, G0 source 5. -/
def Dev.shedOne (d : Dev) (i : Nat) : Dev := (((d.shed i).inc F.PWR_SHED_COUNT).wr F.PWR_SHED_LAST i).raise 0 5
/-- Shed the first eligible section and start the pace. -/
def Dev.shedNext (d : Dev) : Dev :=
  let d := match d.shedOrder d.reefStage with
    | i :: _ => (d.shedOne i).setPower (fun p => { p with paceClk := d.clk })
    | [] => d
  d

/-! ## Stages (R464, R466, R468) -/

/-- A stage enters: its G0 source, its first section. `byCurrent` drives its pace; `limit` is the temperature that drives it otherwise. -/
def Dev.stageEnter (d : Dev) (stage : Nat) (byCurrent : Bool) (limit : Nat) : Dev :=
  let d := (d.wr F.PWR_STATUS_REEF stage).wr F.FMR_STATUS_REEF 1
  let d := d.setPower (fun p => { p with reefSince := d.clk, byCurrent := byCurrent, limit := limit, paceClk := d.clk })
  (d.raise 0 stage).shedNext
/-- Halt, in the order of R468: prepared cues, frame cores, inputs, sections, LO profiles. -/
def Dev.halt (d : Dev) : Dev :=
  let d := ((d.wr F.PWR_STATUS_REEF 3).wr F.FMR_STATUS_REEF 1).flag F.FMR_STATUS_HALTED true
  let d := (d.setPower (fun p => { p with reefSince := d.clk, paceClk := d.clk })).raise 0 3
  let d := d.cues.armed.cells.foldl (fun d p => if (d.cue p.1).cross.isNone then d.abandon p.1 5 else d) d
  let d := d.haltCores
  let d := (List.range 8).foldl (fun d n => d.haltInput n) d.powerUpAbandon
  let d := (d.shedOrder 3).foldl (fun d i => d.shedOne i) d
  (List.range 4).foldl (fun d i => (if d.loState i = 0 ∨ d.loState i = 4 then d else d.loRelease i 0).showMuted i) d

/-- The first reef (R464). -/
def Dev.firstReef (d : Dev) (byCurrent : Bool) (r : PowerReading) : Dev :=
  if d.pstate = 0 then d
  else
    let d := d.reading r
    if d.reefStage = 0 ∧ (if byCurrent then r.strong else r.hot) = true then d.stageEnter 1 byCurrent 1600 else d
/-- The second reef by temperature (R464). -/
def Dev.secondReef (d : Dev) (r : PowerReading) : Dev :=
  if d.pstate = 0 then d
  else
    let d := d.reading r
    if d.reefStage < 2 ∧ 1728 ≤ r.temp then d.stageEnter 2 false 1728 else d
/-- Halt by temperature or current (R464). -/
def Dev.reefHalt (d : Dev) (r : PowerReading) : Dev :=
  if d.pstate = 0 then d
  else
    let d := d.reading r
    if d.reefStage < 3 ∧ (1840 ≤ r.temp ∨ 28500 < r.ma) then d.halt else d

/-- The pace runs: 1 ms by current, 250 ms by temperature; one further section goes while the driver holds (R465). -/
def Dev.shedPace (d : Dev) (r : PowerReading) : Dev :=
  if d.pstate = 0 ∨ (d.reefStage ≠ 1 ∧ d.reefStage ≠ 2) then d
  else
    let d := (d.advanceTo (d.power.paceClk + if d.power.byCurrent then 1000000 else 250000000)).reading r
    if (if d.power.byCurrent then r.strong else decide ((d.power.limit : Int) ≤ r.temp)) = true then d.shedNext else d
/-- 2 s after the last eligible section the condition still holds (R466): the next stage, with the driver of this one. -/
def Dev.escalate (d : Dev) (r : PowerReading) : Dev :=
  if d.pstate = 0 ∨ (d.reefStage ≠ 1 ∧ d.reefStage ≠ 2) then d
  else if !(d.shedOrder d.reefStage).isEmpty then d.reading r
  else
    let d := (d.advanceTo (d.power.paceClk + 2000000000)).reading r
    if r.strong || decide ((d.power.limit : Int) ≤ r.temp) then
      let d := (d.mark F.PWR_STATUS_ESCALATED).raise 0 6
      if d.reefStage = 1 then d.stageEnter 2 d.power.byCurrent d.power.limit else d.halt
    else d
/-- A stage releases after 10 s (R464): the second reef returns to the first where its condition holds. -/
def Dev.reefRelease (d : Dev) (r : PowerReading) : Dev :=
  if d.pstate = 0 ∨ (d.reefStage ≠ 1 ∧ d.reefStage ≠ 2) then d
  else if (d.reefStage = 1 ∧ (1520 < r.temp ∨ 23000 < r.ma)) ∨ (d.reefStage = 2 ∧ 1648 < r.temp) then d.reading r
  else
    let second := d.reefStage == 2
    let d := (d.advanceTo (d.power.reefSince + 10000000000)).reading r
    let d := ((d.wr F.PWR_STATUS_REEF 0).wr F.FMR_STATUS_REEF 0).raise 0 4
    if second && (r.hot || r.strong) then d.stageEnter 1 r.strong 1600 else d
/-- RESUME (R468); the LO outputs' mute ends with the halt. -/
def Dev.resume (d : Dev) (r : PowerReading) : Dev :=
  let d := d.reading r
  if d.reefStage ≠ 3 then d.pwrCode 1
  else if r.calm then
    let d := ((((d.wr F.PWR_STATUS_REEF 0).wr F.FMR_STATUS_REEF 0).flag F.FMR_STATUS_HALTED false).pwrCode 0).raise 0 14
    (List.range 4).foldl (fun d i => d.showMuted i) d
  else d.pwrCode 3

/-! ## Power states (R457–R459) -/

/-- What IDLE and STANDBY ask (R458). -/
def Dev.quiet (d : Dev) : Bool :=
  (List.range 8).all (fun n => d.cnvState n == 0 || d.cnvState n == 4) &&
    (List.range 16).all (fun c => d.coreState c != 1 && d.coreState c != 2) &&
    d.links.ports.cells.all (fun p => d.strState p.1 != 2 && d.strState p.1 != 3) &&
    (List.range 64).all (fun m => d.rd F.MOV_STATUS_STATE m != 1) && !(d.is F.CUE_CTRL_EN) && d.reefStage == 0
/-- RUN. -/
def Dev.pwrRun (d : Dev) : Dev := if d.pstate = 3 then d.wake.pwrCode 0 else d.pwrCode 1
/-- IDLE. -/
def Dev.pwrIdle (d : Dev) : Dev :=
  if d.pstate ≠ 2 then d.pwrCode 1
  else if d.quiet then ((d.wr F.SYS_STATUS_PSTATE 3).pwrCode 0).raise 0 13
  else d.pwrCode 2

/-- Offset of the temperature hours in the store (log entry 5). -/
def hoursAt : Nat := 0x50100
/-- Store the temperature hours (R477). -/
def Dev.storeHours (d : Dev) : Dev :=
  { d with nvs := d.nvs.storeBytes hoursAt ((List.range 8).flatMap (fun k => leBytes 4 (d.rd F.PWR_HOURS_HOURS k))) }
/-- Read them. -/
def Dev.loadHours (d : Dev) : Dev := (List.range 8).foldl (fun d k => d.wr F.PWR_HOURS_HOURS (leNat (d.nvs.bytes (hoursAt + 4 * k) 4)) k) d
/-- The interrupt state that STANDBY retains (R449). -/
def Dev.irqSave (d : Dev) : List (Nat × Word) :=
  (List.range 40).flatMap (fun g => [
    (F.IRQ_PENDING_PENDING.at_ g 0, d.reg (F.IRQ_PENDING_PENDING.at_ g 0) &&& ~~~(d.reg (F.IRQ_LEVEL_LEVEL.at_ g 0))),
    (F.IRQ_ENABLE_ENABLE.at_ g 0, d.reg (F.IRQ_ENABLE_ENABLE.at_ g 0)),
    (F.IRQ_HOLDOFF_US.at_ g 0, (d.reg (F.IRQ_HOLDOFF_US.at_ g 0)).setField 16 16 0),
    (F.IRQ_TARGET_TARGET.at_ g 0, (d.reg (F.IRQ_TARGET_TARGET.at_ g 0)).setField 16 1 0)])
/-- Whether the standby domain keeps a register whole: the rate, the crystal, SEC, NVS (R118, R287, R456). -/
def standbyKeeps (off : Nat) : Bool :=
  decide (0x50018 ≤ off ∧ off < 0x50028) || decide (0x50C00 ≤ off ∧ off < 0x50D00) || decide (0x24000 ≤ off ∧ off < 0x2C000)
/-- What is left outside the standby domain: the reset state. The standby domain's own state is kept; a generation
whose write was interrupted is lost and does not count as passed over (R107: its sequence number was not written; DEDUCED, log entry 33). -/
def Dev.standbyLeft (d : Dev) : Dev :=
  let z := Dev.reset
  let s := d.reg 8
  let t := d.reg 0x50004
  let z := { z with
    regs := d.regs.keep (fun p => standbyKeeps p.1), readData := d.readData, hostMem := d.hostMem, nvs := d.nvs, nvsBusy := d.nvsBusy,
    localTime := d.localTime, irq := { z.irq with retained := d.irq.retained }, power := d.power, repair := d.repair, sec := d.sec,
    cal := { z.cal with gens := if d.cal.archive.isEmpty then d.cal.gens else d.cal.gens.erase ((d.cal.pos + 1) % 3) },
    clocks := { z.clocks with tempTerm := d.clocks.tempTerm, ageAcc := d.clocks.ageAcc, refOut := d.clocks.refOut },
    time := { z.time with own := d.time.own, ratePend := d.time.ratePend }, out := d.out, freeCtr := d.freeCtr }
  let z := (z.setReg 8 (s &&& 0x3001)).setReg 0x50004 (t &&& 0x3FFFF)
  ((z.flag F.TIM_STATUS_BYPASS false).takeRate (fun _ => true)).loop28
/-- STANDBY is entered (R449, R459): interrupt state, crystal ageing and hours are stored, the regulators go off, PGOOD falls. -/
def Dev.enterStandby (d : Dev) : Dev :=
  let d := { d with irq := { d.irq with retained := d.irqSave } }
  let d := d.xtlStore.storeHours.perstOff.standbyLeft
  let d := d.setPower (fun p => { p with step := 1, startWait := false, reefSince := 0, byCurrent := false, limit := 1600, paceClk := 0 })
  ((d.wr F.SYS_STATUS_PSTATE 0).send (.pgood false)).showRefOut
/-- The STANDBY command. -/
def Dev.pwrStandby (d : Dev) : Dev :=
  if d.pstate ≠ 2 ∧ d.pstate ≠ 3 then d.pwrCode 1
  else if d.quiet && d.rd F.VID_STATUS_STATE == 0 then d.enterStandby.setPower (fun p => { p with standbyCmd := true })
  else d.pwrCode 2

/-- The start-up sequence begins (R449, R461): retained interrupt state and the stored hours come back. -/
def Dev.powerStart (d : Dev) : Dev :=
  let d := (d.wr F.SYS_STATUS_PSTATE 1).loadHours
  let d := d.setPower (fun p => { p with standbyCmd := false, tripWait := false, startWait := false, step := if d.is F.SYS_STATUS_STBY_UP then 1 else 0 })
  let d := d.irq.retained.foldl (fun d p => d.setReg p.1 p.2) d
  (List.range 40).foldl (fun d g => d.tryDeliver g) { d with irq := { d.irq with retained := [] } }
/-- Start, or after a trip wait for the die to cool (R469). -/
def Dev.mayStart (d : Dev) : Dev :=
  if d.pstate ≠ 0 ∨ !d.power.v33 ∨ !d.power.v12 ∨ d.power.standbyCmd then d
  else if d.power.tripWait then d.setPower (fun p => { p with startWait := true })
  else d.powerStart
/-- 12 V is valid for 1 ms (R457). -/
def Dev.powerValid (d : Dev) : Dev := (d.setPower (fun p => { p with v12 := true })).mayStart
/-- WAKE# is asserted: it clears a STANDBY command in force while 12 V is valid (R457). -/
def Dev.wakePin (d : Dev) : Dev := if d.pstate = 0 ∧ d.power.v12 then (d.setPower (fun p => { p with standbyCmd := false })).mayStart else d
/-- 12 V falls below 10.2 V for 10 µs (R457). -/
def Dev.powerFail (d : Dev) : Dev :=
  let d := if d.pstate = 0 then d else d.enterStandby.mark F.SYS_STATUS_PWRFAIL
  d.setPower (fun p => { p with v12 := false, standbyCmd := false, startWait := false })
/-- The thermal trip (R469). -/
def Dev.thermalTrip (d : Dev) : Dev :=
  if d.pstate = 0 then d
  else (d.enterStandby.mark F.SYS_STATUS_TRIPPED).setPower (fun p => { p with standbyCmd := true, tripWait := true })
/-- The die has cooled to 85 °C, and the start that waited for it begins (R469). -/
def Dev.tripCooled (d : Dev) (r : PowerReading) : Dev :=
  if d.power.startWait && d.power.v12 && d.power.v33 && decide (r.temp ≤ 1360) then d.powerStart else d

/-- 3.3 V is lost (R459, R478): of the writes of the store in progress some are done, one stands word by word, the rest are not made. -/
def Dev.supplyLost (d : Dev) : Dev :=
  if !d.power.v33 then d
  else
    let n := d.nvsBusy.length
    let k := if n = 0 then 0 else d.fresh % (n + 1)
    let mask := Config.freeNat (d.freeCtr + 1)
    let undo (m : Mem) (p : (Nat × List Byte) × Nat) : Mem :=
      if p.2 < k then m
      else if p.2 = k then
        (List.range ((p.1.2.length + 3) / 4)).foldl (fun (m : Mem) w => if mask.testBit w then m else m.storeBytes (p.1.1 + 4 * w) ((p.1.2.drop (4 * w)).take 4)) m
      else m.storeBytes p.1.1 p.1.2
    let nvs := (d.nvsBusy.zipIdx).reverse.foldl undo d.nvs
    let d := if n = 0 then d else d.usedFree.usedFree
    let d := { d.perstOff.standbyLeft with nvs := nvs, nvsBusy := [], irq := Dev.reset.irq }
    let d := { d with repair := { d.repair with rewriting := false } }
    let d := d.setPower (fun p => { p with v33 := false, standbyCmd := false, tripWait := false, startWait := false, step := 0 })
    ((d.wr F.SYS_STATUS_PSTATE 0).flag F.SYS_STATUS_STBY_UP false).send (.pgood false) |>.showRefOut
/-- 3.3 V returns (R118, R284, R287): the standby domain takes its reset and stored values, and 12 V that is valid starts the engine. -/
def Dev.supplyUp (d : Dev) : Dev :=
  if d.power.v33 then d
  else
    let z := { d with regs := d.regs.keep (fun p => decide (0x24000 ≤ p.1 ∧ p.1 < 0x24200) && decide (p.1 = 0x24000 ∨ p.1 = 0x24090 ∨ p.1 = 0x24094 ∨ p.1 = 0x24098 ∨ p.1 = 0x240A0)),
                      localTime := 0, time := Dev.reset.time, clocks := Dev.reset.clocks }
    let z := (z.wr F.SEC_STATE_CODE 0).wr F.SYS_STATUS_PSTATE 0
    let z := (z.wr F.XTL_AGE_AGE (leNat (z.nvs.bytes 0x50000 4))).wr F.XTL_AGE_RATE_RATE (leNat (z.nvs.bytes 0x50004 4))
    (z.applyXtl.setPower (fun p => { p with v33 := true, step := 0 })).mayStart

/-! ## Start-up (R461) -/

/-- Put entries in force for this power-up (R474). -/
def Dev.addInForce (d : Dev) (l : List Nat) : Dev := { d with repair := { d.repair with inForce := d.repair.inForce ++ l } }
/-- `SPM_SORT` of every memory sort, from the repairs in force (R476). -/
def Dev.formSorts (d : Dev) : Dev :=
  d.repair.inForce.foldl (fun d e =>
    let x := rprLoc e % 65536
    if rprKind e = 4 ∧ x < 792 then d.wr F.SPM_SORT_SPARES (d.rd F.SPM_SORT_SPARES x - 1) x
    else if rprKind e = 5 ∧ x < 792 then d.flag F.SPM_SORT_RETIRED true x else d) d
/-- Channels with a lane whose read or write eye is below 0.30 UI: 19 steps of 1/64 UI or fewer (R352). -/
def StartupResult.trainFail (r : StartupResult) : List Nat :=
  ((r.eyes.take 68).zipIdx.filter (fun p => (List.range 4).any (fun k => decide (bits p.1.toNat (8 * k) 8 ≤ 76)))).map (·.2)
/-- A step's own work, for the step that ends now. -/
def Dev.stepWork (d : Dev) (r : StartupResult) : Dev :=
  match d.power.step with
  | 0 => d.flag F.SYS_STATUS_STBY_UP true
  | 1 => (d.flag F.SYS_STATUS_PGOOD true).send (.pgood true)
  | 2 =>
    let d := (d.repairVote.formDramSlots).flag F.SYS_STATUS_REPAIRED true
    let d := (List.range 8).foldl (fun d n => d.formSlices n) d
    (List.range 28).foldl (fun d p => if d.loop p = 0 && d.is F.CLK_PLL_CTRL_EN p then d.setLoop p 1 else d) d
  | 3 => d.flag F.SYS_STATUS_LOCKED true
  | 4 =>
    let d := (r.eyes.take 68).zipIdx.foldl (fun d p => d.wr F.DRC_CH_EYE_EYE p.1.toNat p.2) d
    let d := (r.trainFail.filter (fun c => !(d.retiredChannels.contains c))).foldl (fun d c =>
      ((d.fieldRetire 2 2 c).addInForce [rprEntry 2 2 c]).raise 26 2) d
    ((d.formDramSlots).wr F.DRC_TRAIN_TIME_US (r.clocks / 1000)).flag F.SYS_STATUS_TRAINED true
  | 5 =>
    let loc (x : Nat × Nat × Nat) := x.1 + x.2.1 % 256 * 65536 + x.2.2 % 65536 * 2 ^ 24
    let d := r.rows.foldl (fun d x => (d.fieldRetire 4 1 (loc x)).addInForce [rprEntry 4 1 (loc x)]) d
    let d := r.units.foldl (fun d x => (d.fieldRetire 5 1 (x % 65536)).addInForce [rprEntry 5 1 (x % 65536)]) d
    let d := ((d.wr F.SPM_PU_TIME_US (59980 + r.rows.length)).wr F.SPM_PU_REPAIRED_ROWS r.rows.length).wr F.SPM_PU_RETIRED_UNITS r.units.length
    let d := if r.units.isEmpty then d else d.raise 27 1
    ((d.formSorts.formCapacity.flag F.SYS_STATUS_MARCHED true).raise 27 3).powerUpCal d.power.refPresent
  | _ =>
    let d := ((d.flag F.SYS_STATUS_CALIBRATED true).flag F.SYS_STATUS_READY true).flag F.GAL_STATUS_READY true
    (d.wr F.SYS_STATUS_PSTATE 2).raise 0 0
/-- Whether what the step waits for has come: alignment (R132), the power-up calibration (R101). -/
def Dev.stepReady (d : Dev) : Bool :=
  match d.power.step with
  | 3 => d.is F.CLK_STATUS_ALIGNED
  | 6 => d.is F.CAL_STATUS_POWERUP_DONE || !((d.cal.job.toList ++ d.cal.archive).any (fun j => j.cause == 0))
  | _ => true
/-- The start-up step in hand ends. -/
def Dev.stepEnd (d : Dev) (r : StartupResult) : Dev :=
  if d.pstate = 1 ∧ d.stepReady then ((d.advance r.clocks).stepWork r).setPower (fun p => { p with step := p.step + 1 }) |>.showRefOut else d

/-! ## Ageing (R477) -/

/-- The bin of `PWR_HOURS` for a temperature in 1/16 °C. -/
def hoursBin (t : Int) : Nat :=
  if t < 880 then 0 else if t < 1040 then 1 else if t < 1200 then 2 else if t < 1360 then 3 else if t < 1520 then 4 else if t < 1680 then 5 else if t < 1840 then 6 else 7
/-- The hourly measurement: deviations of the 32 regions in 0.01 %, WARN from −2.00 % on; the hour counts in its temperature's bin. -/
def Dev.ageing (d : Dev) (dev : List Int) : Dev :=
  if d.pstate = 0 then d
  else
    let d := ((dev.take 32).zipIdx).foldl (fun d p =>
      let low := decide (p.1 ≤ -200)
      let was := d.is F.PWR_AGE_WARN p.2
      let d := (d.wr F.PWR_AGE_DEV (unsigned 16 p.1) p.2).flag F.PWR_AGE_WARN low p.2
      if low && !was then d.raise 0 12 else d) d
    (d.inc F.PWR_HOURS_HOURS (hoursBin (d.rdInt F.PWR_DIE_TEMP_TEMP))).storeHours

/-! ## Meanings -/

/-- 12 V valid for 1 ms (R457). -/
def execPowerValid (s : State) := lift Dev.powerValid s
/-- WAKE# asserted (R457). -/
def execWake (s : State) := lift Dev.wakePin s
/-- 12 V below 10.2 V for 10 µs (R457). -/
def execPowerFail (s : State) := lift Dev.powerFail s
/-- The die reads 122 °C for 10 µs (R469). -/
def execThermalTrip (s : State) := lift Dev.thermalTrip s
/-- The die has cooled to 85 °C (R469). -/
def execTripCooledStart (r : PowerReading) (s : State) := lift (fun d => d.tripCooled r) s
/-- 3.3 V is lost (R459). -/
def execStandbySupplyLost (s : State) := lift Dev.supplyLost s
/-- 3.3 V returns (R461). -/
def execStandbySupplyUp (s : State) := lift Dev.supplyUp s
/-- The start-up step in hand ends (R461). -/
def execStartupStepEnd (r : StartupResult) (s : State) := lift (fun d => d.stepEnd r) s
/-- Write RUN to `PWR_CMD` (R457). -/
def execPwrRun (s : State) := host 0x10000 Dev.pwrRun s
/-- Write IDLE (R458). -/
def execPwrIdle (s : State) := host 0x10000 Dev.pwrIdle s
/-- Write STANDBY (R459). -/
def execPwrStandby (s : State) := host 0x10000 Dev.pwrStandby s
/-- Write RESUME (R468). -/
def execPwrResume (r : PowerReading) (s : State) := host 0x10000 (fun d => d.resume r) s
/-- The first reef's condition holds (R464). -/
def execFirstReef (byCurrent : Bool) (r : PowerReading) (s : State) := lift (fun d => d.firstReef byCurrent r) s
/-- The second reef's condition holds (R464). -/
def execSecondReef (r : PowerReading) (s : State) := lift (fun d => d.secondReef r) s
/-- The halt's condition holds (R464, R468). -/
def execReefHalt (r : PowerReading) (s : State) := lift (fun d => d.reefHalt r) s
/-- A stage's release condition held for 10 s (R464). -/
def execReefRelease (r : PowerReading) (s : State) := lift (fun d => d.reefRelease r) s
/-- The pace of shedding runs (R465). -/
def execShedPace (r : PowerReading) (s : State) := lift (fun d => d.shedPace r) s
/-- The condition still holds 2 s after the last eligible section was shed (R466). -/
def execEscalation (r : PowerReading) (s : State) := lift (fun d => d.escalate r) s
/-- The hourly ageing measurement (R477). -/
def execAgeingMeasure (dev : List Int) (s : State) := lift (fun d => d.ageing dev) s

end Sys2Proof.Machine
end

