-- ==== Sys2Proof/Machine/Security.lean ====
section
/-! DEFINITION. The non-volatile store's window (R478) and the security block (R479–R481, spec/18_power.md). -/
namespace Sys2Proof.Machine

/-! ## The store -/

/-- First byte of the host area (R478). -/
def nvsHostArea : Nat := 0x1000000
/-- The store offset of window word w (R478). -/
def Dev.nvsOffset (d : Dev) (w : Nat) : Nat := d.rd F.NVS_PAGE_PAGE * 0x4000 + 4 * w
/-- A host write of a window word: outside the host area it is discarded and counted. -/
def Dev.nvsWrite (d : Dev) (w : Nat) (v : Word) : Dev :=
  let o := d.nvsOffset w
  if o < nvsHostArea then d.inc F.NVS_WDROP_COUNT
  else { d.nvsNote o 4 with nvs := d.nvs.storeBytes o (leBytes 4 v.toNat) }
/-- The oldest write of the store in progress ends; a word that failed its verification holds a value the spec does not state. -/
def Dev.nvsWritten (d : Dev) (ok : Bool) : Dev :=
  match d.nvsBusy with
  | [] => d
  | (o, old) :: t =>
    let d := { d with nvsBusy := t }
    let d := if ok then d
      else
        let w := o + 4 * (d.fresh % max 1 ((old.length + 3) / 4))
        let v := Config.freeNat (d.freeCtr + 1)
        ({ d with nvs := d.nvs.storeBytes w (leBytes 4 v) }.usedFree.usedFree).mark F.NVS_STATUS_WRITE_ERR
    if t.isEmpty then { d.flag F.NVS_STATUS_BUSY false with repair := { d.repair with rewriting := false } } else d

/-! ## Owner keys, policy, subscriber keys -/

/-- Change the security state. -/
def Dev.setSecurity (d : Dev) (f : Security → Security) : Dev := { d with sec := f d.sec }
/-- `SEC_STATE` and `SEC_SUBKEY_EN` show what the store holds; DEV reads 1 in UNOWNED. -/
def Dev.secShow (d : Dev) : Dev :=
  let d := (d.flag F.SEC_STATE_OWNED d.sec.owned).flag F.SEC_STATE_DEV (!d.sec.owned || d.sec.dev)
  let d := d.wr F.SEC_STATE_KEYS (d.sec.owners.cells.foldl (fun w p => w + 2 ^ p.1) 0)
  let en := d.sec.wrapped.cells.foldl (fun w p => w + 2 ^ p.1) 0
  ((d.wr F.SEC_SUBKEY_EN_EN en 0).wr F.SEC_SUBKEY_EN_EN (en / 2 ^ 32) 1).wr F.SEC_AUTH_CTR_CTR d.sec.counter
/-- A command is done: G38 source 0 (R482). -/
def Dev.secDone_ (d : Dev) : Dev := (d.secShow.wr F.SEC_STATE_CODE 0).raise 38 0
/-- A command is refused: CODE 1 STATE, 2 AUTH, 3 COUNTER, 4 FORMAT, 5 SLOT; counted; `source` of G38. -/
def Dev.secRefuse (d : Dev) (code source : Nat) : Dev := ((d.wr F.SEC_STATE_CODE code).inc F.SEC_FAIL_COUNT).raise 38 source
/-- The bytes of the words of a SEC register. -/
def Dev.secBytes (d : Dev) (f : Fld) (n : Nat) : List Byte := (List.range n).flatMap (fun k => leBytes 4 (d.rd f k))

/-- ENROL_OWNER (R479). -/
def Dev.enrolOwner (d : Dev) (k : Nat) : Dev :=
  if d.sec.owned then d.secRefuse 1 1
  else (d.setSecurity (fun s => { s with owners := s.owners.put k (d.secBytes F.SEC_HASH_HASH 12) })).secDone_
/-- SET_POLICY (R479). -/
def Dev.setPolicy (d : Dev) (dev : Bool) : Dev :=
  if d.sec.owned then d.secRefuse 1 1 else (d.setSecurity (fun s => { s with dev := dev })).secDone_
/-- LOCK (R479). -/
def Dev.secLock (d : Dev) : Dev :=
  if d.sec.owned then d.secRefuse 1 1
  else if d.sec.owners.cells.isEmpty then d.secRefuse 5 1
  else (d.setSecurity (fun s => { s with owned := true })).secDone_

/-- What is wrong with an authorization block (R480): 0 nothing, else the code, in the order of the rule's table. -/
def Dev.authCode (d : Dev) (b : List Byte) : Nat :=
  let op := u b 4 1
  let k := u b 5 1
  let blk := sub b 0x80 256
  let serial := d.rd F.SYS_SERIAL_SERIAL 0 + d.rd F.SYS_SERIAL_SERIAL 1 * 2 ^ 32
  if !(signatureForm blk) || (d.signer blk (sub b 0 0x80)).isNone then 2
  else if u b 8 8 ≤ d.sec.counter then 3
  else if u b 0 4 ≠ 0x5541584C ∨ op = 0 ∨ 3 < op ∨ 3 < k ∨ 1 < u b 6 1 ∨ u b 7 1 ≠ 0 ∨ u b 0x10 8 ≠ serial ∨ u b 0x48 56 ≠ 0 ∨
      (op = 2 ∧ (d.sec.owners.get? k).isNone) then 4
  else if op = 2 ∧ d.sec.owners.cells.length = 1 then 5
  else 0
/-- APPLY_AUTH (R480): accepted, the counter is stored and the operation done. -/
def Dev.applyAuth (d : Dev) : Dev :=
  let b := d.secBytes F.SEC_AUTH_BLOCK 128
  let c := d.authCode b
  if c ≠ 0 then d.secRefuse c 3
  else
    let k := u b 5 1
    let d := d.setSecurity (fun s => { s with
      counter := u b 8 8,
      owners := match u b 4 1 with
        | 1 => s.owners.put k (sub b 0x18 48)
        | 2 => s.owners.erase k
        | _ => s.owners,
      dev := if u b 4 1 = 3 then (u b 6 1 == 1) else s.dev })
    (d.secShow.wr F.SEC_STATE_CODE 0).raise 38 2

/-- ENROL_SUB (R481): the key of `SEC_SUBKEY` is wrapped into slot k, the register cleared, the key's control-frame counter reset. -/
def Dev.enrolSub (d : Dev) (k : Nat) : Dev :=
  let w := keyWrap (deviceKeyBytes Config.deviceKey) (d.secBytes F.SEC_SUBKEY_KEY 4)
  let d := d.setSecurity (fun s => { s with wrapped := s.wrapped.put k w, frameCtr := s.frameCtr.erase k })
  ((List.range 4).foldl (fun d i => d.wr F.SEC_SUBKEY_KEY 0 i) d).secDone_.raise 38 4
/-- ERASE_SUB (R481). -/
def Dev.eraseSub (d : Dev) (k : Nat) : Dev :=
  (d.setSecurity (fun s => { s with wrapped := s.wrapped.erase k })).secDone_.raise 38 4

/-! ## Meanings -/

/-- Write word w of the NVS window (R478). -/
def execNvsWrite (w : Fin 4096) (v : Word) (s : State) := host (0x2C000 + 4 * w.val) (fun d => d.nvsWrite w v) s
/-- The oldest write of the store in progress ends, its words verified or one of them not (R478). -/
def execNvsWriteDone (ok : Bool) (s : State) := lift (fun d => d.nvsWritten ok) s
/-- Write ENROL_OWNER to `SEC_CMD` (R479). -/
def execEnrolOwner (k : Fin 4) (s : State) := host 0x24004 (fun d => d.enrolOwner k) s
/-- Write SET_POLICY (R479). -/
def execSetPolicy (dev : Bool) (s : State) := host 0x24004 (fun d => d.setPolicy dev) s
/-- Write LOCK (R479). -/
def execLock (s : State) := host 0x24004 Dev.secLock s
/-- Write APPLY_AUTH (R480). -/
def execApplyAuth (s : State) := host 0x24004 Dev.applyAuth s
/-- Write ENROL_SUB (R481). -/
def execEnrolSub (k : Fin 64) (s : State) := host 0x24004 (fun d => d.enrolSub k) s
/-- Write ERASE_SUB (R481). -/
def execEraseSub (k : Fin 64) (s : State) := host 0x24004 (fun d => d.eraseSub k) s

end Sys2Proof.Machine
end

