-- ==== Sys2Proof/Machine/BusRead.lean ====
section
/-! DEFINITION. Host reads of a register by offset (R4–R7, R9): plain words, read-clear fields, pairs whose LO word latches the HI word, words that
show what the engine is doing now. -/
namespace Sys2Proof.Machine

/-! ## Words as stored -/

/-- What a read shows of a stored word: WO fields read 0 (R7), reserved bits read 0 (R5). -/
def visible (w : Word) : List FieldRow → Nat
  | [] => 0
  | f :: t => (if f.acc = .wo then 0 else w.field f.lo (f.hi - f.lo + 1) * 2 ^ f.lo) + visible w t
/-- A read by access code alone: RC fields are cleared, an update of the same clock counting after the read (R8); an unassigned offset reads 0
(R6). -/
def Dev.plainRead (d : Dev) (off : Nat) : Dev :=
  match rowOf off with
  | some r =>
    let v := visible (readFields (d.reg off) (d.reg0 off) r.fields) r.fields
    ((d.setReg off (clearRead (d.reg off) (d.reg0 off) r.fields)).setReg0 off (zeroRead (d.reg0 off) r.fields)).answer v
  | none => d.answer 0

/-- The element number of an offset in an array of `count` elements at `base`. -/
def elemOf (base stride count off : Nat) : Option Nat :=
  if base ≤ off ∧ (off - base) % stride = 0 ∧ (off - base) / stride < count then some ((off - base) / stride) else none
/-- The element of a field's first-level array whose sub-element 0 lies at an offset. -/
def Fld.elem (f : Fld) (count off : Nat) : Option Nat := elemOf f.off (max 1 f.st) count off

/-! ## Latching reads -/

/-- LO words whose read latches bits 63:32 into the next word, with their counts. -/
def latchLows : List (Fld × Nat) :=
  [(F.CNV_BLANK_LO_BLANK, 8), (F.CNV_START_IDX_LO_IDX, 8), (F.CORE_CYCLES_LO_COUNT, 16), (F.AXS_AX_IDX_LO_IDX, 4), (F.TDC_IN_EVNO_LO_EVNO, 20),
   (F.GAL_RING_WR_LO_WR, 1024), (F.MOV_CUR_LO_ADDR, 64), (F.MOV_BYTES_LO_BYTES, 64), (F.MOV_ERR_ADDR_LO_ADDR, 64), (F.STR_POS_LO_POS, 1024),
   (F.STY_OFFSET_PS, 1)]
/-- A read of a LO word: the live value's low word is answered, the high word kept for the HI word. -/
def Dev.latchRead (d : Dev) (off v : Nat) : Dev := (d.setReg (off + 4) (BitVec.ofNat 32 (v / 2 ^ 32))).answer (v % 2 ^ 32)
/-- Blanked samples of input n so far (R79): the blanking in progress counts up to the present clock. -/
def Dev.blankLive (d : Dev) (n : Nat) : Nat :=
  let now := match (d.input n).blankFrom with | some a => (d.input n).idx - a | none => 0
  (d.wideAt F.CNV_BLANK_LO_BLANK n + now) % 2 ^ 64
/-- The 64-bit value that a read of this offset latches, where it is a LO word. -/
def Dev.lowValue (d : Dev) (off : Nat) : Option Nat :=
  if let some n := F.CNV_BLANK_LO_BLANK.elem 8 off then some (d.blankLive n) else
  if latchLows.any (fun p => (p.1.elem p.2 off).isSome) then some (d.wide.getD off 0)
  else match F.CNV_IDX_LO_IDX.elem 8 off, F.AXS_AX_VAL_LO_VAL.elem 4 off, F.CLK_LO_FREQ_LO_FREQ.elem 4 off with
    | some n, _, _ => some (d.input n).idx
    | _, some a, _ => some (d.axisValue a)
    | _, _, some i => some (d.loFreq i)
    | _, _, _ => none

/-- A read of `TDC_M_RES_LO` latches every result of the unit (R306). -/
def Dev.measRead (d : Dev) (u : Nat) : Dev :=
  let d := [F.TDC_M_RES_MEAN, F.TDC_M_SDEV_SDEV, F.TDC_M_MIN_MIN, F.TDC_M_MAX_MAX].foldl (fun d f => d.wrWide f (d.wideAt f u) u 2) d
  (d.wr F.TDC_M_COUNT_COUNT (d.wideAt F.TDC_M_COUNT_COUNT u) u).answer (d.wideAt F.TDC_M_RES_MEAN u % 2 ^ 32)
/-- A read of `TDC_IN_Q` answers the head entry and latches its time-stamp (R303); without one the words stay. -/
def Dev.tdcRead (d : Dev) (n : Nat) : Dev :=
  match (d.tdc n).queue with
  | [] => d.answer 0
  | e :: _ => (d.wrWide F.TDC_IN_Q_TS_TS e.time n 3).answer (e.epoch % 65536 + (if e.falling then 65536 else 0) + 2 ^ 31)
/-- A read of `PTP_TXQ_ID` answers the head entry and latches its epoch and time-stamp (R297). -/
def Dev.txqRead (d : Dev) (q : Nat) : Dev :=
  match d.time.txq.getD q [] with
  | [] => d.answer 0
  | e :: _ => ((d.wrWide F.PTP_TXQ_TS_TS e.2.1 q 3).wr F.PTP_TXQ_EPOCH_EPOCH e.2.2 q).answer (e.1 % 65536 + 2 ^ 31)

/-! ## Knobs, core memory, store -/

/-- The offsets of a kind's 64-bit counts, LO word. -/
def wideKnobs (kind : Nat) : Option Nat := match kind with
  | 2 => some 0x50
  | 3 => some 0x28
  | 5 => some 0x38
  | 6 => some 0x30
  | _ => none
/-- Invalid frames of a transform so far (R177, R195), those of losses in progress that have left among them. -/
def Dev.invalidLive (d : Dev) (i : Nat) : Nat :=
  match d.xfrms.get? i with
  | none => d.knob i 0x58
  | some x =>
    let open_ := if x.input < 8 then d.openLosses x.input
      else match d.chans.get? x.chan with
        | some c => if c.input < 8 then (d.openLosses c.input).map (fun l => let r := c.hits (max l.start c.seen) (l.start + l.count); ⟨r.1, r.2 - r.1, l.cause⟩) else []
        | none => []
    let e := open_.foldl (fun d l => let r := spanHits 0 x.s0 (2 ^ x.hop) (2 ^ x.size) l.start (l.start + l.count); d.framesBad i r.1 (min r.2 (d.frameNow i))) d
    e.knob i 0x58
/-- A read in a knob window (R63): 0 unless the section is ACTIVE and the knob map has the offset; command knobs read 0. -/
def Dev.knobRead (d : Dev) (i off : Nat) : Dev :=
  if d.secState i ≠ 2 ∨ (d.knobRow i off).isNone ∨ (off = 0 ∧ d.kind i ≠ 0) then d.answer 0
  else if d.kind i = 2 ∧ off = 0x50 then (d.setKnob i 0x54 (d.framesLive i / 2 ^ 32)).answer (d.framesLive i % 2 ^ 32)
  else if d.kind i = 2 ∧ off = 0x58 then d.answer (d.invalidLive i)
  else if wideKnobs (d.kind i) = some off then (d.setKnob i (off + 4) (d.wideKnob i off / 2 ^ 32)).answer (d.wideKnob i off % 2 ^ 32)
  else d.answer (d.knob i off)
/-- A read of a window word of the store (R478): the security region reads 0; what the engine keeps at places the spec does not give is not
stated (log entry 2). -/
def Dev.nvsRead (d : Dev) (w : Nat) : Dev :=
  let o := d.nvsOffset w
  if 0x60000 ≤ o ∧ o < 0x70000 then d.answer 0
  else if (0x10000 ≤ o ∧ o < 0x50000) ∨ (0x50200 ≤ o ∧ o < nvsHostArea) then (d.answer (d.fresh % 2 ^ 32)).usedFree
  else d.answer (leNat (d.nvs.bytes o 4))
/-- A word of the repair entries: the fuses' first (R472). -/
def Dev.repairWord (d : Dev) (k : Nat) : Nat := bits ((d.repair.fuses ++ d.repair.field).getD (k / 2) 0) (32 * (k % 2)) 32

/-! ## Words that show the present -/

/-- Registers that show what no command of the table carries and no rule computes: link and memory error counts, bank conflicts (R358), reordering
(R351). Their reads are free (log entry 2). -/
def unstated (off : Nat) : Bool :=
  off == 0x390004 || off == 0x390008 || off == 0x330024 || off == 0x330028 || off == 0x33002C ||
    (F.ETH_FEC_CORR_COUNT.elem 4 off).isSome || (F.ETH_FEC_UNCORR_COUNT.elem 4 off).isSome ||
    (F.DRC_CH_INORDER_COUNT.elem 68 off).isSome
/-- Slots served by an ACTIVE channel (R353). -/
def Dev.slotsServed (d : Dev) : Nat := (List.range 64).countP (fun s => !(d.slotDead s))
/-- Milliseconds between a clock and now, or the other way round. -/
def msBetween (a b : Nat) : Nat := (b - a) / 1000000
/-- Holdover time of a loop up to now, µs. -/
def Dev.holdTime (d : Dev) (p : Nat) : Nat :=
  let run := if d.loop p = 4 ∨ d.loop p = 5 then ((d.clk : Int) - d.clocks.since.getD p 0).toNat / 1000 else 0
  min (2 ^ 32 - 1) (d.rd F.CLK_PLL_HOLDTIME_US p + run)
/-- A word with one field replaced. -/
def putField (w lo len v : Nat) : Nat := (Word.setField (BitVec.ofNat 32 w) lo len v).toNat
/-- A stored word with one field replaced by what it shows now. -/
def Dev.shown (d : Dev) (f : Fld) (v n : Nat) : Nat := putField (d.reg (f.at_ n 0)).toNat f.lo f.w v
/-- SYS to HKA, CLK, TIM (offsets below 0x60000). -/
def Dev.viewLow (d : Dev) (off : Nat) : Option Nat :=
  if off = 0x10014 then some (if d.rd F.PWR_STATUS_REEF = 0 then 0 else msBetween d.power.reefSince d.clk)
  else if 0x21000 ≤ off ∧ off < 0x24000 then some (d.repairWord ((off - 0x21000) / 4))
  else if off = 0x24098 then some (d.sec.counter % 2 ^ 32)
  else if off = 0x30000 ∨ off = 0x30004 then
    some ((List.range 32).foldl (fun w g => if d.active (32 * ((off - 0x30000) / 4) + g) = 0 then w else w + 2 ^ g) 0)
  else match F.IRQ_HOLDOFF_US.elem 64 off, F.CLK_PLL_HOLDTIME_US.elem 29 off, F.CLK_PLL_STATUS_STATE.elem 29 off with
    | some g, _, _ => some (d.shown F.IRQ_HOLDOFF_REMAIN ((d.irq.holdEnd.getD g 0 - d.clk + 999) / 1000) g)
    | _, some p, _ => some (d.holdTime p)
    | _, _, some p => some (d.shown F.CLK_PLL_STATUS_STALE (if p < 12 && (List.range 64).any (fun b => d.calStale (5633 + p * 64 + b)) then 1 else 0) p)
    | _, _, _ =>
      if 0x42000 ≤ off ∧ off < 0x42C00 ∧ off % 0x100 = 4 * (off % 0x100 / 4) then some (unsigned 16 (d.calVal (5633 + (off - 0x42000) / 0x100 * 64 + off % 0x100 / 4)))
      else none
/-- The galley, DRAM, ports, stays, display, cores. -/
def Dev.viewHigh (d : Dev) (off : Nat) : Option Nat :=
  if off = 0x300024 then some (d.mapEntry (d.rd F.GAL_MAP_IDX_IDX) % 2 ^ 32)
  else if off = 0x300028 then some (d.mapEntry (d.rd F.GAL_MAP_IDX_IDX) / 2 ^ 32)
  else if off = 0x328004 then some (d.shown F.DRC_STATUS_IN_SERVICE d.slotsServed 0)
  else if off = 0x3B0030 then some (d.shown F.STY_DISC_SCAN (if d.stay.round.isSome then 1 else 0) 0)
  else if off = 0x3D0004 then some (d.shown F.VID_STATUS_LINE d.vidLine 0)
  else match F.GAL_RING_RD_LO_RD.elem 1024 off, F.GAL_RING_RD_HI_RD.elem 1024 off, F.STR_LEASE_MS.elem 1024 off with
    | some r, _, _ => some (d.hostRd r % 2 ^ 32)
    | _, some r, _ => some (d.hostRd r / 2 ^ 32)
    | _, _, some n => some (if d.rd F.STR_CFG_TRANSPORT n = 2 ∧ d.strState n = 2 then msBetween d.clk (d.port n).leaseEnd else 0)
    | _, _, _ =>
      match F.GAL_RING_STAT_EVENTS.elem 1024 off, elemOf 0x391038 0x80 16 off, elemOf 0x39103C 0x80 16 off with
      | some r, _, _ => some (putField (d.shown F.GAL_RING_STAT_WRITERS (d.ring r).writers.length r) 16 8 (d.ring r).readers.length)
      | _, some n, _ => some (d.wideAt F.NVM_DRV_WRITTEN_MIB n / 2 ^ 20 % 2 ^ 32)
      | _, _, some n => some (d.wideAt F.NVM_DRV_WRITTEN_MIB n / 2 ^ 52)
      | _, _, _ =>
        match elemOf 0x392020 0x40 16 off, elemOf 0x392024 0x40 16 off, F.CORE_PC_PC.elem 16 off with
        | some k, _, _ => some (d.wideAt F.NVM_SET_CHUNKS_SEQ k % 2 ^ 32)
        | _, some k, _ => some (d.wideAt F.NVM_SET_CHUNKS_SEQ k / 2 ^ 32)
        | _, _, some c => some (d.core c).pc
        | _, _, _ =>
          match F.CORE_T_PC_PC.elem 128 off, F.CORE_T_STATUS_STATE.elem 128 off with
          | some t, _ => some (if d.coreLive (16 + t) then (d.core (16 + t)).pc else 0)
          | _, some t => if d.coreLive (16 + t) then none else some 0
          | _, _ => none

/-- A word part of which the spec does not state: the stone's fill, a channel's in-order mode, a phase error, the scan-out tolerance while
scan-out runs, a table entry in a channel that is not in service. -/
def Dev.partFree (d : Dev) (off : Nat) : Option Nat :=
  if off = 0x300000 then
    let w := d.shown F.GAL_STATUS_CHANNELS d.slotsServed 0
    some (putField (putField w 23 1 (if (List.range 68).any (fun c => d.rd F.DRC_CH_STATUS_STATE c == 2) then 1 else 0)) 8 8 d.fresh)
  else if off = 0x32800C then some d.srTolerance
  else if (off = 0x300024 ∨ off = 0x300028) ∧ d.addrDead (8 * d.rd F.GAL_MAP_IDX_IDX) then some (d.fresh % 2 ^ 32)
  else if off = 0x3D002C then (if d.rd F.VID_STATUS_STATE = 0 then none else some (d.fresh % 2 ^ 32))
  else match F.DRC_CH_STATUS_STATE.elem 68 off, F.CLK_PLL_PHASE_ERR.elem 29 off with
    | some c, _ => some (d.shown F.DRC_CH_STATUS_INORDER d.fresh c)
    | _, some p => some (d.shown F.CLK_PLL_PHASE_ERR d.fresh p)
    | _, _ => none

/-! ## The read -/

/-- What a read of a register word does: the answer is left in `readData`. -/
def Dev.readWord (d : Dev) (off : Nat) : Dev :=
  match d.lowValue off with
  | some v => let d := d.latchRead off v
    match F.MOV_ERR_ADDR_LO_ADDR.elem 64 off with
    | some m => { d with movErr := d.movErr.erase m }
    | none => d
  | none =>
    match F.TDC_M_RES_MEAN.elem 8 off, F.TDC_IN_Q_EPOCH.elem 20 off, F.PTP_TXQ_ID_ID.elem 16 off with
    | some u, _, _ => d.measRead u
    | _, some n, _ => d.tdcRead n
    | _, _, some q => d.txqRead q
    | _, _, _ =>
      if off = 0x50008 then d.nowRead
      else if off = 0x38008 then d.hkaRead
      else if off = 0x330024 then d.conflictRead
      else if off = 0x24098 then (d.wr F.SEC_AUTH_CTR_HI_CTR (d.sec.counter / 2 ^ 32)).answer (d.sec.counter % 2 ^ 32)
      else if unstated off then (d.answer (d.fresh % 2 ^ 32)).usedFree
      else match d.partFree off with
        | some v => (d.answer v).usedFree
        | none =>
          match (if off < 0x60000 then d.viewLow off else d.viewHigh off) with
          | some v => d.answer v
          | none => d.plainRead off

/-- A host read of 32 bits at an aligned offset (R4). -/
def Dev.hostRead (d : Dev) (off : Nat) : Dev :=
  if 0x1000000 ≤ off then
    if off < 0x2000000 then d.knobRead ((off - 0x1000000) / 0x20000) ((off - 0x1000000) % 0x20000) else d.answer 0
  else if 0x2C000 ≤ off ∧ off < 0x30000 then d.nvsRead ((off - 0x2C000) / 4)
  else match d.coreWindow off with
    | some m => d.answer (d.coreMemRead m)
    | none => d.readWord off

end Sys2Proof.Machine
end

