-- ==== Sys2Proof/Machine/Stays.lean ====
section
/-! DEFINITION. Stay links (R401–R410, spec/15_stays_sheets.md): control words, segments, discovery, shared time, halyards across stations,
global commands, replication and its credits. -/
namespace Sys2Proof.Machine

/-! ## Words (R401, R403) -/

/-- Change the stay-link state. -/
def Dev.setStay (d : Dev) (f : Stay → Stay) : Dev := { d with stay := f d.stay }
/-- The station's own id. -/
def Dev.station_ (d : Dev) : Nat := d.rd F.STY_CTRL_ID
/-- Link states: 0 DOWN, 1 TRAINING, 2 UP. -/
def Dev.stayUp (d : Dev) (l : Nat) : Bool := d.is F.STY_CTRL_EN && d.rd F.STY_LINK_STATE_STATE l == 2
/-- The links that are UP. -/
def Dev.upLinks (d : Dev) : List Nat := (List.range 4).filter d.stayUp
/-- A control word. -/
def stayWord (kind origin hops flags seq : Nat) (payload : List Byte) : List Byte :=
  let b := leBytes 1 kind ++ leBytes 1 origin ++ leBytes 1 hops ++ leBytes 1 flags ++ leBytes 4 seq ++ (payload ++ List.replicate 36 0).take 36
  b ++ leBytes 4 (crc32 b)
/-- Whether a received word's length and CRC-32 are right. -/
def stayWordOk (b : List Byte) : Bool := b.length == 48 && u b 0x2C 4 == crc32 (b.take 0x2C)
/-- Send a word of this station's own on some links; its sequence counts per kind. -/
def Dev.staySend (d : Dev) (links : List Nat) (kind flags : Nat) (payload : List Byte) : Dev :=
  let seq := d.stay.seqs.getD kind 0
  let w := stayWord kind d.station_ 0 flags seq payload
  links.foldl (fun d l => d.send (.stay l w)) (d.setStay (fun s => { s with seqs := s.seqs.put kind ((seq + 1) % 2 ^ 32) }))
/-- Forward a word on the other UP links, unless its hops reach 32. -/
def Dev.stayForward (d : Dev) (l : Nat) (b : List Byte) : Dev :=
  let hops := u b 2 1 + 1
  if 32 ≤ hops then d
  else
    let w := stayWord (u b 0 1) (u b 1 1) hops (u b 3 1) (u b 4 4) (sub b 8 36)
    (d.upLinks.filter (· != l)).foldl (fun d k => d.send (.stay k w)) d
/-- A word arrives on link l: `f` sees it when its CRC and kind are right; one that fails its CRC is dropped and counted (R403). -/
def Dev.stayReceive (d : Dev) (l kind : Nat) (b : List Byte) (f : Dev → Dev) : Dev :=
  if !(d.stayUp l) then d
  else if !(stayWordOk b) then d.inc F.STY_LINK_CRC_COUNT l
  else if u b 0 1 ≠ kind then d
  else f d
/-- Words that go round: one that originated here, or was seen in the last 1 µs, is dropped (R406). -/
def Dev.stayOnce (d : Dev) (b : List Byte) (f : Dev → Dev) : Dev :=
  let o := u b 1 1
  let k := u b 0 1
  let q := u b 4 4
  let fresh := d.stay.seen.filter (fun x => decide (d.clk ≤ x.2.2.2 + 1000))
  if o = d.station_ || fresh.any (fun x => x.1 == o && x.2.1 == k && x.2.2.1 == q) then d
  else f (d.setStay (fun s => { s with seen := fresh ++ [(o, k, q, d.clk)] }))

/-! ## Segments (R402, R407) -/

/-- Whether the segment holds every member. -/
def Dev.stayWhole (d : Dev) : Bool := d.rd F.STY_MEMBERS_MASK &&& d.rd F.STY_SEGMENT_MASK == d.rd F.STY_MEMBERS_MASK
/-- The lowest station of a mask. -/
def lowest (m : Nat) : Nat := ((List.range 32).find? (fun k => m.testBit k)).getD 0
/-- The station becomes isolated or whole (R402): records show it (R316). -/
def Dev.setIsolated (d : Dev) (on : Bool) : Dev := d.flaggingAll (fun d => d.flag F.STY_STATUS_ISOLATED on)
/-- The slew ends (R407). -/
def Dev.slewEnd (d : Dev) : Dev :=
  if !(d.is F.STY_STATUS_SLEWING) then d
  else
    let d := d.flag F.STY_STATUS_SLEWING false
    (if d.stayWhole then d.setIsolated false else d).raise 34 8
/-- Put a segment in force. -/
def Dev.putSegment (d : Dev) (mask topo gen : Nat) (via : List (Nat × Nat × Nat)) : Dev :=
  ((((d.wr F.STY_SEGMENT_MASK mask).wr F.STY_STATUS_MASTER (lowest mask)).wr F.STY_STATUS_TOPO topo).wr F.STY_STATUS_GENERATION (gen % 65536)).setStay
    (fun s => { s with via := via })
/-- The rate's transfer term (R285, R404). -/
def Dev.putTransfer (d : Dev) (v : Int) : Dev :=
  let d := d.setTime (fun t => { t with transfer := v })
  if d.is F.CLK_STATUS_ALIGNED then d else d.putRate

/-! ## Replication (R409, R410) -/

/-- Link towards a station. -/
def Dev.stayVia (d : Dev) (t : Nat) : Option Nat := (d.stay.via.find? (fun x => x.1 == t)).map (·.2.1)
/-- Detach a replicator's reader. -/
def Dev.replStop (d : Dev) (e : Nat) : Dev :=
  let r := d.rd F.STY_REPL_CFG_SRC_RING e
  let d := d.setRing r (fun g => { g with readers := g.readers.filter (fun (x : Reader) => x.kind != .replication e) })
  (d.flag F.STY_REPL_STAT_RUNNING false e).noteFill r
/-- A replicator that a round bound begins at WR (R403, R409). -/
def Dev.replStart (d : Dev) (e : Nat) : Dev :=
  let r := d.rd F.STY_REPL_CFG_SRC_RING e
  if d.is F.STY_REPL_STAT_RUNNING e || !(d.ringOn r) then d
  else (d.setRing r (fun g => { g with readers := g.readers ++ [⟨.replication e, g.wr, d.is F.STY_REPL_CFG_HOLDING e, []⟩] })).flag F.STY_REPL_STAT_RUNNING true e
/-- Credits a record takes: 4 KiB units, a long record never more than a link holds at once (R410). -/
def creditsFor (len : Nat) : Nat := min 64 (max 1 ((len + 4095) / 4096))
/-- Send bytes to a ring of another station. -/
def Dev.replSend (d : Dev) (e l : Nat) (b : List Byte) : Dev :=
  (d.setStay (fun s => { s with credits := s.credits.put l (s.credits.getD l 64 - creditsFor b.length) })).send
    (.bulk l e (d.rd F.STY_REPL_CFG_DST_STATION e) (d.rd F.STY_REPL_DST_DST_RING e) b)
/-- Records an overrun skipped become a gap record for the receiving ring. -/
def Dev.replSkipped (d : Dev) (e l : Nat) (p : Placed) : Dev :=
  if p.product.isNone || p.count == 0 then d
  else
    let hdr := leBytes 1 p.type ++ leBytes 1 1 ++ leBytes 1 p.source ++ leBytes 1 0 ++ leBytes 2 p.flags ++ leBytes 2 d.epoch ++ leBytes 4 72 ++ leBytes 4 p.trig ++
      leBytes 8 0 ++ leBytes 8 p.start ++ leBytes 4 p.count ++ leBytes 12 d.now96 ++ leBytes 16 0
    ((d.replSend e l (gapBytes hdr p (0x8000 + e) 9 p.start p.count 72 0 0)).inc F.STY_REPL_DROP_UNITS e 0 p.count).raise 34 11
/-- Replicator e sends what its credits allow. -/
def Dev.replGoOne (d : Dev) (e : Nat) : Nat → Dev
  | 0 => d
  | k + 1 =>
    let r := d.rd F.STY_REPL_CFG_SRC_RING e
    match (d.ring r).readers.find? (fun (x : Reader) => x.kind == .replication e), d.stayVia (d.rd F.STY_REPL_CFG_DST_STATION e) with
    | some x, some l =>
      match x.skipped with
      | p :: t =>
        if d.stay.credits.getD l 64 = 0 then d
        else
          let d := d.setRing r (fun g => { g with readers := g.readers.map (fun (y : Reader) => if y.kind = .replication e then { y with skipped := t } else y) })
          (d.replSkipped e l p).replGoOne e k
      | [] =>
        match d.recordAt r x.pos with
        | none => d
        | some p =>
          if d.stay.credits.getD l 64 < creditsFor p.len then d
          else
            let d := d.replSend e l (d.ringBytes r p.pos p.len)
            let d := (d.setRing r (fun g => { g with readers := g.readers.map (fun (y : Reader) => if y.kind = .replication e then { y with pos := p.pos + p.len } else y) })).noteFill r
            d.replGoOne e k
    | _, _ => d
/-- A record that arrived whole is placed and its credits go back; it waits while the ring has no space, and is lost where the ring is OFF. -/
def Dev.replPlace (d : Dev) (l r : Nat) (b : List Byte) : Dev × Bool :=
  let back (d : Dev) := if d.stayUp l then d.staySend [l] 6 0 (leBytes 2 (creditsFor b.length)) else d
  if !(d.ringOn r) then (back (d.inc F.GAL_NOWHERE_COUNT), true)
  else if d.fitsRaw r b then (back (d.placeRaw r (recordTag b) b), true)
  else (d, false)
/-- Whole records that waited for space, oldest first. -/
def Dev.replWaiting (d : Dev) : Dev :=
  d.stay.wait.foldl (fun d x =>
    let r := d.replPlace x.1 x.2.1 x.2.2
    if r.2 then r.1.setStay (fun s => { s with wait := s.wait.erase x }) else d) d
/-- Replication goes on as far as rings and credits allow. -/
def Dev.replGo (d : Dev) : Dev :=
  (List.range 32).foldl (fun d e => if d.is F.STY_REPL_STAT_RUNNING e then d.replGoOne e 4096 else d) d.replWaiting
/-- A write of `STY_REPL` word 0: clearing EN stops the replicator; a change of its ring restarts it at the next round. -/
def Dev.replCfg (d : Dev) (off : Nat) (v : Word) : Dev :=
  let e := (off - 0x3B0400) / 16
  let on := d.is F.STY_REPL_STAT_RUNNING e
  let moved := v.field 2 10 != d.rd F.STY_REPL_CFG_SRC_RING e || v.field 16 5 != d.rd F.STY_REPL_CFG_DST_STATION e
  let d := if on && (!(v.getLsbD 0) || moved) then d.replStop e else d
  d.plainWrite off v

/-! ## Links change (R402, R403, R407, R409) -/

/-- What a fall leaves of a record in arrival: a stream-port-drop gap in the receiving ring (R409). -/
def Dev.partLost (d : Dev) (key : Nat) (x : Nat × Nat × List Byte) : Dev :=
  let d := d.setStay (fun s => { s with parts := s.parts.erase key })
  let b := x.2.2
  let p := placedOf b
  if b.length < 64 ∨ p.product.isNone ∨ p.count = 0 ∨ !(d.ringOn x.2.1) then d
  else (d.placeRaw x.2.1 p.tag (gapBytes (b.take 64) p (0x8000 + key % 32) 9 p.start p.count 72 0 0)).raise 34 11
/-- Link l falls; the station finds itself in a segment. -/
def Dev.stayDown (d : Dev) (l : Nat) (g : SegInfo) : Dev :=
  if d.rd F.STY_LINK_STATE_STATE l = 0 then d
  else
    let old := d.rd F.STY_SEGMENT_MASK
    let mask := g.mask.toNat ||| 2 ^ d.station_
    let d := (d.wr F.STY_LINK_STATE_STATE 0 l).raise 34 l
    let gen := d.rd F.STY_STATUS_GENERATION
    let lost := old &&& mask != old
    let d := d.putSegment mask g.topo.val (if lost then gen + 1 else gen) g.via
    let d := if lost then d.raise 34 6 else d
    let d := if d.stayWhole then d else d.setIsolated true
    let d := if d.rd F.STY_STATUS_MASTER = d.station_ then (d.flag F.STY_STATUS_SLEWING false).putTransfer 0 else d
    let d := d.setStay (fun s => { s with
      credits := s.credits.erase l,
      round := s.round.map (fun (r : Nat × Nat × Nat) => (r.1, r.2.1, r.2.2 ||| (r.2.1 - (r.2.1 &&& mask)))) })
    let d := (d.stay.parts.cells.filter (fun p => p.2.1 == l)).foldl (fun d p => d.partLost p.1 p.2) d
    (List.range 32).foldl (fun d e =>
      if d.is F.STY_REPL_STAT_RUNNING e && !(mask.testBit (d.rd F.STY_REPL_CFG_DST_STATION e)) then d.replStop e else d) d
/-- Link l comes UP; where the segment grows, two segments merge. -/
def Dev.stayRise (d : Dev) (l peer peerLink : Nat) (g : SegInfo) : Dev :=
  if !(d.is F.STY_CTRL_EN) || d.rd F.STY_LINK_STATE_STATE l = 2 then d
  else
    let old := d.rd F.STY_SEGMENT_MASK ||| 2 ^ d.station_
    let mask := g.mask.toNat ||| old
    let d := (((d.wr F.STY_LINK_STATE_STATE 2 l).wr F.STY_LINK_STATE_PEER_ID peer l).wr F.STY_LINK_STATE_PEER_LINK peerLink l).raise 34 l
    let d := d.setStay (fun s => { s with credits := s.credits.put l 64 })
    let gen := d.rd F.STY_STATUS_GENERATION
    let master := lowest old
    let grew := mask != old
    let d := d.putSegment mask g.topo.val (if grew then max gen g.gen + 1 else gen) g.via
    let d := if grew then d.raise 34 7 else d
    let slews := grew && lowest mask != master && d.is F.STY_CTRL_TT_EN
    let d := if slews then d.flag F.STY_STATUS_SLEWING true else d
    let d := if d.stayWhole && !(d.is F.STY_STATUS_SLEWING) then d.setIsolated false else d
    let news := mask - (mask &&& old)
    let unseen := news - (news &&& d.rd F.STY_SEEN_MASK)
    let d := if d.rd F.STY_DISC_ROUND ≠ 0 ∧ unseen ≠ 0 then (d.setBits F.STY_ARRIVED_MASK unseen).raise 34 5 else d
    d.replGo
/-- A write of `STY_CTRL`: links off fall, links on start alone. -/
def Dev.stayCtrl (d : Dev) (v : Word) : Dev :=
  let on := v.getLsbD 8
  let alone (d : Dev) : SegInfo := ⟨BitVec.ofNat 32 (2 ^ d.station_), 0, [], 0⟩
  let d := if on then d else (List.range 4).foldl (fun d l => d.stayDown l (alone d)) d
  let d := d.plainWrite 0x3B0000 v
  let d := if d.upLinks.isEmpty then
      (if on then (d.wr F.STY_SEGMENT_MASK (2 ^ d.station_)).wr F.STY_STATUS_MASTER d.station_ else (d.wr F.STY_SEGMENT_MASK 0).wr F.STY_STATUS_MASTER 0)
    else d
  let d := if d.stayWhole then (if d.is F.STY_STATUS_SLEWING then d else d.setIsolated false) else d.setIsolated on
  if d.is F.STY_CTRL_TT_EN then d else d.putTransfer 0
/-- A write of `STY_MEMBERS` (R402). -/
def Dev.stayMembers (d : Dev) (v : Word) : Dev :=
  let d := d.wr F.STY_MEMBERS_MASK v.toNat
  if !(d.is F.STY_CTRL_EN) then d
  else if !d.stayWhole then d.setIsolated true
  else if d.is F.STY_STATUS_SLEWING then d else d.setIsolated false

/-! ## Discovery (R403) -/

/-- What a station says of itself. -/
def Dev.stayHello (d : Dev) : List Byte :=
  leBytes 1 d.station_ ++ leBytes 1 (d.rd F.STY_STATUS_MASTER) ++ leBytes 2 (d.rd F.STY_STATUS_GENERATION) ++ leBytes 4 (d.rd F.STY_MEMBERS_MASK) ++
    leBytes 1 (d.upLinks.foldl (fun m l => m + 2 ^ l) 0)
/-- The round ends. -/
def Dev.discEnd (d : Dev) : Dev :=
  match d.stay.round with
  | none => d
  | some (_, seen, gone) =>
    let d := ((d.setStay (fun s => { s with round := none })).wr F.STY_SEEN_MASK seen).wr F.STY_VANISHED_MASK gone
    let d := (d.wr F.STY_DISC_ROUND ((d.rd F.STY_DISC_ROUND + 1) % 65536)).raise 34 4
    let d := (List.range 32).foldl (fun d e =>
      let t := d.rd F.STY_REPL_CFG_DST_STATION e
      if d.is F.STY_REPL_CFG_EN e && seen.testBit t && !(gone.testBit t) && t != d.station_ then d.replStart e else d) d
    d.replGo
/-- Whether every member has answered. -/
def Dev.discAll (d : Dev) : Bool := match d.stay.round with
  | some (_, seen, _) => d.rd F.STY_MEMBERS_MASK != 0 && d.rd F.STY_MEMBERS_MASK &&& seen == d.rd F.STY_MEMBERS_MASK
  | none => false
/-- SCAN: a round in progress goes on. -/
def Dev.styScan (d : Dev) : Dev :=
  if !(d.is F.STY_CTRL_EN) || d.stay.round.isSome then d
  else
    let d := d.setStay (fun s => { s with round := some (d.clk, 2 ^ d.station_, 0) })
    let d := d.staySend d.upLinks 5 0 d.stayHello
    if d.discAll then d.discEnd else d
/-- 100 µs have passed, or every member has answered. -/
def Dev.discoveryEnd (d : Dev) : Dev :=
  match d.stay.round with
  | none => d
  | some (t, _, _) => (if d.discAll then d else d.advanceTo (t + 100000)).discEnd
/-- A DISCOVER word: a request is answered on its link and forwarded; a reply is counted and forwarded. -/
def Dev.discoverWord (d : Dev) (l : Nat) (b : List Byte) : Dev :=
  d.stayReceive l 5 b (fun d => d.stayOnce b (fun d =>
    if (u b 3 1).testBit 0 then
      let d := d.setStay (fun s => { s with round := s.round.map (fun (r : Nat × Nat × Nat) => (r.1, r.2.1 ||| 2 ^ (u b 8 1 % 32), r.2.2)) })
      let d := d.stayForward l b
      if d.discAll then d.discEnd else d
    else (d.staySend [l] 5 1 d.stayHello).stayForward l b))

/-! ## Time and clocks (R404, R405) -/

/-- The exchange of every 1 ms: a request to each UP neighbour. -/
def Dev.timeExchange (d : Dev) : Dev :=
  if !(d.is F.STY_CTRL_EN) then d
  else
    let d := d.advanceTo (d.stay.exch + 1000000)
    ((d.setStay (fun s => { s with exch := d.clk })).staySend d.upLinks 1 0 (leBytes 12 d.now96)).replGo
/-- A difference of local times in picoseconds, rounded to the nearest. -/
def psOf (x : Int) (k : Nat) : Int := roundDiv (x * 1000) (k * 2 ^ 64)
/-- The offset to a neighbour and the cable delay, from the four stamps (R404). -/
def Dev.timeReply (d : Dev) (l : Nat) (b : List Byte) : Dev :=
  let t (o : Nat) : Int := ofStamp96 (u b o 12)
  let t4 : Int := d.localTime
  let off := psOf ((t 20 - t 8) - (t4 - t 32)) 2
  let cable := psOf ((t4 - t 8) - (t 32 - t 20)) 2
  let d := d.wr F.STY_LINK_CABLE_PS (clampInt 0 (2 ^ 32 - 1) cable).toNat l
  let master := d.rd F.STY_STATUS_MASTER
  if master = d.station_ ∨ d.stayVia master ≠ some l then d
  else
    let direct := d.rd F.STY_LINK_STATE_PEER_ID l == master
    let d := if direct then d.setWide F.STY_OFFSET_PS (unsigned 64 off) else (d.setWide F.STY_OFFSET_PS d.fresh).usedFree
    let bound : Int := (max 1 (d.rd F.STY_CTRL_SLEW_PPM) * 2 ^ 48 / 10 ^ 6 : Nat)
    let d := if !(d.is F.STY_CTRL_TT_EN) then d
      else
        let size : Int := if (max 1 (d.rd F.STY_CTRL_SLEW_PPM) * 1000 : Nat) ≤ off.natAbs then bound else ((d.fresh % (bound.toNat + 1) : Nat) : Int)
        (d.putTransfer (if off < 0 then -size else if off = 0 then 0 else size)).usedFree
    if off.natAbs ≤ 1000 && direct then d.slewEnd else d
/-- A TIME word: a request is answered with its reception and sending stamps. -/
def Dev.timeWord (d : Dev) (l : Nat) (b : List Byte) : Dev :=
  d.stayReceive l 1 b (fun d =>
    if (u b 3 1).testBit 0 then d.timeReply l b
    else d.staySend [l] 1 1 (sub b 8 12 ++ leBytes 12 d.now96 ++ leBytes 12 d.now96))
/-- An ALIGN word: `ps` is the offset of this station's composing-clock edges from the master's. -/
def Dev.alignWord (d : Dev) (l : Nat) (b : List Byte) (ps : Int) : Dev :=
  d.stayReceive l 2 b (fun d => d.stayOnce b (fun d => (d.wr F.STY_CLK_PS_PS (unsigned 32 ps)).stayForward l b))
/-- The master's ALIGN of an anchor tick. -/
def Dev.alignSend (d : Dev) : Dev :=
  if d.is F.STY_CTRL_EN && d.rd F.STY_STATUS_MASTER == d.station_ then d.staySend d.upLinks 2 0 (leBytes 8 d.clk ++ leBytes 12 d.now96) else d

/-! ## Halyards (R406) -/

/-- A HALYARD word: it drives the local halyard whose `STY_HAL_IN` bit is set, with its tag and origin; the trigger id is not in the word. -/
def Dev.halyardWord (d : Dev) (l : Nat) (b : List Byte) : Dev :=
  d.stayReceive l 3 b (fun d => d.stayOnce b (fun d =>
    let h := u b 8 1 % 64
    let d := d.stayForward l b
    if (d.rd F.STY_HAL_IN_MASK (h / 32)).testBit (h % 32) && d.hasDriver h 5 0 then
      (d.driveHalyard h (u b 9 1) (some (ofStamp96 (u b 12 12))) (some (u b 1 1, d.fresh % 2 ^ 32))).usedFree
    else d))
/-- An event at the taps leaves on every UP link when its `STY_HAL_OUT` bit is set; what stay-link receive drove is not sent again. -/
def Dev.halyardSend (d : Dev) (e : HalEvent) : Dev :=
  if d.is F.STY_CTRL_EN && (d.rd F.STY_HAL_OUT_MASK (e.hal / 32)).testBit (e.hal % 32) && !(d.hasDriver e.hal 5 0) then
    let start := d.timeIn ((e.clk : Int) - d.clk)
    let t := e.tag.getD (start + e.pos * (d.cycle / 32))
    d.staySend d.upLinks 3 0 (leBytes 1 e.hal ++ leBytes 1 e.pos ++ leBytes 2 (d.rd F.STY_STATUS_GENERATION) ++ leBytes 12 (stamp96 t))
  else d
/-- Set or clear one `STY_HAL_IN` bit (R43, R406). -/
def Dev.halInBit (d : Dev) (h : Nat) (on : Bool) : Dev :=
  let m := d.rd F.STY_HAL_IN_MASK (h / 32)
  let was := m.testBit (h % 32)
  if on && !was then
    (if d.takenByOther h 5 0 then d.mark F.STY_STATUS_HAL_CONFLICT
    else (d.wr F.STY_HAL_IN_MASK (m ||| 2 ^ (h % 32)) (h / 32)).recordDriver h 5 0)
  else if !on && was then (d.wr F.STY_HAL_IN_MASK (m - 2 ^ (h % 32)) (h / 32)).dropDriver h 5 0
  else d
/-- A write of `STY_HAL_IN` word k. -/
def Dev.halIn (d : Dev) (k : Nat) (v : Word) : Dev := (List.range 32).foldl (fun d b => d.halInBit (32 * k + b) (v.getLsbD b)) d

/-! ## Global commands (R408) -/

/-- Hops to the farthest station of the segment. -/
def Dev.farthest (d : Dev) : Nat := d.stay.via.foldl (fun m x => max m x.2.2) 0
/-- The host issues a global command. A time with more than 999,999,999 ns is refused (R11) with code STATE: the spec names no code for it
(DESIGN CHOICE, log entry 33). -/
def Dev.gcmd (d : Dev) (op : Nat) : Dev :=
  let stamp := d.rdWide F.STY_GCMD_T_T 0 3
  let t := ofStamp96 stamp
  let arg := d.rdWide F.STY_GCMD_ARG_ARG 0 2
  if !stampOk stamp then (d.wr F.STY_GCMD_STATUS_CODE 2).raise 34 9
  else if t < d.localTime + (d.farthest * 120 + 1000) * nsUnit then (d.wr F.STY_GCMD_STATUS_CODE 1).raise 34 9
  else
    let id := d.stay.cmdId
    let d := d.setStay (fun s => { s with cmds := s.cmds ++ [⟨d.station_, id, op, arg, t⟩], cmdId := (id + 1) % 2 ^ 24 })
    let d := (d.wr F.STY_GCMD_STATUS_CODE 0).wr F.STY_GCMD_STATUS_ID id
    d.staySend d.upLinks 4 0 (leBytes 1 op ++ leBytes 3 0 ++ leBytes 8 arg ++ leBytes 12 stamp ++ leBytes 4 id)
/-- A COMMAND word arrives: kept until its time, or late. -/
def Dev.commandWord (d : Dev) (l : Nat) (b : List Byte) : Dev :=
  d.stayReceive l 4 b (fun d => d.stayOnce b (fun d =>
    let d := d.stayForward l b
    let t := ofStamp96 (u b 20 12)
    let c : GCmd := ⟨u b 1 1, u b 32 4, u b 8 1, u b 12 8, t⟩
    if d.stay.cmds.any (fun x => x.origin == c.origin && x.id == c.id) then d
    else if t < d.localTime then (d.inc F.STY_GCMD_LATE_COUNT).raise 34 10
    else d.setStay (fun s => { s with cmds := s.cmds ++ [c] })))
/-- The earliest of the commands. -/
def earliest : List GCmd → Option GCmd
  | [] => none
  | c :: t => match earliest t with
    | some x => if x.time < c.time then some x else some c
    | none => some c
/-- The earliest command's time has come: it is carried out on the first boundary at or after it. -/
def Dev.gcmdRun (d : Dev) : Dev :=
  match earliest d.stay.cmds with
  | none => d
  | some c =>
    let d := (d.advanceLocal c.time).setStay (fun s => { s with cmds := s.cmds.erase c })
    if c.op = 3 then
      (d.latch (c.arg % 1024) (d.snapRec 0xFFF 0 0 (d.axisAt 0 c.time) c.time)).1
    else if c.op = 1 ∨ c.op = 2 then
      ((d.sections.cells.map (·.1)).filter (fun i => d.activeKind i 4 && c.arg.testBit (d.knobBits i 8 0 6))).foldl (fun d i => d.knobWrite i 0 c.op) d
    else d

/-! ## Bulk frames and credits (R401, R409, R410) -/

/-- A bulk frame of a record for a local ring arrives: one that fails its CRC-32 comes again; a record received whole is published. -/
def Dev.bulkFrame (d : Dev) (l : Nat) (ok : Bool) (origin e ring : Nat) (piece : List Byte) (ends : Bool) : Dev :=
  if !(d.stayUp l) then d
  else if !ok then d.inc F.STY_LINK_RETX_COUNT l
  else
    let key := origin * 32 + e
    let b := ((d.stay.parts.get? key).map (·.2.2)).getD [] ++ piece
    if !ends then d.setStay (fun s => { s with parts := s.parts.put key (l, ring, b) })
    else
      let d := (d.setStay (fun s => { s with parts := s.parts.erase key })).replWaiting
      if d.stay.wait.any (fun x => x.2.1 == ring) then d.setStay (fun s => { s with wait := s.wait ++ [(l, ring, b)] })
      else
        let r := d.replPlace l ring b
        if r.2 then r.1 else d.setStay (fun s => { s with wait := s.wait ++ [(l, ring, b)] })
/-- A CREDIT word returns credits. -/
def Dev.creditWord (d : Dev) (l : Nat) (b : List Byte) : Dev :=
  d.stayReceive l 6 b (fun d => (d.setStay (fun s => { s with credits := s.credits.put l (min 64 (s.credits.getD l 64 + u b 8 2)) })).replGo)

/-! ## Meanings -/

/-- Link l falls (R402, R407, R409). -/
def execStayLinkDown (l : Fin 4) (g : SegInfo) (s : State) := lift (fun d => d.stayDown l g) s
/-- Link l comes UP (R402, R407). -/
def execStayLinkUp (l : Fin 4) (peer : Fin 32) (peerLink : Fin 4) (g : SegInfo) (s : State) := lift (fun d => d.stayRise l peer peerLink g) s
/-- Write SCAN of `STY_DISC` (R403). -/
def execStyScan (s : State) := host 0x3B0030 Dev.styScan s
/-- The discovery round ends (R403). -/
def execDiscoveryEnd (s : State) := lift Dev.discoveryEnd s
/-- The TIME exchange of 1 ms (R404). -/
def execTimeExchange (s : State) := lift Dev.timeExchange s
/-- A TIME word arrives on link l (R404). -/
def execTimeWord (l : Fin 4) (bytes : List Byte) (s : State) := lift (fun d => d.timeWord l bytes) s
/-- An ALIGN word arrives on link l (R405). -/
def execAlignWord (l : Fin 4) (bytes : List Byte) (ps : Int) (s : State) := lift (fun d => d.alignWord l bytes ps) s
/-- A HALYARD word arrives on link l (R406). -/
def execHalyardWord (l : Fin 4) (bytes : List Byte) (s : State) := lift (fun d => d.halyardWord l bytes) s
/-- A COMMAND word arrives on link l (R408). -/
def execCommandWord (l : Fin 4) (bytes : List Byte) (s : State) := lift (fun d => d.commandWord l bytes) s
/-- A DISCOVER word arrives on link l (R403). -/
def execDiscoverWord (l : Fin 4) (bytes : List Byte) (s : State) := lift (fun d => d.discoverWord l bytes) s
/-- A CREDIT word arrives on link l (R410). -/
def execCreditWord (l : Fin 4) (bytes : List Byte) (s : State) := lift (fun d => d.creditWord l bytes) s
/-- The offset falls to 1 ns (R407). -/
def execSlewEnd (s : State) := lift Dev.slewEnd s
/-- The host issues ARM (R408). -/
def execGcmdArm (s : State) := host 0x3B0040 (fun d => d.gcmd 1) s
/-- The host issues DISARM (R408). -/
def execGcmdDisarm (s : State) := host 0x3B0040 (fun d => d.gcmd 2) s
/-- The host issues SNAPSHOT (R408). -/
def execGcmdSnapshot (s : State) := host 0x3B0040 (fun d => d.gcmd 3) s
/-- The earliest global command is carried out (R408). -/
def execGcmdExecute (s : State) := lift Dev.gcmdRun s
/-- A bulk frame arrives on link l (R401, R409). -/
def execBulkFrame (l : Fin 4) (ok : Bool) (origin e : Fin 32) (ring : Fin 1024) (piece : List Byte) (ends : Bool) (s : State) :=
  lift (fun d => d.bulkFrame l ok origin e ring piece ends) s

end Sys2Proof.Machine
end

