-- ==== Sys2Proof/Machine/Taps.lean ====
section
/-! DEFINITION. Halyards at their taps (R41, R43, R47, R220, R227, R308, R406), and the enables of the engine's own drivers (R43). -/
namespace Sys2Proof.Machine

/-- The time of an event at a tap: its tag, or its place in the clock of its driver (R227, R228). -/
def Dev.halTime (d : Dev) (e : HalEvent) : Nat := e.tag.getD (d.timeIn ((e.clk : Int) - d.clk) + e.pos * (d.cycle / 32))
/-- Frame cores whose tap names the halyard (R220). -/
def Dev.coreTaps (d : Dev) (h c : Nat) : Dev :=
  let tap := d.rd F.CORE_HAL_TAP_TAP c
  let seen := (List.range 4).foldl (fun m k => if bits tap (8 * k) 8 % 64 = h ∧ (bits tap (8 * k) 8).testBit 7 then m + 2 ^ k else m) 0
  if seen = 0 then d else d.setCore c (fun x => { x with evt := x.evt ||| seen })
/-- Tile cores whose section routes the halyard to their input: the image does not say which here (log entry 2). -/
def Dev.tileTaps (d : Dev) (t : Nat) : Dev :=
  if (d.tileOwner t).isNone then d
  else (if d.fresh % 2 = 1 then d.setCore (16 + t) (fun x => { x with evt := x.evt ||| 1 }) else d).usedFree
/-- The oldest halyard event reaches every tap, 3 clocks after its driver (R41). -/
def Dev.halArrive (d : Dev) : Dev :=
  match d.halyards with
  | [] => d
  | e :: rest =>
    let d := { d.advanceTo (e.clk + 3) with halyards := rest }
    let h := e.hal
    let d := d.setBits F.FMR_HAL_SEEN_SEEN (2 ^ (h % 32)) (h / 32)
    let d := (d.mapped (0x1000 + h)).halyardSend e
    let t := d.halTime e
    let o := e.origin.getD (d.rd F.STY_CTRL_ID, 0)
    let d := d.feedSlots 4 h none t o.1 o.2
    let d := if d.hasDriver h 5 0 then d.feedSlots 7 h none t o.1 o.2 else d
    let d := (List.range 16).foldl (fun d c => d.coreTaps h c) d
    let d := (List.range 128).foldl (fun d t => d.tileTaps t) d
    (List.range 8).foldl (fun d n =>
      if d.rd F.MRK_CFG_MODE n = 2 ∧ d.rd F.MRK_CFG_HAL n = h then d.markRequest n (d.timeIn ((e.clk : Int) + 3 - d.clk) + e.pos * (d.cycle / 32)) (d.markWidth n) else d) d

/-- The register word that enables a driver on a halyard, and what its write does (R43): the block's other fields stay. -/
def DriverSel.off : DriverSel → Nat → Nat
  | .overrange n, _ => 0xC0004 + n * 0x1000
  | .tdc n, _ => 0x60000 + n * 64
  | .frameCore n, _ => F.CORE_HAL_OUT_EN.at_ n 0
  | .stay, h => 0x3B0028 + h / 32 * 4
/-- The write itself. -/
def Dev.halEnable (d : Dev) (b : DriverSel) (h : Nat) : Dev :=
  let w := d.reg (b.off h)
  match b with
  | .overrange n => d.cnvCtrl n ((w.setField 2 1 1).setField 8 6 h)
  | .tdc n => d.tdcCfg n ((w.setField 4 1 1).setField 8 6 h)
  | .frameCore n => d.coreHalOut n (((w.setField 0 6 h).setField 8 1 1).setField 9 1 0)
  | .stay => d.halInBit h true

/-- A halyard event arrives (R41). -/
def execHalyardArrival (s : State) := lift Dev.halArrive s
/-- An enable of an engine block's halyard drive is written (R43). -/
def execHalyardDriverEnable (b : DriverSel) (h : Fin 64) (s : State) := host (b.off h) (fun d => d.halEnable b h) s

end Sys2Proof.Machine
end

