-- ==== Sys2Proof/Machine/Bus.lean ====
section
/-! DEFINITION. Host writes of a register by offset (R4–R7): a register whose write does more than its access codes say goes to its operation,
every other is stored by its codes. The two low bits of an offset are not decoded (log entry 14). -/
namespace Sys2Proof.Machine

/-- How RESET of a mover is carried out: its elements in progress may be register writes themselves. -/
abbrev MovResetBy : Type := Dev → Nat → Dev

/-! ## Writes by block -/

/-- SYS, PWR, RPR, SEC (0x00000–0x27FFF). -/
def Dev.writeSys (d : Dev) (off : Nat) (v : Word) : Dev :=
  if off = 0x10000 then
    match v.field 0 3 with
    | 1 => d.pwrRun
    | 2 => d.pwrIdle
    | 3 => d.pwrStandby
    | 4 => d.resume ⟨d.rdInt F.PWR_DIE_TEMP_TEMP, d.rd F.PWR_I12N_MA⟩
    | _ => d
  else if off = 0x20008 then (if v.getLsbD 0 then d.rprReturn else d)
  else if off = 0x24004 then
    match v.field 0 3 with
    | 1 => d.enrolOwner (v.field 8 2)
    | 2 => d.setPolicy (v.getLsbD 24)
    | 3 => d.secLock
    | 4 => d.applyAuth
    | 5 => d.enrolSub (v.field 16 6)
    | 6 => d.eraseSub (v.field 16 6)
    | _ => d
  else if (0x24040 ≤ off ∧ off < 0x24070) ∨ (0x24080 ≤ off ∧ off < 0x24090) then d.setReg off v
  else d.plainWrite off v

/-- A write of group g's registers (R440–R447): groups 40–63 ignore them. -/
def Dev.writeGroup (d : Dev) (g o : Nat) (v : Word) : Dev :=
  if 40 ≤ g then d
  else match o with
    | 0 => d.pendingClear g v
    | 4 => d.irqEnable g v
    | 0x14 => (d.plainWrite (0x30114 + g * 0x20) v).tryDeliver g
    | 0x18 => if v.getLsbD 0 then d.irqComplete g else (d.sampleLevels g).tryDeliver g
    | _ => d.plainWrite (0x30100 + g * 0x20 + o) v
/-- IRQ and HKA (0x30000–0x3FFFF). -/
def Dev.writeIrq (d : Dev) (off : Nat) (v : Word) : Dev :=
  if 0x30100 ≤ off ∧ off < 0x30900 then d.writeGroup ((off - 0x30100) / 0x20) ((off - 0x30100) % 0x20) v
  else if off = 0x38000 then d.hkaCtrl v
  else if 0x38100 ≤ off ∧ off < 0x38180 then d.hkaSeqWrite off v
  else d.plainWrite off v

/-- `CLK_PLL_CTRL` (R124, R127): EN and RELOCK. -/
def Dev.writePll (d : Dev) (p : Nat) (v : Word) : Dev :=
  let d := if v.getLsbD 0 = d.is F.CLK_PLL_CTRL_EN p then d else if v.getLsbD 0 then d.pllEnable p else d.pllDisable p
  if v.getLsbD 1 then d.relock p else d
/-- `CLK_LO` registers (R133, R137). -/
def Dev.writeLo (d : Dev) (i o : Nat) (v : Word) : Dev :=
  if o = 0 then (d.plainWrite (0x41000 + i * 0x100) v).showMuted i
  else if o = 4 then
    let c := v.field 0 3
    if c = 0 ∨ 5 < c then d else d.loHost i c (if c = 1 then v.field 8 8 else 0)
  else d.plainWrite (0x41000 + i * 0x100 + o) v
/-- CLK (0x40000–0x4FFFF). -/
def Dev.writeClk (d : Dev) (off : Nat) (v : Word) : Dev :=
  match F.CLK_PLL_CTRL_EN.elem 29 off with
  | some p => d.writePll p v
  | none =>
    if 0x41000 ≤ off ∧ off < 0x41400 then d.writeLo ((off - 0x41000) / 0x100) ((off - 0x41000) % 0x100) v
    else if 0x48000 ≤ off ∧ off < 0x50000 then d.profileWrite ((off - 0x48000) / 0x2000) ((off - 0x48000) % 0x2000 / 4) v
    else d.plainWrite off v

/-- TIM, XTL, PTP, launch queues, TDC, markers (0x50000–0x6FFFF). -/
def Dev.writeTime (d : Dev) (off : Nat) (v : Word) : Dev :=
  if off = 0x50000 then
    match v.field 0 2 with
    | 1 => d.newEpoch
    | 2 => d.timStep (v.getLsbD 4)
    | _ => d
  else if off = 0x5001C then d.rateCommit v
  else if off = 0x50C00 then d.xtlCtrl v
  else if off = 0x50C08 then d.xtlTune v
  else if off = 0x50C0C then d.xtlAge false v
  else if off = 0x50C10 then d.xtlAge true v
  else match F.PTP_TXQ_POP_POP.elem 16 off, F.TDC_IN_CFG_EN.elem 20 off, F.TDC_IN_POP_POP.elem 20 off with
    | some q, _, _ => if v.getLsbD 0 then d.txqPop q else d
    | _, some n, _ => d.tdcCfg n v
    | _, _, some n => if v.getLsbD 0 then d.tdcPop n else d
    | _, _, _ =>
      match F.TDC_M_CMD_CMD.elem 8 off, F.MRK_TIME_SEC_HI_SEC.elem 8 off with
      | some u, _ => (match v.field 0 2 with
        | 1 => d.measStart u
        | 2 => d.measAbort u 0
        | _ => d)
      | _, some n => d.markArm n v
      | _, _ =>
        if (F.MRK_CFG_MODE.elem 8 off).isSome || (F.MRK_WIDTH_NS.elem 8 off).isSome || (F.MRK_PERIOD_NS.elem 8 off).isSome then d.markCfg off v
        else d.plainWrite off v

/-- AXS and CUE (0x80000–0xAFFFF). Enabling the cue engine takes each armed cue's side anew (R271). -/
def Dev.writeAxis (d : Dev) (off : Nat) (v : Word) : Dev :=
  if 0xB0000 ≤ off then d
  else if 0x90000 ≤ off then d.cueTable ((off - 0x90000) / 32) (off % 32 / 4) v
  else if off = 0x80400 then
    let was := d.is F.CUE_CTRL_EN
    let d := d.plainWrite off v
    if d.is F.CUE_CTRL_EN && !was then d.cues.armed.cells.foldl (fun d p => d.cueSides p.1) d else d
  else match F.AXS_AX_CFG_EN.elem 4 off, F.AXS_AX_CMD_HOME.elem 4 off, elemOf 0x80440 4 8 off with
    | some a, _, _ => d.axisEnable a v
    | _, some a, _ => if v.getLsbD 0 && (a == 1 || a == 2) then d.flag F.AXS_AX_CMD_HOME true a else d
    | _, _, some k => d.groupWrite k v
    | _, _, _ => d.plainWrite off v

/-- CNV and CAL (0xC0000–0xCFFFF). -/
def Dev.writeInputs (d : Dev) (off : Nat) (v : Word) : Dev :=
  if off = 0xC8000 then
    match v.field 4 2 with
    | 1 => d.calRequest (v.field 0 3)
    | 2 => d.calAccept (v.field 0 3)
    | _ => d
  else match F.CNV_CMD_CMD.elem 8 off, F.CNV_CTRL_PAIRED.elem 8 off, F.CNV_ATTEN_ATTEN.elem 8 off with
    | some n, _, _ => (match v.field 0 2 with
      | 1 => d.cnvStart n
      | 2 => d.cnvStop n
      | _ => d)
    | _, some n, _ => d.cnvCtrl n v
    | _, _, some n => d.setAtten n (v.field 0 5)
    | _, _, _ => d.plainWrite off v

/-- A section's OP (R59–R64). -/
def Dev.secOpWrite (d : Dev) (i : Nat) (v : Word) : Dev :=
  match v.field 0 4 with
  | 1 => d.secLoad i (v.field 12 1) (v.getLsbD 8)
  | 2 => d.secUnload i
  | 3 => d.secHold i
  | 4 => d.secRelease i
  | 5 => d.knobHold i
  | 6 => d.knobApply i
  | _ => d
/-- FMR (0x100000–0x10FFFF). -/
def Dev.writeForme (d : Dev) (off : Nat) (v : Word) : Dev :=
  if off = 0x100000 then d.governWrite (v.field 0 1)
  else match F.FMR_IMG_CMD_CMD.elem 2 off, F.FMR_SEC_OP_OP.elem 128 off with
    | some k, _ => (match v.field 0 2 with
      | 1 => d.verify k
      | 2 => d.imageRelease k
      | _ => d)
    | _, some i => d.secOpWrite i v
    | _, _ => d.plainWrite off v

/-- A ring's registers (R319, R324, R325). -/
def Dev.writeRing (d : Dev) (r o : Nat) (v : Word) : Dev :=
  let off := 0x304000 + r * 32 + o
  match o with
  | 0 => d.ringCfg r v
  | 4 => if d.ringOn r then d else d.plainWrite off v
  | 8 => if d.ringOn r then d else d.plainWrite off v
  | 0x10 => d.hostPublish r v
  | 0x18 => d.hostRdWrite r v
  | 0x1C => (d.plainWrite off v).ringSummary r
  | _ => d.plainWrite off v
/-- A mover's registers (R341). -/
def Dev.writeMover (d : Dev) (reset : MovResetBy) (m o : Nat) (v : Word) : Dev :=
  if o = 4 then
    match v.field 0 2 with
    | 1 => d.movStart m []
    | 2 => d.movStop m
    | 3 => reset d m
    | _ => d
  else d.plainWrite (0x340000 + m * 0x100 + o) v
/-- GAL, DRC, SPM, movers (0x300000–0x37FFFF). -/
def Dev.writeStore (d : Dev) (reset : MovResetBy) (off : Nat) (v : Word) : Dev :=
  if off = 0x300028 then d.mapWrite v
  else if 0x304000 ≤ off ∧ off < 0x30C000 then d.writeRing ((off - 0x304000) / 32) (off % 32) v
  else if 0x340000 ≤ off ∧ off < 0x344000 then d.writeMover reset ((off - 0x340000) / 0x100) (off % 0x100) v
  else if off = 0x328000 then
    let d := d.flag F.DRC_CTRL_SCRUB_EN (v.getLsbD 1)
    if v.getLsbD 0 then d.applyMasks else d
  else if 0x328040 ≤ off ∧ off < 0x328090 then d.maskWrite off v
  else if off = 0x330000 then (if v.field 0 2 = 1 then d.march (v.field 16 7) (v.field 24 4) else d)
  else match F.DRC_CH_CMD_CMD.elem 68 off with
    | some c => (match v.field 0 2 with
      | 1 => d.drcResume c
      | 2 => d.drcRetire c
      | _ => d)
    | none => d.plainWrite off v

/-- A stream port's registers: configuration is written in OFF (R383), its enables and a host ring's consumer position at any time. -/
def Dev.writePort (d : Dev) (n o : Nat) (v : Word) : Dev :=
  let off := 0x380000 + n * 64 + o
  if o = 0 then (if d.strState n = 0 then (d.plainWrite off v).strSummary n else (d.wr F.STR_CFG_IRQ_EN (v.field 24 8) n).strSummary n)
  else if o = 4 then
    match v.field 0 2 with
    | 1 => d.strStart n
    | 2 => d.strStop n
    | _ => d
  else if o = 8 then (d.plainWrite off v).strSummary n
  else if o = 0x24 then d.strCons n v
  else if 0xC ≤ o ∧ o < 0x24 then
    if d.strState n = 0 ∨ (o = 0x20 ∧ d.rd F.STR_CFG_TRANSPORT n = 0) then d.plainWrite off v else d
  else d.plainWrite off v
/-- Ports, drives, Ethernet (0x380000–0x3AFFFF). What a scan finds at the drives is not the writer's: it is free (log entry 2). -/
def Dev.writePorts (d : Dev) (off : Nat) (v : Word) : Dev :=
  if off < 0x390000 then d.writePort ((off - 0x380000) / 64) (off % 64) v
  else if off = 0x390100 then (if v.getLsbD 0 then (d.nvmScan (d.fresh % 65536)).usedFree else d)
  else match F.NVM_SET_CMD_CMD.elem 16 off, F.ETH_SP_TX_TAIL_TX_TAIL.elem 16 off with
    | some k, _ => (match v.field 0 2 with
      | 1 => d.setFormat k
      | 2 => d.setRelease k
      | _ => d)
    | _, some q => d.txTail q v []
    | _, _ => d.plainWrite off v

/-- STY, SHT, VID (0x3B0000–0x3DFFFF). -/
def Dev.writeFront (d : Dev) (off : Nat) (v : Word) : Dev :=
  if off = 0x3B0000 then d.stayCtrl v
  else if off = 0x3B0008 then d.stayMembers v
  else if off = 0x3B0028 ∨ off = 0x3B002C then d.halIn ((off - 0x3B0028) / 4) v
  else if off = 0x3B0030 then (if v.getLsbD 0 then d.styScan else d)
  else if off = 0x3B0040 then (if v.field 0 2 = 0 then d else d.gcmd (v.field 0 2))
  else if off = 0x3D0000 then
    match v.field 0 2 with
    | 1 => d.vidEnable
    | 2 => d.vidDisable
    | _ => d
  else if 0x3D0008 ≤ off ∧ off < 0x3D0020 then d.vidTiming off v
  else if off = 0x3D0040 then d.auxGo v
  else match F.STY_REPL_CFG_EN.elem 32 off, F.VID_LAYER_FLIP_FLIP.elem 4 off, F.SHT_CFG_EN.elem 2 off with
    | some _, _, _ => d.replCfg off v
    | _, some l, _ => d.flip l (v.field 0 16)
    | _, _, some b => (d.plainWrite off v).sheetGo b
    | _, _, _ =>
      match F.SHT_CMD_SCAN.elem 2 off, F.SHT_DIRECT_LIST.elem 2 off with
      | some b, _ => if v.getLsbD 0 then d.sheetScan b else d
      | _, some b => d.setSheet b (fun h => { h with lists := h.lists ++ [v.field 0 6] })
      | _, _ => d.plainWrite off v

/-- A core's CMD (R222). -/
def Dev.coreCmd (d : Dev) (c : Nat) (v : Word) : Dev :=
  match v.field 0 3 with
  | 1 => d.coreStart c
  | 2 => d.coreStop c
  | 3 => d.coreStepPost c
  | 4 => if isFrame c then d.coreReset c else d
  | _ => d
/-- Core registers and memories (0x400000–0xFFFFFF). -/
def Dev.writeCore (d : Dev) (off : Nat) (v : Word) : Dev :=
  match d.coreWindow off with
  | some m => d.coreMemWrite m v
  | none =>
    if off < 0x800000 then
      let c := (off - 0x400000) / 0x40000
      match (off - 0x400000) % 0x40000 - 0x30000 with
      | 0 => d.coreCmd c v
      | 0x24 => d.doorbell c v.toNat false
      | 0x28 => d.doorbell c v.toNat true
      | 0x38 => d.coreHalOut c v
      | 0x40 => d.coreIn c v
      | _ => d.plainWrite off v
    else if (off - 0x800000) % 0x10000 = 0xC000 then d.coreCmd (16 + (off - 0x800000) / 0x10000) v
    else d.plainWrite off v

/-! ## The write -/

/-- A host write of 32 bits at an aligned offset (R4). -/
def Dev.writeBy (reset : MovResetBy) (d : Dev) (off : Nat) (v : Word) : Dev :=
  if 0x2000000 ≤ off then d
  else if 0x1000000 ≤ off then d.knobWrite ((off - 0x1000000) / 0x20000) ((off - 0x1000000) % 0x20000) v.toNat
  else if 0x400000 ≤ off then d.writeCore off v
  else if 0x3B0000 ≤ off then d.writeFront off v
  else if 0x380000 ≤ off then d.writePorts off v
  else if 0x300000 ≤ off then d.writeStore reset off v
  else if 0x100000 ≤ off then d.writeForme off v
  else if 0xC0000 ≤ off then d.writeInputs off v
  else if 0x80000 ≤ off then d.writeAxis off v
  else if 0x50000 ≤ off then d.writeTime off v
  else if 0x40000 ≤ off then d.writeClk off v
  else if 0x30000 ≤ off then d.writeIrq off v
  else if 0x2C000 ≤ off then d.nvsWrite ((off - 0x2C000) / 4) v
  else d.writeSys off v

/-- A write narrower than 32 bits is discarded (R4, R483): counted, its offset kept unless one is kept already, G0 source 7. -/
def Dev.narrowWrite (d : Dev) (off : Nat) : Dev :=
  let d := d.inc F.SYS_ACCESS_ERR_COUNT
  let d := if d.is F.SYS_ACCESS_ADDR_VALID then d else (d.wr F.SYS_ACCESS_ADDR_OFFSET off).mark F.SYS_ACCESS_ADDR_VALID
  d.raise 0 7

/-- Register accesses that a mover makes; a RESET written by a mover element finds no element of its own to run. -/
def busAccess : RegAccess :=
  ⟨Dev.hostRead, Dev.writeBy (fun d m => d.movReset ⟨Dev.hostRead, Dev.plainWrite, Dev.narrowWrite⟩ m 0), Dev.narrowWrite⟩
/-- A host write: elements that a RESET found already run are not the writer's to say: their number is free (log entry 2). -/
def Dev.hostWrite (d : Dev) (off : Nat) (v : Word) : Dev :=
  d.writeBy (fun d m => (d.usedFree).movReset busAccess m (d.fresh % 16)) off v

/-- The offset with its low two bits not decoded. -/
def wordOff (off : BitVec 26) : Nat := off.toNat / 4 * 4
/-- One 32-bit host write or read, by the power state (R458, R460). -/
def Dev.busWrite (d : Dev) (off : Nat) (v : Word) : Dev := d.hostWriteAt off (fun d => d.hostWrite off v)
def Dev.busRead (d : Dev) (off : Nat) : Dev := d.hostReadAt off (fun d => d.hostRead off)
/-- A 64-bit access is two 32-bit ones, the lower offset first (R4); a read leaves both words, the second the higher. -/
def Dev.wideAccess (d : Dev) (isWrite : Bool) (off : Nat) (v : BitVec 64) : Dev :=
  if isWrite then (d.busWrite off (v.setWidth 32)).busWrite ((off + 4) % 2 ^ 26) ((v >>> 32).setWidth 32)
  else if d.pstate = 0 then d
  else
    let d := d.busRead off
    let lo := d.readData
    let d := d.busRead ((off + 4) % 2 ^ 26)
    d.answer (lo + d.readData * 2 ^ 32)

/-- A descriptor of mover m completes: for the stream ports that own it in turn, one descriptor each (R383), else its own (R336). -/
def Dev.moverDone (d : Dev) (m : Nat) (fails : List ReadFail) : Dev :=
  let at_ := fails.map (fun f => (f.elem, f.off))
  let rows := fails.filterMap (·.row)
  if d.is F.MOV_OWNER_STR m then
    match d.nextPort m with
    | some n => ((d.stoneRows rows).wr F.MOV_OWNER_PORT n m).portDescriptor n at_
    | none => d
  else if d.movState m = 1 ∨ d.movState m = 3 then (d.stoneRows rows).descriptorDone busAccess m at_
  else d

/-! ## Meanings -/

/-- A 32-bit host write of a register (R4–R7). -/
def execRegisterWrite (off : BitVec 26) (v : Word) (s : State) := lift (fun d => d.busWrite (wordOff off) v) s
/-- A host write narrower than 32 bits (R483). -/
def execNarrowWrite (off : BitVec 26) (s : State) := host off.toNat (fun d => d.narrowWrite off.toNat) s
/-- A 64-bit host access (R4). -/
def execAccess64bit (isWrite : Bool) (off : BitVec 26) (v : BitVec 64) (s : State) := lift (fun d => d.wideAccess isWrite (wordOff off) v) s
/-- A host read of a register with read-clear fields (R7). -/
def execReadClear (off : BitVec 26) (s : State) := lift (fun d => d.busRead (wordOff off)) s
/-- A host read that latches other words (R286). -/
def execLatchingRead (off : BitVec 26) (s : State) := lift (fun d => d.busRead (wordOff off)) s
/-- A host read while the engine is in IDLE (R458). -/
def execHostReadInIdle (off : BitVec 26) (s : State) := lift (fun d => d.busRead (wordOff off)) s
/-- Write RESET to `MOV_CMD` of mover m, `ran` elements of its descriptor being run (R341). -/
def execMovReset (m : Fin 64) (ran : Fin 16) (s : State) := host (0x340004 + m.val * 0x100) (fun d => d.movReset busAccess m ran) s
/-- The descriptor of mover m completes; `fails` are its read errors (R337, R363). A mover owned by stream ports serves
them in turn (R383). -/
def execDescriptorDone (m : Fin 64) (fails : List ReadFail) (s : State) := lift (fun d => d.moverDone m fails) s

end Sys2Proof.Machine
end

