-- ==== Sys2Proof/Machine/RecordPublish.lean ====
section
/-! DEFINITION. RECORD_PUBLISH: a complete record that the fabric hands to the galley for the run of a section (R321, R322, R326): raw streams
(R95, R252), channel samples (R157, R159, R163), units that reach a triggered RAWC (R244, R247). Spectra, trace points and density frames come by
commands of their own. Losses are no operand: the model notes them where their causes arise. -/
namespace Sys2Proof.Machine

/-- Whether units [a, b) are clear of the losses known of a run. -/
def Run.clear (u : Run) (a b : Nat) : Bool := u.losses.all (fun l => decide (b ≤ l.start ∨ l.start + l.count ≤ a))
/-- Whether a raw record has the form of R95 and R252: a multiple of the samples per clock, 2^REC_LOG2 of them or fewer where a loss follows; its codes are
those of its samples. -/
def Dev.rawFits (d : Dev) (i : Nat) (u : Run) (r : DataRecord) : Bool :=
  decide (1 ≤ r.count ∧ r.count ≤ 2 ^ d.knob i 0x14 ∧ r.samples.length = r.count) && r.count % d.lanes u.input == 0 &&
    u.clear u.next (u.next + r.count) && (r.count == 2 ^ d.knob i 0x14 || u.losses.any (fun l => l.start == u.next + r.count))
/-- A raw record of a run (R95). -/
def Dev.rawOut (d : Dev) (i : Nat) (u : Run) (r : DataRecord) : Dev :=
  d.publishData i { d.runRec i u u.next with
    type := 1, flags := d.flagsOver u.input u.next (u.next + r.count) ||| (d.runFlags i u &&& 8), count := r.count, payload := packRaw r.samples } r.stoneFull

/-- A channel's record from the codes of its units' spans (R157): saturated components count and raise section event 2; of playback the record carries the
played records' flags (R161) and times (R163), and the reader moves on. -/
def Dev.chanOut (d : Dev) (i : Nat) (u : Run) (r : DataRecord) : Dev :=
  let c := d.chan i
  let back := c.input == 8
  let last := u.next + r.count - 1
  match d.chanUnits i u.next r.count (d.chanCodes i u.next r.count r.samples) with
  | none => d
  | some us =>
    let d := d.playRef i u.next
    let flags := if back then d.playFlags i u.next r.count
      else d.flagsOver c.input (c.first u.next).toNat (c.first last + c.spanOf last).toNat
    let d := d.publishData i { d.runRec i u u.next with
      type := 2, flags := flags ||| (d.runFlags i u &&& 8), count := r.count, payload := us.flatMap (fun x => unitLe (d.chanBits i) x.1) } r.stoneFull
    let sat := (us.map (·.2)).sum
    let d := if sat = 0 then d else (d.incKnob i 0x78 sat).sectionEvent i 2
    if back then d.playTo i (u.next + r.count) else d
/-- A playback channel begins its run with the first raw record of its ring, takes the gaps before its reader, then its next units. -/
def Dev.chanRecord (d : Dev) (i : Nat) (r : DataRecord) : Dev :=
  let d := if (d.chan i).input = 8 ∧ d.chanRunning i then
      let d := if (d.runs.get? i).isSome then d
        else match d.oldestRaw (d.knob i 0x10) with
          | some p => d.chanBegin i p.start
          | none => d
      d.playLosses i
    else d
  match d.runs.get? i with
  | none => d
  | some u => if r.count = 0 ∨ !(u.clear u.next (u.next + r.count)) then d else d.chanOut i u r

/-- The fabric hands a record to the run of section i. Nothing comes from a section that is not ACTIVE. What a slot or blanking withholds up to now is
noted first (R159). -/
def Dev.recordPublish (d : Dev) (i : Nat) (r : DataRecord) : Dev :=
  let d := d.stoneRows r.rows
  if d.secState i ≠ 2 then d
  else if d.chanRunning i then ((d.noteOpen i).chanRecord i r).replGo
  else match d.runs.get? i with
    | none => d
    | some u => match u.kind with
      | .raw =>
        let d := d.noteOpen i
        match d.runs.get? i with
        | some u => (if d.rawFits i u r then d.rawOut i u r else d).replGo
        | none => d
      | .captures => (d.rawcRecord i r).replGo
      | _ => d

/-- A complete record from the stone is published, or handled as not fitting (R321). -/
def execRecordPublish (i : Fin 128) (r : DataRecord) (s : State) := lift (fun d => d.recordPublish i r) s

end Sys2Proof.Machine
end

