-- ==== Sys2Proof/Machine/Ticks.lean ====
section
/-! DEFINITION. Anchor ticks (R20, R31, R32, R285, R293): rates, pairings and time anchors every 2^16 composing clocks from alignment. -/
namespace Sys2Proof.Machine

/-- Clock of anchor tick k. -/
def tickClock (k : Nat) : Nat := 65536 * k
/-- Inputs whose anchors are due: their converter runs (R31). -/
def Dev.anchored (d : Dev) : List Nat := (List.range 8).filter d.delivers
/-- The anchor of input n at the sample its clock `clk + k` begins with, unless START wrote it already (R293) or the run began later. -/
def Dev.tickAnchor (d : Dev) (n : Nat) (k : Int) : Dev :=
  let idx := ((d.input n).idx : Int) + d.lanes n * k
  if idx ≤ (d.wideAt F.CNV_START_IDX_LO_IDX n : Int) then d else d.anchor n idx.toNat k 1
/-- Anchors of paired inputs half-way between two ticks: their indices pass a multiple of 2^20 there (R31). -/
def Dev.halfAnchors (d : Dev) (mid : Nat) : Dev :=
  let d := d.advanceTo mid
  (d.anchored.filter (fun n => d.is F.CNV_STATUS_PAIRED n)).foldl (fun d n => d.tickAnchor n ((mid : Int) - d.clk)) d
/-- A pending change of pairing takes effect on even input e (R75, R88, R90, R91, R93, R96). PAIRED reads 1 on the even input only, whose registers
govern the pair: the spec does not say what it reads on the odd one (DESIGN CHOICE, log entry 33). -/
def Dev.takePairing (d : Dev) (e : Nat) : Dev :=
  if !(d.is F.CNV_STATUS_PAIR_PENDING e) then d
  else
    let want := d.is F.CNV_CTRL_PAIRED e
    let o := e + 1
    let late := d.clk - tickClock d.time.ticks
    let idx := (d.input e).idx - d.lanes e * late
    let d := (d.flag F.CNV_STATUS_PAIR_PENDING false e).flag F.CNV_STATUS_PAIR_PENDING false o
    let d := (d.flag F.CNV_STATUS_PAIRED want e).wr F.CNV_STATUS_STATE (if want then 4 else 0) o
    let d := d.setInput e (fun i => { i with idx := idx + d.lanes e * late })
    let d := if want then d.setInput o (fun i => { i with keptAtten := d.rd F.CNV_ATTEN_ATTEN o })
      else d.applyAtten o (d.input o).keptAtten none
    let d := (((d.flag F.CNV_STATUS_TONE want o).showStale e).showStale o).showHoldover
    d.converterContext e 4 0 idx (-late) none
/-- The next anchor tick. -/
def Dev.anchorTick (d : Dev) : Dev :=
  if !(d.is F.CLK_STATUS_ALIGNED) then d
  else
    let k := d.time.ticks + 1
    let d := ((d.halfAnchors (tickClock k - 32768)).advanceTo (tickClock k)).setTime (fun t => { t with ticks := k })
    let d := ([0, 2, 4, 6] : List Nat).foldl (fun d e => d.takePairing e) (d.takeRate (fun c => decide (c < tickClock k)))
    (d.anchored.foldl (fun d n => d.tickAnchor n ((tickClock k : Int) - d.clk)) d).alignSend

/-- An anchor tick (R20, R31). -/
def execAnchorTick (s : State) := lift Dev.anchorTick s

end Sys2Proof.Machine
end

