-- ==== Sys2Proof/Machine/Dispatch.lean ====
section
/-! DEFINITION. The one dispatch: an arm per command, each a direct call of its meaning. -/
namespace Sys2Proof.Machine

/-- What a command does to the state, its queue set aside (step gives the queue's rest). -/
def exec (i : Instr) (s : State) : Host.Outcome State Fault Refusal :=
  match i with
  | .registerWrite off v => Sys2Proof.Machine.execRegisterWrite off v s
  | .narrowWrite off => Sys2Proof.Machine.execNarrowWrite off s
  | .access64bit isWrite off v => Sys2Proof.Machine.execAccess64bit isWrite off v s
  | .readClear off => Sys2Proof.Machine.execReadClear off s
  | .anchorTick => Sys2Proof.Machine.execAnchorTick s
  | .verify k => Sys2Proof.Machine.execVerify k s
  | .verifyEnd k => Sys2Proof.Machine.execVerifyEnd k s
  | .imageRelease k => Sys2Proof.Machine.execImageRelease k s
  | .governWrite k => Sys2Proof.Machine.execGovernWrite k s
  | .load ix k => Sys2Proof.Machine.execLoad ix k s
  | .loadSupersede ix k => Sys2Proof.Machine.execLoadSupersede ix k s
  | .queuedLoadStart => Sys2Proof.Machine.execQueuedLoadStart s
  | .loadComplete => Sys2Proof.Machine.execLoadComplete s
  | .unload ix => Sys2Proof.Machine.execUnload ix s
  | .holdDark ix => Sys2Proof.Machine.execHoldDark ix s
  | .sectionRelease ix => Sys2Proof.Machine.execSectionRelease ix s
  | .knobHold ix => Sys2Proof.Machine.execKnobHold ix s
  | .knobApply ix => Sys2Proof.Machine.execKnobApply ix s
  | .knobWrite ix off v => Sys2Proof.Machine.execKnobWrite ix off v s
  | .halyardDriverEnable b h => Sys2Proof.Machine.execHalyardDriverEnable b h s
  | .halyardArrival => Sys2Proof.Machine.execHalyardArrival s
  | .cnvStart n => Sys2Proof.Machine.execCnvStart n s
  | .cnvStop n => Sys2Proof.Machine.execCnvStop n s
  | .pairingRequest n v => Sys2Proof.Machine.execPairingRequest n v s
  | .attenWrite n v => Sys2Proof.Machine.execAttenWrite n v s
  | .ovrBlankChange n on => Sys2Proof.Machine.execOvrBlankChange n on s
  | .overrangeDeclared n clocks => Sys2Proof.Machine.execOverrangeDeclared n clocks s
  | .overrangeRelease o => Sys2Proof.Machine.execOverrangeRelease o s
  | .monitorWindowEnd n loud est => Sys2Proof.Machine.execMonitorWindowEnd n loud est s
  | .calRequest n => Sys2Proof.Machine.execCalRequest n s
  | .accept n => Sys2Proof.Machine.execAccept n s
  | .calMeasureStart => Sys2Proof.Machine.execCalMeasureStart s
  | .calSettleEnd => Sys2Proof.Machine.execCalSettleEnd s
  | .calStageEnd res => Sys2Proof.Machine.execCalStageEnd res s
  | .archiveWriteEnd ok temps => Sys2Proof.Machine.execArchiveWriteEnd ok temps s
  | .slotReturn n => Sys2Proof.Machine.execSlotReturn n s
  | .tempDriftDetect n t => Sys2Proof.Machine.execTempDriftDetect n t s
  | .xtlTempUpdate t => Sys2Proof.Machine.execXtlTempUpdate t s
  | .xtlAgeUpdate => Sys2Proof.Machine.execXtlAgeUpdate s
  | .xtlDailyStore => Sys2Proof.Machine.execXtlDailyStore s
  | .xtlModeWrite v => Sys2Proof.Machine.execXtlModeWrite v s
  | .xtlTuneWrite v => Sys2Proof.Machine.execXtlTuneWrite v s
  | .xtlAgeWrite rate v => Sys2Proof.Machine.execXtlAgeWrite rate v s
  | .refQualified hundred => Sys2Proof.Machine.execRefQualified hundred s
  | .refDisqualified => Sys2Proof.Machine.execRefDisqualified s
  | .relock p => Sys2Proof.Machine.execRelock p s
  | .pllEnable p => Sys2Proof.Machine.execPllEnable p s
  | .pllDisable p => Sys2Proof.Machine.execPllDisable p s
  | .bandSearchEnd p freqs => Sys2Proof.Machine.execBandSearchEnd p freqs s
  | .lockDeclared o => Sys2Proof.Machine.execLockDeclared o s
  | .lossOfLock o => Sys2Proof.Machine.execLossOfLock o s
  | .ebufSlipStop n fill => Sys2Proof.Machine.execEbufSlipStop n fill s
  | .loStart ix seg => Sys2Proof.Machine.execLoStart ix seg s
  | .loStep ix => Sys2Proof.Machine.execLoStep ix s
  | .loHold ix => Sys2Proof.Machine.execLoHold ix s
  | .loResume ix => Sys2Proof.Machine.execLoResume ix s
  | .loStop ix => Sys2Proof.Machine.execLoStop ix s
  | .segmentEnd ix => Sys2Proof.Machine.execSegmentEnd ix s
  | .profileWrite ix k v => Sys2Proof.Machine.execProfileWrite ix k v s
  | .chanStart ix => Sys2Proof.Machine.execChanStart ix s
  | .chanStop ix => Sys2Proof.Machine.execChanStop ix s
  | .inputSwitch ix v => Sys2Proof.Machine.execInputSwitch ix v s
  | .ncoHiWrite ix v => Sys2Proof.Machine.execNcoHiWrite ix v s
  | .thresholdEnter ix o => Sys2Proof.Machine.execThresholdEnter ix o s
  | .thresholdLeave ix o => Sys2Proof.Machine.execThresholdLeave ix o s
  | .xfrmStart ix => Sys2Proof.Machine.execXfrmStart ix s
  | .xfrmStop ix => Sys2Proof.Machine.execXfrmStop ix s
  | .windowLoad ix => Sys2Proof.Machine.execWindowLoad ix s
  | .windowLoadEnd ix => Sys2Proof.Machine.execWindowLoadEnd ix s
  | .traceStart ix => Sys2Proof.Machine.execTraceStart ix s
  | .traceStop ix => Sys2Proof.Machine.execTraceStop ix s
  | .traceComplete ix t samples => Sys2Proof.Machine.execTraceComplete ix t samples s
  | .coreStart c => Sys2Proof.Machine.execCoreStart c s
  | .coreStop c => Sys2Proof.Machine.execCoreStop c s
  | .coreStep c => Sys2Proof.Machine.execCoreStep c s
  | .coreReset c => Sys2Proof.Machine.execCoreReset c s
  | .doorbellRing c hi v => Sys2Proof.Machine.execDoorbellRing c hi v s
  | .nop c => Sys2Proof.Machine.execNop c s
  | .add c => Sys2Proof.Machine.execAdd c s
  | .sub c => Sys2Proof.Machine.execSub c s
  | .adds c => Sys2Proof.Machine.execAdds c s
  | .subs c => Sys2Proof.Machine.execSubs c s
  | .and c => Sys2Proof.Machine.execAnd c s
  | .or c => Sys2Proof.Machine.execOr c s
  | .xor c => Sys2Proof.Machine.execXor c s
  | .shl c => Sys2Proof.Machine.execShl c s
  | .shr c => Sys2Proof.Machine.execShr c s
  | .sra c => Sys2Proof.Machine.execSra c s
  | .min c => Sys2Proof.Machine.execMin c s
  | .max c => Sys2Proof.Machine.execMax c s
  | .abs c => Sys2Proof.Machine.execAbs c s
  | .cmplt c => Sys2Proof.Machine.execCmplt c s
  | .cmpeq c => Sys2Proof.Machine.execCmpeq c s
  | .mul c => Sys2Proof.Machine.execMul c s
  | .mac c => Sys2Proof.Machine.execMac c s
  | .msu c => Sys2Proof.Machine.execMsu c s
  | .macz c => Sys2Proof.Machine.execMacz c s
  | .mac2 c => Sys2Proof.Machine.execMac2 c s
  | .movs c => Sys2Proof.Machine.execMovs c s
  | .moval c => Sys2Proof.Machine.execMoval c s
  | .movah c => Sys2Proof.Machine.execMovah c s
  | .movag c => Sys2Proof.Machine.execMovag c s
  | .accset c => Sys2Proof.Machine.execAccset c s
  | .sadopt c => Sys2Proof.Machine.execSadopt c s
  | .divs c => Sys2Proof.Machine.execDivs c s
  | .movr c => Sys2Proof.Machine.execMovr c s
  | .movw c => Sys2Proof.Machine.execMovw c s
  | .movad c => Sys2Proof.Machine.execMovad c s
  | .movda c => Sys2Proof.Machine.execMovda c s
  | .vmaxi c => Sys2Proof.Machine.execVmaxi c s
  | .vmini c => Sys2Proof.Machine.execVmini c s
  | .searchDone c => Sys2Proof.Machine.execSearchDone c s
  | .wait c => Sys2Proof.Machine.execWait c s
  | .waitWake c => Sys2Proof.Machine.execWaitWake c s
  | .streamStallEnd t in0 in1 taken0 taken1 => Sys2Proof.Machine.execStreamStallEnd t in0 in1 taken0 taken1 s
  | .sig c => Sys2Proof.Machine.execSig c s
  | .post c => Sys2Proof.Machine.execPost c s
  | .swi c => Sys2Proof.Machine.execSwi c s
  | .ret c => Sys2Proof.Machine.execRet c s
  | .halt c => Sys2Proof.Machine.execHalt c s
  | .movi c => Sys2Proof.Machine.execMovi c s
  | .addi c => Sys2Proof.Machine.execAddi c s
  | .movia c => Sys2Proof.Machine.execMovia c s
  | .br c => Sys2Proof.Machine.execBr c s
  | .brz c => Sys2Proof.Machine.execBrz c s
  | .brnz c => Sys2Proof.Machine.execBrnz c s
  | .brneg c => Sys2Proof.Machine.execBrneg c s
  | .call c => Sys2Proof.Machine.execCall c s
  | .loop c => Sys2Proof.Machine.execLoop c s
  | .loopIterationEnd c => Sys2Proof.Machine.execLoopIterationEnd c s
  | .fetchDone c => Sys2Proof.Machine.execFetchDone c s
  | .depositDone c => Sys2Proof.Machine.execDepositDone c s
  | .trigArm ix => Sys2Proof.Machine.execTrigArm ix s
  | .trigDisarm ix => Sys2Proof.Machine.execTrigDisarm ix s
  | .trigSoftware ix => Sys2Proof.Machine.execTrigSoftware ix s
  | .maskLoad ix => Sys2Proof.Machine.execMaskLoad ix s
  | .maskLoadEnd ix => Sys2Proof.Machine.execMaskLoadEnd ix s
  | .stage1Decision ix slot ev => Sys2Proof.Machine.execStage1Decision ix slot ev s
  | .stage2Event ix slot ev => Sys2Proof.Machine.execStage2Event ix slot ev s
  | .deadlineExpiry ix => Sys2Proof.Machine.execDeadlineExpiry ix s
  | .trigHoldoffEnd ix => Sys2Proof.Machine.execTrigHoldoffEnd ix s
  | .rawcStart ix => Sys2Proof.Machine.execRawcStart ix s
  | .rawcStop ix => Sys2Proof.Machine.execRawcStop ix s
  | .captureClose ix => Sys2Proof.Machine.execCaptureClose ix s
  | .axisEnable a v => Sys2Proof.Machine.execAxisEnable a v s
  | .encoderEdgeEntry a => Sys2Proof.Machine.execEncoderEdgeEntry a s
  | .indexEdge a => Sys2Proof.Machine.execIndexEdge a s
  | .home a => Sys2Proof.Machine.execHome a s
  | .ax3Edge mHz => Sys2Proof.Machine.execAx3Edge mHz s
  | .ax3Lock => Sys2Proof.Machine.execAx3Lock s
  | .ax3Loss => Sys2Proof.Machine.execAx3Loss s
  | .cueArm e word => Sys2Proof.Machine.execCueArm e word s
  | .cueDisarm e => Sys2Proof.Machine.execCueDisarm e s
  | .groupEnableWrite k v => Sys2Proof.Machine.execGroupEnableWrite k v s
  | .cuePredict => Sys2Proof.Machine.execCuePredict s
  | .cueToleranceExpiry e => Sys2Proof.Machine.execCueToleranceExpiry e s
  | .cueCrossing e => Sys2Proof.Machine.execCueCrossing e s
  | .lateCommit e => Sys2Proof.Machine.execLateCommit e s
  | .snapshotRecord => Sys2Proof.Machine.execSnapshotRecord s
  | .timNewEpoch => Sys2Proof.Machine.execTimNewEpoch s
  | .timStep mode => Sys2Proof.Machine.execTimStep mode s
  | .rateCommit hi => Sys2Proof.Machine.execRateCommit hi s
  | .timNowRead => Sys2Proof.Machine.execTimNowRead s
  | .ethRxFrame q bytes => Sys2Proof.Machine.execEthRxFrame q bytes s
  | .ptpTxStamp q => Sys2Proof.Machine.execPtpTxStamp q s
  | .txqPop q => Sys2Proof.Machine.execTxqPop q s
  | .launchTime p k => Sys2Proof.Machine.execLaunchTime p k s
  | .spRxTailWrite q tail stores => Sys2Proof.Machine.execSpRxTailWrite q tail stores s
  | .spTxTailWrite q tail stores => Sys2Proof.Machine.execSpTxTailWrite q tail stores s
  | .eventEdge n falling bin => Sys2Proof.Machine.execEventEdge n falling bin s
  | .batchTimeout n => Sys2Proof.Machine.execBatchTimeout n s
  | .tdcPop n => Sys2Proof.Machine.execTdcPop n s
  | .tdcMStart u => Sys2Proof.Machine.execTdcMStart u s
  | .tdcMAbort u => Sys2Proof.Machine.execTdcMAbort u s
  | .gateEnd u => Sys2Proof.Machine.execGateEnd u s
  | .markerArm n hi => Sys2Proof.Machine.execMarkerArm n hi s
  | .markerPlacement n => Sys2Proof.Machine.execMarkerPlacement n s
  | .recordPublish ix r => Sys2Proof.Machine.execRecordPublish ix r s
  | .ringEnable r => Sys2Proof.Machine.execRingEnable r s
  | .ringDisable r => Sys2Proof.Machine.execRingDisable r s
  | .hostRdWrite r hi => Sys2Proof.Machine.execHostRdWrite r hi s
  | .hostWrPublish r hi => Sys2Proof.Machine.execHostWrPublish r hi s
  | .mapEntryWrite hi => Sys2Proof.Machine.execMapEntryWrite hi s
  | .bar2Read a => Sys2Proof.Machine.execBar2Read a s
  | .bar2Write a v => Sys2Proof.Machine.execBar2Write a v s
  | .movStart m stores => Sys2Proof.Machine.execMovStart m stores s
  | .movStop m => Sys2Proof.Machine.execMovStop m s
  | .movReset m ran => Sys2Proof.Machine.execMovReset m ran s
  | .descriptorDone m fails => Sys2Proof.Machine.execDescriptorDone m fails s
  | .refresh slot => Sys2Proof.Machine.execRefresh slot s
  | .dramTempRead temps => Sys2Proof.Machine.execDramTempRead temps s
  | .selfRefreshEntry => Sys2Proof.Machine.execSelfRefreshEntry s
  | .selfRefreshExit => Sys2Proof.Machine.execSelfRefreshExit s
  | .scrubPassEnd corrected => Sys2Proof.Machine.execScrubPassEnd corrected s
  | .channelFreeze ch c => Sys2Proof.Machine.execChannelFreeze ch c s
  | .drcResume ch => Sys2Proof.Machine.execDrcResume ch s
  | .drcRetire ch => Sys2Proof.Machine.execDrcRetire ch s
  | .spareInService slot => Sys2Proof.Machine.execSpareInService slot s
  | .apply => Sys2Proof.Machine.execApply s
  | .preservingMarch ix gang lx => Sys2Proof.Machine.execPreservingMarch ix gang lx s
  | .marchEnd rows overflowed => Sys2Proof.Machine.execMarchEnd rows overflowed s
  | .pciLinkDown => Sys2Proof.Machine.execPciLinkDown s
  | .nvmScan present => Sys2Proof.Machine.execNvmScan present s
  | .scanRoundEnd => Sys2Proof.Machine.execScanRoundEnd s
  | .rootPortLinkUp n speed width => Sys2Proof.Machine.execRootPortLinkUp n speed width s
  | .rootPortLinkTimeout n => Sys2Proof.Machine.execRootPortLinkTimeout n s
  | .driveInitDone n ix => Sys2Proof.Machine.execDriveInitDone n ix s
  | .presenceLost n => Sys2Proof.Machine.execPresenceLost n s
  | .presenceArrival n => Sys2Proof.Machine.execPresenceArrival n s
  | .nvmeCompletion n ok data => Sys2Proof.Machine.execNvmeCompletion n ok data s
  | .nvmeTimeout n => Sys2Proof.Machine.execNvmeTimeout n s
  | .setFormat k => Sys2Proof.Machine.execSetFormat k s
  | .formatDone k => Sys2Proof.Machine.execFormatDone k s
  | .setRelease k => Sys2Proof.Machine.execSetRelease k s
  | .chunkWriteDone k o => Sys2Proof.Machine.execChunkWriteDone k o s
  | .strStart n => Sys2Proof.Machine.execStrStart n s
  | .strStop n => Sys2Proof.Machine.execStrStop n s
  | .transportClosed n => Sys2Proof.Machine.execTransportClosed n s
  | .strConsWrite n hi => Sys2Proof.Machine.execStrConsWrite n hi s
  | .subscribe q f => Sys2Proof.Machine.execSubscribe q f s
  | .renew q f => Sys2Proof.Machine.execRenew q f s
  | .unsubscribe q f => Sys2Proof.Machine.execUnsubscribe q f s
  | .ack q f => Sys2Proof.Machine.execAck q f s
  | .leaseLapse n => Sys2Proof.Machine.execLeaseLapse n s
  | .ethLinkChange q up => Sys2Proof.Machine.execEthLinkChange q up s
  | .stayLinkDown l g => Sys2Proof.Machine.execStayLinkDown l g s
  | .stayLinkUp l peer peerLink g => Sys2Proof.Machine.execStayLinkUp l peer peerLink g s
  | .styScan => Sys2Proof.Machine.execStyScan s
  | .discoveryEnd => Sys2Proof.Machine.execDiscoveryEnd s
  | .timeExchange => Sys2Proof.Machine.execTimeExchange s
  | .timeWord l bytes => Sys2Proof.Machine.execTimeWord l bytes s
  | .alignWord l bytes ps => Sys2Proof.Machine.execAlignWord l bytes ps s
  | .halyardWord l bytes => Sys2Proof.Machine.execHalyardWord l bytes s
  | .commandWord l bytes => Sys2Proof.Machine.execCommandWord l bytes s
  | .discoverWord l bytes => Sys2Proof.Machine.execDiscoverWord l bytes s
  | .creditWord l bytes => Sys2Proof.Machine.execCreditWord l bytes s
  | .slewEnd => Sys2Proof.Machine.execSlewEnd s
  | .gcmdArm => Sys2Proof.Machine.execGcmdArm s
  | .gcmdDisarm => Sys2Proof.Machine.execGcmdDisarm s
  | .gcmdSnapshot => Sys2Proof.Machine.execGcmdSnapshot s
  | .gcmdExecute => Sys2Proof.Machine.execGcmdExecute s
  | .bulkFrame l ok origin e ring piece ends => Sys2Proof.Machine.execBulkFrame l ok origin e ring piece ends s
  | .sheetCycle b => Sys2Proof.Machine.execSheetCycle b s
  | .sheetReply b frame => Sys2Proof.Machine.execSheetReply b frame s
  | .sheetReplyTimeout b => Sys2Proof.Machine.execSheetReplyTimeout b s
  | .shtScan b => Sys2Proof.Machine.execShtScan b s
  | .shtDirect b l => Sys2Proof.Machine.execShtDirect b l s
  | .densStart ix => Sys2Proof.Machine.execDensStart ix s
  | .densStop ix => Sys2Proof.Machine.execDensStop ix s
  | .densFrameEnd ix frames => Sys2Proof.Machine.execDensFrameEnd ix frames s
  | .renderPassEnd ix => Sys2Proof.Machine.execRenderPassEnd ix s
  | .vidEnable => Sys2Proof.Machine.execVidEnable s
  | .vidDisable => Sys2Proof.Machine.execVidDisable s
  | .linkTrainingEnd ok => Sys2Proof.Machine.execLinkTrainingEnd ok s
  | .hpdChange on => Sys2Proof.Machine.execHpdChange on s
  | .vblankStart => Sys2Proof.Machine.execVblankStart s
  | .lineMatch => Sys2Proof.Machine.execLineMatch s
  | .frameDone => Sys2Proof.Machine.execFrameDone s
  | .underrun l line x walk => Sys2Proof.Machine.execUnderrun l line x walk s
  | .flip l tag => Sys2Proof.Machine.execFlip l tag s
  | .auxGo v => Sys2Proof.Machine.execAuxGo v s
  | .auxDone reply data => Sys2Proof.Machine.execAuxDone reply data s
  | .pendingClear g v => Sys2Proof.Machine.execPendingClear g v s
  | .irqEnableWrite g v => Sys2Proof.Machine.execIrqEnableWrite g v s
  | .irqComplete g => Sys2Proof.Machine.execIrqComplete g s
  | .irqHoldoffEnd g => Sys2Proof.Machine.execIrqHoldoffEnd g s
  | .msixUnmask g => Sys2Proof.Machine.execMsixUnmask g s
  | .hkaEnable v => Sys2Proof.Machine.execHkaEnable v s
  | .conversionEnd code => Sys2Proof.Machine.execConversionEnd code s
  | .hkaResultRead => Sys2Proof.Machine.execHkaResultRead s
  | .powerValid => Sys2Proof.Machine.execPowerValid s
  | .wake => Sys2Proof.Machine.execWake s
  | .powerFail => Sys2Proof.Machine.execPowerFail s
  | .thermalTrip => Sys2Proof.Machine.execThermalTrip s
  | .startupStepEnd r => Sys2Proof.Machine.execStartupStepEnd r s
  | .pwrRun => Sys2Proof.Machine.execPwrRun s
  | .pwrIdle => Sys2Proof.Machine.execPwrIdle s
  | .pwrStandby => Sys2Proof.Machine.execPwrStandby s
  | .pwrResume r => Sys2Proof.Machine.execPwrResume r s
  | .firstReef byCurrent r => Sys2Proof.Machine.execFirstReef byCurrent r s
  | .secondReef r => Sys2Proof.Machine.execSecondReef r s
  | .reefHalt r => Sys2Proof.Machine.execReefHalt r s
  | .reefRelease r => Sys2Proof.Machine.execReefRelease r s
  | .shedPace r => Sys2Proof.Machine.execShedPace r s
  | .escalation r => Sys2Proof.Machine.execEscalation r s
  | .ageingMeasure dev => Sys2Proof.Machine.execAgeingMeasure dev s
  | .returnUnit => Sys2Proof.Machine.execReturnUnit s
  | .nvsWrite w v => Sys2Proof.Machine.execNvsWrite w v s
  | .enrolOwner k => Sys2Proof.Machine.execEnrolOwner k s
  | .setPolicy dev => Sys2Proof.Machine.execSetPolicy dev s
  | .lock => Sys2Proof.Machine.execLock s
  | .applyAuth => Sys2Proof.Machine.execApplyAuth s
  | .enrolSub k => Sys2Proof.Machine.execEnrolSub k s
  | .eraseSub k => Sys2Proof.Machine.execEraseSub k s
  | .standbySupplyUp => Sys2Proof.Machine.execStandbySupplyUp s
  | .standbySupplyLost => Sys2Proof.Machine.execStandbySupplyLost s
  | .hostLinkUp speed width enable mask masked => Sys2Proof.Machine.execHostLinkUp speed width enable mask masked s
  | .latchingRead off => Sys2Proof.Machine.execLatchingRead off s
  | .provisionalHeldOver1s n => Sys2Proof.Machine.execProvisionalHeldOver1s n s
  | .nvsWriteDone ok => Sys2Proof.Machine.execNvsWriteDone ok s
  | .tripCooledStart r => Sys2Proof.Machine.execTripCooledStart r s
  | .driveTempPoll temps => Sys2Proof.Machine.execDriveTempPoll temps s
  | .slowPathTransmitDone q => Sys2Proof.Machine.execSlowPathTransmitDone q s
  | .displayLinkLoss => Sys2Proof.Machine.execDisplayLinkLoss s
  | .hostReadInIdle off => Sys2Proof.Machine.execHostReadInIdle off s

end Sys2Proof.Machine
end

