-- ==== Sys2Proof/Safety.lean ====
section
/-! DEFINITION. What counts as a safe run of the block, and the words in which statements say that a command completes and what it
leaves alone. -/
namespace Sys2Proof

/-- A run of `k` steps is safe when it reaches a state: no command stopped the block. -/
def SafeRun (k : Nat) (s : Machine.State) : Prop := ∃ t, core.run k s = .next t

namespace Machine

/-- Registers that an interrupt event may move: the words of the interrupt groups (R441–R446) and the doorbell words of the frame cores (R221). -/
def irqReg (o : Nat) : Bool :=
  (decide (0x30100 ≤ o) && decide (o < 0x30900)) || (decide (0x430024 ≤ o) && decide (o < 0x800000) && decide ((o - 0x430024) % 0x40000 < 8))

/-- Command `i` completes in `s`: exec answers a next state, the waiting commands stay as they are, and the engine it leaves satisfies `P`. -/
def Completes (i : Instr) (s : State) (P : Dev → Prop) : Prop := ∃ t, exec i s = .next t ∧ t.pending = s.pending ∧ P t.dev

/-- Every register of `d` outside the offsets `w` and those an interrupt event may move reads the same in `e`. -/
def RegsKept (w : List Nat) (d e : Dev) : Prop := ∀ o, o ∉ w → irqReg o = false → e.reg o = d.reg o

/-- `e` differs from `d` in registers (with what they held at the clock's start), interrupt state and wires only: memory, counts, every unit's own
state stay. -/
def OnlyRegs (d e : Dev) : Prop := { e with regs := d.regs, regs0 := d.regs0, irq := d.irq, out := d.out } = d

/-- The inputs of `e` are those of `d`, but for what they remember of earlier record flags (R161). -/
def SameInputs (d e : Dev) : Prop := ∀ n, { e.input n with was := (d.input n).was } = d.input n
/-- `e` is `d` with nothing changed but the registers at the offsets `w` and what an interrupt event may move. -/
def Frame (w : List Nat) (d e : Dev) : Prop := RegsKept w d e ∧ OnlyRegs d e

/-- `e` is `d` but for records placed in the galley: registers and 64-bit values below the stores' blocks (offset 0x300000) that are outside
`w` and that no interrupt event moves read the same; beside registers, 64-bit values, interrupt state and wires only the galley's bytes,
rings, runs, cached map entries and free values moved. -/
def RecordsOnly (w : List Nat) (d e : Dev) : Prop :=
  (∀ o, o < 0x300000 → o ∉ w → irqReg o = false → e.reg o = d.reg o) ∧
  (∀ k, k < 0x300000 → k ∉ w → e.wide.get? k = d.wide.get? k) ∧
  { e with regs := d.regs, regs0 := d.regs0, wide := d.wide, mem := d.mem, rings := d.rings, runs := d.runs,
           dram := { e.dram with cached := d.dram.cached }, irq := d.irq, out := d.out, freeCtr := d.freeCtr } = d

/-- Source `s` of interrupt group `g` has its pending bit. -/
def Raised (d : Dev) (g s : Nat) : Prop := (d.rd F.IRQ_PENDING_PENDING g).testBit s = true

/-- The host value `v` that reached a target (an attenuator's input, a knob's offset) is noted for a cue commit of the same clock (R64, R70): of `d`'s notes
those of this clock stay. -/
def Noted (k v : Nat) (d e : Dev) : Prop :=
  e.cues = { d.cues with turns := (k, d.clk, some v) :: d.cues.turns.filter (fun x => x.2.1 == d.clk) }

/-- As `Frame`, and the host's write of `v` to knob `off` of section i is noted. -/
def KnobFrame (w : List Nat) (i off v : Nat) (d e : Dev) : Prop := Frame w d { e with cues := d.cues } ∧ Noted (knobAt i off) v d e
/-- The ring of the run of section i, where it has one, is one of the galley's (R318). -/
def Dev.runRing (d : Dev) (i : Nat) : Prop := ∀ u r, d.runs.get? i = some u → u.ring = some r → r < 1024

/-- What a host write of `v` leaves of a field that holds `o`, by the field's access code (R7): RW stores, W1C clears the bits written 1 but for those
set in the same clock (`fresh`, R8), W1S sets them, every other code ignores the write. -/
def written (acc : Access) (o v fresh : Nat) : Nat := match acc with
  | .rw => v
  | .w1c => (o - (o &&& v)) ||| (o &&& v &&& fresh)
  | .w1s => o ||| v
  | _ => o

/-- How `FMR_HAL_DRV` names a block's driver (R43): its kind and index. -/
def DriverSel.kind : DriverSel → Nat
  | .overrange _ => 2
  | .tdc _ => 3
  | .frameCore _ => 4
  | .stay => 5
/-- The index. -/
def DriverSel.index : DriverSel → Nat
  | .overrange n => n
  | .tdc n => n
  | .frameCore n => n
  | .stay => 0
/-- Registers beside the enable's own in which the block shows a conflict or answers. -/
def DriverSel.beside : DriverSel → List Nat
  | .overrange n => [F.CNV_STATUS_STATE.at_ n 0, F.CNV_STATUS_STATE.at_ (n + 1) 0]
  | .tdc n => [F.TDC_IN_STATUS_HAL_CONFLICT.at_ n 0]
  | .frameCore _ => []
  | .stay => [F.STY_STATUS_HAL_CONFLICT.at_ 0 0]

/-- The crystal's correction is the clamped sum of its three terms, the clamp shown (R116). -/
def CorrectionFormed (d : Dev) : Prop :=
  let t := d.clocks.tempTerm + d.rdInt F.XTL_AGE_AGE + d.rdInt F.XTL_TUNE_TUNE
  d.rdInt F.XTL_CORR_CORR = clampInt (-50000000) 50000000 t ∧
    d.rd F.XTL_STATUS_CLAMP = (if clampInt (-50000000) 50000000 t = t then 0 else 1)

/-- The registers that show a change of loop p's state (R127, R129, R130, R133): its own status and hold time, the sums, what inputs and LOs show, and for loop
27 the time base's bypass. -/
def loopRegs (p : Nat) : List Nat :=
  [F.CLK_PLL_STATUS_STATE.at_ p 0, F.CLK_PLL_HOLDTIME_US.at_ p 0, 0x40000, 0x40004, 0x40008] ++
    (List.range 8).map (fun n => F.CNV_STATUS_STATE.at_ n 0) ++ (List.range 4).map (fun i => F.CLK_LO_STATUS_PSTATE.at_ i 0) ++
    (if p = 27 then [F.TIM_STATUS_BYPASS.at_ 0 0] else [])

/-- Clocks that a host command of LO i waits behind a cue's command of the same clock (R137). -/
def Dev.loLate (d : Dev) (i : Nat) : Nat := if d.cueCame (16 + i) then 1 else 0
/-- Segment g of LO i is run (R135–R137): one that carries WAIT waits unless a STEP is latched, which it consumes; else END ends the profile, and a STEP or RAMP
makes it RUNNING. -/
def SegmentRuns (i g : Nat) (d e : Dev) : Prop :=
  let x := d.segment i g
  e.rd F.CLK_LO_STATUS_SEG i = g ∧
  (x.wait = true → d.rd F.CLK_LO_STATUS_STEP_LATCHED i = 0 → e.loState i = 2) ∧
  (x.wait = true → e.rd F.CLK_LO_STATUS_STEP_LATCHED i = 0) ∧
  (x.wait = false ∨ d.rd F.CLK_LO_STATUS_STEP_LATCHED i = 1 → (x.kind = 0xFF → e.loState i = 4 ∧ Raised e 1 30) ∧ (x.kind ≠ 0xFF → e.loState i = 1))

/-- No section has a run, a channel, a transform, a trace, a capture or a density display. -/
def Quiet (d : Dev) : Prop :=
  d.runs = Tab.empty ∧ d.chans = Tab.empty ∧ d.xfrms = Tab.empty ∧ d.rawcs = Tab.empty ∧ d.traces = Tab.empty ∧ d.denses = Tab.empty

/-- Every run, channel, transform, trace and density display has a source that goes on, and no capture takes units: nothing is due to end with its source
or to be written meanwhile (R89, R142, R253). -/
def Dev.fedAll (d : Dev) : Bool :=
  d.chans.cells.all (fun p => decide (8 ≤ p.2.input) || d.delivers p.2.input) && d.runs.cells.all (fun p => p.2.kind != .raw || d.delivers p.2.input) &&
  d.xfrms.cells.all (fun p => d.fed p.2.input p.2.chan) && d.rawcs.cells.isEmpty && d.traces.cells.all (fun p => d.xfrmRunning p.2.xfrm) && d.denses.cells.all (fun p => d.xfrmRunning p.2.xfrm)
/-- The same but for the capture of section i, whose source goes on and which has settled its losses. -/
def Dev.fedBut (d : Dev) (i : Nat) (w : Rawc) : Prop :=
  ({ d with rawcs := Tab.empty } : Dev).fedAll = true ∧ d.rawcs.cells = [(i, w)] ∧ (w.ended = true ∨ d.fed w.source w.feed = true) ∧
  ∀ u, d.runs.get? i = some u → d.rawcLost w u.next u.next = []
/-- The payload of a record handed to the run of section i, where it has the form of its product (R95, R157): a channel's units from the codes of their
spans, else raw samples. -/
def Dev.recordPayload (d : Dev) (i : Nat) (u : Run) (r : DataRecord) : Option (List Byte) :=
  if d.chanRunning i then
    if u.clear u.next (u.next + r.count) then (d.chanUnits i u.next r.count (d.chanCodes i u.next r.count r.samples)).map (fun us => us.flatMap (fun x => unitLe (d.chanBits i) x.1)) else none
  else if d.rawFits i u r then some (packRaw r.samples) else none
/-- No transform, trace or density display takes what section i's channel or transform delivers. -/
def Dev.unread (d : Dev) (i : Nat) : Bool :=
  d.xfrms.cells.all (fun p => p.2.input != 8 || p.2.chan != i) && d.traces.cells.all (fun p => p.2.xfrm != i) && d.denses.cells.all (fun p => p.2.xfrm != i)
/-- Section i, ACTIVE and of kind `k`, takes a write of `v` to its knob `off` at once (R63, R64): neither refused nor held. -/
def Dev.takes (d : Dev) (i k off v : Nat) : Bool :=
  d.activeKind i k && !(d.is F.FMR_SEC_STATE_KNOB_HOLD i) &&
  match d.knobRow i off with
  | none => false
  | some r => !r.readOnly && r.accepts v && !(r.lockedByRun && d.runActive i)
/-- Offsets of the knobs below 0x180 of section i, where the standard sections have their registers. -/
def knobRegs (i : Nat) : List Nat := (List.range 96).map (fun k => knobAt i (4 * k))
/-- Status code a standard section shows in its STATUS knob. -/
def Dev.secStatus (d : Dev) (i : Nat) : Nat := d.knobBits i 4 8 8

/-- The channel of section i has entered (or left) the high state (R156): counted, its event raised, its halyard driven where it drives one. -/
def Crossed (i : Nat) (enter : Bool) (d e : Dev) : Prop :=
  (e.chan i).high = enter ∧ e.knob i 0x80 = min (2 ^ 32 - 1) (d.knob i 0x80 + 1) ∧ (∀ k, k ≠ i → e.chans.get? k = d.chans.get? k) ∧
  Frame (knobAt i 0x80 :: (List.range 64).map (fun h => F.FMR_HAL_MERGE_COUNT.at_ h 0)) d { e with chans := d.chans, halyards := d.halyards } ∧
  (d.knobBits i 0x4C 1 1 = 0 → e.halyards = d.halyards)

/-- The engine as an instruction of core `c` finds it when it issues: due loop ends taken, results that arrive landed, its clock counted (R205, R211, R212). -/
def Dev.atIssue (d : Dev) (c : Nat) : Dev := ((d.setCore c Core.settleLoops).coreTick c).coreCycles c 1
/-- Core `c` issues an instruction with operation `op` now: RUNNING, no search or stall, a legal word that neither faults nor blocks. -/
def Dev.issues (d : Dev) (c op : Nat) : Bool :=
  let x := (d.setCore c Core.settleLoops).core c
  let w := x.word x.pc
  d.coreRunning c && x.search.isNone && x.stall.isNone && decide (x.pc < codeSize c) && !(illegalWord c w) && opOf w == op && (x.faultOf c w).isNone &&
    !(x.streamBlocked w)
/-- The word that issues, and its operands: data registers S1, S2 and D, the accumulator as other readers and as the MAC family see it. -/
def Dev.opWord (d : Dev) (c : Nat) : Nat := ((d.atIssue c).core c).word ((d.atIssue c).core c).pc
/-- Operand S1. -/
def Dev.s1 (d : Dev) (c : Nat) : Word := ((d.atIssue c).core c).r (fS1 (d.opWord c))
/-- Operand S2. -/
def Dev.s2 (d : Dev) (c : Nat) : Word := ((d.atIssue c).core c).r (fS2 (d.opWord c))
/-- Register D as it stands. -/
def Dev.sd (d : Dev) (c : Nat) : Word := ((d.atIssue c).core c).r (fD (d.opWord c))
/-- The accumulator for readers outside the MAC family. -/
def Dev.accIn (d : Dev) (c : Nat) : Int := ((d.atIssue c).core c).acc.getD (fAcc (d.opWord c)) 0
/-- The accumulator for the MAC family. -/
def Dev.macIn (d : Dev) (c : Nat) : Int := ((d.atIssue c).core c).accMac.getD (fAcc (d.opWord c)) 0
/-- No result bound for SR is in flight. -/
def SrQuiet (c : Nat) (d : Dev) : Prop := ∀ f ∈ ((d.atIssue c).core c).flight, f.dest ≠ .ctrl 0 ∧ f.dest ≠ .shift

/-- What an instruction that moves on leaves of its core and of the engine beside its own results, from `x` as it issued, its address registers
then `a`: the PC is the next, results in flight for data registers stay in flight, the memory slots have their effect and no other word of data memory
changed, and outside the core nothing moved. -/
def CoreStep (c : Nat) (d e : Dev) (a : Tab Nat) : Prop :=
  let x := (d.atIssue c).core c
  let y := e.core c
  let w := d.opWord c
  y.pc = (x.pc + 1) % 8192 ∧ y.a = a ∧ y.d = x.d ∧ y.imem = x.imem ∧ y.lr = x.lr ∧
  (∀ f ∈ x.flight, match f.dest with
    | .reg _ => f ∈ y.flight
    | _ => True) ∧
  (∀ k : Nat, (∀ m ∈ slotsOf w, m.kind = 2 → x.a.getD m.areg 0 ≠ k) → y.load k = x.load k) ∧
  (∀ m ∈ (slotsOf w).getLast?, m.kind = 2 → y.load (x.a.getD m.areg 0) = x.r m.dreg) ∧
  (∀ m ∈ slotsOf w, m.kind = 1 → (⟨3, .reg m.dreg, (x.load (x.a.getD m.areg 0)).toInt⟩ : Flight) ∈ y.flight ∨ ∃ n ∈ slotsOf w, n.kind = 2) ∧
  (∀ k : Nat, k ≠ c → e.cores.get? k = (d.atIssue c).cores.get? k) ∧
  { e with cores := (d.atIssue c).cores } = d.atIssue c
/-- The address registers after the update of format S. -/
def Dev.updated (d : Dev) (c : Nat) : Tab Nat := (((d.atIssue c).core c).update (d.opWord c)).a
/-- A register instruction: value `v` reaches register D after `left` issue slots (R205), and the rest is as `CoreStep` says. -/
def Issued (c : Nat) (d e : Dev) (left : Nat) (v : Int) : Prop :=
  (⟨left, .reg (fD (d.opWord c)), v⟩ : Flight) ∈ (e.core c).flight ∧ CoreStep c d e (d.updated c)
/-- SR.SAT is set when `b`, and kept otherwise; SR's other bits stay. -/
def Saturated (c : Nat) (d e : Dev) (b : Bool) : Prop :=
  SrQuiet c d → (e.core c).sr = if b then ((d.atIssue c).core c).sr ||| 0x8000 else ((d.atIssue c).core c).sr
/-- A MAC instruction (R199, R205): the accumulator becomes `v`, saturated at ±(2^71 − 1), for the next MAC instruction at once and for other readers after 4
slots. -/
def Accumulated (c : Nat) (d e : Dev) (v : Int) : Prop :=
  let k := fAcc (d.opWord c)
  let s := clampInt (-accMax) accMax v
  (e.core c).accMac.getD k 0 = s ∧ (⟨4, .acc k, s⟩ : Flight) ∈ (e.core c).flight ∧ CoreStep c d e (d.updated c) ∧ Saturated c d e (s != v)
/-- A branch is taken to `t` (R206, R211): 2 further clocks pass, and the loops whose body does not hold `t` end. -/
def Branched (c t : Nat) (d e : Dev) : Prop :=
  let x := (d.atIssue c).core c
  (e.core c).pc = t ∧ (e.core c).loops = dropLoops t x.loops ∧ (∀ k : Nat, k ≠ c → e.cores.get? k = (d.atIssue c).cores.get? k) ∧
  (x.flight = [] → (slotsOf (d.opWord c)).all (fun m => m.kind == 0) = true → (e.core c).d = x.d ∧ (e.core c).dmem = x.dmem ∧
    Frame (if isFrame c then [] else [F.CORE_T_CYCLES_COUNT.at_ (c - 16) 0]) (d.atIssue c) { e with cores := (d.atIssue c).cores, wide := (d.atIssue c).wide })
/-- A vector search begins (R209): its result is the extreme element and the lowest index that has it. -/
def Searches (c : Nat) (d e : Dev) (maxi : Bool) : Prop :=
  let x := (d.atIssue c).core c
  let w := d.opWord c
  let n := (d.s1 c).toNat % 65536
  let v (k : Nat) : Int := (if maxi then 1 else -1) * x.element (slotX w).areg ((fS2 w).testBit 0) k
  match (e.core c).search with
  | none => False
  | some r => r.dest = fD w ∧ r.index < (if n = 0 then 65536 else n) ∧ r.value = unsigned 32 (x.element (slotX w).areg ((fS2 w).testBit 0) r.index) ∧
      ∀ k, k < (if n = 0 then 65536 else n) → v k ≤ v r.index ∧ (k < r.index → v k < v r.index)

/-- The status registers of a core: STATE, CAUSE and CODE. -/
def coreStatusRegs (c : Nat) : List Nat := [(coreStateFld c).at_ (coreIx c) 0, (coreCodeFld c).at_ (coreIx c) 0, (coreCauseFld c).at_ (coreIx c) 0]
/-- Code a trigger unit or a raw capture shows in its STATUS knob. -/
def Dev.trigCodeOf (d : Dev) (i : Nat) : Nat := d.knobBits i 4 16 8
/-- Trigger unit i would take a decision of local time `t` now (R226, R231, R239, R240): ARMED, no decision before it, no hold-off running, room for a
pending capture, none pending under its occurrence, and no raw capture follows it. -/
def Dev.ready (d : Dev) (i t : Nat) : Prop :=
  d.activeKind i 4 = true ∧ d.trigState i = 1 ∧ (d.trig i).last = none ∧ d.knob i 0x6C = 0 ∧ (d.trig i).pending.length < 8 ∧ (∀ p ∈ (d.trig i).pending, p.occ ≠ (d.trig i).occ) ∧ d.rawcs = Tab.empty ∧
  d.localTime ≤ t + (d.knob i 0x20 + 1000) * 2 ^ 64
/-- Trigger unit i has taken a decision of local time `t` (R225, R226, R235–R240): the next occurrence, the decision's time and clock, its counts, and
its capture pending under Q_MODE 1 and 2, confirmed at once under 0 and 3. -/
def Decided (i t : Nat) (d e : Dev) : Prop :=
  (e.trig i).occ = ((d.trig i).occ + 1) % 2 ^ 26 ∧ (e.trig i).last = some (t, d.clk) ∧ e.knob i 0x84 = min (2 ^ 32 - 1) (d.knob i 0x84 + 1) ∧
  e.trigState i = (if d.knob i 0x78 = 0 then 3 else if d.holdoffOf i ≠ 0 then 2 else 1) ∧
  (d.knobBits i 0x5C 0 2 = 0 ∨ d.knobBits i 0x5C 0 2 = 3 → (e.trig i).pending = (d.trig i).pending ∧ e.knob i 0x88 = min (2 ^ 32 - 1) (d.knob i 0x88 + 1)) ∧
  (d.knobBits i 0x5C 0 2 = 2 → (e.trig i).pending.map (fun p => (p.occ, p.time, p.deadline)) =
    (d.trig i).pending.map (fun p => (p.occ, p.time, p.deadline)) ++ [((d.trig i).occ, t, d.clk + d.deadlineNs i)] ∧ e.knob i 0x88 = d.knob i 0x88) ∧
  Frame (knobRegs i ++ (List.range 64).map (fun h => F.FMR_HAL_MERGE_COUNT.at_ h 0)) d { e with trigs := d.trigs, halyards := d.halyards } ∧
  (d.knobBits i 0x7C 8 1 = 0 → d.knobBits i 0x80 8 1 = 0 → e.halyards = d.halyards)

/-- `e` with the clock, the local clock, the sample indices of `d` and what its clock began with: what passing time moves is set aside. -/
def Dev.atTime (e d : Dev) : Dev :=
  { e with clk := d.clk, localTime := d.localTime, inputs := d.inputs, regs0 := d.regs0, time := { e.time with lag := d.time.lag } }
/-- The registers that show cue entry `n`: its word 0x08 and its state, and the counts of `CUE_STATUS`. -/
def cueRegs (n : Nat) : List Nat := [F.CUE_ENTRY_WORD.at_ n 2, F.CUE_STATE_STATES.at_ (n / 8) 0, 0x80404]
/-- The registers of axis a. -/
def axisRegs (a : Nat) : List Nat := (List.range 16).map (fun k => 0x80100 + a * 64 + 4 * k)

/-- No replicator runs, and no record from another station waits for space (R409). -/
def Dev.replIdle (d : Dev) : Bool := d.stay.wait.isEmpty && (List.range 32).all (fun e => !(d.is F.STY_REPL_STAT_RUNNING e))
/-- Control word `b` of kind `k` arrives whole on link `l`, which is UP (R403). -/
def Dev.goodWord (d : Dev) (l k : Nat) (b : List Byte) : Bool := d.stayUp l && stayWordOk b && u b 0 1 == k
/-- It did not originate here and was not seen in the last 1 µs (R406). -/
def Dev.newWord (d : Dev) (b : List Byte) : Bool :=
  u b 1 1 != d.station_ && !(d.stay.seen.any (fun x => decide (d.clk ≤ x.2.2.2 + 1000) && x.1 == u b 1 1 && x.2.1 == u b 0 1 && x.2.2.1 == u b 4 4))

/-- Whether group g may deliver at clock `t` when a source is active (R445, R446): its hold-off has run out, and its target is a core, or the host with
MSI-X enabled (R447). -/
def Dev.mayDeliver (d : Dev) (g t : Nat) : Bool :=
  decide (d.irq.holdEnd.getD g 0 ≤ t) && (d.irq.msixEnable || d.rd F.IRQ_TARGET_TARGET g == 1 || d.rd F.IRQ_TARGET_TARGET g == 2)
/-- The doorbell word in which group g shows at its core, where it delivers to one (R221, R446). -/
def Dev.groupBell (d : Dev) (g : Nat) : List Nat :=
  if d.rd F.IRQ_TARGET_TARGET g = 1 ∨ d.rd F.IRQ_TARGET_TARGET g = 2 then [(if g < 32 then F.CORE_DB_LO_DB else F.CORE_DB_HI_DB).at_ (d.rd F.IRQ_TARGET_CORE g) 0] else []
/-- Group g delivered at clock `t` (R445–R447): outstanding, counted, its hold-off begun; its core's doorbell bit set; its message sent, or held while
its entry or the function is masked. -/
def Delivered (g t : Nat) (d e : Dev) : Prop :=
  e.rd F.IRQ_TARGET_OUTSTANDING g = 1 ∧ e.rd F.IRQ_DELIVERED_COUNT g = min (2 ^ 32 - 1) (d.rd F.IRQ_DELIVERED_COUNT g + 1) ∧
  e.irq = { d.irq with holdEnd := d.irq.holdEnd.put g (t + d.rd F.IRQ_HOLDOFF_US g * 1000), pba := e.irq.pba } ∧
  (∀ o ∈ d.groupBell g, (e.reg o) = d.reg o ||| BitVec.ofNat 32 (2 ^ (g % 32))) ∧
  (d.irq.msixEnable = false ∨ d.rd F.IRQ_TARGET_TARGET g = 1 → e.out = d.out ∧ e.irq.pba = d.irq.pba) ∧
  (d.irq.msixEnable = true → d.rd F.IRQ_TARGET_TARGET g ≠ 1 → d.irq.functionMask = true ∨ (d.irq.masked.get? g).isSome = true →
    e.out = d.out ∧ e.irq.pba = d.irq.pba.put g ()) ∧
  (d.irq.msixEnable = true → d.rd F.IRQ_TARGET_TARGET g ≠ 1 → d.irq.functionMask = false → d.irq.masked.get? g = none →
    e.out = d.out ++ [.msix g] ∧ e.irq.pba = d.irq.pba)
/-- Only the registers at the offsets `w` moved, no other word of the interrupt groups or the doorbells either. -/
def OnlyAt (w : List Nat) (d e : Dev) : Prop := (∀ o, o ∉ w → e.reg o = d.reg o) ∧ OnlyRegs d e

/-- The host runs a command in the RUN power state, where no access is dropped and none wakes the engine. -/
def InRun (s : State) : Prop := s.dev.pstate = 2

/-! ## Power, reefing and security (spec/18_power.md) -/

/-- The registers in which the reef comparators are reported: `PWR_STATUS`, `PWR_DIE_TEMP`, `PWR_I12N` (R463). -/
def meterRegs : List Nat := [0x10004, 0x10008, 0x1000C]
/-- A reading of the reef comparators is reported (R463): the temperature and the current, their peaks since power-up, the conditions that hold. -/
def Shows (r : PowerReading) (d e : Dev) : Prop :=
  e.rd F.PWR_DIE_TEMP_TEMP = unsigned 16 r.temp ∧ e.rd F.PWR_DIE_TEMP_MAX = unsigned 16 (max (d.rdInt F.PWR_DIE_TEMP_MAX) r.temp) ∧
  e.rd F.PWR_I12N_MA = min 65535 r.ma ∧ e.rd F.PWR_I12N_PEAK = max (d.rd F.PWR_I12N_PEAK) (min 65535 (r.ma / 2)) ∧
  e.rd F.PWR_STATUS_BY_TEMP = (if 1600 ≤ r.temp then 1 else 0) ∧ e.rd F.PWR_STATUS_BY_CURRENT = (if 25000 ≤ r.ma then 1 else 0)
/-- Registers beside the comparators' own that the shed of section i moves: the shed count, the section's state and the counts of states, its
halyard drivers, the march that it ends. -/
def shedRegs (i : Nat) : List Nat :=
  [0x10010, 0x100004, F.FMR_SEC_STATE_STATE.at_ i 0, 0x330004, 0x330008] ++ (List.range 64).map (fun h => F.FMR_HAL_DRV_KIND.at_ h 0)
/-- Shedding at a stage (R465): nothing when no section may be shed, else the first in order is SHED, counted and recorded. -/
def ShedsNext (stage : Nat) (d e : Dev) : Prop :=
  (d.shedOrder stage = [] → Frame (0x100004 :: meterRegs) d { e.atTime d with power := d.power }) ∧
  (∀ (i : Fin 128) (t : List Nat), d.shedOrder stage = i.val :: t → e.secState i = 4 ∧ e.rd F.PWR_SHED_LAST = i ∧
    e.rd F.PWR_SHED_COUNT = min 255 (d.rd F.PWR_SHED_COUNT + 1) ∧ Raised e 0 5 ∧ Raised e 7 6 ∧
    (d.secState i = 2 → d.kind i ≠ 4 → (∀ j : Fin 128, j ≠ i → e.secState j = d.secState j) ∧
      Frame (meterRegs ++ shedRegs i) d { e.atTime d with power := d.power, sections := d.sections, cues := d.cues, dram := d.dram }))
/-- A stage is entered at the clock of `e`, driven by the current or by a temperature (R464, R465): shown, its G0 source raised, the first section
that it may shed SHED. -/
def StageEntered (stage : Nat) (byCurrent : Bool) (limit : Nat) (r : PowerReading) (d e : Dev) : Prop :=
  e.reefStage = stage ∧ e.rd F.FMR_STATUS_REEF = 1 ∧ Raised e 0 stage ∧ Shows r d e ∧
  e.power = { d.power with reefSince := e.clk, byCurrent := byCurrent, limit := limit, paceClk := e.clk } ∧ ShedsNext stage d e
/-- Nothing is being calibrated, no cue is armed, and the governing reef order names sections of the forme (R46): where these hold, halt finds only what
the statement names. -/
def Dev.plainHalt (d : Dev) : Prop :=
  d.cal.job = none ∧ d.cal.suspended = [] ∧ d.cal.archive = [] ∧ d.cal.queue = [] ∧ d.cues.armed = Tab.empty ∧
  ∀ im, d.governing = some im → ∀ p ∈ im.reef, p.1 < 128 ∧ p.2 ≤ 3
/-- Halt (R464, R468): shown; frame cores STOPPED, inputs STOPPED with the switch back and a held attenuator setting released (R72), every section that is not ABSENT SHED, LO profiles IDLE and LO outputs muted. -/
def Halted (d e : Dev) : Prop :=
  e.reefStage = 3 ∧ e.rd F.FMR_STATUS_REEF = 1 ∧ e.rd F.FMR_STATUS_HALTED = 1 ∧ Raised e 0 3 ∧
  (Quiet d → d.trigs = Tab.empty → ∀ c : Fin 16, d.coreState c = 1 ∨ d.coreState c = 2 → e.coreState c = 5) ∧
  (∀ n : Fin 8, 1 ≤ d.cnvState n → d.cnvState n ≤ 3 → e.cnvState n = 0 ∧ e.rd F.CNV_STATUS_TONE n = 0 ∧ (e.input n).heldAtten = none) ∧
  (∀ i : Fin 128, 1 ≤ d.secState i → d.secState i ≤ 4 → e.secState i = 4) ∧ (∀ i : Fin 128, d.secState i = 0 → e.secState i = 0) ∧
  (∀ i : Fin 4, (e.loState i = 0 ∨ e.loState i = 4) ∧ e.rd F.CLK_LO_STATUS_MUTED i = 1)

/-- What STANDBY retained is interrupt words only (R449). -/
def Dev.retainedOk (d : Dev) : Prop := ∀ p ∈ d.irq.retained, 0x30100 ≤ p.1 ∧ p.1 < 0x30900
/-- The start-up sequence began (R449, R461): PSTATE STARTING before its first step, no STANDBY command and no trip in force, the stored hours read back,
the retained interrupt words back in their registers. -/
def StartedUp (d e : Dev) : Prop :=
  e.pstate = 1 ∧ e.irq.retained = [] ∧
  e.power = { d.power with standbyCmd := false, tripWait := false, startWait := false, step := if d.rd F.SYS_STATUS_STBY_UP = 1 then 1 else 0 } ∧
  (∀ k : Fin 8, e.rd F.PWR_HOURS_HOURS k = leNat (d.nvs.bytes (hoursAt + 4 * k) 4)) ∧
  (∀ (g : Fin 40) (w : Word), (d.irq.retained.map (·.1)).Nodup →
    ((F.IRQ_PENDING_PENDING.at_ g 0, w) ∈ d.irq.retained → e.reg (F.IRQ_PENDING_PENDING.at_ g 0) = w) ∧
    ((F.IRQ_ENABLE_ENABLE.at_ g 0, w) ∈ d.irq.retained → e.reg (F.IRQ_ENABLE_ENABLE.at_ g 0) = w) ∧
    ((F.IRQ_HOLDOFF_US.at_ g 0, w) ∈ d.irq.retained → e.reg (F.IRQ_HOLDOFF_US.at_ g 0) = w)) ∧
  Frame (8 :: (List.range 8).map (fun k => F.PWR_HOURS_HOURS.at_ k 0)) d { e with power := d.power }
/-- Registers that entering STANDBY itself forms: `SYS_STATUS`, `TIM_STATUS`, the rate in force, and those of loop 28. -/
def standbyRegs : List Nat := [8, 0x50004, 0x50020, 0x50024] ++ loopRegs 28
/-- STANDBY was entered (R449, R457, R459): PSTATE STANDBY, PERST# of every drive and PGOOD low, REF OUT off (R121, R486), interrupt state retained, crystal ageing and hours stored, the standby domain's
registers and its own state kept, every other register at its reset value and nothing left in the galley and the fabric. -/
def StandbyEntered (d e : Dev) : Prop :=
  e.pstate = 0 ∧ e.clocks.refOut = false ∧
  e.out = d.out ++ ((List.range 16).filter (fun n => !(d.perstLow n))).map (fun n => .perst n true) ++ .pgood false :: (if d.clocks.refOut then [.refOut false] else []) ∧ e.irq = { Dev.reset.irq with retained := d.irqSave } ∧
  (∀ k : Fin 8, e.nvs.bytes (hoursAt + 4 * k) 4 = leBytes 4 (d.rd F.PWR_HOURS_HOURS k)) ∧
  e.nvs.bytes 0x50000 8 = leBytes 4 (d.rd F.XTL_AGE_AGE) ++ leBytes 4 (d.rd F.XTL_AGE_RATE_RATE) ∧
  (∀ a, (a < 0x50000 ∨ 0x50008 ≤ a) → (a < hoursAt ∨ hoursAt + 32 ≤ a) → e.nvs.byte a = d.nvs.byte a) ∧
  e.localTime = d.localTime ∧ e.sec = d.sec ∧ e.repair = d.repair ∧ e.hostMem = d.hostMem ∧ e.rd F.SYS_STATUS_STBY_UP = d.rd F.SYS_STATUS_STBY_UP ∧
  e.rd F.TIM_STATUS_EPOCH = d.rd F.TIM_STATUS_EPOCH ∧
  (∀ o, standbyKeeps o = true → o ∉ standbyRegs → e.reg o = d.reg o) ∧ (∀ o, standbyKeeps o = false → o ∉ standbyRegs → e.reg o = resetWord o) ∧
  e.mem = Mem.empty ∧ e.rings = Tab.empty ∧ e.sections = Tab.empty ∧ e.runs = Tab.empty ∧ e.slots = Tab.empty ∧ e.loads = [] ∧ e.cores = Tab.empty ∧
  e.cues = Dev.reset.cues ∧ e.links = Dev.reset.links ∧ e.sheets = Tab.empty ∧ e.vid = Dev.reset.vid ∧ e.stay = Dev.reset.stay ∧ e.wide = Tab.empty

/-- What is wrong with an authorization block (R480): its signature, its counter, its other fields, the last key. -/
def Dev.authSigned (d : Dev) (b : List Byte) : Prop := signatureForm (sub b 0x80 256) = true ∧ (d.signer (sub b 0x80 256) (sub b 0 0x80)).isSome = true
/-- Its fields other than the counter. -/
def Dev.authFields (d : Dev) (b : List Byte) : Prop :=
  u b 0 4 = 0x5541584C ∧ 1 ≤ u b 4 1 ∧ u b 4 1 ≤ 3 ∧ u b 5 1 ≤ 3 ∧ u b 6 1 ≤ 1 ∧ u b 7 1 = 0 ∧
  u b 0x10 8 = d.rd F.SYS_SERIAL_SERIAL 0 + d.rd F.SYS_SERIAL_SERIAL 1 * 2 ^ 32 ∧ u b 0x48 56 = 0 ∧ (u b 4 1 = 2 → (d.sec.owners.get? (u b 5 1)).isSome = true)
/-- The block revokes the one key that is enrolled. -/
def Dev.authLastKey (d : Dev) (b : List Byte) : Prop := u b 4 1 = 2 ∧ d.sec.owners.cells.length = 1
/-- A security command is refused with a code (R479, R480): counted, nothing else changed. -/
def SecRefused (code source : Nat) (d e : Dev) : Prop :=
  e.rd F.SEC_STATE_CODE = code ∧ e.rd F.SEC_FAIL_COUNT = min (2 ^ 32 - 1) (d.rd F.SEC_FAIL_COUNT + 1) ∧ Raised e 38 source ∧ Frame [0x24000, 0x2409C] d e
/-- A security command is done (R479–R481), its security state `x`, and shown: OWNED, the policy (1 in UNOWNED), the enrolled slots of both kinds, the counter. -/
def SecDone (source : Nat) (x : Security) (w : List Nat) (d e : Dev) : Prop :=
  e.sec = x ∧ e.rd F.SEC_STATE_CODE = 0 ∧ Raised e 38 source ∧ e.rd F.SEC_STATE_OWNED = (if x.owned then 1 else 0) ∧
  e.rd F.SEC_STATE_DEV = (if x.owned = true ∧ x.dev = false then 0 else 1) ∧
  (∀ k : Fin 4, (e.rd F.SEC_STATE_KEYS).testBit k = (x.owners.get? k).isSome) ∧
  (∀ k : Fin 64, (e.rd F.SEC_SUBKEY_EN_EN (k / 32)).testBit (k % 32) = (x.wrapped.get? k).isSome) ∧ e.rd F.SEC_AUTH_CTR_CTR = x.counter % 2 ^ 32 ∧
  Frame ([0x24000, 0x24090, 0x24094, 0x24098] ++ w) d { e with sec := d.sec }

/-- What the power and security rules promise of every state: a start that waits for the die to cool waits after a trip, with both supplies valid and no
STANDBY command in force (R457, R469); what STANDBY retained is interrupt words only (R449); an OWNED engine has an owner key enrolled (R479, R480). -/
def Dev.Inv (d : Dev) : Prop :=
  d.retainedOk ∧
  (d.power.startWait = true → d.power.tripWait = true ∧ d.power.v12 = true ∧ d.power.v33 = true ∧ d.power.standbyCmd = false) ∧
  (d.sec.owned = true → d.sec.owners ≠ Tab.empty)

end Machine

end Sys2Proof
end

