-- ==== Sys2Proof/Certificates/Slice0/Obligations.lean ====
section
/-! DEFINITION. The statements for the provers. Each says of commands that they complete, what they leave in the registers and in the engine's own
state, and what they leave alone; the rules of spec/ it rests on stand in its docstring. -/
open Sys2Proof Sys2Proof.Machine

/-! ## Commands, registers and the bus (spec/00_scope.md, spec/18_power.md) -/

/-- The command at the front of the queue is carried out on the state with the queue's rest. -/
def Obligations.StepRunsTheFrontCommand : Prop :=
  ∀ (c : Instr) (s : State) (rest : List Instr), s.pending = c :: rest → step s = exec c { s with pending := rest }

/-- With no command waiting one composing clock passes (the model's choice, log entry 15): the clock count goes up by one, every input's sample
index by the samples of one clock (R19), the local clock by one cycle at the rate in force, or, while the time base runs on the crystal, by the cycles of
a crystal cycle at its end (R129, R284); what was set before is no longer of the present clock (R8), and nothing else moves. -/
def Obligations.AnIdleStepLetsOneClockPass : Prop :=
  ∀ s : State, s.pending = [] → ∃ t, step s = .next t ∧ t.pending = [] ∧ t.dev.clk = s.dev.clk + 1 ∧
    t.dev.time.lag = (if s.dev.onCrystal then min (s.dev.time.lag + 1) ((s.dev.clk + 1) % 10) else 0) ∧
    (t.dev.localTime : Int) = ((s.dev.localTime : Int) + ((s.dev.time.lag : Int) + 1 - t.dev.time.lag) * s.dev.cycle) % localWrap ∧
    (s.dev.onCrystal = false → s.dev.time.lag = 0 → (t.dev.localTime : Int) = ((s.dev.localTime : Int) + s.dev.cycle) % localWrap) ∧
    (∀ o, t.dev.freshBits o = 0) ∧
    (∀ n, n < 8 → (t.dev.input n).idx = ((s.dev.input n).idx + (if s.dev.is F.CNV_STATUS_PAIRED n ∧ n % 2 = 0 then 32 else 16)) % 2 ^ 64) ∧
    t.dev.atTime s.dev = s.dev

/-- From every state and for every number of steps the block reaches a state: no command stops it, and a run as long as the queue has carried out
every waiting command, first in, first out. -/
def Obligations.TheBlockNeverStopsAndDrainsItsQueue : Prop :=
  (∀ (k : Nat) (s : State), SafeRun k s) ∧
  (∀ (s : State) (k : Nat), k ≤ s.pending.length → ∃ t, core.run k s = .next t ∧ t.pending = s.pending.drop k) ∧
  (∀ (c : Instr) (s : State), ∃ t, exec c s = .next t ∧ t.pending = s.pending)

/-- The access codes (R7) decide what a host write leaves of each field, a bit set in the same clock staying set (R8); bits outside every field keep their
value (R5). The fields of every row of the register table lie in 32 bits and do not overlap. -/
def Obligations.AWriteFollowsTheAccessCodes : Prop :=
  (∀ p ∈ regPieces, ∀ r ∈ p, (∀ f ∈ r.fields, f.lo ≤ f.hi ∧ f.hi < 32) ∧ r.fields.Pairwise (fun f g => f.hi < g.lo ∨ g.hi < f.lo)) ∧
  (∀ fs : List FieldRow, (∀ f ∈ fs, f.lo ≤ f.hi ∧ f.hi < 32) → fs.Pairwise (fun f g => f.hi < g.lo ∨ g.hi < f.lo) → ∀ old new fresh : Word,
    (∀ f ∈ fs, (mergeFields old new fresh fs).field f.lo (f.hi - f.lo + 1) =
      written f.acc (old.field f.lo (f.hi - f.lo + 1)) (new.field f.lo (f.hi - f.lo + 1)) (fresh.field f.lo (f.hi - f.lo + 1))) ∧
    (∀ b, b < 32 → (∀ f ∈ fs, b < f.lo ∨ f.hi < b) → (mergeFields old new fresh fs).getLsbD b = old.getLsbD b))

/-- Host writes (R4, R6, R7, R8, R483): of a register that has no command of its own, of one no chapter assigns, narrower than 32 bits, and of 64 bits,
which is two of 32 bits, the lower offset first. Each of these commands completes from every state, a host command in RUN, and the first clause gives the state it leaves: registerWrite,
narrowWrite, access64bit. -/
def Obligations.HostWritesComplete : Prop :=
  (∀ s : State,
    (∀ (off : BitVec 26) (v : Word), exec (.registerWrite off v) s = .next { s with dev := s.dev.busWrite (wordOff off) v }) ∧
    (∀ (isWrite : Bool) (off : BitVec 26) (v : BitVec 64), exec (.access64bit isWrite off v) s = .next { s with dev := s.dev.wideAccess isWrite (wordOff off) v }) ∧
    (InRun s →
      (∀ (off : BitVec 26), exec (.narrowWrite off) s = .next { s with dev := s.dev.narrowWrite off.toNat }))) ∧
  ∀ s : State, InRun s →
  (∀ (v : Word) (off : BitVec 26), off ∈ [0x10#26, 0x20000#26, 0x2000C#26, 0x30110#26, 0x40004#26, 0xC0040#26, 0xC3040#26, 0x300020#26] →
    Completes (.registerWrite off v) s (fun e =>
      (∃ r, rowOf off.toNat = some r ∧ ∀ f ∈ r.fields, (e.reg off.toNat).field f.lo (f.hi - f.lo + 1) =
        written f.acc ((s.dev.reg off.toNat).field f.lo (f.hi - f.lo + 1)) (v.field f.lo (f.hi - f.lo + 1)) ((s.dev.freshBits off.toNat).field f.lo (f.hi - f.lo + 1))) ∧
      Frame [off.toNat] s.dev e)) ∧
  (∀ (v : Word) (off : BitVec 26), 0x2000000 ≤ off.toNat ∨ off.toNat = 0x50 ∨ off.toNat = 0x10024 ∨ off.toNat = 0x390200 →
    Completes (.registerWrite off v) s (fun e => e = s.dev)) ∧
  (∀ off : BitVec 26, Completes (.narrowWrite off) s (fun e =>
    e.rd F.SYS_ACCESS_ERR_COUNT = min (2 ^ 32 - 1) (s.dev.rd F.SYS_ACCESS_ERR_COUNT + 1) ∧ e.rd F.SYS_ACCESS_ADDR_VALID = 1 ∧
    e.rd F.SYS_ACCESS_ADDR_OFFSET = (if s.dev.rd F.SYS_ACCESS_ADDR_VALID = 1 then s.dev.rd F.SYS_ACCESS_ADDR_OFFSET else off.toNat) ∧
    Raised e 0 7 ∧ Frame [0xC, 0x10] s.dev e)) ∧
  (∀ v : BitVec 64, Completes (.access64bit true 0x2000C#26 v) s (fun e =>
    e.reg 0x2000C = v.setWidth 32 ∧ e.reg 0x20010 = (v >>> 32).setWidth 32 ∧ Frame [0x2000C, 0x20010] s.dev e)) ∧
  (∀ (off : BitVec 26) (v : BitVec 64), Completes (.access64bit true off v) s (fun e => ∃ t, exec (.registerWrite off (v.setWidth 32)) s = .next t ∧
    Completes (.registerWrite (off + 4#26) ((v >>> 32).setWidth 32)) t (fun u => u = e)))

/-- Host reads (R4–R8, R286, R458): read-clear fields read the value the clock began with and keep what the clock added; a LO word latches its HI word, so
that a read of both answers one value of the live quantity; a 64-bit read is two reads, the lower offset first; a read outside the blocks that may be
reached in IDLE wakes the engine. Each of these commands completes from every state, and the first clause gives the state it leaves: readClear, latchingRead, hostReadInIdle. -/
def Obligations.HostReadsComplete : Prop :=
  (∀ s : State,
    (∀ (off : BitVec 26), exec (.readClear off) s = .next { s with dev := s.dev.busRead (wordOff off) }) ∧
    (∀ (off : BitVec 26), exec (.latchingRead off) s = .next { s with dev := s.dev.busRead (wordOff off) }) ∧
    (∀ (off : BitVec 26), exec (.hostReadInIdle off) s = .next { s with dev := s.dev.busRead (wordOff off) })) ∧
  ∀ s : State,
  (∀ off : BitVec 26, InRun s → off ∈ [0xC#26, 0x14#26, 0x2409C#26, 0x28008#26, 0x3800C#26, 0x40118#26, 0x80418#26, 0xC001C#26, 0x300008#26] →
    Completes (.readClear off) s (fun e => e.readData = (s.dev.reg0 off.toNat).toNat ∧ (e.reg off.toNat).toNat = (s.dev.reg off.toNat).toNat - (s.dev.reg0 off.toNat).toNat ∧
      Frame [off.toNat] s.dev { e with readData := s.dev.readData })) ∧
  (∀ p ∈ [(F.IRQ_DELIVERED_COUNT, 64), (F.CLK_PLL_UNLOCKS_COUNT, 29), (F.CNV_OVR_COUNT_COUNT, 8), (F.TDC_IN_LOST_COUNT, 20), (F.GAL_RING_CNT_OVF_OVF_UNITS, 1024),
      (F.DRC_CH_CE_COUNT, 68), (F.CORE_STALLS_COUNT, 16)], ∀ n, n < p.2 → InRun s → Completes (.readClear (BitVec.ofNat 26 (p.1.at_ n 0))) s (fun e =>
    e.readData = (s.dev.reg0 (p.1.at_ n 0)).toNat ∧ (e.reg (p.1.at_ n 0)).toNat = (s.dev.reg (p.1.at_ n 0)).toNat - (s.dev.reg0 (p.1.at_ n 0)).toNat ∧
    Frame [p.1.at_ n 0] s.dev { e with readData := s.dev.readData })) ∧
  (∀ (off : BitVec 26) (v : BitVec 64), s.dev.pstate ≠ 0 → Completes (.access64bit false off v) s (fun e => ∃ t u, exec (.latchingRead off) s = .next t ∧
    exec (.latchingRead (off + 4#26)) t = .next u ∧ e = { u.dev with readData := t.dev.readData + u.dev.readData * 2 ^ 32 })) ∧
  (∀ n : Fin 8, InRun s → Completes (.latchingRead (BitVec.ofNat 26 (F.CNV_START_IDX_LO_IDX.at_ n 0))) s (fun e =>
    e.readData = s.dev.wideAt F.CNV_START_IDX_LO_IDX n % 2 ^ 32 ∧
    (e.reg (F.CNV_START_IDX_LO_IDX.at_ n 0 + 4)).toNat = s.dev.wideAt F.CNV_START_IDX_LO_IDX n / 2 ^ 32 % 2 ^ 32 ∧
    Frame [F.CNV_START_IDX_LO_IDX.at_ n 0 + 4] s.dev { e with readData := s.dev.readData })) ∧
  (∀ n : Fin 8, InRun s → s.dev.wideAt F.CNV_START_IDX_LO_IDX n < 2 ^ 64 →
    Completes (.access64bit false (BitVec.ofNat 26 (F.CNV_START_IDX_LO_IDX.at_ n 0)) 0) s (fun e =>
      e.readData = s.dev.wideAt F.CNV_START_IDX_LO_IDX n ∧
      Frame [F.CNV_START_IDX_LO_IDX.at_ n 0 + 4] s.dev { e with readData := s.dev.readData })) ∧
  (s.dev.pstate = 3 → Completes (.hostReadInIdle 0xC0040#26) s (fun e =>
    e.pstate = 2 ∧ e.rd F.DRC_STATUS_SELFREF = 0 ∧ Raised e 0 13 ∧ e.readData = (s.dev.reg 0xC0040).toNat ∧
    Frame [8, F.DRC_STATUS_SELFREF.at_ 0 0] s.dev { e with readData := s.dev.readData })) ∧
  (s.dev.pstate = 3 → Completes (.hostReadInIdle 0#26) s (fun e =>
    e.pstate = 3 ∧ e.readData = (s.dev.reg 0).toNat ∧ Frame [] s.dev { e with readData := s.dev.readData }))

/-! ## Images and sections (spec/02_formes.md) -/

/-- `FMR_IMG_CMD` and `FMR_CTRL` (R54, R55, R497): VERIFY notes the image, locks its pages and sets VERIFYING; a verification that finds the image good
leaves VERIFIED, its sections, key and identifier, and raises G7 source k; one that finds a fault leaves FAILED with the code of the first failing check and raises G7
sources k and 2; RELEASE of a slot nothing uses empties it. Each of these commands completes from every state, a host command in RUN, and the first clause gives the state it leaves: verify,
verifyEnd, imageRelease, governWrite. -/
def Obligations.ImageCommandsComplete : Prop :=
  (∀ s : State,
    (∀ (k : Fin 2), exec (.verifyEnd k) s = .next { s with dev := s.dev.verifyEnd k }) ∧
    (InRun s →
      (∀ (k : Fin 2), exec (.verify k) s = .next { s with dev := s.dev.verify k }) ∧
      (∀ (k : Fin 2), exec (.imageRelease k) s = .next { s with dev := s.dev.imageRelease k }) ∧
      (∀ (k : Fin 2), exec (.governWrite k) s = .next { s with dev := s.dev.governWrite k }))) ∧
  ∀ (s : State) (k : Fin 2),
  (InRun s → s.dev.rd F.FMR_IMG_STATUS_STATE k = 0 ∨ s.dev.rd F.FMR_IMG_STATUS_STATE k = 3 → Completes (.verify k) s (fun e =>
    e.rd F.FMR_IMG_STATUS_STATE k = 1 ∧ e.rd F.FMR_IMG_STATUS_CODE k = 0 ∧ (e.slot k).image = none ∧ (e.slot k).since = s.dev.clk ∧
    (e.slot k).ring = s.dev.rd F.FMR_IMG_RING_RING k ∧
    (e.slot k).offset = s.dev.rd F.FMR_IMG_OFFSET_LO_OFFSET_LO k + s.dev.rd F.FMR_IMG_OFFSET_HI_OFFSET_HI k * 2 ^ 32 ∧
    (e.slot k).length = min (leNat (s.dev.ringBytes (e.slot k).ring ((e.slot k).offset + 0x10) 8)) (s.dev.ringSize (e.slot k).ring) ∧
    (e.slot k).locked = s.dev.imagePages (e.slot k).ring (e.slot k).offset (e.slot k).length ∧
    (∀ j, j ≠ k.val → e.slots.get? j = s.dev.slots.get? j) ∧
    Frame [F.FMR_IMG_STATUS_STATE.at_ k 0] s.dev { e with slots := s.dev.slots })) ∧
  (InRun s → s.dev.rd F.FMR_IMG_STATUS_STATE k = 1 ∨ s.dev.rd F.FMR_IMG_STATUS_STATE k = 2 → Completes (.verify k) s (fun e =>
    e.rd F.FMR_IMG_STATUS_CODE k = codeBusy ∧ e.rd F.FMR_IMG_STATUS_STATE k = s.dev.rd F.FMR_IMG_STATUS_STATE k ∧
    Frame [F.FMR_IMG_STATUS_STATE.at_ k 0] s.dev e)) ∧
  (∀ v : Verified, s.dev.rd F.FMR_IMG_STATUS_STATE k = 1 → (s.dev.slot k).locked.all (fun x => (s.dev.walkCause x).isNone) = true →
    s.dev.verifyImage (s.dev.ringBytes (s.dev.slot k).ring (s.dev.slot k).offset (s.dev.slot k).length) = .ok v → Completes (.verifyEnd k) s (fun e =>
    e.rd F.FMR_IMG_STATUS_STATE k = 2 ∧ e.rd F.FMR_IMG_STATUS_CODE k = 0 ∧ e.rd F.FMR_IMG_STATUS_SIGNED k = (if v.signed_ then 1 else 0) ∧
    e.rd F.FMR_IMG_SECTIONS_SECTIONS k = v.image.sections.length % 256 ∧ (e.slot k).image = some v.image ∧ Raised e 7 k ∧
    e.clk = max s.dev.clk ((s.dev.slot k).since + ((s.dev.slot k).length + 3) / 4) ∧
    OnlyRegs s.dev { e.atTime s.dev with slots := s.dev.slots })) ∧
  (∀ c : Nat, s.dev.rd F.FMR_IMG_STATUS_STATE k = 1 → (s.dev.slot k).locked.all (fun x => (s.dev.walkCause x).isNone) = true →
    s.dev.verifyImage (s.dev.ringBytes (s.dev.slot k).ring (s.dev.slot k).offset (s.dev.slot k).length) = .error c → Completes (.verifyEnd k) s (fun e =>
    e.rd F.FMR_IMG_STATUS_STATE k = 3 ∧ e.rd F.FMR_IMG_STATUS_CODE k = c % 256 ∧ e.slots = s.dev.slots ∧ Raised e 7 k ∧ Raised e 7 2 ∧
    Frame [F.FMR_IMG_STATUS_STATE.at_ k 0] s.dev (e.atTime s.dev))) ∧
  (InRun s → s.dev.rd F.FMR_IMG_STATUS_STATE k = 0 ∨ s.dev.rd F.FMR_IMG_STATUS_STATE k = 3 ∨
      (s.dev.rd F.FMR_IMG_STATUS_STATE k = 2 ∧ ∀ i, i < 128 → s.dev.secState i = 0) → Completes (.imageRelease k) s (fun e =>
    e.rd F.FMR_IMG_STATUS_STATE k = 0 ∧ e.rd F.FMR_IMG_STATUS_CODE k = 0 ∧ e.slots.get? k = none ∧
    (∀ j, j ≠ k.val → e.slots.get? j = s.dev.slots.get? j) ∧
    Frame [F.FMR_IMG_STATUS_STATE.at_ k 0] s.dev { e with slots := s.dev.slots })) ∧
  (InRun s → Completes (.governWrite k) s (fun e => e.rd F.FMR_CTRL_GOVERN = k ∧ Frame [F.FMR_CTRL_GOVERN.at_ 0 0] s.dev e))

/-- LOAD (R59, R61): a section of a VERIFIED image that is ABSENT becomes LOADING at the end of the load queue with code OK, and its load begins at once
when no other waits; SUPERSEDE abandons the load that runs or waits and queues the new one; the queue's head begins; a load whose checks pass leaves the
section ACTIVE with the image's description, the done bit and the time it took, and one that fails leaves it ABSENT with the check's code (R66). The knob map
of an accepted load holds from then on (R55, R63). Each of these commands completes from every state, a host command in RUN, and the first clause gives the state it leaves: load,
loadSupersede, queuedLoadStart, loadComplete. -/
def Obligations.LoadCommandsComplete : Prop :=
  (∀ s : State,
    exec .queuedLoadStart s = .next { s with dev := s.dev.kickLoad } ∧
    exec .loadComplete s = .next { s with dev := s.dev.loadComplete } ∧
    (InRun s →
      (∀ (i : Fin 128) (k : Fin 2), exec (.load i k) s = .next { s with dev := s.dev.secLoad i k false }) ∧
      (∀ (i : Fin 128) (k : Fin 2), exec (.loadSupersede i k) s = .next { s with dev := s.dev.secLoad i k true }))) ∧
  ∀ (s : State) (i : Fin 128) (k : Fin 2) (x : SectionDesc),
  (InRun s → s.dev.rd F.PWR_STATUS_REEF = 0 → s.dev.rd F.FMR_IMG_STATUS_STATE k = 2 →
      (s.dev.slot k).image.bind (fun im => im.sections.find? (·.index == i.val)) = some x → s.dev.secState i = 0 →
    Completes (.load i k) s (fun e => e.secState i = 1 ∧ e.rd F.FMR_SEC_STATE_SLOT i = k ∧ e.rd F.FMR_SEC_STATE_CODE i = 0 ∧
      e.loads.map (fun l => (l.sec, l.slot)) = s.dev.loads.map (fun l => (l.sec, l.slot)) ++ [(i.val, k.val)] ∧
      (s.dev.loads = [] → e.loads = [⟨i, k, s.dev.clk + 1⟩]) ∧ e.maps.get? i = some (x.kind, x.knobs) ∧
      (∀ j, j ≠ i.val → e.maps.get? j = s.dev.maps.get? j) ∧
      Frame [F.FMR_SEC_STATE_STATE.at_ i 0, F.FMR_STATUS_ACTIVE.at_ 0 0] s.dev { e with loads := s.dev.loads, maps := s.dev.maps })) ∧
  (InRun s → s.dev.rd F.PWR_STATUS_REEF = 0 → s.dev.rd F.FMR_IMG_STATUS_STATE k ≠ 2 →
    Completes (.load i k) s (fun e => e.rd F.FMR_SEC_STATE_CODE i = codeNotVerified ∧ e.secState i = s.dev.secState i ∧
      Frame [F.FMR_SEC_STATE_STATE.at_ i 0] s.dev e)) ∧
  (InRun s → s.dev.rd F.PWR_STATUS_REEF = 0 → s.dev.rd F.FMR_IMG_STATUS_STATE k = 2 →
      (s.dev.slot k).image.bind (fun im => im.sections.find? (·.index == i.val)) = some x → s.dev.secState i = 1 →
    Completes (.loadSupersede i k) s (fun e => e.secState i = 1 ∧ e.rd F.FMR_SEC_STATE_SLOT i = k ∧
      e.rd F.FMR_SEC_COUNT_ABANDONED i = min 65535 (s.dev.rd F.FMR_SEC_COUNT_ABANDONED i + 1) ∧
      (e.rd F.FMR_SEC_DONE_DONE (i / 32)).testBit (i % 32) = true ∧ Raised e 7 5 ∧
      e.loads.map (fun l => (l.sec, l.slot)) = (s.dev.loads.filter (·.sec != i.val)).map (fun l => (l.sec, l.slot)) ++ [(i.val, k.val)] ∧
      e.maps.get? i = some (x.kind, x.knobs) ∧ (∀ j, j ≠ i.val → e.maps.get? j = s.dev.maps.get? j) ∧
      Frame [F.FMR_SEC_STATE_STATE.at_ i 0, F.FMR_STATUS_ACTIVE.at_ 0 0, F.FMR_SEC_COUNT_ABANDONED.at_ i 0, F.FMR_SEC_DONE_DONE.at_ (i / 32) 0] s.dev
        { e with loads := s.dev.loads, maps := s.dev.maps })) ∧
  (∀ (l : Load) (t : List Load), s.dev.loads = l :: t → l.started = 0 → Completes .queuedLoadStart s (fun e =>
    e.loads = ⟨l.sec, l.slot, s.dev.clk + 1⟩ :: t ∧ { e with loads := s.dev.loads } = s.dev)) ∧
  (∀ (b : Nat) (t : List Load), s.dev.loads = ⟨i, k, b + 1⟩ :: t →
      (s.dev.slot k).image.bind (fun im => im.sections.find? (·.index == i.val)) = some x → s.dev.kind i = 0 → s.dev.loadCode i k x = 0 →
    Completes .loadComplete s (fun e => e.secState i = 2 ∧ e.rd F.FMR_SEC_STATE_CODE i = 0 ∧ e.desc i = some x ∧ Raised e 7 3 ∧
      (e.rd F.FMR_SEC_DONE_DONE (i / 32)).testBit (i % 32) = true ∧
      e.rd F.FMR_SEC_LOADTIME_LOADTIME i = (50000 + (x.bodyLen + 7) / 8) / 1000 % 2 ^ 32 ∧
      e.clk = max s.dev.clk (b + 50000 + (x.bodyLen + 7) / 8) ∧ e.loads.map (fun l => (l.sec, l.slot)) = t.map (fun l => (l.sec, l.slot)))) ∧
  (∀ (b : Nat) (t : List Load), s.dev.loads = ⟨i, k, b + 1⟩ :: t →
      (s.dev.slot k).image.bind (fun im => im.sections.find? (·.index == i.val)) = some x → s.dev.kind i = 0 → s.dev.loadCode i k x ≠ 0 →
    Completes .loadComplete s (fun e => e.secState i = 0 ∧ e.rd F.FMR_SEC_STATE_CODE i = s.dev.loadCode i k x ∧ e.sections.get? i = none ∧
      Raised e 7 4 ∧ (e.rd F.FMR_SEC_DONE_DONE (i / 32)).testBit (i % 32) = true))

/-- The other section commands (R59, R60, R62, R64): UNLOAD leaves the section ABSENT, its run ended; HOLD_DARK takes an ACTIVE section to HELD, dropping held
knob writes; RELEASE brings a HELD one back to ACTIVE; KNOB_HOLD begins to hold writes and KNOB_APPLY ends holding; in another state each leaves code STATE and
nothing else. Each of these commands completes from every state, in RUN, and the first clause gives the state it leaves: unload, holdDark, sectionRelease, knobHold, knobApply. -/
def Obligations.SectionCommandsComplete : Prop :=
  (∀ s : State,
    (InRun s →
      (∀ (i : Fin 128), exec (.unload i) s = .next { s with dev := s.dev.secUnload i }) ∧
      (∀ (i : Fin 128), exec (.holdDark i) s = .next { s with dev := s.dev.secHold i }) ∧
      (∀ (i : Fin 128), exec (.sectionRelease i) s = .next { s with dev := s.dev.secRelease i }) ∧
      (∀ (i : Fin 128), exec (.knobHold i) s = .next { s with dev := s.dev.knobHold i }) ∧
      (∀ (i : Fin 128), exec (.knobApply i) s = .next { s with dev := s.dev.knobApply i }))) ∧
  ∀ (s : State) (i : Fin 128), InRun s →
  (Completes (.unload i) s (fun e => e.secState i = 0 ∧ e.rd F.FMR_SEC_STATE_CODE i = 0 ∧ e.sections.get? i = none ∧ e.runs.get? i = none)) ∧
  (s.dev.secState i = 2 → s.dev.kind i ≠ 4 → Completes (.holdDark i) s (fun e => e.secState i = 3 ∧ e.rd F.FMR_SEC_STATE_CODE i = 0 ∧
    e.rd F.FMR_SEC_STATE_KNOB_HOLD i = 0 ∧ (∀ x, e.sections.get? i = some x → x.held = []) ∧
    (∀ j, j ≠ i.val → e.sections.get? j = s.dev.sections.get? j) ∧
    Frame [F.FMR_SEC_STATE_STATE.at_ i 0, F.FMR_STATUS_ACTIVE.at_ 0 0] s.dev { e with sections := s.dev.sections, cues := s.dev.cues })) ∧
  (s.dev.secState i = 3 → Completes (.sectionRelease i) s (fun e => e.secState i = 2 ∧ e.rd F.FMR_SEC_STATE_CODE i = 0)) ∧
  (s.dev.secState i = 2 → Completes (.knobHold i) s (fun e => e.rd F.FMR_SEC_STATE_KNOB_HOLD i = 1 ∧ e.rd F.FMR_SEC_STATE_CODE i = 0 ∧
    e.secState i = 2 ∧ Frame [F.FMR_SEC_STATE_STATE.at_ i 0] s.dev e)) ∧
  (∀ x : Section, s.dev.secState i = 2 → s.dev.sections.get? i = some x → x.held = [] → Completes (.knobApply i) s (fun e =>
    e.rd F.FMR_SEC_STATE_KNOB_HOLD i = 0 ∧ e.rd F.FMR_SEC_STATE_CODE i = 0 ∧ Frame [F.FMR_SEC_STATE_STATE.at_ i 0] s.dev e)) ∧
  (s.dev.secState i ≠ 2 →
    Completes (.holdDark i) s (fun e => e.rd F.FMR_SEC_STATE_CODE i = codeState ∧ e.secState i = s.dev.secState i ∧ Frame [F.FMR_SEC_STATE_STATE.at_ i 0] s.dev e) ∧
    Completes (.knobHold i) s (fun e => e.rd F.FMR_SEC_STATE_CODE i = codeState ∧ e.secState i = s.dev.secState i ∧ Frame [F.FMR_SEC_STATE_STATE.at_ i 0] s.dev e) ∧
    Completes (.knobApply i) s (fun e => e.rd F.FMR_SEC_STATE_CODE i = codeState ∧ e.secState i = s.dev.secState i ∧ Frame [F.FMR_SEC_STATE_STATE.at_ i 0] s.dev e)) ∧
  (s.dev.secState i ≠ 3 → Completes (.sectionRelease i) s (fun e =>
    e.rd F.FMR_SEC_STATE_CODE i = codeState ∧ e.secState i = s.dev.secState i ∧ Frame [F.FMR_SEC_STATE_STATE.at_ i 0] s.dev e))

/-- A host write of a knob (R45, R63, R64): a write outside the knob map does nothing; one to a section that is not ACTIVE, to a read-only knob or outside the
knob's bounds is refused and counted and raises G7 source 7; one under KNOB_HOLD is held, and KNOB_APPLY takes it; else it takes effect. Kinds 7 and up are the
user's own. Each of these commands completes from every state, in RUN, and the first clause gives the state it leaves: knobWrite. -/
def Obligations.KnobWritesComplete : Prop :=
  (∀ s : State,
    (InRun s →
      (∀ (i : Fin 128) (off : BitVec 17) (v : Word), exec (.knobWrite i off v) s = .next { s with dev := s.dev.knobWrite i off.toNat v.toNat }))) ∧
  ∀ (s : State) (i : Fin 128) (off : BitVec 17) (v : Word) (r : KnobRow), InRun s →
  (s.dev.knobRow i off.toNat = none → Completes (.knobWrite i off v) s (fun e => e = s.dev)) ∧
  (s.dev.knobRow i off.toNat = some r → s.dev.secState i ≠ 2 ∨ (6 < s.dev.kind i ∧ (r.readOnly = true ∨ r.accepts v.toNat = false)) →
    Completes (.knobWrite i off v) s (fun e =>
      e.rd F.FMR_SEC_COUNT_KNOB_REFUSE i = min 65535 (s.dev.rd F.FMR_SEC_COUNT_KNOB_REFUSE i + 1) ∧
      e.rd F.FMR_KNOB_ERR_COUNT = min (2 ^ 32 - 1) (s.dev.rd F.FMR_KNOB_ERR_COUNT + 1) ∧ Raised e 7 7 ∧ e.knob i off.toNat = s.dev.knob i off.toNat ∧
      Frame [F.FMR_SEC_COUNT_KNOB_REFUSE.at_ i 0, F.FMR_KNOB_ERR_COUNT.at_ 0 0] s.dev e)) ∧
  (s.dev.knobRow i off.toNat = some r → s.dev.secState i = 2 → 6 < s.dev.kind i → r.readOnly = false → r.accepts v.toNat = true →
    (s.dev.rd F.FMR_SEC_STATE_KNOB_HOLD i = 1 → Completes (.knobWrite i off v) s (fun e =>
      (∀ x, e.sections.get? i = some x → (off.toNat, v.toNat) ∈ x.held) ∧ Frame [] s.dev { e with sections := s.dev.sections })) ∧
    (s.dev.rd F.FMR_SEC_STATE_KNOB_HOLD i = 0 → Quiet s.dev → Completes (.knobWrite i off v) s (fun e =>
      e.knob i off.toNat = v.toNat ∧ Noted (knobAt i off.toNat) v.toNat s.dev e ∧ Frame [knobAt i off.toNat] s.dev { e with cues := s.dev.cues })) ∧
    (∀ x : Section, s.dev.sections.get? i = some x → x.held = [(off.toNat, v.toNat)] → Quiet s.dev → Completes (.knobApply i) s (fun e =>
      e.knob i off.toNat = v.toNat ∧ e.rd F.FMR_SEC_STATE_KNOB_HOLD i = 0 ∧ (∀ y, e.sections.get? i = some y → y.held = []) ∧
      Frame [knobAt i off.toNat, F.FMR_SEC_STATE_STATE.at_ i 0] s.dev { e with sections := s.dev.sections })))

/-! ## Halyards, inputs and anchors (spec/01_engine.md, spec/02_formes.md, spec/03_inputs.md) -/

/-- Halyards (R41, R43): an enable of a block's drive records the block as the halyard's only driver, and one of a halyard that another driver has leaves the
driver as it is and shows the conflict; a driven event reaches every tap 3 clocks after it was driven, where it is shown as seen and sets the event bits
of the frame cores that tap the halyard. Each of these commands completes from every state, a host command in RUN, and the first clause gives the state it leaves: halyardDriverEnable,
halyardArrival. -/
def Obligations.HalyardCommandsComplete : Prop :=
  (∀ s : State,
    exec .halyardArrival s = .next { s with dev := s.dev.halArrive } ∧
    (InRun s →
      (∀ (b : DriverSel) (h : Fin 64), exec (.halyardDriverEnable b h) s = .next { s with dev := s.dev.halEnable b h }))) ∧
  ∀ (s : State) (b : DriverSel) (h : Fin 64), (∀ n, b = .tdc n → n.val < 16) →
  (InRun s → s.dev.takenByOther h b.kind b.index = false → (b = .stay → (s.dev.rd F.STY_HAL_IN_MASK (h / 32)).testBit (h % 32) = false) →
    Completes (.halyardDriverEnable b h) s (fun e => e.hasDriver h b.kind b.index = true ∧
      (b = .stay → (e.rd F.STY_HAL_IN_MASK (h / 32)).testBit (h % 32) = true) ∧
      Frame (b.off h :: b.beside ++ (List.range 64).map (fun k => F.FMR_HAL_DRV_KIND.at_ k 0)) s.dev { e with time := s.dev.time })) ∧
  (InRun s → s.dev.takenByOther h b.kind b.index = true → (b = .stay → (s.dev.rd F.STY_HAL_IN_MASK (h / 32)).testBit (h % 32) = false) →
    Completes (.halyardDriverEnable b h) s (fun e => e.reg (F.FMR_HAL_DRV_KIND.at_ h 0) = s.dev.reg (F.FMR_HAL_DRV_KIND.at_ h 0) ∧
      (∀ n, b = .overrange n → e.rd F.CNV_STATUS_HAL_CONFLICT n = 1) ∧ (∀ n, b = .tdc n → e.rd F.TDC_IN_STATUS_HAL_CONFLICT n = 1) ∧
      (∀ n, b = .frameCore n → e.rd F.CORE_HAL_OUT_HAL_CONFLICT n = 1) ∧ (b = .stay → e.rd F.STY_STATUS_HAL_CONFLICT = 1) ∧
      Frame (b.off h :: b.beside) s.dev { e with time := s.dev.time })) ∧
  (∀ (x : HalEvent) (rest : List HalEvent), s.dev.halyards = x :: rest → x.hal = h.val → (∀ i, i < 128 → s.dev.activeKind i 4 = false) → Completes .halyardArrival s (fun e =>
    (e.rd F.FMR_HAL_SEEN_SEEN (h / 32)).testBit (h % 32) = true ∧ e.halyards = rest ∧ e.clk = max s.dev.clk (x.clk + 3) ∧
    (∀ c k, c < 16 → k < 4 → bits (s.dev.rd F.CORE_HAL_TAP_TAP c) (8 * k) 6 = h.val → (s.dev.rd F.CORE_HAL_TAP_TAP c).testBit (8 * k + 7) = true →
      (e.core c).evt.testBit k = true)))

/-- START and STOP of an input (R88, R89): START of a STOPPED input makes it RUNNING, notes the sample index of its first sample, places its start anchor and
forgets STEP_AVAIL; STOP of a RUNNING input makes it STOPPED, and of one in a calibration slot CALIBRATING; in any other state the command leaves its code and
changes nothing else. An input whose slip stopped it and whose elastic buffer still lies off its middle does not start (R131). Each of these commands completes from every state,
in RUN, and the first clause gives the state it leaves: cnvStart, cnvStop. -/
def Obligations.InputStartAndStopComplete : Prop :=
  (∀ s : State,
    (InRun s →
      (∀ (n : Fin 8), exec (.cnvStart n) s = .next { s with dev := s.dev.cnvStart n }) ∧
      (∀ (n : Fin 8), exec (.cnvStop n) s = .next { s with dev := s.dev.cnvStop n }))) ∧
  ∀ (s : State) (n : Fin 8), InRun s →
  (s.dev.halted = false → s.dev.cnvState n = 0 → s.dev.rd F.CNV_STATUS_PAIR_PENDING n = 0 → s.dev.clocks.slipped.get? n = none →
    Completes (.cnvStart n) s (fun e => e.cnvState n = 1 ∧ e.rd F.CNV_STATUS_CODE n = 0 ∧
      e.wideAt F.CNV_START_IDX_LO_IDX n = s.dev.nextIdx n % 2 ^ 64 ∧ e.rd F.TIM_STATUS_STEP_AVAIL = 0 ∧
      e.input n = { s.dev.input n with lost := [], was := [] } ∧ (∀ j, j ≠ n.val → e.input j = s.dev.input j) ∧
      RecordsOnly [F.CNV_STATUS_STATE.at_ n 0, F.CNV_START_IDX_LO_IDX.at_ n 0, F.TIM_STATUS_STEP_AVAIL.at_ 0 0] s.dev
        { e with clocks := s.dev.clocks, inputs := s.dev.inputs })) ∧
  (s.dev.halted = false → s.dev.cnvState n = 0 → s.dev.rd F.CNV_STATUS_PAIR_PENDING n = 0 → (s.dev.clocks.slipped.get? n).isSome = true →
      8 < (s.dev.rdInt F.CLK_EBUF_FILL n).natAbs →
    Completes (.cnvStart n) s (fun e => e.rd F.CLK_STATUS_CODE = 4 ∧ e.cnvState n = 0 ∧ Frame [F.CLK_STATUS_CODE.at_ 0 0] s.dev e)) ∧
  (∀ c : Nat, (s.dev.halted = true ∧ c = 4) ∨
      (s.dev.halted = false ∧ (s.dev.cnvState n = 2 ∨ s.dev.rd F.CNV_STATUS_PAIR_PENDING n = 1) ∧ c = 1) ∨
      (s.dev.halted = false ∧ s.dev.cnvState n = 4 ∧ s.dev.rd F.CNV_STATUS_PAIR_PENDING n = 0 ∧ c = 3) ∨
      (s.dev.halted = false ∧ (s.dev.cnvState n = 1 ∨ s.dev.cnvState n = 3) ∧ s.dev.rd F.CNV_STATUS_PAIR_PENDING n = 0 ∧ c = 2) →
    Completes (.cnvStart n) s (fun e => e.rd F.CNV_STATUS_CODE n = c ∧ e.cnvState n = s.dev.cnvState n ∧ Frame [F.CNV_STATUS_STATE.at_ n 0] s.dev e)) ∧
  (s.dev.cnvState n = 1 → Completes (.cnvStop n) s (fun e => e.cnvState n = 0 ∧ e.rd F.CNV_STATUS_CODE n = 0 ∧ (e.input n).blankFrom = none)) ∧
  (s.dev.cnvState n = 3 → Completes (.cnvStop n) s (fun e => e.cnvState n = 2 ∧ e.rd F.CNV_STATUS_CODE n = 0 ∧ (e.input n).blankFrom = none)) ∧
  (∀ c : Nat, (s.dev.cnvState n = 0 ∧ c = 2) ∨ (s.dev.cnvState n = 2 ∧ c = 1) ∨ (s.dev.cnvState n = 4 ∧ c = 3) →
    Completes (.cnvStop n) s (fun e => e.rd F.CNV_STATUS_CODE n = c ∧ e.cnvState n = s.dev.cnvState n ∧ Frame [F.CNV_STATUS_STATE.at_ n 0] s.dev e))

/-- The attenuator (R70, R72, R93): a setting takes effect at once with the level that calibration measured for it, is held during calibration, and is ignored on the odd
input of a pair. Each of these commands completes from every state, in RUN, and the first clause gives the state it leaves: attenWrite. -/
def Obligations.AttenuatorWritesComplete : Prop :=
  (∀ s : State,
    (InRun s →
      (∀ (n : Fin 8) (v : Word), exec (.attenWrite n v) s = .next { s with dev := s.dev.setAtten n (v.field 0 5) }))) ∧
  ∀ (s : State) (n : Fin 8) (v : Word), InRun s →
  (s.dev.cnvState n = 4 → Completes (.attenWrite n v) s (fun e => e = s.dev)) ∧
  (s.dev.cnvState n = 2 ∨ s.dev.cnvState n = 3 → Completes (.attenWrite n v) s (fun e =>
    e.rd F.CNV_ATTEN_ATTEN n = v.field 0 5 ∧ (e.input n).heldAtten = some (v.field 0 5, none) ∧
    (e.input n).idx = (s.dev.input n).idx ∧ (∀ j, j ≠ n.val → e.input j = s.dev.input j) ∧
    Frame [F.CNV_ATTEN_ATTEN.at_ n 0] s.dev { e with inputs := s.dev.inputs })) ∧
  (s.dev.cnvState n < 2 → Completes (.attenWrite n v) s (fun e =>
    e.rd F.CNV_ATTEN_ATTEN n = v.field 0 5 ∧ e.rd F.CNV_ATTEN_ACT_SETTING n = v.field 0 5 ∧
    (s.dev.rd F.CNV_ATTEN_ACT_SETTING n ≠ v.field 0 5 →
      e.rd F.CNV_ATTEN_ACT_ACTUAL n = unsigned 16 (s.dev.cal.val.getD (4352 + n * 32 + v.field 0 5) 0)) ∧
    Noted n (v.field 0 5) s.dev e ∧ RecordsOnly [F.CNV_ATTEN_ATTEN.at_ n 0, F.CNV_ATTEN_ACT_SETTING.at_ n 0] s.dev { e with cues := s.dev.cues }))

/-- Overrange (R77–R81, R85, R94): DWELL consecutive clocks with an over lane on a RUNNING input declare overrange, which is shown, counted and raised, drives the
detector's halyard with the last clock's lowest over lane and begins blanking where they are enabled; RELEASE consecutive clean clocks release it and end blanking;
other clocks do nothing; OVR_BLANK acts on an overrange in progress at once; a monitor window of sufficient level shows each slot's estimates and marks the
slots beyond a limit. Each of these commands completes from every state, a host command in RUN, and the first clause gives the state it leaves: ovrBlankChange, overrangeDeclared,
overrangeRelease, monitorWindowEnd. -/
def Obligations.InputDetectorCommandsComplete : Prop :=
  (∀ s : State,
    (∀ (n : Fin 8) (clocks : List (BitVec 384)), exec (.overrangeDeclared n clocks) s = .next { s with dev := s.dev.overrange n clocks }) ∧
    (∀ (o : InputClocks), exec (.overrangeRelease o) s = .next { s with dev := s.dev.overrangeRelease o.n o.clocks }) ∧
    (∀ (n : Fin 8) (sumsq : Nat) (est : List (Int × Int × Int)), exec (.monitorWindowEnd n sumsq est) s = .next { s with dev := s.dev.monitorEnd n sumsq est }) ∧
    (InRun s →
      (∀ (n : Fin 8) (on : Bool), exec (.ovrBlankChange n on) s = .next { s with dev := s.dev.ovrBlank n on }))) ∧
  ∀ (s : State) (n : Fin 8),
  (∀ (clocks : List (BitVec 384)) (lane : Nat), s.dev.cnvState n = 1 → s.dev.rd F.CNV_STATUS_OVR n = 0 →
      clocks.length = max 1 (s.dev.rd F.CNV_OVR_CFG_DWELL n) → (∀ w ∈ clocks, (s.dev.portOver n w).isSome = true) →
      clocks.getLast?.bind (s.dev.portOver n) = some lane → Completes (.overrangeDeclared n clocks) s (fun e =>
    e.rd F.CNV_STATUS_OVR n = 1 ∧ e.rd F.CNV_OVR_COUNT_COUNT n = min (2 ^ 32 - 1) (s.dev.rd F.CNV_OVR_COUNT_COUNT n + 1) ∧ Raised e 6 n ∧
    e.clk = max s.dev.clk ((s.dev.input n).ovrClk + clocks.length) ∧ (e.input n).ovrClk = e.clk ∧
    (s.dev.rd F.CNV_CTRL_OVR_BLANK n = 1 → e.rd F.CNV_STATUS_BLANKING n = 1 ∧ (e.input n).blankFrom = some (e.input n).idx) ∧
    (s.dev.rd F.CNV_CTRL_OVR_BLANK n = 0 → (e.input n).blankFrom = (s.dev.input n).blankFrom ∧ e.rd F.CNV_STATUS_BLANKING n = s.dev.rd F.CNV_STATUS_BLANKING n) ∧
    (s.dev.rd F.CNV_CTRL_OVR_HAL_EN n = 1 → s.dev.halyards = [] → e.halyards = [⟨s.dev.rd F.CNV_CTRL_OVR_HAL n,
      (if s.dev.rd F.CNV_STATUS_PAIRED n = 1 then lane else 2 * lane) % 32, e.clk, none, none⟩]) ∧
    (s.dev.rd F.CNV_CTRL_OVR_HAL_EN n = 0 → e.halyards = s.dev.halyards) ∧
    Frame ([F.CNV_STATUS_STATE.at_ n 0, F.CNV_OVR_COUNT_COUNT.at_ n 0] ++ (List.range 64).map (fun k => F.FMR_HAL_MERGE_COUNT.at_ k 0)) s.dev
      { e.atTime s.dev with halyards := s.dev.halyards })) ∧
  (∀ clocks : List (BitVec 384), s.dev.cnvState n ≠ 1 ∨ s.dev.rd F.CNV_STATUS_OVR n = 1 ∨ clocks.length ≠ max 1 (s.dev.rd F.CNV_OVR_CFG_DWELL n) ∨
      (∃ w ∈ clocks, s.dev.portOver n w = none) → Completes (.overrangeDeclared n clocks) s (fun e => e = s.dev)) ∧
  (∀ clocks : List (BitVec 384), s.dev.rd F.CNV_STATUS_OVR n = 1 → clocks.length = max 1 (s.dev.rd F.CNV_OVR_REL_RELEASE n) →
      (∀ w ∈ clocks, s.dev.portOver n w = none) → Completes (.overrangeRelease ⟨n, clocks⟩) s (fun e =>
    e.rd F.CNV_STATUS_OVR n = 0 ∧ (e.input n).blankFrom = none ∧ e.clk = max s.dev.clk ((s.dev.input n).ovrClk + clocks.length) ∧ (e.input n).ovrClk = e.clk ∧
    RecordsOnly [F.CNV_STATUS_STATE.at_ n 0, F.CNV_BLANK_LO_BLANK.at_ n 0] s.dev { e.atTime s.dev with xfrms := s.dev.xfrms, chans := s.dev.chans })) ∧
  (∀ clocks : List (BitVec 384), s.dev.rd F.CNV_STATUS_OVR n = 0 ∨ clocks.length ≠ max 1 (s.dev.rd F.CNV_OVR_REL_RELEASE n) ∨
      (∃ w ∈ clocks, (s.dev.portOver n w).isSome = true) → Completes (.overrangeRelease ⟨n, clocks⟩) s (fun e => e = s.dev)) ∧
  (InRun s → Completes (.ovrBlankChange n true) s (fun e => e.rd F.CNV_CTRL_OVR_BLANK n = 1 ∧
    (s.dev.rd F.CNV_CTRL_OVR_BLANK n = 0 → s.dev.rd F.CNV_STATUS_OVR n = 1 →
      e.rd F.CNV_STATUS_BLANKING n = 1 ∧ (e.input n).blankFrom = some (s.dev.nextIdx n)) ∧
    Frame [F.CNV_CTRL_OVR_BLANK.at_ n 0, F.CNV_STATUS_STATE.at_ n 0] s.dev { e with inputs := s.dev.inputs })) ∧
  (∀ a : Nat, InRun s → s.dev.rd F.CNV_CTRL_OVR_BLANK n = 1 → (s.dev.input n).blankFrom = some a → Completes (.ovrBlankChange n false) s (fun e =>
    e.rd F.CNV_CTRL_OVR_BLANK n = 0 ∧ e.rd F.CNV_STATUS_BLANKING n = 0 ∧ (e.input n).blankFrom = none ∧
    e.wideAt F.CNV_BLANK_LO_BLANK n = (s.dev.wideAt F.CNV_BLANK_LO_BLANK n + (s.dev.nextIdx n - a)) % 2 ^ 64 ∧
    RecordsOnly [F.CNV_CTRL_OVR_BLANK.at_ n 0, F.CNV_STATUS_STATE.at_ n 0, F.CNV_BLANK_LO_BLANK.at_ n 0] s.dev
      { e with inputs := s.dev.inputs, xfrms := s.dev.xfrms, chans := s.dev.chans })) ∧
  (∀ (sumsq : Nat) (est : List (Int × Int × Int)), 10000 * sumsq < 2097152 * 2 ^ 30 ∨ s.dev.cnvState n ≠ 1 →
    Completes (.monitorWindowEnd n sumsq est) s (fun e => e = s.dev)) ∧
  (∀ (sumsq : Nat) (est : List (Int × Int × Int)), s.dev.cnvState n = 1 → 2097152 * 2 ^ 30 ≤ 10000 * sumsq → est.length ≤ 64 →
      Completes (.monitorWindowEnd n sumsq est) s (fun e =>
    (∀ j o g k, est[j]? = some (o, g, k) → e.rd F.CNV_MON_OFFSET_ERR n j = unsigned 16 o ∧ e.rd F.CNV_MON_GAIN_ERR n j = unsigned 16 g ∧
      e.rd F.CNV_MON_SKEW_SKEW_ERR n j = unsigned 16 k ∧
      (s.dev.rd F.CNV_MON_LIM_OFFSET n < o.natAbs ∨ s.dev.rd F.CNV_MON_LIM_GAIN n < g.natAbs ∨ s.dev.rd F.CNV_MON_LIM_SKEW n < k.natAbs →
        e.rd F.CNV_SLOT_MON_FAIL n j = 1 ∧ Raised e 6 (8 + n))) ∧
    OnlyRegs s.dev e))

/-- A write of `CNV_CTRL` of an even input asks for a pairing or its end (R90): the request is taken while the inputs it concerns are STOPPED, refused with code STATE while
one is not, and withdrawn by a request for what is in force; one of an odd input leaves the pairing alone; an enable of a halyard that another driver has is turned
away with HAL_CONFLICT (R43, R80); the anchor tick that follows carries a pairing out (R91), takes the rates committed before it (R285) and, before
alignment, nothing happens at all (R20). Each of these commands completes from every state, a host command in RUN, and the first clause gives the state it leaves: anchorTick, pairingRequest. -/
def Obligations.PairingAndAnchorTicksComplete : Prop :=
  (∀ s : State,
    exec .anchorTick s = .next { s with dev := s.dev.anchorTick } ∧
    (InRun s →
      (∀ (n : Fin 8) (v : Word), exec (.pairingRequest n v) s = .next { s with dev := s.dev.cnvCtrl n v }))) ∧
  ∀ s : State,
  (∀ (n : Fin 8) (v : Word), InRun s → n.val % 2 = 0 → s.dev.takenByOther (v.field 8 6) 2 n = false → Completes (.pairingRequest n v) s (fun e =>
    e.rd F.CNV_CTRL_OVR_HAL n = v.field 8 6 ∧ e.rd F.CNV_CTRL_OVR_HAL_EN n = v.field 2 1 ∧ e.rd F.CNV_CTRL_OVR_BLANK n = v.field 1 1 ∧
    (s.dev.rd F.CNV_STATUS_PAIR_PENDING n = 0 → s.dev.cnvState n = 0 → s.dev.cnvState (n + 1) = 0 → s.dev.rd F.CNV_STATUS_PAIRED n ≠ v.field 0 1 →
      e.rd F.CNV_STATUS_PAIR_PENDING n = 1 ∧ e.rd F.CNV_STATUS_PAIR_PENDING (n + 1) = 1 ∧ e.rd F.CNV_CTRL_PAIRED n = v.field 0 1) ∧
    (s.dev.rd F.CNV_STATUS_PAIR_PENDING n = 0 → s.dev.cnvState n ≠ 0 → s.dev.rd F.CNV_STATUS_PAIRED n ≠ v.field 0 1 →
      e.rd F.CNV_STATUS_PAIR_PENDING n = 0 ∧ e.rd F.CNV_STATUS_CODE n = 2 ∧ e.rd F.CNV_CTRL_PAIRED n = s.dev.rd F.CNV_CTRL_PAIRED n) ∧
    (s.dev.rd F.CNV_STATUS_PAIR_PENDING n = 1 → s.dev.rd F.CNV_STATUS_PAIRED n = v.field 0 1 →
      e.rd F.CNV_STATUS_PAIR_PENDING n = 0 ∧ e.rd F.CNV_STATUS_PAIR_PENDING (n + 1) = 0 ∧ e.rd F.CNV_CTRL_PAIRED n = v.field 0 1) ∧
    RecordsOnly ([F.CNV_CTRL_PAIRED.at_ n 0, F.CNV_STATUS_STATE.at_ n 0, F.CNV_STATUS_STATE.at_ (n + 1) 0, F.CNV_BLANK_LO_BLANK.at_ n 0] ++
      (List.range 64).map (fun k => F.FMR_HAL_DRV_KIND.at_ k 0)) s.dev { e with inputs := s.dev.inputs, xfrms := s.dev.xfrms, chans := s.dev.chans })) ∧
  (∀ (n : Fin 8) (v : Word), InRun s → n.val % 2 = 1 → s.dev.takenByOther (v.field 8 6) 2 n = false → Completes (.pairingRequest n v) s (fun e =>
    e.rd F.CNV_CTRL_OVR_HAL n = v.field 8 6 ∧ e.rd F.CNV_CTRL_OVR_HAL_EN n = v.field 2 1 ∧ e.rd F.CNV_CTRL_OVR_BLANK n = v.field 1 1 ∧
    (v.field 2 1 = 1 → e.hasDriver (v.field 8 6) 2 n = true) ∧
    RecordsOnly ([F.CNV_CTRL_PAIRED.at_ n 0, F.CNV_STATUS_STATE.at_ n 0, F.CNV_BLANK_LO_BLANK.at_ n 0] ++
      (List.range 64).map (fun k => F.FMR_HAL_DRV_KIND.at_ k 0)) s.dev { e with inputs := s.dev.inputs, xfrms := s.dev.xfrms, chans := s.dev.chans })) ∧
  (∀ (n : Fin 8) (v : Word), InRun s → v.getLsbD 2 = true → s.dev.takenByOther (v.field 8 6) 2 n = true → Completes (.pairingRequest n v) s (fun e =>
    e.rd F.CNV_STATUS_HAL_CONFLICT n = 1 ∧ e.rd F.CNV_CTRL_OVR_HAL n = s.dev.rd F.CNV_CTRL_OVR_HAL n ∧
    e.rd F.CNV_CTRL_OVR_HAL_EN n = s.dev.rd F.CNV_CTRL_OVR_HAL_EN n ∧ e.rd F.CNV_CTRL_OVR_BLANK n = v.field 1 1 ∧
    RecordsOnly [F.CNV_CTRL_PAIRED.at_ n 0, F.CNV_STATUS_STATE.at_ n 0, F.CNV_STATUS_STATE.at_ (n + 1) 0, F.CNV_BLANK_LO_BLANK.at_ n 0] s.dev
      { e with inputs := s.dev.inputs, xfrms := s.dev.xfrms, chans := s.dev.chans })) ∧
  (s.dev.rd F.CLK_STATUS_ALIGNED = 0 → Completes .anchorTick s (fun e => e = s.dev)) ∧
  (s.dev.rd F.CLK_STATUS_ALIGNED = 1 → Completes .anchorTick s (fun e =>
    e.time.ticks = s.dev.time.ticks + 1 ∧ e.clk = max s.dev.clk (65536 * (s.dev.time.ticks + 1)) ∧
    e.time.ratePend = s.dev.time.ratePend.filter (fun p => !(decide (p.1 < 65536 * (s.dev.time.ticks + 1)))) ∧
    (∀ c v, s.dev.time.ratePend = [(c, v)] → c < 65536 * (s.dev.time.ticks + 1) → e.time.own = v ∧ e.rd F.TIM_RATE_ACT_HI_PENDING = 0) ∧
    (s.dev.time.ratePend = [] → e.time.own = s.dev.time.own) ∧
    (∀ k : Fin 4, s.dev.rd F.CNV_STATUS_PAIR_PENDING (2 * k) = 1 →
      e.rd F.CNV_STATUS_PAIR_PENDING (2 * k) = 0 ∧ e.rd F.CNV_STATUS_PAIR_PENDING (2 * k + 1) = 0 ∧
      e.rd F.CNV_STATUS_PAIRED (2 * k) = s.dev.rd F.CNV_CTRL_PAIRED (2 * k) ∧
      e.cnvState (2 * k + 1) = (if s.dev.rd F.CNV_CTRL_PAIRED (2 * k) = 1 then 4 else 0) ∧
      e.rd F.CNV_STATUS_TONE (2 * k + 1) = s.dev.rd F.CNV_CTRL_PAIRED (2 * k))))

/-! ## Calibration (spec/04_calibration.md) -/

/-- CAL and ACCEPT (R88, R105, R108): CAL of a STOPPED input with no pairing change pending makes it CALIBRATING on the TONE switch and queues it, and otherwise leaves
its code; ACCEPT notes that the results of the calibration in hand, or of the next one of the input, are taken whatever their distance from the archive; the engine,
when free, takes the head of the queue with the ACCEPTs that wait for its inputs. Each of these commands completes from every state, a host command in RUN, and the first clause
gives the state it leaves: calRequest, accept, calMeasureStart. -/
def Obligations.CalibrationRequestsComplete : Prop :=
  (∀ s : State,
    exec .calMeasureStart s = .next { s with dev := s.dev.measureStart } ∧
    (InRun s →
      (∀ (n : Fin 8), exec (.calRequest n) s = .next { s with dev := s.dev.calRequest n }) ∧
      (∀ (n : Fin 8), exec (.accept n) s = .next { s with dev := s.dev.calAccept n }))) ∧
  ∀ (s : State) (n : Fin 8),
  (InRun s → s.dev.halted = false → s.dev.cnvState n = 0 → s.dev.rd F.CNV_STATUS_PAIR_PENDING n = 0 → Completes (.calRequest n) s (fun e =>
    e.cnvState n = 2 ∧ e.rd F.CNV_STATUS_TONE n = 1 ∧ e.rd F.CAL_IN_STATUS_QUEUED n = 1 ∧ e.cal.queue = s.dev.cal.queue ++ [n.val] ∧
    Frame [F.CNV_STATUS_STATE.at_ n 0, F.CAL_IN_STATUS_QUEUED.at_ n 0] s.dev { e with cal := { e.cal with queue := s.dev.cal.queue } })) ∧
  (∀ c : Nat, InRun s → (s.dev.halted = true ∧ c = 4) ∨ (s.dev.halted = false ∧ s.dev.rd F.CNV_STATUS_PAIR_PENDING n = 1 ∧ c = 1) ∨
      (s.dev.halted = false ∧ s.dev.rd F.CNV_STATUS_PAIR_PENDING n = 0 ∧ s.dev.cnvState n = 4 ∧ c = 3) ∨
      (s.dev.halted = false ∧ s.dev.rd F.CNV_STATUS_PAIR_PENDING n = 0 ∧ s.dev.cnvState n ≠ 4 ∧ s.dev.cnvState n ≠ 0 ∧ c = 2) →
    Completes (.calRequest n) s (fun e => e.rd F.CNV_STATUS_CODE n = c ∧ e.cnvState n = s.dev.cnvState n ∧ (c = 4 → Raised e 6 (16 + n)) ∧
      Frame [F.CNV_STATUS_STATE.at_ n 0] s.dev e)) ∧
  (InRun s → Completes (.accept n) s (fun e => e.rd F.CAL_IN_ACCEPT_PENDING n = 1 ∧
    (s.dev.cal.job = none → s.dev.cal.suspended = [] → e.cal = { s.dev.cal with accepts := n.val :: s.dev.cal.accepts.erase n }) ∧
    (∀ j, s.dev.cal.job = some j → j.input = n.val → e.cal.job = some { j with accept := n.val :: j.accept.erase n } ∧ e.cal.accepts = s.dev.cal.accepts) ∧
    Frame [F.CAL_IN_ACCEPT_PENDING.at_ n 0] s.dev { e with cal := s.dev.cal })) ∧
  (∀ t : List Nat, s.dev.cal.job = none → s.dev.cal.queue = n.val :: t → Completes .calMeasureStart s (fun e =>
    e.cal.queue = t ∧ e.rd F.CAL_IN_STATUS_QUEUED n = 0 ∧
    (let odd : List Nat := if s.dev.rd F.CNV_STATUS_PAIRED n = 1 then [n.val + 1] else []
     e.cal.job = some ⟨n, 1, s.dev.rd F.CNV_STATUS_PAIRED n = 1, calStages n (s.dev.rd F.CNV_STATUS_PAIRED n = 1) false, s.dev.clk, s.dev.clk, 0, [], [], [],
        s.dev.cal.accepts.filter (fun m => (n.val :: odd).contains m), false⟩ ∧
     e.cal.accepts = s.dev.cal.accepts.filter (fun m => !((n.val :: odd).contains m))) ∧
    Frame [F.CAL_IN_STATUS_QUEUED.at_ n 0] s.dev { e with cal := s.dev.cal })) ∧
  (s.dev.cal.job ≠ none ∨ s.dev.cal.queue = [] → Completes .calMeasureStart s (fun e => e = s.dev))

/-- The stages of a calibration (R99, R103, R105): the switch settles for 2 ms, then each stage takes its time and the next begins on the input it names; a result inside its window
and within DELTA of the archive, or accepted, passes, and any other leaves the archived value with the item stale. Each of these commands completes from every state, and the
first clause gives the state it leaves: calSettleEnd, calStageEnd. -/
def Obligations.CalibrationStagesComplete : Prop :=
  (∀ s : State,
    exec .calSettleEnd s = .next { s with dev := s.dev.settleEnd } ∧
    (∀ (res : List Int), exec (.calStageEnd res) s = .next { s with dev := s.dev.stageEnd res })) ∧
  ∀ (s : State) (j : CalJob) (g h : CalStage) (rest : List CalStage), s.dev.cal.job = some j → j.todo = g :: h :: rest →
  (g.no = 0 → Completes .calSettleEnd s (fun e =>
    e.clk = max s.dev.clk (j.since + 2000000) ∧ e.rd F.CAL_STATUS_ENGINE_BUSY = 1 ∧ e.rd F.CAL_STATUS_ENGINE_INPUT = h.conv % 8 ∧
    e.cal = { s.dev.cal with job := some { j with todo := h :: rest, since := e.clk } } ∧
    Frame [F.CAL_STATUS_ENGINE_BUSY.at_ 0 0] s.dev { e.atTime s.dev with cal := s.dev.cal })) ∧
  (g.no ≠ 0 → Completes .calSettleEnd s (fun e => e = s.dev)) ∧
  (∀ res : List Int, g.no ≠ 0 → Completes (.calStageEnd res) s (fun e =>
    e.clk = max s.dev.clk (j.since + stageClocks g.no) ∧ e.rd F.CAL_STATUS_ENGINE_INPUT = h.conv % 8 ∧
    e.cal.job.map (fun x => (x.input, x.cause, x.todo, x.since, x.start)) = some (j.input, j.cause, h :: rest, e.clk, j.start))) ∧
  (∀ v : Int, g.no = 1 → (s.dev.rdInt F.CAL_LIMIT_MIN_MIN 6 ≤ v ∧ v ≤ s.dev.rdInt F.CAL_LIMIT_MAX_MAX 6) →
      ((v - s.dev.calArch itemCrystal).natAbs ≤ s.dev.rd F.CAL_LIMIT_DELTA_DELTA 6 ∨
        j.accept.contains (if g.set = 1 then g.conv - g.conv % 2 else g.conv) = true) →
    Completes (.calStageEnd [v]) s (fun e => e.cal.job.map (·.good) = some (j.good ++ [(itemCrystal, v)]) ∧ e.calStale itemCrystal = s.dev.calStale itemCrystal)) ∧
  (∀ v : Int, g.no = 1 → v < s.dev.rdInt F.CAL_LIMIT_MIN_MIN 6 ∨ s.dev.rdInt F.CAL_LIMIT_MAX_MAX 6 < v →
    Completes (.calStageEnd [v]) s (fun e => e.cal.job.map (·.kept) = some (j.kept ++ [(itemCrystal, s.dev.calArch itemCrystal)]) ∧ e.calStale itemCrystal = true))

/-- The end of a calibration (R72, R103, R105, R106, R108, R112, R113): an archive write that completes puts the results in force, keeps them as the next generation with the next sequence number, and leaves
the input, when none of its calibrations is still to come, STOPPED with its cause, sequence number and temperature; one that fails keeps the previous generation, shows ARCH_FAIL and raises G6 source 29; the switch returns an input from its slot
to RUNNING; a temperature beyond the limit is raised once. Each of these commands completes from every state, and the first clause gives the state it leaves: archiveWriteEnd, slotReturn,
tempDriftDetect. -/
def Obligations.CalibrationEndsComplete : Prop :=
  (∀ s : State,
    (∀ (ok : Bool) (temps : List Int), exec (.archiveWriteEnd ok temps) s = .next { s with dev := s.dev.archiveEnd ok temps }) ∧
    (∀ (n : Fin 8), exec (.slotReturn n) s = .next { s with dev := s.dev.slotReturn n }) ∧
    (∀ (n : Fin 8) (t : Int), exec (.tempDriftDetect n t) s = .next { s with dev := s.dev.tempDrift n t })) ∧
  ∀ (s : State) (n : Fin 8),
  (∀ (ok : Bool) (temps : List Int) (j : CalJob) (t : List CalJob), s.dev.cal.archive = j :: t → j.input = n.val → j.cause ≠ 0 →
    Completes (.archiveWriteEnd ok temps) s (fun e =>
      e.clk = max s.dev.clk (s.dev.cal.archiveSince + 12000000) ∧ e.cal.archive = t ∧
      e.rd F.CAL_IN_STATUS_CAUSE n = j.cause % 4 ∧ e.rd F.CAL_IN_STATUS_QUEUED n = (if s.dev.cal.queue.contains n.val then 1 else 0) ∧ Raised e 6 (16 + n) ∧
      (let more := s.dev.cal.job.toList ++ s.dev.cal.suspended ++ t
       e.rd F.CAL_IN_ACCEPT_PENDING n = (if s.dev.cal.accepts.contains n.val ∨ ∃ x ∈ more, x.accept.contains n.val then 1 else 0) ∧
       (s.dev.cnvState n = 2 → s.dev.cal.queue.contains n.val = false → (∀ x ∈ more, x.input ≠ n.val ∧ x.cause ≠ 0) →
         e.cnvState n = 0 ∧ e.rd F.CNV_STATUS_TONE n = 0 ∧ (e.input n).heldAtten = none) ∧
       (s.dev.cal.queue.contains n.val = true ∨ (∃ x ∈ more, x.input = n.val ∨ x.cause = 0) → e.cnvState n = s.dev.cnvState n)) ∧
      e.rd F.CAL_IN_TEMP_TEMP n = unsigned 16 (temps.getD n 0) ∧
      (ok = true → e.cal.pos = (s.dev.cal.pos + 1) % 3 ∧ e.cal.arch = e.cal.val ∧
        (e.cal.gens.get? ((s.dev.cal.pos + 1) % 3)).map (·.1) = some (e.rd F.CAL_IN_SEQ_SEQ n)) ∧
      (ok = false → e.cal.gens = s.dev.cal.gens ∧ e.cal.arch = s.dev.cal.arch ∧ e.rd F.CAL_STATUS_ARCH_FAIL = 1 ∧ Raised e 6 29) ∧
      (j.kept ≠ [] → Raised e 6 25) ∧
      (∀ k v, j.done = false → j.good = [(k, v)] → j.kept = [] → e.cal.val.get? k = some v ∧ e.calStale k = false))) ∧
  (∀ (ok : Bool) (temps : List Int), s.dev.cal.archive = [] → Completes (.archiveWriteEnd ok temps) s (fun e => e = s.dev)) ∧
  (∀ j : CalJob, s.dev.cnvState n = 3 → s.dev.slotJob n = some j → Completes (.slotReturn n) s (fun e =>
    e.cnvState n = 1 ∧ e.rd F.CNV_STATUS_TONE n = 0 ∧ (e.input n).slotFrom = none ∧ (e.input n).heldAtten = none ∧
    j.start + slotClocks j.cause j.paired + 63 ≤ e.clk)) ∧
  (s.dev.cnvState n ≠ 3 → Completes (.slotReturn n) s (fun e => e = s.dev)) ∧
  (∀ t : Int, s.dev.rd F.CAL_IN_TEMP_LIM_LIM n ≠ 0 → s.dev.rd F.CAL_IN_TEMP_LIM_LIM n * 4 < (t - s.dev.rdInt F.CAL_IN_TEMP_TEMP n).natAbs →
      (s.dev.input n).tempRaised = false → Completes (.tempDriftDetect n t) s (fun e =>
    Raised e 6 28 ∧ (e.input n) = { s.dev.input n with tempRaised := true } ∧ (∀ m, m ≠ n.val → e.input m = s.dev.input m) ∧
    Frame [] s.dev { e with inputs := s.dev.inputs })) ∧
  (∀ t : Int, s.dev.rd F.CAL_IN_TEMP_LIM_LIM n = 0 ∨ (t - s.dev.rdInt F.CAL_IN_TEMP_TEMP n).natAbs ≤ s.dev.rd F.CAL_IN_TEMP_LIM_LIM n * 4 ∨
      (s.dev.input n).tempRaised = true → Completes (.tempDriftDetect n t) s (fun e => e = s.dev))

/-! ## Clocks (spec/05_clocks.md) -/

/-- The crystal (R116–R121): every command that moves a term of the correction forms it anew, clamped to ±50 ppm with the clamp shown; the temperature term follows the table, the ageing accumulates a
thousandth of its daily rate, the daily store keeps both ageing values; TUNE is ignored in mode REF, where loop 28's own value is free (log entry 2); REF IN qualifies and is disqualified, and loop 28
follows the mode and REF IN; REF OUT carries the crystal while it is enabled and the regulators are past their start. Each of these commands completes from every state, a host
command in RUN, and the first clause gives the state it leaves: xtlTempUpdate, xtlAgeUpdate, xtlDailyStore, xtlModeWrite, xtlTuneWrite, xtlAgeWrite, refQualified, refDisqualified. -/
def Obligations.CrystalCommandsComplete : Prop :=
  (∀ s : State,
    (∀ (t : Int), exec (.xtlTempUpdate t) s = .next { s with dev := s.dev.xtlTick t }) ∧
    exec .xtlAgeUpdate s = .next { s with dev := s.dev.xtlAged } ∧
    exec .xtlDailyStore s = .next { s with dev := s.dev.xtlStore } ∧
    (∀ (hundred : Bool), exec (.refQualified hundred) s = .next { s with dev := s.dev.refQualified hundred }) ∧
    exec .refDisqualified s = .next { s with dev := s.dev.refDisqualified } ∧
    (InRun s →
      (∀ (v : Word), exec (.xtlModeWrite v) s = .next { s with dev := s.dev.xtlCtrl v }) ∧
      (∀ (v : Word), exec (.xtlTuneWrite v) s = .next { s with dev := s.dev.xtlTune v }) ∧
      (∀ (rate : Bool) (v : Word), exec (.xtlAgeWrite rate v) s = .next { s with dev := s.dev.xtlAge rate v }))) ∧
  ∀ s : State,
  (∀ t : Int, Completes (.xtlTempUpdate t) s (fun e => e.rd F.XTL_TEMP_TEMP = unsigned 16 t ∧ e.clocks.tempTerm = s.dev.tempTerm t ∧ CorrectionFormed e ∧
    (s.dev.rd F.XTL_CTRL_MODE ≠ 1 → e.rd F.XTL_TUNE_TUNE = s.dev.rd F.XTL_TUNE_TUNE) ∧
    Frame [0x50C04, 0x50C08, 0x50C14, 0x50C18] s.dev { e with clocks := { e.clocks with tempTerm := s.dev.clocks.tempTerm }, freeCtr := s.dev.freeCtr })) ∧
  (Completes .xtlAgeUpdate s (fun e =>
    e.rd F.XTL_AGE_AGE = unsigned 32 (s.dev.rdInt F.XTL_AGE_AGE + (s.dev.clocks.ageAcc + s.dev.rdInt F.XTL_AGE_RATE_RATE) / 1000000) ∧
    e.clocks.ageAcc = (s.dev.clocks.ageAcc + s.dev.rdInt F.XTL_AGE_RATE_RATE) % 1000000 ∧ CorrectionFormed e ∧
    Frame [0x50C04, 0x50C0C, 0x50C14] s.dev { e with clocks := { e.clocks with ageAcc := s.dev.clocks.ageAcc } })) ∧
  (Completes .xtlDailyStore s (fun e => e.nvs.bytes 0x50000 8 = leBytes 4 (s.dev.rd F.XTL_AGE_AGE) ++ leBytes 4 (s.dev.rd F.XTL_AGE_RATE_RATE) ∧
    (∀ a, a < 0x50000 ∨ 0x50008 ≤ a → e.nvs.byte a = s.dev.nvs.byte a) ∧ { e with nvs := s.dev.nvs } = s.dev)) ∧
  (∀ v : Word, InRun s → Completes (.xtlModeWrite v) s (fun e =>
    e.rd F.XTL_CTRL_MODE = v.field 0 2 ∧ e.rd F.XTL_CTRL_REF_FREQ = v.field 4 2 ∧ e.rd F.XTL_CTRL_DISC_BW = v.field 8 2 ∧ e.rd F.XTL_CTRL_REFOUT_EN = v.field 12 1 ∧
    (v.field 0 2 ≠ 1 → e.loop 28 = 0) ∧ (v.field 0 2 = 1 → s.dev.loop 28 = 0 → s.dev.rd F.XTL_STATUS_REF_OK = 1 → e.loop 28 = 2) ∧ CorrectionFormed e ∧
    e.clocks.refOut = (decide (v.field 12 1 = 1) && decide (2 ≤ s.dev.power.step)) ∧ SameInputs s.dev e ∧
    Frame ([0x50C00, 0x50C04, 0x50C14] ++ loopRegs 28) s.dev { e with clocks := s.dev.clocks, inputs := s.dev.inputs })) ∧
  (∀ v : Word, InRun s → s.dev.rd F.XTL_CTRL_MODE = 1 → Completes (.xtlTuneWrite v) s (fun e => e = s.dev)) ∧
  (∀ v : Word, InRun s → s.dev.rd F.XTL_CTRL_MODE ≠ 1 → Completes (.xtlTuneWrite v) s (fun e =>
    e.rd F.XTL_TUNE_TUNE = v.toNat ∧ CorrectionFormed e ∧ Frame [0x50C04, 0x50C08, 0x50C14] s.dev e)) ∧
  (∀ v : Word, InRun s → Completes (.xtlAgeWrite true v) s (fun e => e.rd F.XTL_AGE_RATE_RATE = v.toNat ∧ Frame [0x50C10] s.dev e)) ∧
  (∀ v : Word, InRun s → Completes (.xtlAgeWrite false v) s (fun e => e.rd F.XTL_AGE_AGE = v.toNat ∧ CorrectionFormed e ∧ Frame [0x50C04, 0x50C0C, 0x50C14] s.dev e)) ∧
  (∀ hundred : Bool, s.dev.rd F.XTL_CTRL_REF_FREQ ≠ (if hundred then 1 else 2) → Completes (.refQualified hundred) s (fun e =>
    e.rd F.XTL_STATUS_REF_OK = 1 ∧ e.rd F.XTL_STATUS_REF_DET = (if hundred then 2 else 1) ∧ e.power.refPresent = true ∧
    (s.dev.rd F.XTL_CTRL_MODE = 1 → s.dev.loop 28 = 0 → e.loop 28 = 2) ∧
    SameInputs s.dev e ∧
    Frame (0x50C04 :: loopRegs 28) s.dev { e with power := { e.power with refPresent := s.dev.power.refPresent }, clocks := s.dev.clocks, inputs := s.dev.inputs })) ∧
  (∀ hundred : Bool, s.dev.rd F.XTL_CTRL_REF_FREQ = (if hundred then 1 else 2) → Completes (.refQualified hundred) s (fun e => e = s.dev)) ∧
  (Completes .refDisqualified s (fun e => e.rd F.XTL_STATUS_REF_OK = 0 ∧ e.rd F.XTL_STATUS_REF_DET = 0 ∧ e.power.refPresent = false ∧
    (s.dev.loop 28 = 3 → e.loop 28 = 4 ∧ Raised e 1 28 ∧ e.rd F.CLK_PLL_UNLOCKS_COUNT 28 = min (2 ^ 32 - 1) (s.dev.rd F.CLK_PLL_UNLOCKS_COUNT 28 + 1)) ∧
    (s.dev.loop 28 ≠ 3 → e.loop 28 = s.dev.loop 28) ∧ SameInputs s.dev e ∧
    Frame (0x50C04 :: F.CLK_PLL_UNLOCKS_COUNT.at_ 28 0 :: loopRegs 28) s.dev
      { e with power := { e.power with refPresent := s.dev.power.refPresent }, clocks := s.dev.clocks, inputs := s.dev.inputs }))

/-- The loops (R122–R132): RELOCK and EN act on the LO loops alone; a band search ends with the band closest to the target, or in FAULT; CYCLES consecutive reference cycles inside WINDOW
declare lock, one outside begins the count anew, and so for the loss of lock by cycles beyond UNLOCK or without an edge (R125); lock, the loss of it and leaving LOCKED are shown
and raised; the lock of the last sample clock or fabric loop aligns the engine; an elastic buffer that drifts too far stops its input. Each of these commands completes from every
state, a host command in RUN, and the first clause gives the state it leaves: relock, pllEnable, pllDisable, bandSearchEnd, lockDeclared, lossOfLock, ebufSlipStop. -/
def Obligations.LoopCommandsComplete : Prop :=
  (∀ s : State,
    (∀ (p : Fin 28) (freqs : List Nat), exec (.bandSearchEnd p freqs) s = .next { s with dev := s.dev.searchEnd p freqs }) ∧
    (∀ (o : LoopEdges), exec (.lockDeclared o) s = .next { s with dev := s.dev.lockDeclared o.p o.errs }) ∧
    (∀ (o : LoopEdges), exec (.lossOfLock o) s = .next { s with dev := s.dev.lossOfLock o.p o.errs }) ∧
    (∀ (n : Fin 8) (fill : Int), exec (.ebufSlipStop n fill) s = .next { s with dev := s.dev.ebufSlip n fill }) ∧
    (InRun s →
      (∀ (p : Fin 29), exec (.relock p) s = .next { s with dev := s.dev.relock p }) ∧
      (∀ (p : Fin 29), exec (.pllEnable p) s = .next { s with dev := s.dev.pllEnable p }) ∧
      (∀ (p : Fin 29), exec (.pllDisable p) s = .next { s with dev := s.dev.pllDisable p }))) ∧
  ∀ (s : State) (p : Fin 29),
  (InRun s → isLo p = true → 1 < s.dev.loop p → Completes (.relock p) s (fun e => e.loop p = 1 ∧ e.rd F.CLK_PLL_CTRL_RELOCK p = 1 ∧ e.rd F.CLK_STATUS_CODE = 0 ∧
    (s.dev.loop p = 3 → Raised e 1 p) ∧ SameInputs s.dev e ∧ Frame (F.CLK_PLL_CTRL_RELOCK.at_ p 0 :: loopRegs p) s.dev { e with clocks := s.dev.clocks, inputs := s.dev.inputs })) ∧
  (InRun s → isLo p = false → Completes (.relock p) s (fun e => e.rd F.CLK_STATUS_CODE = 1 ∧ e.loop p = s.dev.loop p ∧ Frame [0x40000] s.dev e)) ∧
  (InRun s → isLo p = true → s.dev.loop p ≤ 1 → Completes (.relock p) s (fun e => e.rd F.CLK_STATUS_CODE = 5 ∧ e.loop p = s.dev.loop p ∧ Frame [0x40000] s.dev e)) ∧
  (InRun s → isLo p = true → Completes (.pllEnable p) s (fun e => e.rd F.CLK_PLL_CTRL_EN p = 1 ∧ e.loop p = (if s.dev.loop p = 0 then 1 else s.dev.loop p) ∧
    SameInputs s.dev e ∧ Frame (F.CLK_PLL_CTRL_EN.at_ p 0 :: loopRegs p) s.dev { e with clocks := s.dev.clocks, inputs := s.dev.inputs })) ∧
  (InRun s → isLo p = true → Completes (.pllDisable p) s (fun e => e.rd F.CLK_PLL_CTRL_EN p = 0 ∧ e.rd F.CLK_PLL_CTRL_RELOCK p = 0 ∧ e.loop p = 0 ∧
    (s.dev.loop p = 3 → Raised e 1 p) ∧ SameInputs s.dev e ∧ Frame (F.CLK_PLL_CTRL_EN.at_ p 0 :: loopRegs p) s.dev { e with clocks := s.dev.clocks, inputs := s.dev.inputs })) ∧
  (InRun s → isLo p = false → Completes (.pllEnable p) s (fun e => e = s.dev) ∧ Completes (.pllDisable p) s (fun e => e = s.dev)) ∧
  (∀ (q : Fin 28) (freqs : List Nat), s.dev.loop q = 1 → Completes (.bandSearchEnd q freqs) s (fun e =>
    e.clk = max s.dev.clk (s.dev.clocks.since.getD q 0 + 40000).toNat ∧ e.rd F.CLK_PLL_CTRL_RELOCK q = 0 ∧
    (e.loop q = 2 ∨ (e.loop q = 6 ∧ Raised e 1 q)) ∧
    (isLo q = false → (e.loop q = 2 → ∀ b, b < 64 → ((freqs.getD (e.rd F.CLK_PLL_STATUS_BAND q) 0 : Int) - s.dev.loopTarget q).natAbs ≤ ((freqs.getD b 0 : Int) - s.dev.loopTarget q).natAbs) ∧
      (e.loop q = 6 → ∀ b, b < 64 → 3 * s.dev.loopTarget q < ((freqs.getD b 0 : Int) - s.dev.loopTarget q).natAbs * 100)) ∧
    Frame (F.CLK_PLL_CTRL_RELOCK.at_ q 0 :: loopRegs q) s.dev { e.atTime s.dev with clocks := s.dev.clocks })) ∧
  (∀ (q : Fin 28) (freqs : List Nat), s.dev.loop q ≠ 1 → Completes (.bandSearchEnd q freqs) s (fun e => e = s.dev)) ∧
  (∀ (errs : List (Option Int)) (r : LoopRun), (s.dev.loop p = 2 ∨ s.dev.loop p = 4 ∨ s.dev.loop p = 5) → (p.val = 28 → s.dev.rd F.XTL_STATUS_REF_OK = 1) →
      s.dev.clocks.runs.getD p ⟨0, 0, 0, s.dev.clk⟩ = r → errs ≠ [] → r.inside + errs.length = s.dev.lockCycles p →
      (∀ x ∈ errs, ∃ v : Int, x = some v ∧ v.natAbs ≤ s.dev.lockWindow p) → Completes (.lockDeclared ⟨p, errs⟩) s (fun e =>
    ((isLo p = true → (s.dev.lo (p - 8)).owed = false) → e.loop p = 3) ∧ Raised e 1 29 ∧
    (s.dev.loop p ≠ 2 → e.rd F.CLK_PLL_LOCKTIME_US p = s.dev.rd F.CLK_PLL_LOCKTIME_US p) ∧
    (s.dev.rd F.CLK_STATUS_ALIGNED = 0 → (∀ q, q ∈ alignLoops → q = p.val ∨ s.dev.loop q = 3) →
      e.rd F.CLK_STATUS_ALIGNED = 1 ∧ e.clk = 0 ∧ e.time.ticks = 0 ∧ ∀ n, n < 8 → (e.input n).idx = 0) ∧
    (s.dev.rd F.CLK_STATUS_ALIGNED = 1 → s.dev.loop p = 2 →
      e.rd F.CLK_PLL_LOCKTIME_US p = ((e.clk : Int) - s.dev.clocks.since.getD p 0).toNat / 1000 % 2 ^ 32) ∧
    (s.dev.rd F.CLK_STATUS_ALIGNED = 1 → p.val ≠ 27 → e.clk = max s.dev.clk (r.upTo + errs.length * s.dev.refClocks p)))) ∧
  (∀ v : Int, (s.dev.loop p = 2 ∨ s.dev.loop p = 4 ∨ s.dev.loop p = 5) → (p.val = 28 → s.dev.rd F.XTL_STATUS_REF_OK = 1) → s.dev.lockWindow p < v.natAbs →
      Completes (.lockDeclared ⟨p, [some v]⟩) s (fun e =>
    e.loop p = s.dev.loop p ∧ (e.clocks.runs.get? p).map (fun r => (r.inside, r.missing, r.upTo)) = some (0, 0, e.clk) ∧
    e.rd F.CLK_PLL_PHASE_ERR p = unsigned 16 v ∧ Frame [F.CLK_PLL_PHASE_ERR.at_ p 0] s.dev { e.atTime s.dev with clocks := s.dev.clocks })) ∧
  (∀ errs : List (Option Int), (s.dev.loop p ≠ 2 ∧ s.dev.loop p ≠ 4 ∧ s.dev.loop p ≠ 5) ∨ (p.val = 28 ∧ s.dev.rd F.XTL_STATUS_REF_OK = 0) →
    Completes (.lockDeclared ⟨p, errs⟩) s (fun e => e = s.dev)) ∧
  (∀ (errs : List (Option Int)) (r : LoopRun), s.dev.loop p = 3 → s.dev.clocks.runs.getD p ⟨0, 0, 0, s.dev.clk⟩ = r → errs ≠ [] →
      (r.outside + errs.length = s.dev.lossCycles p ∧ ∀ x ∈ errs, ∃ v : Int, x = some v ∧ s.dev.lossUnlock p < v.natAbs) ∨
        (r.missing + errs.length = s.dev.lossCycles p ∧ ∀ x ∈ errs, x = none) →
      Completes (.lossOfLock ⟨p, errs⟩) s (fun e =>
    e.loop p = (if p.val = 26 ∨ p.val = 27 then 5 else 4) ∧ Raised e 1 p ∧ e.clk = max s.dev.clk (r.upTo + errs.length * s.dev.refClocks p) ∧
    e.rd F.CLK_PLL_UNLOCKS_COUNT p = min (2 ^ 32 - 1) (s.dev.rd F.CLK_PLL_UNLOCKS_COUNT p + 1) ∧
    Frame (F.CLK_PLL_UNLOCKS_COUNT.at_ p 0 :: F.CLK_PLL_PHASE_ERR.at_ p 0 :: loopRegs p) s.dev { e.atTime s.dev with clocks := s.dev.clocks })) ∧
  (∀ v : Int, s.dev.loop p = 3 → v.natAbs ≤ s.dev.lossUnlock p → Completes (.lossOfLock ⟨p, [some v]⟩) s (fun e =>
    e.loop p = 3 ∧ (e.clocks.runs.get? p).map (fun r => (r.outside, r.missing, r.upTo)) = some (0, 0, e.clk) ∧
    Frame [F.CLK_PLL_PHASE_ERR.at_ p 0] s.dev { e.atTime s.dev with clocks := s.dev.clocks })) ∧
  (∀ errs : List (Option Int), s.dev.loop p ≠ 3 → Completes (.lossOfLock ⟨p, errs⟩) s (fun e => e = s.dev)) ∧
  (∀ (n : Fin 8) (fill : Int), 56 ≤ fill.natAbs → s.dev.cnvState n = 1 → Completes (.ebufSlipStop n fill) s (fun e =>
    e.rd F.CLK_EBUF_FILL n = unsigned 8 fill ∧ e.rd F.CLK_EBUF_SLIP_STOP n = 1 ∧ e.cnvState n = 0 ∧ e.clocks.slipped.get? n = some () ∧ Raised e 1 31)) ∧
  (∀ (n : Fin 8) (fill : Int), fill.natAbs < 56 ∨ s.dev.cnvState n ≠ 1 → Completes (.ebufSlipStop n fill) s (fun e =>
    e.rd F.CLK_EBUF_FILL n = unsigned 8 fill ∧ Frame [F.CLK_EBUF_FILL.at_ n 0] s.dev e))

/-- LO profiles (R133–R138); a host command on the clock of a cue's command acts one clock later (R137): START checks the profile and begins its segment, or leaves the first failing check's code; STEP lets a waiting segment begin or is latched; HOLD stops the profile where it
stands and RESUME lets it go on; STOP ends it, releasing its halyards and keeping its frequency; a segment that runs out begins the next; the window takes writes while no profile
is in progress. Each of these commands completes from every state, a host command in RUN, and the first clause gives the state it leaves: loStart, loStep, loHold, loResume, loStop,
segmentEnd, profileWrite. -/
def Obligations.LocalOscillatorCommandsComplete : Prop :=
  (∀ s : State,
    (∀ (i : Fin 4), exec (.segmentEnd i) s = .next { s with dev := s.dev.segmentEnd i }) ∧
    (InRun s →
      (∀ (i : Fin 4) (seg : Fin 256), exec (.loStart i seg) s = .next { s with dev := s.dev.loHost i 1 seg }) ∧
      (∀ (i : Fin 4), exec (.loStep i) s = .next { s with dev := s.dev.loHost i 2 0 }) ∧
      (∀ (i : Fin 4), exec (.loHold i) s = .next { s with dev := s.dev.loHost i 3 0 }) ∧
      (∀ (i : Fin 4), exec (.loResume i) s = .next { s with dev := s.dev.loHost i 4 0 }) ∧
      (∀ (i : Fin 4), exec (.loStop i) s = .next { s with dev := s.dev.loHost i 5 0 }) ∧
      (∀ (i : Fin 4) (k : Fin 2048) (v : Word), exec (.profileWrite i k v) s = .next { s with dev := s.dev.profileWrite i k v }))) ∧
  ∀ (s : State) (i : Fin 4),
  (∀ g : Fin 256, InRun s → s.dev.loState i ≠ 2 → s.dev.loCheck i 257 g (s.dev.loFreq i (s.dev.loLate i)) = 0 → Completes (.loStart i g) s (fun e =>
    e.rd F.CLK_STATUS_CODE = 0 ∧ SegmentRuns i g s.dev e ∧
    ((s.dev.segment i g).kind ≠ 0xFF → ∀ h, h ∈ s.dev.loHalyards i 256 g → e.hasDriver h 6 i = true))) ∧
  (∀ (g : Fin 256) (c : Nat), InRun s → s.dev.loState i ≠ 2 → s.dev.loCheck i 257 g (s.dev.loFreq i (s.dev.loLate i)) = c → c ≠ 0 →
    Completes (.loStart i g) s (fun e => e.rd F.CLK_STATUS_CODE = c ∧ Frame [0x40000] s.dev { e with clocks := { e.clocks with turns := s.dev.clocks.turns } })) ∧
  (∀ g : Fin 256, InRun s → s.dev.loState i = 2 → Completes (.loStart i g) s (fun e => e.rd F.CLK_STATUS_CODE = 5 ∧
    Frame [0x40000] s.dev { e with clocks := { e.clocks with turns := s.dev.clocks.turns } })) ∧
  (InRun s → s.dev.loState i = 2 → Completes (.loStep i) s (fun e => e.rd F.CLK_STATUS_CODE = 0 ∧
    e.rd F.CLK_LO_STATUS_SEG i = s.dev.rd F.CLK_LO_STATUS_SEG i ∧
    e.loState i = (if (s.dev.segment i (s.dev.rd F.CLK_LO_STATUS_SEG i)).kind = 0xFF then 4 else 1))) ∧
  (InRun s → s.dev.loState i ≠ 2 → s.dev.rd F.CLK_LO_STATUS_STEP_LATCHED i = 0 → Completes (.loStep i) s (fun e => e.rd F.CLK_STATUS_CODE = 0 ∧
    e.rd F.CLK_LO_STATUS_STEP_LATCHED i = 1 ∧
    Frame [0x40000, F.CLK_LO_STATUS_PSTATE.at_ i 0] s.dev { e with clocks := { e.clocks with turns := s.dev.clocks.turns } })) ∧
  (InRun s → s.dev.loState i ≠ 2 → s.dev.rd F.CLK_LO_STATUS_STEP_LATCHED i = 1 → Completes (.loStep i) s (fun e => e.rd F.CLK_STATUS_CODE = 0 ∧
    e.rd F.CLK_LO_STEPDROP_COUNT i = min (2 ^ 32 - 1) (s.dev.rd F.CLK_LO_STEPDROP_COUNT i + 1) ∧
    Frame [0x40000, F.CLK_LO_STEPDROP_COUNT.at_ i 0] s.dev { e with clocks := { e.clocks with turns := s.dev.clocks.turns } })) ∧
  (InRun s → s.dev.loState i = 2 → Completes (.loHold i) s (fun e => e.rd F.CLK_STATUS_CODE = 0 ∧
    e.loState i = 3 ∧ e.loFreq i = s.dev.loFreq i ∧ Frame [0x40000, F.CLK_LO_STATUS_PSTATE.at_ i 0] s.dev { e with clocks := s.dev.clocks })) ∧
  (InRun s → s.dev.loState i = 1 → (s.dev.lo i).started = true → ((s.dev.lo i).lockWait = false ∨ s.dev.loSearches i = false) →
    Completes (.loHold i) s (fun e => e.rd F.CLK_STATUS_CODE = 0 ∧ e.loState i = 3 ∧ e.loFreq i = s.dev.loFreq i (s.dev.loLate i) ∧
      Frame [0x40000, F.CLK_LO_STATUS_PSTATE.at_ i 0] s.dev { e with clocks := s.dev.clocks })) ∧
  (InRun s → s.dev.loState i = 1 → ((s.dev.lo i).started = false ∨ ((s.dev.lo i).lockWait = true ∧ s.dev.loSearches i = true)) → Completes (.loHold i) s (fun e => e.rd F.CLK_STATUS_CODE = 0 ∧
    e.loState i = 1 ∧ (e.lo i).holdLock = true ∧ Frame [0x40000] s.dev { e with clocks := s.dev.clocks })) ∧
  (InRun s → s.dev.loState i = 0 ∨ 2 < s.dev.loState i → Completes (.loHold i) s (fun e => e.rd F.CLK_STATUS_CODE = 5 ∧
    Frame [0x40000] s.dev { e with clocks := { e.clocks with turns := s.dev.clocks.turns } })) ∧
  (InRun s → s.dev.loState i = 3 → (s.dev.lo i).waitHeld = false → Completes (.loResume i) s (fun e => e.rd F.CLK_STATUS_CODE = 0 ∧ e.loState i = 1 ∧
    Frame [0x40000, F.CLK_LO_STATUS_PSTATE.at_ i 0] s.dev { e with clocks := s.dev.clocks })) ∧
  (InRun s → s.dev.loState i = 3 → (s.dev.lo i).waitHeld = true → s.dev.rd F.CLK_LO_STATUS_STEP_LATCHED i = 0 → Completes (.loResume i) s (fun e =>
    e.rd F.CLK_STATUS_CODE = 0 ∧ e.loState i = 2 ∧ Frame [0x40000, F.CLK_LO_STATUS_PSTATE.at_ i 0] s.dev { e with clocks := s.dev.clocks })) ∧
  (InRun s → s.dev.loState i = 3 → (s.dev.lo i).waitHeld = true → s.dev.rd F.CLK_LO_STATUS_STEP_LATCHED i = 1 → Completes (.loResume i) s (fun e =>
    e.rd F.CLK_STATUS_CODE = 0 ∧ e.rd F.CLK_LO_STATUS_STEP_LATCHED i = 0 ∧ e.rd F.CLK_LO_STATUS_SEG i = s.dev.rd F.CLK_LO_STATUS_SEG i ∧
    e.loState i = (if (s.dev.segment i (s.dev.rd F.CLK_LO_STATUS_SEG i)).kind = 0xFF then 4 else 1))) ∧
  (InRun s → s.dev.loState i ≠ 3 → Completes (.loResume i) s (fun e => e.rd F.CLK_STATUS_CODE = 5 ∧
    Frame [0x40000] s.dev { e with clocks := { e.clocks with turns := s.dev.clocks.turns } })) ∧
  (InRun s → Completes (.loStop i) s (fun e => e.rd F.CLK_STATUS_CODE = 0 ∧ e.loState i = 0 ∧ e.loFreq i = s.dev.loFreq i (s.dev.loLate i) ∧ (∀ h, h < 64 → e.hasDriver h 6 i = false) ∧
    Frame ([0x40000, F.CLK_LO_STATUS_PSTATE.at_ i 0] ++ (List.range 64).map (fun k => F.FMR_HAL_DRV_KIND.at_ k 0)) s.dev { e with clocks := s.dev.clocks })) ∧
  (∀ g : Nat, s.dev.loState i = 1 → (s.dev.lo i).counting = true → s.dev.rd F.CLK_LO_STATUS_SEG i + 1 = g → g < 256 → Completes (.segmentEnd i) s (fun e =>
    e.clk = max s.dev.clk ((s.dev.lo i).since + (s.dev.lo i).left) ∧ SegmentRuns i g s.dev e)) ∧
  (s.dev.loState i ≠ 1 ∨ (s.dev.lo i).counting = false → Completes (.segmentEnd i) s (fun e => e = s.dev)) ∧
  (∀ (k : Fin 2048) (v : Word), InRun s → s.dev.loState i = 0 ∨ 3 < s.dev.loState i → Completes (.profileWrite i k v) s (fun e =>
    e.rd F.CLK_LO_PROFILE_WORD i k = v.toNat ∧ Frame [F.CLK_LO_PROFILE_WORD.at_ i k] s.dev e)) ∧
  (∀ (k : Fin 2048) (v : Word), InRun s → 1 ≤ s.dev.loState i ∧ s.dev.loState i ≤ 3 → Completes (.profileWrite i k v) s (fun e =>
    e.rd F.CLK_LO_WDROP_COUNT i = min (2 ^ 32 - 1) (s.dev.rd F.CLK_LO_WDROP_COUNT i + 1) ∧ Frame [F.CLK_LO_WDROP_COUNT.at_ i 0] s.dev e))

/-! ## Channels, transforms and traces (spec/06_channels.md, spec/07_transforms.md) -/

/-- CHAN (R142–R156): START whose checks pass makes the channel RUNNING with code OK, binds input, decimation, span and tuning, begins the run at product index 0 and clears the run's counts; a check that
fails leaves its code, NEED where it was compared, and nothing else; START while RUNNING and STOP while not leave STATE; STOP ends the run. A write of INPUT_SEL or NCO_HI to a running channel takes effect
in it, and an input that does not fit is refused (R144); a threshold event toggles the high state and counts where the outputs decide it. Runs whose source stops end, so frames are stated where every other
source goes on. Each of these commands completes from every state, a host command in RUN, and the first clause gives the state it leaves: chanStart, chanStop, inputSwitch, ncoHiWrite,
thresholdEnter, thresholdLeave. -/
def Obligations.ChannelCommandsComplete : Prop :=
  (∀ s : State,
    (∀ (i : Fin 128) (o : OutputRun), exec (.thresholdEnter i o) s = .next { s with dev := s.dev.threshold i o.j true o.samples }) ∧
    (∀ (i : Fin 128) (o : OutputRun), exec (.thresholdLeave i o) s = .next { s with dev := s.dev.threshold i o.j false o.samples }) ∧
    (InRun s →
      (∀ (i : Fin 128), exec (.chanStart i) s = .next { s with dev := if s.dev.kind i = 1 then s.dev.knobWrite i 0 1 else s.dev }) ∧
      (∀ (i : Fin 128), exec (.chanStop i) s = .next { s with dev := if s.dev.kind i = 1 then s.dev.knobWrite i 0 2 else s.dev }) ∧
      (∀ (i : Fin 128) (v : Fin 9), exec (.inputSwitch i v) s = .next { s with dev := if s.dev.kind i = 1 then s.dev.knobWrite i 0xC v else s.dev }) ∧
      (∀ (i : Fin 128) (v : BitVec 16), exec (.ncoHiWrite i v) s = .next { s with dev := if s.dev.kind i = 1 then s.dev.knobWrite i 0x1C v.toNat else s.dev }))) ∧
  ∀ (s : State) (i : Fin 128),
  (InRun s → s.dev.takes i 1 0 1 = true → s.dev.chanRunning i = false → s.dev.chanCheck i = 0 → s.dev.fedAll = true → Completes (.chanStart i) s (fun e =>
    e.chanRunning i = true ∧ e.secStatus i = 0 ∧ e.knobBits i 4 0 1 = 1 ∧ e.knob i 0x78 = 0 ∧ e.knob i 0x7C = 0 ∧ e.knob i 0x80 = 0 ∧
    e.knob i 0x50 = (s.dev.chain i).dec (s.dev.knob i 0x38 == 1) % 2 ^ 32 ∧ e.knob i 0x60 = (s.dev.chain i).span (s.dev.knob i 0x38 == 1) % 2 ^ 32 ∧
    e.knob i 0x70 = packNeed ((s.dev.chain i).need (s.dev.chanLanes i) (s.dev.knob i 0x38 == 1)) ∧
    (e.chan i).input = s.dev.knob i 0xC ∧ (e.chan i).lanes = s.dev.chanLanes i ∧ (e.chan i).dec = (s.dev.chain i).dec (s.dev.knob i 0x38 == 1) ∧
    (e.chan i).tw = s.dev.tuning i ∧ (e.chan i).j0 = 0 ∧ (e.chan i).high = false ∧
    (s.dev.knob i 0x24 ≠ 255 → s.dev.knob i 0xC < 8 → (e.chan i).s0 = s.dev.nextIdx (s.dev.knob i 0xC)) ∧
    (s.dev.knob i 0xC < 8 ∨ (s.dev.oldestRaw (s.dev.knob i 0x10)).isSome = true → (e.runs.get? i).isSome = true ∧
      ∀ u, e.runs.get? i = some u → u.next = 0 ∧ u.source = 0x10 + s.dev.knob i 8) ∧
    (∀ j, j ≠ i.val → e.chans.get? j = s.dev.chans.get? j) ∧
    (s.dev.knob i 0x24 ≠ 255 → Noted (knobAt i 0) 1 s.dev e ∧ RecordsOnly [] s.dev { e with chans := s.dev.chans, cues := s.dev.cues }))) ∧
  (InRun s → s.dev.takes i 1 0 1 = true → s.dev.chanRunning i = false → s.dev.chanCheck i ≠ 0 → s.dev.fedAll = true → Completes (.chanStart i) s (fun e =>
    e.secStatus i = s.dev.chanCheck i ∧
    (s.dev.chanCheck i ≠ 2 → s.dev.chanCheck i ≠ 3 → e.knob i 0x70 = packNeed ((s.dev.chain i).need (s.dev.chanLanes i) (s.dev.knob i 0x38 == 1))) ∧
    KnobFrame [knobAt i 4, knobAt i 0x70] i 0 1 s.dev e)) ∧
  (InRun s → s.dev.takes i 1 0 1 = true → s.dev.chanRunning i = true → s.dev.fedAll = true → Completes (.chanStart i) s (fun e =>
    e.secStatus i = 1 ∧ KnobFrame [knobAt i 4] i 0 1 s.dev e)) ∧
  (InRun s → s.dev.takes i 1 0 2 = true → s.dev.chanRunning i = true → s.dev.runRing i → Completes (.chanStop i) s (fun e =>
    e.chanRunning i = false ∧ e.runs.get? i = none ∧
    (s.dev.fedAll = true → s.dev.unread i = true → e.knobBits i 4 0 2 = 0 ∧ e.secStatus i = 0 ∧ e.knob i 0x84 = 0 ∧
      (∀ j, j ≠ i.val → e.chans.get? j = s.dev.chans.get? j) ∧ Noted (knobAt i 0) 2 s.dev e ∧
      RecordsOnly [] s.dev { e with chans := s.dev.chans, cues := s.dev.cues }))) ∧
  (InRun s → s.dev.takes i 1 0 2 = true → s.dev.chanRunning i = false → s.dev.fedAll = true → Completes (.chanStop i) s (fun e =>
    e.secStatus i = 1 ∧ KnobFrame [knobAt i 4] i 0 2 s.dev e)) ∧
  (∀ v : Fin 9, InRun s → s.dev.takes i 1 0xC v = true → s.dev.chanRunning i = false → s.dev.fedAll = true → Completes (.inputSwitch i v) s (fun e =>
    e.knob i 0xC = v ∧ KnobFrame [knobAt i 0xC] i 0xC v s.dev e)) ∧
  (∀ v : Fin 9, InRun s → s.dev.takes i 1 0xC v = true → s.dev.chanRunning i = true → s.dev.fedAll = true → s.dev.runRing i →
      v.val < 8 → s.dev.cnvState v = 1 → s.dev.lanes v = (s.dev.chan i).lanes → Completes (.inputSwitch i v) s (fun e =>
    e.knob i 0xC = v ∧ (e.chan i).input = v ∧ e.chanRunning i = true ∧ (∀ j, j ≠ i.val → e.chans.get? j = s.dev.chans.get? j) ∧ Noted (knobAt i 0xC) v s.dev e ∧
    RecordsOnly [] s.dev { e with chans := s.dev.chans, cues := s.dev.cues })) ∧
  (∀ v : Fin 9, InRun s → s.dev.takes i 1 0xC v = true → s.dev.chanRunning i = true → s.dev.fedAll = true →
      8 ≤ v.val ∨ s.dev.cnvState v ≠ 1 ∨ s.dev.lanes v ≠ (s.dev.chan i).lanes → Completes (.inputSwitch i v) s (fun e =>
    e.rd F.FMR_SEC_COUNT_KNOB_REFUSE i = min 65535 (s.dev.rd F.FMR_SEC_COUNT_KNOB_REFUSE i + 1) ∧ Raised e 7 7 ∧
    KnobFrame [F.FMR_SEC_COUNT_KNOB_REFUSE.at_ i 0, F.FMR_KNOB_ERR_COUNT.at_ 0 0] i 0xC v s.dev e)) ∧
  (∀ v : BitVec 16, InRun s → s.dev.takes i 1 0x1C v.toNat = true → s.dev.fedAll = true → s.dev.runRing i → Completes (.ncoHiWrite i v) s (fun e =>
    e.knob i 0x1C = v.toNat ∧ e.tuning i = s.dev.knob i 0x18 + v.toNat * 2 ^ 32 ∧ (∀ j, j ≠ i.val → e.sections.get? j = s.dev.sections.get? j) ∧
    (s.dev.chanRunning i = false → KnobFrame [knobAt i 0x1C] i 0x1C v.toNat s.dev { e with sections := s.dev.sections }) ∧
    (s.dev.chanRunning i = true → (e.chan i).tw = s.dev.knob i 0x18 + v.toNat * 2 ^ 32 ∧ (∀ j, j ≠ i.val → e.chans.get? j = s.dev.chans.get? j) ∧
      Noted (knobAt i 0x1C) v.toNat s.dev e ∧ RecordsOnly [] s.dev { e with chans := s.dev.chans, sections := s.dev.sections, cues := s.dev.cues }))) ∧
  (∀ o : OutputRun, s.dev.activeKind i 1 = true → s.dev.chanRunning i = true → s.dev.knobBits i 0x4C 0 1 = 1 → (s.dev.chan i).high = false →
    s.dev.thresholdHolds i o.j true o.samples = true → Completes (.thresholdEnter i o) s (fun e => Crossed i true s.dev e)) ∧
  (∀ o : OutputRun, s.dev.activeKind i 1 = true → s.dev.chanRunning i = true → s.dev.knobBits i 0x4C 0 1 = 1 → (s.dev.chan i).high = true →
    s.dev.thresholdHolds i o.j false o.samples = true → Completes (.thresholdLeave i o) s (fun e => Crossed i false s.dev e)) ∧
  (∀ o : OutputRun, s.dev.chanRunning i = false ∨ s.dev.knobBits i 0x4C 0 1 = 0 ∨ (s.dev.chan i).high = true ∨ s.dev.thresholdHolds i o.j true o.samples = false →
    Completes (.thresholdEnter i o) s (fun e => e = s.dev)) ∧
  (∀ o : OutputRun, s.dev.chanRunning i = false ∨ s.dev.knobBits i 0x4C 0 1 = 0 ∨ (s.dev.chan i).high = false ∨ s.dev.thresholdHolds i o.j false o.samples = false →
    Completes (.thresholdLeave i o) s (fun e => e = s.dev))

/-- XFRM (R167–R180): START whose checks pass makes the transform RUNNING with its size, hop and window, first source index and bin count, its counts cleared; START and STOP answer codes as a channel's
do, and a refused START reports NEED where it was compared. A user window (R172) is read from the ring, offset and length of its WIN_CMD, enters force when every word is in range, and shows WINDOW and
changes nothing otherwise; a load while RUNNING is refused and shows STATE. Each of these commands completes from every state, a host command in RUN, and the first clause gives the state it leaves: xfrmStart, xfrmStop, windowLoad, windowLoadEnd. -/
def Obligations.TransformCommandsComplete : Prop :=
  (∀ s : State,
    (∀ (i : Fin 128), exec (.windowLoadEnd i) s = .next { s with dev := if s.dev.activeKind i 2 then s.dev.windowLoadEnd i else s.dev }) ∧
    (InRun s →
      (∀ (i : Fin 128), exec (.xfrmStart i) s = .next { s with dev := if s.dev.kind i = 2 then s.dev.knobWrite i 0 1 else s.dev }) ∧
      (∀ (i : Fin 128), exec (.xfrmStop i) s = .next { s with dev := if s.dev.kind i = 2 then s.dev.knobWrite i 0 2 else s.dev }) ∧
      (∀ (i : Fin 128), exec (.windowLoad i) s = .next { s with dev := if s.dev.kind i = 2 then s.dev.knobWrite i 0x18 1 else s.dev }))) ∧
  ∀ (s : State) (i : Fin 128),
  (InRun s → s.dev.takes i 2 0 1 = true → s.dev.xfrmRunning i = false → s.dev.xfrmCheck i = 0 → s.dev.knob i 8 ≤ 8 → s.dev.fedAll = true → Completes (.xfrmStart i) s (fun e =>
    e.xfrmRunning i = true ∧ e.secStatus i = 0 ∧ e.knobBits i 4 0 1 = 1 ∧ e.knob i 0x58 = 0 ∧ e.wideKnob i 0x50 = 0 ∧
    e.knob i 0x2C = binCount (s.dev.knob i 0xC) (s.dev.xfrmRate i).2.2 ∧
    (e.xfrm i).size = s.dev.knob i 0xC ∧ (e.xfrm i).hop = s.dev.knob i 0x10 ∧ (e.xfrm i).window = s.dev.knob i 0x14 ∧ (e.xfrm i).input = s.dev.knob i 8 ∧
    (s.dev.knob i 8 < 8 → (e.xfrm i).s0 = s.dev.nextIdx (s.dev.knob i 8)) ∧
    (∀ c, s.dev.knob i 8 = 8 → s.dev.xfrmChan i = some c → (e.xfrm i).s0 = s.dev.unitFrom c s.dev.clk ∧ (e.xfrm i).source = 0x10 + s.dev.knob c 8) ∧
    (s.dev.knob i 0x14 = 0 → e.knob i 0x38 = 0 ∧ e.knob i 0x3C = 65536) ∧
    (∀ j, j ≠ i.val → e.xfrms.get? j = s.dev.xfrms.get? j) ∧ (∀ k, k ≠ knobAt i 0x50 → e.wide.get? k = s.dev.wide.get? k) ∧
    KnobFrame (knobRegs i) i 0 1 s.dev { e with xfrms := s.dev.xfrms, wide := s.dev.wide })) ∧
  (InRun s → s.dev.takes i 2 0 1 = true → s.dev.xfrmRunning i = false → s.dev.xfrmCheck i ≠ 0 → s.dev.fedAll = true → Completes (.xfrmStart i) s (fun e =>
    e.secStatus i = s.dev.xfrmCheck i ∧
    (s.dev.xfrmCheck i ≠ 2 → s.dev.xfrmCheck i ≠ 5 → e.knob i 0x48 =
      packXfrm (xfrmNeed (s.dev.knob i 0xC) (s.dev.knob i 0x10) (s.dev.xfrmRate i).1 (s.dev.xfrmRate i).2.1 (s.dev.xfrmRate i).2.2)) ∧
    KnobFrame [knobAt i 4, knobAt i 0x48] i 0 1 s.dev e)) ∧
  (InRun s → s.dev.takes i 2 0 1 = true → s.dev.xfrmRunning i = true → s.dev.fedAll = true → Completes (.xfrmStart i) s (fun e =>
    e.secStatus i = 1 ∧ KnobFrame [knobAt i 4] i 0 1 s.dev e)) ∧
  (InRun s → s.dev.takes i 2 0 2 = true → s.dev.xfrmRunning i = true → Completes (.xfrmStop i) s (fun e =>
    e.xfrmRunning i = false ∧
    (s.dev.fedAll = true → s.dev.unread i = true → e.knobBits i 4 0 1 = 0 ∧ e.secStatus i = 0 ∧ e.wideKnob i 0x50 = s.dev.framesLive i % 2 ^ 64 ∧
      (∀ j, j ≠ i.val → e.xfrms.get? j = s.dev.xfrms.get? j) ∧ (∀ k, k ≠ knobAt i 0x50 → e.wide.get? k = s.dev.wide.get? k) ∧
      KnobFrame [knobAt i 4] i 0 2 s.dev { e with xfrms := s.dev.xfrms, wide := s.dev.wide }))) ∧
  (InRun s → s.dev.takes i 2 0 2 = true → s.dev.xfrmRunning i = false → s.dev.fedAll = true → Completes (.xfrmStop i) s (fun e =>
    e.secStatus i = 1 ∧ KnobFrame [knobAt i 4] i 0 2 s.dev e)) ∧
  (InRun s → s.dev.takes i 2 0x18 1 = true → s.dev.xfrmRunning i = false → (s.dev.window i).load = none → s.dev.fedAll = true →
      s.dev.knob i 0x28 ∈ (List.range 11).map (fun k => 2 ^ (k + 6)) → Completes (.windowLoad i) s (fun e =>
    (e.window i).load = some (s.dev.clk, s.dev.knob i 0x1C, s.dev.knob i 0x20 + s.dev.knob i 0x24 * 2 ^ 32, s.dev.knob i 0x28) ∧
    (e.window i).table = (s.dev.window i).table ∧ e.knobBits i 4 3 1 = 1 ∧ e.secStatus i = 0 ∧
    KnobFrame [knobAt i 4] i 0x18 1 s.dev { e with windows := s.dev.windows })) ∧
  (InRun s → s.dev.takes i 2 0x18 1 = true → (s.dev.window i).load.isSome = true ∨ s.dev.knob i 0x28 ∉ (List.range 11).map (fun k => 2 ^ (k + 6)) → s.dev.fedAll = true →
    Completes (.windowLoad i) s (fun e => e.secStatus i = 1 ∧ KnobFrame [knobAt i 4] i 0x18 1 s.dev e)) ∧
  (∀ r, InRun s → s.dev.activeKind i 2 = true → s.dev.xfrmRunning i = true → s.dev.knobRow i 0x18 = some r → r.lockedByRun = true → Completes (.windowLoad i) s (fun e =>
    e.secStatus i = 1 ∧ e.rd F.FMR_SEC_COUNT_KNOB_REFUSE i = min 65535 (s.dev.rd F.FMR_SEC_COUNT_KNOB_REFUSE i + 1) ∧ Raised e 7 7 ∧
    Frame [knobAt i 4, F.FMR_SEC_COUNT_KNOB_REFUSE.at_ i 0, F.FMR_KNOB_ERR_COUNT.at_ 0 0] s.dev e)) ∧
  (∀ t ring off n : Nat, s.dev.activeKind i 2 = true → (s.dev.window i).load = some (t, ring, off, n) → Completes (.windowLoadEnd i) s (fun e =>
    (e.window i).load = none ∧ e.knobBits i 4 3 1 = 0 ∧ e.clk = max s.dev.clk (t + 50000 + 4 * n) ∧
    (((List.range n).map (fun k => leNat (s.dev.ringBytes ring (off + 4 * k) 4))).all (· ≤ 131072) = true →
      e.secStatus i = 0 ∧ (e.window i).table = (List.range n).map (fun k => leNat (s.dev.ringBytes ring (off + 4 * k) 4))) ∧
    (((List.range n).map (fun k => leNat (s.dev.ringBytes ring (off + 4 * k) 4))).all (· ≤ 131072) = false →
      e.secStatus i = 5 ∧ (e.window i).table = (s.dev.window i).table) ∧
    Frame [knobAt i 4, knobAt i 0x38, knobAt i 0x3C] s.dev { e.atTime s.dev with windows := s.dev.windows })) ∧
  ((s.dev.window i).load = none → Completes (.windowLoadEnd i) s (fun e => e = s.dev))

/-- TRACE (R182–R191): START whose checks pass makes the trace RUNNING over its bound transform, its counts cleared and, while that is ACTIVE, its run begun with the next frame that leaves; codes as a
channel's; STOP ends the run; an interval with at least one used frame counts a complete trace and moves the run on by its points, one with none is a loss of its points and
counted as such. Each of these commands completes from every state, a host command in RUN, and the first clause gives the state it leaves: traceStart, traceStop, traceComplete. -/
def Obligations.TraceCommandsComplete : Prop :=
  (∀ s : State,
    (∀ (i : Fin 128) (t : Nat) (codes : List (BitVec 12)), exec (.traceComplete i t codes) s = .next { s with dev := s.dev.traceComplete i t codes }) ∧
    (InRun s →
      (∀ (i : Fin 128), exec (.traceStart i) s = .next { s with dev := if s.dev.kind i = 3 then s.dev.knobWrite i 0 1 else s.dev }) ∧
      (∀ (i : Fin 128), exec (.traceStop i) s = .next { s with dev := if s.dev.kind i = 3 then s.dev.knobWrite i 0 2 else s.dev }))) ∧
  ∀ (s : State) (i : Fin 128),
  (∀ x : Nat, InRun s → s.dev.takes i 3 0 1 = true → s.dev.traceRunning i = false → s.dev.boundXfrm i 0 = some x → s.dev.traceCheck i = 0 → s.dev.fedAll = true →
    Completes (.traceStart i) s (fun e =>
      e.traceRunning i = true ∧ e.secStatus i = 0 ∧ e.knobBits i 4 0 1 = 1 ∧ e.knob i 0x30 = 0 ∧ e.knob i 0x34 = 0 ∧ e.wideKnob i 0x28 = 0 ∧
      (e.trace i).xfrm = x ∧ (e.trace i).points = s.dev.knob i 0x18 ∧ (e.trace i).frames = s.dev.knob i 0x14 ∧
      (s.dev.secState x = 2 → (e.trace i).f0 = s.dev.frameNow x ∧ (e.runs.get? i).isSome = true ∧
        ∀ u, e.runs.get? i = some u → u.next = 0 ∧ u.source = (s.dev.xfrm x).source) ∧
      (s.dev.secState x ≠ 2 → e.runs = s.dev.runs) ∧
      (∀ j, j ≠ i.val → e.traces.get? j = s.dev.traces.get? j) ∧ Noted (knobAt i 0) 1 s.dev e ∧
      RecordsOnly [] s.dev { e with traces := s.dev.traces, cues := s.dev.cues })) ∧
  (InRun s → s.dev.takes i 3 0 1 = true → s.dev.traceRunning i = false → s.dev.traceCheck i ≠ 0 → s.dev.fedAll = true → Completes (.traceStart i) s (fun e =>
    e.secStatus i = s.dev.traceCheck i ∧ (s.dev.traceCheck i ≠ 3 → e.knob i 0x38 = s.dev.knob i 0x38) ∧
    (∀ x, s.dev.boundXfrm i 0 = some x → s.dev.traceCheck i = 3 → e.knob i 0x38 =
      packTrace (traceNeed (s.dev.xfrm x).bins (s.dev.knob i 0xC) (s.dev.knobBits i 0x10 0 1) (s.dev.knob i 0x18) ((s.dev.knob i 0x24).testBit 0))) ∧
    KnobFrame [knobAt i 4, knobAt i 0x38] i 0 1 s.dev e)) ∧
  (InRun s → s.dev.takes i 3 0 1 = true → s.dev.traceRunning i = true → s.dev.fedAll = true → Completes (.traceStart i) s (fun e =>
    e.secStatus i = 1 ∧ KnobFrame [knobAt i 4] i 0 1 s.dev e)) ∧
  (InRun s → s.dev.takes i 3 0 2 = true → s.dev.traceRunning i = true → s.dev.runRing i → Completes (.traceStop i) s (fun e =>
    e.traceRunning i = false ∧ e.runs.get? i = none ∧
    (s.dev.fedAll = true → e.knobBits i 4 0 1 = 0 ∧ e.secStatus i = 0 ∧ (∀ j, j ≠ i.val → e.traces.get? j = s.dev.traces.get? j) ∧
      Noted (knobAt i 0) 2 s.dev e ∧ RecordsOnly [] s.dev { e with traces := s.dev.traces, cues := s.dev.cues }))) ∧
  (InRun s → s.dev.takes i 3 0 2 = true → s.dev.traceRunning i = false → s.dev.fedAll = true → Completes (.traceStop i) s (fun e =>
    e.secStatus i = 1 ∧ KnobFrame [knobAt i 4] i 0 2 s.dev e)) ∧
  (∀ (n : Nat) (codes : List (BitVec 12)) (u : Run) (x : Nat), s.dev.activeKind i 3 = true → s.dev.traceRunning i = true → s.dev.runs.get? i = some u → u.losses = [] →
      s.dev.runRing i → (s.dev.trace i).xfrm = x → (s.dev.xfrm x).input < 8 ∨ s.dev.secState (s.dev.xfrm x).chan = 2 → u.next = n * (s.dev.trace i).points →
      (∀ k, k < (s.dev.trace i).frames → s.dev.frameCause x ((s.dev.trace i).f0 + n * (s.dev.trace i).frames + k) ≠ 0) → Completes (.traceComplete i n codes) s (fun e =>
    (∀ v, e.runs.get? i = some v → v.next = u.next + (s.dev.trace i).points) ∧ e.knob i 0x30 = min (2 ^ 32 - 1) (s.dev.knob i 0x30 + 1) ∧
    e.wideKnob i 0x28 = s.dev.wideKnob i 0x28 ∧ RecordsOnly [] s.dev e)) ∧
  (∀ (n : Nat) (codes : List (BitVec 12)) (u : Run) (x : Nat) (used : List UsedFrame), s.dev.activeKind i 3 = true → s.dev.traceRunning i = true →
      s.dev.runs.get? i = some u → u.losses = [] → s.dev.runRing i → (s.dev.trace i).xfrm = x → (s.dev.xfrm x).input < 8 ∨ s.dev.secState (s.dev.xfrm x).chan = 2 →
      u.next = n * (s.dev.trace i).points →
      (∃ k, k < (s.dev.trace i).frames ∧ s.dev.frameCause x ((s.dev.trace i).f0 + n * (s.dev.trace i).frames + k) = 0) →
      s.dev.usedFrames x ((s.dev.trace i).f0 + n * (s.dev.trace i).frames) (s.dev.trace i).frames codes = some used → Completes (.traceComplete i n codes) s (fun e =>
    (∀ v, e.runs.get? i = some v → v.next = u.next + (s.dev.trace i).points) ∧ e.wideKnob i 0x28 = (s.dev.wideKnob i 0x28 + 1) % 2 ^ 64 ∧
    e.knob i 0x30 = s.dev.knob i 0x30 ∧ (used.length < (s.dev.trace i).frames → e.knob i 0x34 = min (2 ^ 32 - 1) (s.dev.knob i 0x34 + 1)) ∧
    (∀ j, j ≠ i.val → e.traces.get? j = s.dev.traces.get? j) ∧ RecordsOnly [] s.dev { e with traces := s.dev.traces })) ∧
  (∀ (n : Nat) (codes : List (BitVec 12)) (u : Run) (x : Nat), s.dev.runs.get? i = some u → u.next ≠ n * (s.dev.trace i).points → (s.dev.trace i).xfrm = x →
      (s.dev.xfrm x).input < 8 ∨ s.dev.secState (s.dev.xfrm x).chan = 2 → Completes (.traceComplete i n codes) s (fun e => e = s.dev)) ∧
  (∀ (n : Nat) (codes : List (BitVec 12)), s.dev.traceRunning i = false → Completes (.traceComplete i n codes) s (fun e => e = s.dev))

/-! ## Cores (spec/08_cores.md) -/

/-- Arithmetic and logic (R204, R205): each operation of format S gives register D its value of R204, read from the next instruction on (MUL after 3 slots), sets SR.SAT where it saturates, does what its memory
slots and address update say, moves to the next instruction and leaves everything else alone. Each of these commands completes from every state, and the first clause gives the state it leaves: add, sub, adds, subs, and, or, xor, shl, shr, sra, min, max, abs, cmplt, cmpeq, mul. -/
def Obligations.CoreArithmeticComplete : Prop :=
  (∀ s : State,
    (∀ (c : Fin 144), exec (.add c) s = .next { s with dev := s.dev.coreInstr c 1 }) ∧
    (∀ (c : Fin 144), exec (.sub c) s = .next { s with dev := s.dev.coreInstr c 2 }) ∧
    (∀ (c : Fin 144), exec (.adds c) s = .next { s with dev := s.dev.coreInstr c 3 }) ∧
    (∀ (c : Fin 144), exec (.subs c) s = .next { s with dev := s.dev.coreInstr c 4 }) ∧
    (∀ (c : Fin 144), exec (.and c) s = .next { s with dev := s.dev.coreInstr c 5 }) ∧
    (∀ (c : Fin 144), exec (.or c) s = .next { s with dev := s.dev.coreInstr c 6 }) ∧
    (∀ (c : Fin 144), exec (.xor c) s = .next { s with dev := s.dev.coreInstr c 7 }) ∧
    (∀ (c : Fin 144), exec (.shl c) s = .next { s with dev := s.dev.coreInstr c 8 }) ∧
    (∀ (c : Fin 144), exec (.shr c) s = .next { s with dev := s.dev.coreInstr c 9 }) ∧
    (∀ (c : Fin 144), exec (.sra c) s = .next { s with dev := s.dev.coreInstr c 10 }) ∧
    (∀ (c : Fin 144), exec (.min c) s = .next { s with dev := s.dev.coreInstr c 11 }) ∧
    (∀ (c : Fin 144), exec (.max c) s = .next { s with dev := s.dev.coreInstr c 12 }) ∧
    (∀ (c : Fin 144), exec (.abs c) s = .next { s with dev := s.dev.coreInstr c 13 }) ∧
    (∀ (c : Fin 144), exec (.cmplt c) s = .next { s with dev := s.dev.coreInstr c 14 }) ∧
    (∀ (c : Fin 144), exec (.cmpeq c) s = .next { s with dev := s.dev.coreInstr c 15 }) ∧
    (∀ (c : Fin 144), exec (.mul c) s = .next { s with dev := s.dev.coreInstr c 16 })) ∧
  ∀ (s : State) (c : Fin 144),
  (s.dev.issues c 1 = true → Completes (.add c) s (fun e => Issued c s.dev e 1 (((s.dev.s1 c) + (s.dev.s2 c)).toInt) ∧ (e.core c).sr = ((s.dev.atIssue c).core c).sr)) ∧
  (s.dev.issues c 2 = true → Completes (.sub c) s (fun e => Issued c s.dev e 1 (((s.dev.s1 c) - (s.dev.s2 c)).toInt) ∧ (e.core c).sr = ((s.dev.atIssue c).core c).sr)) ∧
  (s.dev.issues c 3 = true → Completes (.adds c) s (fun e => Issued c s.dev e 1 (sat32 ((s.dev.s1 c).toInt + (s.dev.s2 c).toInt)) ∧ Saturated c s.dev e (sat32 ((s.dev.s1 c).toInt + (s.dev.s2 c).toInt) != (s.dev.s1 c).toInt + (s.dev.s2 c).toInt))) ∧
  (s.dev.issues c 4 = true → Completes (.subs c) s (fun e => Issued c s.dev e 1 (sat32 ((s.dev.s1 c).toInt - (s.dev.s2 c).toInt)) ∧ Saturated c s.dev e (sat32 ((s.dev.s1 c).toInt - (s.dev.s2 c).toInt) != (s.dev.s1 c).toInt - (s.dev.s2 c).toInt))) ∧
  (s.dev.issues c 5 = true → Completes (.and c) s (fun e => Issued c s.dev e 1 (((s.dev.s1 c) &&& (s.dev.s2 c)).toInt) ∧ (e.core c).sr = ((s.dev.atIssue c).core c).sr)) ∧
  (s.dev.issues c 6 = true → Completes (.or c) s (fun e => Issued c s.dev e 1 (((s.dev.s1 c) ||| (s.dev.s2 c)).toInt) ∧ (e.core c).sr = ((s.dev.atIssue c).core c).sr)) ∧
  (s.dev.issues c 7 = true → Completes (.xor c) s (fun e => Issued c s.dev e 1 (((s.dev.s1 c) ^^^ (s.dev.s2 c)).toInt) ∧ (e.core c).sr = ((s.dev.atIssue c).core c).sr)) ∧
  (s.dev.issues c 8 = true → Completes (.shl c) s (fun e => Issued c s.dev e 1 (((s.dev.s1 c) <<< ((s.dev.s2 c).toNat % 32)).toInt) ∧ (e.core c).sr = ((s.dev.atIssue c).core c).sr)) ∧
  (s.dev.issues c 9 = true → Completes (.shr c) s (fun e => Issued c s.dev e 1 (((s.dev.s1 c) >>> ((s.dev.s2 c).toNat % 32)).toInt) ∧ (e.core c).sr = ((s.dev.atIssue c).core c).sr)) ∧
  (s.dev.issues c 10 = true → Completes (.sra c) s (fun e => Issued c s.dev e 1 (((s.dev.s1 c).sshiftRight ((s.dev.s2 c).toNat % 32)).toInt) ∧ (e.core c).sr = ((s.dev.atIssue c).core c).sr)) ∧
  (s.dev.issues c 11 = true → Completes (.min c) s (fun e => Issued c s.dev e 1 ((min (s.dev.s1 c).toInt (s.dev.s2 c).toInt)) ∧ (e.core c).sr = ((s.dev.atIssue c).core c).sr)) ∧
  (s.dev.issues c 12 = true → Completes (.max c) s (fun e => Issued c s.dev e 1 ((max (s.dev.s1 c).toInt (s.dev.s2 c).toInt)) ∧ (e.core c).sr = ((s.dev.atIssue c).core c).sr)) ∧
  (s.dev.issues c 13 = true → Completes (.abs c) s (fun e => Issued c s.dev e 1 ((min 2147483647 ((s.dev.s1 c).toInt.natAbs : Int))) ∧ Saturated c s.dev e (decide ((s.dev.s1 c) = 0x80000000)))) ∧
  (s.dev.issues c 14 = true → Completes (.cmplt c) s (fun e => Issued c s.dev e 1 ((if (s.dev.s1 c).toInt < (s.dev.s2 c).toInt then 1 else 0)) ∧ (e.core c).sr = ((s.dev.atIssue c).core c).sr)) ∧
  (s.dev.issues c 15 = true → Completes (.cmpeq c) s (fun e => Issued c s.dev e 1 ((if (s.dev.s1 c) = (s.dev.s2 c) then 1 else 0)) ∧ (e.core c).sr = ((s.dev.atIssue c).core c).sr)) ∧
  (s.dev.issues c 16 = true → Completes (.mul c) s (fun e => Issued c s.dev e 3 (((s.dev.s1 c) * (s.dev.s2 c)).toInt) ∧ (e.core c).sr = ((s.dev.atIssue c).core c).sr))

/-- Accumulators, control registers and address registers (R199, R204, R205, R207, R208, R214): the MAC family accumulates, MOVS shifts and saturates and keeps NEED and SHIFT, MOVAL, MOVAH and MOVAG read parts,
ACCSET sets all 64 bits, SADOPT takes NEED over, DIVS makes a division step (outside its defined operands both results are free values, log entry 2), MOVR and MOVW reach the control registers, MOVAD and
MOVDA the address registers; NOP does no more than its slots. Each of these commands completes from every state, and the first clause gives the state it leaves: nop, mac, msu, macz, mac2,
movs, moval, movah, movag, accset, sadopt, divs, movr, movw, movad, movda. -/
def Obligations.CoreAccumulatorAndMoveComplete : Prop :=
  (∀ s : State,
    (∀ (c : Fin 144), exec (.nop c) s = .next { s with dev := s.dev.coreInstr c 0 }) ∧
    (∀ (c : Fin 144), exec (.mac c) s = .next { s with dev := s.dev.coreInstr c 17 }) ∧
    (∀ (c : Fin 144), exec (.msu c) s = .next { s with dev := s.dev.coreInstr c 18 }) ∧
    (∀ (c : Fin 144), exec (.macz c) s = .next { s with dev := s.dev.coreInstr c 19 }) ∧
    (∀ (c : Fin 144), exec (.mac2 c) s = .next { s with dev := s.dev.coreInstr c 20 }) ∧
    (∀ (c : Fin 144), exec (.movs c) s = .next { s with dev := s.dev.coreInstr c 21 }) ∧
    (∀ (c : Fin 144), exec (.moval c) s = .next { s with dev := s.dev.coreInstr c 22 }) ∧
    (∀ (c : Fin 144), exec (.movah c) s = .next { s with dev := s.dev.coreInstr c 23 }) ∧
    (∀ (c : Fin 144), exec (.movag c) s = .next { s with dev := s.dev.coreInstr c 24 }) ∧
    (∀ (c : Fin 144), exec (.accset c) s = .next { s with dev := s.dev.coreInstr c 25 }) ∧
    (∀ (c : Fin 144), exec (.sadopt c) s = .next { s with dev := s.dev.coreInstr c 26 }) ∧
    (∀ (c : Fin 144), exec (.divs c) s = .next { s with dev := s.dev.coreInstr c 27 }) ∧
    (∀ (c : Fin 144), exec (.movr c) s = .next { s with dev := s.dev.coreInstr c 28 }) ∧
    (∀ (c : Fin 144), exec (.movw c) s = .next { s with dev := s.dev.coreInstr c 29 }) ∧
    (∀ (c : Fin 144), exec (.movad c) s = .next { s with dev := s.dev.coreInstr c 30 }) ∧
    (∀ (c : Fin 144), exec (.movda c) s = .next { s with dev := s.dev.coreInstr c 31 })) ∧
  ∀ (s : State) (c : Fin 144),
  (s.dev.issues c 0 = true → Completes (.nop c) s (fun e => CoreStep c s.dev e (s.dev.updated c) ∧ (e.core c).sr = ((s.dev.atIssue c).core c).sr)) ∧
  (s.dev.issues c 17 = true → Completes (.mac c) s (fun e => Accumulated c s.dev e (s.dev.macIn c + (s.dev.s1 c).toInt * (s.dev.s2 c).toInt))) ∧
  (s.dev.issues c 18 = true → Completes (.msu c) s (fun e => Accumulated c s.dev e (s.dev.macIn c - (s.dev.s1 c).toInt * (s.dev.s2 c).toInt))) ∧
  (s.dev.issues c 19 = true → Completes (.macz c) s (fun e => Accumulated c s.dev e ((s.dev.s1 c).toInt * (s.dev.s2 c).toInt))) ∧
  (s.dev.issues c 20 = true → Completes (.mac2 c) s (fun e => Accumulated c s.dev e (s.dev.macIn c + (signed 16 (s.dev.s1 c).toNat * signed 16 (s.dev.s2 c).toNat + signed 16 ((s.dev.s1 c).toNat / 65536) * signed 16 ((s.dev.s2 c).toNat / 65536))))) ∧
  (s.dev.issues c 21 = true → Completes (.movs c) s (fun e => let n := min 71 (((s.dev.atIssue c).core c).sr.field 0 7); Issued c s.dev e 1 (sat32 (roundShift (s.dev.accIn c) n)) ∧ (SrQuiet c s.dev → (e.core c).sr.field 16 7 = n ∧
      (e.core c).sr.field 8 7 = max (((s.dev.atIssue c).core c).sr.field 8 7) (needShift (s.dev.accIn c)) ∧
      (e.core c).sr.getLsbD 15 = (((s.dev.atIssue c).core c).sr.getLsbD 15 || sat32 (roundShift (s.dev.accIn c) n) != roundShift (s.dev.accIn c) n)))) ∧
  (s.dev.issues c 22 = true → Completes (.moval c) s (fun e => Issued c s.dev e 1 (s.dev.accIn c % 2 ^ 32))) ∧
  (s.dev.issues c 23 = true → Completes (.movah c) s (fun e => Issued c s.dev e 1 (s.dev.accIn c / 2 ^ 32 % 2 ^ 32))) ∧
  (s.dev.issues c 24 = true → Completes (.movag c) s (fun e => Issued c s.dev e 1 (s.dev.accIn c / 2 ^ 64))) ∧
  (s.dev.issues c 25 = true → Completes (.accset c) s (fun e => (e.core c).accMac.getD (fAcc (s.dev.opWord c)) 0 = signed 64 ((s.dev.s2 c).toNat * 2 ^ 32 + (s.dev.s1 c).toNat) ∧
    (e.core c).acc.getD (fAcc (s.dev.opWord c)) 0 = signed 64 ((s.dev.s2 c).toNat * 2 ^ 32 + (s.dev.s1 c).toNat) ∧ CoreStep c s.dev e (s.dev.updated c))) ∧
  (s.dev.issues c 26 = true → Completes (.sadopt c) s (fun e => (⟨2, .shift, ((s.dev.atIssue c).core c).sr.field 8 7⟩ : Flight) ∈ (e.core c).flight ∧ (e.core c).sr.field 8 7 = 0 ∧ CoreStep c s.dev e (s.dev.updated c))) ∧
  (s.dev.issues c 27 = true → 0 < (s.dev.s1 c).toNat → (s.dev.s1 c).toNat < 2 ^ 31 → -((s.dev.s1 c).toNat * 65536 : Nat) ≤ s.dev.accIn c → s.dev.accIn c < ((s.dev.s1 c).toNat * 65536 : Nat) → Completes (.divs c) s (fun e =>
    let r : Int := if 0 ≤ s.dev.accIn c then 2 * s.dev.accIn c - ((s.dev.s1 c).toNat * 65536 : Nat) else 2 * s.dev.accIn c + ((s.dev.s1 c).toNat * 65536 : Nat)
    Issued c s.dev e 1 (((s.dev.sd c) <<< 1 ||| (if 0 ≤ r then 1 else 0)).toInt) ∧ (e.core c).acc.getD (fAcc (s.dev.opWord c)) 0 = clampInt (-accMax) accMax r)) ∧
  (s.dev.issues c 27 = true → (s.dev.s1 c).toNat = 0 ∨ 2 ^ 31 ≤ (s.dev.s1 c).toNat ∨ s.dev.accIn c < -((s.dev.s1 c).toNat * 65536 : Nat) ∨ ((s.dev.s1 c).toNat * 65536 : Nat) ≤ s.dev.accIn c → Completes (.divs c) s (fun e =>
    Issued c { s.dev with freeCtr := s.dev.freeCtr + 2 } e 1 (signed 32 (Config.freeNat (s.dev.freeCtr + 1))) ∧
    (e.core c).acc.getD (fAcc (s.dev.opWord c)) 0 = clampInt (-accMax) accMax (signed 72 (Config.freeNat s.dev.freeCtr)))) ∧
  (∀ n : Nat, s.dev.issues c 28 = true → fS1 (s.dev.opWord c) = n → Completes (.movr c) s (fun e =>
    let x := (s.dev.atIssue c).core c
    Issued c s.dev e 1 (if n = 0 then x.sr.toNat else if n = 1 then x.cvp else if n = 2 then x.lr else if n = 6 then x.evt else if n = 15 then coreIx c
      else (((s.dev.atIssue c).ctrlRead c n).2)) ∧ (n = 7 → (e.core c).time1 = (s.dev.atIssue c).now96 / 2 ^ 32 % 2 ^ 32 ∧ (e.core c).time2 = (s.dev.atIssue c).now96 / 2 ^ 64))) ∧
  (s.dev.issues c 29 = true → Completes (.movw c) s (fun e => (⟨2, .ctrl (fD (s.dev.opWord c)), (s.dev.s1 c).toNat⟩ : Flight) ∈ (e.core c).flight ∧ CoreStep c s.dev e (s.dev.updated c))) ∧
  (s.dev.issues c 30 = true → Completes (.movad c) s (fun e => CoreStep c s.dev e ((((s.dev.atIssue c).core c).setA (fD (s.dev.opWord c) % 8) ((s.dev.s1 c).toNat % 65536)).update (s.dev.opWord c)).a)) ∧
  (s.dev.issues c 31 = true → Completes (.movda c) s (fun e => Issued c s.dev e 1 (((s.dev.atIssue c).core c).a.getD (fS1 (s.dev.opWord c) % 8) 0 : Nat)))

/-- Immediates, branches, loops, WAIT, HALT and vector searches (R204, R206, R209–R211): immediates reach their registers; a taken branch goes to its target and a branch not taken to the next instruction; CALL
saves the return address and RET takes it; LOOP begins a loop or passes its body, and each iteration end counts it down, rotating the conveyor where it says so; WAIT completes when a condition it names is
present and waits otherwise; HALT enters HALTED with every result landed; a search finds the extreme element and its lowest index. Each of these commands completes from every
state, and the first clause gives the state it leaves: vmaxi, vmini, searchDone, wait, waitWake, ret, halt, movi, addi, movia, br, brz, brnz, brneg, call, loop, loopIterationEnd. -/
def Obligations.CoreControlComplete : Prop :=
  (∀ s : State,
    (∀ (c : Fin 144), exec (.vmaxi c) s = .next { s with dev := s.dev.coreInstr c 32 }) ∧
    (∀ (c : Fin 144), exec (.vmini c) s = .next { s with dev := s.dev.coreInstr c 33 }) ∧
    (∀ (c : Fin 16), exec (.searchDone c) s = .next { s with dev := s.dev.searchDone c }) ∧
    (∀ (c : Fin 144), exec (.wait c) s = .next { s with dev := s.dev.coreInstr c 34 }) ∧
    (∀ (c : Fin 144), exec (.waitWake c) s = .next { s with dev := s.dev.waitWake c }) ∧
    (∀ (c : Fin 144), exec (.ret c) s = .next { s with dev := s.dev.coreInstr c 38 }) ∧
    (∀ (c : Fin 144), exec (.halt c) s = .next { s with dev := s.dev.coreInstr c 39 }) ∧
    (∀ (c : Fin 144), exec (.movi c) s = .next { s with dev := s.dev.coreInstr c 64 }) ∧
    (∀ (c : Fin 144), exec (.addi c) s = .next { s with dev := s.dev.coreInstr c 65 }) ∧
    (∀ (c : Fin 144), exec (.movia c) s = .next { s with dev := s.dev.coreInstr c 66 }) ∧
    (∀ (c : Fin 144), exec (.br c) s = .next { s with dev := s.dev.coreInstr c 67 }) ∧
    (∀ (c : Fin 144), exec (.brz c) s = .next { s with dev := s.dev.coreInstr c 68 }) ∧
    (∀ (c : Fin 144), exec (.brnz c) s = .next { s with dev := s.dev.coreInstr c 69 }) ∧
    (∀ (c : Fin 144), exec (.brneg c) s = .next { s with dev := s.dev.coreInstr c 70 }) ∧
    (∀ (c : Fin 144), exec (.call c) s = .next { s with dev := s.dev.coreInstr c 71 }) ∧
    (∀ (c : Fin 144), exec (.loop c) s = .next { s with dev := s.dev.coreInstr c 72 }) ∧
    (∀ (c : Fin 144), exec (.loopIterationEnd c) s = .next { s with dev := if s.dev.coreRunning c && (s.dev.core c).endDue then s.dev.setCore c Core.iterationEnd else s.dev })) ∧
  ∀ (s : State) (c : Fin 144),
  (s.dev.issues c 64 = true → Completes (.movi c) s (fun e => Issued c s.dev e 1 ((BitVec.ofNat 32 (fImm (s.dev.opWord c))).toInt))) ∧
  (s.dev.issues c 65 = true → Completes (.addi c) s (fun e => Issued c s.dev e 1 ((s.dev.sd c + BitVec.ofNat 32 (fImm (s.dev.opWord c))).toInt))) ∧
  (s.dev.issues c 66 = true → Completes (.movia c) s (fun e =>
    let x := (s.dev.atIssue c).core c
    let k := fD (s.dev.opWord c) % 8
    let n := bits (s.dev.opWord c) 0 16
    CoreStep c s.dev e (if fD (s.dev.opWord c) / 8 = 0 then x.a.set0 0 k n else x.a) ∧ (e.core c).b = (if fD (s.dev.opWord c) / 8 = 1 then x.b.set0 0 k n else x.b) ∧
    (e.core c).l = (if fD (s.dev.opWord c) / 8 = 2 then x.l.set0 0 k n else x.l))) ∧
  (s.dev.issues c 67 = true → Completes (.br c) s (fun e => Branched c (bits (s.dev.opWord c) 0 13) s.dev e)) ∧
  (s.dev.issues c 68 = true → Completes (.brz c) s (fun e => (s.dev.sd c = 0 → Branched c (bits (s.dev.opWord c) 0 13) s.dev e) ∧ (¬(s.dev.sd c = 0) → CoreStep c s.dev e ((s.dev.atIssue c).core c).a))) ∧
  (s.dev.issues c 69 = true → Completes (.brnz c) s (fun e => (s.dev.sd c ≠ 0 → Branched c (bits (s.dev.opWord c) 0 13) s.dev e) ∧ (¬(s.dev.sd c ≠ 0) → CoreStep c s.dev e ((s.dev.atIssue c).core c).a))) ∧
  (s.dev.issues c 70 = true → Completes (.brneg c) s (fun e => ((s.dev.sd c).toInt < 0 → Branched c (bits (s.dev.opWord c) 0 13) s.dev e) ∧ (¬((s.dev.sd c).toInt < 0) → CoreStep c s.dev e ((s.dev.atIssue c).core c).a))) ∧
  (s.dev.issues c 71 = true → Completes (.call c) s (fun e => Branched c (bits (s.dev.opWord c) 0 13) s.dev e ∧ (((s.dev.atIssue c).core c).flight = [] → (e.core c).lr = (((s.dev.atIssue c).core c).pc + 1) % 8192))) ∧
  (s.dev.issues c 38 = true → Completes (.ret c) s (fun e => Branched c ((s.dev.atIssue c).core c).lr s.dev e)) ∧
  (∀ n : Nat, s.dev.issues c 72 = true → (if (s.dev.opWord c).testBit 18 then (s.dev.sd c).toNat else bits (s.dev.opWord c) 0 16 + 1) = n → Completes (.loop c) s (fun e =>
    let x := (s.dev.atIssue c).core c
    (n = 0 → (e.core c).pc = (x.pc + loopLen (s.dev.opWord c) + 1) % 8192 ∧ (e.core c).loops = x.loops) ∧
    (0 < n → (e.core c).pc = x.pc + 1 ∧ (e.core c).loops = ⟨x.pc + 1, x.pc + loopLen (s.dev.opWord c), n, (s.dev.opWord c).testBit 19⟩ :: x.loops) ∧
    { e.core c with pc := x.pc, loops := x.loops } = x ∧ (∀ k : Nat, k ≠ c → e.cores.get? k = (s.dev.atIssue c).cores.get? k) ∧
    { e with cores := (s.dev.atIssue c).cores } = s.dev.atIssue c)) ∧
  (∀ (l : CoreLoop) (t : List CoreLoop), s.dev.coreRunning c = true → (s.dev.core c).loops = l :: t → (s.dev.core c).pc = (l.last + 1) % 8192 → Completes (.loopIterationEnd c) s (fun e =>
    (l.count ≤ 1 → (e.core c).pc = (s.dev.core c).pc ∧ (e.core c).loops = t) ∧
    (1 < l.count → (e.core c).pc = l.start ∧ (e.core c).loops = { l with count := l.count - 1 } :: t) ∧
    (e.core c).cvp = (if l.rotate then ((s.dev.core c).cvp + 1) % 16 else (s.dev.core c).cvp) ∧
    (l.rotate = true → ∀ i, i < 16 → (e.core c).r (16 + (i + 1) % 16) = (s.dev.core c).r (16 + i)) ∧
    (∀ k : Nat, k ≠ c → e.cores.get? k = s.dev.cores.get? k) ∧ { e with cores := s.dev.cores } = s.dev)) ∧
  (s.dev.issues c 34 = true → (s.dev.atIssue c).coreConds c &&& (s.dev.s1 c).toNat ≠ 0 → Completes (.wait c) s (fun e => Issued c s.dev e 1 ((s.dev.atIssue c).coreConds c))) ∧
  (s.dev.issues c 34 = true → (s.dev.atIssue c).coreConds c &&& (s.dev.s1 c).toNat = 0 → Completes (.wait c) s (fun e =>
    e.coreState c = 2 ∧ (e.core c).wait = some ((s.dev.s1 c).toNat, fD (s.dev.opWord c), s.dev.clk) ∧ (e.core c).pc = ((s.dev.atIssue c).core c).pc ∧
    Frame [(coreStateFld c).at_ (coreIx c) 0] (s.dev.atIssue c) { e with cores := (s.dev.atIssue c).cores })) ∧
  (∀ m r t : Nat, s.dev.coreClocked c = true → s.dev.coreState c = 2 → (s.dev.core c).wait = some (m, r, t) → s.dev.coreConds c &&& m ≠ 0 → Completes (.waitWake c) s (fun e =>
    e.coreState c = 1 ∧ (e.core c).wait = none ∧ (e.core c).pc = ((s.dev.core c).pc + 1) % 8192 ∧ (⟨1, .reg r, (s.dev.coreConds c : Nat)⟩ : Flight) ∈ (e.core c).flight ∧
    (∀ k : Nat, k ≠ c → e.cores.get? k = s.dev.cores.get? k))) ∧
  ((s.dev.core c).wait = none → Completes (.waitWake c) s (fun e => e = s.dev)) ∧
  (s.dev.issues c 39 = true → Completes (.halt c) s (fun e => e.coreState c = 3 ∧ (e.core c).flight = [] ∧ (isFrame c = true → Raised e 39 c) ∧ (((s.dev.atIssue c).core c).flight = [] → (e.core c).pc = (((s.dev.atIssue c).core c).pc + 1) % 8192))) ∧
  (s.dev.issues c 32 = true → Completes (.vmaxi c) s (fun e => Searches c s.dev e true ∧ (e.core c).pc = (((s.dev.atIssue c).core c).pc + 1) % 8192)) ∧
  (s.dev.issues c 33 = true → Completes (.vmini c) s (fun e => Searches c s.dev e false ∧ (e.core c).pc = (((s.dev.atIssue c).core c).pc + 1) % 8192)) ∧
  (∀ (f : Fin 16) (r : Search), (s.dev.core f).search = some r → Completes (.searchDone f) s (fun e =>
    (e.core f).search = none ∧ (⟨1, .reg r.dest, r.value⟩ : Flight) ∈ (e.core f).flight ∧ (⟨1, .reg (r.dest + 1), r.index⟩ : Flight) ∈ (e.core f).flight ∧
    e.rd F.CORE_STALLS_COUNT f = min (2 ^ 32 - 1) (s.dev.rd F.CORE_STALLS_COUNT f + r.clocks) ∧
    e.wideAt F.CORE_CYCLES_LO_COUNT f = (s.dev.wideAt F.CORE_CYCLES_LO_COUNT f + (r.clocks - 1)) % 2 ^ 64 ∧ (∀ k : Nat, k ≠ f → e.cores.get? k = s.dev.cores.get? k) ∧
    Frame [F.CORE_STALLS_COUNT.at_ f 0] s.dev { e with cores := s.dev.cores, wide := s.dev.wide }))

/-- Core commands (R217, R222): START sets the PC from START_PC and RUNNING; STOP lands every result, abandons a wait or stall and enters STOPPED; RESET clears a frame core's registers and keeps its memories; STEP
runs one instruction of a halted or stopped core; each answers STATE in a state it has no meaning in, and a frame core HALTED during the halt. Writing a doorbell sets bits
(R221). Each of these commands completes from every state, in RUN, and the first clause gives the state it leaves: coreStart, coreStop, coreStep, coreReset, doorbellRing. -/
def Obligations.CoreCommandsComplete : Prop :=
  (∀ s : State,
    (InRun s →
      (∀ (c : Fin 144), exec (.coreStart c) s = .next { s with dev := s.dev.coreStart c }) ∧
      (∀ (c : Fin 144), exec (.coreStop c) s = .next { s with dev := s.dev.coreStop c }) ∧
      (∀ (c : Fin 144), exec (.coreStep c) s = .next { s with dev := s.dev.coreStepPost c }) ∧
      (∀ (c : Fin 16), exec (.coreReset c) s = .next { s with dev := s.dev.coreReset c }) ∧
      (∀ (c : Fin 16) (hi : Bool) (v : Word), exec (.doorbellRing c hi v) s = .next { s with dev := s.dev.doorbell c v.toNat hi }))) ∧
  ∀ (s : State) (c : Fin 144), InRun s →
  (s.dev.coreLive c = true → (isFrame c = true → s.dev.halted = false) → s.dev.coreState c ≠ 1 → s.dev.coreState c ≠ 2 → Completes (.coreStart c) s (fun e =>
    e.coreState c = 1 ∧ e.rd (coreCodeFld c) (coreIx c) = 0 ∧ (e.core c).loops = [] ∧ (e.core c).cvp = 0 ∧
    (e.core c).pc = (if isFrame c then s.dev.rd F.CORE_START_PC_PC c else s.dev.rd F.CORE_T_START_PC_PC (c - 16)) ∧
    (∀ k : Nat, k ≠ c → e.cores.get? k = s.dev.cores.get? k) ∧ Frame (coreStatusRegs c) s.dev { e with cores := s.dev.cores })) ∧
  (s.dev.coreLive c = false ∨ ((isFrame c = true → s.dev.halted = false) ∧ (s.dev.coreState c = 1 ∨ s.dev.coreState c = 2)) → Completes (.coreStart c) s (fun e =>
    e.rd (coreCodeFld c) (coreIx c) = 1 ∧ Frame (coreStatusRegs c) s.dev e)) ∧
  (isFrame c = true → s.dev.halted = true → Completes (.coreStart c) s (fun e => e.rd (coreCodeFld c) (coreIx c) = 2 ∧ Frame (coreStatusRegs c) s.dev e)) ∧
  (s.dev.coreLive c = true → s.dev.coreState c = 1 ∨ s.dev.coreState c = 2 → Completes (.coreStop c) s (fun e =>
    e.coreState c = 5 ∧ e.rd (coreCodeFld c) (coreIx c) = 0 ∧ (e.core c).wait = none ∧ (e.core c).stall = none ∧ (e.core c).search = none ∧
    ((∀ f ∈ (s.dev.core c).flight, f.left ≤ 4) → (e.core c).flight = []) ∧ (isFrame c = true → Raised e 39 c) ∧
    ((s.dev.core c).flight = [] → (s.dev.core c).loops = [] → (s.dev.core c).search = none → (e.core c).pc = (s.dev.core c).pc ∧ (e.core c).d = (s.dev.core c).d))) ∧
  (s.dev.coreLive c = false ∨ (s.dev.coreState c ≠ 1 ∧ s.dev.coreState c ≠ 2) → Completes (.coreStop c) s (fun e =>
    e.rd (coreCodeFld c) (coreIx c) = 1 ∧ Frame (coreStatusRegs c) s.dev e)) ∧
  (∀ st : Nat, s.dev.coreLive c = true → (isFrame c = true → s.dev.halted = false) → s.dev.coreState c = st → st = 3 ∨ st = 5 → (s.dev.core c).flight = [] → (s.dev.core c).loops = [] →
      ((s.dev.setCoreState c 1).coreCode c 0).issues c 1 = true → (slotsOf ((s.dev.core c).word (s.dev.core c).pc)).all (fun m => m.kind == 0) = true → Completes (.coreStep c) s (fun e =>
    let w := (s.dev.core c).word (s.dev.core c).pc
    e.coreState c = st ∧ e.rd (coreCodeFld c) (coreIx c) = 0 ∧ (e.core c).pc = ((s.dev.core c).pc + 1) % 8192 ∧ (e.core c).flight = [] ∧
    (e.core c).r (fD w) = (s.dev.core c).r (fS1 w) + (s.dev.core c).r (fS2 w) ∧ (∀ r : Nat, r ≠ fD w → (e.core c).r r = (s.dev.core c).r r))) ∧
  (s.dev.coreLive c = false ∨ ((isFrame c = true → s.dev.halted = false) ∧ s.dev.coreState c ≠ 3 ∧ s.dev.coreState c ≠ 5) → Completes (.coreStep c) s (fun e =>
    e.rd (coreCodeFld c) (coreIx c) = 1 ∧ Frame (coreStatusRegs c) s.dev e)) ∧
  (∀ f : Fin 16, Completes (.coreReset f) s (fun e => e.coreState f = 0 ∧ e.rd F.CORE_STATUS_CODE f = 0 ∧ (e.core f).imem = (s.dev.core f).imem ∧
    (e.core f).dmem = (s.dev.core f).dmem ∧ (e.core f).d = Tab.empty ∧ (e.core f).acc = Tab.empty ∧ (e.core f).a = Tab.empty ∧ (e.core f).sr = 0 ∧ (e.core f).pc = 0 ∧
    (e.core f).loops = [] ∧ (e.core f).flight = [] ∧ (∀ k : Nat, k ≠ f → e.cores.get? k = s.dev.cores.get? k) ∧ Frame (coreStatusRegs f) s.dev { e with cores := s.dev.cores })) ∧
  (∀ (f : Fin 16) (hi : Bool) (v : Word), Completes (.doorbellRing f hi v) s (fun e =>
    e.rd (if hi then F.CORE_DB_HI_DB else F.CORE_DB_LO_DB) f = s.dev.rd (if hi then F.CORE_DB_HI_DB else F.CORE_DB_LO_DB) f ||| v.toNat ∧
    (∀ o, o ≠ (if hi then F.CORE_DB_HI_DB else F.CORE_DB_LO_DB).at_ f 0 → e.reg o = s.dev.reg o) ∧ { e with regs := s.dev.regs, regs0 := s.dev.regs0 } = s.dev))

/-- Effects outside a core (R202, R212, R213, R216, R218–R220, R223): SIG drives the halyard of an enabled output, POST shows its word on its channel, SWI raises the core's event; a word that is no instruction, a PC
past the memory and a faulting operand end in FAULT with cause and PC; stream words arrive at and leave an unjoined core, and go through the chase from a core that a route joins; the fetch unit copies the next record that fits
MAX and moves its reader past it; the deposit unit appends its record when it fits. Each of these commands completes from every state, and the first clause gives the state it leaves:
streamStallEnd, sig, post, swi, fetchDone, depositDone. -/
def Obligations.CoreUnitsComplete : Prop :=
  (∀ s : State,
    (∀ (t : Fin 128) (in0 in1 : List (BitVec 64)) (taken0 taken1 : Nat), exec (.streamStallEnd t in0 in1 taken0 taken1) s = .next { s with dev := s.dev.streamEnd t in0 in1 taken0 taken1 }) ∧
    (∀ (c : Fin 144), exec (.sig c) s = .next { s with dev := s.dev.coreInstr c 35 }) ∧
    (∀ (c : Fin 144), exec (.post c) s = .next { s with dev := s.dev.corePost c }) ∧
    (∀ (c : Fin 144), exec (.swi c) s = .next { s with dev := s.dev.coreInstr c 37 }) ∧
    (∀ (c : Fin 16), exec (.fetchDone c) s = .next { s with dev := s.dev.fetchUnit c }) ∧
    (∀ (c : Fin 16), exec (.depositDone c) s = .next { s with dev := s.dev.depositUnit c })) ∧
  ∀ (s : State) (c : Fin 144),
  (s.dev.issues c 35 = true → isFrame c = true → Completes (.sig c) s (fun e => (e.core c).pc = (((s.dev.atIssue c).core c).pc + 1) % 8192 ∧
    ((s.dev.atIssue c).rd F.CORE_HAL_OUT_EN c = 0 → CoreStep c s.dev e (s.dev.updated c)) ∧
    ((s.dev.atIssue c).rd F.CORE_HAL_OUT_EN c = 1 → s.dev.halyards = [] → e.halyards = [⟨s.dev.rd F.CORE_HAL_OUT_HAL c, (s.dev.s1 c).toNat % 32, s.dev.clk, none, none⟩]))) ∧
  (s.dev.issues c 35 = true → isFrame c = false → Completes (.sig c) s (fun e => (e.core c).pc = (((s.dev.atIssue c).core c).pc + 1) % 8192)) ∧
  (s.dev.issues c 36 = true → s.dev.sections = Tab.empty → Completes (.post c) s (fun e => e.rd F.CORE_POST_WORD c (fD (s.dev.opWord c) % 8) = (s.dev.s1 c).toNat ∧
    (e.core c).pc = (((s.dev.atIssue c).core c).pc + 1) % 8192 ∧ (∀ k : Nat, k ≠ c → e.cores.get? k = (s.dev.atIssue c).cores.get? k) ∧
    Frame [F.CORE_POST_WORD.at_ c (fD (s.dev.opWord c) % 8)] (s.dev.atIssue c) { e with cores := (s.dev.atIssue c).cores })) ∧
  (s.dev.issues c 37 = true → Completes (.swi c) s (fun e => (isFrame c = true → Raised e 39 (16 + c)) ∧ (e.core c).pc = (((s.dev.atIssue c).core c).pc + 1) % 8192 ∧
    (∀ k : Nat, k ≠ c → e.cores.get? k = (s.dev.atIssue c).cores.get? k) ∧ Frame [] (s.dev.atIssue c) { e with cores := (s.dev.atIssue c).cores })) ∧
  (∀ cause : Nat, s.dev.coreRunning c = true → (s.dev.core c).search = none → (s.dev.core c).stall = none → (s.dev.core c).loops = [] → (s.dev.core c).flight = [] →
      (if codeSize c ≤ (s.dev.core c).pc then some 3 else if illegalWord c ((s.dev.core c).word (s.dev.core c).pc) then some 1
        else if opOf ((s.dev.core c).word (s.dev.core c).pc) = 0 then (s.dev.core c).faultOf c ((s.dev.core c).word (s.dev.core c).pc) else none) = some cause →
    Completes (.nop c) s (fun e => e.coreState c = 4 ∧ e.rd (coreCauseFld c) (coreIx c) = cause ∧ (e.core c).pc = (s.dev.core c).pc ∧
      e.rd (if isFrame c then F.CORE_FAULT_PC_PC else F.CORE_T_FAULT_PC_PC) (coreIx c) = (s.dev.core c).pc % (if isFrame c then 2 ^ 13 else 2 ^ 11) ∧ (isFrame c = true → Raised e 39 c) ∧
      Frame ((if isFrame c then F.CORE_FAULT_PC_PC else F.CORE_T_FAULT_PC_PC).at_ (coreIx c) 0 :: coreStatusRegs c) s.dev { e with cores := s.dev.cores })) ∧
  (∀ (t : Fin 128) (in0 in1 : List (BitVec 64)) (n m : Nat), (s.dev.tileOwner t).isSome = true → (s.dev.core (16 + t)).stall = none → s.dev.chase = [] →
      (∀ u p, s.dev.joined u p = []) → Completes (.streamStallEnd t in0 in1 n m) s (fun e =>
    (e.core (16 + t)).in0 = ((s.dev.core (16 + t)).in0 ++ in0.map (·.toNat)).take 16 ∧ (e.core (16 + t)).in1 = ((s.dev.core (16 + t)).in1 ++ in1.map (·.toNat)).take 16 ∧
    (e.core (16 + t)).out0 = (s.dev.core (16 + t)).out0.drop n ∧ (e.core (16 + t)).out1 = (s.dev.core (16 + t)).out1.drop m ∧
    (∀ k : Nat, k ≠ 16 + t.val → e.cores.get? k = s.dev.cores.get? k) ∧ { e with cores := s.dev.cores } = s.dev)) ∧
  (∀ (t : Fin 128) (u q l w : Nat), s.dev.joined t 0 = [(u, q, l)] → s.dev.joined t 1 = [] → u ≠ t → s.dev.chase = [] → (∀ k : Nat, k ≠ 16 + t.val → s.dev.cores.get? k = none) →
      (s.dev.core (16 + t)).out0 = [w] → (s.dev.core (16 + t)).stall = none → Completes (.streamStallEnd t [] [] 0 0) s (fun e =>
    (e.core (16 + t)).out0 = [] ∧ e.chase = [⟨u, q, w, s.dev.clk + l⟩] ∧ (e.core (16 + t)).out1 = (s.dev.core (16 + t)).out1 ∧
    (∀ k : Nat, k ≠ 16 + t.val → e.cores.get? k = none) ∧ { e with cores := s.dev.cores, chase := [] } = s.dev)) ∧
  (∀ (t : Fin 128) (in0 in1 : List (BitVec 64)) (n m : Nat), (s.dev.tileOwner t) = none → Completes (.streamStallEnd t in0 in1 n m) s (fun e => e = s.dev)) ∧
  (∀ (f : Fin 16) (r : Nat) (x : Reader) (p : Placed) (t : Nat), (s.dev.core f).fetchOn = some t → s.dev.rd F.CORE_IN_EN f = 1 → s.dev.rd F.CORE_IN_HOLD f = 0 → s.dev.rd F.CORE_IN_RING f = r →
      (s.dev.ring r).readers.find? (fun (x : Reader) => x.kind == .fetch f) = some x → s.dev.recordAt r x.pos = some p → s.dev.headerGood r p = true → p.len / 4 ≤ (s.dev.core f).fetchMax →
    Completes (.fetchDone f) s (fun e => (e.core f).fetchOn = none ∧ (e.core f).fetchDone = true ∧ (e.core f).fetchLen = p.len / 4 ∧
      (∀ y, (e.ring r).readers.find? (fun (x : Reader) => x.kind == .fetch f) = some y → y.pos = p.pos + p.len) ∧
      (∀ k : Nat, k ≠ f → e.cores.get? k = s.dev.cores.get? k) ∧ RecordsOnly [] s.dev { e with cores := s.dev.cores })) ∧
  (∀ f : Fin 16, (s.dev.core f).fetchOn = none → Completes (.fetchDone f) s (fun e => e = s.dev)) ∧
  (∀ (f : Fin 16) (t : Nat), (s.dev.core f).depOn = some t → s.dev.ringOn (s.dev.rd F.CORE_OUT_RING f) = false ∨ s.dev.fitsRaw (s.dev.rd F.CORE_OUT_RING f) (s.dev.depRecord f) = true →
    Completes (.depositDone f) s (fun e => (e.core f).depOn = none ∧ (e.core f).depDone = true ∧
      (s.dev.ringOn (s.dev.rd F.CORE_OUT_RING f) = false → e.rd F.GAL_NOWHERE_COUNT = min (2 ^ 32 - 1) (s.dev.rd F.GAL_NOWHERE_COUNT + 1)) ∧
      (s.dev.ringOn (s.dev.rd F.CORE_OUT_RING f) = true → (e.ring (s.dev.rd F.CORE_OUT_RING f)).seq = (s.dev.ring (s.dev.rd F.CORE_OUT_RING f)).seq + 1) ∧
      (∀ k : Nat, k ≠ f → e.cores.get? k = s.dev.cores.get? k) ∧ RecordsOnly [] s.dev { e with cores := s.dev.cores })) ∧
  (∀ (f : Fin 16) (t : Nat), (s.dev.core f).depOn = some t → s.dev.ringOn (s.dev.rd F.CORE_OUT_RING f) = true → s.dev.fitsRaw (s.dev.rd F.CORE_OUT_RING f) (s.dev.depRecord f) = false →
    Completes (.depositDone f) s (fun e => (e.core f).depOn = some s.dev.clk ∧
      e.rd F.CORE_OUT_STALL_COUNT f = min (2 ^ 32 - 1) (s.dev.rd F.CORE_OUT_STALL_COUNT f + (s.dev.clk - t)) ∧ Frame [F.CORE_OUT_STALL_COUNT.at_ f 0] s.dev { e with cores := s.dev.cores })) ∧
  (∀ f : Fin 16, (s.dev.core f).depOn = none → Completes (.depositDone f) s (fun e => e = s.dev))

/-! ## Triggers and raw capture (spec/09_triggers.md) -/

/-- Trigger units (R226, R227, R232, R235–R240, R243): ARM whose checks pass arms the unit and clears its counts, and otherwise leaves its code; DISARM disarms; SOFTWARE and a slot event that completes the ANY
condition take a decision; a stage-2 event is kept and may confirm a pending capture; a deadline expires the earliest pending capture; the hold-off ends; a mask is read from its ring once MASK_CMD asks
and enters force when its table is good. Each of these commands completes from every state, a host command in RUN, and the first clause gives the state it leaves: trigArm, trigDisarm,
trigSoftware, maskLoad, maskLoadEnd, stage1Decision, stage2Event, deadlineExpiry, trigHoldoffEnd. -/
def Obligations.TriggerCommandsComplete : Prop :=
  (∀ s : State,
    (∀ (i : Fin 128), exec (.maskLoadEnd i) s = .next { s with dev := if s.dev.activeKind i 4 then s.dev.maskLoadEnd i else s.dev }) ∧
    (∀ (i : Fin 128) (slot : Fin 4) (ev : SlotEvent), exec (.stage1Decision i slot ev) s = .next { s with dev := s.dev.outsideEvent i slot ev false }) ∧
    (∀ (i : Fin 128) (slot : Fin 4) (ev : SlotEvent), exec (.stage2Event i slot ev) s = .next { s with dev := s.dev.outsideEvent i slot ev true }) ∧
    (∀ (i : Fin 128), exec (.deadlineExpiry i) s = .next { s with dev := if s.dev.activeKind i 4 then s.dev.deadlineExpiry i else s.dev }) ∧
    (∀ (i : Fin 128), exec (.trigHoldoffEnd i) s = .next { s with dev := if s.dev.activeKind i 4 then s.dev.trigHoldoffEnd i else s.dev }) ∧
    (InRun s →
      (∀ (i : Fin 128), exec (.trigArm i) s = .next { s with dev := if s.dev.kind i = 4 then s.dev.knobWrite i 0 1 else s.dev }) ∧
      (∀ (i : Fin 128), exec (.trigDisarm i) s = .next { s with dev := if s.dev.kind i = 4 then s.dev.knobWrite i 0 2 else s.dev }) ∧
      (∀ (i : Fin 128), exec (.trigSoftware i) s = .next { s with dev := if s.dev.kind i = 4 then s.dev.knobWrite i 0 3 else s.dev }) ∧
      (∀ (i : Fin 128), exec (.maskLoad i) s = .next { s with dev := if s.dev.kind i = 4 then s.dev.knobWrite i 0x38 1 else s.dev }))) ∧
  ∀ (s : State) (i : Fin 128),
  (InRun s → s.dev.takes i 4 0 1 = true → s.dev.fedAll = true → (s.dev.trigState i = 0 ∧ s.dev.trigCheck i = 0) ∨ s.dev.trigState i = 3 → Completes (.trigArm i) s (fun e =>
    e.trigState i = 1 ∧ e.trigCodeOf i = 0 ∧ (∀ o ∈ [0x84, 0x88, 0x8C, 0x90, 0x94, 0x98, 0x9C], e.knob i o = 0) ∧ e.knob i 0xAC = (s.dev.trig i).occ % 2 ^ 32 ∧
    (e.trig i).evs = [] ∧ (e.trig i).occ = (s.dev.trig i).occ ∧ (e.trig i).pending = (s.dev.trig i).pending ∧ (∀ j, j ≠ i.val → e.trigs.get? j = s.dev.trigs.get? j) ∧
    KnobFrame (knobRegs i) i 0 1 s.dev { e with trigs := s.dev.trigs, freeCtr := s.dev.freeCtr })) ∧
  (∀ c : Nat, InRun s → s.dev.takes i 4 0 1 = true → s.dev.fedAll = true →
      (if s.dev.trigState i = 0 then s.dev.trigCheck i else if s.dev.trigState i = 3 then 0 else 1) = c → c ≠ 0 → Completes (.trigArm i) s (fun e =>
    e.trigCodeOf i = c ∧ e.trigState i = s.dev.trigState i ∧
    (s.dev.trigState i = 0 → c ≠ 2 → c ≠ 5 → e.knob i 0xA4 = packTrig (s.dev.trigNeed i)) ∧ KnobFrame [knobAt i 4, knobAt i 0xA4] i 0 1 s.dev e)) ∧
  (InRun s → s.dev.takes i 4 0 2 = true → s.dev.fedAll = true → Completes (.trigDisarm i) s (fun e =>
    e.trigState i = 0 ∧ e.trigCodeOf i = (if s.dev.trigState i = 0 then 1 else 0) ∧ KnobFrame [knobAt i 4] i 0 2 s.dev e)) ∧
  (InRun s → s.dev.takes i 4 0 3 = true → s.dev.fedAll = true → (∀ k, k < 4 → s.dev.slotKind i k ≠ 8) → Completes (.trigSoftware i) s (fun e => KnobFrame [] i 0 3 s.dev e)) ∧
  (∀ k : Fin 4, InRun s → s.dev.takes i 4 0 3 = true → s.dev.fedAll = true → s.dev.slotKind i k = 8 → (∀ j, j < 4 → j ≠ k.val → s.dev.slotKind i j ≠ 8) → s.dev.slotOn i k = true →
      s.dev.knobBits i 0x1C 0 2 = 0 → (s.dev.trig i).evs = [] → s.dev.knobBits i 0x5C 0 2 ≠ 1 → (∀ p ∈ (s.dev.trig i).pending, p.q % 4 ≠ 1) → s.dev.ready i (s.dev.timeIn 1) →
    Completes (.trigSoftware i) s (fun e => Decided i (s.dev.timeIn 1) s.dev { e with cues := s.dev.cues } ∧ Noted (knobAt i 0) 3 s.dev e)) ∧
  (∀ (k : Fin 4) (t st o : Nat), s.dev.ready i (ofStamp96 t) → (SlotEvent.timed t st o).fits (s.dev.slotKind i k) = true → s.dev.slotOn i k = true → s.dev.knobBits i 0x1C 0 2 = 0 →
      (s.dev.trig i).evs = [] → s.dev.knobBits i 0x5C 0 2 ≠ 1 → Completes (.stage1Decision i k (.timed t st o)) s (fun e => Decided i (ofStamp96 t) s.dev e)) ∧
  (∀ (k : Fin 4) (ev : SlotEvent), s.dev.activeKind i 4 = false ∨ ev.fits (s.dev.slotKind i k) = false → Completes (.stage1Decision i k ev) s (fun e => e = s.dev) ∧
    Completes (.stage2Event i k ev) s (fun e => e = s.dev)) ∧
  (∀ (k : Fin 4) (t st o : Nat), s.dev.activeKind i 4 = true → (SlotEvent.timed t st o).fits (s.dev.slotKind i k) = true → (s.dev.trig i).pending = [] → Completes (.stage2Event i k (.timed t st o)) s (fun e =>
    (e.trig i).stage2.getLast? = some (k.val, ofStamp96 t) ∧ (e.trig i).pending = [] ∧ (∀ j, j ≠ i.val → e.trigs.get? j = s.dev.trigs.get? j) ∧ Frame [] s.dev { e with trigs := s.dev.trigs })) ∧
  (∀ (k : Fin 4) (t st o : Nat) (p : Pending), s.dev.activeKind i 4 = true → (SlotEvent.timed t st o).fits (s.dev.slotKind i k) = true → (s.dev.trig i).pending = [p] → p.q % 4 = 1 → p.q.testBit 4 = false →
      s.dev.clk ≤ p.deadline → bits p.q 2 2 = k → p.time ≤ ofStamp96 t + p.qPre * 2 ^ 64 → s.dev.rawcs = Tab.empty → Completes (.stage2Event i k (.timed t st o)) s (fun e =>
    (e.trig i).pending = [] ∧ e.knob i 0x88 = min (2 ^ 32 - 1) (s.dev.knob i 0x88 + 1) ∧
    Frame (knobRegs i ++ (List.range 64).map (fun h => F.FMR_HAL_MERGE_COUNT.at_ h 0)) s.dev { e with trigs := s.dev.trigs, halyards := s.dev.halyards })) ∧
  (∀ (p : Pending) (r : List Pending), s.dev.activeKind i 4 = true → (s.dev.trig i).pending = p :: r → (∀ q ∈ r, p.deadline ≤ q.deadline) → s.dev.rawcs = Tab.empty → Completes (.deadlineExpiry i) s (fun e =>
    (e.trig i).pending = r ∧ e.clk = max s.dev.clk (p.deadline + 1) ∧ e.knob i 0x90 = min (2 ^ 32 - 1) (s.dev.knob i 0x90 + 1) ∧
    e.knob i 0x88 = (if p.q.testBit 16 then min (2 ^ 32 - 1) (s.dev.knob i 0x88 + 1) else s.dev.knob i 0x88) ∧
    Frame (knobRegs i ++ (List.range 64).map (fun h => F.FMR_HAL_MERGE_COUNT.at_ h 0)) s.dev { e.atTime s.dev with trigs := s.dev.trigs, halyards := s.dev.halyards })) ∧
  ((s.dev.trig i).pending = [] → Completes (.deadlineExpiry i) s (fun e => e = s.dev)) ∧
  (s.dev.activeKind i 4 = true → s.dev.trigState i = 2 → s.dev.knob i 0x6C = 0 → Completes (.trigHoldoffEnd i) s (fun e =>
    e.trigState i = 1 ∧ s.dev.clk ≤ e.clk ∧ Frame [knobAt i 4] s.dev (e.atTime s.dev))) ∧
  (s.dev.trigState i ≠ 2 ∨ s.dev.knob i 0x6C ≠ 0 → Completes (.trigHoldoffEnd i) s (fun e => e = s.dev)) ∧
  (∀ x : Nat, InRun s → s.dev.takes i 4 0x38 1 = true → s.dev.fedAll = true → s.dev.trigState i = 0 → (s.dev.trig i).maskSince = none → s.dev.boundXfrm i 1 = some x → s.dev.xfrmRunning x = true →
    Completes (.maskLoad i) s (fun e => (e.trig i).maskSince = some s.dev.clk ∧ e.knobBits i 4 8 1 = 1 ∧ e.trigCodeOf i = 0 ∧ (e.trig i).maskUp = (s.dev.trig i).maskUp ∧
      (∀ j, j ≠ i.val → e.trigs.get? j = s.dev.trigs.get? j) ∧ KnobFrame [knobAt i 4] i 0x38 1 s.dev { e with trigs := s.dev.trigs })) ∧
  (InRun s → s.dev.takes i 4 0x38 1 = true → s.dev.fedAll = true → (s.dev.trig i).maskSince.isSome = true → Completes (.maskLoad i) s (fun e => e.trigCodeOf i = 1 ∧ KnobFrame [knobAt i 4] i 0x38 1 s.dev e)) ∧
  (∀ t : Nat, s.dev.activeKind i 4 = true → (s.dev.trig i).maskSince = some t → Completes (.maskLoadEnd i) s (fun e =>
    (e.trig i).maskSince = none ∧ e.knobBits i 4 8 1 = 0 ∧ (e.trigCodeOf i = 0 ∨ e.trigCodeOf i = 5) ∧
    (e.trigCodeOf i = 5 → (e.trig i).maskUp = (s.dev.trig i).maskUp ∧ (e.trig i).maskLo = (s.dev.trig i).maskLo ∧ (e.trig i).maskBins = (s.dev.trig i).maskBins) ∧
    (e.trigCodeOf i = 0 → pointsRise (e.trig i).maskUp = true ∧ pointsRise (e.trig i).maskLo = true) ∧
    (leNat (s.dev.ringBytes (s.dev.knob i 0x3C) (s.dev.knob i 0x40 + s.dev.knob i 0x44 * 2 ^ 32) 4) ≠ 0x4B4D584C → e.trigCodeOf i = 5) ∧
    Frame [knobAt i 4] s.dev { e.atTime s.dev with trigs := s.dev.trigs })) ∧
  ((s.dev.trig i).maskSince = none → Completes (.maskLoadEnd i) s (fun e => e = s.dev))

/-- RAWC (R243, R247, R252, R257, R258): START whose checks pass makes the capture RUNNING with its counts cleared, a triggered one following its trigger unit with no units in history; a refused START
reports NEED where it was compared; STOP ends a continuous run, and a triggered one when no capture is open, else the run goes on stopping; a confirmed capture whose last unit is
written closes. Each of these commands completes from every state, a host command in RUN, and the first clause gives the state it leaves: rawcStart, rawcStop, captureClose. -/
def Obligations.RawCaptureCommandsComplete : Prop :=
  (∀ s : State,
    (∀ (i : Fin 128), exec (.captureClose i) s = .next { s with dev := s.dev.rawcClose i }) ∧
    (InRun s →
      (∀ (i : Fin 128), exec (.rawcStart i) s = .next { s with dev := if s.dev.kind i = 5 then s.dev.knobWrite i 0 1 else s.dev }) ∧
      (∀ (i : Fin 128), exec (.rawcStop i) s = .next { s with dev := if s.dev.kind i = 5 then s.dev.knobWrite i 0 2 else s.dev }))) ∧
  ∀ (s : State) (i : Fin 128),
  (InRun s → s.dev.takes i 5 0 1 = true → s.dev.rawcRunning i = false → s.dev.rawcCheck i = 0 → s.dev.knob i 0xC ≤ 9 → s.dev.knob i 0x10 < 1024 → s.dev.fedAll = true → Completes (.rawcStart i) s (fun e =>
    e.rawcRunning i = true ∧ e.trigCodeOf i = 0 ∧ e.knob i 0x30 = 0 ∧ e.knob i 0x34 = 0 ∧ e.knob i 0x40 = 0 ∧ e.wideKnob i 0x38 = 0 ∧ (e.runs.get? i).isSome = true ∧
    (s.dev.knob i 8 ≠ 1 → e.rawcs = s.dev.rawcs ∧ ∀ u, e.runs.get? i = some u → u.source = s.dev.knob i 0xC ∧
      (s.dev.cueCame (knobAt i 0) = false → u.next = s.dev.nextIdx (s.dev.knob i 0xC))) ∧
    (s.dev.knob i 8 = 1 → ∀ w, e.rawcs.get? i = some w → w.trig = (s.dev.rawcTrig i).getD 0 ∧ w.accepting = true ∧ w.ended = false ∧ (∀ h ∈ w.hist, h.cause ≠ 0) ∧ w.caps = [] ∧ w.seg = 0 ∧
      w.source = s.dev.knob i 0xC ∧ w.pre = s.dev.rawcPre i ∧ w.post = s.dev.rawcPost i ∧ w.ring = s.dev.knob i 0x10) ∧
    (s.dev.knob i 8 = 1 → (e.rawcs.get? i).isSome = true) ∧ Noted (knobAt i 0) 1 s.dev e ∧ RecordsOnly [] s.dev { e with rawcs := s.dev.rawcs, cues := s.dev.cues })) ∧
  (InRun s → s.dev.takes i 5 0 1 = true → s.dev.rawcRunning i = false → s.dev.rawcCheck i ≠ 0 → s.dev.fedAll = true → Completes (.rawcStart i) s (fun e =>
    e.trigCodeOf i = s.dev.rawcCheck i ∧ (s.dev.rawcCheck i = 2 → e.knob i 0x48 = s.dev.knob i 0x48) ∧ KnobFrame [knobAt i 4, knobAt i 0x48] i 0 1 s.dev e)) ∧
  (InRun s → s.dev.takes i 5 0 1 = true → s.dev.rawcRunning i = true → s.dev.fedAll = true → Completes (.rawcStart i) s (fun e => e.trigCodeOf i = 1 ∧ KnobFrame [knobAt i 4] i 0 1 s.dev e)) ∧
  (InRun s → s.dev.takes i 5 0 2 = true → s.dev.rawcRunning i = true → s.dev.fedAll = true → s.dev.runRing i → Completes (.rawcStop i) s (fun e =>
    e.rawcRunning i = false ∧ e.trigCodeOf i = 0 ∧ e.runs.get? i = none ∧ Noted (knobAt i 0) 2 s.dev e ∧ RecordsOnly [] s.dev { e with cues := s.dev.cues })) ∧
  (∀ w : Rawc, InRun s → s.dev.takes i 5 0 2 = true → s.dev.rawcRunning i = true → s.dev.fedBut i w → w.ended = false → w.caps = [] → s.dev.runRing i → Completes (.rawcStop i) s (fun e =>
    e.rawcRunning i = false ∧ e.knobBits i 4 0 2 = 0 ∧ e.trigCodeOf i = 0 ∧ e.runs.get? i = none ∧ e.rawcs.get? i = none ∧ Noted (knobAt i 0) 2 s.dev e ∧
    RecordsOnly [] s.dev { e with rawcs := s.dev.rawcs, cues := s.dev.cues })) ∧
  (∀ w : Rawc, InRun s → s.dev.takes i 5 0 2 = true → s.dev.rawcRunning i = true → s.dev.fedBut i w → w.ended = false → w.caps ≠ [] →
      (∀ c ∈ w.caps, c.confirmed = false ∨ c.next < c.stop) → Completes (.rawcStop i) s (fun e =>
    e.rawcRunning i = true ∧ e.knobBits i 4 1 1 = 1 ∧ e.trigCodeOf i = 0 ∧ e.rawcs.get? i = some { w with accepting := false } ∧ Noted (knobAt i 0) 2 s.dev e ∧
    RecordsOnly [] s.dev { e with rawcs := s.dev.rawcs, cues := s.dev.cues })) ∧
  (InRun s → s.dev.takes i 5 0 2 = true → s.dev.rawcRunning i = false → s.dev.fedAll = true → Completes (.rawcStop i) s (fun e => e.trigCodeOf i = 1 ∧ KnobFrame [knobAt i 4] i 0 2 s.dev e)) ∧
  (∀ w : Rawc, s.dev.rawcs.get? i = some w → w.accepting = true → w.ended = false → (∀ u, s.dev.runs.get? i = some u → s.dev.rawcLost w u.next u.next = []) → Completes (.captureClose i) s (fun e =>
    e.rawcs.get? i = some { w with caps := w.caps.filter (fun c => !(c.confirmed && decide (c.stop ≤ c.next))) } ∧
    (∀ j, j ≠ i.val → e.rawcs.get? j = s.dev.rawcs.get? j) ∧ RecordsOnly [] s.dev { e with rawcs := s.dev.rawcs })) ∧
  (s.dev.rawcs.get? i = none → Completes (.captureClose i) s (fun e => e = s.dev))

/-! ## Axes and cues (spec/10_axis.md) -/

/-- Axes (R260–R266): AXS_AX_CFG is written in the fields its axis has, EN starting or stopping the axis; the next encoder edge enters 24 ns after its stamp and counts one, a glitch or an illegal pair counts nothing; a rising index edge latches the
value and, when HOME is armed, sets the position; AX3 takes an edge without a step of its value, locks once enough cycles lay inside its window, and loses lock. Cues on an axis
may move with it, so frames are stated with no cue armed. Each of these commands completes from every state, a host command in RUN, and the first clause gives the state it leaves:
axisEnable, encoderEdgeEntry, indexEdge, home, ax3Edge, ax3Lock, ax3Loss. -/
def Obligations.AxisCommandsComplete : Prop :=
  (∀ s : State,
    (∀ (a : Fin 2), exec (.encoderEdgeEntry a) s = .next { s with dev := s.dev.encoderEntry (a.val + 1) }) ∧
    (∀ (a : Fin 2), exec (.indexEdge a) s = .next { s with dev := s.dev.indexEdge (a.val + 1) }) ∧
    (∀ (mHz : Nat), exec (.ax3Edge mHz) s = .next { s with dev := s.dev.ax3Edge mHz }) ∧
    exec .ax3Lock s = .next { s with dev := s.dev.ax3Lock } ∧
    exec .ax3Loss s = .next { s with dev := s.dev.ax3Loss } ∧
    (InRun s →
      (∀ (a : Fin 4) (v : Word), exec (.axisEnable a v) s = .next { s with dev := s.dev.axisEnable a v }) ∧
      (∀ (a : Fin 2), exec (.home a) s = .next { s with dev := s.dev.flag F.AXS_AX_CMD_HOME true (a.val + 1) }))) ∧
  ∀ s : State,
  (∀ (a : Fin 4) (v : Word), InRun s → a ≠ 0 → Completes (.axisEnable a v) s (fun e =>
    e.rd F.AXS_AX_CFG_EN a = v.field 0 1 ∧ (a.val ≠ 3 → e.rd F.AXS_AX_CFG_MODE a = v.field 1 1 ∧ e.rd F.AXS_AX_CFG_INV a = v.field 2 1 ∧ e.rd F.AXS_AX_CFG_INDEX_EN a = v.field 3 1 ∧
      e.rd F.AXS_AX_CFG_FILTER a = v.field 8 8 ∧ e.rd F.AXS_AX_CFG_PRED_LOG2 a = v.field 16 4) ∧ (a.val = 3 → e.rd F.AXS_AX_CFG_BW a = v.field 24 2) ∧
    e.axisState a = (if s.dev.rd F.AXS_AX_CFG_EN a = v.field 0 1 then s.dev.axisState a else if v.field 0 1 = 0 then 0 else if a.val = 3 then 2 else 1) ∧
    (∀ b : Nat, b ≠ a → e.axes.get? b = s.dev.axes.get? b) ∧
    (s.dev.cues.armed = Tab.empty → Frame (axisRegs a) s.dev { e with axes := s.dev.axes }))) ∧
  (∀ v : Word, InRun s → Completes (.axisEnable 0 v) s (fun e => e = s.dev)) ∧
  (∀ (a : Fin 2) (f : EncEdge), s.dev.cues.armed = Tab.empty → (s.dev.axis (a.val + 1)).queue = [f] → f.line < 2 → s.dev.rd F.AXS_AX_CFG_MODE (a.val + 1) = 0 → (s.dev.axis (a.val + 1)).lastLine.get? f.line = none →
    Completes (.encoderEdgeEntry a) s (fun e =>
      let x := s.dev.axis (a.val + 1)
      let up := (if f.line = 0 then f.up != x.b else f.up == x.a) != s.dev.is F.AXS_AX_CFG_INV (a.val + 1)
      (e.axis (a.val + 1)).pos = (if up then x.pos + 65536 else x.pos - 65536) ∧ (e.axis (a.val + 1)).queue = [] ∧ (e.axis (a.val + 1)).edges.head? = some (f.time + 24 * 2 ^ 64, up) ∧
      (if f.line = 0 then (e.axis (a.val + 1)).a else (e.axis (a.val + 1)).b) = f.up ∧ e.clk = max s.dev.clk (f.clk + 24) ∧ e.rd F.AXS_AX_STATUS_DIR (a.val + 1) = (if up then 0 else 1) ∧
      (∀ b, b ≠ a.val + 1 → e.axes.get? b = s.dev.axes.get? b) ∧ Frame (axisRegs (a.val + 1)) s.dev { e.atTime s.dev with axes := s.dev.axes })) ∧
  (∀ (a : Fin 2) (f : EncEdge) (q : List EncEdge) (l : Nat), (s.dev.axis (a.val + 1)).queue.filter (fun x => x.line != 2) = f :: q → (s.dev.axis (a.val + 1)).lastLine.get? f.line = some l →
      f.time - l < s.dev.rd F.AXS_AX_CFG_FILTER (a.val + 1) * 2 ^ 64 → Completes (.encoderEdgeEntry a) s (fun e =>
    (e.axis (a.val + 1)).pos = (s.dev.axis (a.val + 1)).pos ∧ e.rd F.AXS_AX_ERR_GLITCH (a.val + 1) = min 65535 (s.dev.rd F.AXS_AX_ERR_GLITCH (a.val + 1) + 1) ∧
    Frame [F.AXS_AX_ERR_GLITCH.at_ (a.val + 1) 0] s.dev { e.atTime s.dev with axes := s.dev.axes })) ∧
  (∀ (a : Fin 2) (f g : EncEdge), (s.dev.axis (a.val + 1)).queue = [f, g] → f.line < 2 → g.line < 2 → g.line ≠ f.line → g.time - f.time < 2 * 2 ^ 64 →
      s.dev.rd F.AXS_AX_CFG_MODE (a.val + 1) = 0 → (s.dev.axis (a.val + 1)).lastLine.get? f.line = none → Completes (.encoderEdgeEntry a) s (fun e =>
    (e.axis (a.val + 1)).pos = (s.dev.axis (a.val + 1)).pos ∧ (e.axis (a.val + 1)).queue = [] ∧ Raised e 4 (a.val + 1) ∧
    e.rd F.AXS_AX_ERR_ILLEGAL (a.val + 1) = min 65535 (s.dev.rd F.AXS_AX_ERR_ILLEGAL (a.val + 1) + 1))) ∧
  (∀ a : Fin 2, (s.dev.axis (a.val + 1)).queue.filter (fun x => x.line != 2) = [] → Completes (.encoderEdgeEntry a) s (fun e => e = s.dev)) ∧
  (∀ (a : Fin 2) (f : EncEdge), s.dev.cues.armed = Tab.empty → (s.dev.axis (a.val + 1)).queue.find? (fun x => x.line == 2) = some f → f.up = true → s.dev.rd F.AXS_AX_CMD_HOME (a.val + 1) = 0 →
    s.dev.rd F.AXS_AX_CFG_INDEX_EN (a.val + 1) = 1 → Completes (.indexEdge a) s (fun e =>
      e.wideAt F.AXS_AX_IDX_LO_IDX (a.val + 1) = e.axisValue (a.val + 1) % 2 ^ 64 ∧ Raised e 4 (a.val + 4) ∧ e.clk = max s.dev.clk (f.clk + 24) ∧
      (e.axis (a.val + 1)).pos = (s.dev.axis (a.val + 1)).pos ∧ Frame [] s.dev { e.atTime s.dev with axes := s.dev.axes, wide := s.dev.wide })) ∧
  (∀ (a : Fin 2) (f : EncEdge), s.dev.cues.armed = Tab.empty → (s.dev.axis (a.val + 1)).queue.find? (fun x => x.line == 2) = some f → f.up = true → s.dev.rd F.AXS_AX_CMD_HOME (a.val + 1) = 1 →
    Completes (.indexEdge a) s (fun e => (e.axis (a.val + 1)).pos = signed 64 (s.dev.rd F.AXS_AX_HOME_LO_HOME (a.val + 1) + s.dev.rd F.AXS_AX_HOME_HI_HOME (a.val + 1) * 2 ^ 32) ∧
      e.rd F.AXS_AX_CMD_HOME (a.val + 1) = 0 ∧ Raised e 4 9)) ∧
  (∀ a : Fin 2, (s.dev.axis (a.val + 1)).queue.find? (fun x => x.line == 2) = none → Completes (.indexEdge a) s (fun e => e = s.dev)) ∧
  (∀ a : Fin 2, InRun s → Completes (.home a) s (fun e => e.rd F.AXS_AX_CMD_HOME (a.val + 1) = 1 ∧ Frame [F.AXS_AX_CMD_HOME.at_ (a.val + 1) 0] s.dev e)) ∧
  (∀ f : Nat, s.dev.axisState 3 ≠ 0 → s.dev.axisState 3 ≠ 5 → s.dev.cues.armed = Tab.empty → Completes (.ax3Edge f) s (fun e =>
    (e.axis 3).seen = true ∧ (e.axis 3).ref = s.dev.localTime ∧ (e.axis 3).mHz = (s.dev.axis 3).steer (s.dev.axisState 3) (s.dev.localTime - (s.dev.axis 3).ref) f ∧
    (e.axis 3).val = (if (s.dev.axis 3).seen then (s.dev.axis 3).phase s.dev.localTime else s.dev.rd F.AXS_AX_PHOFF_PHOFF 3) ∧
    e.rd F.AXS_AX_VEL_VEL 3 = min (2 ^ 32 - 1) (e.axis 3).mHz ∧ e.axisState 3 = (if f < 1000 ∨ 10 ^ 9 < f then 5 else s.dev.axisState 3) ∧ (f < 1000 ∨ 10 ^ 9 < f → Raised e 4 3) ∧
    (∀ b, b ≠ 3 → e.axes.get? b = s.dev.axes.get? b) ∧ Frame (axisRegs 3) s.dev { e with axes := s.dev.axes })) ∧
  (∀ f : Nat, s.dev.axisState 3 = 0 ∨ s.dev.axisState 3 = 5 → Completes (.ax3Edge f) s (fun e => e = s.dev)) ∧
  (s.dev.axisState 3 = 2 ∨ s.dev.axisState 3 = 4 → max 16 (s.dev.rd F.AXS_AX_LOCK_CYCLES 3) ≤ (s.dev.axis 3).inside → Completes .ax3Lock s (fun e =>
    e.axisState 3 = 3 ∧ Raised e 4 8 ∧ e.axis 3 = { s.dev.axis 3 with slewing := s.dev.axisState 3 == 4, inside := 0, outside := 0 } ∧
    (∀ b, b ≠ 3 → e.axes.get? b = s.dev.axes.get? b) ∧ Frame [F.AXS_AX_STATUS_STATE.at_ 3 0] s.dev { e with axes := s.dev.axes })) ∧
  ((s.dev.axisState 3 ≠ 2 ∧ s.dev.axisState 3 ≠ 4) ∨ (s.dev.axis 3).inside < max 16 (s.dev.rd F.AXS_AX_LOCK_CYCLES 3) → Completes .ax3Lock s (fun e => e = s.dev)) ∧
  (s.dev.axisState 3 = 3 → Completes .ax3Loss s (fun e => e.axisState 3 = 4 ∧ Raised e 4 3 ∧ e.axis 3 = { s.dev.axis 3 with inside := 0, outside := 0 } ∧
    (max 1 (s.dev.rd F.AXS_AX_LOSS_CYCLES 3) ≤ (s.dev.axis 3).outside → e.clk = s.dev.clk) ∧
    (∀ b, b ≠ 3 → e.axes.get? b = s.dev.axes.get? b) ∧ Frame [F.AXS_AX_STATUS_STATE.at_ 3 0] s.dev { e.atTime s.dev with axes := s.dev.axes })) ∧
  (s.dev.axisState 3 ≠ 3 → Completes .ax3Loss s (fun e => e = s.dev))

/-- Cues (R268–R282): a word written with ARMED = 1 arms an entry whose checks pass, FAILS one whose check fails and is discarded and counted on an armed one; a disarm ends an armed cue unless its crossing was noted; a group
word is written; a prediction prepares a cue that is due; a PREPARED cue whose tolerance ends waits again; a crossing commits a PREPARED cue and makes another late or skips it; a late commit commits; the oldest snapshot is
written. Each of these commands completes from every state, a host command in RUN, and the first clause gives the state it leaves: cueArm, cueDisarm, groupEnableWrite, cuePredict,
cueToleranceExpiry, cueCrossing, lateCommit, snapshotRecord. -/
def Obligations.CueCommandsComplete : Prop :=
  (∀ s : State,
    exec .cuePredict s = .next { s with dev := s.dev.cuePredict } ∧
    (∀ (e : Fin 4096), exec (.cueToleranceExpiry e) s = .next { s with dev := s.dev.cueExpire e }) ∧
    (∀ (e : Fin 4096), exec (.cueCrossing e) s = .next { s with dev := s.dev.cueCross e }) ∧
    (∀ (e : Fin 4096), exec (.lateCommit e) s = .next { s with dev := s.dev.cueLate e }) ∧
    exec .snapshotRecord s = .next { s with dev := s.dev.snapWrite } ∧
    (InRun s →
      (∀ (e : Fin 4096) (word : Word), exec (.cueArm e word) s = .next { s with dev := s.dev.cueArm e word }) ∧
      (∀ (e : Fin 4096), exec (.cueDisarm e) s = .next { s with dev := s.dev.cueDisarm e }) ∧
      (∀ (k : Fin 8) (v : Word), exec (.groupEnableWrite k v) s = .next { s with dev := s.dev.groupWrite k v }))) ∧
  ∀ (s : State) (n : Fin 4096),
  (∀ w : Word, InRun s → s.dev.cues.armed.get? n = none → (s.dev.setReg (F.CUE_ENTRY_WORD.at_ n 2) (cueVisible 2 (w.setField 20 1 1))).armCode n = 0 → w.field 16 2 ≠ 0 ∨ s.dev.axisLive 0 < s.dev.cueCompare64 n →
    Completes (.cueArm n w) s (fun e => e.cueState n = 1 ∧ e.cueWord n 2 = (cueVisible 2 (w.setField 20 1 1)).toNat ∧ (e.cues.armed.get? n).isSome = true ∧ (e.cue n).cross = none ∧
      (e.cue n).low = decide (e.axisLive (e.cueAxis n) < e.cueCompare n) ∧ (e.cue n).high = decide (e.cueCompare n < e.axisLive (e.cueAxis n)) ∧
      (∀ k : Nat, k ≠ n → e.cues.armed.get? k = s.dev.cues.armed.get? k) ∧ Frame (cueRegs n) s.dev { e with cues := s.dev.cues })) ∧
  (∀ (w : Word) (c : Nat), InRun s → s.dev.cues.armed.get? n = none → (s.dev.setReg (F.CUE_ENTRY_WORD.at_ n 2) (cueVisible 2 (w.setField 20 1 1))).armCode n = c → c ≠ 0 → Completes (.cueArm n w) s (fun e =>
    e.cueState n = 5 ∧ e.cues.armed.get? n = none ∧ e.rd F.CUE_ERR_ENTRY = n ∧ e.rd F.CUE_ERR_CODE = c ∧ e.rd F.CUE_ERR_VALID = 1 ∧ Raised e 5 3 ∧
    Frame (0x80408 :: cueRegs n) s.dev { e with cues := s.dev.cues })) ∧
  (∀ w : Word, InRun s → s.dev.cues.armed.get? n = none → (s.dev.setReg (F.CUE_ENTRY_WORD.at_ n 2) (cueVisible 2 (w.setField 20 1 1))).armCode n = 0 → w.field 16 2 = 0 → (s.dev.cueCompare64 n : Int) ≤ s.dev.axisLive 0 →
    Completes (.cueArm n w) s (fun e => e.cueState n = 4 ∧ e.cues.armed.get? n = none ∧ e.rd F.CUE_MISSED_COUNT = min (2 ^ 32 - 1) (s.dev.rd F.CUE_MISSED_COUNT + 1) ∧ Raised e 5 2 ∧
      Frame (0x80418 :: cueRegs n) s.dev { e with cues := s.dev.cues })) ∧
  (∀ w : Word, InRun s → (s.dev.cues.armed.get? n).isSome = true → Completes (.cueArm n w) s (fun e =>
    e.rd F.CUE_WDROP_COUNT = min (2 ^ 32 - 1) (s.dev.rd F.CUE_WDROP_COUNT + 1) ∧ Raised e 5 8 ∧ Frame [0x80428] s.dev e)) ∧
  (InRun s → (s.dev.cues.armed.get? n).isSome = true → (s.dev.cue n).cross = none → s.dev.cueState n ≠ 2 → Completes (.cueDisarm n) s (fun e =>
    e.cueState n = 0 ∧ e.cues.armed.get? n = none ∧ bits (e.cueWord n 2) 20 1 = 0 ∧ (∀ k : Nat, k ≠ n → e.cues.armed.get? k = s.dev.cues.armed.get? k) ∧
    Frame (cueRegs n) s.dev { e with cues := s.dev.cues })) ∧
  (InRun s → (s.dev.cues.armed.get? n).isSome = true → (s.dev.cue n).cross.isSome = true → Completes (.cueDisarm n) s (fun e =>
    (e.cue n).disarm = true ∧ (e.cue n).cross = (s.dev.cue n).cross ∧ Frame [] s.dev { e with cues := s.dev.cues })) ∧
  (InRun s → s.dev.cues.armed.get? n = none → Completes (.cueDisarm n) s (fun e => e = s.dev)) ∧
  (∀ (k : Fin 8) (v : Word), InRun s → Completes (.groupEnableWrite k v) s (fun e => e.rd F.CUE_GRP_EN_EN k = v.toNat ∧
    (s.dev.cues.armed = Tab.empty → Frame [F.CUE_GRP_EN_EN.at_ k 0] s.dev e))) ∧
  (Completes .cuePredict s (fun e => e.clk = (s.dev.clk / 64 + 1) * 64 ∧
    (s.dev.rd F.CUE_CTRL_EN = 0 ∨ s.dev.halted = true ∨ s.dev.cues.armed = Tab.empty → e.atTime s.dev = s.dev))) ∧
  (∀ c : Cue, s.dev.time.lag = 0 → s.dev.rd F.CUE_CTRL_EN = 1 → s.dev.halted = false → s.dev.cues.armed = Tab.empty.put n c → s.dev.cueState n = 1 → c.cross = none → s.dev.groupOn (s.dev.cueGroup n) = true → s.dev.cueAxis n = 0 →
      s.dev.cueAction n = 0 → s.dev.axisLive 0 < s.dev.cueCompare64 n → s.dev.cueCompare64 n * 2 ^ 64 ≤ s.dev.localTime + bits (s.dev.cueWord n 3) 0 24 * 2 ^ 64 → s.dev.rd F.CUE_STATUS_PREPARED < 64 → s.dev.localTime + 64 * s.dev.cycle < localWrap →
      (s.dev.localTime + 64 * s.dev.cycle) / 2 ^ 64 < s.dev.cueCompare64 n →
    Completes .cuePredict s (fun e => e.cueState n = 2 ∧ (e.cue n).expiry = s.dev.cueCompare64 n * 2 ^ 64 + 2 ^ bits (s.dev.cueWord n 3) 24 5 * 2 ^ 64 ∧ (e.cue n).cross = none ∧
      Frame (cueRegs n) s.dev { e.atTime s.dev with cues := s.dev.cues })) ∧
  ((s.dev.cues.armed.get? n).isSome = true → s.dev.cueState n = 2 → (s.dev.cue n).cross = none → s.dev.cueAction n ≠ 6 → Completes (.cueToleranceExpiry n) s (fun e =>
    e.cueState n = 1 ∧ e.rd F.CUE_ABANDON_COUNT = min (2 ^ 32 - 1) (s.dev.rd F.CUE_ABANDON_COUNT + 1) ∧ e.rd F.CUE_ABANDON_LAST_ENTRY = n ∧ e.rd F.CUE_ABANDON_LAST_CAUSE = 1 ∧ (e.cue n).cross = none ∧
    Frame ([0x80410, 0x80414, 0x80434] ++ cueRegs n) s.dev { e.atTime s.dev with cues := s.dev.cues })) ∧
  (s.dev.cueState n ≠ 2 ∨ (s.dev.cue n).cross.isSome = true → Completes (.cueToleranceExpiry n) s (fun e => e = s.dev)) ∧
  (s.dev.cueState n = 2 → (s.dev.cue n).late = false → (s.dev.cue n).cross.isSome = true → (s.dev.cue n).disarm = false → (s.dev.cues.armed.get? n).isSome = true → s.dev.cueAction n = 0 → s.dev.cueWord n 4 / 65536 = 0 → s.dev.rd F.CUE_CTRL_LOG = 0 →
    Completes (.cueCrossing n) s (fun e => e.cueState n = 3 ∧ e.cues.armed.get? n = none ∧ bits (e.cueWord n 2) 20 1 = 0 ∧ e.rd F.CUE_COMMITS_COUNT = min (2 ^ 32 - 1) (s.dev.rd F.CUE_COMMITS_COUNT + 1) ∧
      (bits (s.dev.cueWord n 2) 21 1 = 1 → Raised e 5 0 ∧ e.rd F.CUE_EVT_ENTRY_COMMIT = n) ∧ Frame ([0x8040C, 0x80434] ++ cueRegs n) s.dev { e with cues := s.dev.cues })) ∧
  (∀ r : Nat, s.dev.cueState n = 2 → (s.dev.cue n).late = false → (s.dev.cue n).cross.isSome = true → (s.dev.cue n).disarm = false → (s.dev.cues.armed.get? n).isSome = true → s.dev.cueAction n = 0 →
      s.dev.cueWord n 4 / 65536 = r + 1 → s.dev.cueAxis n ≠ 0 → s.dev.rd F.CUE_CTRL_LOG = 0 → Completes (.cueCrossing n) s (fun e =>
    e.cueState n = 1 ∧ (e.cues.armed.get? n).isSome = true ∧ (e.cue n).cross = none ∧ e.rd F.CUE_COMMITS_COUNT = min (2 ^ 32 - 1) (s.dev.rd F.CUE_COMMITS_COUNT + 1) ∧
    e.cueWord n 4 / 65536 = (if r + 1 = 65535 then r + 1 else r) ∧
    e.cueCompare64 n = unsigned 64 ((s.dev.cueCompare64 n : Int) + (if s.dev.cueDir n = 1 then -1 else 1) * (s.dev.cueWord n 5 * (if (s.dev.cueWord n 2).testBit 23 then 65536 else 1) : Nat)) ∧
    Frame ([0x8040C, 0x80434, F.CUE_ENTRY_WORD.at_ n 0, F.CUE_ENTRY_WORD.at_ n 1, F.CUE_ENTRY_WORD.at_ n 4] ++ cueRegs n) s.dev { e with cues := s.dev.cues })) ∧
  (∀ g : Nat, s.dev.cueState n = 2 → (s.dev.cue n).late = false → (s.dev.cue n).cross.isSome = true → (s.dev.cue n).disarm = false → (s.dev.cues.armed.get? n).isSome = true → s.dev.cueAction n = 12 →
      s.dev.cueWord n 6 % 256 = g → Completes (.cueCrossing n) s (fun e => e.groupOn g = (s.dev.cueWord n 6).testBit 8)) ∧
  ((s.dev.cues.armed.get? n).isSome = true → s.dev.cueState n ≠ 2 → (s.dev.cue n).late = false → (s.dev.cue n).cross.isSome = true → s.dev.halted = false → s.dev.groupOn (s.dev.cueGroup n) = true →
    Completes (.cueCrossing n) s (fun e => (e.cue n).late = true ∧ (e.cue n).cross = (s.dev.cue n).cross ∧ Frame [] s.dev { e with cues := s.dev.cues })) ∧
  ((s.dev.cues.armed.get? n).isSome = true → s.dev.cueState n ≠ 2 → (s.dev.cue n).late = false → (s.dev.cue n).cross.isSome = true → s.dev.halted = true ∨ s.dev.groupOn (s.dev.cueGroup n) = false →
    Completes (.cueCrossing n) s (fun e => e.rd F.CUE_SKIP_COUNT = min (2 ^ 32 - 1) (s.dev.rd F.CUE_SKIP_COUNT + 1))) ∧
  (s.dev.cues.armed.get? n = none → Completes (.cueCrossing n) s (fun e => e = s.dev)) ∧
  (∀ (t c : Nat) (b : Bool), (s.dev.cue n).cross = some (t, c, b) → (s.dev.cue n).late = true → (s.dev.cue n).disarm = false → (s.dev.cues.armed.get? n).isSome = true → s.dev.cueAction n = 0 → s.dev.cueWord n 4 / 65536 = 0 → s.dev.rd F.CUE_CTRL_LOG = 0 →
    Completes (.lateCommit n) s (fun e => e.clk = max s.dev.clk (c + 8) ∧ e.cueState n = 3 ∧ e.cues.armed.get? n = none ∧ e.rd F.CUE_COMMITS_COUNT = min (2 ^ 32 - 1) (s.dev.rd F.CUE_COMMITS_COUNT + 1) ∧
      e.rd F.CUE_LATE_COUNT = min (2 ^ 32 - 1) (s.dev.rd F.CUE_LATE_COUNT + 1) ∧ Raised e 5 4 ∧ Frame ([0x8040C, 0x8041C, 0x80434] ++ cueRegs n) s.dev { e.atTime s.dev with cues := s.dev.cues })) ∧
  ((s.dev.cue n).late = false → Completes (.lateCommit n) s (fun e => e = s.dev)) ∧
  (∀ (p : Nat × Rec) (t : List (Nat × Rec)), s.dev.cues.snaps = p :: t → Completes .snapshotRecord s (fun e => e.cues.snaps = t ∧ RecordsOnly [0x80424] s.dev { e with cues := s.dev.cues })) ∧
  (s.dev.cues.snaps = [] → Completes .snapshotRecord s (fun e => e = s.dev))

/-! ## Time, event inputs, markers and the slow path (spec/11_time.md, spec/14_ports.md) -/

/-- The local clock (R284–R290): a rate within 1,000 ppm is committed, at once before the first alignment and else pending until the next anchor tick, and one beyond is refused; NEW_EPOCH raises the epoch and permits one step while no
acquisition runs; STEP sets or adds to the clock once; a read of TIM_NOW_FRAC answers the fraction and latches the rest of the same instant. Each of these commands completes from
every state, in RUN, and the first clause gives the state it leaves: timNewEpoch, timStep, rateCommit, timNowRead. -/
def Obligations.LocalClockCommandsComplete : Prop :=
  (∀ s : State,
    (InRun s →
      exec .timNewEpoch s = .next { s with dev := s.dev.newEpoch } ∧
      (∀ (mode : Bool), exec (.timStep mode) s = .next { s with dev := s.dev.timStep mode }) ∧
      (∀ (hi : Word), exec (.rateCommit hi) s = .next { s with dev := s.dev.rateCommit hi }) ∧
      exec .timNowRead s = .next { s with dev := s.dev.nowRead })) ∧
  ∀ s : State, InRun s →
  (∀ (hi : Word) (v : Int), signed 40 (s.dev.rd F.TIM_RATE_LO_RATE + hi.field 0 8 * 2 ^ 32) = v →
    (v < -281474976710 ∨ 281474976710 < v → Completes (.rateCommit hi) s (fun e => e.rd F.TIM_STATUS_CODE = 3 ∧ e.rate = s.dev.rate ∧ Frame [0x50004, 0x5001C] s.dev e)) ∧
    (-281474976710 ≤ v → v ≤ 281474976710 → s.dev.rd F.CLK_STATUS_ALIGNED = 1 → Completes (.rateCommit hi) s (fun e =>
      e.rd F.TIM_STATUS_CODE = 0 ∧ e.rd F.TIM_RATE_ACT_HI_PENDING = 1 ∧ e.time.ratePend = s.dev.time.ratePend ++ [(s.dev.clk, v)] ∧ e.rate = s.dev.rate ∧
      Frame [0x50004, 0x5001C, 0x50024] s.dev { e with time := { e.time with ratePend := s.dev.time.ratePend } })) ∧
    (-281474976710 ≤ v → v ≤ 281474976710 → s.dev.rd F.CLK_STATUS_ALIGNED = 0 → Completes (.rateCommit hi) s (fun e =>
      e.rd F.TIM_STATUS_CODE = 0 ∧ e.time.own = v ∧ e.time.ratePend = [] ∧ e.rate = clampInt (-281474976710) 281474976710 (v + s.dev.time.transfer) ∧
      Frame [0x50004, 0x5001C, 0x50020, 0x50024] s.dev { e with time := { e.time with ratePend := s.dev.time.ratePend, own := s.dev.time.own, bends := s.dev.time.bends } }))) ∧
  (s.dev.rd F.STY_STATUS_ISOLATED = 0 → s.dev.rd F.STY_STATUS_SLEWING = 0 → (∀ n, n < 8 → s.dev.cnvState n ≠ 1 ∧ s.dev.cnvState n ≠ 3) →
    Completes .timNewEpoch s (fun e => e.epoch = (s.dev.epoch + 1) % 65536 ∧ e.rd F.TIM_STATUS_STEP_AVAIL = 1 ∧ e.rd F.TIM_STATUS_CODE = 0 ∧ Raised e 2 0 ∧ Frame [0x50004] s.dev e) ∧
    (∀ mode : Bool, s.dev.rd F.TIM_STATUS_STEP_AVAIL = 0 → Completes (.timStep mode) s (fun e => e.rd F.TIM_STATUS_CODE = 1 ∧ Raised e 2 2 ∧ e.localTime = s.dev.localTime ∧ Frame [0x50004] s.dev e)) ∧
    (∀ (mode : Bool) (t : Nat), s.dev.rd F.TIM_STATUS_STEP_AVAIL = 1 → s.dev.rd F.TIM_STEP_NS_NS ≤ 999999999 →
      (if mode then (0 : Int) else (s.dev.localTime : Int)) +
        (if mode then ((s.dev.rd F.TIM_STEP_SEC_LO_SEC + s.dev.rd F.TIM_STEP_SEC_HI_SEC * 2 ^ 32 : Nat) : Int) else signed 48 (s.dev.rd F.TIM_STEP_SEC_LO_SEC + s.dev.rd F.TIM_STEP_SEC_HI_SEC * 2 ^ 32)) *
          (1000000000 * 2 ^ 64 : Nat) + (s.dev.rd F.TIM_STEP_NS_NS * 2 ^ 64 + s.dev.rd F.TIM_STEP_FRAC_FRAC * 2 ^ 48 : Nat) = t → t < localWrap →
      Completes (.timStep mode) s (fun e => e.localTime = t ∧ e.rd F.TIM_STATUS_STEP_AVAIL = 0 ∧ e.rd F.TIM_STATUS_UNSET = 0 ∧ e.rd F.TIM_STATUS_CODE = 0 ∧ Raised e 2 1 ∧ e.clk = s.dev.clk ∧ e.epoch = s.dev.epoch ∧
        e.inputs = s.dev.inputs ∧ (s.dev.time.meas = Tab.empty → e.mem = s.dev.mem ∧ e.rings = s.dev.rings)))) ∧
  ((∃ n ∈ List.range 8, s.dev.cnvState n = 1 ∨ s.dev.cnvState n = 3) → s.dev.rd F.STY_STATUS_ISOLATED = 0 → s.dev.rd F.STY_STATUS_SLEWING = 0 →
    Completes .timNewEpoch s (fun e => e.rd F.TIM_STATUS_CODE = 2 ∧ e.epoch = s.dev.epoch ∧ Raised e 2 2 ∧ Frame [0x50004] s.dev e) ∧
    (∀ mode : Bool, Completes (.timStep mode) s (fun e => e.rd F.TIM_STATUS_CODE = 2 ∧ e.localTime = s.dev.localTime ∧ Raised e 2 2 ∧ Frame [0x50004] s.dev e))) ∧
  (Completes .timNowRead s (fun e => e.readData = s.dev.localTime % 2 ^ 64 / 2 ^ 48 ∧ e.rd F.TIM_NOW_NS_NS = s.dev.localTime / 2 ^ 64 % 1000000000 ∧
    e.rd F.TIM_NOW_SEC_LO_SEC = s.dev.localTime / 2 ^ 64 / 1000000000 % 2 ^ 32 ∧ e.rd F.TIM_NOW_SEC_HI_SEC = s.dev.localTime / 2 ^ 64 / 1000000000 / 2 ^ 32 % 2 ^ 16 ∧
    Frame [0x5000C, 0x50010, 0x50014] s.dev { e with readData := s.dev.readData }))

/-- Event inputs, measurement units and markers (R301–R309): an edge outside the dead time gets the next event number and its stamp, one inside counts as unstamped; POP drops the oldest stamp; a batch closes; a unit is started and
aborted, and a gate that ends with fewer than three edges ends with FEW; a marker is armed for a time at least 1 µs ahead, and its next pulse leaves 40 ns after its placement.
Each of these commands completes from every state, a host command in RUN, and the first clause gives the state it leaves: eventEdge, batchTimeout, tdcPop, tdcMStart, tdcMAbort, gateEnd,
markerArm, markerPlacement. -/
def Obligations.EventInputCommandsComplete : Prop :=
  (∀ s : State,
    (∀ (n : Fin 20) (falling : Bool) (bin : Fin 512), exec (.eventEdge n falling bin) s = .next { s with dev := s.dev.eventEdge n falling bin }) ∧
    (∀ (n : Fin 20), exec (.batchTimeout n) s = .next { s with dev := s.dev.batchTimeout n }) ∧
    (∀ (u : Fin 8), exec (.gateEnd u) s = .next { s with dev := s.dev.gateTime u }) ∧
    (∀ (n : Fin 8), exec (.markerPlacement n) s = .next { s with dev := s.dev.markPlace n }) ∧
    (InRun s →
      (∀ (n : Fin 20), exec (.tdcPop n) s = .next { s with dev := s.dev.tdcPop n }) ∧
      (∀ (u : Fin 8), exec (.tdcMStart u) s = .next { s with dev := s.dev.measStart u }) ∧
      (∀ (u : Fin 8), exec (.tdcMAbort u) s = .next { s with dev := s.dev.measAbort u 0 }) ∧
      (∀ (n : Fin 8) (hi : Word), exec (.markerArm n hi) s = .next { s with dev := s.dev.markArm n hi }))) ∧
  ∀ s : State,
  (∀ (n : Fin 20) (falling : Bool) (bin : Fin 512), (s.dev.axisState 1 = 0 ∧ s.dev.axisState 2 = 0 ∧ s.dev.sections = Tab.empty ∧ s.dev.time.meas = Tab.empty) → s.dev.rd F.TDC_IN_CFG_EN n = 1 → s.dev.rd F.TDC_IN_CFG_EDGE n = 2 →
      s.dev.rd F.TDC_IN_CFG_DRAIN n = 0 → s.dev.rd F.TDC_IN_CFG_HAL_EN n = 0 → (s.dev.tdc n).last = none →
    Completes (.eventEdge n falling bin) s (fun e =>
      let t := (s.dev.localTime + bin * s.dev.cycle / 512 + localWrap - s.dev.rd F.TDC_IN_DELAY_PS n * s.dev.cycle / 1000) % localWrap
      (e.tdc n).evno = ((s.dev.tdc n).evno + 1) % 2 ^ 64 ∧ (e.tdc n).last = some (s.dev.localTime + bin * s.dev.cycle / 512) ∧
      ((s.dev.tdc n).queue.length < 4096 → (e.tdc n).queue = (s.dev.tdc n).queue ++ [⟨(s.dev.tdc n).evno, stamp96Tdc t, s.dev.epoch, falling⟩] ∧ (e.tdc n).lost = (s.dev.tdc n).lost) ∧
      (4096 ≤ (s.dev.tdc n).queue.length → (e.tdc n).queue = (s.dev.tdc n).queue ∧ (e.tdc n).lost = (s.dev.tdc n).lost + 1 ∧ Raised e 3 n ∧
        e.rd F.TDC_IN_LOST_COUNT n = min (2 ^ 32 - 1) (s.dev.rd F.TDC_IN_LOST_COUNT n + 1)) ∧
      Frame [F.TDC_IN_STATUS_FILL.at_ n 0, F.TDC_IN_LOST_COUNT.at_ n 0] s.dev { e with time := s.dev.time, wide := s.dev.wide, axes := s.dev.axes })) ∧
  (∀ (n : Fin 20) (falling : Bool) (bin : Fin 512) (l : Nat), (s.dev.axisState 1 = 0 ∧ s.dev.axisState 2 = 0 ∧ s.dev.sections = Tab.empty) → s.dev.rd F.TDC_IN_CFG_EN n = 1 → s.dev.rd F.TDC_IN_CFG_EDGE n = 2 → (s.dev.tdc n).last = some l →
      s.dev.localTime + bin * s.dev.cycle / 512 < l + 2 * 2 ^ 64 → Completes (.eventEdge n falling bin) s (fun e =>
    (e.tdc n).dead = (s.dev.tdc n).dead + 1 ∧ (e.tdc n).evno = (s.dev.tdc n).evno ∧ e.rd F.TDC_IN_DEADTIME_COUNT n = min (2 ^ 32 - 1) (s.dev.rd F.TDC_IN_DEADTIME_COUNT n + 1))) ∧
  (∀ (n : Fin 20), InRun s → s.dev.rd F.TDC_IN_CFG_DRAIN n = 0 → Completes (.tdcPop n) s (fun e => (e.tdc n).queue = (s.dev.tdc n).queue.drop 1 ∧ (e.tdc n).evno = (s.dev.tdc n).evno ∧
    e.rd F.TDC_IN_STATUS_FILL n = ((s.dev.tdc n).queue.length - 1) % 8192 ∧ Frame [F.TDC_IN_STATUS_FILL.at_ n 0] s.dev { e with time := s.dev.time })) ∧
  (∀ (n : Fin 20), InRun s → s.dev.rd F.TDC_IN_CFG_DRAIN n = 1 → Completes (.tdcPop n) s (fun e => e = s.dev)) ∧
  (∀ (n : Fin 20) (t : Nat) (x : TdcStamp), (s.dev.tdc n).batch = some t → s.dev.rd F.TDC_IN_CFG_DRAIN n = 1 → (s.dev.tdc n).queue = [x] → s.dev.ringOn (s.dev.rd F.TDC_IN_RING_RING n) = false →
    Completes (.batchTimeout n) s (fun e => e.clk = max s.dev.clk (t + max 1 (s.dev.rd F.TDC_IN_BATCH_NS_NS n)) ∧ (e.tdc n).queue = [] ∧ (e.tdc n).batch = none ∧ (e.tdc n).lost = 0 ∧ (e.tdc n).dead = 0 ∧
      RecordsOnly [F.TDC_IN_STATUS_FILL.at_ n 0] s.dev { e.atTime s.dev with time := s.dev.time })) ∧
  (∀ n : Fin 20, (s.dev.tdc n).batch = none → Completes (.batchTimeout n) s (fun e => e = s.dev)) ∧
  (∀ u : Fin 8, InRun s → s.dev.rd F.TDC_M_CFG_MODE u ≠ 0 → Completes (.tdcMStart u) s (fun e =>
    e.meas u = some (Meas.fresh (s.dev.reg (F.TDC_M_CFG_MODE.at_ u 0)).toNat (s.dev.rd F.TDC_M_N_N u + 1) (s.dev.rd F.TDC_M_GATE_LO_NS u + s.dev.rd F.TDC_M_GATE_HI_NS u * 2 ^ 32)) ∧
    e.rd F.TDC_M_STATUS_STATE u = 1 ∧ e.rd F.TDC_M_STATUS_CODE u = 0 ∧ Frame [F.TDC_M_STATUS_STATE.at_ u 0] s.dev { e with time := { e.time with meas := s.dev.time.meas } })) ∧
  (∀ u : Fin 8, InRun s → s.dev.rd F.TDC_M_CFG_MODE u = 0 → Completes (.tdcMStart u) s (fun e => e = s.dev)) ∧
  (∀ (u : Fin 8) (m : Meas), InRun s → s.dev.meas u = some m → m.cfg.testBit 28 = false → Completes (.tdcMAbort u) s (fun e =>
    e.meas u = none ∧ e.rd F.TDC_M_STATUS_STATE u = 3 ∧ e.rd F.TDC_M_STATUS_CODE u = 0 ∧ Frame [F.TDC_M_STATUS_STATE.at_ u 0] s.dev { e with time := { e.time with meas := s.dev.time.meas } })) ∧
  (∀ u : Fin 8, InRun s → s.dev.meas u = none → Completes (.tdcMAbort u) s (fun e => e = s.dev)) ∧
  (∀ (u : Fin 8) (m : Meas), s.dev.meas u = some m → bits m.cfg 0 2 = 3 → m.first.isSome = true → m.cfg.testBit 24 = false → m.cfg.testBit 28 = false → Completes (.gateEnd u) s (fun e =>
    e.meas u = none ∧ (m.n < 3 → e.rd F.TDC_M_STATUS_STATE u = 3 ∧ e.rd F.TDC_M_STATUS_CODE u = 2) ∧
    (3 ≤ m.n → e.rd F.TDC_M_STATUS_STATE u = 2 ∧ e.rd F.TDC_M_STATUS_CODE u = 0 ∧ Raised e 3 (20 + u) ∧ e.wideAt F.TDC_M_RES_MEAN u = unsigned 64 (m.results 3).1 % 2 ^ 64 ∧
      e.rd F.TDC_M_STATUS_SEQ u = (s.dev.rd F.TDC_M_STATUS_SEQ u + 1) % 65536) ∧
    Frame [F.TDC_M_STATUS_STATE.at_ u 0] s.dev { e.atTime s.dev with time := s.dev.time, wide := s.dev.wide })) ∧
  (∀ u : Fin 8, s.dev.meas u = none → Completes (.gateEnd u) s (fun e => e = s.dev)) ∧
  (∀ (n : Fin 8) (hi : Word) (t : Nat), InRun s → s.dev.rd F.MRK_CFG_MODE n = 3 →
      ((s.dev.rd F.MRK_TIME_SEC_LO_SEC n + hi.field 0 16 * 2 ^ 32) * 1000000000 + s.dev.rd F.MRK_TIME_NS_NS n) * 2 ^ 64 + s.dev.rd F.MRK_TIME_FRAC_FRAC n * 2 ^ 48 = t →
    (t < s.dev.localTime + 1000 * 2 ^ 64 → Completes (.markerArm n hi) s (fun e => (e.marker n).pulses = [] ∧ e.rd F.MRK_STATUS_ARMED n = 0 ∧ Raised e 3 28 ∧
      e.rd F.MRK_DROP_COUNT n = min (2 ^ 32 - 1) (s.dev.rd F.MRK_DROP_COUNT n + 1))) ∧
    (s.dev.localTime + 1000 * 2 ^ 64 ≤ t → (s.dev.marker n).last = none → Completes (.markerArm n hi) s (fun e => e.rd F.MRK_STATUS_ARMED n = 1 ∧
      (e.marker n).pulses = [(t / 2 ^ 57 * 2 ^ 57, max 1 (s.dev.rd F.MRK_WIDTH_NS n), s.dev.clk)] ∧
      Frame [F.MRK_TIME_SEC_HI_SEC.at_ n 0, F.MRK_STATUS_ARMED.at_ n 0] s.dev { e with time := { e.time with markers := s.dev.time.markers } }))) ∧
  (∀ (n : Fin 8) (p : Nat × Nat × Nat) (t : List (Nat × Nat × Nat)), (s.dev.marker n).pulses = p :: t → s.dev.rd F.MRK_CFG_MODE n ≠ 4 → Completes (.markerPlacement n) s (fun e =>
    (e.marker n).pulses = t ∧ (e.marker n).last = some (p.1, p.2.1) ∧ e.out.getLast? = some (.marker n (p.1 + 40 * 2 ^ 64) p.2.1 (s.dev.is F.MRK_CFG_POL n)) ∧ (s.dev.rd F.MRK_CFG_MODE n = 3 → e.rd F.MRK_STATUS_ARMED n = 0) ∧
    Frame [F.MRK_STATUS_ARMED.at_ n 0] s.dev { e.atTime s.dev with time := { e.time with markers := s.dev.time.markers } })) ∧
  (∀ n : Fin 8, (s.dev.marker n).pulses = [] → Completes (.markerPlacement n) s (fun e => e = s.dev))

/-- Ethernet ports (R294–R300, R389, R390, R400): a frame that is no control datagram goes to the receive queue of its sub-port, or is dropped and counted where the queue is full; a frame a descriptor names is taken at its tail write; a stamp is
queued and popped; the head of an enabled launch queue leaves at its time, a late one dropped or sent as LATE says; a frame that has left is written back; a link change is shown
and raised. Each of these commands completes from every state, a host command in RUN, and the first clause gives the state it leaves: ethRxFrame, ptpTxStamp, txqPop, launchTime,
spRxTailWrite, spTxTailWrite, ethLinkChange, slowPathTransmitDone. -/
def Obligations.EthernetCommandsComplete : Prop :=
  (∀ s : State,
    (∀ (q : Fin 16) (bytes : List Byte), exec (.ethRxFrame q bytes) s = .next { s with dev := s.dev.rxFrame q bytes }) ∧
    (∀ (q : Fin 16), exec (.ptpTxStamp q) s = .next { s with dev := s.dev.txStamp q }) ∧
    (∀ (p : Fin 4) (k : Fin 8), exec (.launchTime p k) s = .next { s with dev := s.dev.launch p k }) ∧
    (∀ (q : Fin 16) (up : Bool), exec (.ethLinkChange q up) s = .next { s with dev := s.dev.ethLink q up }) ∧
    (∀ (q : Fin 16), exec (.slowPathTransmitDone q) s = .next { s with dev := s.dev.txDone q }) ∧
    (InRun s →
      (∀ (q : Fin 16), exec (.txqPop q) s = .next { s with dev := s.dev.txqPop q }) ∧
      (∀ (q : Fin 16) (tail : Word) (stores : List (Nat × List Byte)), exec (.spRxTailWrite q tail stores) s = .next { s with dev := (s.dev.hostStores stores).wr F.ETH_SP_RX_TAIL_RX_TAIL tail.toNat q }) ∧
      (∀ (q : Fin 16) (tail : Word) (stores : List (Nat × List Byte)), exec (.spTxTailWrite q tail stores) s = .next { s with dev := s.dev.txTail q tail stores }))) ∧
  ∀ s : State,
  (∀ (q : Fin 16) (b : List Byte), s.dev.subPortOn q = true → b.length + 4 ≤ s.dev.rd F.ETH_CFG_MAXFRAME (q / 4) → (parseFrame b).ptp = none → (parseFrame b).udp.isNone = true →
    (s.dev.rd F.ETH_SP_RX_HEAD_RX_HEAD q ≠ s.dev.rd F.ETH_SP_RX_TAIL_RX_TAIL q → Completes (.ethRxFrame q b) s (fun e =>
      e.rd F.ETH_SP_RX_HEAD_RX_HEAD q = (s.dev.rd F.ETH_SP_RX_HEAD_RX_HEAD q + 1) % 2 ^ 32 ∧ Raised e 33 18 ∧ Frame [F.ETH_SP_RX_HEAD_RX_HEAD.at_ q 0] s.dev { e with hostMem := s.dev.hostMem })) ∧
    (s.dev.rd F.ETH_SP_RX_HEAD_RX_HEAD q = s.dev.rd F.ETH_SP_RX_TAIL_RX_TAIL q → Completes (.ethRxFrame q b) s (fun e =>
      e.rd F.ETH_SP_RXDROP_RXDROP q = min (2 ^ 32 - 1) (s.dev.rd F.ETH_SP_RXDROP_RXDROP q + 1) ∧ Raised e 33 20 ∧ Frame [F.ETH_SP_RXDROP_RXDROP.at_ q 0] s.dev e))) ∧
  (∀ (q : Fin 16) (b : List Byte), s.dev.subPortOn q = false ∨ s.dev.rd F.ETH_CFG_MAXFRAME (q / 4) < b.length + 4 → Completes (.ethRxFrame q b) s (fun e => e = s.dev)) ∧
  (∀ (q : Fin 16) (v : Word), InRun s → Completes (.spRxTailWrite q v []) s (fun e => e.rd F.ETH_SP_RX_TAIL_RX_TAIL q = v.toNat ∧ Frame [F.ETH_SP_RX_TAIL_RX_TAIL.at_ q 0] s.dev e)) ∧
  (∀ (q : Fin 16) (v : Word), InRun s → v.toNat = (s.dev.rd F.ETH_SP_TX_TAIL_TX_TAIL q + 1) % 2 ^ 32 →
    (let b := s.dev.hostMem.bytes (s.dev.rdWide F.ETH_SP_TX_BASE_TX_BASE q 2 + s.dev.rd F.ETH_SP_TX_TAIL_TX_TAIL q % 2 ^ max 4 (min 12 (s.dev.rd F.ETH_SP_TX_SIZE_TX_SIZE q)) * 32) 32
     leNat ((b.drop 14).take 1) = 0) → Completes (.spTxTailWrite q v []) s (fun e => e.rd F.ETH_SP_TX_TAIL_TX_TAIL q = v.toNat ∧
    ((e.links.sent.getD q []).map (fun f => f.desc)) = (s.dev.links.sent.getD q []).map (fun f => f.desc) ++
      [s.dev.rdWide F.ETH_SP_TX_BASE_TX_BASE q 2 + s.dev.rd F.ETH_SP_TX_TAIL_TX_TAIL q % 2 ^ max 4 (min 12 (s.dev.rd F.ETH_SP_TX_SIZE_TX_SIZE q)) * 32] ∧
    Frame [F.ETH_SP_TX_TAIL_TX_TAIL.at_ q 0] s.dev { e with links := { e.links with sent := s.dev.links.sent } })) ∧
  (∀ (q : Fin 16) (f : TxFrame) (i : Nat), s.dev.links.sent.getD q [] = [f] → f.ident = some i → (s.dev.time.txq.getD q []).length < 16 → Completes (.ptpTxStamp q) s (fun e =>
    e.time.txq.getD q [] = s.dev.time.txq.getD q [] ++ [(i, stamp96 (s.dev.stampAt (s.dev.rd F.PTP_EGRESS_PS_PS q)), s.dev.epoch)] ∧ e.links.sent.getD q [] = [{ f with ident := none }] ∧
    e.rd F.PTP_TXQ_STATUS_COUNT q = (s.dev.time.txq.getD q []).length + 1 ∧ e.rd F.PTP_TXQ_ID_VALID q = 1 ∧
    Frame [F.PTP_TXQ_STATUS_COUNT.at_ q 0, F.PTP_TXQ_ID_ID.at_ q 0] s.dev { e with links := s.dev.links, time := s.dev.time })) ∧
  (∀ (q : Fin 16) (f : TxFrame), s.dev.links.sent.getD q [] = [f] → f.ident.isSome = true → 16 ≤ (s.dev.time.txq.getD q []).length → Completes (.ptpTxStamp q) s (fun e =>
    e.time = s.dev.time ∧ e.rd F.PTP_TXQ_STATUS_OVF q = 1 ∧ e.rd F.PTP_TXQ_LOST_COUNT q = min (2 ^ 32 - 1) (s.dev.rd F.PTP_TXQ_LOST_COUNT q + 1))) ∧
  (∀ q : Fin 16, s.dev.links.sent.getD q [] = [] → Completes (.ptpTxStamp q) s (fun e => e = s.dev) ∧ Completes (.slowPathTransmitDone q) s (fun e => e = s.dev)) ∧
  (∀ q : Fin 16, InRun s → Completes (.txqPop q) s (fun e => e.time.txq.getD q [] = (s.dev.time.txq.getD q []).drop 1 ∧ e.rd F.PTP_TXQ_STATUS_COUNT q = ((s.dev.time.txq.getD q []).length - 1) % 32 ∧
    e.rd F.PTP_TXQ_ID_VALID q = (if (s.dev.time.txq.getD q []).length ≤ 1 then 0 else 1) ∧ Frame [F.PTP_TXQ_STATUS_COUNT.at_ q 0, F.PTP_TXQ_ID_ID.at_ q 0] s.dev { e with time := { e.time with txq := s.dev.time.txq } })) ∧
  (∀ (q : Fin 16) (f : TxFrame) (t : List TxFrame), s.dev.links.sent.getD q [] = f :: t → f.ident = none → f.q = q → Completes (.slowPathTransmitDone q) s (fun e =>
    e.links.sent.getD q [] = t ∧ Raised e 33 19 ∧ leNat (e.hostMem.bytes (f.desc + 10) 2) = (f.flags % 2 + 2 + f.flags / 4 * 4) % 65536 ∧
    Frame [F.ETH_SP_TX_HEAD_TX_HEAD.at_ q 0] s.dev { e with links := { e.links with sent := s.dev.links.sent }, hostMem := s.dev.hostMem })) ∧
  (∀ (p : Fin 4) (k : Fin 8) (f : TxFrame) (t : List TxFrame), s.dev.links.launch.getD (8 * p + k) [] = f :: t → s.dev.rd F.LQ_CFG_EN p k = 1 → (∀ j, j < k.val → s.dev.rd F.LQ_CFG_EN p j = 0) → f.cued = false →
      s.dev.localTime ≤ f.launch + 2 * 2 ^ 64 → Completes (.launchTime p k) s (fun e =>
    e.links.launch.getD (8 * p + k) [] = t ∧ e.rd F.LQ_SENT_COUNT p k = min (2 ^ 32 - 1) (s.dev.rd F.LQ_SENT_COUNT p k + 1) ∧ e.out.getLast? = some (.frame f.q f.bytes) ∧
    e.links.sent.getD f.q [] = s.dev.links.sent.getD f.q [] ++ [f] ∧
    Frame [F.LQ_SENT_COUNT.at_ p k] s.dev { e.atTime s.dev with links := { e.links with sent := s.dev.links.sent, launch := s.dev.links.launch } })) ∧
  (∀ (p : Fin 4) (k : Fin 8) (f : TxFrame) (t : List TxFrame), s.dev.links.launch.getD (8 * p + k) [] = f :: t → s.dev.rd F.LQ_CFG_EN p k = 1 → (∀ j, j < k.val → s.dev.rd F.LQ_CFG_EN p j = 0) → f.cued = false →
      f.launch + 2 * 2 ^ 64 < s.dev.localTime → Completes (.launchTime p k) s (fun e => e.links.launch.getD (8 * p + k) [] = t ∧ Raised e 2 (24 + p) ∧
    (s.dev.rd F.LQ_CFG_LATE p k = 1 → e.rd F.LQ_LATE_COUNT p k = min (2 ^ 32 - 1) (s.dev.rd F.LQ_LATE_COUNT p k + 1) ∧ e.links.sent.getD f.q [] = s.dev.links.sent.getD f.q [] ++ [{ f with flags := f.flags + 4 }]) ∧
    (s.dev.rd F.LQ_CFG_LATE p k = 0 → e.rd F.LQ_DROP_COUNT p k = min (2 ^ 32 - 1) (s.dev.rd F.LQ_DROP_COUNT p k + 1) ∧ e.links.sent = s.dev.links.sent))) ∧
  (∀ (p : Fin 4) (k : Fin 8), s.dev.links.launch.getD (8 * p + k) [] = [] ∨ s.dev.rd F.LQ_CFG_EN p k = 0 → Completes (.launchTime p k) s (fun e => e = s.dev)) ∧
  (∀ (q : Fin 16) (up : Bool), (s.dev.rd F.ETH_STATUS_LINK (q / 4)).testBit (q % 4) = !up → Completes (.ethLinkChange q up) s (fun e =>
    (e.rd F.ETH_STATUS_LINK (q / 4)).testBit (q % 4) = up ∧ (∀ j, j < 4 → j ≠ q % 4 → (e.rd F.ETH_STATUS_LINK (q / 4)).testBit j = (s.dev.rd F.ETH_STATUS_LINK (q / 4)).testBit j) ∧ Raised e 33 q ∧
    Frame [F.ETH_STATUS_LINK.at_ (q / 4) 0, F.ETH_STATUS_FEC_LOCK.at_ (q / 4) 0] s.dev e)) ∧
  (∀ (q : Fin 16) (up : Bool), (s.dev.rd F.ETH_STATUS_LINK (q / 4)).testBit (q % 4) = up → Completes (.ethLinkChange q up) s (fun e => e = s.dev))

/-! ## The galley: rings, the map, BAR2, movers, records of a run (spec/12_galley.md) -/

/-- Rings and the map (R319, R324, R325, R327, R328, R330): a ring is enabled over valid pages of its own and starts empty, and is disabled when nothing is bound to it; the host moves its read pointer up to WR, and publishes a record that it
placed when its header passes; an entry outside every enabled ring is written; BAR2 reads and writes the galley's bytes through a valid entry, all ones and an error elsewhere.
Each of these commands completes from every state, a host command in RUN, and the first clause gives the state it leaves: ringEnable, ringDisable, hostRdWrite, hostWrPublish, mapEntryWrite,
bar2Read, bar2Write. -/
def Obligations.RingCommandsComplete : Prop :=
  (∀ s : State,
    (∀ (a : BitVec 38), exec (.bar2Read a) s = .next { s with dev := s.dev.bar2Read a.toNat }) ∧
    (∀ (a : BitVec 38) (v : Word), exec (.bar2Write a v) s = .next { s with dev := s.dev.bar2Write a.toNat v }) ∧
    (InRun s →
      (∀ (r : Fin 1024), exec (.ringEnable r) s = .next { s with dev := s.dev.ringEnable r }) ∧
      (∀ (r : Fin 1024), exec (.ringDisable r) s = .next { s with dev := s.dev.ringDisable r }) ∧
      (∀ (r : Fin 1024) (hi : Word), exec (.hostRdWrite r hi) s = .next { s with dev := s.dev.hostRdWrite r hi }) ∧
      (∀ (r : Fin 1024) (hi : Word), exec (.hostWrPublish r hi) s = .next { s with dev := s.dev.hostPublish r hi }) ∧
      (∀ (hi : Word), exec (.mapEntryWrite hi) s = .next { s with dev := s.dev.mapWrite hi }))) ∧
  ∀ s : State, InRun s →
  (∀ r : Fin 1024, let b := s.dev.rd F.GAL_RING_BASE_BASE r; let n := s.dev.rd F.GAL_RING_PAGES_PAGES r
    (s.dev.ringOn r = true → Completes (.ringEnable r) s (fun e => e = s.dev)) ∧
    (s.dev.ringOn r = false →
      (1 ≤ n ∧ n ≤ 122879 ∧ b + n ≤ 131072 ∧
        (∀ k, k < n → (s.dev.mapEntry (b + k)).testBit 17 = true ∧ (s.dev.mapEntry (b + k)).testBit 18 = false ∧ 1 ≤ s.dev.mapEntry (b + k) % 2 ^ 17 ∧ s.dev.mapEntry (b + k) % 2 ^ 17 < 0x1E000) ∧
        (∀ q, q < 1024 → q ≠ r.val → s.dev.ringOn q = true → b + n ≤ s.dev.rd F.GAL_RING_BASE_BASE q ∨ s.dev.rd F.GAL_RING_BASE_BASE q + s.dev.rd F.GAL_RING_PAGES_PAGES q ≤ b)) →
      Completes (.ringEnable r) s (fun e => e.ringOn r = true ∧ e.ring r = ⟨0, 0, [], [], [], 0, [], [], false⟩ ∧ e.rd F.GAL_RING_STAT_CODE r = 0 ∧ e.wideAt F.GAL_RING_WR_LO_WR r = 0 ∧
        e.wideAt F.GAL_RING_RD_LO_RD r = 0 ∧ e.rd F.GAL_RING_CNT_MISC_DEAD_PAGES r = 0 ∧ (∀ q, q ≠ r.val → e.rings.get? q = s.dev.rings.get? q) ∧
        Frame [F.GAL_RING_CFG_EN.at_ r 0, F.GAL_RING_STAT_CODE.at_ r 0, F.GAL_RING_CNT_MISC_DEAD_PAGES.at_ r 0] s.dev { e with rings := s.dev.rings, wide := s.dev.wide })) ∧
    (s.dev.ringOn r = false →
      (n = 0 ∨ 131072 < b + n ∨ (s.dev.mapEntry b).testBit 17 = false ∨ ∃ q ∈ List.range 1024, q ≠ r.val ∧ s.dev.ringOn q = true ∧ s.dev.rd F.GAL_RING_BASE_BASE q ≤ b ∧ b < s.dev.rd F.GAL_RING_BASE_BASE q + s.dev.rd F.GAL_RING_PAGES_PAGES q) →
      Completes (.ringEnable r) s (fun e => e.rd F.GAL_RING_STAT_CODE r = 2 ∧ Frame [F.GAL_RING_STAT_CODE.at_ r 0] s.dev e)) ∧
    (s.dev.ringOn r = false → Completes (.ringDisable r) s (fun e => e = s.dev)) ∧
    (s.dev.ringOn r = true → (s.dev.ring r).writers = [] → (s.dev.ring r).readers = [] → Completes (.ringDisable r) s (fun e => e.ringOn r = false ∧ e.rings.get? r = none ∧ e.rd F.GAL_RING_STAT_CODE r = 0 ∧
      (∀ q, q ≠ r.val → e.rings.get? q = s.dev.rings.get? q) ∧ Frame [F.GAL_RING_CFG_EN.at_ r 0, F.GAL_RING_STAT_CODE.at_ r 0] s.dev { e with rings := s.dev.rings })) ∧
    (s.dev.ringOn r = true → ((s.dev.ring r).writers ≠ [] ∨ (s.dev.ring r).readers ≠ []) → Completes (.ringDisable r) s (fun e => e.rd F.GAL_RING_STAT_CODE r = 1 ∧ Frame [F.GAL_RING_STAT_CODE.at_ r 0] s.dev e))) ∧
  (∀ (r : Fin 1024) (hi : Word) (v : Nat), (s.dev.reg (F.GAL_RING_RD_LO_RD.at_ r 0)).toNat + hi.toNat * 2 ^ 32 = v →
    (s.dev.ringOn r = true → v ≤ (s.dev.ring r).wr → Completes (.hostRdWrite r hi) s (fun e => e.wideAt F.GAL_RING_RD_LO_RD r = v ∧ (e.ring r).wr = (s.dev.ring r).wr ∧ (∀ q, q ≠ r.val → e.rings.get? q = s.dev.rings.get? q) ∧
      Frame [F.GAL_RING_RD_HI_RD.at_ r 0, F.GAL_RING_STAT_EVENTS.at_ r 0] s.dev { e with rings := s.dev.rings, wide := s.dev.wide })) ∧
    ((s.dev.ring r).wr < v ∨ s.dev.ringOn r = false → Completes (.hostRdWrite r hi) s (fun e => Frame [F.GAL_RING_RD_HI_RD.at_ r 0] s.dev e))) ∧
  (∀ (r : Fin 1024) (hi : Word) (v : Nat), (s.dev.reg (F.GAL_RING_WR_LO_WR.at_ r 0)).toNat + hi.toNat * 2 ^ 32 = v →
    ((s.dev.ringOn r = false ∨ (s.dev.ring r).writers ≠ [] ∨ v < (s.dev.ring r).wr ∨ v % 8 ≠ 0 ∨ s.dev.headerOk r v = false) → Completes (.hostWrPublish r hi) s (fun e =>
      e.rd F.GAL_HOST_ERR_COUNT = min (2 ^ 32 - 1) (s.dev.rd F.GAL_HOST_ERR_COUNT + 1) ∧ Raised e 26 30 ∧ Frame [F.GAL_HOST_ERR_COUNT.at_ 0 0] s.dev e)) ∧
    (∀ h : List Byte, s.dev.ringBytes r (s.dev.ring r).wr 64 = h → s.dev.ringOn r = true → (s.dev.ring r).writers = [] → (s.dev.ring r).readers = [] → s.dev.rd F.GAL_RING_CFG_HOST_RD r = 0 → (s.dev.ring r).dead = [] → (s.dev.ring r).reserves = 0 →
      s.dev.rd F.GAL_RING_BASE_BASE r + s.dev.rd F.GAL_RING_PAGES_PAGES r ≤ 131072 → s.dev.headerOk r v = true → s.dev.readFill r (s.dev.ring r).wr = false → leNat ((h.drop 8).take 4) = v - (s.dev.ring r).wr → v % 8 = 0 → (s.dev.ring r).wr % 8 = 0 → (s.dev.ring r).wr + 64 ≤ v →
      leNat ((h.drop 60).take 4) = crc32 (h.take 60 ++ [0, 0, 0, 0]) → leNat ((h.drop 16).take 8) = (s.dev.ring r).seq → Completes (.hostWrPublish r hi) s (fun e =>
        (e.ring r).wr = v ∧ (e.ring r).seq = (s.dev.ring r).seq + 1 ∧ e.wideAt F.GAL_RING_WR_LO_WR r = v % 2 ^ 64 ∧ (∀ q, q ≠ r.val → e.rings.get? q = s.dev.rings.get? q) ∧
        (∀ a, 1048576 ≤ a → e.galByte a = s.dev.galByte a) ∧
        Frame [F.GAL_RING_STAT_EVENTS.at_ r 0] s.dev { e with rings := s.dev.rings, wide := s.dev.wide, mem := s.dev.mem }))) ∧
  (∀ hi : Word,
    (s.dev.ringOwning (s.dev.rd F.GAL_MAP_IDX_IDX) = none → Completes (.mapEntryWrite hi) s (fun e => e.mapEntry (s.dev.rd F.GAL_MAP_IDX_IDX) = (s.dev.reg (F.GAL_MAP_LO_ENTRY.at_ 0 0)).toNat % 2 ^ 19 ∧
      (∀ k, k ≠ s.dev.rd F.GAL_MAP_IDX_IDX → e.mapEntry k = s.dev.mapEntry k) ∧ e.rd F.GAL_STATUS_CODE = 0 ∧ s.dev.rd F.GAL_MAP_IDX_IDX ∉ e.dram.cached ∧
      Frame [0x300028, 0x300000] s.dev { e with mem := s.dev.mem, dram := { e.dram with cached := s.dev.dram.cached } })) ∧
    (s.dev.ringOwning (s.dev.rd F.GAL_MAP_IDX_IDX) ≠ none → Completes (.mapEntryWrite hi) s (fun e => e.rd F.GAL_STATUS_CODE = 1 ∧ Frame [0x300028, 0x300000] s.dev e))) ∧
  (∀ (a : BitVec 38) (v : Word), let idx := a.toNat / 2097152; let g := s.dev.mapEntry idx % 2 ^ 17 * 2097152 + a.toNat % 2097152
    ((s.dev.mapEntry idx).testBit 17 = false → Completes (.bar2Read a) s (fun e => e.readData = 0xFFFFFFFF ∧ e.rd F.GAL_HOST_ERR_COUNT = min (2 ^ 32 - 1) (s.dev.rd F.GAL_HOST_ERR_COUNT + 1) ∧ Raised e 26 30 ∧
        Frame [F.GAL_HOST_ERR_COUNT.at_ 0 0] s.dev { e with readData := s.dev.readData }) ∧
      Completes (.bar2Write a v) s (fun e => e.rd F.GAL_HOST_ERR_COUNT = min (2 ^ 32 - 1) (s.dev.rd F.GAL_HOST_ERR_COUNT + 1) ∧ Raised e 26 30 ∧ Frame [F.GAL_HOST_ERR_COUNT.at_ 0 0] s.dev e)) ∧
    ((s.dev.mapEntry idx).testBit 17 = true → s.dev.walkCause idx ≠ none → Completes (.bar2Read a) s (fun e => e.readData = 0xFFFFFFFF ∧ Raised e 26 28 ∧ Raised e 26 30 ∧ e.rd F.GAL_FAULT_COUNT_COUNT = min (2 ^ 32 - 1) (s.dev.rd F.GAL_FAULT_COUNT_COUNT + 1) ∧ e.mem = s.dev.mem) ∧
      Completes (.bar2Write a v) s (fun e => Raised e 26 28 ∧ Raised e 26 30 ∧ e.rd F.GAL_FAULT_COUNT_COUNT = min (2 ^ 32 - 1) (s.dev.rd F.GAL_FAULT_COUNT_COUNT + 1) ∧ e.mem = s.dev.mem)) ∧
    ((s.dev.mapEntry idx).testBit 17 = true → s.dev.walkCause idx = none → s.dev.addrDead g = false →
      Completes (.bar2Read a) s (fun e => e.readData = leNat (s.dev.galBytes g 4) ∧ e.mem = s.dev.mem ∧ RecordsOnly [] s.dev { e with readData := s.dev.readData }) ∧
      (s.dev.pageLocked idx = none → Completes (.bar2Write a v) s (fun e => e.galBytes g 4 = leBytes 4 v.toNat ∧ (∀ x, x < g ∨ g + 4 ≤ x → e.galByte x = s.dev.galByte x) ∧ RecordsOnly [] s.dev e))) ∧
    (∀ k, (s.dev.mapEntry idx).testBit 17 = true → s.dev.walkCause idx = none → s.dev.pageLocked idx = some k → Completes (.bar2Write a v) s (fun e =>
      e.rd F.FMR_IMG_WDROP_WDROP k = min (2 ^ 32 - 1) (s.dev.rd F.FMR_IMG_WDROP_WDROP k + 1) ∧ Raised e 7 8 ∧ e.mem = s.dev.mem)))

/-- Movers (R336, R337, R341): START at an owned, valid descriptor runs, one that is not owned leaves the mover IDLE, a stopped mover begins at its head; STOP lets a running one finish; RESET writes the descriptor in progress back as not run; a descriptor
of one element from host memory to host memory copies its bytes, is written back and ends the list at its last; the commands are refused in the other states and of a mover that
stream ports own. Each of these commands completes from every state, a host command in RUN, and the first clause gives the state it leaves: movStart, movStop, movReset, descriptorDone. -/
def Obligations.MoverCommandsComplete : Prop :=
  (∀ s : State,
    (∀ (m : Fin 64) (fails : List ReadFail), exec (.descriptorDone m fails) s = .next { s with dev := s.dev.moverDone m fails }) ∧
    (InRun s →
      (∀ (m : Fin 64) (stores : List (Nat × List Byte)), exec (.movStart m stores) s = .next { s with dev := s.dev.movStart m stores }) ∧
      (∀ (m : Fin 64), exec (.movStop m) s = .next { s with dev := s.dev.movStop m }) ∧
      (∀ (m : Fin 64) (ran : Fin 16), exec (.movReset m ran) s = .next { s with dev := s.dev.movReset busAccess m ran }))) ∧
  ∀ (s : State) (m : Fin 64), s.dev.rd F.HKA_CTRL_PACE_EN = 0 →
  (InRun s → s.dev.rd F.MOV_OWNER_STR m = 1 → Completes (.movStart m []) s (fun e => e.rd F.MOV_STATUS_CODE m = 2 ∧ Frame [F.MOV_STATUS_CODE.at_ m 0] s.dev e) ∧
    Completes (.movStop m) s (fun e => e.rd F.MOV_STATUS_CODE m = 2 ∧ Frame [F.MOV_STATUS_CODE.at_ m 0] s.dev e) ∧
    (∀ ran : Fin 16, Completes (.movReset m ran) s (fun e => e.rd F.MOV_STATUS_CODE m = 2 ∧ Frame [F.MOV_STATUS_CODE.at_ m 0] s.dev e))) ∧
  (s.dev.rd F.MOV_OWNER_STR m = 0 →
    (InRun s → s.dev.movState m = 1 ∨ s.dev.movState m = 3 → Completes (.movStart m []) s (fun e => e.rd F.MOV_STATUS_CODE m = 1 ∧ e.movState m = s.dev.movState m ∧ Frame [F.MOV_STATUS_CODE.at_ m 0] s.dev e)) ∧
    (InRun s → ∀ a : Nat, (if s.dev.movState m = 2 then s.dev.rd F.MOV_HEAD_LO_ADDR m + s.dev.rd F.MOV_HEAD_HI_ADDR m * 2 ^ 32 else s.dev.movCur m) = a → s.dev.movState m = 0 ∨ s.dev.movState m = 2 →
      s.dev.descAddrOk a = true → s.dev.rd F.PCI_LINK_UP = 1 →
      ((s.dev.descAt a).control.testBit 31 = false → Completes (.movStart m []) s (fun e => e.movState m = 0 ∧ e.movCur m = a ∧ e.rd F.MOV_STATUS_CODE m = 0 ∧ Frame [F.MOV_STATUS_CODE.at_ m 0] s.dev { e with wide := s.dev.wide })) ∧
      ((s.dev.descAt a).control.testBit 31 = true → s.dev.descOk (s.dev.descAt a) = true → Completes (.movStart m []) s (fun e => e.movState m = 1 ∧ e.movCur m = a ∧ e.rd F.MOV_STATUS_CODE m = 0 ∧
        Frame [F.MOV_STATUS_CODE.at_ m 0] s.dev { e with wide := s.dev.wide })) ∧
      ((s.dev.descAt a).control.testBit 31 = true → s.dev.descOk (s.dev.descAt a) = false → Completes (.movStart m []) s (fun e => e.movState m = 2 ∧ e.rd F.MOV_STATUS_CODE m = 3 ∧ Raised e (24 + m / 32) (m % 32) ∧
        e.rd F.MOV_DONE_COUNT m = min (2 ^ 32 - 1) (s.dev.rd F.MOV_DONE_COUNT m + 1)))) ∧
    (InRun s → s.dev.movState m = 1 → Completes (.movStop m) s (fun e => e.movState m = 3 ∧ e.rd F.MOV_STATUS_CODE m = 0 ∧ Frame [F.MOV_STATUS_CODE.at_ m 0] s.dev e)) ∧
    (InRun s → s.dev.movState m ≠ 1 → Completes (.movStop m) s (fun e => e.rd F.MOV_STATUS_CODE m = 1 ∧ e.movState m = s.dev.movState m ∧ Frame [F.MOV_STATUS_CODE.at_ m 0] s.dev e)) ∧
    (InRun s → s.dev.movState m = 0 ∨ s.dev.movState m = 2 → ∀ ran : Fin 16, Completes (.movReset m ran) s (fun e => e.movState m = 2 ∧ e.rd F.MOV_STATUS_CODE m = 0 ∧ Frame [F.MOV_STATUS_CODE.at_ m 0] s.dev e)) ∧
    (InRun s → s.dev.movState m = 1 ∨ s.dev.movState m = 3 → s.dev.movCur m + 288 ≤ 2 ^ 60 → s.dev.rd F.PCI_LINK_UP = 1 → Completes (.movReset m 0) s (fun e => e.movState m = 2 ∧ e.rd F.MOV_STATUS_CODE m = 0 ∧ Raised e (24 + m / 32) (m % 32) ∧
      e.rd F.MOV_DONE_COUNT m = min (2 ^ 32 - 1) (s.dev.rd F.MOV_DONE_COUNT m + 1) ∧ leNat (e.hostMem.bytes (s.dev.movCur m) 4) = (s.dev.descAt (s.dev.movCur m)).control % 2 ^ 31 ∧
      leNat (e.hostMem.bytes (s.dev.movCur m + 24) 4) = 0 ∧ (∀ k, k < (s.dev.descAt (s.dev.movCur m)).elems.length → leNat (e.hostMem.bytes (s.dev.movCur m + 46 + 16 * k) 2) = 2) ∧
      (∀ x, x < s.dev.movCur m ∨ s.dev.movCur m + 288 ≤ x → e.hostMem.byte x = s.dev.hostMem.byte x) ∧
      Frame [F.MOV_STATUS_CODE.at_ m 0, F.MOV_DONE_COUNT.at_ m 0] s.dev { e with hostMem := s.dev.hostMem, hka := s.dev.hka })) ∧
    (s.dev.movState m = 0 ∨ s.dev.movState m = 2 → Completes (.descriptorDone m []) s (fun e => e = s.dev)) ∧
    (∀ (src len dest : Nat), s.dev.movState m = 1 → s.dev.movCur m + 288 ≤ 2 ^ 60 → s.dev.rd F.PCI_LINK_UP = 1 → (s.dev.descAt (s.dev.movCur m)).elems = [(src, len)] → (s.dev.descAt (s.dev.movCur m)).dest = dest → src < 2 ^ 60 → dest < 2 ^ 60 →
      (s.dev.descAt (s.dev.movCur m)).control.testBit 5 = true → (∀ k, k < 64 → s.dev.movState k = 1 → s.dev.rd F.MOV_CTRL_PRIO k ≤ s.dev.rd F.MOV_CTRL_PRIO m) → (dest + len ≤ s.dev.movCur m ∨ s.dev.movCur m + 288 ≤ dest) →
      Completes (.descriptorDone m []) s (fun e => e.movState m = 0 ∧ e.hostMem.bytes dest len = s.dev.hostMem.bytes src len ∧ e.rd F.MOV_DONE_COUNT m = min (2 ^ 32 - 1) (s.dev.rd F.MOV_DONE_COUNT m + 1) ∧
        leNat (e.hostMem.bytes (s.dev.movCur m) 4) = (s.dev.descAt (s.dev.movCur m)).control % 2 ^ 31 ∧ leNat (e.hostMem.bytes (s.dev.movCur m + 4) 4) = 0 ∧ leNat (e.hostMem.bytes (s.dev.movCur m + 24) 4) = len % 2 ^ 32 ∧
        leNat (e.hostMem.bytes (s.dev.movCur m + 46) 2) = 0 ∧ ((s.dev.descAt (s.dev.movCur m)).control.testBit 4 = true → Raised e (24 + m / 32) (m % 32)) ∧
        (∀ x, (x < dest ∨ dest + len ≤ x) → (x < s.dev.movCur m ∨ s.dev.movCur m + 288 ≤ x) → e.hostMem.byte x = s.dev.hostMem.byte x) ∧
        Frame [F.MOV_STATUS_CODE.at_ m 0, F.MOV_DONE_COUNT.at_ m 0] s.dev { e with hostMem := s.dev.hostMem, wide := s.dev.wide })))

/-- Records of a run (R22–R24, R95, R157, R321, R322, R325, R326, R363): a raw or channel record that fits is placed, its units accounted for; one that the stone or the ring cannot take is accounted for as an open overflow gap, and units
known to be lost behind it as an open gap with their cause; while the ring was OFF at the start, units are counted as gone nowhere; a record of another form, or of a section that
is not ACTIVE, changes nothing; a stone row that errs is counted. Each of these commands completes from every state, and the first clause gives the state it leaves: recordPublish. -/
def Obligations.RecordPublishCompletes : Prop :=
  (∀ s : State,
    (∀ (i : Fin 128) (r : DataRecord), exec (.recordPublish i r) s = .next { s with dev := s.dev.recordPublish i r })) ∧
  ∀ (s : State) (i : Fin 128) (r : DataRecord),
  (s.dev.secState i ≠ 2 → r.rows = [] → Completes (.recordPublish i r) s (fun e => e = s.dev)) ∧
  (∀ x, s.dev.secState i ≠ 2 → r.rows = [x] → Completes (.recordPublish i r) s (fun e => e.rd F.SPM_STONE_ROWS_ROWS = min (2 ^ 32 - 1) (s.dev.rd F.SPM_STONE_ROWS_ROWS + 1) ∧ Raised e 27 2 ∧ e.runs = s.dev.runs ∧ e.mem = s.dev.mem)) ∧
  (∀ u : Run, s.dev.secState i = 2 → r.rows = [] → s.dev.runs.get? i = some u → s.dev.chanRunning i = false → u.kind = .trace ∨ u.kind = .dens → Completes (.recordPublish i r) s (fun e => e = s.dev)) ∧
  (∀ u : Run, s.dev.secState i = 2 → r.rows = [] → s.dev.runs.get? i = some u → s.dev.recordPayload i u r = none → (s.dev.chanRunning i = false → u.kind = .raw) → (s.dev.chanRunning i = true → (s.dev.chan i).input < 8) →
      (∀ n, s.dev.openLosses n = []) → s.dev.replIdle = true → u.losses = [] → Completes (.recordPublish i r) s (fun e => e = s.dev)) ∧
  (∀ (u : Run) (p : List Byte), s.dev.secState i = 2 → r.rows = [] → s.dev.runs.get? i = some u → s.dev.recordPayload i u r = some p → (s.dev.chanRunning i = true → (s.dev.chan i).input < 8) →
      (∀ n, s.dev.openLosses n = []) → s.dev.replIdle = true → u.held = [] →
    (u.losses = [] → u.ring = none → u.gap = none → Completes (.recordPublish i r) s (fun e => e.runs.get? i = some { u with next := u.next + r.count } ∧ e.rd F.GAL_NOWHERE_COUNT = min (2 ^ 32 - 1) (s.dev.rd F.GAL_NOWHERE_COUNT + 1) ∧
      Frame [F.GAL_NOWHERE_COUNT.at_ 0 0, knobAt i 0x78] s.dev { e with runs := s.dev.runs })) ∧
    (∀ k c, u.losses = [⟨u.next + r.count, k + 1, c⟩] → u.ring = none → u.gap = none → Completes (.recordPublish i r) s (fun e =>
      e.runs.get? i = some { u with next := u.next + r.count + (k + 1), losses := [], gap := some ⟨u.next + r.count, k + 1, c⟩ } ∧
      Frame [F.GAL_NOWHERE_COUNT.at_ 0 0, knobAt i 0x78] s.dev { e with runs := s.dev.runs })) ∧
    (∀ q, u.losses = [] → u.ring = some q → q < 1024 → r.stoneFull = true → u.gap = none → Completes (.recordPublish i r) s (fun e => e.runs.get? i = some { u with gap := some ⟨u.next, r.count, 1⟩, next := u.next + r.count } ∧
      e.rd F.GAL_STONE_FULL_COUNT = min (2 ^ 32 - 1) (s.dev.rd F.GAL_STONE_FULL_COUNT + 1) ∧ e.rd F.GAL_RING_CNT_OVF_OVF_UNITS q = min (2 ^ 32 - 1) (s.dev.rd F.GAL_RING_CNT_OVF_OVF_UNITS q + r.count) ∧ Raised e 26 29 ∧
      (e.rd F.GAL_RING_STAT_EVENTS q).testBit 0 = true ∧ e.mem = s.dev.mem ∧ e.rings = s.dev.rings ∧ RecordsOnly [] s.dev e)) ∧
    (∀ q, u.losses = [] → u.ring = some q → q < 1024 → r.stoneFull = false → (∀ g, u.gap = some g → g.cause ≠ 1) → s.dev.free q < 64 → Completes (.recordPublish i r) s (fun e =>
      e.rd F.GAL_RING_CNT_OVF_OVF_UNITS q = min (2 ^ 32 - 1) (s.dev.rd F.GAL_RING_CNT_OVF_OVF_UNITS q + r.count) ∧
      e.runs.get? i = some { u with next := u.next + r.count, held := u.gap.toList, gap := some ⟨u.next, r.count, 1⟩ } ∧ e.mem = s.dev.mem ∧ RecordsOnly [] s.dev e)) ∧
    (∀ q, u.losses = [] → u.ring = some q → q < 1024 → r.stoneFull = false → u.gap = none → u.ctxWait = none → (∀ x : Rec, x.payload = p → (s.dev.needs q x : Int) ≤ s.dev.free q) →
      s.dev.walkCause (s.dev.pageOf q (s.dev.nextHeader q (s.dev.headerFuel q) (s.dev.ring q).wr)) = none → s.dev.hasLive q = true →
      Completes (.recordPublish i r) s (fun e => (∀ v, e.runs.get? i = some v → v.next = u.next + r.count ∧ v.gap = none ∧ v.taken = true) ∧ (e.runs.get? i).isSome = true ∧
        e.rd F.GAL_RING_CNT_OVF_OVF_UNITS q = s.dev.rd F.GAL_RING_CNT_OVF_OVF_UNITS q ∧ RecordsOnly [] s.dev e)))

/-! ## DRAM channels and on-die memory (spec/13_memory.md) -/

/-- Channels (R333, R344, R347, R354, R355, R498): an ACTIVE channel that errs freezes with its capture and every ring's write position kept; RESUME makes it ACTIVE again; RETIRE hands its slot to the lowest spare that is available, or is refused; the
spare enters service with its slot's granules at 0; APPLY puts the staged masks in force, and is refused while a ring is ON. Each of these commands completes from every state, a
host command in RUN, and the first clause gives the state it leaves: channelFreeze, drcResume, drcRetire, spareInService, apply. -/
def Obligations.ChannelRepairCommandsComplete : Prop :=
  (∀ s : State,
    (∀ (ch : Fin 68) (c : FreezeCapture), exec (.channelFreeze ch c) s = .next { s with dev := s.dev.channelFreeze ch c }) ∧
    (∀ (slot : Fin 64), exec (.spareInService slot) s = .next { s with dev := s.dev.spareIn slot }) ∧
    (InRun s →
      (∀ (ch : Fin 68), exec (.drcResume ch) s = .next { s with dev := s.dev.drcResume ch }) ∧
      (∀ (ch : Fin 68), exec (.drcRetire ch) s = .next { s with dev := s.dev.drcRetire ch }) ∧
      exec .apply s = .next { s with dev := s.dev.applyMasks })) ∧
  ∀ s : State,
  (∀ (ch : Fin 68) (c : FreezeCapture), s.dev.rd F.DRC_CH_STATUS_STATE ch = 0 → Completes (.channelFreeze ch c) s (fun e => e.rd F.DRC_CH_STATUS_STATE ch = 2 ∧
    (e.rd F.DRC_FROZEN_FROZEN (ch / 32)).testBit (ch % 32) = true ∧ e.rd F.DRC_CH_FRZ_CAUSE ch = (if c.parity then 2 else 1) ∧ e.rd F.DRC_CH_FRZ_SCRUB ch = (if c.scrub then 1 else 0) ∧
    e.rd F.DRC_CH_FRZ_ADDR_LO_ADDR ch + e.rd F.DRC_CH_FRZ_ADDR_HI_ADDR ch * 2 ^ 32 = c.addr.toNat ∧ e.rd F.DRC_CH_FRZ_SYND_SYND ch = (if c.parity then 0 else c.syndrome.toNat) ∧
    e.rd F.DRC_CH_UE_COUNT ch = (if c.parity then s.dev.rd F.DRC_CH_UE_COUNT ch else min (2 ^ 32 - 1) (s.dev.rd F.DRC_CH_UE_COUNT ch + 1)) ∧
    (∀ k, k < min 32 c.log.length → e.rd F.DRC_CH_LOG_CMD_CMD ch k = (c.log.getD k (0, 0)).1.field 0 4 ∧ e.rd F.DRC_CH_LOG_CMD_BANK ch k = (c.log.getD k (0, 0)).1.field 4 4 ∧
      e.rd F.DRC_CH_LOG_CMD_ROW ch k = (c.log.getD k (0, 0)).1.field 8 17 ∧ e.rd F.DRC_CH_LOG_COL_COL ch k = (c.log.getD k (0, 0)).2.field 0 11 ∧ e.rd F.DRC_CH_LOG_COL_AGO ch k = (c.log.getD k (0, 0)).2.field 16 16) ∧
    (∀ p ∈ s.dev.rings.cells, (e.ring p.1).kept = p.2.kept ++ [(s.dev.rd F.DRC_CH_STATUS_SLOT ch, p.2.wr)] ∧ (e.ring p.1).wr = p.2.wr ∧ (e.ring p.1).recs = p.2.recs) ∧ Raised e 26 0 ∧
    Frame ((List.range 256).map (fun k => 0x310000 + ch.val * 0x400 + 4 * k) ++ [F.DRC_FROZEN_FROZEN.at_ (ch / 32) 0]) s.dev { e with rings := s.dev.rings })) ∧
  (∀ (ch : Fin 68) (c : FreezeCapture), s.dev.rd F.DRC_CH_STATUS_STATE ch = 2 → Completes (.channelFreeze ch c) s (fun e =>
    e.rd F.DRC_CH_UE_COUNT ch = min (2 ^ 32 - 1) (s.dev.rd F.DRC_CH_UE_COUNT ch + 1) ∧ Frame [F.DRC_CH_UE_COUNT.at_ ch 0] s.dev e)) ∧
  (∀ ch : Fin 68, InRun s → s.dev.rd F.DRC_CH_STATUS_STATE ch ≠ 2 → Completes (.drcResume ch) s (fun e => e.rd F.DRC_CH_STATUS_CODE ch = 1 ∧ e.rd F.DRC_CH_STATUS_STATE ch = s.dev.rd F.DRC_CH_STATUS_STATE ch ∧
      Frame [F.DRC_CH_STATUS_CODE.at_ ch 0] s.dev e) ∧
    Completes (.drcRetire ch) s (fun e => e.rd F.DRC_CH_STATUS_CODE ch = 1 ∧ e.rd F.DRC_CH_STATUS_STATE ch = s.dev.rd F.DRC_CH_STATUS_STATE ch ∧ Frame [F.DRC_CH_STATUS_CODE.at_ ch 0] s.dev e)) ∧
  (∀ ch : Fin 68, InRun s → s.dev.rd F.DRC_CH_STATUS_STATE ch = 2 → Completes (.drcResume ch) s (fun e => e.rd F.DRC_CH_STATUS_STATE ch = 0 ∧ e.rd F.DRC_CH_STATUS_CODE ch = 0 ∧
    (e.rd F.DRC_FROZEN_FROZEN (ch / 32)).testBit (ch % 32) = false ∧ Raised e 26 3 ∧ (∀ p ∈ s.dev.rings.cells, (e.ring p.1).kept = p.2.kept.filter (fun k => k.1 != s.dev.rd F.DRC_CH_STATUS_SLOT ch) ∧ (e.ring p.1).wr = p.2.wr) ∧
    Frame [F.DRC_CH_STATUS_CODE.at_ ch 0, F.DRC_FROZEN_FROZEN.at_ (ch / 32) 0] s.dev { e with rings := s.dev.rings })) ∧
  (∀ ch : Fin 68, InRun s → s.dev.rd F.DRC_CH_STATUS_STATE ch = 2 → (∀ c, 64 ≤ c → c < 68 → s.dev.rd F.DRC_CH_STATUS_STATE c ≠ 1 ∨ ∃ p ∈ s.dev.dram.entering, p.2 = c) → Completes (.drcRetire ch) s (fun e =>
    e.rd F.DRC_CH_STATUS_STATE ch = 2 ∧ e.rd F.DRC_CH_STATUS_CODE ch = 2 ∧ Raised e 26 5 ∧ Frame [F.DRC_CH_STATUS_CODE.at_ ch 0] s.dev e)) ∧
  (∀ (ch : Fin 68) (sp : Nat), InRun s → s.dev.rd F.DRC_CH_STATUS_STATE ch = 2 → 64 ≤ sp → sp < 68 → s.dev.rd F.DRC_CH_STATUS_STATE sp = 1 → s.dev.dram.entering = [] → (∀ c, 64 ≤ c → c < sp → s.dev.rd F.DRC_CH_STATUS_STATE c ≠ 1) →
      s.dev.repair.field.length < 1535 → Completes (.drcRetire ch) s (fun e =>
    e.rd F.DRC_CH_STATUS_STATE ch = 3 ∧ e.rd F.DRC_CH_STATUS_FIELD ch = 1 ∧ e.rd F.DRC_CH_STATUS_CODE ch = 0 ∧ (e.rd F.DRC_FROZEN_FROZEN (ch / 32)).testBit (ch % 32) = false ∧ e.dram.entering = [(s.dev.rd F.DRC_CH_STATUS_SLOT ch, sp)] ∧
    (1 ≤ s.dev.rd F.DRC_STATUS_SPARES → e.rd F.DRC_STATUS_SPARES = s.dev.rd F.DRC_STATUS_SPARES - 1) ∧ Raised e 26 2 ∧ (∃ x ∈ e.repair.field, rprKind x = 2 ∧ rprLoc x = ch) ∧ e.rings = s.dev.rings ∧ e.mem = s.dev.mem)) ∧
  (∀ (slot : Fin 64) (sp : Nat), s.dev.dram.entering = [(slot.val, sp)] → sp < 68 → Completes (.spareInService slot) s (fun e => e.rd F.DRC_CH_STATUS_STATE sp = 0 ∧ e.rd F.DRC_CH_STATUS_SLOT sp = slot ∧ e.rd F.DRC_SLOT_PHYS slot = sp ∧
    e.dram.entering = [] ∧ Raised e 26 4 ∧ (∀ a, s.dev.slotOf a = slot → e.galByte a = 0) ∧ (∀ a, s.dev.slotOf a ≠ slot → e.galByte a = s.dev.galByte a) ∧
    Frame [F.DRC_CH_STATUS_STATE.at_ sp 0, F.DRC_SLOT_PHYS.at_ slot 0] s.dev { e with mem := s.dev.mem, dram := s.dev.dram })) ∧
  (∀ slot : Fin 64, s.dev.dram.entering = [] → Completes (.spareInService slot) s (fun e => e = s.dev)) ∧
  (InRun s → (∀ r, r < 1024 → s.dev.ringOn r = false) → Completes .apply s (fun e => e.rd F.DRC_STATUS_CODE = 0 ∧ e.dram.cached = [] ∧ (∀ k, k < 131072 → (e.mapEntry k).testBit 17 = false) ∧
    (∀ k, k < 10 → e.dram.masks.getD k 0 = s.dev.rd F.DRC_MASK_LO_MASK k + s.dev.rd F.DRC_MASK_HI_MASK k * 2 ^ 32) ∧ Frame [F.DRC_STATUS_CODE.at_ 0 0] s.dev { e with mem := s.dev.mem, dram := s.dev.dram })) ∧
  (InRun s → (∃ r ∈ List.range 1024, s.dev.ringOn r = true) → Completes .apply s (fun e => e.rd F.DRC_STATUS_CODE = 1 ∧ Frame [F.DRC_STATUS_CODE.at_ 0 0] s.dev e))

/-- Refresh, temperature, self-refresh, scrub and marches (R348–R350, R364): an ACTIVE channel's slot is refreshed; a die above 85 °C makes its channel hot, and one at 82 °C or below for two readings cools it; self-refresh is entered in IDLE when nothing
needs the galley, and left; a scrub pass counts what it corrected; a march runs on a gang of a HELD section, is refused elsewhere, and ends with its rows repaired after 1.278 ms
for each round of 8 members. Each of these commands completes from every state, a host command in RUN, and the first clause gives the state it leaves: refresh, dramTempRead,
selfRefreshEntry, selfRefreshExit, scrubPassEnd, preservingMarch, marchEnd. -/
def Obligations.MemoryCareCommandsComplete : Prop :=
  (∀ s : State,
    (∀ (s_ : Fin 64), exec (.refresh s_) s = .next { s with dev := s.dev.refresh s_ }) ∧
    (∀ (temps : List Int), exec (.dramTempRead temps) s = .next { s with dev := s.dev.dramTemps temps }) ∧
    exec .selfRefreshEntry s = .next { s with dev := s.dev.selfRefreshIn } ∧
    exec .selfRefreshExit s = .next { s with dev := s.dev.selfRefreshOut } ∧
    (∀ (corrected : List (Nat × Nat)), exec (.scrubPassEnd corrected) s = .next { s with dev := s.dev.scrubEnd corrected }) ∧
    (∀ (rows : List (Nat × Nat × Nat)) (overflowed : List Nat), exec (.marchEnd rows overflowed) s = .next { s with dev := s.dev.marchEnd rows overflowed }) ∧
    (InRun s →
      (∀ (i : Fin 128) (gang : Fin 16) (_lx : Bool), exec (.preservingMarch i gang _lx) s = .next { s with dev := s.dev.march i gang }))) ∧
  ∀ s : State,
  (∀ x : Fin 64, s.dev.slotDead x = false → s.dev.rd F.DRC_STATUS_SELFREF = 0 → Completes (.refresh x) s (fun e => e.dram.refreshed.get? x = some s.dev.clk ∧ (∀ y, y ≠ x.val → e.dram.refreshed.get? y = s.dev.dram.refreshed.get? y) ∧
    Frame [] s.dev { e with dram := { e.dram with refreshed := s.dev.dram.refreshed } })) ∧
  (∀ x : Fin 64, s.dev.slotDead x = true ∨ s.dev.rd F.DRC_STATUS_SELFREF = 1 → Completes (.refresh x) s (fun e => e = s.dev)) ∧
  (∀ ts : List Int, ts.length = 68 → (∀ t ∈ ts, -128 ≤ t ∧ t ≤ 127) → Completes (.dramTempRead ts) s (fun e =>
    (∀ c, c < 68 → e.rdInt F.DRC_CH_TEMP_TEMP c = ts.getD c 0 ∧ (85 < ts.getD c 0 → e.rd F.DRC_CH_STATUS_HOT c = 1) ∧ ((e.dram.cool.get? c).isSome = decide (ts.getD c 0 ≤ 82)) ∧
      (ts.getD c 0 ≤ 82 → (s.dev.dram.cool.get? c).isSome = true → e.rd F.DRC_CH_STATUS_HOT c = 0) ∧ (ts.getD c 0 ≤ 82 → (s.dev.dram.cool.get? c).isSome = false → e.rd F.DRC_CH_STATUS_HOT c = s.dev.rd F.DRC_CH_STATUS_HOT c) ∧
      (82 < ts.getD c 0 → ts.getD c 0 ≤ 85 → e.rd F.DRC_CH_STATUS_HOT c = s.dev.rd F.DRC_CH_STATUS_HOT c) ∧ (e.rd F.DRC_CH_STATUS_HOT c ≠ s.dev.rd F.DRC_CH_STATUS_HOT c → Raised e 26 6) ∧
      e.rd F.DRC_CH_STATUS_STATE c = s.dev.rd F.DRC_CH_STATUS_STATE c) ∧
    Frame ((List.range 68).flatMap (fun c => [F.DRC_CH_TEMP_TEMP.at_ c 0, F.DRC_CH_STATUS_HOT.at_ c 0])) s.dev { e with dram := s.dev.dram })) ∧
  ((∀ m, m < 64 → s.dev.movState m ≠ 1 ∧ s.dev.movState m ≠ 3) → (∀ n, n < 1024 → s.dev.rd F.STR_STATUS_STATE n ≠ 2 ∧ s.dev.rd F.STR_STATUS_STATE n ≠ 3) → (∀ c, c < 16 → s.dev.rd F.CORE_STATUS_STATE c ≠ 1 ∧ s.dev.rd F.CORE_STATUS_STATE c ≠ 2) →
      s.dev.rd F.VID_STATUS_STATE = 0 → Completes .selfRefreshEntry s (fun e => e.rd F.DRC_SR_TOL_NS = 2 ^ 32 - 1 ∧ (s.dev.pstate = 3 → e.rd F.DRC_STATUS_SELFREF = 1) ∧ (s.dev.pstate ≠ 3 → e.rd F.DRC_STATUS_SELFREF = s.dev.rd F.DRC_STATUS_SELFREF) ∧
    Frame [F.DRC_SR_TOL_NS.at_ 0 0, F.DRC_STATUS_SELFREF.at_ 0 0] s.dev { e with freeCtr := s.dev.freeCtr })) ∧
  ((∃ m ∈ List.range 64, s.dev.movState m = 1) → Completes .selfRefreshEntry s (fun e => e.rd F.DRC_SR_TOL_NS = 0 ∧ e.rd F.DRC_STATUS_SELFREF = s.dev.rd F.DRC_STATUS_SELFREF ∧ Frame [F.DRC_SR_TOL_NS.at_ 0 0] s.dev { e with freeCtr := s.dev.freeCtr })) ∧
  Completes .selfRefreshExit s (fun e => e.rd F.DRC_STATUS_SELFREF = 0 ∧ Frame [F.DRC_STATUS_SELFREF.at_ 0 0] s.dev e) ∧
  (∀ (c : Fin 68) (k : Nat), s.dev.rd F.DRC_CTRL_SCRUB_EN = 1 → Completes (.scrubPassEnd [(c.val, k)]) s (fun e => e.rd F.DRC_CH_CE_COUNT c = min (2 ^ 32 - 1) (s.dev.rd F.DRC_CH_CE_COUNT c + k) ∧ Raised e 26 7 ∧
    (s.dev.dram.ceHour.get? c = none → s.dev.rd F.DRC_SCRUB_CE_THRESH < k → Raised e 26 1) ∧ Frame [F.DRC_CH_CE_COUNT.at_ c 0] s.dev { e with dram := s.dev.dram })) ∧
  (s.dev.rd F.DRC_CTRL_SCRUB_EN = 0 → ∀ l, Completes (.scrubPassEnd l) s (fun e => e = s.dev)) ∧
  (∀ (i : Fin 128) (gang : Fin 16) (lx : Bool), InRun s → (s.dev.secState i ≠ 3 ∨ s.dev.sections.get? i = none ∨ s.dev.rd F.SPM_MARCH_STATUS_STATE = 1) → Completes (.preservingMarch i gang lx) s (fun e =>
    e.rd F.SPM_MARCH_STATUS_CODE = 1 ∧ e.rd F.SPM_MARCH_STATUS_STATE = s.dev.rd F.SPM_MARCH_STATUS_STATE ∧ Frame [F.SPM_MARCH_STATUS_CODE.at_ 0 0] s.dev e)) ∧
  (∀ (i : Fin 128) (gang : Fin 16) (lx : Bool) (g : Gang), InRun s → s.dev.secState i = 3 → s.dev.rd F.SPM_MARCH_STATUS_STATE ≠ 1 → (s.dev.sections.get? i).map (fun x => x.desc.gangs) = some [g] → g.id = gang → Completes (.preservingMarch i gang lx) s (fun e =>
    e.rd F.SPM_MARCH_STATUS_STATE = 1 ∧ e.rd F.SPM_MARCH_STATUS_CODE = 0 ∧ e.rd F.SPM_MARCH_STATUS_REPAIRED = 0 ∧ e.dram.march = some (i.val, g.members, s.dev.clk) ∧
    Frame [F.SPM_MARCH_STATUS_CODE.at_ 0 0] s.dev { e with dram := { e.dram with march := s.dev.dram.march } })) ∧
  (∀ (i n t0 : Nat), s.dev.dram.march = some (i, n, t0) → n ≤ 128 → Completes (.marchEnd [] []) s (fun e => e.dram.march = none ∧ e.rd F.SPM_MARCH_STATUS_STATE = 2 ∧ e.rd F.SPM_MARCH_STATUS_REPAIRED = 0 ∧
    e.rd F.SPM_MARCH_TIME_US = (n + 7) / 8 * 1278 ∧ e.clk = max s.dev.clk (t0 + (n + 7) / 8 * 1278000) ∧ Raised e 27 0 ∧
    Frame [F.SPM_MARCH_STATUS_CODE.at_ 0 0, F.SPM_MARCH_TIME_US.at_ 0 0] s.dev { e.atTime s.dev with dram := s.dev.dram })) ∧
  (∀ (i n t0 : Nat) (x : Nat × Nat × Nat) (y : Nat), s.dev.dram.march = some (i, n, t0) → x.1 < 1184 → y < 1184 → s.dev.repair.field.length < 1534 → 1 ≤ s.dev.rd F.SPM_SORT_SPARES x.1 → Completes (.marchEnd [x] [y]) s (fun e =>
    e.dram.march = none ∧ e.rd F.SPM_MARCH_STATUS_STATE = 2 ∧ e.rd F.SPM_MARCH_STATUS_REPAIRED = 1 ∧ e.rd F.SPM_SORT_SPARES x.1 = s.dev.rd F.SPM_SORT_SPARES x.1 - 1 ∧ e.rd F.SPM_SORT_RETIRE_PENDING y = 1 ∧ Raised e 27 0 ∧ Raised e 27 1 ∧
    (∃ z ∈ e.repair.field, rprKind z = 5 ∧ rprLoc z = y))) ∧
  (s.dev.dram.march = none → ∀ rows ov, Completes (.marchEnd rows ov) s (fun e => e = s.dev))

/-! ## The host link, drives and stripe sets, stream ports (spec/14_ports.md) -/

/-- The host link and the root ports (R366, R368–R373, R400): the link comes up and goes down, a running host-ring port stopping with it; a scan sends the drives found to LINK and counts its round; a drive goes by its link and its initialisation to READY or FAILED, leaves VANISHED,
arrives, and fails on a time-out or an error; the temperatures of drives in service are stored; an event of a drive in another state changes nothing. Each of these commands
completes from every state, a host command in RUN, and the first clause gives the state it leaves: pciLinkDown, nvmScan, scanRoundEnd, rootPortLinkUp, rootPortLinkTimeout, driveInitDone,
presenceLost, presenceArrival, nvmeCompletion, nvmeTimeout, hostLinkUp, driveTempPoll. -/
def Obligations.DriveCommandsComplete : Prop :=
  (∀ s : State,
    exec .pciLinkDown s = .next { s with dev := s.dev.linkDown } ∧
    exec .scanRoundEnd s = .next { s with dev := s.dev.scanRoundEnd } ∧
    (∀ (n : Fin 16) (speed width : Nat), exec (.rootPortLinkUp n speed width) s = .next { s with dev := s.dev.rootUp n speed width }) ∧
    (∀ (n : Fin 16), exec (.rootPortLinkTimeout n) s = .next { s with dev := s.dev.rootTimeout n }) ∧
    (∀ (n : Fin 16) (i : DriveInfo), exec (.driveInitDone n i) s = .next { s with dev := s.dev.driveInit n i }) ∧
    (∀ (n : Fin 16), exec (.presenceLost n) s = .next { s with dev := s.dev.presenceLost n }) ∧
    (∀ (n : Fin 16), exec (.presenceArrival n) s = .next { s with dev := s.dev.presenceArrival n }) ∧
    (∀ (n : Fin 16) (ok : Bool) (data : List Byte), exec (.nvmeCompletion n ok data) s = .next { s with dev := s.dev.nvmeCompletion n ok data }) ∧
    (∀ (n : Fin 16), exec (.nvmeTimeout n) s = .next { s with dev := s.dev.nvmeTimeout n }) ∧
    (∀ (speed width : Nat) (enable mask : Bool) (masked : List Nat), exec (.hostLinkUp speed width enable mask masked) s = .next { s with dev := s.dev.linkUp speed width enable mask masked }) ∧
    (∀ (temps : List (Nat × Nat × Nat)), exec (.driveTempPoll temps) s = .next { s with dev := s.dev.driveTemps temps }) ∧
    (InRun s →
      (∀ (present : BitVec 16), exec (.nvmScan present) s = .next { s with dev := s.dev.nvmScan present.toNat }))) ∧
  ∀ s : State,
  (∀ (speed width : Nat) (enable mask : Bool) (masked : List Nat), Completes (.hostLinkUp speed width enable mask masked) s (fun e => e.rd F.PCI_LINK_UP = 1 ∧ e.rd F.PCI_LINK_SPEED = speed % 16 ∧ e.rd F.PCI_LINK_WIDTH = width % 64 ∧
    e.rd F.PCI_LINK_DEGRADED = (if width < 8 then 1 else 0) ∧ e.irq.msixEnable = enable ∧ e.irq.functionMask = mask ∧ Frame [0x390000] s.dev { e with irq := s.dev.irq })) ∧
  ((∀ p ∈ s.dev.links.ports.cells, p.1 < 1024) → Completes .pciLinkDown s (fun e => e.rd F.PCI_LINK_UP = 0 ∧ e.rd F.PCI_DOWN_COUNT = min (2 ^ 32 - 1) (s.dev.rd F.PCI_DOWN_COUNT + 1) ∧ Raised e 32 20 ∧ (s.dev.links.ports = Tab.empty → Frame [0x390000, 0x39000C] s.dev e) ∧
    (∀ p ∈ s.dev.links.ports.cells, s.dev.rd F.STR_CFG_TRANSPORT p.1 = 0 → s.dev.strState p.1 = 2 → e.strState p.1 = 4 ∧ e.rd F.STR_STATUS_CODE p.1 = 6 ∧ (e.rd F.STR_STATUS_EVENTS p.1).testBit 1 = true))) ∧
  (∀ present : BitVec 16, InRun s → s.dev.rd F.NVM_SCAN_STATUS_BUSY = 1 → Completes (.nvmScan present) s (fun e => e = s.dev)) ∧
  (∀ present : BitVec 16, InRun s → s.dev.rd F.NVM_SCAN_STATUS_BUSY = 0 → Completes (.nvmScan present) s (fun e => e.rd F.NVM_SCAN_STATUS_BUSY = 1 ∧ e.links.scan = some (present.toNat, 0) ∧
    (∀ n, n < 16 → (e.drvState n = if s.dev.drvState n = 0 ∨ s.dev.drvState n = 5 ∨ s.dev.drvState n = 6 then (if present.toNat.testBit n then 1 else 0) else s.dev.drvState n) ∧ (e.drvState n ≠ s.dev.drvState n → Raised e 32 n)) ∧
    Frame ([0x390100, 0x390104] ++ (List.range 16).map (fun n => F.NVM_DRV_STATE_STATE.at_ n 0)) s.dev { e with links := { e.links with scan := s.dev.links.scan, linkSince := s.dev.links.linkSince } })) ∧
  (∀ p v : Nat, s.dev.links.scan = some (p, v) → (∀ n, n < 16 → s.dev.drvState n ≠ 1 ∧ s.dev.drvState n ≠ 2) → Completes .scanRoundEnd s (fun e => e.rd F.NVM_SCAN_STATUS_BUSY = 0 ∧ e.rd F.NVM_CTRL_SCAN = 0 ∧
    e.rd F.NVM_SCAN_STATUS_ROUND = (s.dev.rd F.NVM_SCAN_STATUS_ROUND + 1) % 2 ^ 16 ∧ e.rd F.NVM_PRESENT_PRESENT = p % 2 ^ 16 ∧ e.rd F.NVM_PRESENT_VANISHED = v % 2 ^ 16 ∧ e.links.scan = none ∧ Raised e 32 16 ∧
    Frame [0x390100, 0x390104, 0x390108] s.dev { e with links := { e.links with scan := s.dev.links.scan } })) ∧
  ((s.dev.links.scan = none ∨ ∃ n ∈ List.range 16, s.dev.drvState n = 1 ∨ s.dev.drvState n = 2) → Completes .scanRoundEnd s (fun e => e = s.dev)) ∧
  (∀ (n : Fin 16) (speed width : Nat), (s.dev.drvState n = 1 → Completes (.rootPortLinkUp n speed width) s (fun e => e.drvState n = 2 ∧ e.rd F.NVM_DRV_LINK_SPEED n = speed % 16 ∧ e.rd F.NVM_DRV_LINK_WIDTH n = width % 8 ∧ Raised e 32 n ∧
      Frame [F.NVM_DRV_STATE_STATE.at_ n 0, F.NVM_DRV_LINK_SPEED.at_ n 0] s.dev e)) ∧
    (s.dev.drvState n ≠ 1 → Completes (.rootPortLinkUp n speed width) s (fun e => e = s.dev))) ∧
  (∀ n : Fin 16, (∀ c, s.dev.drvState n = 1 → s.dev.links.linkSince.get? n = some c → Completes (.rootPortLinkTimeout n) s (fun e => e.drvState n = 5 ∧ e.rd F.NVM_DRV_STATE_CODE n = 1 ∧ Raised e 32 n ∧ e.clk = max s.dev.clk (c + 100000000) ∧
      Frame [F.NVM_DRV_STATE_STATE.at_ n 0] s.dev (e.atTime s.dev))) ∧
    (s.dev.drvState n ≠ 1 → Completes (.rootPortLinkTimeout n) s (fun e => e = s.dev))) ∧
  (∀ (n : Fin 16) (i : DriveInfo), (s.dev.drvState n ≠ 2 → Completes (.driveInitDone n i) s (fun e => e = s.dev)) ∧
    (s.dev.drvState n = 2 → i.qualifies = false ∨ (i.lbaLog2 ≠ 9 ∧ i.lbaLog2 ≠ 12) → Completes (.driveInitDone n i) s (fun e => e.drvState n = 5 ∧ e.rd F.NVM_DRV_STATE_CODE n = 2 ∧ Raised e 32 n ∧ Frame [F.NVM_DRV_STATE_STATE.at_ n 0] s.dev e)) ∧
    (s.dev.drvState n = 2 → i.qualifies = true → i.lbaLog2 = 9 ∨ i.lbaLog2 = 12 → i.serial.length = 20 → i.lbas < 2 ^ 64 → Completes (.driveInitDone n i) s (fun e => e.drvState n = 3 ∧ e.rd F.NVM_DRV_STATE_CODE n = 0 ∧ Raised e 32 n ∧
      e.drvBytes n = i.lbas * 2 ^ i.lbaLog2 ∧ e.drvSerial n = i.serial ∧ e.rd F.NVM_DRV_FMT_MDTS_LOG2 n = i.mdtsLog2 % 256 ∧ e.rd F.NVM_DRV_USED_PCT n = i.used % 256 ∧ Frame ((List.range 16).map (fun j => 0x391000 + n.val * 0x80 + 4 * j)) s.dev e))) ∧
  (∀ n : Fin 16, (s.dev.drvState n = 0 ∨ s.dev.drvState n = 5 ∨ s.dev.drvState n = 6 → Completes (.presenceLost n) s (fun e => e = s.dev) ∧
      Completes (.presenceArrival n) s (fun e => (e.rd F.NVM_ARRIVED_ARRIVED).testBit n = true ∧ Raised e 32 n ∧ Frame [0x39010C] s.dev e)) ∧
    (s.dev.drvState n = 1 ∨ s.dev.drvState n = 2 ∨ s.dev.drvState n = 3 → Completes (.presenceLost n) s (fun e => e.drvState n = 6 ∧ e.rd F.NVM_DRV_STATE_CODE n = 5 ∧ Raised e 32 n ∧ e.links.scan = s.dev.links.scan.map (fun x => (x.1, x.2 ||| 2 ^ n.val)) ∧
      Frame [F.NVM_DRV_STATE_STATE.at_ n 0] s.dev { e with links := { e.links with scan := s.dev.links.scan } })) ∧
    (s.dev.drvState n = 4 → (∀ p ∈ s.dev.links.ports.cells, p.1 < 1024) → Completes (.presenceLost n) s (fun e => e.drvState n = 6 ∧ e.rd F.NVM_DRV_STATE_CODE n = 5 ∧ Raised e 32 n ∧ (e.sset (s.dev.rd F.NVM_DRV_STATE_SET n)).members.get? (s.dev.rd F.NVM_DRV_STATE_ORDINAL n) = none ∧
      ((s.dev.sset (s.dev.rd F.NVM_DRV_STATE_SET n)).members.get? (s.dev.rd F.NVM_DRV_STATE_ORDINAL n) ≠ none → Raised e 32 17))) ∧
    (1 ≤ s.dev.drvState n → s.dev.drvState n ≤ 4 → Completes (.presenceArrival n) s (fun e => e = s.dev))) ∧
  (∀ n : Fin 16, (s.dev.drvState n = 2 ∨ s.dev.drvState n = 3 → Completes (.nvmeTimeout n) s (fun e => e.drvState n = 5 ∧ e.rd F.NVM_DRV_STATE_CODE n = 3 ∧ Raised e 32 n ∧ e.rd F.NVM_DRV_TMO_COUNT n = min (2 ^ 32 - 1) (s.dev.rd F.NVM_DRV_TMO_COUNT n + 1) ∧
      e.clk = s.dev.clk + max 1 (s.dev.rd F.NVM_TIMEOUT_MS) * 1000000 ∧ Frame [F.NVM_DRV_STATE_STATE.at_ n 0, F.NVM_DRV_TMO_COUNT.at_ n 0] s.dev (e.atTime s.dev))) ∧
    (s.dev.drvState n = 0 ∨ s.dev.drvState n = 1 ∨ s.dev.drvState n = 5 ∨ s.dev.drvState n = 6 → Completes (.nvmeTimeout n) s (fun e => e = s.dev)) ∧
    (∀ b : List Byte, s.dev.links.replays = Tab.empty → Completes (.nvmeCompletion n true b) s (fun e => e = s.dev) ∧
      (s.dev.drvState n = 2 ∨ s.dev.drvState n = 3 → Completes (.nvmeCompletion n false b) s (fun e => e.drvState n = 5 ∧ e.rd F.NVM_DRV_STATE_CODE n = 4 ∧ Raised e 32 n ∧ e.rd F.NVM_DRV_ERR_COUNT n = min (2 ^ 32 - 1) (s.dev.rd F.NVM_DRV_ERR_COUNT n + 1) ∧
        Frame [F.NVM_DRV_STATE_STATE.at_ n 0, F.NVM_DRV_ERR_COUNT.at_ n 0] s.dev e)))) ∧
  (∀ (n : Fin 16) (kelvin pct : Nat), (s.dev.drvState n = 3 ∨ s.dev.drvState n = 4 → Completes (.driveTempPoll [(n.val, kelvin, pct)]) s (fun e => e.rd F.NVM_DRV_TEMP_KELVIN n = kelvin % 2 ^ 16 ∧ e.rd F.NVM_DRV_USED_PCT n = pct % 256 ∧
      Frame [F.NVM_DRV_TEMP_KELVIN.at_ n 0, F.NVM_DRV_USED_PCT.at_ n 0] s.dev e)) ∧
    (s.dev.drvState n ≠ 3 → s.dev.drvState n ≠ 4 → Completes (.driveTempPoll [(n.val, kelvin, pct)]) s (fun e => e = s.dev)))

/-- Stripe sets (R374–R377): FORMAT of an EMPTY set takes the READY drives it names as members in order, is refused over another drive or in a state that bars it; it ends in
READY; RELEASE returns the members' drives; a chunk whose writes are done is complete. Each of these commands completes from every state, a host command in RUN, and the first
clause gives the state it leaves: setFormat, formatDone, setRelease, chunkWriteDone. -/
def Obligations.StripeSetCommandsComplete : Prop :=
  (∀ s : State,
    (∀ (k : Fin 16), exec (.formatDone k) s = .next { s with dev := s.dev.formatDone k }) ∧
    (∀ (k o : Fin 16), exec (.chunkWriteDone k o) s = .next { s with dev := s.dev.chunkDone k o }) ∧
    (InRun s →
      (∀ (k : Fin 16), exec (.setFormat k) s = .next { s with dev := s.dev.setFormat k }) ∧
      (∀ (k : Fin 16), exec (.setRelease k) s = .next { s with dev := s.dev.setRelease k }))) ∧
  ∀ (s : State) (k : Fin 16), let named := (List.range 16).filter (s.dev.rd F.NVM_SET_CFG_MEMBERS k).testBit
  (InRun s → s.dev.setState k = 1 ∨ s.dev.setState k = 3 ∨ s.dev.setState k = 6 → Completes (.setFormat k) s (fun e => e.rd F.NVM_SET_STATUS_CODE k = 1 ∧ e.setState k = s.dev.setState k ∧ Frame [F.NVM_SET_STATUS_CODE.at_ k 0] s.dev e)) ∧
  (InRun s → s.dev.setState k = 0 → named = [] ∨ (∃ n ∈ named, s.dev.drvState n ≠ 3) → Completes (.setFormat k) s (fun e => e.rd F.NVM_SET_STATUS_CODE k = 2 ∧ e.setState k = 0 ∧ Frame [F.NVM_SET_STATUS_CODE.at_ k 0] s.dev e)) ∧
  (InRun s → s.dev.setState k = 0 → named ≠ [] → (∀ n ∈ named, s.dev.drvState n = 3) → (∀ n, n < 16 → s.dev.drvState n = 4 → s.dev.rd F.NVM_DRV_STATE_SET n ≠ k) → Completes (.setFormat k) s (fun e =>
    e.setState k = 1 ∧ e.rd F.NVM_SET_STATUS_CODE k = 0 ∧ e.rd F.NVM_SET_STATUS_WIDTH k = named.length ∧ e.rd F.NVM_SET_INSERVICE_MASK k = 2 ^ named.length - 1 ∧ e.wideAt F.NVM_SET_CHUNKS_SEQ k = 0 ∧ e.rd F.NVM_SET_LOST_COUNT k = 0 ∧
    e.rd F.NVM_SET_EVLOST_COUNT k = 0 ∧ (e.sset k).drives = named ∧ (e.sset k).log2 = max 18 (min 24 (s.dev.rd F.NVM_SET_CFG_CHUNK_LOG2 k)) ∧
    (∀ p ∈ named.zipIdx, e.drvState p.1 = 4 ∧ e.rd F.NVM_DRV_STATE_SET p.1 = k ∧ e.rd F.NVM_DRV_STATE_ORDINAL p.1 = p.2 ∧ Raised e 32 p.1 ∧ ((e.sset k).members.get? p.2).map (fun m => (m.drive, m.next, m.chunks)) = some (p.1, 0, [])) ∧
    (∀ j, j ≠ k.val → e.links.sets.get? j = s.dev.links.sets.get? j) ∧
    Frame (named.map (fun n => F.NVM_DRV_STATE_STATE.at_ n 0) ++ [F.NVM_SET_STATUS_STATE.at_ k 0, F.NVM_SET_INSERVICE_MASK.at_ k 0, F.NVM_SET_LOST_COUNT.at_ k 0, F.NVM_SET_EVLOST_COUNT.at_ k 0]) s.dev
      { e with links := { e.links with sets := s.dev.links.sets }, wide := s.dev.wide })) ∧
  (InRun s → s.dev.setState k = 2 ∨ s.dev.setState k = 4 ∨ s.dev.setState k = 5 → Completes (.setFormat k) s (fun e => e.setState k = 1 ∧ e.rd F.NVM_SET_STATUS_CODE k = 0)) ∧
  (s.dev.setState k = 1 → Completes (.formatDone k) s (fun e => e.setState k = 2 ∧ Frame [F.NVM_SET_STATUS_STATE.at_ k 0] s.dev e)) ∧
  (s.dev.setState k ≠ 1 → Completes (.formatDone k) s (fun e => e = s.dev)) ∧
  (InRun s → s.dev.setState k = 0 ∨ s.dev.setState k = 1 ∨ s.dev.setState k = 3 → Completes (.setRelease k) s (fun e => e.rd F.NVM_SET_STATUS_CODE k = 1 ∧ e.setState k = s.dev.setState k ∧ Frame [F.NVM_SET_STATUS_CODE.at_ k 0] s.dev e)) ∧
  (InRun s → s.dev.setState k = 2 ∨ s.dev.setState k = 4 ∨ s.dev.setState k = 5 ∨ s.dev.setState k = 6 → Completes (.setRelease k) s (fun e => e.setState k = 0 ∧ e.rd F.NVM_SET_STATUS_CODE k = 0 ∧ e.rd F.NVM_SET_STATUS_WIDTH k = 0 ∧
    e.rd F.NVM_SET_INSERVICE_MASK k = 0 ∧ e.links.sets.get? k = none ∧ (∀ j, j ≠ k.val → e.links.sets.get? j = s.dev.links.sets.get? j) ∧
    (∀ n, n < 16 → s.dev.drvState n = 4 → s.dev.rd F.NVM_DRV_STATE_SET n = k → e.drvState n = 3) ∧ (∀ n, n < 16 → (s.dev.drvState n ≠ 4 ∨ s.dev.rd F.NVM_DRV_STATE_SET n ≠ k) → e.drvState n = s.dev.drvState n) ∧
    Frame ((List.range 16).map (fun n => F.NVM_DRV_STATE_STATE.at_ n 0) ++ [F.NVM_SET_STATUS_STATE.at_ k 0, F.NVM_SET_INSERVICE_MASK.at_ k 0]) s.dev { e with links := { e.links with sets := s.dev.links.sets } })) ∧
  (∀ o : Fin 16, (s.dev.sset k).members.get? o = none → Completes (.chunkWriteDone k o) s (fun e => e = s.dev)) ∧
  (∀ (o : Fin 16) (m : Member) (c : Chunk) (l : List Chunk), (s.dev.sset k).members.get? o = some m → m.chunks = c :: l → c.done = false → (∀ x ∈ l, x.seq ≠ c.seq) → c.slot % 256 ≠ 254 → s.dev.portOfSet k = none → Completes (.chunkWriteDone k o) s (fun e =>
    (e.sset k).members.get? o = some { m with chunks := { c with done := true } :: l } ∧ Frame [] s.dev { e with links := { e.links with sets := s.dev.links.sets } }))

/-- Stream ports (R383–R387, R400): START of a port that is OFF checks its ring and then runs it, attached at WR or at the oldest record, with its mover its own; a UDP port waits for a subscriber; STOP ends one; a closed transport returns it to OFF; a host's
consumer position up to the producer's is taken; a hold of 1 s raises event 7. Each of these commands completes from every state, a host command in RUN, and the first clause gives
the state it leaves: strStart, strStop, transportClosed, strConsWrite, provisionalHeldOver1s. -/
def Obligations.StreamPortCommandsComplete : Prop :=
  (∀ s : State,
    (∀ (n : Fin 1024), exec (.transportClosed n) s = .next { s with dev := s.dev.transportClosed n }) ∧
    (∀ (n : Fin 1024), exec (.provisionalHeldOver1s n) s = .next { s with dev := s.dev.heldOver n }) ∧
    (InRun s →
      (∀ (n : Fin 1024), exec (.strStart n) s = .next { s with dev := s.dev.strStart n }) ∧
      (∀ (n : Fin 1024), exec (.strStop n) s = .next { s with dev := s.dev.strStop n }) ∧
      (∀ (n : Fin 1024) (hi : Word), exec (.strConsWrite n hi) s = .next { s with dev := s.dev.strCons n hi }))) ∧
  ∀ (s : State) (n : Fin 1024), let r := s.dev.rd F.STR_CFG_RING n; let m := s.dev.rd F.STR_CFG_MOVER n
  (InRun s → s.dev.strState n ≠ 0 → Completes (.strStart n) s (fun e => e.rd F.STR_STATUS_CODE n = 1 ∧ e.strState n = s.dev.strState n ∧ Frame [F.STR_STATUS_CODE.at_ n 0] s.dev e)) ∧
  (InRun s → s.dev.strState n = 0 → s.dev.ringOn r = false → Completes (.strStart n) s (fun e => e.rd F.STR_STATUS_CODE n = 2 ∧ e.strState n = 0 ∧ Frame [F.STR_STATUS_CODE.at_ n 0] s.dev e)) ∧
  (InRun s → s.dev.strState n = 0 → s.dev.ringOn r = true → s.dev.rd F.STR_CFG_TRANSPORT n = 3 → Completes (.strStart n) s (fun e => e.rd F.STR_STATUS_CODE n = 3 ∧ e.strState n = 0 ∧ Frame [F.STR_STATUS_CODE.at_ n 0] s.dev e)) ∧
  (InRun s → s.dev.strState n = 0 → s.dev.ringOn r = true → s.dev.rd F.STR_CFG_TRANSPORT n = 2 → s.dev.rd F.MOV_OWNER_STR m = 0 → s.dev.movState m = 1 → Completes (.strStart n) s (fun e => e.rd F.STR_STATUS_CODE n = 4 ∧ e.strState n = 0 ∧
    Frame [F.STR_STATUS_CODE.at_ n 0] s.dev e)) ∧
  (InRun s → s.dev.strState n = 0 → s.dev.startCode n = 0 → s.dev.rd F.STR_CFG_TRANSPORT n = 2 → Completes (.strStart n) s (fun e => e.strState n = 1 ∧ e.rd F.STR_STATUS_CODE n = 0 ∧ (e.rd F.STR_STATUS_EVENTS n).testBit 0 = true ∧
    e.rd F.MOV_OWNER_STR m = 1 ∧ (s.dev.rd F.MOV_OWNER_STR m = 0 → e.rd F.MOV_OWNER_PORT m = n) ∧ e.wideAt F.STR_POS_LO_POS n = 0 ∧ e.links.ports.get? n = some (Port.fresh 0 0) ∧
    Frame [F.STR_STATUS_CODE.at_ n 0, F.MOV_OWNER_STR.at_ m 0] s.dev { e with links := { e.links with ports := s.dev.links.ports }, wide := s.dev.wide })) ∧
  (InRun s → s.dev.strState n = 0 → s.dev.startCode n = 0 → s.dev.rd F.STR_CFG_TRANSPORT n = 0 → Completes (.strStart n) s (fun e =>
    let at_ := if s.dev.rd F.STR_CFG_START_AT n = 1 then (((s.dev.ring r).recs.head?).map (·.pos)).getD (s.dev.ring r).wr else (s.dev.ring r).wr
    e.strState n = 2 ∧ e.rd F.STR_STATUS_CODE n = 0 ∧ (e.rd F.STR_STATUS_EVENTS n).testBit 0 = true ∧ e.rd F.MOV_OWNER_STR m = 1 ∧ e.wideAt F.STR_POS_LO_POS n = 0 ∧ (e.port n).cursor = at_ ∧
    (e.ring r).readers = (s.dev.ring r).readers ++ [⟨.port n, at_, s.dev.rd F.STR_CFG_HOLDING n == 1, []⟩] ∧ (e.ring r).wr = (s.dev.ring r).wr ∧ e.rd F.GAL_RING_STAT_READERS r = (s.dev.rd F.GAL_RING_STAT_READERS r + 1) % 256 ∧
    Frame [F.STR_STATUS_CODE.at_ n 0, F.MOV_OWNER_STR.at_ m 0, F.GAL_RING_STAT_READERS.at_ r 0] s.dev { e with links := { e.links with ports := s.dev.links.ports }, wide := s.dev.wide, rings := s.dev.rings })) ∧
  (InRun s → s.dev.strState n = 0 → s.dev.startCode n = 0 → s.dev.rd F.STR_CFG_TRANSPORT n = 1 → s.dev.rd F.STR_CFG_DIR n = 0 → Completes (.strStart n) s (fun e =>
    e.strState n = 2 ∧ e.rd F.STR_STATUS_CODE n = 0 ∧ e.setState (s.dev.rd F.STR_P_P n 0 % 16) = 3 ∧ (e.sset (s.dev.rd F.STR_P_P n 0 % 16)).ring = r ∧ (e.port n).set_ = s.dev.rd F.STR_P_P n 0 % 16)) ∧
  (InRun s → s.dev.strState n = 0 → s.dev.startCode n = 0 → s.dev.rd F.STR_CFG_TRANSPORT n = 1 → s.dev.rd F.STR_CFG_DIR n = 1 → Completes (.strStart n) s (fun e => e.strState n = 2 ∧ e.rd F.STR_STATUS_CODE n = 0 ∧ (e.links.replays.get? n).isSome = true)) ∧
  (InRun s → s.dev.strState n = 0 ∨ s.dev.strState n = 3 → Completes (.strStop n) s (fun e => e.rd F.STR_STATUS_CODE n = 1 ∧ e.strState n = s.dev.strState n ∧ Frame [F.STR_STATUS_CODE.at_ n 0] s.dev e)) ∧
  (InRun s → s.dev.strState n = 1 ∨ s.dev.strState n = 4 → Completes (.strStop n) s (fun e => e.strState n = 0 ∧ e.rd F.STR_STATUS_CODE n = 0 ∧ (e.rd F.STR_STATUS_EVENTS n).testBit 1 = true ∧ e.links.ports.get? n = none ∧
    ((∀ p ∈ s.dev.links.ports.cells, p.1 ≠ n.val → s.dev.rd F.STR_CFG_MOVER p.1 ≠ m) → e.rd F.MOV_OWNER_STR m = 0) ∧
    Frame [F.STR_STATUS_CODE.at_ n 0, F.MOV_OWNER_STR.at_ m 0, F.GAL_RING_STAT_READERS.at_ r 0] s.dev { e with links := { e.links with ports := s.dev.links.ports, replays := s.dev.links.replays }, rings := s.dev.rings })) ∧
  (∀ p : Port, InRun s → s.dev.strState n = 2 → s.dev.links.ports.get? n = some p → Completes (.strStop n) s (fun e => e.strState n = 3 ∧ e.rd F.STR_STATUS_CODE n = 0 ∧
    e.links.ports.get? n = some { p with limit := some (if s.dev.rd F.STR_CFG_TRANSPORT n = 2 then p.cursor else (s.dev.ring r).wr) } ∧ (s.dev.rd F.STR_CFG_TRANSPORT n = 2 → e.rd F.ETH_SUB_STAT_VALID n = 0) ∧
    Frame [F.STR_STATUS_CODE.at_ n 0, F.ETH_SUB_STAT_VALID.at_ n 0] s.dev { e with links := { e.links with ports := s.dev.links.ports } })) ∧
  (s.dev.strState n ≠ 3 → Completes (.transportClosed n) s (fun e => e = s.dev)) ∧
  (s.dev.strState n = 3 → s.dev.rd F.STR_CFG_TRANSPORT n = 2 ∨ (s.dev.rd F.STR_CFG_TRANSPORT n = 1 ∧ s.dev.rd F.STR_CFG_DIR n = 1) ∨ (s.dev.rd F.STR_CFG_TRANSPORT n = 0 ∧ s.dev.portDrained n = true) → Completes (.transportClosed n) s (fun e =>
    e.strState n = 0 ∧ e.rd F.STR_STATUS_CODE n = 0 ∧ e.links.ports.get? n = none ∧ (e.rd F.STR_STATUS_EVENTS n).testBit 1 = true ∧
    (s.dev.rd F.STR_CFG_TRANSPORT n = 0 → leNat (e.hostMem.bytes (s.dev.rd F.STR_P_P n 3 + s.dev.rd F.STR_P_P n 4 * 2 ^ 32) 8) = (s.dev.port n).pos % 2 ^ 64) ∧
    Frame [F.STR_STATUS_CODE.at_ n 0, F.MOV_OWNER_STR.at_ m 0, F.GAL_RING_STAT_READERS.at_ r 0] s.dev { e with links := { e.links with ports := s.dev.links.ports, replays := s.dev.links.replays }, rings := s.dev.rings, hostMem := s.dev.hostMem })) ∧
  (∀ (hi : Word) (p : Port), InRun s → s.dev.rd F.STR_CFG_TRANSPORT n = 0 → s.dev.strState n = 2 → s.dev.links.ports.get? n = some p →
    (s.dev.rd F.STR_P_P n 5 + hi.toNat * 2 ^ 32 ≤ p.pos → Completes (.strConsWrite n hi) s (fun e => (e.port n).cons = s.dev.rd F.STR_P_P n 5 + hi.toNat * 2 ^ 32 ∧ e.rd F.STR_P_P n 6 = hi.toNat ∧
      Frame [F.STR_P_P.at_ n 6, F.STR_STATUS_EVENTS.at_ n 0] s.dev { e with links := { e.links with ports := s.dev.links.ports } })) ∧
    (p.pos < s.dev.rd F.STR_P_P n 5 + hi.toNat * 2 ^ 32 → Completes (.strConsWrite n hi) s (fun e => e.rd F.STR_P_P n 6 = hi.toNat ∧ Frame [F.STR_P_P.at_ n 6] s.dev e))) ∧
  (∀ t, (s.dev.port n).heldSince = some t → Completes (.provisionalHeldOver1s n) s (fun e => (e.rd F.STR_STATUS_EVENTS n).testBit 7 = true ∧ e.clk = max s.dev.clk (t + 1000000000) ∧ Frame [F.STR_STATUS_EVENTS.at_ n 0] s.dev (e.atTime s.dev))) ∧
  ((s.dev.port n).heldSince = none → Completes (.provisionalHeldOver1s n) s (fun e => e = s.dev))

/-- Subscriptions (R391–R395): a control frame without a token, or that fails its checks, is counted and refused; SUBSCRIBE to a waiting UDP port with the port's key runs it until the lease ends; RENEW extends it, UNSUBSCRIBE and a lapse
return it to WAITING, an ACK between the last and the delivered position is taken; a frame of another kind does nothing. Each of these commands completes from every state, and
the first clause gives the state it leaves: subscribe, renew, unsubscribe, ack, leaseLapse. -/
def Obligations.SubscriptionCommandsComplete : Prop :=
  (∀ s : State,
    (∀ (q : Fin 16) (f : CtlFrame), exec (.subscribe q f) s = .next { s with dev := s.dev.controlOp q 1 f }) ∧
    (∀ (q : Fin 16) (f : CtlFrame), exec (.renew q f) s = .next { s with dev := s.dev.controlOp q 2 f }) ∧
    (∀ (q : Fin 16) (f : CtlFrame), exec (.unsubscribe q f) s = .next { s with dev := s.dev.controlOp q 3 f }) ∧
    (∀ (q : Fin 16) (f : CtlFrame), exec (.ack q f) s = .next { s with dev := s.dev.controlOp q 4 f }) ∧
    (∀ (n : Fin 1024), exec (.leaseLapse n) s = .next { s with dev := s.dev.leaseLapse n })) ∧
  ∀ (s : State) (q : Fin 16) (f : CtlFrame), let op := leNat ((f.payload.drop 5).take 1); let key := leNat ((f.payload.drop 6).take 1); let n := leNat ((f.payload.drop 16).take 2)
  let asked := leNat ((f.payload.drop 20).take 4); let token := (s.dev.takeToken (q / 4) (f.addr + (if f.v6 then 2 ^ 129 else 0))).2; let c := q.val / 4
  let good := n < 1024 ∧ s.dev.rd F.STR_CFG_TRANSPORT n = 2 ∧ s.dev.rd F.STR_P_P n 0 / 16 % 64 = key
  (op ≠ 1 → Completes (.subscribe q f) s (fun e => e = s.dev)) ∧ (op ≠ 2 → Completes (.renew q f) s (fun e => e = s.dev)) ∧ (op ≠ 3 → Completes (.unsubscribe q f) s (fun e => e = s.dev)) ∧ (op ≠ 4 → Completes (.ack q f) s (fun e => e = s.dev)) ∧
  (op = 1 → token = false → Completes (.subscribe q f) s (fun e => e.rd F.ETH_CTL_LIMITED_COUNT c = min (2 ^ 32 - 1) (s.dev.rd F.ETH_CTL_LIMITED_COUNT c + 1) ∧ Raised e 33 16 ∧ Frame [F.ETH_CTL_LIMITED_COUNT.at_ c 0] s.dev { e with links := { e.links with buckets := s.dev.links.buckets } })) ∧
  (op = 1 → token = true → s.dev.ctlGood f.payload = false → Completes (.subscribe q f) s (fun e => e.rd F.ETH_CTL_BAD_COUNT c = min (2 ^ 32 - 1) (s.dev.rd F.ETH_CTL_BAD_COUNT c + 1) ∧ Raised e 33 16 ∧
    Frame [F.ETH_CTL_BAD_COUNT.at_ c 0] s.dev { e with links := { e.links with buckets := s.dev.links.buckets } })) ∧
  (token = true → s.dev.ctlGood f.payload = true →
    (op = 1 → good → s.dev.strState n = 1 → asked ≠ 0 → f.addr < 2 ^ (if f.v6 then 128 else 32) → Completes (.subscribe q f) s (fun e => e.strState n = 2 ∧ e.rd F.STR_STATUS_CODE n = 0 ∧ (e.rd F.STR_STATUS_EVENTS n).testBit 4 = true ∧ e.fromSubscriber n f = true ∧
      (e.port n).leaseEnd = s.dev.clk + min asked (s.dev.rd F.STR_P_P n 4) * 1000000 ∧ e.rd F.ETH_CTL_OK_COUNT c = min (2 ^ 32 - 1) (s.dev.rd F.ETH_CTL_OK_COUNT c + 1) ∧ e.sec.frameCtr.get? key = some (leNat ((f.payload.drop 8).take 8)) ∧
      Frame ([F.ETH_CTL_OK_COUNT.at_ c 0, F.STR_STATUS_CODE.at_ n 0, F.GAL_RING_STAT_READERS.at_ (s.dev.strRing n) 0] ++ (List.range 8).map (fun k => 0x3A8000 + n * 0x20 + 4 * k)) s.dev
        { e with links := { e.links with buckets := s.dev.links.buckets, ports := s.dev.links.ports }, sec := { e.sec with frameCtr := s.dev.sec.frameCtr }, rings := s.dev.rings, wide := s.dev.wide, freeCtr := s.dev.freeCtr })) ∧
    (∀ p : Port, s.dev.links.ports.get? n = some p → good → s.dev.strState n = 2 → s.dev.fromSubscriber n f = true →
      (op = 2 → asked ≠ 0 → Completes (.renew q f) s (fun e => e.strState n = 2 ∧ (e.port n).leaseEnd = s.dev.clk + min asked (s.dev.rd F.STR_P_P n 4) * 1000000 ∧ e.rd F.ETH_CTL_OK_COUNT c = min (2 ^ 32 - 1) (s.dev.rd F.ETH_CTL_OK_COUNT c + 1) ∧
        Frame [F.ETH_CTL_OK_COUNT.at_ c 0] s.dev { e with links := { e.links with buckets := s.dev.links.buckets, ports := s.dev.links.ports }, sec := { e.sec with frameCtr := s.dev.sec.frameCtr }, freeCtr := s.dev.freeCtr })) ∧
      (op = 3 → Completes (.unsubscribe q f) s (fun e => e.strState n = 1 ∧ e.rd F.STR_STATUS_CODE n = 0 ∧ e.rd F.ETH_SUB_STAT_VALID n = 0 ∧ e.rd F.ETH_CTL_OK_COUNT c = min (2 ^ 32 - 1) (s.dev.rd F.ETH_CTL_OK_COUNT c + 1) ∧
        (e.ring (s.dev.strRing n)).readers = (s.dev.ring (s.dev.strRing n)).readers.filter (fun (x : Reader) => x.kind != .port n))) ∧
      (op = 4 → p.acked ≤ leNat ((f.payload.drop 32).take 8) → leNat ((f.payload.drop 32).take 8) ≤ p.pos → Completes (.ack q f) s (fun e => e.links.ports.get? n = some { p with acked := leNat ((f.payload.drop 32).take 8) } ∧ e.out = s.dev.out ∧
        Frame [F.ETH_CTL_OK_COUNT.at_ c 0] s.dev { e with links := { e.links with buckets := s.dev.links.buckets, ports := s.dev.links.ports }, sec := { e.sec with frameCtr := s.dev.sec.frameCtr } })) ∧
      (op = 4 → leNat ((f.payload.drop 32).take 8) < p.acked ∨ p.pos < leNat ((f.payload.drop 32).take 8) → Completes (.ack q f) s (fun e => e.links.ports = s.dev.links.ports ∧ e.out = s.dev.out)))) ∧
  (∀ m : Fin 1024, s.dev.strState m = 2 → s.dev.rd F.STR_CFG_TRANSPORT m = 2 → Completes (.leaseLapse m) s (fun e => e.strState m = 1 ∧ e.rd F.STR_STATUS_CODE m = 8 ∧ e.rd F.ETH_SUB_STAT_VALID m = 0 ∧ (e.rd F.STR_STATUS_EVENTS m).testBit 3 = true ∧ Raised e 33 17 ∧
    e.clk = max s.dev.clk (s.dev.port m).leaseEnd ∧ Frame [F.STR_STATUS_CODE.at_ m 0, F.ETH_SUB_STAT_VALID.at_ m 0, F.GAL_RING_STAT_READERS.at_ (s.dev.strRing m) 0] s.dev { e.atTime s.dev with rings := s.dev.rings })) ∧
  (∀ m : Fin 1024, s.dev.strState m ≠ 2 ∨ s.dev.rd F.STR_CFG_TRANSPORT m ≠ 2 → Completes (.leaseLapse m) s (fun e => e = s.dev))

/-! ## Stay links and sheet buses (spec/15_stays_sheets.md) -/

/-- Stay links, time and halyards (R402–R407, R409, R410): a link falls or rises with its segment, its master and generation; a discovery round begins and ends; the TIME exchange asks and answers and measures the cable; an ALIGN word shows the clock offset; a HALYARD
word drives a local halyard; a slew ends; a CREDIT word returns credits; a bulk frame brings a record. Each of these commands completes from every state, a host command in RUN,
and the first clause gives the state it leaves: stayLinkDown, stayLinkUp, styScan, discoveryEnd, timeExchange, timeWord, alignWord, halyardWord, discoverWord, creditWord, slewEnd, bulkFrame. -/
def Obligations.StayCommandsComplete : Prop :=
  (∀ s : State,
    (∀ (l : Fin 4) (g : SegInfo), exec (.stayLinkDown l g) s = .next { s with dev := s.dev.stayDown l g }) ∧
    (∀ (l : Fin 4) (peer : Fin 32) (peerLink : Fin 4) (g : SegInfo), exec (.stayLinkUp l peer peerLink g) s = .next { s with dev := s.dev.stayRise l peer peerLink g }) ∧
    exec .discoveryEnd s = .next { s with dev := s.dev.discoveryEnd } ∧
    exec .timeExchange s = .next { s with dev := s.dev.timeExchange } ∧
    (∀ (l : Fin 4) (bytes : List Byte), exec (.timeWord l bytes) s = .next { s with dev := s.dev.timeWord l bytes }) ∧
    (∀ (l : Fin 4) (bytes : List Byte) (ps : Int), exec (.alignWord l bytes ps) s = .next { s with dev := s.dev.alignWord l bytes ps }) ∧
    (∀ (l : Fin 4) (bytes : List Byte), exec (.halyardWord l bytes) s = .next { s with dev := s.dev.halyardWord l bytes }) ∧
    (∀ (l : Fin 4) (bytes : List Byte), exec (.discoverWord l bytes) s = .next { s with dev := s.dev.discoverWord l bytes }) ∧
    (∀ (l : Fin 4) (bytes : List Byte), exec (.creditWord l bytes) s = .next { s with dev := s.dev.creditWord l bytes }) ∧
    exec .slewEnd s = .next { s with dev := s.dev.slewEnd } ∧
    (∀ (l : Fin 4) (ok : Bool) (origin e : Fin 32) (ring : Fin 1024) (piece : List Byte) (ends : Bool), exec (.bulkFrame l ok origin e ring piece ends) s = .next { s with dev := s.dev.bulkFrame l ok origin e ring piece ends }) ∧
    (InRun s →
      exec .styScan s = .next { s with dev := s.dev.styScan })) ∧
  ∀ s : State,
  (∀ (l : Fin 4) (g : SegInfo), s.dev.rd F.STY_LINK_STATE_STATE l = 0 → Completes (.stayLinkDown l g) s (fun e => e = s.dev)) ∧
  (∀ (l : Fin 4) (g : SegInfo) (mask : Nat), g.mask.toNat ||| 2 ^ s.dev.station_ = mask → s.dev.rd F.STY_LINK_STATE_STATE l ≠ 0 → s.dev.replIdle = true → s.dev.stay.parts = Tab.empty → Completes (.stayLinkDown l g) s (fun e =>
    e.rd F.STY_LINK_STATE_STATE l = 0 ∧ Raised e 34 l ∧ e.rd F.STY_SEGMENT_MASK = mask ∧ e.rd F.STY_STATUS_MASTER = lowest mask ∧ e.rd F.STY_STATUS_TOPO = g.topo ∧
    (s.dev.rd F.STY_SEGMENT_MASK &&& mask = s.dev.rd F.STY_SEGMENT_MASK → e.rd F.STY_STATUS_GENERATION = s.dev.rd F.STY_STATUS_GENERATION) ∧
    (s.dev.rd F.STY_SEGMENT_MASK &&& mask ≠ s.dev.rd F.STY_SEGMENT_MASK → e.rd F.STY_STATUS_GENERATION = (s.dev.rd F.STY_STATUS_GENERATION + 1) % 65536 ∧ Raised e 34 6) ∧
    (s.dev.rd F.STY_MEMBERS_MASK &&& mask ≠ s.dev.rd F.STY_MEMBERS_MASK → e.rd F.STY_STATUS_ISOLATED = 1) ∧ (lowest mask = s.dev.station_ → e.rd F.STY_STATUS_SLEWING = 0 ∧ e.time.transfer = 0) ∧ e.stay.credits.get? l = none ∧
    SameInputs s.dev e ∧
    Frame [F.STY_LINK_STATE_STATE.at_ l 0, 0x3B0004, 0x3B000C, 0x50020, 0x50024] s.dev { e with stay := s.dev.stay, inputs := s.dev.inputs, time := { e.time with transfer := s.dev.time.transfer, bends := s.dev.time.bends } })) ∧
  (∀ (l : Fin 4) (p : Fin 32) (pl : Fin 4) (g : SegInfo), s.dev.rd F.STY_CTRL_EN = 0 ∨ s.dev.rd F.STY_LINK_STATE_STATE l = 2 → Completes (.stayLinkUp l p pl g) s (fun e => e = s.dev)) ∧
  (∀ (l : Fin 4) (p : Fin 32) (pl : Fin 4) (g : SegInfo) (old mask : Nat), s.dev.rd F.STY_SEGMENT_MASK ||| 2 ^ s.dev.station_ = old → g.mask.toNat ||| old = mask → s.dev.rd F.STY_CTRL_EN = 1 → s.dev.rd F.STY_LINK_STATE_STATE l ≠ 2 → s.dev.replIdle = true →
    Completes (.stayLinkUp l p pl g) s (fun e => e.rd F.STY_LINK_STATE_STATE l = 2 ∧ e.rd F.STY_LINK_STATE_PEER_ID l = p ∧ e.rd F.STY_LINK_STATE_PEER_LINK l = pl ∧ Raised e 34 l ∧ e.rd F.STY_SEGMENT_MASK = mask ∧ e.rd F.STY_STATUS_MASTER = lowest mask ∧
      e.stay.credits.get? l = some 64 ∧ (mask = old → e.rd F.STY_STATUS_GENERATION = s.dev.rd F.STY_STATUS_GENERATION) ∧ (mask ≠ old → e.rd F.STY_STATUS_GENERATION = (max (s.dev.rd F.STY_STATUS_GENERATION) g.gen + 1) % 65536 ∧ Raised e 34 7) ∧
      (mask ≠ old → lowest mask ≠ lowest old → s.dev.rd F.STY_CTRL_TT_EN = 1 → e.rd F.STY_STATUS_SLEWING = 1) ∧
      SameInputs s.dev e ∧ Frame [F.STY_LINK_STATE_STATE.at_ l 0, 0x3B0004, 0x3B000C, 0x3B0038] s.dev { e with stay := s.dev.stay, inputs := s.dev.inputs })) ∧
  (InRun s → s.dev.rd F.STY_CTRL_EN = 0 ∨ s.dev.stay.round.isSome = true → Completes .styScan s (fun e => e = s.dev)) ∧
  (InRun s → s.dev.rd F.STY_CTRL_EN = 1 → s.dev.stay.round = none → s.dev.rd F.STY_MEMBERS_MASK = 0 ∨ s.dev.rd F.STY_MEMBERS_MASK &&& 2 ^ s.dev.station_ ≠ s.dev.rd F.STY_MEMBERS_MASK → Completes .styScan s (fun e =>
    e.stay.round = some (s.dev.clk, 2 ^ s.dev.station_, 0) ∧ e.out = s.dev.out ++ s.dev.upLinks.map (fun l => .stay l (stayWord 5 s.dev.station_ 0 0 (s.dev.stay.seqs.getD 5 0) s.dev.stayHello)) ∧ Frame [] s.dev { e with stay := s.dev.stay })) ∧
  (InRun s → s.dev.rd F.STY_CTRL_EN = 1 → s.dev.stay.round = none → s.dev.rd F.STY_MEMBERS_MASK = 2 ^ s.dev.station_ → Completes .styScan s (fun e => e.stay.round = none ∧ e.rd F.STY_SEEN_MASK = 2 ^ s.dev.station_ ∧
    e.rd F.STY_DISC_ROUND = (s.dev.rd F.STY_DISC_ROUND + 1) % 65536 ∧ Raised e 34 4)) ∧
  (s.dev.stay.round = none → Completes .discoveryEnd s (fun e => e = s.dev)) ∧
  (∀ t seen gone : Nat, s.dev.stay.round = some (t, seen, gone) → seen < 2 ^ 32 → gone < 2 ^ 32 → s.dev.discAll = false → s.dev.replIdle = true → (∀ e, e < 32 → s.dev.rd F.STY_REPL_CFG_EN e = 0) → Completes .discoveryEnd s (fun e =>
    e.stay.round = none ∧ e.rd F.STY_SEEN_MASK = seen ∧ e.rd F.STY_VANISHED_MASK = gone ∧ e.rd F.STY_DISC_ROUND = (s.dev.rd F.STY_DISC_ROUND + 1) % 65536 ∧ Raised e 34 4 ∧ e.clk = max s.dev.clk (t + 100000) ∧
    Frame [0x3B0030, 0x3B0034, 0x3B003C] s.dev { e.atTime s.dev with stay := { e.stay with round := s.dev.stay.round } })) ∧
  (s.dev.rd F.STY_CTRL_EN = 0 → Completes .timeExchange s (fun e => e = s.dev)) ∧
  (s.dev.rd F.STY_CTRL_EN = 1 → s.dev.replIdle = true → Completes .timeExchange s (fun e => e.clk = max s.dev.clk (s.dev.stay.exch + 1000000) ∧ e.stay.exch = e.clk ∧
    e.out = s.dev.out ++ s.dev.upLinks.map (fun l => .stay l (stayWord 1 s.dev.station_ 0 0 (s.dev.stay.seqs.getD 1 0) (leBytes 12 e.now96))) ∧ Frame [] s.dev { e.atTime s.dev with stay := { s.dev.stay with exch := s.dev.stay.exch } })) ∧
  (∀ (l : Fin 4) (b : List Byte), s.dev.goodWord l 1 b = true → (u b 3 1).testBit 0 = false → Completes (.timeWord l b) s (fun e =>
    e.out = s.dev.out ++ [.stay l (stayWord 1 s.dev.station_ 0 1 (s.dev.stay.seqs.getD 1 0) (sub b 8 12 ++ leBytes 12 s.dev.now96 ++ leBytes 12 s.dev.now96))] ∧ Frame [] s.dev { e with stay := { e.stay with seqs := s.dev.stay.seqs } })) ∧
  (∀ (l : Fin 4) (b : List Byte), s.dev.goodWord l 1 b = true → (u b 3 1).testBit 0 = true → Completes (.timeWord l b) s (fun e =>
    let t (o : Nat) : Int := ofStamp96 (u b o 12)
    (e.rd F.STY_LINK_CABLE_PS l : Int) = clampInt 0 (2 ^ 32 - 1) (psOf (((s.dev.localTime : Int) - t 8) - (t 32 - t 20)) 2) ∧
    (s.dev.rd F.STY_STATUS_MASTER = s.dev.station_ → Frame [F.STY_LINK_CABLE_PS.at_ l 0] s.dev e) ∧
    (s.dev.rd F.STY_STATUS_MASTER ≠ s.dev.station_ → s.dev.stayVia (s.dev.rd F.STY_STATUS_MASTER) = some l.val → s.dev.rd F.STY_LINK_STATE_PEER_ID l = s.dev.rd F.STY_STATUS_MASTER →
      e.wideAt F.STY_OFFSET_PS = unsigned 64 (psOf ((t 20 - t 8) - ((s.dev.localTime : Int) - t 32)) 2) % 2 ^ 64) ∧
    SameInputs s.dev e ∧
    Frame [F.STY_LINK_CABLE_PS.at_ l 0, 0x3B0004, 0x50020, 0x50024] s.dev { e with wide := s.dev.wide, inputs := s.dev.inputs, time := { e.time with transfer := s.dev.time.transfer, bends := s.dev.time.bends }, freeCtr := s.dev.freeCtr })) ∧
  (∀ (l : Fin 4) (b : List Byte) (ps : Int), s.dev.goodWord l 2 b = true → s.dev.newWord b = true → -2147483648 ≤ ps → ps < 2147483648 → Completes (.alignWord l b ps) s (fun e => e.rdInt F.STY_CLK_PS_PS = ps ∧
    Frame [0x3B0018] s.dev { e with stay := { e.stay with seen := s.dev.stay.seen } })) ∧
  (∀ (l : Fin 4) (b : List Byte), s.dev.goodWord l 3 b = true → s.dev.newWord b = true → let h := u b 8 1 % 64
    ((s.dev.rd F.STY_HAL_IN_MASK (h / 32)).testBit (h % 32) = false → Completes (.halyardWord l b) s (fun e => Frame [] s.dev { e with stay := { e.stay with seen := s.dev.stay.seen } })) ∧
    ((s.dev.rd F.STY_HAL_IN_MASK (h / 32)).testBit (h % 32) = true → s.dev.hasDriver h 5 0 = true → (∀ x ∈ s.dev.halyards, x.hal ≠ h) → Completes (.halyardWord l b) s (fun e =>
      (e.halyards.map (fun x => (x.hal, x.pos, x.clk, x.tag, x.origin.map (·.1)))) = s.dev.halyards.map (fun x => (x.hal, x.pos, x.clk, x.tag, x.origin.map (·.1))) ++ [(h, u b 9 1 % 32, s.dev.clk, some (ofStamp96 (u b 12 12)), some (u b 1 1))] ∧
      Frame [] s.dev { e with stay := { e.stay with seen := s.dev.stay.seen }, halyards := s.dev.halyards, freeCtr := s.dev.freeCtr }))) ∧
  (∀ (l : Fin 4) (b : List Byte), s.dev.goodWord l 5 b = true → s.dev.newWord b = true →
    ((u b 3 1).testBit 0 = false → Completes (.discoverWord l b) s (fun e => (∃ w ∈ e.out, w = .stay l (stayWord 5 s.dev.station_ 0 1 (s.dev.stay.seqs.getD 5 0) s.dev.stayHello)) ∧ Frame [] s.dev { e with stay := { e.stay with seen := s.dev.stay.seen, seqs := s.dev.stay.seqs } })) ∧
    (∀ t seen gone : Nat, (u b 3 1).testBit 0 = true → s.dev.stay.round = some (t, seen, gone) → s.dev.rd F.STY_MEMBERS_MASK = 0 → Completes (.discoverWord l b) s (fun e => e.stay.round = some (t, seen ||| 2 ^ (u b 8 1 % 32), gone) ∧
      Frame [] s.dev { e with stay := { e.stay with seen := s.dev.stay.seen, round := s.dev.stay.round } }))) ∧
  (∀ (l : Fin 4) (b : List Byte), s.dev.goodWord l 6 b = true → s.dev.replIdle = true → Completes (.creditWord l b) s (fun e => e.stay.credits.get? l = some (min 64 (s.dev.stay.credits.getD l 64 + u b 8 2)) ∧
    Frame [] s.dev { e with stay := { e.stay with credits := s.dev.stay.credits } })) ∧
  (s.dev.rd F.STY_STATUS_SLEWING = 0 → Completes .slewEnd s (fun e => e = s.dev)) ∧
  (s.dev.rd F.STY_STATUS_SLEWING = 1 → Completes .slewEnd s (fun e => e.rd F.STY_STATUS_SLEWING = 0 ∧ (s.dev.stayWhole = true → e.rd F.STY_STATUS_ISOLATED = 0) ∧ (s.dev.stayWhole = false → e.rd F.STY_STATUS_ISOLATED = s.dev.rd F.STY_STATUS_ISOLATED) ∧ Raised e 34 8 ∧
    SameInputs s.dev e ∧ Frame [0x3B0004] s.dev { e with inputs := s.dev.inputs })) ∧
  (∀ (l : Fin 4) (ok : Bool) (o e' : Fin 32) (r : Fin 1024) (b : List Byte) (ends : Bool),
    (s.dev.stayUp l = false → Completes (.bulkFrame l ok o e' r b ends) s (fun e => e = s.dev)) ∧
    (s.dev.stayUp l = true → ok = false → Completes (.bulkFrame l ok o e' r b ends) s (fun e => e.rd F.STY_LINK_RETX_COUNT l = min (2 ^ 32 - 1) (s.dev.rd F.STY_LINK_RETX_COUNT l + 1) ∧ Frame [F.STY_LINK_RETX_COUNT.at_ l 0] s.dev e)) ∧
    (s.dev.stayUp l = true → ok = true → ends = false → Completes (.bulkFrame l ok o e' r b ends) s (fun e => e.stay.parts.get? (o * 32 + e'.val) = some (l.val, r.val, ((s.dev.stay.parts.get? (o * 32 + e'.val)).map (·.2.2)).getD [] ++ b) ∧
      Frame [] s.dev { e with stay := { e.stay with parts := s.dev.stay.parts } })) ∧
    (s.dev.stayUp l = true → ok = true → ends = true → s.dev.stay.wait = [] → s.dev.ringOn r = false → Completes (.bulkFrame l ok o e' r b ends) s (fun e => e.stay.parts.get? (o * 32 + e'.val) = none ∧
      e.rd F.GAL_NOWHERE_COUNT = min (2 ^ 32 - 1) (s.dev.rd F.GAL_NOWHERE_COUNT + 1) ∧ Frame [F.GAL_NOWHERE_COUNT.at_ 0 0] s.dev { e with stay := { e.stay with parts := s.dev.stay.parts, seqs := s.dev.stay.seqs } })) ∧
    (s.dev.stayUp l = true → ok = true → ends = true → s.dev.stay.wait = [] → s.dev.ringOn r = true → s.dev.fitsRaw r (((s.dev.stay.parts.get? (o * 32 + e'.val)).map (·.2.2)).getD [] ++ b) = true → Completes (.bulkFrame l ok o e' r b ends) s (fun e =>
      e.stay.parts.get? (o * 32 + e'.val) = none ∧ e.stay.wait = [] ∧ (e.ring r).seq = (s.dev.ring r).seq + 1 ∧ RecordsOnly [] s.dev { e with stay := s.dev.stay })) ∧
    (s.dev.stayUp l = true → ok = true → ends = true → s.dev.stay.wait = [] → s.dev.ringOn r = true → s.dev.fitsRaw r (((s.dev.stay.parts.get? (o * 32 + e'.val)).map (·.2.2)).getD [] ++ b) = false → Completes (.bulkFrame l ok o e' r b ends) s (fun e =>
      e.stay.wait = [(l.val, r.val, ((s.dev.stay.parts.get? (o * 32 + e'.val)).map (·.2.2)).getD [] ++ b)] ∧ Frame [] s.dev { e with stay := s.dev.stay })))

/-- Global commands (R11, R408): the host's command whose time is no TIMESTAMP96 or lies less than 120 ns a hop and 1 µs ahead is refused, another is kept and sent; one that
arrives in time is kept, one that arrives late is counted; the earliest is carried out at its time. Each of these commands completes from every state, a host command in RUN, and
the first clause gives the state it leaves: commandWord, gcmdDisarm, gcmdSnapshot, gcmdExecute, gcmdArm. -/
def Obligations.GlobalCommandsComplete : Prop :=
  (∀ s : State,
    (∀ (l : Fin 4) (bytes : List Byte), exec (.commandWord l bytes) s = .next { s with dev := s.dev.commandWord l bytes }) ∧
    exec .gcmdExecute s = .next { s with dev := s.dev.gcmdRun } ∧
    (InRun s →
      exec .gcmdDisarm s = .next { s with dev := s.dev.gcmd 2 } ∧
      exec .gcmdSnapshot s = .next { s with dev := s.dev.gcmd 3 } ∧
      exec .gcmdArm s = .next { s with dev := s.dev.gcmd 1 })) ∧
  ∀ s : State,
  (∀ x ∈ [(Instr.gcmdArm, 1), (.gcmdDisarm, 2), (.gcmdSnapshot, 3)], InRun s → let stamp := s.dev.rdWide F.STY_GCMD_T_T 0 3
    (stampOk stamp = false → Completes x.1 s (fun e => e.rd F.STY_GCMD_STATUS_CODE ≠ 0 ∧ Raised e 34 9 ∧ e.stay = s.dev.stay ∧ Frame [0x3B0058] s.dev e)) ∧
    (stampOk stamp = true → ofStamp96 stamp < s.dev.localTime + (s.dev.farthest * 120 + 1000) * 2 ^ 64 → Completes x.1 s (fun e => e.rd F.STY_GCMD_STATUS_CODE = 1 ∧ Raised e 34 9 ∧ e.stay = s.dev.stay ∧ Frame [0x3B0058] s.dev e)) ∧
    (stampOk stamp = true → s.dev.localTime + (s.dev.farthest * 120 + 1000) * 2 ^ 64 ≤ ofStamp96 stamp → s.dev.stay.cmdId < 2 ^ 24 → Completes x.1 s (fun e => e.rd F.STY_GCMD_STATUS_CODE = 0 ∧ e.rd F.STY_GCMD_STATUS_ID = s.dev.stay.cmdId ∧
      e.stay.cmds = s.dev.stay.cmds ++ [⟨s.dev.station_, s.dev.stay.cmdId, x.2, s.dev.rdWide F.STY_GCMD_ARG_ARG 0 2, ofStamp96 stamp⟩] ∧ e.stay.cmdId = (s.dev.stay.cmdId + 1) % 2 ^ 24 ∧
      e.out = s.dev.out ++ s.dev.upLinks.map (fun l => .stay l (stayWord 4 s.dev.station_ 0 0 (s.dev.stay.seqs.getD 4 0) (leBytes 1 x.2 ++ leBytes 3 0 ++ leBytes 8 (s.dev.rdWide F.STY_GCMD_ARG_ARG 0 2) ++ leBytes 12 stamp ++ leBytes 4 s.dev.stay.cmdId))) ∧
      Frame [0x3B0058] s.dev { e with stay := s.dev.stay }))) ∧
  (∀ (l : Fin 4) (b : List Byte), s.dev.goodWord l 4 b = true → s.dev.newWord b = true → s.dev.stay.cmds = [] →
    (ofStamp96 (u b 20 12) < s.dev.localTime → Completes (.commandWord l b) s (fun e => e.stay.cmds = [] ∧ e.rd F.STY_GCMD_LATE_COUNT = min (2 ^ 32 - 1) (s.dev.rd F.STY_GCMD_LATE_COUNT + 1) ∧ Raised e 34 10 ∧
      Frame [0x3B005C] s.dev { e with stay := { e.stay with seen := s.dev.stay.seen } })) ∧
    (s.dev.localTime ≤ ofStamp96 (u b 20 12) → Completes (.commandWord l b) s (fun e => e.stay.cmds = [⟨u b 1 1, u b 32 4, u b 8 1, u b 12 8, ofStamp96 (u b 20 12)⟩] ∧
      Frame [] s.dev { e with stay := { e.stay with seen := s.dev.stay.seen, cmds := s.dev.stay.cmds } }))) ∧
  (s.dev.stay.cmds = [] → Completes .gcmdExecute s (fun e => e = s.dev)) ∧
  (∀ c : GCmd, earliest s.dev.stay.cmds = some c → (c.op = 0 ∨ ((c.op = 1 ∨ c.op = 2) ∧ s.dev.sections = Tab.empty)) → Completes .gcmdExecute s (fun e => e.stay.cmds = s.dev.stay.cmds.erase c ∧ (1 ≤ s.dev.cycle → c.time < localWrap → s.dev.localTime < localWrap →
      c.time < localWrap - s.dev.cycle → c.time ≤ e.localTime) ∧
    Frame [] s.dev { e.atTime s.dev with stay := { e.stay with cmds := s.dev.stay.cmds } })) ∧
  (∀ c : GCmd, earliest s.dev.stay.cmds = some c → c.op = 3 → s.dev.banksUsed < 2 → Completes .gcmdExecute s (fun e => e.stay.cmds = s.dev.stay.cmds.erase c ∧ e.cues.snapNo = s.dev.cues.snapNo + 1 ∧
    e.cues.snaps.map (·.1) = s.dev.cues.snaps.map (·.1) ++ [c.arg % 1024] ∧ Frame [] s.dev { e.atTime s.dev with stay := { e.stay with cmds := s.dev.stay.cmds }, cues := { e.cues with snaps := s.dev.cues.snaps, snapNo := s.dev.cues.snapNo } })) ∧
  (∀ (c : GCmd) (i : Nat), earliest s.dev.stay.cmds = some c → c.op = 1 ∨ c.op = 2 → s.dev.sections.cells.map (·.1) = [i] → s.dev.activeKind i 4 = true → c.arg.testBit (s.dev.knobBits i 8 0 6) = true → Completes .gcmdExecute s (fun e =>
    e.stay.cmds = s.dev.stay.cmds.erase c ∧ e = ((s.dev.advanceLocal c.time).setStay (fun x => { x with cmds := x.cmds.erase c })).knobWrite i 0 c.op))

/-- Sheet buses (R411–R416): a cycle begins on an enabled bus; a reply that fails its check and a missing reply are tried again, at most twice, after which the station is ABSENT; a READ's answer is kept, a STAGE's acknowledged; a scan begins with PRESENCE; a
direct list joins the next cycle. Each of these commands completes from every state, a host command in RUN, and the first clause gives the state it leaves: sheetCycle, sheetReply,
sheetReplyTimeout, shtScan, shtDirect. -/
def Obligations.SheetCommandsComplete : Prop :=
  (∀ s : State,
    (∀ (b : Fin 2), exec (.sheetCycle b) s = .next { s with dev := s.dev.sheetCycle b }) ∧
    (∀ (b : Fin 2) (frame : List Byte), exec (.sheetReply b frame) s = .next { s with dev := s.dev.sheetReply b frame }) ∧
    (∀ (b : Fin 2), exec (.sheetReplyTimeout b) s = .next { s with dev := s.dev.sheetTimeout b }) ∧
    (InRun s →
      (∀ (b : Fin 2), exec (.shtScan b) s = .next { s with dev := s.dev.sheetScan b }) ∧
      (∀ (b : Fin 2) (l : Fin 64), exec (.shtDirect b l) s = .next { s with dev := s.dev.setSheet b (fun h => { h with lists := h.lists ++ [l.val] }) }))) ∧
  ∀ (s : State) (b : Fin 2),
  (s.dev.rd F.SHT_CFG_EN b = 0 → Completes (.sheetCycle b) s (fun e => e = s.dev)) ∧
  (s.dev.rd F.SHT_CFG_EN b = 1 → Completes (.sheetCycle b) s (fun e => e.rd F.SHT_CYCLE_NO_COUNT b = min (2 ^ 32 - 1) (s.dev.rd F.SHT_CYCLE_NO_COUNT b + 1) ∧ (e.sheet b).cycle = some e.clk ∧ (e.sheet b).lists = [] ∧
    e.clk = (match (s.dev.sheet b).cycle with
      | some t => max s.dev.clk (t + max 10 (s.dev.rd F.SHT_CFG_CYCLE_US b) * 1000)
      | none => s.dev.clk))) ∧
  (∀ (k : Nat) (w : Nat), s.dev.rd F.SHT_CFG_EN b = 1 → k < 32 → (∀ j, j < 32 → j ≠ k → s.dev.rd F.SHT_POLL_ENTRY b j = 0) → s.dev.rd F.SHT_POLL_ENTRY b k = w → w.testBit 31 = true → 1 ≤ w % 32 → 1 ≤ w / 2 ^ 24 % 16 → (s.dev.sheet b).queue = [] → (s.dev.sheet b).cur = none →
      (s.dev.sheet b).lists = [] → (s.dev.sheet b).commits = [] → (s.dev.sheet b).scan = none → s.dev.station F.SHT_ABSENT_MASK b (w % 32) = false → Completes (.sheetCycle b) s (fun e => (e.sheet b).queue = [] ∧ (e.sheet b).cur.map (·.poll) = some (some k) ∧
    e.out = s.dev.out ++ [.sheet b (sheetFrame (w % 32) 1 0 (leBytes 2 (w / 256) ++ leBytes 1 (w / 2 ^ 24 % 16)))] ∧ Frame [F.SHT_CYCLE_NO_COUNT.at_ b 0] s.dev { e.atTime s.dev with sheets := s.dev.sheets })) ∧
  (∀ f : List Byte, sheetParse f = none → (s.dev.sheet b).cur = none → Completes (.sheetReply b f) s (fun e => e = s.dev)) ∧
  (∀ (f : List Byte) (q : ShtReq), sheetParse f = none → (s.dev.sheet b).cur = some q → q.tries < 2 → Completes (.sheetReply b f) s (fun e => e.rd F.SHT_CRC_ERR_COUNT b = min (2 ^ 32 - 1) (s.dev.rd F.SHT_CRC_ERR_COUNT b + 1) ∧ Raised e 35 (8 + b) ∧
    e.rd F.SHT_RETRY_COUNT b = min (2 ^ 32 - 1) (s.dev.rd F.SHT_RETRY_COUNT b + 1) ∧ (e.sheet b).cur = some { q with tries := q.tries + 1 } ∧ e.out.getLast? = some (.sheet b (sheetFrame q.addr q.op q.tag q.payload)) ∧
    Frame [F.SHT_CRC_ERR_COUNT.at_ b 0, F.SHT_RETRY_COUNT.at_ b 0] s.dev { e with sheets := s.dev.sheets })) ∧
  (∀ (f : List Byte) (q : ShtReq) (pl : List Byte), sheetParse f = some (q.addr, q.op + 128, q.tag, pl) → (s.dev.sheet b).cur = some q → q.scan = false → (s.dev.sheet b).queue = [] → (s.dev.sheet b).ctx = none → (s.dev.sheet b).scan = none →
    (∀ k, q.op = 1 → q.poll = some k → leNat (pl.take 1) = 0 → Completes (.sheetReply b f) s (fun e => (e.sheet b).vals.get? k = some (sheetWords (pl.drop 1)) ∧ (e.sheet b).cur = none ∧ Frame [] s.dev { e with sheets := s.dev.sheets })) ∧
    (∀ g : ShtStage, q.op = 2 → leNat (pl.take 1) = 0 → (s.dev.sheet b).stages = [g] → g.tag = q.tag → Completes (.sheetReply b f) s (fun e => (e.sheet b).stages = [{ g with stations := g.stations.map (fun t => if t.1 = q.addr then (t.1, true) else t) }] ∧
      (e.sheet b).cur = none ∧ Frame [] s.dev { e with sheets := s.dev.sheets }))) ∧
  ((s.dev.sheet b).cur = none → Completes (.sheetReplyTimeout b) s (fun e => e = s.dev)) ∧
  (∀ q : ShtReq, (s.dev.sheet b).cur = some q → q.tries < 2 → Completes (.sheetReplyTimeout b) s (fun e => e.clk = max s.dev.clk ((s.dev.sheet b).since + (6 + q.payload.length) * 400 + 20000) ∧
    e.rd F.SHT_RETRY_COUNT b = min (2 ^ 32 - 1) (s.dev.rd F.SHT_RETRY_COUNT b + 1) ∧ (e.sheet b).cur = some { q with tries := q.tries + 1 } ∧ (e.sheet b).since = e.clk ∧ e.out.getLast? = some (.sheet b (sheetFrame q.addr q.op q.tag q.payload)) ∧
    Frame [F.SHT_RETRY_COUNT.at_ b 0] s.dev { e.atTime s.dev with sheets := s.dev.sheets })) ∧
  (∀ q : ShtReq, (s.dev.sheet b).cur = some q → 2 ≤ q.tries → 1 ≤ q.addr → q.addr ≤ 31 → q.op = 1 → q.scan = false → s.dev.station F.SHT_ABSENT_MASK b q.addr = false → (s.dev.sheet b).queue = [] → (s.dev.sheet b).ctx = none → (s.dev.sheet b).scan = none → Completes (.sheetReplyTimeout b) s (fun e =>
    e.station F.SHT_ABSENT_MASK b q.addr = true ∧ Raised e 35 (4 + b) ∧ (e.sheet b).cur = none ∧ (∀ k, q.poll = some k → k ∈ (e.sheet b).stale) ∧ Frame [F.SHT_ABSENT_MASK.at_ b 0] s.dev { e.atTime s.dev with sheets := s.dev.sheets })) ∧
  (InRun s → (s.dev.sheet b).scan ≠ none → Completes (.shtScan b) s (fun e => e = s.dev)) ∧
  (InRun s → (s.dev.sheet b).scan = none → s.dev.rd F.SHT_CFG_EN b = 1 → (s.dev.sheet b).queue = [] → (s.dev.sheet b).cur = none → (s.dev.sheet b).ctx = none → Completes (.shtScan b) s (fun e => e.rd F.SHT_CMD_SCAN b = 1 ∧ e.rd F.SHT_VANISHED_MASK b = 0 ∧ (e.sheet b).scan = some 0 ∧
    (e.sheet b).queue.map (fun q => (q.addr, q.op, q.scan)) = (List.range 30).map (fun k => (k + 2, 6, true)) ∧ (e.sheet b).cur.map (fun q => (q.addr, q.op, q.scan)) = some (1, 6, true) ∧ e.out = s.dev.out ++ [.sheet b (sheetFrame 1 6 0 [])] ∧
    Frame [F.SHT_CMD_SCAN.at_ b 0, F.SHT_VANISHED_MASK.at_ b 0] s.dev { e with sheets := s.dev.sheets })) ∧
  (∀ l : Fin 64, InRun s → Completes (.shtDirect b l) s (fun e => (e.sheet b).lists = (s.dev.sheet b).lists ++ [l.val] ∧ (∀ k, k ≠ b.val → e.sheets.get? k = s.dev.sheets.get? k) ∧ Frame [] s.dev { e with sheets := s.dev.sheets }))

/-- Words of stay links (R401, R403): a word on a link that is not UP, or of another kind, does nothing; one that fails its CRC is dropped and counted; one that comes round is dropped. -/
def Obligations.StayWordsAreChecked : Prop :=
  ∀ (s : State) (l : Fin 4) (b : List Byte) (ps : Int), ∀ x ∈ [(Instr.timeWord l b, 1, false), (.alignWord l b ps, 2, true), (.halyardWord l b, 3, true), (.commandWord l b, 4, true), (.discoverWord l b, 5, true), (.creditWord l b, 6, false)],
  (s.dev.stayUp l = false ∨ (stayWordOk b = true ∧ u b 0 1 ≠ x.2.1) → Completes x.1 s (fun e => e = s.dev)) ∧
  (s.dev.stayUp l = true → stayWordOk b = false → Completes x.1 s (fun e => e.rd F.STY_LINK_CRC_COUNT l = min (2 ^ 32 - 1) (s.dev.rd F.STY_LINK_CRC_COUNT l + 1) ∧ Frame [F.STY_LINK_CRC_COUNT.at_ l 0] s.dev e)) ∧
  (x.2.2 = true → s.dev.goodWord l x.2.1 b = true → s.dev.newWord b = false → Completes x.1 s (fun e => e = s.dev))

/-! ## Density displays and scan-out (spec/16_display.md) -/

/-- DENS (R418–R421, R424, R426–R429): START whose checks pass makes the display RUNNING over its bound transform with its counts cleared and, while that is ACTIVE, its run begun, and otherwise leaves its code, with NEED where it was compared;
STOP ends the run; the spectra of a frame, made of the codes of their spans, close it, to be rendered; a render pass that ends writes the frame and moves the run on by one, or
loses a frame without spectra. Each of these commands completes from every state, a host command in RUN, and the first clause gives the state it leaves: densStart, densStop, densFrameEnd,
renderPassEnd. -/
def Obligations.DensityCommandsComplete : Prop :=
  (∀ s : State,
    (∀ (i : Fin 128) (codes : List (BitVec 12)), exec (.densFrameEnd i codes) s = .next { s with dev := s.dev.densFrame i codes }) ∧
    (∀ (i : Fin 128), exec (.renderPassEnd i) s = .next { s with dev := if s.dev.activeKind i 6 then s.dev.renderEnd i else s.dev }) ∧
    (InRun s →
      (∀ (i : Fin 128), exec (.densStart i) s = .next { s with dev := if s.dev.kind i = 6 then s.dev.knobWrite i 0 1 else s.dev }) ∧
      (∀ (i : Fin 128), exec (.densStop i) s = .next { s with dev := if s.dev.kind i = 6 then s.dev.knobWrite i 0 2 else s.dev }))) ∧
  ∀ (s : State) (i : Fin 128),
  (∀ x : Nat, InRun s → s.dev.takes i 6 0 1 = true → s.dev.densRunning i = false → s.dev.boundXfrm i 0 = some x → s.dev.densCheck i = 0 → s.dev.fedAll = true → s.dev.knob i 0xC < 1024 → Completes (.densStart i) s (fun e =>
    e.densRunning i = true ∧ e.secStatus i = 0 ∧ e.knobBits i 4 0 1 = 1 ∧ e.wideKnob i 0x30 = 0 ∧ e.knob i 0x38 = 0 ∧ e.knob i 0x3C = 0 ∧ (e.dens i).xfrm = x ∧ (e.dens i).frames = s.dev.knob i 0x18 ∧
    (e.dens i).levels = [(0, s.dev.knob i 0x1C, s.dev.knob i 0x20)] ∧ (e.dens i).closing = none ∧ (e.dens i).persist = Tab.empty ∧
    (s.dev.secState x = 2 → (e.dens i).f0 = s.dev.frameNow x ∧ (e.runs.get? i).isSome = true ∧ ∀ u, e.runs.get? i = some u → u.next = 0 ∧ u.source = 0x50 + s.dev.knob i 8) ∧
    (s.dev.secState x ≠ 2 → e.runs = s.dev.runs) ∧
    (∀ j, j ≠ i.val → e.denses.get? j = s.dev.denses.get? j) ∧ Noted (knobAt i 0) 1 s.dev e ∧ RecordsOnly [] s.dev { e with denses := s.dev.denses, cues := s.dev.cues })) ∧
  (InRun s → s.dev.takes i 6 0 1 = true → s.dev.densRunning i = false → s.dev.densCheck i ≠ 0 → s.dev.fedAll = true → Completes (.densStart i) s (fun e => e.secStatus i = s.dev.densCheck i ∧
    (∀ x, s.dev.boundXfrm i 0 = some x → s.dev.densCheck i = 3 ∨ s.dev.densCheck i = 6 → e.knob i 0x40 = packDens 2 1 25 (s.dev.xfrm x).densCompare) ∧ KnobFrame [knobAt i 4, knobAt i 0x40] i 0 1 s.dev e)) ∧
  (InRun s → s.dev.takes i 6 0 1 = true → s.dev.densRunning i = true → s.dev.fedAll = true → Completes (.densStart i) s (fun e => e.secStatus i = 1 ∧ KnobFrame [knobAt i 4] i 0 1 s.dev e)) ∧
  (InRun s → s.dev.takes i 6 0 2 = true → s.dev.densRunning i = true → s.dev.fedAll = true → s.dev.runRing i → Completes (.densStop i) s (fun e => e.densRunning i = false ∧ e.runs.get? i = none ∧ e.knobBits i 4 0 1 = 0 ∧ e.secStatus i = 0 ∧
    (∀ j, j ≠ i.val → e.denses.get? j = s.dev.denses.get? j) ∧ Noted (knobAt i 0) 2 s.dev e ∧ RecordsOnly [] s.dev { e with denses := s.dev.denses, cues := s.dev.cues })) ∧
  (InRun s → s.dev.takes i 6 0 2 = true → s.dev.densRunning i = false → s.dev.fedAll = true → Completes (.densStop i) s (fun e => e.secStatus i = 1 ∧ KnobFrame [knobAt i 4] i 0 2 s.dev e)) ∧
  (∀ codes : List (BitVec 12), s.dev.activeKind i 6 = false ∨ s.dev.densRunning i = false → Completes (.densFrameEnd i codes) s (fun e => e = s.dev)) ∧
  (∀ (codes : List (BitVec 12)) (u : Run) (x : Nat), s.dev.activeKind i 6 = true → s.dev.densRunning i = true → s.dev.runs.get? i = some u → (s.dev.dens i).closing = none → (s.dev.dens i).xfrm = x → (s.dev.xfrm x).input < 8 ∨ s.dev.secState (s.dev.xfrm x).chan = 2 →
      let g := (s.dev.dens i).f0 + u.next * (s.dev.dens i).frames
    ((∀ k, k < (s.dev.dens i).frames → s.dev.frameCause x (g + k) ≠ 0) → Completes (.densFrameEnd i codes) s (fun e =>
      (e.dens i).closing.map (fun c => (c.hist, c.used, c.frame, c.clk, c.cause)) = some (Tab.empty, 0, u.next, s.dev.clk, s.dev.firstCause x g (s.dev.dens i).frames) ∧
      (e.dens i).persist = (s.dev.dens i).persist ∧ (∀ j, j ≠ i.val → e.denses.get? j = s.dev.denses.get? j) ∧ Frame [] s.dev { e with denses := s.dev.denses })) ∧
    (∀ good, (∃ k, k < (s.dev.dens i).frames ∧ s.dev.frameCause x (g + k) = 0) → s.dev.usedFrames x g (s.dev.dens i).frames codes = some good → Completes (.densFrameEnd i codes) s (fun e =>
      (e.dens i).closing.map (fun c => (c.used, c.frame, c.clk, c.decay, c.chroma, c.gain)) = some (good.length, u.next, s.dev.clk, s.dev.knob i 0x24, s.dev.knob i 0x28, s.dev.knob i 0x2C) ∧
      (∀ y, good = [y] → (e.dens i).closing.map (·.hist) =
        some (densAdd Tab.empty ((s.dev.dens i).increments ((s.dev.dens i).first - (s.dev.xfrm x).lowest).toNat y.frame y.codes))) ∧
      (e.dens i).persist = (s.dev.dens i).persist ∧ (∀ j, j ≠ i.val → e.denses.get? j = s.dev.denses.get? j) ∧ Frame [] s.dev { e with denses := s.dev.denses }))) ∧
  (s.dev.activeKind i 6 = false ∨ (s.dev.dens i).closing = none → Completes (.renderPassEnd i) s (fun e => e = s.dev)) ∧
  (∀ (c : DensFrame) (r : Dens) (u : Run), s.dev.activeKind i 6 = true → s.dev.denses.get? i = some r → r.closing = some c → s.dev.runs.get? i = some u → u.losses = [] → s.dev.runRing i → Completes (.renderPassEnd i) s (fun e =>
    e.clk = max s.dev.clk (c.clk + 8192) ∧ (e.dens i).closing = none ∧ (e.dens i).persist = densPersist r.persist c.hist c.decay ∧ (∀ v, e.runs.get? i = some v → v.next = u.next + 1) ∧
    (c.used = 0 → e.knob i 0x38 = min (2 ^ 32 - 1) (s.dev.knob i 0x38 + 1) ∧ e.wideKnob i 0x30 = s.dev.wideKnob i 0x30) ∧
    (c.used ≠ 0 → e.wideKnob i 0x30 = (s.dev.wideKnob i 0x30 + 1) % 2 ^ 64 ∧ e.knob i 0x38 = s.dev.knob i 0x38 ∧ (c.used < r.frames → e.knob i 0x3C = min (2 ^ 32 - 1) (s.dev.knob i 0x3C + 1))) ∧
    RecordsOnly [] s.dev { e.atTime s.dev with denses := s.dev.denses }))

/-- Scan-out (R431, R432, R434–R439): ENABLE with a sink trains a link that carries the timing; DISABLE, a lost link and a lost sink end it; blanking latches the flips written before it; the match line, the end of a frame with its proof rectangles and an underrun are
shown; FLIP of a layer is pending, one before it that was never shown is counted; an AUX transaction goes out and its answer is stored. Each of these commands completes from
every state, a host command in RUN, and the first clause gives the state it leaves: vidEnable, vidDisable, linkTrainingEnd, hpdChange, vblankStart, lineMatch, frameDone, underrun, flip,
auxGo, auxDone, displayLinkLoss. -/
def Obligations.DisplayCommandsComplete : Prop :=
  (∀ s : State,
    (∀ (ok : Bool), exec (.linkTrainingEnd ok) s = .next { s with dev := s.dev.trainEnd ok }) ∧
    (∀ (on : Bool), exec (.hpdChange on) s = .next { s with dev := s.dev.hpdChange on }) ∧
    exec .vblankStart s = .next { s with dev := s.dev.vblank } ∧
    exec .lineMatch s = .next { s with dev := s.dev.lineMatch } ∧
    exec .frameDone s = .next { s with dev := s.dev.frameDone } ∧
    (∀ (l : Fin 4) (line x : Fin 8192) (walk : Bool), exec (.underrun l line x walk) s = .next { s with dev := s.dev.underrun l line x walk }) ∧
    (∀ (reply : Byte) (data : List Byte), exec (.auxDone reply data) s = .next { s with dev := s.dev.auxDone reply.toNat data }) ∧
    exec .displayLinkLoss s = .next { s with dev := s.dev.vidLoss } ∧
    (InRun s →
      exec .vidEnable s = .next { s with dev := s.dev.vidEnable } ∧
      exec .vidDisable s = .next { s with dev := s.dev.vidDisable } ∧
      (∀ (l : Fin 4) (tag : BitVec 16), exec (.flip l tag) s = .next { s with dev := s.dev.flip l tag.toNat }) ∧
      (∀ (v : Word), exec (.auxGo v) s = .next { s with dev := s.dev.auxGo v }))) ∧
  ∀ s : State,
  (InRun s → s.dev.vidState ≠ 0 ∨ s.dev.rd F.VID_STATUS_HPD = 0 → Completes .vidEnable s (fun e => e.rd F.VID_STATUS_CODE = 1 ∧ e.vidState = s.dev.vidState ∧ Frame [0x3D0004] s.dev e)) ∧
  (InRun s → s.dev.vidState = 0 → s.dev.rd F.VID_STATUS_HPD = 1 → ∀ lanes : Nat, (if s.dev.rd F.VID_LINK_LANES = 1 ∨ s.dev.rd F.VID_LINK_LANES = 2 ∨ s.dev.rd F.VID_LINK_LANES = 4 then s.dev.rd F.VID_LINK_LANES else 0) = lanes →
    (lanes * vidRate (s.dev.rd F.VID_LINK_RATE) * 8000 < s.dev.rd F.VID_PCLK_KHZ * 240 → Completes .vidEnable s (fun e => e.rd F.VID_STATUS_CODE = 2 ∧ e.vidState = 0 ∧ Frame [0x3D0004] s.dev e)) ∧
    (s.dev.rd F.VID_PCLK_KHZ * 240 ≤ lanes * vidRate (s.dev.rd F.VID_LINK_RATE) * 8000 → Completes .vidEnable s (fun e => e.rd F.VID_STATUS_CODE = 0 ∧ e.vidState = 1 ∧ Frame [0x3D0004] s.dev e))) ∧
  (InRun s → (∀ l, l < 4 → (s.dev.layer l).follows = none) → Completes .vidDisable s (fun e => e.vidState = 0 ∧ e.rd F.VID_STATUS_CODE = 0 ∧ e.vid = { s.dev.vid with start := none, skip := [], lost := [] } ∧ Frame [0x3D0004] s.dev { e with vid := s.dev.vid })) ∧
  (∀ ok : Bool, s.dev.vidState = 1 → Completes (.linkTrainingEnd ok) s (fun e => e.vidState = (if ok then 2 else 3) ∧ e.rd F.VID_STATUS_CODE = (if ok then 0 else 3) ∧ Raised e 36 21 ∧ Frame [0x3D0004] s.dev e)) ∧
  (∀ ok : Bool, s.dev.vidState ≠ 1 → Completes (.linkTrainingEnd ok) s (fun e => e = s.dev)) ∧
  (∀ on : Bool, s.dev.rd F.VID_STATUS_HPD = (if on then 1 else 0) → Completes (.hpdChange on) s (fun e => e = s.dev)) ∧
  (∀ on : Bool, s.dev.rd F.VID_STATUS_HPD ≠ (if on then 1 else 0) → (∀ l, l < 4 → (s.dev.layer l).follows = none) → Completes (.hpdChange on) s (fun e => e.rd F.VID_STATUS_HPD = (if on then 1 else 0) ∧ Raised e 36 20 ∧
    (on = false → s.dev.vidState = 2 → e.vidState = 3 ∧ e.vid.start = none) ∧ (on = true ∨ s.dev.vidState ≠ 2 → e.vidState = s.dev.vidState ∧ e.vid = s.dev.vid) ∧ Frame [0x3D0004] s.dev { e with vid := s.dev.vid })) ∧
  (s.dev.vidState = 2 → (∀ l, l < 4 → (s.dev.layer l).follows = none) → Completes .displayLinkLoss s (fun e => e.vidState = 3 ∧ e.vid.start = none ∧ Frame [0x3D0004] s.dev { e with vid := s.dev.vid })) ∧
  (s.dev.vidState ≠ 2 → Completes .displayLinkLoss s (fun e => e = s.dev) ∧ Completes .vblankStart s (fun e => e = s.dev) ∧ Completes .lineMatch s (fun e => e = s.dev) ∧ Completes .frameDone s (fun e => e = s.dev) ∧
    (∀ (l : Fin 4) (y x : Fin 8192) (walk : Bool), Completes (.underrun l y x walk) s (fun e => e = s.dev))) ∧
  (s.dev.vidState = 2 → Completes .vblankStart s (fun e => e.rd F.VID_STATUS_LINE = s.dev.rd F.VID_V_ACTIVE ∧ Raised e 36 0 ∧ e.vid.lost = [] ∧
    (s.dev.vid.start = none → e.vid.start = some (s.dev.clk, 1) ∧ e.clk = s.dev.clk) ∧
    (∀ c n, s.dev.vid.start = some (c, n) → e.vid.start = some (c, n + 1) ∧ e.clk = max s.dev.clk (c + s.dev.vidClocks (n * s.dev.rd F.VID_V_TOTAL) 0)) ∧
    (∀ (l : Fin 4) (c : Nat), (s.dev.layer l).flipClk = some c → c < s.dev.clk → e.rd F.VID_LAYER_TAG_SHOWN_TAG l = s.dev.rd F.VID_LAYER_TAG_PENDING_TAG l ∧ e.rd F.VID_LAYER_NEVER_PENDING l = 0 ∧ Raised e 36 (4 + l) ∧
      (e.layer l).flipClk = none ∧ (e.layer l).words = (List.range 9).map (fun k => s.dev.reg (0x3D0100 + l.val * 64 + 4 * k))) ∧
    (∀ l : Fin 4, (s.dev.layer l).flipClk = none → (e.layer l).words = (s.dev.layer l).words ∧ e.rd F.VID_LAYER_TAG_SHOWN_TAG l = s.dev.rd F.VID_LAYER_TAG_SHOWN_TAG l))) ∧
  (s.dev.vidState = 2 → s.dev.vid.start = none ∨ s.dev.rd F.VID_V_TOTAL ≤ s.dev.rd F.VID_LINE_MATCH_LINE → Completes .lineMatch s (fun e => e = s.dev)) ∧
  (s.dev.vidState = 2 → s.dev.vid.start ≠ none → s.dev.rd F.VID_LINE_MATCH_LINE < s.dev.rd F.VID_V_TOTAL → Completes .lineMatch s (fun e => e.rd F.VID_STATUS_LINE = s.dev.rd F.VID_LINE_MATCH_LINE ∧ Raised e 36 1 ∧ Frame [0x3D0004] s.dev (e.atTime s.dev))) ∧
  (s.dev.vidState = 2 → s.dev.vid.start = none → Completes .frameDone s (fun e => e = s.dev)) ∧
  (s.dev.vidState = 2 → s.dev.vid.start ≠ none → (∀ n, n < 8 → bits ((s.dev.vid.proofs.getD n []).getD 0 0).toNat 0 1 = 0) → Completes .frameDone s (fun e => e.rd F.VID_FRAMES_COUNT = (s.dev.rd F.VID_FRAMES_COUNT + 1) % 2 ^ 32 ∧ Raised e 36 2 ∧
    Frame [F.VID_FRAMES_COUNT.at_ 0 0] s.dev (e.atTime s.dev))) ∧
  (∀ (a p z c : Word) (b : List Byte), s.dev.vidState = 2 → s.dev.vid.start ≠ none → s.dev.vid.proofs = [[a, p, z, c]] → a.field 0 1 = 1 → p.field 0 13 + z.field 0 13 ≤ s.dev.rd F.VID_H_ACTIVE → p.field 16 13 + z.field 16 13 ≤ s.dev.rd F.VID_V_ACTIVE →
    s.dev.rectBytes (p.field 0 13) (p.field 16 13) (z.field 0 13) (z.field 16 13) = some b → Completes .frameDone s (fun e => e.rd F.VID_PROOF_CRC_CRC 0 = crc32 b % 2 ^ 32 ∧
      (a.field 1 1 = 1 → crc32 b ≠ c.toNat → e.rd F.VID_PROOF_MISMATCH_COUNT 0 = min (2 ^ 32 - 1) (s.dev.rd F.VID_PROOF_MISMATCH_COUNT 0 + 1) ∧ Raised e 36 12) ∧
      (a.field 1 1 = 0 ∨ crc32 b = c.toNat → e.rd F.VID_PROOF_MISMATCH_COUNT 0 = s.dev.rd F.VID_PROOF_MISMATCH_COUNT 0))) ∧
  (∀ (l : Fin 4) (y x : Fin 8192) (walk : Bool), s.dev.vidState = 2 →
    ((s.dev.layer l).on = false ∨ l.val ∈ s.dev.vid.skip → Completes (.underrun l y x walk) s (fun e => e = s.dev)) ∧
    ((s.dev.layer l).on = true → l.val ∉ s.dev.vid.skip → Completes (.underrun l y x walk) s (fun e => e.vid = { s.dev.vid with lost := s.dev.vid.lost ++ [(l.val, y.val, x.val, walk)] } ∧
      e.rd F.VID_UNDERRUN_COUNT = min (2 ^ 32 - 1) (s.dev.rd F.VID_UNDERRUN_COUNT + 1) ∧ Raised e 36 3 ∧ Frame [F.VID_UNDERRUN_COUNT.at_ 0 0] s.dev { e with vid := s.dev.vid }))) ∧
  (∀ (l : Fin 4) (tag : BitVec 16) (b : Nat), InRun s → s.dev.rd F.VID_LAYER_BASE_BASE l + s.dev.rd F.VID_LAYER_BASE_BASE l 1 * 2 ^ 32 = b →
    (s.dev.rd F.VID_LAYER_CFG_FOLLOW l = 0 → (b / 2 ^ 58 ≠ 4 ∨ b / 2 ^ 40 % 256 ≠ 0) → Completes (.flip l tag) s (fun e => e.rd F.VID_STATUS_CODE = 4 ∧ Frame [0x3D0004] s.dev e)) ∧
    (s.dev.rd F.VID_LAYER_CFG_FOLLOW l = 1 ∨ (b / 2 ^ 58 = 4 ∧ b / 2 ^ 40 % 256 = 0) → Completes (.flip l tag) s (fun e => e.rd F.VID_LAYER_TAG_PENDING_TAG l = tag.toNat ∧ e.rd F.VID_LAYER_NEVER_PENDING l = 1 ∧ (e.layer l).flipClk = some s.dev.clk ∧
      (e.layer l).words = (s.dev.layer l).words ∧ (s.dev.rd F.VID_LAYER_NEVER_PENDING l = 1 → e.rd F.VID_LAYER_NEVER_NEVER_TAG l = s.dev.rd F.VID_LAYER_TAG_PENDING_TAG l ∧ Raised e 36 (8 + l) ∧
        e.rd F.VID_LAYER_FLIP_NEVER_FLIP_NEVER l = min (2 ^ 32 - 1) (s.dev.rd F.VID_LAYER_FLIP_NEVER_FLIP_NEVER l + 1)) ∧
      Frame [F.VID_LAYER_TAG_PENDING_TAG.at_ l 0, F.VID_LAYER_NEVER_NEVER_TAG.at_ l 0, F.VID_LAYER_FLIP_NEVER_FLIP_NEVER.at_ l 0] s.dev { e with vid := s.dev.vid }))) ∧
  (∀ v : Word, InRun s → (s.dev.rd F.VID_AUX_CMD_GO = 1 → Completes (.auxGo v) s (fun e => e = s.dev)) ∧
    (s.dev.rd F.VID_AUX_CMD_GO = 0 → v.getLsbD 31 = false ∨ 4 ≤ v.field 24 3 → Completes (.auxGo v) s (fun e => e.rd F.VID_AUX_CMD_GO = 0 ∧ e.out = s.dev.out ∧ Frame [0x3D0040] s.dev e)) ∧
    (s.dev.rd F.VID_AUX_CMD_GO = 0 → v.getLsbD 31 = true → v.field 24 3 < 4 → Completes (.auxGo v) s (fun e => e.rd F.VID_AUX_CMD_GO = 1 ∧ e.rd F.VID_AUX_CMD_ADDR = v.field 0 20 ∧ e.rd F.VID_AUX_CMD_LEN = v.field 20 4 ∧ e.rd F.VID_AUX_CMD_OP = v.field 24 3 ∧
      e.out = s.dev.out ++ [.aux (v.field 24 3) (v.field 0 20) (if v.field 24 3 % 2 = 0 then ((List.range 4).flatMap (fun k => leBytes 4 (s.dev.rd F.VID_AUX_DATA_DATA k))).take (v.field 20 4 + 1) else [])] ∧ Frame [0x3D0040] s.dev e))) ∧
  (∀ (reply : Byte) (data : List Byte), (s.dev.rd F.VID_AUX_CMD_GO = 0 → Completes (.auxDone reply data) s (fun e => e = s.dev)) ∧
    (s.dev.rd F.VID_AUX_CMD_GO = 1 → Completes (.auxDone reply data) s (fun e => e.rd F.VID_AUX_CMD_GO = 0 ∧ e.rd F.VID_AUX_STATUS_REPLY = reply.toNat ∧ e.rd F.VID_AUX_STATUS_DONE = 1 ∧ Raised e 36 22 ∧
      (s.dev.rd F.VID_AUX_CMD_OP % 2 = 1 → data.length = s.dev.rd F.VID_AUX_CMD_LEN + 1 → ((List.range 4).flatMap (fun k => leBytes 4 (e.rd F.VID_AUX_DATA_DATA k))).take data.length = data) ∧
      (s.dev.rd F.VID_AUX_CMD_OP % 2 = 0 → ∀ k, k < 4 → e.rd F.VID_AUX_DATA_DATA k = s.dev.rd F.VID_AUX_DATA_DATA k) ∧
      Frame ([0x3D0040, 0x3D0044] ++ (List.range 4).map (fun k => F.VID_AUX_DATA_DATA.at_ k 0)) s.dev e)))

/-! ## Interrupts and housekeeping (spec/17_interrupts.md) -/

/-- Interrupt groups (R440, R442–R447): the host's 1s clear the pending bits of edge sources alone, but for those set on the same clock (R8); an enable of a pending source, a completion after which
a source is still active, and the end of the hold-off deliver a group that is not outstanding; a completion samples the level sources; unmasking an entry
sends the message that it held; groups 40–63 take no write. Each of these commands completes from every state, a host command in RUN, and the first clause gives the state it leaves:
pendingClear, irqEnableWrite, irqComplete, irqHoldoffEnd, msixUnmask. -/
def Obligations.InterruptCommandsComplete : Prop :=
  (∀ s : State,
    (∀ (g : Fin 64), exec (.irqHoldoffEnd g) s = .next { s with dev := s.dev.holdoffEnd g }) ∧
    (∀ (g : Fin 64), exec (.msixUnmask g) s = .next { s with dev := s.dev.msixUnmask g }) ∧
    (InRun s →
      (∀ (g : Fin 64) (v : Word), exec (.pendingClear g v) s = .next { s with dev := s.dev.pendingClear g v }) ∧
      (∀ (g : Fin 64) (v : Word), exec (.irqEnableWrite g v) s = .next { s with dev := s.dev.irqEnable g v }) ∧
      (∀ (g : Fin 64), exec (.irqComplete g) s = .next { s with dev := s.dev.irqComplete g }))) ∧
  ∀ (s : State) (g : Fin 64),
  (∀ v : Word, InRun s → g.val < 40 → Completes (.pendingClear g v) s (fun e =>
    e.reg (F.IRQ_PENDING_PENDING.at_ g 0) =
      s.dev.reg (F.IRQ_PENDING_PENDING.at_ g 0) &&& ~~~(v &&& ~~~(s.dev.reg (F.IRQ_LEVEL_LEVEL.at_ g 0)) &&& ~~~(s.dev.freshBits (F.IRQ_PENDING_PENDING.at_ g 0))) ∧
    e.irq = s.dev.irq ∧ e.out = s.dev.out ∧ OnlyAt [F.IRQ_PENDING_PENDING.at_ g 0] s.dev e)) ∧
  (∀ v : Word, InRun s → 40 ≤ g.val → Completes (.pendingClear g v) s (fun e => e = s.dev) ∧ Completes (.irqEnableWrite g v) s (fun e => e = s.dev) ∧
    Completes (.irqComplete g) s (fun e => e = s.dev)) ∧
  (∀ v : Word, InRun s → g.val < 40 → s.dev.reg (F.IRQ_PENDING_PENDING.at_ g 0) &&& v = 0 ∨ s.dev.rd F.IRQ_TARGET_OUTSTANDING g = 1 ∨ s.dev.mayDeliver g s.dev.clk = false →
    Completes (.irqEnableWrite g v) s (fun e => e.reg (F.IRQ_ENABLE_ENABLE.at_ g 0) = v ∧ e.irq = s.dev.irq ∧ e.out = s.dev.out ∧ OnlyAt [F.IRQ_ENABLE_ENABLE.at_ g 0] s.dev e)) ∧
  (∀ v : Word, InRun s → g.val < 40 → s.dev.reg (F.IRQ_PENDING_PENDING.at_ g 0) &&& v ≠ 0 → s.dev.rd F.IRQ_TARGET_OUTSTANDING g = 0 → s.dev.mayDeliver g s.dev.clk = true →
    Completes (.irqEnableWrite g v) s (fun e => e.reg (F.IRQ_ENABLE_ENABLE.at_ g 0) = v ∧ Delivered g s.dev.clk s.dev e ∧
      OnlyAt ([F.IRQ_ENABLE_ENABLE.at_ g 0, F.IRQ_TARGET_TARGET.at_ g 0, F.IRQ_DELIVERED_COUNT.at_ g 0] ++ s.dev.groupBell g) s.dev e)) ∧
  (∀ p : Word, InRun s → g.val < 40 → p = (s.dev.reg (F.IRQ_PENDING_PENDING.at_ g 0) &&& ~~~(s.dev.reg (F.IRQ_LEVEL_LEVEL.at_ g 0))) |||
      (s.dev.reg (F.IRQ_RAW_RAW.at_ g 0) &&& s.dev.reg (F.IRQ_LEVEL_LEVEL.at_ g 0)) →
    (p &&& s.dev.reg (F.IRQ_ENABLE_ENABLE.at_ g 0) = 0 ∨ s.dev.mayDeliver g s.dev.clk = false → Completes (.irqComplete g) s (fun e =>
      e.reg (F.IRQ_PENDING_PENDING.at_ g 0) = p ∧ e.rd F.IRQ_TARGET_OUTSTANDING g = 0 ∧ e.rd F.IRQ_TARGET_TARGET g = s.dev.rd F.IRQ_TARGET_TARGET g ∧
      e.rd F.IRQ_TARGET_CORE g = s.dev.rd F.IRQ_TARGET_CORE g ∧ e.irq = s.dev.irq ∧ e.out = s.dev.out ∧ OnlyAt [F.IRQ_PENDING_PENDING.at_ g 0, F.IRQ_TARGET_TARGET.at_ g 0] s.dev e)) ∧
    (p &&& s.dev.reg (F.IRQ_ENABLE_ENABLE.at_ g 0) ≠ 0 → s.dev.mayDeliver g s.dev.clk = true → Completes (.irqComplete g) s (fun e =>
      e.reg (F.IRQ_PENDING_PENDING.at_ g 0) = p ∧ e.rd F.IRQ_TARGET_TARGET g = s.dev.rd F.IRQ_TARGET_TARGET g ∧ e.rd F.IRQ_TARGET_CORE g = s.dev.rd F.IRQ_TARGET_CORE g ∧
      Delivered g s.dev.clk s.dev e ∧
      OnlyAt ([F.IRQ_PENDING_PENDING.at_ g 0, F.IRQ_TARGET_TARGET.at_ g 0, F.IRQ_DELIVERED_COUNT.at_ g 0] ++ s.dev.groupBell g) s.dev e))) ∧
  (∀ t : Nat, t = max s.dev.clk (s.dev.irq.holdEnd.getD g 0) →
    (s.dev.reg (F.IRQ_PENDING_PENDING.at_ g 0) &&& s.dev.reg (F.IRQ_ENABLE_ENABLE.at_ g 0) = 0 ∨ s.dev.rd F.IRQ_TARGET_OUTSTANDING g = 1 ∨ s.dev.mayDeliver g t = false →
      Completes (.irqHoldoffEnd g) s (fun e => e.clk = t ∧ e.atTime s.dev = s.dev)) ∧
    (s.dev.reg (F.IRQ_PENDING_PENDING.at_ g 0) &&& s.dev.reg (F.IRQ_ENABLE_ENABLE.at_ g 0) ≠ 0 → s.dev.rd F.IRQ_TARGET_OUTSTANDING g = 0 → s.dev.mayDeliver g t = true →
      Completes (.irqHoldoffEnd g) s (fun e => e.clk = t ∧ Delivered g t s.dev e ∧
        OnlyAt ([F.IRQ_TARGET_TARGET.at_ g 0, F.IRQ_DELIVERED_COUNT.at_ g 0] ++ s.dev.groupBell g) s.dev (e.atTime s.dev)))) ∧
  Completes (.msixUnmask g) s (fun e => e.irq.masked.get? g = none ∧ (∀ k, k ≠ g.val → e.irq.masked.get? k = s.dev.irq.masked.get? k) ∧
    ((s.dev.irq.pba.get? g).isSome = true ∧ s.dev.irq.functionMask = false → e.out = s.dev.out ++ [.msix g] ∧ e.irq.pba.get? g = none ∧
      ∀ k, k ≠ g.val → e.irq.pba.get? k = s.dev.irq.pba.get? k) ∧
    (s.dev.irq.pba.get? g = none ∨ s.dev.irq.functionMask = true → e.out = s.dev.out ∧ e.irq.pba = s.dev.irq.pba) ∧
    { e with irq := { e.irq with masked := s.dev.irq.masked, pba := s.dev.irq.pba }, out := s.dev.out } = s.dev)

/-- The housekeeping converter (R451–R455): EN rising begins entry 0 and forgets what lay outside limits; a conversion ends after its entry's sampling time
+ 0.6 µs with the code times its gain, is shown in the result and the entry's last value, replaces an unread result as an overrun, is checked against its
limits, and begins the next entry or ends conversion; the paced mover takes it; a read answers the result and clears VALID and OVR; where a result came on the clock of the read, the read
answers the one before it, and the new one waits without having been an overrun (R8). Each of these commands completes from every state, a host command in RUN, and the first
clause gives the state it leaves: hkaEnable, conversionEnd, hkaResultRead. -/
def Obligations.HousekeepingCommandsComplete : Prop :=
  (∀ s : State,
    (∀ (code : BitVec 12), exec (.conversionEnd code) s = .next { s with dev := s.dev.conversionEnd code.toNat }) ∧
    (InRun s →
      (∀ (v : Word), exec (.hkaEnable v) s = .next { s with dev := s.dev.hkaCtrl v }) ∧
      exec .hkaResultRead s = .next { s with dev := s.dev.hkaRead })) ∧
  ∀ s : State,
  (∀ v : Word, InRun s → v.field 8 1 = 0 ∨ s.dev.rd F.HKA_RESULT_VALID = 0 →
    (v.field 0 1 = 1 → s.dev.rd F.HKA_CTRL_EN = 0 → s.dev.hka.entry = none → Completes (.hkaEnable v) s (fun e =>
      e.rd F.HKA_CTRL_EN = 1 ∧ e.rd F.HKA_CTRL_LEN = v.field 4 4 ∧ e.rd F.HKA_CTRL_PACE_EN = v.field 8 1 ∧ e.rd F.HKA_CTRL_PACE_MOVER = v.field 16 6 ∧ e.rd F.HKA_STATUS_BUSY = 1 ∧
      e.rd F.HKA_STATUS_ENTRY = 0 ∧ e.rd F.HKA_STATUS_OVR = s.dev.rd F.HKA_STATUS_OVR ∧
      e.hka = { s.dev.hka with entry := some (0, s.dev.reg 0x38100, s.dev.reg 0x38104, s.dev.clk), outside := [] } ∧ Frame [0x38000, 0x38004] s.dev { e with hka := s.dev.hka })) ∧
    (v.field 0 1 = 1 → s.dev.rd F.HKA_CTRL_EN = 0 → s.dev.hka.entry ≠ none → Completes (.hkaEnable v) s (fun e =>
      e.rd F.HKA_CTRL_EN = 1 ∧ e.hka = { s.dev.hka with outside := [] } ∧ Frame [0x38000] s.dev { e with hka := s.dev.hka })) ∧
    (v.field 0 1 = 0 ∨ s.dev.rd F.HKA_CTRL_EN = 1 → Completes (.hkaEnable v) s (fun e =>
      e.rd F.HKA_CTRL_EN = v.field 0 1 ∧ e.rd F.HKA_CTRL_LEN = v.field 4 4 ∧ e.rd F.HKA_CTRL_PACE_EN = v.field 8 1 ∧ e.rd F.HKA_CTRL_PACE_MOVER = v.field 16 6 ∧
      e.hka = s.dev.hka ∧ Frame [0x38000] s.dev e))) ∧
  (∀ c : BitVec 12, s.dev.hka.entry = none → Completes (.conversionEnd c) s (fun e => e = s.dev)) ∧
  (∀ (c : BitVec 12) (n : Nat) (q lim : Word) (t0 : Nat), s.dev.hka.entry = some (n, q, lim, t0) → n < 16 → s.dev.hka.outside.Nodup → ∀ r : Nat,
    r = (if 3 ≤ q.field 0 6 ∧ q.field 0 6 ≤ 15 then min 4095 (c.toNat * 2 ^ q.field 12 2) else c.toNat) →
    (s.dev.rd F.HKA_CTRL_PACE_EN = 0 → Completes (.conversionEnd c) s (fun e =>
      e.clk = max s.dev.clk (t0 + [1000, 1500, 2500, 4500, 8500, 16500, 32500, 64500].getD (q.field 8 3) 0) ∧ e.rd F.HKA_RESULT_VALUE = r ∧ e.rd F.HKA_RESULT_ENTRY = n ∧
      e.rd F.HKA_RESULT_INPUT = q.field 0 6 ∧ e.rd F.HKA_RESULT_VALID = 1 ∧ e.rd F.HKA_RESULT_OVR = s.dev.rd F.HKA_RESULT_VALID ∧ e.rd F.HKA_LAST_VALUE n = r ∧
      (e.rd F.IRQ_RAW_RAW 37).testBit 0 = true ∧ ((s.dev.rd F.IRQ_RAW_RAW 37).testBit 0 = false → Raised e 37 0) ∧
      (s.dev.rd F.HKA_RESULT_VALID = 1 → e.rd F.HKA_STATUS_OVR = 1 ∧ e.rd F.HKA_OVR_COUNT_COUNT = min (2 ^ 32 - 1) (s.dev.rd F.HKA_OVR_COUNT_COUNT + 1) ∧ Raised e 37 1) ∧
      (s.dev.rd F.HKA_RESULT_VALID = 0 → e.rd F.HKA_STATUS_OVR = s.dev.rd F.HKA_STATUS_OVR ∧ e.rd F.HKA_OVR_COUNT_COUNT = s.dev.rd F.HKA_OVR_COUNT_COUNT) ∧
      (q.field 15 1 = 1 → r < lim.field 0 12 ∨ lim.field 16 12 < r → n ∉ s.dev.hka.outside → Raised e 37 (2 + n)) ∧
      (n ∈ e.hka.outside ↔ r < lim.field 0 12 ∨ lim.field 16 12 < r) ∧ (∀ k, k ≠ n → (k ∈ e.hka.outside ↔ k ∈ s.dev.hka.outside)) ∧
      (s.dev.rd F.HKA_CTRL_EN = 0 → e.hka.entry = none ∧ e.rd F.HKA_STATUS_BUSY = 0) ∧
      (∀ k, s.dev.rd F.HKA_CTRL_EN = 1 → k = (if n < s.dev.rd F.HKA_CTRL_LEN then n + 1 else 0) → e.rd F.HKA_STATUS_BUSY = 1 ∧ e.rd F.HKA_STATUS_ENTRY = k ∧
        e.hka.entry = some (k, s.dev.reg (F.HKA_SEQ_INPUT.at_ k 0), s.dev.reg (F.HKA_SEQ_LIM_LO.at_ k 0), e.clk)) ∧
      e.hka.paced = s.dev.hka.paced ∧ Frame [0x38004, 0x38008, 0x3800C, F.HKA_LAST_VALUE.at_ n 0] s.dev { e.atTime s.dev with hka := s.dev.hka })) ∧
    (∀ m : Nat, s.dev.rd F.HKA_CTRL_PACE_EN = 1 → s.dev.rd F.HKA_CTRL_PACE_MOVER = m → s.dev.movState m = 1 → s.dev.rd F.MOV_OWNER_STR m = 0 →
      s.dev.hka.paced.length < (s.dev.descAt (s.dev.movCur m)).results → Completes (.conversionEnd c) s (fun e => e.rd F.HKA_RESULT_VALID = 0 ∧ (e.rd F.IRQ_RAW_RAW 37).testBit 0 = false ∧
        e.rd F.HKA_LAST_VALUE n = r ∧ (∃ w : Word, e.hka.paced = s.dev.hka.paced ++ [w] ∧ w.field 0 12 = r ∧ w.field 16 4 = n ∧ w.field 24 6 = q.field 0 6 ∧ w.field 30 1 = 1 ∧
          w.field 31 1 = s.dev.rd F.HKA_RESULT_VALID) ∧
        Frame [0x38004, 0x38008, 0x3800C, F.HKA_LAST_VALUE.at_ n 0] s.dev { e.atTime s.dev with hka := s.dev.hka }))) ∧
  (InRun s → s.dev.reg 0x38008 = s.dev.reg0 0x38008 → Completes .hkaResultRead s (fun e => e.readData = (s.dev.reg 0x38008).toNat ∧ e.rd F.HKA_RESULT_VALID = 0 ∧ e.rd F.HKA_RESULT_OVR = 0 ∧
    e.rd F.HKA_RESULT_VALUE = s.dev.rd F.HKA_RESULT_VALUE ∧ (e.rd F.IRQ_RAW_RAW 37).testBit 0 = false ∧ e.rd F.IRQ_PENDING_PENDING 37 = s.dev.rd F.IRQ_PENDING_PENDING 37 ∧
    Frame [0x38008] s.dev { e with readData := s.dev.readData })) ∧
  (InRun s → s.dev.reg 0x38008 ≠ s.dev.reg0 0x38008 → Completes .hkaResultRead s (fun e => e.readData = (s.dev.reg0 0x38008).toNat ∧
    e.rd F.HKA_RESULT_VALID = s.dev.rd F.HKA_RESULT_VALID ∧ e.rd F.HKA_RESULT_VALUE = s.dev.rd F.HKA_RESULT_VALUE ∧ e.rd F.HKA_RESULT_ENTRY = s.dev.rd F.HKA_RESULT_ENTRY ∧
    e.reg0 0x38008 = e.reg 0x38008 ∧
    ((s.dev.reg0 0x38008).field F.HKA_RESULT_VALID.lo 1 = 1 → e.rd F.HKA_RESULT_OVR = 0 ∧ e.rd F.HKA_STATUS_OVR = (s.dev.reg0 0x38004).field 1 1 ∧
      e.reg F.HKA_OVR_COUNT_COUNT.off = s.dev.reg0 F.HKA_OVR_COUNT_COUNT.off ∧ Frame [0x38004, 0x38008, F.HKA_OVR_COUNT_COUNT.off] s.dev { e with readData := s.dev.readData }) ∧
    ((s.dev.reg0 0x38008).field F.HKA_RESULT_VALID.lo 1 = 0 → Frame [] s.dev { e with readData := s.dev.readData })))

/-! ## Supplies, power states, reefing, repair and security (spec/18_power.md) -/

/-- Supplies and start-up (R456, R457, R459, R461, R469, R478): 12 V valid, WAKE# and a die that has cooled start the engine, unless 3.3 V is absent, a STANDBY command is in force, or a trip
makes the start wait; a fall of 12 V and a thermal trip enter STANDBY with their flag set; a loss of 3.3 V leaves each word of the store written or unchanged, its return gives the standby
domain its reset and stored values; each start-up step ends in its turn, when what it waits for has come, with its flag shown; after the last the engine is in RUN. Each of these
commands completes from every state, and the first clause gives the state it leaves: powerValid, wake, powerFail, thermalTrip, startupStepEnd, standbySupplyUp, standbySupplyLost,
tripCooledStart. -/
def Obligations.SupplyAndStartUpCommandsComplete : Prop :=
  (∀ s : State,
    exec .powerValid s = .next { s with dev := s.dev.powerValid } ∧
    exec .wake s = .next { s with dev := s.dev.wakePin } ∧
    exec .powerFail s = .next { s with dev := s.dev.powerFail } ∧
    exec .thermalTrip s = .next { s with dev := s.dev.thermalTrip } ∧
    (∀ (r : StartupResult), exec (.startupStepEnd r) s = .next { s with dev := s.dev.stepEnd r }) ∧
    exec .standbySupplyUp s = .next { s with dev := s.dev.supplyUp } ∧
    exec .standbySupplyLost s = .next { s with dev := s.dev.supplyLost } ∧
    (∀ (r : PowerReading), exec (.tripCooledStart r) s = .next { s with dev := s.dev.tripCooled r })) ∧
  ∀ s : State, s.dev.retainedOk → ∀ p : Power, s.dev.power = p →
  (s.dev.pstate ≠ 0 ∨ p.v33 = false ∨ p.standbyCmd = true → Completes .powerValid s (fun e => e = { s.dev with power := { p with v12 := true } })) ∧
  (s.dev.pstate = 0 → p.v33 = true → p.standbyCmd = false →
    (p.tripWait = true → Completes .powerValid s (fun e => e = { s.dev with power := { p with v12 := true, startWait := true } })) ∧
    (p.tripWait = false → Completes .powerValid s (fun e => StartedUp { s.dev with power := { p with v12 := true } } e))) ∧
  (s.dev.pstate ≠ 0 ∨ p.v12 = false → Completes .wake s (fun e => e = s.dev)) ∧
  (s.dev.pstate = 0 → p.v12 = true →
    (p.v33 = false → Completes .wake s (fun e => e = { s.dev with power := { p with standbyCmd := false } })) ∧
    (p.v33 = true → p.tripWait = true → Completes .wake s (fun e => e = { s.dev with power := { p with standbyCmd := false, startWait := true } })) ∧
    (p.v33 = true → p.tripWait = false → Completes .wake s (fun e => StartedUp s.dev e))) ∧
  (s.dev.pstate = 0 → Completes .powerFail s (fun e => e = { s.dev with power := { p with v12 := false, standbyCmd := false, startWait := false } }) ∧ Completes .thermalTrip s (fun e => e = s.dev)) ∧
  (s.dev.pstate ≠ 0 → Completes .powerFail s (fun e => StandbyEntered s.dev e ∧ e.rd F.SYS_STATUS_PWRFAIL = 1 ∧ e.rd F.SYS_STATUS_TRIPPED = s.dev.rd F.SYS_STATUS_TRIPPED ∧
      e.power = { p with v12 := false, standbyCmd := false, startWait := false, step := 1, reefSince := 0, byCurrent := false, limit := 1600, paceClk := 0 }) ∧
    Completes .thermalTrip s (fun e => StandbyEntered s.dev e ∧ e.rd F.SYS_STATUS_TRIPPED = 1 ∧ e.rd F.SYS_STATUS_PWRFAIL = s.dev.rd F.SYS_STATUS_PWRFAIL ∧
      e.power = { p with standbyCmd := true, tripWait := true, startWait := false, step := 1, reefSince := 0, byCurrent := false, limit := 1600, paceClk := 0 })) ∧
  (∀ r : PowerReading, (p.startWait = true → p.v12 = true → p.v33 = true → r.temp ≤ 1360 → Completes (.tripCooledStart r) s (fun e => StartedUp s.dev e)) ∧
    (p.startWait = false ∨ p.v12 = false ∨ p.v33 = false ∨ 1360 < r.temp → Completes (.tripCooledStart r) s (fun e => e = s.dev))) ∧
  (p.v33 = false → Completes .standbySupplyLost s (fun e => e = s.dev)) ∧
  (p.v33 = true → Completes .standbySupplyLost s (fun e => e.pstate = 0 ∧ e.rd F.SYS_STATUS_STBY_UP = 0 ∧ e.irq = Dev.reset.irq ∧ e.mem = Mem.empty ∧ e.nvsBusy = [] ∧ e.sec = s.dev.sec ∧
    e.power = { p with v33 := false, standbyCmd := false, tripWait := false, startWait := false, step := 0 } ∧ (s.dev.nvsBusy = [] → e.nvs = s.dev.nvs) ∧
    (∀ (o : Nat) (old : List Byte), s.dev.nvsBusy = [(o, old)] → old.length % 4 = 0 →
      (∀ k, k < old.length / 4 → e.nvs.bytes (o + 4 * k) 4 = s.dev.nvs.bytes (o + 4 * k) 4 ∨ e.nvs.bytes (o + 4 * k) 4 = (old.drop (4 * k)).take 4) ∧
      (∀ a, a < o ∨ o + old.length ≤ a → e.nvs.byte a = s.dev.nvs.byte a)))) ∧
  (p.v33 = true → Completes .standbySupplyUp s (fun e => e = s.dev)) ∧
  (p.v33 = false → Completes .standbySupplyUp s (fun e => e.power.v33 = true ∧ e.localTime = 0 ∧ e.time = Dev.reset.time ∧ e.rd F.TIM_STATUS_UNSET = 1 ∧ e.rd F.TIM_STATUS_STEP_AVAIL = 1 ∧
    e.rd F.TIM_STATUS_EPOCH = 0 ∧ e.rd F.XTL_AGE_AGE = leNat (s.dev.nvs.bytes 0x50000 4) ∧ e.rd F.XTL_AGE_RATE_RATE = leNat (s.dev.nvs.bytes 0x50004 4) ∧ e.sec = s.dev.sec ∧
    e.rd F.SEC_STATE_OWNED = s.dev.rd F.SEC_STATE_OWNED ∧ e.nvs = s.dev.nvs ∧
    (p.v12 = false ∨ p.standbyCmd = true → e.pstate = 0 ∧ e.power = { p with v33 := true, step := 0 } ∧
      (∀ o, o ∉ [8, 0x24000, 0x24090, 0x24094, 0x24098, 0x240A0, 0x50C04, 0x50C0C, 0x50C10, 0x50C14] → e.reg o = resetWord o)) ∧
    (p.v12 = true → p.standbyCmd = false → p.tripWait = true → e.pstate = 0 ∧ e.power.startWait = true) ∧
    (p.v12 = true → p.standbyCmd = false → p.tripWait = false → e.pstate = 1 ∧ e.power.step = 0))) ∧
  (∀ r : StartupResult, s.dev.pstate ≠ 1 ∨ (p.step = 3 ∧ s.dev.rd F.CLK_STATUS_ALIGNED = 0) ∨ (p.step = 6 ∧ s.dev.rd F.CAL_STATUS_POWERUP_DONE = 0 ∧ ∃ j ∈ s.dev.cal.job.toList ++ s.dev.cal.archive, j.cause = 0) →
    Completes (.startupStepEnd r) s (fun e => e = s.dev)) ∧
  (∀ r : StartupResult, s.dev.pstate = 1 → (p.step = 3 → s.dev.rd F.CLK_STATUS_ALIGNED = 1) → (p.step = 6 → s.dev.rd F.CAL_STATUS_POWERUP_DONE = 1 ∨ ∀ j ∈ s.dev.cal.job.toList ++ s.dev.cal.archive, j.cause ≠ 0) →
    Completes (.startupStepEnd r) s (fun e =>
    e.power = { p with step := p.step + 1 } ∧ e.clk = s.dev.clk + r.clocks ∧ e.clocks.refOut = (s.dev.rd F.XTL_CTRL_REFOUT_EN == 1 && decide (1 ≤ p.step)) ∧
    (p.step = 0 → e.rd F.SYS_STATUS_STBY_UP = 1 ∧ Frame [8] s.dev { e.atTime s.dev with power := p, clocks := { e.clocks with refOut := s.dev.clocks.refOut } }) ∧
    (p.step = 1 → e.rd F.SYS_STATUS_PGOOD = 1 ∧ e.out = s.dev.out ++ .pgood true :: (if e.clocks.refOut = s.dev.clocks.refOut then [] else [.refOut e.clocks.refOut]) ∧ Frame [8] s.dev { e.atTime s.dev with power := p, clocks := { e.clocks with refOut := s.dev.clocks.refOut } }) ∧
    (p.step = 2 → e.rd F.SYS_STATUS_REPAIRED = 1 ∧ e.rd F.RPR_STATUS_DONE = 1 ∧ e.repair.fuses = s.dev.repair.fuses ∧ e.repair.inForce = e.repair.fuses ++ e.repair.field ∧
      (∀ k : Fin 28, e.loop k = (if s.dev.loop k = 0 ∧ s.dev.rd F.CLK_PLL_CTRL_EN k = 1 then 1 else s.dev.loop k)) ∧
      (∀ c, s.dev.readCopy 0 = some c → s.dev.readCopy 0x4000 = some c → s.dev.readCopy 0x8000 = some c → e.nvs = s.dev.nvs ∧ e.rd F.RPR_STATUS_COPY_OK = 7 ∧ e.repair.seq = c.2) ∧
      (s.dev.readCopy 0 = none → s.dev.readCopy 0x4000 = none → s.dev.readCopy 0x8000 = none → e.rd F.RPR_STATUS_FIELD_LOST = 1 ∧ e.rd F.RPR_STATUS_COPY_OK = 0 ∧ e.repair.field = [] ∧ Raised e 0 9 ∧
        ∀ o, o = 0 ∨ o = 0x4000 ∨ o = 0x8000 → e.nvs.bytes o 64 = repairCopy [] 1) ∧
      (∀ c b, s.dev.readCopy 0 = some c → s.dev.readCopy 0x4000 = some b → c ≠ b → (s.dev.readCopy 0x8000).isSome = true → e.rd F.RPR_STATUS_DISAGREE = 1 ∧ Raised e 0 9) ∧
      (∀ c, s.dev.readCopy 0 = some c → s.dev.readCopy 0x4000 = none ∨ s.dev.readCopy 0x8000 = none → e.rd F.RPR_STATUS_COPY_BAD = 1 ∧ Raised e 0 9)) ∧
    (p.step = 3 → e.rd F.SYS_STATUS_LOCKED = 1 ∧ Frame [8] s.dev { e.atTime s.dev with power := p, clocks := { e.clocks with refOut := s.dev.clocks.refOut } }) ∧
    (p.step = 4 → e.rd F.SYS_STATUS_TRAINED = 1 ∧ (r.clocks / 1000 < 2 ^ 32 → e.rd F.DRC_TRAIN_TIME_US = r.clocks / 1000) ∧
      (∀ k w, k < 68 → r.eyes[k]? = some w → e.reg (F.DRC_CH_EYE_EYE.at_ k 0) = w) ∧
      (∀ c ∈ r.trainFail, e.rd F.DRC_CH_STATUS_STATE c = 3 ∧ (c ∉ s.dev.retiredChannels → rprEntry 2 2 c ∈ e.repair.inForce ∧ Raised e 26 2)) ∧ (r.trainFail = [] → e.repair = s.dev.repair ∧ e.nvs = s.dev.nvs)) ∧
    (p.step = 5 → e.rd F.SYS_STATUS_MARCHED = 1 ∧ Raised e 27 3 ∧ (r.rows = [] → r.units = [] → e.repair = s.dev.repair) ∧
      (r.rows.length < 2 ^ 16 → r.units.length < 2 ^ 16 → e.rd F.SPM_PU_TIME_US = 59980 + r.rows.length ∧ e.rd F.SPM_PU_REPAIRED_ROWS = r.rows.length ∧
        e.rd F.SPM_PU_RETIRED_UNITS = r.units.length) ∧
      (∀ x ∈ r.rows, rprEntry 4 1 (x.1 + x.2.1 % 256 * 65536 + x.2.2 % 65536 * 2 ^ 24) ∈ e.repair.inForce) ∧ (∀ x ∈ r.units, rprEntry 5 1 (x % 65536) ∈ e.repair.inForce) ∧
      (∀ n : Fin 8, e.cnvState n = 2 ∧ e.rd F.CNV_STATUS_TONE n = 1) ∧ ∃ j, e.cal.job = some j ∧ j.cause = 0 ∧ j.start = e.clk) ∧
    (p.step = 6 → e.pstate = 2 ∧ e.rd F.SYS_STATUS_CALIBRATED = 1 ∧ e.rd F.SYS_STATUS_READY = 1 ∧ e.rd F.GAL_STATUS_READY = 1 ∧ Raised e 0 0 ∧
      Frame [8, 0x300000] s.dev { e.atTime s.dev with power := p, clocks := { e.clocks with refOut := s.dev.clocks.refOut } })))

/-- Power commands and reefing (R457–R459, R464–R466, R468): RUN leaves IDLE, IDLE and STANDBY are entered when the engine is quiet and are refused with BUSY otherwise, a command the state does not admit
leaves STATE; RESUME ends a halt when the die and the current are low, else HOT; a stage is entered and released by the comparators, sheds its first section, then one a pace while its driver
holds, and escalates 2 s after its last; halt stops what it stops. Each of these commands completes from every state, a host command in RUN, and the first clause gives the state it leaves:
pwrRun, pwrIdle, pwrStandby, pwrResume, firstReef, secondReef, reefHalt, reefRelease, shedPace, escalation. -/
def Obligations.PowerAndReefCommandsComplete : Prop :=
  (∀ s : State,
    (∀ (byCurrent : Bool) (r : PowerReading), exec (.firstReef byCurrent r) s = .next { s with dev := s.dev.firstReef byCurrent r }) ∧
    (∀ (r : PowerReading), exec (.secondReef r) s = .next { s with dev := s.dev.secondReef r }) ∧
    (∀ (r : PowerReading), exec (.reefHalt r) s = .next { s with dev := s.dev.reefHalt r }) ∧
    (∀ (r : PowerReading), exec (.reefRelease r) s = .next { s with dev := s.dev.reefRelease r }) ∧
    (∀ (r : PowerReading), exec (.shedPace r) s = .next { s with dev := s.dev.shedPace r }) ∧
    (∀ (r : PowerReading), exec (.escalation r) s = .next { s with dev := s.dev.escalate r }) ∧
    (InRun s →
      exec .pwrRun s = .next { s with dev := s.dev.pwrRun } ∧
      exec .pwrIdle s = .next { s with dev := s.dev.pwrIdle } ∧
      exec .pwrStandby s = .next { s with dev := s.dev.pwrStandby } ∧
      (∀ (r : PowerReading), exec (.pwrResume r) s = .next { s with dev := s.dev.resume r }))) ∧
  ∀ s : State,
  (s.dev.pstate = 0 → Completes .pwrRun s (fun e => e = s.dev) ∧ Completes .pwrIdle s (fun e => e = s.dev) ∧ Completes .pwrStandby s (fun e => e = s.dev) ∧
    ∀ r : PowerReading, Completes (.pwrResume r) s (fun e => e = s.dev) ∧ Completes (.secondReef r) s (fun e => e = s.dev) ∧ Completes (.reefHalt r) s (fun e => e = s.dev) ∧
      Completes (.reefRelease r) s (fun e => e = s.dev) ∧ Completes (.shedPace r) s (fun e => e = s.dev) ∧ Completes (.escalation r) s (fun e => e = s.dev) ∧
      ∀ b : Bool, Completes (.firstReef b r) s (fun e => e = s.dev)) ∧
  (s.dev.pstate = 3 → Completes .pwrRun s (fun e => e.pstate = 2 ∧ e.rd F.PWR_STATUS_CODE = 0 ∧ e.rd F.DRC_STATUS_SELFREF = 0 ∧ Raised e 0 13 ∧ Frame [8, 0x10004, 0x328004] s.dev e)) ∧
  (s.dev.pstate ≠ 0 → s.dev.pstate ≠ 3 → Completes .pwrRun s (fun e => e.rd F.PWR_STATUS_CODE = 1 ∧ e.pstate = s.dev.pstate ∧ Frame [0x10004] s.dev e)) ∧
  (s.dev.pstate = 2 → s.dev.quiet = true → Completes .pwrIdle s (fun e => e.pstate = 3 ∧ e.rd F.PWR_STATUS_CODE = 0 ∧ Raised e 0 13 ∧ Frame [8, 0x10004] s.dev e)) ∧
  (s.dev.pstate = 2 → s.dev.quiet = false → Completes .pwrIdle s (fun e => e.rd F.PWR_STATUS_CODE = 2 ∧ Frame [0x10004] s.dev e)) ∧
  (s.dev.pstate ≠ 0 → s.dev.pstate ≠ 2 → Completes .pwrIdle s (fun e => e.rd F.PWR_STATUS_CODE = 1 ∧ Frame [0x10004] s.dev e)) ∧
  (s.dev.pstate = 2 ∨ s.dev.pstate = 3 →
    (s.dev.quiet = true → s.dev.rd F.VID_STATUS_STATE = 0 → Completes .pwrStandby s (fun e => StandbyEntered s.dev e ∧
      e.power = { s.dev.power with standbyCmd := true, startWait := false, step := 1, reefSince := 0, byCurrent := false, limit := 1600, paceClk := 0 })) ∧
    (s.dev.quiet = false ∨ s.dev.rd F.VID_STATUS_STATE ≠ 0 → Completes .pwrStandby s (fun e => e.rd F.PWR_STATUS_CODE = 2 ∧ Frame [0x10004] s.dev e))) ∧
  (s.dev.pstate ≠ 0 → s.dev.pstate ≠ 2 → s.dev.pstate ≠ 3 → Completes .pwrStandby s (fun e => e.rd F.PWR_STATUS_CODE = 1 ∧ Frame [0x10004] s.dev e)) ∧
  (s.dev.pstate ≠ 0 → ∀ r : PowerReading,
    (s.dev.reefStage ≠ 3 → Completes (.pwrResume r) s (fun e => e.rd F.PWR_STATUS_CODE = 1 ∧ Shows r s.dev e ∧ e.reefStage = s.dev.reefStage ∧ Frame meterRegs s.dev e)) ∧
    (s.dev.reefStage = 3 → 1600 < r.temp ∨ 23000 < r.ma → Completes (.pwrResume r) s (fun e => e.rd F.PWR_STATUS_CODE = 3 ∧ Shows r s.dev e ∧ e.reefStage = 3 ∧ Frame meterRegs s.dev e)) ∧
    (s.dev.reefStage = 3 → r.temp ≤ 1600 → r.ma ≤ 23000 → Completes (.pwrResume r) s (fun e => e.rd F.PWR_STATUS_CODE = 0 ∧ e.reefStage = 0 ∧ e.rd F.FMR_STATUS_REEF = 0 ∧ e.rd F.FMR_STATUS_HALTED = 0 ∧
      Raised e 0 14 ∧ Shows r s.dev e ∧ Frame (meterRegs ++ [0x100004] ++ (List.range 4).map (fun i => F.CLK_LO_STATUS_MUTED.at_ i 0)) s.dev e)) ∧
    (∀ b : Bool, s.dev.reefStage = 0 → (b = true → 25000 ≤ r.ma) → (b = false → 1600 ≤ r.temp) → Completes (.firstReef b r) s (fun e => StageEntered 1 b 1600 r s.dev e)) ∧
    (∀ b : Bool, s.dev.reefStage ≠ 0 ∨ (b = true ∧ r.ma < 25000) ∨ (b = false ∧ r.temp < 1600) → Completes (.firstReef b r) s (fun e => Shows r s.dev e ∧ e.reefStage = s.dev.reefStage ∧ Frame meterRegs s.dev e)) ∧
    (s.dev.reefStage < 2 → 1728 ≤ r.temp → Completes (.secondReef r) s (fun e => StageEntered 2 false 1728 r s.dev e)) ∧
    (2 ≤ s.dev.reefStage ∨ r.temp < 1728 → Completes (.secondReef r) s (fun e => Shows r s.dev e ∧ e.reefStage = s.dev.reefStage ∧ Frame meterRegs s.dev e)) ∧
    (s.dev.reefStage < 3 → 1840 ≤ r.temp ∨ 28500 < r.ma → s.dev.plainHalt → Completes (.reefHalt r) s (fun e => Halted s.dev e ∧ Shows r s.dev e)) ∧
    (3 ≤ s.dev.reefStage ∨ (r.temp < 1840 ∧ r.ma ≤ 28500) → Completes (.reefHalt r) s (fun e => Shows r s.dev e ∧ e.reefStage = s.dev.reefStage ∧ Frame meterRegs s.dev e)) ∧
    (s.dev.reefStage = 0 ∨ s.dev.reefStage = 3 → Completes (.shedPace r) s (fun e => e = s.dev) ∧ Completes (.escalation r) s (fun e => e = s.dev) ∧ Completes (.reefRelease r) s (fun e => e = s.dev)) ∧
    (s.dev.reefStage = 1 ∨ s.dev.reefStage = 2 → ∀ t : Nat, t = max s.dev.clk (s.dev.power.paceClk + (if s.dev.power.byCurrent then 1000000 else 250000000)) →
      ((if s.dev.power.byCurrent then 25000 ≤ r.ma else (s.dev.power.limit : Int) ≤ r.temp) → Completes (.shedPace r) s (fun e => e.clk = t ∧ Shows r s.dev e ∧ e.reefStage = s.dev.reefStage ∧
        ShedsNext s.dev.reefStage s.dev e ∧ (s.dev.shedOrder s.dev.reefStage ≠ [] → e.power = { s.dev.power with paceClk := t }))) ∧
      (¬(if s.dev.power.byCurrent then 25000 ≤ r.ma else (s.dev.power.limit : Int) ≤ r.temp) → Completes (.shedPace r) s (fun e => e.clk = t ∧ Shows r s.dev e ∧ Frame meterRegs s.dev (e.atTime s.dev)))) ∧
    (s.dev.reefStage = 1 ∨ s.dev.reefStage = 2 → s.dev.shedOrder s.dev.reefStage ≠ [] → Completes (.escalation r) s (fun e => Shows r s.dev e ∧ e.reefStage = s.dev.reefStage ∧ Frame meterRegs s.dev e)) ∧
    (s.dev.reefStage = 1 ∨ s.dev.reefStage = 2 → s.dev.shedOrder s.dev.reefStage = [] → ∀ t : Nat, t = max s.dev.clk (s.dev.power.paceClk + 2000000000) →
      (r.ma < 25000 → r.temp < s.dev.power.limit → Completes (.escalation r) s (fun e => e.clk = t ∧ Shows r s.dev e ∧ e.reefStage = s.dev.reefStage ∧ Frame meterRegs s.dev (e.atTime s.dev))) ∧
      (25000 ≤ r.ma ∨ (s.dev.power.limit : Int) ≤ r.temp → s.dev.reefStage = 1 → Completes (.escalation r) s (fun e => e.clk = t ∧ e.rd F.PWR_STATUS_ESCALATED = 1 ∧ Raised e 0 6 ∧
        StageEntered 2 s.dev.power.byCurrent s.dev.power.limit r s.dev e)) ∧
      (25000 ≤ r.ma ∨ (s.dev.power.limit : Int) ≤ r.temp → s.dev.reefStage = 2 → s.dev.plainHalt → Completes (.escalation r) s (fun e => e.clk = t ∧ e.rd F.PWR_STATUS_ESCALATED = 1 ∧ Raised e 0 6 ∧ Halted s.dev e))) ∧
    (s.dev.reefStage = 1 ∧ (1520 < r.temp ∨ 23000 < r.ma) ∨ s.dev.reefStage = 2 ∧ 1648 < r.temp → Completes (.reefRelease r) s (fun e => Shows r s.dev e ∧ e.reefStage = s.dev.reefStage ∧ Frame meterRegs s.dev e)) ∧
    (s.dev.reefStage = 1 ∧ r.temp ≤ 1520 ∧ r.ma ≤ 23000 ∨ s.dev.reefStage = 2 ∧ r.temp ≤ 1648 ∧ r.temp < 1600 ∧ r.ma < 25000 → Completes (.reefRelease r) s (fun e =>
      e.clk = max s.dev.clk (s.dev.power.reefSince + 10000000000) ∧ e.reefStage = 0 ∧ e.rd F.FMR_STATUS_REEF = 0 ∧ Raised e 0 4 ∧ Shows r s.dev e ∧
      Frame (0x100004 :: meterRegs) s.dev (e.atTime s.dev))) ∧
    (s.dev.reefStage = 2 → r.temp ≤ 1648 → 1600 ≤ r.temp ∨ 25000 ≤ r.ma → Completes (.reefRelease r) s (fun e =>
      e.clk = max s.dev.clk (s.dev.power.reefSince + 10000000000) ∧ Raised e 0 4 ∧ StageEntered 1 (decide (25000 ≤ r.ma)) 1600 r s.dev e)))

/-- The repair map, the store and SEC (R474, R475, R477–R481): the hourly measurement shows each region's deviation, warns where one falls to −2.00 % and stores the hours; RETURN removes a stored field
entry from the three copies, and is refused by name otherwise; host writes reach the host area alone; the oldest write of the store ends; owner keys and the policy change directly in UNOWNED alone,
LOCK needs a key, an authorization block is accepted when its signature, its counter and its fields pass and it does not revoke the last key, and then does its operation; subscriber keys are wrapped
into their slots and removed. Each of these commands completes from every state, a host command in RUN, and the first clause gives the state it leaves: ageingMeasure, returnUnit, nvsWrite,
enrolOwner, setPolicy, lock, applyAuth, enrolSub, eraseSub, nvsWriteDone. -/
def Obligations.StoreAndSecurityCommandsComplete : Prop :=
  (∀ s : State,
    (∀ (dev : List Int), exec (.ageingMeasure dev) s = .next { s with dev := s.dev.ageing dev }) ∧
    (∀ (ok : Bool), exec (.nvsWriteDone ok) s = .next { s with dev := s.dev.nvsWritten ok }) ∧
    (InRun s →
      exec .returnUnit s = .next { s with dev := s.dev.rprReturn } ∧
      (∀ (w : Fin 4096) (v : Word), exec (.nvsWrite w v) s = .next { s with dev := s.dev.nvsWrite w v }) ∧
      (∀ (k : Fin 4), exec (.enrolOwner k) s = .next { s with dev := s.dev.enrolOwner k }) ∧
      (∀ (dev : Bool), exec (.setPolicy dev) s = .next { s with dev := s.dev.setPolicy dev }) ∧
      exec .lock s = .next { s with dev := s.dev.secLock } ∧
      exec .applyAuth s = .next { s with dev := s.dev.applyAuth } ∧
      (∀ (k : Fin 64), exec (.enrolSub k) s = .next { s with dev := s.dev.enrolSub k }) ∧
      (∀ (k : Fin 64), exec (.eraseSub k) s = .next { s with dev := s.dev.eraseSub k }))) ∧
  ∀ s : State,
  (∀ l : List Int, s.dev.pstate = 0 → Completes (.ageingMeasure l) s (fun e => e = s.dev)) ∧
  (∀ (l : List Int) (b : Nat), s.dev.pstate ≠ 0 → l.length = 32 → b = hoursBin (s.dev.rdInt F.PWR_DIE_TEMP_TEMP) → Completes (.ageingMeasure l) s (fun e =>
    (∀ k : Fin 32, e.rd F.PWR_AGE_DEV k = unsigned 16 (l.getD k 0) ∧ e.rd F.PWR_AGE_WARN k = (if l.getD k 0 ≤ -200 then 1 else 0) ∧
      (l.getD k 0 ≤ -200 → s.dev.rd F.PWR_AGE_WARN k = 0 → Raised e 0 12)) ∧
    e.rd F.PWR_HOURS_HOURS b = min (2 ^ 32 - 1) (s.dev.rd F.PWR_HOURS_HOURS b + 1) ∧ (∀ k : Fin 8, e.nvs.bytes (hoursAt + 4 * k) 4 = leBytes 4 (e.rd F.PWR_HOURS_HOURS k)) ∧
    (∀ a, a < hoursAt ∨ hoursAt + 32 ≤ a → e.nvs.byte a = s.dev.nvs.byte a) ∧
    Frame (F.PWR_HOURS_HOURS.at_ b 0 :: (List.range 32).map (fun k => F.PWR_AGE_DEV.at_ k 0)) s.dev { e with nvs := s.dev.nvs })) ∧
  (s.dev.nvsBusy = [] → ∀ ok : Bool, Completes (.nvsWriteDone ok) s (fun e => e = s.dev)) ∧
  (∀ (o : Nat) (old : List Byte) (t : List (Nat × List Byte)), s.dev.nvsBusy = (o, old) :: t →
    Completes (.nvsWriteDone true) s (fun e => e.nvsBusy = t ∧ e.nvs = s.dev.nvs ∧ (t = [] → e.rd F.NVS_STATUS_BUSY = 0 ∧ e.repair = { s.dev.repair with rewriting := false }) ∧
      (t ≠ [] → { e with nvsBusy := s.dev.nvsBusy } = s.dev) ∧ Frame [0x28004] s.dev { e with nvsBusy := s.dev.nvsBusy, repair := s.dev.repair }) ∧
    Completes (.nvsWriteDone false) s (fun e => e.nvsBusy = t ∧ e.rd F.NVS_STATUS_WRITE_ERR = 1 ∧ (∀ a, a < o ∨ o + 4 * max 1 ((old.length + 3) / 4) ≤ a → e.nvs.byte a = s.dev.nvs.byte a) ∧
      (t = [] → e.rd F.NVS_STATUS_BUSY = 0 ∧ e.repair = { s.dev.repair with rewriting := false }) ∧
      Frame [0x28004] s.dev { e with nvsBusy := s.dev.nvsBusy, nvs := s.dev.nvs, repair := s.dev.repair, freeCtr := s.dev.freeCtr })) ∧
  (s.dev.pstate = 0 → Completes .returnUnit s (fun e => e = s.dev) ∧ (∀ (w : Fin 4096) (v : Word), Completes (.nvsWrite w v) s (fun e => e = s.dev)) ∧ (∀ k : Fin 4, Completes (.enrolOwner k) s (fun e => e = s.dev)) ∧
    (∀ b : Bool, Completes (.setPolicy b) s (fun e => e = s.dev)) ∧ Completes .lock s (fun e => e = s.dev) ∧ Completes .applyAuth s (fun e => e = s.dev) ∧
    ∀ k : Fin 64, Completes (.enrolSub k) s (fun e => e = s.dev) ∧ Completes (.eraseSub k) s (fun e => e = s.dev)) ∧
  (s.dev.pstate ≠ 0 → ∀ d : Dev, d = s.dev.wake →
    (∀ n : Nat, n = d.rd F.RPR_ENTRY_ENTRY 0 + d.rd F.RPR_ENTRY_ENTRY 1 * 2 ^ 32 →
      (d.rd F.RPR_STATUS_DONE = 0 → Completes .returnUnit s (fun e => e.rd F.RPR_STATUS_CODE = 1 ∧ Frame [0x20000] d e)) ∧
      (d.rd F.RPR_STATUS_DONE = 1 → d.repair.rewriting = true → Completes .returnUnit s (fun e => e.rd F.RPR_STATUS_CODE = 3 ∧ Frame [0x20000] d e)) ∧
      (d.rd F.RPR_STATUS_DONE = 1 → d.repair.rewriting = false → (∃ a ∈ d.repair.fuses, rprSame n a = true) → Completes .returnUnit s (fun e => e.rd F.RPR_STATUS_CODE = 4 ∧ Frame [0x20000] d e)) ∧
      (d.rd F.RPR_STATUS_DONE = 1 → d.repair.rewriting = false → (∀ a ∈ d.repair.fuses, rprSame n a = false) → (∀ a ∈ d.repair.field, rprSame n a = false) →
        Completes .returnUnit s (fun e => e.rd F.RPR_STATUS_CODE = 2 ∧ Frame [0x20000] d e)) ∧
      (d.rd F.RPR_STATUS_DONE = 1 → d.repair.rewriting = false → (∀ a ∈ d.repair.fuses, rprSame n a = false) → (∃ a ∈ d.repair.field, rprSame n a = true) → d.repair.field.length ≤ 1535 →
        Completes .returnUnit s (fun e => e.rd F.RPR_STATUS_CODE = 0 ∧ (∀ a, a ∈ e.repair.field ↔ a ∈ d.repair.field ∧ rprSame n a = false) ∧ e.repair.inForce = d.repair.inForce ∧ e.repair.fuses = d.repair.fuses ∧
          e.repair.seq = (d.repair.seq + 1) % 2 ^ 32 ∧ e.repair.rewriting = true ∧ e.rd F.RPR_SEQ_SEQ = e.repair.seq ∧ e.rd F.NVS_STATUS_BUSY = 1 ∧
          (∀ k : Fin 5, e.rd F.RPR_KIND_COUNT k = e.repair.field.countP (fun a => rprKind a == k.val + 1)) ∧
          (∀ o, o = 0 ∨ o = 0x4000 ∨ o = 0x8000 → e.nvs.bytes o (64 + 8 * e.repair.field.length) = repairCopy e.repair.field e.repair.seq) ∧
          (∀ a, 0xC000 ≤ a → e.nvs.byte a = d.nvs.byte a) ∧
          Frame ([0x20000, 0x20004, 0x28004] ++ (List.range 5).map (fun k => F.RPR_KIND_COUNT.at_ k 0)) d { e with repair := d.repair, nvs := d.nvs, nvsBusy := d.nvsBusy }))) ∧
    (∀ (w : Fin 4096) (v : Word) (o : Nat), o = d.rd F.NVS_PAGE_PAGE * 0x4000 + 4 * w →
      (o < 0x1000000 → Completes (.nvsWrite w v) s (fun e => e.rd F.NVS_WDROP_COUNT = min (2 ^ 32 - 1) (d.rd F.NVS_WDROP_COUNT + 1) ∧ Frame [0x28008] d e)) ∧
      (0x1000000 ≤ o → Completes (.nvsWrite w v) s (fun e => e.nvs.bytes o 4 = leBytes 4 v.toNat ∧ (∀ a, a < o ∨ o + 4 ≤ a → e.nvs.byte a = d.nvs.byte a) ∧ e.rd F.NVS_STATUS_BUSY = 1 ∧
        e.nvsBusy = d.nvsBusy ++ [(o, d.nvs.bytes o 4)] ∧ Frame [0x28004] d { e with nvs := d.nvs, nvsBusy := d.nvsBusy }))) ∧
    (∀ k : Fin 4, (d.sec.owned = true → Completes (.enrolOwner k) s (SecRefused 1 1 d)) ∧
      (d.sec.owned = false → Completes (.enrolOwner k) s (SecDone 0 { d.sec with owners := d.sec.owners.put k (d.secBytes F.SEC_HASH_HASH 12) } [] d))) ∧
    (∀ b : Bool, (d.sec.owned = true → Completes (.setPolicy b) s (SecRefused 1 1 d)) ∧ (d.sec.owned = false → Completes (.setPolicy b) s (SecDone 0 { d.sec with dev := b } [] d))) ∧
    (d.sec.owned = true → Completes .lock s (SecRefused 1 1 d)) ∧
    (d.sec.owned = false → d.sec.owners = Tab.empty → Completes .lock s (SecRefused 5 1 d)) ∧
    (d.sec.owned = false → d.sec.owners ≠ Tab.empty → Completes .lock s (SecDone 0 { d.sec with owned := true } [] d)) ∧
    (∀ b : List Byte, b = d.secBytes F.SEC_AUTH_BLOCK 128 →
      (¬ d.authSigned b → Completes .applyAuth s (SecRefused 2 3 d)) ∧
      (d.authSigned b → u b 8 8 ≤ d.sec.counter → Completes .applyAuth s (SecRefused 3 3 d)) ∧
      (d.authSigned b → d.sec.counter < u b 8 8 → ¬ d.authFields b → Completes .applyAuth s (SecRefused 4 3 d)) ∧
      (d.authSigned b → d.sec.counter < u b 8 8 → d.authFields b → d.authLastKey b → Completes .applyAuth s (SecRefused 5 3 d)) ∧
      (d.authSigned b → d.sec.counter < u b 8 8 → d.authFields b → ¬ d.authLastKey b →
        (u b 4 1 = 1 → Completes .applyAuth s (SecDone 2 { d.sec with counter := u b 8 8, owners := d.sec.owners.put (u b 5 1) (sub b 0x18 48) } [] d)) ∧
        (u b 4 1 = 2 → Completes .applyAuth s (SecDone 2 { d.sec with counter := u b 8 8, owners := d.sec.owners.erase (u b 5 1) } [] d)) ∧
        (u b 4 1 = 3 → Completes .applyAuth s (SecDone 2 { d.sec with counter := u b 8 8, dev := u b 6 1 == 1 } [] d)))) ∧
    (∀ k : Fin 64, Completes (.enrolSub k) s (fun e => Raised e 38 4 ∧ (∀ j : Fin 4, e.rd F.SEC_SUBKEY_KEY j = 0) ∧
        SecDone 0 { d.sec with wrapped := d.sec.wrapped.put k (keyWrap (deviceKeyBytes Config.deviceKey) (d.secBytes F.SEC_SUBKEY_KEY 4)), frameCtr := d.sec.frameCtr.erase k }
          ((List.range 4).map (fun j => F.SEC_SUBKEY_KEY.at_ j 0)) d e) ∧
      Completes (.eraseSub k) s (fun e => Raised e 38 4 ∧ SecDone 0 { d.sec with wrapped := d.sec.wrapped.erase k } [] d e)))

/-! ## Rules that hold of every command -/

/-- Every step, whatever the command, keeps the invariant of power and security (R449, R457, R469, R479, R480). Beside it: SEC never returns to UNOWNED (R479), the authorization counter never falls (R480), and
the factory repairs in fuses never change (R471). -/
def Obligations.EveryStepKeepsPowerAndSecurity : Prop :=
  ∀ s t : State, s.dev.Inv → step s = .next t →
    t.dev.Inv ∧ (s.dev.sec.owned = true → t.dev.sec.owned = true) ∧ s.dev.sec.counter ≤ t.dev.sec.counter ∧ t.dev.repair.fuses = s.dev.repair.fuses

/-- The state after reset has the invariant, waits in STARTING with nothing in its queue, and its registers read what the tables give: the engine's identity (R2), every attenuator at 31 dB (R73), every local
clock field unset with a step available (R287), REF OUT enabled (R121), every LO muted. -/
def Obligations.ResetHasTheInvariantAndTheTablesValues : Prop :=
  State.reset.dev.Inv ∧ State.reset.pending = [] ∧ State.reset.dev.pstate = 1 ∧ State.reset.dev.rd F.SYS_ID_ID = 0x4C580830 ∧
  (∀ n : Fin 8, State.reset.dev.rd F.CNV_ATTEN_ATTEN n = 31 ∧ State.reset.dev.cnvState n = 0) ∧ State.reset.dev.rd F.TIM_STATUS_UNSET = 1 ∧ State.reset.dev.rd F.TIM_STATUS_STEP_AVAIL = 1 ∧
  State.reset.dev.rd F.XTL_CTRL_REFOUT_EN = 1 ∧ (∀ i : Fin 4, State.reset.dev.rd F.CLK_LO_STATUS_MUTED i = 1 ∧ State.reset.dev.loState i = 0) ∧
  (∀ i : Fin 128, State.reset.dev.secState i = 0) ∧ State.reset.dev.localTime = 0 ∧ State.reset.dev.mem = Mem.empty

/-- R483: a BAR0 write narrower than 32 bits is discarded; it counts, its offset is captured when none is, and G0 source 7 is raised. It reaches the engine as R457, R458 and R460 say of every access: not in
STANDBY, waking it from IDLE outside the blocks that do not, and before DEVICE_READY only in the blocks served then, elsewhere it is counted in `SYS_EARLY_DROP`. -/
def Obligations.NarrowWritesAreDiscardedAndCounted : Prop :=
  ∀ (s : State) (off : BitVec 26),
  (s.dev.pstate ≠ 0 → (s.dev.pstate = 1 → servedEarly off.toNat = true) → ∀ d : Dev, d = (if staysIdle off.toNat then s.dev else s.dev.wake) → Completes (.narrowWrite off) s (fun e =>
    e.rd F.SYS_ACCESS_ERR_COUNT = min (2 ^ 32 - 1) (d.rd F.SYS_ACCESS_ERR_COUNT + 1) ∧
    (d.rd F.SYS_ACCESS_ADDR_VALID = 0 → e.rd F.SYS_ACCESS_ADDR_OFFSET = off.toNat ∧ e.rd F.SYS_ACCESS_ADDR_VALID = 1) ∧
    (d.rd F.SYS_ACCESS_ADDR_VALID = 1 → e.reg 0x10 = d.reg 0x10) ∧ Raised e 0 7 ∧ Frame [0xC, 0x10] d e)) ∧
  (s.dev.pstate = 1 → servedEarly off.toNat = false → Completes (.narrowWrite off) s (fun e =>
    e.rd F.SYS_EARLY_DROP_COUNT = min (2 ^ 32 - 1) (s.dev.rd F.SYS_EARLY_DROP_COUNT + 1) ∧ Raised e 0 8 ∧ Frame [0x14] s.dev e)) ∧
  (s.dev.pstate = 0 → Completes (.narrowWrite off) s (fun e => e = s.dev))

/-- R138: a write to the profile window is discarded and counted while the profile is RUNNING, WAITING or HELD, and takes effect at once when it is IDLE or ENDED, whichever write access makes it. In IDLE the
access wakes the engine (R458). -/
def Obligations.ProfileWindowWritesFollowTheProfileState : Prop :=
  ∀ (s : State) (i : Fin 4) (k : Fin 2048) (v : Word) (c : Instr), c = .profileWrite i k v ∨ c = .registerWrite (BitVec.ofNat 26 (F.CLK_LO_PROFILE_WORD.at_ i k)) v → s.dev.pstate ≠ 0 → ∀ d : Dev, d = s.dev.wake →
    (d.loState i = 1 ∨ d.loState i = 2 ∨ d.loState i = 3 → Completes c s (fun e => e.rd F.CLK_LO_WDROP_COUNT i = min (2 ^ 32 - 1) (d.rd F.CLK_LO_WDROP_COUNT i + 1) ∧ Frame [F.CLK_LO_WDROP_COUNT.at_ i 0] d e)) ∧
    (d.loState i = 0 ∨ d.loState i = 4 → Completes c s (fun e => e.reg (F.CLK_LO_PROFILE_WORD.at_ i k) = v ∧ Frame [F.CLK_LO_PROFILE_WORD.at_ i k] d e))
end

