-- ==== Sys2Proof/Laws/Crypto.lean ====
section
/-! SUPPORT. Lengths of what AES, its key wrap and AES-CMAC give (R392, R481). -/

namespace Sys2Proof.Machine

theorem aesExpand_words (nk : Nat) (h : 0 < nk) : ∀ (n rc : Nat) (w : List (List Nat)), nk ≤ w.length → (∀ x ∈ w, x.length = 4) →
    (aesExpand nk n rc w).length = w.length + n ∧ ∀ x ∈ aesExpand nk n rc w, x.length = 4
  | 0, _, w, _, hw => ⟨rfl, hw⟩
  | n + 1, rc, w, hn, hw => by
    unfold aesExpand
    have hd : (w.headD []).length = 4 := by
      cases w with
      | nil => simp at hn; omega
      | cons a t => exact hw a (by simp)
    have hg : (w.getD (nk - 1) []).length = 4 := by
      have : nk - 1 < w.length := by omega
      rw [List.getD_eq_getElem _ _ this]
      exact hw _ (List.getElem_mem this)
    have ht : ∀ rcon : Nat, (if w.length % nk = 0 then
        match ((w.headD []).drop 1 ++ (w.headD []).take 1).map sbox with
        | a :: u => (a ^^^ rcon) :: u
        | [] => []
      else if nk > 6 && w.length % nk == 4 then (w.headD []).map sbox else w.headD []).length = 4 := by
      intro rcon
      split
      · have hl : (((w.headD []).drop 1 ++ (w.headD []).take 1).map sbox).length = 4 := by
          rw [List.length_map, List.length_append, List.length_drop, List.length_take, hd]; decide
        split
        · next a u e => rw [e] at hl; simpa using hl
        · next e => rw [e] at hl; simp at hl
      · split
        · rw [List.length_map, hd]
        · exact hd
    have := aesExpand_words nk h n (if w.length % nk = 0 then xtime rc else rc)
      ((((if w.length % nk = 0 then
        match ((w.headD []).drop 1 ++ (w.headD []).take 1).map sbox with
        | a :: u => (a ^^^ rc) :: u
        | [] => []
      else if nk > 6 && w.length % nk == 4 then (w.headD []).map sbox else w.headD []).zip (w.getD (nk - 1) [])).map (fun p => p.1 ^^^ p.2)) :: w)
      (by simp; omega) (by
        intro x hx
        rcases List.mem_cons.1 hx with rfl | hx
        · simp only [List.length_map, List.length_zip]
          have h1 := ht rc
          rw [h1, hg]; decide
        · exact hw x hx)
    exact ⟨this.1.trans (by simp; omega), this.2⟩

theorem aesKeys_length (key : List Byte) : (aesKeys key).length = key.length / 4 + 7 := by
  unfold aesKeys
  simp only [List.length_map, List.length_range]

/-- Each round key of a key of at least one word is 16 bytes. -/
theorem aesKeys_getD (key : List Byte) (h : 4 ≤ key.length) (r : Nat) (hr : r < key.length / 4 + 7) : ((aesKeys key).getD r []).length = 16 := by
  have hn : 0 < key.length / 4 := by omega
  have hw := aesExpand_words (key.length / 4) hn (4 * (key.length / 4 + 6 + 1) - key.length / 4) 1
    ((List.range (key.length / 4)).map (fun i => ((key.drop (4 * i)).take 4).map BitVec.toNat)).reverse (by simp) (by
      intro x hx
      simp only [List.mem_reverse, List.mem_map, List.mem_range] at hx
      obtain ⟨i, hi, rfl⟩ := hx
      rw [List.length_map, List.length_take, List.length_drop]; omega)
  rw [List.getD_eq_getElem _ _ (by rw [aesKeys_length]; exact hr)]
  unfold aesKeys
  simp only [List.length_map, List.length_range, List.length_reverse] at hw ⊢
  simp only [List.getElem_map, List.getElem_range, List.length_flatMap]
  have hj : ∀ j ∈ List.range 4, ((aesExpand (key.length / 4) (4 * (key.length / 4 + 6 + 1) - key.length / 4) 1
      ((List.range (key.length / 4)).map (fun i => ((key.drop (4 * i)).take 4).map BitVec.toNat)).reverse).reverse.getD (4 * r + j) []).length = 4 := by
    intro j hj
    rw [List.mem_range] at hj
    rw [List.getD_eq_getElem _ _ (by rw [List.length_reverse, hw.1]; omega)]
    exact hw.2 _ (List.mem_reverse.1 (List.getElem_mem _))
  rw [List.map_congr_left hj]; decide

/-- Encryption gives 16 bytes. -/
theorem aesEnc_length (key blk : List Byte) (h : 4 ≤ key.length) : (aesEnc key blk).length = 16 := by
  unfold aesEnc xorRow aesShift
  simp only [List.length_map, List.length_zip, List.length_range, aesKeys_length]
  rw [aesKeys_getD key h _ (by omega)]; decide
/-- Decryption gives 16 bytes. -/
theorem aesDec_length (key blk : List Byte) (h : 4 ≤ key.length) : (aesDec key blk).length = 16 := by
  unfold aesDec xorRow aesShift
  simp only [List.length_map, List.length_zip, List.length_range]
  rw [aesKeys_getD key h _ (by omega)]; decide
/-- A check code is 16 bytes (R392). -/
theorem cmac_length (key m : List Byte) (h : 4 ≤ key.length) : (cmac key m).length = 16 := aesEnc_length key _ h
/-- An unwrapped key is 16 bytes (R481). -/
theorem keyUnwrap_length (kek w : List Byte) (h : 4 ≤ kek.length) : (keyUnwrap kek w).length = 16 := by
  unfold keyUnwrap
  simp only [List.foldl_cons, List.foldl_nil, unwrapStep, List.length_append, List.length_drop, aesDec_length _ _ h]

end Sys2Proof.Machine
end

