-- ==== Sys2Proof/Laws/State.lean ====
section
/-! SUPPORT. What each update of the engine leaves alone, field by field, true by rfl; and the same of an interrupt event, which moves
registers, interrupt state and wires only. -/
namespace Sys2Proof.Machine

@[simp] theorem Dev.setReg_regs0 (d : Dev) (off : Nat) (w : Word) : (d.setReg off w).regs0 = d.regs0 := rfl
@[simp] theorem Dev.setReg_wide (d : Dev) (off : Nat) (w : Word) : (d.setReg off w).wide = d.wide := rfl
@[simp] theorem Dev.setReg_readData (d : Dev) (off : Nat) (w : Word) : (d.setReg off w).readData = d.readData := rfl
@[simp] theorem Dev.setReg_mem (d : Dev) (off : Nat) (w : Word) : (d.setReg off w).mem = d.mem := rfl
@[simp] theorem Dev.setReg_hostMem (d : Dev) (off : Nat) (w : Word) : (d.setReg off w).hostMem = d.hostMem := rfl
@[simp] theorem Dev.setReg_nvs (d : Dev) (off : Nat) (w : Word) : (d.setReg off w).nvs = d.nvs := rfl
@[simp] theorem Dev.setReg_clk (d : Dev) (off : Nat) (w : Word) : (d.setReg off w).clk = d.clk := rfl
@[simp] theorem Dev.setReg_localTime (d : Dev) (off : Nat) (w : Word) : (d.setReg off w).localTime = d.localTime := rfl
@[simp] theorem Dev.setReg_inputs (d : Dev) (off : Nat) (w : Word) : (d.setReg off w).inputs = d.inputs := rfl
@[simp] theorem Dev.setReg_sections (d : Dev) (off : Nat) (w : Word) : (d.setReg off w).sections = d.sections := rfl
@[simp] theorem Dev.setReg_maps (d : Dev) (off : Nat) (w : Word) : (d.setReg off w).maps = d.maps := rfl
@[simp] theorem Dev.setReg_slots (d : Dev) (off : Nat) (w : Word) : (d.setReg off w).slots = d.slots := rfl
@[simp] theorem Dev.setReg_loads (d : Dev) (off : Nat) (w : Word) : (d.setReg off w).loads = d.loads := rfl
@[simp] theorem Dev.setReg_runs (d : Dev) (off : Nat) (w : Word) : (d.setReg off w).runs = d.runs := rfl
@[simp] theorem Dev.setReg_rings (d : Dev) (off : Nat) (w : Word) : (d.setReg off w).rings = d.rings := rfl
@[simp] theorem Dev.setReg_movErr (d : Dev) (off : Nat) (w : Word) : (d.setReg off w).movErr = d.movErr := rfl
@[simp] theorem Dev.setReg_nvsBusy (d : Dev) (off : Nat) (w : Word) : (d.setReg off w).nvsBusy = d.nvsBusy := rfl
@[simp] theorem Dev.setReg_halyards (d : Dev) (off : Nat) (w : Word) : (d.setReg off w).halyards = d.halyards := rfl
@[simp] theorem Dev.setReg_dram (d : Dev) (off : Nat) (w : Word) : (d.setReg off w).dram = d.dram := rfl
@[simp] theorem Dev.setReg_irq (d : Dev) (off : Nat) (w : Word) : (d.setReg off w).irq = d.irq := rfl
@[simp] theorem Dev.setReg_hka (d : Dev) (off : Nat) (w : Word) : (d.setReg off w).hka = d.hka := rfl
@[simp] theorem Dev.setReg_power (d : Dev) (off : Nat) (w : Word) : (d.setReg off w).power = d.power := rfl
@[simp] theorem Dev.setReg_repair (d : Dev) (off : Nat) (w : Word) : (d.setReg off w).repair = d.repair := rfl
@[simp] theorem Dev.setReg_sec (d : Dev) (off : Nat) (w : Word) : (d.setReg off w).sec = d.sec := rfl
@[simp] theorem Dev.setReg_cal (d : Dev) (off : Nat) (w : Word) : (d.setReg off w).cal = d.cal := rfl
@[simp] theorem Dev.setReg_clocks (d : Dev) (off : Nat) (w : Word) : (d.setReg off w).clocks = d.clocks := rfl
@[simp] theorem Dev.setReg_sortMem (d : Dev) (off : Nat) (w : Word) : (d.setReg off w).sortMem = d.sortMem := rfl
@[simp] theorem Dev.setReg_conflicts (d : Dev) (off : Nat) (w : Word) : (d.setReg off w).conflicts = d.conflicts := rfl
@[simp] theorem Dev.setReg_chase (d : Dev) (off : Nat) (w : Word) : (d.setReg off w).chase = d.chase := rfl
@[simp] theorem Dev.setReg_chans (d : Dev) (off : Nat) (w : Word) : (d.setReg off w).chans = d.chans := rfl
@[simp] theorem Dev.setReg_xfrms (d : Dev) (off : Nat) (w : Word) : (d.setReg off w).xfrms = d.xfrms := rfl
@[simp] theorem Dev.setReg_windows (d : Dev) (off : Nat) (w : Word) : (d.setReg off w).windows = d.windows := rfl
@[simp] theorem Dev.setReg_traces (d : Dev) (off : Nat) (w : Word) : (d.setReg off w).traces = d.traces := rfl
@[simp] theorem Dev.setReg_cores (d : Dev) (off : Nat) (w : Word) : (d.setReg off w).cores = d.cores := rfl
@[simp] theorem Dev.setReg_trigs (d : Dev) (off : Nat) (w : Word) : (d.setReg off w).trigs = d.trigs := rfl
@[simp] theorem Dev.setReg_rawcs (d : Dev) (off : Nat) (w : Word) : (d.setReg off w).rawcs = d.rawcs := rfl
@[simp] theorem Dev.setReg_axes (d : Dev) (off : Nat) (w : Word) : (d.setReg off w).axes = d.axes := rfl
@[simp] theorem Dev.setReg_cues (d : Dev) (off : Nat) (w : Word) : (d.setReg off w).cues = d.cues := rfl
@[simp] theorem Dev.setReg_time (d : Dev) (off : Nat) (w : Word) : (d.setReg off w).time = d.time := rfl
@[simp] theorem Dev.setReg_sheets (d : Dev) (off : Nat) (w : Word) : (d.setReg off w).sheets = d.sheets := rfl
@[simp] theorem Dev.setReg_links (d : Dev) (off : Nat) (w : Word) : (d.setReg off w).links = d.links := rfl
@[simp] theorem Dev.setReg_denses (d : Dev) (off : Nat) (w : Word) : (d.setReg off w).denses = d.denses := rfl
@[simp] theorem Dev.setReg_vid (d : Dev) (off : Nat) (w : Word) : (d.setReg off w).vid = d.vid := rfl
@[simp] theorem Dev.setReg_stay (d : Dev) (off : Nat) (w : Word) : (d.setReg off w).stay = d.stay := rfl
@[simp] theorem Dev.setReg_out (d : Dev) (off : Nat) (w : Word) : (d.setReg off w).out = d.out := rfl
@[simp] theorem Dev.setReg_freeCtr (d : Dev) (off : Nat) (w : Word) : (d.setReg off w).freeCtr = d.freeCtr := rfl

@[simp] theorem Dev.setReg0_regs (d : Dev) (off : Nat) (w : Word) : (d.setReg0 off w).regs = d.regs := rfl
@[simp] theorem Dev.setReg0_wide (d : Dev) (off : Nat) (w : Word) : (d.setReg0 off w).wide = d.wide := rfl
@[simp] theorem Dev.setReg0_readData (d : Dev) (off : Nat) (w : Word) : (d.setReg0 off w).readData = d.readData := rfl
@[simp] theorem Dev.setReg0_mem (d : Dev) (off : Nat) (w : Word) : (d.setReg0 off w).mem = d.mem := rfl
@[simp] theorem Dev.setReg0_hostMem (d : Dev) (off : Nat) (w : Word) : (d.setReg0 off w).hostMem = d.hostMem := rfl
@[simp] theorem Dev.setReg0_nvs (d : Dev) (off : Nat) (w : Word) : (d.setReg0 off w).nvs = d.nvs := rfl
@[simp] theorem Dev.setReg0_clk (d : Dev) (off : Nat) (w : Word) : (d.setReg0 off w).clk = d.clk := rfl
@[simp] theorem Dev.setReg0_localTime (d : Dev) (off : Nat) (w : Word) : (d.setReg0 off w).localTime = d.localTime := rfl
@[simp] theorem Dev.setReg0_inputs (d : Dev) (off : Nat) (w : Word) : (d.setReg0 off w).inputs = d.inputs := rfl
@[simp] theorem Dev.setReg0_sections (d : Dev) (off : Nat) (w : Word) : (d.setReg0 off w).sections = d.sections := rfl
@[simp] theorem Dev.setReg0_maps (d : Dev) (off : Nat) (w : Word) : (d.setReg0 off w).maps = d.maps := rfl
@[simp] theorem Dev.setReg0_slots (d : Dev) (off : Nat) (w : Word) : (d.setReg0 off w).slots = d.slots := rfl
@[simp] theorem Dev.setReg0_loads (d : Dev) (off : Nat) (w : Word) : (d.setReg0 off w).loads = d.loads := rfl
@[simp] theorem Dev.setReg0_runs (d : Dev) (off : Nat) (w : Word) : (d.setReg0 off w).runs = d.runs := rfl
@[simp] theorem Dev.setReg0_rings (d : Dev) (off : Nat) (w : Word) : (d.setReg0 off w).rings = d.rings := rfl
@[simp] theorem Dev.setReg0_movErr (d : Dev) (off : Nat) (w : Word) : (d.setReg0 off w).movErr = d.movErr := rfl
@[simp] theorem Dev.setReg0_nvsBusy (d : Dev) (off : Nat) (w : Word) : (d.setReg0 off w).nvsBusy = d.nvsBusy := rfl
@[simp] theorem Dev.setReg0_halyards (d : Dev) (off : Nat) (w : Word) : (d.setReg0 off w).halyards = d.halyards := rfl
@[simp] theorem Dev.setReg0_dram (d : Dev) (off : Nat) (w : Word) : (d.setReg0 off w).dram = d.dram := rfl
@[simp] theorem Dev.setReg0_irq (d : Dev) (off : Nat) (w : Word) : (d.setReg0 off w).irq = d.irq := rfl
@[simp] theorem Dev.setReg0_hka (d : Dev) (off : Nat) (w : Word) : (d.setReg0 off w).hka = d.hka := rfl
@[simp] theorem Dev.setReg0_power (d : Dev) (off : Nat) (w : Word) : (d.setReg0 off w).power = d.power := rfl
@[simp] theorem Dev.setReg0_repair (d : Dev) (off : Nat) (w : Word) : (d.setReg0 off w).repair = d.repair := rfl
@[simp] theorem Dev.setReg0_sec (d : Dev) (off : Nat) (w : Word) : (d.setReg0 off w).sec = d.sec := rfl
@[simp] theorem Dev.setReg0_cal (d : Dev) (off : Nat) (w : Word) : (d.setReg0 off w).cal = d.cal := rfl
@[simp] theorem Dev.setReg0_clocks (d : Dev) (off : Nat) (w : Word) : (d.setReg0 off w).clocks = d.clocks := rfl
@[simp] theorem Dev.setReg0_sortMem (d : Dev) (off : Nat) (w : Word) : (d.setReg0 off w).sortMem = d.sortMem := rfl
@[simp] theorem Dev.setReg0_conflicts (d : Dev) (off : Nat) (w : Word) : (d.setReg0 off w).conflicts = d.conflicts := rfl
@[simp] theorem Dev.setReg0_chase (d : Dev) (off : Nat) (w : Word) : (d.setReg0 off w).chase = d.chase := rfl
@[simp] theorem Dev.setReg0_chans (d : Dev) (off : Nat) (w : Word) : (d.setReg0 off w).chans = d.chans := rfl
@[simp] theorem Dev.setReg0_xfrms (d : Dev) (off : Nat) (w : Word) : (d.setReg0 off w).xfrms = d.xfrms := rfl
@[simp] theorem Dev.setReg0_windows (d : Dev) (off : Nat) (w : Word) : (d.setReg0 off w).windows = d.windows := rfl
@[simp] theorem Dev.setReg0_traces (d : Dev) (off : Nat) (w : Word) : (d.setReg0 off w).traces = d.traces := rfl
@[simp] theorem Dev.setReg0_cores (d : Dev) (off : Nat) (w : Word) : (d.setReg0 off w).cores = d.cores := rfl
@[simp] theorem Dev.setReg0_trigs (d : Dev) (off : Nat) (w : Word) : (d.setReg0 off w).trigs = d.trigs := rfl
@[simp] theorem Dev.setReg0_rawcs (d : Dev) (off : Nat) (w : Word) : (d.setReg0 off w).rawcs = d.rawcs := rfl
@[simp] theorem Dev.setReg0_axes (d : Dev) (off : Nat) (w : Word) : (d.setReg0 off w).axes = d.axes := rfl
@[simp] theorem Dev.setReg0_cues (d : Dev) (off : Nat) (w : Word) : (d.setReg0 off w).cues = d.cues := rfl
@[simp] theorem Dev.setReg0_time (d : Dev) (off : Nat) (w : Word) : (d.setReg0 off w).time = d.time := rfl
@[simp] theorem Dev.setReg0_sheets (d : Dev) (off : Nat) (w : Word) : (d.setReg0 off w).sheets = d.sheets := rfl
@[simp] theorem Dev.setReg0_links (d : Dev) (off : Nat) (w : Word) : (d.setReg0 off w).links = d.links := rfl
@[simp] theorem Dev.setReg0_denses (d : Dev) (off : Nat) (w : Word) : (d.setReg0 off w).denses = d.denses := rfl
@[simp] theorem Dev.setReg0_vid (d : Dev) (off : Nat) (w : Word) : (d.setReg0 off w).vid = d.vid := rfl
@[simp] theorem Dev.setReg0_stay (d : Dev) (off : Nat) (w : Word) : (d.setReg0 off w).stay = d.stay := rfl
@[simp] theorem Dev.setReg0_out (d : Dev) (off : Nat) (w : Word) : (d.setReg0 off w).out = d.out := rfl
@[simp] theorem Dev.setReg0_freeCtr (d : Dev) (off : Nat) (w : Word) : (d.setReg0 off w).freeCtr = d.freeCtr := rfl

@[simp] theorem Dev.wr_regs0 (d : Dev) (f : Fld) (v n m : Nat) : (d.wr f v n m).regs0 = d.regs0 := rfl
@[simp] theorem Dev.wr_wide (d : Dev) (f : Fld) (v n m : Nat) : (d.wr f v n m).wide = d.wide := rfl
@[simp] theorem Dev.wr_readData (d : Dev) (f : Fld) (v n m : Nat) : (d.wr f v n m).readData = d.readData := rfl
@[simp] theorem Dev.wr_mem (d : Dev) (f : Fld) (v n m : Nat) : (d.wr f v n m).mem = d.mem := rfl
@[simp] theorem Dev.wr_hostMem (d : Dev) (f : Fld) (v n m : Nat) : (d.wr f v n m).hostMem = d.hostMem := rfl
@[simp] theorem Dev.wr_nvs (d : Dev) (f : Fld) (v n m : Nat) : (d.wr f v n m).nvs = d.nvs := rfl
@[simp] theorem Dev.wr_clk (d : Dev) (f : Fld) (v n m : Nat) : (d.wr f v n m).clk = d.clk := rfl
@[simp] theorem Dev.wr_localTime (d : Dev) (f : Fld) (v n m : Nat) : (d.wr f v n m).localTime = d.localTime := rfl
@[simp] theorem Dev.wr_inputs (d : Dev) (f : Fld) (v n m : Nat) : (d.wr f v n m).inputs = d.inputs := rfl
@[simp] theorem Dev.wr_sections (d : Dev) (f : Fld) (v n m : Nat) : (d.wr f v n m).sections = d.sections := rfl
@[simp] theorem Dev.wr_maps (d : Dev) (f : Fld) (v n m : Nat) : (d.wr f v n m).maps = d.maps := rfl
@[simp] theorem Dev.wr_slots (d : Dev) (f : Fld) (v n m : Nat) : (d.wr f v n m).slots = d.slots := rfl
@[simp] theorem Dev.wr_loads (d : Dev) (f : Fld) (v n m : Nat) : (d.wr f v n m).loads = d.loads := rfl
@[simp] theorem Dev.wr_runs (d : Dev) (f : Fld) (v n m : Nat) : (d.wr f v n m).runs = d.runs := rfl
@[simp] theorem Dev.wr_rings (d : Dev) (f : Fld) (v n m : Nat) : (d.wr f v n m).rings = d.rings := rfl
@[simp] theorem Dev.wr_movErr (d : Dev) (f : Fld) (v n m : Nat) : (d.wr f v n m).movErr = d.movErr := rfl
@[simp] theorem Dev.wr_nvsBusy (d : Dev) (f : Fld) (v n m : Nat) : (d.wr f v n m).nvsBusy = d.nvsBusy := rfl
@[simp] theorem Dev.wr_halyards (d : Dev) (f : Fld) (v n m : Nat) : (d.wr f v n m).halyards = d.halyards := rfl
@[simp] theorem Dev.wr_dram (d : Dev) (f : Fld) (v n m : Nat) : (d.wr f v n m).dram = d.dram := rfl
@[simp] theorem Dev.wr_irq (d : Dev) (f : Fld) (v n m : Nat) : (d.wr f v n m).irq = d.irq := rfl
@[simp] theorem Dev.wr_hka (d : Dev) (f : Fld) (v n m : Nat) : (d.wr f v n m).hka = d.hka := rfl
@[simp] theorem Dev.wr_power (d : Dev) (f : Fld) (v n m : Nat) : (d.wr f v n m).power = d.power := rfl
@[simp] theorem Dev.wr_repair (d : Dev) (f : Fld) (v n m : Nat) : (d.wr f v n m).repair = d.repair := rfl
@[simp] theorem Dev.wr_sec (d : Dev) (f : Fld) (v n m : Nat) : (d.wr f v n m).sec = d.sec := rfl
@[simp] theorem Dev.wr_cal (d : Dev) (f : Fld) (v n m : Nat) : (d.wr f v n m).cal = d.cal := rfl
@[simp] theorem Dev.wr_clocks (d : Dev) (f : Fld) (v n m : Nat) : (d.wr f v n m).clocks = d.clocks := rfl
@[simp] theorem Dev.wr_sortMem (d : Dev) (f : Fld) (v n m : Nat) : (d.wr f v n m).sortMem = d.sortMem := rfl
@[simp] theorem Dev.wr_conflicts (d : Dev) (f : Fld) (v n m : Nat) : (d.wr f v n m).conflicts = d.conflicts := rfl
@[simp] theorem Dev.wr_chase (d : Dev) (f : Fld) (v n m : Nat) : (d.wr f v n m).chase = d.chase := rfl
@[simp] theorem Dev.wr_chans (d : Dev) (f : Fld) (v n m : Nat) : (d.wr f v n m).chans = d.chans := rfl
@[simp] theorem Dev.wr_xfrms (d : Dev) (f : Fld) (v n m : Nat) : (d.wr f v n m).xfrms = d.xfrms := rfl
@[simp] theorem Dev.wr_windows (d : Dev) (f : Fld) (v n m : Nat) : (d.wr f v n m).windows = d.windows := rfl
@[simp] theorem Dev.wr_traces (d : Dev) (f : Fld) (v n m : Nat) : (d.wr f v n m).traces = d.traces := rfl
@[simp] theorem Dev.wr_cores (d : Dev) (f : Fld) (v n m : Nat) : (d.wr f v n m).cores = d.cores := rfl
@[simp] theorem Dev.wr_trigs (d : Dev) (f : Fld) (v n m : Nat) : (d.wr f v n m).trigs = d.trigs := rfl
@[simp] theorem Dev.wr_rawcs (d : Dev) (f : Fld) (v n m : Nat) : (d.wr f v n m).rawcs = d.rawcs := rfl
@[simp] theorem Dev.wr_axes (d : Dev) (f : Fld) (v n m : Nat) : (d.wr f v n m).axes = d.axes := rfl
@[simp] theorem Dev.wr_cues (d : Dev) (f : Fld) (v n m : Nat) : (d.wr f v n m).cues = d.cues := rfl
@[simp] theorem Dev.wr_time (d : Dev) (f : Fld) (v n m : Nat) : (d.wr f v n m).time = d.time := rfl
@[simp] theorem Dev.wr_sheets (d : Dev) (f : Fld) (v n m : Nat) : (d.wr f v n m).sheets = d.sheets := rfl
@[simp] theorem Dev.wr_links (d : Dev) (f : Fld) (v n m : Nat) : (d.wr f v n m).links = d.links := rfl
@[simp] theorem Dev.wr_denses (d : Dev) (f : Fld) (v n m : Nat) : (d.wr f v n m).denses = d.denses := rfl
@[simp] theorem Dev.wr_vid (d : Dev) (f : Fld) (v n m : Nat) : (d.wr f v n m).vid = d.vid := rfl
@[simp] theorem Dev.wr_stay (d : Dev) (f : Fld) (v n m : Nat) : (d.wr f v n m).stay = d.stay := rfl
@[simp] theorem Dev.wr_out (d : Dev) (f : Fld) (v n m : Nat) : (d.wr f v n m).out = d.out := rfl
@[simp] theorem Dev.wr_freeCtr (d : Dev) (f : Fld) (v n m : Nat) : (d.wr f v n m).freeCtr = d.freeCtr := rfl

@[simp] theorem Dev.inc_regs0 (d : Dev) (f : Fld) (n m k : Nat) : (d.inc f n m k).regs0 = d.regs0 := rfl
@[simp] theorem Dev.inc_wide (d : Dev) (f : Fld) (n m k : Nat) : (d.inc f n m k).wide = d.wide := rfl
@[simp] theorem Dev.inc_readData (d : Dev) (f : Fld) (n m k : Nat) : (d.inc f n m k).readData = d.readData := rfl
@[simp] theorem Dev.inc_mem (d : Dev) (f : Fld) (n m k : Nat) : (d.inc f n m k).mem = d.mem := rfl
@[simp] theorem Dev.inc_hostMem (d : Dev) (f : Fld) (n m k : Nat) : (d.inc f n m k).hostMem = d.hostMem := rfl
@[simp] theorem Dev.inc_nvs (d : Dev) (f : Fld) (n m k : Nat) : (d.inc f n m k).nvs = d.nvs := rfl
@[simp] theorem Dev.inc_clk (d : Dev) (f : Fld) (n m k : Nat) : (d.inc f n m k).clk = d.clk := rfl
@[simp] theorem Dev.inc_localTime (d : Dev) (f : Fld) (n m k : Nat) : (d.inc f n m k).localTime = d.localTime := rfl
@[simp] theorem Dev.inc_inputs (d : Dev) (f : Fld) (n m k : Nat) : (d.inc f n m k).inputs = d.inputs := rfl
@[simp] theorem Dev.inc_sections (d : Dev) (f : Fld) (n m k : Nat) : (d.inc f n m k).sections = d.sections := rfl
@[simp] theorem Dev.inc_maps (d : Dev) (f : Fld) (n m k : Nat) : (d.inc f n m k).maps = d.maps := rfl
@[simp] theorem Dev.inc_slots (d : Dev) (f : Fld) (n m k : Nat) : (d.inc f n m k).slots = d.slots := rfl
@[simp] theorem Dev.inc_loads (d : Dev) (f : Fld) (n m k : Nat) : (d.inc f n m k).loads = d.loads := rfl
@[simp] theorem Dev.inc_runs (d : Dev) (f : Fld) (n m k : Nat) : (d.inc f n m k).runs = d.runs := rfl
@[simp] theorem Dev.inc_rings (d : Dev) (f : Fld) (n m k : Nat) : (d.inc f n m k).rings = d.rings := rfl
@[simp] theorem Dev.inc_movErr (d : Dev) (f : Fld) (n m k : Nat) : (d.inc f n m k).movErr = d.movErr := rfl
@[simp] theorem Dev.inc_nvsBusy (d : Dev) (f : Fld) (n m k : Nat) : (d.inc f n m k).nvsBusy = d.nvsBusy := rfl
@[simp] theorem Dev.inc_halyards (d : Dev) (f : Fld) (n m k : Nat) : (d.inc f n m k).halyards = d.halyards := rfl
@[simp] theorem Dev.inc_dram (d : Dev) (f : Fld) (n m k : Nat) : (d.inc f n m k).dram = d.dram := rfl
@[simp] theorem Dev.inc_irq (d : Dev) (f : Fld) (n m k : Nat) : (d.inc f n m k).irq = d.irq := rfl
@[simp] theorem Dev.inc_hka (d : Dev) (f : Fld) (n m k : Nat) : (d.inc f n m k).hka = d.hka := rfl
@[simp] theorem Dev.inc_power (d : Dev) (f : Fld) (n m k : Nat) : (d.inc f n m k).power = d.power := rfl
@[simp] theorem Dev.inc_repair (d : Dev) (f : Fld) (n m k : Nat) : (d.inc f n m k).repair = d.repair := rfl
@[simp] theorem Dev.inc_sec (d : Dev) (f : Fld) (n m k : Nat) : (d.inc f n m k).sec = d.sec := rfl
@[simp] theorem Dev.inc_cal (d : Dev) (f : Fld) (n m k : Nat) : (d.inc f n m k).cal = d.cal := rfl
@[simp] theorem Dev.inc_clocks (d : Dev) (f : Fld) (n m k : Nat) : (d.inc f n m k).clocks = d.clocks := rfl
@[simp] theorem Dev.inc_sortMem (d : Dev) (f : Fld) (n m k : Nat) : (d.inc f n m k).sortMem = d.sortMem := rfl
@[simp] theorem Dev.inc_conflicts (d : Dev) (f : Fld) (n m k : Nat) : (d.inc f n m k).conflicts = d.conflicts := rfl
@[simp] theorem Dev.inc_chase (d : Dev) (f : Fld) (n m k : Nat) : (d.inc f n m k).chase = d.chase := rfl
@[simp] theorem Dev.inc_chans (d : Dev) (f : Fld) (n m k : Nat) : (d.inc f n m k).chans = d.chans := rfl
@[simp] theorem Dev.inc_xfrms (d : Dev) (f : Fld) (n m k : Nat) : (d.inc f n m k).xfrms = d.xfrms := rfl
@[simp] theorem Dev.inc_windows (d : Dev) (f : Fld) (n m k : Nat) : (d.inc f n m k).windows = d.windows := rfl
@[simp] theorem Dev.inc_traces (d : Dev) (f : Fld) (n m k : Nat) : (d.inc f n m k).traces = d.traces := rfl
@[simp] theorem Dev.inc_cores (d : Dev) (f : Fld) (n m k : Nat) : (d.inc f n m k).cores = d.cores := rfl
@[simp] theorem Dev.inc_trigs (d : Dev) (f : Fld) (n m k : Nat) : (d.inc f n m k).trigs = d.trigs := rfl
@[simp] theorem Dev.inc_rawcs (d : Dev) (f : Fld) (n m k : Nat) : (d.inc f n m k).rawcs = d.rawcs := rfl
@[simp] theorem Dev.inc_axes (d : Dev) (f : Fld) (n m k : Nat) : (d.inc f n m k).axes = d.axes := rfl
@[simp] theorem Dev.inc_cues (d : Dev) (f : Fld) (n m k : Nat) : (d.inc f n m k).cues = d.cues := rfl
@[simp] theorem Dev.inc_time (d : Dev) (f : Fld) (n m k : Nat) : (d.inc f n m k).time = d.time := rfl
@[simp] theorem Dev.inc_sheets (d : Dev) (f : Fld) (n m k : Nat) : (d.inc f n m k).sheets = d.sheets := rfl
@[simp] theorem Dev.inc_links (d : Dev) (f : Fld) (n m k : Nat) : (d.inc f n m k).links = d.links := rfl
@[simp] theorem Dev.inc_denses (d : Dev) (f : Fld) (n m k : Nat) : (d.inc f n m k).denses = d.denses := rfl
@[simp] theorem Dev.inc_vid (d : Dev) (f : Fld) (n m k : Nat) : (d.inc f n m k).vid = d.vid := rfl
@[simp] theorem Dev.inc_stay (d : Dev) (f : Fld) (n m k : Nat) : (d.inc f n m k).stay = d.stay := rfl
@[simp] theorem Dev.inc_out (d : Dev) (f : Fld) (n m k : Nat) : (d.inc f n m k).out = d.out := rfl
@[simp] theorem Dev.inc_freeCtr (d : Dev) (f : Fld) (n m k : Nat) : (d.inc f n m k).freeCtr = d.freeCtr := rfl

@[simp] theorem Dev.flag_regs0 (d : Dev) (f : Fld) (b : Bool) (n m : Nat) : (d.flag f b n m).regs0 = d.regs0 := rfl
@[simp] theorem Dev.flag_wide (d : Dev) (f : Fld) (b : Bool) (n m : Nat) : (d.flag f b n m).wide = d.wide := rfl
@[simp] theorem Dev.flag_readData (d : Dev) (f : Fld) (b : Bool) (n m : Nat) : (d.flag f b n m).readData = d.readData := rfl
@[simp] theorem Dev.flag_mem (d : Dev) (f : Fld) (b : Bool) (n m : Nat) : (d.flag f b n m).mem = d.mem := rfl
@[simp] theorem Dev.flag_hostMem (d : Dev) (f : Fld) (b : Bool) (n m : Nat) : (d.flag f b n m).hostMem = d.hostMem := rfl
@[simp] theorem Dev.flag_nvs (d : Dev) (f : Fld) (b : Bool) (n m : Nat) : (d.flag f b n m).nvs = d.nvs := rfl
@[simp] theorem Dev.flag_clk (d : Dev) (f : Fld) (b : Bool) (n m : Nat) : (d.flag f b n m).clk = d.clk := rfl
@[simp] theorem Dev.flag_localTime (d : Dev) (f : Fld) (b : Bool) (n m : Nat) : (d.flag f b n m).localTime = d.localTime := rfl
@[simp] theorem Dev.flag_inputs (d : Dev) (f : Fld) (b : Bool) (n m : Nat) : (d.flag f b n m).inputs = d.inputs := rfl
@[simp] theorem Dev.flag_sections (d : Dev) (f : Fld) (b : Bool) (n m : Nat) : (d.flag f b n m).sections = d.sections := rfl
@[simp] theorem Dev.flag_maps (d : Dev) (f : Fld) (b : Bool) (n m : Nat) : (d.flag f b n m).maps = d.maps := rfl
@[simp] theorem Dev.flag_slots (d : Dev) (f : Fld) (b : Bool) (n m : Nat) : (d.flag f b n m).slots = d.slots := rfl
@[simp] theorem Dev.flag_loads (d : Dev) (f : Fld) (b : Bool) (n m : Nat) : (d.flag f b n m).loads = d.loads := rfl
@[simp] theorem Dev.flag_runs (d : Dev) (f : Fld) (b : Bool) (n m : Nat) : (d.flag f b n m).runs = d.runs := rfl
@[simp] theorem Dev.flag_rings (d : Dev) (f : Fld) (b : Bool) (n m : Nat) : (d.flag f b n m).rings = d.rings := rfl
@[simp] theorem Dev.flag_movErr (d : Dev) (f : Fld) (b : Bool) (n m : Nat) : (d.flag f b n m).movErr = d.movErr := rfl
@[simp] theorem Dev.flag_nvsBusy (d : Dev) (f : Fld) (b : Bool) (n m : Nat) : (d.flag f b n m).nvsBusy = d.nvsBusy := rfl
@[simp] theorem Dev.flag_halyards (d : Dev) (f : Fld) (b : Bool) (n m : Nat) : (d.flag f b n m).halyards = d.halyards := rfl
@[simp] theorem Dev.flag_dram (d : Dev) (f : Fld) (b : Bool) (n m : Nat) : (d.flag f b n m).dram = d.dram := rfl
@[simp] theorem Dev.flag_irq (d : Dev) (f : Fld) (b : Bool) (n m : Nat) : (d.flag f b n m).irq = d.irq := rfl
@[simp] theorem Dev.flag_hka (d : Dev) (f : Fld) (b : Bool) (n m : Nat) : (d.flag f b n m).hka = d.hka := rfl
@[simp] theorem Dev.flag_power (d : Dev) (f : Fld) (b : Bool) (n m : Nat) : (d.flag f b n m).power = d.power := rfl
@[simp] theorem Dev.flag_repair (d : Dev) (f : Fld) (b : Bool) (n m : Nat) : (d.flag f b n m).repair = d.repair := rfl
@[simp] theorem Dev.flag_sec (d : Dev) (f : Fld) (b : Bool) (n m : Nat) : (d.flag f b n m).sec = d.sec := rfl
@[simp] theorem Dev.flag_cal (d : Dev) (f : Fld) (b : Bool) (n m : Nat) : (d.flag f b n m).cal = d.cal := rfl
@[simp] theorem Dev.flag_clocks (d : Dev) (f : Fld) (b : Bool) (n m : Nat) : (d.flag f b n m).clocks = d.clocks := rfl
@[simp] theorem Dev.flag_sortMem (d : Dev) (f : Fld) (b : Bool) (n m : Nat) : (d.flag f b n m).sortMem = d.sortMem := rfl
@[simp] theorem Dev.flag_conflicts (d : Dev) (f : Fld) (b : Bool) (n m : Nat) : (d.flag f b n m).conflicts = d.conflicts := rfl
@[simp] theorem Dev.flag_chase (d : Dev) (f : Fld) (b : Bool) (n m : Nat) : (d.flag f b n m).chase = d.chase := rfl
@[simp] theorem Dev.flag_chans (d : Dev) (f : Fld) (b : Bool) (n m : Nat) : (d.flag f b n m).chans = d.chans := rfl
@[simp] theorem Dev.flag_xfrms (d : Dev) (f : Fld) (b : Bool) (n m : Nat) : (d.flag f b n m).xfrms = d.xfrms := rfl
@[simp] theorem Dev.flag_windows (d : Dev) (f : Fld) (b : Bool) (n m : Nat) : (d.flag f b n m).windows = d.windows := rfl
@[simp] theorem Dev.flag_traces (d : Dev) (f : Fld) (b : Bool) (n m : Nat) : (d.flag f b n m).traces = d.traces := rfl
@[simp] theorem Dev.flag_cores (d : Dev) (f : Fld) (b : Bool) (n m : Nat) : (d.flag f b n m).cores = d.cores := rfl
@[simp] theorem Dev.flag_trigs (d : Dev) (f : Fld) (b : Bool) (n m : Nat) : (d.flag f b n m).trigs = d.trigs := rfl
@[simp] theorem Dev.flag_rawcs (d : Dev) (f : Fld) (b : Bool) (n m : Nat) : (d.flag f b n m).rawcs = d.rawcs := rfl
@[simp] theorem Dev.flag_axes (d : Dev) (f : Fld) (b : Bool) (n m : Nat) : (d.flag f b n m).axes = d.axes := rfl
@[simp] theorem Dev.flag_cues (d : Dev) (f : Fld) (b : Bool) (n m : Nat) : (d.flag f b n m).cues = d.cues := rfl
@[simp] theorem Dev.flag_time (d : Dev) (f : Fld) (b : Bool) (n m : Nat) : (d.flag f b n m).time = d.time := rfl
@[simp] theorem Dev.flag_sheets (d : Dev) (f : Fld) (b : Bool) (n m : Nat) : (d.flag f b n m).sheets = d.sheets := rfl
@[simp] theorem Dev.flag_links (d : Dev) (f : Fld) (b : Bool) (n m : Nat) : (d.flag f b n m).links = d.links := rfl
@[simp] theorem Dev.flag_denses (d : Dev) (f : Fld) (b : Bool) (n m : Nat) : (d.flag f b n m).denses = d.denses := rfl
@[simp] theorem Dev.flag_vid (d : Dev) (f : Fld) (b : Bool) (n m : Nat) : (d.flag f b n m).vid = d.vid := rfl
@[simp] theorem Dev.flag_stay (d : Dev) (f : Fld) (b : Bool) (n m : Nat) : (d.flag f b n m).stay = d.stay := rfl
@[simp] theorem Dev.flag_out (d : Dev) (f : Fld) (b : Bool) (n m : Nat) : (d.flag f b n m).out = d.out := rfl
@[simp] theorem Dev.flag_freeCtr (d : Dev) (f : Fld) (b : Bool) (n m : Nat) : (d.flag f b n m).freeCtr = d.freeCtr := rfl

@[simp] theorem Dev.setBits_wide (d : Dev) (f : Fld) (v n m : Nat) : (d.setBits f v n m).wide = d.wide := rfl
@[simp] theorem Dev.setBits_readData (d : Dev) (f : Fld) (v n m : Nat) : (d.setBits f v n m).readData = d.readData := rfl
@[simp] theorem Dev.setBits_mem (d : Dev) (f : Fld) (v n m : Nat) : (d.setBits f v n m).mem = d.mem := rfl
@[simp] theorem Dev.setBits_hostMem (d : Dev) (f : Fld) (v n m : Nat) : (d.setBits f v n m).hostMem = d.hostMem := rfl
@[simp] theorem Dev.setBits_nvs (d : Dev) (f : Fld) (v n m : Nat) : (d.setBits f v n m).nvs = d.nvs := rfl
@[simp] theorem Dev.setBits_clk (d : Dev) (f : Fld) (v n m : Nat) : (d.setBits f v n m).clk = d.clk := rfl
@[simp] theorem Dev.setBits_localTime (d : Dev) (f : Fld) (v n m : Nat) : (d.setBits f v n m).localTime = d.localTime := rfl
@[simp] theorem Dev.setBits_inputs (d : Dev) (f : Fld) (v n m : Nat) : (d.setBits f v n m).inputs = d.inputs := rfl
@[simp] theorem Dev.setBits_sections (d : Dev) (f : Fld) (v n m : Nat) : (d.setBits f v n m).sections = d.sections := rfl
@[simp] theorem Dev.setBits_maps (d : Dev) (f : Fld) (v n m : Nat) : (d.setBits f v n m).maps = d.maps := rfl
@[simp] theorem Dev.setBits_slots (d : Dev) (f : Fld) (v n m : Nat) : (d.setBits f v n m).slots = d.slots := rfl
@[simp] theorem Dev.setBits_loads (d : Dev) (f : Fld) (v n m : Nat) : (d.setBits f v n m).loads = d.loads := rfl
@[simp] theorem Dev.setBits_runs (d : Dev) (f : Fld) (v n m : Nat) : (d.setBits f v n m).runs = d.runs := rfl
@[simp] theorem Dev.setBits_rings (d : Dev) (f : Fld) (v n m : Nat) : (d.setBits f v n m).rings = d.rings := rfl
@[simp] theorem Dev.setBits_movErr (d : Dev) (f : Fld) (v n m : Nat) : (d.setBits f v n m).movErr = d.movErr := rfl
@[simp] theorem Dev.setBits_nvsBusy (d : Dev) (f : Fld) (v n m : Nat) : (d.setBits f v n m).nvsBusy = d.nvsBusy := rfl
@[simp] theorem Dev.setBits_halyards (d : Dev) (f : Fld) (v n m : Nat) : (d.setBits f v n m).halyards = d.halyards := rfl
@[simp] theorem Dev.setBits_dram (d : Dev) (f : Fld) (v n m : Nat) : (d.setBits f v n m).dram = d.dram := rfl
@[simp] theorem Dev.setBits_irq (d : Dev) (f : Fld) (v n m : Nat) : (d.setBits f v n m).irq = d.irq := rfl
@[simp] theorem Dev.setBits_hka (d : Dev) (f : Fld) (v n m : Nat) : (d.setBits f v n m).hka = d.hka := rfl
@[simp] theorem Dev.setBits_power (d : Dev) (f : Fld) (v n m : Nat) : (d.setBits f v n m).power = d.power := rfl
@[simp] theorem Dev.setBits_repair (d : Dev) (f : Fld) (v n m : Nat) : (d.setBits f v n m).repair = d.repair := rfl
@[simp] theorem Dev.setBits_sec (d : Dev) (f : Fld) (v n m : Nat) : (d.setBits f v n m).sec = d.sec := rfl
@[simp] theorem Dev.setBits_cal (d : Dev) (f : Fld) (v n m : Nat) : (d.setBits f v n m).cal = d.cal := rfl
@[simp] theorem Dev.setBits_clocks (d : Dev) (f : Fld) (v n m : Nat) : (d.setBits f v n m).clocks = d.clocks := rfl
@[simp] theorem Dev.setBits_sortMem (d : Dev) (f : Fld) (v n m : Nat) : (d.setBits f v n m).sortMem = d.sortMem := rfl
@[simp] theorem Dev.setBits_conflicts (d : Dev) (f : Fld) (v n m : Nat) : (d.setBits f v n m).conflicts = d.conflicts := rfl
@[simp] theorem Dev.setBits_chase (d : Dev) (f : Fld) (v n m : Nat) : (d.setBits f v n m).chase = d.chase := rfl
@[simp] theorem Dev.setBits_chans (d : Dev) (f : Fld) (v n m : Nat) : (d.setBits f v n m).chans = d.chans := rfl
@[simp] theorem Dev.setBits_xfrms (d : Dev) (f : Fld) (v n m : Nat) : (d.setBits f v n m).xfrms = d.xfrms := rfl
@[simp] theorem Dev.setBits_windows (d : Dev) (f : Fld) (v n m : Nat) : (d.setBits f v n m).windows = d.windows := rfl
@[simp] theorem Dev.setBits_traces (d : Dev) (f : Fld) (v n m : Nat) : (d.setBits f v n m).traces = d.traces := rfl
@[simp] theorem Dev.setBits_cores (d : Dev) (f : Fld) (v n m : Nat) : (d.setBits f v n m).cores = d.cores := rfl
@[simp] theorem Dev.setBits_trigs (d : Dev) (f : Fld) (v n m : Nat) : (d.setBits f v n m).trigs = d.trigs := rfl
@[simp] theorem Dev.setBits_rawcs (d : Dev) (f : Fld) (v n m : Nat) : (d.setBits f v n m).rawcs = d.rawcs := rfl
@[simp] theorem Dev.setBits_axes (d : Dev) (f : Fld) (v n m : Nat) : (d.setBits f v n m).axes = d.axes := rfl
@[simp] theorem Dev.setBits_cues (d : Dev) (f : Fld) (v n m : Nat) : (d.setBits f v n m).cues = d.cues := rfl
@[simp] theorem Dev.setBits_time (d : Dev) (f : Fld) (v n m : Nat) : (d.setBits f v n m).time = d.time := rfl
@[simp] theorem Dev.setBits_sheets (d : Dev) (f : Fld) (v n m : Nat) : (d.setBits f v n m).sheets = d.sheets := rfl
@[simp] theorem Dev.setBits_links (d : Dev) (f : Fld) (v n m : Nat) : (d.setBits f v n m).links = d.links := rfl
@[simp] theorem Dev.setBits_denses (d : Dev) (f : Fld) (v n m : Nat) : (d.setBits f v n m).denses = d.denses := rfl
@[simp] theorem Dev.setBits_vid (d : Dev) (f : Fld) (v n m : Nat) : (d.setBits f v n m).vid = d.vid := rfl
@[simp] theorem Dev.setBits_stay (d : Dev) (f : Fld) (v n m : Nat) : (d.setBits f v n m).stay = d.stay := rfl
@[simp] theorem Dev.setBits_out (d : Dev) (f : Fld) (v n m : Nat) : (d.setBits f v n m).out = d.out := rfl
@[simp] theorem Dev.setBits_freeCtr (d : Dev) (f : Fld) (v n m : Nat) : (d.setBits f v n m).freeCtr = d.freeCtr := rfl

@[simp] theorem Dev.mark_wide (d : Dev) (f : Fld) (n m : Nat) : (d.mark f n m).wide = d.wide := rfl
@[simp] theorem Dev.mark_readData (d : Dev) (f : Fld) (n m : Nat) : (d.mark f n m).readData = d.readData := rfl
@[simp] theorem Dev.mark_mem (d : Dev) (f : Fld) (n m : Nat) : (d.mark f n m).mem = d.mem := rfl
@[simp] theorem Dev.mark_hostMem (d : Dev) (f : Fld) (n m : Nat) : (d.mark f n m).hostMem = d.hostMem := rfl
@[simp] theorem Dev.mark_nvs (d : Dev) (f : Fld) (n m : Nat) : (d.mark f n m).nvs = d.nvs := rfl
@[simp] theorem Dev.mark_clk (d : Dev) (f : Fld) (n m : Nat) : (d.mark f n m).clk = d.clk := rfl
@[simp] theorem Dev.mark_localTime (d : Dev) (f : Fld) (n m : Nat) : (d.mark f n m).localTime = d.localTime := rfl
@[simp] theorem Dev.mark_inputs (d : Dev) (f : Fld) (n m : Nat) : (d.mark f n m).inputs = d.inputs := rfl
@[simp] theorem Dev.mark_sections (d : Dev) (f : Fld) (n m : Nat) : (d.mark f n m).sections = d.sections := rfl
@[simp] theorem Dev.mark_maps (d : Dev) (f : Fld) (n m : Nat) : (d.mark f n m).maps = d.maps := rfl
@[simp] theorem Dev.mark_slots (d : Dev) (f : Fld) (n m : Nat) : (d.mark f n m).slots = d.slots := rfl
@[simp] theorem Dev.mark_loads (d : Dev) (f : Fld) (n m : Nat) : (d.mark f n m).loads = d.loads := rfl
@[simp] theorem Dev.mark_runs (d : Dev) (f : Fld) (n m : Nat) : (d.mark f n m).runs = d.runs := rfl
@[simp] theorem Dev.mark_rings (d : Dev) (f : Fld) (n m : Nat) : (d.mark f n m).rings = d.rings := rfl
@[simp] theorem Dev.mark_movErr (d : Dev) (f : Fld) (n m : Nat) : (d.mark f n m).movErr = d.movErr := rfl
@[simp] theorem Dev.mark_nvsBusy (d : Dev) (f : Fld) (n m : Nat) : (d.mark f n m).nvsBusy = d.nvsBusy := rfl
@[simp] theorem Dev.mark_halyards (d : Dev) (f : Fld) (n m : Nat) : (d.mark f n m).halyards = d.halyards := rfl
@[simp] theorem Dev.mark_dram (d : Dev) (f : Fld) (n m : Nat) : (d.mark f n m).dram = d.dram := rfl
@[simp] theorem Dev.mark_irq (d : Dev) (f : Fld) (n m : Nat) : (d.mark f n m).irq = d.irq := rfl
@[simp] theorem Dev.mark_hka (d : Dev) (f : Fld) (n m : Nat) : (d.mark f n m).hka = d.hka := rfl
@[simp] theorem Dev.mark_power (d : Dev) (f : Fld) (n m : Nat) : (d.mark f n m).power = d.power := rfl
@[simp] theorem Dev.mark_repair (d : Dev) (f : Fld) (n m : Nat) : (d.mark f n m).repair = d.repair := rfl
@[simp] theorem Dev.mark_sec (d : Dev) (f : Fld) (n m : Nat) : (d.mark f n m).sec = d.sec := rfl
@[simp] theorem Dev.mark_cal (d : Dev) (f : Fld) (n m : Nat) : (d.mark f n m).cal = d.cal := rfl
@[simp] theorem Dev.mark_clocks (d : Dev) (f : Fld) (n m : Nat) : (d.mark f n m).clocks = d.clocks := rfl
@[simp] theorem Dev.mark_sortMem (d : Dev) (f : Fld) (n m : Nat) : (d.mark f n m).sortMem = d.sortMem := rfl
@[simp] theorem Dev.mark_conflicts (d : Dev) (f : Fld) (n m : Nat) : (d.mark f n m).conflicts = d.conflicts := rfl
@[simp] theorem Dev.mark_chase (d : Dev) (f : Fld) (n m : Nat) : (d.mark f n m).chase = d.chase := rfl
@[simp] theorem Dev.mark_chans (d : Dev) (f : Fld) (n m : Nat) : (d.mark f n m).chans = d.chans := rfl
@[simp] theorem Dev.mark_xfrms (d : Dev) (f : Fld) (n m : Nat) : (d.mark f n m).xfrms = d.xfrms := rfl
@[simp] theorem Dev.mark_windows (d : Dev) (f : Fld) (n m : Nat) : (d.mark f n m).windows = d.windows := rfl
@[simp] theorem Dev.mark_traces (d : Dev) (f : Fld) (n m : Nat) : (d.mark f n m).traces = d.traces := rfl
@[simp] theorem Dev.mark_cores (d : Dev) (f : Fld) (n m : Nat) : (d.mark f n m).cores = d.cores := rfl
@[simp] theorem Dev.mark_trigs (d : Dev) (f : Fld) (n m : Nat) : (d.mark f n m).trigs = d.trigs := rfl
@[simp] theorem Dev.mark_rawcs (d : Dev) (f : Fld) (n m : Nat) : (d.mark f n m).rawcs = d.rawcs := rfl
@[simp] theorem Dev.mark_axes (d : Dev) (f : Fld) (n m : Nat) : (d.mark f n m).axes = d.axes := rfl
@[simp] theorem Dev.mark_cues (d : Dev) (f : Fld) (n m : Nat) : (d.mark f n m).cues = d.cues := rfl
@[simp] theorem Dev.mark_time (d : Dev) (f : Fld) (n m : Nat) : (d.mark f n m).time = d.time := rfl
@[simp] theorem Dev.mark_sheets (d : Dev) (f : Fld) (n m : Nat) : (d.mark f n m).sheets = d.sheets := rfl
@[simp] theorem Dev.mark_links (d : Dev) (f : Fld) (n m : Nat) : (d.mark f n m).links = d.links := rfl
@[simp] theorem Dev.mark_denses (d : Dev) (f : Fld) (n m : Nat) : (d.mark f n m).denses = d.denses := rfl
@[simp] theorem Dev.mark_vid (d : Dev) (f : Fld) (n m : Nat) : (d.mark f n m).vid = d.vid := rfl
@[simp] theorem Dev.mark_stay (d : Dev) (f : Fld) (n m : Nat) : (d.mark f n m).stay = d.stay := rfl
@[simp] theorem Dev.mark_out (d : Dev) (f : Fld) (n m : Nat) : (d.mark f n m).out = d.out := rfl
@[simp] theorem Dev.mark_freeCtr (d : Dev) (f : Fld) (n m : Nat) : (d.mark f n m).freeCtr = d.freeCtr := rfl

@[simp] theorem Dev.setWide_regs (d : Dev) (f : Fld) (v n : Nat) : (d.setWide f v n).regs = d.regs := rfl
@[simp] theorem Dev.setWide_regs0 (d : Dev) (f : Fld) (v n : Nat) : (d.setWide f v n).regs0 = d.regs0 := rfl
@[simp] theorem Dev.setWide_readData (d : Dev) (f : Fld) (v n : Nat) : (d.setWide f v n).readData = d.readData := rfl
@[simp] theorem Dev.setWide_mem (d : Dev) (f : Fld) (v n : Nat) : (d.setWide f v n).mem = d.mem := rfl
@[simp] theorem Dev.setWide_hostMem (d : Dev) (f : Fld) (v n : Nat) : (d.setWide f v n).hostMem = d.hostMem := rfl
@[simp] theorem Dev.setWide_nvs (d : Dev) (f : Fld) (v n : Nat) : (d.setWide f v n).nvs = d.nvs := rfl
@[simp] theorem Dev.setWide_clk (d : Dev) (f : Fld) (v n : Nat) : (d.setWide f v n).clk = d.clk := rfl
@[simp] theorem Dev.setWide_localTime (d : Dev) (f : Fld) (v n : Nat) : (d.setWide f v n).localTime = d.localTime := rfl
@[simp] theorem Dev.setWide_inputs (d : Dev) (f : Fld) (v n : Nat) : (d.setWide f v n).inputs = d.inputs := rfl
@[simp] theorem Dev.setWide_sections (d : Dev) (f : Fld) (v n : Nat) : (d.setWide f v n).sections = d.sections := rfl
@[simp] theorem Dev.setWide_maps (d : Dev) (f : Fld) (v n : Nat) : (d.setWide f v n).maps = d.maps := rfl
@[simp] theorem Dev.setWide_slots (d : Dev) (f : Fld) (v n : Nat) : (d.setWide f v n).slots = d.slots := rfl
@[simp] theorem Dev.setWide_loads (d : Dev) (f : Fld) (v n : Nat) : (d.setWide f v n).loads = d.loads := rfl
@[simp] theorem Dev.setWide_runs (d : Dev) (f : Fld) (v n : Nat) : (d.setWide f v n).runs = d.runs := rfl
@[simp] theorem Dev.setWide_rings (d : Dev) (f : Fld) (v n : Nat) : (d.setWide f v n).rings = d.rings := rfl
@[simp] theorem Dev.setWide_movErr (d : Dev) (f : Fld) (v n : Nat) : (d.setWide f v n).movErr = d.movErr := rfl
@[simp] theorem Dev.setWide_nvsBusy (d : Dev) (f : Fld) (v n : Nat) : (d.setWide f v n).nvsBusy = d.nvsBusy := rfl
@[simp] theorem Dev.setWide_halyards (d : Dev) (f : Fld) (v n : Nat) : (d.setWide f v n).halyards = d.halyards := rfl
@[simp] theorem Dev.setWide_dram (d : Dev) (f : Fld) (v n : Nat) : (d.setWide f v n).dram = d.dram := rfl
@[simp] theorem Dev.setWide_irq (d : Dev) (f : Fld) (v n : Nat) : (d.setWide f v n).irq = d.irq := rfl
@[simp] theorem Dev.setWide_hka (d : Dev) (f : Fld) (v n : Nat) : (d.setWide f v n).hka = d.hka := rfl
@[simp] theorem Dev.setWide_power (d : Dev) (f : Fld) (v n : Nat) : (d.setWide f v n).power = d.power := rfl
@[simp] theorem Dev.setWide_repair (d : Dev) (f : Fld) (v n : Nat) : (d.setWide f v n).repair = d.repair := rfl
@[simp] theorem Dev.setWide_sec (d : Dev) (f : Fld) (v n : Nat) : (d.setWide f v n).sec = d.sec := rfl
@[simp] theorem Dev.setWide_cal (d : Dev) (f : Fld) (v n : Nat) : (d.setWide f v n).cal = d.cal := rfl
@[simp] theorem Dev.setWide_clocks (d : Dev) (f : Fld) (v n : Nat) : (d.setWide f v n).clocks = d.clocks := rfl
@[simp] theorem Dev.setWide_sortMem (d : Dev) (f : Fld) (v n : Nat) : (d.setWide f v n).sortMem = d.sortMem := rfl
@[simp] theorem Dev.setWide_conflicts (d : Dev) (f : Fld) (v n : Nat) : (d.setWide f v n).conflicts = d.conflicts := rfl
@[simp] theorem Dev.setWide_chase (d : Dev) (f : Fld) (v n : Nat) : (d.setWide f v n).chase = d.chase := rfl
@[simp] theorem Dev.setWide_chans (d : Dev) (f : Fld) (v n : Nat) : (d.setWide f v n).chans = d.chans := rfl
@[simp] theorem Dev.setWide_xfrms (d : Dev) (f : Fld) (v n : Nat) : (d.setWide f v n).xfrms = d.xfrms := rfl
@[simp] theorem Dev.setWide_windows (d : Dev) (f : Fld) (v n : Nat) : (d.setWide f v n).windows = d.windows := rfl
@[simp] theorem Dev.setWide_traces (d : Dev) (f : Fld) (v n : Nat) : (d.setWide f v n).traces = d.traces := rfl
@[simp] theorem Dev.setWide_cores (d : Dev) (f : Fld) (v n : Nat) : (d.setWide f v n).cores = d.cores := rfl
@[simp] theorem Dev.setWide_trigs (d : Dev) (f : Fld) (v n : Nat) : (d.setWide f v n).trigs = d.trigs := rfl
@[simp] theorem Dev.setWide_rawcs (d : Dev) (f : Fld) (v n : Nat) : (d.setWide f v n).rawcs = d.rawcs := rfl
@[simp] theorem Dev.setWide_axes (d : Dev) (f : Fld) (v n : Nat) : (d.setWide f v n).axes = d.axes := rfl
@[simp] theorem Dev.setWide_cues (d : Dev) (f : Fld) (v n : Nat) : (d.setWide f v n).cues = d.cues := rfl
@[simp] theorem Dev.setWide_time (d : Dev) (f : Fld) (v n : Nat) : (d.setWide f v n).time = d.time := rfl
@[simp] theorem Dev.setWide_sheets (d : Dev) (f : Fld) (v n : Nat) : (d.setWide f v n).sheets = d.sheets := rfl
@[simp] theorem Dev.setWide_links (d : Dev) (f : Fld) (v n : Nat) : (d.setWide f v n).links = d.links := rfl
@[simp] theorem Dev.setWide_denses (d : Dev) (f : Fld) (v n : Nat) : (d.setWide f v n).denses = d.denses := rfl
@[simp] theorem Dev.setWide_vid (d : Dev) (f : Fld) (v n : Nat) : (d.setWide f v n).vid = d.vid := rfl
@[simp] theorem Dev.setWide_stay (d : Dev) (f : Fld) (v n : Nat) : (d.setWide f v n).stay = d.stay := rfl
@[simp] theorem Dev.setWide_out (d : Dev) (f : Fld) (v n : Nat) : (d.setWide f v n).out = d.out := rfl
@[simp] theorem Dev.setWide_freeCtr (d : Dev) (f : Fld) (v n : Nat) : (d.setWide f v n).freeCtr = d.freeCtr := rfl

@[simp] theorem Dev.answer_regs (d : Dev) (v : Nat) : (d.answer v).regs = d.regs := rfl
@[simp] theorem Dev.answer_regs0 (d : Dev) (v : Nat) : (d.answer v).regs0 = d.regs0 := rfl
@[simp] theorem Dev.answer_wide (d : Dev) (v : Nat) : (d.answer v).wide = d.wide := rfl
@[simp] theorem Dev.answer_mem (d : Dev) (v : Nat) : (d.answer v).mem = d.mem := rfl
@[simp] theorem Dev.answer_hostMem (d : Dev) (v : Nat) : (d.answer v).hostMem = d.hostMem := rfl
@[simp] theorem Dev.answer_nvs (d : Dev) (v : Nat) : (d.answer v).nvs = d.nvs := rfl
@[simp] theorem Dev.answer_clk (d : Dev) (v : Nat) : (d.answer v).clk = d.clk := rfl
@[simp] theorem Dev.answer_localTime (d : Dev) (v : Nat) : (d.answer v).localTime = d.localTime := rfl
@[simp] theorem Dev.answer_inputs (d : Dev) (v : Nat) : (d.answer v).inputs = d.inputs := rfl
@[simp] theorem Dev.answer_sections (d : Dev) (v : Nat) : (d.answer v).sections = d.sections := rfl
@[simp] theorem Dev.answer_maps (d : Dev) (v : Nat) : (d.answer v).maps = d.maps := rfl
@[simp] theorem Dev.answer_slots (d : Dev) (v : Nat) : (d.answer v).slots = d.slots := rfl
@[simp] theorem Dev.answer_loads (d : Dev) (v : Nat) : (d.answer v).loads = d.loads := rfl
@[simp] theorem Dev.answer_runs (d : Dev) (v : Nat) : (d.answer v).runs = d.runs := rfl
@[simp] theorem Dev.answer_rings (d : Dev) (v : Nat) : (d.answer v).rings = d.rings := rfl
@[simp] theorem Dev.answer_movErr (d : Dev) (v : Nat) : (d.answer v).movErr = d.movErr := rfl
@[simp] theorem Dev.answer_nvsBusy (d : Dev) (v : Nat) : (d.answer v).nvsBusy = d.nvsBusy := rfl
@[simp] theorem Dev.answer_halyards (d : Dev) (v : Nat) : (d.answer v).halyards = d.halyards := rfl
@[simp] theorem Dev.answer_dram (d : Dev) (v : Nat) : (d.answer v).dram = d.dram := rfl
@[simp] theorem Dev.answer_irq (d : Dev) (v : Nat) : (d.answer v).irq = d.irq := rfl
@[simp] theorem Dev.answer_hka (d : Dev) (v : Nat) : (d.answer v).hka = d.hka := rfl
@[simp] theorem Dev.answer_power (d : Dev) (v : Nat) : (d.answer v).power = d.power := rfl
@[simp] theorem Dev.answer_repair (d : Dev) (v : Nat) : (d.answer v).repair = d.repair := rfl
@[simp] theorem Dev.answer_sec (d : Dev) (v : Nat) : (d.answer v).sec = d.sec := rfl
@[simp] theorem Dev.answer_cal (d : Dev) (v : Nat) : (d.answer v).cal = d.cal := rfl
@[simp] theorem Dev.answer_clocks (d : Dev) (v : Nat) : (d.answer v).clocks = d.clocks := rfl
@[simp] theorem Dev.answer_sortMem (d : Dev) (v : Nat) : (d.answer v).sortMem = d.sortMem := rfl
@[simp] theorem Dev.answer_conflicts (d : Dev) (v : Nat) : (d.answer v).conflicts = d.conflicts := rfl
@[simp] theorem Dev.answer_chase (d : Dev) (v : Nat) : (d.answer v).chase = d.chase := rfl
@[simp] theorem Dev.answer_chans (d : Dev) (v : Nat) : (d.answer v).chans = d.chans := rfl
@[simp] theorem Dev.answer_xfrms (d : Dev) (v : Nat) : (d.answer v).xfrms = d.xfrms := rfl
@[simp] theorem Dev.answer_windows (d : Dev) (v : Nat) : (d.answer v).windows = d.windows := rfl
@[simp] theorem Dev.answer_traces (d : Dev) (v : Nat) : (d.answer v).traces = d.traces := rfl
@[simp] theorem Dev.answer_cores (d : Dev) (v : Nat) : (d.answer v).cores = d.cores := rfl
@[simp] theorem Dev.answer_trigs (d : Dev) (v : Nat) : (d.answer v).trigs = d.trigs := rfl
@[simp] theorem Dev.answer_rawcs (d : Dev) (v : Nat) : (d.answer v).rawcs = d.rawcs := rfl
@[simp] theorem Dev.answer_axes (d : Dev) (v : Nat) : (d.answer v).axes = d.axes := rfl
@[simp] theorem Dev.answer_cues (d : Dev) (v : Nat) : (d.answer v).cues = d.cues := rfl
@[simp] theorem Dev.answer_time (d : Dev) (v : Nat) : (d.answer v).time = d.time := rfl
@[simp] theorem Dev.answer_sheets (d : Dev) (v : Nat) : (d.answer v).sheets = d.sheets := rfl
@[simp] theorem Dev.answer_links (d : Dev) (v : Nat) : (d.answer v).links = d.links := rfl
@[simp] theorem Dev.answer_denses (d : Dev) (v : Nat) : (d.answer v).denses = d.denses := rfl
@[simp] theorem Dev.answer_vid (d : Dev) (v : Nat) : (d.answer v).vid = d.vid := rfl
@[simp] theorem Dev.answer_stay (d : Dev) (v : Nat) : (d.answer v).stay = d.stay := rfl
@[simp] theorem Dev.answer_out (d : Dev) (v : Nat) : (d.answer v).out = d.out := rfl
@[simp] theorem Dev.answer_freeCtr (d : Dev) (v : Nat) : (d.answer v).freeCtr = d.freeCtr := rfl

@[simp] theorem Dev.send_regs (d : Dev) (o : Out) : (d.send o).regs = d.regs := rfl
@[simp] theorem Dev.send_regs0 (d : Dev) (o : Out) : (d.send o).regs0 = d.regs0 := rfl
@[simp] theorem Dev.send_wide (d : Dev) (o : Out) : (d.send o).wide = d.wide := rfl
@[simp] theorem Dev.send_readData (d : Dev) (o : Out) : (d.send o).readData = d.readData := rfl
@[simp] theorem Dev.send_mem (d : Dev) (o : Out) : (d.send o).mem = d.mem := rfl
@[simp] theorem Dev.send_hostMem (d : Dev) (o : Out) : (d.send o).hostMem = d.hostMem := rfl
@[simp] theorem Dev.send_nvs (d : Dev) (o : Out) : (d.send o).nvs = d.nvs := rfl
@[simp] theorem Dev.send_clk (d : Dev) (o : Out) : (d.send o).clk = d.clk := rfl
@[simp] theorem Dev.send_localTime (d : Dev) (o : Out) : (d.send o).localTime = d.localTime := rfl
@[simp] theorem Dev.send_inputs (d : Dev) (o : Out) : (d.send o).inputs = d.inputs := rfl
@[simp] theorem Dev.send_sections (d : Dev) (o : Out) : (d.send o).sections = d.sections := rfl
@[simp] theorem Dev.send_maps (d : Dev) (o : Out) : (d.send o).maps = d.maps := rfl
@[simp] theorem Dev.send_slots (d : Dev) (o : Out) : (d.send o).slots = d.slots := rfl
@[simp] theorem Dev.send_loads (d : Dev) (o : Out) : (d.send o).loads = d.loads := rfl
@[simp] theorem Dev.send_runs (d : Dev) (o : Out) : (d.send o).runs = d.runs := rfl
@[simp] theorem Dev.send_rings (d : Dev) (o : Out) : (d.send o).rings = d.rings := rfl
@[simp] theorem Dev.send_movErr (d : Dev) (o : Out) : (d.send o).movErr = d.movErr := rfl
@[simp] theorem Dev.send_nvsBusy (d : Dev) (o : Out) : (d.send o).nvsBusy = d.nvsBusy := rfl
@[simp] theorem Dev.send_halyards (d : Dev) (o : Out) : (d.send o).halyards = d.halyards := rfl
@[simp] theorem Dev.send_dram (d : Dev) (o : Out) : (d.send o).dram = d.dram := rfl
@[simp] theorem Dev.send_irq (d : Dev) (o : Out) : (d.send o).irq = d.irq := rfl
@[simp] theorem Dev.send_hka (d : Dev) (o : Out) : (d.send o).hka = d.hka := rfl
@[simp] theorem Dev.send_power (d : Dev) (o : Out) : (d.send o).power = d.power := rfl
@[simp] theorem Dev.send_repair (d : Dev) (o : Out) : (d.send o).repair = d.repair := rfl
@[simp] theorem Dev.send_sec (d : Dev) (o : Out) : (d.send o).sec = d.sec := rfl
@[simp] theorem Dev.send_cal (d : Dev) (o : Out) : (d.send o).cal = d.cal := rfl
@[simp] theorem Dev.send_clocks (d : Dev) (o : Out) : (d.send o).clocks = d.clocks := rfl
@[simp] theorem Dev.send_sortMem (d : Dev) (o : Out) : (d.send o).sortMem = d.sortMem := rfl
@[simp] theorem Dev.send_conflicts (d : Dev) (o : Out) : (d.send o).conflicts = d.conflicts := rfl
@[simp] theorem Dev.send_chase (d : Dev) (o : Out) : (d.send o).chase = d.chase := rfl
@[simp] theorem Dev.send_chans (d : Dev) (o : Out) : (d.send o).chans = d.chans := rfl
@[simp] theorem Dev.send_xfrms (d : Dev) (o : Out) : (d.send o).xfrms = d.xfrms := rfl
@[simp] theorem Dev.send_windows (d : Dev) (o : Out) : (d.send o).windows = d.windows := rfl
@[simp] theorem Dev.send_traces (d : Dev) (o : Out) : (d.send o).traces = d.traces := rfl
@[simp] theorem Dev.send_cores (d : Dev) (o : Out) : (d.send o).cores = d.cores := rfl
@[simp] theorem Dev.send_trigs (d : Dev) (o : Out) : (d.send o).trigs = d.trigs := rfl
@[simp] theorem Dev.send_rawcs (d : Dev) (o : Out) : (d.send o).rawcs = d.rawcs := rfl
@[simp] theorem Dev.send_axes (d : Dev) (o : Out) : (d.send o).axes = d.axes := rfl
@[simp] theorem Dev.send_cues (d : Dev) (o : Out) : (d.send o).cues = d.cues := rfl
@[simp] theorem Dev.send_time (d : Dev) (o : Out) : (d.send o).time = d.time := rfl
@[simp] theorem Dev.send_sheets (d : Dev) (o : Out) : (d.send o).sheets = d.sheets := rfl
@[simp] theorem Dev.send_links (d : Dev) (o : Out) : (d.send o).links = d.links := rfl
@[simp] theorem Dev.send_denses (d : Dev) (o : Out) : (d.send o).denses = d.denses := rfl
@[simp] theorem Dev.send_vid (d : Dev) (o : Out) : (d.send o).vid = d.vid := rfl
@[simp] theorem Dev.send_stay (d : Dev) (o : Out) : (d.send o).stay = d.stay := rfl
@[simp] theorem Dev.send_freeCtr (d : Dev) (o : Out) : (d.send o).freeCtr = d.freeCtr := rfl

@[simp] theorem Dev.usedFree_regs (d : Dev) : (d.usedFree).regs = d.regs := rfl
@[simp] theorem Dev.usedFree_regs0 (d : Dev) : (d.usedFree).regs0 = d.regs0 := rfl
@[simp] theorem Dev.usedFree_wide (d : Dev) : (d.usedFree).wide = d.wide := rfl
@[simp] theorem Dev.usedFree_readData (d : Dev) : (d.usedFree).readData = d.readData := rfl
@[simp] theorem Dev.usedFree_mem (d : Dev) : (d.usedFree).mem = d.mem := rfl
@[simp] theorem Dev.usedFree_hostMem (d : Dev) : (d.usedFree).hostMem = d.hostMem := rfl
@[simp] theorem Dev.usedFree_nvs (d : Dev) : (d.usedFree).nvs = d.nvs := rfl
@[simp] theorem Dev.usedFree_clk (d : Dev) : (d.usedFree).clk = d.clk := rfl
@[simp] theorem Dev.usedFree_localTime (d : Dev) : (d.usedFree).localTime = d.localTime := rfl
@[simp] theorem Dev.usedFree_inputs (d : Dev) : (d.usedFree).inputs = d.inputs := rfl
@[simp] theorem Dev.usedFree_sections (d : Dev) : (d.usedFree).sections = d.sections := rfl
@[simp] theorem Dev.usedFree_maps (d : Dev) : (d.usedFree).maps = d.maps := rfl
@[simp] theorem Dev.usedFree_slots (d : Dev) : (d.usedFree).slots = d.slots := rfl
@[simp] theorem Dev.usedFree_loads (d : Dev) : (d.usedFree).loads = d.loads := rfl
@[simp] theorem Dev.usedFree_runs (d : Dev) : (d.usedFree).runs = d.runs := rfl
@[simp] theorem Dev.usedFree_rings (d : Dev) : (d.usedFree).rings = d.rings := rfl
@[simp] theorem Dev.usedFree_movErr (d : Dev) : (d.usedFree).movErr = d.movErr := rfl
@[simp] theorem Dev.usedFree_nvsBusy (d : Dev) : (d.usedFree).nvsBusy = d.nvsBusy := rfl
@[simp] theorem Dev.usedFree_halyards (d : Dev) : (d.usedFree).halyards = d.halyards := rfl
@[simp] theorem Dev.usedFree_dram (d : Dev) : (d.usedFree).dram = d.dram := rfl
@[simp] theorem Dev.usedFree_irq (d : Dev) : (d.usedFree).irq = d.irq := rfl
@[simp] theorem Dev.usedFree_hka (d : Dev) : (d.usedFree).hka = d.hka := rfl
@[simp] theorem Dev.usedFree_power (d : Dev) : (d.usedFree).power = d.power := rfl
@[simp] theorem Dev.usedFree_repair (d : Dev) : (d.usedFree).repair = d.repair := rfl
@[simp] theorem Dev.usedFree_sec (d : Dev) : (d.usedFree).sec = d.sec := rfl
@[simp] theorem Dev.usedFree_cal (d : Dev) : (d.usedFree).cal = d.cal := rfl
@[simp] theorem Dev.usedFree_clocks (d : Dev) : (d.usedFree).clocks = d.clocks := rfl
@[simp] theorem Dev.usedFree_sortMem (d : Dev) : (d.usedFree).sortMem = d.sortMem := rfl
@[simp] theorem Dev.usedFree_conflicts (d : Dev) : (d.usedFree).conflicts = d.conflicts := rfl
@[simp] theorem Dev.usedFree_chase (d : Dev) : (d.usedFree).chase = d.chase := rfl
@[simp] theorem Dev.usedFree_chans (d : Dev) : (d.usedFree).chans = d.chans := rfl
@[simp] theorem Dev.usedFree_xfrms (d : Dev) : (d.usedFree).xfrms = d.xfrms := rfl
@[simp] theorem Dev.usedFree_windows (d : Dev) : (d.usedFree).windows = d.windows := rfl
@[simp] theorem Dev.usedFree_traces (d : Dev) : (d.usedFree).traces = d.traces := rfl
@[simp] theorem Dev.usedFree_cores (d : Dev) : (d.usedFree).cores = d.cores := rfl
@[simp] theorem Dev.usedFree_trigs (d : Dev) : (d.usedFree).trigs = d.trigs := rfl
@[simp] theorem Dev.usedFree_rawcs (d : Dev) : (d.usedFree).rawcs = d.rawcs := rfl
@[simp] theorem Dev.usedFree_axes (d : Dev) : (d.usedFree).axes = d.axes := rfl
@[simp] theorem Dev.usedFree_cues (d : Dev) : (d.usedFree).cues = d.cues := rfl
@[simp] theorem Dev.usedFree_time (d : Dev) : (d.usedFree).time = d.time := rfl
@[simp] theorem Dev.usedFree_sheets (d : Dev) : (d.usedFree).sheets = d.sheets := rfl
@[simp] theorem Dev.usedFree_links (d : Dev) : (d.usedFree).links = d.links := rfl
@[simp] theorem Dev.usedFree_denses (d : Dev) : (d.usedFree).denses = d.denses := rfl
@[simp] theorem Dev.usedFree_vid (d : Dev) : (d.usedFree).vid = d.vid := rfl
@[simp] theorem Dev.usedFree_stay (d : Dev) : (d.usedFree).stay = d.stay := rfl
@[simp] theorem Dev.usedFree_out (d : Dev) : (d.usedFree).out = d.out := rfl

@[simp] theorem Dev.setInput_regs (d : Dev) (n : Nat) (f : Input → Input) : (d.setInput n f).regs = d.regs := rfl
@[simp] theorem Dev.setInput_regs0 (d : Dev) (n : Nat) (f : Input → Input) : (d.setInput n f).regs0 = d.regs0 := rfl
@[simp] theorem Dev.setInput_wide (d : Dev) (n : Nat) (f : Input → Input) : (d.setInput n f).wide = d.wide := rfl
@[simp] theorem Dev.setInput_readData (d : Dev) (n : Nat) (f : Input → Input) : (d.setInput n f).readData = d.readData := rfl
@[simp] theorem Dev.setInput_mem (d : Dev) (n : Nat) (f : Input → Input) : (d.setInput n f).mem = d.mem := rfl
@[simp] theorem Dev.setInput_hostMem (d : Dev) (n : Nat) (f : Input → Input) : (d.setInput n f).hostMem = d.hostMem := rfl
@[simp] theorem Dev.setInput_nvs (d : Dev) (n : Nat) (f : Input → Input) : (d.setInput n f).nvs = d.nvs := rfl
@[simp] theorem Dev.setInput_clk (d : Dev) (n : Nat) (f : Input → Input) : (d.setInput n f).clk = d.clk := rfl
@[simp] theorem Dev.setInput_localTime (d : Dev) (n : Nat) (f : Input → Input) : (d.setInput n f).localTime = d.localTime := rfl
@[simp] theorem Dev.setInput_sections (d : Dev) (n : Nat) (f : Input → Input) : (d.setInput n f).sections = d.sections := rfl
@[simp] theorem Dev.setInput_maps (d : Dev) (n : Nat) (f : Input → Input) : (d.setInput n f).maps = d.maps := rfl
@[simp] theorem Dev.setInput_slots (d : Dev) (n : Nat) (f : Input → Input) : (d.setInput n f).slots = d.slots := rfl
@[simp] theorem Dev.setInput_loads (d : Dev) (n : Nat) (f : Input → Input) : (d.setInput n f).loads = d.loads := rfl
@[simp] theorem Dev.setInput_runs (d : Dev) (n : Nat) (f : Input → Input) : (d.setInput n f).runs = d.runs := rfl
@[simp] theorem Dev.setInput_rings (d : Dev) (n : Nat) (f : Input → Input) : (d.setInput n f).rings = d.rings := rfl
@[simp] theorem Dev.setInput_movErr (d : Dev) (n : Nat) (f : Input → Input) : (d.setInput n f).movErr = d.movErr := rfl
@[simp] theorem Dev.setInput_nvsBusy (d : Dev) (n : Nat) (f : Input → Input) : (d.setInput n f).nvsBusy = d.nvsBusy := rfl
@[simp] theorem Dev.setInput_halyards (d : Dev) (n : Nat) (f : Input → Input) : (d.setInput n f).halyards = d.halyards := rfl
@[simp] theorem Dev.setInput_dram (d : Dev) (n : Nat) (f : Input → Input) : (d.setInput n f).dram = d.dram := rfl
@[simp] theorem Dev.setInput_irq (d : Dev) (n : Nat) (f : Input → Input) : (d.setInput n f).irq = d.irq := rfl
@[simp] theorem Dev.setInput_hka (d : Dev) (n : Nat) (f : Input → Input) : (d.setInput n f).hka = d.hka := rfl
@[simp] theorem Dev.setInput_power (d : Dev) (n : Nat) (f : Input → Input) : (d.setInput n f).power = d.power := rfl
@[simp] theorem Dev.setInput_repair (d : Dev) (n : Nat) (f : Input → Input) : (d.setInput n f).repair = d.repair := rfl
@[simp] theorem Dev.setInput_sec (d : Dev) (n : Nat) (f : Input → Input) : (d.setInput n f).sec = d.sec := rfl
@[simp] theorem Dev.setInput_cal (d : Dev) (n : Nat) (f : Input → Input) : (d.setInput n f).cal = d.cal := rfl
@[simp] theorem Dev.setInput_clocks (d : Dev) (n : Nat) (f : Input → Input) : (d.setInput n f).clocks = d.clocks := rfl
@[simp] theorem Dev.setInput_sortMem (d : Dev) (n : Nat) (f : Input → Input) : (d.setInput n f).sortMem = d.sortMem := rfl
@[simp] theorem Dev.setInput_conflicts (d : Dev) (n : Nat) (f : Input → Input) : (d.setInput n f).conflicts = d.conflicts := rfl
@[simp] theorem Dev.setInput_chase (d : Dev) (n : Nat) (f : Input → Input) : (d.setInput n f).chase = d.chase := rfl
@[simp] theorem Dev.setInput_chans (d : Dev) (n : Nat) (f : Input → Input) : (d.setInput n f).chans = d.chans := rfl
@[simp] theorem Dev.setInput_xfrms (d : Dev) (n : Nat) (f : Input → Input) : (d.setInput n f).xfrms = d.xfrms := rfl
@[simp] theorem Dev.setInput_windows (d : Dev) (n : Nat) (f : Input → Input) : (d.setInput n f).windows = d.windows := rfl
@[simp] theorem Dev.setInput_traces (d : Dev) (n : Nat) (f : Input → Input) : (d.setInput n f).traces = d.traces := rfl
@[simp] theorem Dev.setInput_cores (d : Dev) (n : Nat) (f : Input → Input) : (d.setInput n f).cores = d.cores := rfl
@[simp] theorem Dev.setInput_trigs (d : Dev) (n : Nat) (f : Input → Input) : (d.setInput n f).trigs = d.trigs := rfl
@[simp] theorem Dev.setInput_rawcs (d : Dev) (n : Nat) (f : Input → Input) : (d.setInput n f).rawcs = d.rawcs := rfl
@[simp] theorem Dev.setInput_axes (d : Dev) (n : Nat) (f : Input → Input) : (d.setInput n f).axes = d.axes := rfl
@[simp] theorem Dev.setInput_cues (d : Dev) (n : Nat) (f : Input → Input) : (d.setInput n f).cues = d.cues := rfl
@[simp] theorem Dev.setInput_time (d : Dev) (n : Nat) (f : Input → Input) : (d.setInput n f).time = d.time := rfl
@[simp] theorem Dev.setInput_sheets (d : Dev) (n : Nat) (f : Input → Input) : (d.setInput n f).sheets = d.sheets := rfl
@[simp] theorem Dev.setInput_links (d : Dev) (n : Nat) (f : Input → Input) : (d.setInput n f).links = d.links := rfl
@[simp] theorem Dev.setInput_denses (d : Dev) (n : Nat) (f : Input → Input) : (d.setInput n f).denses = d.denses := rfl
@[simp] theorem Dev.setInput_vid (d : Dev) (n : Nat) (f : Input → Input) : (d.setInput n f).vid = d.vid := rfl
@[simp] theorem Dev.setInput_stay (d : Dev) (n : Nat) (f : Input → Input) : (d.setInput n f).stay = d.stay := rfl
@[simp] theorem Dev.setInput_out (d : Dev) (n : Nat) (f : Input → Input) : (d.setInput n f).out = d.out := rfl
@[simp] theorem Dev.setInput_freeCtr (d : Dev) (n : Nat) (f : Input → Input) : (d.setInput n f).freeCtr = d.freeCtr := rfl

/-- A host clear moves the one register, if any. -/
theorem Dev.unmark_shape (d : Dev) (f : Fld) (n m : Nat) : ∃ r, d.unmark f n m = { d with regs := r } := by
  unfold Dev.unmark
  dsimp only
  split
  · exact ⟨_, rfl⟩
  · exact ⟨d.regs, rfl⟩
@[simp] theorem Dev.unmark_regs0 (d : Dev) (f : Fld) (n m : Nat) : (d.unmark f n m).regs0 = d.regs0 := by obtain ⟨_, e⟩ := Dev.unmark_shape d f n m; rw [e]
@[simp] theorem Dev.unmark_wide (d : Dev) (f : Fld) (n m : Nat) : (d.unmark f n m).wide = d.wide := by obtain ⟨_, e⟩ := Dev.unmark_shape d f n m; rw [e]
@[simp] theorem Dev.unmark_readData (d : Dev) (f : Fld) (n m : Nat) : (d.unmark f n m).readData = d.readData := by obtain ⟨_, e⟩ := Dev.unmark_shape d f n m; rw [e]
@[simp] theorem Dev.unmark_mem (d : Dev) (f : Fld) (n m : Nat) : (d.unmark f n m).mem = d.mem := by obtain ⟨_, e⟩ := Dev.unmark_shape d f n m; rw [e]
@[simp] theorem Dev.unmark_hostMem (d : Dev) (f : Fld) (n m : Nat) : (d.unmark f n m).hostMem = d.hostMem := by obtain ⟨_, e⟩ := Dev.unmark_shape d f n m; rw [e]
@[simp] theorem Dev.unmark_nvs (d : Dev) (f : Fld) (n m : Nat) : (d.unmark f n m).nvs = d.nvs := by obtain ⟨_, e⟩ := Dev.unmark_shape d f n m; rw [e]
@[simp] theorem Dev.unmark_clk (d : Dev) (f : Fld) (n m : Nat) : (d.unmark f n m).clk = d.clk := by obtain ⟨_, e⟩ := Dev.unmark_shape d f n m; rw [e]
@[simp] theorem Dev.unmark_localTime (d : Dev) (f : Fld) (n m : Nat) : (d.unmark f n m).localTime = d.localTime := by obtain ⟨_, e⟩ := Dev.unmark_shape d f n m; rw [e]
@[simp] theorem Dev.unmark_inputs (d : Dev) (f : Fld) (n m : Nat) : (d.unmark f n m).inputs = d.inputs := by obtain ⟨_, e⟩ := Dev.unmark_shape d f n m; rw [e]
@[simp] theorem Dev.unmark_sections (d : Dev) (f : Fld) (n m : Nat) : (d.unmark f n m).sections = d.sections := by obtain ⟨_, e⟩ := Dev.unmark_shape d f n m; rw [e]
@[simp] theorem Dev.unmark_maps (d : Dev) (f : Fld) (n m : Nat) : (d.unmark f n m).maps = d.maps := by obtain ⟨_, e⟩ := Dev.unmark_shape d f n m; rw [e]
@[simp] theorem Dev.unmark_slots (d : Dev) (f : Fld) (n m : Nat) : (d.unmark f n m).slots = d.slots := by obtain ⟨_, e⟩ := Dev.unmark_shape d f n m; rw [e]
@[simp] theorem Dev.unmark_loads (d : Dev) (f : Fld) (n m : Nat) : (d.unmark f n m).loads = d.loads := by obtain ⟨_, e⟩ := Dev.unmark_shape d f n m; rw [e]
@[simp] theorem Dev.unmark_runs (d : Dev) (f : Fld) (n m : Nat) : (d.unmark f n m).runs = d.runs := by obtain ⟨_, e⟩ := Dev.unmark_shape d f n m; rw [e]
@[simp] theorem Dev.unmark_rings (d : Dev) (f : Fld) (n m : Nat) : (d.unmark f n m).rings = d.rings := by obtain ⟨_, e⟩ := Dev.unmark_shape d f n m; rw [e]
@[simp] theorem Dev.unmark_movErr (d : Dev) (f : Fld) (n m : Nat) : (d.unmark f n m).movErr = d.movErr := by obtain ⟨_, e⟩ := Dev.unmark_shape d f n m; rw [e]
@[simp] theorem Dev.unmark_nvsBusy (d : Dev) (f : Fld) (n m : Nat) : (d.unmark f n m).nvsBusy = d.nvsBusy := by obtain ⟨_, e⟩ := Dev.unmark_shape d f n m; rw [e]
@[simp] theorem Dev.unmark_halyards (d : Dev) (f : Fld) (n m : Nat) : (d.unmark f n m).halyards = d.halyards := by obtain ⟨_, e⟩ := Dev.unmark_shape d f n m; rw [e]
@[simp] theorem Dev.unmark_dram (d : Dev) (f : Fld) (n m : Nat) : (d.unmark f n m).dram = d.dram := by obtain ⟨_, e⟩ := Dev.unmark_shape d f n m; rw [e]
@[simp] theorem Dev.unmark_irq (d : Dev) (f : Fld) (n m : Nat) : (d.unmark f n m).irq = d.irq := by obtain ⟨_, e⟩ := Dev.unmark_shape d f n m; rw [e]
@[simp] theorem Dev.unmark_hka (d : Dev) (f : Fld) (n m : Nat) : (d.unmark f n m).hka = d.hka := by obtain ⟨_, e⟩ := Dev.unmark_shape d f n m; rw [e]
@[simp] theorem Dev.unmark_power (d : Dev) (f : Fld) (n m : Nat) : (d.unmark f n m).power = d.power := by obtain ⟨_, e⟩ := Dev.unmark_shape d f n m; rw [e]
@[simp] theorem Dev.unmark_repair (d : Dev) (f : Fld) (n m : Nat) : (d.unmark f n m).repair = d.repair := by obtain ⟨_, e⟩ := Dev.unmark_shape d f n m; rw [e]
@[simp] theorem Dev.unmark_sec (d : Dev) (f : Fld) (n m : Nat) : (d.unmark f n m).sec = d.sec := by obtain ⟨_, e⟩ := Dev.unmark_shape d f n m; rw [e]
@[simp] theorem Dev.unmark_cal (d : Dev) (f : Fld) (n m : Nat) : (d.unmark f n m).cal = d.cal := by obtain ⟨_, e⟩ := Dev.unmark_shape d f n m; rw [e]
@[simp] theorem Dev.unmark_clocks (d : Dev) (f : Fld) (n m : Nat) : (d.unmark f n m).clocks = d.clocks := by obtain ⟨_, e⟩ := Dev.unmark_shape d f n m; rw [e]
@[simp] theorem Dev.unmark_sortMem (d : Dev) (f : Fld) (n m : Nat) : (d.unmark f n m).sortMem = d.sortMem := by obtain ⟨_, e⟩ := Dev.unmark_shape d f n m; rw [e]
@[simp] theorem Dev.unmark_conflicts (d : Dev) (f : Fld) (n m : Nat) : (d.unmark f n m).conflicts = d.conflicts := by obtain ⟨_, e⟩ := Dev.unmark_shape d f n m; rw [e]
@[simp] theorem Dev.unmark_chase (d : Dev) (f : Fld) (n m : Nat) : (d.unmark f n m).chase = d.chase := by obtain ⟨_, e⟩ := Dev.unmark_shape d f n m; rw [e]
@[simp] theorem Dev.unmark_chans (d : Dev) (f : Fld) (n m : Nat) : (d.unmark f n m).chans = d.chans := by obtain ⟨_, e⟩ := Dev.unmark_shape d f n m; rw [e]
@[simp] theorem Dev.unmark_xfrms (d : Dev) (f : Fld) (n m : Nat) : (d.unmark f n m).xfrms = d.xfrms := by obtain ⟨_, e⟩ := Dev.unmark_shape d f n m; rw [e]
@[simp] theorem Dev.unmark_windows (d : Dev) (f : Fld) (n m : Nat) : (d.unmark f n m).windows = d.windows := by obtain ⟨_, e⟩ := Dev.unmark_shape d f n m; rw [e]
@[simp] theorem Dev.unmark_traces (d : Dev) (f : Fld) (n m : Nat) : (d.unmark f n m).traces = d.traces := by obtain ⟨_, e⟩ := Dev.unmark_shape d f n m; rw [e]
@[simp] theorem Dev.unmark_cores (d : Dev) (f : Fld) (n m : Nat) : (d.unmark f n m).cores = d.cores := by obtain ⟨_, e⟩ := Dev.unmark_shape d f n m; rw [e]
@[simp] theorem Dev.unmark_trigs (d : Dev) (f : Fld) (n m : Nat) : (d.unmark f n m).trigs = d.trigs := by obtain ⟨_, e⟩ := Dev.unmark_shape d f n m; rw [e]
@[simp] theorem Dev.unmark_rawcs (d : Dev) (f : Fld) (n m : Nat) : (d.unmark f n m).rawcs = d.rawcs := by obtain ⟨_, e⟩ := Dev.unmark_shape d f n m; rw [e]
@[simp] theorem Dev.unmark_axes (d : Dev) (f : Fld) (n m : Nat) : (d.unmark f n m).axes = d.axes := by obtain ⟨_, e⟩ := Dev.unmark_shape d f n m; rw [e]
@[simp] theorem Dev.unmark_cues (d : Dev) (f : Fld) (n m : Nat) : (d.unmark f n m).cues = d.cues := by obtain ⟨_, e⟩ := Dev.unmark_shape d f n m; rw [e]
@[simp] theorem Dev.unmark_time (d : Dev) (f : Fld) (n m : Nat) : (d.unmark f n m).time = d.time := by obtain ⟨_, e⟩ := Dev.unmark_shape d f n m; rw [e]
@[simp] theorem Dev.unmark_sheets (d : Dev) (f : Fld) (n m : Nat) : (d.unmark f n m).sheets = d.sheets := by obtain ⟨_, e⟩ := Dev.unmark_shape d f n m; rw [e]
@[simp] theorem Dev.unmark_links (d : Dev) (f : Fld) (n m : Nat) : (d.unmark f n m).links = d.links := by obtain ⟨_, e⟩ := Dev.unmark_shape d f n m; rw [e]
@[simp] theorem Dev.unmark_denses (d : Dev) (f : Fld) (n m : Nat) : (d.unmark f n m).denses = d.denses := by obtain ⟨_, e⟩ := Dev.unmark_shape d f n m; rw [e]
@[simp] theorem Dev.unmark_vid (d : Dev) (f : Fld) (n m : Nat) : (d.unmark f n m).vid = d.vid := by obtain ⟨_, e⟩ := Dev.unmark_shape d f n m; rw [e]
@[simp] theorem Dev.unmark_stay (d : Dev) (f : Fld) (n m : Nat) : (d.unmark f n m).stay = d.stay := by obtain ⟨_, e⟩ := Dev.unmark_shape d f n m; rw [e]
@[simp] theorem Dev.unmark_out (d : Dev) (f : Fld) (n m : Nat) : (d.unmark f n m).out = d.out := by obtain ⟨_, e⟩ := Dev.unmark_shape d f n m; rw [e]
@[simp] theorem Dev.unmark_freeCtr (d : Dev) (f : Fld) (n m : Nat) : (d.unmark f n m).freeCtr = d.freeCtr := by obtain ⟨_, e⟩ := Dev.unmark_shape d f n m; rw [e]

/-- A doorbell moves the one doorbell word. -/
theorem Dev.ringDoorbell_shape (d : Dev) (core b : Nat) : ∃ r z, d.ringDoorbell core b = { d with regs := r, regs0 := z } := ⟨_, _, rfl⟩
@[simp] theorem Dev.ringDoorbell_wide (d : Dev) (core b : Nat) : (d.ringDoorbell core b).wide = d.wide := rfl
@[simp] theorem Dev.ringDoorbell_readData (d : Dev) (core b : Nat) : (d.ringDoorbell core b).readData = d.readData := rfl
@[simp] theorem Dev.ringDoorbell_mem (d : Dev) (core b : Nat) : (d.ringDoorbell core b).mem = d.mem := rfl
@[simp] theorem Dev.ringDoorbell_hostMem (d : Dev) (core b : Nat) : (d.ringDoorbell core b).hostMem = d.hostMem := rfl
@[simp] theorem Dev.ringDoorbell_nvs (d : Dev) (core b : Nat) : (d.ringDoorbell core b).nvs = d.nvs := rfl
@[simp] theorem Dev.ringDoorbell_clk (d : Dev) (core b : Nat) : (d.ringDoorbell core b).clk = d.clk := rfl
@[simp] theorem Dev.ringDoorbell_localTime (d : Dev) (core b : Nat) : (d.ringDoorbell core b).localTime = d.localTime := rfl
@[simp] theorem Dev.ringDoorbell_inputs (d : Dev) (core b : Nat) : (d.ringDoorbell core b).inputs = d.inputs := rfl
@[simp] theorem Dev.ringDoorbell_sections (d : Dev) (core b : Nat) : (d.ringDoorbell core b).sections = d.sections := rfl
@[simp] theorem Dev.ringDoorbell_maps (d : Dev) (core b : Nat) : (d.ringDoorbell core b).maps = d.maps := rfl
@[simp] theorem Dev.ringDoorbell_slots (d : Dev) (core b : Nat) : (d.ringDoorbell core b).slots = d.slots := rfl
@[simp] theorem Dev.ringDoorbell_loads (d : Dev) (core b : Nat) : (d.ringDoorbell core b).loads = d.loads := rfl
@[simp] theorem Dev.ringDoorbell_runs (d : Dev) (core b : Nat) : (d.ringDoorbell core b).runs = d.runs := rfl
@[simp] theorem Dev.ringDoorbell_rings (d : Dev) (core b : Nat) : (d.ringDoorbell core b).rings = d.rings := rfl
@[simp] theorem Dev.ringDoorbell_movErr (d : Dev) (core b : Nat) : (d.ringDoorbell core b).movErr = d.movErr := rfl
@[simp] theorem Dev.ringDoorbell_nvsBusy (d : Dev) (core b : Nat) : (d.ringDoorbell core b).nvsBusy = d.nvsBusy := rfl
@[simp] theorem Dev.ringDoorbell_halyards (d : Dev) (core b : Nat) : (d.ringDoorbell core b).halyards = d.halyards := rfl
@[simp] theorem Dev.ringDoorbell_dram (d : Dev) (core b : Nat) : (d.ringDoorbell core b).dram = d.dram := rfl
@[simp] theorem Dev.ringDoorbell_irq (d : Dev) (core b : Nat) : (d.ringDoorbell core b).irq = d.irq := rfl
@[simp] theorem Dev.ringDoorbell_hka (d : Dev) (core b : Nat) : (d.ringDoorbell core b).hka = d.hka := rfl
@[simp] theorem Dev.ringDoorbell_power (d : Dev) (core b : Nat) : (d.ringDoorbell core b).power = d.power := rfl
@[simp] theorem Dev.ringDoorbell_repair (d : Dev) (core b : Nat) : (d.ringDoorbell core b).repair = d.repair := rfl
@[simp] theorem Dev.ringDoorbell_sec (d : Dev) (core b : Nat) : (d.ringDoorbell core b).sec = d.sec := rfl
@[simp] theorem Dev.ringDoorbell_cal (d : Dev) (core b : Nat) : (d.ringDoorbell core b).cal = d.cal := rfl
@[simp] theorem Dev.ringDoorbell_clocks (d : Dev) (core b : Nat) : (d.ringDoorbell core b).clocks = d.clocks := rfl
@[simp] theorem Dev.ringDoorbell_sortMem (d : Dev) (core b : Nat) : (d.ringDoorbell core b).sortMem = d.sortMem := rfl
@[simp] theorem Dev.ringDoorbell_conflicts (d : Dev) (core b : Nat) : (d.ringDoorbell core b).conflicts = d.conflicts := rfl
@[simp] theorem Dev.ringDoorbell_chase (d : Dev) (core b : Nat) : (d.ringDoorbell core b).chase = d.chase := rfl
@[simp] theorem Dev.ringDoorbell_chans (d : Dev) (core b : Nat) : (d.ringDoorbell core b).chans = d.chans := rfl
@[simp] theorem Dev.ringDoorbell_xfrms (d : Dev) (core b : Nat) : (d.ringDoorbell core b).xfrms = d.xfrms := rfl
@[simp] theorem Dev.ringDoorbell_windows (d : Dev) (core b : Nat) : (d.ringDoorbell core b).windows = d.windows := rfl
@[simp] theorem Dev.ringDoorbell_traces (d : Dev) (core b : Nat) : (d.ringDoorbell core b).traces = d.traces := rfl
@[simp] theorem Dev.ringDoorbell_cores (d : Dev) (core b : Nat) : (d.ringDoorbell core b).cores = d.cores := rfl
@[simp] theorem Dev.ringDoorbell_trigs (d : Dev) (core b : Nat) : (d.ringDoorbell core b).trigs = d.trigs := rfl
@[simp] theorem Dev.ringDoorbell_rawcs (d : Dev) (core b : Nat) : (d.ringDoorbell core b).rawcs = d.rawcs := rfl
@[simp] theorem Dev.ringDoorbell_axes (d : Dev) (core b : Nat) : (d.ringDoorbell core b).axes = d.axes := rfl
@[simp] theorem Dev.ringDoorbell_cues (d : Dev) (core b : Nat) : (d.ringDoorbell core b).cues = d.cues := rfl
@[simp] theorem Dev.ringDoorbell_time (d : Dev) (core b : Nat) : (d.ringDoorbell core b).time = d.time := rfl
@[simp] theorem Dev.ringDoorbell_sheets (d : Dev) (core b : Nat) : (d.ringDoorbell core b).sheets = d.sheets := rfl
@[simp] theorem Dev.ringDoorbell_links (d : Dev) (core b : Nat) : (d.ringDoorbell core b).links = d.links := rfl
@[simp] theorem Dev.ringDoorbell_denses (d : Dev) (core b : Nat) : (d.ringDoorbell core b).denses = d.denses := rfl
@[simp] theorem Dev.ringDoorbell_vid (d : Dev) (core b : Nat) : (d.ringDoorbell core b).vid = d.vid := rfl
@[simp] theorem Dev.ringDoorbell_stay (d : Dev) (core b : Nat) : (d.ringDoorbell core b).stay = d.stay := rfl
@[simp] theorem Dev.ringDoorbell_out (d : Dev) (core b : Nat) : (d.ringDoorbell core b).out = d.out := rfl
@[simp] theorem Dev.ringDoorbell_freeCtr (d : Dev) (core b : Nat) : (d.ringDoorbell core b).freeCtr = d.freeCtr := rfl

/-- An interrupt message moves interrupt state or a wire. -/
theorem Dev.message_shape (d : Dev) (g : Nat) : ∃ i o, d.message g = { d with irq := i, out := o } := by
  unfold Dev.message
  split
  · exact ⟨_, d.out, rfl⟩
  · exact ⟨d.irq, _, rfl⟩

/-- A delivery moves registers, interrupt state and wires. -/
theorem Dev.deliver_shape (d : Dev) (g : Nat) (h c : Bool) : ∃ r z i o, d.deliver g h c = { d with regs := r, regs0 := z, irq := i, out := o } := by
  have k (e : Dev) : (∃ r z i o, e = { d with regs := r, regs0 := z, irq := i, out := o }) →
      ∃ r z i o, (if h then e.message g else e) = { d with regs := r, regs0 := z, irq := i, out := o } := by
    rintro ⟨r, z, i, o, rfl⟩
    split
    · obtain ⟨i', o', e⟩ := Dev.message_shape ({ d with regs := r, regs0 := z, irq := i, out := o } : Dev) g
      exact ⟨r, z, i', o', by rw [e]⟩
    · exact ⟨r, z, i, o, rfl⟩
  unfold Dev.deliver
  cases c
  · exact k _ ⟨_, _, _, _, rfl⟩
  · exact k _ ⟨_, _, _, _, rfl⟩

/-- An admitted or refused delivery moves registers, interrupt state and wires. -/
theorem Dev.tryDeliver_shape (d : Dev) (g : Nat) : ∃ r z i o, d.tryDeliver g = { d with regs := r, regs0 := z, irq := i, out := o } := by
  unfold Dev.tryDeliver
  dsimp only
  split
  · exact ⟨d.regs, d.regs0, d.irq, d.out, rfl⟩
  · split
    · exact Dev.deliver_shape d g _ _
    · exact ⟨d.regs, d.regs0, d.irq, d.out, rfl⟩

/-- An edge event moves registers, interrupt state and wires. -/
theorem Dev.raise_shape (d : Dev) (g s : Nat) : ∃ r z i o, d.raise g s = { d with regs := r, regs0 := z, irq := i, out := o } := by
  obtain ⟨r, z, i, o, e⟩ := Dev.tryDeliver_shape (d.setBits F.IRQ_PENDING_PENDING (2 ^ s) g) g
  exact ⟨r, z, i, o, e⟩

/-- A level condition moves registers, interrupt state and wires. -/
theorem Dev.level_shape (d : Dev) (g s : Nat) (b : Bool) : ∃ r z i o, d.level g s b = { d with regs := r, regs0 := z, irq := i, out := o } := by
  unfold Dev.level
  dsimp only
  split
  · split
    · exact ⟨_, d.regs0, d.irq, d.out, rfl⟩
    · obtain ⟨r, z, i, o, e⟩ := Dev.raise_shape (d.wr F.IRQ_RAW_RAW (d.rd F.IRQ_RAW_RAW g ||| 2 ^ s) g) g s
      exact ⟨r, z, i, o, e⟩
  · exact ⟨_, d.regs0, d.irq, d.out, rfl⟩

@[simp] theorem Dev.tryDeliver_wide (d : Dev) (g : Nat) : (d.tryDeliver g).wide = d.wide := by obtain ⟨_, _, _, _, e⟩ := Dev.tryDeliver_shape d g; rw [e]
@[simp] theorem Dev.tryDeliver_readData (d : Dev) (g : Nat) : (d.tryDeliver g).readData = d.readData := by obtain ⟨_, _, _, _, e⟩ := Dev.tryDeliver_shape d g; rw [e]
@[simp] theorem Dev.tryDeliver_mem (d : Dev) (g : Nat) : (d.tryDeliver g).mem = d.mem := by obtain ⟨_, _, _, _, e⟩ := Dev.tryDeliver_shape d g; rw [e]
@[simp] theorem Dev.tryDeliver_hostMem (d : Dev) (g : Nat) : (d.tryDeliver g).hostMem = d.hostMem := by obtain ⟨_, _, _, _, e⟩ := Dev.tryDeliver_shape d g; rw [e]
@[simp] theorem Dev.tryDeliver_nvs (d : Dev) (g : Nat) : (d.tryDeliver g).nvs = d.nvs := by obtain ⟨_, _, _, _, e⟩ := Dev.tryDeliver_shape d g; rw [e]
@[simp] theorem Dev.tryDeliver_clk (d : Dev) (g : Nat) : (d.tryDeliver g).clk = d.clk := by obtain ⟨_, _, _, _, e⟩ := Dev.tryDeliver_shape d g; rw [e]
@[simp] theorem Dev.tryDeliver_localTime (d : Dev) (g : Nat) : (d.tryDeliver g).localTime = d.localTime := by obtain ⟨_, _, _, _, e⟩ := Dev.tryDeliver_shape d g; rw [e]
@[simp] theorem Dev.tryDeliver_inputs (d : Dev) (g : Nat) : (d.tryDeliver g).inputs = d.inputs := by obtain ⟨_, _, _, _, e⟩ := Dev.tryDeliver_shape d g; rw [e]
@[simp] theorem Dev.tryDeliver_sections (d : Dev) (g : Nat) : (d.tryDeliver g).sections = d.sections := by obtain ⟨_, _, _, _, e⟩ := Dev.tryDeliver_shape d g; rw [e]
@[simp] theorem Dev.tryDeliver_maps (d : Dev) (g : Nat) : (d.tryDeliver g).maps = d.maps := by obtain ⟨_, _, _, _, e⟩ := Dev.tryDeliver_shape d g; rw [e]
@[simp] theorem Dev.tryDeliver_slots (d : Dev) (g : Nat) : (d.tryDeliver g).slots = d.slots := by obtain ⟨_, _, _, _, e⟩ := Dev.tryDeliver_shape d g; rw [e]
@[simp] theorem Dev.tryDeliver_loads (d : Dev) (g : Nat) : (d.tryDeliver g).loads = d.loads := by obtain ⟨_, _, _, _, e⟩ := Dev.tryDeliver_shape d g; rw [e]
@[simp] theorem Dev.tryDeliver_runs (d : Dev) (g : Nat) : (d.tryDeliver g).runs = d.runs := by obtain ⟨_, _, _, _, e⟩ := Dev.tryDeliver_shape d g; rw [e]
@[simp] theorem Dev.tryDeliver_rings (d : Dev) (g : Nat) : (d.tryDeliver g).rings = d.rings := by obtain ⟨_, _, _, _, e⟩ := Dev.tryDeliver_shape d g; rw [e]
@[simp] theorem Dev.tryDeliver_movErr (d : Dev) (g : Nat) : (d.tryDeliver g).movErr = d.movErr := by obtain ⟨_, _, _, _, e⟩ := Dev.tryDeliver_shape d g; rw [e]
@[simp] theorem Dev.tryDeliver_nvsBusy (d : Dev) (g : Nat) : (d.tryDeliver g).nvsBusy = d.nvsBusy := by obtain ⟨_, _, _, _, e⟩ := Dev.tryDeliver_shape d g; rw [e]
@[simp] theorem Dev.tryDeliver_halyards (d : Dev) (g : Nat) : (d.tryDeliver g).halyards = d.halyards := by obtain ⟨_, _, _, _, e⟩ := Dev.tryDeliver_shape d g; rw [e]
@[simp] theorem Dev.tryDeliver_dram (d : Dev) (g : Nat) : (d.tryDeliver g).dram = d.dram := by obtain ⟨_, _, _, _, e⟩ := Dev.tryDeliver_shape d g; rw [e]
@[simp] theorem Dev.tryDeliver_hka (d : Dev) (g : Nat) : (d.tryDeliver g).hka = d.hka := by obtain ⟨_, _, _, _, e⟩ := Dev.tryDeliver_shape d g; rw [e]
@[simp] theorem Dev.tryDeliver_power (d : Dev) (g : Nat) : (d.tryDeliver g).power = d.power := by obtain ⟨_, _, _, _, e⟩ := Dev.tryDeliver_shape d g; rw [e]
@[simp] theorem Dev.tryDeliver_repair (d : Dev) (g : Nat) : (d.tryDeliver g).repair = d.repair := by obtain ⟨_, _, _, _, e⟩ := Dev.tryDeliver_shape d g; rw [e]
@[simp] theorem Dev.tryDeliver_sec (d : Dev) (g : Nat) : (d.tryDeliver g).sec = d.sec := by obtain ⟨_, _, _, _, e⟩ := Dev.tryDeliver_shape d g; rw [e]
@[simp] theorem Dev.tryDeliver_cal (d : Dev) (g : Nat) : (d.tryDeliver g).cal = d.cal := by obtain ⟨_, _, _, _, e⟩ := Dev.tryDeliver_shape d g; rw [e]
@[simp] theorem Dev.tryDeliver_clocks (d : Dev) (g : Nat) : (d.tryDeliver g).clocks = d.clocks := by obtain ⟨_, _, _, _, e⟩ := Dev.tryDeliver_shape d g; rw [e]
@[simp] theorem Dev.tryDeliver_sortMem (d : Dev) (g : Nat) : (d.tryDeliver g).sortMem = d.sortMem := by obtain ⟨_, _, _, _, e⟩ := Dev.tryDeliver_shape d g; rw [e]
@[simp] theorem Dev.tryDeliver_conflicts (d : Dev) (g : Nat) : (d.tryDeliver g).conflicts = d.conflicts := by obtain ⟨_, _, _, _, e⟩ := Dev.tryDeliver_shape d g; rw [e]
@[simp] theorem Dev.tryDeliver_chase (d : Dev) (g : Nat) : (d.tryDeliver g).chase = d.chase := by obtain ⟨_, _, _, _, e⟩ := Dev.tryDeliver_shape d g; rw [e]
@[simp] theorem Dev.tryDeliver_chans (d : Dev) (g : Nat) : (d.tryDeliver g).chans = d.chans := by obtain ⟨_, _, _, _, e⟩ := Dev.tryDeliver_shape d g; rw [e]
@[simp] theorem Dev.tryDeliver_xfrms (d : Dev) (g : Nat) : (d.tryDeliver g).xfrms = d.xfrms := by obtain ⟨_, _, _, _, e⟩ := Dev.tryDeliver_shape d g; rw [e]
@[simp] theorem Dev.tryDeliver_windows (d : Dev) (g : Nat) : (d.tryDeliver g).windows = d.windows := by obtain ⟨_, _, _, _, e⟩ := Dev.tryDeliver_shape d g; rw [e]
@[simp] theorem Dev.tryDeliver_traces (d : Dev) (g : Nat) : (d.tryDeliver g).traces = d.traces := by obtain ⟨_, _, _, _, e⟩ := Dev.tryDeliver_shape d g; rw [e]
@[simp] theorem Dev.tryDeliver_cores (d : Dev) (g : Nat) : (d.tryDeliver g).cores = d.cores := by obtain ⟨_, _, _, _, e⟩ := Dev.tryDeliver_shape d g; rw [e]
@[simp] theorem Dev.tryDeliver_trigs (d : Dev) (g : Nat) : (d.tryDeliver g).trigs = d.trigs := by obtain ⟨_, _, _, _, e⟩ := Dev.tryDeliver_shape d g; rw [e]
@[simp] theorem Dev.tryDeliver_rawcs (d : Dev) (g : Nat) : (d.tryDeliver g).rawcs = d.rawcs := by obtain ⟨_, _, _, _, e⟩ := Dev.tryDeliver_shape d g; rw [e]
@[simp] theorem Dev.tryDeliver_axes (d : Dev) (g : Nat) : (d.tryDeliver g).axes = d.axes := by obtain ⟨_, _, _, _, e⟩ := Dev.tryDeliver_shape d g; rw [e]
@[simp] theorem Dev.tryDeliver_cues (d : Dev) (g : Nat) : (d.tryDeliver g).cues = d.cues := by obtain ⟨_, _, _, _, e⟩ := Dev.tryDeliver_shape d g; rw [e]
@[simp] theorem Dev.tryDeliver_time (d : Dev) (g : Nat) : (d.tryDeliver g).time = d.time := by obtain ⟨_, _, _, _, e⟩ := Dev.tryDeliver_shape d g; rw [e]
@[simp] theorem Dev.tryDeliver_sheets (d : Dev) (g : Nat) : (d.tryDeliver g).sheets = d.sheets := by obtain ⟨_, _, _, _, e⟩ := Dev.tryDeliver_shape d g; rw [e]
@[simp] theorem Dev.tryDeliver_links (d : Dev) (g : Nat) : (d.tryDeliver g).links = d.links := by obtain ⟨_, _, _, _, e⟩ := Dev.tryDeliver_shape d g; rw [e]
@[simp] theorem Dev.tryDeliver_denses (d : Dev) (g : Nat) : (d.tryDeliver g).denses = d.denses := by obtain ⟨_, _, _, _, e⟩ := Dev.tryDeliver_shape d g; rw [e]
@[simp] theorem Dev.tryDeliver_vid (d : Dev) (g : Nat) : (d.tryDeliver g).vid = d.vid := by obtain ⟨_, _, _, _, e⟩ := Dev.tryDeliver_shape d g; rw [e]
@[simp] theorem Dev.tryDeliver_stay (d : Dev) (g : Nat) : (d.tryDeliver g).stay = d.stay := by obtain ⟨_, _, _, _, e⟩ := Dev.tryDeliver_shape d g; rw [e]
@[simp] theorem Dev.tryDeliver_freeCtr (d : Dev) (g : Nat) : (d.tryDeliver g).freeCtr = d.freeCtr := by obtain ⟨_, _, _, _, e⟩ := Dev.tryDeliver_shape d g; rw [e]

@[simp] theorem Dev.raise_wide (d : Dev) (g s : Nat) : (d.raise g s).wide = d.wide := by obtain ⟨_, _, _, _, e⟩ := Dev.raise_shape d g s; rw [e]
@[simp] theorem Dev.raise_readData (d : Dev) (g s : Nat) : (d.raise g s).readData = d.readData := by obtain ⟨_, _, _, _, e⟩ := Dev.raise_shape d g s; rw [e]
@[simp] theorem Dev.raise_mem (d : Dev) (g s : Nat) : (d.raise g s).mem = d.mem := by obtain ⟨_, _, _, _, e⟩ := Dev.raise_shape d g s; rw [e]
@[simp] theorem Dev.raise_hostMem (d : Dev) (g s : Nat) : (d.raise g s).hostMem = d.hostMem := by obtain ⟨_, _, _, _, e⟩ := Dev.raise_shape d g s; rw [e]
@[simp] theorem Dev.raise_nvs (d : Dev) (g s : Nat) : (d.raise g s).nvs = d.nvs := by obtain ⟨_, _, _, _, e⟩ := Dev.raise_shape d g s; rw [e]
@[simp] theorem Dev.raise_clk (d : Dev) (g s : Nat) : (d.raise g s).clk = d.clk := by obtain ⟨_, _, _, _, e⟩ := Dev.raise_shape d g s; rw [e]
@[simp] theorem Dev.raise_localTime (d : Dev) (g s : Nat) : (d.raise g s).localTime = d.localTime := by obtain ⟨_, _, _, _, e⟩ := Dev.raise_shape d g s; rw [e]
@[simp] theorem Dev.raise_inputs (d : Dev) (g s : Nat) : (d.raise g s).inputs = d.inputs := by obtain ⟨_, _, _, _, e⟩ := Dev.raise_shape d g s; rw [e]
@[simp] theorem Dev.raise_sections (d : Dev) (g s : Nat) : (d.raise g s).sections = d.sections := by obtain ⟨_, _, _, _, e⟩ := Dev.raise_shape d g s; rw [e]
@[simp] theorem Dev.raise_maps (d : Dev) (g s : Nat) : (d.raise g s).maps = d.maps := by obtain ⟨_, _, _, _, e⟩ := Dev.raise_shape d g s; rw [e]
@[simp] theorem Dev.raise_slots (d : Dev) (g s : Nat) : (d.raise g s).slots = d.slots := by obtain ⟨_, _, _, _, e⟩ := Dev.raise_shape d g s; rw [e]
@[simp] theorem Dev.raise_loads (d : Dev) (g s : Nat) : (d.raise g s).loads = d.loads := by obtain ⟨_, _, _, _, e⟩ := Dev.raise_shape d g s; rw [e]
@[simp] theorem Dev.raise_runs (d : Dev) (g s : Nat) : (d.raise g s).runs = d.runs := by obtain ⟨_, _, _, _, e⟩ := Dev.raise_shape d g s; rw [e]
@[simp] theorem Dev.raise_rings (d : Dev) (g s : Nat) : (d.raise g s).rings = d.rings := by obtain ⟨_, _, _, _, e⟩ := Dev.raise_shape d g s; rw [e]
@[simp] theorem Dev.raise_movErr (d : Dev) (g s : Nat) : (d.raise g s).movErr = d.movErr := by obtain ⟨_, _, _, _, e⟩ := Dev.raise_shape d g s; rw [e]
@[simp] theorem Dev.raise_nvsBusy (d : Dev) (g s : Nat) : (d.raise g s).nvsBusy = d.nvsBusy := by obtain ⟨_, _, _, _, e⟩ := Dev.raise_shape d g s; rw [e]
@[simp] theorem Dev.raise_halyards (d : Dev) (g s : Nat) : (d.raise g s).halyards = d.halyards := by obtain ⟨_, _, _, _, e⟩ := Dev.raise_shape d g s; rw [e]
@[simp] theorem Dev.raise_dram (d : Dev) (g s : Nat) : (d.raise g s).dram = d.dram := by obtain ⟨_, _, _, _, e⟩ := Dev.raise_shape d g s; rw [e]
@[simp] theorem Dev.raise_hka (d : Dev) (g s : Nat) : (d.raise g s).hka = d.hka := by obtain ⟨_, _, _, _, e⟩ := Dev.raise_shape d g s; rw [e]
@[simp] theorem Dev.raise_power (d : Dev) (g s : Nat) : (d.raise g s).power = d.power := by obtain ⟨_, _, _, _, e⟩ := Dev.raise_shape d g s; rw [e]
@[simp] theorem Dev.raise_repair (d : Dev) (g s : Nat) : (d.raise g s).repair = d.repair := by obtain ⟨_, _, _, _, e⟩ := Dev.raise_shape d g s; rw [e]
@[simp] theorem Dev.raise_sec (d : Dev) (g s : Nat) : (d.raise g s).sec = d.sec := by obtain ⟨_, _, _, _, e⟩ := Dev.raise_shape d g s; rw [e]
@[simp] theorem Dev.raise_cal (d : Dev) (g s : Nat) : (d.raise g s).cal = d.cal := by obtain ⟨_, _, _, _, e⟩ := Dev.raise_shape d g s; rw [e]
@[simp] theorem Dev.raise_clocks (d : Dev) (g s : Nat) : (d.raise g s).clocks = d.clocks := by obtain ⟨_, _, _, _, e⟩ := Dev.raise_shape d g s; rw [e]
@[simp] theorem Dev.raise_sortMem (d : Dev) (g s : Nat) : (d.raise g s).sortMem = d.sortMem := by obtain ⟨_, _, _, _, e⟩ := Dev.raise_shape d g s; rw [e]
@[simp] theorem Dev.raise_conflicts (d : Dev) (g s : Nat) : (d.raise g s).conflicts = d.conflicts := by obtain ⟨_, _, _, _, e⟩ := Dev.raise_shape d g s; rw [e]
@[simp] theorem Dev.raise_chase (d : Dev) (g s : Nat) : (d.raise g s).chase = d.chase := by obtain ⟨_, _, _, _, e⟩ := Dev.raise_shape d g s; rw [e]
@[simp] theorem Dev.raise_chans (d : Dev) (g s : Nat) : (d.raise g s).chans = d.chans := by obtain ⟨_, _, _, _, e⟩ := Dev.raise_shape d g s; rw [e]
@[simp] theorem Dev.raise_xfrms (d : Dev) (g s : Nat) : (d.raise g s).xfrms = d.xfrms := by obtain ⟨_, _, _, _, e⟩ := Dev.raise_shape d g s; rw [e]
@[simp] theorem Dev.raise_windows (d : Dev) (g s : Nat) : (d.raise g s).windows = d.windows := by obtain ⟨_, _, _, _, e⟩ := Dev.raise_shape d g s; rw [e]
@[simp] theorem Dev.raise_traces (d : Dev) (g s : Nat) : (d.raise g s).traces = d.traces := by obtain ⟨_, _, _, _, e⟩ := Dev.raise_shape d g s; rw [e]
@[simp] theorem Dev.raise_cores (d : Dev) (g s : Nat) : (d.raise g s).cores = d.cores := by obtain ⟨_, _, _, _, e⟩ := Dev.raise_shape d g s; rw [e]
@[simp] theorem Dev.raise_trigs (d : Dev) (g s : Nat) : (d.raise g s).trigs = d.trigs := by obtain ⟨_, _, _, _, e⟩ := Dev.raise_shape d g s; rw [e]
@[simp] theorem Dev.raise_rawcs (d : Dev) (g s : Nat) : (d.raise g s).rawcs = d.rawcs := by obtain ⟨_, _, _, _, e⟩ := Dev.raise_shape d g s; rw [e]
@[simp] theorem Dev.raise_axes (d : Dev) (g s : Nat) : (d.raise g s).axes = d.axes := by obtain ⟨_, _, _, _, e⟩ := Dev.raise_shape d g s; rw [e]
@[simp] theorem Dev.raise_cues (d : Dev) (g s : Nat) : (d.raise g s).cues = d.cues := by obtain ⟨_, _, _, _, e⟩ := Dev.raise_shape d g s; rw [e]
@[simp] theorem Dev.raise_time (d : Dev) (g s : Nat) : (d.raise g s).time = d.time := by obtain ⟨_, _, _, _, e⟩ := Dev.raise_shape d g s; rw [e]
@[simp] theorem Dev.raise_sheets (d : Dev) (g s : Nat) : (d.raise g s).sheets = d.sheets := by obtain ⟨_, _, _, _, e⟩ := Dev.raise_shape d g s; rw [e]
@[simp] theorem Dev.raise_links (d : Dev) (g s : Nat) : (d.raise g s).links = d.links := by obtain ⟨_, _, _, _, e⟩ := Dev.raise_shape d g s; rw [e]
@[simp] theorem Dev.raise_denses (d : Dev) (g s : Nat) : (d.raise g s).denses = d.denses := by obtain ⟨_, _, _, _, e⟩ := Dev.raise_shape d g s; rw [e]
@[simp] theorem Dev.raise_vid (d : Dev) (g s : Nat) : (d.raise g s).vid = d.vid := by obtain ⟨_, _, _, _, e⟩ := Dev.raise_shape d g s; rw [e]
@[simp] theorem Dev.raise_stay (d : Dev) (g s : Nat) : (d.raise g s).stay = d.stay := by obtain ⟨_, _, _, _, e⟩ := Dev.raise_shape d g s; rw [e]
@[simp] theorem Dev.raise_freeCtr (d : Dev) (g s : Nat) : (d.raise g s).freeCtr = d.freeCtr := by obtain ⟨_, _, _, _, e⟩ := Dev.raise_shape d g s; rw [e]

@[simp] theorem Dev.level_wide (d : Dev) (g s : Nat) (b : Bool) : (d.level g s b).wide = d.wide := by obtain ⟨_, _, _, _, e⟩ := Dev.level_shape d g s b; rw [e]
@[simp] theorem Dev.level_readData (d : Dev) (g s : Nat) (b : Bool) : (d.level g s b).readData = d.readData := by obtain ⟨_, _, _, _, e⟩ := Dev.level_shape d g s b; rw [e]
@[simp] theorem Dev.level_mem (d : Dev) (g s : Nat) (b : Bool) : (d.level g s b).mem = d.mem := by obtain ⟨_, _, _, _, e⟩ := Dev.level_shape d g s b; rw [e]
@[simp] theorem Dev.level_hostMem (d : Dev) (g s : Nat) (b : Bool) : (d.level g s b).hostMem = d.hostMem := by obtain ⟨_, _, _, _, e⟩ := Dev.level_shape d g s b; rw [e]
@[simp] theorem Dev.level_nvs (d : Dev) (g s : Nat) (b : Bool) : (d.level g s b).nvs = d.nvs := by obtain ⟨_, _, _, _, e⟩ := Dev.level_shape d g s b; rw [e]
@[simp] theorem Dev.level_clk (d : Dev) (g s : Nat) (b : Bool) : (d.level g s b).clk = d.clk := by obtain ⟨_, _, _, _, e⟩ := Dev.level_shape d g s b; rw [e]
@[simp] theorem Dev.level_localTime (d : Dev) (g s : Nat) (b : Bool) : (d.level g s b).localTime = d.localTime := by obtain ⟨_, _, _, _, e⟩ := Dev.level_shape d g s b; rw [e]
@[simp] theorem Dev.level_inputs (d : Dev) (g s : Nat) (b : Bool) : (d.level g s b).inputs = d.inputs := by obtain ⟨_, _, _, _, e⟩ := Dev.level_shape d g s b; rw [e]
@[simp] theorem Dev.level_sections (d : Dev) (g s : Nat) (b : Bool) : (d.level g s b).sections = d.sections := by obtain ⟨_, _, _, _, e⟩ := Dev.level_shape d g s b; rw [e]
@[simp] theorem Dev.level_maps (d : Dev) (g s : Nat) (b : Bool) : (d.level g s b).maps = d.maps := by obtain ⟨_, _, _, _, e⟩ := Dev.level_shape d g s b; rw [e]
@[simp] theorem Dev.level_slots (d : Dev) (g s : Nat) (b : Bool) : (d.level g s b).slots = d.slots := by obtain ⟨_, _, _, _, e⟩ := Dev.level_shape d g s b; rw [e]
@[simp] theorem Dev.level_loads (d : Dev) (g s : Nat) (b : Bool) : (d.level g s b).loads = d.loads := by obtain ⟨_, _, _, _, e⟩ := Dev.level_shape d g s b; rw [e]
@[simp] theorem Dev.level_runs (d : Dev) (g s : Nat) (b : Bool) : (d.level g s b).runs = d.runs := by obtain ⟨_, _, _, _, e⟩ := Dev.level_shape d g s b; rw [e]
@[simp] theorem Dev.level_rings (d : Dev) (g s : Nat) (b : Bool) : (d.level g s b).rings = d.rings := by obtain ⟨_, _, _, _, e⟩ := Dev.level_shape d g s b; rw [e]
@[simp] theorem Dev.level_movErr (d : Dev) (g s : Nat) (b : Bool) : (d.level g s b).movErr = d.movErr := by obtain ⟨_, _, _, _, e⟩ := Dev.level_shape d g s b; rw [e]
@[simp] theorem Dev.level_nvsBusy (d : Dev) (g s : Nat) (b : Bool) : (d.level g s b).nvsBusy = d.nvsBusy := by obtain ⟨_, _, _, _, e⟩ := Dev.level_shape d g s b; rw [e]
@[simp] theorem Dev.level_halyards (d : Dev) (g s : Nat) (b : Bool) : (d.level g s b).halyards = d.halyards := by obtain ⟨_, _, _, _, e⟩ := Dev.level_shape d g s b; rw [e]
@[simp] theorem Dev.level_dram (d : Dev) (g s : Nat) (b : Bool) : (d.level g s b).dram = d.dram := by obtain ⟨_, _, _, _, e⟩ := Dev.level_shape d g s b; rw [e]
@[simp] theorem Dev.level_hka (d : Dev) (g s : Nat) (b : Bool) : (d.level g s b).hka = d.hka := by obtain ⟨_, _, _, _, e⟩ := Dev.level_shape d g s b; rw [e]
@[simp] theorem Dev.level_power (d : Dev) (g s : Nat) (b : Bool) : (d.level g s b).power = d.power := by obtain ⟨_, _, _, _, e⟩ := Dev.level_shape d g s b; rw [e]
@[simp] theorem Dev.level_repair (d : Dev) (g s : Nat) (b : Bool) : (d.level g s b).repair = d.repair := by obtain ⟨_, _, _, _, e⟩ := Dev.level_shape d g s b; rw [e]
@[simp] theorem Dev.level_sec (d : Dev) (g s : Nat) (b : Bool) : (d.level g s b).sec = d.sec := by obtain ⟨_, _, _, _, e⟩ := Dev.level_shape d g s b; rw [e]
@[simp] theorem Dev.level_cal (d : Dev) (g s : Nat) (b : Bool) : (d.level g s b).cal = d.cal := by obtain ⟨_, _, _, _, e⟩ := Dev.level_shape d g s b; rw [e]
@[simp] theorem Dev.level_clocks (d : Dev) (g s : Nat) (b : Bool) : (d.level g s b).clocks = d.clocks := by obtain ⟨_, _, _, _, e⟩ := Dev.level_shape d g s b; rw [e]
@[simp] theorem Dev.level_sortMem (d : Dev) (g s : Nat) (b : Bool) : (d.level g s b).sortMem = d.sortMem := by obtain ⟨_, _, _, _, e⟩ := Dev.level_shape d g s b; rw [e]
@[simp] theorem Dev.level_conflicts (d : Dev) (g s : Nat) (b : Bool) : (d.level g s b).conflicts = d.conflicts := by obtain ⟨_, _, _, _, e⟩ := Dev.level_shape d g s b; rw [e]
@[simp] theorem Dev.level_chase (d : Dev) (g s : Nat) (b : Bool) : (d.level g s b).chase = d.chase := by obtain ⟨_, _, _, _, e⟩ := Dev.level_shape d g s b; rw [e]
@[simp] theorem Dev.level_chans (d : Dev) (g s : Nat) (b : Bool) : (d.level g s b).chans = d.chans := by obtain ⟨_, _, _, _, e⟩ := Dev.level_shape d g s b; rw [e]
@[simp] theorem Dev.level_xfrms (d : Dev) (g s : Nat) (b : Bool) : (d.level g s b).xfrms = d.xfrms := by obtain ⟨_, _, _, _, e⟩ := Dev.level_shape d g s b; rw [e]
@[simp] theorem Dev.level_windows (d : Dev) (g s : Nat) (b : Bool) : (d.level g s b).windows = d.windows := by obtain ⟨_, _, _, _, e⟩ := Dev.level_shape d g s b; rw [e]
@[simp] theorem Dev.level_traces (d : Dev) (g s : Nat) (b : Bool) : (d.level g s b).traces = d.traces := by obtain ⟨_, _, _, _, e⟩ := Dev.level_shape d g s b; rw [e]
@[simp] theorem Dev.level_cores (d : Dev) (g s : Nat) (b : Bool) : (d.level g s b).cores = d.cores := by obtain ⟨_, _, _, _, e⟩ := Dev.level_shape d g s b; rw [e]
@[simp] theorem Dev.level_trigs (d : Dev) (g s : Nat) (b : Bool) : (d.level g s b).trigs = d.trigs := by obtain ⟨_, _, _, _, e⟩ := Dev.level_shape d g s b; rw [e]
@[simp] theorem Dev.level_rawcs (d : Dev) (g s : Nat) (b : Bool) : (d.level g s b).rawcs = d.rawcs := by obtain ⟨_, _, _, _, e⟩ := Dev.level_shape d g s b; rw [e]
@[simp] theorem Dev.level_axes (d : Dev) (g s : Nat) (b : Bool) : (d.level g s b).axes = d.axes := by obtain ⟨_, _, _, _, e⟩ := Dev.level_shape d g s b; rw [e]
@[simp] theorem Dev.level_cues (d : Dev) (g s : Nat) (b : Bool) : (d.level g s b).cues = d.cues := by obtain ⟨_, _, _, _, e⟩ := Dev.level_shape d g s b; rw [e]
@[simp] theorem Dev.level_time (d : Dev) (g s : Nat) (b : Bool) : (d.level g s b).time = d.time := by obtain ⟨_, _, _, _, e⟩ := Dev.level_shape d g s b; rw [e]
@[simp] theorem Dev.level_sheets (d : Dev) (g s : Nat) (b : Bool) : (d.level g s b).sheets = d.sheets := by obtain ⟨_, _, _, _, e⟩ := Dev.level_shape d g s b; rw [e]
@[simp] theorem Dev.level_links (d : Dev) (g s : Nat) (b : Bool) : (d.level g s b).links = d.links := by obtain ⟨_, _, _, _, e⟩ := Dev.level_shape d g s b; rw [e]
@[simp] theorem Dev.level_denses (d : Dev) (g s : Nat) (b : Bool) : (d.level g s b).denses = d.denses := by obtain ⟨_, _, _, _, e⟩ := Dev.level_shape d g s b; rw [e]
@[simp] theorem Dev.level_vid (d : Dev) (g s : Nat) (b : Bool) : (d.level g s b).vid = d.vid := by obtain ⟨_, _, _, _, e⟩ := Dev.level_shape d g s b; rw [e]
@[simp] theorem Dev.level_stay (d : Dev) (g s : Nat) (b : Bool) : (d.level g s b).stay = d.stay := by obtain ⟨_, _, _, _, e⟩ := Dev.level_shape d g s b; rw [e]
@[simp] theorem Dev.level_freeCtr (d : Dev) (g s : Nat) (b : Bool) : (d.level g s b).freeCtr = d.freeCtr := by obtain ⟨_, _, _, _, e⟩ := Dev.level_shape d g s b; rw [e]

/-! ## Time (R8, R19, R284): what the passing of clocks leaves alone -/

/-- Sample indices that advance move inputs only. -/
theorem Dev.advanceInputs_shape (d : Dev) (k : Nat) : ∀ m, ∃ i, d.advanceInputs k m = { d with inputs := i }
  | 0 => ⟨d.inputs, rfl⟩
  | m + 1 => by
    obtain ⟨i, e⟩ := Dev.advanceInputs_shape d k m
    unfold Dev.advanceInputs
    rw [e]
    exact ⟨_, rfl⟩

/-- Clocks that pass move the clock, the local clock, the sample indices, the time base's lag, and begin a new clock (R8). -/
theorem Dev.advance_shape (d : Dev) (k : Nat) : ∃ c t i l z, d.advance k = { d with clk := c, localTime := t, inputs := i, time := { d.time with lag := l }, regs0 := z } := by
  unfold Dev.advance
  split
  · exact ⟨d.clk, d.localTime, d.inputs, d.time.lag, d.regs0, rfl⟩
  · obtain ⟨i, e⟩ := Dev.advanceInputs_shape d k 8
    rw [e]
    exact ⟨_, _, i, _, _, rfl⟩

@[simp] theorem Dev.advance_regs (d : Dev) (k : Nat) : (d.advance k).regs = d.regs := by obtain ⟨_, _, _, _, _, e⟩ := Dev.advance_shape d k; rw [e]
@[simp] theorem Dev.advance_wide (d : Dev) (k : Nat) : (d.advance k).wide = d.wide := by obtain ⟨_, _, _, _, _, e⟩ := Dev.advance_shape d k; rw [e]
@[simp] theorem Dev.advance_readData (d : Dev) (k : Nat) : (d.advance k).readData = d.readData := by obtain ⟨_, _, _, _, _, e⟩ := Dev.advance_shape d k; rw [e]
@[simp] theorem Dev.advance_mem (d : Dev) (k : Nat) : (d.advance k).mem = d.mem := by obtain ⟨_, _, _, _, _, e⟩ := Dev.advance_shape d k; rw [e]
@[simp] theorem Dev.advance_hostMem (d : Dev) (k : Nat) : (d.advance k).hostMem = d.hostMem := by obtain ⟨_, _, _, _, _, e⟩ := Dev.advance_shape d k; rw [e]
@[simp] theorem Dev.advance_nvs (d : Dev) (k : Nat) : (d.advance k).nvs = d.nvs := by obtain ⟨_, _, _, _, _, e⟩ := Dev.advance_shape d k; rw [e]
@[simp] theorem Dev.advance_sections (d : Dev) (k : Nat) : (d.advance k).sections = d.sections := by obtain ⟨_, _, _, _, _, e⟩ := Dev.advance_shape d k; rw [e]
@[simp] theorem Dev.advance_maps (d : Dev) (k : Nat) : (d.advance k).maps = d.maps := by obtain ⟨_, _, _, _, _, e⟩ := Dev.advance_shape d k; rw [e]
@[simp] theorem Dev.advance_slots (d : Dev) (k : Nat) : (d.advance k).slots = d.slots := by obtain ⟨_, _, _, _, _, e⟩ := Dev.advance_shape d k; rw [e]
@[simp] theorem Dev.advance_loads (d : Dev) (k : Nat) : (d.advance k).loads = d.loads := by obtain ⟨_, _, _, _, _, e⟩ := Dev.advance_shape d k; rw [e]
@[simp] theorem Dev.advance_runs (d : Dev) (k : Nat) : (d.advance k).runs = d.runs := by obtain ⟨_, _, _, _, _, e⟩ := Dev.advance_shape d k; rw [e]
@[simp] theorem Dev.advance_rings (d : Dev) (k : Nat) : (d.advance k).rings = d.rings := by obtain ⟨_, _, _, _, _, e⟩ := Dev.advance_shape d k; rw [e]
@[simp] theorem Dev.advance_movErr (d : Dev) (k : Nat) : (d.advance k).movErr = d.movErr := by obtain ⟨_, _, _, _, _, e⟩ := Dev.advance_shape d k; rw [e]
@[simp] theorem Dev.advance_nvsBusy (d : Dev) (k : Nat) : (d.advance k).nvsBusy = d.nvsBusy := by obtain ⟨_, _, _, _, _, e⟩ := Dev.advance_shape d k; rw [e]
@[simp] theorem Dev.advance_halyards (d : Dev) (k : Nat) : (d.advance k).halyards = d.halyards := by obtain ⟨_, _, _, _, _, e⟩ := Dev.advance_shape d k; rw [e]
@[simp] theorem Dev.advance_dram (d : Dev) (k : Nat) : (d.advance k).dram = d.dram := by obtain ⟨_, _, _, _, _, e⟩ := Dev.advance_shape d k; rw [e]
@[simp] theorem Dev.advance_irq (d : Dev) (k : Nat) : (d.advance k).irq = d.irq := by obtain ⟨_, _, _, _, _, e⟩ := Dev.advance_shape d k; rw [e]
@[simp] theorem Dev.advance_hka (d : Dev) (k : Nat) : (d.advance k).hka = d.hka := by obtain ⟨_, _, _, _, _, e⟩ := Dev.advance_shape d k; rw [e]
@[simp] theorem Dev.advance_power (d : Dev) (k : Nat) : (d.advance k).power = d.power := by obtain ⟨_, _, _, _, _, e⟩ := Dev.advance_shape d k; rw [e]
@[simp] theorem Dev.advance_repair (d : Dev) (k : Nat) : (d.advance k).repair = d.repair := by obtain ⟨_, _, _, _, _, e⟩ := Dev.advance_shape d k; rw [e]
@[simp] theorem Dev.advance_sec (d : Dev) (k : Nat) : (d.advance k).sec = d.sec := by obtain ⟨_, _, _, _, _, e⟩ := Dev.advance_shape d k; rw [e]
@[simp] theorem Dev.advance_cal (d : Dev) (k : Nat) : (d.advance k).cal = d.cal := by obtain ⟨_, _, _, _, _, e⟩ := Dev.advance_shape d k; rw [e]
@[simp] theorem Dev.advance_clocks (d : Dev) (k : Nat) : (d.advance k).clocks = d.clocks := by obtain ⟨_, _, _, _, _, e⟩ := Dev.advance_shape d k; rw [e]
@[simp] theorem Dev.advance_sortMem (d : Dev) (k : Nat) : (d.advance k).sortMem = d.sortMem := by obtain ⟨_, _, _, _, _, e⟩ := Dev.advance_shape d k; rw [e]
@[simp] theorem Dev.advance_conflicts (d : Dev) (k : Nat) : (d.advance k).conflicts = d.conflicts := by obtain ⟨_, _, _, _, _, e⟩ := Dev.advance_shape d k; rw [e]
@[simp] theorem Dev.advance_chase (d : Dev) (k : Nat) : (d.advance k).chase = d.chase := by obtain ⟨_, _, _, _, _, e⟩ := Dev.advance_shape d k; rw [e]
@[simp] theorem Dev.advance_chans (d : Dev) (k : Nat) : (d.advance k).chans = d.chans := by obtain ⟨_, _, _, _, _, e⟩ := Dev.advance_shape d k; rw [e]
@[simp] theorem Dev.advance_xfrms (d : Dev) (k : Nat) : (d.advance k).xfrms = d.xfrms := by obtain ⟨_, _, _, _, _, e⟩ := Dev.advance_shape d k; rw [e]
@[simp] theorem Dev.advance_windows (d : Dev) (k : Nat) : (d.advance k).windows = d.windows := by obtain ⟨_, _, _, _, _, e⟩ := Dev.advance_shape d k; rw [e]
@[simp] theorem Dev.advance_traces (d : Dev) (k : Nat) : (d.advance k).traces = d.traces := by obtain ⟨_, _, _, _, _, e⟩ := Dev.advance_shape d k; rw [e]
@[simp] theorem Dev.advance_cores (d : Dev) (k : Nat) : (d.advance k).cores = d.cores := by obtain ⟨_, _, _, _, _, e⟩ := Dev.advance_shape d k; rw [e]
@[simp] theorem Dev.advance_trigs (d : Dev) (k : Nat) : (d.advance k).trigs = d.trigs := by obtain ⟨_, _, _, _, _, e⟩ := Dev.advance_shape d k; rw [e]
@[simp] theorem Dev.advance_rawcs (d : Dev) (k : Nat) : (d.advance k).rawcs = d.rawcs := by obtain ⟨_, _, _, _, _, e⟩ := Dev.advance_shape d k; rw [e]
@[simp] theorem Dev.advance_axes (d : Dev) (k : Nat) : (d.advance k).axes = d.axes := by obtain ⟨_, _, _, _, _, e⟩ := Dev.advance_shape d k; rw [e]
@[simp] theorem Dev.advance_cues (d : Dev) (k : Nat) : (d.advance k).cues = d.cues := by obtain ⟨_, _, _, _, _, e⟩ := Dev.advance_shape d k; rw [e]
@[simp] theorem Dev.advance_sheets (d : Dev) (k : Nat) : (d.advance k).sheets = d.sheets := by obtain ⟨_, _, _, _, _, e⟩ := Dev.advance_shape d k; rw [e]
@[simp] theorem Dev.advance_links (d : Dev) (k : Nat) : (d.advance k).links = d.links := by obtain ⟨_, _, _, _, _, e⟩ := Dev.advance_shape d k; rw [e]
@[simp] theorem Dev.advance_denses (d : Dev) (k : Nat) : (d.advance k).denses = d.denses := by obtain ⟨_, _, _, _, _, e⟩ := Dev.advance_shape d k; rw [e]
@[simp] theorem Dev.advance_vid (d : Dev) (k : Nat) : (d.advance k).vid = d.vid := by obtain ⟨_, _, _, _, _, e⟩ := Dev.advance_shape d k; rw [e]
@[simp] theorem Dev.advance_stay (d : Dev) (k : Nat) : (d.advance k).stay = d.stay := by obtain ⟨_, _, _, _, _, e⟩ := Dev.advance_shape d k; rw [e]
@[simp] theorem Dev.advance_out (d : Dev) (k : Nat) : (d.advance k).out = d.out := by obtain ⟨_, _, _, _, _, e⟩ := Dev.advance_shape d k; rw [e]
@[simp] theorem Dev.advance_freeCtr (d : Dev) (k : Nat) : (d.advance k).freeCtr = d.freeCtr := by obtain ⟨_, _, _, _, _, e⟩ := Dev.advance_shape d k; rw [e]

@[simp] theorem Dev.advanceTo_regs (d : Dev) (c : Nat) : (d.advanceTo c).regs = d.regs := Dev.advance_regs d (c - d.clk)
@[simp] theorem Dev.advanceTo_wide (d : Dev) (c : Nat) : (d.advanceTo c).wide = d.wide := Dev.advance_wide d (c - d.clk)
@[simp] theorem Dev.advanceTo_readData (d : Dev) (c : Nat) : (d.advanceTo c).readData = d.readData := Dev.advance_readData d (c - d.clk)
@[simp] theorem Dev.advanceTo_mem (d : Dev) (c : Nat) : (d.advanceTo c).mem = d.mem := Dev.advance_mem d (c - d.clk)
@[simp] theorem Dev.advanceTo_hostMem (d : Dev) (c : Nat) : (d.advanceTo c).hostMem = d.hostMem := Dev.advance_hostMem d (c - d.clk)
@[simp] theorem Dev.advanceTo_nvs (d : Dev) (c : Nat) : (d.advanceTo c).nvs = d.nvs := Dev.advance_nvs d (c - d.clk)
@[simp] theorem Dev.advanceTo_sections (d : Dev) (c : Nat) : (d.advanceTo c).sections = d.sections := Dev.advance_sections d (c - d.clk)
@[simp] theorem Dev.advanceTo_maps (d : Dev) (c : Nat) : (d.advanceTo c).maps = d.maps := Dev.advance_maps d (c - d.clk)
@[simp] theorem Dev.advanceTo_slots (d : Dev) (c : Nat) : (d.advanceTo c).slots = d.slots := Dev.advance_slots d (c - d.clk)
@[simp] theorem Dev.advanceTo_loads (d : Dev) (c : Nat) : (d.advanceTo c).loads = d.loads := Dev.advance_loads d (c - d.clk)
@[simp] theorem Dev.advanceTo_runs (d : Dev) (c : Nat) : (d.advanceTo c).runs = d.runs := Dev.advance_runs d (c - d.clk)
@[simp] theorem Dev.advanceTo_rings (d : Dev) (c : Nat) : (d.advanceTo c).rings = d.rings := Dev.advance_rings d (c - d.clk)
@[simp] theorem Dev.advanceTo_movErr (d : Dev) (c : Nat) : (d.advanceTo c).movErr = d.movErr := Dev.advance_movErr d (c - d.clk)
@[simp] theorem Dev.advanceTo_nvsBusy (d : Dev) (c : Nat) : (d.advanceTo c).nvsBusy = d.nvsBusy := Dev.advance_nvsBusy d (c - d.clk)
@[simp] theorem Dev.advanceTo_halyards (d : Dev) (c : Nat) : (d.advanceTo c).halyards = d.halyards := Dev.advance_halyards d (c - d.clk)
@[simp] theorem Dev.advanceTo_dram (d : Dev) (c : Nat) : (d.advanceTo c).dram = d.dram := Dev.advance_dram d (c - d.clk)
@[simp] theorem Dev.advanceTo_irq (d : Dev) (c : Nat) : (d.advanceTo c).irq = d.irq := Dev.advance_irq d (c - d.clk)
@[simp] theorem Dev.advanceTo_hka (d : Dev) (c : Nat) : (d.advanceTo c).hka = d.hka := Dev.advance_hka d (c - d.clk)
@[simp] theorem Dev.advanceTo_power (d : Dev) (c : Nat) : (d.advanceTo c).power = d.power := Dev.advance_power d (c - d.clk)
@[simp] theorem Dev.advanceTo_repair (d : Dev) (c : Nat) : (d.advanceTo c).repair = d.repair := Dev.advance_repair d (c - d.clk)
@[simp] theorem Dev.advanceTo_sec (d : Dev) (c : Nat) : (d.advanceTo c).sec = d.sec := Dev.advance_sec d (c - d.clk)
@[simp] theorem Dev.advanceTo_cal (d : Dev) (c : Nat) : (d.advanceTo c).cal = d.cal := Dev.advance_cal d (c - d.clk)
@[simp] theorem Dev.advanceTo_clocks (d : Dev) (c : Nat) : (d.advanceTo c).clocks = d.clocks := Dev.advance_clocks d (c - d.clk)
@[simp] theorem Dev.advanceTo_sortMem (d : Dev) (c : Nat) : (d.advanceTo c).sortMem = d.sortMem := Dev.advance_sortMem d (c - d.clk)
@[simp] theorem Dev.advanceTo_conflicts (d : Dev) (c : Nat) : (d.advanceTo c).conflicts = d.conflicts := Dev.advance_conflicts d (c - d.clk)
@[simp] theorem Dev.advanceTo_chase (d : Dev) (c : Nat) : (d.advanceTo c).chase = d.chase := Dev.advance_chase d (c - d.clk)
@[simp] theorem Dev.advanceTo_chans (d : Dev) (c : Nat) : (d.advanceTo c).chans = d.chans := Dev.advance_chans d (c - d.clk)
@[simp] theorem Dev.advanceTo_xfrms (d : Dev) (c : Nat) : (d.advanceTo c).xfrms = d.xfrms := Dev.advance_xfrms d (c - d.clk)
@[simp] theorem Dev.advanceTo_windows (d : Dev) (c : Nat) : (d.advanceTo c).windows = d.windows := Dev.advance_windows d (c - d.clk)
@[simp] theorem Dev.advanceTo_traces (d : Dev) (c : Nat) : (d.advanceTo c).traces = d.traces := Dev.advance_traces d (c - d.clk)
@[simp] theorem Dev.advanceTo_cores (d : Dev) (c : Nat) : (d.advanceTo c).cores = d.cores := Dev.advance_cores d (c - d.clk)
@[simp] theorem Dev.advanceTo_trigs (d : Dev) (c : Nat) : (d.advanceTo c).trigs = d.trigs := Dev.advance_trigs d (c - d.clk)
@[simp] theorem Dev.advanceTo_rawcs (d : Dev) (c : Nat) : (d.advanceTo c).rawcs = d.rawcs := Dev.advance_rawcs d (c - d.clk)
@[simp] theorem Dev.advanceTo_axes (d : Dev) (c : Nat) : (d.advanceTo c).axes = d.axes := Dev.advance_axes d (c - d.clk)
@[simp] theorem Dev.advanceTo_cues (d : Dev) (c : Nat) : (d.advanceTo c).cues = d.cues := Dev.advance_cues d (c - d.clk)
@[simp] theorem Dev.advanceTo_sheets (d : Dev) (c : Nat) : (d.advanceTo c).sheets = d.sheets := Dev.advance_sheets d (c - d.clk)
@[simp] theorem Dev.advanceTo_links (d : Dev) (c : Nat) : (d.advanceTo c).links = d.links := Dev.advance_links d (c - d.clk)
@[simp] theorem Dev.advanceTo_denses (d : Dev) (c : Nat) : (d.advanceTo c).denses = d.denses := Dev.advance_denses d (c - d.clk)
@[simp] theorem Dev.advanceTo_vid (d : Dev) (c : Nat) : (d.advanceTo c).vid = d.vid := Dev.advance_vid d (c - d.clk)
@[simp] theorem Dev.advanceTo_stay (d : Dev) (c : Nat) : (d.advanceTo c).stay = d.stay := Dev.advance_stay d (c - d.clk)
@[simp] theorem Dev.advanceTo_out (d : Dev) (c : Nat) : (d.advanceTo c).out = d.out := Dev.advance_out d (c - d.clk)
@[simp] theorem Dev.advanceTo_freeCtr (d : Dev) (c : Nat) : (d.advanceTo c).freeCtr = d.freeCtr := Dev.advance_freeCtr d (c - d.clk)

end Sys2Proof.Machine
end

