-- ==== Sys2Proof/Laws/Word.lean ====
section
/-! SUPPORT. Laws of the containers and of fields of a word: read after write, and that a write leaves the rest alone. -/
namespace Sys2Proof

theorem lookAt_insertAt_same {α : Type} (k : Nat) (v : α) : ∀ l : List (Nat × α), lookAt k (insertAt k v l) = some v
  | [] => by simp [insertAt, lookAt]
  | p :: t => by
    unfold insertAt
    split
    · simp [lookAt]
    · split
      · simp [lookAt]
      · rename_i h
        simp [lookAt, Ne.symm h, lookAt_insertAt_same k v t]

theorem lookAt_insertAt_ne {α : Type} {j k : Nat} (v : α) (h : j ≠ k) : ∀ l : List (Nat × α), lookAt j (insertAt k v l) = lookAt j l
  | [] => by simp [insertAt, lookAt, Ne.symm h]
  | p :: t => by
    unfold insertAt
    split
    · simp [lookAt, Ne.symm h]
    · split
      · rename_i hk
        simp [lookAt, ← hk, Ne.symm h]
      · simp [lookAt, lookAt_insertAt_ne v h t]

theorem lookAt_none_of_rise {α : Type} (k : Nat) : ∀ l : List (Nat × α), (∀ q ∈ l, k < q.1) → lookAt k l = none
  | [], _ => rfl
  | p :: t, h => by
    have hp := h p (by simp)
    simp only [lookAt]
    rw [if_neg (by omega)]
    exact lookAt_none_of_rise k t (fun q hq => h q (by simp [hq]))

theorem lookAt_eraseAt_same {α : Type} (k : Nat) : ∀ l : List (Nat × α), keysRise l = true → lookAt k (eraseAt k l) = none
  | [], _ => rfl
  | p :: t, h => by
    simp only [keysRise, Bool.and_eq_true, List.all_eq_true, decide_eq_true_eq] at h
    unfold eraseAt
    split
    · rename_i hk
      exact lookAt_none_of_rise k t (fun q hq => hk ▸ h.1 q hq)
    · rename_i hk
      simp [lookAt, hk, lookAt_eraseAt_same k t h.2]

theorem lookAt_eraseAt_ne {α : Type} {j k : Nat} (h : j ≠ k) : ∀ l : List (Nat × α), lookAt j (eraseAt k l) = lookAt j l
  | [] => rfl
  | p :: t => by
    unfold eraseAt
    split
    · rename_i hk
      simp [lookAt, hk, Ne.symm h]
    · simp [lookAt, lookAt_eraseAt_ne h t]

@[simp] theorem Tab.get?_put_same {α : Type} (t : Tab α) (k : Nat) (v : α) : (t.put k v).get? k = some v := lookAt_insertAt_same k v _
theorem Tab.get?_put_ne {α : Type} (t : Tab α) {j k : Nat} (v : α) (h : j ≠ k) : (t.put k v).get? j = t.get? j := lookAt_insertAt_ne v h _
@[simp] theorem Tab.get?_erase_same {α : Type} (t : Tab α) (k : Nat) : (t.erase k).get? k = none := lookAt_eraseAt_same k _ t.ok
theorem Tab.get?_erase_ne {α : Type} (t : Tab α) {j k : Nat} (h : j ≠ k) : (t.erase k).get? j = t.get? j := lookAt_eraseAt_ne h _
@[simp] theorem Tab.getD_put_same {α : Type} (t : Tab α) (k : Nat) (v a : α) : (t.put k v).getD k a = v := by simp [Tab.getD]
theorem Tab.getD_put_ne {α : Type} (t : Tab α) {j k : Nat} (v a : α) (h : j ≠ k) : (t.put k v).getD j a = t.getD j a := by
  simp [Tab.getD, Tab.get?_put_ne t v h]
@[simp] theorem Tab.getD_erase_same {α : Type} (t : Tab α) (k : Nat) (a : α) : (t.erase k).getD k a = a := by simp [Tab.getD]
theorem Tab.getD_erase_ne {α : Type} (t : Tab α) {j k : Nat} (a : α) (h : j ≠ k) : (t.erase k).getD j a = t.getD j a := by
  simp [Tab.getD, Tab.get?_erase_ne t h]
theorem Tab.getD_set0_same {α : Type} [DecidableEq α] (t : Tab α) (z : α) (k : Nat) (v : α) : (t.set0 z k v).getD k z = v := by
  unfold Tab.set0; split <;> simp [*]
theorem Tab.getD_set0_ne {α : Type} [DecidableEq α] (t : Tab α) (z : α) {j k : Nat} (v a : α) (h : j ≠ k) : (t.set0 z k v).getD j a = t.getD j a := by
  unfold Tab.set0; split
  · exact Tab.getD_erase_ne t a h
  · exact Tab.getD_put_ne t v a h

/-- A byte stored is the byte read there. -/
@[simp] theorem Mem.byte_store_same (m : Mem) (a : Nat) (b : Byte) : (m.store a b).byte a = b := by
  have hm := m.ok
  simp only [memWf, Bool.and_eq_true] at hm
  unfold Mem.byte Mem.store storeAt
  dsimp only
  split
  · rename_i h
    rw [lookAt_eraseAt_same a _ hm.1]; simp [h]
  · rw [lookAt_insertAt_same]; rfl
/-- A store leaves every other byte alone. -/
theorem Mem.byte_store_ne (m : Mem) {a j : Nat} (b : Byte) (h : j ≠ a) : (m.store a b).byte j = m.byte j := by
  unfold Mem.byte Mem.store storeAt
  dsimp only
  split
  · rw [lookAt_eraseAt_ne h]
  · rw [lookAt_insertAt_ne b h]
/-- Bytes outside the stored ones stay. -/
theorem Mem.byte_storeBytes_out (b : List Byte) : ∀ (m : Mem) (a j : Nat), (j < a ∨ a + b.length ≤ j) → (m.storeBytes a b).byte j = m.byte j := by
  induction b with
  | nil => intro m a j _; rfl
  | cons x t ih =>
    intro m a j h
    simp only [List.length_cons] at h
    unfold Mem.storeBytes
    rw [ih _ _ _ (by omega), Mem.byte_store_ne _ _ (by omega)]
/-- The stored bytes are read back. -/
theorem Mem.byte_storeBytes_in (b : List Byte) : ∀ (m : Mem) (a i : Nat), i < b.length → (m.storeBytes a b).byte (a + i) = b.getD i 0 := by
  induction b with
  | nil => intro m a i h; simp at h
  | cons x t ih =>
    intro m a i h
    unfold Mem.storeBytes
    cases i with
    | zero => rw [Mem.byte_storeBytes_out _ _ _ _ (by omega)]; simp
    | succ i =>
      have := ih (m.store a x) (a + 1) i (by simpa using h)
      rw [show a + (i + 1) = a + 1 + i by omega, this]; simp
/-- A block stored is the block read there. -/
theorem Mem.bytes_storeBytes (m : Mem) (a : Nat) (b : List Byte) : (m.storeBytes a b).bytes a b.length = b := by
  apply List.ext_getElem
  · simp [Mem.bytes]
  · intro i h1 h2
    simp only [Mem.bytes, List.getElem_map, List.getElem_range]
    rw [Mem.byte_storeBytes_in _ _ _ _ h2]
    simp [List.getD_eq_getElem?_getD, h2]

theorem testBit_bits (v lo len i : Nat) : (bits v lo len).testBit i = (decide (i < len) && v.testBit (lo + i)) := by
  simp [bits, Nat.testBit_mod_two_pow, Nat.testBit_div_two_pow, Nat.add_comm]
theorem bits_lt (v lo len : Nat) : bits v lo len < 2 ^ len := Nat.mod_lt _ (by positivity)

theorem Word.getLsbD_setField (w : Word) (lo len v i : Nat) (h : lo + len ≤ 32) :
    (w.setField lo len v).getLsbD i = if lo ≤ i ∧ i < lo + len then v.testBit (i - lo) else w.getLsbD i := by
  unfold Word.setField
  simp only [BitVec.getLsbD_or, BitVec.getLsbD_and, BitVec.getLsbD_not, BitVec.getLsbD_ofNat]
  rw [Nat.mul_comm (2 ^ len - 1), Nat.mul_comm (v % 2 ^ len), Nat.testBit_two_pow_mul, Nat.testBit_two_pow_mul, Nat.testBit_mod_two_pow,
    Nat.testBit_two_pow_sub_one]
  by_cases h1 : lo ≤ i <;> by_cases h2 : i < lo + len
  · have : i < 32 := by omega
    have h3 : i - lo < len := by omega
    simp [h1, h2, this, h3]
  · have h3 : ¬ i - lo < len := by omega
    simp [h1, h2, h3]
    intro h4; exact BitVec.lt_of_getLsbD h4
  · simp [h1]; intro h4; exact BitVec.lt_of_getLsbD h4
  · simp [h1]; intro h4; exact BitVec.lt_of_getLsbD h4

/-- The field set is the field read. -/
theorem Word.field_setField_same (w : Word) (lo len v : Nat) (h : lo + len ≤ 32) : (w.setField lo len v).field lo len = v % 2 ^ len := by
  apply Nat.eq_of_testBit_eq
  intro i
  rw [Word.field, testBit_bits, BitVec.testBit_toNat, Word.getLsbD_setField _ _ _ _ _ h, Nat.testBit_mod_two_pow]
  by_cases hi : i < len
  · rw [if_pos (by omega)]; simp [hi]
  · simp [hi]
/-- Setting a field leaves a field that lies beside it alone. -/
theorem Word.field_setField_ne (w : Word) {lo len lo' len' : Nat} (v : Nat) (h : lo + len ≤ 32) (hd : lo + len ≤ lo' ∨ lo' + len' ≤ lo) :
    (w.setField lo len v).field lo' len' = w.field lo' len' := by
  apply Nat.eq_of_testBit_eq
  intro i
  rw [Word.field, Word.field, testBit_bits, testBit_bits, BitVec.testBit_toNat, BitVec.testBit_toNat, Word.getLsbD_setField _ _ _ _ _ h]
  by_cases hi : i < len'
  · rw [if_neg (by omega)]
  · simp [hi]

end Sys2Proof
end

