-- ==== Sys2Proof/Laws/Regs.lean ====
section
/-! SUPPORT. Reading a register after an update: the stored word, the other words, and what an interrupt event can move. -/
namespace Sys2Proof.Machine

/-- A register read looks at the register words only. -/
theorem Dev.reg_congr {d e : Dev} (h : e.regs = d.regs) (o : Nat) : e.reg o = d.reg o := by unfold Dev.reg; rw [h]
/-- A field read looks at the register words only. -/
theorem Dev.rd_congr {d e : Dev} (h : e.regs = d.regs) (f : Fld) (n m : Nat) : e.rd f n m = d.rd f n m := by
  unfold Dev.rd; rw [Dev.reg_congr h]

@[simp] theorem Dev.reg_setReg_same (d : Dev) (o : Nat) (w : Word) : (d.setReg o w).reg o = w := by
  unfold Dev.reg Dev.setReg
  dsimp only
  split
  · rename_i h; simp [h]
  · simp

theorem Dev.reg_setReg_ne (d : Dev) {o j : Nat} (w : Word) (h : j ≠ o) : (d.setReg o w).reg j = d.reg j := by
  unfold Dev.reg Dev.setReg
  dsimp only
  split
  · rw [Tab.get?_erase_ne _ h]
  · rw [Tab.get?_put_ne _ _ h]

/-- Storing a register and reading any register. -/
theorem Dev.reg_setReg (d : Dev) (o j : Nat) (w : Word) : (d.setReg o w).reg j = if j = o then w else d.reg j := by
  split
  · rename_i h; rw [h, Dev.reg_setReg_same]
  · rename_i h; exact Dev.reg_setReg_ne d w h

/-- Writing a field and reading any register. -/
theorem Dev.reg_wr (d : Dev) (f : Fld) (v n m j : Nat) :
    (d.wr f v n m).reg j = if j = f.at_ n m then (d.reg j).setField f.lo f.w v else d.reg j := by
  unfold Dev.wr
  rw [Dev.reg_setReg]
  split
  · rename_i h; rw [h]
  · rfl

theorem Dev.reg_wr_ne (d : Dev) (f : Fld) (v n m : Nat) {j : Nat} (h : j ≠ f.at_ n m) : (d.wr f v n m).reg j = d.reg j := by
  rw [Dev.reg_wr, if_neg h]

/-- A field reads the value written to it, cut to its width. -/
theorem Dev.rd_wr_same (d : Dev) (f : Fld) (v n m : Nat) (h : f.lo + f.w ≤ 32) : (d.wr f v n m).rd f n m = v % 2 ^ f.w := by
  unfold Dev.rd
  rw [Dev.reg_wr, if_pos rfl, Word.field_setField_same _ _ _ _ h]

/-- A field of another register keeps its value. -/
theorem Dev.rd_wr_ne (d : Dev) (f g : Fld) (v n m i j : Nat) (h : g.at_ i j ≠ f.at_ n m) : (d.wr f v n m).rd g i j = d.rd g i j := by
  unfold Dev.rd
  rw [Dev.reg_wr_ne _ _ _ _ _ h]

/-- Another field of the same register, or one elsewhere, keeps its value. -/
theorem Dev.rd_wr_field (d : Dev) (f g : Fld) (v n m i j : Nat) (h : f.lo + f.w ≤ 32) (hd : f.lo + f.w ≤ g.lo ∨ g.lo + g.w ≤ f.lo) :
    (d.wr f v n m).rd g i j = d.rd g i j := by
  unfold Dev.rd
  rw [Dev.reg_wr]
  split
  · rw [Word.field_setField_ne _ _ h hd]
  · rfl

/-- Taking back what the clock began with moves no register. -/
theorem Dev.reg_setReg0 (d : Dev) (o : Nat) (w : Word) (j : Nat) : (d.setReg0 o w).reg j = d.reg j := rfl
/-- Setting bits of a status field and reading any register: the same as writing the field with them set. -/
theorem Dev.reg_setBits (d : Dev) (f : Fld) (v n m j : Nat) : (d.setBits f v n m).reg j = (d.wr f (d.rd f n m ||| v) n m).reg j := rfl
theorem Dev.rd_setBits (d : Dev) (f g : Fld) (v n m i j : Nat) : (d.setBits f v n m).rd g i j = (d.wr f (d.rd f n m ||| v) n m).rd g i j := rfl
theorem Dev.reg_setBits_ne (d : Dev) (f : Fld) (v n m : Nat) {j : Nat} (h : j ≠ f.at_ n m) : (d.setBits f v n m).reg j = d.reg j := by
  rw [Dev.reg_setBits, Dev.reg_wr_ne _ _ _ _ _ h]

/-- A counter after counting. -/
theorem Dev.rd_inc_same (d : Dev) (f : Fld) (n m k : Nat) (h : f.lo + f.w ≤ 32) :
    (d.inc f n m k).rd f n m = min (2 ^ f.w - 1) (d.rd f n m + k) := by
  unfold Dev.inc
  rw [Dev.rd_wr_same _ _ _ _ _ h, Nat.mod_eq_of_lt]
  have := Nat.two_pow_pos f.w
  omega

theorem Dev.reg_inc_ne (d : Dev) (f : Fld) (n m k : Nat) {j : Nat} (h : j ≠ f.at_ n m) : (d.inc f n m k).reg j = d.reg j :=
  Dev.reg_wr_ne _ _ _ _ _ h
theorem Dev.reg_flag_ne (d : Dev) (f : Fld) (b : Bool) (n m : Nat) {j : Nat} (h : j ≠ f.at_ n m) : (d.flag f b n m).reg j = d.reg j :=
  Dev.reg_wr_ne _ _ _ _ _ h

theorem Dev.rd_lt (d : Dev) (f : Fld) (n m : Nat) : d.rd f n m < 2 ^ f.w := bits_lt _ _ _

theorem irqReg_doorbell (b c : Nat) (hc : c < 16) (h : b = 0x430024 ∨ b = 0x430028) : irqReg (b + c * 0x40000 + 0 * 0) = true := by
  have h1 : 0x430024 ≤ b + c * 0x40000 + 0 * 0 := by omega
  have h2 : (b + c * 0x40000 + 0 * 0 - 0x430024) % 0x40000 < 8 := by omega
  have h3 : b + c * 0x40000 + 0 * 0 < 0x800000 := by omega
  unfold irqReg
  rw [decide_eq_true h1, decide_eq_true h2, decide_eq_true h3]
  simp

theorem irqReg_group {g b : Nat} (hg : g < 64) (h0 : 0x30100 ≤ b) (h1 : b < 0x30120) : irqReg (b + g * 0x20 + 0 * 0) = true := by
  have h2 : 0x30100 ≤ b + g * 0x20 + 0 * 0 := by omega
  have h3 : b + g * 0x20 + 0 * 0 < 0x30900 := by omega
  unfold irqReg
  rw [decide_eq_true h2, decide_eq_true h3]
  simp

theorem ne_of_irqReg {o p : Nat} (h : irqReg o = false) (hp : irqReg p = true) : o ≠ p := by rintro rfl; simp [h] at hp

/-- A doorbell moves one doorbell word. -/
theorem Dev.reg_ringDoorbell (d : Dev) (c b : Nat) {o : Nat} (hc : c < 16)
    (h : ∀ b c, c < 16 → b = 0x430024 ∨ b = 0x430028 → o ≠ b + c * 0x40000 + 0 * 0) : (d.ringDoorbell c b).reg o = d.reg o := by
  unfold Dev.ringDoorbell
  split
  · exact Dev.reg_setBits_ne _ _ _ _ _ (h _ c hc (.inl rfl))
  · exact Dev.reg_setBits_ne _ _ _ _ _ (h _ c hc (.inr rfl))

theorem Dev.reg_message (d : Dev) (g o : Nat) : (d.message g).reg o = d.reg o := by
  obtain ⟨_, _, e⟩ := Dev.message_shape d g
  rw [e]; rfl

theorem Dev.reg_deliver_tail (k : Dev) (q : Tab Nat) (g : Nat) (b c : Bool) {o : Nat}
    (h : ∀ b c, c < 16 → b = 0x430024 ∨ b = 0x430028 → o ≠ b + c * 0x40000 + 0 * 0) :
    (let d : Dev := { k with irq := { k.irq with holdEnd := q } }
     let d := if c then d.ringDoorbell (d.rd F.IRQ_TARGET_CORE g) g else d
     if b then d.message g else d).reg o = k.reg o := by
  have e0 (i : Irq) : ({ k with irq := i } : Dev).reg o = k.reg o := Dev.reg_congr rfl o
  cases b <;> cases c <;> simp only [if_true, if_false, Bool.false_eq_true]
  · exact e0 _
  · rw [Dev.reg_ringDoorbell _ _ _ (Dev.rd_lt _ F.IRQ_TARGET_CORE g 0) h]; exact e0 _
  · rw [Dev.reg_message]; exact e0 _
  · rw [Dev.reg_message, Dev.reg_ringDoorbell _ _ _ (Dev.rd_lt _ F.IRQ_TARGET_CORE g 0) h]; exact e0 _

/-- A delivery moves the group's target and delivered words and a doorbell word, no other register. -/
theorem Dev.reg_tryDeliver_of (d : Dev) {g o : Nat} (h1 : o ≠ F.IRQ_TARGET_OUTSTANDING.at_ g 0) (h2 : o ≠ F.IRQ_DELIVERED_COUNT.at_ g 0)
    (h : ∀ b c, c < 16 → b = 0x430024 ∨ b = 0x430028 → o ≠ b + c * 0x40000 + 0 * 0) : (d.tryDeliver g).reg o = d.reg o := by
  unfold Dev.tryDeliver
  dsimp only
  split
  · rfl
  · split
    · unfold Dev.deliver
      refine (Dev.reg_deliver_tail _ _ g _ _ h).trans ?_
      rw [Dev.reg_inc_ne _ _ _ _ _ h2, Dev.reg_flag_ne _ _ _ _ _ h1]
    · rfl

theorem Dev.reg_tryDeliver (d : Dev) {g o : Nat} (hg : g < 64) (h : irqReg o = false) : (d.tryDeliver g).reg o = d.reg o :=
  Dev.reg_tryDeliver_of d (ne_of_irqReg h (irqReg_group (b := 0x30114) hg (by norm_num) (by norm_num)))
    (ne_of_irqReg h (irqReg_group (b := 0x3011c) hg (by norm_num) (by norm_num))) (fun b c hc hb => ne_of_irqReg h (irqReg_doorbell b c hc hb))

/-- A delivery leaves the pending words alone. -/
theorem Dev.pending_tryDeliver (d : Dev) {g k : Nat} :
    (d.tryDeliver g).rd F.IRQ_PENDING_PENDING k = d.rd F.IRQ_PENDING_PENDING k := by
  unfold Dev.rd
  rw [Dev.reg_tryDeliver_of]
  · show 0x30100 + k * 0x20 + 0 * 0 ≠ 0x30114 + g * 0x20 + 0 * 0; omega
  · show 0x30100 + k * 0x20 + 0 * 0 ≠ 0x3011c + g * 0x20 + 0 * 0; omega
  · show ∀ b c, _ → _ → 0x30100 + k * 0x20 + 0 * 0 ≠ _
    rintro b c _ (rfl | rfl) <;> omega

/-- An event sets its source's pending bit and no other bit of any group. -/
theorem Dev.pending_raise (d : Dev) {g k : Nat} (s : Nat) (hs : s < 32) :
    (d.raise g s).rd F.IRQ_PENDING_PENDING k = if k = g then d.rd F.IRQ_PENDING_PENDING k ||| 2 ^ s else d.rd F.IRQ_PENDING_PENDING k := by
  unfold Dev.raise
  rw [Dev.pending_tryDeliver, Dev.rd_setBits]
  split
  · rename_i e
    subst e
    rw [Dev.rd_wr_same _ _ _ _ _ (by decide), Nat.mod_eq_of_lt]
    exact Nat.or_lt_two_pow (Dev.rd_lt d F.IRQ_PENDING_PENDING k 0) (Nat.pow_lt_pow_right (by norm_num) hs)
  · refine Dev.rd_wr_ne _ _ _ _ _ _ _ _ ?_
    show 0x30100 + k * 0x20 + 0 * 0 ≠ 0x30100 + g * 0x20 + 0 * 0
    omega

theorem raised_raise (d : Dev) {g : Nat} (s : Nat) (hs : s < 32) : Raised (d.raise g s) g s := by
  unfold Raised
  rw [Dev.pending_raise d s hs, if_pos rfl]
  simp [Nat.testBit_or]

/-- A pending bit stands through other events. -/
theorem Raised.raise {d : Dev} {g s : Nat} (h : Raised d g s) {k : Nat} (t : Nat) (ht : t < 32) : Raised (d.raise k t) g s := by
  unfold Raised at *
  rw [Dev.pending_raise d t ht]
  split
  · simp [Nat.testBit_or, h]
  · exact h

/-- An edge event moves no register but those of `irqReg`. -/
theorem Dev.reg_raise (d : Dev) {g o : Nat} (s : Nat) (hg : g < 64) (h : irqReg o = false) : (d.raise g s).reg o = d.reg o := by
  unfold Dev.raise
  rw [Dev.reg_tryDeliver _ hg h, Dev.reg_setBits_ne]
  exact ne_of_irqReg h (irqReg_group (b := 0x30100) hg (by norm_num) (by norm_num))

/-- A level condition moves no register but those of `irqReg`. -/
theorem Dev.reg_level (d : Dev) {g o : Nat} (s : Nat) (b : Bool) (hg : g < 64) (h : irqReg o = false) : (d.level g s b).reg o = d.reg o := by
  have h1 : o ≠ F.IRQ_RAW_RAW.at_ g 0 := ne_of_irqReg h (irqReg_group (b := 0x3010c) hg (by norm_num) (by norm_num))
  unfold Dev.level
  dsimp only
  split
  · split
    · exact Dev.reg_wr_ne _ _ _ _ _ h1
    · rw [Dev.reg_raise _ _ hg h]; exact Dev.reg_wr_ne _ _ _ _ _ h1
  · exact Dev.reg_wr_ne _ _ _ _ _ h1

/-- A field outside the interrupt registers is untouched by an edge event. -/
theorem Dev.rd_raise (d : Dev) {g : Nat} (s : Nat) (f : Fld) (n m : Nat) (hg : g < 64) (h : irqReg (f.at_ n m) = false) :
    (d.raise g s).rd f n m = d.rd f n m := by unfold Dev.rd; rw [Dev.reg_raise _ _ hg h]
theorem Dev.rd_level (d : Dev) {g : Nat} (s : Nat) (b : Bool) (f : Fld) (n m : Nat) (hg : g < 64) (h : irqReg (f.at_ n m) = false) :
    (d.level g s b).rd f n m = d.rd f n m := by unfold Dev.rd; rw [Dev.reg_level _ _ _ hg h]

/-! ## The register map -/

/-- The offset past the last element of a row. -/
def RegRow.past (r : RegRow) : Nat := r.dims.foldr (fun d n => (d.1 - 1) * d.2 + n) (r.base + 1)
theorem dimsHold_le (b : Nat) : ∀ (l : List (Nat × Nat)) (o : Nat), dimsHold o l = true → b + o < l.foldr (fun d n => (d.1 - 1) * d.2 + n) (b + 1)
  | [], o, h => by simp [dimsHold] at h; simp [h]
  | (c, s) :: t, o, h => by
    simp only [dimsHold, Bool.and_eq_true, decide_eq_true_eq] at h
    have ih := dimsHold_le b t _ h.2
    have hd : s * (o / s) + o % s = o := Nat.div_add_mod o s
    have hm : s * (o / s) ≤ (c - 1) * s := by rw [Nat.mul_comm]; exact Nat.mul_le_mul_right s (by omega)
    simp only [List.foldr_cons]; omega
/-- A row that holds an offset lies about it. -/
theorem RegRow.holds_bounds {r : RegRow} {off : Nat} (h : r.holds off = true) : r.base ≤ off ∧ off < r.past := by
  simp only [RegRow.holds, Bool.and_eq_true, decide_eq_true_eq] at h
  have := dimsHold_le r.base r.dims _ h.2
  exact ⟨h.1, by unfold RegRow.past; omega⟩
theorem regBounds_hold : ∀ p ∈ regBounds.zip regPieces, ∀ r ∈ p.2, p.1.1 ≤ r.base ∧ r.past ≤ p.1.2 := by decide +kernel
/-- The bounds leave out no row: `rowOf` finds what a search of the whole table finds. -/
theorem rowOf_eq (off : Nat) : rowOf off = regPieces.findSome? (fun p => p.find? (fun r => r.holds off)) := by
  have key : ∀ l : List ((Nat × Nat) × List RegRow), (∀ p ∈ l, ∀ r ∈ p.2, p.1.1 ≤ r.base ∧ r.past ≤ p.1.2) →
      l.findSome? (fun p => if Nat.ble p.1.1 off && Nat.blt off p.1.2 then p.2.find? (fun r => r.holds off) else none) =
        (l.map (·.2)).findSome? (fun p => p.find? (fun r => r.holds off)) := by
    intro l
    induction l with
    | nil => intro _; rfl
    | cons p t ih =>
      intro h
      have ht := ih (fun q hq => h q (List.mem_cons_of_mem _ hq))
      have hp : (if Nat.ble p.1.1 off && Nat.blt off p.1.2 then p.2.find? (fun r => r.holds off) else none) = p.2.find? (fun r => r.holds off) := by
        split
        · rfl
        · rename_i hn
          symm
          rw [List.find?_eq_none]
          intro r hr hh
          have b := RegRow.holds_bounds hh
          have q := h p (List.mem_cons_self ..) r hr
          apply hn
          rw [Bool.and_eq_true, Nat.ble_eq, Nat.blt_eq]
          omega
      simp only [List.findSome?_cons, List.map_cons, hp, ht]
  unfold rowOf
  rw [key _ regBounds_hold]
  have hm : (regBounds.zip regPieces).map (·.2) = regPieces := List.map_snd_zip (by decide)
  rw [hm]

end Sys2Proof.Machine
end

