-- ==== Sys2Proof/Laws/Frame.lean ====
section
/-! SUPPORT. Frames compose: what a chain of field writes, counts and interrupt events leaves alone is what each of them leaves alone. -/
namespace Sys2Proof.Machine

theorem OnlyRegs.refl (d : Dev) : OnlyRegs d d := rfl
theorem OnlyRegs.trans {a b c : Dev} (h1 : OnlyRegs a b) (h2 : OnlyRegs b c) : OnlyRegs a c := by
  unfold OnlyRegs at *
  rw [← h2] at h1
  exact h1

theorem Frame.refl (w : List Nat) (d : Dev) : Frame w d d := ⟨fun _ _ _ => rfl, rfl⟩
theorem Frame.trans {w : List Nat} {a b c : Dev} (h1 : Frame w a b) (h2 : Frame w b c) : Frame w a c :=
  ⟨fun o ho hi => (h2.1 o ho hi).trans (h1.1 o ho hi), h1.2.trans h2.2⟩
theorem Frame.mono {v w : List Nat} {a b : Dev} (h : Frame v a b) (hs : ∀ o ∈ v, o ∈ w) : Frame w a b :=
  ⟨fun o ho hi => h.1 o (fun hv => ho (hs o hv)) hi, h.2⟩

theorem Frame.setReg {w : List Nat} {a b : Dev} (h : Frame w a b) (o : Nat) (v : Word) (ho : o ∈ w) : Frame w a (b.setReg o v) :=
  h.trans ⟨fun _ hj _ => Dev.reg_setReg_ne b v (fun e => hj (e ▸ ho)), rfl⟩
theorem Frame.wr {w : List Nat} {a b : Dev} (h : Frame w a b) (f : Fld) (v n m : Nat) (ho : f.at_ n m ∈ w) : Frame w a (b.wr f v n m) :=
  h.setReg _ _ ho
theorem Frame.inc {w : List Nat} {a b : Dev} (h : Frame w a b) (f : Fld) (n m k : Nat) (ho : f.at_ n m ∈ w) : Frame w a (b.inc f n m k) :=
  h.wr _ _ _ _ ho
theorem Frame.flag {w : List Nat} {a b : Dev} (h : Frame w a b) (f : Fld) (v : Bool) (n m : Nat) (ho : f.at_ n m ∈ w) :
    Frame w a (b.flag f v n m) := h.wr _ _ _ _ ho
theorem Frame.setBits {w : List Nat} {a b : Dev} (h : Frame w a b) (f : Fld) (v n m : Nat) (ho : f.at_ n m ∈ w) : Frame w a (b.setBits f v n m) :=
  h.trans ⟨fun _ hj _ => Dev.reg_setBits_ne b f v n m (fun e => hj (e ▸ ho)), rfl⟩
theorem Frame.raise {w : List Nat} {a b : Dev} (h : Frame w a b) (g s : Nat) (hg : g < 64) : Frame w a (b.raise g s) := by
  refine h.trans ⟨fun o _ hi => Dev.reg_raise b s hg hi, ?_⟩
  obtain ⟨_, _, _, _, e⟩ := Dev.raise_shape b g s
  rw [e]; rfl
theorem Frame.level {w : List Nat} {a b : Dev} (h : Frame w a b) (g s : Nat) (v : Bool) (hg : g < 64) : Frame w a (b.level g s v) := by
  refine h.trans ⟨fun o _ hi => Dev.reg_level b s v hg hi, ?_⟩
  obtain ⟨_, _, _, _, e⟩ := Dev.level_shape b g s v
  rw [e]; rfl
theorem Frame.tryDeliver {w : List Nat} {a b : Dev} (h : Frame w a b) (g : Nat) (hg : g < 64) : Frame w a (b.tryDeliver g) := by
  refine h.trans ⟨fun o _ hi => Dev.reg_tryDeliver b hg hi, ?_⟩
  obtain ⟨_, _, _, _, e⟩ := Dev.tryDeliver_shape b g
  rw [e]; rfl

/-- A lifted meaning always completes: the state it answers is the change of the engine. -/
theorem completes_lift {i : Instr} {s : State} {f : Dev → Dev} {P : Dev → Prop} (hi : exec i s = lift f s) (h : P (f s.dev)) : Completes i s P :=
  ⟨{ s with dev := f s.dev }, hi, rfl, h⟩
/-- A host command in RUN performs its access. -/
theorem Dev.hostWriteAt_run {d : Dev} (h : d.pstate = 2) (off : Nat) (f : Dev → Dev) : d.hostWriteAt off f = f d := by
  unfold Dev.hostWriteAt; simp [h]
theorem Dev.hostReadAt_run {d : Dev} (h : d.pstate = 2) (off : Nat) (f : Dev → Dev) : d.hostReadAt off f = f d := by
  unfold Dev.hostReadAt; simp [h]
/-- A host command in RUN completes with its access. -/
theorem completes_host {i : Instr} {s : State} {off : Nat} {f : Dev → Dev} {P : Dev → Prop} (hi : exec i s = host off f s)
    (hp : s.dev.pstate = 2) (h : P (f s.dev)) : Completes i s P :=
  completes_lift hi (by rw [Dev.hostWriteAt_run hp]; exact h)

end Sys2Proof.Machine
end

