-- ==== Sys2Proof/Laws/Galley.lean ====
section
/-! SUPPORT. Everything that placing records can do: each operation over the galley moves registers of the stores' blocks, interrupt state,
the galley's bytes, rings, runs and cached map entries, and nothing else. -/
namespace Sys2Proof.Machine

theorem RecordsOnly.refl (w : List Nat) (d : Dev) : RecordsOnly w d d := ⟨fun _ _ _ _ => rfl, fun _ _ _ => rfl, rfl⟩
theorem RecordsOnly.trans {w : List Nat} {a b c : Dev} (h1 : RecordsOnly w a b) (h2 : RecordsOnly w b c) : RecordsOnly w a c := by
  refine ⟨fun o hl ho hi => (h2.1 o hl ho hi).trans (h1.1 o hl ho hi), fun k hl hk => (h2.2.1 k hl hk).trans (h1.2.1 k hl hk), ?_⟩
  have e1 := h1.2.2
  rw [← h2.2.2] at e1
  exact e1

section
variable {w : List Nat} {a b : Dev}

theorem RecordsOnly.ite {p : Prop} [Decidable p] {x y : Dev} (hx : RecordsOnly w a x) (hy : RecordsOnly w a y) :
    RecordsOnly w a (if p then x else y) := by split <;> assumption

theorem RecordsOnly.setReg (h : RecordsOnly w a b) (o : Nat) (v : Word) (ho : 0x300000 ≤ o ∨ o ∈ w) : RecordsOnly w a (b.setReg o v) := by
  refine h.trans ⟨fun j hl hj _ => Dev.reg_setReg_ne b v ?_, fun _ _ _ => rfl, rfl⟩
  rintro rfl
  rcases ho with ho | ho
  · omega
  · exact hj ho
theorem RecordsOnly.wr (h : RecordsOnly w a b) (f : Fld) (v n m : Nat) (ho : 0x300000 ≤ f.at_ n m ∨ f.at_ n m ∈ w) :
    RecordsOnly w a (b.wr f v n m) := h.setReg _ _ ho
theorem RecordsOnly.wrHigh (h : RecordsOnly w a b) (f : Fld) (v n m : Nat) (ho : 0x300000 ≤ f.off) : RecordsOnly w a (b.wr f v n m) :=
  h.setReg _ _ (.inl (le_trans ho (by unfold Fld.at_; omega)))
theorem RecordsOnly.incHigh (h : RecordsOnly w a b) (f : Fld) (n m k : Nat) (ho : 0x300000 ≤ f.off) : RecordsOnly w a (b.inc f n m k) :=
  h.wrHigh f _ n m ho
theorem RecordsOnly.flagHigh (h : RecordsOnly w a b) (f : Fld) (v : Bool) (n m : Nat) (ho : 0x300000 ≤ f.off) :
    RecordsOnly w a (b.flag f v n m) := h.wrHigh f _ n m ho
theorem RecordsOnly.setBitsHigh (h : RecordsOnly w a b) (f : Fld) (v n m : Nat) (ho : 0x300000 ≤ f.off) : RecordsOnly w a (b.setBits f v n m) :=
  (h.wrHigh f (b.rd f n m ||| v) n m ho).trans ⟨fun _ _ _ _ => rfl, fun _ _ _ => rfl, rfl⟩
theorem RecordsOnly.raise (h : RecordsOnly w a b) (g s : Nat) (hg : g < 64) : RecordsOnly w a (b.raise g s) := by
  refine h.trans ⟨fun o _ _ hi => Dev.reg_raise b s hg hi, fun _ _ _ => by rw [Dev.raise_wide], ?_⟩
  obtain ⟨_, _, _, _, e⟩ := Dev.raise_shape b g s
  rw [e]
theorem RecordsOnly.level (h : RecordsOnly w a b) (g s : Nat) (v : Bool) (hg : g < 64) : RecordsOnly w a (b.level g s v) := by
  refine h.trans ⟨fun o _ _ hi => Dev.reg_level b s v hg hi, fun _ _ _ => by rw [Dev.level_wide], ?_⟩
  obtain ⟨_, _, _, _, e⟩ := Dev.level_shape b g s v
  rw [e]
theorem RecordsOnly.setRing (h : RecordsOnly w a b) (r : Nat) (f : Ring → Ring) : RecordsOnly w a (b.setRing r f) :=
  h.trans ⟨fun _ _ _ _ => rfl, fun _ _ _ => rfl, rfl⟩
theorem RecordsOnly.runs (h : RecordsOnly w a b) (t : Tab Run) : RecordsOnly w a { b with runs := t } :=
  h.trans ⟨fun _ _ _ _ => rfl, fun _ _ _ => rfl, rfl⟩
theorem RecordsOnly.setRun (h : RecordsOnly w a b) (i : Nat) (f : Run → Run) : RecordsOnly w a (b.setRun i f) := by
  unfold Dev.setRun
  split
  · exact h.runs _
  · exact h
theorem RecordsOnly.usedFree (h : RecordsOnly w a b) : RecordsOnly w a b.usedFree :=
  h.trans ⟨fun _ _ _ _ => rfl, fun _ _ _ => rfl, rfl⟩
theorem RecordsOnly.galStore (h : RecordsOnly w a b) (p : Nat) (v : Byte) : RecordsOnly w a (b.galStore p v) :=
  h.trans ⟨fun _ _ _ _ => rfl, fun _ _ _ => rfl, rfl⟩
theorem RecordsOnly.cached (h : RecordsOnly w a b) (l : List Nat) : RecordsOnly w a { b with dram := { b.dram with cached := l } } :=
  h.trans ⟨fun _ _ _ _ => rfl, fun _ _ _ => rfl, rfl⟩
theorem RecordsOnly.setWide (h : RecordsOnly w a b) (f : Fld) (v n : Nat) (ho : 0x300000 ≤ f.off) : RecordsOnly w a (b.setWide f v n) := by
  refine h.trans ⟨fun _ _ _ _ => rfl, fun k hl _ => Tab.get?_put_ne _ _ ?_, rfl⟩
  unfold Fld.at_
  omega

theorem RecordsOnly.ringSummary (h : RecordsOnly w a b) (r : Nat) : RecordsOnly w a (b.ringSummary r) :=
  h.level _ _ _ (by omega)
theorem RecordsOnly.ringEvent (h : RecordsOnly w a b) (r e : Nat) : RecordsOnly w a (b.ringEvent r e) :=
  (h.setBitsHigh _ _ _ _ (by decide)).ringSummary r

theorem RecordsOnly.walkBy (h : RecordsOnly w a b) (r : Option Nat) (i t : Nat) : RecordsOnly w a (b.walkBy r i t) := by
  unfold Dev.walkBy
  split
  · exact h
  · have h1 := h.incHigh F.GAL_CACHE_MISS_COUNT 0 0 1 (by decide)
    dsimp only
    split
    · refine RecordsOnly.raise ?_ 26 28 (by omega)
      have h2 : ∀ {x : Dev}, RecordsOnly w a x → RecordsOnly w a (match r with
          | some r => (x.inc F.GAL_FAULT_COUNT_COUNT).ringEvent r 5
          | none => (x.inc F.GAL_FAULT_COUNT_COUNT).usedFree) := fun hx => by
        split
        · exact (hx.incHigh _ _ _ _ (by decide)).ringEvent _ 5
        · exact (hx.incHigh _ _ _ _ (by decide)).usedFree
      refine h2 ?_
      split
      · exact h1
      · exact ((((((h1.wrHigh _ _ _ _ (by decide)).wrHigh _ _ _ _ (by decide)).wrHigh _ _ _ _ (by decide)).wrHigh _ _ _ _ (by decide)).wrHigh
          _ _ _ _ (by decide)).wrHigh _ _ _ _ (by decide)).setBitsHigh _ _ _ _ (by decide)
    · split
      · exact h1.cached _
      · exact (h1.cached _).usedFree

theorem RecordsOnly.walk (h : RecordsOnly w a b) (r i t : Nat) : RecordsOnly w a (b.walk r i t) := h.walkBy _ _ _

theorem RecordsOnly.killPage (h : RecordsOnly w a b) (r p : Nat) : RecordsOnly w a (b.killPage r p) := by
  unfold Dev.killPage
  split
  · exact h
  · exact (((h.setRing r _).incHigh _ _ _ _ (by decide)).ringEvent r 6).raise 26 31 (by omega)

theorem RecordsOnly.noteFill (h : RecordsOnly w a b) (r : Nat) : RecordsOnly w a (b.noteFill r) := by
  unfold Dev.noteFill
  dsimp only
  split
  · exact (h.setRing r _).ringEvent r 2
  · exact h.setRing r _

theorem RecordsOnly.liveWr (r : Nat) : ∀ (n : Nat) {b : Dev}, RecordsOnly w a b → RecordsOnly w a (b.liveWr r n).1
  | 0, _, h => h
  | n + 1, b, h => by
    unfold Dev.liveWr
    dsimp only
    split
    · exact h.walk _ _ _
    · exact RecordsOnly.liveWr r n ((h.walk _ _ _).killPage _ _)

theorem RecordsOnly.walkSpan (h : RecordsOnly w a b) (r pos n : Nat) : ∀ k, RecordsOnly w a (b.walkSpan r pos n k)
  | 0 => h
  | k + 1 => by
    unfold Dev.walkSpan
    dsimp only
    have h1 := RecordsOnly.walkSpan h r pos n k
    split
    · exact h1
    · split
      · exact (h1.walk _ _ _).killPage _ _
      · exact h1.walk _ _ _

theorem RecordsOnly.ringStore (r : Nat) : ∀ (l : List Byte) (pos : Nat) {b : Dev}, RecordsOnly w a b → RecordsOnly w a (b.ringStore r pos l)
  | [], _, _, h => h
  | x :: t, pos, b, h => by
    unfold Dev.ringStore
    dsimp only
    refine RecordsOnly.ringStore r t (pos + 1) ?_
    split
    · exact h
    · exact h.galStore _ _

theorem RecordsOnly.galStoreAll : ∀ (l : List Byte) (p : Nat) {b : Dev}, RecordsOnly w a b → RecordsOnly w a (b.galStoreAll p l)
  | [], _, _, h => h
  | _ :: t, p, _, h => RecordsOnly.galStoreAll t (p + 1) (h.galStore _ _)

theorem RecordsOnly.overrun (h : RecordsOnly w a b) (r : Nat) : RecordsOnly w a (b.overrun r) := by
  unfold Dev.overrun
  dsimp only
  refine RecordsOnly.ite (h.setRing _ _) ((RecordsOnly.incHigh ?_ _ _ _ _ (by decide)).ringEvent _ _)
  exact RecordsOnly.ite ((h.setRing _ _).setWide _ _ _ (by decide)) (h.setRing _ _)

theorem RecordsOnly.noteHeader (h : RecordsOnly w a b) (r pos : Nat) : RecordsOnly w a (b.noteHeader r pos) := by
  unfold Dev.noteHeader
  dsimp only
  split
  · exact h
  · exact RecordsOnly.galStoreAll _ _ h

theorem RecordsOnly.placeAt (h : RecordsOnly w a b) (r pos tag : Nat) (x : Rec) : RecordsOnly w a (b.placeAt r pos tag x).1 := by
  unfold Dev.placeAt
  dsimp only
  refine RecordsOnly.noteFill (RecordsOnly.ite ?_ (RecordsOnly.ringEvent ?_ _ _)) r <;>
    exact RecordsOnly.overrun (RecordsOnly.setWide (RecordsOnly.setRing (RecordsOnly.noteHeader (RecordsOnly.ringStore r _ _
      (RecordsOnly.ringStore r _ _ (h.walkSpan r pos _ _))) r pos) r _) _ _ r (by decide)) r

theorem RecordsOnly.fold {α : Type} (f : Dev → α → Dev) (hf : ∀ (b : Dev) (x : α), RecordsOnly w a b → RecordsOnly w a (f b x)) :
    ∀ (l : List α) {b : Dev}, RecordsOnly w a b → RecordsOnly w a (l.foldl f b)
  | [], _, h => h
  | x :: t, b, h => RecordsOnly.fold f hf t (hf b x h)

theorem RecordsOnly.placeNext (h : RecordsOnly w a b) (r tag : Nat) (x : Rec) : RecordsOnly w a (b.placeNext r tag x).1 := by
  unfold Dev.placeNext
  dsimp only
  split
  · exact RecordsOnly.placeAt (RecordsOnly.liveWr r _ h) _ _ _ _
  · exact RecordsOnly.liveWr r _ h

theorem RecordsOnly.placeWith (h : RecordsOnly w a b) (r tag : Nat) (x : Rec) (t : Dev → Nat → Rec) : RecordsOnly w a (b.placeWith r tag x t) :=
  RecordsOnly.fold _ (fun _ _ hc => hc.placeNext _ _ _) _ (h.placeNext _ _ _)

theorem RecordsOnly.room (h : RecordsOnly w a b) (r : Nat) (need : Dev → Nat) : RecordsOnly w a (b.room r need).1 := by
  unfold Dev.room
  split
  · exact h
  · exact RecordsOnly.liveWr r _ h

theorem RecordsOnly.place (h : RecordsOnly w a b) (r tag : Nat) (x : Rec) : RecordsOnly w a (b.place r tag x) := h.placeWith _ _ _ _

theorem RecordsOnly.publishLoose (h : RecordsOnly w a b) (r : Nat) (x : Rec) (count : Dev → Dev)
    (hc : ∀ c, RecordsOnly w a c → RecordsOnly w a (count c)) : RecordsOnly w a (b.publishLoose r x count) := by
  unfold Dev.publishLoose
  split
  · exact hc _ (h.incHigh _ _ _ _ (by decide))
  · dsimp only
    have h1 := h.room r (fun d => d.needs r x)
    split
    · exact h1.place _ _ _
    · exact hc _ ((h1.incHigh _ _ _ _ (by decide)).ringEvent _ _)

theorem RecordsOnly.noteOverflow (h : RecordsOnly w a b) (r : Nat) : RecordsOnly w a (b.noteOverflow r) := h.flagHigh _ _ _ _ (by decide)

theorem RecordsOnly.placeLoss (h : RecordsOnly w a b) (i r : Nat) (u : Run) (l : Loss) : RecordsOnly w a (b.placeLoss i r u l) :=
  RecordsOnly.fold _ (fun _ _ hc => hc.place _ _ _) _ h

theorem RecordsOnly.closeGap (h : RecordsOnly w a b) (i : Nat) : RecordsOnly w a (b.closeGap i) := by
  unfold Dev.closeGap
  cases b.runs.get? i with
  | none => exact h
  | some u =>
    dsimp only
    cases u.ring with
    | none => exact h.setRun _ _
    | some r =>
      have h1 := RecordsOnly.fold (fun d g => d.placeLoss i r u g) (fun _ _ hc => hc.placeLoss _ _ _ _) (u.held ++ u.gap.toList)
        (h.setRun i (fun u => { u with gap := none, held := [] }))
      exact RecordsOnly.ite ((h1.ringEvent _ _).noteOverflow _) h1

theorem RecordsOnly.endGap (h : RecordsOnly w a b) (i : Nat) : RecordsOnly w a (b.endGap i) := by
  unfold Dev.endGap
  cases b.runs.get? i with
  | none => exact h
  | some u => exact RecordsOnly.ite (h.closeGap i) (h.setRun _ _)

theorem RecordsOnly.lose (h : RecordsOnly w a b) (i n c : Nat) : RecordsOnly w a (b.lose i n c) := by
  unfold Dev.lose
  split
  · exact h
  · split
    · exact h
    · split
      · split
        · exact h.setRun _ _
        · exact (h.endGap i).setRun _ _
      · exact h.setRun _ _

theorem RecordsOnly.settle (i : Nat) : ∀ (k : Nat) {b : Dev}, RecordsOnly w a b → RecordsOnly w a (b.settle i k)
  | 0, _, h => h
  | k + 1, b, h => by
    unfold Dev.settle
    split
    · exact h
    · split
      · exact h
      · split
        · exact RecordsOnly.settle i k (h.setRun _ _)
        · split
          · exact RecordsOnly.settle i k ((h.setRun _ _).lose _ _ _)
          · exact h

/-- A loss noted places records for the run alone, beside the losses that a channel remembers. -/
theorem Dev.noteLoss_records (w : List Nat) (b : Dev) (i : Nat) (l : Loss) : ∃ c, RecordsOnly w { b with chans := c } (b.noteLoss i l) := by
  have key (c : Tab Chan) (u : Run) : RecordsOnly w { b with chans := c }
      ((({ b with chans := c } : Dev).setRun i (fun x => { x with losses := addLoss u.losses l })).settle i ((addLoss u.losses l).length + 1)) :=
    RecordsOnly.settle i _ ((RecordsOnly.refl w _).setRun _ _)
  unfold Dev.noteLoss
  cases b.runs.get? i with
  | none => exact ⟨b.chans, .refl _ _⟩
  | some u =>
    dsimp only
    split
    · split
      · exact ⟨b.chans, key b.chans u⟩
      · exact ⟨_, key _ u⟩
    · exact ⟨b.chans, key b.chans u⟩

theorem RecordsOnly.takeReserve (h : RecordsOnly w a b) (i : Nat) : RecordsOnly w a (b.takeReserve i) := by
  unfold Dev.takeReserve
  split
  · split
    · split
      · exact h
      · exact (h.setRun _ _).setRing _ _
    · exact h
  · exact h

theorem RecordsOnly.placeContext (h : RecordsOnly w a b) (i r tag : Nat) (x : Rec) : RecordsOnly w a (b.placeContext i r tag x) :=
  (h.place r tag x).setRun _ _

theorem RecordsOnly.publishContext (h : RecordsOnly w a b) (i : Nat) (x : Rec) : RecordsOnly w a (b.publishContext i x) := by
  unfold Dev.publishContext
  cases b.runs.get? i with
  | none => exact h
  | some u =>
    dsimp only
    cases u.ring with
    | none => exact h.incHigh _ _ _ _ (by decide)
    | some r =>
      dsimp only
      have h1 := RecordsOnly.ite (p := u.ctxWait.isSome = true) (h.incHigh F.GAL_RING_CNT_MISC_CTX_MERGED r 0 1 (by decide)) h
      have h2 : ∀ {c : Dev}, RecordsOnly w a c → RecordsOnly w a (if u.overflowing = true then (c, false) else c.room r (fun d => d.needs r x)).1 := by
        intro c hc
        split
        · exact hc
        · exact hc.room _ _
      exact RecordsOnly.ite (((h2 h1).placeContext _ _ _ _).takeReserve _) ((h2 h1).setRun _ _)

theorem RecordsOnly.publishData (h : RecordsOnly w a b) (i : Nat) (x : Rec) (full : Bool) : RecordsOnly w a (b.publishData i x full) := by
  unfold Dev.publishData
  cases b.runs.get? i with
  | none => exact h
  | some u =>
    dsimp only
    cases u.ring with
    | none => exact RecordsOnly.settle i _ ((h.incHigh _ _ _ _ (by decide)).setRun _ _)
    | some r =>
      dsimp only
      generalize hn : (fun d : Dev => d.needs r { x with start := u.next } + (72 * u.held.length +
        (if (u.overflowing || u.ctxWait.isSome) = true then 256 else if u.gap.isSome = true then 72 else 0))) = need
      have h0 : RecordsOnly w a (if full = true then (b, false) else b.room r need).1 := by
        split
        · exact h
        · exact h.room _ _
      generalize (if full = true then (b, false) else b.room r need) = c at h0 ⊢
      have h1 := RecordsOnly.ite (p := full = true) ((h0.incHigh F.GAL_STONE_FULL_COUNT 0 0 1 (by decide)).raise 26 29 (by omega)) h0
      have h2 := (h1.lose i x.count 1).incHigh F.GAL_RING_CNT_OVF_OVF_UNITS r 0 x.count (by decide)
      have h3 : RecordsOnly w a (match u.ctxWait with
            | some y => (c.1.closeGap i).placeContext i r u.tag y
            | none => c.1.closeGap i) := by
        cases u.ctxWait with
        | none => exact h0.closeGap i
        | some y => exact (h0.closeGap i).placeContext _ _ _ _
      exact RecordsOnly.settle i _ (RecordsOnly.ite (((h3.placeWith _ _ _ _).setRun _ _).takeReserve _)
        (RecordsOnly.ite h2 ((h2.ringEvent _ _).noteOverflow _)))

theorem RecordsOnly.startRun (h : RecordsOnly w a b) (i r : Nat) (u : Run) (c : Rec) : RecordsOnly w a (b.startRun i r u c) := by
  unfold Dev.startRun
  dsimp only
  refine RecordsOnly.publishContext ?_ i c
  split
  · exact ((h.runs _).setRing _ _).incHigh _ _ _ _ (by decide)
  · exact h.runs _

theorem RecordsOnly.endRun (h : RecordsOnly w a b) (i : Nat) : RecordsOnly w a (b.endRun i) := by
  unfold Dev.endRun
  split
  · exact h
  · dsimp only
    refine RecordsOnly.runs ?_ _
    split
    · refine RecordsOnly.noteFill (RecordsOnly.wrHigh (RecordsOnly.setRing ?_ _ _) _ _ _ _ (by decide)) _
      split
      · exact (h.closeGap i).incHigh _ _ _ _ (by decide)
      · exact h.closeGap i
    · exact h.closeGap i

theorem RecordsOnly.endRunAt (h : RecordsOnly w a b) (i unit : Nat) : RecordsOnly w a (b.endRunAt i unit) := (h.setRun _ _).endRun i

theorem RecordsOnly.anchorRecord (h : RecordsOnly w a b) (x : Rec) : RecordsOnly w a (b.anchorRecord x) := by
  unfold Dev.anchorRecord
  dsimp only
  split
  · exact h.place _ _ _
  · exact h.incHigh _ _ _ _ (by decide)

theorem RecordsOnly.mapped (h : RecordsOnly w a b) (c : Nat) : RecordsOnly w a (b.mapped c) := by
  unfold Dev.mapped
  split
  · exact h
  · refine RecordsOnly.fold _ (fun e p he => ?_) _ h
    exact RecordsOnly.ite (he.raise _ _ (by omega)) he
theorem RecordsOnly.sectionEvent (h : RecordsOnly w a b) (i e : Nat) : RecordsOnly w a (b.sectionEvent i e) := h.mapped _

end

end Sys2Proof.Machine
end

