-- ==== Sys2Proof/WellFormed.lean ====
section
/-! DEFINITION. What a command's operands must satisfy to be one the world outside can give: aligned offsets (R4), lists of the length the spec
states. A command that is not well-formed has a meaning all the same; no host and no port sends it. -/
namespace Sys2Proof

/-- A naturally aligned 32-bit access (R4). -/
def aligned (off : Nat) : Bool := off % 4 == 0

/-- Whether a command is well-formed. -/
def Instr.wf : Instr → Bool
  | .registerWrite off _ => aligned off.toNat
  | .narrowWrite _ => true
  | .access64bit _ off _ => aligned off.toNat
  | .readClear off => aligned off.toNat
  | .anchorTick => true
  | .verify _ => true
  | .verifyEnd _ => true
  | .imageRelease _ => true
  | .governWrite _ => true
  | .load _ _ => true
  | .loadSupersede _ _ => true
  | .queuedLoadStart => true
  | .loadComplete => true
  | .unload _ => true
  | .holdDark _ => true
  | .sectionRelease _ => true
  | .knobHold _ => true
  | .knobApply _ => true
  | .knobWrite _ off _ => aligned off.toNat
  | .halyardDriverEnable _ _ => true
  | .halyardArrival => true
  | .cnvStart _ => true
  | .cnvStop _ => true
  | .pairingRequest _ _ => true
  | .attenWrite _ _ => true
  | .ovrBlankChange _ _ => true
  | .overrangeDeclared _ _ => true
  | .overrangeRelease _ => true
  | .monitorWindowEnd _ _ est => est.length == 64
  | .calRequest _ => true
  | .accept _ => true
  | .calMeasureStart => true
  | .calSettleEnd => true
  | .calStageEnd _ => true
  | .archiveWriteEnd _ _ => true
  | .slotReturn _ => true
  | .tempDriftDetect _ _ => true
  | .xtlTempUpdate _ => true
  | .xtlAgeUpdate => true
  | .xtlDailyStore => true
  | .xtlModeWrite _ => true
  | .xtlTuneWrite _ => true
  | .xtlAgeWrite _ _ => true
  | .refQualified _ => true
  | .refDisqualified => true
  | .relock _ => true
  | .pllEnable _ => true
  | .pllDisable _ => true
  | .bandSearchEnd _ freqs => freqs.length == 64
  | .lockDeclared _ => true
  | .lossOfLock _ => true
  | .ebufSlipStop _ _ => true
  | .loStart _ _ => true
  | .loStep _ => true
  | .loHold _ => true
  | .loResume _ => true
  | .loStop _ => true
  | .segmentEnd _ => true
  | .profileWrite _ _ _ => true
  | .chanStart _ => true
  | .chanStop _ => true
  | .inputSwitch _ _ => true
  | .ncoHiWrite _ _ => true
  | .thresholdEnter _ _ => true
  | .thresholdLeave _ _ => true
  | .xfrmStart _ => true
  | .xfrmStop _ => true
  | .windowLoad _ => true
  | .windowLoadEnd _ => true
  | .traceStart _ => true
  | .traceStop _ => true
  | .traceComplete _ _ _ => true
  | .coreStart _ => true
  | .coreStop _ => true
  | .coreStep _ => true
  | .coreReset _ => true
  | .doorbellRing _ _ _ => true
  | .nop _ => true
  | .add _ => true
  | .sub _ => true
  | .adds _ => true
  | .subs _ => true
  | .and _ => true
  | .or _ => true
  | .xor _ => true
  | .shl _ => true
  | .shr _ => true
  | .sra _ => true
  | .min _ => true
  | .max _ => true
  | .abs _ => true
  | .cmplt _ => true
  | .cmpeq _ => true
  | .mul _ => true
  | .mac _ => true
  | .msu _ => true
  | .macz _ => true
  | .mac2 _ => true
  | .movs _ => true
  | .moval _ => true
  | .movah _ => true
  | .movag _ => true
  | .accset _ => true
  | .sadopt _ => true
  | .divs _ => true
  | .movr _ => true
  | .movw _ => true
  | .movad _ => true
  | .movda _ => true
  | .vmaxi _ => true
  | .vmini _ => true
  | .searchDone _ => true
  | .wait _ => true
  | .waitWake _ => true
  | .streamStallEnd _ _ _ _ _ => true
  | .sig _ => true
  | .post _ => true
  | .swi _ => true
  | .ret _ => true
  | .halt _ => true
  | .movi _ => true
  | .addi _ => true
  | .movia _ => true
  | .br _ => true
  | .brz _ => true
  | .brnz _ => true
  | .brneg _ => true
  | .call _ => true
  | .loop _ => true
  | .loopIterationEnd _ => true
  | .fetchDone _ => true
  | .depositDone _ => true
  | .trigArm _ => true
  | .trigDisarm _ => true
  | .trigSoftware _ => true
  | .maskLoad _ => true
  | .maskLoadEnd _ => true
  | .stage1Decision _ _ _ => true
  | .stage2Event _ _ _ => true
  | .deadlineExpiry _ => true
  | .trigHoldoffEnd _ => true
  | .rawcStart _ => true
  | .rawcStop _ => true
  | .captureClose _ => true
  | .axisEnable _ _ => true
  | .encoderEdgeEntry _ => true
  | .indexEdge _ => true
  | .home _ => true
  | .ax3Edge _ => true
  | .ax3Lock => true
  | .ax3Loss => true
  | .cueArm _ _ => true
  | .cueDisarm _ => true
  | .groupEnableWrite _ _ => true
  | .cuePredict => true
  | .cueToleranceExpiry _ => true
  | .cueCrossing _ => true
  | .lateCommit _ => true
  | .snapshotRecord => true
  | .timNewEpoch => true
  | .timStep _ => true
  | .rateCommit _ => true
  | .timNowRead => true
  | .ethRxFrame _ _ => true
  | .ptpTxStamp _ => true
  | .txqPop _ => true
  | .launchTime _ _ => true
  | .spRxTailWrite _ _ _ => true
  | .spTxTailWrite _ _ _ => true
  | .eventEdge _ _ _ => true
  | .batchTimeout _ => true
  | .tdcPop _ => true
  | .tdcMStart _ => true
  | .tdcMAbort _ => true
  | .gateEnd _ => true
  | .markerArm _ _ => true
  | .markerPlacement _ => true
  | .recordPublish _ _ => true
  | .ringEnable _ => true
  | .ringDisable _ => true
  | .hostRdWrite _ _ => true
  | .hostWrPublish _ _ => true
  | .mapEntryWrite _ => true
  | .bar2Read a => aligned a.toNat
  | .bar2Write a _ => aligned a.toNat
  | .movStart _ _ => true
  | .movStop _ => true
  | .movReset _ _ => true
  | .descriptorDone _ _ => true
  | .refresh _ => true
  | .dramTempRead temps => temps.length == 68
  | .selfRefreshEntry => true
  | .selfRefreshExit => true
  | .scrubPassEnd _ => true
  | .channelFreeze _ _ => true
  | .drcResume _ => true
  | .drcRetire _ => true
  | .spareInService _ => true
  | .apply => true
  | .preservingMarch _ _ _ => true
  | .marchEnd _ _ => true
  | .pciLinkDown => true
  | .nvmScan _ => true
  | .scanRoundEnd => true
  | .rootPortLinkUp _ _ _ => true
  | .rootPortLinkTimeout _ => true
  | .driveInitDone _ _ => true
  | .presenceLost _ => true
  | .presenceArrival _ => true
  | .nvmeCompletion _ _ _ => true
  | .nvmeTimeout _ => true
  | .setFormat _ => true
  | .formatDone _ => true
  | .setRelease _ => true
  | .chunkWriteDone _ _ => true
  | .strStart _ => true
  | .strStop _ => true
  | .transportClosed _ => true
  | .strConsWrite _ _ => true
  | .subscribe _ _ => true
  | .renew _ _ => true
  | .unsubscribe _ _ => true
  | .ack _ _ => true
  | .leaseLapse _ => true
  | .ethLinkChange _ _ => true
  | .stayLinkDown _ _ => true
  | .stayLinkUp _ _ _ _ => true
  | .styScan => true
  | .discoveryEnd => true
  | .timeExchange => true
  | .timeWord _ _ => true
  | .alignWord _ _ _ => true
  | .halyardWord _ _ => true
  | .commandWord _ _ => true
  | .discoverWord _ _ => true
  | .creditWord _ _ => true
  | .slewEnd => true
  | .gcmdArm => true
  | .gcmdDisarm => true
  | .gcmdSnapshot => true
  | .gcmdExecute => true
  | .bulkFrame _ _ _ _ _ _ _ => true
  | .sheetCycle _ => true
  | .sheetReply _ _ => true
  | .sheetReplyTimeout _ => true
  | .shtScan _ => true
  | .shtDirect _ _ => true
  | .densStart _ => true
  | .densStop _ => true
  | .densFrameEnd _ _ => true
  | .renderPassEnd _ => true
  | .vidEnable => true
  | .vidDisable => true
  | .linkTrainingEnd _ => true
  | .hpdChange _ => true
  | .vblankStart => true
  | .lineMatch => true
  | .frameDone => true
  | .underrun _ _ _ _ => true
  | .flip _ _ => true
  | .auxGo _ => true
  | .auxDone _ _ => true
  | .pendingClear _ _ => true
  | .irqEnableWrite _ _ => true
  | .irqComplete _ => true
  | .irqHoldoffEnd _ => true
  | .msixUnmask _ => true
  | .hkaEnable _ => true
  | .conversionEnd _ => true
  | .hkaResultRead => true
  | .powerValid => true
  | .wake => true
  | .powerFail => true
  | .thermalTrip => true
  | .startupStepEnd _ => true
  | .pwrRun => true
  | .pwrIdle => true
  | .pwrStandby => true
  | .pwrResume _ => true
  | .firstReef _ _ => true
  | .secondReef _ => true
  | .reefHalt _ => true
  | .reefRelease _ => true
  | .shedPace _ => true
  | .escalation _ => true
  | .ageingMeasure dev => dev.length == 32
  | .returnUnit => true
  | .nvsWrite _ _ => true
  | .enrolOwner _ => true
  | .setPolicy _ => true
  | .lock => true
  | .applyAuth => true
  | .enrolSub _ => true
  | .eraseSub _ => true
  | .standbySupplyUp => true
  | .standbySupplyLost => true
  | .hostLinkUp _ _ _ _ _ => true
  | .latchingRead off => aligned off.toNat
  | .provisionalHeldOver1s _ => true
  | .nvsWriteDone _ => true
  | .tripCooledStart _ => true
  | .driveTempPoll _ => true
  | .slowPathTransmitDone _ => true
  | .displayLinkLoss => true
  | .hostReadInIdle off => aligned off.toNat

end Sys2Proof
end

