-- ==== Sys2Proof/Tests/Slice0.lean ====
section
/-! SUPPORT. The model's own tests: ill-formed commands that `wf` refuses, the check values of the spec, single steps, and for each statement of
`Certificates/Slice0/Obligations.lean` that has hypotheses a theorem `witness_<name>` (or several, by the parts of the statement) that small states and
operands meet them, at the highest index of a bank where there is one. -/

open Sys2Proof Sys2Proof.Machine
namespace Sys2Proof.Tests

-- One proof at a time: evaluated side by side, they take more memory than the check has.
set_option Elab.async false

/-! ## Small states -/

/-- The engine in the RUN power state, with nothing loaded and nothing running. -/
def base : Dev := Dev.reset.wr F.SYS_STATUS_PSTATE 2
/-- An engine with no command waiting. -/
def on (d : Dev) : State := ⟨d, []⟩
/-- A section's description: its index and kind, nothing placed, one knob of its own at 0x400 that takes 0 to 9. -/
def desc (i k : Nat) : SectionDesc :=
  ⟨i, k, 16, 0, 0, 0, 0, 0, [⟨0x400, 32, false, false, true, false, 0, 9⟩, ⟨0x404, 32, false, true, false, false, 0, 9⟩], [], [], [], [], []⟩
/-- Section i of kind k in state st (2 ACTIVE, 3 HELD). -/
def sect (d : Dev) (i k st : Nat) : Dev := ({ d with sections := d.sections.put i ⟨desc i k, [], none, 0, 0⟩, maps := d.maps.put i (k, (desc i k).knobs) }).wr F.FMR_SEC_STATE_STATE st i
/-- A register by its offset. -/
def set (d : Dev) (o v : Nat) : Dev := d.setReg o (BitVec.ofNat 32 v)
/-- Image slot 0 VERIFIED, its image describing section 3. -/
def imaged : Dev := ({ base with slots := base.slots.put 0 ⟨0, 0, 0, 0, some ⟨0, [desc 3 0], [], []⟩, []⟩ }).wr F.FMR_IMG_STATUS_STATE 2 0

/-! ## Ill-formed commands -/

theorem test_wf_refuses_unaligned : ([.registerWrite 2 0, .access64bit false 6 0, .readClear 1, .knobWrite 0 0x402 0, .bar2Read 3, .bar2Write 1 0, .latchingRead 2, .hostReadInIdle 0x11] : List Instr).all (fun i => !i.wf) = true := by decide +kernel
theorem test_wf_refuses_short_lists : ([.monitorWindowEnd 0 0 [], .bandSearchEnd 0 [1], .dramTempRead (List.replicate 67 0), .ageingMeasure (List.replicate 33 0)] : List Instr).all (fun i => !i.wf) = true := by decide +kernel
theorem test_wf_accepts : ([.registerWrite 4 0, .bandSearchEnd 27 (List.replicate 64 9), .dramTempRead (List.replicate 68 40), .ageingMeasure (List.replicate 32 (-200)), .cnvStart 7] : List Instr).all Instr.wf = true := by decide +kernel

/-! ## Check codes: the values R13 and R14 give for the digits 1 to 9 -/

theorem test_crc32 : crc32 [0x31, 0x32, 0x33, 0x34, 0x35, 0x36, 0x37, 0x38, 0x39] = 0xCBF43926 := by decide +kernel
theorem test_crc16 : crc16 [0x31, 0x32, 0x33, 0x34, 0x35, 0x36, 0x37, 0x38, 0x39] = 0x29B1 := by decide +kernel

/-! ## Registers -/

/-- The engine after one command. -/
def after (d : Dev) (c : Instr) : Dev := match step ⟨d, [c]⟩ with
  | .next t => t.dev
  | _ => Dev.reset
/-- A write-one bit, a read-only word and an offset without a register (R5, R7). -/
theorem test_register_write : (after base (.registerWrite 0 5)).reg 0 = 0x4C580830 ∧ (after base (.registerWrite 0x3B004C 7)).reg 0x3B004C = 7 ∧ (after base (.registerWrite 0x3FFFFF8 7)).regs = base.regs := by decide +kernel
/-- The three words of the global command's time are its words, lowest first (R408). -/
theorem test_gcmd_time : (set (set (set base 0x3B004C 1) 0x3B0050 2) 0x3B0054 3).rdWide F.STY_GCMD_T_T 0 3 = 1 + 2 * 2 ^ 32 + 3 * 2 ^ 64 := by decide +kernel
/-- So are those of the alignment's time (R292). -/
theorem test_align_time : (base.wrWide F.TIM_ALIGN_TS (1 + 2 * 2 ^ 32 + 3 * 2 ^ 64) 0 3).reg 0x50040 = 1 ∧ (base.wrWide F.TIM_ALIGN_TS (1 + 2 * 2 ^ 32 + 3 * 2 ^ 64) 0 3).reg 0x50048 = 3 := by decide +kernel
/-- Fields marked for other axes are not there: AX0 has EN 1, VAL and VEL 10^9, AX1 has no BW, AX3 no PRED_LOG2 (10_axis.md, table of AXS_AX). -/
theorem test_axis_words : base.reg 0x80100 = 1 ∧ base.reg 0x80110 = 1000000000 ∧ base.reg 0x80140 = 0x20000 ∧ base.reg 0x801C0 = 0x1000000 ∧
    (after base (.axisEnable 3 0xFFFFFFFE)).reg 0x801C0 = 0x3000000 := by decide +kernel
theorem test_narrow_write : (after base (.narrowWrite 0x40004)).rd F.SYS_ACCESS_ERR_COUNT = 1 ∧ (after base (.narrowWrite 0x40004)).rd F.SYS_ACCESS_ADDR_OFFSET = 0x40004 := by decide +kernel
/-- The command at the front runs and the rest waits; on an empty queue one composing clock passes. -/
theorem test_queue : (match step ⟨base, [.narrowWrite 8, .styScan]⟩ with | .next t => t.pending | _ => []) = [.styScan] ∧ (match step ⟨base, []⟩ with | .next t => t.dev.clk | _ => 0) = base.clk + 1 := by decide +kernel

/-! ## Witnesses: each statement's hypotheses can be met -/

theorem witness_HostWritesComplete : InRun (on base) ∧ (0xC0040#26) ∈ [0x10#26, 0x20000#26, 0x2000C#26, 0x30110#26, 0x40004#26, 0xC0040#26, 0xC3040#26, 0x300020#26] ∧
    0x2000000 ≤ (0x3FFFFFC#26).toNat := by unfold InRun; decide +kernel
theorem witness_HostReadsComplete : InRun (on base) ∧ base.wideAt F.CNV_START_IDX_LO_IDX 7 < 2 ^ 64 ∧ (on (base.wr F.SYS_STATUS_PSTATE 3)).dev.pstate = 3 := by
  unfold InRun; decide +kernel
theorem witness_ImageCommandsComplete :
    (InRun (on base) ∧ base.rd F.FMR_IMG_STATUS_STATE 1 = 0) ∧ (let d := base.wr F.FMR_IMG_STATUS_STATE 3 1; InRun (on d) ∧ d.rd F.FMR_IMG_STATUS_STATE 1 = 3) ∧
    (let d := base.wr F.FMR_IMG_STATUS_STATE 1 1; InRun (on d) ∧ d.rd F.FMR_IMG_STATUS_STATE 1 = 1 ∧ (d.slot 1).locked.all (fun x => (d.walkCause x).isNone) = true ∧
      d.verifyImage (d.ringBytes (d.slot 1).ring (d.slot 1).offset (d.slot 1).length) = .error codeFormat) ∧
    (InRun (on imaged) ∧ imaged.rd F.FMR_IMG_STATUS_STATE 0 = 2 ∧ ∀ i, i < 128 → imaged.secState i = 0) := by unfold InRun; decide +kernel
theorem witness_LoadCommandsComplete :
    (InRun (on imaged) ∧ imaged.rd F.PWR_STATUS_REEF = 0 ∧ imaged.rd F.FMR_IMG_STATUS_STATE 0 = 2 ∧
      (imaged.slot 0).image.bind (fun im => im.sections.find? (·.index == 3)) = some (desc 3 0) ∧ imaged.secState 3 = 0 ∧ imaged.loads = []) ∧
    imaged.rd F.FMR_IMG_STATUS_STATE 1 ≠ 2 ∧ (imaged.wr F.FMR_SEC_STATE_STATE 1 3).secState 3 = 1 ∧
    (let d := { imaged with loads := [⟨3, 0, 0⟩] }; d.loads = [⟨3, 0, 0⟩] ∧ (⟨3, 0, 0⟩ : Load).started = 0) ∧
    (let d := { imaged with loads := [⟨3, 0, 7 + 1⟩] }; d.kind 3 = 0 ∧ d.loadCode 3 0 (desc 3 0) = 0) ∧
    (let d := { (imaged.wr F.FMR_CAP_CAPACITY 0 0) with loads := [⟨3, 0, 7 + 1⟩] }; d.loadCode 3 0 { desc 3 0 with sorts := [⟨0, 0, 5000, []⟩] } ≠ 0) := by
  unfold InRun; decide +kernel
theorem witness_SectionCommandsComplete :
    (let d := sect base 127 7 2; InRun (on d) ∧ d.secState 127 = 2 ∧ d.kind 127 ≠ 4 ∧ d.sections.get? 127 = some ⟨desc 127 7, [], none, 0, 0⟩) ∧
    (let d := sect base 0 7 3; InRun (on d) ∧ d.secState 0 = 3) := by unfold InRun; decide +kernel
theorem witness_KnobWritesComplete :
    (InRun (on base) ∧ base.knobRow 0 0x1FFFC = none) ∧
    (let d := sect base 127 7 3; InRun (on d) ∧ d.knobRow 127 0x400 = some ⟨0x400, 32, false, false, true, false, 0, 9⟩ ∧ d.secState 127 ≠ 2) ∧
    (let d := sect base 127 7 2; d.knobRow 127 0x404 = some ⟨0x404, 32, false, true, false, false, 0, 9⟩ ∧ 6 < d.kind 127 ∧
      (⟨0x400, 32, false, false, true, false, 0, 9⟩ : KnobRow).accepts 10 = false) ∧
    (let d := sect base 127 7 2; InRun (on d) ∧ d.secState 127 = 2 ∧ 6 < d.kind 127 ∧ (⟨0x400, 32, false, false, true, false, 0, 9⟩ : KnobRow).accepts 9 = true ∧
      d.rd F.FMR_SEC_STATE_KNOB_HOLD 127 = 0 ∧ Quiet d) ∧
    (let d := (sect base 127 7 2).wr F.FMR_SEC_STATE_KNOB_HOLD 1 127; InRun (on d) ∧ d.rd F.FMR_SEC_STATE_KNOB_HOLD 127 = 1 ∧ d.secState 127 = 2) ∧
    (let d := { sect base 127 7 2 with sections := Tab.empty.put 127 ⟨desc 127 7, [(0x400, 9)], none, 0, 0⟩ }; d.secState 127 = 2 ∧ Quiet d) := by
  unfold InRun Quiet; decide +kernel
theorem witness_HalyardCommandsComplete :
    (InRun (on base) ∧ base.takenByOther 63 (DriverSel.kind .stay) 0 = false ∧ (base.rd F.STY_HAL_IN_MASK 1).testBit 31 = false) ∧
    (let d := base.recordDriver 63 1 5; InRun (on d) ∧ d.takenByOther 63 (DriverSel.tdc 15).kind 15 = true) ∧
    (let d := { base with halyards := [⟨63, 0, 0, none, none⟩] }; d.halyards = [⟨63, 0, 0, none, none⟩] ∧ d.trigs = Tab.empty) := by unfold InRun; decide +kernel
theorem witness_InputStartAndStopComplete :
    (InRun (on base) ∧ base.halted = false ∧ base.cnvState 7 = 0 ∧ base.rd F.CNV_STATUS_PAIR_PENDING 7 = 0 ∧ base.clocks.slipped.get? 7 = none) ∧
    (let d := base.wr F.PWR_STATUS_REEF 3; InRun (on d) ∧ d.halted = true) ∧ (base.wr F.CNV_STATUS_STATE 4 7).cnvState 7 = 4 ∧
    (base.wr F.CNV_STATUS_STATE 2 7).cnvState 7 = 2 ∧ (base.wr F.CNV_STATUS_STATE 1 7).cnvState 7 = 1 ∧ (base.wr F.CNV_STATUS_STATE 3 7).cnvState 7 = 3 := by
  unfold InRun; decide +kernel
theorem witness_AttenuatorWritesComplete : InRun (on (base.wr F.CNV_STATUS_STATE 4 7)) ∧ (base.wr F.CNV_STATUS_STATE 4 7).cnvState 7 = 4 ∧
    (base.wr F.CNV_STATUS_STATE 2 7).cnvState 7 = 2 ∧ base.cnvState 7 < 2 ∧ base.rd F.CNV_ATTEN_ACT_SETTING 7 ≠ (5 : Word).field 0 5 := by unfold InRun; decide +kernel
theorem witness_InputDetectorCommandsComplete :
    (let d := ((base.wr F.CNV_STATUS_STATE 1 7).wr F.CNV_CTRL_OVR_BLANK 1 7).wr F.CNV_CTRL_OVR_HAL_EN 1 7;
      d.cnvState 7 = 1 ∧ d.rd F.CNV_STATUS_OVR 7 = 0 ∧ d.rd F.CNV_CTRL_OVR_BLANK 7 = 1 ∧ d.rd F.CNV_CTRL_OVR_HAL_EN 7 = 1 ∧ d.halyards = []) ∧
    (base.wr F.CNV_STATUS_OVR 1 7).rd F.CNV_STATUS_OVR 7 = 1 ∧ base.rd F.CNV_CTRL_OVR_BLANK 7 = 0 ∧
    (let d := (base.wr F.CNV_CTRL_OVR_BLANK 1 7).setInput 7 (fun i => { i with blankFrom := some 5 });
      InRun (on d) ∧ d.rd F.CNV_CTRL_OVR_BLANK 7 = 1 ∧ (d.input 7).blankFrom = some 5) ∧
    (List.replicate 64 ((1 : Int), (1 : Int), (1 : Int))).length ≤ 64 := by unfold InRun; decide +kernel
theorem witness_PairingAndAnchorTicksComplete :
    (InRun (on base) ∧ 6 % 2 = 0 ∧ base.takenByOther ((0x3F01 : Word).field 8 6) 2 6 = false ∧ base.rd F.CNV_STATUS_PAIR_PENDING 6 = 0 ∧ base.cnvState 6 = 0 ∧ base.cnvState 7 = 0 ∧
      base.rd F.CNV_STATUS_PAIRED 6 ≠ (0x3F01 : Word).field 0 1) ∧ (base.wr F.CNV_STATUS_STATE 1 6).cnvState 6 ≠ 0 ∧
    (let d := base.wr F.CNV_STATUS_PAIR_PENDING 1 6; d.rd F.CNV_STATUS_PAIR_PENDING 6 = 1 ∧ d.rd F.CNV_STATUS_PAIRED 6 = (0 : Word).field 0 1) ∧
    base.rd F.CLK_STATUS_ALIGNED = 0 ∧
    (let d := { (base.wr F.CLK_STATUS_ALIGNED 1).wr F.CNV_STATUS_PAIR_PENDING 1 6 with time := { base.time with ratePend := [(0, 5)] } };
      d.rd F.CLK_STATUS_ALIGNED = 1 ∧ d.time.ratePend = [(0, 5)] ∧ d.rd F.CNV_STATUS_PAIR_PENDING (2 * 3) = 1) := by unfold InRun; decide +kernel
/-- A calibration that measures, its stages `t` still to run. -/
def job (t : List CalStage) : CalJob := ⟨0, 1, false, t, 0, 0, 0, [], [], [], [], false⟩
theorem witness_CalibrationRequestsComplete :
    (InRun (on base) ∧ base.halted = false ∧ base.cnvState 7 = 0 ∧ base.rd F.CNV_STATUS_PAIR_PENDING 7 = 0) ∧ (base.wr F.PWR_STATUS_REEF 3).halted = true ∧
    (base.wr F.CNV_STATUS_PAIR_PENDING 1 7).rd F.CNV_STATUS_PAIR_PENDING 7 = 1 ∧
    (let d := { base with cal := { base.cal with queue := [7] } }; d.cal.job = none ∧ d.cal.queue = (7 : Fin 8).val :: []) ∧ base.cal.queue = [] := by unfold InRun; decide +kernel
theorem witness_CalibrationStagesComplete :
    (let d := { base with cal := { base.cal with job := some (job [⟨0, 0, 0⟩, ⟨1, 0, 0⟩]) } }; d.cal.job = some (job [⟨0, 0, 0⟩, ⟨1, 0, 0⟩])) ∧
    (let d := { base.wr F.CAL_IN_ACCEPT_PENDING 1 0 with cal := { base.cal with job := some (job [⟨1, 0, 0⟩, ⟨2, 0, 0⟩]) } };
      d.cal.job = some (job [⟨1, 0, 0⟩, ⟨2, 0, 0⟩]) ∧ d.rdInt F.CAL_LIMIT_MIN_MIN 6 ≤ 0 ∧ 0 ≤ d.rdInt F.CAL_LIMIT_MAX_MAX 6 ∧ d.rd F.CAL_IN_ACCEPT_PENDING 0 = 1 ∧
      d.rdInt F.CAL_LIMIT_MAX_MAX 6 < 2147483648) := by decide +kernel
theorem witness_CalibrationEndsComplete :
    (let d := { base.wr F.CNV_STATUS_STATE 2 0 with cal := { base.cal with archive := [{ job [] with good := [(itemCrystal, 5)] }] } };
      d.cal.archive = [{ job [] with good := [(itemCrystal, 5)] }] ∧ (job []).cause ≠ 0 ∧ d.cnvState 0 = 2) ∧ base.cal.archive = [] ∧
    (let d := { base.wr F.CNV_STATUS_STATE 3 0 with cal := { base.cal with archive := [{ job [] with cause := 2 }] } };
      d.cnvState 0 = 3 ∧ d.slotJob 0 = some { job [] with cause := 2 }) ∧ base.cnvState 0 ≠ 3 ∧
    (let d := base.wr F.CAL_IN_TEMP_LIM_LIM 5 7; d.rd F.CAL_IN_TEMP_LIM_LIM 7 ≠ 0 ∧ d.rd F.CAL_IN_TEMP_LIM_LIM 7 * 4 < (500 - d.rdInt F.CAL_IN_TEMP_TEMP 7).natAbs ∧
      (d.input 7).tempRaised = false) ∧ (0 - base.rdInt F.CAL_IN_TEMP_TEMP 7).natAbs ≤ base.rd F.CAL_IN_TEMP_LIM_LIM 7 * 4 := by decide +kernel
/-- A clock whose 32 lanes all read 2047 (over) or all 0 (clean). -/
def overClock : BitVec 384 := 0x7ff7ff7ff7ff7ff7ff7ff7ff7ff7ff7ff7ff7ff7ff7ff7ff7ff7ff7ff7ff7ff7ff7ff7ff7ff7ff7ff7ff7ff7ff7ff7ff#384
theorem witness_LoadCommandsComplete_codes :
    (let d := (imaged.wr F.FMR_SEC_STATE_STATE 1 3); InRun (on d) ∧ d.rd F.PWR_STATUS_REEF = 0 ∧ d.rd F.FMR_IMG_STATUS_STATE 0 = 2 ∧
      (d.slot 0).image.bind (fun im => im.sections.find? (·.index == 3)) = some (desc 3 0) ∧ d.secState 3 = 1) ∧
    (let x : SectionDesc := { desc 127 0 with sorts := [⟨0, 0, 5000, []⟩] }
     let d := { base with slots := base.slots.put 1 ⟨0, 0, 0, 0, some ⟨0, [x], [], []⟩, []⟩, loads := [⟨127, 1, 7 + 1⟩] }
     (d.slot 1).image.bind (fun im => im.sections.find? (·.index == 127)) = some x ∧ d.kind 127 = 0 ∧ d.loadCode 127 1 x ≠ 0) ∧
    (let d := { imaged with loads := [⟨3, 0, 7 + 1⟩] }; (d.slot 0).image.bind (fun im => im.sections.find? (·.index == 3)) = some (desc 3 0)) := by
  unfold InRun; decide +kernel
theorem witness_KnobWritesComplete_apply :
    let d := { sect base 127 7 2 with sections := Tab.empty.put 127 ⟨desc 127 7, [(0x400, 9)], none, 0, 0⟩ }
    InRun (on d) ∧ d.knobRow 127 0x400 = some ⟨0x400, 32, false, false, true, false, 0, 9⟩ ∧ d.secState 127 = 2 ∧ 6 < d.kind 127 ∧
      (⟨0x400, 32, false, false, true, false, 0, 9⟩ : KnobRow).accepts 9 = true ∧ Quiet d := by unfold InRun Quiet; decide +kernel
theorem witness_HalyardCommandsComplete_taken :
    (let d := base.recordDriver 63 1 5; InRun (on d) ∧ d.takenByOther 63 (DriverSel.kind .stay) 0 = true ∧ (d.rd F.STY_HAL_IN_MASK 1).testBit 31 = false) ∧
    (let d := ({ base with halyards := [⟨63, 0, 0, none, none⟩] }).wr F.CORE_HAL_TAP_TAP (0xBF * 2 ^ 24) 15; bits (d.rd F.CORE_HAL_TAP_TAP 15) 24 6 = 63 ∧
      (d.rd F.CORE_HAL_TAP_TAP 15).testBit 31 = true ∧ (∀ i, i < 128 → d.activeKind i 4 = false)) := by unfold InRun; decide +kernel
theorem witness_InputStartAndStopComplete_slipped :
    let d := { base.wr F.CLK_EBUF_FILL 9 7 with clocks := { base.clocks with slipped := Tab.empty.put 7 () } }
    InRun (on d) ∧ d.halted = false ∧ d.cnvState 7 = 0 ∧ d.rd F.CNV_STATUS_PAIR_PENDING 7 = 0 ∧ (d.clocks.slipped.get? 7).isSome = true ∧ 8 < (d.rdInt F.CLK_EBUF_FILL 7).natAbs := by
  unfold InRun; decide +kernel
theorem witness_InputDetectorCommandsComplete_clocks :
    (let d := (base.wr F.CNV_STATUS_STATE 1 7).wr F.CNV_OVR_CFG_DWELL 2 7; d.cnvState 7 = 1 ∧ d.rd F.CNV_STATUS_OVR 7 = 0 ∧
      [overClock, overClock].length = max 1 (d.rd F.CNV_OVR_CFG_DWELL 7) ∧ [overClock, overClock].all (fun w => (d.portOver 7 w).isSome) = true ∧
      [overClock, overClock].getLast?.bind (d.portOver 7) = some 0) ∧
    (let d := (base.wr F.CNV_STATUS_OVR 1 7).wr F.CNV_OVR_REL_RELEASE 2 7; d.rd F.CNV_STATUS_OVR 7 = 1 ∧ ([0, 0] : List (BitVec 384)).length = max 1 (d.rd F.CNV_OVR_REL_RELEASE 7) ∧
      ([0, 0] : List (BitVec 384)).all (fun w => (d.portOver 7 w).isNone) = true) ∧
    (let d := base.wr F.CNV_STATUS_OVR 1 7; InRun (on d) ∧ d.rd F.CNV_CTRL_OVR_BLANK 7 = 0 ∧ d.rd F.CNV_STATUS_OVR 7 = 1) ∧
    ((base.wr F.CNV_STATUS_STATE 1 7).cnvState 7 = 1 ∧ 2097152 * 2 ^ 30 ≤ 10000 * (2 ^ 40) ∧ 10000 * 0 < 2097152 * 2 ^ 30) ∧
    (let d := base.wr F.CNV_MON_LIM_OFFSET 10 7; d.rd F.CNV_MON_LIM_OFFSET 7 < (-11 : Int).natAbs) := by unfold InRun; decide +kernel
theorem witness_CalibrationRequestsComplete_accept :
    let d := { base with cal := { base.cal with job := some { job [] with input := 7 } } }
    InRun (on d) ∧ d.cal.job = some { job [] with input := 7 } ∧ base.cal.suspended = [] := by unfold InRun; decide +kernel
theorem witness_CalibrationStagesComplete_fails :
    (let g : CalStage := ⟨1, 0, 0⟩; let d := { base with cal := { base.cal with job := some (job [g, ⟨2, 0, 0⟩]) } };
      (job [g, ⟨2, 0, 0⟩]).todo = g :: ⟨2, 0, 0⟩ :: [] ∧ d.cal.job = some (job [g, ⟨2, 0, 0⟩]) ∧ g.no = 1 ∧ d.rdInt F.CAL_LIMIT_MAX_MAX 6 < 2 ^ 40) ∧
    (let g : CalStage := ⟨1, 0, 0⟩; let j := { job [g, ⟨2, 0, 0⟩] with accept := [0] }; let d := { base with cal := { base.cal with job := some j } };
      d.rdInt F.CAL_LIMIT_MIN_MIN 6 ≤ d.rdInt F.CAL_LIMIT_MAX_MAX 6 ∧ j.accept.contains (if g.set = 1 then g.conv - g.conv % 2 else g.conv) = true) := by decide +kernel
theorem witness_CalibrationEndsComplete_parts :
    (let j := { job [] with input := 7, kept := [(itemCrystal, 3)] }; let d := { base.wr F.CNV_STATUS_STATE 2 7 with cal := { base.cal with archive := [j], queue := [7] } };
      d.cal.archive = [j] ∧ j.input = 7 ∧ j.cause ≠ 0 ∧ j.kept ≠ [] ∧ d.cal.queue.contains 7 = true) ∧
    (let j := { job [] with input := 7, good := [(itemCrystal, 5)] }; let d := { base.wr F.CNV_STATUS_STATE 2 7 with cal := { base.cal with archive := [j] } };
      d.cal.archive = [j] ∧ j.input = 7 ∧ j.cause ≠ 0 ∧ j.done = false ∧ j.good = [(itemCrystal, 5)] ∧ j.kept = [] ∧ d.cnvState 7 = 2 ∧ d.cal.queue.contains 7 = false ∧
      (∀ x ∈ d.cal.job.toList ++ d.cal.suspended ++ [], x.input ≠ 7 ∧ x.cause ≠ 0)) := by decide +kernel
theorem witness_CrystalCommandsComplete :
    (let d := base.wr F.XTL_CTRL_MODE 1; InRun (on d) ∧ d.rd F.XTL_CTRL_MODE = 1) ∧ (InRun (on base) ∧ base.rd F.XTL_CTRL_MODE ≠ 1) ∧
    base.rd F.XTL_CTRL_REF_FREQ ≠ 1 ∧ (base.wr F.XTL_CTRL_REF_FREQ 1).rd F.XTL_CTRL_REF_FREQ = 1 ∧ base.loop 28 ≠ 3 ∧ base.loop 28 = 0 ∧
    (base.wr F.CLK_PLL_STATUS_STATE 3 28).loop 28 = 3 ∧ (1 : Word).field 0 2 = 1 := by unfold InRun; decide +kernel
theorem witness_LoopCommandsComplete :
    (let d := base.wr F.CLK_PLL_STATUS_STATE 3 11; InRun (on d) ∧ isLo 11 = true ∧ 1 < d.loop 11 ∧ d.loop 11 = 3) ∧ isLo 28 = false ∧
    (let d := base.wr F.CLK_PLL_STATUS_STATE 0 8; InRun (on d) ∧ isLo 8 = true ∧ d.loop 8 ≤ 1) ∧
    (base.wr F.CLK_PLL_STATUS_STATE 1 27).loop 27 = 1 ∧ (base.wr F.CLK_PLL_STATUS_STATE 0 27).loop 27 ≠ 1 ∧
    (let d := alignLoops.foldl (fun d p => d.wr F.CLK_PLL_STATUS_STATE (if p = 0 then 2 else 3) p) base;
      d.loop 0 = 2 ∧ d.rd F.CLK_STATUS_ALIGNED = 0 ∧ ∀ q ∈ alignLoops, q = 0 ∨ d.loop q = 3) ∧
    (let d := base.wr F.CNV_STATUS_STATE 1 7; 56 ≤ (-56 : Int).natAbs ∧ d.cnvState 7 = 1) ∧ (55 : Int).natAbs < 56 := by unfold InRun; decide +kernel
/-- LO i in profile state st, its segment 0 the end mark. -/
def loIn (st : Nat) : Dev := (base.wr F.CLK_LO_STATUS_PSTATE st 3).wr F.CLK_LO_PROFILE_WORD 0xFF 3 6
theorem witness_LocalOscillatorCommandsComplete :
    (InRun (on (loIn 0)) ∧ (loIn 0).loState 3 ≠ 2 ∧ (loIn 0).loCheck 3 257 0 ((loIn 0).loFreq 3) = 0) ∧
    (let d := (((loIn 0).wr F.CLK_LO_PROFILE_WORD 0x100000 3 1).wr F.CLK_LO_PROFILE_WORD 1 3 4).wr F.CLK_LO_PROFILE_WORD 0x100 3 6;
      let e := d.wr F.CLK_LO_PROFILE_WORD 0xFF 3 14; e.loCheck 3 257 0 (e.loFreq 3) = 0 ∧ (e.segment 3 0).kind ≠ 0xFF ∧ (e.segment 3 0).wait = true) ∧
    (InRun (on base) ∧ base.loCheck 3 257 255 (base.loFreq 3) = 3) ∧ ((loIn 2).loState 3 = 2 ∧ InRun (on (loIn 2))) ∧ (loIn 0).rd F.CLK_LO_STATUS_STEP_LATCHED 3 = 0 ∧
    ((loIn 0).wr F.CLK_LO_STATUS_STEP_LATCHED 1 3).rd F.CLK_LO_STATUS_STEP_LATCHED 3 = 1 ∧ ((loIn 1).loState 3 = 1 ∧ ((loIn 1).lo 3).started = false) ∧
    (let d := (loIn 1).setLo 3 (fun l => { l with started := true, counting := true }); InRun (on d) ∧ (d.lo 3).started = true ∧ (d.lo 3).counting = true ∧
      d.rd F.CLK_LO_STATUS_SEG 3 + 1 = 1) ∧
    ((loIn 3).loState 3 = 3 ∧ ((loIn 3).lo 3).waitHeld = false) ∧ (((loIn 3).setLo 3 (fun l => { l with waitHeld := true })).lo 3).waitHeld = true ∧
    3 < (loIn 4).loState 3 := by unfold InRun; decide +kernel

/-- A description that places enough sorts of every kind, its input ports 0 and 1 bound to section or input p. -/
def rich (i k p : Nat) : SectionDesc :=
  { desc i k with sorts := ([0, 1, 2, 3, 4] : List Nat).flatMap (fun q => List.replicate 200 ⟨0, q, 0, []⟩), inputs := [⟨true, p, 0⟩, ⟨true, p, 0⟩] }
/-- The knobs of a standard kind. -/
def rowsOf (k : Nat) : List KnobRow := match k with | 1 => chanKnobs | 2 => xfrmKnobs | 3 => traceKnobs | 4 => trigKnobs | 5 => rawcKnobs | 6 => densKnobs | _ => []
/-- Section i of kind k, ACTIVE, with that description, its knob map its own knobs and those of its kind. -/
def act (d : Dev) (i k p : Nat) : Dev :=
  ({ d with sections := d.sections.put i ⟨rich i k p, [], none, 0, 0⟩, maps := d.maps.put i (k, (desc i k).knobs ++ rowsOf k) }).wr F.FMR_SEC_STATE_STATE 2 i
/-- Input 0 RUNNING. -/
def fed : Dev := base.wr F.CNV_STATUS_STATE 1 0
/-- A channel of input 0, RUNNING in section i. -/
def chanOn (d : Dev) (i : Nat) : Dev := (act d i 1 128).setChan i (fun c => c)
/-- A transform of input 0, RUNNING in section i. -/
def xfrmOn (d : Dev) (i : Nat) : Dev := { act d i 2 128 with xfrms := d.xfrms.put i ⟨0, 0, 0, 16, 1, 0, 10, 8, 0, [], 0⟩ }
/-- A run of section i's product. -/
def aRun : Run := ⟨.trace, 0, 0, 0, none, 0, none, [], [], none, none, 0, false, 0, 0, 1, 1, 1⟩
theorem witness_ChannelCommandsComplete :
    (let d := act fed 127 1 128; InRun (on d) ∧ d.takes 127 1 0 1 = true ∧ d.takes 127 1 0 2 = true ∧ d.takes 127 1 0xC 8 = true ∧ d.takes 127 1 0x1C 65535 = true ∧
      d.chanRunning 127 = false ∧ d.chanCheck 127 = 0 ∧ d.fedAll = true ∧ d.knob 127 0x24 ≠ 255 ∧ d.knob 127 0xC < 8) ∧
    (let d := act base 127 1 128; d.takes 127 1 0 1 = true ∧ d.chanRunning 127 = false ∧ d.chanCheck 127 ≠ 0 ∧ d.fedAll = true) ∧
    (let d := chanOn fed 127; InRun (on d) ∧ d.takes 127 1 0 1 = true ∧ d.takes 127 1 0 2 = true ∧ d.takes 127 1 0xC 0 = true ∧ d.takes 127 1 0x1C 0 = true ∧
      d.chanRunning 127 = true ∧ d.fedAll = true ∧ d.unread 127 = true ∧ (d.chan 127).input ≠ 8 ∧ d.cnvState 0 = 1 ∧ d.lanes 0 = (d.chan 127).lanes ∧ d.cnvState 1 ≠ 1) ∧
    (let d := (chanOn fed 127).setKnob 127 0x4C 1; d.activeKind 127 1 = true ∧ d.chanRunning 127 = true ∧ d.knobBits 127 0x4C 0 1 = 1 ∧ (d.chan 127).high = false ∧
      ((d.setChan 127 (fun c => { c with high := true })).chan 127).high = true) := by unfold InRun; decide +kernel
/-- The transform's size, hop and window length at the values R181 resets them to. -/
def knobs2 (d : Dev) : Dev := ((d.setKnob 127 0xC 10).setKnob 127 0x10 8).setKnob 127 0x28 1024
theorem witness_TransformCommandsComplete :
    (let d := knobs2 (act fed 127 2 128); InRun (on d) ∧ d.takes 127 2 0 1 = true ∧ d.takes 127 2 0 2 = true ∧ d.takes 127 2 0x18 1 = true ∧ d.xfrmRunning 127 = false ∧ d.xfrmCheck 127 = 0 ∧
      d.knob 127 8 ≤ 8 ∧ d.fedAll = true ∧ (d.window 127).load = none ∧ d.knob 127 0x28 = 2 ^ 10) ∧
    (act base 127 2 128).xfrmCheck 127 ≠ 0 ∧
    (let d := xfrmOn fed 127; InRun (on d) ∧ d.takes 127 2 0 1 = true ∧ d.takes 127 2 0 2 = true ∧ d.xfrmRunning 127 = true ∧ d.fedAll = true ∧ d.unread 127 = true) ∧
    (let d := { knobs2 (act fed 127 2 128) with windows := Tab.empty.put 127 ⟨[], some (7, 0, 0, 1024)⟩ }; d.takes 127 2 0x18 1 = true ∧ d.activeKind 127 2 = true ∧ d.fedAll = true ∧ (d.window 127).load = some (7, 0, 0, 1024)) := by
  unfold InRun; decide +kernel
theorem witness_TraceCommandsComplete :
    (let d := act (xfrmOn fed 1) 127 3 1; InRun (on d) ∧ d.takes 127 3 0 1 = true ∧ d.takes 127 3 0 2 = true ∧ d.traceRunning 127 = false ∧ d.boundXfrm 127 0 = some 1 ∧ d.traceCheck 127 = 0 ∧
      d.fedAll = true) ∧ (act fed 127 3 1).traceCheck 127 ≠ 0 ∧
    (let d := { act (xfrmOn fed 1) 127 3 1 with traces := Tab.empty.put 127 ⟨1, 0, 1, 1, 0, 1, []⟩, runs := Tab.empty.put 127 aRun };
      InRun (on d) ∧ d.takes 127 3 0 1 = true ∧ d.takes 127 3 0 2 = true ∧ d.activeKind 127 3 = true ∧ d.traceRunning 127 = true ∧ d.fedAll = true ∧ d.runs.get? 127 = some aRun ∧
      aRun.losses = []) := by unfold InRun; decide +kernel
/-- The loops LOCKED but for loop 0, in ACQUIRE one cycle short of its lock. -/
def nearLock : Dev := { alignLoops.foldl (fun d p => d.wr F.CLK_PLL_STATUS_STATE (if p = 0 then 2 else 3) p) base with clocks := { base.clocks with runs := Tab.empty.put 0 ⟨999, 0, 0, 0⟩ } }
theorem witness_CrystalCommandsComplete_ref :
    (let d := base.wr F.XTL_STATUS_REF_OK 1; InRun (on d) ∧ (1 : Word).field 0 2 = 1 ∧ d.loop 28 = 0 ∧ d.rd F.XTL_STATUS_REF_OK = 1) ∧
    (let d := base.wr F.XTL_CTRL_MODE 1; d.rd F.XTL_CTRL_REF_FREQ ≠ 2 ∧ d.rd F.XTL_CTRL_MODE = 1 ∧ d.loop 28 = 0) ∧
    (base.wr F.XTL_CTRL_REF_FREQ 2).rd F.XTL_CTRL_REF_FREQ = 2 := by unfold InRun; decide +kernel
theorem witness_LoopCommandsComplete_cycles :
    (let d := nearLock; d.loop 0 = 2 ∧ d.clocks.runs.getD 0 ⟨0, 0, 0, d.clk⟩ = ⟨999, 0, 0, 0⟩ ∧ 999 + [some (8 : Int)].length = d.lockCycles 0 ∧ (8 : Int).natAbs ≤ d.lockWindow 0 ∧ isLo 0 = false ∧
      d.rd F.CLK_STATUS_ALIGNED = 0 ∧ ∀ q ∈ alignLoops, q = 0 ∨ d.loop q = 3) ∧
    (let d := nearLock.wr F.CLK_STATUS_ALIGNED 1; d.rd F.CLK_STATUS_ALIGNED = 1 ∧ d.loop 0 = 2) ∧
    (let d := { base.wr F.CLK_PLL_STATUS_STATE 4 28 with clocks := { base.clocks with runs := Tab.empty.put 28 ⟨999, 0, 0, 0⟩ } }.wr F.XTL_STATUS_REF_OK 1; d.loop 28 = 4 ∧ d.rd F.XTL_STATUS_REF_OK = 1 ∧
      999 + [some (8 : Int)].length = d.lockCycles 28 ∧ (8 : Int).natAbs ≤ d.lockWindow 28 ∧ d.lockWindow 28 < (9 : Int).natAbs) ∧
    (let d := base.wr F.CLK_PLL_STATUS_STATE 4 28; d.rd F.XTL_STATUS_REF_OK = 0) ∧ base.loop 27 ≠ 2 ∧ base.loop 27 ≠ 4 ∧ base.loop 27 ≠ 5 ∧
    (let d := { base.wr F.CLK_PLL_STATUS_STATE 3 27 with clocks := { base.clocks with runs := Tab.empty.put 27 ⟨0, 3, 0, 0⟩ } }; d.loop 27 = 3 ∧ d.clocks.runs.getD 27 ⟨0, 0, 0, d.clk⟩ = ⟨0, 3, 0, 0⟩ ∧
      3 + [some (-33 : Int)].length = d.lossCycles 27 ∧ d.lossUnlock 27 < (-33 : Int).natAbs ∧ (32 : Int).natAbs ≤ d.lossUnlock 27) ∧
    (let d := { base.wr F.CLK_PLL_STATUS_STATE 3 27 with clocks := { base.clocks with runs := Tab.empty.put 27 ⟨0, 0, 3, 0⟩ } }; d.loop 27 = 3 ∧ d.clocks.runs.getD 27 ⟨0, 0, 0, d.clk⟩ = ⟨0, 0, 3, 0⟩ ∧
      3 + [(none : Option Int)].length = d.lossCycles 27) := by decide +kernel
theorem witness_LocalOscillatorCommandsComplete_waits :
    (let d := ((loIn 1).setLo 3 (fun l => { l with started := true, lockWait := true })).wr F.CLK_PLL_STATUS_STATE 1 11; InRun (on d) ∧ d.loState 3 = 1 ∧ (d.lo 3).started = true ∧
      (d.lo 3).lockWait = true ∧ d.loSearches 3 = true) ∧
    (let d := (loIn 1).setLo 3 (fun l => { l with started := true }); InRun (on d) ∧ d.loState 3 = 1 ∧ (d.lo 3).started = true ∧ (d.lo 3).lockWait = false) ∧
    (let d := ((loIn 3).setLo 3 (fun l => { l with waitHeld := true })).wr F.CLK_LO_STATUS_STEP_LATCHED 1 3; InRun (on d) ∧ d.loState 3 = 3 ∧ (d.lo 3).waitHeld = true ∧
      d.rd F.CLK_LO_STATUS_STEP_LATCHED 3 = 1) ∧
    (let d := ((loIn 3).setLo 3 (fun l => { l with waitHeld := true })); InRun (on d) ∧ d.rd F.CLK_LO_STATUS_STEP_LATCHED 3 = 0) ∧
    (let d := ((loIn 1).setLo 3 (fun l => { l with counting := true })).wr F.CLK_LO_STATUS_SEG 254 3; d.loState 3 = 1 ∧ (d.lo 3).counting = true ∧ d.rd F.CLK_LO_STATUS_SEG 3 + 1 = 255) ∧
    (let d := (((loIn 0).wr F.CLK_LO_PROFILE_WORD 0x100000 3 1).wr F.CLK_LO_PROFILE_WORD 1 3 4).wr F.CLK_LO_PROFILE_WORD 0x13F00 3 6
     let e := d.wr F.CLK_LO_PROFILE_WORD 0xFF 3 14; e.loCheck 3 257 0 (e.loFreq 3 (e.loLate 3)) = 0 ∧ (e.segment 3 0).kind ≠ 0xFF) ∧
    (InRun (on base) ∧ base.loState 3 ≠ 2 ∧ base.loCheck 3 257 255 (base.loFreq 3 (base.loLate 3)) ≠ 0) := by unfold InRun; decide +kernel
/-- A running channel in section 127 that decides on one output, between the thresholds lo and up. -/
def thr (lo up : Nat) (high : Bool) : Dev :=
  ((((chanOn fed 127).setKnob 127 0x4C 1).setKnob 127 0x48 1).setKnob 127 0x40 up).setKnob 127 0x44 lo |>.setChan 127 (fun c => { c with high := high })
theorem witness_ChannelCommandsComplete_threshold :
    (let d := thr 0 0 false; d.activeKind 127 1 = true ∧ d.chanRunning 127 = true ∧ d.knobBits 127 0x4C 0 1 = 1 ∧ (d.chan 127).high = false ∧ d.thresholdHolds 127 0 true [2047] = true) ∧
    (let d := thr 5 5 true; d.activeKind 127 1 = true ∧ d.chanRunning 127 = true ∧ d.knobBits 127 0x4C 0 1 = 1 ∧ (d.chan 127).high = true ∧ d.thresholdHolds 127 0 false [0] = true) ∧
    (thr 0 0 false).thresholdHolds 127 0 true [] = false ∧ (thr 5 5 true).thresholdHolds 127 0 false [] = false := by decide +kernel
theorem witness_ChannelCommandsComplete_input :
    (let d := chanOn fed 127; InRun (on d) ∧ d.takes 127 1 0xC 0 = true ∧ d.chanRunning 127 = true ∧ d.fedAll = true ∧ d.runs.get? 127 = none ∧ d.cnvState 0 = 1 ∧ d.lanes 0 = (d.chan 127).lanes) ∧
    (let d := chanOn fed 127; d.takes 127 1 0xC 8 = true ∧ d.cnvState 1 ≠ 1) ∧
    (let d := act fed 127 1 128; InRun (on d) ∧ d.takes 127 1 0 2 = true ∧ d.takes 127 1 0x1C 65535 = true ∧ d.chanRunning 127 = false ∧ d.runs.get? 127 = none) := by unfold InRun; decide +kernel
theorem witness_TransformCommandsComplete_input :
    (let d := knobs2 (act base 127 2 128); InRun (on d) ∧ d.takes 127 2 0 1 = true ∧ d.xfrmRunning 127 = false ∧ d.xfrmCheck 127 = 4 ∧ d.fedAll = true) ∧
    (let d := xfrmOn fed 127; InRun (on d) ∧ d.activeKind 127 2 = true ∧ d.xfrmRunning 127 = true ∧ (d.knobRow 127 0x18).map (·.lockedByRun) = some true) ∧
    (let d := (act fed 127 2 128).setKnob 127 0x28 65; InRun (on d) ∧ d.takes 127 2 0x18 1 = true ∧ d.knob 127 0x28 ∉ (List.range 11).map (fun k => 2 ^ (k + 6)) ∧ d.fedAll = true) := by unfold InRun; decide +kernel
/-- A transform of 64 points of input 0 in section 1. -/
def xfrm6 : Dev := { act fed 1 2 128 with xfrms := Tab.empty.put 1 ⟨0, 0, 0, 16, 1, 0, 6, 6, 0, [], 0⟩ }
/-- A trace of one frame of it in section 127, its next unit n. -/
def trace6 (n : Nat) : Dev := { act xfrm6 127 3 1 with traces := Tab.empty.put 127 ⟨1, 0, 1, 1, 0, 1, []⟩, runs := Tab.empty.put 127 { aRun with next := n } }
theorem witness_TraceCommandsComplete_complete :
    (let d := trace6 0; d.activeKind 127 3 = true ∧ d.traceRunning 127 = true ∧ d.runs.get? 127 = some aRun ∧ aRun.losses = [] ∧ aRun.ring = none ∧ (d.trace 127).xfrm = 1 ∧ (d.xfrm 1).input < 8 ∧
      0 = 0 * (d.trace 127).points ∧ (0 < (d.trace 127).frames ∧ d.frameCause 1 ((d.trace 127).f0 + 0 * (d.trace 127).frames + 0) = 0) ∧
      (d.usedFrames 1 ((d.trace 127).f0 + 0 * (d.trace 127).frames) (d.trace 127).frames (List.replicate 64 2047)).isSome = true) ∧
    (let d := { trace6 0 with xfrms := Tab.empty.put 1 ⟨0, 0, 0, 16, 1, 0, 6, 6, 0, [⟨0, 1, 6⟩], 0⟩ }; d.activeKind 127 3 = true ∧ d.traceRunning 127 = true ∧ d.runs.get? 127 = some aRun ∧
      (List.range (d.trace 127).frames).all (fun k => d.frameCause 1 ((d.trace 127).f0 + 0 * (d.trace 127).frames + k) != 0) = true) ∧
    (let d := trace6 5; (d.runs.get? 127).map (·.next) = some 5 ∧ 5 ≠ 0 * (d.trace 127).points) ∧ base.traceRunning 127 = false ∧
    (let d := (act (xfrmOn fed 1) 127 3 1).setKnob 127 0x24 3; InRun (on d) ∧ d.takes 127 3 0 1 = true ∧ d.traceRunning 127 = false ∧ d.traceCheck 127 = 2 ∧ d.fedAll = true) ∧
    (let d := act (xfrmOn fed 1) 127 3 1; let e := { d with sections := d.sections.put 127 ⟨{ rich 127 3 1 with sorts := [] }, [], none, 0, 0⟩ }; InRun (on e) ∧ e.takes 127 3 0 1 = true ∧ e.traceCheck 127 = 3 ∧
      e.boundXfrm 127 0 = some 1) ∧ (trace6 0).secState 1 = 2 := by unfold InRun; decide +kernel
/-- Frame core 15 RUNNING, its next word w. -/
def coreAt (w : Nat) : Dev := (base.setCore 15 (fun x => { x with imem := Tab.empty.put 0 w })).setCoreState 15 1
/-- The word of operation o with every operand 0. -/
def opWordOf (o : Nat) : Nat := if 64 ≤ o then 2 ^ 63 + (o - 64) * 2 ^ 57 else o * 2 ^ 57
theorem witness_CoreArithmeticComplete : ∀ o ∈ (List.range 17).drop 1, (coreAt (opWordOf o)).issues 15 o = true := by decide +kernel
theorem witness_CoreAccumulatorAndMoveComplete : (∀ o ∈ 0 :: (List.range 32).drop 17, (coreAt (opWordOf o)).issues 15 o = true) ∧
    (let d := (coreAt (opWordOf 27)).setCore 15 (fun x => { x with d := Tab.empty.put 0 3 }); d.issues 15 27 = true ∧ 0 < (d.s1 15).toNat ∧ (d.s1 15).toNat < 2 ^ 31 ∧
      -((d.s1 15).toNat * 65536 : Nat) ≤ d.accIn 15 ∧ d.accIn 15 < ((d.s1 15).toNat * 65536 : Nat)) ∧ ((coreAt (opWordOf 27)).s1 15).toNat = 0 := by decide +kernel
theorem witness_CoreControlComplete : (∀ o ∈ [32, 33, 34, 38, 39] ++ (List.range 72).drop 64, (coreAt (opWordOf o)).issues 15 o = true) ∧
    (coreAt (opWordOf 72 + 2 ^ 20)).issues 15 72 = true ∧ bits (opWordOf 72 + 2 ^ 20) 0 16 + 1 = 1 ∧
    (let d := (coreAt 0).setCore 15 (fun x => { x with loops := [⟨0, 4, 2, true⟩], pc := 5 }); d.coreRunning 15 = true ∧ (d.core 15).loops = [⟨0, 4, 2, true⟩] ∧ (d.core 15).pc = 4 + 1) ∧
    (let d := (coreAt (opWordOf 34)).setCore 15 (fun x => { x with d := Tab.empty.put 0 2, fetchDone := true }); d.issues 15 34 = true ∧ (d.atIssue 15).coreConds 15 &&& (d.s1 15).toNat ≠ 0) ∧
    (let d := coreAt (opWordOf 34); (d.atIssue 15).coreConds 15 &&& (d.s1 15).toNat = 0) ∧
    (let d := ((coreAt 0).setCore 15 (fun x => { x with wait := some (2, 0, 0), fetchDone := true })).setCoreState 15 2;
      d.coreLive 15 = true ∧ d.coreState 15 = 2 ∧ (d.core 15).wait = some (2, 0, 0) ∧ d.coreConds 15 &&& 2 ≠ 0) ∧
    (((coreAt 0).setCore 15 (fun x => { x with search := some ⟨0, 0, 0, 1⟩ })).core 15).search = some ⟨0, 0, 0, 1⟩ := by decide +kernel
theorem witness_CoreCommandsComplete :
    (InRun (on base) ∧ base.coreLive 15 = true ∧ base.halted = false ∧ base.coreState 15 ≠ 1 ∧ base.coreState 15 ≠ 2) ∧ base.coreLive 143 = false ∧
    (let d := base.wr F.PWR_STATUS_REEF 3; InRun (on d) ∧ isFrame 15 = true ∧ d.halted = true) ∧
    (InRun (on (coreAt 0)) ∧ (coreAt 0).coreLive 15 = true ∧ (coreAt 0).coreState 15 = 1) ∧
    (let d := (coreAt (opWordOf 1)).setCoreState 15 5; InRun (on d) ∧ d.coreLive 15 = true ∧ d.halted = false ∧ d.coreState 15 = 5 ∧ (d.core 15).flight = [] ∧ (d.core 15).loops = [] ∧
      ((d.setCoreState 15 1).coreCode 15 0).issues 15 1 = true ∧ (slotsOf ((d.core 15).word (d.core 15).pc)).all (fun m => m.kind == 0) = true) := by unfold InRun; decide +kernel
theorem witness_CoreUnitsComplete :
    (let d := (coreAt (opWordOf 35)).wr F.CORE_HAL_OUT_EN 1 15; d.issues 15 35 = true ∧ isFrame 15 = true ∧ (d.atIssue 15).rd F.CORE_HAL_OUT_EN 15 = 1 ∧ d.halyards = []) ∧
    (let d := (({ act base 5 7 128 with sections := Tab.empty.put 5 ⟨{ desc 5 7 with sorts := [⟨7, 5, 15, []⟩] }, [], none, 0, 0⟩ }).setCore 143
      (fun x => { x with imem := Tab.empty.put 0 (opWordOf 35) })).setCoreState 143 1; d.issues 143 35 = true ∧ isFrame 143 = false ∧ (d.tileOwner 127).isSome = true ∧ (d.core 143).stall = none) ∧
    (coreAt (opWordOf 36)).issues 15 36 = true ∧ (coreAt (opWordOf 36)).sections = Tab.empty ∧ (coreAt (opWordOf 37)).issues 15 37 = true ∧
    (let d := coreAt (opWordOf 40); d.coreRunning 15 = true ∧ (d.core 15).search = none ∧ (d.core 15).stall = none ∧ (d.core 15).loops = [] ∧ (d.core 15).flight = [] ∧
      illegalWord 15 ((d.core 15).word (d.core 15).pc) = true) ∧
    codeSize 15 ≤ (((coreAt 0).setCore 15 (fun x => { x with pc := 8192 })).core 15).pc ∧ base.tileOwner 127 = none ∧
    (let g : Ring := { base.ring 3 with wr := 64, recs := [⟨0, 64, 0, 0x0F, 0, 0, 0, 0, 0, 0⟩], readers := [⟨.fetch 15, 0, false, []⟩] }
     let e := ({ base with mem := Mem.empty.storeBytes 60 (leBytes 4 (crc32 (List.replicate 64 0))), rings := Tab.empty.put 3 g, dram := { base.dram with cached := [0] } })
     let d := (((e.wr F.GAL_RING_PAGES_PAGES 1 3).wr F.CORE_IN_EN 1 15).wr F.CORE_IN_RING 3 15).setCore 15 (fun x => { x with fetchOn := some 0, fetchMax := 16 })
     (d.core 15).fetchOn = some 0 ∧ d.rd F.CORE_IN_EN 15 = 1 ∧ d.rd F.CORE_IN_HOLD 15 = 0 ∧ d.rd F.CORE_IN_RING 15 = 3 ∧
      (d.ring 3).readers.find? (fun (x : Reader) => x.kind == .fetch 15) = some ⟨.fetch 15, 0, false, []⟩ ∧
      d.recordAt 3 0 = some ⟨0, 64, 0, 0x0F, 0, 0, 0, 0, 0, 0⟩ ∧ d.headerGood 3 ⟨0, 64, 0, 0x0F, 0, 0, 0, 0, 0, 0⟩ = true ∧ 64 / 4 ≤ (d.core 15).fetchMax) ∧
    (base.core 15).fetchOn = none ∧ (base.core 15).depOn = none ∧
    (let d := base.setCore 15 (fun x => { x with depOn := some 0 }); (d.core 15).depOn = some 0 ∧ d.ringOn (d.rd F.CORE_OUT_RING 15) = false ∧
      (let e := (d.wr F.GAL_RING_CFG_EN 1 0); e.ringOn (e.rd F.CORE_OUT_RING 15) = true ∧ e.fitsRaw (e.rd F.CORE_OUT_RING 15) (e.depRecord 15) = false)) := by decide +kernel
/-- Section 5 ACTIVE with two tile cores and these routes. -/
def tiles (l : List RouteEntry) : Dev :=
  { act base 5 7 128 with sections := Tab.empty.put 5 ⟨{ desc 5 7 with sorts := [⟨7, 5, 15, []⟩, ⟨7, 5, 14, []⟩], routes := l }, [], none, 0, 0⟩ }
/-- Without routes no output is joined to an input. -/
theorem tiles_apart (u p : Nat) : (tiles []).joined u p = [] := by
  have h : ∀ i s, (tiles []).desc i = some s → s.routes = [] := by
    intro i s h
    simp only [Dev.desc, Option.map_eq_some_iff] at h
    obtain ⟨x, hx, rfl⟩ := h
    have : (tiles []).sections.cells = [(5, ⟨{ desc 5 7 with sorts := [⟨7, 5, 15, []⟩, ⟨7, 5, 14, []⟩], routes := [] }, [], none, 0, 0⟩)] := by decide +kernel
    unfold Tab.get? at hx
    rw [this] at hx
    unfold lookAt at hx
    split at hx
    · simp only [Option.some.injEq] at hx
      rw [← hx]
    · simp [lookAt] at hx
  unfold Dev.joined
  split
  · rfl
  · split
    · rfl
    · next s hs => simp [SectionDesc.tileEnds, SectionDesc.portEnds, h _ s hs]
theorem witness_CoreUnitsComplete_streams :
    (let d := tiles []; (d.tileOwner 127).isSome = true ∧ (d.core 143).stall = none ∧ d.chase = []) ∧
    (let d := (tiles [⟨7, 5, 15, 7, 5, 14, 0, 1, 3, 1⟩]).setCore 143 (fun x => { x with out0 := [9] }); d.joined 127 0 = [(126, 1, 4)] ∧ d.joined 127 1 = [] ∧ d.chase = [] ∧
      d.cores.cells.map (·.1) = [143] ∧ (d.core 143).out0 = [9] ∧ (d.core 143).stall = none) := by decide +kernel
theorem witness_CoreControlComplete_none : (let d := coreAt (opWordOf 72 + 2 ^ 18 + 2 ^ 20); d.issues 15 72 = true ∧ (d.opWord 15).testBit 18 = true ∧ (d.sd 15).toNat = 0) ∧ (base.core 143).wait = none := by
  decide +kernel
/-- A trigger unit ARMED in section 127 with slot 0 of kind 8 (SOFTWARE) enabled, any slot deciding. -/
def armed : Dev := ((((act base 127 4 1).setKnob 127 4 1).setKnob 127 0xC 8).setKnob 127 0x1C 0x10).setKnob 127 0x10 0
/-- A pending capture decided at time 0. -/
def pend (dl q : Nat) : Pending := ⟨0, 0, 0, 0, dl, 8, 0, 0, q, 0⟩
theorem witness_TriggerCommandsComplete :
    (let d := act base 127 4 1; InRun (on d) ∧ d.takes 127 4 0 1 = true ∧ d.takes 127 4 0 2 = true ∧ d.takes 127 4 0 3 = true ∧ d.fedAll = true ∧ d.trigState 127 = 0 ∧ d.trigCheck 127 = 0 ∧
      (List.range 4).all (fun k => d.slotKind 127 k != 8) = true) ∧ (InRun (on armed) ∧ armed.takes 127 4 0 1 = true ∧ armed.trigState 127 = 1) ∧
    (InRun (on armed) ∧ armed.takes 127 4 0 3 = true ∧ armed.fedAll = true ∧ armed.slotKind 127 0 = 8 ∧ (List.range 4).all (fun j => j == 0 || armed.slotKind 127 j != 8) = true ∧ armed.slotOn 127 0 = true ∧
      armed.knobBits 127 0x1C 0 2 = 0 ∧ (armed.trig 127).evs = [] ∧ armed.knobBits 127 0x5C 0 2 ≠ 1) := by unfold InRun; decide +kernel
theorem witness_TriggerCommandsComplete_arm :
    (let d := armed.setTrigState 127 3; InRun (on d) ∧ d.takes 127 4 0 1 = true ∧ d.trigState 127 = 3) ∧
    (let d := (act base 127 4 1).setKnob 127 0x5C 1; InRun (on d) ∧ d.takes 127 4 0 1 = true ∧ d.fedAll = true ∧ d.trigState 127 = 0 ∧ d.trigCheck 127 ≠ 0) := by unfold InRun; decide +kernel
theorem witness_TriggerCommandsComplete_ready : armed.ready 127 (armed.timeIn 1) ∧ armed.ready 127 (ofStamp96 0) ∧ (SlotEvent.timed 0 0 0).fits (armed.slotKind 127 0) = true ∧
    armed.slotOn 127 0 = true := by unfold Dev.ready; decide +kernel
theorem witness_TriggerCommandsComplete_pending : base.activeKind 127 4 = false ∧ (armed.activeKind 127 4 = true ∧ (armed.trig 127).pending = []) ∧
    (let d := armed.setTrig 127 (fun t => { t with pending := [pend 5 1] }); d.activeKind 127 4 = true ∧ (d.trig 127).pending = [pend 5 1] ∧ (pend 5 1).q % 4 = 1 ∧ (pend 5 1).q.testBit 4 = false ∧
      d.clk ≤ (pend 5 1).deadline ∧ bits (pend 5 1).q 2 2 = 0 ∧ (pend 5 1).time ≤ ofStamp96 0 + (pend 5 1).qPre * 2 ^ 64 ∧ d.rawcs = Tab.empty ∧ (SlotEvent.timed 0 0 0).fits (d.slotKind 127 0) = true) ∧
    (let d := armed.setTrig 127 (fun t => { t with pending := [pend 5 1, pend 6 1] }); d.activeKind 127 4 = true ∧ (d.trig 127).pending = pend 5 1 :: [pend 6 1] ∧ (pend 5 1).deadline ≤ (pend 6 1).deadline) ∧
    (let d := armed.setTrigState 127 2; d.activeKind 127 4 = true ∧ d.trigState 127 = 2 ∧ d.knob 127 0x6C = 0) := by decide +kernel
theorem witness_TriggerCommandsComplete_mask :
    (let d := act (xfrmOn fed 1) 127 4 1; InRun (on d) ∧ d.takes 127 4 0x38 1 = true ∧ d.fedAll = true ∧ d.trigState 127 = 0 ∧ (d.trig 127).maskSince = none ∧ d.boundXfrm 127 1 = some 1 ∧
      d.xfrmRunning 1 = true) ∧
    (let d := (act base 127 4 1).setTrig 127 (fun t => { t with maskSince := some 5 }); InRun (on d) ∧ d.activeKind 127 4 = true ∧ d.takes 127 4 0x38 1 = true ∧ d.fedAll = true ∧
      (d.trig 127).maskSince = some 5 ∧ leNat (d.ringBytes (d.knob 127 0x3C) (d.knob 127 0x40 + d.knob 127 0x44 * 2 ^ 32) 4) ≠ 0x4B4D584C) := by unfold InRun; decide +kernel
/-- A triggered capture of section 127 that accepts decisions, with its open captures. -/
def rawc (c : List Capture) : Rawc := ⟨1, 0, 0, 1, 0, 0, 0, 0, 1, 0, 0, 0, [], 0, c, true, false⟩
/-- An open capture that waits for its confirmation. -/
def openCap : Capture := ⟨0, 0, 0, 0, 0, 1, 0, 0, 0, 0, 10, 0, false, 0, 0, none⟩
theorem witness_RawCaptureCommandsComplete :
    (let d := act fed 127 5 1; InRun (on d) ∧ d.takes 127 5 0 1 = true ∧ d.takes 127 5 0 2 = true ∧ d.rawcRunning 127 = false ∧ d.rawcCheck 127 = 0 ∧ d.knob 127 0xC ≤ 9 ∧ d.fedAll = true ∧
      d.knob 127 8 ≠ 1 ∧ d.rawcs.get? 127 = none) ∧
    (let d := (act (act fed 1 4 128) 127 5 1).setKnob 127 8 1; d.rawcCheck 127 = 0 ∧ d.knob 127 8 = 1 ∧ d.takes 127 5 0 1 = true) ∧
    (let d := act base 127 5 1; d.rawcCheck 127 ≠ 0 ∧ d.takes 127 5 0 1 = true ∧ d.rawcRunning 127 = false ∧ d.fedAll = true) ∧
    (let d := (act fed 127 5 1).setKnob 127 4 1; InRun (on d) ∧ d.takes 127 5 0 1 = true ∧ d.takes 127 5 0 2 = true ∧ d.rawcRunning 127 = true ∧ d.rawcs.get? 127 = none ∧ d.fedAll = true) ∧
    (let d := { (act fed 127 5 1).setKnob 127 4 1 with rawcs := Tab.empty.put 127 (rawc []) };
      d.takes 127 5 0 2 = true ∧ d.rawcRunning 127 = true ∧ d.rawcs.get? 127 = some (rawc []) ∧ (rawc []).ended = false ∧ (rawc []).accepting = true) ∧
    (let d := { (act fed 127 5 1).setKnob 127 4 1 with rawcs := Tab.empty.put 127 (rawc [openCap]) };
      d.takes 127 5 0 2 = true ∧ d.rawcs.get? 127 = some (rawc [openCap]) ∧ (rawc [openCap]).caps ≠ [] ∧ (∀ c ∈ (rawc [openCap]).caps, c.confirmed = false ∨ c.next < c.stop)) := by
  unfold InRun; decide +kernel

/-- Axis 2 with edges on their way. -/
def axis2 (q : List EncEdge) : Dev := { base with axes := Tab.empty.put 2 { Axis.reset with queue := q } }
theorem witness_AxisCommandsComplete :
    InRun (on base) ∧ base.cues.armed = Tab.empty ∧
    (let f : EncEdge := ⟨1, true, 0, 0⟩; let d := axis2 [f]; d.cues.armed = Tab.empty ∧ (d.axis 2).queue = [f] ∧ f.line < 2 ∧ d.rd F.AXS_AX_CFG_MODE 2 = 0 ∧ (d.axis 2).lastLine.get? f.line = none) ∧
    (let f : EncEdge := ⟨1, true, 5, 0⟩; let d := { base with axes := Tab.empty.put 2 { Axis.reset with queue := [f], lastLine := Tab.empty.put 1 3 } }.wr F.AXS_AX_CFG_FILTER 1 2;
      (d.axis 2).queue.filter (fun x => x.line != 2) = f :: [] ∧ (d.axis 2).lastLine.get? f.line = some 3 ∧ f.time - 3 < d.rd F.AXS_AX_CFG_FILTER 2 * 2 ^ 64) ∧
    (let f : EncEdge := ⟨0, true, 0, 0⟩; let g : EncEdge := ⟨1, true, 2 * 2 ^ 64 - 1, 1⟩; let d := axis2 [f, g];
      (d.axis 2).queue = [f, g] ∧ g.line ≠ f.line ∧ g.time - f.time < 2 * 2 ^ 64 ∧ (d.axis 2).lastLine.get? f.line = none) ∧
    (let f : EncEdge := ⟨2, true, 0, 0⟩; let d := (axis2 [f]).wr F.AXS_AX_CFG_INDEX_EN 1 2; d.cues.armed = Tab.empty ∧ (d.axis 2).queue.find? (fun x => x.line == 2) = some f ∧
      d.rd F.AXS_AX_CMD_HOME 2 = 0 ∧ d.rd F.AXS_AX_CFG_INDEX_EN 2 = 1 ∧ (d.wr F.AXS_AX_CMD_HOME 1 2).rd F.AXS_AX_CMD_HOME 2 = 1) ∧
    (let d := base.wr F.AXS_AX_STATUS_STATE 2 3; d.axisState 3 = 2 ∧ d.cues.armed = Tab.empty) ∧ (base.wr F.AXS_AX_STATUS_STATE 3 3).axisState 3 = 3 ∧
    (base.wr F.AXS_AX_STATUS_STATE 5 3).axisState 3 = 5 ∧ base.axisState 3 = 0 := by unfold InRun; decide +kernel

/-- Cue entry 4095 armed as c, in state st, its action, axis, group and flags from w. -/
def cueIn (c : Cue) (st w : Nat) : Dev := ({ base with cues := { base.cues with armed := Tab.empty.put 4095 c } }.wr F.CUE_ENTRY_WORD w 4095 2).setCueState 4095 st
/-- A cue as it is when armed. -/
def freshCue : Cue := ⟨true, false, none, false, 0, 0, 0, false, false, false⟩
/-- One whose crossing was noted. -/
def crossed (late : Bool) : Cue := { freshCue with cross := some (0, 0, false), late := late }
theorem witness_CueCommandsComplete :
    (let d := base.wr F.CUE_ENTRY_WORD 1 4095 1; InRun (on d) ∧ d.cues.armed.get? 4095 = none ∧ (d.setReg (F.CUE_ENTRY_WORD.at_ 4095 2) ((0 : Word).setField 20 1 1)).armCode 4095 = 0 ∧
      d.axisLive 0 < d.cueCompare64 4095) ∧
    (base.setReg (F.CUE_ENTRY_WORD.at_ 4095 2) ((13 : Word).setField 20 1 1)).armCode 4095 = 2 ∧
    ((base.setReg (F.CUE_ENTRY_WORD.at_ 4095 2) ((0 : Word).setField 20 1 1)).armCode 4095 = 0 ∧ (0 : Word).field 16 2 = 0 ∧ (base.cueCompare64 4095 : Int) ≤ base.axisLive 0) ∧
    (let d := cueIn freshCue 1 0; InRun (on d) ∧ (d.cues.armed.get? 4095).isSome = true ∧ (d.cue 4095).cross = none ∧ d.cueState 4095 ≠ 2) ∧
    (let d := cueIn (crossed false) 2 0x200000; InRun (on d) ∧ (d.cue 4095).cross.isSome = true ∧ d.cueState 4095 = 2 ∧ (d.cue 4095).late = false ∧ (d.cue 4095).disarm = false ∧
      (d.cues.armed.get? 4095).isSome = true ∧ d.cueAction 4095 = 0 ∧ d.cueWord 4095 4 / 65536 = 0 ∧ d.rd F.CUE_CTRL_LOG = 0 ∧ bits (d.cueWord 4095 2) 21 1 = 1) ∧
    (let d := (((cueIn freshCue 1 0).wr F.CUE_CTRL_EN 1).wr F.CUE_ENTRY_WORD 100 4095 0).wr F.CUE_ENTRY_WORD 100 4095 3 |>.wr F.CUE_GRP_EN_EN 1 0;
      d.rd F.CUE_CTRL_EN = 1 ∧ d.halted = false ∧ d.cues.armed = Tab.empty.put 4095 freshCue ∧ d.cueState 4095 = 1 ∧ d.groupOn (d.cueGroup 4095) = true ∧ d.cueAxis 4095 = 0 ∧ d.cueAction 4095 = 0 ∧
      d.axisLive 0 < d.cueCompare64 4095 ∧ d.cueCompare64 4095 * 2 ^ 64 ≤ d.localTime + bits (d.cueWord 4095 3) 0 24 * 2 ^ 64 ∧ d.rd F.CUE_STATUS_PREPARED < 64 ∧
      d.localTime + 64 * d.cycle < localWrap ∧ (d.localTime + 64 * d.cycle) / 2 ^ 64 < d.cueCompare64 4095) ∧
    (let d := cueIn freshCue 2 0; (d.cues.armed.get? 4095).isSome = true ∧ d.cueState 4095 = 2 ∧ (d.cue 4095).cross = none ∧ d.cueAction 4095 ≠ 6) ∧
    (let d := (cueIn (crossed false) 2 0x10000).wr F.CUE_ENTRY_WORD (65536 * 65535) 4095 4; d.cueState 4095 = 2 ∧ d.cueWord 4095 4 / 65536 = 65534 + 1 ∧ d.cueAxis 4095 ≠ 0) ∧
    (cueIn (crossed false) 2 12).cueAction 4095 = 12 ∧
    (let d := (cueIn (crossed false) 1 0).wr F.CUE_GRP_EN_EN 1 0; d.cueState 4095 ≠ 2 ∧ (d.cue 4095).late = false ∧ (d.cue 4095).cross.isSome = true ∧ d.halted = false ∧ d.groupOn (d.cueGroup 4095) = true) ∧
    (let d := (cueIn (crossed false) 1 0).wr F.CUE_GRP_EN_EN 0 0; d.groupOn (d.cueGroup 4095) = false) ∧
    (let d := cueIn (crossed true) 1 0; (d.cue 4095).cross = some (0, 0, false) ∧ (d.cue 4095).late = true ∧ (d.cue 4095).disarm = false ∧ d.cueAction 4095 = 0 ∧ d.cueWord 4095 4 / 65536 = 0) := by
  unfold InRun; decide +kernel

theorem witness_LocalClockCommandsComplete :
    (InRun (on base) ∧ signed 40 (base.rd F.TIM_RATE_LO_RATE + (0x80 : Word).field 0 8 * 2 ^ 32) < -281474976710) ∧
    (let d := base.wr F.TIM_RATE_LO_RATE 5; signed 40 (d.rd F.TIM_RATE_LO_RATE + (0 : Word).field 0 8 * 2 ^ 32) = 5 ∧ d.rd F.CLK_STATUS_ALIGNED = 0 ∧
      (d.wr F.CLK_STATUS_ALIGNED 1).rd F.CLK_STATUS_ALIGNED = 1) ∧
    (base.rd F.STY_STATUS_ISOLATED = 0 ∧ base.rd F.STY_STATUS_SLEWING = 0 ∧ (List.range 8).all (fun n => base.cnvState n != 1 && base.cnvState n != 3) = true ∧ (base.wr F.TIM_STATUS_STEP_AVAIL 0).rd F.TIM_STATUS_STEP_AVAIL = 0) ∧
    (let d := (base.wr F.TIM_STATUS_STEP_AVAIL 1).wr F.TIM_STEP_SEC_LO_SEC 1; d.rd F.TIM_STATUS_STEP_AVAIL = 1 ∧ d.rd F.TIM_STEP_NS_NS ≤ 999999999 ∧
      (0 : Int) + ((d.rd F.TIM_STEP_SEC_LO_SEC + d.rd F.TIM_STEP_SEC_HI_SEC * 2 ^ 32 : Nat) : Int) * (1000000000 * 2 ^ 64 : Nat) +
        (d.rd F.TIM_STEP_NS_NS * 2 ^ 64 + d.rd F.TIM_STEP_FRAC_FRAC * 2 ^ 48 : Nat) = (1000000000 * 2 ^ 64 : Nat) ∧ 1000000000 * 2 ^ 64 < localWrap) ∧
    (base.wr F.CNV_STATUS_STATE 3 7).cnvState 7 = 3 := by unfold InRun; decide +kernel
theorem witness_RawCaptureCommandsComplete_captures :
    (let d := (act (act fed 1 4 128) 127 5 1).setKnob 127 8 1; InRun (on d) ∧ d.takes 127 5 0 1 = true ∧ d.rawcRunning 127 = false ∧ d.rawcCheck 127 = 0 ∧ d.knob 127 8 = 1 ∧ d.knob 127 0xC ≤ 9 ∧
      d.knob 127 0x10 < 1024 ∧ d.fedAll = true) ∧
    (let d := act base 127 5 1; InRun (on d) ∧ d.takes 127 5 0 2 = true ∧ d.rawcRunning 127 = false ∧ d.fedAll = true) ∧
    (let d := { (act fed 127 5 1).setKnob 127 4 1 with rawcs := Tab.empty.put 127 (rawc []) }; ({ d with rawcs := Tab.empty } : Dev).fedAll = true ∧ d.rawcs.cells = [(127, rawc [])] ∧
      d.fed (rawc []).source (rawc []).feed = true ∧ d.runs.get? 127 = none ∧ (rawc []).accepting = true ∧ (rawc []).ended = false) ∧
    (let d := { (act fed 127 5 1).setKnob 127 4 1 with rawcs := Tab.empty.put 127 (rawc [openCap]) }; ({ d with rawcs := Tab.empty } : Dev).fedAll = true ∧ d.rawcs.cells = [(127, rawc [openCap])] ∧
      d.fed (rawc [openCap]).source (rawc [openCap]).feed = true ∧ d.runs.get? 127 = none) := by unfold InRun; decide +kernel
theorem witness_AxisCommandsComplete_loop :
    (let d := { base with axes := Tab.empty.put 3 { Axis.reset with inside := 5000, outside := 5000 } }.wr F.AXS_AX_STATUS_STATE 2 3; d.axisState 3 = 2 ∧ max 16 (d.rd F.AXS_AX_LOCK_CYCLES 3) ≤ (d.axis 3).inside) ∧
    (let d := { base with axes := Tab.empty.put 3 { Axis.reset with inside := 5000, outside := 5000 } }.wr F.AXS_AX_STATUS_STATE 3 3; d.axisState 3 = 3 ∧ max 1 (d.rd F.AXS_AX_LOSS_CYCLES 3) ≤ (d.axis 3).outside) ∧
    (let d := base.wr F.AXS_AX_STATUS_STATE 2 3; (d.axis 3).inside < max 16 (d.rd F.AXS_AX_LOCK_CYCLES 3)) ∧ ((base.axis 2).queue = [] ∧ InRun (on base)) ∧
    (let f : EncEdge := ⟨2, true, 0, 0⟩; let d := (axis2 [f]).wr F.AXS_AX_CMD_HOME 1 2; d.cues.armed = Tab.empty ∧ (d.axis 2).queue.find? (fun x => x.line == 2) = some f ∧ f.up = true ∧
      d.rd F.AXS_AX_CMD_HOME 2 = 1) := by unfold InRun; decide +kernel
theorem witness_CueCommandsComplete_visible :
    (let d := base.wr F.CUE_ENTRY_WORD 1 4095 1; InRun (on d) ∧ d.cues.armed.get? 4095 = none ∧ (d.setReg (F.CUE_ENTRY_WORD.at_ 4095 2) (cueVisible 2 ((0 : Word).setField 20 1 1))).armCode 4095 = 0 ∧
      d.axisLive 0 < d.cueCompare64 4095) ∧
    (base.setReg (F.CUE_ENTRY_WORD.at_ 4095 2) (cueVisible 2 ((13 : Word).setField 20 1 1))).armCode 4095 = 2 ∧
    ((base.setReg (F.CUE_ENTRY_WORD.at_ 4095 2) (cueVisible 2 ((0 : Word).setField 20 1 1))).armCode 4095 = 0 ∧ (0 : Word).field 16 2 = 0 ∧ (base.cueCompare64 4095 : Int) ≤ base.axisLive 0) ∧
    (let d := (cueIn freshCue 1 0); InRun (on d) ∧ (d.cues.armed.get? 4095).isSome = true) ∧ (let d := cueIn (crossed false) 1 0; InRun (on d) ∧ (d.cue 4095).cross.isSome = true) ∧
    (let d := cueIn (crossed false) 2 12; d.cueState 4095 = 2 ∧ (d.cue 4095).late = false ∧ (d.cue 4095).cross.isSome = true ∧ (d.cue 4095).disarm = false ∧ (d.cues.armed.get? 4095).isSome = true ∧
      d.cueAction 4095 = 12 ∧ d.cueWord 4095 6 % 256 = 0) ∧
    (let d := (cueIn (crossed false) 2 0x10000).wr F.CUE_ENTRY_WORD (65536 * 65535) 4095 4; (d.cue 4095).late = false ∧ (d.cue 4095).cross.isSome = true ∧ (d.cue 4095).disarm = false ∧ d.cueAction 4095 = 0 ∧
      d.rd F.CUE_CTRL_LOG = 0) ∧
    (let x : Nat × Rec := (1023, ⟨0, 0, 0, 0, 0, 0, 0, 0, 0, 0, 0, []⟩); let d := { base with cues := { base.cues with snaps := [x] } }; d.cues.snaps = x :: []) ∧ base.cues.snaps = [] := by unfold InRun; decide +kernel
theorem witness_LocalClockCommandsComplete_rate :
    (let d := base.wr F.TIM_RATE_LO_RATE 0x89374BC6; signed 40 (d.rd F.TIM_RATE_LO_RATE + (0x41 : Word).field 0 8 * 2 ^ 32) ≤ 281474976710 ∧ -281474976710 ≤ signed 40 (d.rd F.TIM_RATE_LO_RATE + (0x41 : Word).field 0 8 * 2 ^ 32)) ∧
    (base.rd F.STY_STATUS_ISOLATED = 0 ∧ base.rd F.STY_STATUS_SLEWING = 0 ∧ (List.range 8).all (fun n => base.cnvState n != 1 && base.cnvState n != 3) = true) ∧
    (let d := (base.wr F.TIM_STATUS_STEP_AVAIL 1).wr F.TIM_STEP_SEC_LO_SEC 1; InRun (on d) ∧ d.time.meas = Tab.empty) := by unfold InRun; decide +kernel
/-- Event input 19 enabled on both edges. -/
def tdcIn (x : Tdc) : Dev := { (base.wr F.TDC_IN_CFG_EN 1 19).wr F.TDC_IN_CFG_EDGE 2 19 with time := { base.time with tdc := Tab.empty.put 19 x } }
/-- A measurement of mode 3 with n edges used. -/
def gated (n : Nat) : Meas := { Meas.fresh 3 5 100 with n := n, first := some (0, 0, 0) }
theorem witness_EventInputCommandsComplete :
    (let d := tdcIn ⟨0, none, [], 0, 0, none⟩; d.axisState 1 = 0 ∧ d.axisState 2 = 0 ∧ d.sections = Tab.empty ∧ d.time.meas = Tab.empty ∧ d.rd F.TDC_IN_CFG_EN 19 = 1 ∧ d.rd F.TDC_IN_CFG_EDGE 19 = 2 ∧
      d.rd F.TDC_IN_CFG_DRAIN 19 = 0 ∧ d.rd F.TDC_IN_CFG_HAL_EN 19 = 0 ∧ (d.tdc 19).last = none ∧ InRun (on d)) ∧
    (let d := tdcIn ⟨0, some 0, [], 0, 0, none⟩; (d.tdc 19).last = some 0 ∧ d.localTime + 511 * d.cycle / 512 < 0 + 2 * 2 ^ 64) ∧
    (let d := (tdcIn ⟨0, none, [⟨0, 0, 0, false⟩], 0, 0, some 5⟩).wr F.TDC_IN_CFG_DRAIN 1 19; InRun (on d) ∧ d.rd F.TDC_IN_CFG_DRAIN 19 = 1 ∧ (d.tdc 19).batch = some 5 ∧
      (d.tdc 19).queue = [⟨0, 0, 0, false⟩] ∧ d.ringOn (d.rd F.TDC_IN_RING_RING 19) = false) ∧
    (let d := base.wr F.TDC_M_CFG_MODE 3 7; InRun (on d) ∧ d.rd F.TDC_M_CFG_MODE 7 ≠ 0) ∧ base.rd F.TDC_M_CFG_MODE 7 = 0 ∧ base.meas 7 = none ∧
    (∀ n ∈ [2, 3], let d := { base with time := { base.time with meas := Tab.empty.put 7 (gated n) } }; InRun (on d) ∧ d.meas 7 = some (gated n) ∧ (gated n).cfg.testBit 28 = false ∧
      bits (gated n).cfg 0 2 = 3 ∧ (gated n).first.isSome = true ∧ (gated n).cfg.testBit 24 = false) ∧
    (let d := (base.wr F.MRK_CFG_MODE 3 7).wr F.MRK_TIME_NS_NS 1000 7; InRun (on d) ∧ d.rd F.MRK_CFG_MODE 7 = 3 ∧ d.localTime + 1000 * 2 ^ 64 ≤
      ((d.rd F.MRK_TIME_SEC_LO_SEC 7 + (0 : Word).field 0 16 * 2 ^ 32) * 1000000000 + d.rd F.MRK_TIME_NS_NS 7) * 2 ^ 64 + d.rd F.MRK_TIME_FRAC_FRAC 7 * 2 ^ 48 ∧ (d.marker 7).last = none) ∧
    (let d := base.wr F.MRK_CFG_MODE 3 7; ((d.rd F.MRK_TIME_SEC_LO_SEC 7 + (0 : Word).field 0 16 * 2 ^ 32) * 1000000000 + d.rd F.MRK_TIME_NS_NS 7) * 2 ^ 64 +
      d.rd F.MRK_TIME_FRAC_FRAC 7 * 2 ^ 48 < d.localTime + 1000 * 2 ^ 64) ∧
    (let d := base.setMarker 7 (fun m => { m with pulses := [(5, 1, 0)] }); (d.marker 7).pulses = [(5, 1, 0)] ∧ d.rd F.MRK_CFG_MODE 7 ≠ 4) := by unfold InRun; decide +kernel
theorem witness_EventInputCommandsComplete_full :
    (let d := tdcIn ⟨0, none, List.replicate 4096 ⟨0, 0, 0, false⟩, 0, 0, none⟩; d.rd F.TDC_IN_CFG_EN 19 = 1 ∧ (d.tdc 19).last = none ∧ 4096 ≤ (d.tdc 19).queue.length) ∧
    (let d := tdcIn ⟨0, some 0, [], 0, 0, none⟩; d.axisState 1 = 0 ∧ d.axisState 2 = 0 ∧ d.sections = Tab.empty ∧ d.rd F.TDC_IN_CFG_EN 19 = 1 ∧ d.rd F.TDC_IN_CFG_EDGE 19 = 2 ∧ (d.tdc 19).last = some 0) ∧
    (base.tdc 19).batch = none ∧ (base.marker 7).pulses = [] := by decide +kernel
/-- A frame of 60 zero bytes. -/
def zeros : List Byte := List.replicate 60 0
/-- A frame of a transmit queue, its requested stamp i. -/
def txf (i : Option Nat) : TxFrame := ⟨15, 0x100, zeros, i, 0, false, 0⟩
/-- Sub-port 15 with one frame that left. -/
def sentBy (i : Option Nat) : Dev := { base with links := { base.links with sent := Tab.empty.put 15 [txf i] } }
theorem witness_EthernetCommandsComplete :
    (let d := ((base.wr F.ETH_CFG_EN 1 3).wr F.ETH_CFG_BREAKOUT 1 3).wr F.ETH_CFG_MAXFRAME 1518 3; d.subPortOn 15 = true ∧ zeros.length + 4 ≤ d.rd F.ETH_CFG_MAXFRAME 3 ∧ (parseFrame zeros).ptp = none ∧
      (parseFrame zeros).udp.isNone = true ∧ d.rd F.ETH_SP_RX_HEAD_RX_HEAD 15 = d.rd F.ETH_SP_RX_TAIL_RX_TAIL 15 ∧
      (let e := d.wr F.ETH_SP_RX_TAIL_RX_TAIL 8 15; e.rd F.ETH_SP_RX_HEAD_RX_HEAD 15 ≠ e.rd F.ETH_SP_RX_TAIL_RX_TAIL 15)) ∧ base.subPortOn 15 = false ∧
    (InRun (on base) ∧ (1 : Word).toNat = (base.rd F.ETH_SP_TX_TAIL_TX_TAIL 15 + 1) % 2 ^ 32 ∧
      leNat (((base.hostMem.bytes (base.rdWide F.ETH_SP_TX_BASE_TX_BASE 15 2 + base.rd F.ETH_SP_TX_TAIL_TX_TAIL 15 % 2 ^ max 4 (min 12 (base.rd F.ETH_SP_TX_SIZE_TX_SIZE 15)) * 32) 32).drop 14).take 1) = 0) ∧
    ((sentBy (some 9)).links.sent.getD 15 [] = [txf (some 9)] ∧ ((sentBy (some 9)).time.txq.getD 15 []).length < 16) ∧
    (let d := { sentBy (some 9) with time := { base.time with txq := Tab.empty.put 15 (List.replicate 16 (0, 0, 0)) } }; 16 ≤ (d.time.txq.getD 15 []).length ∧ (txf (some 9)).ident.isSome = true) ∧
    ((sentBy none).links.sent.getD 15 [] = [txf none] ∧ (txf none).ident = none ∧ (txf none).q = 15) ∧ base.links.sent.getD 15 [] = [] ∧
    (let d := { base with links := { base.links with launch := Tab.empty.put 31 [txf none] } }.wr F.LQ_CFG_EN 1 3 7; d.links.launch.getD (8 * 3 + 7) [] = [txf none] ∧ d.rd F.LQ_CFG_EN 3 7 = 1 ∧
      (List.range 7).all (fun j => d.rd F.LQ_CFG_EN 3 j == 0) = true ∧ (txf none).cued = false ∧ d.localTime ≤ (txf none).launch + 2 * 2 ^ 64 ∧ (txf none).launch + 2 * 2 ^ 64 < { d with localTime := 3 * 2 ^ 64 }.localTime) ∧
    base.links.launch.getD (8 * 3 + 7) [] = [] ∧ (base.rd F.ETH_STATUS_LINK 3).testBit 3 = !true := by unfold InRun; decide +kernel
theorem witness_EthernetCommandsComplete_late : ∀ late ∈ [0, 1],
    let d := { base with localTime := 3 * 2 ^ 64, links := { base.links with launch := Tab.empty.put 31 [txf none] } }.wr F.LQ_CFG_EN 1 3 7 |>.wr F.LQ_CFG_LATE late 3 7
    d.links.launch.getD (8 * 3 + 7) [] = txf none :: [] ∧ d.rd F.LQ_CFG_EN 3 7 = 1 ∧ (List.range 7).all (fun j => d.rd F.LQ_CFG_EN 3 j == 0) = true ∧ (txf none).cued = false ∧
      (txf none).launch + 2 * 2 ^ 64 < d.localTime ∧ d.rd F.LQ_CFG_LATE 3 7 = late := by decide +kernel
/-- The galley with bytes from address a up. -/
def holds (d : Dev) (a : Nat) (b : List Byte) : Dev := { d with mem := d.mem.storeBytes a b }
/-- Ring 1023 over one page of map entry 100. -/
def ring1 (e : Nat) : Dev := ((holds base 800 (leBytes 8 e)).wr F.GAL_RING_BASE_BASE 100 1023).wr F.GAL_RING_PAGES_PAGES 1 1023
/-- The ring ON. -/
def ringOn1 (g : Ring) : Dev := { (ring1 0).wr F.GAL_RING_CFG_EN 1 1023 with rings := Tab.empty.put 1023 g }
/-- An empty ring. -/
def emptyRing : Ring := ⟨0, 0, [], [], [], 0, [], [], false⟩
/-- A header of length 64, with its check. -/
def head64 : List Byte := leBytes 8 0 ++ leBytes 4 64 ++ List.replicate 48 0
theorem witness_RingCommandsComplete :
    (let d := ring1 (2 ^ 17 + 5); InRun (on d) ∧ d.ringOn 1023 = false ∧ d.rd F.GAL_RING_BASE_BASE 1023 = 100 ∧ d.rd F.GAL_RING_PAGES_PAGES 1023 = 1 ∧ (d.mapEntry (100 + 0)).testBit 17 = true ∧
      (d.mapEntry (100 + 0)).testBit 18 = false ∧ 1 ≤ d.mapEntry (100 + 0) % 2 ^ 17 ∧ d.mapEntry (100 + 0) % 2 ^ 17 < 0x1E000 ) := by unfold InRun; decide +kernel
theorem witness_RingCommandsComplete_host :
    base.rd F.GAL_RING_PAGES_PAGES 1023 = 0 ∧
    (let d := ringOn1 emptyRing; InRun (on d) ∧ d.ringOn 1023 = true ∧ (d.ring 1023).writers = [] ∧ (d.ring 1023).readers = [] ∧
      (d.reg (F.GAL_RING_RD_LO_RD.at_ 1023 0)).toNat + (0 : Word).toNat * 2 ^ 32 = 0 ∧ 0 ≤ (d.ring 1023).wr ∧ (d.ring 1023).wr < 2 ^ 32) ∧
    ((ringOn1 { emptyRing with writers := [3] }).ring 1023).writers ≠ [] := by unfold InRun; decide +kernel
theorem witness_RingCommandsComplete_publish :
    (let d := (holds (ringOn1 emptyRing) 0 (head64 ++ leBytes 4 (crc32 (head64 ++ [0, 0, 0, 0])))).setReg (F.GAL_RING_WR_LO_WR.at_ 1023 0) 64; let h := d.ringBytes 1023 0 64;
      (d.reg (F.GAL_RING_WR_LO_WR.at_ 1023 0)).toNat + (0 : Word).toNat * 2 ^ 32 = 64 ∧ d.ringOn 1023 = true ∧ d.rd F.GAL_RING_CFG_HOST_RD 1023 = 0 ∧ (d.ring 1023).dead = [] ∧ (d.ring 1023).reserves = 0 ∧
      d.rd F.GAL_RING_BASE_BASE 1023 + d.rd F.GAL_RING_PAGES_PAGES 1023 ≤ 131072 ∧ d.headerOk 1023 64 = true ∧ d.readFill 1023 0 = false ∧ leNat ((h.drop 8).take 4) = 64 - 0 ∧
      leNat ((h.drop 60).take 4) = crc32 (h.take 60 ++ [0, 0, 0, 0]) ∧ leNat ((h.drop 16).take 8) = (d.ring 1023).seq) := by decide +kernel
/-- Rings that use no entry are shown for three numbers of 1,024: each ring's registers have the same reset values. -/
theorem witness_RingCommandsComplete_map :
    ([0, 511, 1023].all (fun q => !(base.usesEntry q (base.rd F.GAL_MAP_IDX_IDX))) = true) ∧
    (let d := (base.wr F.GAL_RING_PAGES_PAGES 1 0).wr F.GAL_RING_CFG_EN 1 0; d.ringOwning (d.rd F.GAL_MAP_IDX_IDX) = some 0) ∧ (base.mapEntry 131071).testBit 17 = false ∧
    (let d := holds base 24 (leBytes 8 (2 ^ 17 + 5)); (d.mapEntry 3).testBit 17 = true ∧ d.walkCause 3 = none ∧ d.addrDead (d.mapEntry 3 % 2 ^ 17 * 2097152) = false ∧ d.pageLocked 3 = none) ∧
    (let d := holds base 24 (leBytes 8 (2 ^ 17 + 2 ^ 18 + 5)); (d.mapEntry 3).testBit 17 = true ∧ d.walkCause 3 ≠ none) ∧
    (let d := { holds base 24 (leBytes 8 (2 ^ 17 + 5)) with slots := Tab.empty.put 1 ⟨0, 0, 0, 0, none, [3]⟩ }; d.pageLocked 3 = some 1) := by decide +kernel
theorem witness_RingCommandsComplete_alone : (let d := ring1 (2 ^ 17 + 5); (List.range 1024).all (fun q => q == 1023 || !(d.ringOn q)) = true) ∧ base.ringOwning (base.rd F.GAL_MAP_IDX_IDX) = none := by decide +kernel
theorem witness_RingCommandsComplete_refused : (InRun (on base) ∧ base.ringOn 1023 = false ∧ (base.ring 1023).wr < 1) ∧
    (let d := ringOn1 { emptyRing with readers := [⟨.fetch 15, 0, false, []⟩] }; d.ringOn 1023 = true ∧ (d.ring 1023).readers ≠ []) ∧ (base.mapEntry (base.rd F.GAL_RING_BASE_BASE 1023)).testBit 17 = false := by
  unfold InRun; decide +kernel

/-- The body of section 127: no sort, no route, no knob value, no gang. -/
def imageBody : List Byte := leBytes 4 0x4353584C ++ leBytes 2 127 ++ leBytes 18 0 ++ leBytes 8 64 ++ leBytes 8 64 ++ leBytes 8 64 ++ leBytes 8 64 ++ leBytes 8 128 ++ leBytes 72 0
/-- The header of an unsigned image of one section, but for its check: the section table at 256, the event map at 320, the body at 832, the reef order at 968. -/
def imageHead : List Byte := leBytes 4 0x4D46584C ++ leBytes 2 0x100 ++ leBytes 2 256 ++ leBytes 4 1280837680 ++ leBytes 4 1 ++ leBytes 8 972 ++ leBytes 2 1 ++ leBytes 6 0 ++
  leBytes 8 968 ++ leBytes 8 968 ++ leBytes 8 256 ++ leBytes 8 320 ++ leBytes 188 0
/-- The image, its checks (R13) written out: section 127 of an author's kind, first in the reef order, shed in the second reef. -/
def image0 : List Byte := imageHead ++ leBytes 4 2137875468 ++
  (leBytes 2 127 ++ leBytes 2 0x8000 ++ leBytes 4 0 ++ leBytes 8 832 ++ leBytes 8 136 ++ leBytes 1 0 ++ leBytes 1 2 ++ leBytes 2 0 ++ leBytes 4 1245922215 ++ leBytes 32 0) ++ leBytes 512 0 ++ imageBody ++ leBytes 4 0x0000027F
/-- Slot 1 VERIFYING the bytes at the start of ring 1023. -/
def verifying (b : List Byte) : Dev := { (holds (ring1 (2 ^ 17 + 5)) 0xA00000 b).wr F.FMR_IMG_STATUS_STATE 1 1 with slots := Tab.empty.put 1 ⟨1023, 0, 972, 0, none, [100]⟩ }
theorem verifying_byte (b : List Byte) (a : Nat) : (verifying b).galByte a = (((base.mem.storeBytes 800 (leBytes 8 (2 ^ 17 + 5))).storeBytes 0xA00000 b)).byte a := by
  have h : (verifying b).galBase a = 0 := by unfold Dev.galBase; exact if_pos (.inl rfl)
  unfold Dev.galByte
  rw [h]; exact BitVec.xor_zero
theorem verifying_entry (b : List Byte) : (verifying b).mapEntry 100 = 2 ^ 17 + 5 := by
  have h : (verifying b).galBytes (8 * 100) 8 = (base.mem.storeBytes 800 (leBytes 8 (2 ^ 17 + 5))).bytes 800 8 := by
    unfold Dev.galBytes Mem.bytes
    refine List.map_congr_left fun i hi => ?_
    rw [List.mem_range] at hi
    rw [verifying_byte, Mem.byte_storeBytes_out _ _ _ _ (by omega)]
  unfold Dev.mapEntry
  rw [h]; decide +kernel
/-- The ring's first bytes are what was put there. -/
theorem verifying_bytes (b : List Byte) (n : Nat) (hn : n ≤ b.length) (hp : n ≤ pageSize) : (verifying b).ringBytes 1023 0 n = b.take n := by
  have hs : (verifying b).ringSize 1023 = pageSize := (show (verifying b).ringSize 1023 = (verifying []).ringSize 1023 from rfl).trans (by decide +kernel)
  have hb : (verifying b).rd F.GAL_RING_BASE_BASE 1023 = 100 := (show (verifying b).rd F.GAL_RING_BASE_BASE 1023 = (verifying []).rd F.GAL_RING_BASE_BASE 1023 from rfl).trans (by decide +kernel)
  have hpg : max 1 pageSize = pageSize := by decide
  have h : (verifying b).ringBytes 1023 0 n = (List.range n).map (fun i => b.getD i 0) := by
    unfold Dev.ringBytes
    refine List.map_congr_left fun i hi => ?_
    rw [List.mem_range] at hi
    have hi' : (0 + i) % pageSize = i := by rw [Nat.zero_add]; exact Nat.mod_eq_of_lt (by omega)
    have ha : (verifying b).ringAddr 1023 (0 + i) = 0xA00000 + i := by
      unfold Dev.ringAddr Dev.pageOf
      rw [hs, hb, hpg, hi', Nat.div_eq_of_lt (by omega), Nat.add_zero, verifying_entry, Nat.mod_eq_of_lt (by omega)]
      rfl
    rw [ha, verifying_byte, Mem.byte_storeBytes_in _ _ _ _ (by omega)]
  rw [h]
  refine List.ext_getElem (by simp; omega) fun i h1 h2 => ?_
  simp only [List.getElem_map, List.getElem_range, List.getElem_take]
  rw [List.getD_eq_getElem _ _ (by simp at h1; omega)]
theorem image0_verifies : image0.length = 972 ∧ (match (verifying []).verifyImage image0 with
    | .ok v => (v.signed_, v.image.sections.map (fun x => (x.index, x.kind, x.reefStage)), v.image.reef)
    | .error _ => (true, [], [])) = (false, [(127, 0x8000, 2)], [(127, 2)]) := by decide +kernel
theorem verifying_slot (b : List Byte) : (verifying b).slot 1 = ⟨1023, 0, 972, 0, none, [100]⟩ ∧ (verifying b).rd F.FMR_IMG_STATUS_STATE 1 = (verifying []).rd F.FMR_IMG_STATUS_STATE 1 ∧
    ∀ l, (verifying b).verifyImage l = (verifying []).verifyImage l := ⟨rfl, rfl, fun _ => rfl⟩
theorem witness_ImageCommandsComplete_verified : (verifying image0).rd F.FMR_IMG_STATUS_STATE 1 = 1 ∧ ((verifying image0).slot 1).locked.all (fun x => ((verifying image0).walkCause x).isNone) = true ∧
    ∃ v, (verifying image0).verifyImage ((verifying image0).ringBytes ((verifying image0).slot 1).ring ((verifying image0).slot 1).offset ((verifying image0).slot 1).length) = .ok v := by
  obtain ⟨hl, h⟩ := image0_verifies
  obtain ⟨hs, hr, hv⟩ := verifying_slot image0
  refine ⟨hr.trans (by decide +kernel), ?_, ?_⟩
  · rw [hs]
    unfold Dev.walkCause
    simp only [List.all_cons, List.all_nil, verifying_entry]
    decide +kernel
  · rw [hs, hv]
    dsimp only
    rw [verifying_bytes _ _ (by omega) (by decide), List.take_of_length_le (by omega)]
    revert h
    cases (verifying []).verifyImage image0 with
    | ok v => intro _; exact ⟨v, rfl⟩
    | error c => intro h; simp at h
/-- A mover whose current descriptor at 0x1000 has one element, 16 bytes from 0x2000 to 0x3000, its control word c. -/
def mover (st c : Nat) : Dev :=
  ({ base with hostMem := (((base.hostMem.storeBytes 0x1000 (leBytes 4 c)).storeBytes 0x1010 (leBytes 8 0x3000)).storeBytes 0x1020 (leBytes 8 0x2000)).storeBytes 0x1028 (leBytes 4 16) }.wr
    F.MOV_STATUS_STATE st 63).wr F.PCI_LINK_UP 1 |>.setWide F.MOV_CUR_LO_ADDR 0x1000 63
theorem witness_MoverCommandsComplete :
    base.rd F.HKA_CTRL_PACE_EN = 0 ∧ (let d := base.wr F.MOV_OWNER_STR 1 63; InRun (on d) ∧ d.rd F.MOV_OWNER_STR 63 = 1) ∧ base.rd F.MOV_OWNER_STR 63 = 0 ∧
    (let d := mover 0 0x20; InRun (on d) ∧ d.movState 63 = 0 ∧ d.movCur 63 = 0x1000 ∧ d.descAddrOk 0x1000 = true ∧ d.rd F.PCI_LINK_UP = 1 ∧ (d.descAt 0x1000).control.testBit 31 = false) ∧
    (let d := mover 0 0x80000020; (d.descAt 0x1000).control.testBit 31 = true ∧ d.descOk (d.descAt 0x1000) = true) ∧
    (let d := { mover 0 0x80000020 with hostMem := Mem.empty.storeBytes 0x1000 (leBytes 4 0x80000020) }; (d.descAt 0x1000).control.testBit 31 = true ∧ d.descOk (d.descAt 0x1000) = false) ∧
    (let d := mover 2 0; d.movState 63 = 2 ∧ d.descAddrOk (d.rd F.MOV_HEAD_LO_ADDR 63 + d.rd F.MOV_HEAD_HI_ADDR 63 * 2 ^ 32) = true) ∧ (mover 3 0).movState 63 = 3 ∧
    (let d := mover 1 0x80000020; InRun (on d) ∧ d.movState 63 = 1 ∧ d.movCur 63 + 288 ≤ 2 ^ 60 ∧ (d.descAt (d.movCur 63)).elems = [(0x2000, 16)] ∧ (d.descAt (d.movCur 63)).dest = 0x3000 ∧
      (d.descAt (d.movCur 63)).control.testBit 5 = true ∧ (List.range 64).all (fun k => d.movState k != 1 || decide (d.rd F.MOV_CTRL_PRIO k ≤ d.rd F.MOV_CTRL_PRIO 63)) = true ∧ d.movCur 63 + 288 ≤ 0x3000) := by
  unfold InRun; decide +kernel
/-- A raw run of input 0 bound to a ring, in section 127, records of 16 samples. -/
def rawRun (q : Option Nat) : Run := { aRun with kind := .raw, ring := q }
/-- The section with that run. -/
def runs1 (u : Run) : Dev := { (act fed 127 5 128).setKnob 127 0x14 4 with runs := Tab.empty.put 127 u }
/-- Sixteen raw samples of 0. -/
def rec16 (full : Bool) : DataRecord := ⟨16, List.replicate 16 0, full, []⟩
/-- No loss is open on an input of such a section. -/
theorem runs1_open (u : Run) (n : Nat) : (runs1 u).openLosses n = [] := by
  have h : (runs1 u).input n = Input.reset := rfl
  simp [Dev.openLosses, h, Input.reset]
theorem witness_RecordPublishCompletes :
    base.secState 127 ≠ 2 ∧ (rec16 false).rows = [] ∧ ({ rec16 false with rows := [⟨3, 2, 5⟩] } : DataRecord).rows = [⟨3, 2, 5⟩] ∧
    (let d := { act (xfrmOn fed 1) 127 3 1 with runs := Tab.empty.put 127 aRun }; d.secState 127 = 2 ∧ d.runs.get? 127 = some aRun ∧ d.chanRunning 127 = false ∧ aRun.kind = .trace) ∧
    (let u := rawRun none; let d := runs1 u; d.secState 127 = 2 ∧ d.runs.get? 127 = some u ∧ d.recordPayload 127 u ⟨16, [], false, []⟩ = none ∧ d.chanRunning 127 = false ∧ u.kind = .raw ∧ d.replIdle = true ∧
      u.losses = []) ∧
    (let u := rawRun none; let d := runs1 u; d.recordPayload 127 u (rec16 false) = some (packRaw (rec16 false).samples) ∧ u.held = [] ∧ u.losses = [] ∧ u.ring = none ∧ u.gap = none) ∧
    (let u := { rawRun none with losses := [⟨16, 7 + 1, 5⟩] }; let d := runs1 u; d.recordPayload 127 u (rec16 false) = some (packRaw (rec16 false).samples) ∧ u.losses = [⟨u.next + (rec16 false).count, 7 + 1, 5⟩]) ∧
    (let u := rawRun (some 1023); let d := runs1 u; d.recordPayload 127 u (rec16 true) = some (packRaw (rec16 true).samples) ∧ (rec16 true).stoneFull = true ∧ d.free 1023 < 64 ∧ (rec16 false).stoneFull = false ∧ u.gap = none) ∧
    (let u := { rawRun (some 1023) with gap := some ⟨0, 4, 5⟩ }; u.ring = some 1023 ∧ (5 : Nat) ≠ 1 ∧ (runs1 u).runs.get? 127 = some u) := by decide +kernel
/-- The section with a run into ring 1023 of one live page. -/
def runs2 : Dev := { (holds (runs1 (rawRun (some 1023))) 800 (leBytes 8 (2 ^ 17 + 5))).wr F.GAL_RING_BASE_BASE 100 1023 |>.wr F.GAL_RING_PAGES_PAGES 1 1023 with rings := Tab.empty.put 1023 emptyRing }
theorem witness_RecordPublishCompletes_fits :
    (runs2.runs.get? 127 = some (rawRun (some 1023)) ∧ (rawRun (some 1023)).ctxWait = none ∧
      runs2.walkCause (runs2.pageOf 1023 (runs2.nextHeader 1023 (runs2.headerFuel 1023) (runs2.ring 1023).wr)) = none ∧ runs2.hasLive 1023 = true) ∧
    ∀ x : Rec, x.payload = packRaw (rec16 false).samples → (runs2.needs 1023 x : Int) ≤ runs2.free 1023 := by
  refine ⟨by decide +kernel, fun x hx => ?_⟩
  unfold Dev.needs Dev.recLen
  rw [hx]
  decide +kernel
/-- Channel 67 in a state. -/
def ch (st : Nat) : Dev := base.wr F.DRC_CH_STATUS_STATE st 67
theorem witness_ChannelRepairCommandsComplete :
    (ch 0).rd F.DRC_CH_STATUS_STATE 67 = 0 ∧ (InRun (on (ch 2)) ∧ (ch 2).rd F.DRC_CH_STATUS_STATE 67 = 2) ∧ (ch 0).rd F.DRC_CH_STATUS_STATE 67 ≠ 2 ∧
    (let d := ([64, 65, 66] : List Nat).foldl (fun d c => d.wr F.DRC_CH_STATUS_STATE 3 c) (ch 2); ([64, 65, 66, 67].all (fun c => d.rd F.DRC_CH_STATUS_STATE c != 1)) = true) ∧
    (let d := base.wr F.DRC_CH_STATUS_STATE 2 0; d.rd F.DRC_CH_STATUS_STATE 0 = 2 ∧ d.rd F.DRC_CH_STATUS_STATE 64 = 1 ∧ d.dram.entering = [] ∧ d.repair.field.length < 1535) ∧
    (let d := { base with dram := { base.dram with entering := [(63, 67)] } }; d.dram.entering = [((63 : Fin 64).val, 67)]) ∧
    ([0, 511, 1023].all (fun r => !(base.ringOn r)) = true) ∧ ((base.wr F.GAL_RING_CFG_EN 1 1023).ringOn 1023 = true) := by unfold InRun; decide +kernel
/-- Section 127 HELD, of a description with one gang. -/
def held : Dev := ({ base with sections := Tab.empty.put 127 ⟨{ desc 127 7 with gangs := [⟨8, 15, 0, 1⟩] }, [], none, 0, 0⟩ }).wr F.FMR_SEC_STATE_STATE 3 127
theorem witness_MemoryCareCommandsComplete :
    (base.slotDead 63 = false ∧ base.rd F.DRC_STATUS_SELFREF = 0) ∧ (base.wr F.DRC_STATUS_SELFREF 1).rd F.DRC_STATUS_SELFREF = 1 ∧
    ((List.replicate 68 (127 : Int)).length = 68 ∧ ∀ t ∈ List.replicate 68 (127 : Int), -128 ≤ t ∧ t ≤ 127) ∧
    ((List.range 64).all (fun m => base.movState m != 1 && base.movState m != 3) = true ∧ [0, 511, 1023].all (fun n => base.rd F.STR_STATUS_STATE n != 2 && base.rd F.STR_STATUS_STATE n != 3) = true ∧
      (List.range 16).all (fun c => base.rd F.CORE_STATUS_STATE c != 1 && base.rd F.CORE_STATUS_STATE c != 2) = true ∧ base.rd F.VID_STATUS_STATE = 0) ∧
    (base.wr F.MOV_STATUS_STATE 1 63).movState 63 = 1 ∧ (base.wr F.DRC_CTRL_SCRUB_EN 1).rd F.DRC_CTRL_SCRUB_EN = 1 ∧ (base.wr F.DRC_CTRL_SCRUB_EN 0).rd F.DRC_CTRL_SCRUB_EN = 0 ∧
    (InRun (on held) ∧ held.secState 127 = 3 ∧ held.rd F.SPM_MARCH_STATUS_STATE ≠ 1 ∧ (held.sections.get? 127).map (fun x => x.desc.gangs) = some [⟨8, 15, 0, 1⟩] ∧ (⟨8, 15, 0, 1⟩ : Gang).id = 15) ∧
    base.secState 127 ≠ 3 ∧
    (let d := { base.wr F.SPM_SORT_SPARES 1 1183 with dram := { base.dram with march := some (127, 128, 0) } }; d.dram.march = some (127, 128, 0) ∧ 128 ≤ 128 ∧ d.repair.field.length < 1534 ∧
      1 ≤ d.rd F.SPM_SORT_SPARES 1183) ∧ base.dram.march = none := by unfold InRun; decide +kernel
/-- Drive 15 in a state. -/
def drv (st : Nat) : Dev := base.wr F.NVM_DRV_STATE_STATE st 15
theorem witness_DriveCommandsComplete :
    (let d := { base with links := { base.links with ports := Tab.empty.put 1023 (Port.fresh 0 0) } }.wr F.STR_STATUS_STATE 2 1023; d.rd F.STR_CFG_TRANSPORT 1023 = 0 ∧ d.strState 1023 = 2) ∧
    base.links.ports = Tab.empty ∧ (let d := base.wr F.NVM_SCAN_STATUS_BUSY 1; InRun (on d) ∧ d.rd F.NVM_SCAN_STATUS_BUSY = 1) ∧ (InRun (on base) ∧ base.rd F.NVM_SCAN_STATUS_BUSY = 0) ∧
    (let d := { base with links := { base.links with scan := some (3, 0) } }; d.links.scan = some (3, 0) ∧ (List.range 16).all (fun n => d.drvState n != 1 && d.drvState n != 2) = true) ∧ base.links.scan = none ∧
    (drv 1).drvState 15 = 1 ∧ (let d := { drv 1 with links := { base.links with linkSince := Tab.empty.put 15 7 } }; d.drvState 15 = 1 ∧ d.links.linkSince.get? 15 = some 7) ∧
    ((drv 2).drvState 15 = 2 ∧ (⟨false, 0, 9, 0, [], 0⟩ : DriveInfo).qualifies = false ∧ (let i : DriveInfo := ⟨true, 2 ^ 64 - 1, 12, 5, List.replicate 20 0, 100⟩; i.lbaLog2 = 12 ∧ i.serial.length = 20 ∧ i.lbas < 2 ^ 64)) ∧
    (drv 3).drvState 15 = 3 ∧ (drv 4).drvState 15 = 4 ∧ (drv 5).drvState 15 = 5 ∧ (drv 6).drvState 15 = 6 ∧ base.drvState 15 = 0 ∧ base.links.replays = Tab.empty := by unfold InRun; decide +kernel
/-- Stripe set 15 in a state. -/
def sset (st : Nat) : Dev := base.wr F.NVM_SET_STATUS_STATE st 15
/-- A member with one chunk on its way. -/
def memb : Member := ⟨15, 1000, 2, [⟨0, 1, 0, 0, 0, 0, 0, false⟩], 0⟩
theorem witness_StripeSetCommandsComplete :
    (∀ st ∈ [1, 2, 3, 4, 5, 6], InRun (on (sset st)) ∧ (sset st).setState 15 = st) ∧ (InRun (on (sset 0)) ∧ (sset 0).setState 15 = 0 ∧ (List.range 16).filter ((sset 0).rd F.NVM_SET_CFG_MEMBERS 15).testBit = []) ∧
    (let d := (drv 3).wr F.NVM_SET_CFG_MEMBERS 0x8000 15; d.setState 15 = 0 ∧ (List.range 16).filter (d.rd F.NVM_SET_CFG_MEMBERS 15).testBit = [15] ∧ d.drvState 15 = 3 ∧
      (List.range 16).all (fun n => d.drvState n != 4) = true) ∧ ((base.wr F.NVM_SET_CFG_MEMBERS 0x8000 15).drvState 15 ≠ 3) ∧ (base.sset 15).members.get? 15 = none ∧
    (let d := base.setSset 15 (fun x => { x with members := Tab.empty.put 15 memb }); (d.sset 15).members.get? 15 = some memb ∧ memb.chunks = ⟨0, 1, 0, 0, 0, 0, 0, false⟩ :: [] ∧ d.portOfSet 15 = none) := by unfold InRun; decide +kernel
/-- Stream port 1023 in a state, of a transport, its ring ON. -/
def port (st t : Nat) : Dev :=
  { (((base.wr F.STR_STATUS_STATE st 1023).wr F.STR_CFG_TRANSPORT t 1023).wr F.GAL_RING_CFG_EN 1 0).wr F.STR_P_P 16 1023 2 with links := { base.links with ports := Tab.empty.put 1023 (Port.fresh 0 0) } }
theorem witness_StreamPortCommandsComplete :
    (∀ st ∈ [1, 2, 3, 4], InRun (on (port st 0)) ∧ (port st 0).strState 1023 = st) ∧ (InRun (on base) ∧ base.strState 1023 = 0 ∧ base.ringOn (base.rd F.STR_CFG_RING 1023) = false) ∧
    ((port 0 3).strState 1023 = 0 ∧ (port 0 3).ringOn ((port 0 3).rd F.STR_CFG_RING 1023) = true ∧ (port 0 3).rd F.STR_CFG_TRANSPORT 1023 = 3) ∧
    (let d := (port 0 2).wr F.MOV_STATUS_STATE 1 0; d.rd F.STR_CFG_TRANSPORT 1023 = 2 ∧ d.rd F.MOV_OWNER_STR (d.rd F.STR_CFG_MOVER 1023) = 0 ∧ d.movState (d.rd F.STR_CFG_MOVER 1023) = 1) ∧
    ((port 0 2).startCode 1023 = 0 ∧ (port 0 2).rd F.STR_CFG_TRANSPORT 1023 = 2) ∧ ((port 0 0).startCode 1023 = 0 ∧ (port 0 0).rd F.STR_CFG_TRANSPORT 1023 = 0) ∧
    (let d := (port 0 1).wr F.NVM_SET_STATUS_STATE 2 0; d.startCode 1023 = 0 ∧ d.rd F.STR_CFG_TRANSPORT 1023 = 1 ∧ d.rd F.STR_CFG_DIR 1023 = 0) ∧
    (let d := ((port 0 1).wr F.NVM_SET_STATUS_STATE 4 0).wr F.STR_CFG_DIR 1 1023; d.startCode 1023 = 0 ∧ d.rd F.STR_CFG_TRANSPORT 1023 = 1 ∧ d.rd F.STR_CFG_DIR 1023 = 1) ∧
    ((port 2 0).links.ports.get? 1023 = some (Port.fresh 0 0)) ∧ ((port 3 2).strState 1023 = 3 ∧ (port 3 2).rd F.STR_CFG_TRANSPORT 1023 = 2) ∧ (port 3 0).portDrained 1023 = true ∧
    ((port 2 0).rd F.STR_P_P 1023 5 + (0 : Word).toNat * 2 ^ 32 ≤ (Port.fresh 0 0).pos ∧ (Port.fresh 0 0).pos < (port 2 0).rd F.STR_P_P 1023 5 + (1 : Word).toNat * 2 ^ 32) ∧
    (let d := { base with links := { base.links with ports := Tab.empty.put 1023 { Port.fresh 0 0 with heldSince := some 9 } } }; (d.port 1023).heldSince = some 9) ∧ (base.port 1023).heldSince = none := by unfold InRun; decide +kernel
theorem witness_DriveCommandsComplete_member :
    (let d := (drv 4).wr F.NVM_DRV_STATE_SET 7 15 |>.setSset 7 (fun x => { x with members := Tab.empty.put 0 ⟨15, 0, 0, [], 0⟩ });
      d.drvState 15 = 4 ∧ d.links.ports = Tab.empty ∧ d.rd F.NVM_DRV_STATE_ORDINAL 15 = 0 ∧ ((d.sset (d.rd F.NVM_DRV_STATE_SET 15)).members.get? (d.rd F.NVM_DRV_STATE_ORDINAL 15)).isSome = true) ∧
    (let d := port 2 0; d.links.ports.cells.map (·.1) = [1023] ∧ d.rd F.STR_CFG_TRANSPORT 1023 = 0 ∧ d.strState 1023 = 2) := by decide +kernel
theorem witness_StreamPortCommandsComplete_other :
    ((port 0 1).wr F.STR_CFG_DIR 1 1023).strState 1023 = 0 ∧ (let d := port 1 2; d.links.ports.cells.map (·.1) = [1023]) := by decide +kernel
/-- A control frame with operation o and no good check. -/
def ctl (o : Nat) : CtlFrame := ⟨false, 0, 0, 0, leBytes 5 0 ++ leBytes 1 o ++ List.replicate 50 0⟩
theorem witness_SubscriptionCommandsComplete :
    (∀ o ∈ [1, 2, 3, 4], leNat (((ctl o).payload.drop 5).take 1) = o) ∧
    (let d := base.wr F.ETH_CTL_RATE_DEPTH 0 3; (d.takeToken 3 0).2 = false) ∧ (let d := base.wr F.ETH_CTL_RATE_DEPTH 1 3; (d.takeToken 3 0).2 = true ∧ d.ctlGood (ctl 1).payload = false) ∧
    ((port 2 2).strState 1023 = 2 ∧ (port 2 2).rd F.STR_CFG_TRANSPORT 1023 = 2) ∧ base.strState 1023 ≠ 2 := by decide +kernel
/-- Slot 0's wrapped subscriber key is some 24 bytes; the port's key number is 0. -/
def keyed (st : Nat) : Dev :=
  let d := ((((port st 2).wr F.ETH_CTL_RATE_DEPTH 1 3).wr F.STR_P_P 0 1023 0).wr F.ETH_SUB_STAT_VALID 1 1023).wr F.STR_P_P 500 1023 4
  { d with sec := { d.sec with wrapped := Tab.empty.put 0 (List.replicate 24 5) } }
/-- The key it unwraps to: the unit's own (log entry 2). -/
def subscriberKey : List Byte := keyUnwrap (deviceKeyBytes Config.deviceKey) (List.replicate 24 5)
/-- The 40 checked bytes of a control frame of operation o for port 1023, its counter 7, its lease 100 ms and its position p. -/
def ctlBody (o p : Nat) : List Byte := leBytes 4 0x4253584C ++ leBytes 1 1 ++ leBytes 1 o ++ leBytes 2 0 ++ leBytes 8 7 ++ leBytes 2 1023 ++ leBytes 2 9 ++ leBytes 4 100 ++ leBytes 8 0 ++ leBytes 8 p
/-- It with its check. -/
def checked (o p : Nat) : CtlFrame := ⟨false, 0, 0, 0, ctlBody o p ++ cmac subscriberKey (ctlBody o p)⟩
theorem checked_sub {o p a m : Nat} (h : a + m ≤ 40) (hb : (ctlBody o p).length = 40) : ((checked o p).payload.drop a).take m = ((ctlBody o p).drop a).take m := by
  unfold checked
  rw [List.drop_append_of_le_length (by omega), List.take_append_of_le_length (by rw [List.length_drop]; omega)]
theorem subscriberKey_length : subscriberKey.length = 16 := keyUnwrap_length _ _ (by simp [deviceKeyBytes])
theorem checked_good (st o p : Nat) (hs : (keyed st).sec.wrapped.get? 0 = some (List.replicate 24 5) ∧ (keyed st).sec.frameCtr.getD 0 0 = 0) (hb : (ctlBody o p).length = 40)
    (h0 : leNat (((ctlBody o p).drop 6).take 1) = 0 ∧ leNat (((ctlBody o p).drop 0).take 4) = 0x4253584C ∧ leNat (((ctlBody o p).drop 4).take 1) = 1 ∧ leNat (((ctlBody o p).drop 8).take 8) = 7) :
    (keyed st).ctlGood (checked o p).payload = true := by
  have hk : (keyed st).subKey 0 = some subscriberKey := by unfold Dev.subKey; rw [if_pos (by decide), hs.1]; rfl
  have hl := cmac_length subscriberKey (ctlBody o p) (by rw [subscriberKey_length]; decide)
  have h1 := checked_sub (o := o) (p := p) (a := 0) (m := 4) (by decide) hb
  have h2 : (checked o p).payload.take 40 = ctlBody o p := by unfold checked; rw [List.take_append_of_le_length (by omega), List.take_of_length_le (by omega)]
  have h3 : (checked o p).payload.drop 40 = cmac subscriberKey (ctlBody o p) := by unfold checked; rw [← hb, List.drop_left]
  have h4 : (checked o p).payload.length = 56 := by unfold checked; rw [List.length_append, hb, hl]
  rw [List.drop_zero] at h1
  unfold Dev.ctlGood
  rw [checked_sub (by decide) hb, h0.1, hk]
  simp only [h4, h2, h3, h1, checked_sub (o := o) (p := p) (a := 4) (m := 1) (by decide) hb, checked_sub (o := o) (p := p) (a := 8) (m := 8) (by decide) hb, h0.2.2.1, h0.2.2.2, hs.2]
  rw [h0.2.1, List.take_of_length_le (by omega)]
  simp
theorem witness_SubscriptionCommandsComplete_good : ∀ o ∈ [1, 2, 3, 4], ∀ p ∈ [0, 1],
    (∀ st ∈ [1, 2], (keyed st).ctlGood (checked o p).payload = true ∧ ((keyed st).takeToken 3 0).2 = true ∧ (keyed st).strState 1023 = st ∧ (keyed st).rd F.STR_CFG_TRANSPORT 1023 = 2 ∧
      (keyed st).rd F.STR_P_P 1023 0 / 16 % 64 = leNat (((checked o p).payload.drop 6).take 1) ∧ (keyed st).fromSubscriber 1023 (checked o p) = true ∧
      (keyed st).links.ports.get? 1023 = some (Port.fresh 0 0)) ∧
    leNat (((checked o p).payload.drop 5).take 1) = o ∧ leNat (((checked o p).payload.drop 16).take 2) = 1023 ∧ leNat (((checked o p).payload.drop 20).take 4) = 100 ∧
    leNat (((checked o p).payload.drop 32).take 8) = p := by
  intro o ho p hp
  have hb : ∀ o ∈ [1, 2, 3, 4], ∀ p ∈ [0, 1], (ctlBody o p).length = 40 ∧ (leNat (((ctlBody o p).drop 6).take 1) = 0 ∧ leNat (((ctlBody o p).drop 0).take 4) = 0x4253584C ∧
    leNat (((ctlBody o p).drop 4).take 1) = 1 ∧ leNat (((ctlBody o p).drop 8).take 8) = 7) ∧ leNat (((ctlBody o p).drop 5).take 1) = o ∧ leNat (((ctlBody o p).drop 16).take 2) = 1023 ∧
    leNat (((ctlBody o p).drop 20).take 4) = 100 ∧ leNat (((ctlBody o p).drop 32).take 8) = p := by decide +kernel
  obtain ⟨hl, hf, h5, h16, h20, h32⟩ := hb o ho p hp
  refine ⟨fun st hst => ?_, by rw [checked_sub (by decide) hl]; exact h5, by rw [checked_sub (by decide) hl]; exact h16, by rw [checked_sub (by decide) hl]; exact h20, by rw [checked_sub (by decide) hl]; exact h32⟩
  have hd : ∀ st ∈ [1, 2], ((keyed st).sec.wrapped.get? 0 = some (List.replicate 24 5) ∧ (keyed st).sec.frameCtr.getD 0 0 = 0) ∧ ((keyed st).takeToken 3 0).2 = true ∧ (keyed st).strState 1023 = st ∧
    (keyed st).rd F.STR_CFG_TRANSPORT 1023 = 2 ∧ (keyed st).rd F.STR_P_P 1023 0 / 16 % 64 = 0 ∧ (keyed st).fromSubscriber 1023 ⟨false, 0, 0, 0, []⟩ = true ∧ (keyed st).links.ports.get? 1023 = some (Port.fresh 0 0) := by decide +kernel
  obtain ⟨hw, ht, hs, htr, hp0, hsub, hport⟩ := hd st hst
  exact ⟨checked_good st o p hw hl hf, ht, hs, htr, by rw [checked_sub (by decide) hl, hf.1]; exact hp0, hsub, hport⟩
/-! ## Stay links and sheet buses -/

/-- Link 3 UP at a station that talks to others. -/
def upl : Dev := (base.wr F.STY_CTRL_EN 1).wr F.STY_LINK_STATE_STATE 2 3
/-- A word from station 31. -/
def wordOf (k flags : Nat) (p : List Byte) : List Byte := stayWord k 31 0 flags 1 p
/-- A segment of stations 0 and 31. -/
def seg31 : SegInfo := ⟨0x80000001, 1, [(31, 3, 1)], 7⟩
theorem witness_StayCommandsComplete_links :
    base.rd F.STY_LINK_STATE_STATE 3 = 0 ∧ (seg31.mask.toNat ||| 2 ^ upl.station_ = 0x80000001 ∧ upl.rd F.STY_LINK_STATE_STATE 3 ≠ 0 ∧ upl.replIdle = true ∧ upl.stay.parts = Tab.empty) ∧
    (let m := upl.wr F.STY_SEGMENT_MASK 0x80000001; m.rd F.STY_SEGMENT_MASK &&& 0x80000001 = m.rd F.STY_SEGMENT_MASK ∧ m.rd F.STY_SEGMENT_MASK &&& 1 ≠ m.rd F.STY_SEGMENT_MASK) ∧
    (let m := upl.wr F.STY_MEMBERS_MASK 0x80000001; m.rd F.STY_MEMBERS_MASK &&& 1 ≠ m.rd F.STY_MEMBERS_MASK) ∧
    (upl.rd F.STY_LINK_STATE_STATE 3 = 2 ∧ base.rd F.STY_CTRL_EN = 0) ∧
    (let d := upl.wr F.STY_LINK_STATE_STATE 1 3; d.rd F.STY_SEGMENT_MASK ||| 2 ^ d.station_ = 1 ∧ seg31.mask.toNat ||| 1 = 0x80000001 ∧ d.rd F.STY_CTRL_EN = 1 ∧ d.rd F.STY_LINK_STATE_STATE 3 ≠ 2 ∧ d.replIdle = true) ∧
    (let d := ((upl.wr F.STY_LINK_STATE_STATE 1 3).wr F.STY_CTRL_ID 31).wr F.STY_CTRL_TT_EN 1; d.rd F.STY_SEGMENT_MASK ||| 2 ^ d.station_ = 0x80000000 ∧ lowest 0x80000001 ≠ lowest 0x80000000 ∧ d.rd F.STY_CTRL_TT_EN = 1) ∧
    InRun (on base) ∧ (InRun (on upl) ∧ upl.rd F.STY_CTRL_EN = 1 ∧ upl.stay.round = none ∧ upl.rd F.STY_MEMBERS_MASK = 0) ∧ (upl.wr F.STY_MEMBERS_MASK 1).rd F.STY_MEMBERS_MASK = 2 ^ (upl.wr F.STY_MEMBERS_MASK 1).station_ ∧
    (let d := { upl with stay := { upl.stay with round := some (5, 1, 0) } }; d.stay.round = some (5, 1, 0) ∧ d.discAll = false ∧ d.replIdle = true ∧ (List.range 32).all (fun e => d.rd F.STY_REPL_CFG_EN e == 0) = true) ∧
    (base.rd F.STY_STATUS_SLEWING = 0 ∧ (base.wr F.STY_STATUS_SLEWING 1).rd F.STY_STATUS_SLEWING = 1 ∧ base.stayWhole = true ∧ (base.wr F.STY_MEMBERS_MASK 2).stayWhole = false) := by
  unfold InRun; decide +kernel
theorem witness_StayCommandsComplete_words :
    (upl.goodWord 3 1 (wordOf 1 0 []) = true ∧ (u (wordOf 1 0 []) 3 1).testBit 0 = false) ∧
    (upl.goodWord 3 1 (wordOf 1 1 []) = true ∧ (u (wordOf 1 1 []) 3 1).testBit 0 = true ∧ upl.rd F.STY_STATUS_MASTER = upl.station_) ∧
    (let d := { (upl.wr F.STY_STATUS_MASTER 31).wr F.STY_LINK_STATE_PEER_ID 31 3 with stay := { upl.stay with via := [(31, 3, 1)] } };
      d.rd F.STY_STATUS_MASTER ≠ d.station_ ∧ d.stayVia (d.rd F.STY_STATUS_MASTER) = some (3 : Fin 4).val ∧ d.rd F.STY_LINK_STATE_PEER_ID 3 = d.rd F.STY_STATUS_MASTER) ∧
    (upl.goodWord 3 2 (wordOf 2 0 []) = true ∧ upl.newWord (wordOf 2 0 []) = true) ∧
    (let b := wordOf 3 0 [0x3F, 0x1F]; upl.goodWord 3 3 b = true ∧ upl.newWord b = true ∧ u b 8 1 % 64 = 63 ∧ (upl.rd F.STY_HAL_IN_MASK 1).testBit 31 = false ∧
      (let d := ((upl.wr F.STY_HAL_IN_MASK 0x80000000 1).wr F.FMR_HAL_DRV_KIND 5 63).wr F.FMR_HAL_DRV_INDEX 0 63; (d.rd F.STY_HAL_IN_MASK 1).testBit 31 = true ∧ d.hasDriver 63 5 0 = true ∧ d.halyards.map (·.hal) = [])) ∧
    (let b := wordOf 5 0 [31]; upl.goodWord 3 5 b = true ∧ upl.newWord b = true ∧ (u b 3 1).testBit 0 = false) ∧
    (let b := wordOf 5 1 [31]; let d := { upl with stay := { upl.stay with round := some (5, 1, 0) } }; d.goodWord 3 5 b = true ∧ d.newWord b = true ∧ (u b 3 1).testBit 0 = true ∧ d.stay.round = some (5, 1, 0) ∧ d.rd F.STY_MEMBERS_MASK = 0) ∧
    (let b := wordOf 6 0 [64, 0]; upl.goodWord 3 6 b = true ∧ upl.replIdle = true) := by decide +kernel
theorem witness_StayCommandsComplete_bulk :
    (base.stayUp 3 = false ∧ upl.stayUp 3 = true ∧ upl.stay.wait = [] ∧ upl.ringOn 1023 = false) ∧
    (let d := { (ringOn1 emptyRing).wr F.STY_CTRL_EN 1 with stay := { base.stay with parts := Tab.empty.put 1023 (3, 1023, head64.take 8) } }.wr F.STY_LINK_STATE_STATE 2 3;
      d.stayUp 3 = true ∧ d.stay.wait = [] ∧ d.ringOn 1023 = true ∧ ((d.stay.parts.get? (31 * 32 + 31)).map (·.2.2)).getD [] = head64.take 8 ∧ d.fitsRaw 1023 (head64.take 8 ++ head64.drop 8) = true ∧
      d.fitsRaw 1023 (head64.take 8 ++ List.replicate 3000 0) = true) := by decide +kernel
/-- A command word that carries out operation 3 at a time. -/
def cmdWord (t : Nat) : List Byte := wordOf 4 0 (leBytes 4 3 ++ leBytes 8 7 ++ leBytes 12 t ++ leBytes 4 9)
/-- Commands wait at this station. -/
def cmds (c : List GCmd) : Dev := { upl with stay := { upl.stay with cmds := c } }
/-- Group 5 of the trigger unit in section 127 takes a global command. -/
theorem witness_GlobalCommandsComplete :
    (let d := base.advanceLocal (2 ^ 80); InRun (on base) ∧ ofStamp96 (base.rdWide F.STY_GCMD_T_T 0 3) < base.localTime + (base.farthest * 120 + 1000) * 2 ^ 64 ∧ d.localTime ≠ 0) ∧
    (let d := base.wr F.STY_GCMD_T_T 1 0 1; d.localTime + (d.farthest * 120 + 1000) * 2 ^ 64 ≤ ofStamp96 (d.rdWide F.STY_GCMD_T_T 0 3) ∧ d.stay.cmdId < 2 ^ 24) ∧
    (upl.goodWord 3 4 (cmdWord 0) = true ∧ upl.newWord (cmdWord 0) = true ∧ upl.stay.cmds = [] ∧ upl.localTime ≤ ofStamp96 (u (cmdWord 0) 20 12)) ∧
    (let d := upl.advanceLocal (2 ^ 80); d.goodWord 3 4 (cmdWord 0) = true ∧ d.newWord (cmdWord 0) = true ∧ ofStamp96 (u (cmdWord 0) 20 12) < d.localTime) ∧
    (let c : GCmd := ⟨31, 9, 0, 0, 5⟩; earliest (cmds [c]).stay.cmds = some c ∧ c.op = 0 ∧ 1 ≤ (cmds [c]).cycle ∧ c.time < localWrap ∧ (cmds [c]).localTime < localWrap ∧ c.time < localWrap - (cmds [c]).cycle) ∧
    (let c : GCmd := ⟨31, 9, 1, 0, 5⟩; earliest (cmds [c]).stay.cmds = some c ∧ c.op = 1 ∧ (cmds [c]).sections = Tab.empty) ∧
    (let c : GCmd := ⟨31, 9, 3, 0, 5⟩; earliest (cmds [c]).stay.cmds = some c ∧ c.op = 3 ∧ (cmds [c]).banksUsed < 2) ∧
    (let c : GCmd := ⟨31, 9, 2, 2 ^ 5, 5⟩; let d := (act (cmds [c]) 127 4 128).setKnob 127 8 5; earliest d.stay.cmds = some c ∧ d.sections.cells.map (·.1) = [127] ∧ d.activeKind 127 4 = true ∧
      c.arg.testBit (d.knobBits 127 8 0 6) = true) := by unfold InRun; decide +kernel
/-- Bus 1 enabled. -/
def bus : Dev := base.wr F.SHT_CFG_EN 1 1
/-- A request to station 31 in hand. -/
def req (op tries : Nat) : ShtReq := ⟨31, op, 9, [1, 0, 1], tries, some 31, false⟩
/-- Bus 1 with it. -/
def asked (r : ShtReq) (g : List ShtStage) : Dev := { bus with sheets := Tab.empty.put 1 { bus.sheet 1 with cur := some r, stages := g } }
theorem witness_SheetCommandsComplete_cycles :
    base.rd F.SHT_CFG_EN 1 = 0 ∧ bus.rd F.SHT_CFG_EN 1 = 1 ∧
    (let w := 2 ^ 31 + 15 * 2 ^ 24 + 0x100 + 31; let d := bus.wr F.SHT_POLL_ENTRY w 1 31; (List.range 31).all (fun j => d.rd F.SHT_POLL_ENTRY 1 j == 0) = true ∧ d.rd F.SHT_POLL_ENTRY 1 31 = w ∧ w.testBit 31 = true ∧ 1 ≤ w % 32 ∧
      1 ≤ w / 2 ^ 24 % 16 ∧ (d.sheet 1).queue = [] ∧ (d.sheet 1).cur = none ∧ (d.sheet 1).lists = [] ∧ (d.sheet 1).commits = [] ∧ (d.sheet 1).scan = none ∧ d.station F.SHT_ABSENT_MASK 1 (w % 32) = false) := by decide +kernel
theorem witness_SheetCommandsComplete_replies :
    (sheetParse [31, 129, 9, 0, 0, 0] = none ∧ (bus.sheet 1).cur = none) ∧ (((asked (req 1 1) []).sheet 1).cur = some (req 1 1) ∧ (req 1 1).tries < 2) ∧
    (let d := asked (req 1 0) []; sheetParse (sheetFrame 31 129 9 [0, 5, 0, 0, 0]) = some ((req 1 0).addr, (req 1 0).op + 128, (req 1 0).tag, [0, 5, 0, 0, 0]) ∧ (d.sheet 1).queue = [] ∧ (d.sheet 1).ctx = none ∧ (d.sheet 1).scan = none ∧
      leNat (([0, 5, 0, 0, 0] : List Byte).take 1) = 0) ∧
    (let g : ShtStage := ⟨9, [(31, false)]⟩; let d := asked (req 2 0) [g]; sheetParse (sheetFrame 31 130 9 [0]) = some ((req 2 0).addr, (req 2 0).op + 128, (req 2 0).tag, [0]) ∧ (d.sheet 1).cur = some (req 2 0) ∧ (d.sheet 1).stages = [g] ∧
      g.tag = (req 2 0).tag) ∧
    (let d := asked (req 1 2) []; (d.sheet 1).cur = some (req 1 2) ∧ d.station F.SHT_ABSENT_MASK 1 31 = false ∧ (d.sheet 1).queue = [] ∧ (d.sheet 1).ctx = none ∧ (d.sheet 1).scan = none) ∧
    (let d := { bus with sheets := Tab.empty.put 1 { bus.sheet 1 with scan := some 0 } }; InRun (on d) ∧ (d.sheet 1).scan ≠ none) ∧
    (InRun (on bus) ∧ (bus.sheet 1).scan = none ∧ (bus.sheet 1).ctx = none) := by unfold InRun; decide +kernel
theorem witness_SheetCommandsComplete_scan : (bus.sheet 1).queue = [] ∧ (bus.sheet 1).cur = none ∧ bus.rd F.SHT_CFG_EN 1 = 1 ∧ 1 ≤ (req 1 2).addr ∧ (req 1 2).addr ≤ 31 ∧ 2 ≤ (req 1 2).tries := by decide +kernel
theorem witness_StayWordsAreChecked :
    base.stayUp 3 = false ∧ (stayWordOk (wordOf 1 0 []) = true ∧ u (wordOf 1 0 []) 0 1 ≠ 2) ∧ (upl.stayUp 3 = true ∧ stayWordOk (List.replicate 48 1) = false) ∧
    (let b := stayWord 2 0 0 0 1 []; upl.goodWord 3 2 b = true ∧ upl.newWord b = false) := by decide +kernel
/-! ## Displays, interrupts, the housekeeping converter -/

/-- A display in section 127 of the transform in section 126, a thousand spectra a frame. -/
def dens127 : Dev := (act (xfrmOn fed 126) 127 6 126).setKnob 127 0x18 1000
/-- It RUNNING, one spectrum of 64 points a frame, a frame of its closed or not, some frames of the transform absent. -/
def densOn (c : Option DensFrame) (g : List Loss) : Dev :=
  { (act { act fed 126 2 128 with xfrms := Tab.empty.put 126 ⟨0, 0, 0, 16, 1, 0, 6, 6, 0, g, 0⟩ } 127 6 126) with
    denses := Tab.empty.put 127 ⟨126, 0, 1, 0, 32, [(0, 0, 1)], c, Tab.empty⟩, runs := Tab.empty.put 127 aRun }
/-- A closed frame of n spectra. -/
def closed (n : Nat) : DensFrame := ⟨Tab.empty, n, 0, 0, 9, 0, 0, 0, [], 0, 0, 1⟩
theorem witness_DensityCommandsComplete :
    (InRun (on dens127) ∧ dens127.takes 127 6 0 1 = true ∧ dens127.densRunning 127 = false ∧ dens127.boundXfrm 127 0 = some 126 ∧ dens127.densCheck 127 = 0 ∧ dens127.fedAll = true ∧ dens127.knob 127 0xC < 1024 ∧
      dens127.secState 126 = 2) ∧
    (dens127.setKnob 127 0x18 100).densCheck 127 = 6 ∧
    (let d := densOn none []; InRun (on d) ∧ d.takes 127 6 0 1 = true ∧ d.takes 127 6 0 2 = true ∧ d.densRunning 127 = true ∧ d.fedAll = true) ∧
    dens127.takes 127 6 0 2 = true ∧ base.activeKind 127 6 = false ∧
    (let d := densOn none []; d.activeKind 127 6 = true ∧ d.runs.get? 127 = some aRun ∧ (d.dens 127).closing = none ∧ (d.dens 127).xfrm = 126 ∧ (d.xfrm 126).input < 8 ∧
      (0 < (d.dens 127).frames ∧ d.frameCause 126 ((d.dens 127).f0 + aRun.next * (d.dens 127).frames + 0) = 0) ∧
      (d.usedFrames 126 ((d.dens 127).f0 + aRun.next * (d.dens 127).frames) (d.dens 127).frames (List.replicate 64 2047)).map (·.length) = some 1) ∧
    (let d := densOn none [⟨0, 1, 6⟩]; (d.dens 127).closing = none ∧ (List.range (d.dens 127).frames).all (fun k => d.frameCause 126 ((d.dens 127).f0 + aRun.next * (d.dens 127).frames + k) != 0) = true) ∧
    (∀ n ∈ [0, 1], let d := densOn (some (closed n)) []; d.activeKind 127 6 = true ∧ (d.dens 127).closing = some (closed n) ∧ (d.denses.get? 127).isSome = true ∧ d.runs.get? 127 = some aRun ∧ aRun.losses = []) := by
  unfold InRun; decide +kernel
theorem witness_DensityCommandsComplete_ring (c : Option DensFrame) (g : List Loss) : (densOn c g).runRing 127 := by
  intro u r h e
  have : u = aRun := by
    have h' : (densOn c g).runs.get? 127 = some aRun := rfl
    rw [h'] at h; exact (Option.some.inj h).symm
  subst this; cases e
/-- Scan-out in a state, a sink there. -/
def scan (st : Nat) : Dev := (base.wr F.VID_STATUS_STATE st).wr F.VID_STATUS_HPD 1
/-- It in its second frame. -/
def frame2 : Dev := { scan 2 with vid := { base.vid with start := some (0, 1) } }
/-- No layer follows a ring. -/
def plain (d : Dev) : Bool := (List.range 4).all (fun l => (d.layer l).follows == none)
theorem witness_DisplayCommandsComplete_link :
    (InRun (on (scan 1)) ∧ (scan 1).vidState = 1) ∧ base.rd F.VID_STATUS_HPD = 0 ∧ (InRun (on (scan 0)) ∧ (scan 0).vidState = 0 ∧ (scan 0).rd F.VID_STATUS_HPD = 1) ∧
    (let d := ((scan 0).wr F.VID_PCLK_KHZ 100).wr F.VID_LINK_LANES 3; d.rd F.VID_LINK_LANES = 3 ∧ 0 * vidRate (d.rd F.VID_LINK_RATE) * 8000 < d.rd F.VID_PCLK_KHZ * 240) ∧
    (let d := ((scan 0).wr F.VID_PCLK_KHZ 100).wr F.VID_LINK_LANES 4; d.rd F.VID_LINK_LANES = 4 ∧ d.rd F.VID_PCLK_KHZ * 240 ≤ 4 * vidRate (d.rd F.VID_LINK_RATE) * 8000) ∧
    (InRun (on frame2) ∧ plain frame2 = true) ∧ (frame2.vidState = 2 ∧ frame2.rd F.VID_STATUS_HPD ≠ 0) ∧
    (frame2.vid.start = some (0, 1) ∧ frame2.rd F.VID_V_TOTAL ≤ frame2.rd F.VID_LINE_MATCH_LINE ∧ (let d := frame2.wr F.VID_V_TOTAL 8191; d.rd F.VID_LINE_MATCH_LINE < d.rd F.VID_V_TOTAL)) ∧
    ((scan 2).vidState = 2 ∧ (scan 2).vid.start = none ∧ (List.range 8).all (fun n => bits ((frame2.vid.proofs.getD n []).getD 0 0).toNat 0 1 == 0) = true) := by unfold InRun; decide +kernel
theorem witness_DisplayCommandsComplete_pictures :
    (let d := { frame2 with vid := { frame2.vid with layers := Tab.empty.put 3 { frame2.layer 3 with flipClk := some 0 } }, clk := 9 }; (d.layer 3).flipClk = some 0 ∧ 0 < d.clk) ∧
    (let p : List Word := [1, 0, 0x10001, 0]; let d := { (frame2.wr F.VID_H_ACTIVE 1).wr F.VID_V_ACTIVE 1 with vid := { frame2.vid with proofs := [p] } }; d.vidState = 2 ∧ d.vid.start ≠ none ∧ d.vid.proofs = [p] ∧ (1 : Word).field 0 1 = 1 ∧
      (0 : Word).field 0 13 + (0x10001 : Word).field 0 13 ≤ d.rd F.VID_H_ACTIVE ∧ (0 : Word).field 16 13 + (0x10001 : Word).field 16 13 ≤ d.rd F.VID_V_ACTIVE ∧ d.rectBytes 0 0 1 1 = some [0, 0, 0] ∧
      (3 : Word).field 0 1 = 1 ∧ (3 : Word).field 1 1 = 1 ∧ crc32 [0, 0, 0] ≠ (0 : Word).toNat) ∧
    (let d := { frame2 with vid := { frame2.vid with layers := Tab.empty.put 3 { frame2.layer 3 with words := 1 :: List.replicate 8 0 } } }; (d.layer 3).on = true ∧ 3 ∉ d.vid.skip ∧ (frame2.layer 3).on = false) ∧
    (InRun (on base) ∧ base.rd F.VID_LAYER_CFG_FOLLOW 3 = 0 ∧ base.rd F.VID_LAYER_BASE_BASE 3 + base.rd F.VID_LAYER_BASE_BASE 3 1 * 2 ^ 32 = 0 ∧ 0 / 2 ^ 58 ≠ 4) ∧
    (let d := base.wr F.VID_LAYER_BASE_BASE 0x10000000 3 1; let b := 2 ^ 60; d.rd F.VID_LAYER_BASE_BASE 3 + d.rd F.VID_LAYER_BASE_BASE 3 1 * 2 ^ 32 = b ∧ b / 2 ^ 58 = 4 ∧ b / 2 ^ 40 % 256 = 0) ∧
    ((base.wr F.VID_LAYER_CFG_FOLLOW 1 3).rd F.VID_LAYER_CFG_FOLLOW 3 = 1 ∧ (base.wr F.VID_LAYER_NEVER_PENDING 1 3).rd F.VID_LAYER_NEVER_PENDING 3 = 1) ∧
    (base.rd F.VID_AUX_CMD_GO = 0 ∧ (base.wr F.VID_AUX_CMD_GO 1).rd F.VID_AUX_CMD_GO = 1 ∧ (0x84000000 : Word).field 24 3 = 4 ∧ (0x83000000 : Word).getLsbD 31 = true ∧ (0x83000000 : Word).field 24 3 < 4 ∧ (0 : Word).getLsbD 31 = false) ∧
    (let d := ((base.wr F.VID_AUX_CMD_GO 1).wr F.VID_AUX_CMD_OP 1).wr F.VID_AUX_CMD_LEN 15; d.rd F.VID_AUX_CMD_OP % 2 = 1 ∧ (List.replicate 16 (7 : Byte)).length = d.rd F.VID_AUX_CMD_LEN + 1) ∧ base.rd F.VID_AUX_CMD_OP % 2 = 0 := by unfold InRun; decide +kernel
/-- Group 39 with source 31 pending and enabled, for the host, MSI-X enabled. -/
def irq39 (m : Bool) : Dev := { (set (set base (F.IRQ_PENDING_PENDING.at_ 39 0) 0x80000000) (F.IRQ_ENABLE_ENABLE.at_ 39 0) 0x80000000) with irq := { base.irq with msixEnable := true, functionMask := m } }
theorem witness_InterruptCommandsComplete :
    InRun (on (irq39 false)) ∧ (let d := irq39 false; d.reg (F.IRQ_PENDING_PENDING.at_ 39 0) &&& (1 : Word) = 0 ∧ d.reg (F.IRQ_PENDING_PENDING.at_ 39 0) &&& (0x80000000 : Word) ≠ 0 ∧ d.rd F.IRQ_TARGET_OUTSTANDING 39 = 0 ∧
      d.mayDeliver 39 d.clk = true ∧ d.mayDeliver 39 (max d.clk (d.irq.holdEnd.getD 39 0)) = true ∧ d.reg (F.IRQ_PENDING_PENDING.at_ 39 0) &&& d.reg (F.IRQ_ENABLE_ENABLE.at_ 39 0) ≠ 0) ∧
    ((irq39 false).wr F.IRQ_TARGET_OUTSTANDING 1 39).rd F.IRQ_TARGET_OUTSTANDING 39 = 1 ∧ base.mayDeliver 39 0 = false ∧
    (let d := irq39 false; let p := (d.reg (F.IRQ_PENDING_PENDING.at_ 39 0) &&& ~~~(d.reg (F.IRQ_LEVEL_LEVEL.at_ 39 0))) ||| (d.reg (F.IRQ_RAW_RAW.at_ 39 0) &&& d.reg (F.IRQ_LEVEL_LEVEL.at_ 39 0));
      p &&& d.reg (F.IRQ_ENABLE_ENABLE.at_ 39 0) ≠ 0 ∧ p &&& base.reg (F.IRQ_ENABLE_ENABLE.at_ 39 0) = 0) ∧
    (let d := { irq39 false with irq := { (irq39 false).irq with pba := Tab.empty.put 39 () } }; (d.irq.pba.get? 39).isSome = true ∧ d.irq.functionMask = false) ∧
    ((irq39 true).irq.functionMask = true ∧ (irq39 true).irq.pba.get? 39 = none) := by unfold InRun; decide +kernel
/-- The converter in entry 15 (input 15, gain 8, CHECK), its limits 1 to 4094, begun at clock 7. -/
def hka15 : Dev := { base.wr F.HKA_CTRL_LEN 15 with hka := ⟨some (15, 0xB70F, 0x0FFE0001, 7), [3], []⟩ }
theorem witness_HousekeepingCommandsComplete :
    ((0 : Word).field 8 1 = 0 ∧ base.rd F.HKA_RESULT_VALID = 0 ∧ (1 : Word).field 0 1 = 1 ∧ base.rd F.HKA_CTRL_EN = 0 ∧ base.hka.entry = none) ∧ (hka15.rd F.HKA_CTRL_EN = 0 ∧ hka15.hka.entry ≠ none) ∧
    ((base.wr F.HKA_CTRL_EN 1).rd F.HKA_CTRL_EN = 1) ∧
    (hka15.hka.entry = some (15, 0xB70F, 0x0FFE0001, 7) ∧ 15 < 16 ∧ hka15.hka.outside.Nodup ∧ 3 ≤ (0xB70F : Word).field 0 6 ∧ (0xB70F : Word).field 0 6 ≤ 15 ∧ (0xB70F : Word).field 15 1 = 1 ∧ hka15.rd F.HKA_CTRL_PACE_EN = 0) ∧
    (let r := min 4095 ((4095 : BitVec 12).toNat * 2 ^ (0xB70F : Word).field 12 2); r = 4095 ∧ (0x0FFE0001 : Word).field 16 12 < r ∧ 15 ∉ hka15.hka.outside ∧ ¬ 15 < hka15.rd F.HKA_CTRL_LEN) ∧
    ((hka15.wr F.HKA_RESULT_VALID 1).rd F.HKA_RESULT_VALID = 1 ∧ (base.rd F.IRQ_RAW_RAW 37).testBit 0 = false) ∧
    (let d := ((hka15.wr F.HKA_CTRL_PACE_EN 1).wr F.HKA_CTRL_PACE_MOVER 63).wr F.MOV_STATUS_STATE 1 63; let e := { d with hostMem := (d.hostMem.storeBytes 0x20 (leBytes 8 hkaResultAddr)).storeBytes 0x28 (leBytes 4 16) };
      e.rd F.HKA_CTRL_PACE_EN = 1 ∧ e.rd F.HKA_CTRL_PACE_MOVER = 63 ∧ e.movState 63 = 1 ∧ e.rd F.MOV_OWNER_STR 63 = 0 ∧ e.hka.paced.length < (e.descAt (e.movCur 63)).results) ∧ InRun (on base) := by unfold InRun; decide +kernel
theorem witness_HousekeepingCommandsComplete_read : base.reg 0x38008 = base.reg0 0x38008 ∧ (base.wr F.HKA_RESULT_VALID 1).reg 0x38008 ≠ (base.wr F.HKA_RESULT_VALID 1).reg0 0x38008 ∧
    (let d := { (base.wr F.HKA_RESULT_VALID 1).wr F.HKA_RESULT_VALUE 7 with regs0 := (base.wr F.HKA_RESULT_VALID 1).regs }; d.reg 0x38008 ≠ d.reg0 0x38008 ∧ (d.reg0 0x38008).field F.HKA_RESULT_VALID.lo 1 = 1) := by decide +kernel
/-! ## Power, the repair map, security -/

/-- The supplies as given, in a power state. -/
def pow (st : Nat) (f : Power → Power) : Dev := { base.wr F.SYS_STATUS_PSTATE st with power := f base.power }
/-- Both supplies valid, nothing in force. -/
def fine (p : Power) : Power := { p with v33 := true, v12 := true, standbyCmd := false, tripWait := false, startWait := false }
/-- The start-up sequence before step k. -/
def step_ (k : Nat) : Dev := pow 1 (fun p => { fine p with step := k })
/-- Copies of the repair map in the store. -/
def copies (a b c : List Byte) : Dev := { step_ 2 with nvs := (((step_ 2).nvs.storeBytes 0 a).storeBytes 0x4000 b).storeBytes 0x8000 c }
theorem witness_SupplyAndStartUpCommandsComplete_supplies :
    base.retainedOk ∧ base.pstate ≠ 0 ∧ (pow 0 fine).pstate = 0 ∧ (pow 0 fine).power.v33 = true ∧ (pow 0 fine).power.standbyCmd = false ∧ (pow 0 fine).power.tripWait = false ∧
    (pow 0 (fun p => { fine p with tripWait := true })).power.tripWait = true ∧ (pow 0 (fun p => { fine p with v12 := false })).power.v12 = false ∧ (pow 0 (fun p => { fine p with v33 := false })).power.v33 = false ∧
    (pow 0 (fun p => { fine p with standbyCmd := true })).power.standbyCmd = true ∧
    (let d := pow 0 (fun p => { fine p with tripWait := true, startWait := true }); d.power.startWait = true ∧ d.power.v12 = true ∧ d.power.v33 = true ∧ (⟨1360, 0⟩ : PowerReading).temp ≤ 1360 ∧ 1360 < (⟨1361, 0⟩ : PowerReading).temp) ∧
    (let d := { pow 2 fine with nvsBusy := [(0xFFFFFC, [1, 2, 3, 4])] }; d.power.v33 = true ∧ d.nvsBusy = [(0xFFFFFC, [1, 2, 3, 4])] ∧ ([1, 2, 3, 4] : List Byte).length % 4 = 0) ∧ (pow 2 fine).nvsBusy = [] := by
  unfold Dev.retainedOk; decide +kernel
theorem witness_SupplyAndStartUpCommandsComplete_steps :
    base.pstate ≠ 1 ∧ ((step_ 3).pstate = 1 ∧ (step_ 3).power.step = 3 ∧ (step_ 3).rd F.CLK_STATUS_ALIGNED = 0) ∧ ((step_ 6).power.step = 6 ∧ (step_ 6).rd F.CAL_STATUS_POWERUP_DONE = 0) ∧
    ((List.range 7).all (fun k => (step_ k).pstate == 1 && (step_ k).power.step == k) = true) ∧ ((step_ 3).wr F.CLK_STATUS_ALIGNED 1).rd F.CLK_STATUS_ALIGNED = 1 ∧ ((step_ 6).wr F.CAL_STATUS_POWERUP_DONE 1).rd F.CAL_STATUS_POWERUP_DONE = 1 ∧
    (let r : StartupResult := ⟨5000, List.replicate 67 0xFFFFFFFF ++ [0], [], []⟩; r.clocks / 1000 < 2 ^ 32 ∧ r.trainFail = [67] ∧ r.rows = [] ∧ r.units = []) ∧
    (let c := repairCopy [rprEntry 2 2 67] 5; let d := copies c c c; d.readCopy 0 = some ([rprEntry 2 2 67], 5) ∧ d.readCopy 0x4000 = d.readCopy 0 ∧ d.readCopy 0x8000 = d.readCopy 0) ∧
    (let d := copies [9] [9] [9]; d.readCopy 0 = none ∧ d.readCopy 0x4000 = none ∧ d.readCopy 0x8000 = none) ∧
    (let d := copies (repairCopy [] 5) (repairCopy [] 6) (repairCopy [] 5); d.readCopy 0 = some ([], 5) ∧ d.readCopy 0x4000 = some ([], 6) ∧ (d.readCopy 0x8000).isSome = true) ∧
    (let d := copies (repairCopy [] 5) [9] (repairCopy [] 5); (d.readCopy 0).isSome = true ∧ d.readCopy 0x4000 = none) := by decide +kernel
theorem witness_SupplyAndStartUpCommandsComplete_last :
    (let d := { step_ 6 with cal := { base.cal with job := some { job [] with cause := 0 } } }; d.power.step = 6 ∧ d.rd F.CAL_STATUS_POWERUP_DONE = 0 ∧ d.cal.job.map (·.cause) = some 0) ∧
    ((step_ 6).power.step = 6 ∧ (step_ 6).cal.job = none ∧ (step_ 6).cal.archive = []) ∧
    (let r : StartupResult := ⟨5000, List.replicate 67 0xFFFFFFFF ++ [0], [], []⟩; r.trainFail = [67] ∧ r.eyes[67]? = some 0 ∧ (step_ 4).retiredChannels = [] ∧ (⟨5000, List.replicate 68 0xFFFFFFFF, [], []⟩ : StartupResult).trainFail = []) := by decide +kernel
/-- A reef stage in force, section 0 ACTIVE or nothing placed. -/
def reef (n : Nat) (s : Bool) : Dev := (if s then act base 0 1 128 else base).wr F.PWR_STATUS_REEF n
theorem witness_PowerAndReefCommandsComplete :
    (pow 0 fine).pstate = 0 ∧ (pow 3 fine).pstate = 3 ∧ (step_ 0).pstate = 1 ∧ (base.pstate = 2 ∧ base.quiet = true ∧ fed.quiet = false ∧ base.rd F.VID_STATUS_STATE = 0 ∧ (scan 1).rd F.VID_STATUS_STATE ≠ 0) ∧
    ((List.range 4).all (fun n => (reef n false).reefStage == n && (reef n false).pstate == 2) = true) ∧ (reef 1 false).shedOrder 1 = [] ∧ ((reef 2 true).shedOrder 2).head? = some 0 ∧ (reef 1 false).power.byCurrent = false ∧
    (reef 1 false).power.limit = 1600 ∧ ((reef 2 true).secState 0 = 2 ∧ (reef 2 true).kind 0 ≠ 4) ∧
    (base.cal.job = none ∧ base.cal.suspended = [] ∧ base.cal.archive = [] ∧ base.cal.queue = [] ∧ base.cues.armed = Tab.empty ∧ base.governing = none) ∧
    ((⟨1600, 23000⟩ : PowerReading).temp ≤ 1600 ∧ (25000 : Nat) ≤ (⟨1599, 25000⟩ : PowerReading).ma ∧ (1728 : Int) ≤ (⟨1728, 0⟩ : PowerReading).temp ∧ (1840 : Int) ≤ (⟨1840, 0⟩ : PowerReading).temp ∧ 28500 < (⟨0, 28501⟩ : PowerReading).ma ∧
      (⟨1520, 23000⟩ : PowerReading).temp ≤ 1520) := by decide +kernel
theorem witness_PowerAndReefCommandsComplete_halt : base.plainHalt ∧ ((reef 2 true).plainHalt ∧ (reef 2 false).shedOrder 2 = []) ∧ ¬ ((1600 : Int) < (⟨1600, 23000⟩ : PowerReading).temp) ∧
    (⟨1648, 23000⟩ : PowerReading).temp ≤ 1648 ∧ (1600 : Int) ≤ (⟨1648, 23000⟩ : PowerReading).temp ∧ (1521 : Int) ≤ (⟨1521, 23000⟩ : PowerReading).temp := by
  have h : base.governing = none ∧ (reef 2 true).governing = none := by decide +kernel
  unfold Dev.plainHalt
  refine ⟨⟨rfl, rfl, rfl, rfl, rfl, fun im e => ?_⟩, ⟨⟨rfl, rfl, rfl, rfl, rfl, fun im e => ?_⟩, by decide +kernel⟩, by decide, by decide, by decide, by decide⟩
  · rw [h.1] at e; cases e
  · rw [h.2] at e; cases e
/-- The engine with entries of the repair map, read. -/
def repaired (fuses field : List Nat) (w : Bool) : Dev := { (base.wr F.RPR_STATUS_DONE 1).wr F.RPR_ENTRY_ENTRY 5 0 with repair := { base.repair with fuses := fuses, field := field, rewriting := w } }
/-- The security state x. -/
def secured (x : Security → Security) : Dev := { base with sec := x base.sec }
theorem witness_StoreAndSecurityCommandsComplete :
    (pow 0 fine).pstate = 0 ∧ (base.pstate ≠ 0 ∧ (List.replicate 32 (-200 : Int)).length = 32 ∧ base.rd F.PWR_AGE_WARN 31 = 0) ∧ base.nvsBusy = [] ∧
    ({ base with nvsBusy := [(0xFFFFFC, [1, 2, 3, 4]), (0, [])] }.nvsBusy = (0xFFFFFC, [1, 2, 3, 4]) :: [(0, [])]) ∧ base.rd F.RPR_STATUS_DONE = 0 ∧
    (let d := (repaired [] [] true).wake; d.rd F.RPR_STATUS_DONE = 1 ∧ d.repair.rewriting = true) ∧ (let d := (repaired [5] [] false).wake; d.repair.rewriting = false ∧ ∃ a ∈ d.repair.fuses, rprSame 5 a = true) ∧
    (let d := (repaired [2 ^ 40] [2 ^ 41] false).wake; (∀ a ∈ d.repair.fuses, rprSame 5 a = false) ∧ ∀ a ∈ d.repair.field, rprSame 5 a = false) ∧
    (let d := (repaired [] [2 ^ 41, 5] false).wake; d.rd F.RPR_ENTRY_ENTRY 0 + d.rd F.RPR_ENTRY_ENTRY 1 * 2 ^ 32 = 5 ∧ (∃ a ∈ d.repair.field, rprSame 5 a = true) ∧ d.repair.field.length ≤ 1535) ∧
    (base.rd F.NVS_PAGE_PAGE * 0x4000 + 4 * 4095 < 0x1000000 ∧ (let d := base.wr F.NVS_PAGE_PAGE 0x400; 0x1000000 ≤ d.rd F.NVS_PAGE_PAGE * 0x4000 + 4 * 0)) ∧
    (base.sec.owned = false ∧ base.sec.owners = Tab.empty ∧ (secured (fun x => { x with owned := true })).sec.owned = true ∧ (secured (fun x => { x with owners := Tab.empty.put 3 [] })).sec.owners ≠ Tab.empty) ∧
    signatureForm (sub (base.wake.secBytes F.SEC_AUTH_BLOCK 128) 0x80 256) = false := by decide +kernel

/-! ## Rules that hold of every command -/

theorem witness_EveryStepKeepsPowerAndSecurity : ∃ t, State.reset.dev.Inv ∧ step { State.reset with pending := [.narrowWrite 8] } = .next t := by
  refine ⟨_, ?_, rfl⟩
  unfold Dev.Inv Dev.retainedOk; decide +kernel
theorem witness_NarrowWritesAreDiscardedAndCounted :
    base.pstate ≠ 0 ∧ (State.reset.dev.pstate = 1 ∧ servedEarly 8 = true ∧ servedEarly 0x3FFFFFF = false) ∧ (pow 0 fine).pstate = 0 ∧ base.rd F.SYS_ACCESS_ADDR_VALID = 0 ∧
    (base.wr F.SYS_ACCESS_ADDR_VALID 1).rd F.SYS_ACCESS_ADDR_VALID = 1 := by decide +kernel
theorem witness_ProfileWindowWritesFollowTheProfileState :
    (∀ st ∈ [0, 1, 2, 3, 4], (loIn st).pstate ≠ 0 ∧ (loIn st).wake.loState 3 = st) ∧ (BitVec.ofNat 26 (F.CLK_LO_PROFILE_WORD.at_ 3 2047)).toNat = F.CLK_LO_PROFILE_WORD.at_ 3 2047 := by decide +kernel
/-- An authorization block of operation op for slot 0 (R480): counter 7, its digest, its public key and (r, s). -/
def authBlock (op dig x y r s : Nat) : List Byte :=
  leBytes 4 0x5541584C ++ leBytes 4 op ++ leBytes 8 7 ++ List.replicate 112 0 ++ leBytes 4 0x4753584C ++ leBytes 4 1 ++ beBytes 48 dig ++ [4] ++ beBytes 48 x ++ beBytes 48 y ++ beBytes 48 r ++ beBytes 48 s ++
    List.replicate 135 0
/-- It written, at an engine with these owner keys and this counter. -/
def authAt (b : List Byte) (owners : List (Nat × Nat)) (c : Nat) : Dev :=
  (List.range 128).foldl (fun d k => set d (F.SEC_AUTH_BLOCK.at_ k 0) (leNat ((b.drop (4 * k)).take 4))) { base with sec := { base.sec with owned := true, counter := c, owners := owners.foldl (fun t p => t.put p.1 (beBytes 48 p.2)) Tab.empty } }
/-- A block of operation 1 that its key signs (made outside the package, by the formulas of P-384). -/
def auth1 : List Byte :=
  authBlock 1 0x749b2affc2a0e267cfbb8c096cd3a91fc7d15b00761369be2bf10ad69c694a9c65cd334db1152981a26e91f6a51a1b3e
    0xee35a326e38536b6eed756082446f9fa8810321471af28e18ec77f0623907260d30e453f9dc8aa648626471ac03fb0e9
    0xf9ba580ea3785ba0cd016b1b0328ce707a2a7be813a541550f2d066b4625341c12f5f739978ae7dd0d9c300ce7c8348c
    0x749b2affc2a0e267cfbb8c096cd3a91fc7d15b00761369be2bf10ad69c694a9c65cd334db1152981a26e91f6a51a1b3e
    0x749b2affc2a0e267cfbb8c096cd3a91fc7d15b00761369be2bf10ad69c694a9c65cd334db1152981a26e91f6a51a1b3e
/-- The hash of its key. -/
def key1 : Nat := 0x6a8711651c88f612e8f1e3df1eff005b70fe9d569788abcd43e5b79afdde649010a117b6293f9e629faf6987403f453
/-- A block of operation 2 that its key signs (made outside the package, by the formulas of P-384). -/
def auth2 : List Byte :=
  authBlock 2 0xe7450eeb1f5b741e066e1de004c81681e2138ce551cbf6e1d2238b09a974a65328de33e026e9c8201c257afa423cff2d
    0x717a4f90e99e86bcaaf2b29aa58b82ecaa9890ab70c1389d155ca0f1105e4da55b8a03a322c8b5550319b37556c13afe
    0x55a373611296fcff426dc13abd7a719675087180201b404f381cdcbfedb6fb2f9bfe1ef4a206bc2cb475b5a774344639
    0xe7450eeb1f5b741e066e1de004c81681e2138ce551cbf6e1d2238b09a974a65328de33e026e9c8201c257afa423cff2d
    0xe7450eeb1f5b741e066e1de004c81681e2138ce551cbf6e1d2238b09a974a65328de33e026e9c8201c257afa423cff2d
/-- The hash of its key. -/
def key2 : Nat := 0x5756cb93c5efd74752e5ed42d574d269147ad6e3ce34fdc0786827412ba5708b9a4c4d14ac8ff66ef8497cb72696dcbd
/-- A block of operation 3 that its key signs (made outside the package, by the formulas of P-384). -/
def auth3 : List Byte :=
  authBlock 3 0xa53fc56bb45d79afbedcce13a23564ecfc02f7061b59b7747a0e96b67ff77449dbf0c970f4e8d240104dc1031ac5d821
    0x128acf807dcb43a36a7e18c430b03afecbd75cbc0e2256559ee67a4e4429ba5930a1f65ecc700d98376412dab9808600
    0x9cb3210065f1fca5cdcbd3be6274c5809d5630323c4d82522b2e32014fa5878bf617585bd056ced9ef1758e3eb65f684
    0xefbf50431d186d0f3c966a3ae6a02ec6f408e512520d265da6c876a18baf2efe3bb84ea09609cf4543fd299e838c5ef0
    0xa53fc56bb45d79afbedcce13a23564ecfc02f7061b59b7747a0e96b67ff77449dbf0c970f4e8d240104dc1031ac5d821
/-- The hash of its key. -/
def key3 : Nat := 0xc36f83914ee3897708e39feec6718f4d452621ec099bfe391c9bd98f7dc55bd7410531a65c4e43fda1067a16c26d835a
theorem witness_StoreAndSecurityCommandsComplete_authEnrols : let d := (authAt auth1 [(3, key1)] 6).wake; d.secBytes F.SEC_AUTH_BLOCK 128 = auth1 ∧ d.authSigned auth1 ∧ d.sec.counter < u auth1 8 8 ∧ d.authFields auth1 ∧ ¬ d.authLastKey auth1 ∧ u auth1 4 1 = 1 := by
  unfold Dev.authSigned Dev.authFields Dev.authLastKey; decide +kernel
theorem witness_StoreAndSecurityCommandsComplete_authKeepsTheLastKey : let d := (authAt auth2 [(0, key2)] 6).wake; d.secBytes F.SEC_AUTH_BLOCK 128 = auth2 ∧ d.authSigned auth2 ∧ d.sec.counter < u auth2 8 8 ∧ d.authFields auth2 ∧ d.authLastKey auth2 := by
  unfold Dev.authSigned Dev.authFields Dev.authLastKey; decide +kernel
theorem witness_StoreAndSecurityCommandsComplete_authRevokes : let d := (authAt auth2 [(0, key2), (3, 0)] 6).wake; d.authSigned auth2 ∧ d.authFields auth2 ∧ ¬ d.authLastKey auth2 ∧ u auth2 4 1 = 2 := by
  unfold Dev.authSigned Dev.authFields Dev.authLastKey; decide +kernel
theorem witness_StoreAndSecurityCommandsComplete_authSetsThePolicy : let d := (authAt auth3 [(0, key3)] 6).wake; d.authSigned auth3 ∧ d.sec.counter < u auth3 8 8 ∧ d.authFields auth3 ∧ ¬ d.authLastKey auth3 ∧ u auth3 4 1 = 3 := by
  unfold Dev.authSigned Dev.authFields Dev.authLastKey; decide +kernel
/-- The same block under another counter, and on a unit of another serial number. -/
theorem witness_StoreAndSecurityCommandsComplete_authRefuses : (∀ d : Dev, d.sec.owners = (authAt auth3 [(0, key3)] 6).wake.sec.owners → d.authSigned auth3) ∧ u auth3 8 8 ≤ (authAt auth3 [(0, key3)] 7).wake.sec.counter ∧
    ¬ (set (authAt auth3 [(0, key3)] 6) 0x18 1).wake.authFields auth3 := by
  refine ⟨fun d h => ?_, ?_, ?_⟩
  · have w := witness_StoreAndSecurityCommandsComplete_authSetsThePolicy.1
    unfold Dev.authSigned Dev.signer Dev.keySlot at *
    rw [h]; exact w
  · decide +kernel
  · unfold Dev.authFields; decide +kernel

end Sys2Proof.Tests
end

