-- ==== Sys2Proof/Proofs/AccessCodes.lean ====
section
/-! PROOFS. What a host write leaves of a register word by its fields' access codes (spec/00_scope.md, R5, R7, R8): settles O4. -/

namespace Sys2Proof

theorem Word.field_lt (w : Word) (lo len : Nat) : w.field lo len < 2 ^ len := bits_lt _ _ _

theorem Word.getLsbD_eq_testBit_field (w : Word) {lo len i : Nat} (h : i < len) : w.getLsbD (lo + i) = (w.field lo len).testBit i := by
  rw [Word.field, testBit_bits, BitVec.testBit_toNat]; simp [h]

/-- Fields agree where their bits do. -/
theorem Word.field_eq_of_getLsbD {w w' : Word} {lo len : Nat} (h : ∀ b, lo ≤ b → b < lo + len → w.getLsbD b = w'.getLsbD b) :
    w.field lo len = w'.field lo len := by
  apply Nat.eq_of_testBit_eq
  intro i
  by_cases hi : i < len
  · rw [← Word.getLsbD_eq_testBit_field w hi, ← Word.getLsbD_eq_testBit_field w' hi]
    exact h _ (by omega) (by omega)
  · simp [Word.field, testBit_bits, hi]

/-- Storing in a field what it holds changes nothing. -/
theorem Word.setField_field_self (w : Word) (lo len : Nat) (h : lo + len ≤ 32) : w.setField lo len (w.field lo len) = w := by
  apply BitVec.eq_of_getLsbD_eq
  intro b _
  rw [Word.getLsbD_setField _ _ _ _ _ h]
  split
  · rename_i hb
    rw [← Word.getLsbD_eq_testBit_field w (by omega : b - lo < len), Nat.add_sub_cancel' hb.1]
  · rfl

namespace Machine

/-- What a write leaves of a field fits in the field. -/
theorem written_lt (acc : Access) {o v n : Nat} (fresh : Nat) (ho : o < 2 ^ n) (hv : v < 2 ^ n) : written acc o v fresh < 2 ^ n := by
  cases acc with
  | rw => exact hv
  | w1s => exact Nat.or_lt_two_pow ho hv
  | w1c =>
    have hand : o &&& v &&& fresh ≤ o := Nat.and_le_left.trans Nat.and_le_left
    exact Nat.or_lt_two_pow ((Nat.sub_le _ _).trans_lt ho) (hand.trans_lt ho)
  | ro | wo | rc => exact ho

/-- The word with one field merged by its access code. -/
def FieldRow.merged (f : FieldRow) (old new fresh : Word) : Word :=
  old.setField f.lo (f.hi - f.lo + 1)
    (written f.acc (old.field f.lo (f.hi - f.lo + 1)) (new.field f.lo (f.hi - f.lo + 1)) (fresh.field f.lo (f.hi - f.lo + 1)))

theorem mergeFields_cons {f : FieldRow} (hf : f.lo ≤ f.hi ∧ f.hi < 32) (old new fresh : Word) (t : List FieldRow) :
    mergeFields old new fresh (f :: t) = mergeFields (f.merged old new fresh) new fresh t := by
  have same := Word.setField_field_self old f.lo (f.hi - f.lo + 1) (by omega)
  unfold FieldRow.merged
  rw [mergeFields]
  cases f.acc with
  | rw | w1s | w1c => rfl
  | ro | wo | rc => simp only [written, same]

theorem FieldRow.field_merged {f : FieldRow} (hf : f.lo ≤ f.hi ∧ f.hi < 32) (old new fresh : Word) :
    (f.merged old new fresh).field f.lo (f.hi - f.lo + 1) =
      written f.acc (old.field f.lo (f.hi - f.lo + 1)) (new.field f.lo (f.hi - f.lo + 1)) (fresh.field f.lo (f.hi - f.lo + 1)) := by
  unfold FieldRow.merged
  rw [Word.field_setField_same _ _ _ _ (by omega), Nat.mod_eq_of_lt (written_lt _ _ (Word.field_lt ..) (Word.field_lt ..))]

theorem FieldRow.getLsbD_merged {f : FieldRow} (hf : f.lo ≤ f.hi ∧ f.hi < 32) (old new fresh : Word) {b : Nat} (hb : b < f.lo ∨ f.hi < b) :
    (f.merged old new fresh).getLsbD b = old.getLsbD b := by
  unfold FieldRow.merged
  rw [Word.getLsbD_setField _ _ _ _ _ (by omega), if_neg (by omega)]

/-- Bits outside every field ignore a write (R5). -/
theorem getLsbD_mergeFields_outside (new fresh : Word) {b : Nat} : ∀ (fs : List FieldRow) (old : Word), (∀ f ∈ fs, f.lo ≤ f.hi ∧ f.hi < 32) →
    (∀ f ∈ fs, b < f.lo ∨ f.hi < b) → (mergeFields old new fresh fs).getLsbD b = old.getLsbD b
  | [], _, _, _ => rfl
  | f :: t, old, hfit, hout => by
    simp only [List.forall_mem_cons] at hfit hout
    rw [mergeFields_cons hfit.1, getLsbD_mergeFields_outside new fresh t _ hfit.2 hout.2, FieldRow.getLsbD_merged hfit.1 _ _ _ hout.1]

/-- A write of fields that lie beside a field leaves it alone. -/
theorem field_mergeFields_apart {fs : List FieldRow} {f : FieldRow} (old new fresh : Word) (hfit : ∀ g ∈ fs, g.lo ≤ g.hi ∧ g.hi < 32)
    (hf : f.lo ≤ f.hi) (hd : ∀ g ∈ fs, f.hi < g.lo ∨ g.hi < f.lo) :
    (mergeFields old new fresh fs).field f.lo (f.hi - f.lo + 1) = old.field f.lo (f.hi - f.lo + 1) := by
  apply Word.field_eq_of_getLsbD
  intro b h1 h2
  refine getLsbD_mergeFields_outside new fresh fs old hfit fun g hg => ?_
  have apart := hd g hg
  omega

/-- What a write leaves of each field is what its access code says (R7, R8). -/
theorem field_mergeFields (new fresh : Word) : ∀ (fs : List FieldRow) (old : Word), (∀ f ∈ fs, f.lo ≤ f.hi ∧ f.hi < 32) →
    fs.Pairwise (fun f g => f.hi < g.lo ∨ g.hi < f.lo) → ∀ f ∈ fs, (mergeFields old new fresh fs).field f.lo (f.hi - f.lo + 1) =
      written f.acc (old.field f.lo (f.hi - f.lo + 1)) (new.field f.lo (f.hi - f.lo + 1)) (fresh.field f.lo (f.hi - f.lo + 1))
  | [], _, _, _, f, hf => absurd hf List.not_mem_nil
  | g :: t, old, hfit, hd, f, hf => by
    simp only [List.forall_mem_cons] at hfit
    obtain ⟨hg, ht⟩ := List.pairwise_cons.1 hd
    rw [mergeFields_cons hfit.1]
    rcases List.mem_cons.1 hf with rfl | hf
    · rw [field_mergeFields_apart _ _ _ hfit.2 hfit.1.1 hg, FieldRow.field_merged hfit.1]
    · have hother : (g.merged old new fresh).field f.lo (f.hi - f.lo + 1) = old.field f.lo (f.hi - f.lo + 1) := by
        have apart := hg f hf
        have hle := (hfit.2 f hf).1
        exact Word.field_eq_of_getLsbD fun b h1 h2 => FieldRow.getLsbD_merged hfit.1 _ _ _ (by omega)
      rw [field_mergeFields new fresh t _ hfit.2 ht f hf, hother]

/-- The register table is well formed: the fields of every row lie in the word and do not overlap. -/
theorem regPieces_fields_apart : ∀ p ∈ regPieces, ∀ r ∈ p,
    (∀ f ∈ r.fields, f.lo ≤ f.hi ∧ f.hi < 32) ∧ r.fields.Pairwise (fun f g => f.hi < g.lo ∨ g.hi < f.lo) := by decide +kernel

/-- Settles O4: a scan of the table for the first part, induction on the fields for the second. -/
theorem aWriteFollowsTheAccessCodes : Obligations.AWriteFollowsTheAccessCodes :=
  ⟨regPieces_fields_apart, fun fs hfit hd old new fresh =>
    ⟨field_mergeFields new fresh fs old hfit hd, fun _ _ hb => getLsbD_mergeFields_outside new fresh fs old hfit hb⟩⟩

end Machine
end Sys2Proof
end

