-- ==== Sys2Proof/Proofs/HostReads.lean ====
section
/-! PROOFS. What a host read answers and leaves (spec/00_scope.md, R4–R8; R286, R458): settles O6. -/

namespace Sys2Proof

/-- The whole word as a field. -/
@[simp] theorem Word.field_whole (w : Word) : w.field 0 32 = w.toNat := by
  simpa [Word.field, bits] using Nat.mod_eq_of_lt w.isLt
@[simp] theorem Word.toNat_setField_whole (w : Word) (v : Nat) : (w.setField 0 32 v).toNat = v % 2 ^ 32 := by
  rw [← Word.field_whole, Word.field_setField_same _ _ _ _ (by omega)]

namespace Machine

/-! ## What a read changes -/

/-- As `Frame`, but for the answer that a read leaves. -/
def ReadFrame (w : List Nat) (d e : Dev) : Prop := Frame w d { e with readData := d.readData }

theorem ReadFrame.trans {w : List Nat} {a b c : Dev} (h1 : ReadFrame w a b) (h2 : ReadFrame w b c) : ReadFrame w a c := by
  obtain ⟨regs1, rest1⟩ := h1
  obtain ⟨regs2, rest2⟩ := h2
  refine ⟨fun o ho hi => (regs2 o ho hi).trans (regs1 o ho hi), ?_⟩
  unfold OnlyRegs at *
  rw [← rest2] at rest1
  exact rest1
theorem ReadFrame.mono {v w : List Nat} {a b : Dev} (h : ReadFrame v a b) (hs : ∀ o ∈ v, o ∈ w) : ReadFrame w a b := Frame.mono h hs
theorem ReadFrame.answer {w : List Nat} {a b : Dev} (h : ReadFrame w a b) (v : Nat) : ReadFrame w a (b.answer v) := h
theorem Frame.readFrame {w : List Nat} {a b : Dev} (h : Frame w a b) (hr : b.readData = a.readData) : ReadFrame w a b := by
  unfold ReadFrame; rw [← hr]; exact h
theorem ReadFrame.reg {w : List Nat} {d e : Dev} (h : ReadFrame w d e) {o : Nat} (ho : o ∉ w) (hi : irqReg o = false) : e.reg o = d.reg o :=
  h.1 o ho hi
theorem ReadFrame.pstate {w : List Nat} {d e : Dev} (h : ReadFrame w d e) (hw : 8 ∉ w) : e.pstate = d.pstate :=
  congrArg (Word.field · 8 3) (h.reg hw rfl)
/-- Storing one register word and what it held at the clock's start, then answering. -/
theorem ReadFrame.setReg (d : Dev) (o : Nat) (v z : Word) (x : Nat) : ReadFrame [o] d (((d.setReg o v).setReg0 o z).answer x) :=
  ⟨fun _ hj _ => Dev.reg_setReg_ne d v (List.ne_of_not_mem_cons hj), rfl⟩

/-! ## Words read by their access codes (R5, R7, R8) -/

/-- The fields follow one another from bit `lo` up to bit 31. -/
def tiles : Nat → List FieldRow → Bool
  | lo, [] => lo == 32
  | lo, f :: t => f.lo == lo && decide (lo ≤ f.hi) && tiles (f.hi + 1) t
/-- Fields that fill the word, none read-clear or write-only. -/
def keptFields (fs : List FieldRow) : Bool := tiles 0 fs && fs.all (fun f => f.acc != .rc && f.acc != .wo)
/-- One read-clear field that is the whole word. -/
def countFields : List FieldRow → Bool
  | [f] => f.lo == 0 && f.hi == 31 && f.acc == .rc
  | _ => false

/-- Fields that fill the word from bit `lo` up show what stands there. -/
theorem visible_tiles (w : Word) : ∀ (fs : List FieldRow) (lo : Nat), tiles lo fs = true → (∀ f ∈ fs, f.acc ≠ .wo) →
    w.toNat % 2 ^ lo + visible w fs = w.toNat
  | [], lo, h, _ => by
    obtain rfl : lo = 32 := by simpa [tiles] using h
    exact Nat.mod_eq_of_lt w.isLt
  | f :: t, lo, h, hwo => by
    simp only [tiles, Bool.and_eq_true, beq_iff_eq, decide_eq_true_eq] at h
    obtain ⟨⟨rfl, hle⟩, ht⟩ := h
    simp only [List.forall_mem_cons] at hwo
    have rest := visible_tiles w t _ ht hwo.2
    rw [show f.hi + 1 = f.lo + (f.hi - f.lo + 1) by omega, pow_add, Nat.mod_mul] at rest
    rw [visible, if_neg hwo.1, Word.field, bits, Nat.mul_comm (_ % _), ← Nat.add_assoc]
    exact rest

theorem readFields_of_no_rc (old began : Word) : ∀ fs : List FieldRow, (∀ f ∈ fs, f.acc ≠ .rc) → readFields old began fs = old
  | [], _ => rfl
  | f :: t, h => by
    simp only [List.forall_mem_cons] at h
    rw [readFields, if_neg h.1, readFields_of_no_rc old began t h.2]
theorem clearRead_of_no_rc (old began : Word) : ∀ fs : List FieldRow, (∀ f ∈ fs, f.acc ≠ .rc) → clearRead old began fs = old
  | [], _ => rfl
  | f :: t, h => by
    simp only [List.forall_mem_cons] at h
    rw [clearRead, if_neg h.1, clearRead_of_no_rc old began t h.2]
theorem zeroRead_of_no_rc (old : Word) : ∀ fs : List FieldRow, (∀ f ∈ fs, f.acc ≠ .rc) → zeroRead old fs = old
  | [], _ => rfl
  | f :: t, h => by
    simp only [List.forall_mem_cons] at h
    rw [zeroRead, if_neg h.1, zeroRead_of_no_rc old t h.2]

/-- A word without read-clear fields answers its value and stays. -/
theorem Dev.plainRead_kept (d : Dev) {off : Nat} {r : RegRow} (hr : rowOf off = some r) (h : keptFields r.fields = true) :
    d.plainRead off = ((d.setReg off (d.reg off)).setReg0 off (d.reg0 off)).answer (d.reg off).toNat := by
  simp only [keptFields, Bool.and_eq_true, List.all_eq_true, bne_iff_ne] at h
  obtain ⟨htiles, hacc⟩ := h
  have hrc : ∀ f ∈ r.fields, f.acc ≠ .rc := fun f hf => (hacc f hf).1
  have hvis := visible_tiles (d.reg off) _ 0 htiles fun f hf => (hacc f hf).2
  rw [pow_zero, Nat.mod_one, Nat.zero_add] at hvis
  unfold Dev.plainRead
  simp only [hr, readFields_of_no_rc _ _ _ hrc, clearRead_of_no_rc _ _ _ hrc, zeroRead_of_no_rc _ _ hrc, hvis]

/-- A read-clear word answers the value the clock began with and keeps what the clock added. -/
theorem Dev.plainRead_count (d : Dev) {off : Nat} {r : RegRow} (hr : rowOf off = some r) (h : countFields r.fields = true) :
    d.plainRead off = ((d.setReg off ((d.reg off).setField 0 32 ((d.reg off).toNat - (d.reg0 off).toNat))).setReg0 off
      ((d.reg0 off).setField 0 32 0)).answer (d.reg0 off).toNat := by
  unfold countFields at h
  split at h
  · rename_i f hf
    simp only [Bool.and_eq_true, beq_iff_eq] at h
    obtain ⟨⟨hlo, hhi⟩, hrc⟩ := h
    have hvis : (d.reg0 off).toNat % 4294967296 = (d.reg0 off).toNat := Nat.mod_eq_of_lt (d.reg0 off).isLt
    simp [Dev.plainRead, hr, hf, readFields, clearRead, zeroRead, visible, hlo, hhi, hrc, hvis]
  · exact absurd h Bool.false_ne_true

/-! ## Which offsets a read serves by the access codes alone -/

/-- An aligned offset in no window on memory: not the store's, not a core's, not a section's knobs. -/
def regOff (off : Nat) : Bool :=
  Nat.beq (off % 4) 0 && !(Nat.ble 0x2C000 off && Nat.blt off 0x30000) &&
    (Nat.blt off 0x400000 || (Nat.blt off 0x800000 && Nat.ble 0x30000 ((off - 0x400000) % 0x40000)))
/-- No element of these arrays, given as base, stride and count, lies at the offset. -/
def inNone (arrays : List (Nat × Nat × Nat)) (off : Nat) : Bool :=
  arrays.all fun a => Nat.blt off a.1 || Nat.ble a.2.2 ((off - a.1) / a.2.1) || !(Nat.beq ((off - a.1) % a.2.1) 0)
/-- A field's array as base, stride and count. -/
def Fld.array (f : Fld) (count : Nat) : Nat × Nat × Nat := (f.off, max 1 f.st, count)

/-- LO words of pairs (`Dev.lowValue`). -/
def lowArrays : List (Nat × Nat × Nat) :=
  latchLows.map (fun p => p.1.array p.2) ++ [F.CNV_IDX_LO_IDX.array 8, F.AXS_AX_VAL_LO_VAL.array 4, F.CLK_LO_FREQ_LO_FREQ.array 4]
/-- Arrays whose reads latch, show the present or are free (`Dev.readWord`, `unstated`, `Dev.partFree`, `Dev.viewLow`, `Dev.viewHigh`). -/
def ownArrays : List (Nat × Nat × Nat) :=
  [F.TDC_M_RES_MEAN.array 8, F.TDC_IN_Q_EPOCH.array 20, F.PTP_TXQ_ID_ID.array 16, F.ETH_FEC_CORR_COUNT.array 4, F.ETH_FEC_UNCORR_COUNT.array 4,
   F.DRC_CH_INORDER_COUNT.array 68, F.DRC_CH_STATUS_STATE.array 68, F.CLK_PLL_PHASE_ERR.array 29, F.IRQ_HOLDOFF_US.array 64,
   F.CLK_PLL_HOLDTIME_US.array 29, F.CLK_PLL_STATUS_STATE.array 29, F.GAL_RING_RD_LO_RD.array 1024, F.GAL_RING_RD_HI_RD.array 1024,
   F.STR_LEASE_MS.array 1024, F.GAL_RING_STAT_EVENTS.array 1024, (0x391038, 0x80, 16), (0x39103C, 0x80, 16), (0x392020, 0x40, 16),
   (0x392024, 0x40, 16), F.CORE_PC_PC.array 16, F.CORE_T_PC_PC.array 128, F.CORE_T_STATUS_STATE.array 128,
   (0x21000, 1, 0x3000), (0x42000, 1, 0xC00)]
/-- Single words of that kind. -/
def ownWords : List Nat :=
  [0x50008, 0x38008, 0x24098, 0x390004, 0x390008, 0x330024, 0x330028, 0x33002C, 0x10014, 0x30000, 0x30004, 0x300000, 0x300024, 0x300028,
   0x328004, 0x32800C, 0x3B0030, 0x3D0004, 0x3D002C]
/-- A register word whose fields alone say what a read does. -/
def plainOff (off : Nat) : Bool := regOff off && inNone lowArrays off && inNone ownArrays off && ownWords.all (fun w => !(Nat.beq off w))
/-- A read of the offset answers the whole word and changes nothing. -/
def keptOff (off : Nat) : Bool := plainOff off && (rowOf off).any (fun r => keptFields r.fields)
/-- A read of the offset answers and clears the whole word. -/
def countOff (off : Nat) : Bool := plainOff off && (rowOf off).any (fun r => countFields r.fields)
/-- A read of the offset latches the HI word of a 64-bit value that `Dev.wide` holds. -/
def latchOff (off : Nat) : Bool :=
  regOff off && (F.CNV_BLANK_LO_BLANK.elem 8 off).isNone && latchLows.any (fun p => (p.1.elem p.2 off).isSome) &&
    (F.MOV_ERR_ADDR_LO_ADDR.elem 64 off).isNone

theorem regOff_iff {off : Nat} : regOff off = true ↔ off % 4 = 0 ∧ ¬ (0x2C000 ≤ off ∧ off < 0x30000) ∧
    (off < 0x400000 ∨ (off < 0x800000 ∧ 0x30000 ≤ (off - 0x400000) % 0x40000)) := by
  simp only [regOff, Bool.and_eq_true, Bool.or_eq_true, Bool.not_eq_true', Nat.beq_eq, Nat.blt_eq, Nat.ble_eq,
    ← Bool.not_eq_true, not_and_or, and_assoc]

theorem elemOf_eq_none {arrays : List (Nat × Nat × Nat)} {off : Nat} (h : inNone arrays off = true) {base stride count : Nat}
    (hm : (base, stride, count) ∈ arrays) : elemOf base stride count off = none := by
  have hmiss := List.all_eq_true.1 h _ hm
  simp only [Bool.or_eq_true, Bool.not_eq_true', Nat.blt_eq, Nat.ble_eq, ← Bool.not_eq_true, Nat.beq_eq] at hmiss
  exact if_neg (by omega)
theorem elem_eq_none {arrays : List (Nat × Nat × Nat)} {off : Nat} (h : inNone arrays off = true) {f : Fld} {count : Nat}
    (hm : f.array count ∈ arrays) : f.elem count off = none := elemOf_eq_none h hm
/-- What an array of stride 1 spans. -/
theorem notMem_span_of_elemOf_one {base count off : Nat} (h : elemOf base 1 count off = none) : ¬ (base ≤ off ∧ off < base + count) := by
  intro hin
  rw [elemOf, if_pos ⟨hin.1, Nat.mod_one _, by rw [Nat.div_one]; omega⟩] at h
  exact absurd h (Option.some_ne_none _)

theorem Dev.hostRead_eq_readWord (d : Dev) {off : Nat} (h : regOff off = true) : d.hostRead off = d.readWord off := by
  obtain ⟨-, hstore, hcore⟩ := regOff_iff.1 h
  have hwin : d.coreWindow off = none := by
    unfold Dev.coreWindow
    split
    · dsimp only
      rw [if_neg (by omega), if_neg (by omega)]
    · rw [if_neg (by omega)]
  unfold Dev.hostRead
  rw [if_neg (by omega), if_neg hstore, hwin]

section PlainWords
variable {off : Nat} (ha : inNone ownArrays off = true) (hw : ∀ w ∈ ownWords, off ≠ w)
include ha hw

theorem unstated_eq_false : unstated off = false := by
  simp (disch := decide) [unstated, elem_eq_none ha, hw]
theorem Dev.partFree_eq_none (d : Dev) : d.partFree off = none := by
  simp (disch := decide) [Dev.partFree, elem_eq_none ha, hw]
theorem Dev.viewLow_eq_none (d : Dev) : d.viewLow off = none := by
  have repair : ¬ (0x21000 ≤ off ∧ off < 0x24000) := notMem_span_of_elemOf_one (elemOf_eq_none (count := 0x3000) ha (by decide))
  have trims : ¬ (0x42000 ≤ off ∧ off < 0x42C00 ∧ off % 0x100 = 4 * (off % 0x100 / 4)) := fun h =>
    notMem_span_of_elemOf_one (elemOf_eq_none (count := 0xC00) ha (by decide)) ⟨h.1, h.2.1⟩
  simp (disch := decide) only [Dev.viewLow, if_neg repair, if_neg trims, elem_eq_none ha, hw, or_self, if_false]
theorem Dev.viewHigh_eq_none (d : Dev) : d.viewHigh off = none := by
  simp (disch := decide) [Dev.viewHigh, elem_eq_none ha, elemOf_eq_none ha, hw]
theorem Dev.readWord_eq_plainRead (d : Dev) (hl : inNone lowArrays off = true) : d.readWord off = d.plainRead off := by
  have hlow : d.lowValue off = none := by simp (disch := decide) [Dev.lowValue, latchLows, elem_eq_none hl]
  simp (disch := decide) [Dev.readWord, hlow, elem_eq_none ha, unstated_eq_false ha hw, d.partFree_eq_none ha hw,
    d.viewLow_eq_none ha hw, d.viewHigh_eq_none ha hw, hw]
end PlainWords

theorem Dev.readWord_of_plainOff (d : Dev) {off : Nat} (h : plainOff off = true) : d.readWord off = d.plainRead off := by
  simp only [plainOff, Bool.and_eq_true, List.all_eq_true, Bool.not_eq_true', ← Bool.not_eq_true, Nat.beq_eq] at h
  obtain ⟨⟨⟨-, hlow⟩, harr⟩, hown⟩ := h
  exact d.readWord_eq_plainRead harr hown hlow
theorem regOff_of_plainOff {off : Nat} (h : plainOff off = true) : regOff off = true := by
  simp only [plainOff, Bool.and_eq_true] at h
  exact h.1.1.1
theorem regOff_of_countOff {off : Nat} (h : countOff off = true) : regOff off = true := regOff_of_plainOff (Bool.and_eq_true_iff.1 h).1
theorem regOff_of_keptOff {off : Nat} (h : keptOff off = true) : regOff off = true := regOff_of_plainOff (Bool.and_eq_true_iff.1 h).1
theorem regOff_of_latchOff {off : Nat} (h : latchOff off = true) : regOff off = true := by
  simp only [latchOff, Bool.and_eq_true] at h
  exact h.1.1.1
theorem lt_of_regOff {off : Nat} (h : regOff off = true) : off < 2 ^ 26 := by
  obtain ⟨-, -, hcore⟩ := regOff_iff.1 h
  omega

/-! ## What such a read answers and leaves -/

theorem Dev.hostRead_kept (d : Dev) {off : Nat} (h : keptOff off = true) :
    (d.hostRead off).readData = (d.reg off).toNat ∧ (∀ o, (d.hostRead off).reg o = d.reg o) ∧ ReadFrame [] d (d.hostRead off) := by
  simp only [keptOff, Bool.and_eq_true, Option.any_eq_true] at h
  obtain ⟨hplain, r, hr, hf⟩ := h
  rw [d.hostRead_eq_readWord (regOff_of_plainOff hplain), d.readWord_of_plainOff hplain, d.plainRead_kept hr hf]
  have regs : ∀ o, (d.setReg off (d.reg off)).reg o = d.reg o := fun o => by rw [Dev.reg_setReg]; split <;> simp [*]
  exact ⟨rfl, regs, fun o _ _ => regs o, rfl⟩

theorem Dev.hostRead_count (d : Dev) {off : Nat} (h : countOff off = true) :
    (d.hostRead off).readData = (d.reg0 off).toNat ∧ ((d.hostRead off).reg off).toNat = (d.reg off).toNat - (d.reg0 off).toNat ∧
      ReadFrame [off] d (d.hostRead off) := by
  simp only [countOff, Bool.and_eq_true, Option.any_eq_true] at h
  obtain ⟨hplain, r, hr, hf⟩ := h
  rw [d.hostRead_eq_readWord (regOff_of_plainOff hplain), d.readWord_of_plainOff hplain, d.plainRead_count hr hf]
  refine ⟨rfl, ?_, ReadFrame.setReg ..⟩
  have hlt : (d.reg off).toNat - (d.reg0 off).toNat < 2 ^ 32 := (Nat.sub_le _ _).trans_lt (d.reg off).isLt
  exact (congrArg BitVec.toNat (Dev.reg_setReg_same ..)).trans ((Word.toNat_setField_whole ..).trans (Nat.mod_eq_of_lt hlt))

theorem Dev.hostRead_latch (d : Dev) {off : Nat} (h : latchOff off = true) :
    (d.hostRead off).readData = d.wide.getD off 0 % 2 ^ 32 ∧ ((d.hostRead off).reg (off + 4)).toNat = d.wide.getD off 0 / 2 ^ 32 % 2 ^ 32 ∧
      ReadFrame [off + 4] d (d.hostRead off) := by
  simp only [latchOff, Bool.and_eq_true, Option.isNone_iff_eq_none] at h
  obtain ⟨⟨⟨hreg, hblank⟩, hlow⟩, herr⟩ := h
  have hval : d.lowValue off = some (d.wide.getD off 0) := by simp only [Dev.lowValue, hblank, hlow, if_true]
  have hread : d.readWord off = d.latchRead off (d.wide.getD off 0) := by simp only [Dev.readWord, hval, herr]
  rw [d.hostRead_eq_readWord hreg, hread]
  refine ⟨rfl, ?_, fun _ hj _ => Dev.reg_setReg_ne d _ (List.ne_of_not_mem_cons hj), rfl⟩
  exact (congrArg BitVec.toNat (Dev.reg_setReg_same ..)).trans (BitVec.toNat_ofNat ..)

/-! ## Reads over the bus -/

theorem toNat_of_regOff {o : Nat} (h : regOff o = true) : (BitVec.ofNat 26 o).toNat = o := by
  have hlt := lt_of_regOff h
  rw [BitVec.toNat_ofNat]
  omega
theorem wordOff_of_regOff {off : BitVec 26} {o : Nat} (ho : off.toNat = o) (h : regOff o = true) : wordOff off = o := by
  have haligned := (regOff_iff.1 h).1
  unfold wordOff
  omega
/-- The word after the one an offset names. -/
theorem wordOff_add_four (off : BitVec 26) : wordOff (off + 4#26) = (wordOff off + 4) % 2 ^ 26 := by
  unfold wordOff
  rw [BitVec.toNat_add]
  simp only [BitVec.toNat_ofNat]
  omega

theorem Dev.busRead_run {d : Dev} (h : d.pstate = 2) (off : Nat) : d.busRead off = d.hostRead off := Dev.hostReadAt_run h off _

/-- A read command that goes to the register words completes in RUN with that read. -/
theorem completes_hostRead {i : Instr} {s : State} {off : BitVec 26} {o : Nat} {P : Dev → Prop}
    (hi : exec i s = lift (fun d => d.busRead (wordOff off)) s) (hrun : InRun s) (ho : off.toNat = o) (hreg : regOff o = true)
    (h : P (s.dev.hostRead o)) : Completes i s P :=
  completes_lift hi (by rw [wordOff_of_regOff ho hreg, Dev.busRead_run hrun]; exact h)

/-- READ_CLEAR of a read-clear word in RUN (R7, R8). -/
theorem completes_readClear {s : State} (hrun : InRun s) {off : BitVec 26} {o : Nat} (ho : off.toNat = o) (h : countOff o = true) :
    Completes (.readClear off) s (fun e => e.readData = (s.dev.reg0 o).toNat ∧ (e.reg o).toNat = (s.dev.reg o).toNat - (s.dev.reg0 o).toNat ∧
      ReadFrame [o] s.dev e) :=
  completes_hostRead rfl hrun ho (regOff_of_countOff h) (s.dev.hostRead_count h)

/-- The single counters of the read-clear clause. -/
theorem countOff_single : [0xC#26, 0x14#26, 0x2409C#26, 0x28008#26, 0x3800C#26, 0x40118#26, 0x80418#26, 0xC001C#26, 0x300008#26].all
    (fun off => countOff off.toNat) = true := by decide +kernel
/-- The banks of counters of the read-clear clause, with their sizes. -/
def counterBanks : List (Fld × Nat) :=
  [(F.IRQ_DELIVERED_COUNT, 64), (F.CLK_PLL_UNLOCKS_COUNT, 29), (F.CNV_OVR_COUNT_COUNT, 8), (F.TDC_IN_LOST_COUNT, 20),
   (F.GAL_RING_CNT_OVF_OVF_UNITS, 1024), (F.DRC_CH_CE_COUNT, 68), (F.CORE_STALLS_COUNT, 16)]
theorem countOff_banks : ∀ p ∈ counterBanks, (List.range p.2).all (fun n => countOff (p.1.at_ n 0)) = true := by decide +kernel

/-- The start index is a pair: its LO word latches the HI word that follows it. -/
theorem startIdx_offsets : ∀ n : Fin 8, latchOff (F.CNV_START_IDX_LO_IDX.at_ n 0) = true ∧ keptOff (F.CNV_START_IDX_LO_IDX.at_ n 0 + 4) = true := by
  decide +kernel

/-! ## Waking from IDLE (R457, R458) -/

theorem Dev.wake_idle {d : Dev} (h : d.pstate = 3) : d.wake.pstate = 2 ∧ d.wake.rd F.DRC_STATUS_SELFREF = 0 ∧ Raised d.wake 0 13 ∧
    ReadFrame [8, F.DRC_STATUS_SELFREF.at_ 0 0] d d.wake := by
  have hwake : d.wake = ((d.wr F.SYS_STATUS_PSTATE 2).flag F.DRC_STATUS_SELFREF false).raise 0 13 := if_pos h
  rw [hwake]
  refine ⟨?_, ?_, raised_raise _ 13 (by omega), Frame.readFrame ?_ (by simp)⟩
  · unfold Dev.pstate
    rw [Dev.rd_raise _ _ _ _ _ (by omega) (by decide), Dev.flag, Dev.rd_wr_ne _ _ _ _ _ _ _ _ (by decide), Dev.rd_wr_same _ _ _ _ _ (by decide)]
    rfl
  · rw [Dev.rd_raise _ _ _ _ _ (by omega) (by decide), Dev.flag, Dev.rd_wr_same _ _ _ _ _ (by decide)]
    rfl
  · exact (((Frame.refl _ d).wr _ _ _ _ (by decide)).flag _ _ _ _ (by decide)).raise _ _ (by omega)

theorem Dev.busRead_wakes {d : Dev} (h : d.pstate = 3) {off : Nat} (ho : staysIdle off = false) : d.busRead off = d.wake.hostRead off := by
  simp [Dev.busRead, Dev.hostReadAt, h, ho]
theorem Dev.busRead_staysIdle {d : Dev} (h : d.pstate = 3) {off : Nat} (ho : staysIdle off = true) : d.busRead off = d.hostRead off := by
  simp [Dev.busRead, Dev.hostReadAt, h, ho]

/-- A read of CNV_MON_LIM of input 0 in IDLE. -/
theorem Dev.busRead_monLim_idle {d : Dev} (h : d.pstate = 3) :
    let e := d.busRead 0xC0040
    e.pstate = 2 ∧ e.rd F.DRC_STATUS_SELFREF = 0 ∧ Raised e 0 13 ∧ e.readData = (d.reg 0xC0040).toNat ∧
      ReadFrame [8, F.DRC_STATUS_SELFREF.at_ 0 0] d e := by
  obtain ⟨hstate, hself, hraised, hframe⟩ := Dev.wake_idle h
  obtain ⟨hdata, hregs, hread⟩ := d.wake.hostRead_kept (off := 0xC0040) (by decide +kernel)
  have hrd : ∀ f n m, (d.wake.hostRead 0xC0040).rd f n m = d.wake.rd f n m := fun f n m => congrArg (Word.field · f.lo f.w) (hregs _)
  rw [Dev.busRead_wakes h (by decide)]
  refine ⟨(hrd ..).trans hstate, (hrd ..).trans hself, ?_, ?_, hframe.trans (hread.mono (by simp))⟩
  · unfold Raised; rw [hrd]; exact hraised
  · rw [hdata, hframe.reg (by decide) (by decide)]

/-- A read of SYS_ID in IDLE. -/
theorem Dev.busRead_id_idle {d : Dev} (h : d.pstate = 3) :
    let e := d.busRead 0
    e.pstate = 3 ∧ e.readData = (d.reg 0).toNat ∧ ReadFrame [] d e := by
  obtain ⟨hdata, -, hread⟩ := d.hostRead_kept (off := 0) (by decide +kernel)
  rw [Dev.busRead_staysIdle h (by decide)]
  exact ⟨(hread.pstate List.not_mem_nil).trans h, hdata, hread⟩

/-! ## 64-bit reads (R4) -/

theorem completes_wideRead {s : State} (off : BitVec 26) (v : BitVec 64) {P : Dev → Prop}
    (h : P (s.dev.wideAccess false (wordOff off) v)) : Completes (.access64bit false off v) s P :=
  completes_lift (f := fun d => d.wideAccess false (wordOff off) v) rfl h

/-- A 64-bit read that is not in STANDBY is two reads, the lower offset first (R4). -/
theorem Dev.wideAccess_read {d : Dev} (h : d.pstate ≠ 0) (off : Nat) (v : BitVec 64) : d.wideAccess false off v =
    ((d.busRead off).busRead ((off + 4) % 2 ^ 26)).answer
      ((d.busRead off).readData + ((d.busRead off).busRead ((off + 4) % 2 ^ 26)).readData * 2 ^ 32) := by
  unfold Dev.wideAccess
  rw [if_neg Bool.false_ne_true, if_neg h]

/-- A 64-bit read of the start index answers one value of it. -/
theorem Dev.wideAccess_startIdx {d : Dev} (hrun : d.pstate = 2) (n : Fin 8) (hlt : d.wideAt F.CNV_START_IDX_LO_IDX n < 2 ^ 64) (v : BitVec 64) :
    (d.wideAccess false (F.CNV_START_IDX_LO_IDX.at_ n 0) v).readData = d.wideAt F.CNV_START_IDX_LO_IDX n ∧
      ReadFrame [F.CNV_START_IDX_LO_IDX.at_ n 0 + 4] d (d.wideAccess false (F.CNV_START_IDX_LO_IDX.at_ n 0) v) := by
  obtain ⟨hlatch, hkept⟩ := startIdx_offsets n
  obtain ⟨hlow, hhigh, hframe⟩ := d.hostRead_latch hlatch
  obtain ⟨hdata, -, hread⟩ := (d.hostRead (F.CNV_START_IDX_LO_IDX.at_ n 0)).hostRead_kept hkept
  have hstatus : 8 ∉ [F.CNV_START_IDX_LO_IDX.at_ n 0 + 4] := by
    rw [List.mem_singleton]
    show ¬ 8 = 0xC0028 + n.val * 0x1000 + 0 * 0 + 4
    omega
  have hrun' := (hframe.pstate hstatus).trans hrun
  rw [Dev.wideAccess_read (by omega), Nat.mod_eq_of_lt (lt_of_regOff (regOff_of_keptOff hkept)), Dev.busRead_run hrun, Dev.busRead_run hrun']
  refine ⟨?_, (hframe.trans (hread.mono (by simp))).answer _⟩
  show _ + _ * _ = _
  rw [hdata, hlow, hhigh]
  unfold Dev.wideAt at *
  omega

/-- Settles O6: which offsets are served by access code alone, latch or wake is read off the register map; the rest is what such a read does. -/
theorem hostReadsComplete : Obligations.HostReadsComplete := by
  refine ⟨fun s => ⟨fun _ => rfl, fun _ => rfl, fun _ => rfl⟩, fun s => ⟨?single, ?banks, ?wide, ?latch, ?pair, ?wakes, ?idle⟩⟩
  case single =>
    intro off hrun hoff
    exact completes_readClear hrun rfl (List.all_eq_true.1 countOff_single off hoff)
  case banks =>
    intro p hp n hn hrun
    have hcount := List.all_eq_true.1 (countOff_banks p hp) n (List.mem_range.2 hn)
    exact completes_readClear hrun (toNat_of_regOff (regOff_of_countOff hcount)) hcount
  case wide =>
    intro off v h
    refine completes_wideRead off v ⟨_, _, rfl, rfl, ?_⟩
    rw [Dev.wideAccess_read h, ← wordOff_add_four]
    rfl
  case latch =>
    intro n hrun
    have hlatch := (startIdx_offsets n).1
    exact completes_hostRead rfl hrun (toNat_of_regOff (regOff_of_latchOff hlatch)) (regOff_of_latchOff hlatch) (s.dev.hostRead_latch hlatch)
  case pair =>
    intro n hrun hlt
    have hreg := regOff_of_latchOff (startIdx_offsets n).1
    refine completes_wideRead _ _ ?_
    rw [wordOff_of_regOff (toNat_of_regOff hreg) hreg]
    exact Dev.wideAccess_startIdx hrun n hlt 0
  case wakes => exact fun h => completes_lift (f := fun d => d.busRead (wordOff 0xC0040#26)) rfl (Dev.busRead_monLim_idle h)
  case idle => exact fun h => completes_lift (f := fun d => d.busRead (wordOff 0#26)) rfl (Dev.busRead_id_idle h)

end Machine
end Sys2Proof
end

