-- ==== Sys2Proof/Proofs/IdleStep.lean ====
section
/-! PROOFS. What the passing of composing clocks leaves in the clock count, the local clock and the sample indices (spec/01_engine.md, R19; spec/11_time.md,
R284; spec/05_clocks.md, R129; spec/00_scope.md, R8): settles O2. -/

namespace Sys2Proof
namespace Machine

/-! ## One input's state -/

/-- Changing an input and looking at any input. -/
theorem Dev.input_setInput (d : Dev) (m n : Nat) (f : Input → Input) : (d.setInput m f).input n = if n = m then f (d.input m) else d.input n := by
  unfold Dev.setInput Dev.input
  split
  · rename_i h
    rw [h, Tab.getD_put_same]
  · rename_i h
    exact Tab.getD_put_ne _ _ _ h

/-- Every input below `m` moves on by its own samples, the rest stand (R19). -/
theorem Dev.input_advanceInputs (d : Dev) (k n m : Nat) :
    (d.advanceInputs k m).input n = if n < m then { d.input n with idx := ((d.input n).idx + d.lanes n * k) % 2 ^ 64 } else d.input n := by
  induction m with
  | zero =>
    rw [if_neg (Nat.not_lt_zero n)]
    rfl
  | succ m ih =>
    unfold Dev.advanceInputs
    rw [Dev.input_setInput]
    rcases Nat.lt_trichotomy n m with h | rfl | h
    · rw [if_neg (by omega), ih, if_pos h, if_pos (by omega)]
    · rw [if_pos rfl, ih, if_neg (by omega), if_pos (by omega)]
    · rw [if_neg (by omega), ih, if_neg (by omega), if_neg (by omega)]

/-- Samples per composing clock: only the even input of a pair takes those of two converters (R19). -/
theorem Dev.lanes_eq (d : Dev) (n : Nat) : d.lanes n = if d.is F.CNV_STATUS_PAIRED n ∧ n % 2 = 0 then 32 else 16 := by
  simp [Dev.lanes]

/-! ## What `k` clocks that pass move -/

section
variable {k : Nat} (d : Dev) (hk : k ≠ 0)
include hk

/-- Some clocks that pass are the guarded branch of `Dev.advance`. -/
theorem Dev.advance_of_ne_zero : d.advance k =
    { d.advanceInputs k 8 with clk := d.clk + k, localTime := d.timeIn ((k : Int) - d.lagIn k), time := { d.time with lag := d.lagIn k }, regs0 := d.regs } :=
  if_neg hk

theorem Dev.advance_clk : (d.advance k).clk = d.clk + k := by rw [d.advance_of_ne_zero hk]

theorem Dev.advance_lag : (d.advance k).time.lag = d.lagIn k := by rw [d.advance_of_ne_zero hk]

theorem Dev.advance_localTime : (d.advance k).localTime = d.timeIn ((k : Int) - d.lagIn k) := by rw [d.advance_of_ne_zero hk]

theorem Dev.advance_regs0 : (d.advance k).regs0 = d.regs := by rw [d.advance_of_ne_zero hk]

theorem Dev.input_advance {n : Nat} (hn : n < 8) :
    (d.advance k).input n = { d.input n with idx := ((d.input n).idx + d.lanes n * k) % 2 ^ 64 } := by
  have hinputs : (d.advance k).input n = (d.advanceInputs k 8).input n := by
    rw [d.advance_of_ne_zero hk]
    rfl
  rw [hinputs, Dev.input_advanceInputs, if_pos hn]

/-- A clock that begins has set no bit yet (R8). -/
theorem Dev.freshBits_advance (o : Nat) : (d.advance k).freshBits o = 0 := by
  have hbegan : (d.advance k).reg0 o = (d.advance k).reg o := by
    unfold Dev.reg0 Dev.reg
    rw [d.advance_regs0 hk, Dev.advance_regs]
  unfold Dev.freshBits
  rw [hbegan]
  exact BitVec.and_not_self _

end

/-- Passing time moves only what `Dev.atTime` sets aside. -/
theorem Dev.atTime_advance (d : Dev) (k : Nat) : (d.advance k).atTime d = d := by
  obtain ⟨_, _, _, _, _, hshape⟩ := d.advance_shape k
  rw [hshape]
  rfl

/-! ## The local clock (R284) -/

theorem localWrap_pos : 0 < (localWrap : Int) := by
  unfold localWrap
  norm_num

/-- The local time to come, as an integer: it never lies below 0, so nothing is cut off. -/
theorem Dev.timeIn_cast (d : Dev) (k : Int) : (d.timeIn k : Int) = ((d.localTime : Int) + (k + d.time.lag) * d.cycle) % localWrap :=
  Int.toNat_of_nonneg (Int.emod_nonneg _ localWrap_pos.ne')

/-- The clocks that have passed since the time base last advanced, less those it still owes, are counted at the rate in force (R284, R129). -/
theorem Dev.advance_localTime_cast {k : Nat} (d : Dev) (hk : k ≠ 0) : ((d.advance k).localTime : Int) =
    ((d.localTime : Int) + ((d.time.lag : Int) + k - (d.advance k).time.lag) * d.cycle) % localWrap := by
  rw [d.advance_localTime hk, d.advance_lag hk, Dev.timeIn_cast, show (k : Int) - d.lagIn k + d.time.lag = d.time.lag + k - d.lagIn k by ring]

/-- A time base that runs on its own clock and owes nothing counts every clock. -/
theorem Dev.advance_localTime_kept {k : Nat} (d : Dev) (hk : k ≠ 0) (hown : d.onCrystal = false) (hlag : d.time.lag = 0) :
    ((d.advance k).localTime : Int) = ((d.localTime : Int) + k * d.cycle) % localWrap := by
  have hnone : d.lagIn k = 0 := by
    unfold Dev.lagIn
    simp [hown]
  rw [d.advance_localTime_cast hk, d.advance_lag hk, hnone, hlag]
  norm_num

/-! ## The step -/

/-- With nothing waiting a step is one clock that passes. -/
theorem step_idle {s : State} (h : s.pending = []) : step s = .next { s with dev := s.dev.advance 1 } := by
  unfold step
  rw [h]

/-- Settles O2: an idle step is `Dev.advance 1`, and each clause is what clocks that pass move, for one clock. -/
theorem anIdleStepLetsOneClockPass : Obligations.AnIdleStepLetsOneClockPass := by
  intro s hidle
  have hone : (1 : Nat) ≠ 0 := Nat.one_ne_zero
  refine ⟨_, step_idle hidle, hidle, s.dev.advance_clk hone, s.dev.advance_lag hone, ?clock, ?own, s.dev.freshBits_advance hone, ?samples, s.dev.atTime_advance 1⟩
  case clock => exact s.dev.advance_localTime_cast hone
  case own =>
    intro hown hlag
    simpa using s.dev.advance_localTime_kept hone hown hlag
  case samples =>
    intro n hn
    rw [s.dev.input_advance hone hn, Dev.lanes_eq, Nat.mul_one]

end Machine
end Sys2Proof
end

