-- ==== Sys2Proof/Proofs/Images.lean ====
section
/-! PROOFS. What VERIFY, its end, RELEASE and a write of GOVERN leave of an image slot (spec/02_formes.md, R52, R54, R55, R497): settles O7. -/

namespace Sys2Proof
namespace Machine

/-! ## Host commands in RUN -/

/-- A host command in RUN answers the state its access leaves. -/
theorem exec_host_run {i : Instr} {s : State} {off : Nat} {f : Dev → Dev} (hi : exec i s = host off f s) (hrun : InRun s) :
    exec i s = .next { s with dev := f s.dev } := by
  rw [hi, host, lift, Dev.hostWriteAt_run hrun]

/-! ## Registers that no interrupt event moves -/

theorem irqReg_between {o : Nat} (h0 : 0x30900 ≤ o) (h1 : o < 0x430024) : irqReg o = false := by
  unfold irqReg
  rw [decide_eq_false (p := o < 0x30900) (by omega), decide_eq_false (p := 0x430024 ≤ o) (by omega)]
  simp
/-- The registers of FMR of an element below 128. -/
theorem irqReg_fmr {f : Fld} {n : Nat} (hlow : 0x100000 ≤ f.off) (hhigh : f.off < 0x102000) (hst : f.st ≤ 0x40) (hn : n < 128) : irqReg (f.at_ n 0) = false := by
  have hspan : n * f.st ≤ 127 * 0x40 := Nat.mul_le_mul (by omega) hst
  refine irqReg_between ?_ ?_ <;> unfold Fld.at_ <;> omega
/-- A field of FMR reads the same after an interrupt event. -/
theorem Dev.rd_raise_fmr (d : Dev) {g : Nat} (s : Nat) {f : Fld} {n : Nat} (hg : g < 64) (hlow : 0x100000 ≤ f.off) (hhigh : f.off < 0x102000)
    (hst : f.st ≤ 0x40) (hn : n < 128) : (d.raise g s).rd f n 0 = d.rd f n 0 :=
  Dev.rd_raise _ _ _ _ _ hg (irqReg_fmr hlow hhigh hst hn)

/-! ## State and code of a slot -/

theorem Dev.rd_imgStatus_state (d : Dev) (k st c : Nat) : (d.imgStatus k st c).rd F.FMR_IMG_STATUS_STATE k = st % 8 := by
  unfold Dev.imgStatus
  rw [Dev.rd_wr_field _ _ _ _ _ _ _ _ (by decide) (by decide), Dev.rd_wr_same _ _ _ _ _ (by decide)]
  rfl
theorem Dev.rd_imgStatus_code (d : Dev) (k st c : Nat) : (d.imgStatus k st c).rd F.FMR_IMG_STATUS_CODE k = c % 256 :=
  Dev.rd_wr_same _ _ _ _ _ (by decide)
theorem Frame.imgStatus {w : List Nat} {a b : Dev} (h : Frame w a b) (k st c : Nat) (ho : F.FMR_IMG_STATUS_STATE.at_ k 0 ∈ w) :
    Frame w a (b.imgStatus k st c) := (h.wr _ _ _ _ ho).wr _ _ _ _ ho

/-! ## VERIFY (R54, R497) -/

/-- What an accepted VERIFY notes of the image: where it lies, its length, since when it is read, and the pages it locks. -/
def Dev.noted (d : Dev) (k : Nat) : Slot :=
  let ring := d.rd F.FMR_IMG_RING_RING k
  let off := d.rd F.FMR_IMG_OFFSET_LO_OFFSET_LO k + d.rd F.FMR_IMG_OFFSET_HI_OFFSET_HI k * 2 ^ 32
  let len := min (leNat (d.ringBytes ring (off + 0x10) 8)) (d.ringSize ring)
  ⟨ring, off, len, d.clk, none, d.imagePages ring off len⟩

theorem Dev.verify_accepted {d : Dev} {k : Nat} (h : d.rd F.FMR_IMG_STATUS_STATE k = 0 ∨ d.rd F.FMR_IMG_STATUS_STATE k = 3) :
    d.verify k = ({ d with slots := d.slots.put k (d.noted k) } : Dev).imgStatus k 1 0 := by
  unfold Dev.verify
  exact if_neg (by omega)
theorem Dev.verify_busy {d : Dev} {k : Nat} (h : d.rd F.FMR_IMG_STATUS_STATE k = 1 ∨ d.rd F.FMR_IMG_STATUS_STATE k = 2) :
    d.verify k = d.wr F.FMR_IMG_STATUS_CODE codeBusy k := if_pos h

/-! ## The end of a verification (R52, R66) -/

/-- What a slot shows of an image found good. -/
def Dev.showVerified (d : Dev) (k : Nat) (v : Verified) : Dev :=
  (v.id.zipIdx).foldl (fun d p => d.wr F.FMR_IMG_ID_ID p.1 k p.2)
    (((((d.imgStatus k 2 0).flag F.FMR_IMG_STATUS_SIGNED v.signed_ k).wr F.FMR_IMG_STATUS_KEY v.key k).flag F.FMR_IMG_STATUS_DEV v.dev k).wr
      F.FMR_IMG_SECTIONS_SECTIONS v.image.sections.length k)
/-- The engine when the verification of slot k is over. -/
def Dev.afterVerify (d : Dev) (k : Nat) : Dev := d.advanceTo ((d.slot k).since + ((d.slot k).length + 3) / 4)

theorem Dev.advanceTo_clk (d : Dev) (c : Nat) : (d.advanceTo c).clk = max d.clk c := by
  unfold Dev.advanceTo
  by_cases h : c - d.clk = 0
  · rw [h]
    show d.clk = _
    omega
  · rw [Dev.advance_clk _ h]
    omega
theorem Dev.atTime_advanceTo (d : Dev) (c : Nat) : (d.advanceTo c).atTime d = d := Dev.atTime_advance d _

theorem Dev.walkCause_advanceTo (d : Dev) (c x : Nat) : (d.advanceTo c).walkCause x = d.walkCause x := by
  obtain ⟨_, _, _, _, _, e⟩ := Dev.advance_shape d (c - d.clk)
  unfold Dev.advanceTo; rw [e]; rfl
theorem Dev.ringBytes_advanceTo (d : Dev) (c r p n : Nat) : (d.advanceTo c).ringBytes r p n = d.ringBytes r p n := by
  obtain ⟨_, _, _, _, _, e⟩ := Dev.advance_shape d (c - d.clk)
  unfold Dev.advanceTo; rw [e]; rfl
theorem Dev.verifyImage_advanceTo (d : Dev) (c : Nat) (img : List Byte) : (d.advanceTo c).verifyImage img = d.verifyImage img := by
  obtain ⟨_, _, _, _, _, e⟩ := Dev.advance_shape d (c - d.clk)
  unfold Dev.advanceTo; rw [e]; rfl

/-- No locked page of the slot's image faults a walk. -/
def Dev.pagesGood (d : Dev) (k : Nat) : Prop := (d.slot k).locked.all (fun x => (d.walkCause x).isNone) = true
/-- The bytes the verification of slot k reads. -/
def Dev.imageBytes (d : Dev) (k : Nat) : List Byte := d.ringBytes (d.slot k).ring (d.slot k).offset (d.slot k).length

theorem Dev.noPageFaults {d : Dev} {k : Nat} (h : d.pagesGood k) :
    (d.slot k).locked.any (fun i => ((d.afterVerify k).walkCause i).isSome) = false := by
  have good := List.all_eq_true.mp h
  rw [List.any_eq_false]
  intro x hx
  have := good x hx
  simp only [Dev.afterVerify, Dev.walkCause_advanceTo]
  cases hw : d.walkCause x <;> simp_all

theorem Dev.verifyEnd_good {d : Dev} {k : Nat} {v : Verified} (hst : d.rd F.FMR_IMG_STATUS_STATE k = 1) (hp : d.pagesGood k)
    (hv : d.verifyImage (d.imageBytes k) = .ok v) :
    d.verifyEnd k = (({ d.afterVerify k with slots := d.slots.put k { d.slot k with image := some v.image } } : Dev).showVerified k v).raise 7 k := by
  have hres : (d.afterVerify k).verifyImage ((d.afterVerify k).ringBytes (d.slot k).ring (d.slot k).offset (d.slot k).length) = .ok v := by
    simpa only [Dev.afterVerify, Dev.ringBytes_advanceTo, Dev.verifyImage_advanceTo, Dev.imageBytes] using hv
  have hslots : (d.afterVerify k).slots = d.slots := Dev.advanceTo_slots d _
  have hnf := Dev.noPageFaults hp
  rw [Dev.afterVerify] at hres hslots hnf ⊢
  unfold Dev.verifyEnd
  simp only [hst, bne_self_eq_false, Bool.false_eq_true, if_false, hnf, hres, hslots]
  rfl
theorem Dev.verifyEnd_bad {d : Dev} {k c : Nat} (hst : d.rd F.FMR_IMG_STATUS_STATE k = 1) (hp : d.pagesGood k)
    (hv : d.verifyImage (d.imageBytes k) = .error c) : d.verifyEnd k = (((d.afterVerify k).imgStatus k 3 c).raise 7 k).raise 7 2 := by
  have hres : (d.afterVerify k).verifyImage ((d.afterVerify k).ringBytes (d.slot k).ring (d.slot k).offset (d.slot k).length) = .error c := by
    simpa only [Dev.afterVerify, Dev.ringBytes_advanceTo, Dev.verifyImage_advanceTo, Dev.imageBytes] using hv
  have hnf := Dev.noPageFaults hp
  rw [Dev.afterVerify] at hres hnf ⊢
  unfold Dev.verifyEnd
  simp only [hst, bne_self_eq_false, Bool.false_eq_true, if_false, hnf, hres]

/-! What the slot shows of a good image. -/

/-- The words of the identifier stand above the slot's status and section count. -/
theorem Dev.reg_idWords (k o : Nat) (ho : o < 0x100118 + k * 0x40) (l : List (Nat × Nat)) (d : Dev) :
    (l.foldl (fun d p => d.wr F.FMR_IMG_ID_ID p.1 k p.2) d).reg o = d.reg o := by
  induction l generalizing d with
  | nil => rfl
  | cons p t ih =>
    rw [List.foldl_cons, ih]
    refine Dev.reg_wr_ne _ _ _ _ _ ?_
    show o ≠ 0x100118 + k * 0x40 + p.2 * 4
    omega
theorem Dev.rd_showVerified {d : Dev} {k : Nat} {v : Verified} {f : Fld} (ho : f.at_ k 0 < 0x100118 + k * 0x40) :
    (d.showVerified k v).rd f k = (((((d.imgStatus k 2 0).flag F.FMR_IMG_STATUS_SIGNED v.signed_ k).wr F.FMR_IMG_STATUS_KEY v.key k).flag
      F.FMR_IMG_STATUS_DEV v.dev k).wr F.FMR_IMG_SECTIONS_SECTIONS v.image.sections.length k).rd f k := by
  unfold Dev.rd Dev.showVerified
  rw [Dev.reg_idWords k _ ho]
/-- The section count stands in a register of its own, over the slot's status. -/
theorem statusOff_lt (k : Nat) {f : Fld} (h : f.off = 0x100110) (hst : f.st = 0x40) : f.at_ k 0 < 0x100118 + k * 0x40 ∧
    f.at_ k 0 ≠ F.FMR_IMG_SECTIONS_SECTIONS.at_ k 0 := by
  have : F.FMR_IMG_SECTIONS_SECTIONS.at_ k 0 = 0x100114 + k * 0x40 + 0 * 0 := rfl
  unfold Fld.at_ at *
  rw [h, hst]
  omega

theorem Dev.showVerified_state (d : Dev) (k : Nat) (v : Verified) : (d.showVerified k v).rd F.FMR_IMG_STATUS_STATE k = 2 := by
  obtain ⟨hlt, hne⟩ := statusOff_lt k (f := F.FMR_IMG_STATUS_STATE) rfl rfl
  rw [Dev.rd_showVerified hlt, Dev.rd_wr_ne _ _ _ _ _ _ _ _ hne, Dev.flag, Dev.flag, Dev.rd_wr_field _ _ _ _ _ _ _ _ (by decide) (by decide),
    Dev.rd_wr_field _ _ _ _ _ _ _ _ (by decide) (by decide), Dev.rd_wr_field _ _ _ _ _ _ _ _ (by decide) (by decide), Dev.rd_imgStatus_state]
theorem Dev.showVerified_code (d : Dev) (k : Nat) (v : Verified) : (d.showVerified k v).rd F.FMR_IMG_STATUS_CODE k = 0 := by
  obtain ⟨hlt, hne⟩ := statusOff_lt k (f := F.FMR_IMG_STATUS_CODE) rfl rfl
  rw [Dev.rd_showVerified hlt, Dev.rd_wr_ne _ _ _ _ _ _ _ _ hne, Dev.flag, Dev.flag, Dev.rd_wr_field _ _ _ _ _ _ _ _ (by decide) (by decide),
    Dev.rd_wr_field _ _ _ _ _ _ _ _ (by decide) (by decide), Dev.rd_wr_field _ _ _ _ _ _ _ _ (by decide) (by decide), Dev.rd_imgStatus_code]
theorem Dev.showVerified_signed (d : Dev) (k : Nat) (v : Verified) :
    (d.showVerified k v).rd F.FMR_IMG_STATUS_SIGNED k = if v.signed_ then 1 else 0 := by
  obtain ⟨hlt, hne⟩ := statusOff_lt k (f := F.FMR_IMG_STATUS_SIGNED) rfl rfl
  rw [Dev.rd_showVerified hlt, Dev.rd_wr_ne _ _ _ _ _ _ _ _ hne, Dev.flag, Dev.flag, Dev.rd_wr_field _ _ _ _ _ _ _ _ (by decide) (by decide),
    Dev.rd_wr_field _ _ _ _ _ _ _ _ (by decide) (by decide), Dev.rd_wr_same _ _ _ _ _ (by decide)]
  cases v.signed_ <;> rfl
theorem Dev.showVerified_sections (d : Dev) (k : Nat) (v : Verified) :
    (d.showVerified k v).rd F.FMR_IMG_SECTIONS_SECTIONS k = v.image.sections.length % 256 := by
  have hlt : F.FMR_IMG_SECTIONS_SECTIONS.at_ k 0 < 0x100118 + k * 0x40 := by
    show 0x100114 + k * 0x40 + 0 * 0 < _
    omega
  rw [Dev.rd_showVerified hlt, Dev.rd_wr_same _ _ _ _ _ (by decide)]
  rfl

/-! What the end of a verification leaves alone. -/

theorem OnlyRegs.showVerified (d : Dev) (k : Nat) (v : Verified) : OnlyRegs d (d.showVerified k v) := by
  have ids (l : List (Nat × Nat)) (b : Dev) (hb : OnlyRegs d b) : OnlyRegs d (l.foldl (fun d p => d.wr F.FMR_IMG_ID_ID p.1 k p.2) b) := by
    induction l generalizing b with
    | nil => exact hb
    | cons p t ih => exact ih _ (hb.trans rfl)
  exact ids _ _ rfl
theorem OnlyRegs.slots {a b : Dev} (h : OnlyRegs a b) : b.slots = a.slots := by
  unfold OnlyRegs at h; rw [← h]
theorem OnlyRegs.clk {a b : Dev} (h : OnlyRegs a b) : b.clk = a.clk := by
  unfold OnlyRegs at h; rw [← h]
/-- Setting the time aside on both sides. -/
theorem OnlyRegs.atTime {a b : Dev} (h : OnlyRegs a b) (d : Dev) : OnlyRegs (a.atTime d) (b.atTime d) := by
  unfold OnlyRegs at h; rw [← h]; rfl
theorem OnlyRegs.withSlots {a b : Dev} (h : OnlyRegs a b) (t : Tab Slot) : OnlyRegs { a with slots := t } { b with slots := t } := by
  unfold OnlyRegs at h; rw [← h]; rfl
theorem Frame.atTime {w : List Nat} {a b : Dev} (h : Frame w a b) (d : Dev) : Frame w (a.atTime d) (b.atTime d) :=
  ⟨h.1, h.2.atTime d⟩

/-- What VERIFY's end leaves of a slot whose image is good (R52, R54). -/
theorem Dev.verifyEnd_good_holds {d : Dev} {k : Nat} {v : Verified} (hk : k < 2) (hst : d.rd F.FMR_IMG_STATUS_STATE k = 1) (hp : d.pagesGood k)
    (hv : d.verifyImage (d.imageBytes k) = .ok v) :
    (d.verifyEnd k).rd F.FMR_IMG_STATUS_STATE k = 2 ∧ (d.verifyEnd k).rd F.FMR_IMG_STATUS_CODE k = 0 ∧
    (d.verifyEnd k).rd F.FMR_IMG_STATUS_SIGNED k = (if v.signed_ then 1 else 0) ∧
    (d.verifyEnd k).rd F.FMR_IMG_SECTIONS_SECTIONS k = v.image.sections.length % 256 ∧ ((d.verifyEnd k).slot k).image = some v.image ∧
    Raised (d.verifyEnd k) 7 k ∧ (d.verifyEnd k).clk = max d.clk ((d.slot k).since + ((d.slot k).length + 3) / 4) ∧
    OnlyRegs d { (d.verifyEnd k).atTime d with slots := d.slots } := by
  rw [Dev.verifyEnd_good hst hp hv]
  generalize hD : ({ d.afterVerify k with slots := d.slots.put k { d.slot k with image := some v.image } } : Dev) = D
  have only : OnlyRegs D ((D.showVerified k v).raise 7 k) := (OnlyRegs.showVerified D k v).trans (Frame.raise (Frame.refl [] _) 7 k (by omega)).2
  have read (f : Fld) (hlow : 0x100000 ≤ f.off) (hhigh : f.off < 0x102000) (hst : f.st ≤ 0x40) :
      ((D.showVerified k v).raise 7 k).rd f k = (D.showVerified k v).rd f k := Dev.rd_raise_fmr _ _ (by omega) hlow hhigh hst (by omega)
  refine ⟨?_, ?_, ?_, ?_, ?_, raised_raise _ _ (by omega), ?_, ?_⟩
  · rw [read _ (by decide) (by decide) (by decide), Dev.showVerified_state]
  · rw [read _ (by decide) (by decide) (by decide), Dev.showVerified_code]
  · rw [read _ (by decide) (by decide) (by decide), Dev.showVerified_signed]
  · rw [read _ (by decide) (by decide) (by decide), Dev.showVerified_sections]
  · rw [Dev.slot, only.slots, ← hD, Tab.getD_put_same]
  · rw [only.clk, ← hD]
    exact Dev.advanceTo_clk d _
  · have back : ({ D.atTime d with slots := d.slots } : Dev) = d := by
      rw [← hD]
      exact congrArg (fun x : Dev => { x with slots := d.slots }) (Dev.atTime_advanceTo d _)
    have := (only.atTime d).withSlots d.slots
    rwa [back] at this
/-- What VERIFY's end leaves of a slot whose image fails a check (R52, R66). -/
theorem Dev.verifyEnd_bad_holds {d : Dev} {k c : Nat} (hk : k < 2) (hst : d.rd F.FMR_IMG_STATUS_STATE k = 1) (hp : d.pagesGood k)
    (hv : d.verifyImage (d.imageBytes k) = .error c) :
    (d.verifyEnd k).rd F.FMR_IMG_STATUS_STATE k = 3 ∧ (d.verifyEnd k).rd F.FMR_IMG_STATUS_CODE k = c % 256 ∧ (d.verifyEnd k).slots = d.slots ∧
    Raised (d.verifyEnd k) 7 k ∧ Raised (d.verifyEnd k) 7 2 ∧ Frame [F.FMR_IMG_STATUS_STATE.at_ k 0] d ((d.verifyEnd k).atTime d) := by
  rw [Dev.verifyEnd_bad hst hp hv]
  generalize hD : d.afterVerify k = D
  have frame : Frame [F.FMR_IMG_STATUS_STATE.at_ k 0] D (((D.imgStatus k 3 c).raise 7 k).raise 7 2) :=
    (((Frame.refl _ D).imgStatus k 3 c (List.mem_singleton_self _)).raise 7 k (by omega)).raise 7 2 (by omega)
  have read (f : Fld) (hlow : 0x100000 ≤ f.off) (hhigh : f.off < 0x102000) (hst : f.st ≤ 0x40) :
      (((D.imgStatus k 3 c).raise 7 k).raise 7 2).rd f k = (D.imgStatus k 3 c).rd f k := by
    rw [Dev.rd_raise_fmr _ _ (by omega) hlow hhigh hst (by omega), Dev.rd_raise_fmr _ _ (by omega) hlow hhigh hst (by omega)]
  refine ⟨?_, ?_, ?_, (raised_raise _ _ (by omega)).raise _ (by omega), raised_raise _ _ (by omega), ?_⟩
  · rw [read _ (by decide) (by decide) (by decide), Dev.rd_imgStatus_state]
  · rw [read _ (by decide) (by decide) (by decide), Dev.rd_imgStatus_code]
  · rw [frame.2.slots, ← hD]
    exact Dev.advanceTo_slots d _
  · have := frame.atTime d
    rwa [show D.atTime d = d from hD ▸ Dev.atTime_advanceTo d _] at this

/-! ## RELEASE (R54, R497) -/

theorem Dev.imageRelease_unused {d : Dev} {k : Nat} (h : d.rd F.FMR_IMG_STATUS_STATE k = 0 ∨ d.rd F.FMR_IMG_STATUS_STATE k = 3 ∨
      (d.rd F.FMR_IMG_STATUS_STATE k = 2 ∧ ∀ i, i < 128 → d.secState i = 0)) :
    d.imageRelease k = ({ d with slots := d.slots.erase k } : Dev).imgStatus k 0 0 := by
  unfold Dev.imageRelease
  refine if_neg ?_
  rintro (h1 | ⟨h2, hused⟩)
  · omega
  · have absent : ∀ i, i < 128 → d.secState i = 0 := by
      rcases h with h | h | ⟨_, h⟩
      · omega
      · omega
      · exact h
    have none_in (f : Nat → Bool) (hf : f 0 = false) : d.sectionsIn f = [] := by
      unfold Dev.sectionsIn
      rw [List.filter_eq_nil_iff]
      intro i hi
      rw [absent i (List.mem_range.mp hi), hf]
      decide
    rw [none_in _ rfl, none_in _ rfl] at hused
    simp at hused

/-! ## The obligation -/

/-- Settles O7: each command answers the device function of its name; an accepted VERIFY notes the image and shows VERIFYING, its end shows VERIFIED or
REJECTED with what the checks of R52 found, RELEASE of an unused slot empties it, and GOVERN writes one field. -/
theorem imageCommandsComplete : Obligations.ImageCommandsComplete := by
  unfold Obligations.ImageCommandsComplete
  refine ⟨fun s => ⟨fun _ => rfl, fun hrun => ⟨fun k => exec_host_run (f := fun d => d.verify k) rfl hrun,
    fun k => exec_host_run (f := fun d => d.imageRelease k) rfl hrun, fun k => exec_host_run (f := fun d => d.governWrite k) rfl hrun⟩⟩,
    fun s k => ⟨?_, ?_, ?_, ?_, ?_, ?_⟩⟩
  · intro hrun hst
    refine completes_host (f := fun d => d.verify k) rfl hrun ?_
    simp only [Dev.verify_accepted hst]
    have noted : (({ s.dev with slots := s.dev.slots.put k (s.dev.noted k) } : Dev).imgStatus k 1 0).slot k = s.dev.noted k := Tab.getD_put_same ..
    rw [noted]
    exact ⟨Dev.rd_imgStatus_state .., Dev.rd_imgStatus_code .., rfl, rfl, rfl, rfl, rfl, rfl, fun j hj => Tab.get?_put_ne _ _ hj,
      (Frame.refl _ s.dev).imgStatus k 1 0 (List.mem_singleton_self _)⟩
  · intro hrun hst
    refine completes_host (f := fun d => d.verify k) rfl hrun ?_
    simp only [Dev.verify_busy hst]
    exact ⟨Dev.rd_wr_same _ _ _ _ _ (by decide), Dev.rd_wr_field _ _ _ _ _ _ _ _ (by decide) (by decide),
      (Frame.refl _ s.dev).wr _ _ _ _ (List.mem_singleton_self _)⟩
  · intro v hst hp hv
    exact completes_lift (f := fun d => d.verifyEnd k) rfl (Dev.verifyEnd_good_holds k.isLt hst hp hv)
  · intro c hst hp hv
    exact completes_lift (f := fun d => d.verifyEnd k) rfl (Dev.verifyEnd_bad_holds k.isLt hst hp hv)
  · intro hrun hst
    refine completes_host (f := fun d => d.imageRelease k) rfl hrun ?_
    simp only [Dev.imageRelease_unused hst]
    exact ⟨Dev.rd_imgStatus_state .., Dev.rd_imgStatus_code .., Tab.get?_erase_same .., fun j hj => Tab.get?_erase_ne _ hj,
      (Frame.refl _ s.dev).imgStatus k 0 0 (List.mem_singleton_self _)⟩
  · intro hrun
    refine completes_host (f := fun d => d.governWrite k) rfl hrun ⟨?_, (Frame.refl _ s.dev).wr _ _ _ _ (List.mem_singleton_self _)⟩
    rw [Dev.governWrite, Dev.rd_wr_same _ _ _ _ _ (by decide)]
    exact Nat.mod_eq_of_lt k.isLt

end Machine
end Sys2Proof
end

