-- ==== Sys2Proof/Proofs/Knobs.lean ====
section
/-! PROOFS. What a host write of a knob of a user section leaves (spec/02_formes.md, R45, R63, R64): settles O10. -/

namespace Sys2Proof
namespace Machine

/-! ## The knob window -/

/-- The knob windows stand above the registers that interrupt events move. -/
theorem irqReg_knobAt (i off : Nat) : irqReg (knobAt i off) = false := by
  have : 0x1000000 ≤ knobAt i off := by unfold knobAt; omega
  unfold irqReg
  rw [decide_eq_false (p := knobAt i off < 0x30900) (by omega), decide_eq_false (p := knobAt i off < 0x800000) (by omega)]
  simp
theorem knobAt_ne {o : Nat} (h : o < 0x1000000) (i off : Nat) : knobAt i off ≠ o := by unfold knobAt; omega
/-- The registers of a section lie below the windows. -/
theorem secReg_lt (f : Fld) {i : Nat} (hoff : f.off < 0x102000) (hst : f.st ≤ 0x10) (hi : i < 128) : f.at_ i 0 < 0x1000000 := by
  have : i * f.st ≤ 127 * 0x10 := Nat.mul_le_mul (by omega) hst
  unfold Fld.at_
  omega
theorem Dev.rd_setReg_knob {d : Dev} {f : Fld} {n i off : Nat} {v : Word} (h : f.at_ n 0 < 0x1000000) :
    (d.setReg (knobAt i off) v).rd f n = d.rd f n := by
  unfold Dev.rd
  rw [Dev.reg_setReg_ne _ _ (knobAt_ne h _ _).symm]
@[simp] theorem Dev.knob_setKnob_same (d : Dev) (i off v : Nat) : (d.setKnob i off v).knob i off = v % 2 ^ 32 := by
  unfold Dev.knob Dev.setKnob
  rw [Dev.reg_setReg_same, BitVec.toNat_ofNat]
theorem Frame.setKnob {w : List Nat} {a b : Dev} (h : Frame w a b) (i off v : Nat) (ho : knobAt i off ∈ w) : Frame w a (b.setKnob i off v) :=
  h.setReg _ _ ho

/-! ## A section's state, code and held writes -/

/-- The word of section i that holds its state, code and flags. -/
theorem irqReg_secState {i : Nat} (hi : i < 128) : irqReg (F.FMR_SEC_STATE_STATE.at_ i 0) = false :=
  irqReg_fmr (by decide) (by decide) (by decide) hi
theorem Frame.secCode {w : List Nat} {a b : Dev} {i : Nat} (h : Frame w a b) (ho : F.FMR_SEC_STATE_STATE.at_ i 0 ∈ w) {c : Nat} :
    Frame w a (b.secCode i c) := h.wr _ _ _ _ ho
theorem Frame.knobHoldFlag {w : List Nat} {a b : Dev} {i : Nat} (h : Frame w a b) (ho : F.FMR_SEC_STATE_STATE.at_ i 0 ∈ w) {v : Bool} :
    Frame w a (b.flag F.FMR_SEC_STATE_KNOB_HOLD v i) := h.flag _ _ _ _ ho

theorem Dev.setSection_of {d : Dev} {i : Nat} {x : Section} (h : d.sections.get? i = some x) (f : Section → Section) :
    d.setSection i f = { d with sections := d.sections.put i (f x) } := by
  unfold Dev.setSection; rw [h]
/-- A change of a section moves its table entry at most. -/
theorem Dev.setSection_shape (d : Dev) (i : Nat) (f : Section → Section) : ∃ t, d.setSection i f = { d with sections := t } := by
  unfold Dev.setSection
  split
  · exact ⟨_, rfl⟩
  · exact ⟨d.sections, rfl⟩
/-- What a change leaves in the section's entry. -/
theorem Dev.setSection_get? {d : Dev} {i : Nat} {f : Section → Section} {y : Section} (h : (d.setSection i f).sections.get? i = some y) :
    ∃ x, d.sections.get? i = some x ∧ y = f x := by
  unfold Dev.setSection at h
  split at h
  next x hx => exact ⟨x, hx, by simpa using h.symm⟩
  next hn => rw [hn] at h; cases h
/-- A change that keeps the description keeps the kind. -/
theorem Dev.kind_setSection (d : Dev) (i j : Nat) (f : Section → Section) (hf : ∀ x, (f x).desc = x.desc) : (d.setSection i f).kind j = d.kind j := by
  unfold Dev.setSection
  split
  next x hx =>
    by_cases h : j = i
    · subst h; simp [Dev.kind, Dev.desc, hx, hf]
    · simp [Dev.kind, Dev.desc, Tab.get?_put_ne _ _ h]
  next => rfl

/-! ## Writes of a user section's knobs (kinds 7 and up) -/

/-- Nothing runs, so nothing is due to end with its source. -/
theorem Dev.cascade_quiet {d : Dev} (h : Quiet d) : d.cascade = d := by
  obtain ⟨hruns, hchans, hxfrms, hrawcs, htraces, hdenses⟩ := h
  unfold Dev.cascade
  simp only [hruns, hchans, hxfrms, hrawcs, htraces, hdenses, Tab.empty, List.foldl_nil]

/-- A user's kind, as the matches on kinds see it. -/
theorem kind_user {k : Nat} (h : 6 < k) : ∃ j, k = j + 7 := ⟨k - 7, by omega⟩
theorem Dev.knobTake_user {d : Dev} {i : Nat} (hk : 6 < d.kind i) (hq : Quiet d) (off v : Nat) (c : Option (Nat × Nat)) (n : Nat) :
    d.knobTake i off v c n = d.setKnob i off v := by
  obtain ⟨k, e⟩ := kind_user hk
  unfold Dev.knobTake
  rw [e]
  refine (congrArg Dev.cascade ?_).trans (Dev.cascade_quiet (d := d.setKnob i off v) hq)
  rfl
theorem Dev.kind_refuseKnob (d : Dev) (i j : Nat) : (d.refuseKnob i).kind j = d.kind j := by
  unfold Dev.kind Dev.desc Dev.refuseKnob
  simp
theorem Dev.knobRefused_user {d : Dev} {i : Nat} (hk : 6 < d.kind i) (off v : Nat) : d.knobRefused i off v = d.refuseKnob i := by
  obtain ⟨k, e⟩ := kind_user hk
  unfold Dev.knobRefused
  simp only [Dev.kind_refuseKnob, e]
theorem Dev.runActive_user {d : Dev} {i : Nat} (hk : 6 < d.kind i) : d.runActive i = false := by
  obtain ⟨k, e⟩ := kind_user hk
  unfold Dev.runActive
  rw [e]
  rfl

section
variable {d : Dev} {i off : Nat} {r : KnobRow}

theorem Dev.knobWrite_unmapped (h : d.knobRow i off = none) (v : Nat) : d.knobWrite i off v = d := by
  unfold Dev.knobWrite; rw [h]
theorem Dev.knobWrite_refused {v : Nat} (h : d.knobRow i off = some r)
    (hno : d.secState i ≠ 2 ∨ (6 < d.kind i ∧ (r.readOnly = true ∨ r.accepts v = false))) : d.knobWrite i off v = d.refuseKnob i := by
  unfold Dev.knobWrite
  simp only [h]
  split
  · rfl
  · obtain ⟨hk, hbad⟩ := hno.resolve_left (by assumption)
    have : (r.readOnly || !(r.accepts v) || (r.lockedByRun && d.runActive i)) = true := by rcases hbad with e | e <;> simp [e]
    rw [if_pos this, Dev.knobRefused_user hk]
theorem Dev.knobWrite_accepted {v : Nat} (h : d.knobRow i off = some r) (hst : d.secState i = 2) (hk : 6 < d.kind i)
    (hro : r.readOnly = false) (hacc : r.accepts v = true) :
    d.knobWrite i off v = if d.is F.FMR_SEC_STATE_KNOB_HOLD i then
        d.setSection i (fun s => { s with held := s.held.filter (fun p => p.1 != off) ++ [(off, v)] })
      else (d.knobTake i off v none (if d.cueCame (knobAt i off) then 2 else 1)).noteTurn (knobAt i off) (some v) := by
  have hgood : (r.readOnly || !(r.accepts v) || (r.lockedByRun && d.runActive i)) = false := by simp [hro, hacc, Dev.runActive_user hk]
  unfold Dev.knobWrite
  simp only [h, hst, hgood, ne_eq, not_true_eq_false, if_false, Bool.false_eq_true]
/-- KNOB_APPLY of one held write (R64). -/
theorem Dev.knobApply_one {x : Section} {v : Nat} (hst : d.secState i = 2) (hk : 6 < d.kind i) (hx : d.sections.get? i = some x)
    (hheld : x.held = [(off, v)]) (hq : Quiet d) :
    d.knobApply i = (((d.setSection i (fun s => { s with held := [] })).flag F.FMR_SEC_STATE_KNOB_HOLD false i).secCode i 0).setKnob i off v := by
  obtain ⟨t, e⟩ := Dev.setSection_shape d i (fun s => { s with held := [] })
  have kind : (((d.setSection i (fun s => { s with held := [] })).flag F.FMR_SEC_STATE_KNOB_HOLD false i).secCode i 0).kind i = d.kind i :=
    Dev.kind_setSection d i i _ (fun _ => rfl)
  unfold Dev.knobApply
  simp only [if_pos hst, hx, hheld, List.foldl_cons, List.foldl_nil]
  refine Dev.knobTake_user (kind ▸ hk) ?_ _ _ _ _
  rw [e]
  exact hq
end

/-! ## What each leaves -/

/-- A refused knob write (R63). -/
theorem Dev.refuseKnob_holds (d : Dev) {i : Nat} (hi : i < 128) :
    (d.refuseKnob i).rd F.FMR_SEC_COUNT_KNOB_REFUSE i = min 65535 (d.rd F.FMR_SEC_COUNT_KNOB_REFUSE i + 1) ∧
    (d.refuseKnob i).rd F.FMR_KNOB_ERR_COUNT = min (2 ^ 32 - 1) (d.rd F.FMR_KNOB_ERR_COUNT + 1) ∧ Raised (d.refuseKnob i) 7 7 ∧
    Frame [F.FMR_SEC_COUNT_KNOB_REFUSE.at_ i 0, F.FMR_KNOB_ERR_COUNT.at_ 0 0] d (d.refuseKnob i) := by
  have apart : F.FMR_SEC_COUNT_KNOB_REFUSE.at_ i 0 ≠ F.FMR_KNOB_ERR_COUNT.at_ 0 0 := by
    show 0x10100c + i * 0x10 + 0 * 0 ≠ 0x100010 + 0 * 0 + 0 * 0
    omega
  unfold Dev.refuseKnob
  refine ⟨?_, ?_, raised_raise _ _ (by decide), ?_⟩
  · rw [Dev.rd_raise_fmr _ _ (by decide) (by decide) (by decide) (by decide) hi, Dev.inc, Dev.rd_wr_ne _ _ _ _ _ _ _ _ apart,
      Dev.rd_inc_same _ _ _ _ _ (by decide)]
    rfl
  · rw [Dev.rd_raise_fmr _ _ (by decide) (by decide) (by decide) (by decide) (by decide), Dev.rd_inc_same _ _ _ _ _ (by decide), Dev.inc,
      Dev.rd_wr_ne _ _ _ _ _ _ _ _ apart.symm]
    rfl
  · exact (((Frame.refl _ d).inc _ _ _ _ (by simp)).inc _ _ _ _ (by simp)).raise 7 7 (by decide)

/-- Settles O10: a host write of a knob of a user section does nothing outside the knob map, is refused and counted, is held under KNOB_HOLD, or takes
effect with the note of its clock; KNOB_APPLY takes what was held. -/
theorem knobWritesComplete : Obligations.KnobWritesComplete := by
  unfold Obligations.KnobWritesComplete
  refine ⟨fun s hrun i off v => exec_host_run (f := fun d => d.knobWrite i off.toNat v.toNat) rfl hrun, fun s i off v r hrun => ⟨?_, ?_, ?_⟩⟩
  · intro h
    exact completes_host (f := fun d => d.knobWrite i off.toNat v.toNat) rfl hrun (Dev.knobWrite_unmapped h _)
  · intro h hno
    refine completes_host (f := fun d => d.knobWrite i off.toNat v.toNat) rfl hrun ?_
    simp only [Dev.knobWrite_refused h hno]
    obtain ⟨hcount, herr, hraised, hframe⟩ := s.dev.refuseKnob_holds i.isLt
    refine ⟨hcount, herr, hraised, congrArg BitVec.toNat (hframe.1 _ ?_ (irqReg_knobAt _ _)), hframe⟩
    rw [List.mem_cons, List.mem_singleton, not_or]
    exact ⟨knobAt_ne (secReg_lt _ (by decide) (by decide) i.isLt) _ _, knobAt_ne (by decide) _ _⟩
  · intro h hst hk hro hacc
    refine ⟨fun hhold => ?_, fun hhold hq => ?_, fun x hx hheld hq => ?_⟩
    · refine completes_host (f := fun d => d.knobWrite i off.toNat v.toNat) rfl hrun ?_
      simp only [Dev.knobWrite_accepted h hst hk hro hacc, if_pos (show s.dev.is F.FMR_SEC_STATE_KNOB_HOLD i = true by simp [Dev.is, hhold])]
      refine ⟨fun y hy => ?_, ?_⟩
      · obtain ⟨x, -, rfl⟩ := Dev.setSection_get? hy
        simp
      · obtain ⟨t, e⟩ := Dev.setSection_shape s.dev i (fun s => { s with held := s.held.filter (fun p => p.1 != off.toNat) ++ [(off.toNat, v.toNat)] })
        rw [e]
        exact Frame.refl _ _
    · refine completes_host (f := fun d => d.knobWrite i off.toNat v.toNat) rfl hrun ?_
      simp only [Dev.knobWrite_accepted h hst hk hro hacc, if_neg (show ¬ s.dev.is F.FMR_SEC_STATE_KNOB_HOLD i = true by simp [Dev.is, hhold]),
        Dev.knobTake_user hk hq]
      exact ⟨(Dev.knob_setKnob_same s.dev _ _ _).trans (Nat.mod_eq_of_lt v.isLt), rfl, (Frame.refl _ s.dev).setKnob _ _ _ (by simp)⟩
    · refine completes_host (f := fun d => d.knobApply i) rfl hrun ?_
      simp only [Dev.knobApply_one hst hk hx hheld hq]
      refine ⟨(Dev.knob_setKnob_same _ _ _ _).trans (Nat.mod_eq_of_lt v.isLt), ?_, fun y hy => ?_, ?_⟩
      · unfold Dev.setKnob
        rw [Dev.rd_setReg_knob (secReg_lt _ (by decide) (by decide) i.isLt), Dev.secCode, Dev.rd_wr_field _ _ _ _ _ _ _ _ (by decide) (by decide),
          Dev.flag, Dev.rd_wr_same _ _ _ _ _ (by decide)]
        rfl
      · obtain ⟨z, -, rfl⟩ := Dev.setSection_get? (f := fun s => { s with held := [] }) hy
        rfl
      · obtain ⟨t, e⟩ := Dev.setSection_shape s.dev i (fun s => { s with held := [] })
        rw [e]
        exact (((Frame.refl _ s.dev).knobHoldFlag (by simp)).secCode (by simp)).setKnob _ _ _ (by simp)

end Machine
end Sys2Proof
end

