-- ==== Sys2Proof/Proofs/Halyards.lean ====
section
/-! PROOFS. What an enable of a halyard's drive and the arrival of an event at its taps leave (spec/02_formes.md, R41, R43): settles O11. -/

namespace Sys2Proof
namespace Machine

/-! ## Driver records -/

/-- The words that name the halyards' drivers. -/
def driverRegs : List Nat := (List.range 64).map (fun k => F.FMR_HAL_DRV_KIND.at_ k 0)
theorem mem_driverRegs {h : Nat} (hh : h < 64) : F.FMR_HAL_DRV_KIND.at_ h 0 ∈ driverRegs :=
  List.mem_map_of_mem (List.mem_range.mpr hh)
/-- A halyard's driver word lies among the words of FMR. -/
theorem driverReg_eq (h : Nat) : F.FMR_HAL_DRV_KIND.at_ h 0 = 0x100300 + h * 4 := rfl
theorem irqReg_driver {h : Nat} (hh : h < 64) : irqReg (F.FMR_HAL_DRV_KIND.at_ h 0) = false :=
  irqReg_fmr (by decide) (by decide) (by decide) (by omega)

theorem Frame.recordDriver {w : List Nat} {a b : Dev} (hf : Frame w a b) {h : Nat} (ho : F.FMR_HAL_DRV_KIND.at_ h 0 ∈ w) (kind index : Nat) :
    Frame w a (b.recordDriver h kind index) := (hf.wr _ _ _ _ ho).wr _ _ _ _ ho
theorem Frame.releaseDriver {w : List Nat} {a b : Dev} (hf : Frame w a b) (hw : ∀ k, k < 64 → F.FMR_HAL_DRV_KIND.at_ k 0 ∈ w) (kind index : Nat) :
    ∀ n, n ≤ 64 → Frame w a (b.releaseDriver kind index n)
  | 0, _ => hf
  | n + 1, hn => by
    have ih := hf.releaseDriver hw kind index n (by omega)
    unfold Dev.releaseDriver
    dsimp only
    split
    · exact ih.recordDriver (hw n (by omega)) 0 0
    · exact ih

/-- A driver record depends on one register word. -/
theorem Dev.hasDriver_congr {d e : Dev} {h : Nat} (hr : e.reg (F.FMR_HAL_DRV_KIND.at_ h 0) = d.reg (F.FMR_HAL_DRV_KIND.at_ h 0)) (kind index : Nat) :
    e.hasDriver h kind index = d.hasDriver h kind index := by
  have hk : e.rd F.FMR_HAL_DRV_KIND h = d.rd F.FMR_HAL_DRV_KIND h := congrArg (fun w : Word => w.field 0 4) hr
  have hi : e.rd F.FMR_HAL_DRV_INDEX h = d.rd F.FMR_HAL_DRV_INDEX h := congrArg (fun w : Word => w.field 8 8) hr
  unfold Dev.hasDriver
  rw [hk, hi]
theorem Dev.takenByOther_congr {d e : Dev} {h : Nat} (hr : e.reg (F.FMR_HAL_DRV_KIND.at_ h 0) = d.reg (F.FMR_HAL_DRV_KIND.at_ h 0)) (kind index : Nat) :
    e.takenByOther h kind index = d.takenByOther h kind index := by
  have hk : e.rd F.FMR_HAL_DRV_KIND h = d.rd F.FMR_HAL_DRV_KIND h := congrArg (fun w : Word => w.field 0 4) hr
  unfold Dev.takenByOther Dev.is
  rw [Dev.hasDriver_congr hr, hk]

theorem Dev.rd_recordDriver_kind (d : Dev) (h kind index : Nat) : (d.recordDriver h kind index).rd F.FMR_HAL_DRV_KIND h = kind % 16 := by
  unfold Dev.recordDriver
  rw [Dev.rd_wr_field _ _ _ _ _ _ _ _ (by decide) (by decide), Dev.rd_wr_same _ _ _ _ _ (by decide)]
  rfl
theorem Dev.hasDriver_recordDriver (d : Dev) (h : Nat) {kind index : Nat} (hk : kind < 16) (hi : index < 256) :
    (d.recordDriver h kind index).hasDriver h kind index = true := by
  have hindex : (d.recordDriver h kind index).rd F.FMR_HAL_DRV_INDEX h = index % 256 := Dev.rd_wr_same _ _ _ _ _ (by decide)
  rw [Dev.hasDriver, Dev.rd_recordDriver_kind, hindex, Nat.mod_eq_of_lt hk, Nat.mod_eq_of_lt hi]
  simp
theorem Dev.reg_recordDriver_ne (d : Dev) {h o : Nat} (kind index : Nat) (ho : o ≠ F.FMR_HAL_DRV_KIND.at_ h 0) :
    (d.recordDriver h kind index).reg o = d.reg o := by
  exact (Dev.reg_wr_ne _ F.FMR_HAL_DRV_INDEX _ _ _ ho).trans (Dev.reg_wr_ne _ F.FMR_HAL_DRV_KIND _ _ _ ho)

theorem driverReg_ne {h o : Nat} (hh : h < 64) (ho : o < 0x100300 ∨ 0x100400 ≤ o) : F.FMR_HAL_DRV_KIND.at_ h 0 ≠ o := by
  rw [driverReg_eq]; omega
theorem Dev.reg_releaseDriver (d : Dev) (kind index : Nat) {o : Nat} (ho : o < 0x100300 ∨ 0x100400 ≤ o) :
    ∀ n, n ≤ 64 → (d.releaseDriver kind index n).reg o = d.reg o
  | 0, _ => rfl
  | n + 1, hn => by
    have ih := d.reg_releaseDriver kind index ho n (by omega)
    unfold Dev.releaseDriver
    dsimp only
    split
    · rw [Dev.reg_recordDriver_ne _ _ _ (driverReg_ne (by omega) ho).symm, ih]
    · exact ih

/-- Releasing a driver's halyards takes none for another. -/
theorem Dev.takenByOther_releaseDriver {d : Dev} {h kind index : Nat} (hfree : d.takenByOther h kind index = false) :
    ∀ n, (d.releaseDriver kind index n).takenByOther h kind index = false
  | 0 => hfree
  | n + 1 => by
    have ih := Dev.takenByOther_releaseDriver hfree n
    unfold Dev.releaseDriver
    dsimp only
    split
    · by_cases e : h = n
      · subst e
        rw [Dev.takenByOther, Dev.is, Dev.rd_recordDriver_kind]
        rfl
      · refine (Dev.takenByOther_congr (Dev.reg_recordDriver_ne _ _ _ ?_) _ _).trans ih
        rw [driverReg_eq, driverReg_eq]
        omega
    · exact ih

/-! ## Setting the time base's own state aside -/

theorem Frame.withTime {w : List Nat} {a b : Dev} (h : Frame w a b) : Frame w a { b with time := a.time } := by
  obtain ⟨hr, ho⟩ := h
  refine ⟨hr, ?_⟩
  unfold OnlyRegs at ho ⊢
  rw [← ho]

/-! ## One-bit fields -/

/-- A one-bit field is set when its bit is. -/
theorem Dev.is_bit (d : Dev) {f : Fld} (n : Nat) (hw : f.w = 1) : d.is f n = (d.reg (f.at_ n 0)).getLsbD f.lo := by
  have hbit := Word.getLsbD_eq_testBit_field (d.reg (f.at_ n 0)) (lo := f.lo) (len := f.w) (i := 0) (by omega)
  have hlt := Dev.rd_lt d f n 0
  unfold Dev.is
  rw [hw] at hlt
  rw [Nat.add_zero] at hbit
  rw [hbit]
  show _ = (d.rd f n).testBit 0
  have : d.rd f n = 0 ∨ d.rd f n = 1 := by omega
  rcases this with e | e <;> rw [e] <;> rfl
theorem Dev.rd_mark_bit (d : Dev) (f : Fld) (n : Nat) (hfit : f.lo + f.w ≤ 32) (hw : f.w = 1) : (d.mark f n).rd f n = 1 := by
  have hlt := Dev.rd_lt d f n 0
  unfold Dev.mark
  rw [Dev.rd_setBits, Dev.rd_wr_same _ _ _ _ _ hfit]
  rw [hw] at hlt ⊢
  have : d.rd f n = 0 ∨ d.rd f n = 1 := by omega
  rcases this with e | e <;> rw [e] <;> rfl
theorem Frame.mark {w : List Nat} {a b : Dev} (h : Frame w a b) (f : Fld) (n : Nat) (ho : f.at_ n 0 ∈ w) : Frame w a (b.mark f n) := h.setBits _ _ _ _ ho

/-! ## The overrange detector of an input -/

/-- The word the enable writes to `CNV_CTRL`. -/
def cnvEnable (w : Word) (h : Nat) : Word := (w.setField 2 1 1).setField 8 6 h
section
variable (w : Word) {h : Nat}
theorem cnvEnable_en : (cnvEnable w h).getLsbD 2 = true := by
  unfold cnvEnable
  rw [Word.getLsbD_setField _ _ _ _ _ (by decide), Word.getLsbD_setField _ _ _ _ _ (by decide)]
  rfl
theorem cnvEnable_hal (hh : h < 64) : (cnvEnable w h).field 8 6 = h :=
  (Word.field_setField_same _ _ _ _ (by decide)).trans (Nat.mod_eq_of_lt hh)
theorem cnvEnable_paired : (cnvEnable w h).getLsbD 0 = w.getLsbD 0 := by
  unfold cnvEnable
  rw [Word.getLsbD_setField _ _ _ _ _ (by decide), Word.getLsbD_setField _ _ _ _ _ (by decide)]
  rfl
theorem cnvEnable_blank : (cnvEnable w h).getLsbD 1 = w.getLsbD 1 := by
  unfold cnvEnable
  rw [Word.getLsbD_setField _ _ _ _ _ (by decide), Word.getLsbD_setField _ _ _ _ _ (by decide)]
  rfl
end

/-- The registers of input n that an enable of its detector may move. -/
def cnvRegs (n : Nat) : List Nat := [F.CNV_CTRL_PAIRED.at_ n 0, F.CNV_STATUS_STATE.at_ n 0, F.CNV_STATUS_STATE.at_ (n + 1) 0]

theorem Frame.cnvCode {v : List Nat} {a b : Dev} {n : Nat} (hf : Frame v a b) (ho : F.CNV_STATUS_STATE.at_ n 0 ∈ v) {c : Nat} : Frame v a (b.cnvCode n c) :=
  hf.wr F.CNV_STATUS_CODE _ _ _ ho
/-- The pairing part shows itself in the input's own registers and its neighbour's status (R90). -/
theorem Frame.pairRequest {v : List Nat} {a b : Dev} {n : Nat} (hf : Frame v a b) (hv : ∀ o ∈ cnvRegs n, o ∈ v) {want : Bool} : Frame v a (b.pairRequest n want) := by
  have hctrl : F.CNV_CTRL_PAIRED.at_ n 0 ∈ v := hv _ (by simp [cnvRegs])
  have hstat : F.CNV_STATUS_STATE.at_ n 0 ∈ v := hv _ (by simp [cnvRegs])
  have hnext : F.CNV_STATUS_STATE.at_ (n + 1) 0 ∈ v := hv _ (by simp [cnvRegs])
  have pend (x : Bool) : Frame v a ((b.flag F.CNV_STATUS_PAIR_PENDING x n).flag F.CNV_STATUS_PAIR_PENDING x (n + 1)) :=
    (hf.flag F.CNV_STATUS_PAIR_PENDING x n 0 hstat).flag F.CNV_STATUS_PAIR_PENDING x (n + 1) 0 hnext
  unfold Dev.pairRequest
  dsimp only
  split
  · split
    · exact ((pend false).flag F.CNV_CTRL_PAIRED _ _ _ hctrl).cnvCode hstat
    · exact hf
  · split
    · exact hf
    · split
      · exact hf.cnvCode hstat
      · exact (pend true).flag F.CNV_CTRL_PAIRED _ _ _ hctrl
theorem Dev.rd_pairRequest_conflict (d : Dev) (n : Nat) (want : Bool) :
    (d.pairRequest n want).rd F.CNV_STATUS_HAL_CONFLICT n = d.rd F.CNV_STATUS_HAL_CONFLICT n := by
  have apart (e : Dev) (f : Fld) (v m : Nat) (hd : f.lo + f.w ≤ 10 ∨ 11 ≤ f.lo) (hfit : f.lo + f.w ≤ 32) :
      (e.wr f v m).rd F.CNV_STATUS_HAL_CONFLICT n = e.rd F.CNV_STATUS_HAL_CONFLICT n := Dev.rd_wr_field _ _ _ _ _ _ _ _ hfit hd
  unfold Dev.pairRequest Dev.flag Dev.cnvCode
  dsimp only
  split
  · split
    · rw [apart _ _ _ _ (by decide) (by decide), apart _ _ _ _ (by decide) (by decide), apart _ _ _ _ (by decide) (by decide),
        apart _ _ _ _ (by decide) (by decide)]
    · rfl
  · split
    · rfl
    · split
      · rw [apart _ _ _ _ (by decide) (by decide)]
      · rw [apart _ _ _ _ (by decide) (by decide), apart _ _ _ _ (by decide) (by decide), apart _ _ _ _ (by decide) (by decide)]

/-- OVR_BLANK written with the value it has. -/
theorem Dev.ovrBlank_same {d : Dev} {n : Nat} {on : Bool} (h : d.is F.CNV_CTRL_OVR_BLANK n = on) : d.ovrBlank n on = d.flag F.CNV_CTRL_OVR_BLANK on n := by
  unfold Dev.ovrBlank
  exact if_pos h.symm

/-- What follows the drive's part of a `CNV_CTRL` write: OVR_BLANK stored again, and the pairing request of an even input. -/
def Dev.afterOvrHalyard (d : Dev) (n : Nat) (w : Word) : Dev :=
  if n % 2 = 0 then (d.flag F.CNV_CTRL_OVR_BLANK (w.getLsbD 1) n).pairRequest n (w.getLsbD 0) else d.flag F.CNV_CTRL_OVR_BLANK (w.getLsbD 1) n
theorem Frame.afterOvrHalyard {v : List Nat} {a b : Dev} {n : Nat} (hf : Frame v a b) (hv : ∀ o ∈ cnvRegs n, o ∈ v) {w : Word} :
    Frame v a (b.afterOvrHalyard n w) := by
  have hflag := hf.flag F.CNV_CTRL_OVR_BLANK (w.getLsbD 1) n 0 (hv _ (.head _))
  unfold Dev.afterOvrHalyard
  split
  · exact hflag.pairRequest hv
  · exact hflag
theorem Dev.rd_afterOvrHalyard_conflict (d : Dev) (n : Nat) (w : Word) :
    (d.afterOvrHalyard n w).rd F.CNV_STATUS_HAL_CONFLICT n = d.rd F.CNV_STATUS_HAL_CONFLICT n := by
  have hflag : (d.flag F.CNV_CTRL_OVR_BLANK (w.getLsbD 1) n).rd F.CNV_STATUS_HAL_CONFLICT n = d.rd F.CNV_STATUS_HAL_CONFLICT n :=
    Dev.rd_wr_field _ _ _ _ _ _ _ _ (by decide) (by decide)
  unfold Dev.afterOvrHalyard
  split
  · rw [Dev.rd_pairRequest_conflict, hflag]
  · exact hflag

section
variable {d : Dev} {n h : Nat} {w : Word}

/-- The record of an accepted enable. -/
def Dev.ovrEnabled (d : Dev) (n h : Nat) : Dev :=
  (((d.releaseDriver 2 n 64).wr F.CNV_CTRL_OVR_HAL h n).flag F.CNV_CTRL_OVR_HAL_EN true n).recordDriver h 2 n

theorem cnvReg_low {n : Nat} (hn : n ≤ 8) (f : Fld) (hoff : f.off < 0xC1000) (hst : f.st = 0x1000) : f.at_ n 0 < 0x100300 := by
  unfold Fld.at_; rw [hst]; omega
theorem driverReg_not_mem_cnvRegs (hn : n < 8) (hh : h < 64) : F.FMR_HAL_DRV_KIND.at_ h 0 ∉ cnvRegs n := by
  simp only [cnvRegs, List.mem_cons, List.not_mem_nil, or_false, not_or]
  exact ⟨driverReg_ne hh (.inl (cnvReg_low hn.le _ (by decide) rfl)), driverReg_ne hh (.inl (cnvReg_low hn.le _ (by decide) rfl)),
    driverReg_ne hh (.inl (cnvReg_low hn _ (by decide) rfl))⟩

theorem Dev.hasDriver_ovrEnabled (d : Dev) {n : Nat} (hn : n < 256) (h : Nat) : (d.ovrEnabled n h).hasDriver h 2 n = true :=
  Dev.hasDriver_recordDriver _ h (by decide) hn

theorem Dev.ovrHalyard_free (hn : n < 8) (hh : h < 64) (hfree : d.takenByOther h 2 n = false) : d.ovrHalyard n true h = d.ovrEnabled n h := by
  have hstill : ((d.releaseDriver 2 n 64).wr F.CNV_CTRL_OVR_HAL h n).takenByOther h 2 n = false := by
    refine (Dev.takenByOther_congr (Dev.reg_wr_ne _ _ _ _ _ (driverReg_ne hh (.inl (cnvReg_low hn.le _ (by decide) rfl)))) _ _).trans ?_
    exact Dev.takenByOther_releaseDriver hfree 64
  unfold Dev.ovrHalyard
  dsimp only
  rw [hstill]
  rfl
/-- OVR_BLANK lies apart from what the drive's part writes. -/
theorem Dev.is_ovrBlank_ovrEnabled (hn : n < 8) (hh : h < 64) : (d.ovrEnabled n h).is F.CNV_CTRL_OVR_BLANK n = d.is F.CNV_CTRL_OVR_BLANK n := by
  have hlow : F.CNV_CTRL_OVR_BLANK.at_ n 0 < 0x100300 := cnvReg_low hn.le _ (by decide) rfl
  have hrel : (d.releaseDriver 2 n 64).rd F.CNV_CTRL_OVR_BLANK n = d.rd F.CNV_CTRL_OVR_BLANK n :=
    congrArg (fun w : Word => w.field 1 1) (d.reg_releaseDriver 2 n (.inl hlow) 64 le_rfl)
  have hrec (e : Dev) : (e.recordDriver h 2 n).rd F.CNV_CTRL_OVR_BLANK n = e.rd F.CNV_CTRL_OVR_BLANK n :=
    congrArg (fun w : Word => w.field 1 1) (e.reg_recordDriver_ne 2 n (driverReg_ne hh (.inl hlow)).symm)
  unfold Dev.is Dev.ovrEnabled
  rw [hrec, Dev.flag, Dev.rd_wr_field _ _ _ _ _ _ _ _ (by decide) (by decide), Dev.rd_wr_field _ _ _ _ _ _ _ _ (by decide) (by decide), hrel]

/-- The write of the enable is its drive's part and what follows it. -/
theorem Dev.cnvCtrl_enable (hh : h < 64) :
    d.cnvCtrl n (cnvEnable w h) =
      let e := if d.takenByOther h 2 n then d.mark F.CNV_STATUS_HAL_CONFLICT n else d.ovrHalyard n true h
      if n % 2 = 0 then (e.ovrBlank n (w.getLsbD 1)).pairRequest n (w.getLsbD 0) else e.ovrBlank n (w.getLsbD 1) := by
  unfold Dev.cnvCtrl
  simp only [cnvEnable_en, cnvEnable_hal _ hh, cnvEnable_blank, cnvEnable_paired, Bool.true_and]
end

theorem Dev.enable_overrange_free {d : Dev} {n : Fin 8} {h : Nat} (hh : h < 64) (hfree : d.takenByOther h 2 n = false) :
    (d.halEnable (.overrange n) h).hasDriver h 2 n = true ∧ Frame (cnvRegs n ++ driverRegs) d (d.halEnable (.overrange n) h) := by
  have hn : n.val < 8 := n.isLt
  have hblank : (d.ovrEnabled n h).is F.CNV_CTRL_OVR_BLANK n = (d.reg (F.CNV_CTRL_OVR_BLANK.at_ n 0)).getLsbD 1 :=
    (Dev.is_ovrBlank_ovrEnabled hn hh).trans (d.is_bit n rfl)
  have heq : d.halEnable (.overrange n) h = (d.ovrEnabled n h).afterOvrHalyard n (d.reg (F.CNV_CTRL_OVR_BLANK.at_ n 0)) := by
    refine (Dev.cnvCtrl_enable (d := d) (n := n) (w := d.reg (F.CNV_CTRL_OVR_BLANK.at_ n 0)) hh).trans ?_
    simp only [hfree, Bool.false_eq_true, if_false, Dev.ovrHalyard_free hn hh hfree, Dev.ovrBlank_same hblank]
    rfl
  rw [heq]
  constructor
  · refine (Dev.hasDriver_congr ?_ 2 n).trans (Dev.hasDriver_ovrEnabled d (by omega) h)
    refine ((Frame.refl (cnvRegs n) _).afterOvrHalyard (fun _ ho => ho)).1 _ (driverReg_not_mem_cnvRegs hn hh) (irqReg_driver hh)
  · have hctrl : F.CNV_CTRL_PAIRED.at_ n 0 ∈ cnvRegs n ++ driverRegs := .head _
    have hdrv : ∀ k, k < 64 → F.FMR_HAL_DRV_KIND.at_ k 0 ∈ cnvRegs n ++ driverRegs := fun k hk => List.mem_append_right _ (mem_driverRegs hk)
    refine Frame.afterOvrHalyard ?_ (fun o ho => List.mem_append_left _ ho)
    exact ((((Frame.refl _ d).releaseDriver hdrv 2 n 64 le_rfl).wr F.CNV_CTRL_OVR_HAL h n 0 hctrl).flag F.CNV_CTRL_OVR_HAL_EN true n 0 hctrl).recordDriver
      (hdrv h hh) 2 n
theorem Dev.enable_overrange_taken {d : Dev} {n : Fin 8} {h : Nat} (hh : h < 64) (htaken : d.takenByOther h 2 n = true) :
    (d.halEnable (.overrange n) h).rd F.CNV_STATUS_HAL_CONFLICT n = 1 ∧ Frame (cnvRegs n) d (d.halEnable (.overrange n) h) := by
  have hblank : (d.mark F.CNV_STATUS_HAL_CONFLICT n).is F.CNV_CTRL_OVR_BLANK n = (d.reg (F.CNV_CTRL_OVR_BLANK.at_ n 0)).getLsbD 1 := by
    refine Eq.trans ?_ (d.is_bit n rfl)
    unfold Dev.is Dev.mark
    rw [Dev.rd_setBits, Dev.rd_wr_field _ _ _ _ _ _ _ _ (by decide) (by decide)]
  have heq : d.halEnable (.overrange n) h = (d.mark F.CNV_STATUS_HAL_CONFLICT n).afterOvrHalyard n (d.reg (F.CNV_CTRL_OVR_BLANK.at_ n 0)) := by
    refine (Dev.cnvCtrl_enable (d := d) (n := n) (w := d.reg (F.CNV_CTRL_OVR_BLANK.at_ n 0)) hh).trans ?_
    simp only [htaken, if_true, Dev.ovrBlank_same hblank]
    rfl
  rw [heq]
  refine ⟨?_, ((Frame.refl (cnvRegs n) d).mark F.CNV_STATUS_HAL_CONFLICT n (.tail _ (.head _))).afterOvrHalyard (fun _ ho => ho)⟩
  rw [Dev.rd_afterOvrHalyard_conflict, Dev.rd_mark_bit _ _ _ (by decide) rfl]

/-! ## A frame core -/

/-- The word the enable writes to `CORE_HAL_OUT`. -/
def coreEnable (w : Word) (h : Nat) : Word := ((w.setField 0 6 h).setField 8 1 1).setField 9 1 0
section
variable (w : Word) {h : Nat}
theorem coreEnable_en : (coreEnable w h).getLsbD 8 = true := by
  unfold coreEnable
  rw [Word.getLsbD_setField _ _ _ _ _ (by decide), Word.getLsbD_setField _ _ _ _ _ (by decide)]
  rfl
theorem coreEnable_unmark : (coreEnable w h).getLsbD 9 = false := by
  unfold coreEnable
  rw [Word.getLsbD_setField _ _ _ _ _ (by decide)]
  rfl
theorem coreEnable_hal (hh : h < 64) : (coreEnable w h).field 0 6 = h := by
  unfold coreEnable
  rw [Word.field_setField_ne _ _ (by decide) (by decide), Word.field_setField_ne _ _ (by decide) (by decide), Word.field_setField_same _ _ _ _ (by decide)]
  exact Nat.mod_eq_of_lt hh
end

theorem Dev.coreHalOut_enable {d : Dev} {c h : Nat} {w : Word} (hh : h < 64) :
    d.coreHalOut c (coreEnable w h) = if d.takenByOther h 4 c then d.mark F.CORE_HAL_OUT_HAL_CONFLICT c
      else (((d.releaseDriver 4 c 64).wr F.CORE_HAL_OUT_HAL h c).flag F.CORE_HAL_OUT_EN true c).recordDriver h 4 c := by
  unfold Dev.coreHalOut
  simp only [coreEnable_en, coreEnable_unmark, coreEnable_hal _ hh, Bool.false_eq_true, if_false, if_true, Bool.true_and]
theorem Dev.enable_core_free {d : Dev} {c : Fin 16} {h : Nat} (hh : h < 64) (hfree : d.takenByOther h 4 c = false) :
    (d.halEnable (.frameCore c) h).hasDriver h 4 c = true ∧
    Frame (F.CORE_HAL_OUT_EN.at_ c 0 :: driverRegs) d (d.halEnable (.frameCore c) h) := by
  have hc : c.val < 16 := c.isLt
  have heq : d.halEnable (.frameCore c) h = (((d.releaseDriver 4 c 64).wr F.CORE_HAL_OUT_HAL h c).flag F.CORE_HAL_OUT_EN true c).recordDriver h 4 c :=
    (Dev.coreHalOut_enable hh).trans (if_neg (by simp [hfree]))
  have hdrv : ∀ k, k < 64 → F.FMR_HAL_DRV_KIND.at_ k 0 ∈ F.CORE_HAL_OUT_EN.at_ c 0 :: driverRegs := fun k hk => .tail _ (mem_driverRegs hk)
  rw [heq]
  refine ⟨Dev.hasDriver_recordDriver _ h (by decide) (by omega), ?_⟩
  exact ((((Frame.refl _ d).releaseDriver hdrv 4 c 64 le_rfl).wr F.CORE_HAL_OUT_HAL h c 0 (.head _)).flag F.CORE_HAL_OUT_EN true c 0 (.head _)).recordDriver
    (hdrv h hh) 4 c
theorem Dev.enable_core_taken {d : Dev} {c : Fin 16} {h : Nat} (hh : h < 64) (htaken : d.takenByOther h 4 c = true) :
    (d.halEnable (.frameCore c) h).rd F.CORE_HAL_OUT_HAL_CONFLICT c = 1 ∧ Frame [F.CORE_HAL_OUT_EN.at_ c 0] d (d.halEnable (.frameCore c) h) := by
  have heq : d.halEnable (.frameCore c) h = d.mark F.CORE_HAL_OUT_HAL_CONFLICT c := (Dev.coreHalOut_enable hh).trans (if_pos htaken)
  rw [heq]
  exact ⟨Dev.rd_mark_bit _ _ _ (by decide) rfl, (Frame.refl _ d).mark F.CORE_HAL_OUT_HAL_CONFLICT c (.head _)⟩

/-! ## Stay-link receive -/

theorem Dev.enable_stay {d : Dev} {h : Nat} (hoff : (d.rd F.STY_HAL_IN_MASK (h / 32)).testBit (h % 32) = false) :
    d.halEnable .stay h = if d.takenByOther h 5 0 then d.mark F.STY_STATUS_HAL_CONFLICT
      else (d.wr F.STY_HAL_IN_MASK (d.rd F.STY_HAL_IN_MASK (h / 32) ||| 2 ^ (h % 32)) (h / 32)).recordDriver h 5 0 := by
  show d.halInBit h true = _
  unfold Dev.halInBit
  simp only [hoff, Bool.not_false, Bool.and_self, if_true]
theorem Dev.enable_stay_free {d : Dev} {h : Nat} (hh : h < 64) (hfree : d.takenByOther h 5 0 = false)
    (hoff : (d.rd F.STY_HAL_IN_MASK (h / 32)).testBit (h % 32) = false) :
    (d.halEnable .stay h).hasDriver h 5 0 = true ∧ ((d.halEnable .stay h).rd F.STY_HAL_IN_MASK (h / 32)).testBit (h % 32) = true ∧
    Frame (F.STY_HAL_IN_MASK.at_ (h / 32) 0 :: driverRegs) d (d.halEnable .stay h) := by
  rw [Dev.enable_stay hoff, if_neg (by simp [hfree])]
  refine ⟨Dev.hasDriver_recordDriver _ h (by decide) (by decide), ?_,
    ((Frame.refl _ d).wr F.STY_HAL_IN_MASK _ (h / 32) 0 (.head _)).recordDriver (.tail _ (mem_driverRegs hh)) 5 0⟩
  have hbit : h % 32 < 32 := Nat.mod_lt _ (by decide)
  have hmask : F.STY_HAL_IN_MASK.at_ (h / 32) 0 ≠ F.FMR_HAL_DRV_KIND.at_ h 0 := (driverReg_ne hh (.inr (by unfold Fld.at_; exact Nat.le_trans (by decide) (Nat.le_add_right_of_le (Nat.le_add_right ..))))).symm
  have hrec : (((d.wr F.STY_HAL_IN_MASK (d.rd F.STY_HAL_IN_MASK (h / 32) ||| 2 ^ (h % 32)) (h / 32)).recordDriver h 5 0).rd F.STY_HAL_IN_MASK (h / 32)) =
      (d.rd F.STY_HAL_IN_MASK (h / 32) ||| 2 ^ (h % 32)) % 2 ^ 32 :=
    (congrArg (fun w : Word => w.field 0 32) (Dev.reg_recordDriver_ne _ 5 0 hmask)).trans (Dev.rd_wr_same _ _ _ _ _ (by decide))
  rw [hrec, Nat.testBit_mod_two_pow]
  simp [Nat.testBit_or, hbit]
theorem Dev.enable_stay_taken {d : Dev} {h : Nat} (htaken : d.takenByOther h 5 0 = true)
    (hoff : (d.rd F.STY_HAL_IN_MASK (h / 32)).testBit (h % 32) = false) :
    (d.halEnable .stay h).rd F.STY_STATUS_HAL_CONFLICT = 1 ∧ Frame [F.STY_STATUS_HAL_CONFLICT.at_ 0 0] d (d.halEnable .stay h) := by
  rw [Dev.enable_stay hoff, if_pos htaken]
  exact ⟨Dev.rd_mark_bit _ _ _ (by decide) rfl, (Frame.refl _ d).mark F.STY_STATUS_HAL_CONFLICT 0 (.head _)⟩

/-! ## A TDC input -/

/-- The fields of `TDC_IN_CFG` (spec/11_time.md). -/
def tdcFields : List FieldRow :=
  [⟨"EN", 0, 0, .rw, 0⟩, ⟨"EDGE", 2, 1, .rw, 0⟩, ⟨"DRAIN", 3, 3, .rw, 0⟩, ⟨"HAL_EN", 4, 4, .rw, 0⟩, ⟨"HAL", 13, 8, .rw, 0⟩,
    ⟨"BATCH_LOG2", 19, 16, .rw, 8⟩, ⟨"SEL", 26, 24, .rw, 0⟩]
theorem rowOf_tdcCfg : ∀ n : Fin 20, (rowOf (0x60000 + n.val * 64)).map (·.fields) = some tdcFields := by decide +kernel

theorem Frame.plainWrite {w : List Nat} {a b : Dev} (h : Frame w a b) {off : Nat} (ho : off ∈ w) (v : Word) : Frame w a (b.plainWrite off v) := by
  unfold Dev.plainWrite
  split
  · exact (h.setReg _ _ ho).trans ⟨fun _ _ _ => rfl, rfl⟩
  · exact h
/-- A write of `TDC_IN_CFG` stores every field. -/
theorem Dev.field_plainWrite_tdc (d : Dev) (n : Fin 20) (v : Word) {f : FieldRow} (hf : f ∈ tdcFields) :
    ((d.plainWrite (0x60000 + n.val * 64) v).reg (0x60000 + n.val * 64)).field f.lo (f.hi - f.lo + 1) = v.field f.lo (f.hi - f.lo + 1) := by
  obtain ⟨r, hr, hfields⟩ := Option.map_eq_some_iff.mp (rowOf_tdcCfg n)
  have hrw : ∀ g ∈ tdcFields, g.acc = .rw := by decide
  unfold Dev.plainWrite
  rw [hr]
  dsimp only
  rw [Dev.reg_setReg0, Dev.reg_setReg_same, hfields, field_mergeFields _ _ _ _ (by decide) (by decide) f hf, hrw f hf]
  rfl

/-- The word the enable writes to `TDC_IN_CFG`. -/
def tdcEnable (w : Word) (h : Nat) : Word := (w.setField 4 1 1).setField 8 6 h
theorem tdcEnable_hal (w : Word) {h : Nat} (hh : h < 64) : (tdcEnable w h).field 8 6 = h :=
  (Word.field_setField_same _ _ _ _ (by decide)).trans (Nat.mod_eq_of_lt hh)
theorem tdcEnable_halEn (w : Word) (h : Nat) : (tdcEnable w h).field 4 1 = 1 :=
  (Word.field_setField_ne _ _ (by decide) (by decide)).trans (Word.field_setField_same _ _ _ _ (by decide))
theorem tdcEnable_en (w : Word) (h : Nat) : (tdcEnable w h).field 0 1 = w.field 0 1 :=
  (Word.field_setField_ne _ _ (by decide) (by decide)).trans (Word.field_setField_ne _ _ (by decide) (by decide))

/-- The engine after the enable's word is stored. -/
def Dev.tdcStored (d : Dev) (n : Fin 20) (h : Nat) : Dev := d.plainWrite (0x60000 + n.val * 64) (tdcEnable (d.reg (0x60000 + n.val * 64)) h)
theorem Dev.tdcStored_hal (d : Dev) (n : Fin 20) {h : Nat} (hh : h < 64) : (d.tdcStored n h).rd F.TDC_IN_CFG_HAL n = h :=
  (d.field_plainWrite_tdc n _ (f := ⟨"HAL", 13, 8, .rw, 0⟩) (by decide)).trans (tdcEnable_hal _ hh)
theorem Dev.tdcStored_halEn (d : Dev) (n : Fin 20) (h : Nat) : (d.tdcStored n h).rd F.TDC_IN_CFG_HAL_EN n = 1 :=
  (d.field_plainWrite_tdc n _ (f := ⟨"HAL_EN", 4, 4, .rw, 0⟩) (by decide)).trans (tdcEnable_halEn _ h)
theorem Dev.tdcStored_en (d : Dev) (n : Fin 20) (h : Nat) : (d.tdcStored n h).rd F.TDC_IN_CFG_EN n = d.rd F.TDC_IN_CFG_EN n :=
  (d.field_plainWrite_tdc n _ (f := ⟨"EN", 0, 0, .rw, 0⟩) (by decide)).trans (tdcEnable_en _ h)

/-- What a write of `TDC_IN_CFG` does to the open batch (R303): without DRAIN there is none, with it a filled queue has one. -/
def Dev.tdcBatch (d : Dev) (n : Nat) : Dev :=
  if !(d.is F.TDC_IN_CFG_DRAIN n) then d.setTdc n (fun t => { t with batch := none })
  else if (d.tdc n).batch.isNone && !(d.tdc n).queue.isEmpty then d.setTdc n (fun t => { t with batch := some d.clk }) else d
/-- It shows in FILL only. -/
theorem Dev.tdcBatch_cases (d : Dev) (n : Nat) : d.tdcBatch n = d ∨ ∃ t v, d.tdcBatch n = ({ d with time := t } : Dev).wr F.TDC_IN_STATUS_FILL v n := by
  unfold Dev.tdcBatch
  split
  · exact .inr ⟨_, _, rfl⟩
  · split
    · exact .inr ⟨_, _, rfl⟩
    · exact .inl rfl
theorem Frame.tdcBatch {w : List Nat} {a b : Dev} {n : Nat} (h : Frame w a { b with time := a.time }) (ho : F.TDC_IN_STATUS_FILL.at_ n 0 ∈ w) :
    Frame w a { b.tdcBatch n with time := a.time } := by
  rcases b.tdcBatch_cases n with e | ⟨t, v, e⟩ <;> rw [e]
  · exact h
  · exact h.wr F.TDC_IN_STATUS_FILL v n 0 ho
theorem Dev.reg_tdcBatch (d : Dev) {o n : Nat} (ho : o ≠ F.TDC_IN_STATUS_FILL.at_ n 0) : (d.tdcBatch n).reg o = d.reg o := by
  rcases d.tdcBatch_cases n with e | ⟨t, v, e⟩ <;> rw [e]
  exact Dev.reg_wr_ne _ _ _ _ _ ho
theorem Dev.rd_tdcBatch (d : Dev) {f : Fld} {n : Nat} (hd : 13 ≤ f.lo) : (d.tdcBatch n).rd f n = d.rd f n := by
  rcases d.tdcBatch_cases n with e | ⟨t, v, e⟩ <;> rw [e]
  exact Dev.rd_wr_field _ F.TDC_IN_STATUS_FILL f v n 0 n 0 (by decide) (.inl hd)

/-- The drive's part of the write (R43): recorded, or turned away with the enable and the halyard as they were. -/
def Dev.tdcDrive (d : Dev) (n : Fin 20) (h : Nat) : Dev :=
  if d.takenByOther h 3 n then
    (((d.tdcStored n h).flag F.TDC_IN_CFG_HAL_EN (d.is F.TDC_IN_CFG_HAL_EN n) n).wr F.TDC_IN_CFG_HAL (d.rd F.TDC_IN_CFG_HAL n) n).mark
      F.TDC_IN_STATUS_HAL_CONFLICT n
  else ((d.tdcStored n h).releaseDriver 3 n 64).recordDriver h 3 n

section
variable {d : Dev} {n : Fin 20} {h : Nat}

theorem tdcReg_low (n : Fin 20) (f : Fld) (hoff : f.off < 0x60100) (hst : f.st = 0x40) : f.at_ n 0 < 0x100300 := by
  unfold Fld.at_; rw [hst]; omega
theorem Dev.reg_tdcStored_driver {k : Nat} (hk : k < 64) :
    (d.tdcStored n h).reg (F.FMR_HAL_DRV_KIND.at_ k 0) = d.reg (F.FMR_HAL_DRV_KIND.at_ k 0) := by
  refine ((Frame.refl [0x60000 + n.val * 64] d).plainWrite (List.mem_singleton_self _) _).1 _ ?_ (irqReg_driver hk)
  rw [List.mem_singleton]
  exact driverReg_ne hk (.inl (by omega))

theorem Dev.rd_tdcDrive_en (hh : h < 64) : (d.tdcDrive n h).rd F.TDC_IN_CFG_EN n = d.rd F.TDC_IN_CFG_EN n := by
  have hlow : F.TDC_IN_CFG_EN.at_ n 0 < 0x100300 := tdcReg_low n _ (by decide) rfl
  refine Eq.trans ?_ (d.tdcStored_en n h)
  unfold Dev.tdcDrive
  split
  · rw [Dev.mark, Dev.rd_setBits, Dev.rd_wr_field _ _ _ _ _ _ _ _ (by decide) (by decide), Dev.rd_wr_field _ _ _ _ _ _ _ _ (by decide) (by decide),
      Dev.flag, Dev.rd_wr_field _ _ _ _ _ _ _ _ (by decide) (by decide)]
  · exact congrArg (fun w : Word => w.field 0 1) ((Dev.reg_recordDriver_ne _ _ _ (driverReg_ne hh (.inl hlow)).symm).trans
      (Dev.reg_releaseDriver _ _ _ (.inl hlow) 64 le_rfl))

/-- The write of the enable: the drive's part, then the batch; the input stays as enabled as it was, so its units go on. -/
theorem Dev.enable_tdc (hn : n.val < 16) (hh : h < 64) : d.halEnable (.tdc n) h = (d.tdcDrive n h).tdcBatch n := by
  have htaken : (d.tdcStored n h).takenByOther h 3 n = d.takenByOther h 3 n := Dev.takenByOther_congr (Dev.reg_tdcStored_driver hh) 3 n
  have hen : ((d.tdcDrive n h).tdcBatch n).is F.TDC_IN_CFG_EN n = d.is F.TDC_IN_CFG_EN n := by
    have hne : F.TDC_IN_CFG_EN.at_ n 0 ≠ F.TDC_IN_STATUS_FILL.at_ n 0 := by
      show 0x60000 + n.val * 0x40 + 0 * 0 ≠ 0x60008 + n.val * 0x40 + 0 * 0
      omega
    have hrd : ((d.tdcDrive n h).tdcBatch n).rd F.TDC_IN_CFG_EN n = (d.tdcDrive n h).rd F.TDC_IN_CFG_EN n :=
      congrArg (fun w : Word => w.field 0 1) (Dev.reg_tdcBatch _ hne)
    rw [Dev.is, hrd, Dev.rd_tdcDrive_en hh, Dev.is]
  have hwant : (d.tdcStored n h).is F.TDC_IN_CFG_HAL_EN n = true := by rw [Dev.is, Dev.tdcStored_halEn]; rfl
  show d.tdcCfg n (tdcEnable (d.reg (0x60000 + n.val * 64)) h) = _
  unfold Dev.tdcCfg
  dsimp only
  rw [← Dev.tdcStored]
  simp only [hwant, Dev.tdcStored_hal d n hh, htaken, decide_eq_true hn, Bool.and_self, Bool.true_and, if_true]
  rw [← Dev.tdcDrive, ← Dev.tdcBatch, hen]
  simp

theorem Dev.enable_tdc_free (hn : n.val < 16) (hh : h < 64) (hfree : d.takenByOther h 3 n = false) :
    (d.halEnable (.tdc n) h).hasDriver h 3 n = true ∧
    Frame (F.TDC_IN_CFG_EN.at_ n 0 :: F.TDC_IN_STATUS_HAL_CONFLICT.at_ n 0 :: driverRegs) d { d.halEnable (.tdc n) h with time := d.time } := by
  have heq : d.tdcDrive n h = ((d.tdcStored n h).releaseDriver 3 n 64).recordDriver h 3 n := if_neg (by simp [hfree])
  rw [Dev.enable_tdc hn hh, heq]
  constructor
  · have hne : F.FMR_HAL_DRV_KIND.at_ h 0 ≠ F.TDC_IN_STATUS_FILL.at_ n 0 := driverReg_ne hh (.inl (tdcReg_low n _ (by decide) rfl))
    exact (Dev.hasDriver_congr (Dev.reg_tdcBatch _ hne) 3 n).trans (Dev.hasDriver_recordDriver _ h (by decide) (by omega))
  · have hdrv : ∀ k, k < 64 → F.FMR_HAL_DRV_KIND.at_ k 0 ∈ F.TDC_IN_CFG_EN.at_ n 0 :: F.TDC_IN_STATUS_HAL_CONFLICT.at_ n 0 :: driverRegs :=
      fun k hk => .tail _ (.tail _ (mem_driverRegs hk))
    have hstored := (Frame.refl (F.TDC_IN_CFG_EN.at_ n 0 :: F.TDC_IN_STATUS_HAL_CONFLICT.at_ n 0 :: driverRegs) d).plainWrite (off := 0x60000 + n.val * 64)
      (.head _) (tdcEnable (d.reg (0x60000 + n.val * 64)) h)
    exact ((hstored.releaseDriver hdrv 3 n 64 le_rfl).recordDriver (hdrv h hh) 3 n).withTime.tdcBatch (.tail _ (.head _))
theorem Dev.enable_tdc_taken (hn : n.val < 16) (hh : h < 64) (htaken : d.takenByOther h 3 n = true) :
    (d.halEnable (.tdc n) h).rd F.TDC_IN_STATUS_HAL_CONFLICT n = 1 ∧
    Frame [F.TDC_IN_CFG_EN.at_ n 0, F.TDC_IN_STATUS_HAL_CONFLICT.at_ n 0] d { d.halEnable (.tdc n) h with time := d.time } := by
  have heq : d.tdcDrive n h = (((d.tdcStored n h).flag F.TDC_IN_CFG_HAL_EN (d.is F.TDC_IN_CFG_HAL_EN n) n).wr F.TDC_IN_CFG_HAL
    (d.rd F.TDC_IN_CFG_HAL n) n).mark F.TDC_IN_STATUS_HAL_CONFLICT n := if_pos htaken
  rw [Dev.enable_tdc hn hh, heq]
  constructor
  · rw [Dev.rd_tdcBatch _ (by decide), Dev.rd_mark_bit _ _ _ (by decide) rfl]
  · have hstored := (Frame.refl [F.TDC_IN_CFG_EN.at_ n 0, F.TDC_IN_STATUS_HAL_CONFLICT.at_ n 0] d).plainWrite (off := 0x60000 + n.val * 64)
      (.head _) (tdcEnable (d.reg (0x60000 + n.val * 64)) h)
    exact ((((hstored.flag F.TDC_IN_CFG_HAL_EN _ n 0 (.head _)).wr F.TDC_IN_CFG_HAL _ n 0 (.head _)).mark F.TDC_IN_STATUS_HAL_CONFLICT n
      (.tail _ (.head _))).withTime).tdcBatch (.tail _ (.head _))
end

/-! ## An event at its taps (R41, R220) -/

/-- Folding a step that leaves every element's accumulator as it is. -/
theorem foldl_same {α β : Type} {f : α → β → α} {a : α} {l : List β} (h : ∀ x ∈ l, f a x = a) : l.foldl f a = a := by
  induction l with
  | nil => rfl
  | cons x t ih =>
    rw [List.foldl_cons, h x List.mem_cons_self]
    exact ih fun y hy => h y (List.mem_cons_of_mem _ hy)

/-- What the taps leave alone: the clock, the waiting events, the sections, the frame cores, and every register at or above FMR that no interrupt
event moves. -/
structure TapStep (d e : Dev) : Prop where
  clk : e.clk = d.clk
  halyards : e.halyards = d.halyards
  sections : e.sections = d.sections
  core : ∀ c, c < 16 → e.core c = d.core c
  reg : ∀ o, 0x100000 ≤ o → irqReg o = false → e.reg o = d.reg o

namespace TapStep
theorem refl (d : Dev) : TapStep d d := ⟨rfl, rfl, rfl, fun _ _ => rfl, fun _ _ _ => rfl⟩
theorem trans {a b c : Dev} (h1 : TapStep a b) (h2 : TapStep b c) : TapStep a c :=
  ⟨h2.clk.trans h1.clk, h2.halyards.trans h1.halyards, h2.sections.trans h1.sections, fun n hn => (h2.core n hn).trans (h1.core n hn),
    fun o ho hi => (h2.reg o ho hi).trans (h1.reg o ho hi)⟩
theorem foldl {α : Type} {f : Dev → α → Dev} {l : List α} (hf : ∀ x ∈ l, ∀ d, TapStep d (f d x)) (d : Dev) : TapStep d (l.foldl f d) := by
  induction l generalizing d with
  | nil => exact refl d
  | cons x t ih => exact (hf x List.mem_cons_self d).trans (ih (fun y hy => hf y (List.mem_cons_of_mem _ hy)) _)
/-- Registers below FMR and interrupt state do not matter. -/
theorem of_frame {w : List Nat} {d e : Dev} (h : Frame w d e) (hw : ∀ o ∈ w, o < 0x100000) : TapStep d e := by
  obtain ⟨hr, ho⟩ := h
  unfold OnlyRegs at ho
  have hreg : ∀ o, 0x100000 ≤ o → irqReg o = false → e.reg o = d.reg o := fun o h hi => hr o (fun hm => absurd (hw o hm) (by omega)) hi
  rw [← ho] at hreg ⊢
  exact ⟨rfl, rfl, rfl, fun _ _ => rfl, hreg⟩

theorem mapped (d : Dev) (code : Nat) : TapStep d (d.mapped code) := by
  unfold Dev.mapped
  split
  · exact refl d
  · refine foldl (fun p _ d => ?_) d
    split
    · exact of_frame (w := []) ((Frame.refl _ d).raise _ _ (by omega)) (by simp)
    · exact refl d
theorem halyardSend (d : Dev) (e : HalEvent) : TapStep d (d.halyardSend e) := by
  unfold Dev.halyardSend
  split
  · unfold Dev.staySend
    refine trans ?_ (foldl (fun _ _ d => ?_) _) <;> exact ⟨rfl, rfl, rfl, fun _ _ => rfl, fun _ _ _ => rfl⟩
  · exact refl d
theorem setCore_tile (d : Dev) (t : Nat) (f : Core → Core) : TapStep d (d.setCore (16 + t) f) :=
  ⟨rfl, rfl, rfl, fun c hc => Tab.getD_put_ne _ _ _ (by omega), fun _ _ _ => rfl⟩
theorem tileTaps (d : Dev) (t : Nat) : TapStep d (d.tileTaps t) := by
  have free (b : Dev) : TapStep b b.usedFree := ⟨rfl, rfl, rfl, fun _ _ => rfl, fun _ _ _ => rfl⟩
  unfold Dev.tileTaps
  split
  · exact refl d
  · split
    · exact (setCore_tile d t _).trans (free _)
    · exact free d
theorem markDrop (d : Dev) {n : Nat} (hn : n < 8) : TapStep d (d.markDrop n) := by
  have hlow : F.MRK_DROP_COUNT.at_ n 0 < 0x100000 := by
    show 0x6201c + n * 0x40 + 0 * 0 < _
    omega
  refine of_frame (w := [F.MRK_DROP_COUNT.at_ n 0]) (((Frame.refl _ d).inc _ _ _ _ (List.mem_singleton_self _)).raise 3 28 (by decide)) ?_
  simpa using hlow
theorem markRequest (d : Dev) {n : Nat} (hn : n < 8) (t width : Nat) : TapStep d (d.markRequest n t width) := by
  unfold Dev.markRequest
  dsimp only
  split
  · exact markDrop d hn
  · refine trans ?_ (foldl (fun _ _ d => markDrop d hn) _)
    exact ⟨rfl, rfl, rfl, fun _ _ => rfl, fun _ _ _ => rfl⟩
end TapStep

/-- Without a trigger unit in an ACTIVE section no slot takes the event. -/
theorem Dev.feedSlots_none {d : Dev} (h : ∀ i, i < 128 → d.activeKind i 4 = false) (kind param : Nat) (edge : Option Nat) (t station o : Nat) :
    d.feedSlots kind param edge t station o = d := by
  unfold Dev.feedSlots
  refine foldl_same fun i hi => ?_
  rw [h i (List.mem_range.mp hi)]
  rfl

/-- The event bits a tap word gives a halyard (R220). -/
def tapBits (tap h : Nat) : Nat :=
  (List.range 4).foldl (fun m k => if bits tap (8 * k) 8 % 64 = h ∧ (bits tap (8 * k) 8).testBit 7 then m + 2 ^ k else m) 0
/-- A sum of four distinct powers of two has the bits that were summed. -/
theorem testBit_sumBits (p : Nat → Prop) [DecidablePred p] {k : Nat} (hk : k < 4) :
    ((List.range 4).foldl (fun m k => if p k then m + 2 ^ k else m) 0).testBit k = decide (p k) := by
  have key : ∀ b : Fin 4 → Bool, ∀ k : Fin 4, ((List.finRange 4).foldl (fun m k => if b k then m + 2 ^ k.val else m) 0).testBit k = b k := by decide
  have := key (fun j => decide (p j)) ⟨k, hk⟩
  simpa [List.range_succ, List.finRange] using this
theorem testBit_tapBits {tap h k : Nat} (hk : k < 4) (hname : bits tap (8 * k) 6 = h) (hen : tap.testBit (8 * k + 7) = true) : (tapBits tap h).testBit k = true := by
  have hmod : bits tap (8 * k) 8 % 64 = h := by
    rw [← hname]
    exact Nat.mod_mod_of_dvd _ (by decide)
  have hbit : (bits tap (8 * k) 8).testBit 7 = true := by rw [testBit_bits, hen]; rfl
  unfold tapBits
  rw [testBit_sumBits (fun k => bits tap (8 * k) 8 % 64 = h ∧ (bits tap (8 * k) 8).testBit 7) hk]
  exact decide_eq_true ⟨hmod, hbit⟩

/-- A core's taps: its event bits gain those its tap word gives. -/
theorem Dev.coreTaps_eq (d : Dev) (h c : Nat) :
    d.coreTaps h c = if tapBits (d.rd F.CORE_HAL_TAP_TAP c) h = 0 then d
      else d.setCore c (fun x => { x with evt := x.evt ||| tapBits (d.rd F.CORE_HAL_TAP_TAP c) h }) := rfl
theorem Dev.coreTaps_shape (d : Dev) (h c : Nat) : ∃ t, d.coreTaps h c = { d with cores := t } := by
  rw [Dev.coreTaps_eq]
  split
  · exact ⟨d.cores, rfl⟩
  · exact ⟨_, rfl⟩
/-- Event bits stand while other taps are served. -/
theorem Dev.evt_coreTaps_kept {d : Dev} {c k : Nat} (hbit : (d.core c).evt.testBit k = true) (h j : Nat) : ((d.coreTaps h j).core c).evt.testBit k = true := by
  rw [Dev.coreTaps_eq]
  split
  · exact hbit
  · by_cases e : c = j
    · subst e
      rw [Dev.core, Dev.setCore, Tab.getD_put_same, Nat.testBit_or, hbit, Bool.true_or]
    · rw [Dev.core, Dev.setCore, Tab.getD_put_ne _ _ _ e]
      exact hbit
theorem Dev.evt_coreTaps_own {d : Dev} {c h k : Nat} (hk : (tapBits (d.rd F.CORE_HAL_TAP_TAP c) h).testBit k = true) :
    ((d.coreTaps h c).core c).evt.testBit k = true := by
  rw [Dev.coreTaps_eq, if_neg (by intro e; rw [e] at hk; simp at hk), Dev.core, Dev.setCore, Tab.getD_put_same, Nat.testBit_or, hk, Bool.or_true]

/-- After the taps of a list of cores are served. -/
def Dev.coresTapped (d : Dev) (h : Nat) (l : List Nat) : Dev := l.foldl (fun d c => d.coreTaps h c) d
theorem Dev.coresTapped_shape (h : Nat) : ∀ (l : List Nat) (d : Dev), ∃ t, d.coresTapped h l = { d with cores := t }
  | [], d => ⟨d.cores, rfl⟩
  | c :: l, d => by
    obtain ⟨t, e⟩ := d.coreTaps_shape h c
    obtain ⟨u, e'⟩ := Dev.coresTapped_shape h l (d.coreTaps h c)
    exact ⟨u, by rw [Dev.coresTapped, List.foldl_cons]; rw [Dev.coresTapped] at e'; rw [e', e]⟩
theorem Dev.evt_coresTapped_kept {c k : Nat} (h : Nat) : ∀ (l : List Nat) (d : Dev), (d.core c).evt.testBit k = true →
    ((d.coresTapped h l).core c).evt.testBit k = true
  | [], _, hbit => hbit
  | j :: l, d, hbit => Dev.evt_coresTapped_kept h l (d.coreTaps h j) (Dev.evt_coreTaps_kept hbit h j)
/-- A frame core whose tap names the halyard has its event bit. -/
theorem Dev.evt_coresTapped {c h k : Nat} : ∀ (l : List Nat) (d : Dev), c ∈ l → (tapBits (d.rd F.CORE_HAL_TAP_TAP c) h).testBit k = true →
    ((d.coresTapped h l).core c).evt.testBit k = true
  | [], _, hc, _ => absurd hc List.not_mem_nil
  | j :: l, d, hc, hk => by
    rcases List.mem_cons.mp hc with rfl | hc
    · exact Dev.evt_coresTapped_kept h l _ (Dev.evt_coreTaps_own hk)
    · refine Dev.evt_coresTapped l (d.coreTaps h j) hc ?_
      obtain ⟨t, e⟩ := d.coreTaps_shape h j
      rw [e]
      exact hk

/-- The tap words of the frame cores. -/
theorem tapReg_high (c : Nat) : 0x100000 ≤ F.CORE_HAL_TAP_TAP.at_ c 0 := by
  show 0x100000 ≤ 0x430034 + c * 0x40000 + 0 * 0
  omega
theorem tapReg_ne_seen {c h : Nat} (hh : h < 64) : F.CORE_HAL_TAP_TAP.at_ c 0 ≠ F.FMR_HAL_SEEN_SEEN.at_ (h / 32) 0 := by
  show 0x430034 + c * 0x40000 + 0 * 0 ≠ 0x100020 + h / 32 * 4 + 0 * 0
  omega
theorem irqReg_tap {c : Nat} (hc : c < 16) : irqReg (F.CORE_HAL_TAP_TAP.at_ c 0) = false := by
  have h1 : ¬ (0x430034 + c * 0x40000 + 0 * 0 < 0x30900) := by omega
  have h2 : ¬ ((0x430034 + c * 0x40000 + 0 * 0 - 0x430024) % 0x40000 < 8) := by omega
  show irqReg (0x430034 + c * 0x40000 + 0 * 0) = false
  unfold irqReg
  rw [decide_eq_false h1, decide_eq_false h2]
  simp

/-- The engine when the oldest event is seen at its taps. -/
def Dev.halSeen (d : Dev) (x : HalEvent) (rest : List HalEvent) : Dev :=
  ({ d.advanceTo (x.clk + 3) with halyards := rest } : Dev).setBits F.FMR_HAL_SEEN_SEEN (2 ^ (x.hal % 32)) (x.hal / 32)
/-- And when its code and its word to the other stations are out. -/
def Dev.halOut (d : Dev) (x : HalEvent) (rest : List HalEvent) : Dev := ((d.halSeen x rest).mapped (0x1000 + x.hal)).halyardSend x
theorem Dev.halOut_step (d : Dev) (x : HalEvent) (rest : List HalEvent) : TapStep (d.halSeen x rest) (d.halOut x rest) :=
  (TapStep.mapped _ _).trans (TapStep.halyardSend _ _)

section
variable {d : Dev} {x : HalEvent} {rest : List HalEvent}

/-- The event shows as seen. -/
theorem Dev.seen_halSeen (d : Dev) (x : HalEvent) (rest : List HalEvent) :
    ((d.halSeen x rest).rd F.FMR_HAL_SEEN_SEEN (x.hal / 32)).testBit (x.hal % 32) = true := by
  have hbit : x.hal % 32 < 32 := Nat.mod_lt _ (by decide)
  unfold Dev.halSeen
  rw [Dev.rd_setBits, Dev.rd_wr_same _ _ _ _ _ (by decide)]
  show Nat.testBit (_ % 2 ^ 32) _ = true
  rw [Nat.testBit_mod_two_pow]
  simp [Nat.testBit_or, hbit]
/-- Only the word of `FMR_HAL_SEEN` moves. -/
theorem Dev.reg_halSeen {o : Nat} (ho : o ≠ F.FMR_HAL_SEEN_SEEN.at_ (x.hal / 32) 0) : (d.halSeen x rest).reg o = d.reg o := by
  unfold Dev.halSeen
  rw [Dev.reg_setBits_ne _ _ _ _ _ ho]
  exact Dev.reg_congr (d := d) (Dev.advanceTo_regs d _) o

theorem Dev.activeKind_halOut (hx : x.hal < 64) {i k : Nat} (hi : i < 128) : (d.halOut x rest).activeKind i k = d.activeKind i k := by
  have hstep := d.halOut_step x rest
  have hreg : (d.halOut x rest).reg (F.FMR_SEC_STATE_STATE.at_ i 0) = d.reg (F.FMR_SEC_STATE_STATE.at_ i 0) := by
    refine (hstep.reg _ ?_ (irqReg_secState hi)).trans (Dev.reg_halSeen ?_)
    · show 0x100000 ≤ 0x101004 + i * 0x10 + 0 * 0
      omega
    · show 0x101004 + i * 0x10 + 0 * 0 ≠ 0x100020 + x.hal / 32 * 4 + 0 * 0
      omega
  have hsec : (d.halOut x rest).sections = d.sections := hstep.sections.trans (Dev.advanceTo_sections d _)
  have hstate : (d.halOut x rest).secState i = d.secState i := congrArg (fun w : Word => w.field 0 3) hreg
  unfold Dev.activeKind Dev.kind Dev.desc
  rw [hstate, hsec]

/-- The taps of an event that no trigger unit takes: frame cores, then tile cores and markers. -/
theorem Dev.halArrive_eq (hd : d.halyards = x :: rest) (hx : x.hal < 64) (hidle : ∀ i, i < 128 → d.activeKind i 4 = false) :
    TapStep ((d.halOut x rest).coresTapped x.hal (List.range 16)) d.halArrive := by
  have hidle' : ∀ i, i < 128 → (d.halOut x rest).activeKind i 4 = false := fun i hi => (Dev.activeKind_halOut hx hi).trans (hidle i hi)
  unfold Dev.halArrive
  rw [hd]
  simp only
  rw [← Dev.halSeen, ← Dev.halOut]
  simp only [Dev.feedSlots_none hidle', ite_self]
  rw [← Dev.coresTapped]
  refine TapStep.trans (TapStep.foldl (fun t _ b => TapStep.tileTaps b t) _) (TapStep.foldl (fun n hn b => ?_) _)
  split
  · exact TapStep.markRequest b (List.mem_range.mp hn) _ _
  · exact TapStep.refl b
end

/-- What the arrival of the oldest event leaves (R41, R220). -/
theorem Dev.halArrive_holds {d : Dev} {x : HalEvent} {rest : List HalEvent} (hd : d.halyards = x :: rest) (hx : x.hal < 64)
    (hidle : ∀ i, i < 128 → d.activeKind i 4 = false) :
    (d.halArrive.rd F.FMR_HAL_SEEN_SEEN (x.hal / 32)).testBit (x.hal % 32) = true ∧ d.halArrive.halyards = rest ∧
    d.halArrive.clk = max d.clk (x.clk + 3) ∧
    (∀ c k, c < 16 → k < 4 → bits (d.rd F.CORE_HAL_TAP_TAP c) (8 * k) 6 = x.hal → (d.rd F.CORE_HAL_TAP_TAP c).testBit (8 * k + 7) = true →
      (d.halArrive.core c).evt.testBit k = true) := by
  have hlast := Dev.halArrive_eq hd hx hidle
  have hout := d.halOut_step x rest
  obtain ⟨cores, hcores⟩ := Dev.coresTapped_shape x.hal (List.range 16) (d.halOut x rest)
  have hreg (o : Nat) (ho : 0x100000 ≤ o) (hi : irqReg o = false) : d.halArrive.reg o = (d.halSeen x rest).reg o := by
    refine (hlast.reg o ho hi).trans (Eq.trans ?_ (hout.reg o ho hi))
    rw [hcores]
    rfl
  refine ⟨?_, ?_, ?_, fun c k hc hk hname hen => ?_⟩
  · have hseen : d.halArrive.rd F.FMR_HAL_SEEN_SEEN (x.hal / 32) = (d.halSeen x rest).rd F.FMR_HAL_SEEN_SEEN (x.hal / 32) := by
      refine congrArg (fun w : Word => w.field 0 32) (hreg _ ?_ (irqReg_fmr (by decide) (by decide) (by decide) (by omega)))
      show 0x100000 ≤ 0x100020 + x.hal / 32 * 4 + 0 * 0
      omega
    rw [hseen]
    exact d.seen_halSeen x rest
  · rw [hlast.halyards, hcores]
    exact hout.halyards
  · rw [hlast.clk, hcores]
    exact hout.clk.trans (Dev.advanceTo_clk d _)
  · have htap : (d.halOut x rest).rd F.CORE_HAL_TAP_TAP c = d.rd F.CORE_HAL_TAP_TAP c :=
      congrArg (fun w : Word => w.field 0 32) ((hout.reg _ (tapReg_high c) (irqReg_tap hc)).trans (Dev.reg_halSeen (tapReg_ne_seen hx)))
    rw [hlast.core c hc]
    exact Dev.evt_coresTapped _ _ (List.mem_range.mpr hc) (htap ▸ testBit_tapBits hk hname hen)

/-! ## The obligation -/

/-- The driver word of a halyard is not among the registers in which a block answers. -/
theorem driverReg_not_mem (b : DriverSel) (h : Fin 64) : F.FMR_HAL_DRV_KIND.at_ h 0 ∉ b.off h :: b.beside := by
  have hh : h.val < 64 := h.isLt
  cases b with
  | overrange n => exact driverReg_not_mem_cnvRegs n.isLt hh
  | tdc n =>
    have h1 := driverReg_ne hh (.inl (tdcReg_low n F.TDC_IN_CFG_EN (by decide) rfl))
    have h2 := driverReg_ne hh (.inl (tdcReg_low n F.TDC_IN_STATUS_HAL_CONFLICT (by decide) rfl))
    exact List.not_mem_cons_of_ne_of_not_mem h1 (List.not_mem_cons_of_ne_of_not_mem h2 List.not_mem_nil)
  | frameCore n =>
    have h1 : F.FMR_HAL_DRV_KIND.at_ h 0 ≠ F.CORE_HAL_OUT_EN.at_ n 0 := driverReg_ne hh (.inr (by show 0x100400 ≤ 0x430038 + n.val * 0x40000 + 0 * 0; omega))
    exact List.not_mem_cons_of_ne_of_not_mem h1 List.not_mem_nil
  | stay =>
    have h1 : F.FMR_HAL_DRV_KIND.at_ h 0 ≠ F.STY_HAL_IN_MASK.at_ (h.val / 32) 0 :=
      driverReg_ne hh (.inr (by show 0x100400 ≤ 0x3b0028 + h.val / 32 * 4 + 0 * 0; omega))
    have h2 : F.FMR_HAL_DRV_KIND.at_ h 0 ≠ F.STY_STATUS_HAL_CONFLICT.at_ 0 0 := driverReg_ne hh (.inr (by decide))
    exact List.not_mem_cons_of_ne_of_not_mem h1 (List.not_mem_cons_of_ne_of_not_mem h2 List.not_mem_nil)

/-- An enable of a free halyard's drive (R43). -/
theorem Dev.halEnable_free {d : Dev} {b : DriverSel} {h : Fin 64} (htdc : ∀ n, b = .tdc n → n.val < 16) (hfree : d.takenByOther h b.kind b.index = false)
    (hstay : b = .stay → (d.rd F.STY_HAL_IN_MASK (h.val / 32)).testBit (h.val % 32) = false) :
    (d.halEnable b h).hasDriver h b.kind b.index = true ∧
    (b = .stay → ((d.halEnable b h).rd F.STY_HAL_IN_MASK (h.val / 32)).testBit (h.val % 32) = true) ∧
    Frame (b.off h :: b.beside ++ driverRegs) d { d.halEnable b h with time := d.time } := by
  cases b with
  | overrange n =>
    obtain ⟨hdriver, hframe⟩ := Dev.enable_overrange_free (n := n) h.isLt hfree
    exact ⟨hdriver, nofun, hframe.withTime⟩
  | tdc n =>
    obtain ⟨hdriver, hframe⟩ := Dev.enable_tdc_free (n := n) (htdc n rfl) h.isLt hfree
    exact ⟨hdriver, nofun, hframe⟩
  | frameCore n =>
    obtain ⟨hdriver, hframe⟩ := Dev.enable_core_free (c := n) h.isLt hfree
    exact ⟨hdriver, nofun, hframe.withTime⟩
  | stay =>
    obtain ⟨hdriver, hmask, hframe⟩ := Dev.enable_stay_free h.isLt hfree (hstay rfl)
    refine ⟨hdriver, fun _ => hmask, (hframe.mono fun o ho => ?_).withTime⟩
    rcases List.mem_cons.mp ho with rfl | ho
    · exact .head _
    · exact .tail _ (.tail _ ho)
/-- An enable of a halyard that another driver has (R43). -/
theorem Dev.halEnable_taken {d : Dev} {b : DriverSel} {h : Fin 64} (htdc : ∀ n, b = .tdc n → n.val < 16) (htaken : d.takenByOther h b.kind b.index = true)
    (hstay : b = .stay → (d.rd F.STY_HAL_IN_MASK (h.val / 32)).testBit (h.val % 32) = false) :
    (∀ n, b = .overrange n → (d.halEnable b h).rd F.CNV_STATUS_HAL_CONFLICT n = 1) ∧
    (∀ n, b = .tdc n → (d.halEnable b h).rd F.TDC_IN_STATUS_HAL_CONFLICT n = 1) ∧
    (∀ n, b = .frameCore n → (d.halEnable b h).rd F.CORE_HAL_OUT_HAL_CONFLICT n = 1) ∧ (b = .stay → (d.halEnable b h).rd F.STY_STATUS_HAL_CONFLICT = 1) ∧
    Frame (b.off h :: b.beside) d { d.halEnable b h with time := d.time } := by
  cases b with
  | overrange n =>
    obtain ⟨hconflict, hframe⟩ := Dev.enable_overrange_taken (n := n) h.isLt htaken
    exact ⟨fun m e => by cases e; exact hconflict, nofun, nofun, nofun, hframe.withTime⟩
  | tdc n =>
    obtain ⟨hconflict, hframe⟩ := Dev.enable_tdc_taken (n := n) (htdc n rfl) h.isLt htaken
    exact ⟨nofun, fun m e => by cases e; exact hconflict, nofun, nofun, hframe⟩
  | frameCore n =>
    obtain ⟨hconflict, hframe⟩ := Dev.enable_core_taken (c := n) h.isLt htaken
    exact ⟨nofun, nofun, fun m e => by cases e; exact hconflict, nofun, hframe.withTime⟩
  | stay =>
    obtain ⟨hconflict, hframe⟩ := Dev.enable_stay_taken htaken (hstay rfl)
    exact ⟨nofun, nofun, nofun, fun _ => hconflict, (hframe.mono (by simp [DriverSel.beside])).withTime⟩

/-- Settles O11: an enable records its block as the halyard's driver or shows the conflict and leaves the driver; the oldest event shows as seen at its
taps 3 clocks after it was driven, where the frame cores' event bits are set. -/
theorem halyardCommandsComplete : Obligations.HalyardCommandsComplete := by
  unfold Obligations.HalyardCommandsComplete
  refine ⟨fun s => ⟨rfl, fun hrun b h => exec_host_run (f := fun d => d.halEnable b h) rfl hrun⟩, fun s b h htdc => ⟨?_, ?_, ?_⟩⟩
  · intro hrun hfree hstay
    exact completes_host (f := fun d => d.halEnable b h) rfl hrun (Dev.halEnable_free htdc hfree hstay)
  · intro hrun htaken hstay
    have holds := Dev.halEnable_taken htdc htaken hstay
    obtain ⟨hovr, htdc', hcore, hstay', hframe⟩ := holds
    exact completes_host (f := fun d => d.halEnable b h) rfl hrun
      ⟨hframe.1 _ (driverReg_not_mem b h) (irqReg_driver h.isLt), hovr, htdc', hcore, hstay', hframe⟩
  · intro x rest hd hx hidle
    have holds := Dev.halArrive_holds hd (by omega) hidle
    rw [hx] at holds
    exact completes_lift (f := Dev.halArrive) rfl holds
end Machine
end Sys2Proof
end

