-- ==== Sys2Proof/Proofs/SectionMoves.lean ====
section
/-! PROOFS. What a section's own run, channel, transform, trace, capture and density can move is apart from what its commands show: the state words of
`FMR`, the pending words of the groups below 8, the section table, the load queue and the clock. The lemmas go by operation, in the order of the model. -/

namespace Sys2Proof
namespace Machine

/-- `e` shows of the sections what `d` shows: every register below the stores' blocks, but for the interrupt groups from 8 on, reads the same, and the
section table, the load queue and the clock stay. Unless `new`, a section without a run has none. -/
structure SecKept (new : Prop) (d e : Dev) : Prop where
  reg : ∀ o, o < 0x300000 → (o < 0x30200 ∨ 0x30900 ≤ o) → e.reg o = d.reg o
  sections : e.sections = d.sections
  loads : e.loads = d.loads
  clk : e.clk = d.clk
  runs : ¬ new → ∀ i, d.runs.get? i = none → e.runs.get? i = none

/-! ## Events of the interrupt groups from 8 on -/

theorem doorbell_ne {o : Nat} (ho : o < 0x300000) (b c : Nat) (_ : c < 16) (h : b = 0x430024 ∨ b = 0x430028) : o ≠ b + c * 0x40000 + 0 * 0 := by
  rcases h with rfl | rfl <;> omega
/-- The words of group g. -/
theorem group_ne {g o b : Nat} (hg : 8 ≤ g) (hg' : g < 64) (ho : o < 0x30200 ∨ 0x30900 ≤ o) (h0 : 0x30100 ≤ b) (h1 : b < 0x30120) :
    o ≠ b + g * 0x20 + 0 * 0 := by
  omega
theorem Dev.reg_raise_high (d : Dev) {g o : Nat} (s : Nat) (hg : 8 ≤ g) (hg' : g < 64) (hlow : o < 0x300000) (ho : o < 0x30200 ∨ 0x30900 ≤ o) :
    (d.raise g s).reg o = d.reg o := by
  unfold Dev.raise
  rw [Dev.reg_tryDeliver_of _ (group_ne (b := 0x30114) hg hg' ho (by decide) (by decide)) (group_ne (b := 0x3011c) hg hg' ho (by decide) (by decide))
    (doorbell_ne hlow)]
  exact Dev.reg_setBits_ne _ _ _ _ _ (group_ne (b := 0x30100) hg hg' ho (by decide) (by decide))
theorem Dev.reg_level_high (d : Dev) {g o : Nat} (s : Nat) (v : Bool) (hg : 8 ≤ g) (hg' : g < 64) (hlow : o < 0x300000)
    (ho : o < 0x30200 ∨ 0x30900 ≤ o) : (d.level g s v).reg o = d.reg o := by
  have hraw : o ≠ F.IRQ_RAW_RAW.at_ g 0 := group_ne (b := 0x3010c) hg hg' ho (by decide) (by decide)
  unfold Dev.level
  dsimp only
  split
  · split
    · exact Dev.reg_wr_ne _ _ _ _ _ hraw
    · exact (Dev.reg_raise_high _ s hg hg' hlow ho).trans (Dev.reg_wr_ne _ _ _ _ _ hraw)
  · exact Dev.reg_wr_ne _ _ _ _ _ hraw

namespace SecKept

theorem refl (new : Prop) (d : Dev) : SecKept new d d := ⟨fun _ _ _ => rfl, rfl, rfl, rfl, fun _ _ h => h⟩
theorem trans {new : Prop} {a b c : Dev} (h1 : SecKept new a b) (h2 : SecKept new b c) : SecKept new a c :=
  ⟨fun o hl ho => (h2.reg o hl ho).trans (h1.reg o hl ho), h2.sections.trans h1.sections, h2.loads.trans h1.loads, h2.clk.trans h1.clk,
    fun hn i hi => h2.runs hn i (h1.runs hn i hi)⟩

section
variable {new : Prop} {a b : Dev}

/-! ## Single moves -/

/-- A change of anything else. -/
theorem other (h : SecKept new a b) {c : Dev} (hregs : c.regs = b.regs) (hsec : c.sections = b.sections) (hloads : c.loads = b.loads)
    (hclk : c.clk = b.clk) (hruns : c.runs = b.runs) : SecKept new a c :=
  h.trans ⟨fun _ _ _ => Dev.reg_congr hregs _, hsec, hloads, hclk, fun _ _ hi => hruns ▸ hi⟩
theorem ite (p : Prop) [Decidable p] {x y : Dev} (hx : SecKept new a x) (hy : SecKept new a y) : SecKept new a (if p then x else y) := by
  split <;> assumption
theorem foldl {α : Type} {f : Dev → α → Dev} (hf : ∀ (b : Dev) (x : α), SecKept new a b → SecKept new a (f b x)) :
    ∀ (l : List α) {b : Dev}, SecKept new a b → SecKept new a (l.foldl f b)
  | [], _, h => h
  | x :: t, b, h => foldl hf t (hf b x h)

theorem setReg (h : SecKept new a b) {o : Nat} (ho : 0x300000 ≤ o) (v : Word) : SecKept new a (b.setReg o v) :=
  h.trans ⟨fun _ hl _ => Dev.reg_setReg_ne b v (by omega), rfl, rfl, rfl, fun _ _ hi => hi⟩
theorem wr (h : SecKept new a b) (f : Fld) (v n m : Nat) (ho : 0x300000 ≤ f.off) : SecKept new a (b.wr f v n m) :=
  h.setReg (by unfold Fld.at_; omega) _
theorem inc (h : SecKept new a b) (f : Fld) (n m k : Nat) (ho : 0x300000 ≤ f.off) : SecKept new a (b.inc f n m k) := h.wr f _ n m ho
theorem flag (h : SecKept new a b) (f : Fld) (v : Bool) (n m : Nat) (ho : 0x300000 ≤ f.off) : SecKept new a (b.flag f v n m) := h.wr f _ n m ho
theorem setBits (h : SecKept new a b) (f : Fld) (v n m : Nat) (ho : 0x300000 ≤ f.off) : SecKept new a (b.setBits f v n m) :=
  (h.wr f (b.rd f n m ||| v) n m ho).other rfl rfl rfl rfl rfl
theorem raise (h : SecKept new a b) (g s : Nat) (hg : 8 ≤ g) (hg' : g < 64) : SecKept new a (b.raise g s) :=
  h.trans ⟨fun _ hl ho => Dev.reg_raise_high b s hg hg' hl ho, by simp, by simp, by simp, fun _ _ hi => by simpa using hi⟩
theorem level (h : SecKept new a b) (g s : Nat) (v : Bool) (hg : 8 ≤ g) (hg' : g < 64) : SecKept new a (b.level g s v) :=
  h.trans ⟨fun _ hl ho => Dev.reg_level_high b s v hg hg' hl ho, by simp, by simp, by simp, fun _ _ hi => by simpa using hi⟩

theorem putRun (h : SecKept new a b) (hn : new) (i : Nat) (u : Run) : SecKept new a { b with runs := b.runs.put i u } :=
  h.trans ⟨fun _ _ _ => rfl, rfl, rfl, rfl, fun hno => absurd hn hno⟩
theorem setRun (h : SecKept new a b) (i : Nat) (f : Run → Run) : SecKept new a (b.setRun i f) := by
  unfold Dev.setRun
  split
  next u hu =>
    refine h.trans ⟨fun _ _ _ => rfl, rfl, rfl, rfl, fun _ j hj => ?_⟩
    by_cases e : j = i
    · rw [e, hu] at hj
      cases hj
    · exact (Tab.get?_put_ne _ _ e).trans hj
  next => exact h
theorem eraseRun (h : SecKept new a b) (i : Nat) : SecKept new a { b with runs := b.runs.erase i } := by
  refine h.trans ⟨fun _ _ _ => rfl, rfl, rfl, rfl, fun _ j hj => ?_⟩
  by_cases e : j = i
  · rw [e]
    exact Tab.get?_erase_same _ _
  · exact (Tab.get?_erase_ne _ e).trans hj

theorem setRing (h : SecKept new a b) (r : Nat) (f : Ring → Ring) : SecKept new a (b.setRing r f) := h.other rfl rfl rfl rfl rfl
theorem setWide (h : SecKept new a b) (f : Fld) (v n : Nat) : SecKept new a (b.setWide f v n) := h.other rfl rfl rfl rfl rfl
theorem usedFree (h : SecKept new a b) : SecKept new a b.usedFree := h.other rfl rfl rfl rfl rfl
theorem galStore (h : SecKept new a b) (p : Nat) (v : Byte) : SecKept new a (b.galStore p v) := h.other rfl rfl rfl rfl rfl
theorem setKnob (h : SecKept new a b) (i off v : Nat) : SecKept new a (b.setKnob i off v) := h.setReg (by unfold knobAt; omega) _
theorem setKnobBits (h : SecKept new a b) (i off lo w v : Nat) : SecKept new a (b.setKnobBits i off lo w v) := h.setReg (by unfold knobAt; omega) _
theorem setWideKnob (h : SecKept new a b) (i off v : Nat) : SecKept new a (b.setWideKnob i off v) := h.other rfl rfl rfl rfl rfl
theorem incKnob (h : SecKept new a b) (i off k : Nat) : SecKept new a (b.incKnob i off k) := h.setKnob _ _ _
theorem putChans (h : SecKept new a b) (t : Tab Chan) : SecKept new a { b with chans := t } := h.other rfl rfl rfl rfl rfl
theorem putXfrms (h : SecKept new a b) (t : Tab Xfrm) : SecKept new a { b with xfrms := t } := h.other rfl rfl rfl rfl rfl
theorem putTraces (h : SecKept new a b) (t : Tab Trace) : SecKept new a { b with traces := t } := h.other rfl rfl rfl rfl rfl
theorem putDenses (h : SecKept new a b) (t : Tab Dens) : SecKept new a { b with denses := t } := h.other rfl rfl rfl rfl rfl
theorem putRawcs (h : SecKept new a b) (t : Tab Rawc) : SecKept new a { b with rawcs := t } := h.other rfl rfl rfl rfl rfl

theorem mapped (h : SecKept new a b) (code : Nat) : SecKept new a (b.mapped code) := by
  unfold Dev.mapped
  split
  · exact h
  · refine foldl (fun c p hc => ?_) _ h
    exact ite _ (hc.raise _ _ (by omega) (by omega)) hc
theorem sectionEvent (h : SecKept new a b) (i e : Nat) : SecKept new a (b.sectionEvent i e) := h.mapped _

/-! ## Placing records (spec/12_galley.md) -/

theorem ringSummary (h : SecKept new a b) (r : Nat) : SecKept new a (b.ringSummary r) := h.level _ _ _ (by omega) (by omega)
theorem ringEvent (h : SecKept new a b) (r e : Nat) : SecKept new a (b.ringEvent r e) := (h.setBits _ _ _ _ (by decide)).ringSummary r

theorem walkFault (h : SecKept new a b) (ring : Option Nat) : SecKept new a (match ring with
    | some r => (b.inc F.GAL_FAULT_COUNT_COUNT).ringEvent r 5
    | none => (b.inc F.GAL_FAULT_COUNT_COUNT).usedFree) := by
  cases ring with
  | some r => exact (h.inc _ _ _ _ (by decide)).ringEvent r 5
  | none => exact (h.inc _ _ _ _ (by decide)).usedFree
theorem walkBy (h : SecKept new a b) (ring : Option Nat) (idx dir : Nat) : SecKept new a (b.walkBy ring idx dir) := by
  have miss := h.inc F.GAL_CACHE_MISS_COUNT 0 0 1 (by decide)
  unfold Dev.walkBy
  dsimp only
  split
  · exact h
  · split
    · refine (walkFault (ite _ miss ?_) ring).raise 26 28 (by decide) (by decide)
      exact ((((((miss.wr _ _ _ _ (by decide)).wr _ _ _ _ (by decide)).wr _ _ _ _ (by decide)).wr _ _ _ _ (by decide)).wr
        _ _ _ _ (by decide)).wr _ _ _ _ (by decide)).setBits _ _ _ _ (by decide)
    · split <;> exact miss.other rfl rfl rfl rfl rfl
theorem walk (h : SecKept new a b) (r i t : Nat) : SecKept new a (b.walk r i t) := h.walkBy _ _ _
theorem killPage (h : SecKept new a b) (r p : Nat) : SecKept new a (b.killPage r p) := by
  unfold Dev.killPage
  exact ite _ h ((((h.setRing r _).inc _ _ _ _ (by decide)).ringEvent r 6).raise 26 31 (by decide) (by decide))
theorem noteFill (h : SecKept new a b) (r : Nat) : SecKept new a (b.noteFill r) := by
  unfold Dev.noteFill
  exact ite _ ((h.setRing r _).ringEvent r 2) (h.setRing r _)
theorem liveWr (r : Nat) : ∀ (n : Nat) {b : Dev}, SecKept new a b → SecKept new a (b.liveWr r n).1
  | 0, _, h => h
  | n + 1, b, h => by
    unfold Dev.liveWr
    dsimp only
    split
    · exact h.walk _ _ _
    · exact liveWr r n ((h.walk _ _ _).killPage _ _)
theorem walkSpan (h : SecKept new a b) (r pos n : Nat) : ∀ k, SecKept new a (b.walkSpan r pos n k)
  | 0 => h
  | k + 1 => by
    have ih := h.walkSpan r pos n k
    unfold Dev.walkSpan
    dsimp only
    exact ite _ ih (ite _ ((ih.walk _ _ _).killPage _ _) (ih.walk _ _ _))
theorem ringStore (r : Nat) : ∀ (l : List Byte) (pos : Nat) {b : Dev}, SecKept new a b → SecKept new a (b.ringStore r pos l)
  | [], _, _, h => h
  | _ :: t, pos, _, h => ringStore r t (pos + 1) (ite _ h (h.galStore _ _))
theorem galStoreAll : ∀ (l : List Byte) (p : Nat) {b : Dev}, SecKept new a b → SecKept new a (b.galStoreAll p l)
  | [], _, _, h => h
  | _ :: t, p, _, h => galStoreAll t (p + 1) (h.galStore _ _)
theorem overrun (h : SecKept new a b) (r : Nat) : SecKept new a (b.overrun r) := by
  unfold Dev.overrun
  dsimp only
  exact ite _ (h.setRing _ _) (((ite _ ((h.setRing _ _).setWide _ _ _) (h.setRing _ _)).inc _ _ _ _ (by decide)).ringEvent _ _)
theorem noteHeader (h : SecKept new a b) (r pos : Nat) : SecKept new a (b.noteHeader r pos) := by
  unfold Dev.noteHeader
  dsimp only
  split
  · exact h
  · exact galStoreAll _ _ h
theorem placeAt (h : SecKept new a b) (r pos tag : Nat) (x : Rec) : SecKept new a (b.placeAt r pos tag x).1 := by
  have stored {c : Dev} (hc : SecKept new a c) (f : Ring → Ring) (v n : Nat) (g : Fld) : SecKept new a ((((c.noteHeader r pos).setRing r f).setWide g v n).overrun r) :=
    (((hc.noteHeader r pos).setRing r f).setWide g v n).overrun r
  unfold Dev.placeAt
  dsimp only
  refine noteFill (ite _ ?_ (ringEvent ?_ _ _)) r <;> exact stored (ringStore r _ _ (ringStore r _ _ (h.walkSpan r pos _ _))) _ _ _ _
theorem placeNext (h : SecKept new a b) (r tag : Nat) (x : Rec) : SecKept new a (b.placeNext r tag x).1 := by
  unfold Dev.placeNext
  dsimp only
  split
  · exact (liveWr r _ h).placeAt _ _ _ _
  · exact liveWr r _ h
theorem placeWith (h : SecKept new a b) (r tag : Nat) (x : Rec) (t : Dev → Nat → Rec) : SecKept new a (b.placeWith r tag x t) :=
  foldl (fun _ _ hc => hc.placeNext _ _ _) _ (h.placeNext _ _ _)
theorem place (h : SecKept new a b) (r tag : Nat) (x : Rec) : SecKept new a (b.place r tag x) := h.placeWith _ _ _ _
theorem room (h : SecKept new a b) (r : Nat) (need : Dev → Nat) : SecKept new a (b.room r need).1 := by
  unfold Dev.room
  split
  · exact h
  · exact liveWr r _ h

/-! ## Runs (R95, R313) -/

theorem noteOverflow (h : SecKept new a b) (r : Nat) : SecKept new a (b.noteOverflow r) := h.flag _ _ _ _ (by decide)
theorem placeLoss (h : SecKept new a b) (i r : Nat) (u : Run) (l : Loss) : SecKept new a (b.placeLoss i r u l) :=
  foldl (fun _ _ hc => hc.place _ _ _) _ h
theorem closeGap (h : SecKept new a b) (i : Nat) : SecKept new a (b.closeGap i) := by
  unfold Dev.closeGap
  cases b.runs.get? i with
  | none => exact h
  | some u =>
    dsimp only
    cases u.ring with
    | none => exact h.setRun _ _
    | some r =>
      have placed := foldl (f := fun d g => d.placeLoss i r u g) (fun _ _ hc => hc.placeLoss _ _ _ _) (u.held ++ u.gap.toList)
        (h.setRun i (fun u => { u with gap := none, held := [] }))
      exact ite _ ((placed.ringEvent _ _).noteOverflow _) placed
theorem endGap (h : SecKept new a b) (i : Nat) : SecKept new a (b.endGap i) := by
  unfold Dev.endGap
  cases b.runs.get? i with
  | none => exact h
  | some u => exact ite _ (h.closeGap i) (h.setRun _ _)
theorem lose (h : SecKept new a b) (i n c : Nat) : SecKept new a (b.lose i n c) := by
  unfold Dev.lose
  cases b.runs.get? i with
  | none => exact h
  | some u =>
    dsimp only
    refine ite _ h ?_
    cases u.gap with
    | none => exact h.setRun _ _
    | some g => exact ite _ (h.setRun _ _) ((h.endGap i).setRun _ _)
theorem settle (i : Nat) : ∀ (k : Nat) {b : Dev}, SecKept new a b → SecKept new a (b.settle i k)
  | 0, _, h => h
  | k + 1, b, h => by
    unfold Dev.settle
    split
    · exact h
    · split
      · exact h
      · split
        · exact settle i k (h.setRun _ _)
        · split
          · exact settle i k ((h.setRun _ _).lose _ _ _)
          · exact h
theorem noteLoss (h : SecKept new a b) (i : Nat) (l : Loss) : SecKept new a (b.noteLoss i l) := by
  have remembered (u : Run) : SecKept new a (match b.chans.get? i with
      | some c => if l.count = 0 then b else { b with chans := b.chans.put i { c with lost := addLoss c.lost l } }
      | none => b) := by
    split
    · exact ite _ h (h.other rfl rfl rfl rfl rfl)
    · exact h
  unfold Dev.noteLoss
  cases b.runs.get? i with
  | none => exact h
  | some u => exact settle i _ ((remembered u).setRun _ _)
theorem takeReserve (h : SecKept new a b) (i : Nat) : SecKept new a (b.takeReserve i) := by
  unfold Dev.takeReserve
  split
  · split
    · exact ite _ h ((h.setRun _ _).setRing _ _)
    · exact h
  · exact h
theorem placeContext (h : SecKept new a b) (i r tag : Nat) (x : Rec) : SecKept new a (b.placeContext i r tag x) := (h.place r tag x).setRun _ _
theorem publishContext (h : SecKept new a b) (i : Nat) (x : Rec) : SecKept new a (b.publishContext i x) := by
  unfold Dev.publishContext
  cases b.runs.get? i with
  | none => exact h
  | some u =>
    dsimp only
    cases u.ring with
    | none => exact h.inc _ _ _ _ (by decide)
    | some r =>
      dsimp only
      have merged := ite (u.ctxWait.isSome = true) (h.inc F.GAL_RING_CNT_MISC_CTX_MERGED r 0 1 (by decide)) h
      have roomed {c : Dev} (hc : SecKept new a c) : SecKept new a (if u.overflowing = true then (c, false) else c.room r (fun d => d.needs r x)).1 := by
        split
        · exact hc
        · exact hc.room _ _
      exact ite _ (((roomed merged).placeContext _ _ _ _).takeReserve _) ((roomed merged).setRun _ _)
theorem startRun (h : SecKept new a b) (hn : new) (i r : Nat) (u : Run) (c : Rec) : SecKept new a (b.startRun i r u c) := by
  have put (x : Run) : SecKept new a { b with runs := b.runs.put i x } := h.putRun hn i x
  unfold Dev.startRun
  dsimp only
  exact publishContext (ite _ (((put _).setRing _ _).inc _ _ _ _ (by decide)) (put _)) i c
theorem endRun (h : SecKept new a b) (i : Nat) : SecKept new a (b.endRun i) := by
  unfold Dev.endRun
  cases b.runs.get? i with
  | none => exact h
  | some u =>
    refine eraseRun ?_ i
    cases u.ring with
    | none => exact h.closeGap i
    | some r =>
      exact (((ite _ ((h.closeGap i).inc _ _ _ _ (by decide)) (h.closeGap i)).setRing _ _).wr _ _ _ _ (by decide)).noteFill _
theorem noteOpen (h : SecKept new a b) (i : Nat) : SecKept new a (b.noteOpen i) := by
  unfold Dev.noteOpen
  split
  · exact ite _ (foldl (fun _ _ hc => hc.noteLoss _ _) _ h) h
  · exact ite _ (foldl (fun _ _ hc => hc.noteLoss _ _) _ h) h
  · exact h

/-! ## What ends with its source (R89, R142, R174, R258, R425) -/

theorem capPlace (h : SecKept new a b) (i r : Nat) (x : Rec) : SecKept new a (b.capPlace i r x) := by
  unfold Dev.capPlace
  exact ite _ ((h.place _ _ _).takeReserve _) (h.inc _ _ _ _ (by decide))
theorem capCloseGap (h : SecKept new a b) (i : Nat) (w : Rawc) (c : Capture) : SecKept new a (b.capCloseGap i w c).1 := by
  unfold Dev.capCloseGap
  cases c.gap with
  | none => exact h
  | some g =>
    dsimp only
    have placed := foldl (f := fun d l => d.capPlace i w.ring (gapRec (d.capUnits w c l.start) 0 0 0xFFFF l)) (fun _ _ hc => hc.capPlace _ _ _)
      (splitLoss (g.count / (2 ^ 32 - 1)) g) h
    exact ite _ (placed.ringEvent _ _) placed
theorem capLose (h : SecKept new a b) (i : Nat) (w : Rawc) (c : Capture) (n cause : Nat) : SecKept new a (b.capLose i w c n cause).1 := by
  unfold Dev.capLose
  dsimp only
  cases c.gap with
  | none => exact h
  | some g =>
    dsimp only
    split
    · exact h
    · exact h.capCloseGap _ _ _
theorem capWrite (h : SecKept new a b) (i : Nat) (w : Rawc) (c : Capture) (x : Hist) : SecKept new a (b.capWrite i w c x).1 := by
  have counted := (ite (x.stoneFull = true) ((h.inc F.GAL_STONE_FULL_COUNT 0 0 1 (by decide)).raise 26 29 (by decide) (by decide)) h).inc
    F.GAL_RING_CNT_OVF_OVF_UNITS w.ring 0 x.count (by decide)
  unfold Dev.capWrite
  dsimp only
  by_cases hcause : x.cause ≠ 0
  · rw [if_pos hcause]
    exact h.capLose _ _ _ _ _
  · rw [if_neg hcause, apply_ite Prod.fst, apply_ite Prod.fst]
    exact ite _ (h.inc _ _ _ _ (by decide)) (ite _ ((h.capCloseGap _ _ _).capPlace _ _ _) (capLose (ite _ counted (counted.ringEvent _ _)) _ _ _ _ _))
theorem setRawc (h : SecKept new a b) (i : Nat) (f : Rawc → Rawc) : SecKept new a (b.setRawc i f) := by
  unfold Dev.setRawc
  split
  · exact h.other rfl rfl rfl rfl rfl
  · exact h
theorem rawcShow (h : SecKept new a b) (i : Nat) : SecKept new a (b.rawcShow i) := by
  unfold Dev.rawcShow
  split
  · exact h
  · exact (h.setKnobBits _ _ _ _ _).setWideKnob _ _ _
theorem rawcTake (h : SecKept new a b) (i : Nat) (x : Hist) : SecKept new a (b.rawcTake i x) := by
  unfold Dev.rawcTake
  split
  · exact h
  · split
    · exact ((h.capWrite _ _ _ _).setRawc _ _).rawcShow _
    · exact (h.setRawc _ _).rawcShow _
theorem rawcLose (h : SecKept new a b) (i stop cause : Nat) : SecKept new a (b.rawcLose i stop cause) := by
  unfold Dev.rawcLose
  split
  · exact ite _ h (foldl (fun _ _ hc => (hc.setRun _ _).rawcTake _ _) _ h)
  · exact h
theorem rawcSettle (h : SecKept new a b) (i : Nat) (own : List Loss) : SecKept new a (b.rawcSettle i own) := by
  unfold Dev.rawcSettle
  split
  · refine foldl (fun c l hc => ?_) _ h
    split
    · exact ite _ (hc.rawcLose _ _ _) hc
    · exact hc
  · exact h
theorem capClose (h : SecKept new a b) (i : Nat) (w : Rawc) (c : Capture) : SecKept new a (b.capClose i w c) :=
  ((h.capCloseGap i w c).capPlace _ _ _).sectionEvent _ _
theorem rawcClose (h : SecKept new a b) (i : Nat) : SecKept new a (b.rawcClose i) := by
  have settled := h.rawcSettle i []
  unfold Dev.rawcClose
  dsimp only
  generalize b.rawcSettle i [] = c at settled ⊢
  cases c.rawcs.get? i with
  | none => exact settled
  | some w =>
    dsimp only
    generalize hclosed : Dev.rawcShow (Dev.setRawc (List.foldl _ c _) i _) i = e
    have closed : SecKept new a e := hclosed ▸ ((foldl (fun _ _ hc => hc.capClose _ _ _) _ settled).setRawc _ _).rawcShow _
    cases e.rawcs.get? i with
    | none => exact closed
    | some x =>
      dsimp only
      exact ite _ closed (ite _ (closed.putRawcs _) (ite _ (((putRawcs (closed.endRun i) _).setKnobBits _ _ _ _ _).setKnobBits _ _ _ _ _) closed))
theorem rawcEnd (h : SecKept new a b) (i code : Nat) : SecKept new a (b.rawcEnd i code) := by
  have settled := h.rawcSettle i []
  unfold Dev.rawcEnd Dev.rawcCode
  dsimp only
  refine ((endRun ?_ i).setKnobBits _ _ _ _ _).setKnobBits _ _ _ _ _
  split
  · exact settled
  · exact (settled.setRawc _ _).rawcClose i
theorem rawcInputStopped (h : SecKept new a b) (i : Nat) : SecKept new a (b.rawcInputStopped i) := (h.rawcEnd i 6).sectionEvent i 4

theorem playDetach (h : SecKept new a b) (i : Nat) : SecKept new a (b.playDetach i) := by
  unfold Dev.playDetach
  exact ite _ h (h.setRing _ _)
theorem chanEnd (h : SecKept new a b) (i code : Nat) : SecKept new a (b.chanEnd i code) :=
  (((putChans ((h.playDetach i).endRun i) _).setKnobBits i 4 0 2 0).setKnob i 0x84 0).setKnobBits i 4 8 8 code
theorem chanInputStopped (h : SecKept new a b) (i : Nat) : SecKept new a (b.chanInputStopped i) := (h.chanEnd i 7).sectionEvent i 4
theorem xfrmEnd (h : SecKept new a b) (i code : Nat) : SecKept new a (b.xfrmEnd i code) :=
  ((putXfrms (h.setWideKnob i 0x50 (b.framesLive i)) _).setKnobBits i 4 0 1 0).setKnobBits i 4 8 8 code
theorem xfrmInputStopped (h : SecKept new a b) (i : Nat) : SecKept new a (b.xfrmInputStopped i) := (h.xfrmEnd i 6).sectionEvent i 1
theorem traceEnd (h : SecKept new a b) (i code : Nat) : SecKept new a (b.traceEnd i code) :=
  ((putTraces (h.endRun i) _).setKnobBits i 4 0 1 0).setKnobBits i 4 8 8 code
theorem traceSourceStopped (h : SecKept new a b) (i : Nat) : SecKept new a (b.traceSourceStopped i) := (h.traceEnd i 6).sectionEvent i 1
theorem densEnd (h : SecKept new a b) (i code : Nat) : SecKept new a (b.densEnd i code) :=
  ((putDenses (h.endRun i) _).setKnobBits i 4 0 1 0).setKnobBits i 4 8 8 code
theorem densSourceStopped (h : SecKept new a b) (i : Nat) : SecKept new a (b.densSourceStopped i) := (h.densEnd i 7).sectionEvent i 1

/-- What ends with its source moves nothing that section commands show, and begins no run. -/
theorem cascade (h : SecKept new a b) : SecKept new a b.cascade := by
  have captures := foldl (f := fun d (p : Nat × Rawc) => d.rawcSettle p.1 []) (fun _ _ hc => hc.rawcSettle _ _) b.rawcs.cells h
  unfold Dev.cascade
  refine foldl (fun _ _ hc => ite _ hc (hc.densSourceStopped _)) _ ?_
  refine foldl (fun _ _ hc => ite _ hc (hc.traceSourceStopped _)) _ ?_
  refine foldl (fun _ _ hc => ite _ (hc.rawcInputStopped _) hc) _ ?_
  refine foldl (fun _ _ hc => ite _ (hc.xfrmInputStopped _) hc) _ ?_
  refine foldl (fun _ _ hc => ite _ (hc.rawcInputStopped _) hc) _ ?_
  exact foldl (fun _ _ hc => ite _ (hc.chanInputStopped _) hc) _ captures

/-! ## What a dark section lost (R62, R178) -/

theorem framesGone (h : SecKept new a b) (i cause f : Nat) : SecKept new a (b.framesGone i cause f) := by
  unfold Dev.framesGone
  split
  · exact h
  · exact ite _ h (h.other rfl rfl rfl rfl rfl)
theorem rawcDark (h : SecKept new a b) (i cause : Nat) : SecKept new a (b.rawcDark i cause) := by
  unfold Dev.rawcDark
  split
  · exact h
  · exact ite _ h (h.rawcSettle _ _)
theorem judge (h : SecKept new a b) (i : Nat) : SecKept new a (b.judge i) := by
  unfold Dev.judge
  dsimp only
  split
  · exact h
  · split
    · exact h.noteLoss _ _
    · exact h
theorem traceDark (h : SecKept new a b) (i stop cause : Nat) : SecKept new a (b.traceDark i stop cause) := by
  unfold Dev.traceDark
  split
  · exact h
  · exact (foldl (fun _ _ hc => hc.lose _ _ _) _ (h.judge _)).incKnob _ _ _
theorem densDark (h : SecKept new a b) (i stop cause : Nat) : SecKept new a (b.densDark i stop cause) := by
  unfold Dev.densDark
  split
  · exact h
  · exact (foldl (fun _ _ hc => hc.lose _ _ _) _ (h.judge _)).incKnob _ _ _
theorem darkLoss (h : SecKept new a b) (i cause : Nat) : SecKept new a (b.darkLoss i cause) := by
  have frames := ite (b.xfrmRunning i = true) (h.framesGone i cause (b.frameNow i)) h
  unfold Dev.darkLoss
  dsimp only
  split
  · exact frames
  · refine ite _ frames ?_
    split
    · exact frames.rawcDark _ _
    · exact frames.traceDark _ _ _
    · exact frames.densDark _ _ _
    · exact (frames.noteOpen _).noteLoss _ _

/-! ## What goes on after dark (R62) and what composition fixed (R165) -/

theorem chanComposed (h : SecKept new a b) (i : Nat) : SecKept new a (b.chanComposed i) := (h.setKnob _ _ _).setKnob _ _ _
theorem xfrmComposed (h : SecKept new a b) (i : Nat) : SecKept new a (b.xfrmComposed i) := (h.setKnob _ _ _).setKnob _ _ _
theorem composed (h : SecKept new a b) (i : Nat) : SecKept new a (b.composed i) := by
  unfold Dev.composed
  split
  · exact h.chanComposed i
  · exact h.xfrmComposed i
  · exact h.setKnob _ _ _
  · exact h.setKnob _ _ _
  · exact h.setKnob _ _ _
  · exact h.setKnob _ _ _
  · exact h
theorem chanReport (h : SecKept new a b) (i lanes : Nat) : SecKept new a (b.chanReport i lanes) := by
  unfold Dev.chanReport Dev.chanNeed
  dsimp only
  refine (((setKnob ?_ _ _ _).setKnobBits _ _ _ _ _).setKnobBits _ _ _ _ _).setKnob _ _ _
  refine setKnob (chanComposed ?_ _) _ _ _
  exact (((((h.setKnob _ _ _).setKnob _ _ _).setKnob _ _ _).setKnob _ _ _).setKnob _ _ _).setKnob _ _ _
theorem bindChan (h : SecKept new a b) (i j s : Nat) : SecKept new a (b.bindChan i j s) := by
  unfold Dev.bindChan Dev.playRef
  dsimp only
  split
  · exact h.other rfl rfl rfl rfl rfl
  · split <;> exact h.other rfl rfl rfl rfl rfl
theorem setChan (h : SecKept new a b) (i : Nat) (f : Chan → Chan) : SecKept new a (b.setChan i f) := h.putChans _
theorem playAttach (h : SecKept new a b) (i : Nat) : SecKept new a (b.playAttach i) := h.setRing _ _
theorem chanResume (h : SecKept new a b) (i : Nat) : SecKept new a (b.chanResume i) := by
  unfold Dev.chanResume
  dsimp only
  refine ite _ h (ite _ (h.chanEnd _ _) (ite _ (h.chanEnd _ _) ?_))
  split
  · exact h
  · have detached (p : Prop) [Decidable p] := ite p h (h.playDetach i)
    refine publishContext (setRun (setKnobBits (setChan (bindChan (chanReport (closeGap (noteLoss ?_ _ _) _) _ _) _ _ _) _ _) _ _ _ _ _) _ _) _ _
    exact ite _ ((detached _).playAttach i) (detached _)
theorem windowReport (h : SecKept new a b) (i : Nat) : SecKept new a (b.windowReport i) := by
  unfold Dev.windowReport Dev.putFigures
  dsimp only
  exact ite _ ((h.setKnob _ _ _).setKnob _ _ _) (ite _ ((h.setKnob _ _ _).setKnob _ _ _) ((h.setKnob _ _ _).setKnob _ _ _))
theorem xfrmReport (h : SecKept new a b) (i : Nat) : SecKept new a (b.xfrmReport i) := by
  unfold Dev.xfrmReport Dev.xfrmNeeds
  dsimp only
  refine (setKnob (setKnob (xfrmComposed ?_ i) _ _ _) _ _ _).setKnobBits _ _ _ _ _
  exact (((h.windowReport i).setKnob _ _ _).setKnob _ _ _).setKnob _ _ _
theorem traceBegin (h : SecKept new a b) (hn : new) (i f : Nat) : SecKept new a (b.traceBegin i f) := by
  have begun (t : Tab Trace) (u : Run) : SecKept new a { b with traces := t, runs := b.runs.put i u } := (h.putTraces t).putRun hn i u
  unfold Dev.traceBegin
  exact (begun _ _).startRun hn _ _ _ _
theorem densBegin (h : SecKept new a b) (hn : new) (i f : Nat) : SecKept new a (b.densBegin i f) := by
  have begun (t : Tab Dens) (u : Run) : SecKept new a { b with denses := t, runs := b.runs.put i u } := (h.putDenses t).putRun hn i u
  unfold Dev.densBegin Dev.setDens
  exact (begun _ _).startRun hn _ _ _ _
theorem densesBegin (h : SecKept new a b) (hn : new) (i f : Nat) : SecKept new a (b.densesBegin i f) :=
  foldl (fun _ _ hc => ite _ (hc.densBegin hn _ _) hc) _ h
theorem xfrmResume (h : SecKept new a b) (hn : new) (i : Nat) : SecKept new a (b.xfrmResume i) := by
  have waiting {c : Dev} (hc : SecKept new a c) (t : Tab Xfrm) (l : List (Nat × Trace)) (f : Nat) :
      SecKept new a (l.foldl (fun d p => if p.2.xfrm = i ∧ (d.runs.get? p.1).isNone then d.traceBegin p.1 f else d) { c with xfrms := t }) :=
    foldl (fun _ _ hc => ite _ (hc.traceBegin hn _ _) hc) l (hc.putXfrms t)
  unfold Dev.xfrmResume
  split
  · exact h
  · exact ite _ (h.xfrmEnd _ _) (waiting ((h.framesGone _ _ _).xfrmReport _) _ _ _)
theorem traceResume (h : SecKept new a b) (i : Nat) : SecKept new a (b.traceResume i) := by
  have dark (t : Tab Trace) (k cause : Nat) : SecKept new a ((({ b with traces := t } : Dev).traceDark i k cause).closeGap i) :=
    ((h.putTraces t).traceDark _ _ _).closeGap _
  unfold Dev.traceResume
  split
  · exact (dark _ _ _).publishContext _ _
  · exact h
theorem densResume (h : SecKept new a b) (i : Nat) : SecKept new a (b.densResume i) := by
  have dark (t : Tab Dens) (k cause : Nat) : SecKept new a ((({ b with denses := t } : Dev).densDark i k cause).closeGap i) :=
    ((h.putDenses t).densDark _ _ _).closeGap _
  unfold Dev.densResume Dev.setDens
  split
  · exact (dark _ _ _).publishContext _ _
  · exact h
theorem rawcResume (h : SecKept new a b) (i cause : Nat) : SecKept new a (b.rawcResume i cause) := by
  unfold Dev.rawcResume
  split
  · exact h
  · exact ite _ (h.rawcDark _ _) ((h.closeGap _).publishContext _ _)

/-! ## Tile cores of a section (R215) -/

theorem setCoreState (h : SecKept new a b) (c st : Nat) : SecKept new a (b.setCoreState c st) := by
  have high : 0x300000 ≤ (coreStateFld c).off := by
    unfold coreStateFld
    split <;> decide
  exact h.wr _ _ _ _ high
theorem tileBegin (h : SecKept new a b) (t : Nat) (x : Core) : SecKept new a (b.tileBegin t x) := by
  have put (q : Tab Core) (r : List ChaseWord) : SecKept new a { b with cores := q, chase := r } := h.other rfl rfl rfl rfl rfl
  exact (((put _ _).setCoreState _ _).wr _ _ _ _ (by decide)).wr _ _ _ _ (by decide)
theorem tilesLoad (h : SecKept new a b) (s : SectionDesc) : SecKept new a (b.tilesLoad s) :=
  foldl (fun _ _ hc => ite _ (hc.tileBegin _ _) hc) _ h
theorem tilesRelease (h : SecKept new a b) (s : SectionDesc) : SecKept new a (b.tilesRelease s) :=
  foldl (fun _ _ hc => ite _ (hc.tileBegin _ _) hc) _ h

end
end SecKept

/-! ## The runs of a section leave dark (R62) -/

/-- What resuming the runs does before the section's own entry forgets the dark time. -/
def Dev.runsResumed (d : Dev) (i : Nat) : Dev :=
  match d.kind i with
  | 1 => if d.chanRunning i then (d.setKnobBits i 4 0 1 1).chanResume i else d
  | 2 =>
    if d.xfrmRunning i then
      let d := (d.setKnobBits i 4 0 1 1).xfrmResume i
      match (d.xfrm i).gone.getLast? with
      | some l => if d.xfrmRunning i then d.densesBegin i (l.start + l.count) else d
      | none => if d.xfrmRunning i then d.densesBegin i (d.frameNow i) else d
    else d
  | 3 => if d.traceRunning i && (d.runs.get? i).isSome then (d.setKnobBits i 4 0 1 1).traceResume i else d
  | 5 => if (d.runs.get? i).isSome then (d.setKnobBits i 4 0 1 1).rawcResume i 6 else d
  | 6 => if d.densRunning i && (d.runs.get? i).isSome then (d.setKnobBits i 4 0 1 1).densResume i else d
  | _ => d
theorem Dev.resumeRuns_eq (d : Dev) (i : Nat) : d.resumeRuns i = (d.runsResumed i).setSection i (fun s => { s with darkFrom := none }) := rfl

theorem SecKept.runsResumed (d : Dev) (i : Nat) : SecKept True d (d.runsResumed i) := by
  have h := SecKept.refl True d
  have shown := h.setKnobBits i 4 0 1 1
  unfold Dev.runsResumed
  split
  · exact .ite _ (shown.chanResume i) h
  · refine .ite _ ?_ h
    dsimp only
    split <;> exact .ite _ ((shown.xfrmResume trivial i).densesBegin trivial _ _) (shown.xfrmResume trivial i)
  · exact .ite _ (shown.traceResume i) h
  · exact .ite _ (shown.rawcResume i 6) h
  · exact .ite _ (shown.densResume i) h
  · exact h

end Machine
end Sys2Proof
end

