-- ==== Sys2Proof/Proofs/SectionCommands.lean ====
section
/-! PROOFS. What UNLOAD, HOLD_DARK, RELEASE, KNOB_HOLD and KNOB_APPLY leave of a section (spec/02_formes.md, R59, R60, R62, R64): settles O9. -/

namespace Sys2Proof
namespace Machine

/-! ## A section's state and code -/

theorem secState_reg_eq (i : Nat) : F.FMR_SEC_STATE_STATE.at_ i 0 = 0x101004 + i * 0x10 := rfl
/-- The counts of sections stand in a register of their own. -/
theorem secState_ne_counts (i : Nat) : F.FMR_SEC_STATE_STATE.at_ i 0 ≠ F.FMR_STATUS_ACTIVE.at_ 0 0 := by
  show 0x101004 + i * 0x10 + 0 * 0 ≠ 0x100004 + 0 * 0 + 0 * 0
  omega
/-- Setting a state moves the section's own word and the word of the counts. -/
theorem Dev.reg_setSec (d : Dev) (i st : Nat) : (d.setSec i st).reg (F.FMR_SEC_STATE_STATE.at_ i 0) =
    (d.reg (F.FMR_SEC_STATE_STATE.at_ i 0)).setField 0 3 st := by
  have hne := secState_ne_counts i
  unfold Dev.setSec
  refine (Dev.reg_wr_ne _ F.FMR_STATUS_LOADING _ _ _ hne).trans ((Dev.reg_wr_ne _ F.FMR_STATUS_ACTIVE _ _ _ hne).trans ?_)
  rw [Dev.reg_wr, if_pos rfl]
  rfl
theorem Dev.secState_setSec (d : Dev) (i st : Nat) : (d.setSec i st).secState i = st % 8 := by
  show ((d.setSec i st).reg (F.FMR_SEC_STATE_STATE.at_ i 0)).field 0 3 = st % 8
  rw [Dev.reg_setSec, Word.field_setField_same _ _ _ _ (by decide)]
  rfl
theorem Dev.knobHold_setSec (d : Dev) (i st : Nat) : (d.setSec i st).rd F.FMR_SEC_STATE_KNOB_HOLD i = d.rd F.FMR_SEC_STATE_KNOB_HOLD i := by
  show ((d.setSec i st).reg (F.FMR_SEC_STATE_STATE.at_ i 0)).field 24 1 = (d.reg (F.FMR_SEC_STATE_STATE.at_ i 0)).field 24 1
  rw [Dev.reg_setSec, Word.field_setField_ne _ _ (by decide) (by decide)]
theorem Dev.secState_secCode (d : Dev) (i c : Nat) : (d.secCode i c).secState i = d.secState i :=
  Dev.rd_wr_field _ _ _ _ _ _ _ _ (by decide) (by decide)
theorem Dev.rd_secCode (d : Dev) (i c : Nat) : (d.secCode i c).rd F.FMR_SEC_STATE_CODE i = c % 256 := Dev.rd_wr_same _ _ _ _ _ (by decide)
theorem Dev.knobHold_secCode (d : Dev) (i c : Nat) : (d.secCode i c).rd F.FMR_SEC_STATE_KNOB_HOLD i = d.rd F.FMR_SEC_STATE_KNOB_HOLD i :=
  Dev.rd_wr_field _ _ _ _ _ _ _ _ (by decide) (by decide)
theorem Frame.setSec {w : List Nat} {a b : Dev} {i : Nat} (h : Frame w a b) (ho : F.FMR_SEC_STATE_STATE.at_ i 0 ∈ w)
    (hc : F.FMR_STATUS_ACTIVE.at_ 0 0 ∈ w) {st : Nat} : Frame w a (b.setSec i st) :=
  ((h.wr F.FMR_SEC_STATE_STATE st i 0 ho).wr F.FMR_STATUS_ACTIVE _ 0 0 hc).wr F.FMR_STATUS_LOADING _ 0 0 hc

/-- The word of section i is among those that runs and cascades leave. -/
theorem SecKept.secState {new : Prop} {d e : Dev} (h : SecKept new d e) {i : Nat} (hi : i < 128) :
    e.reg (F.FMR_SEC_STATE_STATE.at_ i 0) = d.reg (F.FMR_SEC_STATE_STATE.at_ i 0) := by
  refine h.reg _ ?_ ?_ <;> rw [secState_reg_eq] <;> omega

/-- A command that only answers with a code (R59). -/
theorem Dev.secCode_only (d : Dev) (i : Nat) {c : Nat} (hc : c < 256) : (d.secCode i c).rd F.FMR_SEC_STATE_CODE i = c ∧
    (d.secCode i c).secState i = d.secState i ∧ Frame [F.FMR_SEC_STATE_STATE.at_ i 0] d (d.secCode i c) :=
  ⟨(d.rd_secCode i c).trans (Nat.mod_eq_of_lt hc), d.secState_secCode i c, (Frame.refl _ d).secCode (List.mem_singleton_self _)⟩

/-! ## UNLOAD (R59, R62) -/

theorem Dev.runs_endRun (d : Dev) (i : Nat) : (d.endRun i).runs.get? i = none := by
  unfold Dev.endRun
  split
  · assumption
  · exact Tab.get?_erase_same _ _
theorem Dev.sections_endSection (d : Dev) (i : Nat) (unload : Bool) : (d.endSection i unload).sections.get? i = none := Tab.get?_erase_same _ _
theorem Dev.runs_endSection (d : Dev) (i : Nat) (unload : Bool) : (d.endSection i unload).runs.get? i = none := Dev.runs_endRun _ _

theorem OnlyRegs.sections {a b : Dev} (h : OnlyRegs a b) : b.sections = a.sections := by
  unfold OnlyRegs at h; rw [← h]
theorem OnlyRegs.runs {a b : Dev} (h : OnlyRegs a b) : b.runs = a.runs := by
  unfold OnlyRegs at h; rw [← h]
/-- The last steps of UNLOAD, once the section has ended: its drivers, its state and code, and what ends with it. -/
theorem Dev.unloaded_holds {d : Dev} {i : Nat} (hi : i < 128) (hsec : d.sections.get? i = none) (hrun : d.runs.get? i = none) :
    let e := (((d.releaseDriver 1 i 64).setSec i 0).secCode i 0).cascade
    e.secState i = 0 ∧ e.rd F.FMR_SEC_STATE_CODE i = 0 ∧ e.sections.get? i = none ∧ e.runs.get? i = none := by
  intro e
  have hlast : SecKept False (((d.releaseDriver 1 i 64).setSec i 0).secCode i 0) e := (SecKept.refl False _).cascade
  have hreleased : OnlyRegs d (d.releaseDriver 1 i 64) := ((Frame.refl driverRegs d).releaseDriver (fun k hk => mem_driverRegs hk) 1 i 64 le_rfl).2
  have hword := hlast.secState hi
  refine ⟨?_, ?_, ?_, ?_⟩
  · refine (congrArg (fun w : Word => w.field 0 3) hword).trans ((Dev.secState_secCode _ _ _).trans (Dev.secState_setSec _ _ _))
  · exact (congrArg (fun w : Word => w.field 16 8) hword).trans (Dev.rd_secCode _ _ _)
  · rw [hlast.sections]
    exact (congrArg (fun t : Tab Section => t.get? i) hreleased.sections).trans hsec
  · exact hlast.runs not_false i ((congrArg (fun t : Tab Run => t.get? i) hreleased.runs).trans hrun)
theorem Dev.secUnload_holds (d : Dev) {i : Nat} (hi : i < 128) : (d.secUnload i).secState i = 0 ∧ (d.secUnload i).rd F.FMR_SEC_STATE_CODE i = 0 ∧
    (d.secUnload i).sections.get? i = none ∧ (d.secUnload i).runs.get? i = none := by
  unfold Dev.secUnload
  exact Dev.unloaded_holds hi (Dev.sections_endSection _ _ _) (Dev.runs_endSection _ _ _)

/-! ## HOLD_DARK (R60, R64) -/

theorem Dev.setSection_get?_ne (d : Dev) {i j : Nat} (hj : j ≠ i) (f : Section → Section) : (d.setSection i f).sections.get? j = d.sections.get? j := by
  unfold Dev.setSection
  split
  · exact Tab.get?_put_ne _ _ hj
  · rfl
/-- The engine with the section table and the cues of another, which section commands move beside registers. -/
def Dev.withSecs (e d : Dev) : Dev := { e with sections := d.sections, cues := d.cues }
theorem Dev.withSecs_flag (e d : Dev) (f : Fld) (v : Bool) (n : Nat) : (e.flag f v n).withSecs d = (e.withSecs d).flag f v n := rfl
theorem Dev.withSecs_setSec (e d : Dev) (i st : Nat) : (e.setSec i st).withSecs d = (e.withSecs d).setSec i st := rfl
theorem Dev.withSecs_secCode (e d : Dev) (i c : Nat) : (e.secCode i c).withSecs d = (e.withSecs d).secCode i c := rfl
theorem Dev.withSecs_setSection (e d : Dev) (i : Nat) (f : Section → Section) : (e.setSection i f).withSecs d = e.withSecs d := by
  obtain ⟨t, h⟩ := e.setSection_shape i f
  rw [h]
  rfl
theorem Dev.withSecs_cues (e d : Dev) (c : Cues) : ({ e with cues := c } : Dev).withSecs d = e.withSecs d := rfl
/-- Cues that lose what they prepared show it in their own entries. -/
theorem Dev.cuesLose_shape (d : Dev) (i : Nat) : ∃ c, d.cuesLose i = { d with cues := c } := by
  have fold : ∀ (l : List (Nat × Cue)) (b : Dev) (p : Dev → Nat × Cue → Prop) [∀ b x, Decidable (p b x)], ∃ c,
      l.foldl (fun d x => if p d x then d.setCue x.1 (fun c => { c with lost := true }) else d) b = { b with cues := c } := by
    intro l
    induction l with
    | nil => exact fun b _ _ => ⟨b.cues, rfl⟩
    | cons x t ih =>
      intro b p _
      have one : ∃ c, (if p b x then b.setCue x.1 (fun c => { c with lost := true }) else b) = { b with cues := c } := by
        split
        · unfold Dev.setCue
          split
          · exact ⟨_, rfl⟩
          · exact ⟨b.cues, rfl⟩
        · exact ⟨b.cues, rfl⟩
      obtain ⟨c, hc⟩ := one
      obtain ⟨c', hc'⟩ := ih (if p b x then b.setCue x.1 (fun c => { c with lost := true }) else b) p
      exact ⟨c', by rw [List.foldl_cons, hc', hc]⟩
  exact fold _ d _

section
variable {d : Dev} {i : Nat}

/-- What a section loses that goes to HELD: its held knob writes, and what cues prepared for it. -/
theorem Dev.leaveActive_held (hk : d.kind i ≠ 4) : ∃ c, d.leaveActive i true =
    { ((d.setSection i (fun s => { s with held := [], darkFrom := some (s.darkFrom.getD d.clk) })).flag F.FMR_SEC_STATE_KNOB_HOLD false i : Dev) with cues := c } := by
  have hkind : ((d.setSection i (fun s => { s with held := [], darkFrom := some (s.darkFrom.getD d.clk) })).flag F.FMR_SEC_STATE_KNOB_HOLD false i).kind i ≠ 4 := by
    have := d.kind_setSection i i (fun s => { s with held := [], darkFrom := some (s.darkFrom.getD d.clk) }) (fun _ => rfl)
    exact fun h => hk (this.symm.trans h)
  unfold Dev.leaveActive
  simp only [if_neg hkind, if_true]
  exact Dev.cuesLose_shape _ _

theorem Dev.secHold_holds (hst : d.secState i = 2) (hk : d.kind i ≠ 4) :
    (d.secHold i).secState i = 3 ∧ (d.secHold i).rd F.FMR_SEC_STATE_CODE i = 0 ∧ (d.secHold i).rd F.FMR_SEC_STATE_KNOB_HOLD i = 0 ∧
    (∀ x, (d.secHold i).sections.get? i = some x → x.held = []) ∧ (∀ j, j ≠ i → (d.secHold i).sections.get? j = d.sections.get? j) ∧
    Frame [F.FMR_SEC_STATE_STATE.at_ i 0, F.FMR_STATUS_ACTIVE.at_ 0 0] d { d.secHold i with sections := d.sections, cues := d.cues } := by
  obtain ⟨c, hleave⟩ := Dev.leaveActive_held hk
  rw [Dev.secHold, if_pos hst, hleave]
  refine ⟨(Dev.secState_secCode _ _ _).trans (Dev.secState_setSec _ _ _), Dev.rd_secCode _ _ _, ?_, fun x hx => ?_, fun j hj => ?_, ?_⟩
  · rw [Dev.knobHold_secCode, Dev.knobHold_setSec]
    exact Dev.rd_wr_same _ F.FMR_SEC_STATE_KNOB_HOLD _ _ _ (by decide)
  · obtain ⟨y, -, e⟩ := Dev.setSection_get? (d := d) (f := fun s => { s with held := [], darkFrom := some (s.darkFrom.getD d.clk) }) hx
    rw [e]
  · exact d.setSection_get?_ne hj _
  · have hframe := (((Frame.refl [F.FMR_SEC_STATE_STATE.at_ i 0, F.FMR_STATUS_ACTIVE.at_ 0 0] (d.withSecs d)).knobHoldFlag (i := i) (v := false)
      (.head _)).setSec (i := i) (st := 3) (.head _) (.tail _ (.head _))).secCode (i := i) (c := 0) (.head _)
    rw [← Dev.withSecs, Dev.withSecs_secCode, Dev.withSecs_setSec, Dev.withSecs_cues, Dev.withSecs_flag, Dev.withSecs_setSection]
    exact hframe

/-! ## RELEASE (R59) -/

theorem Dev.secRelease_holds (hi : i < 128) (hst : d.secState i = 3) : (d.secRelease i).secState i = 2 ∧ (d.secRelease i).rd F.FMR_SEC_STATE_CODE i = 0 := by
  have tiles (b : Dev) : SecKept True b (match b.desc i with | some s => b.tilesRelease s | none => b) := by
    split
    · exact (SecKept.refl True b).tilesRelease _
    · exact SecKept.refl True b
  have resumed (b : Dev) : (b.resumeRuns i).reg (F.FMR_SEC_STATE_STATE.at_ i 0) = b.reg (F.FMR_SEC_STATE_STATE.at_ i 0) := by
    obtain ⟨t, e⟩ := (b.runsResumed i).setSection_shape i (fun s => { s with darkFrom := none })
    rw [Dev.resumeRuns_eq, e]
    exact (SecKept.runsResumed b i).secState hi
  have hword : (d.secRelease i).reg (F.FMR_SEC_STATE_STATE.at_ i 0) =
      (((((d.marchAbort i).darkLoss i 6).setSec i 2).secCode i 0)).reg (F.FMR_SEC_STATE_STATE.at_ i 0) := by
    unfold Dev.secRelease
    rw [if_pos hst]
    exact ((SecKept.refl True _).cascade.secState hi).trans ((resumed _).trans ((tiles _).secState hi))
  constructor
  · exact (congrArg (fun w : Word => w.field 0 3) hword).trans ((Dev.secState_secCode _ _ _).trans (Dev.secState_setSec _ _ _))
  · exact (congrArg (fun w : Word => w.field 16 8) hword).trans (Dev.rd_secCode _ _ _)

/-! ## KNOB_HOLD and KNOB_APPLY (R64) -/

theorem Dev.knobHold_holds (hst : d.secState i = 2) : (d.knobHold i).rd F.FMR_SEC_STATE_KNOB_HOLD i = 1 ∧ (d.knobHold i).rd F.FMR_SEC_STATE_CODE i = 0 ∧
    (d.knobHold i).secState i = 2 ∧ Frame [F.FMR_SEC_STATE_STATE.at_ i 0] d (d.knobHold i) := by
  rw [Dev.knobHold, if_pos hst]
  refine ⟨?_, Dev.rd_secCode _ _ _, ?_, ((Frame.refl _ d).knobHoldFlag (.head _)).secCode (.head _)⟩
  · rw [Dev.knobHold_secCode]
    exact Dev.rd_wr_same _ F.FMR_SEC_STATE_KNOB_HOLD _ _ _ (by decide)
  · rw [Dev.secState_secCode, ← hst]
    exact Dev.rd_wr_field _ F.FMR_SEC_STATE_KNOB_HOLD F.FMR_SEC_STATE_STATE _ _ _ _ _ (by decide) (by decide)

theorem insertAt_self {α : Type} {k : Nat} {v : α} : ∀ {l : List (Nat × α)}, keysRise l = true → lookAt k l = some v → insertAt k v l = l
  | [], _, h => nomatch h
  | p :: t, hrise, h => by
    simp only [keysRise, Bool.and_eq_true, List.all_eq_true, decide_eq_true_eq] at hrise
    unfold lookAt at h
    unfold insertAt
    split at h
    next e =>
      obtain ⟨rfl⟩ := h
      rw [if_neg (by omega), if_pos e.symm, ← e]
    next hne =>
      have hlt : p.1 < k := by
        by_contra hge
        have hlow : k < p.1 := by omega
        rw [lookAt_none_of_rise k t fun q hq => hlow.trans (hrise.1 q hq)] at h
        cases h
      rw [if_neg (by omega), if_neg (by omega), insertAt_self hrise.2 h]
/-- Putting the entry that stands at a key changes nothing. -/
theorem Tab.put_self {α : Type} {t : Tab α} {k : Nat} {v : α} (h : t.get? k = some v) : t.put k v = t := by
  obtain ⟨cells, ok⟩ := t
  have hcells := insertAt_self ok h
  unfold Tab.put
  congr

/-- KNOB_APPLY with no held write ends holding. -/
theorem Dev.knobApply_none {x : Section} (hst : d.secState i = 2) (hx : d.sections.get? i = some x) (hheld : x.held = []) :
    d.knobApply i = (d.flag F.FMR_SEC_STATE_KNOB_HOLD false i).secCode i 0 := by
  have hsame : d.setSection i (fun s => { s with held := [] }) = d := by
    have heq : ({ x with held := [] } : Section) = x := by
      obtain ⟨_, _, _, _, _⟩ := x
      cases hheld
      rfl
    rw [Dev.setSection_of hx, heq, Tab.put_self hx]
  unfold Dev.knobApply
  rw [if_pos hst]
  simp only [hx, hheld, hsame, List.foldl_nil]
end

/-! ## The obligation -/

/-- Settles O9: UNLOAD empties the section and its run, HOLD_DARK and RELEASE move it between ACTIVE and HELD, KNOB_HOLD and KNOB_APPLY begin and end holding;
from another state each answers its code alone. -/
theorem sectionCommandsComplete : Obligations.SectionCommandsComplete := by
  unfold Obligations.SectionCommandsComplete
  refine ⟨fun s hrun => ⟨fun i => exec_host_run (f := fun d => d.secUnload i) rfl hrun, fun i => exec_host_run (f := fun d => d.secHold i) rfl hrun,
    fun i => exec_host_run (f := fun d => d.secRelease i) rfl hrun, fun i => exec_host_run (f := fun d => d.knobHold i) rfl hrun,
    fun i => exec_host_run (f := fun d => d.knobApply i) rfl hrun⟩, fun s i hrun => ⟨?_, ?_, ?_, ?_, ?_, ?_, ?_⟩⟩
  · exact completes_host (f := fun d => d.secUnload i) rfl hrun (s.dev.secUnload_holds i.isLt)
  · intro hst hk
    exact completes_host (f := fun d => d.secHold i) rfl hrun (Dev.secHold_holds hst hk)
  · intro hst
    exact completes_host (f := fun d => d.secRelease i) rfl hrun (Dev.secRelease_holds i.isLt hst)
  · intro hst
    exact completes_host (f := fun d => d.knobHold i) rfl hrun (Dev.knobHold_holds hst)
  · intro x hst hx hheld
    refine completes_host (f := fun d => d.knobApply i) rfl hrun ?_
    simp only [Dev.knobApply_none hst hx hheld]
    refine ⟨?_, Dev.rd_secCode _ _ _, ((Frame.refl _ s.dev).knobHoldFlag (.head _)).secCode (.head _)⟩
    rw [Dev.knobHold_secCode]
    exact Dev.rd_wr_same _ F.FMR_SEC_STATE_KNOB_HOLD _ _ _ (by decide)
  · intro hst
    refine ⟨completes_host (f := fun d => d.secHold i) rfl hrun ?_, completes_host (f := fun d => d.knobHold i) rfl hrun ?_,
      completes_host (f := fun d => d.knobApply i) rfl hrun ?_⟩
    · simp only [Dev.secHold, if_neg hst]
      exact s.dev.secCode_only i (by decide)
    · simp only [Dev.knobHold, if_neg hst]
      exact s.dev.secCode_only i (by decide)
    · simp only [Dev.knobApply, if_neg hst]
      exact s.dev.secCode_only i (by decide)
  · intro hst
    refine completes_host (f := fun d => d.secRelease i) rfl hrun ?_
    simp only [Dev.secRelease, if_neg hst]
    exact s.dev.secCode_only i (by decide)

end Machine
end Sys2Proof
end

