-- ==== Sys2Proof/Proofs/SectionLoads.lean ====
section
/-! PROOFS. What OP LOAD, SUPERSEDE, the start of a queued load and the end of a load leave (spec/02_formes.md, R55, R59, R61, R63, R66): settles O8. -/

namespace Sys2Proof
namespace Machine

/-! ## The load queue (R61) -/

/-- The sections and slots of a queue, in order. -/
def loadKeys (l : List Load) : List (Nat × Nat) := l.map (fun l => (l.sec, l.slot))

theorem Dev.kickLoad_shape (d : Dev) : ∃ l, d.kickLoad = { d with loads := l } ∧ loadKeys l = loadKeys d.loads := by
  unfold Dev.kickLoad
  split
  next h => exact ⟨d.loads, rfl, rfl⟩
  next l t h =>
    split
    · exact ⟨_, rfl, by rw [h]; rfl⟩
    · exact ⟨d.loads, rfl, rfl⟩
theorem Dev.kickLoad_queue (b : Dev) (q : List Load) (m : Tab (Nat × List KnobRow)) : ∃ l,
    ({ b with loads := q, maps := m } : Dev).kickLoad = { b with loads := l, maps := m } ∧ loadKeys l = loadKeys q :=
  ({ b with loads := q, maps := m } : Dev).kickLoad_shape
theorem Dev.kickLoad_waiting {d : Dev} {l : Load} {t : List Load} (h : d.loads = l :: t) (h0 : l.started = 0) :
    d.kickLoad = { d with loads := ⟨l.sec, l.slot, d.clk + 1⟩ :: t } := by
  unfold Dev.kickLoad
  rw [h]
  exact if_pos h0
theorem Dev.kickLoad_running {d : Dev} {l : Load} {t : List Load} (h : d.loads = l :: t) (h0 : l.started ≠ 0) : d.kickLoad = d := by
  unfold Dev.kickLoad
  rw [h]
  exact if_neg h0
theorem Dev.dropLoad_shape (d : Dev) (i : Nat) : ∃ l, d.dropLoad i = { d with loads := l } ∧ loadKeys l = loadKeys (d.loads.filter (·.sec != i)) := by
  obtain ⟨l, e, hkeys⟩ := ({ d with loads := d.loads.filter (fun (l : Load) => l.sec != i) } : Dev).kickLoad_shape
  exact ⟨l, e, hkeys⟩

/-- The engine with the load queue and the knob maps of another, which loads move beside registers. -/
def Dev.withLoads (e d : Dev) : Dev := { e with loads := d.loads, maps := d.maps }
theorem Dev.reg_queue (b : Dev) (l : List Load) (m : Tab (Nat × List KnobRow)) (o : Nat) : ({ b with loads := l, maps := m } : Dev).reg o = b.reg o := rfl
theorem Dev.rd_queue (b : Dev) (l : List Load) (m : Tab (Nat × List KnobRow)) (f : Fld) (n : Nat) :
    ({ b with loads := l, maps := m } : Dev).rd f n = b.rd f n := rfl
theorem Dev.withLoads_queue (e d : Dev) (l : List Load) (m : Tab (Nat × List KnobRow)) :
    ({ e with loads := l, maps := m } : Dev).withLoads d = e.withLoads d := rfl
theorem Frame.withLoads {w : List Nat} {a b : Dev} (h : Frame w a b) (d : Dev) : Frame w (a.withLoads d) (b.withLoads d) := by
  obtain ⟨hr, ho⟩ := h
  refine ⟨hr, ?_⟩
  unfold OnlyRegs at ho
  rw [← ho]
  rfl

/-! ## A load is queued (R59, R61) -/

/-- The word and counts of section i with a load of slot k queued. -/
def Dev.shownLoading (d : Dev) (i k : Nat) : Dev := ((d.setSec i 1).wr F.FMR_SEC_STATE_SLOT k i).secCode i 0
/-- The engine with the load of a section queued. -/
def Dev.loadQueued (d : Dev) (i k : Nat) (s : SectionDesc) : Dev :=
  ({ d.shownLoading i k with loads := d.loads ++ [(⟨i, k, 0⟩ : Load)], maps := d.maps.put i (s.kind, s.knobs) } : Dev).kickLoad

theorem Frame.shownLoading {w : List Nat} {a b : Dev} {i : Nat} (h : Frame w a b) (ho : F.FMR_SEC_STATE_STATE.at_ i 0 ∈ w)
    (hc : F.FMR_STATUS_ACTIVE.at_ 0 0 ∈ w) {k : Nat} : Frame w a (b.shownLoading i k) :=
  ((h.setSec ho hc).wr F.FMR_SEC_STATE_SLOT k i 0 ho).secCode ho
theorem Dev.shownLoading_state (d : Dev) (i k : Nat) : (d.shownLoading i k).secState i = 1 := by
  refine (Dev.secState_secCode _ _ _).trans (Eq.trans ?_ (Dev.secState_setSec d i 1))
  exact Dev.rd_wr_field _ F.FMR_SEC_STATE_SLOT F.FMR_SEC_STATE_STATE _ _ _ _ _ (by decide) (by decide)
theorem Dev.shownLoading_slot (d : Dev) (i : Nat) {k : Nat} (hk : k < 2) : (d.shownLoading i k).rd F.FMR_SEC_STATE_SLOT i = k := by
  refine (Dev.rd_wr_field _ F.FMR_SEC_STATE_CODE F.FMR_SEC_STATE_SLOT _ _ _ _ _ (by decide) (by decide)).trans ?_
  exact (Dev.rd_wr_same _ F.FMR_SEC_STATE_SLOT _ _ _ (by decide)).trans (Nat.mod_eq_of_lt hk)
theorem Dev.shownLoading_code (d : Dev) (i k : Nat) : (d.shownLoading i k).rd F.FMR_SEC_STATE_CODE i = 0 := Dev.rd_secCode _ _ _

section
variable {d : Dev} {i k : Nat} {x : SectionDesc}

theorem Dev.loadQueued_shape (d : Dev) (i k : Nat) (x : SectionDesc) : ∃ l, loadKeys l = loadKeys d.loads ++ [(i, k)] ∧
    d.loadQueued i k x = { d.shownLoading i k with loads := l, maps := d.maps.put i (x.kind, x.knobs) } := by
  obtain ⟨l, e, hkeys⟩ := (d.shownLoading i k).kickLoad_queue (d.loads ++ [⟨i, k, 0⟩]) (d.maps.put i (x.kind, x.knobs))
  have hadd : loadKeys (d.loads ++ [⟨i, k, 0⟩]) = loadKeys d.loads ++ [(i, k)] := List.map_append
  exact ⟨l, hkeys.trans hadd, e⟩
/-- The head of a queue that held nothing begins at once. -/
theorem Dev.loads_kickLoad_first (b : Dev) (m : Tab (Nat × List KnobRow)) (i k : Nat) :
    (({ b with loads := [⟨i, k, 0⟩], maps := m } : Dev).kickLoad).loads = [⟨i, k, b.clk + 1⟩] := rfl
theorem Dev.clk_shownLoading (d : Dev) (i k : Nat) : (d.shownLoading i k).clk = d.clk := rfl
theorem Dev.loads_loadQueued_first (h : d.loads = []) : (d.loadQueued i k x).loads = [⟨i, k, d.clk + 1⟩] := by
  rw [Dev.loadQueued, h, List.nil_append, Dev.loads_kickLoad_first, Dev.clk_shownLoading]
theorem Dev.frame_loadQueued (d : Dev) (i k : Nat) (x : SectionDesc) :
    Frame [F.FMR_SEC_STATE_STATE.at_ i 0, F.FMR_STATUS_ACTIVE.at_ 0 0] d ((d.loadQueued i k x).withLoads d) := by
  obtain ⟨l, -, e⟩ := d.loadQueued_shape i k x
  have hframe := ((Frame.refl [F.FMR_SEC_STATE_STATE.at_ i 0, F.FMR_STATUS_ACTIVE.at_ 0 0] d).shownLoading (i := i) (k := k) (.head _) (.tail _ (.head _))).withLoads d
  rw [e, Dev.withLoads_queue]
  exact hframe

/-- LOAD of a section that may be loaded (R59): ABSENT queues it, LOADING under SUPERSEDE abandons the load that runs or waits first. -/
theorem Dev.secLoad_absent (hreef : d.rd F.PWR_STATUS_REEF = 0) (himg : d.rd F.FMR_IMG_STATUS_STATE k = 2)
    (hx : (d.slot k).image.bind (fun im => im.sections.find? (·.index == i)) = some x) (hst : d.secState i = 0) :
    d.secLoad i k false = d.loadQueued i k x := by
  have hslot : ((((d.setSec i 1).wr F.FMR_SEC_STATE_SLOT k i).secCode i 0).slot k).image.bind (fun im => im.sections.find? (·.index == i)) = some x := hx
  unfold Dev.secLoad
  simp only [hreef, himg, hx, hst, hslot, Option.isNone_some, ne_eq, not_true_eq_false, decide_false, Bool.or_false, Bool.false_eq_true, if_false,
    OfNat.zero_ne_ofNat, zero_ne_one, false_and]
  rfl
/-- LOAD from a slot whose image is not VERIFIED (R59). -/
theorem Dev.secLoad_unverified (hreef : d.rd F.PWR_STATUS_REEF = 0) (himg : d.rd F.FMR_IMG_STATUS_STATE k ≠ 2) :
    d.secLoad i k false = d.secCode i codeNotVerified := by
  unfold Dev.secLoad
  simp only [hreef, himg, ne_eq, not_false_eq_true, decide_true, Bool.true_or, if_true, not_true_eq_false, if_false, OfNat.zero_ne_ofNat]
/-- The load of section i that runs or waits is abandoned (R59, R66). -/
def Dev.superseded (d : Dev) (i : Nat) : Dev := (((d.dropLoad i).inc F.FMR_SEC_COUNT_ABANDONED i).secDone i).raise 7 5
theorem Dev.superseded_slot (d : Dev) (i k : Nat) : (d.superseded i).slot k = d.slot k := by
  obtain ⟨l, e, -⟩ := d.dropLoad_shape i
  unfold Dev.superseded Dev.slot
  rw [Dev.raise_slots, e]
  rfl
theorem Dev.secLoad_supersede (hreef : d.rd F.PWR_STATUS_REEF = 0) (himg : d.rd F.FMR_IMG_STATUS_STATE k = 2)
    (hx : (d.slot k).image.bind (fun im => im.sections.find? (·.index == i)) = some x) (hst : d.secState i = 1) :
    d.secLoad i k true = (d.superseded i).loadQueued i k x := by
  have hslot : (((((d.superseded i).setSec i 1).wr F.FMR_SEC_STATE_SLOT k i).secCode i 0).slot k).image.bind (fun im => im.sections.find? (·.index == i)) = some x := by
    have : ((((d.superseded i).setSec i 1).wr F.FMR_SEC_STATE_SLOT k i).secCode i 0).slot k = (d.superseded i).slot k := rfl
    rw [this, Dev.superseded_slot, hx]
  unfold Dev.secLoad
  rw [← Dev.superseded]
  simp only [hreef, himg, hx, hst, hslot, Option.isNone_some, ne_eq, not_true_eq_false, decide_false, Bool.or_false, Bool.false_eq_true, if_false,
    if_true, OfNat.one_ne_ofNat, OfNat.zero_ne_ofNat, Bool.not_true, and_false]
  rfl
end

/-! What a queued load shows. -/

/-- The state word of section i and the word of the counts are all a queued load moves. -/
theorem Dev.reg_shownLoading (d : Dev) {i k o : Nat} (ho : o ≠ F.FMR_SEC_STATE_STATE.at_ i 0) (hc : o ≠ F.FMR_STATUS_ACTIVE.at_ 0 0) :
    (d.shownLoading i k).reg o = d.reg o := by
  unfold Dev.shownLoading Dev.setSec Dev.secCode
  refine (Dev.reg_wr_ne _ F.FMR_SEC_STATE_CODE _ _ _ ho).trans ((Dev.reg_wr_ne _ F.FMR_SEC_STATE_SLOT _ _ _ ho).trans ?_)
  refine (Dev.reg_wr_ne _ F.FMR_STATUS_LOADING _ _ _ hc).trans ((Dev.reg_wr_ne _ F.FMR_STATUS_ACTIVE _ _ _ hc).trans ?_)
  exact Dev.reg_wr_ne _ F.FMR_SEC_STATE_STATE _ _ _ ho

theorem Dev.loadQueued_holds (d : Dev) (i : Nat) {k : Nat} (hk : k < 2) (x : SectionDesc) :
    (d.loadQueued i k x).secState i = 1 ∧ (d.loadQueued i k x).rd F.FMR_SEC_STATE_SLOT i = k ∧ (d.loadQueued i k x).rd F.FMR_SEC_STATE_CODE i = 0 ∧
    loadKeys (d.loadQueued i k x).loads = loadKeys d.loads ++ [(i, k)] ∧ (d.loadQueued i k x).maps.get? i = some (x.kind, x.knobs) ∧
    (∀ j, j ≠ i → (d.loadQueued i k x).maps.get? j = d.maps.get? j) := by
  obtain ⟨l, hkeys, e⟩ := d.loadQueued_shape i k x
  rw [e]
  exact ⟨(Dev.rd_queue _ _ _ F.FMR_SEC_STATE_STATE i).trans (d.shownLoading_state i k), (Dev.rd_queue _ _ _ _ i).trans (d.shownLoading_slot i hk),
    (Dev.rd_queue _ _ _ _ i).trans (d.shownLoading_code i k), hkeys, Tab.get?_put_same _ _ _, fun j hj => Tab.get?_put_ne _ _ hj⟩
theorem Dev.reg_loadQueued (d : Dev) {i k o : Nat} (x : SectionDesc) (ho : o ≠ F.FMR_SEC_STATE_STATE.at_ i 0) (hc : o ≠ F.FMR_STATUS_ACTIVE.at_ 0 0) :
    (d.loadQueued i k x).reg o = d.reg o := by
  obtain ⟨l, -, e⟩ := d.loadQueued_shape i k x
  rw [e]
  exact (Dev.reg_queue _ _ _ o).trans (d.reg_shownLoading ho hc)

/-! What SUPERSEDE leaves of the load it abandons. -/

section
variable (d : Dev) {i : Nat}

theorem secCount_eq (i : Nat) : F.FMR_SEC_COUNT_ABANDONED.at_ i 0 = 0x10100c + i * 0x10 := rfl
theorem secDone_eq (n : Nat) : F.FMR_SEC_DONE_DONE.at_ n 0 = 0x100030 + n * 4 := rfl
/-- Setting a done bit moves its word alone. -/
theorem Dev.reg_secDone {o : Nat} (ho : o ≠ F.FMR_SEC_DONE_DONE.at_ (i / 32) 0) : (d.secDone i).reg o = d.reg o := Dev.reg_setBits_ne _ _ _ _ _ ho
theorem Dev.done_secDone (i : Nat) : ((d.secDone i).rd F.FMR_SEC_DONE_DONE (i / 32)).testBit (i % 32) = true := by
  have hbit : i % 32 < 32 := Nat.mod_lt _ (by decide)
  unfold Dev.secDone
  rw [Dev.rd_setBits, Dev.rd_wr_same _ _ _ _ _ (by decide)]
  show Nat.testBit (_ % 2 ^ 32) _ = true
  rw [Nat.testBit_mod_two_pow]
  simp [Nat.testBit_or, hbit]

theorem Dev.superseded_abandoned (hi : i < 128) :
    (d.superseded i).rd F.FMR_SEC_COUNT_ABANDONED i = min 65535 (d.rd F.FMR_SEC_COUNT_ABANDONED i + 1) := by
  obtain ⟨l, e, -⟩ := d.dropLoad_shape i
  have hne : F.FMR_SEC_COUNT_ABANDONED.at_ i 0 ≠ F.FMR_SEC_DONE_DONE.at_ (i / 32) 0 := by
    rw [secCount_eq, secDone_eq]
    omega
  have hdone : (((d.dropLoad i).inc F.FMR_SEC_COUNT_ABANDONED i).secDone i).rd F.FMR_SEC_COUNT_ABANDONED i =
      ((d.dropLoad i).inc F.FMR_SEC_COUNT_ABANDONED i).rd F.FMR_SEC_COUNT_ABANDONED i := congrArg (fun w : Word => w.field 16 16) (Dev.reg_secDone _ hne)
  unfold Dev.superseded
  rw [Dev.rd_raise_fmr _ _ (by decide) (by decide) (by decide) (by decide) hi, hdone, Dev.rd_inc_same _ _ _ _ _ (by decide), e]
  rfl
theorem Dev.superseded_done (hi : i < 128) : ((d.superseded i).rd F.FMR_SEC_DONE_DONE (i / 32)).testBit (i % 32) = true := by
  unfold Dev.superseded
  rw [Dev.rd_raise_fmr _ _ (by decide) (by decide) (by decide) (by decide) (by omega)]
  exact Dev.done_secDone _ i
theorem Dev.superseded_keys (i : Nat) : loadKeys (d.superseded i).loads = loadKeys (d.loads.filter (·.sec != i)) := by
  obtain ⟨l, e, hkeys⟩ := d.dropLoad_shape i
  unfold Dev.superseded
  rw [Dev.raise_loads, e]
  exact hkeys
theorem Dev.superseded_maps (i : Nat) : (d.superseded i).maps = d.maps := by
  obtain ⟨l, e, -⟩ := d.dropLoad_shape i
  unfold Dev.superseded
  rw [Dev.raise_maps, e]
  rfl
theorem Dev.frame_superseded (i : Nat) : Frame [F.FMR_SEC_COUNT_ABANDONED.at_ i 0, F.FMR_SEC_DONE_DONE.at_ (i / 32) 0] d ((d.superseded i).withLoads d) := by
  obtain ⟨l, e, -⟩ := d.dropLoad_shape i
  unfold Dev.superseded
  rw [e]
  exact ((((Frame.refl _ { d with loads := l }).inc F.FMR_SEC_COUNT_ABANDONED i 0 1 (.head _)).setBits F.FMR_SEC_DONE_DONE (2 ^ (i % 32)) (i / 32) 0
    (.tail _ (.head _))).raise 7 5 (by decide)).withLoads d
end

/-- What SUPERSEDE leaves (R59, R61, R66). -/
theorem Dev.supersede_holds (d : Dev) {i k : Nat} (hi : i < 128) (hk : k < 2) (x : SectionDesc) :
    let e := (d.superseded i).loadQueued i k x
    e.secState i = 1 ∧ e.rd F.FMR_SEC_STATE_SLOT i = k ∧ e.rd F.FMR_SEC_COUNT_ABANDONED i = min 65535 (d.rd F.FMR_SEC_COUNT_ABANDONED i + 1) ∧
    (e.rd F.FMR_SEC_DONE_DONE (i / 32)).testBit (i % 32) = true ∧ Raised e 7 5 ∧
    loadKeys e.loads = loadKeys (d.loads.filter (·.sec != i)) ++ [(i, k)] ∧ e.maps.get? i = some (x.kind, x.knobs) ∧
    (∀ j, j ≠ i → e.maps.get? j = d.maps.get? j) ∧
    Frame [F.FMR_SEC_STATE_STATE.at_ i 0, F.FMR_STATUS_ACTIVE.at_ 0 0, F.FMR_SEC_COUNT_ABANDONED.at_ i 0, F.FMR_SEC_DONE_DONE.at_ (i / 32) 0] d (e.withLoads d) := by
  intro e
  obtain ⟨hst, hslot, -, hkeys, hmap, hmaps⟩ := (d.superseded i).loadQueued_holds i hk x
  have hword (o : Nat) (ho : o ≠ 0x101004 + i * 0x10) (hc : o ≠ 0x100004) : e.reg o = (d.superseded i).reg o := (d.superseded i).reg_loadQueued x ho hc
  have hcount : e.rd F.FMR_SEC_COUNT_ABANDONED i = (d.superseded i).rd F.FMR_SEC_COUNT_ABANDONED i :=
    congrArg (fun w : Word => w.field 16 16) (hword _ (by rw [secCount_eq]; omega) (by rw [secCount_eq]; omega))
  have hdone : e.rd F.FMR_SEC_DONE_DONE (i / 32) = (d.superseded i).rd F.FMR_SEC_DONE_DONE (i / 32) :=
    congrArg (fun w : Word => w.field 0 32) (hword _ (by rw [secDone_eq]; omega) (by rw [secDone_eq]; omega))
  have hpending : e.rd F.IRQ_PENDING_PENDING 7 = (d.superseded i).rd F.IRQ_PENDING_PENDING 7 :=
    congrArg (fun w : Word => w.field 0 32) (hword (F.IRQ_PENDING_PENDING.at_ 7 0) (by show 0x30100 + 7 * 0x20 + 0 * 0 ≠ _; omega) (by decide))
  refine ⟨hst, hslot, hcount.trans (d.superseded_abandoned hi), hdone ▸ d.superseded_done hi, ?_, ?_, hmap, fun j hj => ?_, ?_⟩
  · unfold Raised
    rw [hpending]
    exact raised_raise _ 5 (by decide)
  · rw [hkeys, Dev.superseded_keys]
  · rw [hmaps j hj, Dev.superseded_maps]
  · refine ((d.frame_superseded i).mono fun o ho => .tail _ (.tail _ ho)).trans ?_
    have hqueued := ((d.superseded i).frame_loadQueued i k x).withLoads d
    refine hqueued.mono fun o ho => ?_
    exact List.mem_append_left [F.FMR_SEC_COUNT_ABANDONED.at_ i 0, F.FMR_SEC_DONE_DONE.at_ (i / 32) 0] ho

/-! ## The end of a load (R59, R66) -/

/-- Clocks a load of the section takes (R61). -/
def loadClocks (x : SectionDesc) : Nat := 50000 + (x.bodyLen + 7) / 8
/-- The engine when the load at the head of the queue has run, its done bit set. -/
def Dev.loadRun (d : Dev) (i b : Nat) (t : List Load) (x : SectionDesc) : Dev :=
  ({ d.advanceTo (b + loadClocks x) with loads := t } : Dev).secDone i

/-- Fields outside the done words. -/
theorem Dev.rd_secDone (d : Dev) {i : Nat} (hi : i < 128) {f : Fld} (h : 0x100040 ≤ f.off) (n : Nat) : (d.secDone i).rd f n = d.rd f n := by
  unfold Dev.rd
  rw [d.reg_secDone]
  rw [secDone_eq]
  unfold Fld.at_
  omega
/-- The check of a walk reads no done bit. -/
theorem Dev.walkCause_secDone (d : Dev) {i : Nat} (hi : i < 128) (idx : Nat) : (d.secDone i).walkCause idx = d.walkCause idx := by
  have hdead (a : Nat) : (d.secDone i).addrDead a = d.addrDead a := by
    have hslot : (d.secDone i).slotOf a = d.slotOf a := rfl
    unfold Dev.addrDead Dev.slotDead Dev.is
    rw [hslot, d.rd_secDone hi (by decide), d.rd_secDone hi (by decide), d.rd_secDone hi (by decide)]
  unfold Dev.walkCause
  rw [hdead]
  rfl
theorem Dev.placedBeside_secDone (d : Dev) {i : Nat} (hi : i < 128) (j : Nat) : (d.secDone i).placedBeside j = d.placedBeside j := by
  have hstate : (d.secDone i).secState = d.secState := funext fun n => d.rd_secDone hi (by decide) n
  unfold Dev.placedBeside Dev.sectionsIn
  rw [hstate]
  rfl
theorem Dev.loadCode_secDone (d : Dev) {i : Nat} (hi : i < 128) (k : Nat) (x : SectionDesc) : (d.secDone i).loadCode i k x = d.loadCode i k x := by
  have hcap (n : Nat) : (d.secDone i).rd F.FMR_CAP_CAPACITY n = d.rd F.FMR_CAP_CAPACITY n := d.rd_secDone hi (by decide) n
  have hdriven (h : Nat) : (d.secDone i).is F.FMR_HAL_DRV_KIND h = d.is F.FMR_HAL_DRV_KIND h := by
    unfold Dev.is
    rw [d.rd_secDone hi (by decide)]
  have hdriver (h : Nat) : (d.secDone i).hasDriver h 1 i = d.hasDriver h 1 i := by
    unfold Dev.hasDriver
    rw [d.rd_secDone hi (by decide), d.rd_secDone hi (by decide)]
  have hslot : (d.secDone i).slot k = d.slot k := rfl
  unfold Dev.loadCode
  simp only [hcap, hdriven, hdriver, hslot, d.placedBeside_secDone hi, d.walkCause_secDone hi]
theorem Dev.loadCode_advanceTo (d : Dev) (c i k : Nat) (x : SectionDesc) : (d.advanceTo c).loadCode i k x = d.loadCode i k x := by
  obtain ⟨_, _, _, _, _, e⟩ := Dev.advance_shape d (c - d.clk)
  unfold Dev.advanceTo; rw [e]; rfl

theorem Dev.loadCode_loadRun (d : Dev) {i : Nat} (hi : i < 128) (b k : Nat) (t : List Load) (x : SectionDesc) :
    (d.loadRun i b t x).loadCode i k x = d.loadCode i k x := by
  have hqueue (c : Dev) : ({ c with loads := t } : Dev).loadCode i k x = c.loadCode i k x := rfl
  unfold Dev.loadRun
  rw [Dev.loadCode_secDone _ hi, hqueue, Dev.loadCode_advanceTo]
/-- Every code of R59's list fits the code field. -/
theorem Dev.loadCode_lt (d : Dev) (i k : Nat) (x : SectionDesc) : d.loadCode i k x < 256 := by
  unfold Dev.loadCode
  dsimp only
  split
  · decide
  · split
    · decide
    · split
      · decide
      · split
        · decide
        · split <;> decide

section
variable {d : Dev} {i k b : Nat} {t : List Load} {x : SectionDesc}

/-- The section's entry after its load: its description, the dark time it had, and the ring of its own records. -/
def Dev.loadEntered (d : Dev) (i : Nat) (x : SectionDesc) : Dev :=
  let from_ := (d.sections.get? i).bind (·.darkFrom)
  let ring := match d.sections.get? i with
    | some y => y.ring
    | none => d.fresh % 1024
  ({ d with sections := d.sections.put i ⟨x, [], from_, 0, ring⟩, windows := d.windows.erase i } : Dev).usedFree
/-- The halyards the section claims are its own (R43). -/
def Dev.claimsDriven (d : Dev) (i : Nat) (x : SectionDesc) : Dev :=
  ((List.range 64).filter (fun h => x.claim.getLsbD h)).foldl (fun d h => d.recordDriver h 1 i) d
/-- The knob window of the section, and what composition fixed (R45, R165). -/
def Dev.knobsLoaded (d : Dev) (i : Nat) (x : SectionDesc) : Dev :=
  ((d.initKnobs i x).setSection i (fun y => { y with tw := (d.initKnobs i x).ncoWord i })).composed i
/-- The section's state, code and load time. -/
def Dev.shownActive (d : Dev) (i : Nat) (x : SectionDesc) : Dev :=
  ((d.setSec i 2).secCode i 0).wr F.FMR_SEC_LOADTIME_LOADTIME (loadClocks x / 1000) i
/-- Its sorts' memories and tile cores. -/
def Dev.sortsPlaced (d : Dev) (i : Nat) (x : SectionDesc) : Dev := ((d.sortsLoad x).conflictsClear i).tilesLoad x

theorem Dev.kind_loadRun : (d.loadRun i b t x).kind i = d.kind i := by
  have : (d.loadRun i b t x).sections = d.sections := Dev.advanceTo_sections d _
  unfold Dev.kind Dev.desc
  rw [this]

/-- A load whose checks pass (R59). -/
theorem Dev.loadComplete_good (hi : i < 128) (hl : d.loads = ⟨i, k, b + 1⟩ :: t)
    (hx : (d.slot k).image.bind (fun im => im.sections.find? (·.index == i)) = some x) (hk : d.kind i = 0) (hcode : d.loadCode i k x = 0) :
    d.loadComplete = (((((((((d.loadRun i b t x).darkLoss i 6).loadEntered i x).claimsDriven i x).knobsLoaded i x).shownActive i x).sortsPlaced i x).raise 7 3).resumeRuns i).kickLoad.cascade := by
  have hkick : d.kickLoad = d := Dev.kickLoad_running hl (Nat.succ_ne_zero b)
  have hcode' : (({ d.advanceTo (b + loadClocks x) with loads := t } : Dev).secDone i).loadCode i k x = 0 := (d.loadCode_loadRun hi b k t x).trans hcode
  have hkind' : (({ d.advanceTo (b + loadClocks x) with loads := t } : Dev).secDone i).kind i = 0 := Dev.kind_loadRun.trans hk
  unfold Dev.loadComplete
  rw [hkick, hl]
  simp only [hx, Nat.add_sub_cancel]
  rw [← loadClocks]
  simp only [hcode', hkind', ne_eq, not_true_eq_false, false_and, or_self, if_false]
  rfl
/-- A load that fails a check (R59, R66). -/
theorem Dev.loadComplete_bad (hi : i < 128) (hl : d.loads = ⟨i, k, b + 1⟩ :: t)
    (hx : (d.slot k).image.bind (fun im => im.sections.find? (·.index == i)) = some x) (hcode : d.loadCode i k x ≠ 0) :
    d.loadComplete = (((((((d.loadRun i b t x).darkLoss i 6).endSection i false).setSec i 0).secCode i (d.loadCode i k x)).raise 7 4).kickLoad).cascade := by
  have hkick : d.kickLoad = d := Dev.kickLoad_running hl (Nat.succ_ne_zero b)
  have hcode' : (({ d.advanceTo (b + loadClocks x) with loads := t } : Dev).secDone i).loadCode i k x = d.loadCode i k x := d.loadCode_loadRun hi b k t x
  unfold Dev.loadComplete
  rw [hkick, hl]
  simp only [hx, Nat.add_sub_cancel]
  rw [← loadClocks]
  simp only [hcode', ne_eq, hcode, not_false_eq_true, true_or, if_true]
  rfl
end

/-! What the end of a load leaves alone, step by step. -/

/-- Keeping the entries of some keys leaves theirs. -/
theorem Tab.get?_keep {α : Type} (t : Tab α) {f : Nat × α → Bool} {k : Nat} (h : ∀ v, f (k, v) = true) : (t.keep f).get? k = t.get? k := by
  have key : ∀ l : List (Nat × α), lookAt k (l.filter f) = lookAt k l := by
    intro l
    induction l with
    | nil => rfl
    | cons p u ih =>
      by_cases hp : p.1 = k
      · have : f p = true := by
          rw [← h p.2, ← hp]
        rw [List.filter_cons_of_pos this, lookAt, lookAt, if_pos hp, if_pos hp]
      · by_cases hf : f p = true
        · rw [List.filter_cons_of_pos hf, lookAt, lookAt, if_neg hp, if_neg hp, ih]
        · rw [List.filter_cons_of_neg hf, ih, lookAt, if_neg hp]
  exact key t.cells
theorem SecKept.initKnobs {new : Prop} {a b : Dev} (h : SecKept new a b) (i : Nat) (x : SectionDesc) : SecKept new a (b.initKnobs i x) := by
  have cleared (q : Tab Word) (w : Tab Nat) (hq : ∀ o, o < 0x300000 → q.get? o = b.regs.get? o) : SecKept new a { b with regs := q, wide := w } := by
    refine h.trans ⟨fun o ho _ => ?_, rfl, rfl, rfl, fun _ _ hi => hi⟩
    show (q.get? o).getD _ = (b.regs.get? o).getD _
    rw [hq o ho]
  unfold Dev.initKnobs
  refine .foldl (fun _ _ hc => hc.setKnob _ _ _) _ (.foldl (fun _ _ hc => hc.setKnob _ _ _) _ (cleared _ _ fun o ho => ?_))
  refine Tab.get?_keep _ fun _ => ?_
  have : ¬ (knobAt i 0 ≤ o ∧ o < knobAt i 0 + 0x20000) := by
    unfold knobAt
    omega
  rw [decide_eq_false this]
  rfl
theorem SecKept.sortsPlaced {new : Prop} {a b : Dev} (h : SecKept new a b) (i : Nat) (x : SectionDesc) : SecKept new a (b.sortsPlaced i x) :=
  ((h.other (c := b.sortsLoad x) rfl rfl rfl rfl rfl).other (c := (b.sortsLoad x).conflictsClear i) rfl rfl rfl rfl rfl).tilesLoad x
/-- A section without a kind ends with its run alone. -/
theorem Dev.reg_endSection_kindless {d : Dev} {i : Nat} (hk : d.kind i = 0) {o : Nat} (hl : o < 0x300000) (ho : o < 0x30200 ∨ 0x30900 ≤ o) :
    (d.endSection i false).reg o = d.reg o := by
  have hend := ((SecKept.refl True d).endRun i).reg o hl ho
  unfold Dev.endSection
  rw [hk]
  exact hend

/-- `e` keeps what the end of a load has yet to show: the done bits, the rest of the queue, the clock and the sections' descriptions. -/
structure LoadKept (d e : Dev) : Prop where
  done : ∀ n, n < 4 → e.reg (F.FMR_SEC_DONE_DONE.at_ n 0) = d.reg (F.FMR_SEC_DONE_DONE.at_ n 0)
  keys : loadKeys e.loads = loadKeys d.loads
  clk : e.clk = d.clk
  desc : ∀ j, e.desc j = d.desc j

namespace LoadKept
theorem trans {a b c : Dev} (h1 : LoadKept a b) (h2 : LoadKept b c) : LoadKept a c :=
  ⟨fun n hn => (h2.done n hn).trans (h1.done n hn), h2.keys.trans h1.keys, h2.clk.trans h1.clk, fun j => (h2.desc j).trans (h1.desc j)⟩
theorem of_secKept {new : Prop} {d e : Dev} (h : SecKept new d e) : LoadKept d e := by
  refine ⟨fun n hn => h.reg _ ?_ ?_, congrArg loadKeys h.loads, h.clk, fun j => ?_⟩
  · rw [secDone_eq]
    omega
  · rw [secDone_eq]
    omega
  · unfold Dev.desc
    rw [h.sections]
theorem of_frame {w : List Nat} {d e : Dev} (h : Frame w d e) (hw : ∀ o ∈ w, o < 0x100030 ∨ 0x100040 ≤ o) : LoadKept d e := by
  obtain ⟨hr, ho⟩ := h
  refine ⟨fun n hn => hr _ (fun hm => ?_) (irqReg_fmr (by decide) (by decide) (by decide) (by omega)), ?_, ho.clk, fun j => ?_⟩
  · have := hw _ hm
    rw [secDone_eq] at this
    omega
  · unfold OnlyRegs at ho
    rw [← ho]
  · unfold Dev.desc
    rw [OnlyRegs.sections ho]
theorem kickLoad (d : Dev) : LoadKept d d.kickLoad := by
  obtain ⟨l, e, hkeys⟩ := d.kickLoad_shape
  rw [e]
  exact ⟨fun _ _ => rfl, hkeys, rfl, fun _ => rfl⟩
theorem setSection (d : Dev) (i : Nat) {f : Section → Section} (hf : ∀ y, (f y).desc = y.desc) : LoadKept d (d.setSection i f) := by
  unfold Dev.setSection
  split
  next y hy =>
    refine ⟨fun _ _ => rfl, rfl, rfl, fun j => ?_⟩
    by_cases e : j = i
    · subst e
      simp [Dev.desc, hy, hf]
    · simp [Dev.desc, Tab.get?_put_ne _ _ e]
  next => exact ⟨fun _ _ => rfl, rfl, rfl, fun _ => rfl⟩

theorem claimsDriven (d : Dev) (i : Nat) (x : SectionDesc) : LoadKept d (d.claimsDriven i x) := by
  have fold : ∀ (l : List Nat), (∀ h ∈ l, h < 64) → ∀ b, Frame driverRegs d b → Frame driverRegs d (l.foldl (fun d h => d.recordDriver h 1 i) b) := by
    intro l
    induction l with
    | nil => exact fun _ _ hb => hb
    | cons h t ih =>
      exact fun hl b hb => ih (fun j hj => hl j (List.mem_cons_of_mem _ hj)) _ (hb.recordDriver (mem_driverRegs (hl h List.mem_cons_self)) 1 i)
  refine of_frame (fold _ (fun h hh => List.mem_range.mp (List.mem_filter.mp hh).1) d (Frame.refl _ d)) fun o ho => ?_
  obtain ⟨h, hh, rfl⟩ := List.mem_map.mp ho
  rw [driverReg_eq]
  omega
theorem knobsLoaded (d : Dev) (i : Nat) (x : SectionDesc) : LoadKept d (d.knobsLoaded i x) := by
  have window : LoadKept d (d.initKnobs i x) := of_secKept ((SecKept.refl True d).initKnobs i x)
  have tuned := setSection (d.initKnobs i x) i (f := fun y => { y with tw := (d.initKnobs i x).ncoWord i }) fun _ => rfl
  exact (window.trans tuned).trans (of_secKept ((SecKept.refl True _).composed i))
theorem shownActive (d : Dev) (i : Nat) (x : SectionDesc) : LoadKept d (d.shownActive i x) := by
  refine of_frame (w := [F.FMR_SEC_STATE_STATE.at_ i 0, F.FMR_STATUS_ACTIVE.at_ 0 0, F.FMR_SEC_LOADTIME_LOADTIME.at_ i 0])
    ((((Frame.refl _ d).setSec (.head _) (.tail _ (.head _))).secCode (.head _)).wr F.FMR_SEC_LOADTIME_LOADTIME _ i 0 (.tail _ (.tail _ (.head _)))) ?_
  intro o ho
  simp only [List.mem_cons, List.not_mem_nil, or_false] at ho
  have hst : F.FMR_SEC_STATE_STATE.at_ i 0 = 0x101004 + i * 0x10 := rfl
  have htime : F.FMR_SEC_LOADTIME_LOADTIME.at_ i 0 = 0x101008 + i * 0x10 := rfl
  have hcount : F.FMR_STATUS_ACTIVE.at_ 0 0 = 0x100004 := rfl
  omega
theorem resumeRuns (d : Dev) (i : Nat) : LoadKept d (d.resumeRuns i) :=
  (of_secKept (SecKept.runsResumed d i)).trans (setSection _ i fun _ => rfl)
end LoadKept

/-- After the section's word and events are shown, its runs go on, the next load begins, and what lost its source ends: low registers stay. -/
theorem Dev.reg_resumed (d : Dev) (i : Nat) {o : Nat} (hl : o < 0x300000) (ho : o < 0x30200 ∨ 0x30900 ≤ o) : (d.resumeRuns i).reg o = d.reg o := by
  obtain ⟨t, e⟩ := (d.runsResumed i).setSection_shape i (fun s => { s with darkFrom := none })
  rw [Dev.resumeRuns_eq, e]
  exact (SecKept.runsResumed d i).reg o hl ho
theorem Dev.reg_kickCascade (d : Dev) {o : Nat} (hl : o < 0x300000) (ho : o < 0x30200 ∨ 0x30900 ≤ o) : d.kickLoad.cascade.reg o = d.reg o := by
  obtain ⟨l, e, -⟩ := d.kickLoad_shape
  refine ((SecKept.refl True d.kickLoad).cascade.reg o hl ho).trans ?_
  rw [e]
  rfl

/-! What the end of a load shows. -/

section
variable {d : Dev} {i k b : Nat} {t : List Load} {x : SectionDesc}

theorem Dev.loadRun_kept (d : Dev) (i b : Nat) (t : List Load) (x : SectionDesc) :
    ((d.loadRun i b t x).rd F.FMR_SEC_DONE_DONE (i / 32)).testBit (i % 32) = true ∧ (d.loadRun i b t x).loads = t ∧
    (d.loadRun i b t x).clk = max d.clk (b + loadClocks x) :=
  ⟨Dev.done_secDone _ i, rfl, Dev.advanceTo_clk d _⟩
theorem Dev.desc_loadEntered (d : Dev) (i : Nat) (x : SectionDesc) : (d.loadEntered i x).desc i = some x := by
  show (Option.map _ (Tab.get? (Tab.put _ i _) i)) = some x
  rw [Tab.get?_put_same]
  rfl
/-- The done bit of section i through steps that keep the done words. -/
theorem LoadKept.doneBit {d e : Dev} (h : LoadKept d e) {i : Nat} (hi : i < 128) (hd : (d.rd F.FMR_SEC_DONE_DONE (i / 32)).testBit (i % 32) = true) :
    (e.rd F.FMR_SEC_DONE_DONE (i / 32)).testBit (i % 32) = true := by
  have : e.rd F.FMR_SEC_DONE_DONE (i / 32) = d.rd F.FMR_SEC_DONE_DONE (i / 32) := congrArg (fun w : Word => w.field 0 32) (h.done _ (by omega))
  rw [this, hd]

theorem loadTime_eq (i : Nat) : F.FMR_SEC_LOADTIME_LOADTIME.at_ i 0 = 0x101008 + i * 0x10 := rfl
theorem Dev.shownActive_state (d : Dev) (i : Nat) (x : SectionDesc) : (d.shownActive i x).reg (F.FMR_SEC_STATE_STATE.at_ i 0) =
    ((d.setSec i 2).secCode i 0).reg (F.FMR_SEC_STATE_STATE.at_ i 0) := by
  refine Dev.reg_wr_ne _ F.FMR_SEC_LOADTIME_LOADTIME _ _ _ ?_
  rw [secState_reg_eq, loadTime_eq]
  omega

/-- The steps after a good load's section is entered. -/
def Dev.loadShown (d : Dev) (i : Nat) (x : SectionDesc) : Dev := (((d.claimsDriven i x).knobsLoaded i x).shownActive i x).sortsPlaced i x
theorem LoadKept.loadShown (d : Dev) (i : Nat) (x : SectionDesc) : LoadKept d (((((d.loadShown i x).raise 7 3).resumeRuns i).kickLoad).cascade) := by
  have shown : LoadKept d (d.loadShown i x) :=
    (((claimsDriven d i x).trans (knobsLoaded _ i x)).trans (shownActive _ i x)).trans (of_secKept ((SecKept.refl True _).sortsPlaced i x))
  have raised : LoadKept (d.loadShown i x) ((d.loadShown i x).raise 7 3) := of_frame ((Frame.refl [] _).raise 7 3 (by decide)) (by simp)
  exact (((shown.trans raised).trans (resumeRuns _ i)).trans (kickLoad _)).trans (of_secKept (SecKept.refl True _).cascade)
/-- The words of section i stay as the load showed them. -/
theorem Dev.reg_loadShown (d : Dev) (i : Nat) (x : SectionDesc) {o : Nat} (h0 : 0x101000 ≤ o) (h1 : o < 0x102000) :
    ((((d.loadShown i x).raise 7 3).resumeRuns i).kickLoad.cascade).reg o = (((d.claimsDriven i x).knobsLoaded i x).shownActive i x).reg o := by
  rw [Dev.reg_kickCascade _ (by omega) (by omega), Dev.reg_resumed _ i (by omega) (by omega), Dev.reg_raise _ 3 (by decide) (irqReg_between (by omega) (by omega))]
  exact ((SecKept.refl True _).sortsPlaced i x).reg o (by omega) (by omega)

/-- A load whose checks pass leaves the section ACTIVE (R59, R61, R66). -/
theorem Dev.loadComplete_good_holds (hi : i < 128) (hl : d.loads = ⟨i, k, b + 1⟩ :: t)
    (hx : (d.slot k).image.bind (fun im => im.sections.find? (·.index == i)) = some x) (hk : d.kind i = 0) (hcode : d.loadCode i k x = 0) :
    d.loadComplete.secState i = 2 ∧ d.loadComplete.rd F.FMR_SEC_STATE_CODE i = 0 ∧ d.loadComplete.desc i = some x ∧ Raised d.loadComplete 7 3 ∧
    (d.loadComplete.rd F.FMR_SEC_DONE_DONE (i / 32)).testBit (i % 32) = true ∧
    d.loadComplete.rd F.FMR_SEC_LOADTIME_LOADTIME i = loadClocks x / 1000 % 2 ^ 32 ∧ d.loadComplete.clk = max d.clk (b + loadClocks x) ∧
    loadKeys d.loadComplete.loads = loadKeys t := by
  obtain ⟨hdone, hloads, hclk⟩ := d.loadRun_kept i b t x
  have dark : LoadKept (d.loadRun i b t x) ((d.loadRun i b t x).darkLoss i 6) := .of_secKept ((SecKept.refl True _).darkLoss i 6)
  have heq := Dev.loadComplete_good hi hl hx hk hcode
  rw [← Dev.loadShown] at heq
  generalize hD : ((d.loadRun i b t x).darkLoss i 6).loadEntered i x = D at heq
  have entered : D.desc i = some x ∧ (D.rd F.FMR_SEC_DONE_DONE (i / 32)).testBit (i % 32) = true ∧ D.clk = max d.clk (b + loadClocks x) ∧
      loadKeys D.loads = loadKeys t := by
    rw [← hD]
    exact ⟨Dev.desc_loadEntered _ i x, dark.doneBit hi hdone, dark.clk.trans hclk, dark.keys.trans (congrArg loadKeys hloads)⟩
  obtain ⟨hdesc, hdone, hclk, hkeys⟩ := entered
  have kept := LoadKept.loadShown D i x
  have hword := D.reg_loadShown i x (o := F.FMR_SEC_STATE_STATE.at_ i 0) (by rw [secState_reg_eq]; omega) (by rw [secState_reg_eq]; omega)
  have htime := D.reg_loadShown i x (o := F.FMR_SEC_LOADTIME_LOADTIME.at_ i 0) (by rw [loadTime_eq]; omega) (by rw [loadTime_eq]; omega)
  rw [Dev.shownActive_state] at hword
  rw [heq]
  refine ⟨?_, ?_, (kept.desc i).trans hdesc, ?_, kept.doneBit hi hdone, ?_, kept.clk.trans hclk, kept.keys.trans hkeys⟩
  · exact (congrArg (fun w : Word => w.field 0 3) hword).trans ((Dev.secState_secCode _ _ _).trans (Dev.secState_setSec _ _ _))
  · exact (congrArg (fun w : Word => w.field 16 8) hword).trans (Dev.rd_secCode _ _ _)
  · have hpending : ((((D.loadShown i x).raise 7 3).resumeRuns i).kickLoad.cascade).reg 0x301E0 = ((D.loadShown i x).raise 7 3).reg 0x301E0 :=
      (Dev.reg_kickCascade _ (by decide) (.inl (by decide))).trans (Dev.reg_resumed _ i (by decide) (.inl (by decide)))
    have hraised := raised_raise (D.loadShown i x) (g := 7) 3 (by decide)
    unfold Raised at *
    rw [← hraised]
    exact congrArg (fun w : Word => (w.field 0 32).testBit 3) hpending
  · exact (congrArg (fun w : Word => w.field 0 32) htime).trans (Dev.rd_wr_same _ F.FMR_SEC_LOADTIME_LOADTIME _ _ _ (by decide))

/-- A load that fails a check leaves the section ABSENT with the check's code (R59, R66). -/
theorem Dev.loadComplete_bad_holds (hi : i < 128) (hl : d.loads = ⟨i, k, b + 1⟩ :: t)
    (hx : (d.slot k).image.bind (fun im => im.sections.find? (·.index == i)) = some x) (hk : d.kind i = 0) (hcode : d.loadCode i k x ≠ 0) :
    d.loadComplete.secState i = 0 ∧ d.loadComplete.rd F.FMR_SEC_STATE_CODE i = d.loadCode i k x ∧ d.loadComplete.sections.get? i = none ∧
    Raised d.loadComplete 7 4 ∧ (d.loadComplete.rd F.FMR_SEC_DONE_DONE (i / 32)).testBit (i % 32) = true := by
  obtain ⟨hdone, -, -⟩ := d.loadRun_kept i b t x
  have dark : SecKept True (d.loadRun i b t x) ((d.loadRun i b t x).darkLoss i 6) := (SecKept.refl True _).darkLoss i 6
  have hkind : ((d.loadRun i b t x).darkLoss i 6).kind i = 0 := by
    unfold Dev.kind Dev.desc
    rw [dark.sections]
    exact Dev.kind_loadRun.trans hk
  have heq := Dev.loadComplete_bad hi hl hx hcode
  generalize hD : ((d.loadRun i b t x).darkLoss i 6).endSection i false = D at heq
  have hword (o : Nat) (h0 : 0x100000 ≤ o) (h1 : o < 0x102000) :
      (((((D.setSec i 0).secCode i (d.loadCode i k x)).raise 7 4).kickLoad).cascade).reg o = ((D.setSec i 0).secCode i (d.loadCode i k x)).reg o := by
    rw [Dev.reg_kickCascade _ (by omega) (by omega), Dev.reg_raise _ 4 (by decide) (irqReg_between (by omega) (by omega))]
  have hstate := hword (F.FMR_SEC_STATE_STATE.at_ i 0) (by rw [secState_reg_eq]; omega) (by rw [secState_reg_eq]; omega)
  rw [heq]
  refine ⟨?_, ?_, ?_, ?_, ?_⟩
  · exact (congrArg (fun w : Word => w.field 0 3) hstate).trans ((Dev.secState_secCode _ _ _).trans (Dev.secState_setSec _ _ _))
  · exact (congrArg (fun w : Word => w.field 16 8) hstate).trans ((Dev.rd_secCode _ _ _).trans (Nat.mod_eq_of_lt (d.loadCode_lt i k x)))
  · have hcascade := (SecKept.refl True ((((D.setSec i 0).secCode i (d.loadCode i k x)).raise 7 4).kickLoad)).cascade
    obtain ⟨l, e, -⟩ := (((D.setSec i 0).secCode i (d.loadCode i k x)).raise 7 4).kickLoad_shape
    rw [hcascade.sections, e]
    show (((D.setSec i 0).secCode i (d.loadCode i k x)).raise 7 4).sections.get? i = none
    rw [Dev.raise_sections, ← hD]
    exact Dev.sections_endSection _ i false
  · have hpending := Dev.reg_kickCascade (((D.setSec i 0).secCode i (d.loadCode i k x)).raise 7 4) (o := 0x301E0) (by decide) (.inl (by decide))
    have hraised := raised_raise ((D.setSec i 0).secCode i (d.loadCode i k x)) (g := 7) 4 (by decide)
    unfold Raised at *
    rw [← hraised]
    exact congrArg (fun w : Word => (w.field 0 32).testBit 4) hpending
  · have hend : D.reg (F.FMR_SEC_DONE_DONE.at_ (i / 32) 0) = (d.loadRun i b t x).reg (F.FMR_SEC_DONE_DONE.at_ (i / 32) 0) := by
      rw [← hD, Dev.reg_endSection_kindless hkind (by rw [secDone_eq]; omega) (by rw [secDone_eq]; omega)]
      exact dark.reg _ (by rw [secDone_eq]; omega) (by rw [secDone_eq]; omega)
    have hshown : LoadKept D ((D.setSec i 0).secCode i (d.loadCode i k x)) := by
      refine .of_frame (w := [F.FMR_SEC_STATE_STATE.at_ i 0, F.FMR_STATUS_ACTIVE.at_ 0 0])
        (((Frame.refl _ D).setSec (.head _) (.tail _ (.head _))).secCode (.head _)) fun o ho => ?_
      simp only [List.mem_cons, List.not_mem_nil, or_false, secState_reg_eq] at ho
      have hcount : F.FMR_STATUS_ACTIVE.at_ 0 0 = 0x100004 := rfl
      omega
    have hreg := (hword (F.FMR_SEC_DONE_DONE.at_ (i / 32) 0) (by rw [secDone_eq]; omega) (by rw [secDone_eq]; omega)).trans
      ((hshown.done _ (by omega)).trans hend)
    rw [← hdone]
    exact congrArg (fun w : Word => (w.field 0 32).testBit (i % 32)) hreg
end

/-! ## The obligation -/

/-- Settles O8: a LOAD that may run is queued with its section LOADING, SUPERSEDE abandons the load before it, the queue's head begins, and the end of a load
leaves its section ACTIVE, or ABSENT with the first failing check's code. -/
theorem loadCommandsComplete : Obligations.LoadCommandsComplete := by
  unfold Obligations.LoadCommandsComplete
  refine ⟨fun s => ⟨rfl, rfl, fun hrun => ⟨fun i k => exec_host_run (f := fun d => d.secLoad i k false) rfl hrun,
    fun i k => exec_host_run (f := fun d => d.secLoad i k true) rfl hrun⟩⟩, fun s i k x => ⟨?_, ?_, ?_, ?_, ?_, ?_⟩⟩
  · intro hrun hreef himg hx hst
    refine completes_host (f := fun d => d.secLoad i k false) rfl hrun ?_
    simp only [Dev.secLoad_absent hreef himg hx hst]
    obtain ⟨hstate, hslot, hcode, hkeys, hmap, hmaps⟩ := s.dev.loadQueued_holds i k.isLt x
    exact ⟨hstate, hslot, hcode, hkeys, fun h => Dev.loads_loadQueued_first h, hmap, hmaps, s.dev.frame_loadQueued i k x⟩
  · intro hrun hreef himg
    refine completes_host (f := fun d => d.secLoad i k false) rfl hrun ?_
    simp only [Dev.secLoad_unverified hreef himg]
    exact s.dev.secCode_only i (by decide)
  · intro hrun hreef himg hx hst
    refine completes_host (f := fun d => d.secLoad i k true) rfl hrun ?_
    simp only [Dev.secLoad_supersede hreef himg hx hst]
    exact s.dev.supersede_holds i.isLt k.isLt x
  · intro l t hl h0
    refine completes_lift (f := Dev.kickLoad) rfl ?_
    rw [Dev.kickLoad_waiting hl h0]
    exact ⟨rfl, rfl⟩
  · intro b t hl hx hk hcode
    obtain ⟨hstate, hshown, hdesc, hraised, hdone, htime, hclk, hkeys⟩ := Dev.loadComplete_good_holds i.isLt hl hx hk hcode
    refine completes_lift (f := Dev.loadComplete) rfl ⟨hstate, hshown, hdesc, hraised, hdone, htime, ?_, hkeys⟩
    rw [hclk, loadClocks]
    omega
  · intro b t hl hx hk hcode
    exact completes_lift (f := Dev.loadComplete) rfl (Dev.loadComplete_bad_holds i.isLt hl hx hk hcode)

end Machine
end Sys2Proof
end

