-- ==== Sys2Proof/Proofs/Inputs.lean ====
section
/-! PROOFS. The registers of an input (spec/03_inputs.md), what a context record of a converter moves (R96), and what an attenuator write leaves (R70, R72,
R93): settles O13. -/

namespace Sys2Proof
namespace Machine

/-! ## Fields of the input blocks -/

/-- A field of the input blocks: one register for each input, 0x1000 apart, below the words of the slots. -/
def Fld.ofInput (f : Fld) : Bool :=
  decide (0xC0000 ≤ f.off) && decide (f.off < 0xC0100) && decide (f.st = 0x1000) && decide (f.lo + f.w ≤ 32)
/-- Two fields of the input blocks that share no bit. -/
def Fld.apart (f g : Fld) : Bool :=
  f.ofInput && g.ofInput && (f.off != g.off || decide (f.lo + f.w ≤ g.lo) || decide (g.lo + g.w ≤ f.lo))

theorem Fld.ofInput_iff {f : Fld} : f.ofInput = true ↔ 0xC0000 ≤ f.off ∧ f.off < 0xC0100 ∧ f.st = 0x1000 ∧ f.lo + f.w ≤ 32 := by
  simp only [Fld.ofInput, Bool.and_eq_true, decide_eq_true_eq, and_assoc]
theorem Fld.apart_iff {f g : Fld} : f.apart g = true ↔
    f.ofInput = true ∧ g.ofInput = true ∧ (f.off ≠ g.off ∨ f.lo + f.w ≤ g.lo ∨ g.lo + g.w ≤ f.lo) := by
  simp only [Fld.apart, Bool.and_eq_true, Bool.or_eq_true, decide_eq_true_eq, bne_iff_ne, and_assoc, or_assoc]
theorem Fld.at_input {f : Fld} (hf : f.ofInput = true) (n : Nat) : f.at_ n 0 = f.off + n * 0x1000 := by
  obtain ⟨-, -, hst, -⟩ := Fld.ofInput_iff.mp hf
  unfold Fld.at_
  rw [hst, Nat.zero_mul, Nat.add_zero]
theorem Fld.at_input_eq_iff {f g : Fld} (hf : f.ofInput = true) (hg : g.ofInput = true) {n i : Nat} : f.at_ n 0 = g.at_ i 0 ↔ f.off = g.off ∧ n = i := by
  obtain ⟨hf0, hf1, -, -⟩ := Fld.ofInput_iff.mp hf
  obtain ⟨hg0, hg1, -, -⟩ := Fld.ofInput_iff.mp hg
  rw [Fld.at_input hf, Fld.at_input hg]
  omega

/-- A write of one field leaves a field that shares no bit with it, of whatever input. -/
theorem Dev.rd_wr_apart {f g : Fld} (h : f.apart g = true) (d : Dev) (v n i : Nat) : (d.wr f v n).rd g i = d.rd g i := by
  obtain ⟨hf, hg, hapart⟩ := Fld.apart_iff.mp h
  obtain ⟨-, -, -, hfit⟩ := Fld.ofInput_iff.mp hf
  rcases hapart with hoff | hbits
  · exact Dev.rd_wr_ne _ _ _ _ _ _ _ _ fun e => hoff ((Fld.at_input_eq_iff hg hf).mp e).1.symm
  · exact Dev.rd_wr_field _ _ _ _ _ _ _ _ hfit hbits
/-- A write of one input's field leaves the fields of the others. -/
theorem Dev.rd_wr_otherInput {f g : Fld} (hf : f.ofInput = true) (hg : g.ofInput = true) (d : Dev) (v : Nat) {n i : Nat} (h : i ≠ n) :
    (d.wr f v n).rd g i = d.rd g i :=
  Dev.rd_wr_ne _ _ _ _ _ _ _ _ fun e => h ((Fld.at_input_eq_iff hg hf).mp e).2
/-- An input's field reads a value written that fits it. -/
theorem Dev.rd_wr_fits (d : Dev) {f : Fld} {v : Nat} (n : Nat) (hfit : f.lo + f.w ≤ 32) (hv : v < 2 ^ f.w) : (d.wr f v n).rd f n = v := by
  rw [Dev.rd_wr_same _ _ _ _ _ hfit, Nat.mod_eq_of_lt hv]
theorem Dev.rd_flag_same (d : Dev) {f : Fld} (b : Bool) (n : Nat) (hfit : f.lo + f.w ≤ 32) (hw : f.w = 1) : (d.flag f b n).rd f n = if b then 1 else 0 := by
  unfold Dev.flag
  refine Dev.rd_wr_fits d n hfit ?_
  rw [hw]
  split <;> decide
theorem Dev.rd_flag_apart {f g : Fld} (h : f.apart g = true) (d : Dev) (b : Bool) (n i : Nat) : (d.flag f b n).rd g i = d.rd g i := Dev.rd_wr_apart h _ _ _ _
theorem Dev.rd_flag_otherInput {f g : Fld} (hf : f.ofInput = true) (hg : g.ofInput = true) (d : Dev) (b : Bool) {n i : Nat} (h : i ≠ n) :
    (d.flag f b n).rd g i = d.rd g i := Dev.rd_wr_otherInput hf hg _ _ h

theorem at_input_low {f : Fld} (hf : f.ofInput = true) {n : Nat} (hn : n ≤ 8) : f.at_ n 0 < 0x300000 := by
  obtain ⟨-, h1, -, -⟩ := Fld.ofInput_iff.mp hf
  rw [Fld.at_input hf]
  omega
theorem irqReg_input {f : Fld} (hf : f.ofInput = true) {n : Nat} (hn : n ≤ 8) : irqReg (f.at_ n 0) = false := by
  obtain ⟨h0, -, -, -⟩ := Fld.ofInput_iff.mp hf
  have hlow := at_input_low hf hn
  refine irqReg_between ?_ (by omega)
  rw [Fld.at_input hf]
  omega

/-- A one-bit field is read as a Boolean. -/
theorem Dev.is_eq_false {d : Dev} {f : Fld} {n : Nat} (h : d.rd f n = 0) : d.is f n = false := by simp [Dev.is, h]
theorem Dev.is_eq_true {d : Dev} {f : Fld} {n : Nat} (h : d.rd f n = 1) : d.is f n = true := by simp [Dev.is, h]

/-! ## What placing records leaves -/

section
variable {w : List Nat} {a b : Dev}

/-- The state beside what records move is the same. -/
theorem RecordsOnly.shape (h : RecordsOnly w a b) : ∃ r z x m q u l i o k, b =
    { a with regs := r, regs0 := z, wide := x, mem := m, rings := q, runs := u, dram := { a.dram with cached := l }, irq := i, out := o, freeCtr := k } := by
  refine ⟨b.regs, b.regs0, b.wide, b.mem, b.rings, b.runs, b.dram.cached, b.irq, b.out, b.freeCtr, ?_⟩
  conv_rhs => rw [← h.2.2]
theorem RecordsOnly.inputs (h : RecordsOnly w a b) : b.inputs = a.inputs := by obtain ⟨_, _, _, _, _, _, _, _, _, _, rfl⟩ := h.shape; rfl
theorem RecordsOnly.clk (h : RecordsOnly w a b) : b.clk = a.clk := by obtain ⟨_, _, _, _, _, _, _, _, _, _, rfl⟩ := h.shape; rfl
theorem RecordsOnly.cues (h : RecordsOnly w a b) : b.cues = a.cues := by obtain ⟨_, _, _, _, _, _, _, _, _, _, rfl⟩ := h.shape; rfl
theorem RecordsOnly.input (h : RecordsOnly w a b) (n : Nat) : b.input n = a.input n := by unfold Dev.input; rw [h.inputs]
/-- A field of an input that may not move reads the same. -/
theorem RecordsOnly.rd (h : RecordsOnly w a b) {f : Fld} (hf : f.ofInput = true) {n : Nat} (hn : n ≤ 8) (hw : f.at_ n 0 ∉ w) : b.rd f n = a.rd f n :=
  congrArg (fun x : Word => x.field f.lo f.w) (h.1 _ (at_input_low hf hn) hw (irqReg_input hf hn))

/-- A converter's context record goes to its raw runs and the anchor ring (R96). -/
theorem RecordsOnly.converterContext (h : RecordsOnly w a b) (n reason settle idx : Nat) (k : Int) (cross : Option (Nat × Nat)) :
    RecordsOnly w a (b.converterContext n reason settle idx k cross) :=
  (RecordsOnly.fold _ (fun _ _ hc => hc.publishContext _ _) _ h).anchorRecord _
theorem RecordsOnly.applyAtten (h : RecordsOnly w a b) {n : Nat} (ho : F.CNV_ATTEN_ACT_SETTING.at_ n 0 ∈ w) (v : Nat) (cross : Option (Nat × Nat)) (k : Nat) :
    RecordsOnly w a (b.applyAtten n v cross k) := by
  unfold Dev.applyAtten
  exact RecordsOnly.ite h (((h.wr F.CNV_ATTEN_ACT_SETTING _ _ _ (.inr ho)).wr F.CNV_ATTEN_ACT_ACTUAL _ _ _ (.inr ho)).converterContext _ _ _ _ _ _)
end

/-! ## A setting of the attenuator (R70, R72) -/

section
variable (d : Dev) {n v : Nat} (hn : n < 8) (cross : Option (Nat × Nat)) (k : Nat)
include hn

theorem Dev.rd_converterContext {f : Fld} (hf : f.ofInput = true) (m reason settle idx : Nat) (t : Int) :
    (d.converterContext m reason settle idx t cross).rd f n = d.rd f n :=
  ((RecordsOnly.refl [] d).converterContext m reason settle idx t cross).rd hf hn.le List.not_mem_nil

/-- The setting shows as in force. -/
theorem Dev.rd_applyAtten_setting (hv : v < 32) : (d.applyAtten n v cross k).rd F.CNV_ATTEN_ACT_SETTING n = v := by
  unfold Dev.applyAtten
  split
  next h => exact h
  next h =>
    rw [Dev.rd_converterContext _ hn _ (by decide), Dev.rd_wr_apart (by decide)]
    exact Dev.rd_wr_fits d n (by decide) hv
/-- Another setting than the one in force shows the level that calibration measured for it. -/
theorem Dev.rd_applyAtten_actual (h : d.rd F.CNV_ATTEN_ACT_SETTING n ≠ v) : (d.applyAtten n v cross k).rd F.CNV_ATTEN_ACT_ACTUAL n =
    unsigned 16 (d.cal.val.getD (4352 + n * 32 + v) 0) := by
  have hlt : unsigned 16 (d.cal.val.getD (4352 + n * 32 + v) 0) < 2 ^ F.CNV_ATTEN_ACT_ACTUAL.w := by
    show Int.toNat (_ % _) < _
    have := Int.emod_lt_of_pos (d.cal.val.getD (4352 + n * 32 + v) 0) (show (0 : Int) < (2 ^ 16 : Nat) by decide)
    have hw : 2 ^ F.CNV_ATTEN_ACT_ACTUAL.w = 65536 := rfl
    omega
  unfold Dev.applyAtten
  rw [if_neg h, Dev.rd_converterContext _ hn _ (by decide)]
  exact Dev.rd_wr_fits _ n (by decide) hlt
theorem Dev.rd_applyAtten_atten : (d.applyAtten n v cross k).rd F.CNV_ATTEN_ATTEN n = d.rd F.CNV_ATTEN_ATTEN n := by
  unfold Dev.applyAtten
  split
  · rfl
  · rw [Dev.rd_converterContext _ hn _ (by decide), Dev.rd_wr_apart (by decide), Dev.rd_wr_apart (by decide)]
end

/-! ## The three answers of an attenuator write -/

section
variable {d : Dev} {n v : Nat}

/-- The engine with the setting stored. -/
def Dev.attenStored (d : Dev) (n v : Nat) : Dev := d.wr F.CNV_ATTEN_ATTEN v n
theorem Dev.cnvState_attenStored (d : Dev) (n v : Nat) : (d.attenStored n v).cnvState n = d.cnvState n := Dev.rd_wr_apart (by decide) _ _ _ _
theorem Dev.setAtten_ignored (h : d.cnvState n = 4) : d.setAtten n v = d := if_pos h
theorem Dev.setAtten_held (h : d.cnvState n = 2 ∨ d.cnvState n = 3) : d.setAtten n v = (d.attenStored n v).holdAtten n v none := by
  have hheld : (d.attenStored n v).attenHeld n = true := by
    unfold Dev.attenHeld
    rw [Dev.cnvState_attenStored]
    rcases h with e | e <;> rw [e] <;> rfl
  unfold Dev.setAtten
  rw [if_neg (by omega)]
  exact if_pos hheld
theorem Dev.setAtten_applied (h : d.cnvState n < 2) : ∃ k, d.setAtten n v = ((d.attenStored n v).applyAtten n v none k).noteTurn n (some v) := by
  have hfree : (d.attenStored n v).attenHeld n = false := by
    unfold Dev.attenHeld
    rw [Dev.cnvState_attenStored, Bool.or_eq_false_iff, beq_eq_false_iff_ne, beq_eq_false_iff_ne]
    omega
  unfold Dev.setAtten
  rw [if_neg (by omega)]
  exact ⟨_, if_neg (by simpa [Dev.attenStored] using hfree)⟩

theorem Dev.setAtten_held_holds (hv : v < 32) (h : d.cnvState n = 2 ∨ d.cnvState n = 3) :
    (d.setAtten n v).rd F.CNV_ATTEN_ATTEN n = v ∧ ((d.setAtten n v).input n).heldAtten = some (v, none) ∧
    ((d.setAtten n v).input n).idx = (d.input n).idx ∧ (∀ j, j ≠ n → (d.setAtten n v).input j = d.input j) ∧
    Frame [F.CNV_ATTEN_ATTEN.at_ n 0] d { d.setAtten n v with inputs := d.inputs } := by
  have hinput (j : Nat) : (d.setAtten n v).input j = if j = n then { d.input n with heldAtten := some (v, none) } else d.input j := by
    rw [Dev.setAtten_held h]
    exact Dev.input_setInput _ _ _ _
  refine ⟨?_, ?_, ?_, fun j hj => ?_, ?_⟩
  · rw [Dev.setAtten_held h]
    exact Dev.rd_wr_fits d n (by decide) hv
  · rw [hinput, if_pos rfl]
  · rw [hinput, if_pos rfl]
  · rw [hinput, if_neg hj]
  · rw [Dev.setAtten_held h]
    exact (Frame.refl _ d).wr F.CNV_ATTEN_ATTEN v n 0 (List.mem_singleton_self _)

theorem Dev.setAtten_applied_holds (hn : n < 8) (hv : v < 32) (h : d.cnvState n < 2) :
    (d.setAtten n v).rd F.CNV_ATTEN_ATTEN n = v ∧ (d.setAtten n v).rd F.CNV_ATTEN_ACT_SETTING n = v ∧
    (d.rd F.CNV_ATTEN_ACT_SETTING n ≠ v → (d.setAtten n v).rd F.CNV_ATTEN_ACT_ACTUAL n = unsigned 16 (d.cal.val.getD (4352 + n * 32 + v) 0)) ∧
    Noted n v d (d.setAtten n v) ∧ RecordsOnly [F.CNV_ATTEN_ATTEN.at_ n 0, F.CNV_ATTEN_ACT_SETTING.at_ n 0] d { d.setAtten n v with cues := d.cues } := by
  obtain ⟨k, heq⟩ := Dev.setAtten_applied (v := v) h
  have hset : (d.attenStored n v).rd F.CNV_ATTEN_ACT_SETTING n = d.rd F.CNV_ATTEN_ACT_SETTING n := Dev.rd_wr_apart (by decide) _ _ _ _
  have hrec : RecordsOnly [F.CNV_ATTEN_ATTEN.at_ n 0, F.CNV_ATTEN_ACT_SETTING.at_ n 0] d ((d.attenStored n v).applyAtten n v none k) :=
    ((RecordsOnly.refl _ d).wr F.CNV_ATTEN_ATTEN v n 0 (.inr (.head _))).applyAtten (.tail _ (.head _)) v none k
  rw [heq]
  refine ⟨?_, Dev.rd_applyAtten_setting _ hn none k hv, fun hne => Dev.rd_applyAtten_actual _ hn none k (hset ▸ hne), ?_, ?_⟩
  · exact (Dev.rd_applyAtten_atten _ hn none k).trans (Dev.rd_wr_fits d n (by decide) hv)
  · simp only [Noted, Dev.noteTurn, hrec.cues, hrec.clk]
  · show RecordsOnly _ d { (d.attenStored n v).applyAtten n v none k with cues := d.cues }
    rw [← hrec.cues]
    exact hrec
end

/-- Settles O13: the write is ignored on the odd input of a pair, held during calibration and in a slot, and else takes effect and is noted for the clock's
cue commits. -/
theorem attenuatorWritesComplete : Obligations.AttenuatorWritesComplete := by
  unfold Obligations.AttenuatorWritesComplete
  refine ⟨fun s hrun n v => exec_host_run (f := fun d => d.setAtten n (v.field 0 5)) rfl hrun, fun s n v hrun => ⟨?_, ?_, ?_⟩⟩
  · intro h
    exact completes_host (f := fun d => d.setAtten n (v.field 0 5)) rfl hrun (Dev.setAtten_ignored h)
  · intro h
    exact completes_host (f := fun d => d.setAtten n (v.field 0 5)) rfl hrun (Dev.setAtten_held_holds (Word.field_lt v 0 5) h)
  · intro h
    exact completes_host (f := fun d => d.setAtten n (v.field 0 5)) rfl hrun (Dev.setAtten_applied_holds n.isLt (Word.field_lt v 0 5) h)

end Machine
end Sys2Proof
end

