-- ==== Sys2Proof/Proofs/InputLosses.lean ====
section
/-! PROOFS. What samples that a converter withholds move: the ledgers of its streams and channels, the counts of its transforms (spec/03_inputs.md, R76, R79;
R159, R177), and what blanking moves of its input (R78, R81). -/

namespace Sys2Proof
namespace Machine

/-! ## Losses noted -/

/-- `b` is `a` but for records placed, and for what transforms and channels remember of the units they lost. -/
def LossOnly (w : List Nat) (a b : Dev) : Prop := RecordsOnly w a { b with xfrms := a.xfrms, chans := a.chans }

namespace LossOnly
variable {w : List Nat} {a b c : Dev}

theorem of_records (h : RecordsOnly w a b) : LossOnly w a b := by
  obtain ⟨_, _, _, _, _, _, _, _, _, _, rfl⟩ := h.shape
  exact h
theorem refl (w : List Nat) (a : Dev) : LossOnly w a a := of_records (.refl w a)
theorem shape (h : LossOnly w a b) : ∃ r z x m q u l i o k f t, b =
    { a with regs := r, regs0 := z, wide := x, mem := m, rings := q, runs := u, dram := { a.dram with cached := l }, irq := i, out := o, freeCtr := k,
             xfrms := f, chans := t } := by
  obtain ⟨r, z, x, m, q, u, l, i, o, k, e⟩ := RecordsOnly.shape h
  refine ⟨r, z, x, m, q, u, l, i, o, k, b.xfrms, b.chans, ?_⟩
  have e' := congrArg (fun y : Dev => { y with xfrms := b.xfrms, chans := b.chans }) e
  exact e'
theorem trans (h1 : LossOnly w a b) (h2 : LossOnly w b c) : LossOnly w a c := by
  refine ⟨fun o hl ho hi => (h2.1 o hl ho hi).trans (h1.1 o hl ho hi), fun k hl hk => (h2.2.1 k hl hk).trans (h1.2.1 k hl hk), ?_⟩
  obtain ⟨_, _, _, _, _, _, _, _, _, _, _, _, rfl⟩ := h2.shape
  obtain ⟨_, _, _, _, _, _, _, _, _, _, _, _, rfl⟩ := h1.shape
  rfl
theorem foldl {α : Type} {f : Dev → α → Dev} (hf : ∀ (b : Dev) (x : α), LossOnly w b (f b x)) : ∀ (l : List α) (b : Dev), LossOnly w b (l.foldl f b)
  | [], b => refl w b
  | x :: t, b => (hf b x).trans (foldl hf t (f b x))

theorem inputs (h : LossOnly w a b) : b.inputs = a.inputs := by obtain ⟨_, _, _, _, _, _, _, _, _, _, _, _, rfl⟩ := h.shape; rfl
theorem clk (h : LossOnly w a b) : b.clk = a.clk := by obtain ⟨_, _, _, _, _, _, _, _, _, _, _, _, rfl⟩ := h.shape; rfl

theorem noteLoss (d : Dev) (i : Nat) (l : Loss) : LossOnly w d (d.noteLoss i l) := by
  obtain ⟨t, h⟩ := Dev.noteLoss_records w d i l
  have remembered : LossOnly w d { d with chans := t } := RecordsOnly.refl w d
  exact remembered.trans (of_records h)
theorem framesBad (d : Dev) (i p q : Nat) : LossOnly w d (d.framesBad i p q) := by
  unfold Dev.framesBad
  split
  · exact refl w d
  · dsimp only
    split
    · exact refl w d
    · have counted (v : Word) : RecordsOnly w d (d.setReg (0x1000000 + i * 0x20000 + 0x58) v) := (RecordsOnly.refl w d).setReg _ _ (.inl (by omega))
      have told (v : Word) (t : Tab Xfrm) : LossOnly w d { d.setReg (0x1000000 + i * 0x20000 + 0x58) v with xfrms := t } := counted v
      split
      · exact (told _ _).trans (of_records ((RecordsOnly.refl w _).sectionEvent i 0))
      · exact told _ _
theorem frameLoss (d : Dev) (i : Nat) (x : Xfrm) (p q : Nat) : LossOnly w d (d.frameLoss i x p q) := framesBad d i _ _

/-- Beside what the input itself remembers, a converter's loss reaches its raw streams, its transforms, its channels and what they feed. -/
theorem inputLost (d : Dev) (n p q cause : Nat) :
    LossOnly w (d.setInput n (fun i => { i with lost := addLoss i.lost ⟨p, q - p, cause⟩ })) (d.inputLost n p q cause) := by
  unfold Dev.inputLost
  dsimp only
  refine ((foldl (fun b i => noteLoss b i _) _ _).trans (foldl (fun b (x : Nat × Xfrm) => frameLoss b x.1 x.2 p q) _ _)).trans (foldl (fun b (x : Nat × Chan) => ?_) _ _)
  exact (noteLoss b x.1 _).trans (foldl (fun b (y : Nat × Xfrm) => frameLoss b y.1 y.2 _ _) _ _)
end LossOnly

/-- An input whose loss is noted remembers it; the others stay. -/
theorem Dev.input_inputLost (d : Dev) (n p q cause j : Nat) :
    (d.inputLost n p q cause).input j = if j = n then { d.input n with lost := addLoss (d.input n).lost ⟨p, q - p, cause⟩ } else d.input j := by
  have h := (LossOnly.inputLost (w := []) d n p q cause).inputs
  refine Eq.trans ?_ (d.input_setInput n j fun i => { i with lost := addLoss i.lost ⟨p, q - p, cause⟩ })
  unfold Dev.input
  rw [h]

/-! ## Changes of an input beside its losses -/

/-- The same with what the inputs remember set aside. -/
def FedOnly (w : List Nat) (a b : Dev) : Prop := RecordsOnly w a { b with inputs := a.inputs, xfrms := a.xfrms, chans := a.chans }

namespace FedOnly
variable {w : List Nat} {a b c : Dev}

theorem of_loss (h : LossOnly w a b) : FedOnly w a b := by
  obtain ⟨_, _, _, _, _, _, _, _, _, _, _, _, rfl⟩ := h.shape
  exact h
theorem of_records (h : RecordsOnly w a b) : FedOnly w a b := of_loss (.of_records h)
theorem refl (w : List Nat) (a : Dev) : FedOnly w a a := of_records (.refl w a)
theorem shape (h : FedOnly w a b) : ∃ r z x m q u l i o k f t p, b =
    { a with regs := r, regs0 := z, wide := x, mem := m, rings := q, runs := u, dram := { a.dram with cached := l }, irq := i, out := o, freeCtr := k,
             xfrms := f, chans := t, inputs := p } := by
  obtain ⟨r, z, x, m, q, u, l, i, o, k, e⟩ := RecordsOnly.shape h
  refine ⟨r, z, x, m, q, u, l, i, o, k, b.xfrms, b.chans, b.inputs, ?_⟩
  have e' := congrArg (fun y : Dev => { y with xfrms := b.xfrms, chans := b.chans, inputs := b.inputs }) e
  exact e'
theorem trans (h1 : FedOnly w a b) (h2 : FedOnly w b c) : FedOnly w a c := by
  refine ⟨fun o hl ho hi => (h2.1 o hl ho hi).trans (h1.1 o hl ho hi), fun k hl hk => (h2.2.1 k hl hk).trans (h1.2.1 k hl hk), ?_⟩
  obtain ⟨_, _, _, _, _, _, _, _, _, _, _, _, _, rfl⟩ := h2.shape
  obtain ⟨_, _, _, _, _, _, _, _, _, _, _, _, _, rfl⟩ := h1.shape
  rfl
theorem clk (h : FedOnly w a b) : b.clk = a.clk := by obtain ⟨_, _, _, _, _, _, _, _, _, _, _, _, _, rfl⟩ := h.shape; rfl
/-- A field of an input that may not move reads the same. -/
theorem rd (h : FedOnly w a b) {f : Fld} (hf : f.ofInput = true) {n : Nat} (hn : n ≤ 8) (hw : f.at_ n 0 ∉ w) : b.rd f n = a.rd f n :=
  RecordsOnly.rd h hf hn hw

theorem setInput (h : FedOnly w a b) (n : Nat) (f : Input → Input) : FedOnly w a (b.setInput n f) := h
theorem flag (h : FedOnly w a b) (f : Fld) (v : Bool) (n : Nat) (ho : f.at_ n 0 ∈ w) : FedOnly w a (b.flag f v n) :=
  h.trans (of_records ((RecordsOnly.refl w b).wr f _ n 0 (.inr ho)))
theorem setWide (h : FedOnly w a b) (f : Fld) (v n : Nat) (ho : f.at_ n 0 ∈ w) : FedOnly w a (b.setWide f v n) := by
  refine h.trans ⟨fun _ _ _ _ => rfl, fun k _ hk => Tab.get?_put_ne _ _ ?_, rfl⟩
  rintro rfl
  exact hk ho
theorem inputLost (h : FedOnly w a b) (n p q cause : Nat) : FedOnly w a (b.inputLost n p q cause) :=
  (h.setInput n _).trans (of_loss (LossOnly.inputLost b n p q cause))
end FedOnly

/-! ## Blanking (R78, R79) -/

section
variable (d : Dev) {n : Nat}

/-- Blanking `a` ended: the blanked samples up to the boundary are counted. -/
def Dev.blankCounted (d : Dev) (n a : Nat) : Dev :=
  ((d.setInput n (fun i => { i with blankFrom := none })).flag F.CNV_STATUS_BLANKING false n).setWide F.CNV_BLANK_LO_BLANK
    (d.wideAt F.CNV_BLANK_LO_BLANK n + (d.nextIdx n - a)) n

theorem Dev.endBlank_none {d : Dev} (h : (d.input n).blankFrom = none) : d.endBlank n = d := by
  unfold Dev.endBlank
  rw [h]
theorem Dev.endBlank_some {d : Dev} {a : Nat} (h : (d.input n).blankFrom = some a) :
    d.endBlank n = (d.blankCounted n a).inputLost n a (d.nextIdx n) 7 := by
  unfold Dev.endBlank
  rw [h]
  rfl

/-- No blanking is in progress where one has ended; of the rest only the losses moved. -/
theorem Dev.input_endBlank (n j : Nat) : ∃ l, (d.endBlank n).input j = if j = n then { d.input n with blankFrom := none, lost := l } else d.input j := by
  cases h : (d.input n).blankFrom with
  | none =>
    refine ⟨(d.input n).lost, ?_⟩
    rw [Dev.endBlank_none h]
    split
    next e =>
      rw [e, ← h]
    next => rfl
  | some a =>
    refine ⟨addLoss (d.input n).lost ⟨a, d.nextIdx n - a, 7⟩, ?_⟩
    have hset (i : Nat) : (d.blankCounted n a).input i = if i = n then { d.input n with blankFrom := none } else d.input i := 
      d.input_setInput n i fun x => { x with blankFrom := none }
    rw [Dev.endBlank_some h, Dev.input_inputLost, hset, hset, if_pos rfl]
    split <;> rfl
theorem Dev.endBlank_blankFrom (n : Nat) : ((d.endBlank n).input n).blankFrom = none := by
  obtain ⟨l, h⟩ := d.input_endBlank n n
  rw [h, if_pos rfl]
theorem FedOnly.endBlank {w : List Nat} {a b : Dev} (h : FedOnly w a b) (hst : F.CNV_STATUS_BLANKING.at_ n 0 ∈ w) (hcnt : F.CNV_BLANK_LO_BLANK.at_ n 0 ∈ w) :
    FedOnly w a (b.endBlank n) := by
  cases hb : (b.input n).blankFrom with
  | none =>
    rw [Dev.endBlank_none hb]
    exact h
  | some p =>
    rw [Dev.endBlank_some hb]
    exact (((h.setInput n _).flag F.CNV_STATUS_BLANKING false n hst).setWide F.CNV_BLANK_LO_BLANK _ n hcnt).inputLost n p _ 7

/-- Blanking that ends leaves every field beside BLANKING. -/
theorem Dev.rd_endBlank {f : Fld} (hf : F.CNV_STATUS_BLANKING.apart f = true) {i : Nat} (hi : i ≤ 8) : (d.endBlank n).rd f i = d.rd f i := by
  obtain ⟨-, hin, -⟩ := Fld.apart_iff.mp hf
  cases h : (d.input n).blankFrom with
  | none => rw [Dev.endBlank_none h]
  | some a =>
    rw [Dev.endBlank_some h]
    refine ((FedOnly.refl [] _).inputLost n a _ 7 |>.rd hin hi List.not_mem_nil).trans ?_
    exact Dev.rd_flag_apart hf d false n i
end

end Machine
end Sys2Proof
end

