-- ==== Sys2Proof/Proofs/InputDetectors.lean ====
section
/-! PROOFS. What a declaration of overrange, its release, a change of OVR_BLANK and a window of the monitor leave (spec/03_inputs.md, R77–R81, R85, R94):
settles O14. -/

namespace Sys2Proof
namespace Machine

/-! ## Passing time -/

/-- Clocks that pass move an input's sample index alone (R19). -/
theorem Dev.input_advanceTo (d : Dev) (c n : Nat) : ∃ x, (d.advanceTo c).input n = { d.input n with idx := x } := by
  unfold Dev.advanceTo
  by_cases hk : c - d.clk = 0
  · rw [hk]
    exact ⟨(d.input n).idx, rfl⟩
  · have hinputs : (d.advance (c - d.clk)).input n = (d.advanceInputs (c - d.clk) 8).input n := by
      rw [d.advance_of_ne_zero hk]
      rfl
    rw [hinputs, Dev.input_advanceInputs]
    split
    · exact ⟨_, rfl⟩
    · exact ⟨(d.input n).idx, rfl⟩
theorem Dev.rd_advanceTo (d : Dev) (c : Nat) (f : Fld) (n : Nat) : (d.advanceTo c).rd f n = d.rd f n := Dev.rd_congr (Dev.advanceTo_regs d c) f n 0
theorem FedOnly.atTime {w : List Nat} {d e : Dev} {c : Nat} (h : FedOnly w (d.advanceTo c) e) :
    RecordsOnly w d { e.atTime d with xfrms := d.xfrms, chans := d.chans } := by
  have hreg (o : Nat) : (d.advanceTo c).reg o = d.reg o := Dev.reg_congr (Dev.advanceTo_regs d c) o
  refine ⟨fun o hl ho hi => (h.1 o hl ho hi).trans (hreg o), fun k hl hk => (h.2.1 k hl hk).trans (by rw [Dev.advanceTo_wide]), ?_⟩
  obtain ⟨_, _, _, _, _, _, _, _, _, _, _, _, _, rfl⟩ := h.shape
  obtain ⟨_, _, _, _, _, e⟩ := Dev.advance_shape d (c - d.clk)
  rw [Dev.advanceTo, e]
  rfl

/-! ## Frames with the inputs and the waiting halyard events set aside -/

/-- `b` is `a` but for the registers at `w`, what an interrupt event may move, the inputs' own state and the halyard events. -/
def InputFrame (w : List Nat) (a b : Dev) : Prop := Frame w a { b with inputs := a.inputs, halyards := a.halyards }

theorem OnlyRegs.shape {a b : Dev} (h : OnlyRegs a b) : ∃ r z i o, b = { a with regs := r, regs0 := z, irq := i, out := o } := by
  refine ⟨b.regs, b.regs0, b.irq, b.out, ?_⟩
  unfold OnlyRegs at h
  conv_rhs => rw [← h]

namespace InputFrame
variable {w : List Nat} {a b c : Dev}

theorem shape (h : InputFrame w a b) : ∃ r z i o p y, b = { a with regs := r, regs0 := z, irq := i, out := o, inputs := p, halyards := y } := by
  obtain ⟨r, z, i, o, e⟩ := OnlyRegs.shape h.2
  refine ⟨r, z, i, o, b.inputs, b.halyards, ?_⟩
  have e' := congrArg (fun y : Dev => { y with inputs := b.inputs, halyards := b.halyards }) e
  exact e'
theorem of_frame (h : Frame w a b) : InputFrame w a b := by
  obtain ⟨_, _, _, _, rfl⟩ := h.2.shape
  exact h
theorem trans (h1 : InputFrame w a b) (h2 : InputFrame w b c) : InputFrame w a c := by
  refine ⟨fun o ho hi => (h2.1 o ho hi).trans (h1.1 o ho hi), ?_⟩
  obtain ⟨_, _, _, _, _, _, rfl⟩ := h2.shape
  obtain ⟨_, _, _, _, _, _, rfl⟩ := h1.shape
  rfl
theorem clk (h : InputFrame w a b) : b.clk = a.clk := by obtain ⟨_, _, _, _, _, _, rfl⟩ := h.shape; rfl
theorem rd (h : InputFrame w a b) {f : Fld} (hf : f.ofInput = true) {n : Nat} (hn : n ≤ 8) (hw : f.at_ n 0 ∉ w) : b.rd f n = a.rd f n :=
  congrArg (fun x : Word => x.field f.lo f.w) (h.1 _ hw (irqReg_input hf hn))
theorem setInput (h : InputFrame w a b) (n : Nat) (f : Input → Input) : InputFrame w a (b.setInput n f) := h
theorem setHalyards (h : InputFrame w a b) (l : List HalEvent) : InputFrame w a { b with halyards := l } := h
theorem atTime {d : Dev} {t : Nat} (h : InputFrame w (d.advanceTo t) b) : Frame w d { b.atTime d with halyards := d.halyards } := by
  have hreg (o : Nat) : (d.advanceTo t).reg o = d.reg o := Dev.reg_congr (Dev.advanceTo_regs d t) o
  refine ⟨fun o ho hi => (h.1 o ho hi).trans (hreg o), ?_⟩
  obtain ⟨_, _, _, _, _, _, rfl⟩ := h.shape
  obtain ⟨_, _, _, _, _, e⟩ := Dev.advance_shape d (t - d.clk)
  rw [Dev.advanceTo, e]
  rfl
end InputFrame

/-! ## Pending bits -/

/-- A pending bit stands through writes above the interrupt groups. -/
theorem Raised.wr_high {d : Dev} {g s : Nat} (h : Raised d g s) (hg : g < 64) {f : Fld} {n m : Nat} (ho : 0x30900 ≤ f.at_ n m) (v : Nat) :
    Raised (d.wr f v n m) g s := by
  unfold Raised
  rw [Dev.rd_wr_ne]
  · exact h
  · show 0x30100 + g * 0x20 + 0 * 0 ≠ f.at_ n m
    omega
theorem at_input_high {f : Fld} (hf : f.ofInput = true) (n : Nat) : 0x30900 ≤ f.at_ n 0 := by
  obtain ⟨h0, -, -, -⟩ := Fld.ofInput_iff.mp hf
  rw [Fld.at_input hf]
  omega

/-! ## A halyard driven (R41) -/

/-- The word that counts merged events of a halyard. -/
theorem mergeReg_eq (h : Nat) : F.FMR_HAL_MERGE_COUNT.at_ h 0 = 0x100200 + h * 4 := rfl

section
variable (d : Dev) (h pos : Nat) (tag : Option Nat)

/-- An event joins those that wait, or is merged with one of its clock, which is counted. -/
theorem Dev.driveHalyard_cases : (∃ l, d.driveHalyard h pos tag = { d with halyards := l }) ∨
    ∃ l, d.driveHalyard h pos tag = (({ d with halyards := l } : Dev).inc F.FMR_HAL_MERGE_COUNT h).raise 7 9 := by
  unfold Dev.driveHalyard
  dsimp only
  split
  · exact .inr ⟨_, rfl⟩
  · exact .inl ⟨_, rfl⟩
theorem Dev.driveHalyard_first (hq : d.halyards = []) : (d.driveHalyard h pos tag).halyards = [⟨h, pos % 32, d.clk, tag, none⟩] := by
  unfold Dev.driveHalyard
  rw [hq]
  rfl
theorem Dev.inputs_driveHalyard : (d.driveHalyard h pos tag).inputs = d.inputs := by
  rcases d.driveHalyard_cases h pos tag with ⟨l, e⟩ | ⟨l, e⟩ <;> rw [e]
  rw [Dev.raise_inputs]
  rfl
theorem InputFrame.driveHalyard {w : List Nat} {a b : Dev} (hf : InputFrame w a b) (ho : F.FMR_HAL_MERGE_COUNT.at_ h 0 ∈ w) :
    InputFrame w a (b.driveHalyard h pos tag) := by
  rcases b.driveHalyard_cases h pos tag with ⟨l, e⟩ | ⟨l, e⟩ <;> rw [e]
  · exact hf
  · exact (hf.setHalyards l).trans (.of_frame (((Frame.refl w _).inc F.FMR_HAL_MERGE_COUNT h 0 1 ho).raise 7 9 (by decide)))
theorem Raised.driveHalyard {d : Dev} {g s : Nat} (hr : Raised d g s) (hg : g < 64) : Raised (d.driveHalyard h pos tag) g s := by
  rcases d.driveHalyard_cases h pos tag with ⟨l, e⟩ | ⟨l, e⟩ <;> rw [e]
  · exact hr
  · have hq : Raised ({ d with halyards := l } : Dev) g s := hr
    refine Raised.raise (hq.wr_high hg ?_ _) 9 (by decide)
    rw [mergeReg_eq]
    omega
end

/-! ## Overrange declared (R77–R80) -/

section
variable {d : Dev} {n : Nat}

/-- The declaration is shown, counted and raised. -/
def Dev.ovrShown (d : Dev) (n dwell : Nat) : Dev :=
  (((((d.advanceTo ((d.input n).ovrClk + dwell)).setInput n fun i => { i with ovrClk := (d.advanceTo ((d.input n).ovrClk + dwell)).clk }).flag
    F.CNV_STATUS_OVR true n).inc F.CNV_OVR_COUNT_COUNT n).raise 6 n)
/-- The detector's halyard is driven where that is enabled (R80). -/
def Dev.ovrDriven (d : Dev) (n lane : Nat) : Dev :=
  if d.is F.CNV_CTRL_OVR_HAL_EN n then
    d.driveHalyard (d.rd F.CNV_CTRL_OVR_HAL n) (if d.is F.CNV_STATUS_PAIRED n then lane else 2 * lane) none
  else d
/-- Blanking begins where it is enabled (R78). -/
def Dev.ovrBlanked (d : Dev) (n : Nat) : Dev := if d.is F.CNV_CTRL_OVR_BLANK n then d.beginBlank n (d.input n).idx else d

theorem Dev.overrange_declared {clocks : List (BitVec 384)} {lane : Nat} (hst : d.cnvState n = 1) (hovr : d.rd F.CNV_STATUS_OVR n = 0)
    (hlen : clocks.length = max 1 (d.rd F.CNV_OVR_CFG_DWELL n)) (hall : ∀ w ∈ clocks, (d.portOver n w).isSome = true)
    (hlast : clocks.getLast?.bind (d.portOver n) = some lane) :
    d.overrange n clocks = ((d.ovrShown n clocks.length).ovrDriven n lane).ovrBlanked n := by
  have hdue : (d.is F.CNV_STATUS_OVR n || !(d.cnvState n == 1) || clocks.length != max 1 (d.rd F.CNV_OVR_CFG_DWELL n)) = false := by
    simp [Dev.is_eq_false hovr, hst, hlen]
  unfold Dev.overrange
  dsimp only
  rw [hdue, List.all_eq_true.mpr hall, hlast, ← hlen]
  rfl
theorem Dev.overrange_idle {clocks : List (BitVec 384)} (h : d.cnvState n ≠ 1 ∨ d.rd F.CNV_STATUS_OVR n = 1 ∨
    clocks.length ≠ max 1 (d.rd F.CNV_OVR_CFG_DWELL n) ∨ ∃ w ∈ clocks, d.portOver n w = none) : d.overrange n clocks = d := by
  unfold Dev.overrange
  dsimp only
  by_cases hall : ∃ w ∈ clocks, d.portOver n w = none
  · have hsome : clocks.all (fun w => (d.portOver n w).isSome) = false := by
      obtain ⟨w, hw, e⟩ := hall
      exact List.all_eq_false.mpr ⟨w, hw, by simp [e]⟩
    rw [hsome]
    exact ite_self d
  · have hnot : (d.is F.CNV_STATUS_OVR n || !(d.cnvState n == 1) || clocks.length != max 1 (d.rd F.CNV_OVR_CFG_DWELL n)) = true := by
      rcases h with h | h | h | h
      · simp [h]
      · simp [Dev.is_eq_true h]
      · simp [h]
      · exact absurd h hall
    rw [hnot]
    rfl

section
variable (d) (hn : n < 8) (t : Nat)
include hn

theorem Dev.rd_ovrShown {f : Fld} (hovr : F.CNV_STATUS_OVR.apart f = true) (hcnt : F.CNV_OVR_COUNT_COUNT.apart f = true) :
    (d.ovrShown n t).rd f n = d.rd f n := by
  obtain ⟨-, hf, -⟩ := Fld.apart_iff.mp hovr
  unfold Dev.ovrShown
  rw [Dev.rd_raise _ _ _ _ _ (by decide) (irqReg_input hf hn.le), Dev.inc, Dev.rd_wr_apart hcnt, Dev.rd_flag_apart hovr]
  exact d.rd_advanceTo _ f n
theorem Dev.ovrShown_ovr : (d.ovrShown n t).rd F.CNV_STATUS_OVR n = 1 := by
  unfold Dev.ovrShown
  rw [Dev.rd_raise _ _ _ _ _ (by decide) (irqReg_input (by decide) hn.le), Dev.inc, Dev.rd_wr_apart (by decide), Dev.rd_flag_same _ _ _ (by decide) rfl]
  rfl
theorem Dev.ovrShown_count : (d.ovrShown n t).rd F.CNV_OVR_COUNT_COUNT n = min (2 ^ 32 - 1) (d.rd F.CNV_OVR_COUNT_COUNT n + 1) := by
  unfold Dev.ovrShown
  rw [Dev.rd_raise _ _ _ _ _ (by decide) (irqReg_input (by decide) hn.le), Dev.rd_inc_same _ _ _ _ _ (by decide), Dev.rd_flag_apart (by decide)]
  exact congrArg (fun x => min (2 ^ 32 - 1) (x + 1)) (d.rd_advanceTo _ F.CNV_OVR_COUNT_COUNT n)
end
theorem Dev.ovrShown_clk (d : Dev) (n t : Nat) : (d.ovrShown n t).clk = max d.clk ((d.input n).ovrClk + t) := by
  unfold Dev.ovrShown
  rw [Dev.raise_clk]
  exact Dev.advanceTo_clk d _
theorem Dev.ovrShown_halyards (d : Dev) (n t : Nat) : (d.ovrShown n t).halyards = d.halyards := by
  unfold Dev.ovrShown
  rw [Dev.raise_halyards]
  exact Dev.advanceTo_halyards d _
theorem Dev.ovrShown_input (d : Dev) (n t : Nat) : ((d.ovrShown n t).input n).ovrClk = (d.ovrShown n t).clk ∧
    ((d.ovrShown n t).input n).blankFrom = (d.input n).blankFrom := by
  obtain ⟨x, hx⟩ := d.input_advanceTo ((d.input n).ovrClk + t) n
  have hinput : (d.ovrShown n t).input n = { d.input n with idx := x, ovrClk := (d.ovrShown n t).clk } := by
    have hset : (d.ovrShown n t).input n = { (d.advanceTo ((d.input n).ovrClk + t)).input n with ovrClk := (d.advanceTo ((d.input n).ovrClk + t)).clk } := by
      have hsame : (d.ovrShown n t).inputs = ((d.advanceTo ((d.input n).ovrClk + t)).setInput n fun i =>
        { i with ovrClk := (d.advanceTo ((d.input n).ovrClk + t)).clk }).inputs := Dev.raise_inputs _ 6 n
      unfold Dev.input
      rw [hsame]
      exact Tab.getD_put_same _ _ _ _
    rw [hset, hx, Dev.ovrShown_clk, Dev.advanceTo_clk]
  rw [hinput]
  exact ⟨rfl, rfl⟩

/-- The words that count merged events of the halyards. -/
def mergeRegs : List Nat := (List.range 64).map (fun k => F.FMR_HAL_MERGE_COUNT.at_ k 0)
/-- The registers that a declaration on input n may move. -/
def ovrRegs (n : Nat) : List Nat := [F.CNV_STATUS_STATE.at_ n 0, F.CNV_OVR_COUNT_COUNT.at_ n 0] ++ mergeRegs
theorem mem_mergeRegs {h : Nat} (hh : h < 64) : F.FMR_HAL_MERGE_COUNT.at_ h 0 ∈ mergeRegs := List.mem_map.mpr ⟨h, List.mem_range.mpr hh, rfl⟩
theorem input_not_mem_mergeRegs {f : Fld} (hf : f.ofInput = true) {i : Nat} (hi : i ≤ 8) : f.at_ i 0 ∉ mergeRegs := by
  obtain ⟨-, h1, -, -⟩ := Fld.ofInput_iff.mp hf
  intro hm
  obtain ⟨k, -, e⟩ := List.mem_map.mp hm
  rw [mergeReg_eq, Fld.at_input hf] at e
  omega

theorem InputFrame.ovrShown (d : Dev) (n t : Nat) : InputFrame (ovrRegs n) (d.advanceTo ((d.input n).ovrClk + t)) (d.ovrShown n t) :=
  ((InputFrame.of_frame (.refl _ _)).setInput n _).trans (.of_frame
    ((((Frame.refl _ _).flag F.CNV_STATUS_OVR true n 0 (.head _)).inc F.CNV_OVR_COUNT_COUNT n 0 1 (.tail _ (.head _))).raise 6 n (by decide)))
theorem InputFrame.ovrDriven {w : List Nat} {a b : Dev} (h : InputFrame w a b) (hw : ∀ o ∈ mergeRegs, o ∈ w) (n lane : Nat) : InputFrame w a (b.ovrDriven n lane) := by
  unfold Dev.ovrDriven
  split
  · exact h.driveHalyard _ _ _ (hw _ (mem_mergeRegs (Dev.rd_lt b F.CNV_CTRL_OVR_HAL n 0)))
  · exact h
theorem InputFrame.ovrBlanked {w : List Nat} {a b : Dev} {n : Nat} (h : InputFrame w a b) (hw : F.CNV_STATUS_STATE.at_ n 0 ∈ w) : InputFrame w a (b.ovrBlanked n) := by
  unfold Dev.ovrBlanked
  split
  · exact (h.setInput n _).trans (.of_frame ((Frame.refl w _).flag F.CNV_STATUS_BLANKING true n 0 hw))
  · exact h

/-- The drive leaves every field of the inputs, and the inputs themselves. -/
theorem Dev.rd_ovrDriven (d : Dev) (n lane : Nat) {f : Fld} (hf : f.ofInput = true) {i : Nat} (hi : i ≤ 8) : (d.ovrDriven n lane).rd f i = d.rd f i :=
  ((InputFrame.of_frame (.refl mergeRegs d)).ovrDriven (fun _ h => h) n lane).rd hf hi (input_not_mem_mergeRegs hf hi)
theorem Dev.inputs_ovrDriven (d : Dev) (n lane : Nat) : (d.ovrDriven n lane).inputs = d.inputs := by
  unfold Dev.ovrDriven
  split
  · exact Dev.inputs_driveHalyard _ _ _ _
  · rfl
theorem Raised.ovrDriven {d : Dev} {g s : Nat} (h : Raised d g s) (hg : g < 64) (n lane : Nat) : Raised (d.ovrDriven n lane) g s := by
  unfold Dev.ovrDriven
  split
  · exact h.driveHalyard _ _ _ hg
  · exact h
/-- Where an event is due and none waits, it alone waits. -/
theorem Dev.halyards_ovrDriven_on {n lane : Nat} (hen : d.rd F.CNV_CTRL_OVR_HAL_EN n = 1) (hq : d.halyards = []) : (d.ovrDriven n lane).halyards =
    [⟨d.rd F.CNV_CTRL_OVR_HAL n, (if d.rd F.CNV_STATUS_PAIRED n = 1 then lane else 2 * lane) % 32, d.clk, none, none⟩] := by
  have hpair : d.is F.CNV_STATUS_PAIRED n = true ↔ d.rd F.CNV_STATUS_PAIRED n = 1 := by
    have hlt : d.rd F.CNV_STATUS_PAIRED n < 2 := Dev.rd_lt d F.CNV_STATUS_PAIRED n 0
    show (d.rd F.CNV_STATUS_PAIRED n != 0) = true ↔ _
    rw [bne_iff_ne]
    omega
  unfold Dev.ovrDriven
  rw [if_pos (Dev.is_eq_true hen), Dev.driveHalyard_first _ _ _ _ hq]
  simp only [hpair]
theorem Dev.ovrDriven_off {n lane : Nat} (hen : d.rd F.CNV_CTRL_OVR_HAL_EN n = 0) : d.ovrDriven n lane = d := by
  unfold Dev.ovrDriven
  rw [if_neg (by simp [Dev.is_eq_false hen])]

/-- Blanking that begins shows itself and moves the input's start of blanking. -/
theorem Dev.beginBlank_shown (d : Dev) (n idx : Nat) : (d.beginBlank n idx).rd F.CNV_STATUS_BLANKING n = 1 := Dev.rd_flag_same _ true n (by decide) rfl
theorem Dev.input_beginBlank (d : Dev) (n idx : Nat) : (d.beginBlank n idx).input n = { d.input n with blankFrom := some idx } :=
  (d.input_setInput n n fun i => { i with blankFrom := some idx }).trans (if_pos rfl)
theorem Dev.rd_ovrBlanked (d : Dev) (n : Nat) {f : Fld} (hf : F.CNV_STATUS_BLANKING.apart f = true) : (d.ovrBlanked n).rd f n = d.rd f n := by
  unfold Dev.ovrBlanked
  split
  · exact Dev.rd_flag_apart hf _ true n n
  · rfl
theorem Dev.ovrBlanked_clk (d : Dev) (n : Nat) : (d.ovrBlanked n).clk = d.clk := by unfold Dev.ovrBlanked; split <;> rfl
theorem Dev.ovrBlanked_halyards (d : Dev) (n : Nat) : (d.ovrBlanked n).halyards = d.halyards := by unfold Dev.ovrBlanked; split <;> rfl
theorem Dev.ovrBlanked_ovrClk (d : Dev) (n : Nat) : ((d.ovrBlanked n).input n).ovrClk = (d.input n).ovrClk := by
  unfold Dev.ovrBlanked
  split
  · rw [Dev.input_beginBlank]
  · rfl
theorem Dev.ovrBlanked_on (h : d.rd F.CNV_CTRL_OVR_BLANK n = 1) : d.ovrBlanked n = d.beginBlank n (d.input n).idx := if_pos (Dev.is_eq_true h)
theorem Dev.ovrBlanked_off (h : d.rd F.CNV_CTRL_OVR_BLANK n = 0) : d.ovrBlanked n = d := if_neg (by simp [Dev.is_eq_false h])
theorem Raised.ovrBlanked {d : Dev} {g s : Nat} (h : Raised d g s) (hg : g < 64) (n : Nat) : Raised (d.ovrBlanked n) g s := by
  unfold Dev.ovrBlanked
  split
  · have hset (i : Input → Input) : Raised (d.setInput n i) g s := h
    exact (hset _).wr_high hg (at_input_high (by decide) n) _
  · exact h

/-- The engine after a declaration. -/
def Dev.ovrDeclared (d : Dev) (n t lane : Nat) : Dev := ((d.ovrShown n t).ovrDriven n lane).ovrBlanked n

section
variable (d) (t lane : Nat) (hn : n < 8)
include hn

theorem Dev.rd_ovrDeclared {f : Fld} (hf : F.CNV_STATUS_BLANKING.apart f = true) : (d.ovrDeclared n t lane).rd f n = (d.ovrShown n t).rd f n := by
  obtain ⟨-, hin, -⟩ := Fld.apart_iff.mp hf
  exact (Dev.rd_ovrBlanked _ n hf).trans (Dev.rd_ovrDriven _ n lane hin hn.le)
theorem Dev.ovrDeclared_raised : Raised (d.ovrDeclared n t lane) 6 n :=
  ((raised_raise _ n (by omega)).ovrDriven (by decide) n lane).ovrBlanked (by decide) n
theorem Dev.ovrDriven_ctrl {f : Fld} (hovr : F.CNV_STATUS_OVR.apart f = true) (hcnt : F.CNV_OVR_COUNT_COUNT.apart f = true) :
    ((d.ovrShown n t).ovrDriven n lane).rd f n = d.rd f n := by
  obtain ⟨-, hin, -⟩ := Fld.apart_iff.mp hovr
  exact (Dev.rd_ovrDriven _ n lane hin hn.le).trans (Dev.rd_ovrShown d hn t hovr hcnt)
theorem Dev.ovrDeclared_blanks (h : d.rd F.CNV_CTRL_OVR_BLANK n = 1) : (d.ovrDeclared n t lane).rd F.CNV_STATUS_BLANKING n = 1 ∧
    ((d.ovrDeclared n t lane).input n).blankFrom = some ((d.ovrDeclared n t lane).input n).idx := by
  unfold Dev.ovrDeclared
  rw [Dev.ovrBlanked_on ((Dev.ovrDriven_ctrl d t lane hn (by decide) (by decide)).trans h), Dev.input_beginBlank]
  exact ⟨Dev.beginBlank_shown _ _ _, rfl⟩
end

theorem Dev.input_ovrDriven (d : Dev) (n t lane i : Nat) : ((d.ovrShown n t).ovrDriven n lane).input i = (d.ovrShown n t).input i := by
  unfold Dev.input
  rw [Dev.inputs_ovrDriven]
theorem Dev.ovrDriven_clk (d : Dev) (n lane : Nat) : (d.ovrDriven n lane).clk = d.clk :=
  ((InputFrame.of_frame (.refl mergeRegs d)).ovrDriven (fun _ h => h) n lane).clk
theorem Dev.ovrDeclared_clk (d : Dev) (n t lane : Nat) : (d.ovrDeclared n t lane).clk = max d.clk ((d.input n).ovrClk + t) :=
  (Dev.ovrBlanked_clk _ n).trans ((Dev.ovrDriven_clk _ n lane).trans (Dev.ovrShown_clk d n t))
theorem Dev.ovrDeclared_ovrClk (d : Dev) (n t lane : Nat) : ((d.ovrDeclared n t lane).input n).ovrClk = (d.ovrDeclared n t lane).clk := by
  unfold Dev.ovrDeclared
  rw [Dev.ovrBlanked_ovrClk, Dev.input_ovrDriven, Dev.ovrBlanked_clk, Dev.ovrDriven_clk]
  exact (Dev.ovrShown_input d n t).1

theorem Dev.ovrDeclared_unblanked (hn : n < 8) (t lane : Nat) (h : d.rd F.CNV_CTRL_OVR_BLANK n = 0) :
    ((d.ovrDeclared n t lane).input n).blankFrom = (d.input n).blankFrom ∧
    (d.ovrDeclared n t lane).rd F.CNV_STATUS_BLANKING n = d.rd F.CNV_STATUS_BLANKING n := by
  unfold Dev.ovrDeclared
  rw [Dev.ovrBlanked_off ((Dev.ovrDriven_ctrl d t lane hn (by decide) (by decide)).trans h), Dev.input_ovrDriven]
  exact ⟨(Dev.ovrShown_input d n t).2, Dev.ovrDriven_ctrl d t lane hn (by decide) (by decide)⟩
theorem Dev.ovrDeclared_drives (hn : n < 8) (t lane : Nat) (h : d.rd F.CNV_CTRL_OVR_HAL_EN n = 1) (hq : d.halyards = []) :
    (d.ovrDeclared n t lane).halyards = [⟨d.rd F.CNV_CTRL_OVR_HAL n, (if d.rd F.CNV_STATUS_PAIRED n = 1 then lane else 2 * lane) % 32,
      (d.ovrDeclared n t lane).clk, none, none⟩] := by
  unfold Dev.ovrDeclared
  rw [Dev.ovrBlanked_halyards, Dev.ovrBlanked_clk, Dev.ovrDriven_clk, Dev.halyards_ovrDriven_on ((Dev.rd_ovrShown d hn t (by decide) (by decide)).trans h)
    ((Dev.ovrShown_halyards d n t).trans hq), Dev.rd_ovrShown d hn t (by decide) (by decide), Dev.rd_ovrShown d hn t (by decide) (by decide)]
theorem Dev.ovrDeclared_undriven (hn : n < 8) (t lane : Nat) (h : d.rd F.CNV_CTRL_OVR_HAL_EN n = 0) : (d.ovrDeclared n t lane).halyards = d.halyards := by
  unfold Dev.ovrDeclared
  rw [Dev.ovrBlanked_halyards, Dev.ovrDriven_off ((Dev.rd_ovrShown d hn t (by decide) (by decide)).trans h)]
  exact Dev.ovrShown_halyards d n t
theorem Dev.ovrDeclared_frame (d : Dev) (n t lane : Nat) : Frame (ovrRegs n) d { (d.ovrDeclared n t lane).atTime d with halyards := d.halyards } :=
  InputFrame.atTime (((InputFrame.ovrShown d n t).ovrDriven (fun _ h => List.mem_append_right _ h) n lane).ovrBlanked (.head _))
end

/-! ## Overrange released (R77, R78) -/

section
variable (d : Dev) {n : Nat}

/-- The engine after a release: the clock of the release noted, blanking ended, the declaration taken back. -/
def Dev.ovrReleased (d : Dev) (n need : Nat) : Dev :=
  (((d.advanceTo ((d.input n).ovrClk + need)).setInput n (fun i => { i with ovrClk := (d.advanceTo ((d.input n).ovrClk + need)).clk })).endBlank n).flag
    F.CNV_STATUS_OVR false n

theorem Dev.overrangeRelease_due {d : Dev} {clocks : List (BitVec 384)} (hovr : d.rd F.CNV_STATUS_OVR n = 1)
    (hlen : clocks.length = max 1 (d.rd F.CNV_OVR_REL_RELEASE n)) (hall : ∀ w ∈ clocks, d.portOver n w = none) :
    d.overrangeRelease n clocks = d.ovrReleased n clocks.length := by
  have hdue : (d.is F.CNV_STATUS_OVR n && clocks.length == max 1 (d.rd F.CNV_OVR_REL_RELEASE n) && clocks.all (fun w => (d.portOver n w).isNone)) = true := by
    rw [List.all_eq_true.mpr fun w hw => by simp [hall w hw], Dev.is_eq_true hovr, hlen, beq_self_eq_true]
    rfl
  unfold Dev.overrangeRelease
  dsimp only
  rw [if_pos hdue, ← hlen]
  rfl
theorem Dev.overrangeRelease_idle {d : Dev} {clocks : List (BitVec 384)} (h : d.rd F.CNV_STATUS_OVR n = 0 ∨
    clocks.length ≠ max 1 (d.rd F.CNV_OVR_REL_RELEASE n) ∨ ∃ w ∈ clocks, (d.portOver n w).isSome = true) : d.overrangeRelease n clocks = d := by
  unfold Dev.overrangeRelease
  dsimp only
  refine if_neg fun hdue => ?_
  simp only [Bool.and_eq_true, beq_iff_eq, List.all_eq_true] at hdue
  obtain ⟨⟨hovr, hlen⟩, hall⟩ := hdue
  rcases h with h | h | ⟨w, hw, h⟩
  · simp [Dev.is_eq_false h] at hovr
  · exact h hlen
  · have := hall w hw
    simp [Option.isSome_iff_ne_none.mp h] at this

theorem Dev.ovrReleased_ovr (n need : Nat) : (d.ovrReleased n need).rd F.CNV_STATUS_OVR n = 0 := Dev.rd_flag_same _ false n (by decide) rfl
theorem Dev.ovrReleased_blankFrom (n need : Nat) : ((d.ovrReleased n need).input n).blankFrom = none := Dev.endBlank_blankFrom _ n
theorem FedOnly.ovrReleased (n need : Nat) :
    FedOnly [F.CNV_STATUS_STATE.at_ n 0, F.CNV_BLANK_LO_BLANK.at_ n 0] (d.advanceTo ((d.input n).ovrClk + need)) (d.ovrReleased n need) :=
  (((FedOnly.refl _ _).setInput n _).endBlank (.head _) (.tail _ (.head _))).flag F.CNV_STATUS_OVR false n (.head _)
theorem Dev.ovrReleased_clk (n need : Nat) : (d.ovrReleased n need).clk = max d.clk ((d.input n).ovrClk + need) :=
  (FedOnly.ovrReleased d n need).clk.trans (Dev.advanceTo_clk d _)
theorem Dev.ovrReleased_ovrClk (n need : Nat) : ((d.ovrReleased n need).input n).ovrClk = (d.ovrReleased n need).clk := by
  set a := d.advanceTo ((d.input n).ovrClk + need) with ha
  obtain ⟨l, hl⟩ := (a.setInput n (fun i => { i with ovrClk := a.clk })).input_endBlank n n
  have hin : (d.ovrReleased n need).input n = ((a.setInput n (fun i => { i with ovrClk := a.clk })).endBlank n).input n := rfl
  rw [hin, hl, if_pos rfl, Dev.input_setInput, if_pos rfl]
  exact (FedOnly.ovrReleased d n need).clk.symm
end

/-! ## OVR_BLANK changed (R81) -/

section
variable {d : Dev} {n : Nat}

theorem Dev.nextIdx_flag {f : Fld} (hf : f.apart F.CNV_STATUS_PAIRED = true) (d : Dev) (b : Bool) (n : Nat) : (d.flag f b n).nextIdx n = d.nextIdx n := by
  have hpair : (d.flag f b n).is F.CNV_STATUS_PAIRED n = d.is F.CNV_STATUS_PAIRED n := congrArg (· != 0) (Dev.rd_flag_apart hf d b n n)
  unfold Dev.nextIdx Dev.lanes
  rw [hpair]
  rfl
/-- The engine with OVR_BLANK stored. -/
def Dev.blankStored (d : Dev) (n : Nat) (on : Bool) : Dev := d.flag F.CNV_CTRL_OVR_BLANK on n
theorem Dev.blankStored_rd (d : Dev) (n : Nat) (on : Bool) : (d.blankStored n on).rd F.CNV_CTRL_OVR_BLANK n = if on then 1 else 0 :=
  Dev.rd_flag_same _ on n (by decide) rfl
theorem Dev.blankStored_apart {f : Fld} (hf : F.CNV_CTRL_OVR_BLANK.apart f = true) (d : Dev) (n i : Nat) (on : Bool) : (d.blankStored n on).rd f i = d.rd f i :=
  Dev.rd_flag_apart hf _ _ _ _

/-- A change that stores OVR_BLANK and no more, begins blanking, or ends it. -/
theorem Dev.ovrBlank_cases (d : Dev) (n : Nat) (on : Bool) : d.ovrBlank n on = d.blankStored n on ∨
    (on = true ∧ d.ovrBlank n on = (d.blankStored n on).beginBlank n ((d.blankStored n on).nextIdx n)) ∨
    d.ovrBlank n on = (d.blankStored n on).endBlank n := by
  unfold Dev.ovrBlank
  dsimp only
  split
  · exact .inl rfl
  · split
    next hon =>
      split
      · exact .inr (.inl ⟨hon, rfl⟩)
      · exact .inl rfl
    next => exact .inr (.inr rfl)
theorem Dev.rd_ovrBlank {f : Fld} (hf : F.CNV_STATUS_BLANKING.apart f = true) (d : Dev) (on : Bool) {n i : Nat} (hi : i ≤ 8) :
    (d.ovrBlank n on).rd f i = (d.blankStored n on).rd f i := by
  rcases d.ovrBlank_cases n on with e | ⟨-, e⟩ | e <;> rw [e]
  · exact Dev.rd_flag_apart hf _ _ _ _
  · exact Dev.rd_endBlank _ hf hi
theorem Dev.rd_ovrBlank_stored (d : Dev) (on : Bool) {n : Nat} (hn : n ≤ 8) : (d.ovrBlank n on).rd F.CNV_CTRL_OVR_BLANK n = if on then 1 else 0 :=
  (Dev.rd_ovrBlank (by decide) d on hn).trans (Dev.blankStored_rd d n on)
theorem FedOnly.ovrBlank {w : List Nat} {a b : Dev} (h : FedOnly w a b) (on : Bool) (hctrl : F.CNV_CTRL_OVR_BLANK.at_ n 0 ∈ w)
    (hst : F.CNV_STATUS_BLANKING.at_ n 0 ∈ w) (hcnt : F.CNV_BLANK_LO_BLANK.at_ n 0 ∈ w) : FedOnly w a (b.ovrBlank n on) := by
  have hstored : FedOnly w a (b.blankStored n on) := h.flag F.CNV_CTRL_OVR_BLANK on n hctrl
  rcases b.ovrBlank_cases n on with e | ⟨-, e⟩ | e <;> rw [e]
  · exact hstored
  · exact (hstored.setInput n _).flag F.CNV_STATUS_BLANKING true n hst
  · exact hstored.endBlank hst hcnt

theorem Dev.ovrBlank_begins (hoff : d.rd F.CNV_CTRL_OVR_BLANK n = 0) (hovr : d.rd F.CNV_STATUS_OVR n = 1) :
    d.ovrBlank n true = (d.blankStored n true).beginBlank n (d.nextIdx n) := by
  have hshown : (d.flag F.CNV_CTRL_OVR_BLANK true n).is F.CNV_STATUS_OVR n = true := Dev.is_eq_true ((Dev.blankStored_apart (by decide) d n n true).trans hovr)
  unfold Dev.ovrBlank
  dsimp only
  rw [Dev.is_eq_false hoff, if_neg (by decide), if_pos rfl, if_pos hshown, Dev.nextIdx_flag (by decide)]
  rfl
theorem Dev.ovrBlank_on_frame (d : Dev) (n : Nat) :
    Frame [F.CNV_CTRL_OVR_BLANK.at_ n 0, F.CNV_STATUS_STATE.at_ n 0] d { d.ovrBlank n true with inputs := d.inputs } := by
  have hstored : InputFrame [F.CNV_CTRL_OVR_BLANK.at_ n 0, F.CNV_STATUS_STATE.at_ n 0] d (d.blankStored n true) :=
    .of_frame ((Frame.refl _ d).flag F.CNV_CTRL_OVR_BLANK true n 0 (.head _))
  have hbegun (idx : Nat) := (hstored.setInput n fun i => { i with blankFrom := some idx }).trans
    (.of_frame ((Frame.refl _ _).flag F.CNV_STATUS_BLANKING true n 0 (.tail _ (.head _))))
  unfold Dev.ovrBlank
  dsimp only
  split
  · exact hstored
  · rw [if_pos rfl]
    split
    · exact hbegun _
    · exact hstored

theorem Dev.ovrBlank_ends (hon : d.rd F.CNV_CTRL_OVR_BLANK n = 1) : d.ovrBlank n false = (d.blankStored n false).endBlank n := by
  unfold Dev.ovrBlank
  dsimp only
  rw [Dev.is_eq_true hon, if_neg (by decide), if_neg (by decide)]
  rfl
theorem Dev.rd_endBlank_blanking {a : Nat} (hn : n ≤ 8) (h : (d.input n).blankFrom = some a) : (d.endBlank n).rd F.CNV_STATUS_BLANKING n = 0 := by
  rw [Dev.endBlank_some h]
  refine ((FedOnly.refl [] _).inputLost n a _ 7 |>.rd (by decide) hn List.not_mem_nil).trans ?_
  exact Dev.rd_flag_same _ false n (by decide) rfl
theorem Dev.wideAt_inputLost (d : Dev) (n p q cause : Nat) {f : Fld} {i : Nat} (hlow : f.at_ i 0 < 0x300000) : 
    (d.inputLost n p q cause).wideAt f i = d.wideAt f i := by
  have h := ((FedOnly.refl [] d).inputLost n p q cause).2.1 _ hlow List.not_mem_nil
  unfold Dev.wideAt Tab.getD
  rw [← h]
theorem Dev.wideAt_endBlank {a : Nat} (hn : n ≤ 8) (h : (d.input n).blankFrom = some a) :
    (d.endBlank n).wideAt F.CNV_BLANK_LO_BLANK n = (d.wideAt F.CNV_BLANK_LO_BLANK n + (d.nextIdx n - a)) % 2 ^ 64 := by
  rw [Dev.endBlank_some h, Dev.wideAt_inputLost _ _ _ _ _ (at_input_low (by decide) hn)]
  exact Tab.getD_put_same _ _ _ _
end

/-! ## The monitor's window (R85) -/

/-- Estimates beyond a limit of input n. -/
def Dev.monitorBeyond (d : Dev) (n : Nat) (x : Int × Int × Int) : Prop :=
  d.rd F.CNV_MON_LIM_OFFSET n < x.1.natAbs ∨ d.rd F.CNV_MON_LIM_GAIN n < x.2.1.natAbs ∨ d.rd F.CNV_MON_LIM_SKEW n < x.2.2.natAbs
/-- Slot s shows the estimates `x`, and is marked where they lie beyond the limits of `a`. -/
def MonitorShown (a : Dev) (n s : Nat) (x : Int × Int × Int) (b : Dev) : Prop :=
  b.rd F.CNV_MON_OFFSET_ERR n s = unsigned 16 x.1 ∧ b.rd F.CNV_MON_GAIN_ERR n s = unsigned 16 x.2.1 ∧ b.rd F.CNV_MON_SKEW_SKEW_ERR n s = unsigned 16 x.2.2 ∧
  (a.monitorBeyond n x → b.rd F.CNV_SLOT_MON_FAIL n s = 1 ∧ Raised b 6 (8 + n))
/-- What a window shows of a slot. -/
def monFlds : List Fld := [F.CNV_MON_OFFSET_ERR, F.CNV_MON_GAIN_ERR, F.CNV_MON_SKEW_SKEW_ERR, F.CNV_SLOT_MON_FAIL]
/-- The registers that a mark of slot s may move. -/
def markRegs (n s : Nat) : List Nat := [F.CNV_SLOT_MON_FAIL.at_ n s, F.CNV_SLICE_PENDING.at_ n 0]
/-- The registers that a window may move for slot s. -/
def slotRegs (n s : Nat) : List Nat := [F.CNV_MON_OFFSET_ERR.at_ n s, F.CNV_MON_SKEW_SKEW_ERR.at_ n s] ++ markRegs n s

section
variable (d : Dev) (n s : Nat) (x : Int × Int × Int)

/-- The slot's estimates stored. -/
def Dev.monitorStored : Dev :=
  ((d.wr F.CNV_MON_OFFSET_ERR (unsigned 16 x.1) n s).wr F.CNV_MON_GAIN_ERR (unsigned 16 x.2.1) n s).wr F.CNV_MON_SKEW_SKEW_ERR (unsigned 16 x.2.2) n s
/-- The slot marked, and noted for a spare where one is left. -/
def Dev.monitorMarked : Dev :=
  if (d.mark F.CNV_SLOT_MON_FAIL n s).rd F.CNV_SLICE_SPARES_LEFT n != 0 && !((d.mark F.CNV_SLOT_MON_FAIL n s).is F.CNV_SLOT_PENDING_SWAP n s) then
    ((d.mark F.CNV_SLOT_MON_FAIL n s).flag F.CNV_SLOT_PENDING_SWAP true n s).inc F.CNV_SLICE_PENDING n
  else d.mark F.CNV_SLOT_MON_FAIL n s

theorem Dev.monitorBeyond_iff : (decide (d.rd F.CNV_MON_LIM_OFFSET n < x.1.natAbs) || decide (d.rd F.CNV_MON_LIM_GAIN n < x.2.1.natAbs) ||
    decide (d.rd F.CNV_MON_LIM_SKEW n < x.2.2.natAbs)) = true ↔ d.monitorBeyond n x := by
  simp only [Bool.or_eq_true, decide_eq_true_eq, or_assoc, Dev.monitorBeyond]
theorem Dev.monitorSlot_beyond (h : (d.monitorStored n s x).monitorBeyond n x) :
    d.monitorSlot n s x = ((d.monitorStored n s x).monitorMarked n s).raise 6 (8 + n) :=
  if_pos ((Dev.monitorBeyond_iff _ n x).mpr h)
theorem Dev.monitorSlot_within (h : ¬ (d.monitorStored n s x).monitorBeyond n x) : d.monitorSlot n s x = d.monitorStored n s x :=
  if_neg fun hb => h ((Dev.monitorBeyond_iff _ n x).mp hb)
theorem Frame.monitorStored : Frame (slotRegs n s) d (d.monitorStored n s x) :=
  (((Frame.refl _ d).wr F.CNV_MON_OFFSET_ERR _ n s (.head _)).wr F.CNV_MON_GAIN_ERR _ n s (.head _)).wr F.CNV_MON_SKEW_SKEW_ERR _ n s (.tail _ (.head _))
theorem Frame.monitorMarked : Frame (markRegs n s) d (d.monitorMarked n s) := by
  have hmark : Frame (markRegs n s) d (d.mark F.CNV_SLOT_MON_FAIL n s) := (Frame.refl _ d).setBits _ _ _ _ (.head _)
  unfold Dev.monitorMarked
  split
  · exact (hmark.flag F.CNV_SLOT_PENDING_SWAP true n s (.head _)).inc F.CNV_SLICE_PENDING n 0 1 (.tail _ (.head _))
  · exact hmark
theorem Frame.monitorSlot : Frame (slotRegs n s) d (d.monitorSlot n s x) := by
  by_cases h : (d.monitorStored n s x).monitorBeyond n x
  · rw [Dev.monitorSlot_beyond d n s x h]
    exact ((Frame.monitorStored d n s x).trans ((Frame.monitorMarked _ n s).mono fun _ => List.mem_append_right _)).raise 6 _ (by decide)
  · rw [Dev.monitorSlot_within d n s x h]
    exact Frame.monitorStored d n s x

variable {n s}

/-- The limits lie beside what a slot's window moves. -/
theorem monLim_not_mem_slotRegs {f : Fld} (hf : f.off = 0xC0040) (hst : f.st = 0x1000) (hs : s < 64) : f.at_ n 0 ∉ slotRegs n s := by
  simp only [slotRegs, markRegs, List.cons_append, List.nil_append, List.mem_cons, List.not_mem_nil, or_false, Fld.at_, hf, hst, F.CNV_MON_OFFSET_ERR, F.CNV_MON_SKEW_SKEW_ERR, F.CNV_SLOT_MON_FAIL,
    F.CNV_SLICE_PENDING]
  omega
/-- What slot j shows lies beside what another slot's window moves. -/
theorem slotReg_not_mem_slotRegs {f : Fld} {j : Nat} (hf : f ∈ monFlds)
    (hs : s < 64) (hj : j < 64) (hne : j ≠ s) : f.at_ n j ∉ slotRegs n s := by
  simp only [monFlds, List.mem_cons, List.not_mem_nil, or_false] at hf
  rcases hf with rfl | rfl | rfl | rfl <;>
  · simp only [slotRegs, markRegs, List.cons_append, List.nil_append, List.mem_cons, List.not_mem_nil, or_false, Fld.at_, F.CNV_MON_OFFSET_ERR, F.CNV_MON_GAIN_ERR, F.CNV_MON_SKEW_SKEW_ERR,
      F.CNV_SLOT_MON_FAIL, F.CNV_SLICE_PENDING]
    omega
theorem irqReg_slot {f : Fld} (hf : f ∈ monFlds)
    (hn : n < 8) (hs : s < 64) : irqReg (f.at_ n s) = false := by
  simp only [monFlds, List.mem_cons, List.not_mem_nil, or_false] at hf
  rcases hf with rfl | rfl | rfl | rfl <;>
  · simp only [Fld.at_, F.CNV_MON_OFFSET_ERR, F.CNV_MON_GAIN_ERR, F.CNV_MON_SKEW_SKEW_ERR, F.CNV_SLOT_MON_FAIL]
    exact irqReg_between (by omega) (by omega)

theorem Dev.monitorBeyond_of_frame (hn : n < 8) (hs : s < 64) {a b : Dev} (h : Frame (slotRegs n s) a b) : b.monitorBeyond n x ↔ a.monitorBeyond n x := by
  have hrd (f : Fld) (hf : f.ofInput = true) (hoff : f.off = 0xC0040) : b.rd f n = a.rd f n := by
    obtain ⟨-, -, hst, -⟩ := Fld.ofInput_iff.mp hf
    exact congrArg (fun v : Word => v.field f.lo f.w) (h.1 _ (monLim_not_mem_slotRegs hoff hst hs) (irqReg_input hf hn.le))
  unfold Dev.monitorBeyond
  rw [hrd F.CNV_MON_LIM_OFFSET (by decide) rfl, hrd F.CNV_MON_LIM_GAIN (by decide) rfl, hrd F.CNV_MON_LIM_SKEW (by decide) rfl]

theorem Dev.monitorStored_shows : (d.monitorStored n s x).rd F.CNV_MON_OFFSET_ERR n s = unsigned 16 x.1 ∧
    (d.monitorStored n s x).rd F.CNV_MON_GAIN_ERR n s = unsigned 16 x.2.1 ∧ (d.monitorStored n s x).rd F.CNV_MON_SKEW_SKEW_ERR n s = unsigned 16 x.2.2 := by
  have hcut (i : Int) : unsigned 16 i % 2 ^ 16 = unsigned 16 i := by
    have := Int.emod_lt_of_pos i (show (0 : Int) < (2 ^ 16 : Nat) by decide)
    refine Nat.mod_eq_of_lt ?_
    show Int.toNat (_ % _) < _
    omega
  have hskew (e : Dev) (f : Fld) (hf : f.off = 0xC0400) (hst : f.st = 0x1000) (hst2 : f.st2 = 8) (v : Nat) :
      (e.wr F.CNV_MON_SKEW_SKEW_ERR v n s).rd f n s = e.rd f n s := by
    refine Dev.rd_wr_ne _ _ _ _ _ _ _ _ ?_
    simp only [Fld.at_, hf, hst, hst2, F.CNV_MON_SKEW_SKEW_ERR]
    omega
  refine ⟨?_, ?_, ?_⟩
  · unfold Dev.monitorStored
    rw [hskew _ F.CNV_MON_OFFSET_ERR rfl rfl rfl, Dev.rd_wr_field _ _ _ _ _ _ _ _ (by decide) (by decide), Dev.rd_wr_same _ _ _ _ _ (by decide)]
    exact hcut _
  · unfold Dev.monitorStored
    rw [hskew _ F.CNV_MON_GAIN_ERR rfl rfl rfl, Dev.rd_wr_same _ _ _ _ _ (by decide)]
    exact hcut _
  · exact (Dev.rd_wr_same _ _ _ _ _ (by decide)).trans (hcut _)
/-- A mark leaves the estimates. -/
theorem Dev.rd_monitorMarked {f : Fld} (hf : f ∈ [F.CNV_MON_OFFSET_ERR, F.CNV_MON_GAIN_ERR, F.CNV_MON_SKEW_SKEW_ERR]) (hn : n < 8) (hs : s < 64) :
    (d.monitorMarked n s).rd f n s = d.rd f n s := by
  have hout : f.at_ n s ∉ markRegs n s := by
    simp only [List.mem_cons, List.not_mem_nil, or_false] at hf
    rcases hf with rfl | rfl | rfl <;>
    · simp only [markRegs, List.mem_cons, List.not_mem_nil, or_false, Fld.at_, F.CNV_MON_OFFSET_ERR, F.CNV_MON_GAIN_ERR, F.CNV_MON_SKEW_SKEW_ERR,
        F.CNV_SLOT_MON_FAIL, F.CNV_SLICE_PENDING]
      omega
  have hmon : f ∈ monFlds := List.mem_append_left [F.CNV_SLOT_MON_FAIL] hf
  exact congrArg (fun v : Word => v.field f.lo f.w) ((Frame.monitorMarked d n s).1 _ hout (irqReg_slot hmon hn hs))
theorem Dev.monitorMarked_fail : (d.monitorMarked n s).rd F.CNV_SLOT_MON_FAIL n s = 1 := by
  have hmark : (d.mark F.CNV_SLOT_MON_FAIL n s).rd F.CNV_SLOT_MON_FAIL n s = 1 := by
    have hlt : d.rd F.CNV_SLOT_MON_FAIL n s < 2 := Dev.rd_lt d F.CNV_SLOT_MON_FAIL n s
    have hbit : d.rd F.CNV_SLOT_MON_FAIL n s = 0 ∨ d.rd F.CNV_SLOT_MON_FAIL n s = 1 := by omega
    unfold Dev.mark
    rw [Dev.rd_setBits, Dev.rd_wr_same _ _ _ _ _ (by decide)]
    rcases hbit with e | e <;> rw [e] <;> rfl
  have hslice (e : Dev) : (e.inc F.CNV_SLICE_PENDING n).rd F.CNV_SLOT_MON_FAIL n s = e.rd F.CNV_SLOT_MON_FAIL n s := by
    refine Dev.rd_wr_ne _ _ _ _ _ _ _ _ ?_
    simp only [Fld.at_, F.CNV_SLOT_MON_FAIL, F.CNV_SLICE_PENDING]
    omega
  unfold Dev.monitorMarked
  split
  · rw [hslice]
    exact (Dev.rd_wr_field _ _ _ _ _ _ _ _ (by decide) (by decide)).trans hmark
  · exact hmark

theorem slotReg_high {f : Fld} (hf : f ∈ F.CNV_SLOT_PENDING_SWAP :: monFlds) : 0x30900 ≤ f.at_ n s := by
  simp only [monFlds, List.mem_cons, List.not_mem_nil, or_false] at hf
  rcases hf with rfl | rfl | rfl | rfl | rfl <;>
  · simp only [Fld.at_, F.CNV_MON_OFFSET_ERR, F.CNV_MON_GAIN_ERR, F.CNV_MON_SKEW_SKEW_ERR, F.CNV_SLOT_MON_FAIL, F.CNV_SLOT_PENDING_SWAP]
    omega
/-- A pending bit stands through a slot's window. -/
theorem Raised.monitorSlot {d : Dev} {g k : Nat} (h : Raised d g k) (hg : g < 64) (hn : n < 8) : Raised (d.monitorSlot n s x) g k := by
  have hstored : Raised (d.monitorStored n s x) g k :=
    ((h.wr_high hg (slotReg_high (by decide)) _).wr_high hg (slotReg_high (by decide)) _).wr_high hg (slotReg_high (by decide)) _
  have hmark (e : Dev) (he : Raised e g k) : Raised (e.mark F.CNV_SLOT_MON_FAIL n s) g k := he.wr_high hg (slotReg_high (by decide)) _
  by_cases hb : (d.monitorStored n s x).monitorBeyond n x
  · rw [Dev.monitorSlot_beyond d n s x hb]
    refine Raised.raise ?_ _ (by omega)
    unfold Dev.monitorMarked
    split
    · exact ((hmark _ hstored).wr_high hg (slotReg_high (f := F.CNV_SLOT_PENDING_SWAP) (by decide)) _).wr_high hg (at_input_high (by decide) n) _
    · exact hmark _ hstored
  · rw [Dev.monitorSlot_within d n s x hb]
    exact hstored

/-- A slot's window shows the slot. -/
theorem MonitorShown.monitorSlot_self (hn : n < 8) (hs : s < 64) : MonitorShown d n s x (d.monitorSlot n s x) := by
  have hlim : (d.monitorStored n s x).monitorBeyond n x ↔ d.monitorBeyond n x := Dev.monitorBeyond_of_frame x hn hs (Frame.monitorStored d n s x)
  obtain ⟨hoffset, hgain, hskew⟩ := d.monitorStored_shows (n := n) (s := s) x
  by_cases h : (d.monitorStored n s x).monitorBeyond n x
  · have hraise (f : Fld) (hf : f ∈ monFlds) : (d.monitorSlot n s x).rd f n s = ((d.monitorStored n s x).monitorMarked n s).rd f n s := by
      rw [Dev.monitorSlot_beyond d n s x h]
      exact Dev.rd_raise _ _ _ _ _ (by decide) (irqReg_slot hf hn hs)
    refine ⟨?_, ?_, ?_, fun _ => ⟨?_, ?_⟩⟩
    · rw [hraise _ (by decide), Dev.rd_monitorMarked _ (by decide) hn hs, hoffset]
    · rw [hraise _ (by decide), Dev.rd_monitorMarked _ (by decide) hn hs, hgain]
    · rw [hraise _ (by decide), Dev.rd_monitorMarked _ (by decide) hn hs, hskew]
    · rw [hraise _ (by decide), Dev.monitorMarked_fail]
    · rw [Dev.monitorSlot_beyond d n s x h]
      exact raised_raise _ _ (by omega)
  · rw [Dev.monitorSlot_within d n s x h]
    exact ⟨hoffset, hgain, hskew, fun hb => absurd (hlim.mpr hb) h⟩
/-- Another slot's window leaves what slot j shows. -/
theorem MonitorShown.monitorSlot {a b : Dev} {j : Nat} {y : Int × Int × Int} (h : MonitorShown a n j y b) (hn : n < 8) (hs : s < 64) (hj : j < 64) (hne : j ≠ s) :
    MonitorShown a n j y (b.monitorSlot n s x) := by
  have hrd (f : Fld) (hf : f ∈ monFlds) : (b.monitorSlot n s x).rd f n j = b.rd f n j :=
    congrArg (fun v : Word => v.field f.lo f.w) ((Frame.monitorSlot b n s x).1 _ (slotReg_not_mem_slotRegs hf hs hj hne) (irqReg_slot hf hn hj))
  obtain ⟨hoffset, hgain, hskew, hfail⟩ := h
  refine ⟨(hrd _ (by decide)).trans hoffset, (hrd _ (by decide)).trans hgain, (hrd _ (by decide)).trans hskew, fun hb => ?_⟩
  obtain ⟨hmark, hraised⟩ := hfail hb
  exact ⟨(hrd _ (by decide)).trans hmark, hraised.monitorSlot x (by decide) hn⟩

/-- The slots of a window, from slot k on. -/
def Dev.monitorSlots (d : Dev) (n k : Nat) (est : List (Int × Int × Int)) : Dev := (est.zipIdx k).foldl (fun d p => d.monitorSlot n p.2 p.1) d
theorem Dev.monitorSlots_cons (d : Dev) (n k : Nat) (est : List (Int × Int × Int)) :
    d.monitorSlots n k (x :: est) = (d.monitorSlot n k x).monitorSlots n (k + 1) est := rfl
theorem OnlyRegs.monitorSlots : ∀ (est : List (Int × Int × Int)) (k : Nat) (d : Dev), OnlyRegs d (d.monitorSlots n k est)
  | [], _, d => OnlyRegs.refl d
  | x :: est, k, d => (Frame.monitorSlot d n k x).2.trans (OnlyRegs.monitorSlots est (k + 1) (d.monitorSlot n k x))
/-- The slots behind slot j leave what it shows. -/
theorem MonitorShown.monitorSlots {a : Dev} {j : Nat} {y : Int × Int × Int} (hn : n < 8) : ∀ (est : List (Int × Int × Int)) {k : Nat} {b : Dev},
    MonitorShown a n j y b → j < k → k + est.length ≤ 64 → MonitorShown a n j y (b.monitorSlots n k est)
  | [], _, _, h, _, _ => h
  | x :: est, k, _, h, hjk, hlen => by
    rw [List.length_cons] at hlen
    exact MonitorShown.monitorSlots hn est (h.monitorSlot x hn (by omega) (by omega) (by omega)) (by omega) (by omega)
/-- Every slot of a window is shown. -/
theorem MonitorShown.of_monitorSlots {a : Dev} (hn : n < 8) {y : Int × Int × Int} (est : List (Int × Int × Int)) {k j : Nat} {b : Dev}
    (hlim : ∀ x, b.monitorBeyond n x ↔ a.monitorBeyond n x) (hlen : k + est.length ≤ 64) (hj : est[j]? = some y) :
    MonitorShown a n (k + j) y (b.monitorSlots n k est) := by
  induction est generalizing k j b with
  | nil => simp at hj
  | cons x est ih =>
    rw [List.length_cons] at hlen
    rw [Dev.monitorSlots_cons]
    cases j with
    | zero =>
      obtain rfl : x = y := by simpa using hj
      obtain ⟨hoffset, hgain, hskew, hfail⟩ := MonitorShown.monitorSlot_self b (n := n) (s := k) x hn (by omega)
      have hshown : MonitorShown a n k x (b.monitorSlot n k x) := ⟨hoffset, hgain, hskew, fun hb => hfail ((hlim x).mpr hb)⟩
      exact hshown.monitorSlots hn est (by omega) (by omega)
    | succ j =>
      have hlim' (z : Int × Int × Int) : (b.monitorSlot n k x).monitorBeyond n z ↔ a.monitorBeyond n z :=
        (Dev.monitorBeyond_of_frame z hn (by omega) (Frame.monitorSlot b n k x)).trans (hlim z)
      have hrest := ih (k := k + 1) hlim' (by omega) (by simpa using hj)
      rwa [Nat.succ_add_eq_add_succ] at hrest

end

/-- A window below the level, or of an input that delivers nothing, shows nothing. -/
theorem Dev.monitorEnd_quiet {d : Dev} {n sumsq : Nat} {est : List (Int × Int × Int)} (h : 10000 * sumsq < 2097152 * 2 ^ 30 ∨ d.cnvState n ≠ 1) :
    d.monitorEnd n sumsq est = d := by
  unfold Dev.monitorEnd
  refine if_neg fun hdue => ?_
  obtain ⟨hlevel, hst⟩ := hdue
  rcases h with h | h
  · omega
  · exact h hst
theorem Dev.monitorEnd_due {d : Dev} {n sumsq : Nat} {est : List (Int × Int × Int)} (hst : d.cnvState n = 1) (hlevel : 2097152 * 2 ^ 30 ≤ 10000 * sumsq)
    (hlen : est.length ≤ 64) : d.monitorEnd n sumsq est = d.monitorSlots n 0 est := by
  unfold Dev.monitorEnd
  rw [if_pos ⟨hlevel, hst⟩, List.take_of_length_le hlen]
  rfl

/-! ## The obligation -/

/-- Settles O14: a declaration, a release, a change of OVR_BLANK and a window of the monitor, each by what its parts leave. -/
theorem inputDetectorCommandsComplete : Obligations.InputDetectorCommandsComplete := by
  unfold Obligations.InputDetectorCommandsComplete
  refine ⟨fun s => ⟨fun _ _ => rfl, fun _ => rfl, fun _ _ _ => rfl, fun hrun n on => exec_host_run (f := fun d => d.ovrBlank n on) rfl hrun⟩, fun s n => ?_⟩
  have hn := n.isLt
  refine ⟨?_, ?_, ?_, ?_, ?_, ?_, ?_, ?_⟩
  · intro clocks lane hst hovr hlen hall hlast
    refine completes_lift (f := fun d => d.overrange n clocks) rfl ?_
    rw [Dev.overrange_declared hst hovr hlen hall hlast]
    exact ⟨(Dev.rd_ovrDeclared _ _ lane hn (by decide)).trans (Dev.ovrShown_ovr _ hn _),
      (Dev.rd_ovrDeclared _ _ lane hn (by decide)).trans (Dev.ovrShown_count _ hn _), Dev.ovrDeclared_raised _ _ lane hn,
      Dev.ovrDeclared_clk _ _ _ lane, Dev.ovrDeclared_ovrClk _ _ _ lane, Dev.ovrDeclared_blanks _ _ lane hn, Dev.ovrDeclared_unblanked hn _ lane,
      Dev.ovrDeclared_drives hn _ lane, Dev.ovrDeclared_undriven hn _ lane, Dev.ovrDeclared_frame _ _ _ lane⟩
  · intro clocks h
    exact completes_lift (f := fun d => d.overrange n clocks) rfl (Dev.overrange_idle h)
  · intro clocks hovr hlen hall
    refine completes_lift (f := fun d => d.overrangeRelease n clocks) rfl ?_
    rw [Dev.overrangeRelease_due hovr hlen hall]
    exact ⟨Dev.ovrReleased_ovr _ _ _, Dev.ovrReleased_blankFrom _ _ _, Dev.ovrReleased_clk _ _ _, Dev.ovrReleased_ovrClk _ _ _,
      (FedOnly.ovrReleased _ _ _).atTime⟩
  · intro clocks h
    exact completes_lift (f := fun d => d.overrangeRelease n clocks) rfl (Dev.overrangeRelease_idle h)
  · intro hrun
    refine completes_host (f := fun d => d.ovrBlank n true) rfl hrun ⟨Dev.rd_ovrBlank_stored _ true hn.le, fun hoff hovr => ?_, Dev.ovrBlank_on_frame _ n⟩
    rw [Dev.ovrBlank_begins hoff hovr, Dev.input_beginBlank]
    exact ⟨Dev.beginBlank_shown _ _ _, rfl⟩
  · intro a hrun hon hfrom
    refine completes_host (f := fun d => d.ovrBlank n false) rfl hrun ⟨Dev.rd_ovrBlank_stored _ false hn.le, ?_, ?_, ?_,
      (FedOnly.refl _ _).ovrBlank false (.head _) (.tail _ (.head _)) (.tail _ (.tail _ (.head _)))⟩
    · rw [Dev.ovrBlank_ends hon]
      exact Dev.rd_endBlank_blanking hn.le hfrom
    · rw [Dev.ovrBlank_ends hon]
      exact Dev.endBlank_blankFrom _ n
    · rw [Dev.ovrBlank_ends hon]
      refine (Dev.wideAt_endBlank (d := s.dev.blankStored n false) hn.le hfrom).trans ?_
      rw [Dev.blankStored, Dev.nextIdx_flag (by decide)]
      rfl
  · intro sumsq est h
    exact completes_lift (f := fun d => d.monitorEnd n sumsq est) rfl (Dev.monitorEnd_quiet h)
  · intro sumsq est hst hlevel hlen
    refine completes_lift (f := fun d => d.monitorEnd n sumsq est) rfl ?_
    rw [Dev.monitorEnd_due hst hlevel hlen]
    refine ⟨fun j o g k hj => ?_, OnlyRegs.monitorSlots est 0 _⟩
    have hshown := MonitorShown.of_monitorSlots (a := s.dev) hn est (k := 0) (b := s.dev) (fun _ => Iff.rfl) (by omega) hj
    rw [Nat.zero_add] at hshown
    exact hshown

end Machine
end Sys2Proof
end

