-- ==== Sys2Proof/Proofs/InputStreams.lean ====
section
/-! PROOFS. What ends with its source (R89, R142, R174, R258, R425) moves records and the states of the streams alone: no input, and no register of one. -/

namespace Sys2Proof
namespace Machine

/-- `b` is `a` but for records placed and for the states of raw streams, channels, transforms, traces and densities. -/
def StreamsOnly (w : List Nat) (a b : Dev) : Prop :=
  RecordsOnly w a { b with rawcs := a.rawcs, chans := a.chans, xfrms := a.xfrms, traces := a.traces, denses := a.denses }

namespace StreamsOnly
variable {w : List Nat} {a b c : Dev}

theorem of_records (h : RecordsOnly w a b) : StreamsOnly w a b := by
  obtain ⟨_, _, _, _, _, _, _, _, _, _, rfl⟩ := h.shape
  exact h
theorem refl (w : List Nat) (a : Dev) : StreamsOnly w a a := of_records (.refl w a)
theorem shape (h : StreamsOnly w a b) : ∃ r z x m q u l i o k s c f t y, b =
    { a with regs := r, regs0 := z, wide := x, mem := m, rings := q, runs := u, dram := { a.dram with cached := l }, irq := i, out := o, freeCtr := k,
             rawcs := s, chans := c, xfrms := f, traces := t, denses := y } := by
  obtain ⟨r, z, x, m, q, u, l, i, o, k, e⟩ := RecordsOnly.shape h
  refine ⟨r, z, x, m, q, u, l, i, o, k, b.rawcs, b.chans, b.xfrms, b.traces, b.denses, ?_⟩
  have e' := congrArg (fun y : Dev => { y with rawcs := b.rawcs, chans := b.chans, xfrms := b.xfrms, traces := b.traces, denses := b.denses }) e
  exact e'
theorem trans (h1 : StreamsOnly w a b) (h2 : StreamsOnly w b c) : StreamsOnly w a c := by
  refine ⟨fun o hl ho hi => (h2.1 o hl ho hi).trans (h1.1 o hl ho hi), fun k hl hk => (h2.2.1 k hl hk).trans (h1.2.1 k hl hk), ?_⟩
  obtain ⟨_, _, _, _, _, _, _, _, _, _, _, _, _, _, _, rfl⟩ := h2.shape
  obtain ⟨_, _, _, _, _, _, _, _, _, _, _, _, _, _, _, rfl⟩ := h1.shape
  rfl
theorem inputs (h : StreamsOnly w a b) : b.inputs = a.inputs := by obtain ⟨_, _, _, _, _, _, _, _, _, _, _, _, _, _, _, rfl⟩ := h.shape; rfl
theorem input (h : StreamsOnly w a b) (n : Nat) : b.input n = a.input n := by unfold Dev.input; rw [h.inputs]
theorem rd (h : StreamsOnly w a b) {f : Fld} (hf : f.ofInput = true) {n : Nat} (hn : n ≤ 8) (hw : f.at_ n 0 ∉ w) : b.rd f n = a.rd f n :=
  RecordsOnly.rd (b := { b with rawcs := a.rawcs, chans := a.chans, xfrms := a.xfrms, traces := a.traces, denses := a.denses }) h hf hn hw

/-- Records placed after it. -/
theorem records (h : StreamsOnly w a b) (hr : RecordsOnly w b c) : StreamsOnly w a c := h.trans (of_records hr)
theorem ite (p : Prop) [Decidable p] {x y : Dev} (hx : StreamsOnly w a x) (hy : StreamsOnly w a y) : StreamsOnly w a (if p then x else y) := by
  split <;> assumption
theorem foldl {α : Type} {f : Dev → α → Dev} (hf : ∀ (b : Dev) (x : α), StreamsOnly w a b → StreamsOnly w a (f b x)) :
    ∀ (l : List α) {b : Dev}, StreamsOnly w a b → StreamsOnly w a (l.foldl f b)
  | [], _, h => h
  | x :: t, b, h => foldl hf t (hf b x h)

/-! ## Single moves -/

theorem setKnob (h : StreamsOnly w a b) (i off v : Nat) : StreamsOnly w a (b.setKnob i off v) :=
  h.records ((RecordsOnly.refl w b).setReg _ _ (.inl (by unfold knobAt; omega)))
theorem setKnobBits (h : StreamsOnly w a b) (i off lo len v : Nat) : StreamsOnly w a (b.setKnobBits i off lo len v) :=
  h.records ((RecordsOnly.refl w b).setReg _ _ (.inl (by unfold knobAt; omega)))
theorem setWideKnob (h : StreamsOnly w a b) (i off v : Nat) : StreamsOnly w a (b.setWideKnob i off v) := by
  refine h.records ⟨fun _ _ _ _ => rfl, fun k hk _ => Tab.get?_put_ne _ _ ?_, rfl⟩
  unfold knobAt
  omega
theorem inc (h : StreamsOnly w a b) (f : Fld) (n : Nat) (k : Nat := 1) (ho : 0x300000 ≤ f.off) : StreamsOnly w a (b.inc f n 0 k) :=
  h.records ((RecordsOnly.refl w b).incHigh f n 0 k ho)
theorem sectionEvent (h : StreamsOnly w a b) (i e : Nat) : StreamsOnly w a (b.sectionEvent i e) := h.records ((RecordsOnly.refl w b).sectionEvent i e)
theorem ringEvent (h : StreamsOnly w a b) (r e : Nat) : StreamsOnly w a (b.ringEvent r e) := h.records ((RecordsOnly.refl w b).ringEvent r e)
theorem endRun (h : StreamsOnly w a b) (i : Nat) : StreamsOnly w a (b.endRun i) := h.records ((RecordsOnly.refl w b).endRun i)
theorem putRawcs (h : StreamsOnly w a b) (t : Tab Rawc) : StreamsOnly w a { b with rawcs := t } := h
theorem putChans (h : StreamsOnly w a b) (t : Tab Chan) : StreamsOnly w a { b with chans := t } := h
theorem putXfrms (h : StreamsOnly w a b) (t : Tab Xfrm) : StreamsOnly w a { b with xfrms := t } := h
theorem putTraces (h : StreamsOnly w a b) (t : Tab Trace) : StreamsOnly w a { b with traces := t } := h
theorem putDenses (h : StreamsOnly w a b) (t : Tab Dens) : StreamsOnly w a { b with denses := t } := h

/-! ## Raw streams and their captures (R242–R258) -/

theorem capPlace (h : StreamsOnly w a b) (i r : Nat) (x : Rec) : StreamsOnly w a (b.capPlace i r x) := by
  unfold Dev.capPlace
  exact ite _ (h.records (((RecordsOnly.refl w b).place r 0 x).takeReserve i)) (h.inc _ _ _ (by decide))
theorem capCloseGap (h : StreamsOnly w a b) (i : Nat) (s : Rawc) (c : Capture) : StreamsOnly w a (b.capCloseGap i s c).1 := by
  unfold Dev.capCloseGap
  cases c.gap with
  | none => exact h
  | some g =>
    dsimp only
    have placed := foldl (f := fun d l => d.capPlace i s.ring (gapRec (d.capUnits s c l.start) 0 0 0xFFFF l)) (fun _ _ hc => hc.capPlace _ _ _)
      (splitLoss (g.count / (2 ^ 32 - 1)) g) h
    exact ite _ (placed.ringEvent _ _) placed
theorem capLose (h : StreamsOnly w a b) (i : Nat) (s : Rawc) (c : Capture) (n cause : Nat) : StreamsOnly w a (b.capLose i s c n cause).1 := by
  unfold Dev.capLose
  dsimp only
  cases c.gap with
  | none => exact h
  | some g =>
    dsimp only
    split
    · exact h
    · exact h.capCloseGap _ _ _
/-- A stone that is full is counted and raised; the units that overflowed are counted at their ring. -/
theorem stoneFull (h : StreamsOnly w a b) (r : Nat) (x : Hist) : StreamsOnly w a ((if x.stoneFull = true then
    (b.inc F.GAL_STONE_FULL_COUNT).raise 26 29 else b).inc F.GAL_RING_CNT_OVF_OVF_UNITS r 0 x.count) :=
  (ite _ ((h.inc F.GAL_STONE_FULL_COUNT 0 1 (by decide)).records ((RecordsOnly.refl w _).raise 26 29 (by decide))) h).inc _ _ _ (by decide)
theorem capWrite (h : StreamsOnly w a b) (i : Nat) (s : Rawc) (c : Capture) (x : Hist) : StreamsOnly w a (b.capWrite i s c x).1 := by
  unfold Dev.capWrite
  dsimp only
  by_cases hcause : x.cause ≠ 0
  · rw [if_pos hcause]
    exact h.capLose _ _ _ _ _
  · rw [if_neg hcause, apply_ite Prod.fst, apply_ite Prod.fst]
    refine ite _ (h.inc _ _ _ (by decide)) (ite _ ((h.capCloseGap _ _ _).capPlace _ _ _) (capLose ?_ _ _ _ _ _))
    exact ite _ (h.stoneFull _ _) ((h.stoneFull _ _).ringEvent _ _)
theorem setRawc (h : StreamsOnly w a b) (i : Nat) (f : Rawc → Rawc) : StreamsOnly w a (b.setRawc i f) := by
  unfold Dev.setRawc
  split
  · exact h
  · exact h
theorem rawcShow (h : StreamsOnly w a b) (i : Nat) : StreamsOnly w a (b.rawcShow i) := by
  unfold Dev.rawcShow
  split
  · exact h
  · exact (h.setKnobBits _ _ _ _ _).setWideKnob _ _ _
theorem rawcTake (h : StreamsOnly w a b) (i : Nat) (x : Hist) : StreamsOnly w a (b.rawcTake i x) := by
  unfold Dev.rawcTake
  split
  · exact h
  · split
    · exact ((h.capWrite _ _ _ _).setRawc _ _).rawcShow _
    · exact (h.setRawc _ _).rawcShow _
theorem rawcLose (h : StreamsOnly w a b) (i stop cause : Nat) : StreamsOnly w a (b.rawcLose i stop cause) := by
  unfold Dev.rawcLose
  split
  · exact ite _ h (foldl (fun _ _ hc => (hc.records ((RecordsOnly.refl w _).setRun _ _)).rawcTake _ _) _ h)
  · exact h
theorem rawcSettle (h : StreamsOnly w a b) (i : Nat) (own : List Loss) : StreamsOnly w a (b.rawcSettle i own) := by
  unfold Dev.rawcSettle
  split
  · refine foldl (fun c l hc => ?_) _ h
    split
    · exact ite _ (hc.rawcLose _ _ _) hc
    · exact hc
  · exact h
theorem capClose (h : StreamsOnly w a b) (i : Nat) (s : Rawc) (c : Capture) : StreamsOnly w a (b.capClose i s c) :=
  ((h.capCloseGap i s c).capPlace _ _ _).sectionEvent _ _
theorem rawcClose (h : StreamsOnly w a b) (i : Nat) : StreamsOnly w a (b.rawcClose i) := by
  have settled := h.rawcSettle i []
  unfold Dev.rawcClose
  dsimp only
  generalize b.rawcSettle i [] = c at settled ⊢
  cases c.rawcs.get? i with
  | none => exact settled
  | some s =>
    dsimp only
    generalize hclosed : Dev.rawcShow (Dev.setRawc (List.foldl _ c _) i _) i = e
    have closed : StreamsOnly w a e := hclosed ▸ ((foldl (fun _ _ hc => hc.capClose _ _ _) _ settled).setRawc _ _).rawcShow _
    cases e.rawcs.get? i with
    | none => exact closed
    | some x =>
      dsimp only
      exact ite _ closed (ite _ (closed.putRawcs _) (ite _ (((putRawcs (closed.endRun i) _).setKnobBits _ _ _ _ _).setKnobBits _ _ _ _ _) closed))
theorem rawcEnd (h : StreamsOnly w a b) (i code : Nat) : StreamsOnly w a (b.rawcEnd i code) := by
  have settled := h.rawcSettle i []
  unfold Dev.rawcEnd Dev.rawcCode
  dsimp only
  refine ((endRun ?_ i).setKnobBits _ _ _ _ _).setKnobBits _ _ _ _ _
  split
  · exact settled
  · exact (settled.setRawc _ _).rawcClose i
theorem rawcInputStopped (h : StreamsOnly w a b) (i : Nat) : StreamsOnly w a (b.rawcInputStopped i) := (h.rawcEnd i 6).sectionEvent i 4

/-! ## Channels, transforms, traces and densities -/

theorem playDetach (h : StreamsOnly w a b) (i : Nat) : StreamsOnly w a (b.playDetach i) := by
  unfold Dev.playDetach
  exact ite _ h (h.records ((RecordsOnly.refl w b).setRing _ _))
theorem chanEnd (h : StreamsOnly w a b) (i code : Nat) : StreamsOnly w a (b.chanEnd i code) :=
  (((putChans ((h.playDetach i).endRun i) _).setKnobBits i 4 0 2 0).setKnob i 0x84 0).setKnobBits i 4 8 8 code
theorem xfrmEnd (h : StreamsOnly w a b) (i code : Nat) : StreamsOnly w a (b.xfrmEnd i code) :=
  ((putXfrms (h.setWideKnob i 0x50 (b.framesLive i)) _).setKnobBits i 4 0 1 0).setKnobBits i 4 8 8 code
theorem traceEnd (h : StreamsOnly w a b) (i code : Nat) : StreamsOnly w a (b.traceEnd i code) :=
  ((putTraces (h.endRun i) _).setKnobBits i 4 0 1 0).setKnobBits i 4 8 8 code
theorem densEnd (h : StreamsOnly w a b) (i code : Nat) : StreamsOnly w a (b.densEnd i code) :=
  ((putDenses (h.endRun i) _).setKnobBits i 4 0 1 0).setKnobBits i 4 8 8 code

/-- What ends with its source leaves the inputs and their registers. -/
theorem cascade (h : StreamsOnly w a b) : StreamsOnly w a b.cascade := by
  have captures := foldl (f := fun d (p : Nat × Rawc) => d.rawcSettle p.1 []) (fun _ _ hc => hc.rawcSettle _ _) b.rawcs.cells h
  unfold Dev.cascade
  refine foldl (fun _ _ hc => ite _ hc ((hc.densEnd _ 7).sectionEvent _ 1)) _ ?_
  refine foldl (fun _ _ hc => ite _ hc ((hc.traceEnd _ 6).sectionEvent _ 1)) _ ?_
  refine foldl (fun _ _ hc => ite _ (hc.rawcInputStopped _) hc) _ ?_
  refine foldl (fun _ _ hc => ite _ ((hc.xfrmEnd _ 6).sectionEvent _ 1) hc) _ ?_
  refine foldl (fun _ _ hc => ite _ (hc.rawcInputStopped _) hc) _ ?_
  exact foldl (fun _ _ hc => ite _ ((hc.chanEnd _ 7).sectionEvent _ 4) hc) _ captures
end StreamsOnly

end Machine
end Sys2Proof
end

