-- ==== Sys2Proof/Proofs/InputStartStop.lean ====
section
/-! PROOFS. What START and STOP of an input leave (spec/03_inputs.md, R88, R89; R131): settles O12. -/

namespace Sys2Proof
namespace Machine

/-- A write below the input blocks leaves their fields. -/
theorem Dev.rd_wr_below {f g : Fld} {m : Nat} (hf : f.at_ m 0 < 0xC0000) (hg : g.ofInput = true) (d : Dev) (v n : Nat) : (d.wr f v m).rd g n = d.rd g n := by
  obtain ⟨h0, -, -, -⟩ := Fld.ofInput_iff.mp hg
  refine Dev.rd_wr_ne _ _ _ _ _ _ _ _ ?_
  rw [Fld.at_input hg]
  omega
theorem RecordsOnly.setWideIn {w : List Nat} {a b : Dev} (h : RecordsOnly w a b) (f : Fld) (v n : Nat) (ho : f.at_ n 0 ∈ w) : RecordsOnly w a (b.setWide f v n) := by
  refine h.trans ⟨fun _ _ _ _ => rfl, fun k _ hk => Tab.get?_put_ne _ _ ?_, rfl⟩
  rintro rfl
  exact hk ho

/-! ## A code left and nothing else -/

section
variable (d : Dev) (n : Nat) {code : Nat}

theorem Dev.cnvCode_code (h : code < 256) : (d.cnvCode n code).rd F.CNV_STATUS_CODE n = code := Dev.rd_wr_fits d n (by decide) h
theorem Dev.cnvState_cnvCode : (d.cnvCode n code).cnvState n = d.cnvState n := Dev.rd_wr_apart (by decide) _ _ _ _
/-- A command that is turned away. -/
theorem Dev.cnvCode_leaves (h : code < 256) : (d.cnvCode n code).rd F.CNV_STATUS_CODE n = code ∧ (d.cnvCode n code).cnvState n = d.cnvState n ∧
    Frame [F.CNV_STATUS_STATE.at_ n 0] d (d.cnvCode n code) :=
  ⟨d.cnvCode_code n h, d.cnvState_cnvCode n, (Frame.refl _ d).cnvCode (.head _)⟩
end

/-! ## START (R88, R131) -/

section
variable {d : Dev} {n : Nat}

theorem Dev.cnvStart_refused {c : Nat} (h : (d.halted = true ∧ c = 4) ∨
    (d.halted = false ∧ (d.cnvState n = 2 ∨ d.rd F.CNV_STATUS_PAIR_PENDING n = 1) ∧ c = 1) ∨
    (d.halted = false ∧ d.cnvState n = 4 ∧ d.rd F.CNV_STATUS_PAIR_PENDING n = 0 ∧ c = 3) ∨
    (d.halted = false ∧ (d.cnvState n = 1 ∨ d.cnvState n = 3) ∧ d.rd F.CNV_STATUS_PAIR_PENDING n = 0 ∧ c = 2)) : d.cnvStart n = d.cnvCode n c := by
  unfold Dev.cnvStart
  rcases h with ⟨hhalt, rfl⟩ | ⟨hhalt, hbusy, rfl⟩ | ⟨hhalt, hst, hpend, rfl⟩ | ⟨hhalt, hst, hpend, rfl⟩
  · exact if_pos hhalt
  · have hbusy' : d.cnvState n = 2 ∨ d.is F.CNV_STATUS_PAIR_PENDING n = true := hbusy.imp_right Dev.is_eq_true
    dsimp only
    rw [if_neg (by simp [hhalt]), if_pos hbusy']
  · dsimp only
    rw [if_neg (by simp [hhalt]), if_neg (by simp [Dev.is_eq_false hpend, hst]), if_pos hst]
  · have hfree : ¬ (d.cnvState n = 2 ∨ d.is F.CNV_STATUS_PAIR_PENDING n = true) := by
      rw [Dev.is_eq_false hpend]
      simp only [Bool.false_eq_true, or_false]
      omega
    dsimp only
    rw [if_neg (by simp [hhalt]), if_neg hfree, if_neg (by omega), if_pos hst]

/-- The slip of input n forgotten, and nothing remembered of its earlier units. -/
def Dev.slipForgotten (d : Dev) (n : Nat) : Dev :=
  { d with clocks := { d.clocks with slipped := d.clocks.slipped.erase n } }.setInput n (fun i => { i with lost := [], was := [] })
/-- RUNNING shown with the first sample, STEP_AVAIL forgotten. -/
def Dev.startShown (d : Dev) (n idx : Nat) : Dev :=
  (((d.wr F.CNV_STATUS_STATE 1 n).cnvCode n 0).setWide F.CNV_START_IDX_LO_IDX idx n).flag F.TIM_STATUS_STEP_AVAIL false
/-- The registers and the value that START may move. -/
def startRegs (n : Nat) : List Nat := [F.CNV_STATUS_STATE.at_ n 0, F.CNV_START_IDX_LO_IDX.at_ n 0, F.TIM_STATUS_STEP_AVAIL.at_ 0 0]

theorem Dev.cnvStart_free (hhalt : d.halted = false) (hst : d.cnvState n = 0) (hpend : d.rd F.CNV_STATUS_PAIR_PENDING n = 0) : d.cnvStart n =
    if (d.clocks.slipped.get? n).isSome && decide (8 < (d.rdInt F.CLK_EBUF_FILL n).natAbs) then d.wr F.CLK_STATUS_CODE 4
    else ((d.slipForgotten n).startShown n (d.nextIdx n)).anchor n (d.nextIdx n) 1 (2 + if d.nextIdx n % 2 ^ 20 = 0 then 1 else 0) := by
  unfold Dev.cnvStart
  dsimp only
  rw [if_neg (by simp [hhalt]), if_neg (by simp [Dev.is_eq_false hpend, hst]), if_neg (by omega), if_neg (by omega)]
  rfl
/-- An input that a slip stopped, with its buffer off its middle, does not start. -/
theorem Dev.cnvStart_slipped (hhalt : d.halted = false) (hst : d.cnvState n = 0) (hpend : d.rd F.CNV_STATUS_PAIR_PENDING n = 0)
    (hslip : (d.clocks.slipped.get? n).isSome = true) (hfill : 8 < (d.rdInt F.CLK_EBUF_FILL n).natAbs) : d.cnvStart n = d.wr F.CLK_STATUS_CODE 4 := by
  rw [Dev.cnvStart_free hhalt hst hpend, hslip, decide_eq_true hfill]
  rfl
theorem Dev.slipHeld_leaves (d : Dev) (n : Nat) : (d.wr F.CLK_STATUS_CODE 4).rd F.CLK_STATUS_CODE = 4 ∧ (d.wr F.CLK_STATUS_CODE 4).cnvState n = d.cnvState n ∧
    Frame [F.CLK_STATUS_CODE.at_ 0 0] d (d.wr F.CLK_STATUS_CODE 4) :=
  ⟨Dev.rd_wr_fits d 0 (by decide) (by decide), Dev.rd_wr_below (by decide) (by decide) _ _ _, (Frame.refl _ d).wr F.CLK_STATUS_CODE 4 0 0 (.head _)⟩

/-- The engine after an accepted START, before its anchor of that kind. -/
def Dev.started (d : Dev) (n kind : Nat) : Dev := ((d.slipForgotten n).startShown n (d.nextIdx n)).anchor n (d.nextIdx n) 1 kind

theorem RecordsOnly.anchor {w : List Nat} {a b : Dev} (h : RecordsOnly w a b) (n idx : Nat) (k : Int) (kind : Nat) : RecordsOnly w a (b.anchor n idx k kind) :=
  h.anchorRecord _
theorem RecordsOnly.startShown {w : List Nat} {a b : Dev} (h : RecordsOnly w a b) (hw : ∀ o ∈ startRegs n, o ∈ w) (idx : Nat) : RecordsOnly w a (b.startShown n idx) := by
  have hst : F.CNV_STATUS_STATE.at_ n 0 ∈ w := hw _ (.head _)
  have shown := (h.wr F.CNV_STATUS_STATE 1 n 0 (.inr hst)).wr F.CNV_STATUS_CODE 0 n 0 (.inr hst)
  exact (shown.setWideIn F.CNV_START_IDX_LO_IDX idx n (hw _ (.tail _ (.head _)))).wr F.TIM_STATUS_STEP_AVAIL _ 0 0 (.inr (hw _ (.tail _ (.tail _ (.head _)))))

section
variable (d : Dev) (n kind : Nat)

/-- The start's anchor leaves what START shows. -/
theorem Dev.started_anchor : RecordsOnly [] ((d.slipForgotten n).startShown n (d.nextIdx n)) (d.started n kind) := (RecordsOnly.refl [] _).anchor _ _ _ _
theorem Dev.started_state (hn : n ≤ 8) : (d.started n kind).cnvState n = 1 := by
  refine ((d.started_anchor n kind).rd (by decide) hn List.not_mem_nil).trans ((Dev.rd_wr_below (by decide) (by decide) _ _ _).trans ?_)
  exact (Dev.rd_wr_apart (f := F.CNV_STATUS_CODE) (by decide) _ _ _ _).trans (Dev.rd_wr_fits _ n (by decide) (by decide))
theorem Dev.started_code (hn : n ≤ 8) : (d.started n kind).rd F.CNV_STATUS_CODE n = 0 := by
  refine ((d.started_anchor n kind).rd (by decide) hn List.not_mem_nil).trans ((Dev.rd_wr_below (by decide) (by decide) _ _ _).trans ?_)
  exact Dev.rd_wr_fits _ n (by decide) (by decide)
theorem Dev.started_idx (hn : n ≤ 8) : (d.started n kind).wideAt F.CNV_START_IDX_LO_IDX n = d.nextIdx n % 2 ^ 64 := by
  have h := (d.started_anchor n kind).2.1 _ (at_input_low (f := F.CNV_START_IDX_LO_IDX) (by decide) hn) List.not_mem_nil
  unfold Dev.wideAt Tab.getD
  rw [h]
  exact Tab.getD_put_same _ _ _ _
theorem Dev.started_step : (d.started n kind).rd F.TIM_STATUS_STEP_AVAIL = 0 := by
  have h := (d.started_anchor n kind).1 (F.TIM_STATUS_STEP_AVAIL.at_ 0 0) (by decide) List.not_mem_nil (by decide)
  unfold Dev.rd
  rw [h]
  exact Dev.rd_flag_same _ false 0 (by decide) rfl
theorem Dev.started_input (j : Nat) : (d.started n kind).input j = if j = n then { d.input n with lost := [], was := [] } else d.input j :=
  ((d.started_anchor n kind).input j).trans
    (({ d with clocks := { d.clocks with slipped := d.clocks.slipped.erase n } } : Dev).input_setInput n j fun i => { i with lost := [], was := [] })
theorem Dev.started_records : RecordsOnly (startRegs n) d { d.started n kind with clocks := d.clocks, inputs := d.inputs } := by
  have h : RecordsOnly (startRegs n) (d.slipForgotten n) (d.started n kind) := ((RecordsOnly.refl _ _).startShown (fun _ ho => ho) _).anchor n _ 1 kind
  obtain ⟨_, _, _, _, _, _, _, _, _, _, e⟩ := h.shape
  rw [e] at h ⊢
  exact ⟨h.1, h.2.1, rfl⟩
end
end

/-! ## STOP (R88, R89) -/

section
variable (d : Dev) (n : Nat)

theorem Dev.closeSlotGap_blankFrom (upto : Nat) (h : (d.input n).blankFrom = none) : ((d.closeSlotGap n upto).input n).blankFrom = none := by
  unfold Dev.closeSlotGap
  split
  · exact h
  · rw [Dev.input_inputLost, if_pos rfl, Dev.input_setInput, if_pos rfl]
    exact h

/-- The engine as STOP shows it, before what ends with the input. -/
def Dev.stopShown (d : Dev) (n st code : Nat) : Dev := (((d.endBlank n).closeSlotGap n (d.nextIdx n)).wr F.CNV_STATUS_STATE st n).cnvCode n code

/-- STOP shows the state and the code, and no blanking goes on. -/
theorem Dev.cnvHalt_leaves {n st code : Nat} (hn : n ≤ 8) (hst : st < 8) (hcode : code < 256) : (d.cnvHalt n st code).cnvState n = st ∧
    (d.cnvHalt n st code).rd F.CNV_STATUS_CODE n = code ∧ ((d.cnvHalt n st code).input n).blankFrom = none := by
  have ended : StreamsOnly [] (d.stopShown n st code) (d.cnvHalt n st code) := (StreamsOnly.refl [] _).cascade
  refine ⟨(ended.rd (by decide) hn List.not_mem_nil).trans ?_, (ended.rd (by decide) hn List.not_mem_nil).trans ?_, ?_⟩
  · exact (Dev.rd_wr_apart (f := F.CNV_STATUS_CODE) (by decide) _ _ _ _).trans (Dev.rd_wr_fits _ n (by decide) hst)
  · exact Dev.rd_wr_fits _ n (by decide) hcode
  · rw [ended.input]
    exact Dev.closeSlotGap_blankFrom _ n _ (Dev.endBlank_blankFrom d n)

variable {d n}

theorem Dev.cnvStop_running (h : d.cnvState n = 1) : d.cnvStop n = d.cnvHalt n 0 0 := by
  unfold Dev.cnvStop
  rw [h]
  rfl
theorem Dev.cnvStop_inSlot (h : d.cnvState n = 3) : d.cnvStop n = d.cnvHalt n 2 0 := by
  unfold Dev.cnvStop
  rw [h]
  rfl
theorem Dev.cnvStop_refused {c : Nat} (h : (d.cnvState n = 0 ∧ c = 2) ∨ (d.cnvState n = 2 ∧ c = 1) ∨ (d.cnvState n = 4 ∧ c = 3)) :
    d.cnvStop n = d.cnvCode n c := by
  unfold Dev.cnvStop
  rcases h with ⟨hst, rfl⟩ | ⟨hst, rfl⟩ | ⟨hst, rfl⟩ <;> rw [hst] <;> rfl
end

/-! ## The obligation -/

/-- Settles O12: an accepted START by what it shows before its anchor, STOP by what it shows before the streams of the input end, a refusal by its code. -/
theorem inputStartAndStopComplete : Obligations.InputStartAndStopComplete := by
  unfold Obligations.InputStartAndStopComplete
  refine ⟨fun s hrun => ⟨fun n => exec_host_run (f := fun d => d.cnvStart n) rfl hrun, fun n => exec_host_run (f := fun d => d.cnvStop n) rfl hrun⟩,
    fun s n hrun => ?_⟩
  have hn : n.val ≤ 8 := n.isLt.le
  refine ⟨?_, ?_, ?_, ?_, ?_, ?_⟩
  · intro hhalt hst hpend hslip
    refine completes_host (f := fun d => d.cnvStart n) rfl hrun ?_
    rw [Dev.cnvStart_free hhalt hst hpend, hslip]
    have hinput := s.dev.started_input n (2 + if s.dev.nextIdx n % 2 ^ 20 = 0 then 1 else 0)
    exact ⟨s.dev.started_state n _ hn, s.dev.started_code n _ hn, s.dev.started_idx n _ hn, s.dev.started_step n _, (hinput n).trans (if_pos rfl),
      fun j hj => (hinput j).trans (if_neg hj), s.dev.started_records n _⟩
  · intro hhalt hst hpend hslip hfill
    refine completes_host (f := fun d => d.cnvStart n) rfl hrun ?_
    rw [Dev.cnvStart_slipped hhalt hst hpend hslip hfill, ← hst]
    exact s.dev.slipHeld_leaves n
  · intro c h
    have hcode : c < 256 := by omega
    refine completes_host (f := fun d => d.cnvStart n) rfl hrun ?_
    rw [Dev.cnvStart_refused h]
    exact s.dev.cnvCode_leaves n hcode
  · intro h
    refine completes_host (f := fun d => d.cnvStop n) rfl hrun ?_
    rw [Dev.cnvStop_running h]
    exact s.dev.cnvHalt_leaves hn (by decide) (by decide)
  · intro h
    refine completes_host (f := fun d => d.cnvStop n) rfl hrun ?_
    rw [Dev.cnvStop_inSlot h]
    exact s.dev.cnvHalt_leaves hn (by decide) (by decide)
  · intro c h
    have hcode : c < 256 := by omega
    refine completes_host (f := fun d => d.cnvStop n) rfl hrun ?_
    rw [Dev.cnvStop_refused h]
    exact s.dev.cnvCode_leaves n hcode

end Machine
end Sys2Proof
end

