-- ==== Sys2Proof/Proofs/InputTicks.lean ====
section
/-! PROOFS. What an anchor tick leaves (spec/03_inputs.md, R91; spec/01_engine.md, R20; spec/11_time.md, R285): the clock, the rates, and the pairs that
waited for it. -/

namespace Sys2Proof
namespace Machine

/-! ## What a tick moves beside the pairs that wait -/

/-- A field of the inputs that records' flags do not show: neither CAL_STALE nor HOLDOVER. -/
def Fld.unflagged (f : Fld) : Bool := F.CNV_STATUS_CAL_STALE.apart f && F.CNV_STATUS_HOLDOVER.apart f

/-- Beside the inputs in `l`, `b` reads in the unflagged fields of the inputs what `a` does; it shows the same rate and time, at the same clock. -/
structure BesideInputs (l : List Nat) (a b : Dev) : Prop where
  rd : ∀ (f : Fld) (i : Nat), f.unflagged = true → i ≤ 8 → i ∉ l → b.rd f i = a.rd f i
  rate : b.reg 0x50024 = a.reg 0x50024
  time : b.time = a.time
  clk : b.clk = a.clk

theorem Fld.unflagged_iff {f : Fld} : f.unflagged = true ↔ F.CNV_STATUS_CAL_STALE.apart f = true ∧ F.CNV_STATUS_HOLDOVER.apart f = true := by
  unfold Fld.unflagged
  exact Bool.and_eq_true_iff
theorem Fld.unflagged_ofInput {f : Fld} (h : f.unflagged = true) : f.ofInput = true := (Fld.apart_iff.mp (Fld.unflagged_iff.mp h).1).2.1

namespace BesideInputs
variable {l : List Nat} {a b c : Dev}

theorem refl (l : List Nat) (a : Dev) : BesideInputs l a a := ⟨fun _ _ _ _ _ => rfl, rfl, rfl, rfl⟩
theorem trans (h1 : BesideInputs l a b) (h2 : BesideInputs l b c) : BesideInputs l a c :=
  ⟨fun f i hf hi hl => (h2.rd f i hf hi hl).trans (h1.rd f i hf hi hl), h2.rate.trans h1.rate, h2.time.trans h1.time, h2.clk.trans h1.clk⟩
/-- A change of anything else. -/
theorem other (h : BesideInputs l a b) (hregs : c.regs = b.regs) (htime : c.time = b.time) (hclk : c.clk = b.clk) : BesideInputs l a c :=
  h.trans ⟨fun f i _ _ _ => Dev.rd_congr hregs f i 0, Dev.reg_congr hregs _, htime, hclk⟩
theorem ite (p : Prop) [Decidable p] {x y : Dev} (hx : BesideInputs l a x) (hy : BesideInputs l a y) : BesideInputs l a (if p then x else y) := by
  split <;> assumption
theorem foldl {α : Type} {f : Dev → α → Dev} (hf : ∀ (b : Dev) (x : α), BesideInputs l a b → BesideInputs l a (f b x)) (t : List α) (h : BesideInputs l a b) :
    BesideInputs l a (t.foldl f b) :=
  List.foldlRecOn t f h fun c hc x _ => hf c x hc
theorem records (h : BesideInputs l a b) (hr : RecordsOnly [] b c) : BesideInputs l a c := by
  refine h.trans ⟨fun f i hf hi _ => hr.rd (Fld.unflagged_ofInput hf) hi List.not_mem_nil, hr.1 _ (by decide) List.not_mem_nil (by decide), ?_, hr.clk⟩
  obtain ⟨_, _, _, _, _, _, _, _, _, _, rfl⟩ := hr.shape
  rfl

/-! ## Single moves -/

/-- A field of an input in `l`. -/
theorem wr (h : BesideInputs l a b) (f : Fld) (hf : f.ofInput = true) (v : Nat) {n : Nat} (hn : n ∈ l) : BesideInputs l a (b.wr f v n) := by
  refine h.trans ⟨fun g i hg _ hi => Dev.rd_wr_otherInput hf (Fld.unflagged_ofInput hg) b v ?_, Dev.reg_wr_ne _ _ _ _ _ ?_, rfl, rfl⟩
  · rintro rfl
    exact hi hn
  · have := at_input_high hf n
    obtain ⟨h0, -, -, -⟩ := Fld.ofInput_iff.mp hf
    rw [Fld.at_input hf]
    omega
theorem flag (h : BesideInputs l a b) (f : Fld) (hf : f.ofInput = true) (v : Bool) {n : Nat} (hn : n ∈ l) : BesideInputs l a (b.flag f v n) := h.wr f hf _ hn
/-- A field that records' flags show, of any input. -/
theorem flagShown (h : BesideInputs l a b) {f : Fld} (hf : f = F.CNV_STATUS_CAL_STALE ∨ f = F.CNV_STATUS_HOLDOVER) (v : Bool) (n : Nat) :
    BesideInputs l a (b.flag f v n) := by
  have hin : f.ofInput = true := by rcases hf with rfl | rfl <;> decide
  refine h.trans ⟨fun g i hg _ _ => Dev.rd_flag_apart ?_ b v n i, Dev.reg_flag_ne _ _ _ _ _ ?_, rfl, rfl⟩
  · obtain ⟨hcal, hhold⟩ := Fld.unflagged_iff.mp hg
    rcases hf with rfl | rfl <;> assumption
  · obtain ⟨h0, -, -, -⟩ := Fld.ofInput_iff.mp hin
    rw [Fld.at_input hin]
    omega
theorem slotStale (h : BesideInputs l a b) (v : Bool) (n : Nat) {s : Nat} (hs : s < 64) : BesideInputs l a (b.flag F.CNV_SLOT_STALE v n s) := by
  refine h.trans ⟨fun g i hg _ _ => Dev.rd_wr_ne _ _ _ _ _ _ _ _ ?_, Dev.reg_flag_ne _ _ _ _ _ ?_, rfl, rfl⟩
  · obtain ⟨h0, h1, -, -⟩ := Fld.ofInput_iff.mp (Fld.unflagged_ofInput hg)
    rw [Fld.at_input (Fld.unflagged_ofInput hg)]
    simp only [Fld.at_, F.CNV_SLOT_STALE]
    omega
  · simp only [Fld.at_, F.CNV_SLOT_STALE]
    omega
theorem setInput (h : BesideInputs l a b) (n : Nat) (f : Input → Input) : BesideInputs l a (b.setInput n f) := h.other rfl rfl rfl
theorem flagging (n : Nat) {f : Dev → Dev} (hf : BesideInputs l a (f b)) : BesideInputs l a (b.flagging n f) := by
  unfold Dev.flagging
  exact ite _ hf (hf.setInput n _)

/-! ## What records' flags and slots show (R104, R130) -/

theorem showSlots (h : BesideInputs l a b) (n : Nat) : BesideInputs l a (b.showSlots n) :=
  List.foldlRecOn _ _ h fun _ hc _ hs => hc.slotStale _ n (List.mem_range.mp hs)
theorem showStale (h : BesideInputs l a b) (n : Nat) : BesideInputs l a (b.showStale n) := by
  have slots : BesideInputs l a ((b.showSlots n).showSlots (if b.is F.CNV_STATUS_PAIRED n then n + 1 else n)) := (h.showSlots n).showSlots _
  unfold Dev.showStale
  dsimp only
  refine flagging n ?_
  exact slots.flagShown (.inl rfl) _ n
theorem showHoldover (h : BesideInputs l a b) : BesideInputs l a b.showHoldover := by
  unfold Dev.showHoldover
  refine foldl (fun c n hc => flagging n ?_) _ h
  exact hc.flagShown (.inr rfl) _ n
theorem converterContext (h : BesideInputs l a b) (n reason settle idx : Nat) (k : Int) (cross : Option (Nat × Nat)) :
    BesideInputs l a (b.converterContext n reason settle idx k cross) :=
  h.records ((RecordsOnly.refl [] b).converterContext _ _ _ _ _ _)
theorem applyAtten (h : BesideInputs l a b) {n : Nat} (hn : n ∈ l) (v : Nat) (cross : Option (Nat × Nat)) (k : Nat) : BesideInputs l a (b.applyAtten n v cross k) := by
  unfold Dev.applyAtten
  exact ite _ h (((h.wr F.CNV_ATTEN_ACT_SETTING (by decide) _ hn).wr F.CNV_ATTEN_ACT_ACTUAL (by decide) _ hn).converterContext _ _ _ _ _ _)
theorem tickAnchor (h : BesideInputs l a b) (n : Nat) (k : Int) : BesideInputs l a (b.tickAnchor n k) :=
  ite _ h (h.records ((RecordsOnly.refl [] b).anchor _ _ _ _))
theorem alignSend (h : BesideInputs l a b) : BesideInputs l a b.alignSend := by
  unfold Dev.alignSend
  refine ite _ ?_ h
  exact foldl (f := fun d j => d.send (.stay j _)) (fun _ _ hc => hc.other rfl rfl rfl) _ (h.other rfl rfl rfl)
end BesideInputs

/-! ## A pair taken (R90, R91) -/

/-- Of the pair of even input e, `b` shows what `a`'s request asked for. -/
structure PairTaken (a : Dev) (e : Nat) (b : Dev) : Prop where
  even : b.rd F.CNV_STATUS_PAIR_PENDING e = 0
  odd : b.rd F.CNV_STATUS_PAIR_PENDING (e + 1) = 0
  paired : b.rd F.CNV_STATUS_PAIRED e = a.rd F.CNV_CTRL_PAIRED e
  state : b.cnvState (e + 1) = if a.rd F.CNV_CTRL_PAIRED e = 1 then 4 else 0
  tone : b.rd F.CNV_STATUS_TONE (e + 1) = a.rd F.CNV_CTRL_PAIRED e

theorem PairTaken.kept {a b c : Dev} {e : Nat} {l : List Nat} (h : PairTaken a e b) (hk : BesideInputs l b c) (he : e < 8) (h0 : e ∉ l) (h1 : e + 1 ∉ l) :
    PairTaken a e c :=
  ⟨(hk.rd _ _ (by decide) he.le h0).trans h.even, (hk.rd _ _ (by decide) he h1).trans h.odd, (hk.rd _ _ (by decide) he.le h0).trans h.paired,
    (hk.rd F.CNV_STATUS_STATE _ (by decide) he h1).trans h.state, (hk.rd _ _ (by decide) he h1).trans h.tone⟩

section
variable (d : Dev) (e : Nat)

/-- The pair's state shown. -/
def Dev.pairShown (d : Dev) (e : Nat) (want : Bool) : Dev :=
  (((d.flag F.CNV_STATUS_PAIR_PENDING false e).flag F.CNV_STATUS_PAIR_PENDING false (e + 1)).flag F.CNV_STATUS_PAIRED want e).wr
    F.CNV_STATUS_STATE (if want then 4 else 0) (e + 1)
/-- The even input's index stays, the odd one's attenuator setting is kept for the pair's end or applied again. -/
def Dev.pairSettled (d : Dev) (e idx late : Nat) (want : Bool) : Dev :=
  let d := d.setInput e (fun i => { i with idx := idx + d.lanes e * late })
  if want then d.setInput (e + 1) (fun i => { i with keptAtten := d.rd F.CNV_ATTEN_ATTEN (e + 1) }) else d.applyAtten (e + 1) (d.input (e + 1)).keptAtten none
/-- The odd input's switch, and what the change shows of both. -/
def Dev.pairNoted (d : Dev) (e idx late : Nat) (want : Bool) : Dev :=
  ((((d.flag F.CNV_STATUS_TONE want (e + 1)).showStale e).showStale (e + 1)).showHoldover).converterContext e 4 0 idx (-late) none

theorem Dev.takePairing_idle {d : Dev} (h : d.rd F.CNV_STATUS_PAIR_PENDING e = 0) : d.takePairing e = d := by
  unfold Dev.takePairing
  rw [Dev.is_eq_false h]
  rfl
theorem Dev.takePairing_due {d : Dev} (h : d.rd F.CNV_STATUS_PAIR_PENDING e = 1) : ∃ idx late : Nat, d.takePairing e =
    (((d.pairShown e (d.is F.CNV_CTRL_PAIRED e)).pairSettled e idx late (d.is F.CNV_CTRL_PAIRED e))).pairNoted e idx late (d.is F.CNV_CTRL_PAIRED e) := by
  refine ⟨(d.input e).idx - d.lanes e * (d.clk - tickClock d.time.ticks), d.clk - tickClock d.time.ticks, ?_⟩
  unfold Dev.takePairing
  rw [Dev.is_eq_true h]
  rfl

variable {d e}
theorem BesideInputs.pairShown {l : List Nat} {a b : Dev} (h : BesideInputs l a b) (h0 : e ∈ l) (h1 : e + 1 ∈ l) (want : Bool) : BesideInputs l a (b.pairShown e want) :=
  (((h.flag F.CNV_STATUS_PAIR_PENDING (by decide) _ h0).flag F.CNV_STATUS_PAIR_PENDING (by decide) _ h1).flag F.CNV_STATUS_PAIRED (by decide) _ h0).wr
    F.CNV_STATUS_STATE (by decide) _ h1
theorem BesideInputs.pairSettled {l : List Nat} {a b : Dev} (h : BesideInputs l a b) (h1 : e + 1 ∈ l) (idx late : Nat) (want : Bool) :
    BesideInputs l a (b.pairSettled e idx late want) :=
  ite _ ((h.setInput e _).setInput (e + 1) _) ((h.setInput e _).applyAtten h1 _ _ _)
theorem BesideInputs.pairNoted {l : List Nat} {a b : Dev} (idx late : Nat) (want : Bool) (h : BesideInputs l a (b.flag F.CNV_STATUS_TONE want (e + 1))) :
    BesideInputs l a (b.pairNoted e idx late want) :=
  (((h.showStale e).showStale (e + 1)).showHoldover).converterContext _ _ _ _ _ _
theorem BesideInputs.takePairing {l : List Nat} {a b : Dev} (h : BesideInputs l a b) (h0 : e ∈ l) (h1 : e + 1 ∈ l) : BesideInputs l a (b.takePairing e) := by
  have hlt : b.rd F.CNV_STATUS_PAIR_PENDING e < 2 := Dev.rd_lt b F.CNV_STATUS_PAIR_PENDING e 0
  by_cases hp : b.rd F.CNV_STATUS_PAIR_PENDING e = 0
  · rw [Dev.takePairing_idle e hp]
    exact h
  · obtain ⟨idx, late, heq⟩ := Dev.takePairing_due e (d := b) (by omega)
    rw [heq]
    exact .pairNoted idx late _ (((h.pairShown h0 h1 _).pairSettled h1 idx late _).flag F.CNV_STATUS_TONE (by decide) _ h1)

/-- The attenuator's setting aside, what was shown of the pair stays. -/
theorem Dev.rd_pairSettled (d : Dev) (idx late : Nat) (want : Bool) {f : Fld} (hf : f.ofInput = true) (hoff : f.off ≠ F.CNV_ATTEN_ACT_SETTING.off) {i : Nat} (hi : i ≤ 8) :
    (d.pairSettled e idx late want).rd f i = d.rd f i := by
  unfold Dev.pairSettled
  dsimp only
  split
  · rfl
  · refine RecordsOnly.rd (w := [F.CNV_ATTEN_ACT_SETTING.at_ (e + 1) 0]) ((RecordsOnly.refl _ _).applyAtten (.head _) _ _ _) hf hi ?_
    rw [List.mem_singleton, Fld.at_input_eq_iff hf (by decide)]
    exact fun h => hoff h.1
/-- The pair as shown. -/
theorem Dev.pairShown_shows (d : Dev) (e : Nat) (want : Bool) : (d.pairShown e want).rd F.CNV_STATUS_PAIR_PENDING e = 0 ∧
    (d.pairShown e want).rd F.CNV_STATUS_PAIR_PENDING (e + 1) = 0 ∧ (d.pairShown e want).rd F.CNV_STATUS_PAIRED e = (if want then 1 else 0) ∧
    (d.pairShown e want).rd F.CNV_STATUS_STATE (e + 1) = if want then 4 else 0 := by
  refine ⟨?_, ?_, ?_, ?_⟩
  · refine (Dev.rd_wr_apart (by decide) _ _ _ _).trans ((Dev.rd_flag_apart (by decide) _ _ _ _).trans ?_)
    exact (Dev.rd_flag_otherInput (by decide) (by decide) _ _ (by omega)).trans (Dev.rd_flag_same d false e (by decide) rfl)
  · refine (Dev.rd_wr_apart (by decide) _ _ _ _).trans ((Dev.rd_flag_apart (by decide) _ _ _ _).trans ?_)
    exact Dev.rd_flag_same _ false (e + 1) (by decide) rfl
  · exact (Dev.rd_wr_apart (by decide) _ _ _ _).trans (Dev.rd_flag_same _ want e (by decide) rfl)
  · refine Dev.rd_wr_fits _ (e + 1) (by decide) ?_
    cases want <;> decide
/-- The request in force is read as a Boolean. -/
theorem Dev.paired_requested (d : Dev) (e : Nat) : (d.is F.CNV_CTRL_PAIRED e = false ∧ d.rd F.CNV_CTRL_PAIRED e = 0) ∨
    (d.is F.CNV_CTRL_PAIRED e = true ∧ d.rd F.CNV_CTRL_PAIRED e = 1) := by
  have hlt : d.rd F.CNV_CTRL_PAIRED e < 2 := Dev.rd_lt d F.CNV_CTRL_PAIRED e 0
  rcases (by omega : d.rd F.CNV_CTRL_PAIRED e = 0 ∨ d.rd F.CNV_CTRL_PAIRED e = 1) with h | h
  · exact .inl ⟨Dev.is_eq_false h, h⟩
  · exact .inr ⟨Dev.is_eq_true h, h⟩
/-- A pair that waited is taken. -/
theorem PairTaken.takePairing (he : e < 8) (h : d.rd F.CNV_STATUS_PAIR_PENDING e = 1) : PairTaken d e (d.takePairing e) := by
  obtain ⟨idx, late, heq⟩ := Dev.takePairing_due e h
  rw [heq]
  generalize hw : d.is F.CNV_CTRL_PAIRED e = want
  obtain ⟨heven, hodd, hpaired, hstate⟩ := d.pairShown_shows e want
  have settled (f : Fld) (hf : F.CNV_STATUS_TONE.apart f = true) (hoff : f.off ≠ F.CNV_ATTEN_ACT_SETTING.off) (i : Nat) (hi : i ≤ 8) :
      (((d.pairShown e want).pairSettled e idx late want).flag F.CNV_STATUS_TONE want (e + 1)).rd f i = (d.pairShown e want).rd f i :=
    (Dev.rd_flag_apart hf _ _ _ _).trans (Dev.rd_pairSettled _ idx late want (Fld.apart_iff.mp hf).2.1 hoff hi)
  have hasked : (if want then 1 else 0) = d.rd F.CNV_CTRL_PAIRED e ∧ (if want then 4 else 0) = if d.rd F.CNV_CTRL_PAIRED e = 1 then 4 else 0 := by
    rcases d.paired_requested e with ⟨hb, hr⟩ | ⟨hb, hr⟩ <;> rw [← hw, hb, hr] <;> decide
  obtain ⟨hbit, hcode⟩ := hasked
  have shown : PairTaken d e (((d.pairShown e want).pairSettled e idx late want).flag F.CNV_STATUS_TONE want (e + 1)) :=
    ⟨(settled _ (by decide) (by decide) _ he.le).trans heven, (settled _ (by decide) (by decide) _ he).trans hodd,
      (settled _ (by decide) (by decide) _ he.le).trans (hpaired.trans hbit), (settled F.CNV_STATUS_STATE (by decide) (by decide) _ he).trans (hstate.trans hcode),
      (Dev.rd_flag_same _ want (e + 1) (by decide) rfl).trans hbit⟩
  exact shown.kept (.pairNoted idx late want (.refl [] _)) he List.not_mem_nil List.not_mem_nil

/-- The pairs leave the rates, the time and the clock. -/
theorem BesideInputs.takePairings {l : List Nat} {a b : Dev} (h : BesideInputs l a b) (t : List Nat) (ht : ∀ x ∈ t, x ∈ l ∧ x + 1 ∈ l) :
    BesideInputs l a (t.foldl (fun d e => d.takePairing e) b) :=
  List.foldlRecOn _ _ h fun _ hc x hx => hc.takePairing (ht x hx).1 (ht x hx).2

/-- The pairs of a list taken in turn: each that waited is taken, whatever the others do. -/
theorem PairTaken.foldl {e : Nat} (l : List Nat) {d : Dev} (hnd : l.Nodup) (hall : ∀ x ∈ l, x % 2 = 0 ∧ x < 8) (hmem : e ∈ l)
    (hp : d.rd F.CNV_STATUS_PAIR_PENDING e = 1) : PairTaken d e (l.foldl (fun d e => d.takePairing e) d) := by
  induction l generalizing d with
  | nil => exact absurd hmem List.not_mem_nil
  | cons x t ih =>
    obtain ⟨hxt, hndt⟩ := List.nodup_cons.mp hnd
    obtain ⟨heven, he⟩ := hall e hmem
    have hallt : ∀ y ∈ t, y % 2 = 0 ∧ y < 8 := fun y hy => hall y (List.mem_cons_of_mem x hy)
    rw [List.foldl_cons]
    rcases List.mem_cons.mp hmem with rfl | ht
    · -- this pair: the rest of the list leaves what it shows
      have rest := BesideInputs.takePairings (.refl (t ++ t.map (· + 1)) (d.takePairing e)) t fun y hy =>
        ⟨List.mem_append_left _ hy, List.mem_append_right _ (List.mem_map_of_mem hy)⟩
      refine (PairTaken.takePairing he hp).kept rest he ?_ ?_
      · rw [List.mem_append, List.mem_map]
        rintro (h | ⟨y, hy, h⟩)
        · exact hxt h
        · have := (hallt y hy).1
          omega
      · rw [List.mem_append, List.mem_map]
        rintro (h | ⟨y, hy, h⟩)
        · have := (hallt _ h).1
          omega
        · exact hxt ((Nat.add_right_cancel h) ▸ hy)
    · -- another pair first: it leaves this one waiting
      have hx := (hall x List.mem_cons_self).1
      have hne : e ≠ x := fun h => hxt (h ▸ ht)
      have beside := BesideInputs.takePairing (e := x) (.refl [x, x + 1] d) (.head _) (.tail _ (.head _))
      have hout : e ∉ [x, x + 1] := by
        simp only [List.mem_cons, List.not_mem_nil, or_false]
        omega
      have hasked : (d.takePairing x).rd F.CNV_CTRL_PAIRED e = d.rd F.CNV_CTRL_PAIRED e := beside.rd _ _ (by decide) he.le hout
      obtain ⟨h1, h2, h3, h4, h5⟩ := ih hndt hallt ht ((beside.rd _ _ (by decide) he.le hout).trans hp)
      exact ⟨h1, h2, h3.trans hasked, h4.trans (by rw [hasked]), h5.trans hasked⟩
end

/-! ## The tick's clock and the rates committed before it (R20, R285) -/

section
variable (d : Dev)

theorem Dev.advanceTo_time (c : Nat) : ∃ x, (d.advanceTo c).time = { d.time with lag := x } := by
  obtain ⟨_, _, _, x, _, e⟩ := Dev.advance_shape d (c - d.clk)
  exact ⟨x, congrArg Dev.time e⟩
theorem Dev.putRate_time : ∃ x, d.putRate.time = { d.time with bends := x } := by
  unfold Dev.putRate
  dsimp only
  split
  · exact ⟨d.time.bends, rfl⟩
  · exact ⟨d.reference :: d.time.bends, rfl⟩
theorem Dev.putRate_clk : d.putRate.clk = d.clk := by
  unfold Dev.putRate
  dsimp only
  split <;> rfl
/-- A rate put in force moves the two words of the rate and no others. -/
theorem Dev.rd_putRate {f : Fld} {i : Nat} (hlo : f.at_ i 0 ≠ F.TIM_RATE_ACT_LO_RATE.at_ 0 0)
    (hhi : f.at_ i 0 ≠ F.TIM_RATE_ACT_HI_RATE.at_ 0 0 ∨ F.TIM_RATE_ACT_HI_RATE.lo + F.TIM_RATE_ACT_HI_RATE.w ≤ f.lo) : d.putRate.rd f i = d.rd f i := by
  have hword (e : Dev) (v : Nat) : (e.wr F.TIM_RATE_ACT_HI_RATE v).rd f i = e.rd f i := by
    rcases hhi with h | h
    · exact Dev.rd_wr_ne _ _ _ _ _ _ _ _ h
    · exact Dev.rd_wr_field _ _ _ _ _ _ _ _ (by decide) (.inl h)
  unfold Dev.putRate
  dsimp only
  rw [hword, Dev.rd_wr_ne _ _ _ _ _ _ _ _ hlo]
  split <;> rfl

/-- The rates that wait for another tick. -/
def Dev.ratesLeft (d : Dev) (due : Nat → Bool) : List (Nat × Int) := d.time.ratePend.filter (fun p => !(due p.1))

theorem Dev.takeRate_time (due : Nat → Bool) : ∃ x, (d.takeRate due).time =
    { d.time with own := ((d.time.ratePend.filter (fun p => due p.1)).getLast?.map (·.2)).getD d.time.own, ratePend := d.ratesLeft due, bends := x } :=
  Dev.putRate_time _
theorem Dev.takeRate_clk (due : Nat → Bool) : (d.takeRate due).clk = d.clk := Dev.putRate_clk _
theorem Dev.takeRate_pending (due : Nat → Bool) : (d.takeRate due).rd F.TIM_RATE_ACT_HI_PENDING = if !(d.ratesLeft due).isEmpty then 1 else 0 :=
  (Dev.rd_putRate _ (by decide) (.inr (by decide))).trans (Dev.rd_flag_same _ _ 0 (by decide) rfl)
theorem Dev.rd_takeRate (due : Nat → Bool) {f : Fld} (hf : f.ofInput = true) (i : Nat) : (d.takeRate due).rd f i = d.rd f i := by
  have hne (c : Nat) (hc : c < 0xC0000) : f.at_ i 0 ≠ c := by
    obtain ⟨h0, -, -, -⟩ := Fld.ofInput_iff.mp hf
    rw [Fld.at_input hf]
    omega
  exact (Dev.rd_putRate _ (hne _ (by decide)) (.inl (hne _ (by decide)))).trans (Dev.rd_wr_below (by decide) hf _ _ _)

theorem BesideInputs.halfAnchors (mid : Nat) : BesideInputs [] (d.advanceTo mid) (d.halfAnchors mid) :=
  foldl (fun _ n hc => hc.tickAnchor n _) _ (.refl _ _)
/-- The engine at tick k of clock `clk`, the half-way anchors of clock `mid` placed. -/
def Dev.atTick (d : Dev) (mid clk k : Nat) : Dev := ((d.halfAnchors mid).advanceTo clk).setTime (fun t => { t with ticks := k })
section
variable (mid clk k : Nat)
theorem Dev.atTick_clk (hmid : mid ≤ clk) : (d.atTick mid clk k).clk = max d.clk clk := by
  have h : (d.atTick mid clk k).clk = max (d.halfAnchors mid).clk clk := Dev.advanceTo_clk _ _
  rw [h, (BesideInputs.halfAnchors d _).clk, Dev.advanceTo_clk]
  omega
theorem Dev.atTick_time : ∃ x, (d.atTick mid clk k).time = { d.time with lag := x, ticks := k } := by
  obtain ⟨x, hx⟩ := (d.halfAnchors mid).advanceTo_time clk
  obtain ⟨y, hy⟩ := d.advanceTo_time mid
  refine ⟨x, ?_⟩
  have h : (d.atTick mid clk k).time = { ((d.halfAnchors mid).advanceTo clk).time with ticks := k } := rfl
  rw [h, hx, (BesideInputs.halfAnchors d _).time, hy]
theorem Dev.rd_atTick {f : Fld} (hf : f.unflagged = true) {i : Nat} (hi : i ≤ 8) : (d.atTick mid clk k).rd f i = d.rd f i := by
  have h : (d.atTick mid clk k).rd f i = (d.halfAnchors mid).rd f i := Dev.rd_advanceTo _ _ f i
  rw [h, (BesideInputs.halfAnchors d _).rd f i hf hi List.not_mem_nil, Dev.rd_advanceTo]
end
end

/-! ## The tick (R20, R31, R91, R285) -/

section
variable (d : Dev)

/-- Whether a rate was committed before a tick. -/
def beforeTick (k : Nat) : Nat → Bool := fun c => decide (c < tickClock k)
/-- The engine at tick k with its rates in force. -/
def Dev.tickRated (d : Dev) (k : Nat) : Dev := (d.atTick (tickClock k - 32768) (tickClock k) k).takeRate (beforeTick k)
/-- The pairs taken. -/
def Dev.tickPaired (d : Dev) (k : Nat) : Dev := ([0, 2, 4, 6] : List Nat).foldl (fun d e => d.takePairing e) (d.tickRated k)
/-- The anchors placed and the master's word sent. -/
def Dev.tickAnchored (d : Dev) (k : Nat) : Dev := (d.anchored.foldl (fun d n => d.tickAnchor n ((tickClock k : Int) - d.clk)) d).alignSend

theorem Dev.anchorTick_unaligned {d : Dev} (h : d.rd F.CLK_STATUS_ALIGNED = 0) : d.anchorTick = d := by
  unfold Dev.anchorTick
  rw [Dev.is_eq_false h]
  rfl
theorem Dev.anchorTick_aligned {d : Dev} (h : d.rd F.CLK_STATUS_ALIGNED = 1) :
    d.anchorTick = (d.tickPaired (d.time.ticks + 1)).tickAnchored (d.time.ticks + 1) := by
  unfold Dev.anchorTick
  rw [Dev.is_eq_true h]
  simp only [Bool.not_true, Bool.false_eq_true, if_false, Dev.tickAnchored, Dev.tickPaired, Dev.tickRated, Dev.atTick]
  rfl
theorem BesideInputs.tickAnchored {l : List Nat} {a b : Dev} (h : BesideInputs l a b) (k : Nat) : BesideInputs l a (b.tickAnchored k) :=
  (foldl (fun _ n hc => hc.tickAnchor n _) _ h).alignSend
/-- From the rates on, a tick moves neither them nor the time nor the clock. -/
theorem Dev.tick_beside (k : Nat) : BesideInputs (List.range 8) (d.tickRated k) ((d.tickPaired k).tickAnchored k) :=
  (BesideInputs.takePairings (.refl _ _) [0, 2, 4, 6] (by decide)).tickAnchored k

theorem Dev.tick_clk (k : Nat) : ((d.tickPaired k).tickAnchored k).clk = max d.clk (65536 * k) :=
  (d.tick_beside k).clk.trans ((Dev.takeRate_clk _ _).trans (d.atTick_clk _ _ k (Nat.sub_le _ _)))
theorem Dev.tick_time (k : Nat) : ((d.tickPaired k).tickAnchored k).time.ticks = k ∧
    ((d.tickPaired k).tickAnchored k).time.ratePend = d.ratesLeft (beforeTick k) ∧
    ((d.tickPaired k).tickAnchored k).time.own = ((d.time.ratePend.filter (fun p => beforeTick k p.1)).getLast?.map (·.2)).getD d.time.own := by
  obtain ⟨x, hx⟩ := (d.atTick (tickClock k - 32768) (tickClock k) k).takeRate_time (beforeTick k)
  obtain ⟨y, hy⟩ := d.atTick_time (tickClock k - 32768) (tickClock k) k
  have htime : ((d.tickPaired k).tickAnchored k).time = _ := (d.tick_beside k).time.trans hx
  unfold Dev.ratesLeft at htime
  rw [htime, hy]
  exact ⟨rfl, rfl, rfl⟩
theorem Dev.tick_pending (k : Nat) : ((d.tickPaired k).tickAnchored k).rd F.TIM_RATE_ACT_HI_PENDING = if !(d.ratesLeft (beforeTick k)).isEmpty then 1 else 0 := by
  obtain ⟨y, hy⟩ := d.atTick_time (tickClock k - 32768) (tickClock k) k
  have hword : ((d.tickPaired k).tickAnchored k).rd F.TIM_RATE_ACT_HI_PENDING = (d.tickRated k).rd F.TIM_RATE_ACT_HI_PENDING :=
    congrArg (fun v : Word => v.field 8 1) (d.tick_beside k).rate
  have hleft : (d.atTick (tickClock k - 32768) (tickClock k) k).ratesLeft (beforeTick k) = d.ratesLeft (beforeTick k) := by
    unfold Dev.ratesLeft
    rw [hy]
  rw [hword, ← hleft]
  exact Dev.takeRate_pending _ _
/-- A pair that waits for the tick is taken by it. -/
theorem Dev.tick_takes (k e : Nat) (he : e ∈ [0, 2, 4, 6]) (hp : d.rd F.CNV_STATUS_PAIR_PENDING e = 1) : PairTaken d e ((d.tickPaired k).tickAnchored k) := by
  have hlt : e < 8 := by
    have hall : ∀ x ∈ [0, 2, 4, 6], x < 8 := by decide
    exact hall e he
  have hrd (f : Fld) (hf : f.unflagged = true) : (d.tickRated k).rd f e = d.rd f e :=
    (Dev.rd_takeRate _ _ (Fld.unflagged_ofInput hf) e).trans (d.rd_atTick _ _ k hf hlt.le)
  have taken : PairTaken (d.tickRated k) e (d.tickPaired k) := .foldl [0, 2, 4, 6] (by decide) (by decide) he ((hrd _ (by decide)).trans hp)
  obtain ⟨h1, h2, h3, h4, h5⟩ := taken.kept (BesideInputs.tickAnchored (.refl [] _) k) hlt List.not_mem_nil List.not_mem_nil
  have hasked := hrd F.CNV_CTRL_PAIRED (by decide)
  exact ⟨h1, h2, h3.trans hasked, h4.trans (by rw [hasked]), h5.trans hasked⟩

/-- The newest rate committed before the tick is in force. -/
theorem Dev.tick_rate {k c : Nat} {v : Int} (h : d.time.ratePend = [(c, v)]) (hc : c < 65536 * k) :
    ((d.tickPaired k).tickAnchored k).time.own = v ∧ ((d.tickPaired k).tickAnchored k).rd F.TIM_RATE_ACT_HI_PENDING = 0 := by
  obtain ⟨-, -, hown⟩ := d.tick_time k
  have hdue : beforeTick k c = true := decide_eq_true hc
  rw [hown, Dev.tick_pending, Dev.ratesLeft, h]
  simp [hdue]
theorem Dev.tick_noRate {k : Nat} (h : d.time.ratePend = []) : ((d.tickPaired k).tickAnchored k).time.own = d.time.own := by
  obtain ⟨-, -, hown⟩ := d.tick_time k
  rw [hown, h]
  rfl
end

end Machine
end Sys2Proof
end

