-- ==== Sys2Proof/Proofs/InputPairing.lean ====
section
/-! PROOFS. What a write of `CNV_CTRL` leaves (spec/03_inputs.md, R90, R80; spec/02_formes.md, R43), and with the anchor tick the answer to O15. -/

namespace Sys2Proof
namespace Machine

/-! ## One-bit fields -/

theorem Word.field_bit (w : Word) (lo : Nat) : w.field lo 1 = if w.getLsbD lo then 1 else 0 := by
  have hbit := Word.getLsbD_eq_testBit_field w (lo := lo) (len := 1) (i := 0) Nat.one_pos
  have hlt : w.field lo 1 < 2 := Word.field_lt w lo 1
  rw [Nat.add_zero] at hbit
  rw [hbit]
  rcases (by omega : w.field lo 1 = 0 ∨ w.field lo 1 = 1) with e | e <;> rw [e] <;> rfl
theorem Dev.rd_bit (d : Dev) {f : Fld} (n : Nat) (hw : f.w = 1) : d.rd f n = if d.is f n then 1 else 0 := by
  have hlt := Dev.rd_lt d f n 0
  rw [hw] at hlt
  rcases (by omega : d.rd f n = 0 ∨ d.rd f n = 1) with e | e
  · rw [Dev.is_eq_false e, e]
    rfl
  · rw [Dev.is_eq_true e, e]
    rfl
/-- A one-bit field equals a bit of a word when they agree as Booleans. -/
theorem Dev.rd_eq_field_iff (d : Dev) {f : Fld} (n : Nat) (hw : f.w = 1) (w : Word) (lo : Nat) : d.rd f n = w.field lo 1 ↔ w.getLsbD lo = d.is f n := by
  rw [d.rd_bit n hw, Word.field_bit]
  cases d.is f n <;> cases w.getLsbD lo <;> decide

/-! ## A pairing asked for (R90) -/

section
variable {d : Dev} {n : Nat} {want : Bool}

/-- PAIR_PENDING of both inputs. -/
def Dev.pairPend (d : Dev) (n : Nat) (b : Bool) : Dev := (d.flag F.CNV_STATUS_PAIR_PENDING b n).flag F.CNV_STATUS_PAIR_PENDING b (n + 1)

theorem Dev.pairRequest_withdrawn (hp : d.rd F.CNV_STATUS_PAIR_PENDING n = 1) (hw : want = d.is F.CNV_STATUS_PAIRED n) :
    d.pairRequest n want = ((d.pairPend n false).flag F.CNV_CTRL_PAIRED want n).cnvCode n 0 := by
  unfold Dev.pairRequest
  dsimp only
  rw [Dev.is_eq_true hp, if_pos rfl, if_pos hw, ← hw]
  rfl
theorem Dev.pairRequest_refused (hp : d.rd F.CNV_STATUS_PAIR_PENDING n = 0) (hw : want ≠ d.is F.CNV_STATUS_PAIRED n) (hst : d.cnvState n ≠ 0) :
    d.pairRequest n want = d.cnvCode n 2 := by
  unfold Dev.pairRequest
  dsimp only
  rw [Dev.is_eq_false hp, if_neg (by decide), if_neg hw, if_pos (by simp [hst])]
theorem Dev.pairRequest_taken (hp : d.rd F.CNV_STATUS_PAIR_PENDING n = 0) (hw : want ≠ d.is F.CNV_STATUS_PAIRED n) (h0 : d.cnvState n = 0)
    (h1 : d.cnvState (n + 1) = 0) : d.pairRequest n want = (d.pairPend n true).flag F.CNV_CTRL_PAIRED want n := by
  unfold Dev.pairRequest
  dsimp only
  rw [Dev.is_eq_false hp, if_neg (by decide), if_neg hw, if_neg (by simp [h0, h1])]
  rfl

theorem Dev.pairPend_shows (d : Dev) (n : Nat) (b : Bool) : (d.pairPend n b).rd F.CNV_STATUS_PAIR_PENDING n = (if b then 1 else 0) ∧
    (d.pairPend n b).rd F.CNV_STATUS_PAIR_PENDING (n + 1) = if b then 1 else 0 :=
  ⟨(Dev.rd_flag_otherInput (by decide) (by decide) _ b (by omega)).trans (Dev.rd_flag_same d b n (by decide) rfl), Dev.rd_flag_same _ b (n + 1) (by decide) rfl⟩
/-- A field that the pairing part of the write does not move. -/
theorem Dev.rd_pairRequest (d : Dev) (n : Nat) (want : Bool) {f : Fld} (hpend : F.CNV_STATUS_PAIR_PENDING.apart f = true) (hctrl : F.CNV_CTRL_PAIRED.apart f = true)
    (hcode : F.CNV_STATUS_CODE.apart f = true) (i : Nat) : (d.pairRequest n want).rd f i = d.rd f i := by
  have pend (b : Bool) : (d.pairPend n b).rd f i = d.rd f i := (Dev.rd_flag_apart hpend _ _ _ _).trans (Dev.rd_flag_apart hpend _ _ _ _)
  have code (e : Dev) (c : Nat) : (e.cnvCode n c).rd f i = e.rd f i := Dev.rd_wr_apart hcode _ _ _ _
  unfold Dev.pairRequest
  dsimp only
  split
  · split
    · rw [code, Dev.rd_flag_apart hctrl]
      exact pend false
    · rfl
  · split
    · rfl
    · split
      · exact code d 2
      · rw [Dev.rd_flag_apart hctrl]
        exact pend true
end

/-! ## The drive's part (R43, R80) -/

section
variable (d : Dev) {n h : Nat}

/-- The detector's halyard and its enable stored, the input's earlier drives released. -/
def Dev.ovrStored (d : Dev) (n : Nat) (en : Bool) (h : Nat) : Dev := ((d.releaseDriver 2 n 64).wr F.CNV_CTRL_OVR_HAL h n).flag F.CNV_CTRL_OVR_HAL_EN en n

/-- Where no other driver has the halyard, the enable is stored as written and the drive recorded. -/
theorem Dev.ovrHalyard_stored {d : Dev} (hn : n < 8) (hh : h < 64) (hfree : d.takenByOther h 2 n = false) (en : Bool) : d.ovrHalyard n en h =
    if en then (d.ovrStored n true h).recordDriver h 2 n else d.ovrStored n false h := by
  cases en with
  | false => rfl
  | true => exact Dev.ovrHalyard_free hn hh hfree

theorem Dev.rd_releaseDriver {f : Fld} (hf : f.ofInput = true) {i : Nat} (hi : i ≤ 8) : (d.releaseDriver 2 n 64).rd f i = d.rd f i := by
  refine congrArg (fun v : Word => v.field f.lo f.w) (d.reg_releaseDriver 2 n (.inl ?_) 64 le_rfl)
  obtain ⟨-, h1, -, -⟩ := Fld.ofInput_iff.mp hf
  rw [Fld.at_input hf]
  omega
theorem Dev.rd_recordDriver {f : Fld} (hf : f.ofInput = true) {i : Nat} (hi : i ≤ 8) (hh : h < 64) : (d.recordDriver h 2 n).rd f i = d.rd f i := by
  refine congrArg (fun v : Word => v.field f.lo f.w) (d.reg_recordDriver_ne 2 n (driverReg_ne hh (.inl ?_)).symm)
  obtain ⟨-, h1, -, -⟩ := Fld.ofInput_iff.mp hf
  rw [Fld.at_input hf]
  omega

section
variable {d} (hn : n < 8) (hh : h < 64) (hfree : d.takenByOther h 2 n = false) (en : Bool)
include hn hh hfree

theorem Dev.rd_ovrHalyard_stored {f : Fld} (hf : f.ofInput = true) {i : Nat} (hi : i ≤ 8) : (d.ovrHalyard n en h).rd f i = (d.ovrStored n en h).rd f i := by
  rw [Dev.ovrHalyard_stored hn hh hfree]
  cases en with
  | false => rfl
  | true => exact Dev.rd_recordDriver _ hf hi hh
theorem Dev.ovrHalyard_hal : (d.ovrHalyard n en h).rd F.CNV_CTRL_OVR_HAL n = h :=
  (Dev.rd_ovrHalyard_stored hn hh hfree en (by decide) hn.le).trans
    ((Dev.rd_flag_apart (by decide) _ _ _ _).trans (Dev.rd_wr_fits _ n (by decide) hh))
theorem Dev.ovrHalyard_enable : (d.ovrHalyard n en h).rd F.CNV_CTRL_OVR_HAL_EN n = if en then 1 else 0 :=
  (Dev.rd_ovrHalyard_stored hn hh hfree en (by decide) hn.le).trans (Dev.rd_flag_same _ en n (by decide) rfl)
theorem Dev.rd_ovrHalyard_apart {f : Fld} (hhal : F.CNV_CTRL_OVR_HAL.apart f = true) (hen : F.CNV_CTRL_OVR_HAL_EN.apart f = true) {i : Nat} (hi : i ≤ 8) :
    (d.ovrHalyard n en h).rd f i = d.rd f i := by
  obtain ⟨-, hin, -⟩ := Fld.apart_iff.mp hhal
  exact (Dev.rd_ovrHalyard_stored hn hh hfree en hin hi).trans
    ((Dev.rd_flag_apart hen _ _ _ _).trans ((Dev.rd_wr_apart hhal _ _ _ _).trans (Dev.rd_releaseDriver d hin hi)))
theorem Dev.ovrHalyard_driver : (d.ovrHalyard n true h).hasDriver h 2 n = true := by
  rw [Dev.ovrHalyard_free hn hh hfree]
  exact Dev.hasDriver_ovrEnabled d (by omega) h
theorem Frame.ovrHalyard {w : List Nat} (hctrl : F.CNV_CTRL_PAIRED.at_ n 0 ∈ w) (hdrv : ∀ o ∈ driverRegs, o ∈ w) : Frame w d (d.ovrHalyard n en h) := by
  have released : Frame w d (d.releaseDriver 2 n 64) := (Frame.refl w d).releaseDriver (fun k hk => hdrv _ (mem_driverRegs hk)) 2 n 64 le_rfl
  have stored (b : Bool) : Frame w d (d.ovrStored n b h) := (released.wr F.CNV_CTRL_OVR_HAL h n 0 hctrl).flag F.CNV_CTRL_OVR_HAL_EN b n 0 hctrl
  rw [Dev.ovrHalyard_stored hn hh hfree]
  split
  · exact (stored true).recordDriver (hdrv _ (mem_driverRegs hh)) 2 n
  · exact stored false
end
end

/-! ## What follows the drive's part -/

/-- A frame beside what inputs and streams remember. -/
theorem FedOnly.frame {w : List Nat} {a b c : Dev} (h : FedOnly w a b) (hf : Frame w b c) : FedOnly w a c := by
  obtain ⟨_, _, _, _, e⟩ := hf.2.shape
  exact h.trans (.of_records ⟨fun o _ ho hi => hf.1 o ho hi, fun _ _ _ => by rw [e], by rw [e]⟩)

section
variable (d : Dev) {n : Nat} (v : Word)

/-- OVR_BLANK, and the pairing of an even input. -/
def Dev.ctrlStored (d : Dev) (n : Nat) (v : Word) : Dev :=
  if n % 2 = 0 then (d.ovrBlank n (v.getLsbD 1)).pairRequest n (v.getLsbD 0) else d.ovrBlank n (v.getLsbD 1)
theorem Dev.cnvCtrl_free {d : Dev} {v : Word} (h : d.takenByOther (v.field 8 6) 2 n = false) :
    d.cnvCtrl n v = (d.ovrHalyard n (v.getLsbD 2) (v.field 8 6)).ctrlStored n v := by
  unfold Dev.cnvCtrl Dev.ctrlStored
  simp only [h, Bool.and_false, Bool.false_eq_true, if_false]
theorem Dev.cnvCtrl_conflict {d : Dev} {v : Word} (hen : v.getLsbD 2 = true) (h : d.takenByOther (v.field 8 6) 2 n = true) :
    d.cnvCtrl n v = (d.mark F.CNV_STATUS_HAL_CONFLICT n).ctrlStored n v := by
  unfold Dev.cnvCtrl Dev.ctrlStored
  simp only [h, hen, Bool.and_self, if_true]

theorem FedOnly.ctrlStored {w : List Nat} {a b : Dev} (h : FedOnly w a b) (hctrl : F.CNV_CTRL_PAIRED.at_ n 0 ∈ w) (hst : F.CNV_STATUS_STATE.at_ n 0 ∈ w)
    (hnext : n % 2 = 0 → F.CNV_STATUS_STATE.at_ (n + 1) 0 ∈ w) (hcnt : F.CNV_BLANK_LO_BLANK.at_ n 0 ∈ w) : FedOnly w a (b.ctrlStored n v) := by
  have blanked := h.ovrBlank (n := n) (v.getLsbD 1) hctrl hst hcnt
  unfold Dev.ctrlStored
  split
  next heven =>
    refine blanked.frame ((Frame.refl w _).pairRequest ?_)
    intro o ho
    simp only [cnvRegs, List.mem_cons, List.not_mem_nil, or_false] at ho
    rcases ho with rfl | rfl | rfl
    · exact hctrl
    · exact hst
    · exact hnext heven
  next => exact blanked

/-- A field that neither OVR_BLANK nor blanking is. -/
theorem Dev.rd_ovrBlank_apart {f : Fld} (hb : F.CNV_STATUS_BLANKING.apart f = true) (ho : F.CNV_CTRL_OVR_BLANK.apart f = true) (on : Bool) {i : Nat} (hi : i ≤ 8) :
    (d.ovrBlank n on).rd f i = d.rd f i :=
  (Dev.rd_ovrBlank hb d on hi).trans (Dev.blankStored_apart ho d n i on)
/-- What follows leaves the fields that are no part of it. -/
theorem Dev.rd_ctrlStored {f : Fld} (hb : F.CNV_STATUS_BLANKING.apart f = true) (ho : F.CNV_CTRL_OVR_BLANK.apart f = true)
    (hpend : F.CNV_STATUS_PAIR_PENDING.apart f = true) (hctrl : F.CNV_CTRL_PAIRED.apart f = true) (hcode : F.CNV_STATUS_CODE.apart f = true) {i : Nat} (hi : i ≤ 8) :
    (d.ctrlStored n v).rd f i = d.rd f i := by
  unfold Dev.ctrlStored
  split
  · exact (Dev.rd_pairRequest _ _ _ hpend hctrl hcode _).trans (Dev.rd_ovrBlank_apart d hb ho _ hi)
  · exact Dev.rd_ovrBlank_apart d hb ho _ hi
theorem Dev.ctrlStored_blank (hn : n ≤ 8) : (d.ctrlStored n v).rd F.CNV_CTRL_OVR_BLANK n = v.field 1 1 := by
  rw [Word.field_bit]
  unfold Dev.ctrlStored
  split
  · exact (Dev.rd_pairRequest _ _ _ (by decide) (by decide) (by decide) _).trans (Dev.rd_ovrBlank_stored d _ hn)
  · exact Dev.rd_ovrBlank_stored d _ hn
end

/-! ## The pairing of an even input -/

section
variable {d : Dev} {n : Nat} {v : Word} (hn : n < 8) (heven : n % 2 = 0)

/-- What an even input's request finds in force is what the write found. -/
theorem Dev.wanted_iff (hn : n < 8) (on : Bool) : v.getLsbD 0 = (d.ovrBlank n on).is F.CNV_STATUS_PAIRED n ↔ d.rd F.CNV_STATUS_PAIRED n = v.field 0 1 := by
  rw [← Dev.rd_eq_field_iff _ n rfl v 0, Dev.rd_ovrBlank_apart d (by decide) (by decide) on hn.le]

include hn heven

/-- A request for a change while both inputs are STOPPED waits for the tick. -/
theorem Dev.ctrlStored_pairs (hp : d.rd F.CNV_STATUS_PAIR_PENDING n = 0) (h0 : d.cnvState n = 0) (h1 : d.cnvState (n + 1) = 0)
    (hw : d.rd F.CNV_STATUS_PAIRED n ≠ v.field 0 1) : (d.ctrlStored n v).rd F.CNV_STATUS_PAIR_PENDING n = 1 ∧
    (d.ctrlStored n v).rd F.CNV_STATUS_PAIR_PENDING (n + 1) = 1 ∧ (d.ctrlStored n v).rd F.CNV_CTRL_PAIRED n = v.field 0 1 := by
  unfold Dev.ctrlStored
  rw [if_pos heven, Dev.pairRequest_taken ((Dev.rd_ovrBlank_apart d (by decide) (by decide) _ hn.le).trans hp) (mt (Dev.wanted_iff hn _).mp hw)
    ((Dev.rd_ovrBlank_apart d (f := F.CNV_STATUS_STATE) (by decide) (by decide) _ hn.le).trans h0)
    ((Dev.rd_ovrBlank_apart d (f := F.CNV_STATUS_STATE) (by decide) (by decide) _ hn).trans h1)]
  obtain ⟨hn0, hn1⟩ := (d.ovrBlank n (v.getLsbD 1)).pairPend_shows n true
  refine ⟨(Dev.rd_flag_apart (by decide) _ _ _ _).trans hn0, (Dev.rd_flag_apart (by decide) _ _ _ _).trans hn1, ?_⟩
  exact (Dev.rd_flag_same _ _ n (by decide) rfl).trans (Word.field_bit v 0).symm
/-- One while the input is not STOPPED is refused. -/
theorem Dev.ctrlStored_refuses (hp : d.rd F.CNV_STATUS_PAIR_PENDING n = 0) (h0 : d.cnvState n ≠ 0) (hw : d.rd F.CNV_STATUS_PAIRED n ≠ v.field 0 1) :
    (d.ctrlStored n v).rd F.CNV_STATUS_PAIR_PENDING n = 0 ∧ (d.ctrlStored n v).rd F.CNV_STATUS_CODE n = 2 ∧
    (d.ctrlStored n v).rd F.CNV_CTRL_PAIRED n = d.rd F.CNV_CTRL_PAIRED n := by
  have hpend : (d.ovrBlank n (v.getLsbD 1)).rd F.CNV_STATUS_PAIR_PENDING n = 0 := (Dev.rd_ovrBlank_apart d (by decide) (by decide) _ hn.le).trans hp
  have hst : (d.ovrBlank n (v.getLsbD 1)).cnvState n ≠ 0 := fun e =>
    h0 ((Dev.rd_ovrBlank_apart d (f := F.CNV_STATUS_STATE) (by decide) (by decide) _ hn.le).symm.trans e)
  unfold Dev.ctrlStored
  rw [if_pos heven, Dev.pairRequest_refused hpend (mt (Dev.wanted_iff hn _).mp hw) hst]
  exact ⟨(Dev.rd_wr_apart (by decide) _ _ _ _).trans hpend, Dev.cnvCode_code _ n (by decide),
    (Dev.rd_wr_apart (by decide) _ _ _ _).trans (Dev.rd_ovrBlank_apart d (by decide) (by decide) _ hn.le)⟩
/-- One for what is in force withdraws a request that waits. -/
theorem Dev.ctrlStored_withdraws (hp : d.rd F.CNV_STATUS_PAIR_PENDING n = 1) (hw : d.rd F.CNV_STATUS_PAIRED n = v.field 0 1) :
    (d.ctrlStored n v).rd F.CNV_STATUS_PAIR_PENDING n = 0 ∧ (d.ctrlStored n v).rd F.CNV_STATUS_PAIR_PENDING (n + 1) = 0 ∧
    (d.ctrlStored n v).rd F.CNV_CTRL_PAIRED n = v.field 0 1 := by
  unfold Dev.ctrlStored
  rw [if_pos heven, Dev.pairRequest_withdrawn ((Dev.rd_ovrBlank_apart d (by decide) (by decide) _ hn.le).trans hp) ((Dev.wanted_iff hn _).mpr hw)]
  have code {f : Fld} (hf : F.CNV_STATUS_CODE.apart f = true) (e : Dev) (i : Nat) : (e.cnvCode n 0).rd f i = e.rd f i := Dev.rd_wr_apart hf _ _ _ _
  obtain ⟨hn0, hn1⟩ := (d.ovrBlank n (v.getLsbD 1)).pairPend_shows n false
  refine ⟨(code (by decide) _ _).trans ((Dev.rd_flag_apart (by decide) _ _ _ _).trans hn0),
    (code (by decide) _ _).trans ((Dev.rd_flag_apart (by decide) _ _ _ _).trans hn1), (code (by decide) _ _).trans ?_⟩
  exact (Dev.rd_flag_same _ _ n (by decide) rfl).trans (Word.field_bit v 0).symm
end

/-! ## The three answers of the write -/

section
variable {d : Dev} {n : Nat} {v : Word} (hn : n < 8)
include hn

/-- A write whose halyard is free stores its three fields. -/
theorem Dev.cnvCtrl_stores (hfree : d.takenByOther (v.field 8 6) 2 n = false) : (d.cnvCtrl n v).rd F.CNV_CTRL_OVR_HAL n = v.field 8 6 ∧
    (d.cnvCtrl n v).rd F.CNV_CTRL_OVR_HAL_EN n = v.field 2 1 ∧ (d.cnvCtrl n v).rd F.CNV_CTRL_OVR_BLANK n = v.field 1 1 := by
  have hh : v.field 8 6 < 64 := Word.field_lt v 8 6
  rw [Dev.cnvCtrl_free hfree]
  refine ⟨?_, ?_, Dev.ctrlStored_blank _ v hn.le⟩
  · exact (Dev.rd_ctrlStored _ v (by decide) (by decide) (by decide) (by decide) (by decide) hn.le).trans (Dev.ovrHalyard_hal hn hh hfree _)
  · rw [Word.field_bit v 2]
    exact (Dev.rd_ctrlStored _ v (by decide) (by decide) (by decide) (by decide) (by decide) hn.le).trans (Dev.ovrHalyard_enable hn hh hfree _)
theorem FedOnly.cnvCtrl {w : List Nat} (hfree : d.takenByOther (v.field 8 6) 2 n = false) (hctrl : F.CNV_CTRL_PAIRED.at_ n 0 ∈ w)
    (hst : F.CNV_STATUS_STATE.at_ n 0 ∈ w) (hnext : n % 2 = 0 → F.CNV_STATUS_STATE.at_ (n + 1) 0 ∈ w) (hcnt : F.CNV_BLANK_LO_BLANK.at_ n 0 ∈ w)
    (hdrv : ∀ o ∈ driverRegs, o ∈ w) : FedOnly w d (d.cnvCtrl n v) := by
  rw [Dev.cnvCtrl_free hfree]
  exact ((FedOnly.refl w d).frame (Frame.ovrHalyard hn (Word.field_lt v 8 6) hfree _ hctrl hdrv)).ctrlStored v hctrl hst hnext hcnt
/-- The request of an even input is answered on what the write found. -/
theorem Dev.cnvCtrl_pairing (heven : n % 2 = 0) (hfree : d.takenByOther (v.field 8 6) 2 n = false) :
    (d.rd F.CNV_STATUS_PAIR_PENDING n = 0 → d.cnvState n = 0 → d.cnvState (n + 1) = 0 → d.rd F.CNV_STATUS_PAIRED n ≠ v.field 0 1 →
      (d.cnvCtrl n v).rd F.CNV_STATUS_PAIR_PENDING n = 1 ∧ (d.cnvCtrl n v).rd F.CNV_STATUS_PAIR_PENDING (n + 1) = 1 ∧
      (d.cnvCtrl n v).rd F.CNV_CTRL_PAIRED n = v.field 0 1) ∧
    (d.rd F.CNV_STATUS_PAIR_PENDING n = 0 → d.cnvState n ≠ 0 → d.rd F.CNV_STATUS_PAIRED n ≠ v.field 0 1 →
      (d.cnvCtrl n v).rd F.CNV_STATUS_PAIR_PENDING n = 0 ∧ (d.cnvCtrl n v).rd F.CNV_STATUS_CODE n = 2 ∧
      (d.cnvCtrl n v).rd F.CNV_CTRL_PAIRED n = d.rd F.CNV_CTRL_PAIRED n) ∧
    (d.rd F.CNV_STATUS_PAIR_PENDING n = 1 → d.rd F.CNV_STATUS_PAIRED n = v.field 0 1 →
      (d.cnvCtrl n v).rd F.CNV_STATUS_PAIR_PENDING n = 0 ∧ (d.cnvCtrl n v).rd F.CNV_STATUS_PAIR_PENDING (n + 1) = 0 ∧
      (d.cnvCtrl n v).rd F.CNV_CTRL_PAIRED n = v.field 0 1) := by
  have kept {f : Fld} (hhal : F.CNV_CTRL_OVR_HAL.apart f = true) (hen : F.CNV_CTRL_OVR_HAL_EN.apart f = true) {i : Nat} (hi : i ≤ 8) :
      (d.ovrHalyard n (v.getLsbD 2) (v.field 8 6)).rd f i = d.rd f i := Dev.rd_ovrHalyard_apart hn (Word.field_lt v 8 6) hfree _ hhal hen hi
  have hpend := kept (f := F.CNV_STATUS_PAIR_PENDING) (by decide) (by decide) hn.le
  have hpaired := kept (f := F.CNV_STATUS_PAIRED) (by decide) (by decide) hn.le
  have hst {i : Nat} (hi : i ≤ 8) : (d.ovrHalyard n (v.getLsbD 2) (v.field 8 6)).cnvState i = d.cnvState i := kept (by decide) (by decide) hi
  rw [Dev.cnvCtrl_free hfree, ← kept (f := F.CNV_CTRL_PAIRED) (by decide) (by decide) hn.le, ← hpend, ← hpaired, ← hst hn.le, ← hst (i := n + 1) hn]
  exact ⟨Dev.ctrlStored_pairs hn heven, Dev.ctrlStored_refuses hn heven, Dev.ctrlStored_withdraws hn heven⟩
/-- The drive's record of an odd input stands. -/
theorem Dev.cnvCtrl_driver (hodd : n % 2 = 1) (hfree : d.takenByOther (v.field 8 6) 2 n = false) (hen : v.field 2 1 = 1) :
    (d.cnvCtrl n v).hasDriver (v.field 8 6) 2 n = true := by
  have hh : v.field 8 6 < 64 := Word.field_lt v 8 6
  have hbit : v.getLsbD 2 = true := by
    rw [Word.field_bit] at hen
    by_contra h
    rw [if_neg h] at hen
    exact absurd hen (by decide)
  have kept : FedOnly [F.CNV_CTRL_PAIRED.at_ n 0, F.CNV_STATUS_STATE.at_ n 0, F.CNV_BLANK_LO_BLANK.at_ n 0] (d.ovrHalyard n true (v.field 8 6))
      ((d.ovrHalyard n true (v.field 8 6)).ctrlStored n v) :=
    (FedOnly.refl _ _).ctrlStored v (.head _) (.tail _ (.head _)) (fun h => by omega) (.tail _ (.tail _ (.head _)))
  have hout : F.FMR_HAL_DRV_KIND.at_ (v.field 8 6) 0 ∉ [F.CNV_CTRL_PAIRED.at_ n 0, F.CNV_STATUS_STATE.at_ n 0, F.CNV_BLANK_LO_BLANK.at_ n 0] := by
    simp only [List.mem_cons, List.not_mem_nil, or_false, not_or]
    exact ⟨driverReg_ne hh (.inl (cnvReg_low hn.le _ (by decide) rfl)), driverReg_ne hh (.inl (cnvReg_low hn.le _ (by decide) rfl)),
      driverReg_ne hh (.inl (cnvReg_low hn.le _ (by decide) rfl))⟩
  have hlow : F.FMR_HAL_DRV_KIND.at_ (v.field 8 6) 0 < 0x300000 := by
    rw [driverReg_eq]
    omega
  rw [Dev.cnvCtrl_free hfree, hbit]
  exact (Dev.hasDriver_congr (kept.1 _ hlow hout (irqReg_driver hh)) 2 n).trans (Dev.ovrHalyard_driver hn hh hfree)

/-- An enable of a halyard that another driver has shows the conflict; the halyard and the enable stay. -/
theorem Dev.cnvCtrl_turnedAway (hen : v.getLsbD 2 = true) (htaken : d.takenByOther (v.field 8 6) 2 n = true) :
    (d.cnvCtrl n v).rd F.CNV_STATUS_HAL_CONFLICT n = 1 ∧ (d.cnvCtrl n v).rd F.CNV_CTRL_OVR_HAL n = d.rd F.CNV_CTRL_OVR_HAL n ∧
    (d.cnvCtrl n v).rd F.CNV_CTRL_OVR_HAL_EN n = d.rd F.CNV_CTRL_OVR_HAL_EN n ∧ (d.cnvCtrl n v).rd F.CNV_CTRL_OVR_BLANK n = v.field 1 1 ∧
    FedOnly [F.CNV_CTRL_PAIRED.at_ n 0, F.CNV_STATUS_STATE.at_ n 0, F.CNV_STATUS_STATE.at_ (n + 1) 0, F.CNV_BLANK_LO_BLANK.at_ n 0] d (d.cnvCtrl n v) := by
  have kept {f : Fld} (hb : F.CNV_STATUS_BLANKING.apart f = true) (ho : F.CNV_CTRL_OVR_BLANK.apart f = true)
      (hp : F.CNV_STATUS_PAIR_PENDING.apart f = true) (hc : F.CNV_CTRL_PAIRED.apart f = true) (hcode : F.CNV_STATUS_CODE.apart f = true) :
      ((d.mark F.CNV_STATUS_HAL_CONFLICT n).ctrlStored n v).rd f n = (d.mark F.CNV_STATUS_HAL_CONFLICT n).rd f n :=
    Dev.rd_ctrlStored _ v hb ho hp hc hcode hn.le
  have unmarked {f : Fld} (hf : F.CNV_STATUS_HAL_CONFLICT.apart f = true) : (d.mark F.CNV_STATUS_HAL_CONFLICT n).rd f n = d.rd f n :=
    (Dev.rd_setBits _ _ _ _ _ _ _ _).trans (Dev.rd_wr_apart hf _ _ _ _)
  have marked := (Frame.refl [F.CNV_CTRL_PAIRED.at_ n 0, F.CNV_STATUS_STATE.at_ n 0, F.CNV_STATUS_STATE.at_ (n + 1) 0, F.CNV_BLANK_LO_BLANK.at_ n 0] d).mark
    F.CNV_STATUS_HAL_CONFLICT n (.tail _ (.head _))
  rw [Dev.cnvCtrl_conflict hen htaken]
  exact ⟨(kept (by decide) (by decide) (by decide) (by decide) (by decide)).trans (Dev.rd_mark_bit _ _ _ (by decide) rfl),
    (kept (by decide) (by decide) (by decide) (by decide) (by decide)).trans (unmarked (by decide)),
    (kept (by decide) (by decide) (by decide) (by decide) (by decide)).trans (unmarked (by decide)), Dev.ctrlStored_blank _ v hn.le,
    ((FedOnly.refl _ d).frame marked).ctrlStored v (.head _) (.tail _ (.head _)) (fun _ => .tail _ (.tail _ (.head _))) (.tail _ (.tail _ (.tail _ (.head _))))⟩
end

/-! ## The obligation -/

/-- Settles O15: a write of `CNV_CTRL` by its drive's part and what follows it, the anchor tick by its rates, its pairs and its anchors. -/
theorem pairingAndAnchorTicksComplete : Obligations.PairingAndAnchorTicksComplete := by
  unfold Obligations.PairingAndAnchorTicksComplete
  refine ⟨fun s => ⟨rfl, fun hrun n v => exec_host_run (f := fun d => d.cnvCtrl n v) rfl hrun⟩, fun s => ⟨?_, ?_, ?_, ?_, ?_⟩⟩
  · intro n v hrun heven hfree
    obtain ⟨hhal, hen, hblank⟩ := Dev.cnvCtrl_stores n.isLt hfree
    obtain ⟨hpairs, hrefuses, hwithdraws⟩ := Dev.cnvCtrl_pairing n.isLt heven hfree
    exact completes_host (f := fun d => d.cnvCtrl n v) rfl hrun ⟨hhal, hen, hblank, hpairs, hrefuses, hwithdraws,
      FedOnly.cnvCtrl n.isLt hfree (.head _) (.tail _ (.head _)) (fun _ => .tail _ (.tail _ (.head _))) (.tail _ (.tail _ (.tail _ (.head _))))
        fun o ho => List.mem_append_right _ ho⟩
  · intro n v hrun hodd hfree
    obtain ⟨hhal, hen, hblank⟩ := Dev.cnvCtrl_stores n.isLt hfree
    exact completes_host (f := fun d => d.cnvCtrl n v) rfl hrun ⟨hhal, hen, hblank, Dev.cnvCtrl_driver n.isLt hodd hfree,
      FedOnly.cnvCtrl n.isLt hfree (.head _) (.tail _ (.head _)) (fun h => by omega) (.tail _ (.tail _ (.head _))) fun o ho => List.mem_append_right _ ho⟩
  · intro n v hrun hen htaken
    exact completes_host (f := fun d => d.cnvCtrl n v) rfl hrun (Dev.cnvCtrl_turnedAway n.isLt hen htaken)
  · intro h
    exact completes_lift (f := Dev.anchorTick) rfl (Dev.anchorTick_unaligned h)
  · intro h
    refine completes_lift (f := Dev.anchorTick) rfl ?_
    rw [Dev.anchorTick_aligned h]
    obtain ⟨hticks, hrates, -⟩ := s.dev.tick_time (s.dev.time.ticks + 1)
    refine ⟨hticks, s.dev.tick_clk _, hrates, fun c v => s.dev.tick_rate, s.dev.tick_noRate, fun k hp => ?_⟩
    have hmem : ∀ i : Fin 4, 2 * i.val ∈ [0, 2, 4, 6] := by decide
    obtain ⟨heven, hodd, hpaired, hstate, htone⟩ := s.dev.tick_takes (s.dev.time.ticks + 1) (2 * k) (hmem k) hp
    exact ⟨heven, hodd, hpaired, hstate, htone⟩

end Machine
end Sys2Proof
end

