-- ==== Sys2Proof/Proofs/CalibrationRequests.lean ====
section
/-! PROOFS. What CAL, ACCEPT and the start of a queued calibration leave (spec/04_calibration.md, R105, R108; spec/03_inputs.md, R88): settles O16. -/

namespace Sys2Proof
namespace Machine

/-! ## The registers of the CAL block beside those of the inputs -/

/-- A write from the CAL block on leaves the fields of the inputs. -/
theorem Dev.rd_wr_calBlock {f g : Fld} {m k n : Nat} (hf : 0xC8000 ≤ f.at_ m k) (hg : g.ofInput = true) (hn : n < 8) (d : Dev) (v : Nat) :
    (d.wr f v m k).rd g n = d.rd g n := by
  obtain ⟨-, h1, -, -⟩ := Fld.ofInput_iff.mp hg
  refine Dev.rd_wr_ne _ _ _ _ _ _ _ _ ?_
  rw [Fld.at_input hg]
  omega
theorem queuedReg_eq (n : Nat) : F.CAL_IN_STATUS_QUEUED.at_ n 0 = 0xC8100 + n * 0x20 := rfl

/-- A one-bit field is set when it reads 1. -/
theorem Dev.is_eq_decide (d : Dev) {f : Fld} (n : Nat) (hw : f.w = 1) : d.is f n = decide (d.rd f n = 1) := by
  have hlt := Dev.rd_lt d f n 0
  rw [hw] at hlt
  rcases (by omega : d.rd f n = 0 ∨ d.rd f n = 1) with h | h
  · rw [Dev.is_eq_false h, h]
    rfl
  · rw [Dev.is_eq_true h, h]
    rfl

/-- Calibration state that moves leaves every field of a register. -/
theorem Dev.rd_setCal (d : Dev) (c : Cal → Cal) (f : Fld) (n : Nat) : (d.setCal c).rd f n = d.rd f n := rfl

/-- A longer queue aside, what was left stays. -/
theorem Frame.enqueue {w : List Nat} {a b : Dev} (h : Frame w a b) (hcal : b.cal = a.cal) (n : Nat) :
    Frame w a { b.setCal (fun c => { c with queue := c.queue ++ [n] }) with
      cal := { (b.setCal (fun c => { c with queue := c.queue ++ [n] })).cal with queue := a.cal.queue } } := by
  rw [← hcal]
  exact h

/-! ## CAL (R88, R108) -/

section
variable (d : Dev) {n : Nat}

/-- The input shown as CALIBRATING and waiting, its switch at TONE. -/
def Dev.calShown (d : Dev) (n : Nat) : Dev := ((d.wr F.CNV_STATUS_STATE 2 n).flag F.CNV_STATUS_TONE true n).flag F.CAL_IN_STATUS_QUEUED true n

theorem Dev.calShown_state (hn : n < 8) : (d.calShown n).cnvState n = 2 := by
  have htone : ((d.wr F.CNV_STATUS_STATE 2 n).flag F.CNV_STATUS_TONE true n).cnvState n = (d.wr F.CNV_STATUS_STATE 2 n).cnvState n := 
    Dev.rd_flag_apart (by decide) _ _ _ _
  exact (Dev.rd_wr_calBlock (by rw [queuedReg_eq]; omega) (by decide) hn _ _).trans (htone.trans (Dev.rd_wr_fits d n (by decide) (by decide)))
theorem Dev.calShown_tone (hn : n < 8) : (d.calShown n).rd F.CNV_STATUS_TONE n = 1 :=
  (Dev.rd_wr_calBlock (by rw [queuedReg_eq]; omega) (by decide) hn _ _).trans (Dev.rd_flag_same _ true n (by decide) rfl)
theorem Dev.calShown_queued (n : Nat) : (d.calShown n).rd F.CAL_IN_STATUS_QUEUED n = 1 := Dev.rd_flag_same _ true n (by decide) rfl
theorem Dev.calShown_frame (n : Nat) : Frame [F.CNV_STATUS_STATE.at_ n 0, F.CAL_IN_STATUS_QUEUED.at_ n 0] d (d.calShown n) :=
  (((Frame.refl _ d).wr F.CNV_STATUS_STATE 2 n 0 (.head _)).flag F.CNV_STATUS_TONE true n 0 (.head _)).flag
    F.CAL_IN_STATUS_QUEUED true n 0 (.tail _ (.head _))

variable {d}

theorem Dev.calRequest_taken (hhalt : d.halted = false) (hst : d.cnvState n = 0) (hpend : d.rd F.CNV_STATUS_PAIR_PENDING n = 0) :
    d.calRequest n = (d.calShown n).setCal (fun c => { c with queue := c.queue ++ [n] }) := by
  unfold Dev.calRequest
  dsimp only
  rw [hhalt, Dev.is_eq_false hpend, hst]
  rfl
theorem Dev.calRequest_halted (hhalt : d.halted = true) : d.calRequest n = (d.cnvCode n 4).raise 6 (16 + n) := if_pos hhalt
theorem Dev.calRequest_refused {c : Nat} (hhalt : d.halted = false) (h : (d.rd F.CNV_STATUS_PAIR_PENDING n = 1 ∧ c = 1) ∨
    (d.rd F.CNV_STATUS_PAIR_PENDING n = 0 ∧ d.cnvState n = 4 ∧ c = 3) ∨
    (d.rd F.CNV_STATUS_PAIR_PENDING n = 0 ∧ d.cnvState n ≠ 4 ∧ d.cnvState n ≠ 0 ∧ c = 2)) : d.calRequest n = d.cnvCode n c := by
  unfold Dev.calRequest
  dsimp only
  rw [hhalt, if_neg Bool.false_ne_true]
  rcases h with ⟨hpend, rfl⟩ | ⟨hpend, hst, rfl⟩ | ⟨hpend, hodd, hst, rfl⟩
  · rw [Dev.is_eq_true hpend, if_pos rfl]
  · rw [Dev.is_eq_false hpend, if_neg Bool.false_ne_true, if_pos hst]
  · rw [Dev.is_eq_false hpend, if_neg Bool.false_ne_true, if_neg hodd, if_pos (bne_iff_ne.mpr hst)]

/-- CAL in halt is turned away, and that ended a calibration of the input (R115). -/
theorem Dev.calRequest_halted_leaves (hhalt : d.halted = true) (hn : n < 8) : (d.calRequest n).rd F.CNV_STATUS_CODE n = 4 ∧
    (d.calRequest n).cnvState n = d.cnvState n ∧ Raised (d.calRequest n) 6 (16 + n) ∧ Frame [F.CNV_STATUS_STATE.at_ n 0] d (d.calRequest n) := by
  obtain ⟨hcode, hst, hframe⟩ := d.cnvCode_leaves n (code := 4) (by decide)
  rw [Dev.calRequest_halted hhalt]
  exact ⟨(Dev.rd_raise _ _ _ _ _ (by decide) (irqReg_input (by decide) hn.le)).trans hcode,
    (Dev.rd_raise _ _ F.CNV_STATUS_STATE _ _ (by decide) (irqReg_input (by decide) hn.le)).trans hst, raised_raise _ _ (by omega), hframe.raise 6 _ (by decide)⟩
end

/-! ## ACCEPT (R105) -/

section
variable {d : Dev} (n : Nat)

/-- A calibration that measures with input n's ACCEPT. -/
def CalJob.given (n : Nat) (j : CalJob) : CalJob := { j with accept := n :: j.accept.erase n }

/-- ACCEPT is shown as pending, and beside that only the calibration state moves. -/
theorem Dev.calAccept_shape (d : Dev) : ∃ c, d.calAccept n = (d.flag F.CAL_IN_ACCEPT_PENDING true n).setCal (fun _ => c) := by
  unfold Dev.calAccept
  dsimp only
  split <;> exact ⟨_, rfl⟩
theorem Dev.calAccept_waits (hjob : d.cal.job = none) (hsus : d.cal.suspended = []) :
    (d.calAccept n).cal = { d.cal with accepts := n :: d.cal.accepts.erase n } := by
  have hnone : ¬ ((d.cal.job.any fun j => j.input == n || j.cause == 0) || d.cal.suspended.any fun j => j.input == n || j.cause == 0) = true := by
    rw [hjob, hsus]
    exact Bool.false_ne_true
  exact congrArg Dev.cal (if_neg hnone)
theorem Dev.calAccept_measures {j : CalJob} (hjob : d.cal.job = some j) (hin : j.input = n) :
    (d.calAccept n).cal.job = some (j.given n) ∧ (d.calAccept n).cal.accepts = d.cal.accepts := by
  have htakes : (j.input == n || j.cause == 0) = true := by rw [hin, beq_self_eq_true, Bool.true_or]
  unfold Dev.calAccept
  dsimp only
  rw [Dev.flag_cal, hjob, Option.any_some, htakes, Bool.true_or, if_pos rfl]
  refine ⟨?_, rfl⟩
  simp only [Dev.setCal, Dev.flag_cal, hjob, Option.map_some, htakes, if_true]
  rfl

theorem Dev.calAccept_pending (d : Dev) : (d.calAccept n).rd F.CAL_IN_ACCEPT_PENDING n = 1 := by
  obtain ⟨c, h⟩ := d.calAccept_shape n
  rw [h]
  exact Dev.rd_flag_same d true n (by decide) rfl
theorem Dev.calAccept_frame (d : Dev) : Frame [F.CAL_IN_ACCEPT_PENDING.at_ n 0] d { d.calAccept n with cal := d.cal } := by
  obtain ⟨c, h⟩ := d.calAccept_shape n
  rw [h]
  exact (Frame.refl _ d).flag F.CAL_IN_ACCEPT_PENDING true n 0 (.head _)
end

/-! ## The start of a queued calibration (R105, R108) -/

section
variable {d : Dev} {n : Nat} {t : List Nat}

/-- The queue without its head, which no longer shows as waiting. -/
def Dev.unqueued (d : Dev) (n : Nat) (t : List Nat) : Dev := (d.setCal (fun c => { c with queue := t })).flag F.CAL_IN_STATUS_QUEUED false n
/-- A requested calibration as it begins, on the pair or on the input alone. -/
def Dev.requested (d : Dev) (n : Nat) : CalJob := calJob n 1 (decide (d.rd F.CNV_STATUS_PAIRED n = 1)) d.clk

theorem Dev.measureStart_free (hn : n < 8) (hjob : d.cal.job = none) (hq : d.cal.queue = n :: t) : d.measureStart = (d.unqueued n t).calBegin (d.requested n) := by
  have hpaired : (d.unqueued n t).is F.CNV_STATUS_PAIRED n = decide (d.rd F.CNV_STATUS_PAIRED n = 1) := by
    have hrd : (d.unqueued n t).rd F.CNV_STATUS_PAIRED n = d.rd F.CNV_STATUS_PAIRED n := Dev.rd_wr_calBlock (by rw [queuedReg_eq]; omega) (by decide) hn _ _
    rw [Dev.is_eq_decide _ n rfl, hrd]
  unfold Dev.measureStart Dev.requested
  rw [hjob, hq, ← hpaired]
  rfl
theorem Dev.measureStart_idle (h : d.cal.job ≠ none ∨ d.cal.queue = []) : d.measureStart = d := by
  unfold Dev.measureStart
  split
  next hjob hq => simp [hjob, hq] at h
  next => rfl
/-- The converters of a requested calibration: the input, and the odd one of its pair. -/
theorem Dev.requested_convs (d : Dev) (n : Nat) : (d.requested n).convs = n :: if d.rd F.CNV_STATUS_PAIRED n = 1 then [n + 1] else [] := by
  unfold Dev.requested calJob CalJob.convs
  by_cases h : d.rd F.CNV_STATUS_PAIRED n = 1 <;> simp [h]
theorem Dev.unqueued_queued (d : Dev) (n : Nat) (t : List Nat) : (d.unqueued n t).rd F.CAL_IN_STATUS_QUEUED n = 0 := Dev.rd_flag_same _ false n (by decide) rfl
end

/-! ## The obligation -/

/-- Settles O16: CAL by what it shows or the code of its refusal, ACCEPT by the calibration that takes it, the start by the job it begins. -/
theorem calibrationRequestsComplete : Obligations.CalibrationRequestsComplete := by
  unfold Obligations.CalibrationRequestsComplete
  refine ⟨fun s => ⟨rfl, fun hrun => ⟨fun n => exec_host_run (f := fun d => d.calRequest n) rfl hrun,
    fun n => exec_host_run (f := fun d => d.calAccept n) rfl hrun⟩⟩, fun s n => ⟨?_, ?_, ?_, ?_, ?_⟩⟩
  · intro hrun hhalt hst hpend
    refine completes_host (f := fun d => d.calRequest n) rfl hrun ?_
    rw [Dev.calRequest_taken hhalt hst hpend]
    exact ⟨(Dev.rd_setCal _ _ _ _).trans (s.dev.calShown_state n.isLt), (Dev.rd_setCal _ _ _ _).trans (s.dev.calShown_tone n.isLt),
      (Dev.rd_setCal _ _ _ _).trans (s.dev.calShown_queued n), rfl, (s.dev.calShown_frame n).enqueue rfl n⟩
  · intro c hrun h
    refine completes_host (f := fun d => d.calRequest n) rfl hrun ?_
    rcases h with ⟨hhalt, rfl⟩ | h
    · obtain ⟨hcode, hst, hraised, hframe⟩ := Dev.calRequest_halted_leaves hhalt n.isLt
      exact ⟨hcode, hst, fun _ => hraised, hframe⟩
    · have hhalt : s.dev.halted = false := by rcases h with ⟨h, -⟩ | ⟨h, -⟩ | ⟨h, -⟩ <;> exact h
      have hsmall : c < 4 := by omega
      obtain ⟨hcode, hst, hframe⟩ := s.dev.cnvCode_leaves n (code := c) (by omega)
      rw [Dev.calRequest_refused hhalt (h.imp And.right (.imp And.right And.right))]
      exact ⟨hcode, hst, fun h4 => by omega, hframe⟩
  · intro hrun
    refine completes_host (f := fun d => d.calAccept n) rfl hrun ?_
    exact ⟨Dev.calAccept_pending n _, Dev.calAccept_waits n, fun j => Dev.calAccept_measures n,
      Dev.calAccept_frame n _⟩
  · intro t hjob hq
    refine completes_lift (f := Dev.measureStart) rfl ?_
    rw [Dev.measureStart_free n.isLt hjob hq]
    have hconvs := s.dev.requested_convs n
    refine ⟨rfl, (Dev.rd_setCal _ _ _ _).trans (Dev.unqueued_queued _ _ _), ⟨?_, ?_⟩, ?_⟩
    · rw [← hconvs]
      rfl
    · rw [← hconvs]
      rfl
    · exact (Frame.refl _ s.dev).flag F.CAL_IN_STATUS_QUEUED false n 0 (.head _)
  · intro h
    exact completes_lift (f := Dev.measureStart) rfl (Dev.measureStart_idle h)

end Machine
end Sys2Proof
end

