-- ==== Sys2Proof/Proofs/CalibrationStages.lean ====
section
/-! PROOFS. What the end of the switch-and-settle and of a stage leave (spec/04_calibration.md, R99, R103, R105): settles O17. -/

namespace Sys2Proof
namespace Machine

/-! ## Stale items shown (R104) -/

/-- `b` is `a` but for its registers and what the inputs themselves remember. -/
def ShownOnly (a b : Dev) : Prop := ∃ r p, b = { a with regs := r, inputs := p }

namespace ShownOnly
variable {a b c : Dev}

theorem refl (a : Dev) : ShownOnly a a := ⟨a.regs, a.inputs, rfl⟩
theorem trans (h1 : ShownOnly a b) (h2 : ShownOnly b c) : ShownOnly a c := by
  obtain ⟨_, _, rfl⟩ := h1
  obtain ⟨r, p, rfl⟩ := h2
  exact ⟨r, p, rfl⟩
theorem cal (h : ShownOnly a b) : b.cal = a.cal := by obtain ⟨_, _, rfl⟩ := h; rfl
theorem clk (h : ShownOnly a b) : b.clk = a.clk := by obtain ⟨_, _, rfl⟩ := h; rfl

theorem ite (p : Prop) [Decidable p] {x y : Dev} (hx : ShownOnly a x) (hy : ShownOnly a y) : ShownOnly a (if p then x else y) := by
  split <;> assumption
theorem foldl {α : Type} {f : Dev → α → Dev} (hf : ∀ (b : Dev) (x : α), ShownOnly a b → ShownOnly a (f b x)) (l : List α) (h : ShownOnly a b) :
    ShownOnly a (l.foldl f b) :=
  List.foldlRecOn l f h fun c hc x _ => hf c x hc
theorem wr (h : ShownOnly a b) (f : Fld) (v n m : Nat) : ShownOnly a (b.wr f v n m) := h.trans ⟨_, _, rfl⟩
theorem flag (h : ShownOnly a b) (f : Fld) (v : Bool) (n m : Nat) : ShownOnly a (b.flag f v n m) := h.wr f _ n m
theorem setInput (h : ShownOnly a b) (n : Nat) (f : Input → Input) : ShownOnly a (b.setInput n f) := h.trans ⟨_, _, rfl⟩
theorem flagging (n : Nat) {f : Dev → Dev} (hf : ShownOnly a (f b)) : ShownOnly a (b.flagging n f) := ite _ hf (hf.setInput n _)
theorem showSlots (h : ShownOnly a b) (n : Nat) : ShownOnly a (b.showSlots n) := foldl (fun _ s hc => hc.flag F.CNV_SLOT_STALE _ n s) _ h
theorem showStale (h : ShownOnly a b) (n : Nat) : ShownOnly a (b.showStale n) := by
  have slots : ShownOnly a ((b.showSlots n).showSlots (if b.is F.CNV_STATUS_PAIRED n then n + 1 else n)) := (h.showSlots n).showSlots _
  unfold Dev.showStale
  dsimp only
  refine flagging n ?_
  exact slots.flag F.CNV_STATUS_CAL_STALE _ n 0
theorem showPair (h : ShownOnly a b) (n : Nat) : ShownOnly a (b.showPair n) := (h.showStale _).showStale _
end ShownOnly

/-! ## What a stage's work leaves of its calibration -/

/-- What a stage's work leaves alone of a calibration: whose it is, its cause, the stages still to run, the clocks they count from. -/
def CalJob.plan (j : CalJob) : Nat × Nat × List CalStage × Nat × Nat := (j.input, j.cause, j.todo, j.since, j.start)

/-- The calibration in hand goes on as it did, at the same clock. -/
structure PlanKept (a b : Dev) : Prop where
  clk : b.clk = a.clk
  job : b.cal.job.map CalJob.plan = a.cal.job.map CalJob.plan

namespace PlanKept
variable {a b c : Dev}

theorem refl (a : Dev) : PlanKept a a := ⟨rfl, rfl⟩
/-- A change of anything else. -/
theorem other (h : PlanKept a b) (hclk : c.clk = b.clk) (hcal : c.cal = b.cal) : PlanKept a c := ⟨hclk.trans h.clk, hcal ▸ h.job⟩
theorem shown (h : PlanKept a b) (hs : ShownOnly b c) : PlanKept a c := h.other hs.clk hs.cal
theorem ite (p : Prop) [Decidable p] {x y : Dev} (hx : PlanKept a x) (hy : PlanKept a y) : PlanKept a (if p then x else y) := by
  split <;> assumption
theorem foldl {α : Type} {f : Dev → α → Dev} (hf : ∀ (b : Dev) (x : α), PlanKept a b → PlanKept a (f b x)) (l : List α) (h : PlanKept a b) :
    PlanKept a (l.foldl f b) :=
  List.foldlRecOn l f h fun c hc x _ => hf c x hc
theorem wr (h : PlanKept a b) (f : Fld) (v n m : Nat) : PlanKept a (b.wr f v n m) := h.other rfl rfl
theorem inc (h : PlanKept a b) (f : Fld) (n m k : Nat) : PlanKept a (b.inc f n m k) := h.other rfl rfl
theorem flag (h : PlanKept a b) (f : Fld) (v : Bool) (n m : Nat) : PlanKept a (b.flag f v n m) := h.other rfl rfl
theorem raise (h : PlanKept a b) (g s : Nat) : PlanKept a (b.raise g s) := h.other (Dev.raise_clk _ _ _) (Dev.raise_cal _ _ _)
theorem setCal (h : PlanKept a b) (f : Cal → Cal) (hf : (f b.cal).job = b.cal.job) : PlanKept a (b.setCal f) :=
  ⟨h.clk, (congrArg (Option.map CalJob.plan) hf).trans h.job⟩
theorem setJob (h : PlanKept a b) (f : CalJob → CalJob) (hf : ∀ j, (f j).plan = j.plan) : PlanKept a (b.setJob f) := by
  have hcomp : CalJob.plan ∘ f = CalJob.plan := funext hf
  refine ⟨h.clk, Eq.trans ?_ h.job⟩
  show (b.cal.job.map f).map CalJob.plan = _
  rw [Option.map_map, hcomp]

theorem storeRepair (h : PlanKept a b) (l : List Nat) : PlanKept a (b.storeRepair l) := by
  have noted (n : Nat) := foldl (f := fun d o => d.nvsNote o n) (fun _ _ hc => hc.other rfl rfl) [0, 0x4000, 0x8000] h
  have stored {c : Dev} (hc : PlanKept a c) (x : Repair) (m : Mem) : PlanKept a { c with repair := x, nvs := m } := hc.other rfl rfl
  unfold Dev.storeRepair
  dsimp only
  exact foldl (fun _ _ hc => hc.wr _ _ _ _) _ (((stored (noted _) _ _).wr _ _ _ _).wr _ _ _ _)
theorem fieldRetire (h : PlanKept a b) (kind cause loc : Nat) : PlanKept a (b.fieldRetire kind cause loc) := by
  have full : PlanKept a (b.mark F.RPR_STATUS_FULL) := h.other rfl rfl
  unfold Dev.fieldRetire
  exact ite _ h (ite _ (full.raise _ _) ((h.storeRepair _).raise _ _))

/-! ## Results, swaps and copies -/

theorem calResult (h : PlanKept a b) (accept : Bool) (k : Nat) (v : Int) : PlanKept a (b.calResult accept k v) := by
  unfold Dev.calResult
  dsimp only
  split
  · split
    · exact (((h.setJob _ fun _ => by rfl).setCal _ (by rfl))).setCal _ (by rfl)
    · exact (h.setJob _ fun _ => by rfl).setCal _ (by rfl)
  · exact h.setJob _ fun _ => by rfl
theorem keepSlice (h : PlanKept a b) (n set p : Nat) : PlanKept a (b.keepSlice n set p) := foldl (fun _ _ hc => hc.setJob _ fun _ => by rfl) _ h
theorem swapSlot (h : PlanKept a b) (n set s cause : Nat) : PlanKept a (b.swapSlot n set s cause) := by
  unfold Dev.swapSlot
  dsimp only
  split
  · exact (((h.keepSlice n set _).setCal _ (by rfl)).flag _ _ _ _).raise _ _
  · refine fieldRetire (inc (wr (ite _ (wr (flag ?_ _ _ _ _) _ _ _ _) ?_) _ _ _ _) _ _ _ _) _ _ _ <;>
      exact (((((h.wr _ _ _ _).wr _ _ _ _).flag _ _ _ _).wr _ _ _ _).wr _ _ _ _).wr _ _ _ _
theorem swapStage (h : PlanKept a b) (n set : Nat) (l : List Nat) : PlanKept a (b.swapStage n set l) :=
  foldl (fun _ _ hc => ite _ (hc.swapSlot _ _ _ _) hc) _ (h.setCal _ (by rfl))
theorem copyItem (h : PlanKept a b) (n p c : Nat) : PlanKept a (b.copyItem n p c) := by
  unfold Dev.copyItem
  dsimp only
  split
  · exact h
  · exact ite _ ((h.setJob _ fun _ => by rfl).setCal _ (by rfl)) (h.setJob _ fun _ => by rfl)
theorem copySet (h : PlanKept a b) (n : Nat) : PlanKept a (b.copySet n) := foldl (fun _ _ hc => foldl (fun _ _ he => he.copyItem _ _ _) _ hc) _ h
theorem tempStage (h : PlanKept a b) (res : List Int) : PlanKept a (b.tempStage res) := (h.setCal _ (by rfl)).flag _ _ _ _
end PlanKept

/-! ## The parts of a stage's end (R99–R103) -/

section
variable (d : Dev) (g : CalStage) (j : CalJob) (res : List Int)

/-- The unpaired trims copied before a joint stage 5 of power-up (R101). -/
def Dev.stageCopied : Dev := if g.no = 5 ∧ j.cause = 0 ∧ g.set = 1 then (d.copySet g.conv).copySet (g.conv + 1) else d
/-- Whether the calibration takes results of the stage beyond DELTA (R105). -/
def CalJob.accepts (j : CalJob) (g : CalStage) : Bool := j.accept.contains (if g.set = 1 then g.conv - g.conv % 2 else g.conv)
/-- The stage's results checked one by one. -/
def Dev.stageResults : Dev := (d.stageItems g).zipIdx.foldl (fun d p => d.calResult (j.accepts g) p.1 (res.getD p.2 (d.calArch p.1))) d
/-- The response phase of a point follows its level. -/
def Dev.phaseResult (d : Dev) (conv i : Nat) (v : Int) : Dev :=
  d.setJob (fun j => if j.good.any (·.1 == itemLevel conv i) then { j with good := j.good ++ [(itemPhase conv i, v)] }
    else { j with kept := j.kept ++ [(itemPhase conv i, d.calArch (itemPhase conv i))] })
/-- What stages 7, 8 and 9 do beside their checked results. -/
def Dev.stageOwn : Dev :=
  if g.no = 7 then (List.range 64).foldl (fun d i => d.phaseResult g.conv i (res.getD (95 + i) (d.calArch (itemPhase g.conv i)))) d
  else if g.no = 8 then (match d.cal.job with | some j => d.swapStage g.conv g.set j.outside | none => d)
  else if g.no = 9 then d.tempStage res
  else d
/-- The stale items the stage may have moved shown. -/
def Dev.stageShown : Dev := if g.no = 2 then (List.range 8).foldl (fun d n => d.showStale n) d else d.showPair g.conv
/-- The engine when the work of the stage is over. -/
def Dev.stageWorked : Dev := ((((d.advanceTo (j.since + stageClocks g.no)).stageCopied g j).stageResults g j res).stageOwn g res).stageShown g

variable {d g j}

theorem Dev.stageEnd_worked {t : List CalStage} (hjob : d.cal.job = some j) (htodo : j.todo = g :: t) (hno : g.no ≠ 0) :
    d.stageEnd res = (d.stageWorked g j res).calNext := by
  unfold Dev.stageEnd
  rw [hjob]
  dsimp only
  rw [htodo]
  dsimp only
  rw [if_neg hno]
  rfl
theorem PlanKept.stageWorked : PlanKept (d.advanceTo (j.since + stageClocks g.no)) (d.stageWorked g j res) := by
  have copied : PlanKept _ ((d.advanceTo (j.since + stageClocks g.no)).stageCopied g j) := .ite _ (((PlanKept.refl _).copySet _).copySet _) (.refl _)
  have checked : PlanKept _ (((d.advanceTo (j.since + stageClocks g.no)).stageCopied g j).stageResults g j res) :=
    .foldl (fun _ _ hc => hc.calResult _ _ _) _ copied
  have own : PlanKept (d.advanceTo (j.since + stageClocks g.no))
      ((((d.advanceTo (j.since + stageClocks g.no)).stageCopied g j).stageResults g j res).stageOwn g res) := by
    unfold Dev.stageOwn
    refine .ite _ (.foldl (fun _ _ hc => hc.setJob _ fun x => ?_) _ checked) (.ite _ ?_ (.ite _ (checked.tempStage _) checked))
    · split <;> rfl
    · split
      · exact checked.swapStage _ _ _
      · exact checked
  exact own.shown (.ite _ (.foldl (fun _ _ hc => hc.showStale _) _ (.refl _)) ((ShownOnly.refl _).showPair _))
end

/-! ## The next stage begins (R99, R108) -/

/-- With the calibration state set aside, a frame over a change of it. -/
theorem Frame.calAside {w : List Nat} {a b : Dev} {f : Cal → Cal} (h : Frame w (a.setCal f) b) : Frame w a { b with cal := a.cal } := by
  have honly := congrArg (fun x : Dev => { x with cal := a.cal }) h.2
  exact ⟨h.1, honly⟩

/-- Time that passed and the calibration state are set aside in either order. -/
theorem Frame.atTimeCal {w : List Nat} {a b : Dev} {c : Cal} (h : Frame w a { b with cal := c }) (d : Dev) :
    Frame w (a.atTime d) { b.atTime d with cal := c } := h.atTime d

section
variable {g h : CalStage} {j : CalJob} {rest : List CalStage}

/-- The calibration at the start of its next stage. -/
def CalJob.nextAt (j : CalJob) (clk : Nat) : CalJob := { j with todo := j.todo.tail, since := clk }
theorem CalJob.nextAt_eq (htodo : j.todo = g :: h :: rest) (clk : Nat) : j.nextAt clk = { j with todo := h :: rest, since := clk } := by
  unfold CalJob.nextAt
  rw [htodo]
  rfl
/-- Stage h of the calibration begins. -/
def Dev.stageBegun (d : Dev) (j : CalJob) (h : CalStage) : Dev :=
  (d.setCal (fun c => { c with job := some (j.nextAt d.clk) })).wr F.CAL_STATUS_ENGINE_INPUT h.conv

theorem Dev.calNext_more {d : Dev} (hjob : d.cal.job = some j) (htodo : j.todo = g :: h :: rest) : d.calNext = d.stageBegun j h := by
  have hset : d.setJob (fun j => { j with todo := j.todo.tail, since := d.clk }) = d.setCal (fun c => { c with job := some (j.nextAt d.clk) }) := by
    simp only [Dev.setJob, Dev.setCal, hjob, Option.map_some]
    rfl
  have hnext : (j.nextAt d.clk).todo = h :: rest := by rw [CalJob.nextAt_eq htodo]
  unfold Dev.calNext
  rw [hset]
  simp only [Dev.setCal, hnext]
  rfl

variable (d : Dev)

theorem Dev.stageBegun_cal (j : CalJob) (h : CalStage) : (d.stageBegun j h).cal = { d.cal with job := some (j.nextAt d.clk) } := rfl
theorem Dev.stageBegun_clk (j : CalJob) (h : CalStage) : (d.stageBegun j h).clk = d.clk := Dev.wr_clk _ _ _ _ _
theorem Dev.stageBegun_input (j : CalJob) (h : CalStage) : (d.stageBegun j h).rd F.CAL_STATUS_ENGINE_INPUT = h.conv % 8 :=
  Dev.rd_wr_same _ _ _ _ _ (by decide)
theorem Dev.stageBegun_frame (j : CalJob) (h : CalStage) :
    Frame [F.CAL_STATUS_ENGINE_BUSY.at_ 0 0] (d.setCal (fun c => { c with job := some (j.nextAt d.clk) })) (d.stageBegun j h) :=
  (Frame.refl _ _).wr F.CAL_STATUS_ENGINE_INPUT h.conv 0 0 (.head _)

/-- The first stage begins, and the engine shows as in use. -/
def Dev.settled (d : Dev) (j : CalJob) (h : CalStage) : Dev := (d.stageBegun j h).flag F.CAL_STATUS_ENGINE_BUSY true

theorem Dev.settled_cal (j : CalJob) (h : CalStage) : (d.settled j h).cal = { d.cal with job := some (j.nextAt d.clk) } :=
  (Dev.flag_cal _ _ _ _ _).trans (d.stageBegun_cal j h)
theorem Dev.settled_clk (j : CalJob) (h : CalStage) : (d.settled j h).clk = d.clk := (Dev.flag_clk _ _ _ _ _).trans (d.stageBegun_clk j h)
theorem Dev.settled_busy (j : CalJob) (h : CalStage) : (d.settled j h).rd F.CAL_STATUS_ENGINE_BUSY = 1 := Dev.rd_flag_same _ true 0 (by decide) rfl
theorem Dev.settled_input (j : CalJob) (h : CalStage) : (d.settled j h).rd F.CAL_STATUS_ENGINE_INPUT = h.conv % 8 :=
  (Dev.rd_wr_field _ F.CAL_STATUS_ENGINE_BUSY _ _ _ _ _ _ (by decide) (.inl (by decide))).trans (d.stageBegun_input j h)
theorem Dev.settled_frame (j : CalJob) (h : CalStage) : Frame [F.CAL_STATUS_ENGINE_BUSY.at_ 0 0] d { d.settled j h with cal := d.cal } :=
  ((d.stageBegun_frame j h).flag F.CAL_STATUS_ENGINE_BUSY true 0 0 (.head _)).calAside

variable {d}

theorem Dev.settleEnd_settled (hjob : d.cal.job = some j) (htodo : j.todo = g :: h :: rest) (hno : g.no = 0) :
    d.settleEnd = (d.advanceTo (j.since + 2000000)).settled j h := by
  have hadv : (d.advanceTo (j.since + 2000000)).cal.job = some j := by rw [Dev.advanceTo_cal, hjob]
  unfold Dev.settleEnd Dev.settled
  rw [← Dev.calNext_more hadv htodo, hjob]
  dsimp only
  rw [htodo]
  dsimp only
  rw [if_pos hno]
  rfl
theorem Dev.settleEnd_idle (hjob : d.cal.job = some j) (htodo : j.todo = g :: h :: rest) (hno : g.no ≠ 0) : d.settleEnd = d := by
  unfold Dev.settleEnd
  rw [hjob]
  dsimp only
  rw [htodo]
  exact if_neg hno

/-- The switch-and-settle takes 2 ms, and the first stage begins on the input it names. -/
theorem Dev.settleEnd_goesOn (hjob : d.cal.job = some j) (htodo : j.todo = g :: h :: rest) (hno : g.no = 0) :
    d.settleEnd.clk = max d.clk (j.since + 2000000) ∧ d.settleEnd.rd F.CAL_STATUS_ENGINE_BUSY = 1 ∧ d.settleEnd.rd F.CAL_STATUS_ENGINE_INPUT = h.conv % 8 ∧
    d.settleEnd.cal = { d.cal with job := some { j with todo := h :: rest, since := d.settleEnd.clk } } ∧
    Frame [F.CAL_STATUS_ENGINE_BUSY.at_ 0 0] d { d.settleEnd.atTime d with cal := d.cal } := by
  have hclk := d.advanceTo_clk (j.since + 2000000)
  have hcal := d.advanceTo_cal (j.since + 2000000)
  have hstart : (d.advanceTo (j.since + 2000000)).atTime d = d := d.atTime_advance _
  rw [Dev.settleEnd_settled hjob htodo hno]
  generalize d.advanceTo (j.since + 2000000) = b at hclk hcal hstart
  have hframe := (b.settled_frame j h).atTimeCal d
  rw [hstart, hcal] at hframe
  refine ⟨(b.settled_clk j h).trans hclk, b.settled_busy j h, b.settled_input j h, ?_, hframe⟩
  rw [b.settled_cal j h, b.settled_clk j h, CalJob.nextAt_eq htodo, hcal]
end

/-! ## The crystal check (R99, R103, R105) -/

section
variable {d : Dev} {g h : CalStage} {j : CalJob} {rest : List CalStage} {v : Int}

theorem Dev.calCheck_advanceTo (d : Dev) (c k : Nat) (v : Int) (accept : Bool) : (d.advanceTo c).calCheck k v accept = d.calCheck k v accept := by
  simp only [Dev.calCheck, Dev.rdInt, Dev.rd_advanceTo, Dev.calArch, Dev.advanceTo_cal]
  rfl
/-- A result that passes joins the good ones. -/
theorem Dev.calResult_passes {accept : Bool} {k : Nat} (hc : d.calCheck k v accept = (false, false)) :
    d.calResult accept k v = d.setJob (fun j => { j with good := j.good ++ [(k, v)] }) := by
  unfold Dev.calResult
  rw [hc]
  rfl
/-- A result outside the window of an item that is no trim leaves the archived value, and the item is stale. -/
theorem Dev.calResult_outside {accept far : Bool} {k : Nat} (hk : ¬ k < 4352) (hc : d.calCheck k v accept = (true, far)) :
    d.calResult accept k v = (d.setJob (fun j => { j with good := j.good.filter (·.1 != k), kept := j.kept ++ [(k, d.calArch k)] })).setCal
      (fun c => { c with stale := c.stale.put k () }) := by
  unfold Dev.calResult
  rw [hc]
  simp [hk]
/-- Stage 1 checks the crystal's offset and nothing else. -/
theorem Dev.stageWorked_crystal (hno : g.no = 1) : d.stageWorked g j [v] =
    ((d.advanceTo (j.since + stageClocks g.no)).calResult (j.accepts g) itemCrystal v).showPair g.conv := by
  have copied (b : Dev) : b.stageCopied g j = b := if_neg fun h => by omega
  have results (b : Dev) : b.stageResults g j [v] = b.calResult (j.accepts g) itemCrystal v := by
    have hitems : b.stageItems g = [itemCrystal] := by
      unfold Dev.stageItems
      rw [hno]
      rfl
    unfold Dev.stageResults
    rw [hitems]
    rfl
  have own (b : Dev) : b.stageOwn g [v] = b := by
    unfold Dev.stageOwn
    rw [if_neg (by omega), if_neg (by omega), if_neg (by omega)]
  have shown (b : Dev) : b.stageShown g = b.showPair g.conv := if_neg (by omega)
  rw [Dev.stageWorked, copied, results, own, shown]

/-- A crystal offset inside its window and close to the archive, or accepted, is a good result. -/
theorem Dev.crystal_passes (hjob : d.cal.job = some j) (htodo : j.todo = g :: h :: rest) (hno : g.no = 1)
    (hwin : d.rdInt F.CAL_LIMIT_MIN_MIN 6 ≤ v ∧ v ≤ d.rdInt F.CAL_LIMIT_MAX_MAX 6)
    (hnear : (v - d.calArch itemCrystal).natAbs ≤ d.rd F.CAL_LIMIT_DELTA_DELTA 6 ∨ j.accepts g = true) :
    (d.stageEnd [v]).cal.job.map (·.good) = some (j.good ++ [(itemCrystal, v)]) ∧ (d.stageEnd [v]).calStale itemCrystal = d.calStale itemCrystal := by
  have hcheck : (d.advanceTo (j.since + stageClocks g.no)).calCheck itemCrystal v (j.accepts g) = (false, false) := by
    obtain ⟨hmin, hmax⟩ := hwin
    rw [Dev.calCheck_advanceTo]
    have hclass : itemClass itemCrystal = 6 := rfl
    simp only [Dev.calCheck, hclass, Prod.mk.injEq, Bool.or_eq_false_iff, decide_eq_false_iff_not, Bool.and_eq_false_iff, Bool.not_eq_false', not_lt]
    exact ⟨⟨hmin, hmax⟩, hnear.symm⟩
  have hcal : (d.stageWorked g j [v]).cal = { d.cal with job := some { j with good := j.good ++ [(itemCrystal, v)] } } := by
    rw [Dev.stageWorked_crystal hno, ((ShownOnly.refl _).showPair _).cal, Dev.calResult_passes hcheck]
    simp only [Dev.setJob, Dev.setCal, Dev.advanceTo_cal, hjob]
    rfl
  rw [Dev.stageEnd_worked [v] hjob htodo (by omega), Dev.calNext_more (congrArg Cal.job hcal) htodo, Dev.calStale, Dev.stageBegun_cal, hcal]
  exact ⟨rfl, rfl⟩
/-- A crystal offset outside its window leaves the archived value, and the item is stale. -/
theorem Dev.crystal_fails (hjob : d.cal.job = some j) (htodo : j.todo = g :: h :: rest) (hno : g.no = 1)
    (hwin : v < d.rdInt F.CAL_LIMIT_MIN_MIN 6 ∨ d.rdInt F.CAL_LIMIT_MAX_MAX 6 < v) :
    (d.stageEnd [v]).cal.job.map (·.kept) = some (j.kept ++ [(itemCrystal, d.calArch itemCrystal)]) ∧ (d.stageEnd [v]).calStale itemCrystal = true := by
  obtain ⟨far, hcheck⟩ : ∃ far, (d.advanceTo (j.since + stageClocks g.no)).calCheck itemCrystal v (j.accepts g) = (true, far) := by
    rw [Dev.calCheck_advanceTo]
    refine ⟨_, Prod.ext ?_ rfl⟩
    show (decide _ || decide _) = true
    rw [Bool.or_eq_true, decide_eq_true_eq, decide_eq_true_eq]
    exact hwin
  have hcal : (d.stageWorked g j [v]).cal = { d.cal with
      job := some { j with good := j.good.filter (·.1 != itemCrystal), kept := j.kept ++ [(itemCrystal, d.calArch itemCrystal)] },
      stale := d.cal.stale.put itemCrystal () } := by
    rw [Dev.stageWorked_crystal hno, ((ShownOnly.refl _).showPair _).cal, Dev.calResult_outside (by decide) hcheck]
    simp only [Dev.setJob, Dev.setCal, Dev.calArch, Dev.advanceTo_cal, hjob]
    rfl
  rw [Dev.stageEnd_worked [v] hjob htodo (by omega), Dev.calNext_more (congrArg Cal.job hcal) htodo, Dev.calStale, Dev.stageBegun_cal, hcal]
  exact ⟨rfl, by rw [Tab.get?_put_same, Option.isSome_some]⟩
end

/-! ## The end of a stage (R99) -/

section
variable {d : Dev} {g h : CalStage} {j : CalJob} {rest : List CalStage}

/-- A stage takes its time, and the next begins on the input it names. -/
theorem Dev.stageEnd_goesOn (res : List Int) (hjob : d.cal.job = some j) (htodo : j.todo = g :: h :: rest) (hno : g.no ≠ 0) :
    (d.stageEnd res).clk = max d.clk (j.since + stageClocks g.no) ∧ (d.stageEnd res).rd F.CAL_STATUS_ENGINE_INPUT = h.conv % 8 ∧
    (d.stageEnd res).cal.job.map (fun x => (x.input, x.cause, x.todo, x.since, x.start)) = some (j.input, j.cause, h :: rest, (d.stageEnd res).clk, j.start) := by
  have kept := PlanKept.stageWorked (d := d) (g := g) (j := j) res
  have hplan : (d.stageWorked g j res).cal.job.map CalJob.plan = some j.plan := by
    rw [kept.job, Dev.advanceTo_cal, hjob]
    rfl
  obtain ⟨x, hx, hxj⟩ := Option.map_eq_some_iff.mp hplan
  simp only [CalJob.plan, Prod.mk.injEq] at hxj
  obtain ⟨hinput, hcause, hxtodo, -, hstart⟩ := hxj
  rw [htodo] at hxtodo
  rw [Dev.stageEnd_worked res hjob htodo hno, Dev.calNext_more hx hxtodo]
  refine ⟨(Dev.stageBegun_clk _ x h).trans (kept.clk.trans (Dev.advanceTo_clk _ _)), Dev.stageBegun_input _ x h, ?_⟩
  rw [Dev.stageBegun_cal, CalJob.nextAt_eq hxtodo, Dev.stageBegun_clk, ← hinput, ← hcause, ← hstart]
  rfl
end

/-! ## The obligation -/

/-- Settles O17: the end of the settling and of a stage by the stage that follows, a result of the crystal check by its window and the archive. -/
theorem calibrationStagesComplete : Obligations.CalibrationStagesComplete := by
  unfold Obligations.CalibrationStagesComplete
  refine ⟨fun s => ⟨rfl, fun _ => rfl⟩, fun s j g h rest hjob htodo => ⟨?_, ?_, ?_, ?_, ?_⟩⟩
  · exact fun hno => completes_lift (f := Dev.settleEnd) rfl (Dev.settleEnd_goesOn hjob htodo hno)
  · exact fun hno => completes_lift (f := Dev.settleEnd) rfl (Dev.settleEnd_idle hjob htodo hno)
  · exact fun res hno => completes_lift (f := fun d => d.stageEnd res) rfl (Dev.stageEnd_goesOn res hjob htodo hno)
  · exact fun v hno hwin hnear => completes_lift (f := fun d => d.stageEnd [v]) rfl (Dev.crystal_passes hjob htodo hno hwin hnear)
  · exact fun v hno hwin => completes_lift (f := fun d => d.stageEnd [v]) rfl (Dev.crystal_fails hjob htodo hno hwin)

end Machine
end Sys2Proof
end

