-- ==== Sys2Proof/Proofs/CalibrationEnds.lean ====
section
/-! PROOFS. What the end of an archive write, the return of the switch from a slot and a reading of the die temperature leave (spec/04_calibration.md, R103,
R105, R106, R108, R109, R112, R113; spec/03_inputs.md, R72): settles O18. -/

namespace Sys2Proof
namespace Machine

/-! ## What the end of a calibration leaves alone -/

/-- A context record raises no source of the groups below 8. -/
theorem SecKept.converterContext {new : Prop} {a b : Dev} (h : SecKept new a b) (n reason settle idx : Nat) (k : Int) (cross : Option (Nat × Nat)) :
    SecKept new a (b.converterContext n reason settle idx k cross) := by
  have published := SecKept.foldl (f := fun d i => d.publishContext i (d.withAxisOf i (b.inputContext n reason settle idx k cross)))
    (fun _ _ hc => hc.publishContext _ _) (b.rawRuns n) h
  unfold Dev.converterContext Dev.anchorRecord
  dsimp only
  split
  · exact published.place _ _ _
  · exact published.inc _ _ _ _ (by decide)

/-- Of the registers from the interrupt groups' to the reports', `b` moved at most those at `w`; no pending bit of G6 went, and calibration state and clock
are `a`'s. -/
structure EndKept (w : List Nat) (a b : Dev) : Prop where
  reg : ∀ o, 0x30900 ≤ o → o < 0xC9000 → o ∉ w → b.reg o = a.reg o
  raised : ∀ s, Raised a 6 s → Raised b 6 s
  cal : b.cal = a.cal
  clk : b.clk = a.clk

namespace EndKept
variable {w : List Nat} {a b c : Dev}

theorem refl (w : List Nat) (a : Dev) : EndKept w a a := ⟨fun _ _ _ _ => rfl, fun _ h => h, rfl, rfl⟩
theorem trans (h1 : EndKept w a b) (h2 : EndKept w b c) : EndKept w a c :=
  ⟨fun o h0 hl hw => (h2.reg o h0 hl hw).trans (h1.reg o h0 hl hw), fun s hs => h2.raised s (h1.raised s hs), h2.cal.trans h1.cal, h2.clk.trans h1.clk⟩
theorem mono {v : List Nat} (h : EndKept v a b) (hs : ∀ o ∈ v, o ∈ w) : EndKept w a b :=
  ⟨fun o h0 hl hw => h.reg o h0 hl fun hv => hw (hs o hv), h.raised, h.cal, h.clk⟩
theorem rd (h : EndKept w a b) (f : Fld) (n : Nat) (h0 : 0x30900 ≤ f.at_ n 0) (hl : f.at_ n 0 < 0xC9000) (hw : f.at_ n 0 ∉ w) : b.rd f n = a.rd f n :=
  congrArg (fun x : Word => x.field f.lo f.w) (h.reg _ h0 hl hw)
theorem rdInput (h : EndKept w a b) {f : Fld} (hf : f.ofInput = true) {n : Nat} (hn : n < 8) (hw : f.at_ n 0 ∉ w) : b.rd f n = a.rd f n := by
  obtain ⟨-, h1, -, -⟩ := Fld.ofInput_iff.mp hf
  refine h.rd f n (at_input_high hf n) ?_ hw
  rw [Fld.at_input hf]
  omega

theorem ite (p : Prop) [Decidable p] {x y : Dev} (hx : EndKept w a x) (hy : EndKept w a y) : EndKept w a (if p then x else y) := by
  split <;> assumption
theorem wr (h : EndKept w a b) (f : Fld) (v n m : Nat) (h0 : 0x30900 ≤ f.at_ n m) (hw : 0xC9000 ≤ f.at_ n m ∨ f.at_ n m ∈ w) : EndKept w a (b.wr f v n m) := by
  refine h.trans ⟨fun o _ hl ho => Dev.reg_wr_ne _ _ _ _ _ ?_, fun _ hs => hs.wr_high (by decide) h0 v, rfl, rfl⟩
  rintro rfl
  rcases hw with hw | hw
  · omega
  · exact ho hw
theorem flag (h : EndKept w a b) (f : Fld) (v : Bool) (n m : Nat) (h0 : 0x30900 ≤ f.at_ n m) (hw : f.at_ n m ∈ w) : EndKept w a (b.flag f v n m) :=
  h.wr f _ n m h0 (.inr hw)
theorem setInput (h : EndKept w a b) (n : Nat) (f : Input → Input) : EndKept w a (b.setInput n f) := h.trans ⟨fun _ _ _ _ => rfl, fun _ hs => hs, rfl, rfl⟩
theorem raise (h : EndKept w a b) (g s : Nat) (hg : g < 64) (hs : s < 32) : EndKept w a (b.raise g s) := by
  refine h.trans ⟨fun o h0 hl _ => Dev.reg_raise b s hg (irqReg_between h0 (by omega)), fun _ hr => hr.raise s hs, Dev.raise_cal _ _ _, Dev.raise_clk _ _ _⟩
theorem converterContext (h : EndKept w a b) (n reason settle idx : Nat) (k : Int) (cross : Option (Nat × Nat)) :
    EndKept w a (b.converterContext n reason settle idx k cross) := by
  have records : RecordsOnly [] b (b.converterContext n reason settle idx k cross) := (RecordsOnly.refl [] b).converterContext _ _ _ _ _ _
  have sections : SecKept True b (b.converterContext n reason settle idx k cross) := (SecKept.refl True b).converterContext _ _ _ _ _ _
  have hpending : (b.converterContext n reason settle idx k cross).rd F.IRQ_PENDING_PENDING 6 = b.rd F.IRQ_PENDING_PENDING 6 :=
    congrArg (fun x : Word => x.field 0 32) (sections.reg (F.IRQ_PENDING_PENDING.at_ 6 0) (by decide) (.inl (by decide)))
  refine h.trans ⟨fun o h0 hl _ => records.1 o (by omega) List.not_mem_nil (irqReg_between h0 (by omega)), fun s hs => ?_, ?_, records.clk⟩
  · unfold Raised
    rw [hpending]
    exact hs
  · obtain ⟨_, _, _, _, _, _, _, _, _, _, e⟩ := records.shape
    rw [e]

/-! ## The attenuator's held setting (R72) -/

theorem applyAtten (h : EndKept w a b) {n : Nat} (ho : F.CNV_ATTEN_ACT_SETTING.at_ n 0 ∈ w) (v : Nat) (cross : Option (Nat × Nat)) (k : Nat) :
    EndKept w a (b.applyAtten n v cross k) := by
  have h0 : 0x30900 ≤ F.CNV_ATTEN_ACT_SETTING.at_ n 0 := at_input_high (by decide) n
  unfold Dev.applyAtten
  exact ite _ h (((h.wr F.CNV_ATTEN_ACT_SETTING _ _ _ h0 (.inr ho)).wr F.CNV_ATTEN_ACT_ACTUAL _ _ _ h0 (.inr ho)).converterContext _ _ _ _ _ _)
theorem releaseAtten (h : EndKept w a b) {n : Nat} (ho : F.CNV_ATTEN_ACT_SETTING.at_ n 0 ∈ w) : EndKept w a (b.releaseAtten n) := by
  unfold Dev.releaseAtten
  split
  · exact (h.setInput n _).applyAtten ho _ _ _
  · exact h
end EndKept

/-- The held setting is gone; nothing else of the input moves. -/
theorem Dev.input_releaseAtten (d : Dev) (n : Nat) : (d.releaseAtten n).input n = { d.input n with heldAtten := none } := by
  unfold Dev.releaseAtten
  split
  next v c _ =>
    have records : RecordsOnly [F.CNV_ATTEN_ACT_SETTING.at_ n 0] (d.setInput n fun i => { i with heldAtten := none })
        ((d.setInput n fun i => { i with heldAtten := none }).applyAtten n v c) := (RecordsOnly.refl _ _).applyAtten (.head _) v c 1
    rw [records.input, Dev.input_setInput, if_pos rfl]
  next h => rw [← h]

/-- The other words of an input lie beside its attenuator's setting. -/
theorem input_notMem_setting {f : Fld} (hf : f.ofInput = true) (hoff : f.off ≠ F.CNV_ATTEN_ACT_SETTING.off) (n : Nat) :
    f.at_ n 0 ∉ [F.CNV_ATTEN_ACT_SETTING.at_ n 0] := by
  rw [List.mem_singleton, Fld.at_input_eq_iff hf (by decide)]
  exact fun h => hoff h.1

/-! ## Results put in force (R103, R104) -/

section
variable (d : Dev) (j : CalJob)

/-- The results in force, not shown yet. -/
def Dev.resultsTaken : Dev := d.setCal (fun c => { c with
  val := (j.good ++ j.kept).foldl (fun t p => t.put p.1 p.2) c.val
  stale := j.good.foldl (fun t p => t.erase p.1) c.stale })
/-- What a converter shows of them. -/
def Dev.resultsShown (d : Dev) (n : Nat) : Dev :=
  (d.showStale n).wr F.CNV_ATTEN_ACT_ACTUAL (unsigned 16 (d.calVal (itemAtten n (d.rd F.CNV_ATTEN_ACT_SETTING n)))) n

theorem Dev.calCommit_shape : ∃ b v, d.calCommit j =
    ((j.convs.foldl (fun d n => d.resultsShown n) (d.resultsTaken j)).flag F.CAL_STATUS_REF_STALE b).wr F.CAL_STATUS_PLL_STALE v := ⟨_, _, rfl⟩
theorem ShownOnly.calCommit : ShownOnly (d.resultsTaken j) (d.calCommit j) := by
  obtain ⟨b, v, h⟩ := d.calCommit_shape j
  rw [h]
  exact ((foldl (fun _ n hc => (hc.showStale n).wr F.CNV_ATTEN_ACT_ACTUAL _ n 0) _ (.refl _)).flag _ _ _ _).wr _ _ _ _
theorem Dev.calCommit_clk : (d.calCommit j).clk = d.clk := (ShownOnly.calCommit d j).clk
/-- Results in force leave the states of the inputs. -/
theorem Dev.cnvState_calCommit {n : Nat} (hn : n < 8) : (d.calCommit j).cnvState n = d.cnvState n := by
  obtain ⟨b, v, h⟩ := d.calCommit_shape j
  have shown : (j.convs.foldl (fun d n => d.resultsShown n) (d.resultsTaken j)).cnvState n = d.cnvState n := by
    refine List.foldlRecOn j.convs _ (motive := fun c : Dev => c.cnvState n = d.cnvState n) rfl fun c hc m _ => ?_
    have stale : (c.showStale m).cnvState n = c.cnvState n :=
      ((BesideInputs.refl [] c).showStale m).rd F.CNV_STATUS_STATE n (by decide) hn.le List.not_mem_nil
    exact (Dev.rd_wr_apart (f := F.CNV_ATTEN_ACT_ACTUAL) (by decide) _ _ _ _).trans (stale.trans hc)
  rw [h]
  exact (Dev.rd_wr_calBlock (by decide) (by decide) hn _ _).trans ((Dev.rd_wr_calBlock (by decide) (by decide) hn _ _).trans shown)
end

/-! ## The archive write (R103, R106) -/

section
variable (d : Dev) (j : CalJob) (ok : Bool) (t : List CalJob)

/-- The engine when an archive write ends, the results of its calibration in force. -/
def Dev.archiveDue : Dev :=
  if j.done then d.advanceTo (d.cal.archiveSince + 12000000) else (d.advanceTo (d.cal.archiveSince + 12000000)).calCommit j
/-- The next sequence number. -/
def Dev.nextSeq : Nat := (d.cal.gens.cells.foldl (fun m p => max m p.2.1) 0 + 1) % 2 ^ 32
/-- The next generation written, or the failure shown. -/
def Dev.generation : Dev :=
  if ok then d.setCal (fun c => { c with gens := c.gens.put ((d.cal.pos + 1) % 3) (d.nextSeq, c.val), pos := (d.cal.pos + 1) % 3, arch := c.val })
  else (d.mark F.CAL_STATUS_ARCH_FAIL).raise 6 29
/-- Whether an item is the calibration's own. -/
def CalJob.owns (k : Nat) : Bool := j.convs.any (fun n => itemOf n k) || (j.cause == 0)
/-- The next archive write begins, and the calibration is the last completed one of its items. -/
def Dev.archiveTaken : Dev := d.setCal (fun c => { c with
  archive := t, archiveSince := d.clk,
  last := (c.val.cells.filter (fun p => j.owns p.1)).foldl (fun m p => m.put p.1 p.2) c.last,
  lastStale := (c.stale.cells.filter (fun p => j.owns p.1)).foldl (fun m p => m.put p.1 ()) (c.lastStale.keep (fun p => !(j.owns p.1))) })
/-- The results in force, the generation written or not, the next archive write begun. -/
def Dev.archived : Dev := ((d.archiveDue j).generation ok).archiveTaken j t

variable {d j}

/-- The engine with the archive write's clock reached. -/
theorem Dev.archiveDue_cal : ∃ v s, (d.archiveDue j).cal = { d.cal with val := v, stale := s } := by
  unfold Dev.archiveDue
  split
  · exact ⟨d.cal.val, d.cal.stale, Dev.advanceTo_cal _ _⟩
  · rw [(ShownOnly.calCommit _ j).cal, Dev.resultsTaken, Dev.setCal, Dev.advanceTo_cal]
    exact ⟨_, _, rfl⟩
theorem Dev.archiveDue_clk : (d.archiveDue j).clk = max d.clk (d.cal.archiveSince + 12000000) := by
  unfold Dev.archiveDue
  split
  · exact Dev.advanceTo_clk _ _
  · exact (Dev.calCommit_clk _ j).trans (Dev.advanceTo_clk _ _)
theorem Dev.archiveDue_state {n : Nat} (hn : n < 8) : (d.archiveDue j).cnvState n = d.cnvState n := by
  unfold Dev.archiveDue
  split
  · exact Dev.rd_advanceTo _ _ _ _
  · exact (Dev.cnvState_calCommit _ j hn).trans (Dev.rd_advanceTo _ _ _ _)
/-- The one result of a calibration that passed is in force, and its item is fresh. -/
theorem Dev.archiveDue_result {k : Nat} {v : Int} (hdone : j.done = false) (hgood : j.good = [(k, v)]) (hkept : j.kept = []) :
    (d.archiveDue j).cal.val.get? k = some v ∧ (d.archiveDue j).calStale k = false := by
  have hcal : (d.archiveDue j).cal = ((d.advanceTo (d.cal.archiveSince + 12000000)).resultsTaken j).cal := by
    unfold Dev.archiveDue
    rw [hdone, if_neg Bool.false_ne_true]
    exact (ShownOnly.calCommit _ j).cal
  unfold Dev.calStale
  rw [hcal, Dev.resultsTaken, hgood, hkept]
  exact ⟨Tab.get?_put_same _ _ _, congrArg Option.isSome (Tab.get?_erase_same _ _)⟩

theorem Dev.generation_failed (d : Dev) : (d.generation false).cal = d.cal ∧ (d.generation false).rd F.CAL_STATUS_ARCH_FAIL = 1 ∧ Raised (d.generation false) 6 29 :=
  ⟨Dev.raise_cal _ _ _, (Dev.rd_raise _ _ _ _ _ (by decide) (by decide)).trans (Dev.rd_mark_bit d F.CAL_STATUS_ARCH_FAIL 0 (by decide) rfl),
    raised_raise _ _ (by decide)⟩
/-- Beside its generations, a write that ends leaves the calibration state. -/
theorem Dev.generation_cal (d : Dev) : ∃ g p r, (d.generation ok).cal = { d.cal with gens := g, pos := p, arch := r } := by
  cases ok with
  | true => exact ⟨_, _, _, rfl⟩
  | false => exact ⟨_, _, _, d.generation_failed.1⟩
theorem Dev.generation_clk (d : Dev) : (d.generation ok).clk = d.clk := by
  cases ok with
  | true => rfl
  | false => exact Dev.raise_clk _ _ _
theorem Dev.generation_state (d : Dev) {n : Nat} (hn : n < 8) : (d.generation ok).cnvState n = d.cnvState n := by
  cases ok with
  | true => rfl
  | false =>
    refine (Dev.rd_raise _ _ F.CNV_STATUS_STATE _ _ (by decide) (irqReg_input (by decide) hn.le)).trans ?_
    exact Dev.rd_wr_calBlock (f := F.CAL_STATUS_ARCH_FAIL) (by decide) (by decide) hn _ _

/-- Calibrations to come stay as they are; the archive goes on with the next. -/
theorem Dev.archived_waits : (d.archived j ok t).cal.queue = d.cal.queue ∧ (d.archived j ok t).cal.accepts = d.cal.accepts ∧
    (d.archived j ok t).cal.archive = t ∧
    (d.archived j ok t).cal.job.toList ++ (d.archived j ok t).cal.suspended ++ (d.archived j ok t).cal.archive = d.cal.job.toList ++ d.cal.suspended ++ t := by
  obtain ⟨g, p, r, hgen⟩ := (d.archiveDue j).generation_cal ok
  obtain ⟨v, s, hdue⟩ := Dev.archiveDue_cal (d := d) (j := j)
  simp only [Dev.archived, Dev.archiveTaken, Dev.setCal, hgen, hdue, and_self]
theorem Dev.archived_clk : (d.archived j ok t).clk = max d.clk (d.cal.archiveSince + 12000000) :=
  (Dev.generation_clk ok (d.archiveDue j)).trans Dev.archiveDue_clk
theorem Dev.archived_state {n : Nat} (hn : n < 8) : (d.archived j ok t).cnvState n = d.cnvState n :=
  (Dev.generation_state ok (d.archiveDue j) hn).trans (Dev.archiveDue_state hn)
theorem Dev.archived_result {k : Nat} {v : Int} (hdone : j.done = false) (hgood : j.good = [(k, v)]) (hkept : j.kept = []) :
    (d.archived j ok t).cal.val.get? k = some v ∧ (d.archived j ok t).calStale k = false := by
  obtain ⟨g, p, r, hgen⟩ := (d.archiveDue j).generation_cal ok
  have hresult := Dev.archiveDue_result (d := d) hdone hgood hkept
  simp only [Dev.calStale, Dev.archived, Dev.archiveTaken, Dev.setCal, hgen] at hresult ⊢
  exact hresult
/-- A generation written: the next position holds the values in force under the next number. -/
theorem Dev.archived_written : (d.archived j true t).cal.pos = (d.cal.pos + 1) % 3 ∧ (d.archived j true t).cal.arch = (d.archived j true t).cal.val ∧
    ((d.archived j true t).cal.gens.get? ((d.cal.pos + 1) % 3)).map (·.1) = some (d.archiveDue j).nextSeq := by
  obtain ⟨v, s, hdue⟩ := Dev.archiveDue_cal (d := d) (j := j)
  have hpos : (d.archiveDue j).cal.pos = d.cal.pos := by rw [hdue]
  rw [← hpos]
  exact ⟨rfl, rfl, congrArg (Option.map Prod.fst) (Tab.get?_put_same _ _ _)⟩
/-- A write that failed: the previous generation stays, and the failure is shown and raised. -/
theorem Dev.archived_failed : (d.archived j false t).cal.gens = d.cal.gens ∧ (d.archived j false t).cal.arch = d.cal.arch ∧
    (d.archived j false t).rd F.CAL_STATUS_ARCH_FAIL = 1 ∧ Raised (d.archived j false t) 6 29 := by
  obtain ⟨hcal, hfail, hraised⟩ := (d.archiveDue j).generation_failed
  obtain ⟨v, s, hdue⟩ := Dev.archiveDue_cal (d := d) (j := j)
  refine ⟨?_, ?_, hfail, hraised⟩ <;> simp only [Dev.archived, Dev.archiveTaken, Dev.setCal, hcal, hdue]
end

/-! ## The input whose calibration ended (R72, R105, R108, R113) -/

/-- The words of input n in the CAL block (R115). -/
def calInRegs (n : Nat) : List Nat :=
  [F.CAL_IN_STATUS_CAUSE.at_ n 0, F.CAL_IN_SEQ_SEQ.at_ n 0, F.CAL_IN_TIME_US.at_ n 0, F.CAL_IN_TEMP_TEMP.at_ n 0, F.CAL_IN_ACCEPT_PENDING.at_ n 0]
/-- The words of an input that its return to STOPPED moves. -/
def stopRegs (n : Nat) : List Nat := [F.CNV_STATUS_STATE.at_ n 0, F.CNV_ATTEN_ACT_SETTING.at_ n 0]

theorem calInRegs_eq (n : Nat) : calInRegs n = [0xC8100 + n * 0x20, 0xC8104 + n * 0x20, 0xC8108 + n * 0x20, 0xC810C + n * 0x20, 0xC8114 + n * 0x20] := rfl
theorem stopRegs_eq (n : Nat) : stopRegs n = [0xC0008 + n * 0x1000, 0xC0010 + n * 0x1000] := rfl

/-- A field of an input in the CAL block. -/
def Fld.ofCalIn (f : Fld) : Bool := decide (0xC8100 ≤ f.off) && decide (f.off < 0xC8120) && decide (f.st = 0x20)
theorem Fld.at_calIn {f : Fld} (hf : f.ofCalIn = true) (n : Nat) : f.at_ n 0 = f.off + n * 0x20 ∧ 0xC8100 ≤ f.off ∧ f.off < 0xC8120 := by
  simp only [Fld.ofCalIn, Bool.and_eq_true, decide_eq_true_eq] at hf
  obtain ⟨⟨h0, h1⟩, hst⟩ := hf
  unfold Fld.at_
  rw [hst]
  omega
theorem at_calIn_high {f : Fld} (hf : f.ofCalIn = true) (n : Nat) : 0x30900 ≤ f.at_ n 0 := by
  obtain ⟨h, h0, -⟩ := Fld.at_calIn hf n
  omega
theorem at_calIn_low {f : Fld} (hf : f.ofCalIn = true) {n : Nat} (hn : n < 8) : f.at_ n 0 < 0xC9000 := by
  obtain ⟨h, -, h1⟩ := Fld.at_calIn hf n
  omega
/-- Fields of one input in two words. -/
theorem at_calIn_ne {f g : Fld} (hf : f.ofCalIn = true) (hg : g.ofCalIn = true) (hne : f.off ≠ g.off) (n : Nat) : f.at_ n 0 ≠ g.at_ n 0 := by
  obtain ⟨h1, -, -⟩ := Fld.at_calIn hf n
  obtain ⟨h2, -, -⟩ := Fld.at_calIn hg n
  omega
theorem calIn_notMem_stopRegs {f : Fld} (hf : f.ofCalIn = true) {n : Nat} (hn : n < 8) : f.at_ n 0 ∉ stopRegs n := by
  obtain ⟨h, h0, -⟩ := Fld.at_calIn hf n
  simp only [stopRegs_eq, List.mem_cons, List.not_mem_nil, or_false]
  omega
theorem state_notMem_calInRegs {n : Nat} (hn : n < 8) : F.CNV_STATUS_STATE.at_ n 0 ∉ calInRegs n := by
  have hat : F.CNV_STATUS_STATE.at_ n 0 = 0xC0008 + n * 0x1000 := rfl
  simp only [calInRegs_eq, hat, List.mem_cons, List.not_mem_nil, or_false]
  omega

section
variable (d : Dev) (n : Nat) (j : CalJob) (ok : Bool) (seq : Nat) (temps : List Int)

/-- Temperature and measurement time noted. -/
def Dev.endNoted : Dev :=
  ((d.wr F.CAL_IN_TEMP_TEMP (unsigned 16 (temps.getD n 0)) n).setInput n (fun i => { i with tempRaised := false })).wr F.CAL_IN_TIME_US
    ((j.ended - j.start) / 1000) n
/-- The report of a generation that was written. -/
def Dev.endReported : Dev := if ok then (d.wr F.CAL_IN_SEQ_SEQ seq n).putReport n (d.report n j seq) else d
theorem Dev.endReported_written : d.endReported n j true seq = (d.wr F.CAL_IN_SEQ_SEQ seq n).putReport n (d.report n j seq) := if_pos rfl
/-- The input when its calibration has ended. -/
def Dev.inputEnded : Dev := (((d.endNoted n j temps).endReported n j ok seq).calInEnd n j false).calStopped n
/-- Whether an ACCEPT of the input waits for a calibration to come. -/
def Dev.acceptWaits : Bool := d.cal.accepts.contains n || (d.cal.job.toList ++ d.cal.suspended ++ d.cal.archive).any (fun x => x.accept.contains n)

theorem Dev.calInEnd_shape : ∃ stale code, d.calInEnd n j false =
    (((((d.wr F.CAL_IN_STATUS_CAUSE j.cause n).wr F.CAL_IN_STATUS_STALE stale n).flag F.CAL_IN_STATUS_QUEUED (d.cal.queue.contains n) n).wr
      F.CAL_IN_STATUS_CODE code n).flag F.CAL_IN_ACCEPT_PENDING (d.acceptWaits n) n).raise 6 (16 + n) := by
  unfold Dev.calInEnd Dev.acceptWaits
  simp only [Dev.wr_cal, Dev.flag_cal]
  exact ⟨_, _, rfl⟩

/-- A field of an input's status in the CAL block stands through its ACCEPT and the event of its end. -/
theorem Dev.rd_endTold (d : Dev) {f : Fld} {n : Nat} (hn : n < 8) (hf : f.ofCalIn = true) (hoff : f.off ≠ F.CAL_IN_ACCEPT_PENDING.off) (b : Bool) (s : Nat) :
    ((d.flag F.CAL_IN_ACCEPT_PENDING b n).raise 6 s).rd f n = d.rd f n := by
  have hlow := at_calIn_low hf hn
  exact (Dev.rd_raise _ _ _ _ _ (by decide) (irqReg_between (at_calIn_high hf n) (by omega))).trans
    (Dev.rd_wr_ne _ _ _ _ _ _ _ _ (at_calIn_ne hf (by decide) hoff n))
theorem Dev.calInEnd_cause (hn : n < 8) : (d.calInEnd n j false).rd F.CAL_IN_STATUS_CAUSE n = j.cause % 4 := by
  obtain ⟨stale, code, h⟩ := d.calInEnd_shape n j
  rw [h, Dev.rd_endTold _ hn (by decide) (by decide), Dev.rd_wr_field _ _ _ _ _ _ _ _ (by decide) (.inr (by decide)), Dev.flag,
    Dev.rd_wr_field _ _ _ _ _ _ _ _ (by decide) (.inr (by decide)), Dev.rd_wr_field _ _ _ _ _ _ _ _ (by decide) (.inr (by decide))]
  exact Dev.rd_wr_same _ _ _ _ _ (by decide)
theorem Dev.calInEnd_queued (hn : n < 8) : (d.calInEnd n j false).rd F.CAL_IN_STATUS_QUEUED n = if d.cal.queue.contains n then 1 else 0 := by
  obtain ⟨stale, code, h⟩ := d.calInEnd_shape n j
  rw [h, Dev.rd_endTold _ hn (by decide) (by decide), Dev.rd_wr_field _ _ _ _ _ _ _ _ (by decide) (.inr (by decide))]
  exact Dev.rd_flag_same _ _ n (by decide) rfl
theorem Dev.calInEnd_accept (hn : n < 8) : (d.calInEnd n j false).rd F.CAL_IN_ACCEPT_PENDING n = if d.acceptWaits n then 1 else 0 := by
  obtain ⟨stale, code, h⟩ := d.calInEnd_shape n j
  have hlow := at_calIn_low (f := F.CAL_IN_ACCEPT_PENDING) (by decide) hn
  rw [h, Dev.rd_raise _ _ _ _ _ (by decide) (irqReg_between (at_calIn_high (by decide) n) (by omega))]
  exact Dev.rd_flag_same _ _ n (by decide) rfl
theorem Dev.calInEnd_raised (hn : n < 8) : Raised (d.calInEnd n j false) 6 (16 + n) := by
  obtain ⟨stale, code, h⟩ := d.calInEnd_shape n j
  rw [h]
  exact raised_raise _ _ (by omega)

namespace EndKept
variable {w : List Nat} {a b : Dev}

theorem calInEnd (h : EndKept w a b) {n : Nat} (hn : n < 8) (hst : F.CAL_IN_STATUS_CAUSE.at_ n 0 ∈ w) (hacc : F.CAL_IN_ACCEPT_PENDING.at_ n 0 ∈ w) :
    EndKept w a (b.calInEnd n j false) := by
  obtain ⟨stale, code, e⟩ := b.calInEnd_shape n j
  have h0 : 0x30900 ≤ F.CAL_IN_STATUS_CAUSE.at_ n 0 := at_calIn_high (by decide) n
  rw [e]
  exact (((((h.wr F.CAL_IN_STATUS_CAUSE _ n 0 h0 (.inr hst)).wr F.CAL_IN_STATUS_STALE _ n 0 h0 (.inr hst)).flag F.CAL_IN_STATUS_QUEUED _ n 0 h0 hst).wr
    F.CAL_IN_STATUS_CODE _ n 0 h0 (.inr hst)).flag F.CAL_IN_ACCEPT_PENDING _ n 0 (at_calIn_high (by decide) n) hacc).raise 6 _ (by decide) (by omega)
theorem putReport (h : EndKept w a b) (l : List Byte) : EndKept w a (b.putReport n l) := by
  refine List.foldlRecOn _ _ h fun c hc k _ => ?_
  have hhigh : 0xC9000 ≤ F.CAL_REPORT_WORD.at_ n k := by
    simp only [Fld.at_, F.CAL_REPORT_WORD]
    omega
  exact hc.wr _ _ _ _ (by omega) (.inl hhigh)
theorem endReported (h : EndKept w a b) (hseq : F.CAL_IN_SEQ_SEQ.at_ n 0 ∈ w) : EndKept w a (b.endReported n j ok seq) :=
  ite _ ((h.wr F.CAL_IN_SEQ_SEQ _ n 0 (at_calIn_high (by decide) n) (.inr hseq)).putReport n _) h
theorem endNoted (h : EndKept w a b) (htemp : F.CAL_IN_TEMP_TEMP.at_ n 0 ∈ w) (htime : F.CAL_IN_TIME_US.at_ n 0 ∈ w) : EndKept w a (b.endNoted n j temps) :=
  ((h.wr F.CAL_IN_TEMP_TEMP _ n 0 (at_calIn_high (by decide) n) (.inr htemp)).setInput n _).wr F.CAL_IN_TIME_US _ n 0 (at_calIn_high (by decide) n) (.inr htime)
theorem calStopped (h : EndKept w a b) (hst : F.CNV_STATUS_STATE.at_ n 0 ∈ w) (hset : F.CNV_ATTEN_ACT_SETTING.at_ n 0 ∈ w) :
    EndKept w a (b.calStopped n) := by
  have h0 : 0x30900 ≤ F.CNV_STATUS_STATE.at_ n 0 := at_input_high (by decide) n
  exact ite _ (((h.wr F.CNV_STATUS_STATE 0 n 0 h0 (.inr hst)).flag F.CNV_STATUS_TONE false n 0 h0 hst).releaseAtten hset) h
end EndKept

/-- The engine before the input may enter STOPPED. -/
def Dev.inputTold : Dev := ((d.endNoted n j temps).endReported n j ok seq).calInEnd n j false

theorem Dev.inputTold_kept (hn : n < 8) : EndKept (calInRegs n) d (d.inputTold n j ok seq temps) :=
  (((EndKept.refl _ d).endNoted n j temps (.tail _ (.tail _ (.tail _ (.head _)))) (.tail _ (.tail _ (.head _)))).endReported n j ok seq (.tail _ (.head _))).calInEnd
    j hn (.head _) (.tail _ (.tail _ (.tail _ (.tail _ (.head _)))))
theorem Dev.inputEnded_stopKept : EndKept (stopRegs n) (d.inputTold n j ok seq temps) (d.inputEnded n j ok seq temps) :=
  (EndKept.refl _ _).calStopped n (.head _) (.tail _ (.head _))
theorem Dev.inputEnded_kept (hn : n < 8) : EndKept (calInRegs n ++ stopRegs n) d (d.inputEnded n j ok seq temps) :=
  ((d.inputTold_kept n j ok seq temps hn).mono fun _ => List.mem_append_left _).trans
    ((d.inputEnded_stopKept n j ok seq temps).mono fun _ => List.mem_append_right _)

/-- What the input shows in the CAL block stays when it enters STOPPED. -/
theorem Dev.inputEnded_calIn (hn : n < 8) {f : Fld} (hf : f.ofCalIn = true) : (d.inputEnded n j ok seq temps).rd f n = (d.inputTold n j ok seq temps).rd f n :=
  (d.inputEnded_stopKept n j ok seq temps).rd f n (at_calIn_high hf n) (at_calIn_low hf hn) (calIn_notMem_stopRegs hf hn)
theorem Dev.endReported_cal : ((d.endNoted n j temps).endReported n j ok seq).cal = d.cal :=
  (((EndKept.refl (calInRegs n) d).endNoted n j temps (.tail _ (.tail _ (.tail _ (.head _)))) (.tail _ (.tail _ (.head _)))).endReported n j ok seq (.tail _ (.head _))).cal
theorem Dev.inputEnded_status (hn : n < 8) : (d.inputEnded n j ok seq temps).rd F.CAL_IN_STATUS_CAUSE n = j.cause % 4 ∧
    (d.inputEnded n j ok seq temps).rd F.CAL_IN_STATUS_QUEUED n = (if d.cal.queue.contains n then 1 else 0) ∧
    (d.inputEnded n j ok seq temps).rd F.CAL_IN_ACCEPT_PENDING n = (if d.acceptWaits n then 1 else 0) ∧ Raised (d.inputEnded n j ok seq temps) 6 (16 + n) := by
  have hcal := d.endReported_cal n j ok seq temps
  have hshown {f : Fld} (hf : f.ofCalIn = true) := d.inputEnded_calIn n j ok seq temps hn hf
  refine ⟨(hshown (by decide)).trans (Dev.calInEnd_cause _ n j hn), (hshown (by decide)).trans ((Dev.calInEnd_queued _ n j hn).trans ?_),
    (hshown (by decide)).trans ((Dev.calInEnd_accept _ n j hn).trans ?_), (d.inputEnded_stopKept n j ok seq temps).raised _ (Dev.calInEnd_raised _ n j hn)⟩
  · rw [hcal]
  · unfold Dev.acceptWaits
    rw [hcal]
theorem Dev.inputEnded_temp (hn : n < 8) : (d.inputEnded n j ok seq temps).rd F.CAL_IN_TEMP_TEMP n = unsigned 16 (temps.getD n 0) := by
  have hfits : unsigned 16 (temps.getD n 0) < 2 ^ F.CAL_IN_TEMP_TEMP.w := by
    have hw : 2 ^ F.CAL_IN_TEMP_TEMP.w = 65536 := rfl
    have hpos := Int.emod_lt_of_pos (temps.getD n 0) (show (0 : Int) < (2 ^ 16 : Nat) by decide)
    unfold unsigned
    omega
  have told : EndKept [F.CAL_IN_SEQ_SEQ.at_ n 0, F.CAL_IN_STATUS_CAUSE.at_ n 0, F.CAL_IN_ACCEPT_PENDING.at_ n 0] (d.endNoted n j temps)
      (d.inputTold n j ok seq temps) := ((EndKept.refl _ _).endReported n j ok seq (.head _)).calInEnd j hn (.tail _ (.head _)) (.tail _ (.tail _ (.head _)))
  refine (d.inputEnded_calIn n j ok seq temps hn (by decide)).trans ((told.rd _ n (at_calIn_high (by decide) n) (at_calIn_low (by decide) hn) ?_).trans ?_)
  · simp only [List.mem_cons, List.not_mem_nil, or_false, not_or]
    exact ⟨at_calIn_ne (by decide) (by decide) (by decide) n, at_calIn_ne (by decide) (by decide) (by decide) n, at_calIn_ne (by decide) (by decide) (by decide) n⟩
  · exact (Dev.rd_wr_ne _ _ _ _ _ _ _ _ (at_calIn_ne (by decide) (by decide) (by decide) n)).trans (Dev.rd_wr_fits d n (by decide) hfits)
theorem Dev.inputEnded_seq (hn : n < 8) (hseq : seq < 2 ^ 32) : (d.inputEnded n j true seq temps).rd F.CAL_IN_SEQ_SEQ n = seq := by
  have told : EndKept [F.CAL_IN_STATUS_CAUSE.at_ n 0, F.CAL_IN_ACCEPT_PENDING.at_ n 0] ((d.endNoted n j temps).wr F.CAL_IN_SEQ_SEQ seq n)
      (d.inputTold n j true seq temps) := by
    unfold Dev.inputTold
    rw [Dev.endReported_written]
    exact ((EndKept.refl _ _).putReport n _).calInEnd j hn (.head _) (.tail _ (.head _))
  refine (d.inputEnded_calIn n j true seq temps hn (by decide)).trans ((told.rd _ n (at_calIn_high (by decide) n) (at_calIn_low (by decide) hn) ?_).trans ?_)
  · simp only [List.mem_cons, List.not_mem_nil, or_false, not_or]
    exact ⟨at_calIn_ne (by decide) (by decide) (by decide) n, at_calIn_ne (by decide) (by decide) (by decide) n⟩
  · exact Dev.rd_wr_fits _ n (by decide) hseq

/-! The input's state. -/

theorem Dev.inputTold_state (hn : n < 8) : (d.inputTold n j ok seq temps).cnvState n = d.cnvState n :=
  (d.inputTold_kept n j ok seq temps hn).rdInput (by decide) hn (state_notMem_calInRegs hn)
theorem Dev.inputTold_comes (hn : n < 8) : (d.inputTold n j ok seq temps).calComes n = d.calComes n := by
  unfold Dev.calComes
  rw [(d.inputTold_kept n j ok seq temps hn).cal]

/-- An input with no calibration to come enters STOPPED, its switch back and no setting held. -/
theorem Dev.inputEnded_stopped (hn : n < 8) (hst : d.cnvState n = 2) (hcomes : d.calComes n = false) : (d.inputEnded n j ok seq temps).cnvState n = 0 ∧
    (d.inputEnded n j ok seq temps).rd F.CNV_STATUS_TONE n = 0 ∧ ((d.inputEnded n j ok seq temps).input n).heldAtten = none := by
  have heq : d.inputEnded n j ok seq temps =
      (((d.inputTold n j ok seq temps).wr F.CNV_STATUS_STATE 0 n).flag F.CNV_STATUS_TONE false n).releaseAtten n :=
    if_pos ⟨(d.inputTold_state n j ok seq temps hn).trans hst, (d.inputTold_comes n j ok seq temps hn).trans hcomes⟩
  rw [heq]
  generalize d.inputTold n j ok seq temps = b
  have released := (EndKept.refl [F.CNV_ATTEN_ACT_SETTING.at_ n 0] ((b.wr F.CNV_STATUS_STATE 0 n).flag F.CNV_STATUS_TONE false n)).releaseAtten (.head _)
  refine ⟨(released.rdInput (by decide) hn (input_notMem_setting (by decide) (by decide) n)).trans ?_,
    (released.rdInput (by decide) hn (input_notMem_setting (by decide) (by decide) n)).trans ?_, ?_⟩
  · exact (Dev.rd_flag_apart (by decide) _ _ _ _).trans (Dev.rd_wr_fits _ n (by decide) (by decide))
  · exact Dev.rd_flag_same _ false n (by decide) rfl
  · rw [Dev.input_releaseAtten]
/-- An input with a calibration to come stays as it is. -/
theorem Dev.inputEnded_waits (hn : n < 8) (hcomes : d.calComes n = true) : (d.inputEnded n j ok seq temps).cnvState n = d.cnvState n := by
  have heq : d.inputEnded n j ok seq temps = d.inputTold n j ok seq temps := by
    refine if_neg fun h => ?_
    have hno : (d.inputTold n j ok seq temps).calComes n = false := h.2
    rw [d.inputTold_comes n j ok seq temps hn, hcomes] at hno
    exact Bool.noConfusion hno
  rw [heq]
  exact d.inputTold_state n j ok seq temps hn
end

/-! ## The end of an archive write -/

section
variable (d : Dev) (ok : Bool) (temps : List Int) {n : Nat} {j : CalJob} {t : List CalJob}

/-- An item that became stale is told (R115). -/
def Dev.staleTold (d : Dev) (j : CalJob) : Dev := if j.kept.isEmpty then d else d.raise 6 25
/-- The engine when the archive write of a calibration of input n has ended. -/
def Dev.archiveEnded (n : Nat) (j : CalJob) (t : List CalJob) : Dev :=
  ((d.archived j ok t).inputEnded n j ok (d.archiveDue j).nextSeq temps).staleTold j

theorem Dev.archiveEnd_ended {d : Dev} (harch : d.cal.archive = j :: t) (hin : j.input = n) (hcause : j.cause ≠ 0) :
    d.archiveEnd ok temps = d.archiveEnded ok temps n j t := by
  subst hin
  unfold Dev.archiveEnd
  rw [harch]
  dsimp only
  rw [if_neg hcause, if_neg hcause]
  rfl
theorem Dev.archiveEnd_idle {d : Dev} (harch : d.cal.archive = []) : d.archiveEnd ok temps = d := by
  unfold Dev.archiveEnd
  rw [harch]
theorem EndKept.staleTold {w : List Nat} {a b : Dev} (h : EndKept w a b) (j : CalJob) : EndKept w a (b.staleTold j) :=
  ite _ h (h.raise 6 25 (by decide) (by decide))
theorem Dev.input_staleTold (j : CalJob) (n : Nat) : (d.staleTold j).input n = d.input n := by
  unfold Dev.staleTold Dev.input
  split
  · rfl
  · rw [Dev.raise_inputs]
theorem Dev.staleTold_raised {j : CalJob} (h : j.kept ≠ []) : Raised (d.staleTold j) 6 25 := by
  have hne : ¬ j.kept.isEmpty = true := by rwa [List.isEmpty_iff]
  unfold Dev.staleTold
  rw [if_neg hne]
  exact raised_raise _ _ (by decide)

/-- What is to come of the input, by the calibrations that remain. -/
theorem Dev.archived_comes (n : Nat) (j : CalJob) (t : List CalJob) : (d.archived j ok t).calComes n =
    (d.cal.queue.contains n || (d.cal.job.toList ++ d.cal.suspended ++ t).any (fun x => x.input == n || x.cause == 0)) := by
  obtain ⟨hqueue, -, -, hmore⟩ := Dev.archived_waits (d := d) (j := j) ok t
  unfold Dev.calComes
  rw [hqueue, hmore]
theorem Dev.archived_acceptWaits (n : Nat) (j : CalJob) (t : List CalJob) : (d.archived j ok t).acceptWaits n =
    (d.cal.accepts.contains n || (d.cal.job.toList ++ d.cal.suspended ++ t).any (fun x => x.accept.contains n)) := by
  obtain ⟨-, haccepts, -, hmore⟩ := Dev.archived_waits (d := d) (j := j) ok t
  unfold Dev.acceptWaits
  rw [haccepts, hmore]

variable (n j t)

/-- The event for stale items moves no register of the CAL block and no input. -/
theorem Dev.archiveEnded_told : EndKept [] ((d.archived j ok t).inputEnded n j ok (d.archiveDue j).nextSeq temps) (d.archiveEnded ok temps n j t) :=
  (EndKept.refl _ _).staleTold j
theorem Dev.archiveEnded_kept (hn : n < 8) : EndKept (calInRegs n ++ stopRegs n) (d.archived j ok t) (d.archiveEnded ok temps n j t) :=
  ((d.archived j ok t).inputEnded_kept n j ok _ temps hn).staleTold j
theorem Dev.archiveEnded_calIn (hn : n < 8) {f : Fld} (hf : f.ofCalIn = true) :
    (d.archiveEnded ok temps n j t).rd f n = ((d.archived j ok t).inputEnded n j ok (d.archiveDue j).nextSeq temps).rd f n :=
  (d.archiveEnded_told ok temps n j t).rd f n (at_calIn_high hf n) (at_calIn_low hf hn) List.not_mem_nil
theorem Dev.archiveEnded_input (hn : n < 8) {f : Fld} (hf : f.ofInput = true) :
    (d.archiveEnded ok temps n j t).rd f n = ((d.archived j ok t).inputEnded n j ok (d.archiveDue j).nextSeq temps).rd f n :=
  (d.archiveEnded_told ok temps n j t).rdInput hf hn List.not_mem_nil

/-- Cause, place in the queue and ACCEPT of the input. -/
theorem Dev.archiveEnded_status (hn : n < 8) : (d.archiveEnded ok temps n j t).rd F.CAL_IN_STATUS_CAUSE n = j.cause % 4 ∧
    (d.archiveEnded ok temps n j t).rd F.CAL_IN_STATUS_QUEUED n = (if d.cal.queue.contains n then 1 else 0) ∧
    (d.archiveEnded ok temps n j t).rd F.CAL_IN_ACCEPT_PENDING n = (if (d.archived j ok t).acceptWaits n then 1 else 0) ∧
    Raised (d.archiveEnded ok temps n j t) 6 (16 + n) := by
  obtain ⟨hqueue, -, -, -⟩ := Dev.archived_waits (d := d) (j := j) ok t
  have hshown {f : Fld} (hf : f.ofCalIn = true) := d.archiveEnded_calIn ok temps n j t hn hf
  obtain ⟨hcause, hqueued, haccept, hraised⟩ := (d.archived j ok t).inputEnded_status n j ok (d.archiveDue j).nextSeq temps hn
  exact ⟨(hshown (by decide)).trans hcause, (hshown (by decide)).trans (hqueued.trans (by rw [hqueue])), (hshown (by decide)).trans haccept,
    (d.archiveEnded_told ok temps n j t).raised _ hraised⟩
/-- The input's state, by the calibrations that remain. -/
theorem Dev.archiveEnded_stopped (hn : n < 8) (hst : d.cnvState n = 2) (hcomes : (d.archived j ok t).calComes n = false) :
    (d.archiveEnded ok temps n j t).cnvState n = 0 ∧ (d.archiveEnded ok temps n j t).rd F.CNV_STATUS_TONE n = 0 ∧
    ((d.archiveEnded ok temps n j t).input n).heldAtten = none := by
  obtain ⟨hstate, htone, hheld⟩ := (d.archived j ok t).inputEnded_stopped n j ok (d.archiveDue j).nextSeq temps hn ((Dev.archived_state ok t hn).trans hst) hcomes
  refine ⟨(d.archiveEnded_input ok temps n j t hn (by decide)).trans hstate, (d.archiveEnded_input ok temps n j t hn (by decide)).trans htone, ?_⟩
  rw [Dev.archiveEnded, Dev.input_staleTold]
  exact hheld
theorem Dev.archiveEnded_waits (hn : n < 8) (hcomes : (d.archived j ok t).calComes n = true) : (d.archiveEnded ok temps n j t).cnvState n = d.cnvState n :=
  (d.archiveEnded_input ok temps n j t hn (by decide)).trans
    (((d.archived j ok t).inputEnded_waits n j ok (d.archiveDue j).nextSeq temps hn hcomes).trans (Dev.archived_state ok t hn))
/-- A write that completed: the next generation, under the number the input shows. -/
theorem Dev.archiveEnded_written (hn : n < 8) : (d.archiveEnded true temps n j t).cal.pos = (d.cal.pos + 1) % 3 ∧
    (d.archiveEnded true temps n j t).cal.arch = (d.archiveEnded true temps n j t).cal.val ∧
    ((d.archiveEnded true temps n j t).cal.gens.get? ((d.cal.pos + 1) % 3)).map (·.1) = some ((d.archiveEnded true temps n j t).rd F.CAL_IN_SEQ_SEQ n) := by
  have hseq := (d.archiveEnded_calIn true temps n j t hn (f := F.CAL_IN_SEQ_SEQ) (by decide)).trans
    ((d.archived j true t).inputEnded_seq n j (d.archiveDue j).nextSeq temps hn (Nat.mod_lt _ (by decide)))
  rw [hseq, (d.archiveEnded_kept true temps n j t hn).cal]
  exact Dev.archived_written t
/-- A write that failed. -/
theorem Dev.archiveEnded_failed (hn : n < 8) : (d.archiveEnded false temps n j t).cal.gens = d.cal.gens ∧
    (d.archiveEnded false temps n j t).cal.arch = d.cal.arch ∧ (d.archiveEnded false temps n j t).rd F.CAL_STATUS_ARCH_FAIL = 1 ∧
    Raised (d.archiveEnded false temps n j t) 6 29 := by
  have kept := d.archiveEnded_kept false temps n j t hn
  obtain ⟨hgens, harch, hfail, hraised⟩ := Dev.archived_failed (d := d) (j := j) t
  refine ⟨(congrArg Cal.gens kept.cal).trans hgens, (congrArg Cal.arch kept.cal).trans harch, (kept.rd _ 0 (by decide) (by decide) ?_).trans hfail, kept.raised _ hraised⟩
  have hat : F.CAL_STATUS_ARCH_FAIL.at_ 0 0 = 0xC8004 := rfl
  simp only [calInRegs_eq, stopRegs_eq, hat, List.cons_append, List.nil_append, List.mem_cons, List.not_mem_nil, or_false]
  omega
end

/-! ## The switch returns from a slot (R72, R109) -/

section
variable {d : Dev} {n : Nat}

theorem FedOnly.closeSlotGap {w : List Nat} {a b : Dev} (h : FedOnly w a b) (n upto : Nat) : FedOnly w a (b.closeSlotGap n upto) := by
  unfold Dev.closeSlotGap
  split
  · exact h
  · exact (h.setInput n _).inputLost n _ _ 8
theorem Dev.closeSlotGap_slotFrom (d : Dev) (n upto : Nat) : ((d.closeSlotGap n upto).input n).slotFrom = none := by
  unfold Dev.closeSlotGap
  split
  next h => exact h
  next => rw [Dev.input_inputLost, if_pos rfl, Dev.input_setInput, if_pos rfl]

/-- The switch at the input, the settling clocks passed. -/
def Dev.slotSettled (d : Dev) (n : Nat) : Dev := (d.flag F.CNV_STATUS_TONE false n).advance 63
/-- The gap closed and the input RUNNING. -/
def Dev.slotRuns (d : Dev) (n : Nat) : Dev := (d.closeSlotGap n (d.nextIdx n)).wr F.CNV_STATUS_STATE 1 n

theorem Dev.slotReturn_due {j : CalJob} (hst : d.cnvState n = 3) (hjob : d.slotJob n = some j) :
    ∃ b : Dev, j.start + slotClocks j.cause j.paired ≤ b.clk ∧ d.slotReturn n = ((b.slotSettled n).slotRuns n).releaseAtten n := by
  have hnot : ¬ (d.cnvState n != 3) = true := by rw [hst]; decide
  have hclk : j.start + slotClocks j.cause j.paired ≤ ((d.calFinish n 16).advanceTo (j.start + slotClocks j.cause j.paired)).clk := by
    rw [Dev.advanceTo_clk]
    exact Nat.le_max_right _ _
  unfold Dev.slotReturn
  rw [if_neg hnot, hjob]
  dsimp only
  generalize (d.calFinish n 16).advanceTo (j.start + slotClocks j.cause j.paired) = b at hclk
  refine ⟨_, ?_, rfl⟩
  show _ ≤ Dev.clk (match b.slotJob n with | some j => b.calCommit j | none => b)
  cases b.slotJob n with
  | none => exact hclk
  | some x => exact hclk.trans_eq (b.calCommit_clk x).symm
theorem Dev.slotReturn_idle (hst : d.cnvState n ≠ 3) : d.slotReturn n = d := if_pos (bne_iff_ne.mpr hst)

variable (b : Dev)

theorem Dev.rd_slotRuns {f : Fld} (hf : F.CNV_STATUS_STATE.apart f = true) (hn : n < 8) : (b.slotRuns n).rd f n = b.rd f n :=
  (Dev.rd_wr_apart hf _ _ _ _).trans (((FedOnly.refl [] b).closeSlotGap n _).rd (Fld.apart_iff.mp hf).2.1 hn.le List.not_mem_nil)
theorem Dev.slotSettled_tone : (b.slotSettled n).rd F.CNV_STATUS_TONE n = 0 :=
  (Dev.rd_congr (Dev.advance_regs _ _) _ _ _).trans (Dev.rd_flag_same b false n (by decide) rfl)
theorem Dev.slotRuns_clk : (b.slotRuns n).clk = b.clk := (Dev.wr_clk _ _ _ _ _).trans ((FedOnly.refl [] b).closeSlotGap n _).clk
theorem Dev.slotSettled_clk : (b.slotSettled n).clk = b.clk + 63 := (Dev.advance_clk _ (by decide)).trans (congrArg (· + 63) (Dev.flag_clk _ _ _ _ _))

/-- The input is RUNNING again, its gap closed and no setting held, 63 clocks after the end of its slot. -/
theorem Dev.slotReturn_returns {j : CalJob} (hn : n < 8) (hst : d.cnvState n = 3) (hjob : d.slotJob n = some j) : (d.slotReturn n).cnvState n = 1 ∧
    (d.slotReturn n).rd F.CNV_STATUS_TONE n = 0 ∧ ((d.slotReturn n).input n).slotFrom = none ∧ ((d.slotReturn n).input n).heldAtten = none ∧
    j.start + slotClocks j.cause j.paired + 63 ≤ (d.slotReturn n).clk := by
  obtain ⟨b, hclk, heq⟩ := Dev.slotReturn_due hst hjob
  have released := (EndKept.refl [F.CNV_ATTEN_ACT_SETTING.at_ n 0] ((b.slotSettled n).slotRuns n)).releaseAtten (.head _)
  rw [heq, Dev.input_releaseAtten]
  refine ⟨(released.rdInput (by decide) hn (input_notMem_setting (by decide) (by decide) n)).trans ?_,
    (released.rdInput (by decide) hn (input_notMem_setting (by decide) (by decide) n)).trans ?_, ?_, rfl, ?_⟩
  · exact Dev.rd_wr_fits _ n (by decide) (by decide)
  · exact (Dev.rd_slotRuns _ (by decide) hn).trans (Dev.slotSettled_tone b)
  · exact Dev.closeSlotGap_slotFrom _ _ _
  · rw [released.clk, Dev.slotRuns_clk, Dev.slotSettled_clk]
    omega
end

/-! ## The die temperature (R112) -/

/-- With the inputs' own state set aside, a frame over a change of it. -/
theorem Frame.inputsAside {w : List Nat} {a b : Dev} {n : Nat} {f : Input → Input} (h : Frame w (a.setInput n f) b) : Frame w a { b with inputs := a.inputs } := by
  have honly := congrArg (fun x : Dev => { x with inputs := a.inputs }) h.2
  exact ⟨h.1, honly⟩

section
variable {d : Dev} {n : Nat} {t : Int}

theorem Dev.tempDrift_beyond (hlim : d.rd F.CAL_IN_TEMP_LIM_LIM n ≠ 0)
    (hfar : d.rd F.CAL_IN_TEMP_LIM_LIM n * 4 < (t - d.rdInt F.CAL_IN_TEMP_TEMP n).natAbs) (hfirst : (d.input n).tempRaised = false) :
    d.tempDrift n t = (d.setInput n (fun i => { i with tempRaised := true })).raise 6 28 := by
  have hlim' : (d.rd F.CAL_IN_TEMP_LIM_LIM n * 4 != 0) = true := bne_iff_ne.mpr (by omega)
  unfold Dev.tempDrift
  dsimp only
  rw [hlim', decide_eq_true hfar, hfirst]
  rfl
theorem Dev.tempDrift_within (h : d.rd F.CAL_IN_TEMP_LIM_LIM n = 0 ∨
    (t - d.rdInt F.CAL_IN_TEMP_TEMP n).natAbs ≤ d.rd F.CAL_IN_TEMP_LIM_LIM n * 4 ∨ (d.input n).tempRaised = true) : d.tempDrift n t = d := by
  unfold Dev.tempDrift
  refine if_neg ?_
  rw [Bool.and_eq_true, Bool.and_eq_true, bne_iff_ne, decide_eq_true_eq, Bool.not_eq_true']
  rintro ⟨⟨hlim, hfar⟩, hfirst⟩
  rcases h with h | h | h
  · omega
  · omega
  · rw [hfirst] at h
    exact Bool.noConfusion h
/-- A temperature beyond the limit is raised and remembered. -/
theorem Dev.tempDrift_told (hlim : d.rd F.CAL_IN_TEMP_LIM_LIM n ≠ 0)
    (hfar : d.rd F.CAL_IN_TEMP_LIM_LIM n * 4 < (t - d.rdInt F.CAL_IN_TEMP_TEMP n).natAbs) (hfirst : (d.input n).tempRaised = false) :
    Raised (d.tempDrift n t) 6 28 ∧ (d.tempDrift n t).input n = { d.input n with tempRaised := true } ∧
    (∀ m, m ≠ n → (d.tempDrift n t).input m = d.input m) ∧ Frame [] d { d.tempDrift n t with inputs := d.inputs } := by
  have hinput (m : Nat) : (d.tempDrift n t).input m = if m = n then { d.input n with tempRaised := true } else d.input m := by
    rw [Dev.tempDrift_beyond hlim hfar hfirst]
    refine Eq.trans ?_ (d.input_setInput n m fun i => { i with tempRaised := true })
    unfold Dev.input
    rw [Dev.raise_inputs]
  refine ⟨?_, (hinput n).trans (if_pos rfl), fun m hm => (hinput m).trans (if_neg hm), ?_⟩
  · rw [Dev.tempDrift_beyond hlim hfar hfirst]
    exact raised_raise _ _ (by decide)
  · rw [Dev.tempDrift_beyond hlim hfar hfirst]
    exact ((Frame.refl [] (d.setInput n fun i => { i with tempRaised := true })).raise 6 28 (by decide)).inputsAside
end

/-! ## The obligation -/

/-- Settles O18: the end of an archive write by its parts, the return from a slot by what it shows before the held setting applies, a temperature by its limit. -/
theorem calibrationEndsComplete : Obligations.CalibrationEndsComplete := by
  unfold Obligations.CalibrationEndsComplete
  refine ⟨fun s => ⟨fun _ _ => rfl, fun _ => rfl, fun _ _ => rfl⟩, fun s n => ?_⟩
  have hn := n.isLt
  refine ⟨?_, ?_, ?_, ?_, ?_, ?_⟩
  · intro ok temps j t harch hin hcause
    refine completes_lift (f := fun d => d.archiveEnd ok temps) rfl ?_
    dsimp only
    rw [Dev.archiveEnd_ended ok temps harch hin hcause]
    have kept := s.dev.archiveEnded_kept ok temps n j t hn
    obtain ⟨-, -, harchive, -⟩ := Dev.archived_waits (d := s.dev) (j := j) ok t
    obtain ⟨hshown, hqueued, haccept, hraised⟩ := s.dev.archiveEnded_status ok temps n j t hn
    have hcomes := s.dev.archived_comes ok n j t
    refine ⟨kept.clk.trans (Dev.archived_clk ok t), (congrArg Cal.archive kept.cal).trans harchive, hshown, hqueued, hraised, ⟨?accept, ?stops, ?waits⟩,
      (s.dev.archiveEnded_calIn ok temps n j t hn (by decide)).trans (Dev.inputEnded_temp _ n j ok _ temps hn), ?written, ?failed, ?stale, ?result⟩
    case accept =>
      rw [haccept, Dev.archived_acceptWaits]
      simp only [Bool.or_eq_true, List.any_eq_true]
    case stops =>
      intro hst hqueue hmore
      refine s.dev.archiveEnded_stopped ok temps n j t hn hst (hcomes.trans ?_)
      rw [hqueue, Bool.false_or, List.any_eq_false]
      intro x hx
      obtain ⟨hother, hreq⟩ := hmore x hx
      simp [hother, hreq]
    case waits =>
      intro h
      refine s.dev.archiveEnded_waits ok temps n j t hn (hcomes.trans ?_)
      rw [Bool.or_eq_true, List.any_eq_true]
      simpa only [Bool.or_eq_true, beq_iff_eq] using h
    case written =>
      rintro rfl
      exact s.dev.archiveEnded_written temps n j t hn
    case failed =>
      rintro rfl
      exact s.dev.archiveEnded_failed temps n j t hn
    case stale => exact fun h => Dev.staleTold_raised _ h
    case result =>
      intro k v hdone hgood hkept
      unfold Dev.calStale
      rw [kept.cal]
      exact Dev.archived_result ok t hdone hgood hkept
  · exact fun ok temps harch => completes_lift (f := fun d => d.archiveEnd ok temps) rfl (Dev.archiveEnd_idle ok temps harch)
  · exact fun j hst hjob => completes_lift (f := fun d => d.slotReturn n) rfl (Dev.slotReturn_returns hn hst hjob)
  · exact fun hst => completes_lift (f := fun d => d.slotReturn n) rfl (Dev.slotReturn_idle hst)
  · exact fun t hlim hfar hfirst => completes_lift (f := fun d => d.tempDrift n t) rfl (Dev.tempDrift_told hlim hfar hfirst)
  · exact fun t h => completes_lift (f := fun d => d.tempDrift n t) rfl (Dev.tempDrift_within h)

end Machine
end Sys2Proof
end

