-- ==== Sys2Proof/Proofs/ProfileWindow.lean ====
section
/-! PROOFS. What a write to an LO's profile window leaves, by its command and by a register write (spec/05_clocks.md, R138): settles O60. -/

namespace Sys2Proof
namespace Machine

/-- The BAR0 offset of word k of LO i's profile window. -/
def profileOff (i : Fin 4) (k : Fin 2048) : Nat := 0x48000 + i.val * 0x2000 + k.val * 4

theorem profileOff_bounds (i : Fin 4) (k : Fin 2048) : 0x48000 ≤ profileOff i k ∧ profileOff i k < 0x50000 := by unfold profileOff; omega
theorem regOff_profileOff (i : Fin 4) (k : Fin 2048) : regOff (profileOff i k) = true := regOff_iff.mpr (by unfold profileOff; omega)

section
variable (d : Dev) (i : Fin 4) (k : Fin 2048) (v : Word)

/-- A write access to the window is served before DEVICE_READY and wakes the engine from IDLE (R458, R460). -/
theorem Dev.hostWriteAt_profile (h : d.pstate ≠ 0) (f : Dev → Dev) : d.hostWriteAt (profileOff i k) f = f d.wake := by
  obtain ⟨hlow, hhigh⟩ := profileOff_bounds i k
  have hserved : servedEarly (profileOff i k) = true := decide_eq_true (by omega)
  have hwakes : staysIdle (profileOff i k) = false := by simp only [staysIdle, Bool.or_eq_false_iff, decide_eq_false_iff_not]; omega
  unfold Dev.hostWriteAt
  rw [hserved, hwakes, if_neg h, if_neg (by simp)]
  by_cases hidle : d.pstate = 3
  · rw [if_pos (by simp [hidle])]
  · rw [if_neg (by simp [hidle]), Dev.wake, if_neg hidle]
/-- The window's offsets reach the profile write. -/
theorem Dev.hostWrite_profile : d.hostWrite (profileOff i k) v = d.profileWrite i k v := by
  obtain ⟨hlow, hhigh⟩ := profileOff_bounds i k
  have hnoloop : F.CLK_PLL_CTRL_EN.elem 29 (profileOff i k) = none :=
    if_neg fun h => absurd h.2.2 (by change ¬ (profileOff i k - 0x40100) / 0x40 < 29; omega)
  have hlo : (profileOff i k - 0x48000) / 0x2000 = i := by unfold profileOff; omega
  have hword : (profileOff i k - 0x48000) % 0x2000 / 4 = k := by unfold profileOff; omega
  have hclk : d.hostWrite (profileOff i k) v = d.writeClk (profileOff i k) v := by
    unfold Dev.hostWrite Dev.writeBy
    iterate 10 rw [if_neg (by omega)]
    rw [if_pos (by omega)]
  rw [hclk]
  unfold Dev.writeClk
  simp only [hnoloop]
  rw [if_neg (by omega), if_pos (And.intro hlow hhigh), hlo, hword]

/-- While a profile is in progress a write is discarded and counted. -/
theorem Dev.profileWrite_busy (h : d.loState i = 1 ∨ d.loState i = 2 ∨ d.loState i = 3) : d.profileWrite i k v = d.inc F.CLK_LO_WDROP_COUNT i := if_pos h
/-- Otherwise it takes effect at once. -/
theorem Dev.profileWrite_free (h : ¬ (d.loState i = 1 ∨ d.loState i = 2 ∨ d.loState i = 3)) :
    d.profileWrite i k v = d.wr F.CLK_LO_PROFILE_WORD v.toNat i k := if_neg h
theorem Dev.profileWrite_busy_holds (h : d.loState i = 1 ∨ d.loState i = 2 ∨ d.loState i = 3) :
    (d.profileWrite i k v).rd F.CLK_LO_WDROP_COUNT i = min (2 ^ 32 - 1) (d.rd F.CLK_LO_WDROP_COUNT i + 1) ∧
    Frame [F.CLK_LO_WDROP_COUNT.at_ i 0] d (d.profileWrite i k v) := by
  rw [d.profileWrite_busy i k v h]
  exact ⟨Dev.rd_inc_same d _ i 0 1 (by decide), (Frame.refl _ d).inc _ _ _ _ (.head _)⟩
theorem Dev.profileWrite_free_holds (h : ¬ (d.loState i = 1 ∨ d.loState i = 2 ∨ d.loState i = 3)) :
    (d.profileWrite i k v).reg (F.CLK_LO_PROFILE_WORD.at_ i k) = v ∧ Frame [F.CLK_LO_PROFILE_WORD.at_ i k] d (d.profileWrite i k v) := by
  rw [d.profileWrite_free i k v h]
  have hwhole : (d.wr F.CLK_LO_PROFILE_WORD v.toNat i k).rd F.CLK_LO_PROFILE_WORD i k = v.toNat :=
    (Dev.rd_wr_same d _ _ _ _ (by decide)).trans (Nat.mod_eq_of_lt v.isLt)
  exact ⟨BitVec.eq_of_toNat_eq ((Word.field_whole _).symm.trans hwhole), (Frame.refl _ d).wr _ _ _ _ (.head _)⟩
end

/-- The command and a register write of the same offset do the same. -/
theorem exec_profile {s : State} {i : Fin 4} {k : Fin 2048} {v : Word} {c : Instr}
    (hc : c = .profileWrite i k v ∨ c = .registerWrite (BitVec.ofNat 26 (F.CLK_LO_PROFILE_WORD.at_ i k)) v) (h : s.dev.pstate ≠ 0) :
    exec c s = .next { s with dev := s.dev.wake.profileWrite i k v } := by
  rcases hc with rfl | rfl
  · have hcommand : exec (.profileWrite i k v) s = lift (fun d => d.hostWriteAt (profileOff i k) fun d => d.profileWrite i k v) s := rfl
    rw [hcommand, lift, Dev.hostWriteAt_profile _ _ _ h]
  · have hword : wordOff (BitVec.ofNat 26 (profileOff i k)) = profileOff i k :=
      wordOff_of_regOff (toNat_of_regOff (regOff_profileOff i k)) (regOff_profileOff i k)
    have hwrite : exec (.registerWrite (BitVec.ofNat 26 (profileOff i k)) v) s =
        lift (fun d => d.hostWriteAt (wordOff (BitVec.ofNat 26 (profileOff i k))) fun d => d.hostWrite (wordOff (BitVec.ofNat 26 (profileOff i k))) v) s := rfl
    have hoff : F.CLK_LO_PROFILE_WORD.at_ i k = profileOff i k := rfl
    rw [hoff, hwrite, lift, hword, Dev.hostWriteAt_profile _ _ _ h, Dev.hostWrite_profile]

/-- Settles O60: both write accesses wake the engine and reach the profile write, which asks the profile's state. -/
theorem profileWindowWritesFollowTheProfileState : Obligations.ProfileWindowWritesFollowTheProfileState := by
  unfold Obligations.ProfileWindowWritesFollowTheProfileState
  intro s i k v c hc hpower d hd
  subst hd
  exact ⟨fun hbusy => ⟨_, exec_profile hc hpower, rfl, Dev.profileWrite_busy_holds _ i k v hbusy⟩,
    fun hfree => ⟨_, exec_profile hc hpower, rfl, Dev.profileWrite_free_holds _ i k v (by omega)⟩⟩

end Machine
end Sys2Proof
end

