-- ==== Sys2Proof/Proofs/ClockSteps.lean ====
section
/-! PROOFS. What a change of a loop's state and what follows it move (spec/05_clocks.md, R127–R130, R133): which bits of which registers, and that beside
registers only the clocks' own state, what inputs remember of their flags, interrupt state and driven halyards move. -/

namespace Sys2Proof
namespace Machine

/-! ## Places: the bits of a field's element -/

/-- The register offset, lowest bit and width of a field's element. -/
def Fld.place (f : Fld) (n : Nat := 0) (m : Nat := 0) : Nat × Nat × Nat := (f.at_ n m, f.lo, f.w)
/-- A field's element shares no bit with the places `l` and lies in no word that an interrupt event moves. -/
def Fld.clear (f : Fld) (n m : Nat) (l : List (Nat × Nat × Nat)) : Bool :=
  !(irqReg (f.at_ n m)) && l.all (fun x => f.at_ n m != x.1 || decide (f.lo + f.w ≤ x.2.1) || decide (x.2.1 + x.2.2 ≤ f.lo))
/-- A field that fits its word and lies above the interrupt groups. -/
def Fld.above (f : Fld) : Bool := decide (0x30900 ≤ f.off) && decide (f.lo + f.w ≤ 32)

theorem Fld.above_iff {f : Fld} : f.above = true ↔ 0x30900 ≤ f.off ∧ f.lo + f.w ≤ 32 := by simp [Fld.above]
theorem Fld.at_above {f : Fld} (hf : f.above = true) (n m : Nat) : 0x30900 ≤ f.at_ n m := by
  obtain ⟨hoff, -⟩ := Fld.above_iff.mp hf
  unfold Fld.at_
  omega
theorem Fld.clear_iff {f : Fld} {n m : Nat} {l : List (Nat × Nat × Nat)} : f.clear n m l = true ↔
    irqReg (f.at_ n m) = false ∧ ∀ x ∈ l, f.at_ n m ≠ x.1 ∨ f.lo + f.w ≤ x.2.1 ∨ x.2.1 + x.2.2 ≤ f.lo := by
  simp only [Fld.clear, Bool.and_eq_true, Bool.not_eq_true', List.all_eq_true, Bool.or_eq_true, bne_iff_ne, decide_eq_true_eq, or_assoc]
theorem Fld.clear_append {f : Fld} {n m : Nat} {l t : List (Nat × Nat × Nat)} (hl : f.clear n m l = true) (ht : f.clear n m t = true) :
    f.clear n m (l ++ t) = true := by
  rw [Fld.clear_iff] at *
  exact ⟨hl.1, fun x hx => (List.mem_append.mp hx).elim (hl.2 x) (ht.2 x)⟩

/-! ## Inputs that remember their flags -/

theorem SameInputs.refl (d : Dev) : SameInputs d d := fun _ => rfl
theorem SameInputs.trans {a b c : Dev} (h1 : SameInputs a b) (h2 : SameInputs b c) : SameInputs a c := fun n => by
  have e1 := h1 n
  rw [← h2 n] at e1
  exact e1
theorem SameInputs.of_eq {a b : Dev} (h : b.inputs = a.inputs) : SameInputs a b := fun n => by
  unfold Dev.input
  rw [h]
theorem SameInputs.idx {a b : Dev} (h : SameInputs a b) (n : Nat) : (b.input n).idx = (a.input n).idx := by rw [← h n]
theorem SameInputs.setWas (d : Dev) (n : Nat) (f : Input → List (Nat × Nat)) : SameInputs d (d.setInput n fun i => { i with was := f i }) := fun j => by
  rw [Dev.input_setInput]
  split
  next h => rw [h]
  next => rfl

/-! ## Steps -/

/-- From `a` to `b` no bit moved outside the places `l` and the words of interrupt events; beside registers, interrupt state and wires only the clocks' own state
moved, what inputs remember of their flags (R161) and, where it `drives`, the halyards' events. Pending bits stand. -/
structure ClockStep (drives : Prop) (l : List (Nat × Nat × Nat)) (a b : Dev) : Prop where
  bits : ∀ (f : Fld) (n m : Nat), f.clear n m l = true → b.rd f n m = a.rd f n m
  rest : OnlyRegs a { b with clocks := a.clocks, inputs := a.inputs, halyards := a.halyards }
  halyards : drives ∨ b.halyards = a.halyards
  inputs : SameInputs a b
  pending : ∀ g s, g < 64 → Raised a g s → Raised b g s

namespace ClockStep
variable {dr : Prop} {l : List (Nat × Nat × Nat)} {a b c : Dev}

theorem refl (dr : Prop) (l : List (Nat × Nat × Nat)) (a : Dev) : ClockStep dr l a a := ⟨fun _ _ _ _ => rfl, rfl, .inr rfl, .refl a, fun _ _ _ h => h⟩
theorem shape (h : ClockStep dr l a b) : ∃ r z i o c p y, b = { a with regs := r, regs0 := z, irq := i, out := o, clocks := c, inputs := p, halyards := y } := by
  obtain ⟨r, z, i, o, e⟩ := OnlyRegs.shape h.rest
  exact ⟨r, z, i, o, b.clocks, b.inputs, b.halyards, congrArg (fun y : Dev => { y with clocks := b.clocks, inputs := b.inputs, halyards := b.halyards }) e⟩
theorem trans (h1 : ClockStep dr l a b) (h2 : ClockStep dr l b c) : ClockStep dr l a c where
  bits f n m hf := (h2.bits f n m hf).trans (h1.bits f n m hf)
  rest := by
    obtain ⟨_, _, _, _, _, _, _, rfl⟩ := h2.shape
    obtain ⟨_, _, _, _, _, _, _, rfl⟩ := h1.shape
    rfl
  halyards := h1.halyards.elim .inl fun e1 => h2.halyards.imp_right fun e2 => e2.trans e1
  inputs := h1.inputs.trans h2.inputs
  pending g s hg hs := h2.pending g s hg (h1.pending g s hg hs)
theorem mono {t : List (Nat × Nat × Nat)} (h : ClockStep dr t a b) (ht : ∀ x ∈ t, x ∈ l) : ClockStep dr l a b :=
  { h with bits := fun f n m hf => h.bits f n m (Fld.clear_iff.mpr ⟨(Fld.clear_iff.mp hf).1, fun x hx => (Fld.clear_iff.mp hf).2 x (ht x hx)⟩) }
theorem ite (p : Prop) [Decidable p] {x y : Dev} (hx : ClockStep dr l a x) (hy : ClockStep dr l a y) : ClockStep dr l a (if p then x else y) := by
  split <;> assumption
/-- The same where a branch rests on its condition. -/
theorem iteOf (p : Prop) [Decidable p] {x y : Dev} (hx : p → ClockStep dr l a x) (hy : ¬ p → ClockStep dr l a y) : ClockStep dr l a (if p then x else y) := by
  split
  next h => exact hx h
  next h => exact hy h
theorem foldl {α : Type} {f : Dev → α → Dev} : ∀ (t : List α), (∀ x ∈ t, ∀ b, ClockStep dr l a b → ClockStep dr l a (f b x)) →
    ∀ {b : Dev}, ClockStep dr l a b → ClockStep dr l a (t.foldl f b)
  | [], _, _, h => h
  | x :: t, hf, b, h => foldl t (fun y hy => hf y (List.mem_cons_of_mem _ hy)) (hf x List.mem_cons_self b h)

/-! What a step leaves. -/

theorem clk (h : ClockStep dr l a b) : b.clk = a.clk := by obtain ⟨_, _, _, _, _, _, _, rfl⟩ := h.shape; rfl
theorem reg (h : ClockStep dr l a b) {o : Nat} (ho : ∀ x ∈ l, x.1 ≠ o) (hi : irqReg o = false) : b.reg o = a.reg o := by
  have hwhole := h.bits ⟨o, 0, 0, 0, 32⟩ 0 0 (Fld.clear_iff.mpr ⟨hi, fun x hx => .inl (ho x hx).symm⟩)
  simp only [Dev.rd, Fld.at_, Nat.zero_mul, Nat.add_zero, Word.field_whole] at hwhole
  exact BitVec.eq_of_toNat_eq hwhole
/-- A step that drives no halyard moves registers, interrupt state, wires, the clocks' own state and the inputs only. -/
theorem still (h : ClockStep False l a b) : ∃ r z i o c p, b = { a with regs := r, regs0 := z, irq := i, out := o, clocks := c, inputs := p } := by
  have hhal : b.halyards = a.halyards := h.halyards.resolve_left id
  obtain ⟨r, z, i, o, c, p, _, rfl⟩ := h.shape
  exact ⟨r, z, i, o, c, p, by rw [← hhal]⟩
/-- A step that drives no halyard is a frame but for the clocks and the inputs. -/
theorem frame (h : ClockStep False l a b) {w : List Nat} (hw : ∀ x ∈ l, x.1 ∈ w) : Frame w a { b with clocks := a.clocks, inputs := a.inputs } := by
  refine ⟨fun o ho hi => h.reg (fun x hx e => ho (e ▸ hw x hx)) hi, ?_⟩
  have hhal : b.halyards = a.halyards := h.halyards.resolve_left id
  have hrest := h.rest
  rw [← hhal] at hrest
  exact hrest
/-- A frame past the clocks that passed before the step. -/
theorem atTime {d : Dev} {t : Nat} (h : ClockStep False l (d.advanceTo t) b) {w : List Nat} (hw : ∀ x ∈ l, x.1 ∈ w) :
    Frame w d { b.atTime d with clocks := d.clocks } := by
  refine ⟨fun o ho hi => ((h.frame hw).1 o ho hi).trans (Dev.reg_congr (Dev.advanceTo_regs d t) o), ?_⟩
  have hhal : b.halyards = (d.advanceTo t).halyards := h.halyards.resolve_left id
  obtain ⟨_, _, _, _, _, _, _, rfl⟩ := h.shape
  obtain ⟨_, _, _, _, _, e⟩ := Dev.advance_shape d (t - d.clk)
  rw [Dev.advanceTo_halyards] at hhal
  subst hhal
  rw [Dev.advanceTo, e]
  rfl

/-! Single moves. -/

theorem withClocks (h : ClockStep dr l a b) (x : Clocks) : ClockStep dr l a { b with clocks := x } :=
  h.trans ⟨fun _ _ _ _ => rfl, rfl, .inr rfl, fun _ => rfl, fun _ _ _ hs => hs⟩
theorem setLo (h : ClockStep dr l a b) (i : Nat) (f : Lo → Lo) : ClockStep dr l a (b.setLo i f) := h.withClocks _
theorem wr (h : ClockStep dr l a b) (f : Fld) (v n m : Nat) (hm : f.place n m ∈ l) (hf : f.above = true := by decide) : ClockStep dr l a (b.wr f v n m) := by
  refine h.trans ⟨fun g i j hg => ?_, rfl, .inr rfl, fun _ => rfl, fun g s hgs hs => hs.wr_high hgs (Fld.at_above hf n m) v⟩
  rcases (Fld.clear_iff.mp hg).2 _ hm with hoff | hlow | hhigh
  · exact Dev.rd_wr_ne _ _ _ _ _ _ _ _ hoff
  · exact Dev.rd_wr_field _ _ _ _ _ _ _ _ (Fld.above_iff.mp hf).2 (.inr hlow)
  · exact Dev.rd_wr_field _ _ _ _ _ _ _ _ (Fld.above_iff.mp hf).2 (.inl hhigh)
theorem flag (h : ClockStep dr l a b) (f : Fld) (v : Bool) (n m : Nat) (hm : f.place n m ∈ l) (hf : f.above = true := by decide) :
    ClockStep dr l a (b.flag f v n m) := h.wr f _ n m hm hf
theorem inc (h : ClockStep dr l a b) (f : Fld) (n m k : Nat) (hm : f.place n m ∈ l) (hf : f.above = true := by decide) :
    ClockStep dr l a (b.inc f n m k) := h.wr f _ n m hm hf
theorem raise (h : ClockStep dr l a b) (g s : Nat) (hg : g < 64) (hs : s < 32) : ClockStep dr l a (b.raise g s) := by
  refine h.trans ⟨fun f n m hf => Dev.rd_raise b s f n m hg (Fld.clear_iff.mp hf).1, ?_, .inr (Dev.raise_halyards _ _ _), ?_, fun _ _ _ ht => ht.raise s hs⟩
  · obtain ⟨_, _, _, _, e⟩ := Dev.raise_shape b g s
    rw [e]
    rfl
  · exact .of_eq (Dev.raise_inputs _ _ _)
theorem setWas (h : ClockStep dr l a b) (n : Nat) (f : Input → List (Nat × Nat)) : ClockStep dr l a (b.setInput n fun i => { i with was := f i }) :=
  h.trans ⟨fun _ _ _ _ => rfl, rfl, .inr rfl, .setWas b n f, fun _ _ _ hs => hs⟩
theorem flagging (n : Nat) {f : Dev → Dev} (hf : ClockStep dr l a (f b)) : ClockStep dr l a (b.flagging n f) := by
  unfold Dev.flagging
  exact .ite _ hf (hf.setWas n _)
theorem driveHalyard (h : ClockStep dr l a b) (hd : dr) (k pos : Nat) (tag : Option Nat) (hm : F.FMR_HAL_MERGE_COUNT.place k ∈ l) :
    ClockStep dr l a (b.driveHalyard k pos tag) := by
  have withHalyards (t : List HalEvent) : ClockStep dr l a { b with halyards := t } :=
    h.trans ⟨fun _ _ _ _ => rfl, rfl, .inl hd, fun _ => rfl, fun _ _ _ hs => hs⟩
  rcases b.driveHalyard_cases k pos tag with ⟨t, e⟩ | ⟨t, e⟩ <;> rw [e]
  · exact withHalyards t
  · exact ((withHalyards t).inc F.FMR_HAL_MERGE_COUNT k 0 1 hm).raise 7 9 (by decide) (by decide)
theorem recordDriver (h : ClockStep dr l a b) (k kind index : Nat) (hk : F.FMR_HAL_DRV_KIND.place k ∈ l) (hi : F.FMR_HAL_DRV_INDEX.place k ∈ l) :
    ClockStep dr l a (b.recordDriver k kind index) := (h.wr F.FMR_HAL_DRV_KIND kind k 0 hk).wr F.FMR_HAL_DRV_INDEX index k 0 hi
end ClockStep

/-! ## A loop's state -/

/-- The holdover condition that the inputs show (R130). -/
def holdoverPlaces : List (Nat × Nat × Nat) := (List.range 8).map (fun n => F.CNV_STATUS_HOLDOVER.place n)
/-- What shows a change of loop p's state (R127, R129, R130, R133, R140). -/
def loopPlaces (p : Nat) : List (Nat × Nat × Nat) :=
  [F.CLK_PLL_STATUS_STATE.place p, F.CLK_PLL_HOLDTIME_US.place p, F.CLK_LOCK_SUM_LOCKED.place, F.CLK_HOLD_SUM_HOLD.place, F.CLK_STATUS_HOLD_ANY.place,
    F.CLK_STATUS_BYPASS_ANY.place] ++ holdoverPlaces ++ (List.range 4).map (fun i => F.CLK_LO_STATUS_MUTED.place i) ++
    (if p = 27 then [F.TIM_STATUS_BYPASS.place] else [])
/-- The same without the state itself. -/
def loopShown (p : Nat) : List (Nat × Nat × Nat) := (loopPlaces p).tail

theorem mem_holdoverPlaces {n : Nat} (hn : n < 8) : F.CNV_STATUS_HOLDOVER.place n ∈ holdoverPlaces := List.mem_map.mpr ⟨n, List.mem_range.mpr hn, rfl⟩
theorem loopShown_mem {p : Nat} : ∀ x ∈ loopShown p, x ∈ loopPlaces p := fun _ hx => List.mem_of_mem_tail hx
theorem muted_mem_loopShown {i : Nat} (hi : i < 4) (p : Nat) : F.CLK_LO_STATUS_MUTED.place i ∈ loopShown p := by
  have hmem : F.CLK_LO_STATUS_MUTED.place i ∈ (List.range 4).map (fun i => F.CLK_LO_STATUS_MUTED.place i) := List.mem_map.mpr ⟨i, List.mem_range.mpr hi, rfl⟩
  simp [loopShown, loopPlaces, hmem]
theorem holdover_mem_loopShown (p : Nat) : ∀ x ∈ holdoverPlaces, x ∈ loopShown p := fun x hx => by simp [loopShown, loopPlaces, hx]

theorem ClockStep.showHoldover {dr : Prop} {l : List (Nat × Nat × Nat)} {a b : Dev} (h : ClockStep dr l a b) (hl : ∀ x ∈ holdoverPlaces, x ∈ l) :
    ClockStep dr l a b.showHoldover :=
  foldl _ (fun n hn _ hc => flagging n (hc.flag F.CNV_STATUS_HOLDOVER _ n 0 (hl _ (mem_holdoverPlaces (List.mem_range.mp hn))))) h
theorem ClockStep.showMuted {dr : Prop} {l : List (Nat × Nat × Nat)} {a b : Dev} (h : ClockStep dr l a b) (i : Nat) (hm : F.CLK_LO_STATUS_MUTED.place i ∈ l) :
    ClockStep dr l a (b.showMuted i) := h.flag F.CLK_LO_STATUS_MUTED _ i 0 hm

section
variable (d : Dev) (p st : Nat)

/-- Loop p with its state written: the time held in HOLDOVER or BYPASS is added before (R140). -/
def Dev.loopStated : Dev :=
  (if d.loop p = 4 ∨ d.loop p = 5 then d.inc F.CLK_PLL_HOLDTIME_US p 0 (((d.clk : Int) - d.clocks.since.getD p 0).toNat / 1000) else d).wr F.CLK_PLL_STATUS_STATE st p

theorem ClockStep.loopStated {dr : Prop} {d : Dev} : ClockStep dr (loopPlaces p) d (d.loopStated p st) :=
  (ClockStep.ite _ ((ClockStep.refl _ _ d).inc F.CLK_PLL_HOLDTIME_US p 0 _ (by simp [loopPlaces])) (.refl _ _ d)).wr F.CLK_PLL_STATUS_STATE st p 0 (by simp [loopPlaces])

theorem ClockStep.showBypass {dr : Prop} {l : List (Nat × Nat × Nat)} {a b : Dev} (h : ClockStep dr l a b) (v : Bool) (hm : p = 27 → F.TIM_STATUS_BYPASS.place ∈ l) :
    ClockStep dr l a (if p = 27 then b.flag F.TIM_STATUS_BYPASS v else b) := by
  split
  next hp => exact h.flag F.TIM_STATUS_BYPASS v 0 0 (hm hp)
  next => exact h
theorem ClockStep.showMutedOf {dr : Prop} {l : List (Nat × Nat × Nat)} {a b : Dev} (h : ClockStep dr l a b) (hm : ∀ i, i < 4 → F.CLK_LO_STATUS_MUTED.place i ∈ l) :
    ClockStep dr l a (if 8 ≤ p ∧ p < 12 then b.showMuted (p - 8) else b) := by
  split
  next hp => exact h.showMuted _ (hm _ (by omega))
  next => exact h

/-- What follows the state of a loop moves none of it. -/
theorem Dev.setLoop_shown (dr : Prop) : ClockStep dr (loopShown p) (d.loopStated p st) (d.setLoop p st) := by
  have hsum : F.CLK_LOCK_SUM_LOCKED.place ∈ loopShown p := by simp [loopShown, loopPlaces]
  have hhold : F.CLK_HOLD_SUM_HOLD.place ∈ loopShown p := by simp [loopShown, loopPlaces]
  have hany : F.CLK_STATUS_HOLD_ANY.place ∈ loopShown p := by simp [loopShown, loopPlaces]
  have hbyp : F.CLK_STATUS_BYPASS_ANY.place ∈ loopShown p := by simp [loopShown, loopPlaces]
  have htim : p = 27 → F.TIM_STATUS_BYPASS.place ∈ loopShown p := fun hp => by simp [loopShown, loopPlaces, hp]
  have sums := fun c v w x y => (((((ClockStep.refl dr (loopShown p) (d.loopStated p st)).withClocks c).wr F.CLK_LOCK_SUM_LOCKED v 0 0 hsum).wr
    F.CLK_HOLD_SUM_HOLD w 0 0 hhold).flag F.CLK_STATUS_HOLD_ANY x 0 0 hany).flag F.CLK_STATUS_BYPASS_ANY y 0 0 hbyp
  exact (((sums _ _ _ _ _).showBypass p (st == 5) htim).showHoldover (holdover_mem_loopShown p)).showMutedOf p fun i hi => muted_mem_loopShown hi p

theorem ClockStep.setLoop {dr : Prop} {l : List (Nat × Nat × Nat)} {a b : Dev} (h : ClockStep dr l a b) (hl : ∀ x ∈ loopPlaces p, x ∈ l) :
    ClockStep dr l a (b.setLoop p st) :=
  h.trans (((ClockStep.loopStated p st).trans ((b.setLoop_shown p st dr).mono loopShown_mem)).mono hl)

theorem Dev.showHoldover_clocks (b : Dev) : b.showHoldover.clocks = b.clocks := by
  have shown : ShownOnly b b.showHoldover := .foldl (fun c n hc => .flagging n (hc.flag F.CNV_STATUS_HOLDOVER (c.holdover n) n 0)) _ (.refl b)
  obtain ⟨_, _, e⟩ := shown
  rw [e]
theorem Dev.loopStated_clocks : (d.loopStated p st).clocks = d.clocks := by
  unfold Dev.loopStated
  rw [Dev.wr_clocks]
  split <;> rfl
/-- Of the clocks' own state a change of a loop's state moves when it began, its lock counts and whether its ACQUIRE follows a search. -/
theorem Dev.setLoop_clocks : ∃ s q r, (d.setLoop p st).clocks = { d.clocks with since := s, searched := q, runs := r } := by
  have tail (y : Dev) (v : Bool) : (if 8 ≤ p ∧ p < 12 then (if p = 27 then y.flag F.TIM_STATUS_BYPASS v else y).showHoldover.showMuted (p - 8)
      else (if p = 27 then y.flag F.TIM_STATUS_BYPASS v else y).showHoldover).clocks = y.clocks := by
    have bypass : (if p = 27 then y.flag F.TIM_STATUS_BYPASS v else y).showHoldover.clocks = y.clocks := by
      rw [Dev.showHoldover_clocks]
      split <;> rfl
    split <;> exact bypass
  rw [← d.loopStated_clocks p st]
  exact ⟨_, _, _, tail _ _⟩
end

/-! ## What a loop's state leaves alone -/

/-- Neither what follows a loop's state, nor other loops' states, move it. -/
theorem state_clear_loopShown : ∀ p : Fin 29, F.CLK_PLL_STATUS_STATE.clear p 0 (loopShown p) = true := by decide +kernel
theorem state_clear_loopPlaces : ∀ p q : Fin 29, p ≠ q → F.CLK_PLL_STATUS_STATE.clear q 0 (loopPlaces p) = true := by decide +kernel
/-- Fields of the loop itself that its state does not move. -/
def loopFields : List Fld :=
  [F.CLK_PLL_CTRL_EN, F.CLK_PLL_CTRL_RELOCK, F.CLK_PLL_STATUS_BAND, F.CLK_PLL_STATUS_DIV, F.CLK_PLL_PHASE_ERR, F.CLK_PLL_LOCKTIME_US, F.CLK_PLL_UNLOCKS_COUNT]
theorem loopFields_clear : ∀ p : Fin 29, ∀ f ∈ loopFields, f.clear p 0 (loopPlaces p) = true := by decide +kernel
/-- Single fields that no loop's state moves. -/
def clockFields : List Fld :=
  [F.CLK_STATUS_CODE, F.CLK_STATUS_ALIGNED, F.XTL_STATUS_REF_OK, F.XTL_STATUS_REF_DET, F.XTL_CTRL_MODE, F.XTL_CTRL_REF_FREQ, F.XTL_CTRL_DISC_BW, F.XTL_CTRL_REFOUT_EN,
    F.SYS_STATUS_PSTATE]
theorem clockFields_clear : ∀ p : Fin 29, ∀ f ∈ clockFields, f.clear 0 0 (loopPlaces p) = true := by decide +kernel

section
variable (d : Dev) (p : Fin 29)

theorem Dev.loop_setLoop {st : Nat} (hst : st < 8) : (d.setLoop p st).loop p = st :=
  ((d.setLoop_shown p st False).bits F.CLK_PLL_STATUS_STATE p 0 (state_clear_loopShown p)).trans (Dev.rd_wr_fits _ _ (by decide) hst)
theorem Dev.rd_setLoop {f : Fld} (hf : f ∈ loopFields) (st : Nat) : (d.setLoop p st).rd f p = d.rd f p :=
  ((ClockStep.refl False _ d).setLoop p st fun _ hx => hx).bits f p 0 (loopFields_clear p f hf)
theorem Dev.rd_setLoop_single {f : Fld} (hf : f ∈ clockFields) (st : Nat) : (d.setLoop p st).rd f = d.rd f :=
  ((ClockStep.refl False _ d).setLoop p st fun _ hx => hx).bits f 0 0 (clockFields_clear p f hf)
theorem Dev.lo_setLoop (st i : Nat) : (d.setLoop p st).lo i = d.lo i := by
  obtain ⟨_, _, _, e⟩ := d.setLoop_clocks p st
  unfold Dev.lo
  rw [e]
end

/-- The registers of a loop's places are those that show its state. -/
theorem place_mem_loopRegs : ∀ p : Fin 29, ∀ x ∈ loopPlaces p, x.1 ∈ loopRegs p := by decide +kernel

theorem ClockStep.leftLocked {dr : Prop} {l : List (Nat × Nat × Nat)} {a b : Dev} (h : ClockStep dr l a b) {p : Nat} (hp : p < 32) (old : Nat) :
    ClockStep dr l a (b.leftLocked p old) := .ite _ (h.raise 1 p (by decide) hp) h
theorem Dev.leftLocked_raised (d : Dev) {p : Nat} (hp : p < 32) {old : Nat} (h : old = 3) : Raised (d.leftLocked p old) 1 p := by
  unfold Dev.leftLocked
  rw [if_pos h]
  exact raised_raise d p hp

/-! ## The loss of lock -/

/-- What the loss of lock moves. -/
def lostPlaces (p : Nat) : List (Nat × Nat × Nat) := F.CLK_PLL_UNLOCKS_COUNT.place p :: loopPlaces p
theorem state_clear_unlocks : ∀ p : Fin 29, F.CLK_PLL_STATUS_STATE.clear p 0 [F.CLK_PLL_UNLOCKS_COUNT.place p] = true := by decide
theorem unlocks_quiet : ∀ p : Fin 29, irqReg (F.CLK_PLL_UNLOCKS_COUNT.at_ p 0) = false := by decide
theorem state_quiet : ∀ p : Fin 29, irqReg (F.CLK_PLL_STATUS_STATE.at_ p 0) = false := by decide

section
variable (d : Dev) (p : Fin 29) (st : Nat)

/-- A loop loses lock (R125, R140): its state, the count of its losses, its event. -/
def Dev.lost : Dev := ((d.setLoop p st).inc F.CLK_PLL_UNLOCKS_COUNT p).raise 1 p
theorem ClockStep.lost {dr : Prop} {l : List (Nat × Nat × Nat)} {a b : Dev} (h : ClockStep dr l a b) (hl : ∀ x ∈ lostPlaces p, x ∈ l) :
    ClockStep dr l a (b.lost p st) :=
  ((h.setLoop p st fun x hx => hl x (.tail _ hx)).inc F.CLK_PLL_UNLOCKS_COUNT p 0 1 (hl _ (.head _))).raise 1 p (by decide) (by omega)
theorem Dev.lost_raised : Raised (d.lost p st) 1 p := raised_raise _ p (by omega)
theorem Dev.lost_loop (hst : st < 8) : (d.lost p st).loop p = st := by
  have hcounted := ((ClockStep.refl False _ (d.setLoop p st)).inc F.CLK_PLL_UNLOCKS_COUNT p 0 1 (.head [])).bits F.CLK_PLL_STATUS_STATE p 0 (state_clear_unlocks p)
  exact (Dev.rd_raise _ _ _ _ _ (by decide) (state_quiet p)).trans (hcounted.trans (d.loop_setLoop p hst))
theorem Dev.lost_unlocks : (d.lost p st).rd F.CLK_PLL_UNLOCKS_COUNT p = min (2 ^ 32 - 1) (d.rd F.CLK_PLL_UNLOCKS_COUNT p + 1) := by
  rw [Dev.lost, Dev.rd_raise _ _ _ _ _ (by decide) (unlocks_quiet p), Dev.rd_inc_same _ _ _ _ _ (by decide), d.rd_setLoop p (by decide) st]
  rfl
end

end Machine
end Sys2Proof
end

