-- ==== Sys2Proof/Proofs/Crystal.lean ====
section
/-! PROOFS. What the crystal's updates and the writes of its registers leave (spec/05_clocks.md, R116–R121): settles O19. -/

namespace Sys2Proof

/-- An integer in range is read back from its two's-complement pattern. -/
theorem signed_unsigned {v : Int} (h0 : -(2 ^ 31 : Int) ≤ v) (h1 : v < 2 ^ 31) : signed 32 (unsigned 32 v) = v := by
  unfold signed unsigned
  split <;> omega
theorem unsigned_lt (w : Nat) (v : Int) : unsigned w v < 2 ^ w := by
  have hpos : (0 : Int) < (2 ^ w : Nat) := by exact_mod_cast Nat.two_pow_pos w
  have hlt := Int.emod_lt_of_pos v hpos
  have hnonneg := Int.emod_nonneg v hpos.ne'
  unfold unsigned
  omega

namespace Machine

/-! ## The correction (R116) -/

/-- What shows the correction. -/
def corrPlaces : List (Nat × Nat × Nat) := [F.XTL_CORR_CORR.place, F.XTL_STATUS_CLAMP.place]

theorem clampInt_bounds {lo hi : Int} (h : lo ≤ hi) (v : Int) : lo ≤ clampInt lo hi v ∧ clampInt lo hi v ≤ hi := by
  unfold clampInt
  split_ifs <;> omega

theorem ClockStep.applyXtl {dr : Prop} {l : List (Nat × Nat × Nat)} {a b : Dev} (h : ClockStep dr l a b) (hl : ∀ x ∈ corrPlaces, x ∈ l) :
    ClockStep dr l a b.applyXtl :=
  (h.wr F.XTL_CORR_CORR _ 0 0 (hl _ (by simp [corrPlaces]))).flag F.XTL_STATUS_CLAMP _ 0 0 (hl _ (by simp [corrPlaces]))
theorem Frame.applyXtl {w : List Nat} {a b : Dev} (h : Frame w a b) (hcorr : 0x50C14 ∈ w) (hst : 0x50C04 ∈ w) : Frame w a b.applyXtl :=
  (h.wr F.XTL_CORR_CORR _ 0 0 hcorr).flag F.XTL_STATUS_CLAMP _ 0 0 hst
/-- A field clear of the correction keeps its value. -/
theorem Dev.rd_applyXtl (d : Dev) {f : Fld} {n m : Nat} (hf : f.clear n m corrPlaces = true) : d.applyXtl.rd f n m = d.rd f n m :=
  ((ClockStep.refl False _ d).applyXtl fun _ hx => hx).bits f n m hf

/-- The correction rests on its registers and the temperature term. -/
theorem CorrectionFormed.congr {d e : Dev} (h : CorrectionFormed d) (hregs : e.regs = d.regs) (hterm : e.clocks.tempTerm = d.clocks.tempTerm) :
    CorrectionFormed e := by
  unfold CorrectionFormed Dev.rdInt at *
  simpa only [Dev.rd_congr hregs, hterm] using h
/-- The correction formed anew is the clamped sum of its terms. -/
theorem Dev.applyXtl_forms (d : Dev) : CorrectionFormed d.applyXtl := by
  have hage : d.applyXtl.rdInt F.XTL_AGE_AGE = d.rdInt F.XTL_AGE_AGE := congrArg (signed 32) (d.rd_applyXtl (by decide))
  have htune : d.applyXtl.rdInt F.XTL_TUNE_TUNE = d.rdInt F.XTL_TUNE_TUNE := congrArg (signed 32) (d.rd_applyXtl (by decide))
  have hterm : d.applyXtl.clocks.tempTerm = d.clocks.tempTerm := rfl
  unfold CorrectionFormed
  rw [hage, htune, hterm]
  generalize hsum : d.clocks.tempTerm + d.rdInt F.XTL_AGE_AGE + d.rdInt F.XTL_TUNE_TUNE = t
  obtain ⟨hlow, hhigh⟩ := clampInt_bounds (lo := -50000000) (hi := 50000000) (by decide) t
  have heq : d.applyXtl = (d.wr F.XTL_CORR_CORR (unsigned 32 (clampInt (-50000000) 50000000 t))).flag F.XTL_STATUS_CLAMP (decide (clampInt (-50000000) 50000000 t ≠ t)) := by
    rw [← hsum]
    rfl
  refine ⟨?_, ?_⟩
  · have hcorr : d.applyXtl.rd F.XTL_CORR_CORR = unsigned 32 (clampInt (-50000000) 50000000 t) := by
      rw [heq, Dev.flag, Dev.rd_wr_ne _ _ _ _ _ _ _ _ (by decide)]
      exact Dev.rd_wr_fits _ 0 (by decide) (unsigned_lt 32 _)
    unfold Dev.rdInt
    rw [hcorr]
    exact signed_unsigned (by omega) (by omega)
  · rw [heq, Dev.rd_flag_same _ _ 0 (by decide) rfl]
    by_cases hc : clampInt (-50000000) 50000000 t = t <;> simp [hc]

/-! ## The updates (R117, R118) -/

section
variable (d : Dev)

/-- The temperature term rests on the table. -/
theorem Dev.tempTerm_congr {d e : Dev} (h : ∀ k : Nat, k < 16 → e.rd F.XTL_TC_TEMP_TEMP k = d.rd F.XTL_TC_TEMP_TEMP k ∧ e.rd F.XTL_TC_CORR_CORR k = d.rd F.XTL_TC_CORR_CORR k)
    (t : Int) : e.tempTerm t = d.tempTerm t := by
  have htemp : ∀ k, k < 16 → e.rdInt F.XTL_TC_TEMP_TEMP k = d.rdInt F.XTL_TC_TEMP_TEMP k := fun k hk => congrArg (signed 16) (h k hk).1
  have hcorr : ∀ k, k < 16 → e.rdInt F.XTL_TC_CORR_CORR k = d.rdInt F.XTL_TC_CORR_CORR k := fun k hk => congrArg (signed 32) (h k hk).2
  have hfind : (List.range 15).find? (fun k => decide (t < e.rdInt F.XTL_TC_TEMP_TEMP (k + 1))) =
      (List.range 15).find? (fun k => decide (t < d.rdInt F.XTL_TC_TEMP_TEMP (k + 1))) :=
    List.find?_congr fun k hk => by rw [htemp (k + 1) (by have := List.mem_range.mp hk; omega)]
  unfold Dev.tempTerm
  dsimp only
  simp only [hfind, htemp 0 (by decide), hcorr 0 (by decide), hcorr 15 (by decide)]
  cases hk : (List.range 15).find? (fun k => decide (t < d.rdInt F.XTL_TC_TEMP_TEMP (k + 1))) with
  | none => rfl
  | some k =>
    have hlt := List.mem_range.mp (List.mem_of_find?_eq_some hk)
    simp only [htemp k (by omega), hcorr k (by omega), htemp (k + 1) (by omega), hcorr (k + 1) (by omega)]

/-- The temperature taken, with its term. -/
def Dev.tempTaken (t : Int) : Dev :=
  { d.wr F.XTL_TEMP_TEMP (unsigned 16 t) with clocks := { d.clocks with tempTerm := (d.wr F.XTL_TEMP_TEMP (unsigned 16 t)).tempTerm t } }
/-- The same with the tuning that loop 28 gives while it steers (R117, R120). -/
def Dev.tempTuned (t : Int) : Dev :=
  if (d.tempTaken t).rd F.XTL_CTRL_MODE = 1 ∧ (d.tempTaken t).is F.XTL_STATUS_REF_OK = true ∧ ((d.tempTaken t).loop 28 = 2 ∨ (d.tempTaken t).loop 28 = 3) then
    ((d.tempTaken t).wr F.XTL_TUNE_TUNE (d.tempTaken t).fresh).usedFree
  else d.tempTaken t

theorem Dev.xtlTick_eq (t : Int) : d.xtlTick t = (d.tempTuned t).applyXtl := rfl
theorem Dev.tempTaken_step (t : Int) : ClockStep False [F.XTL_TEMP_TEMP.place] d (d.tempTaken t) :=
  ((ClockStep.refl False _ d).wr F.XTL_TEMP_TEMP (unsigned 16 t) 0 0 (.head _)).withClocks _
theorem table_clear : ∀ k : Fin 16, F.XTL_TC_TEMP_TEMP.clear k 0 [F.XTL_TEMP_TEMP.place] = true ∧ F.XTL_TC_CORR_CORR.clear k 0 [F.XTL_TEMP_TEMP.place] = true := by
  decide
theorem Dev.tempTaken_term (t : Int) : (d.tempTaken t).clocks.tempTerm = d.tempTerm t :=
  Dev.tempTerm_congr (fun k hk => ⟨(d.tempTaken_step t).bits _ k 0 (table_clear ⟨k, hk⟩).1, (d.tempTaken_step t).bits _ k 0 (table_clear ⟨k, hk⟩).2⟩) t

/-- What the tuning leaves of the temperature taken. -/
theorem Dev.tempTuned_cases (t : Int) : d.tempTuned t = d.tempTaken t ∨
    (d.rd F.XTL_CTRL_MODE = 1 ∧ ∃ v, d.tempTuned t = ((d.tempTaken t).wr F.XTL_TUNE_TUNE v).usedFree) := by
  unfold Dev.tempTuned
  split
  next h => exact .inr ⟨((d.tempTaken_step t).bits F.XTL_CTRL_MODE 0 0 (by decide)).symm.trans h.1, _, rfl⟩
  next => exact .inl rfl
theorem Dev.tempTuned_holds (t : Int) : (d.tempTuned t).rd F.XTL_TEMP_TEMP = unsigned 16 t ∧ (d.tempTuned t).clocks.tempTerm = d.tempTerm t ∧
    (d.rd F.XTL_CTRL_MODE ≠ 1 → (d.tempTuned t).rd F.XTL_TUNE_TUNE = d.rd F.XTL_TUNE_TUNE) ∧
    Frame [0x50C08, 0x50C18] d { d.tempTuned t with clocks := d.clocks, freeCtr := d.freeCtr } := by
  have htemp : (d.tempTaken t).rd F.XTL_TEMP_TEMP = unsigned 16 t := Dev.rd_wr_fits d 0 (by decide) (unsigned_lt 16 t)
  have htaken : Frame [0x50C08, 0x50C18] d (d.wr F.XTL_TEMP_TEMP (unsigned 16 t)) := (Frame.refl _ d).wr _ _ _ _ (by decide)
  rcases d.tempTuned_cases t with e | ⟨hmode, v, e⟩ <;> rw [e]
  · exact ⟨htemp, d.tempTaken_term t, fun _ => (d.tempTaken_step t).bits F.XTL_TUNE_TUNE 0 0 (by decide), htaken⟩
  · have hkept : ((d.tempTaken t).wr F.XTL_TUNE_TUNE v).rd F.XTL_TEMP_TEMP = (d.tempTaken t).rd F.XTL_TEMP_TEMP := Dev.rd_wr_ne _ _ _ _ _ _ _ _ (by decide)
    exact ⟨hkept.trans htemp, d.tempTaken_term t, fun h => absurd hmode h, htaken.wr F.XTL_TUNE_TUNE v 0 0 (by decide)⟩

/-- The 1 ms update (R117): the temperature shown, its term and the correction. -/
theorem Dev.xtlTick_holds (t : Int) : (d.xtlTick t).rd F.XTL_TEMP_TEMP = unsigned 16 t ∧ (d.xtlTick t).clocks.tempTerm = d.tempTerm t ∧
    CorrectionFormed (d.xtlTick t) ∧ (d.rd F.XTL_CTRL_MODE ≠ 1 → (d.xtlTick t).rd F.XTL_TUNE_TUNE = d.rd F.XTL_TUNE_TUNE) ∧
    Frame [0x50C04, 0x50C08, 0x50C14, 0x50C18] d
      { d.xtlTick t with clocks := { (d.xtlTick t).clocks with tempTerm := d.clocks.tempTerm }, freeCtr := d.freeCtr } := by
  obtain ⟨htemp, hterm, htune, hframe⟩ := d.tempTuned_holds t
  have hcorr := (ClockStep.refl False corrPlaces (d.tempTuned t)).applyXtl fun _ hx => hx
  rw [d.xtlTick_eq]
  have hkept : Frame [0x50C04, 0x50C08, 0x50C14, 0x50C18] _ _ := hcorr.frame (by decide)
  have hmoved : Frame [0x50C04, 0x50C08, 0x50C14, 0x50C18] _ _ := Frame.mono hframe (by decide)
  refine ⟨(hcorr.bits F.XTL_TEMP_TEMP 0 0 (by decide)).trans htemp, hterm, Dev.applyXtl_forms _,
    fun h => (hcorr.bits F.XTL_TUNE_TUNE 0 0 (by decide)).trans (htune h), fun o ho hi => (hkept.1 o ho hi).trans (hmoved.1 o ho hi), ?_⟩
  rcases d.tempTuned_cases t with e | ⟨-, v, e⟩ <;> rw [e] <;> rfl

/-- The ageing update (R118). -/
theorem Dev.xtlAged_holds :
    d.xtlAged.rd F.XTL_AGE_AGE = unsigned 32 (d.rdInt F.XTL_AGE_AGE + (d.clocks.ageAcc + d.rdInt F.XTL_AGE_RATE_RATE) / 1000000) ∧
    d.xtlAged.clocks.ageAcc = (d.clocks.ageAcc + d.rdInt F.XTL_AGE_RATE_RATE) % 1000000 ∧ CorrectionFormed d.xtlAged ∧
    Frame [0x50C04, 0x50C0C, 0x50C14] d { d.xtlAged with clocks := { d.xtlAged.clocks with ageAcc := d.clocks.ageAcc } } := by
  generalize hacc : d.clocks.ageAcc + d.rdInt F.XTL_AGE_RATE_RATE = acc
  have heq : d.xtlAged = (({ d with clocks := { d.clocks with ageAcc := acc % 1000000 } } : Dev).wr F.XTL_AGE_AGE
      (unsigned 32 (d.rdInt F.XTL_AGE_AGE + acc / 1000000))).applyXtl := by
    rw [← hacc]
    rfl
  have hcorr := fun b : Dev => (ClockStep.refl False corrPlaces b).applyXtl fun _ hx => hx
  rw [heq]
  refine ⟨((hcorr _).bits F.XTL_AGE_AGE 0 0 (by decide)).trans (Dev.rd_wr_fits _ 0 (by decide) (unsigned_lt 32 _)), rfl, Dev.applyXtl_forms _, ?_⟩
  exact ((Frame.refl _ d).wr F.XTL_AGE_AGE _ 0 0 (by decide)).applyXtl (by decide) (by decide)
/-- The daily store (R118). -/
theorem Dev.xtlStore_holds : d.xtlStore.nvs.bytes 0x50000 8 = leBytes 4 (d.rd F.XTL_AGE_AGE) ++ leBytes 4 (d.rd F.XTL_AGE_RATE_RATE) ∧
    (∀ a, a < 0x50000 ∨ 0x50008 ≤ a → d.xtlStore.nvs.byte a = d.nvs.byte a) ∧ { d.xtlStore with nvs := d.nvs } = d := by
  have hlen : (leBytes 4 (d.rd F.XTL_AGE_AGE) ++ leBytes 4 (d.rd F.XTL_AGE_RATE_RATE)).length = 8 := by simp [leBytes]
  refine ⟨?_, fun a ha => Mem.byte_storeBytes_out _ _ _ _ (by rw [hlen]; omega), rfl⟩
  have hbytes := d.nvs.bytes_storeBytes 0x50000 (leBytes 4 (d.rd F.XTL_AGE_AGE) ++ leBytes 4 (d.rd F.XTL_AGE_RATE_RATE))
  rw [hlen] at hbytes
  exact hbytes

/-! ## The values a host writes (R118, R119) -/

theorem Dev.xtlTune_ref (v : Word) (h : d.rd F.XTL_CTRL_MODE = 1) : d.xtlTune v = d := if_pos h
theorem Dev.xtlTune_holds (v : Word) (h : d.rd F.XTL_CTRL_MODE ≠ 1) :
    (d.xtlTune v).rd F.XTL_TUNE_TUNE = v.toNat ∧ CorrectionFormed (d.xtlTune v) ∧ Frame [0x50C04, 0x50C08, 0x50C14] d (d.xtlTune v) := by
  have heq : d.xtlTune v = (d.wr F.XTL_TUNE_TUNE v.toNat).applyXtl := if_neg h
  rw [heq]
  exact ⟨(Dev.rd_applyXtl _ (by decide)).trans (Dev.rd_wr_fits d 0 (by decide) v.isLt), Dev.applyXtl_forms _,
    ((Frame.refl _ d).wr F.XTL_TUNE_TUNE _ 0 0 (by decide)).applyXtl (by decide) (by decide)⟩
theorem Dev.xtlAge_rate_holds (v : Word) : (d.xtlAge true v).rd F.XTL_AGE_RATE_RATE = v.toNat ∧ Frame [0x50C10] d (d.xtlAge true v) :=
  ⟨Dev.rd_wr_fits d 0 (by decide) v.isLt, (Frame.refl _ d).wr F.XTL_AGE_RATE_RATE _ 0 0 (.head _)⟩
theorem Dev.xtlAge_holds (v : Word) : (d.xtlAge false v).rd F.XTL_AGE_AGE = v.toNat ∧ CorrectionFormed (d.xtlAge false v) ∧
    Frame [0x50C04, 0x50C0C, 0x50C14] d (d.xtlAge false v) :=
  ⟨(Dev.rd_applyXtl _ (by decide)).trans (Dev.rd_wr_fits d 0 (by decide) v.isLt), Dev.applyXtl_forms _,
    ((Frame.refl _ d).wr F.XTL_AGE_AGE _ 0 0 (by decide)).applyXtl (by decide) (by decide)⟩

/-! ## Loop 28 (R120, R127) -/

theorem Dev.loop28_step (dr : Prop) : ClockStep dr (loopPlaces 28) d d.loop28 :=
  .ite _ (.ite _ (.refl ..) (((ClockStep.refl ..).setLoop 28 0 fun _ hx => hx).leftLocked (by decide) _))
    (.ite _ ((ClockStep.refl ..).setLoop 28 2 fun _ hx => hx) (.refl ..))
/-- Outside mode REF loop 28 is OFF. -/
theorem Dev.loop28_off (h : d.rd F.XTL_CTRL_MODE ≠ 1) : d.loop28.loop 28 = 0 := by
  unfold Dev.loop28
  rw [if_pos (by simpa using h)]
  split
  next hoff => exact hoff
  next =>
    have hkept := ((ClockStep.refl False [] (d.setLoop 28 0)).leftLocked (p := 28) (by decide) (d.loop 28)).bits F.CLK_PLL_STATUS_STATE 28 0 (by decide)
    exact hkept.trans (d.loop_setLoop 28 (by decide))
/-- In mode REF a loop 28 that is OFF takes up a qualified REF IN. -/
theorem Dev.loop28_acquires (hmode : d.rd F.XTL_CTRL_MODE = 1) (hoff : d.loop 28 = 0) (hok : d.rd F.XTL_STATUS_REF_OK = 1) : d.loop28.loop 28 = 2 := by
  unfold Dev.loop28
  rw [if_neg (by simp [hmode]), if_pos (by simp [hoff, Dev.is_eq_true hok])]
  exact d.loop_setLoop 28 (by decide)
end

/-! ## The mode (R119–R121) -/

/-- What shows the correction and the holdover condition of the inputs. -/
def modePlaces : List (Nat × Nat × Nat) := holdoverPlaces ++ corrPlaces
/-- The fields of `XTL_CTRL` (spec/05_clocks.md). -/
def xtlFields : List FieldRow :=
  [⟨"MODE", 1, 0, .rw, 0⟩, ⟨"REF_FREQ", 5, 4, .rw, 0⟩, ⟨"DISC_BW", 9, 8, .rw, 1⟩, ⟨"REFOUT_EN", 12, 12, .rw, 1⟩]
theorem rowOf_xtlCtrl : (rowOf 0x50C00).map (·.fields) = some xtlFields := by decide +kernel

section
variable (d : Dev) (v : Word)

/-- A write of `XTL_CTRL` stores every field. -/
theorem Dev.field_plainWrite_xtl {f : FieldRow} (hf : f ∈ xtlFields) :
    ((d.plainWrite 0x50C00 v).reg 0x50C00).field f.lo (f.hi - f.lo + 1) = v.field f.lo (f.hi - f.lo + 1) := by
  obtain ⟨r, hr, hfields⟩ := Option.map_eq_some_iff.mp rowOf_xtlCtrl
  have hrw : ∀ g ∈ xtlFields, g.acc = .rw := by decide
  unfold Dev.plainWrite
  rw [hr]
  dsimp only
  rw [Dev.reg_setReg0, Dev.reg_setReg_same, hfields, field_mergeFields _ _ _ _ (by decide) (by decide) f hf, hrw f hf]
  rfl
/-- REF OUT driven moves no register. -/
theorem Dev.showRefOut_step : ClockStep False modePlaces d d.showRefOut :=
  .ite _ (.refl ..) ⟨fun _ _ _ _ => rfl, rfl, .inr rfl, .refl d, fun _ _ _ hs => hs⟩
theorem Dev.showRefOut_refOut : d.showRefOut.clocks.refOut = d.refOutOn := by
  unfold Dev.showRefOut
  split
  next h => exact h.symm
  next => rfl
theorem Dev.showRefOut_forms (h : CorrectionFormed d) : CorrectionFormed d.showRefOut := by
  unfold Dev.showRefOut
  split
  · exact h
  · exact h.congr rfl rfl

/-- What a write of the mode shows after loop 28. -/
def Dev.modeShown : Dev := d.showHoldover.applyXtl
theorem Dev.modeShown_step : ClockStep False modePlaces d d.modeShown :=
  ((ClockStep.refl False modePlaces d).showHoldover fun _ hx => List.mem_append_left _ hx).applyXtl fun _ hx => List.mem_append_right _ hx
theorem state28_clear_modePlaces : F.CLK_PLL_STATUS_STATE.clear 28 0 modePlaces = true := by decide
/-- The places of a whole write of the mode, without its own word. -/
def ctrlPlaces : List (Nat × Nat × Nat) := loopPlaces 28 ++ modePlaces
theorem ctrl_clear : ∀ f ∈ [F.XTL_CTRL_MODE, F.XTL_CTRL_REF_FREQ, F.XTL_CTRL_DISC_BW, F.XTL_CTRL_REFOUT_EN, F.SYS_STATUS_PSTATE], f.clear 0 0 ctrlPlaces = true := by decide +kernel
theorem mem_ctrlRegs : ∀ x ∈ ctrlPlaces, x.1 ∈ [0x50C00, 0x50C04, 0x50C14] ++ loopRegs 28 := by decide +kernel

/-- A write of the mode before REF OUT follows it. -/
def Dev.xtlMoved : Dev := (d.plainWrite 0x50C00 v).loop28.modeShown
theorem Dev.xtlCtrl_eq : d.xtlCtrl v = (d.xtlMoved v).showRefOut := rfl
theorem Dev.xtlMoved_step : ClockStep False ctrlPlaces (d.plainWrite 0x50C00 v) (d.xtlMoved v) :=
  ((Dev.loop28_step _ False).mono fun _ hx => List.mem_append_left _ hx).trans ((Dev.modeShown_step _).mono fun _ hx => List.mem_append_right _ hx)
theorem Dev.xtlCtrl_step : ClockStep False ctrlPlaces (d.plainWrite 0x50C00 v) (d.xtlCtrl v) :=
  (d.xtlMoved_step v).trans ((Dev.showRefOut_step _).mono fun _ hx => List.mem_append_right _ hx)
theorem Dev.xtlCtrl_frame : SameInputs d (d.xtlCtrl v) ∧
    Frame ([0x50C00, 0x50C04, 0x50C14] ++ loopRegs 28) d { d.xtlCtrl v with clocks := d.clocks, inputs := d.inputs } := by
  have hplain : Frame ([0x50C00, 0x50C04, 0x50C14] ++ loopRegs 28) d (d.plainWrite 0x50C00 v) := (Frame.refl _ d).plainWrite (.head _) v
  have hstep := d.xtlCtrl_step v
  obtain ⟨r, z, i, o, e⟩ := OnlyRegs.shape hplain.2
  have hinputs : (d.plainWrite 0x50C00 v).inputs = d.inputs := by rw [e]
  have hclocks : (d.plainWrite 0x50C00 v).clocks = d.clocks := by rw [e]
  refine ⟨(SameInputs.of_eq hinputs).trans hstep.inputs, ?_⟩
  have hframe := hplain.trans (hstep.frame mem_ctrlRegs)
  rwa [hclocks, hinputs] at hframe

/-- A write of `XTL_CTRL` (R119–R121). -/
theorem Dev.xtlCtrl_holds (hrun : d.pstate = 2) :
    (d.xtlCtrl v).rd F.XTL_CTRL_MODE = v.field 0 2 ∧ (d.xtlCtrl v).rd F.XTL_CTRL_REF_FREQ = v.field 4 2 ∧
    (d.xtlCtrl v).rd F.XTL_CTRL_DISC_BW = v.field 8 2 ∧ (d.xtlCtrl v).rd F.XTL_CTRL_REFOUT_EN = v.field 12 1 ∧
    (v.field 0 2 ≠ 1 → (d.xtlCtrl v).loop 28 = 0) ∧ (v.field 0 2 = 1 → d.loop 28 = 0 → d.rd F.XTL_STATUS_REF_OK = 1 → (d.xtlCtrl v).loop 28 = 2) ∧
    CorrectionFormed (d.xtlCtrl v) ∧ (d.xtlCtrl v).clocks.refOut = (decide (v.field 12 1 = 1) && decide (2 ≤ d.power.step)) := by
  have hplain : Frame [0x50C00] d (d.plainWrite 0x50C00 v) := (Frame.refl _ d).plainWrite (.head _) v
  have hstep := d.xtlCtrl_step v
  have hmode : (d.plainWrite 0x50C00 v).rd F.XTL_CTRL_MODE = v.field 0 2 := d.field_plainWrite_xtl v (f := ⟨"MODE", 1, 0, .rw, 0⟩) (by decide)
  have hout : (d.plainWrite 0x50C00 v).rd F.XTL_CTRL_REFOUT_EN = v.field 12 1 := d.field_plainWrite_xtl v (f := ⟨"REFOUT_EN", 12, 12, .rw, 1⟩) (by decide)
  have hloop : (d.xtlCtrl v).loop 28 = (d.plainWrite 0x50C00 v).loop28.loop 28 :=
    ((Dev.modeShown_step _).trans (Dev.showRefOut_step _)).bits F.CLK_PLL_STATUS_STATE 28 0 state28_clear_modePlaces
  refine ⟨(hstep.bits F.XTL_CTRL_MODE 0 0 (ctrl_clear _ (by simp))).trans hmode,
    (hstep.bits F.XTL_CTRL_REF_FREQ 0 0 (ctrl_clear _ (by simp))).trans (d.field_plainWrite_xtl v (f := ⟨"REF_FREQ", 5, 4, .rw, 0⟩) (by decide)),
    (hstep.bits F.XTL_CTRL_DISC_BW 0 0 (ctrl_clear _ (by simp))).trans (d.field_plainWrite_xtl v (f := ⟨"DISC_BW", 9, 8, .rw, 1⟩) (by decide)),
    (hstep.bits F.XTL_CTRL_REFOUT_EN 0 0 (ctrl_clear _ (by simp))).trans hout, fun h => ?_, fun h hoff hok => ?_, Dev.showRefOut_forms _ (Dev.applyXtl_forms _), ?_⟩
  · rw [hloop]
    exact Dev.loop28_off _ (hmode ▸ h)
  · rw [hloop]
    refine Dev.loop28_acquires _ (hmode.trans h) ((congrArg (fun w : Word => w.field _ _) ?_).trans hoff) ((congrArg (fun w : Word => w.field _ _) ?_).trans hok)
    · exact hplain.1 _ (by decide) (by decide)
    · exact hplain.1 _ (by decide) (by decide)
  · have hmoved := d.xtlMoved_step v
    have hen : (d.xtlMoved v).is F.XTL_CTRL_REFOUT_EN = decide (v.field 12 1 = 1) := by
      rw [Dev.is_eq_decide _ 0 rfl, hmoved.bits F.XTL_CTRL_REFOUT_EN 0 0 (ctrl_clear _ (by simp)), hout]
    have hpower : (d.xtlMoved v).rd F.SYS_STATUS_PSTATE = 2 := by
      rw [hmoved.bits F.SYS_STATUS_PSTATE 0 0 (ctrl_clear _ (by simp)), Dev.rd, hplain.1 _ (by decide) (by decide)]
      exact hrun
    have hstart : (d.xtlMoved v).power = d.power := by
      obtain ⟨_, _, _, _, _, _, e⟩ := hmoved.still
      obtain ⟨_, _, _, _, eplain⟩ := OnlyRegs.shape hplain.2
      rw [e, eplain]
    rw [Dev.xtlCtrl_eq, Dev.showRefOut_refOut, Dev.refOutOn, hen, hpower, hstart]
    simp
end

/-! ## REF IN (R120) -/

section
variable (d : Dev)

/-- REF IN shown: whether it qualified, its frequency's code, its presence. -/
def Dev.refShown (ok : Bool) (code : Nat) : Dev :=
  { (d.flag F.XTL_STATUS_REF_OK ok).wr F.XTL_STATUS_REF_DET code with power := { d.power with refPresent := ok } }
/-- The places of REF IN. -/
def refPlaces : List (Nat × Nat × Nat) := [F.XTL_STATUS_REF_OK.place, F.XTL_STATUS_REF_DET.place]
theorem ref_clear : (∀ f ∈ [F.CLK_PLL_STATUS_STATE, F.CLK_PLL_UNLOCKS_COUNT], f.clear 28 0 refPlaces = true) ∧ F.XTL_CTRL_MODE.clear 0 0 refPlaces = true := by decide

theorem Dev.refShown_bits (ok : Bool) (code : Nat) {f : Fld} {n m : Nat} (hf : f.clear n m refPlaces = true) : (d.refShown ok code).rd f n m = d.rd f n m :=
  (((ClockStep.refl False refPlaces d).flag F.XTL_STATUS_REF_OK ok 0 0 (by decide)).wr F.XTL_STATUS_REF_DET code 0 0 (by decide)).bits f n m hf
theorem Dev.refShown_ok (ok : Bool) (code : Nat) : (d.refShown ok code).rd F.XTL_STATUS_REF_OK = if ok then 1 else 0 := by
  have hkept : ((d.flag F.XTL_STATUS_REF_OK ok).wr F.XTL_STATUS_REF_DET code).rd F.XTL_STATUS_REF_OK = (d.flag F.XTL_STATUS_REF_OK ok).rd F.XTL_STATUS_REF_OK :=
    Dev.rd_wr_field _ _ _ _ _ _ _ _ (by decide) (by decide)
  exact hkept.trans (Dev.rd_flag_same d ok 0 (by decide) rfl)
theorem Dev.refShown_det (ok : Bool) {code : Nat} (h : code < 4) : (d.refShown ok code).rd F.XTL_STATUS_REF_DET = code := Dev.rd_wr_fits _ 0 (by decide) h

/-- A frame around a step from REF IN shown. -/
theorem Dev.refShown_frame (ok : Bool) (code : Nat) {l : List (Nat × Nat × Nat)} {w : List Nat} {e : Dev} (h : ClockStep False l (d.refShown ok code) e)
    (hl : ∀ x ∈ l, x.1 ∈ w) (hst : 0x50C04 ∈ w) : SameInputs d e ∧ e.power.refPresent = ok ∧
    Frame w d { e with power := { e.power with refPresent := d.power.refPresent }, clocks := d.clocks, inputs := d.inputs } := by
  have hshown : Frame w d ((d.flag F.XTL_STATUS_REF_OK ok).wr F.XTL_STATUS_REF_DET code) := ((Frame.refl _ d).flag _ ok 0 0 hst).wr _ code 0 0 hst
  have hkept := (h.frame hl).1
  have hinputs : SameInputs d e := SameInputs.trans (SameInputs.of_eq rfl) h.inputs
  obtain ⟨_, _, _, _, _, _, rfl⟩ := h.still
  exact ⟨hinputs, rfl, fun o ho hi => (hkept o ho hi).trans (hshown.1 o ho hi), rfl⟩

/-- REF IN qualifies (R120): a match of its frequency that is not the selected one changes nothing. -/
theorem Dev.refQualified_ignored {hundred : Bool} (h : d.rd F.XTL_CTRL_REF_FREQ = if hundred then 1 else 2) : d.refQualified hundred = d := by
  unfold Dev.refQualified
  cases hundred <;> simp [h]
theorem Dev.refQualified_eq {hundred : Bool} (h : d.rd F.XTL_CTRL_REF_FREQ ≠ if hundred then 1 else 2) :
    d.refQualified hundred = (d.refShown true (if hundred then 2 else 1)).loop28 := by
  unfold Dev.refQualified
  cases hundred <;> exact if_neg (by simpa using h)
theorem Dev.refQualified_holds {hundred : Bool} (h : d.rd F.XTL_CTRL_REF_FREQ ≠ if hundred then 1 else 2) :
    (d.refQualified hundred).rd F.XTL_STATUS_REF_OK = 1 ∧ (d.refQualified hundred).rd F.XTL_STATUS_REF_DET = (if hundred then 2 else 1) ∧
    (d.refQualified hundred).power.refPresent = true ∧ (d.rd F.XTL_CTRL_MODE = 1 → d.loop 28 = 0 → (d.refQualified hundred).loop 28 = 2) ∧
    SameInputs d (d.refQualified hundred) ∧
    Frame (0x50C04 :: loopRegs 28) d { d.refQualified hundred with
      power := { (d.refQualified hundred).power with refPresent := d.power.refPresent }, clocks := d.clocks, inputs := d.inputs } := by
  rw [d.refQualified_eq h]
  generalize hcode : (if hundred then 2 else 1) = code
  have hcode4 : code < 4 := by rw [← hcode]; split <;> decide
  have hstep := (d.refShown true code).loop28_step False
  have hok : (d.refShown true code).rd F.XTL_STATUS_REF_OK = 1 := d.refShown_ok true code
  obtain ⟨hinputs, hpresent, hframe⟩ := d.refShown_frame true code hstep (w := 0x50C04 :: loopRegs 28) (fun x hx => .tail _ (place_mem_loopRegs 28 x hx)) (.head _)
  refine ⟨(hstep.bits F.XTL_STATUS_REF_OK 0 0 (clockFields_clear 28 _ (by decide))).trans hok,
    (hstep.bits F.XTL_STATUS_REF_DET 0 0 (clockFields_clear 28 _ (by decide))).trans (d.refShown_det true hcode4), hpresent, fun hmode hoff => ?_, hinputs, hframe⟩
  exact Dev.loop28_acquires _ ((d.refShown_bits true code ref_clear.2).trans hmode) ((d.refShown_bits true code (ref_clear.1 F.CLK_PLL_STATUS_STATE (by simp))).trans hoff) hok

/-- A locked loop 28 coasts when REF IN is lost (R120). -/
theorem Dev.refDisqualified_eq : d.refDisqualified = if d.loop 28 = 3 then (d.refShown false 0).lost 28 4 else d.refShown false 0 := by
  have hloop : (d.refShown false 0).loop 28 = d.loop 28 := d.refShown_bits false 0 (ref_clear.1 F.CLK_PLL_STATUS_STATE (by simp))
  rw [← hloop]
  rfl
theorem Dev.refDisqualified_step : ClockStep False (lostPlaces 28) (d.refShown false 0) d.refDisqualified := by
  rw [d.refDisqualified_eq]
  exact .ite _ ((ClockStep.refl ..).lost 28 4 fun _ hx => hx) (.refl ..)
theorem Dev.refDisqualified_holds : d.refDisqualified.rd F.XTL_STATUS_REF_OK = 0 ∧ d.refDisqualified.rd F.XTL_STATUS_REF_DET = 0 ∧
    d.refDisqualified.power.refPresent = false ∧
    (d.loop 28 = 3 → d.refDisqualified.loop 28 = 4 ∧ Raised d.refDisqualified 1 28 ∧
      d.refDisqualified.rd F.CLK_PLL_UNLOCKS_COUNT 28 = min (2 ^ 32 - 1) (d.rd F.CLK_PLL_UNLOCKS_COUNT 28 + 1)) ∧
    (d.loop 28 ≠ 3 → d.refDisqualified.loop 28 = d.loop 28) ∧ SameInputs d d.refDisqualified ∧
    Frame (0x50C04 :: F.CLK_PLL_UNLOCKS_COUNT.at_ 28 0 :: loopRegs 28) d { d.refDisqualified with
      power := { d.refDisqualified.power with refPresent := d.power.refPresent }, clocks := d.clocks, inputs := d.inputs } := by
  have hstep := d.refDisqualified_step
  have hplaces : ∀ x ∈ lostPlaces 28, x.1 ∈ 0x50C04 :: F.CLK_PLL_UNLOCKS_COUNT.at_ 28 0 :: loopRegs 28 := by decide +kernel
  obtain ⟨hinputs, hpresent, hframe⟩ := d.refShown_frame false 0 hstep hplaces (.head _)
  refine ⟨(hstep.bits F.XTL_STATUS_REF_OK 0 0 (by decide +kernel)).trans (d.refShown_ok false 0),
    (hstep.bits F.XTL_STATUS_REF_DET 0 0 (by decide +kernel)).trans (d.refShown_det false (by decide)), hpresent, fun h => ?_, fun h => ?_, hinputs, hframe⟩
  · rw [d.refDisqualified_eq, if_pos h]
    have hcount : (d.refShown false 0).rd F.CLK_PLL_UNLOCKS_COUNT 28 = d.rd F.CLK_PLL_UNLOCKS_COUNT 28 := d.refShown_bits false 0 (ref_clear.1 _ (by simp))
    exact ⟨Dev.lost_loop _ 28 4 (by decide), Dev.lost_raised _ 28 4, hcount ▸ Dev.lost_unlocks _ 28 4⟩
  · rw [d.refDisqualified_eq, if_neg h]
    exact d.refShown_bits false 0 (ref_clear.1 F.CLK_PLL_STATUS_STATE (by simp))
end

/-- Settles O19: each command's meaning and what it leaves, from the lemmas above. -/
theorem crystalCommandsComplete : Obligations.CrystalCommandsComplete := by
  unfold Obligations.CrystalCommandsComplete
  refine ⟨fun s => ⟨fun t => rfl, rfl, rfl, fun hundred => rfl, rfl, fun hrun => ⟨fun v => ?_, fun v => ?_, fun rate v => ?_⟩⟩, fun s => ⟨fun t => ?_, ?_, ?_,
    fun v hrun => ?_, fun v hrun href => ?_, fun v hrun href => ?_, fun v hrun => ?_, fun v hrun => ?_, fun hundred h => ?_, fun hundred h => ?_, ?_⟩⟩
  · exact exec_host_run (f := fun d => d.xtlCtrl v) rfl hrun
  · exact exec_host_run (f := fun d => d.xtlTune v) rfl hrun
  · exact exec_host_run (f := fun d => d.xtlAge rate v) rfl hrun
  · exact completes_lift (f := fun d => d.xtlTick t) rfl (s.dev.xtlTick_holds t)
  · exact completes_lift (f := Dev.xtlAged) rfl s.dev.xtlAged_holds
  · exact completes_lift (f := Dev.xtlStore) rfl s.dev.xtlStore_holds
  · obtain ⟨hmode, hfreq, hbw, hen, hoff, hacq, hcorr, hout⟩ := s.dev.xtlCtrl_holds v hrun
    exact completes_host (f := fun d => d.xtlCtrl v) rfl hrun ⟨hmode, hfreq, hbw, hen, hoff, hacq, hcorr, hout, s.dev.xtlCtrl_frame v⟩
  · exact completes_host (f := fun d => d.xtlTune v) rfl hrun (s.dev.xtlTune_ref v href)
  · exact completes_host (f := fun d => d.xtlTune v) rfl hrun (s.dev.xtlTune_holds v href)
  · exact completes_host (f := fun d => d.xtlAge true v) rfl hrun (s.dev.xtlAge_rate_holds v)
  · exact completes_host (f := fun d => d.xtlAge false v) rfl hrun (s.dev.xtlAge_holds v)
  · exact completes_lift (f := fun d => d.refQualified hundred) rfl (s.dev.refQualified_holds h)
  · exact completes_lift (f := fun d => d.refQualified hundred) rfl (s.dev.refQualified_ignored h)
  · exact completes_lift (f := Dev.refDisqualified) rfl s.dev.refDisqualified_holds

end Machine
end Sys2Proof
end

