-- ==== Sys2Proof/Proofs/LoSteps.lean ====
section
/-! PROOFS. What the operations of an LO profile move (spec/05_clocks.md, R133–R137). -/

namespace Sys2Proof
namespace Machine

/-! ## Places -/

/-- The merge counts of halyards below N. -/
def mergePlaces (N : Nat) : List (Nat × Nat × Nat) := (List.range N).map (fun h => F.FMR_HAL_MERGE_COUNT.place h)
/-- The recorded drivers of the halyards. -/
def driverPlaces : List (Nat × Nat × Nat) := (List.range 64).flatMap (fun h => [F.FMR_HAL_DRV_KIND.place h, F.FMR_HAL_DRV_INDEX.place h])
/-- What a segment moves when it begins, beside the status word's state and number; it drives a halyard below N. -/
def beginPlaces (i N : Nat) : List (Nat × Nat × Nat) := loopPlaces (8 + i) ++ F.CLK_PLL_STATUS_DIV.place (8 + i) :: mergePlaces N
/-- What the end of a profile moves beside its state. -/
def releasePlaces (i : Nat) : List (Nat × Nat × Nat) := F.CLK_LO_STATUS_MUTED.place i :: driverPlaces
/-- The status word's state, number and latched STEP of LO i. -/
def statusPlaces (i : Nat) : List (Nat × Nat × Nat) := [F.CLK_LO_STATUS_SEG.place i, F.CLK_LO_STATUS_PSTATE.place i, F.CLK_LO_STATUS_STEP_LATCHED.place i]
/-- The fields of an LO's status word that its operations write. -/
def statusFields : List Fld := [F.CLK_LO_STATUS_SEG, F.CLK_LO_STATUS_PSTATE, F.CLK_LO_STATUS_STEP_LATCHED]

theorem mem_mergePlaces {h N : Nat} (hh : h < N) : F.FMR_HAL_MERGE_COUNT.place h ∈ mergePlaces N := List.mem_map.mpr ⟨h, List.mem_range.mpr hh, rfl⟩
theorem kind_mem_driverPlaces {h : Nat} (hh : h < 64) : F.FMR_HAL_DRV_KIND.place h ∈ driverPlaces :=
  List.mem_flatMap.mpr ⟨h, List.mem_range.mpr hh, .head _⟩
theorem index_mem_driverPlaces {h : Nat} (hh : h < 64) : F.FMR_HAL_DRV_INDEX.place h ∈ driverPlaces :=
  List.mem_flatMap.mpr ⟨h, List.mem_range.mpr hh, .tail _ (.head _)⟩
theorem loopPlaces_mem_beginPlaces {i N : Nat} : ∀ x ∈ loopPlaces (8 + i), x ∈ beginPlaces i N := fun _ hx => List.mem_append_left _ hx
theorem mergePlaces_mem_beginPlaces {i N : Nat} : ∀ x ∈ mergePlaces N, x ∈ beginPlaces i N := fun _ hx => List.mem_append_right _ (.tail _ hx)
theorem muted_mem_beginPlaces (i : Fin 4) (N : Nat) : F.CLK_LO_STATUS_MUTED.place i ∈ beginPlaces i N :=
  loopPlaces_mem_beginPlaces _ (loopShown_mem _ (muted_mem_loopShown i.isLt _))

/-- No operation moves the status fields but where it writes them. -/
theorem status_clear_beginPlaces : ∀ i : Fin 4, ∀ f ∈ statusFields, f.clear i 0 (beginPlaces i 256) = true := by decide +kernel
theorem status_clear_mergePlaces : ∀ i : Fin 4, ∀ f ∈ statusFields, f.clear i 0 (mergePlaces 256) = true := by decide +kernel
theorem status_clear_releasePlaces : ∀ i : Fin 4, ∀ f ∈ statusFields, f.clear i 0 (releasePlaces i) = true := by decide +kernel

/-- No place lies in a profile window. -/
def besideProfile (l : List (Nat × Nat × Nat)) : Bool := l.all (fun x => decide (x.1 < 0x48000) || decide (0x50000 ≤ x.1))
theorem besideProfile_beginPlaces : ∀ i : Fin 4, besideProfile (beginPlaces i 256) = true := by decide +kernel
theorem besideProfile_statusPlaces : ∀ i : Fin 4, besideProfile (statusPlaces i) = true := by decide

/-! ## Segments -/

section
variable {dr : Prop} {l : List (Nat × Nat × Nat)} {a b : Dev} (i : Fin 4)

theorem ClockStep.profileWord (h : ClockStep dr l a b) (hl : besideProfile l = true) {k : Nat} (hk : k < 2048) :
    b.rd F.CLK_LO_PROFILE_WORD i k = a.rd F.CLK_LO_PROFILE_WORD i k := by
  have hoff : F.CLK_LO_PROFILE_WORD.at_ i k = 0x48000 + i * 0x2000 + k * 4 := rfl
  refine h.bits _ _ _ (Fld.clear_iff.mpr ⟨irqReg_between (by omega) (by omega), fun x hx => .inl ?_⟩)
  have hbeside := List.all_eq_true.mp hl x hx
  simp only [Bool.or_eq_true, decide_eq_true_eq] at hbeside
  omega
/-- A step that moves no profile word keeps every segment. -/
theorem ClockStep.segment (h : ClockStep dr l a b) (hl : besideProfile l = true) {s : Nat} (hs : s < 256) : b.segment i s = a.segment i s := by
  have hword : ∀ k, k < 8 → b.rd F.CLK_LO_PROFILE_WORD i (8 * s + k) = a.rd F.CLK_LO_PROFILE_WORD i (8 * s + k) :=
    fun k hk => h.profileWord i hl (by omega)
  unfold Dev.segment
  simp only [hword 0 (by decide), hword 1 (by decide), hword 2 (by decide), hword 3 (by decide), hword 4 (by decide), hword 5 (by decide), hword 6 (by decide),
    hword 7 (by decide)]
theorem Dev.segment_halyard_lt (d : Dev) (i s : Nat) : (d.segment i s).halyard < 256 := Nat.mod_lt _ (by decide)
end

/-! ## The operations -/

section
variable {dr : Prop} {l : List (Nat × Nat × Nat)} {a b : Dev}

theorem ClockStep.releaseDriver (h : ClockStep dr l a b) (kind index : Nat) (hl : ∀ x ∈ driverPlaces, x ∈ l) :
    ∀ n, n ≤ 64 → ClockStep dr l a (b.releaseDriver kind index n)
  | 0, _ => h
  | n + 1, hn => by
    have ih := h.releaseDriver kind index hl n (by omega)
    exact .ite _ (ih.recordDriver n 0 0 (hl _ (kind_mem_driverPlaces (by omega))) (hl _ (index_mem_driverPlaces (by omega)))) ih
theorem ClockStep.loPause (h : ClockStep dr l a b) (i k : Nat) : ClockStep dr l a (b.loPause i k) := h.withClocks _
theorem ClockStep.loActs (h : ClockStep True l a b) (i N : Nat) (hl : ∀ x ∈ mergePlaces N, x ∈ l)
    (hN : (b.segment i (b.rd F.CLK_LO_STATUS_SEG i)).halyard < N) : ClockStep True l a (b.loActs i) :=
  .ite _ (((h.setLo i _).raise 1 30 (by decide) (by decide)).driveHalyard trivial _ 0 none (hl _ (mem_mergePlaces hN))) (h.setLo i _)

end

section
variable (d : Dev) (i : Fin 4)

/-- The status word of a segment that begins. -/
def Dev.loBegun (i s : Nat) : Dev := (d.wr F.CLK_LO_STATUS_SEG s i).wr F.CLK_LO_STATUS_PSTATE 1 i
theorem Dev.loBegun_step (dr : Prop) (s : Nat) : ClockStep dr (statusPlaces i) d (d.loBegun i s) :=
  ((ClockStep.refl ..).wr F.CLK_LO_STATUS_SEG s i 0 (by simp [statusPlaces])).wr F.CLK_LO_STATUS_PSTATE 1 i 0 (by simp [statusPlaces])
theorem Dev.loBegun_seg {s : Nat} (hs : s < 256) : (d.loBegun i s).rd F.CLK_LO_STATUS_SEG i = s := by
  have hkept : (d.loBegun i s).rd F.CLK_LO_STATUS_SEG i = (d.wr F.CLK_LO_STATUS_SEG s i).rd F.CLK_LO_STATUS_SEG i :=
    Dev.rd_wr_field _ _ _ _ _ _ _ _ (by decide) (by decide)
  exact hkept.trans (Dev.rd_wr_fits d i (by decide) hs)
theorem Dev.loBegun_state (s : Nat) : (d.loBegun i s).loState i = 1 := Dev.rd_wr_fits _ i (by decide) (by decide)
theorem Dev.loBegun_latched (s : Nat) : (d.loBegun i s).rd F.CLK_LO_STATUS_STEP_LATCHED i = d.rd F.CLK_LO_STATUS_STEP_LATCHED i := by
  have hfirst : (d.loBegun i s).rd F.CLK_LO_STATUS_STEP_LATCHED i = (d.wr F.CLK_LO_STATUS_SEG s i).rd F.CLK_LO_STATUS_STEP_LATCHED i :=
    Dev.rd_wr_field _ _ _ _ _ _ _ _ (by decide) (by decide)
  exact hfirst.trans (Dev.rd_wr_field _ _ _ _ _ _ _ _ (by decide) (by decide))

/-- A step clear of the profile window and of the status fields keeps the segment in hand. -/
theorem ClockStep.inHand {dr : Prop} {l : List (Nat × Nat × Nat)} {a b : Dev} (h : ClockStep dr l a b) (hl : besideProfile l = true)
    (hseg : F.CLK_LO_STATUS_SEG.clear i 0 l = true) :
    b.segment i (b.rd F.CLK_LO_STATUS_SEG i) = a.segment i (a.rd F.CLK_LO_STATUS_SEG i) := by
  rw [h.bits F.CLK_LO_STATUS_SEG i 0 hseg]
  exact h.segment i hl (Dev.rd_lt a F.CLK_LO_STATUS_SEG i 0)
theorem seg_clear_beginPlaces {N : Nat} (hN : N ≤ 256) : F.CLK_LO_STATUS_SEG.clear i 0 (beginPlaces i N) = true ∧ besideProfile (beginPlaces i N) = true := by
  have hsub : ∀ x ∈ beginPlaces i N, x ∈ beginPlaces i 256 := fun x hx => by
    rcases List.mem_append.mp hx with hloop | hrest
    · exact loopPlaces_mem_beginPlaces x hloop
    · refine List.mem_append_right _ ((List.mem_cons.mp hrest).elim (fun e => e ▸ .head _) fun hmerge => .tail _ ?_)
      obtain ⟨h, hh, rfl⟩ := List.mem_map.mp hmerge
      exact mem_mergePlaces (by have := List.mem_range.mp hh; omega)
  have hclear := Fld.clear_iff.mp (status_clear_beginPlaces i F.CLK_LO_STATUS_SEG (by simp [statusFields]))
  exact ⟨Fld.clear_iff.mpr ⟨hclear.1, fun x hx => hclear.2 x (hsub x hx)⟩,
    List.all_eq_true.mpr fun x hx => List.all_eq_true.mp (besideProfile_beginPlaces i) x (hsub x hx)⟩

/-- A segment that begins moves its loop, its divider, its mute and the halyard it drives. -/
theorem Dev.loBegin_step {s N : Nat} (hs : s < 256) (hN : (d.segment i s).halyard < N) (hN256 : N ≤ 256) :
    ClockStep True (beginPlaces i N) (d.loBegun i s) (d.loBegin i s) := by
  obtain ⟨hseg, hbeside⟩ := seg_clear_beginPlaces i hN256
  have hmuted := muted_mem_beginPlaces i N
  have hhand : (d.loBegun i s).segment i ((d.loBegun i s).rd F.CLK_LO_STATUS_SEG i) = d.segment i s := by
    rw [d.loBegun_seg i hs]
    exact (d.loBegun_step i True s).segment i (besideProfile_statusPlaces i) hs
  have acts {b : Dev} (hb : ClockStep True (beginPlaces i N) (d.loBegun i s) b) : ClockStep True (beginPlaces i N) (d.loBegun i s) (b.loActs i) :=
    hb.loActs i N mergePlaces_mem_beginPlaces (by rw [hb.inHand i hbeside hseg, hhand]; exact hN)
  have searches {b : Dev} (hb : ClockStep True (beginPlaces i N) (d.loBegun i s) b) (div : Nat) :
      ClockStep True (beginPlaces i N) (d.loBegun i s) ((b.wr F.CLK_PLL_STATUS_DIV div (8 + i)).setLoop (8 + i) 1) :=
    (hb.wr F.CLK_PLL_STATUS_DIV div (8 + i) 0 (List.mem_append_right _ (.head _))).setLoop (8 + i) 1 loopPlaces_mem_beginPlaces
  have taken (f : Lo → Lo) : ClockStep True (beginPlaces i N) (d.loBegun i s) ((d.loBegun i s).setLo i f) := (ClockStep.refl ..).setLo i f
  exact .ite _ (searches (taken _) _) (.ite _ ((taken _).showMuted i hmuted)
    (.ite _ ((acts (.ite _ ((taken _).setLoop (8 + i) 2 loopPlaces_mem_beginPlaces) (taken _))).showMuted i hmuted)
      ((ClockStep.ite _ ((taken _).setLoop (8 + i) 2 loopPlaces_mem_beginPlaces) (taken _)).showMuted i hmuted)))

/-! ## The end of a profile -/

theorem Dev.loRelease_step (dr : Prop) (st : Nat) : ClockStep dr (releasePlaces i) (d.wr F.CLK_LO_STATUS_PSTATE st i) (d.loRelease i st) :=
  ((((ClockStep.refl ..).setLo i _).releaseDriver 6 i (fun _ hx => .tail _ hx) 64 (by decide))).showMuted i (.head _)
theorem Dev.loRelease_state {st : Nat} (hst : st < 8) : (d.loRelease i st).loState i = st :=
  ((d.loRelease_step i False st).bits F.CLK_LO_STATUS_PSTATE i 0 (status_clear_releasePlaces i _ (by simp [statusFields]))).trans (Dev.rd_wr_fits _ i (by decide) hst)
/-- A status field other than the state keeps its value. -/
theorem Dev.rd_loRelease (st : Nat) {f : Fld} (hf : f = F.CLK_LO_STATUS_SEG ∨ f = F.CLK_LO_STATUS_STEP_LATCHED) :
    (d.loRelease i st).rd f i = d.rd f i := by
  have hmem : f ∈ statusFields := by rcases hf with rfl | rfl <;> decide
  refine ((d.loRelease_step i False st).bits f i 0 (status_clear_releasePlaces i f hmem)).trans (Dev.rd_wr_field _ _ _ _ _ _ _ _ (by decide) ?_)
  rcases hf with rfl | rfl <;> decide

/-- The END segment in hand, with its halyard driven. -/
def Dev.loEnding (s : Nat) : Dev :=
  if (d.segment i s).event then (d.wr F.CLK_LO_STATUS_SEG s i).driveHalyard (d.segment i s).halyard 0 none else d.wr F.CLK_LO_STATUS_SEG s i
theorem Dev.loEnding_step (s : Nat) : ClockStep True (mergePlaces 256) (d.wr F.CLK_LO_STATUS_SEG s i) (d.loEnding i s) :=
  .ite _ ((ClockStep.refl ..).driveHalyard trivial _ 0 none (mem_mergePlaces (d.segment_halyard_lt i s))) (.refl ..)
theorem Dev.rd_loEnding (s : Nat) {f : Fld} (hf : f ∈ statusFields) : (d.loEnding i s).rd f i = (d.wr F.CLK_LO_STATUS_SEG s i).rd f i :=
  (d.loEnding_step i s).bits f i 0 (status_clear_mergePlaces i f hf)
theorem Dev.loEnter_end {s : Nat} (h : (d.segment i s).kind = 0xFF) : d.loEnter i s = ((d.loEnding i s).loRelease i 4).raise 1 30 := if_pos h
theorem Dev.loEnter_begin {s : Nat} (h : (d.segment i s).kind ≠ 0xFF) : d.loEnter i s = d.loBegin i s := if_neg h

/-- A segment that starts moves the status word, what it begins, and at END the drivers. -/
theorem ClockStep.loEnter {l : List (Nat × Nat × Nat)} {a b : Dev} (h : ClockStep True l a b) {s N : Nat} (hs : s < 256) (hN : (b.segment i s).halyard < N)
    (hN256 : N ≤ 256) (hstatus : ∀ x ∈ statusPlaces i, x ∈ l) (hbegin : ∀ x ∈ beginPlaces i N, x ∈ l)
    (hrelease : (b.segment i s).kind = 0xFF → ∀ x ∈ releasePlaces i, x ∈ l) : ClockStep True l a (b.loEnter i s) := by
  by_cases hend : (b.segment i s).kind = 0xFF
  · have hseg := h.wr F.CLK_LO_STATUS_SEG s i 0 (hstatus _ (by simp [statusPlaces]))
    have hdriven : ClockStep True l a (b.loEnding i s) :=
      .ite _ (hseg.driveHalyard trivial _ 0 none (hbegin _ (mergePlaces_mem_beginPlaces _ (mem_mergePlaces hN)))) hseg
    rw [b.loEnter_end i hend]
    exact ((hdriven.wr F.CLK_LO_STATUS_PSTATE 4 i 0 (hstatus _ (by simp [statusPlaces]))).trans (((b.loEnding i s).loRelease_step i True 4).mono (hrelease hend))).raise
      1 30 (by decide) (by decide)
  · rw [b.loEnter_begin i hend]
    exact h.trans (((b.loBegun_step i True s).mono hstatus).trans ((b.loBegin_step i hs hN hN256).mono hbegin))

/-! ## A segment that starts -/

/-- Segment s starts: END ends the profile, another makes it RUNNING (R135, R136). -/
structure Entered (d : Dev) (i : Fin 4) (s : Nat) (e : Dev) : Prop where
  seg : e.rd F.CLK_LO_STATUS_SEG i = s
  latched : e.rd F.CLK_LO_STATUS_STEP_LATCHED i = d.rd F.CLK_LO_STATUS_STEP_LATCHED i
  ended : (d.segment i s).kind = 0xFF → e.loState i = 4 ∧ Raised e 1 30
  running : (d.segment i s).kind ≠ 0xFF → e.loState i = 1

theorem Dev.loEnter_entered {s : Nat} (hs : s < 256) : Entered d i s (d.loEnter i s) := by
  by_cases hend : (d.segment i s).kind = 0xFF
  · have hsegWritten : (d.wr F.CLK_LO_STATUS_SEG s i).rd F.CLK_LO_STATUS_SEG i = s := Dev.rd_wr_fits d i (by decide) hs
    have hlatchKept : (d.wr F.CLK_LO_STATUS_SEG s i).rd F.CLK_LO_STATUS_STEP_LATCHED i = d.rd F.CLK_LO_STATUS_STEP_LATCHED i :=
      Dev.rd_wr_field _ _ _ _ _ _ _ _ (by decide) (by decide)
    have kept {f : Fld} (hf : f ∈ statusFields) : (d.loEnter i s).rd f i = ((d.loEnding i s).loRelease i 4).rd f i := by
      rw [d.loEnter_end i hend]
      exact ((ClockStep.refl False [] _).raise 1 30 (by decide) (by decide)).bits f i 0
        (Fld.clear_iff.mpr ⟨(Fld.clear_iff.mp (status_clear_releasePlaces i f hf)).1, fun x hx => absurd hx List.not_mem_nil⟩)
    refine ⟨?_, ?_, fun _ => ⟨(kept (by decide)).trans (Dev.loRelease_state _ i (by decide)), ?_⟩, fun h => absurd hend h⟩
    · exact (kept (by decide)).trans ((Dev.rd_loRelease _ i 4 (.inl rfl)).trans ((d.rd_loEnding i s (by decide)).trans hsegWritten))
    · exact (kept (by decide)).trans ((Dev.rd_loRelease _ i 4 (.inr rfl)).trans ((d.rd_loEnding i s (by decide)).trans hlatchKept))
    · rw [d.loEnter_end i hend]
      exact raised_raise _ 30 (by decide)
  · have hstep := d.loBegin_step i hs (d.segment_halyard_lt i s) (le_refl 256)
    have kept {f : Fld} (hf : f ∈ statusFields) : (d.loEnter i s).rd f i = (d.loBegun i s).rd f i := by
      rw [d.loEnter_begin i hend]
      exact hstep.bits f i 0 (status_clear_beginPlaces i f hf)
    exact ⟨(kept (by decide)).trans (d.loBegun_seg i hs), (kept (by decide)).trans (d.loBegun_latched i s), fun h => absurd h hend,
      fun _ => (kept (by decide)).trans (d.loBegun_state i s)⟩
end

/-- An entered segment whose profile words and latched STEP stand as before is run. -/
theorem Entered.runs {d b e : Dev} {i : Fin 4} {s : Nat} (h : Entered b i s e) (hseg : b.segment i s = d.segment i s)
    (hgo : (d.segment i s).wait = true → d.rd F.CLK_LO_STATUS_STEP_LATCHED i = 1 ∧ b.rd F.CLK_LO_STATUS_STEP_LATCHED i = 0) : SegmentRuns i s d e := by
  refine ⟨h.seg, fun hwait hnone => ?_, fun hwait => h.latched.trans (hgo hwait).2, fun _ => ⟨fun hk => h.ended (hseg ▸ hk), fun hk => h.running (hseg ▸ hk)⟩⟩
  have hone := (hgo hwait).1
  omega

section
variable (d : Dev) (i : Fin 4) (s : Nat)

/-- The LO's own state when a segment is run: the frequency stands, nothing counts. -/
def Dev.loStill : Dev := d.setLo i (fun l => { l with base := d.loFreq i, counting := false, slope := 0, left := 0, mute := false })
/-- A segment that waits for a STEP. -/
def Dev.loWaits : Dev := (((d.loStill i).wr F.CLK_LO_STATUS_SEG s i).wr F.CLK_LO_STATUS_PSTATE 2 i).showMuted i

theorem Dev.segment_loStill : (d.loStill i).segment i s = d.segment i s := rfl
theorem Dev.loRun_eq : d.loRun i s = if !(d.segment i s).wait then (d.loStill i).loEnter i s
    else if (d.loStill i).is F.CLK_LO_STATUS_STEP_LATCHED i then ((d.loStill i).flag F.CLK_LO_STATUS_STEP_LATCHED false i).loEnter i s
    else d.loWaits i s := rfl
theorem Dev.loRun_enters (h : (d.segment i s).wait = false) : d.loRun i s = (d.loStill i).loEnter i s := by
  rw [d.loRun_eq, h]
  rfl
theorem Dev.loRun_stepped (h : (d.segment i s).wait = true) (hl : d.rd F.CLK_LO_STATUS_STEP_LATCHED i = 1) :
    d.loRun i s = ((d.loStill i).flag F.CLK_LO_STATUS_STEP_LATCHED false i).loEnter i s := by
  have hstep : (d.loStill i).is F.CLK_LO_STATUS_STEP_LATCHED i = true := Dev.is_eq_true hl
  rw [d.loRun_eq, h, hstep]
  rfl
theorem Dev.loRun_waits (h : (d.segment i s).wait = true) (hl : d.rd F.CLK_LO_STATUS_STEP_LATCHED i = 0) : d.loRun i s = d.loWaits i s := by
  have hstep : (d.loStill i).is F.CLK_LO_STATUS_STEP_LATCHED i = false := Dev.is_eq_false hl
  rw [d.loRun_eq, h, hstep]
  rfl

theorem Dev.loWaits_kept {f : Fld} (hf : f ∈ statusFields) :
    (d.loWaits i s).rd f i = (((d.loStill i).wr F.CLK_LO_STATUS_SEG s i).wr F.CLK_LO_STATUS_PSTATE 2 i).rd f i :=
  ((ClockStep.refl False (releasePlaces i) _).showMuted i (.head _)).bits f i 0 (status_clear_releasePlaces i f hf)

/-- A segment that is run moves the status word, what it begins, and at END the drivers. -/
theorem ClockStep.loRun {l : List (Nat × Nat × Nat)} {a b : Dev} (h : ClockStep True l a b) {s N : Nat} (hs : s < 256) (hN : (b.segment i s).halyard < N)
    (hN256 : N ≤ 256) (hstatus : ∀ x ∈ statusPlaces i, x ∈ l) (hbegin : ∀ x ∈ beginPlaces i N, x ∈ l)
    (hrelease : (b.segment i s).kind = 0xFF → ∀ x ∈ releasePlaces i, x ∈ l) : ClockStep True l a (b.loRun i s) := by
  have hstill : ClockStep True l a (b.loStill i) := h.setLo i _
  have hflag : ((b.loStill i).flag F.CLK_LO_STATUS_STEP_LATCHED false i).segment i s = b.segment i s :=
    ((ClockStep.refl True (statusPlaces i) (b.loStill i)).flag F.CLK_LO_STATUS_STEP_LATCHED false i 0 (by simp [statusPlaces])).segment i
      (besideProfile_statusPlaces i) hs
  rw [b.loRun_eq]
  refine .ite _ (hstill.loEnter i hs hN hN256 hstatus hbegin hrelease) (.ite _ ?_ ?_)
  · exact (hstill.flag F.CLK_LO_STATUS_STEP_LATCHED false i 0 (hstatus _ (by simp [statusPlaces]))).loEnter i hs (by rw [hflag]; exact hN) hN256 hstatus hbegin
      (by rw [hflag]; exact hrelease)
  · exact ((hstill.wr F.CLK_LO_STATUS_SEG s i 0 (hstatus _ (by simp [statusPlaces]))).wr F.CLK_LO_STATUS_PSTATE 2 i 0 (hstatus _ (by simp [statusPlaces]))).showMuted
      i (hbegin _ (muted_mem_beginPlaces i N))

/-- Running a segment (R135–R137). -/
theorem Dev.loRun_segment (hs : s < 256) : SegmentRuns i s d (d.loRun i s) := by
  rcases hwait : (d.segment i s).wait with _ | _
  · rw [d.loRun_enters i s hwait]
    exact ((d.loStill i).loEnter_entered i hs).runs (d.segment_loStill i s) fun h => by simp [hwait] at h
  · have hlt := Dev.rd_lt d F.CLK_LO_STATUS_STEP_LATCHED i 0
    have hbit : F.CLK_LO_STATUS_STEP_LATCHED.w = 1 := rfl
    rw [hbit] at hlt
    rcases (by omega : d.rd F.CLK_LO_STATUS_STEP_LATCHED i = 1 ∨ d.rd F.CLK_LO_STATUS_STEP_LATCHED i = 0) with hl | hl
    · rw [d.loRun_stepped i s hwait hl]
      refine (Dev.loEnter_entered _ i hs).runs ?_ fun _ => ⟨hl, Dev.rd_flag_same (d.loStill i) false i (by decide) rfl⟩
      exact ((ClockStep.refl False (statusPlaces i) (d.loStill i)).flag F.CLK_LO_STATUS_STEP_LATCHED false i 0 (by simp [statusPlaces])).segment i
        (besideProfile_statusPlaces i) hs
    · rw [d.loRun_waits i s hwait hl]
      have hseg : (((d.loStill i).wr F.CLK_LO_STATUS_SEG s i).wr F.CLK_LO_STATUS_PSTATE 2 i).rd F.CLK_LO_STATUS_SEG i = s :=
        (Dev.rd_wr_field _ _ _ _ _ _ _ _ (by decide) (by decide)).trans (Dev.rd_wr_fits (d.loStill i) i (by decide) hs)
      have hlatched : (((d.loStill i).wr F.CLK_LO_STATUS_SEG s i).wr F.CLK_LO_STATUS_PSTATE 2 i).rd F.CLK_LO_STATUS_STEP_LATCHED i = 0 :=
        (Dev.rd_wr_field _ _ _ _ _ _ _ _ (by decide) (by decide)).trans ((Dev.rd_wr_field (d.loStill i) _ _ _ _ _ _ _ (by decide) (by decide)).trans hl)
      refine ⟨(d.loWaits_kept i s (by decide)).trans hseg, fun _ _ => (d.loWaits_kept i s (by decide)).trans (Dev.rd_wr_fits _ i (by decide) (by decide)),
        fun _ => (d.loWaits_kept i s (by decide)).trans hlatched, fun h => ?_⟩
      rcases h with h | h
      · simp [hwait] at h
      · omega
end

/-! ## Lock -/

/-- What lock does to LO i's profile (R124, R136, R137): its loop moves only where the profile owes a search. -/
theorem ClockStep.loLocked {l : List (Nat × Nat × Nat)} {a b : Dev} (h : ClockStep True l a b) (i : Fin 4) (hmerge : ∀ x ∈ mergePlaces 256, x ∈ l)
    (hmuted : F.CLK_LO_STATUS_MUTED.place i ∈ l) (hstate : F.CLK_LO_STATUS_PSTATE.place i ∈ l)
    (howed : (b.lo i).owed = true → ∀ x ∈ F.CLK_PLL_STATUS_DIV.place (8 + i) :: loopPlaces (8 + i), x ∈ l) : ClockStep True l a (b.loLocked i) := by
  have searches (ho : (b.lo i).owed = true) :
      ClockStep True l a (((b.setLo i (fun l => { l with owed := false })).wr F.CLK_PLL_STATUS_DIV (loDiv (b.loFreq i)) (8 + i)).setLoop (8 + i) 1) :=
    ((h.setLo i _).wr F.CLK_PLL_STATUS_DIV _ (8 + i) 0 (howed ho _ (.head _))).setLoop (8 + i) 1 fun x hx => howed ho x (.tail _ hx)
  have acts := h.loActs i 256 hmerge (b.segment_halyard_lt i _)
  have on := ClockStep.ite (!(b.lo i).started) acts (.ite (b.lo i).lockWait (h.setLo i (fun l => { l with counting := true, since := b.clk, lockWait := false })) h)
  exact .ite _ ((h.setLo i _).showMuted i hmuted) (.ite _ (h.showMuted i hmuted) (.iteOf _ searches fun _ =>
    (ClockStep.ite _ (((on.loPause i 0).setLo i _).wr F.CLK_LO_STATUS_PSTATE 3 i 0 hstate) on).showMuted i hmuted))

end Machine
end Sys2Proof
end

