-- ==== Sys2Proof/Proofs/LoopCommands.lean ====
section
/-! PROOFS. What RELOCK, EN and the end of a band search leave (spec/05_clocks.md, R122–R124, R127). -/

namespace Sys2Proof
namespace Machine

/-! ## RELOCK and EN (R124, R127) -/

/-- What a command on a loop moves beside its state. -/
def commandPlaces (p : Nat) : List (Nat × Nat × Nat) := [F.CLK_PLL_CTRL_EN.place p, F.CLK_PLL_CTRL_RELOCK.place p, F.CLK_STATUS_CODE.place]
/-- All that a command on a loop moves. -/
def loopCommandPlaces (p : Nat) : List (Nat × Nat × Nat) := commandPlaces p ++ loopPlaces p

theorem state_clear_commandPlaces : ∀ p : Fin 29, F.CLK_PLL_STATUS_STATE.clear p 0 (commandPlaces p) = true := by decide
theorem code_clear_relock : ∀ p : Fin 29, F.CLK_STATUS_CODE.clear 0 0 [F.CLK_PLL_CTRL_RELOCK.place p] = true := by decide
theorem mem_relockRegs : ∀ p : Fin 29, ∀ x ∈ loopCommandPlaces p, x.1 ∈ F.CLK_PLL_CTRL_RELOCK.at_ p 0 :: loopRegs p := by decide +kernel
theorem mem_enRegs : ∀ p : Fin 29, ∀ x ∈ loopCommandPlaces p, x.1 ∈ F.CLK_PLL_CTRL_EN.at_ p 0 :: loopRegs p := mem_relockRegs
theorem loopPlaces_mem_commands {p : Nat} : ∀ x ∈ loopPlaces p, x ∈ loopCommandPlaces p := fun _ hx => List.mem_append_right _ hx

/-- A segment in hand that stops counting shows in no register. -/
theorem ClockStep.loBreak {dr : Prop} {l : List (Nat × Nat × Nat)} {a b : Dev} (h : ClockStep dr l a b) (i : Nat) : ClockStep dr l a (b.loBreak i) :=
  .ite _ ((ClockStep.ite _ ((h.setLo i _).loPause i 0) (h.setLo i _)).setLo i _) (h.setLo i _)

section
variable (d : Dev) (p : Fin 29)

theorem Dev.rd_leftLocked (old : Nat) {f : Fld} {n m : Nat} (hf : irqReg (f.at_ n m) = false) : (d.leftLocked p old).rd f n m = d.rd f n m :=
  ((ClockStep.refl False [] d).leftLocked (by omega) old).bits f n m (Fld.clear_iff.mpr ⟨hf, fun _ hx => absurd hx List.not_mem_nil⟩)
theorem ctrl_quiet : ∀ p : Fin 29, irqReg (F.CLK_PLL_CTRL_EN.at_ p 0) = false ∧ irqReg (F.CLK_PLL_CTRL_RELOCK.at_ p 0) = false := by decide

theorem Dev.relock_cases : d.relock p = if !(isLo p) then d.clkCode 1 else if d.loop p = 0 ∨ d.loop p = 1 then d.clkCode 5
    else ((((d.loBreak (p - 8)).clkCode 0).flag F.CLK_PLL_CTRL_RELOCK true p).setLoop p 1).leftLocked p (d.loop p) := rfl
theorem Dev.relock_other (h : isLo p = false) : d.relock p = d.clkCode 1 := by rw [d.relock_cases, if_pos (by simp [h])]
theorem Dev.relock_state (h : isLo p = true) (hst : d.loop p ≤ 1) : d.relock p = d.clkCode 5 := by
  rw [d.relock_cases, if_neg (by simp [h]), if_pos (by omega)]
theorem Dev.relock_eq (h : isLo p = true) (hst : 1 < d.loop p) :
    d.relock p = ((((d.loBreak (p - 8)).clkCode 0).flag F.CLK_PLL_CTRL_RELOCK true p).setLoop p 1).leftLocked p (d.loop p) := by
  rw [d.relock_cases, if_neg (by simp [h]), if_neg (by omega)]
/-- A code left alone. -/
theorem Dev.clkCode_holds {c : Nat} (hc : c < 256) :
    (d.clkCode c).rd F.CLK_STATUS_CODE = c ∧ (d.clkCode c).loop p = d.loop p ∧ Frame [0x40000] d (d.clkCode c) :=
  ⟨Dev.rd_wr_fits d 0 (by decide) hc, ((ClockStep.refl False (commandPlaces p) d).wr F.CLK_STATUS_CODE c 0 0 (by simp [commandPlaces])).bits
    F.CLK_PLL_STATUS_STATE p 0 (state_clear_commandPlaces p), (Frame.refl _ d).wr _ _ _ _ (.head _)⟩
theorem Dev.relock_step (h : isLo p = true) (hst : 1 < d.loop p) : ClockStep False (loopCommandPlaces p) d (d.relock p) := by
  rw [d.relock_eq p h hst]
  exact (((((ClockStep.refl ..).loBreak _).wr F.CLK_STATUS_CODE 0 0 0 (by simp [loopCommandPlaces, commandPlaces])).flag F.CLK_PLL_CTRL_RELOCK true p 0
    (by simp [loopCommandPlaces, commandPlaces])).setLoop p 1 loopPlaces_mem_commands).leftLocked (by omega) _
/-- RELOCK on an LO loop that is past its search (R124, R127). -/
theorem Dev.relock_holds (h : isLo p = true) (hst : 1 < d.loop p) :
    (d.relock p).loop p = 1 ∧ (d.relock p).rd F.CLK_PLL_CTRL_RELOCK p = 1 ∧ (d.relock p).rd F.CLK_STATUS_CODE = 0 ∧ (d.loop p = 3 → Raised (d.relock p) 1 p) ∧
    SameInputs d (d.relock p) ∧ Frame (F.CLK_PLL_CTRL_RELOCK.at_ p 0 :: loopRegs p) d { d.relock p with clocks := d.clocks, inputs := d.inputs } := by
  have hstep := d.relock_step p h hst
  refine ⟨?_, ?_, ?_, fun hlocked => ?_, hstep.inputs, hstep.frame (mem_relockRegs p)⟩
  all_goals rw [d.relock_eq p h hst]
  · exact (Dev.rd_leftLocked _ p _ (state_quiet p)).trans (Dev.loop_setLoop _ p (by decide))
  · have hrelock : (((d.loBreak (p - 8)).clkCode 0).flag F.CLK_PLL_CTRL_RELOCK true p).rd F.CLK_PLL_CTRL_RELOCK p = 1 := Dev.rd_flag_same _ true p (by decide) rfl
    rw [Dev.rd_leftLocked _ p _ (ctrl_quiet p).2, Dev.rd_setLoop _ p (by decide) 1, hrelock]
  · have hcode : ((d.loBreak (p - 8)).clkCode 0).rd F.CLK_STATUS_CODE = 0 := Dev.rd_wr_fits _ 0 (by decide) (by decide)
    have hflag : (((d.loBreak (p - 8)).clkCode 0).flag F.CLK_PLL_CTRL_RELOCK true p).rd F.CLK_STATUS_CODE = ((d.loBreak (p - 8)).clkCode 0).rd F.CLK_STATUS_CODE :=
      ((ClockStep.refl False [F.CLK_PLL_CTRL_RELOCK.place p] _).flag F.CLK_PLL_CTRL_RELOCK true p 0 (.head _)).bits F.CLK_STATUS_CODE 0 0 (code_clear_relock p)
    rw [Dev.rd_leftLocked _ p _ (by decide), Dev.rd_setLoop_single _ p (by decide) 1, hflag, hcode]
  · exact Dev.leftLocked_raised _ (by omega) hlocked

theorem Dev.pllEnable_other (h : isLo p = false) : d.pllEnable p = d := if_pos (by simp [h])
theorem Dev.pllDisable_other (h : isLo p = false) : d.pllDisable p = d := if_pos (by simp [h])

theorem Dev.pllEnable_eq (h : isLo p = true) :
    d.pllEnable p = if (d.flag F.CLK_PLL_CTRL_EN true p).loop p = 0 then (d.flag F.CLK_PLL_CTRL_EN true p).setLoop p 1 else d.flag F.CLK_PLL_CTRL_EN true p :=
  if_neg (by simp [h])
/-- EN = 1 on an LO loop (R127). -/
theorem Dev.pllEnable_holds (h : isLo p = true) :
    (d.pllEnable p).rd F.CLK_PLL_CTRL_EN p = 1 ∧ (d.pllEnable p).loop p = (if d.loop p = 0 then 1 else d.loop p) ∧
    SameInputs d (d.pllEnable p) ∧ Frame (F.CLK_PLL_CTRL_EN.at_ p 0 :: loopRegs p) d { d.pllEnable p with clocks := d.clocks, inputs := d.inputs } := by
  have hflag : ClockStep False (commandPlaces p) d (d.flag F.CLK_PLL_CTRL_EN true p) :=
    (ClockStep.refl ..).flag F.CLK_PLL_CTRL_EN true p 0 (by simp [commandPlaces])
  have hloop : (d.flag F.CLK_PLL_CTRL_EN true p).loop p = d.loop p := hflag.bits F.CLK_PLL_STATUS_STATE p 0 (state_clear_commandPlaces p)
  have hen : (d.flag F.CLK_PLL_CTRL_EN true p).rd F.CLK_PLL_CTRL_EN p = 1 := Dev.rd_flag_same d true p (by decide) rfl
  have hwhole : ClockStep False (loopCommandPlaces p) d (d.flag F.CLK_PLL_CTRL_EN true p) := hflag.mono fun _ hx => List.mem_append_left _ hx
  rw [d.pllEnable_eq p h, hloop]
  split
  · have hstep := hwhole.setLoop p 1 loopPlaces_mem_commands
    exact ⟨(Dev.rd_setLoop _ p (by decide) 1).trans hen, Dev.loop_setLoop _ p (by decide), hstep.inputs, hstep.frame (mem_enRegs p)⟩
  · exact ⟨hen, hloop, hwhole.inputs, hwhole.frame (mem_enRegs p)⟩

theorem Dev.pllDisable_eq (h : isLo p = true) : d.pllDisable p =
    ((((d.loBreak (p - 8)).flag F.CLK_PLL_CTRL_EN false p).flag F.CLK_PLL_CTRL_RELOCK false p).setLoop p 0).leftLocked p (d.loop p) := if_neg (by simp [h])
/-- EN = 0 on an LO loop (R127). -/
theorem Dev.pllDisable_holds (h : isLo p = true) :
    (d.pllDisable p).rd F.CLK_PLL_CTRL_EN p = 0 ∧ (d.pllDisable p).rd F.CLK_PLL_CTRL_RELOCK p = 0 ∧ (d.pllDisable p).loop p = 0 ∧
    (d.loop p = 3 → Raised (d.pllDisable p) 1 p) ∧ SameInputs d (d.pllDisable p) ∧
    Frame (F.CLK_PLL_CTRL_EN.at_ p 0 :: loopRegs p) d { d.pllDisable p with clocks := d.clocks, inputs := d.inputs } := by
  generalize hb : ((d.loBreak (p - 8)).flag F.CLK_PLL_CTRL_EN false p).flag F.CLK_PLL_CTRL_RELOCK false p = b
  have hcleared : ClockStep False (loopCommandPlaces p) d b := hb ▸ ((((ClockStep.refl ..).loBreak _).flag F.CLK_PLL_CTRL_EN false p 0
    (by simp [loopCommandPlaces, commandPlaces])).flag F.CLK_PLL_CTRL_RELOCK false p 0 (by simp [loopCommandPlaces, commandPlaces]))
  have hen : b.rd F.CLK_PLL_CTRL_EN p = 0 := by
    have hkept : b.rd F.CLK_PLL_CTRL_EN p = ((d.loBreak (p - 8)).flag F.CLK_PLL_CTRL_EN false p).rd F.CLK_PLL_CTRL_EN p :=
      hb ▸ Dev.rd_wr_field _ _ _ _ _ _ _ _ (by decide) (by decide)
    exact hkept.trans (Dev.rd_flag_same _ false p (by decide) rfl)
  have hrelock : b.rd F.CLK_PLL_CTRL_RELOCK p = 0 := hb ▸ Dev.rd_flag_same _ false p (by decide) rfl
  have hstep := (hcleared.setLoop p 0 loopPlaces_mem_commands).leftLocked (p := p) (by omega) (d.loop p)
  rw [d.pllDisable_eq p h, hb]
  refine ⟨?_, ?_, ?_, fun hlocked => Dev.leftLocked_raised _ (by omega) hlocked, hstep.inputs, hstep.frame (mem_enRegs p)⟩
  · rw [Dev.rd_leftLocked _ p _ (ctrl_quiet p).1, Dev.rd_setLoop _ p (by decide) 0, hen]
  · rw [Dev.rd_leftLocked _ p _ (ctrl_quiet p).2, Dev.rd_setLoop _ p (by decide) 0, hrelock]
  · exact (Dev.rd_leftLocked _ p _ (state_quiet p)).trans (Dev.loop_setLoop _ p (by decide))
end

/-! ## The end of a search (R122, R124) -/

/-- A fold that keeps the better of two ends with the best of all. -/
theorem foldl_argmin (err : Nat → Nat) (b : Nat) : ∀ n,
    let r := (List.range n).foldl (fun b c => if err c < err b then c else b) b
    (∀ c, c < n → err r ≤ err c) ∧ err r ≤ err b ∧ (r = b ∨ r < n)
  | 0 => ⟨fun _ hc => absurd hc (Nat.not_lt_zero _), le_refl _, .inl rfl⟩
  | n + 1 => by
    obtain ⟨hbest, hstart, hrange⟩ := foldl_argmin err b n
    rw [List.range_succ, List.foldl_append]
    generalize (List.range n).foldl (fun b c => if err c < err b then c else b) b = r at hbest hstart hrange
    simp only [List.foldl_cons, List.foldl_nil]
    split
    next hlt =>
      refine ⟨fun c hc => ?_, by omega, .inr (Nat.lt_succ_self n)⟩
      rcases Nat.lt_succ_iff_lt_or_eq.mp hc with hlow | rfl
      · exact hlt.le.trans (hbest c hlow)
      · exact le_refl _
    next hge =>
      refine ⟨fun c hc => ?_, hstart, hrange.imp_right Nat.lt_succ_of_lt⟩
      rcases Nat.lt_succ_iff_lt_or_eq.mp hc with hlow | rfl
      · exact hbest c hlow
      · exact Nat.le_of_not_lt hge

/-- How far a measured band lies from the target. -/
def bandErr (freqs : List Nat) (t b : Nat) : Nat := ((freqs.getD b 0 : Int) - t).natAbs
/-- The band closest to the target. -/
def closestBand (freqs : List Nat) (t : Nat) : Nat := (List.range 64).foldl (fun b c => if bandErr freqs t c < bandErr freqs t b then c else b) 0
theorem closestBand_lt (freqs : List Nat) (t : Nat) : closestBand freqs t < 64 :=
  (foldl_argmin (bandErr freqs t) 0 64).2.2.elim (fun e => e.trans_lt (by decide)) id
theorem closestBand_best (freqs : List Nat) (t : Nat) {b : Nat} (hb : b < 64) : bandErr freqs t (closestBand freqs t) ≤ bandErr freqs t b :=
  (foldl_argmin (bandErr freqs t) 0 64).1 b hb

section
variable (d : Dev) (q : Fin 28) (freqs : List Nat)

/-- The search over, 40 us after it began. -/
def Dev.searched : Dev := (d.advanceTo (d.clocks.since.getD q 0 + 40000).toNat).flag F.CLK_PLL_CTRL_RELOCK false q
/-- The band found, with an LO's divider. -/
def Dev.banded (b : Nat) : Dev :=
  if isLo q then (d.wr F.CLK_PLL_STATUS_BAND b q).wr F.CLK_PLL_STATUS_DIV (loDiv ((d.wr F.CLK_PLL_STATUS_BAND b q).loFreq (q - 8))) q
  else d.wr F.CLK_PLL_STATUS_BAND b q

theorem Dev.searchEnd_idle (h : d.loop q ≠ 1) : d.searchEnd q freqs = d := if_pos (by simpa using h)
theorem Dev.searchEnd_eq (h : d.loop q = 1) : d.searchEnd q freqs =
    if bandErr freqs ((d.searched q).loopTarget q) (closestBand freqs ((d.searched q).loopTarget q)) * 100 ≤ 3 * (d.searched q).loopTarget q then
      ((d.searched q).banded q (closestBand freqs ((d.searched q).loopTarget q))).setLoop q 2
    else ((d.searched q).setLoop q 6).raise 1 q := if_neg (by simpa using h)

/-- What the end of a search moves. -/
def searchPlaces (p : Nat) : List (Nat × Nat × Nat) :=
  F.CLK_PLL_CTRL_RELOCK.place p :: F.CLK_PLL_STATUS_BAND.place p :: F.CLK_PLL_STATUS_DIV.place p :: loopPlaces p
theorem mem_searchRegs : ∀ q : Fin 28, ∀ x ∈ searchPlaces q, x.1 ∈ F.CLK_PLL_CTRL_RELOCK.at_ q 0 :: loopRegs q := by decide +kernel
theorem relock_clear_band : ∀ q : Fin 28, F.CLK_PLL_CTRL_RELOCK.clear q 0 [F.CLK_PLL_STATUS_BAND.place q, F.CLK_PLL_STATUS_DIV.place q] = true := by decide

theorem Dev.searched_step : ClockStep False (searchPlaces q) (d.advanceTo (d.clocks.since.getD q 0 + 40000).toNat) (d.searched q) :=
  (ClockStep.refl ..).flag F.CLK_PLL_CTRL_RELOCK false q 0 (.head _)
theorem Dev.banded_step (b : Nat) : ClockStep False [F.CLK_PLL_STATUS_BAND.place q, F.CLK_PLL_STATUS_DIV.place q] d (d.banded q b) :=
  .ite _ (((ClockStep.refl ..).wr F.CLK_PLL_STATUS_BAND b q 0 (by simp)).wr F.CLK_PLL_STATUS_DIV _ q 0 (by simp)) ((ClockStep.refl ..).wr F.CLK_PLL_STATUS_BAND b q 0 (by simp))
theorem Dev.banded_other {b : Nat} (hb : b < 64) (h : isLo q = false) : (d.banded q b).rd F.CLK_PLL_STATUS_BAND q = b := by
  unfold Dev.banded
  rw [h, if_neg (by decide)]
  exact Dev.rd_wr_fits d q (by decide) hb
theorem Dev.loopTarget_other {d e : Dev} {p : Nat} (h : isLo p = false) : d.loopTarget p = e.loopTarget p := by
  unfold Dev.loopTarget
  simp only [h, Bool.false_eq_true, if_false]

theorem Dev.searchEnd_step (h : d.loop q = 1) :
    ClockStep False (searchPlaces q) (d.advanceTo (d.clocks.since.getD q 0 + 40000).toNat) (d.searchEnd q freqs) := by
  have hloop : ∀ x ∈ loopPlaces q, x ∈ searchPlaces q := fun x hx => by simp [searchPlaces, hx]
  rw [d.searchEnd_eq q freqs h]
  refine .ite _ (((d.searched_step q).trans ((Dev.banded_step _ q _).mono ?_)).setLoop q 2 hloop)
    (((d.searched_step q).setLoop q 6 hloop).raise 1 q (by decide) (by omega))
  intro x hx
  simp only [List.mem_cons, List.not_mem_nil, or_false] at hx
  rcases hx with rfl | rfl <;> simp [searchPlaces]

/-- The end of a search (R122, R124, R127). -/
theorem Dev.searchEnd_holds (h : d.loop q = 1) :
    (d.searchEnd q freqs).clk = max d.clk (d.clocks.since.getD q 0 + 40000).toNat ∧ (d.searchEnd q freqs).rd F.CLK_PLL_CTRL_RELOCK q = 0 ∧
    ((d.searchEnd q freqs).loop q = 2 ∨ ((d.searchEnd q freqs).loop q = 6 ∧ Raised (d.searchEnd q freqs) 1 q)) ∧
    (isLo q = false → ((d.searchEnd q freqs).loop q = 2 → ∀ b, b < 64 →
        bandErr freqs (d.loopTarget q) ((d.searchEnd q freqs).rd F.CLK_PLL_STATUS_BAND q) ≤ bandErr freqs (d.loopTarget q) b) ∧
      ((d.searchEnd q freqs).loop q = 6 → ∀ b, b < 64 → 3 * d.loopTarget q < bandErr freqs (d.loopTarget q) b * 100)) ∧
    Frame (F.CLK_PLL_CTRL_RELOCK.at_ q 0 :: loopRegs q) d { (d.searchEnd q freqs).atTime d with clocks := d.clocks } := by
  have hstep := d.searchEnd_step q freqs h
  have hrelock : (d.searched q).rd F.CLK_PLL_CTRL_RELOCK q = 0 := Dev.rd_flag_same _ false q (by decide) rfl
  have htarget : isLo q = false → (d.searched q).loopTarget q = d.loopTarget q := Dev.loopTarget_other
  refine ⟨hstep.clk.trans (Dev.advanceTo_clk _ _), ?_, ?_, fun hother => ?_, hstep.atTime (mem_searchRegs q)⟩
  all_goals rw [d.searchEnd_eq q freqs h]
  · split
    · exact (Dev.rd_setLoop _ q.castSucc (by decide) 2).trans (((Dev.banded_step _ q _).bits F.CLK_PLL_CTRL_RELOCK q 0 (relock_clear_band q)).trans hrelock)
    · exact (Dev.rd_raise _ _ _ _ _ (by decide) (ctrl_quiet q.castSucc).2).trans ((Dev.rd_setLoop _ q.castSucc (by decide) 6).trans hrelock)
  · split
    · exact .inl (Dev.loop_setLoop _ q.castSucc (by decide))
    · exact .inr ⟨(Dev.rd_raise _ _ _ _ _ (by decide) (state_quiet q.castSucc)).trans (Dev.loop_setLoop _ q.castSucc (by decide)), raised_raise _ q (by omega)⟩
  · rw [htarget hother]
    split
    next hnear =>
      have hloop := Dev.loop_setLoop ((d.searched q).banded q (closestBand freqs (d.loopTarget q))) q.castSucc (st := 2) (by decide)
      have hband : (((d.searched q).banded q (closestBand freqs (d.loopTarget q))).setLoop q 2).rd F.CLK_PLL_STATUS_BAND q = closestBand freqs (d.loopTarget q) :=
        (Dev.rd_setLoop _ q.castSucc (by decide) 2).trans (Dev.banded_other _ q (closestBand_lt _ _) hother)
      refine ⟨fun _ b hb => ?_, fun h6 => absurd (hloop.symm.trans h6) (by decide)⟩
      rw [hband]
      exact closestBand_best freqs _ hb
    next hfar =>
      have hloop : (((d.searched q).setLoop q 6).raise 1 q).loop q = 6 :=
        (Dev.rd_raise _ _ _ _ _ (by decide) (state_quiet q.castSucc)).trans (Dev.loop_setLoop _ q.castSucc (by decide))
      refine ⟨fun h2 => absurd (hloop.symm.trans h2) (by decide), fun _ b hb => ?_⟩
      have hbest := closestBand_best freqs (d.loopTarget q) hb
      omega
end

end Machine
end Sys2Proof
end

