-- ==== Sys2Proof/Proofs/LockRule.lean ====
section
/-! PROOFS. Reference cycles by the lock rule, and the loss of lock (spec/05_clocks.md, R125, R127). -/

namespace Sys2Proof
namespace Machine

/-! ## Cycles -/

/-- A count that every cycle raises by one stops the pass at its last cycle. -/
theorem LoopRun.pass_stops_last {window unlock n : Nat} {stop : LoopRun → Bool} (count : LoopRun → Nat) :
    ∀ (errs : List (Option Int)) (r : LoopRun), errs ≠ [] → count r + errs.length = n →
      (∀ x ∈ errs, ∀ r, count (r.cycle window unlock x) = count r + 1 ∧ stop (r.cycle window unlock x) = decide (n ≤ count r + 1)) →
      (LoopRun.pass window unlock stop errs r).2 = (errs.length, true)
  | [], _, hne, _, _ => absurd rfl hne
  | x :: t, r, _, hsum, hstep => by
    obtain ⟨hcount, hstop⟩ := hstep x List.mem_cons_self r
    simp only [List.length_cons] at hsum
    unfold LoopRun.pass
    dsimp only
    rw [hstop]
    cases t with
    | nil => simp at hsum; simp [hsum]
    | cons y u =>
      have hrest := LoopRun.pass_stops_last count (y :: u) (r.cycle window unlock x) (by simp) (by omega) fun z hz => hstep z (List.mem_cons_of_mem _ hz)
      rw [if_neg (by simp only [List.length_cons] at hsum; simp; omega)]
      simp only [hrest, List.length_cons]
/-- One cycle that does not stop the pass. -/
theorem LoopRun.pass_one {window unlock : Nat} {stop : LoopRun → Bool} {x : Option Int} {r : LoopRun} (h : stop (r.cycle window unlock x) = false) :
    LoopRun.pass window unlock stop [x] r = (r.cycle window unlock x, 1, false) := by
  simp [LoopRun.pass, h]

/-- Cycles inside WINDOW, up to CYCLES, lock at the last. -/
theorem LoopRun.pass_inside {window unlock n : Nat} {errs : List (Option Int)} {r : LoopRun} (hne : errs ≠ []) (hsum : r.inside + errs.length = n)
    (hin : ∀ x ∈ errs, ∃ v : Int, x = some v ∧ v.natAbs ≤ window) :
    (LoopRun.pass window unlock (fun r => decide (n ≤ r.inside)) errs r).2 = (errs.length, true) := by
  refine LoopRun.pass_stops_last LoopRun.inside errs r hne hsum fun x hx r => ?_
  obtain ⟨v, rfl, hv⟩ := hin x hx
  simp [LoopRun.cycle, hv]
/-- Cycles beyond UNLOCK, up to the loss CYCLES, lose lock at the last. -/
theorem LoopRun.pass_outside {window unlock n : Nat} {errs : List (Option Int)} {r : LoopRun} (hne : errs ≠ []) (hn : 0 < n) (hsum : r.outside + errs.length = n)
    (hout : ∀ x ∈ errs, ∃ v : Int, x = some v ∧ unlock < v.natAbs) :
    (LoopRun.pass window unlock (fun r => decide (n ≤ r.outside) || decide (n ≤ r.missing)) errs r).2 = (errs.length, true) := by
  refine LoopRun.pass_stops_last LoopRun.outside errs r hne hsum fun x hx r => ?_
  obtain ⟨v, rfl, hv⟩ := hout x hx
  simp [LoopRun.cycle, hv, hn.ne']
/-- So do cycles without an edge. -/
theorem LoopRun.pass_missing {window unlock n : Nat} {errs : List (Option Int)} {r : LoopRun} (hne : errs ≠ []) (hn : 0 < n) (hsum : r.missing + errs.length = n)
    (hnone : ∀ x ∈ errs, x = none) :
    (LoopRun.pass window unlock (fun r => decide (n ≤ r.outside) || decide (n ≤ r.missing)) errs r).2 = (errs.length, true) := by
  refine LoopRun.pass_stops_last LoopRun.missing errs r hne hsum fun x hx r => ?_
  obtain rfl := hnone x hx
  have hzero : decide (n ≤ 0) = false := decide_eq_false (Nat.not_le.mpr hn)
  exact ⟨rfl, (congrArg (fun b => b || decide (n ≤ r.missing + 1)) hzero).trans (Bool.false_or _)⟩

section
variable (d : Dev) (p : Nat) (errs : List (Option Int)) (stop : LoopRun → Bool)

/-- Loop p's counts as they stand. -/
def Dev.runOf : LoopRun := d.clocks.runs.getD p ⟨0, 0, 0, d.clk⟩
/-- The cycles that pass until `stop` holds. -/
def Dev.passed : LoopRun × Nat × Bool := LoopRun.pass (d.lockWindow p) (d.lossUnlock p) stop errs (d.runOf p)
/-- When the last of them ends. -/
def Dev.passedAt : Nat := (d.runOf p).upTo + (d.passed p errs stop).2.1 * d.refClocks p
/-- The counts they leave. -/
def Dev.counted : Dev :=
  let e := d.advanceTo (d.passedAt p errs stop)
  { e with clocks := { e.clocks with runs := e.clocks.runs.put p { (d.passed p errs stop).1 with upTo := e.clk } } }

theorem Dev.refCycles_eq : d.refCycles p errs stop =
    (match (errs.take (d.passed p errs stop).2.1).reverse.find? Option.isSome with
      | some (some e) => (d.counted p errs stop).wr F.CLK_PLL_PHASE_ERR (unsigned 16 e) p
      | _ => d.counted p errs stop, (d.passed p errs stop).2.2) := rfl
theorem Dev.refCycles_stopped : (d.refCycles p errs stop).2 = (d.passed p errs stop).2.2 := rfl
theorem Dev.counted_step : ClockStep False [F.CLK_PLL_PHASE_ERR.place p] (d.advanceTo (d.passedAt p errs stop)) (d.counted p errs stop) :=
  (ClockStep.refl ..).withClocks _
/-- What the cycles leave: the counts, the phase error of the last edge. -/
theorem Dev.refCycles_shown : (d.refCycles p errs stop).1 = d.counted p errs stop ∨
    ∃ v, (d.refCycles p errs stop).1 = (d.counted p errs stop).wr F.CLK_PLL_PHASE_ERR v p := by
  rw [d.refCycles_eq]
  dsimp only
  split
  · exact .inr ⟨_, rfl⟩
  · exact .inl rfl
theorem Dev.refCycles_step : ClockStep False [F.CLK_PLL_PHASE_ERR.place p] (d.advanceTo (d.passedAt p errs stop)) (d.refCycles p errs stop).1 := by
  rcases d.refCycles_shown p errs stop with e | ⟨v, e⟩ <;> rw [e]
  · exact d.counted_step p errs stop
  · exact (d.counted_step p errs stop).wr F.CLK_PLL_PHASE_ERR v p 0 (.head _)
theorem Dev.refCycles_clocks : (d.refCycles p errs stop).1.clocks =
    { d.clocks with runs := d.clocks.runs.put p { (d.passed p errs stop).1 with upTo := (d.refCycles p errs stop).1.clk } } := by
  have hcounted : (d.counted p errs stop).clocks =
      { d.clocks with runs := d.clocks.runs.put p { (d.passed p errs stop).1 with upTo := (d.counted p errs stop).clk } } := by
    unfold Dev.counted
    simp only [Dev.advanceTo_clocks]
  rcases d.refCycles_shown p errs stop with e | ⟨v, e⟩ <;> rw [e]
  · exact hcounted
  · exact hcounted
theorem Dev.refCycles_clk : (d.refCycles p errs stop).1.clk = max d.clk (d.passedAt p errs stop) :=
  (d.refCycles_step p errs stop).clk.trans (Dev.advanceTo_clk _ _)
/-- The counts the cycles leave. -/
theorem Dev.refCycles_run : (d.refCycles p errs stop).1.clocks.runs.get? p = some { (d.passed p errs stop).1 with upTo := (d.refCycles p errs stop).1.clk } := by
  rw [d.refCycles_clocks]
  exact Tab.get?_put_same _ _ _
/-- A field clear of the phase error keeps its value. -/
theorem Dev.rd_refCycles {f : Fld} {n : Nat} (hf : f.clear n 0 [F.CLK_PLL_PHASE_ERR.place p] = true) : (d.refCycles p errs stop).1.rd f n = d.rd f n :=
  ((d.refCycles_step p errs stop).bits f n 0 hf).trans (Dev.rd_advanceTo _ _ f n)
/-- One cycle with an edge shows its phase error. -/
theorem Dev.refCycles_one {v : Int} (h : stop ((d.runOf p).cycle (d.lockWindow p) (d.lossUnlock p) (some v)) = false) :
    (d.refCycles p [some v] stop).1.rd F.CLK_PLL_PHASE_ERR p = unsigned 16 v ∧ (d.refCycles p [some v] stop).2 = false ∧
    (d.passed p [some v] stop).1 = (d.runOf p).cycle (d.lockWindow p) (d.lossUnlock p) (some v) := by
  have hpass : d.passed p [some v] stop = ((d.runOf p).cycle (d.lockWindow p) (d.lossUnlock p) (some v), 1, false) := LoopRun.pass_one h
  have hshown : (d.refCycles p [some v] stop).1 = (d.counted p [some v] stop).wr F.CLK_PLL_PHASE_ERR (unsigned 16 v) p := by
    rw [d.refCycles_eq, hpass]
    rfl
  refine ⟨?_, by rw [d.refCycles_stopped, hpass], by rw [hpass]⟩
  rw [hshown]
  exact Dev.rd_wr_fits _ p (by decide) (unsigned_lt 16 v)
end

/-! ## The loss of lock (R125) -/

/-- When lock is lost: the loss CYCLES in a row beyond UNLOCK, or without an edge. -/
def lossStop (n : Nat) (r : LoopRun) : Bool := decide (n ≤ r.outside) || decide (n ≤ r.missing)
/-- When lock is declared: CYCLES in a row inside WINDOW. -/
def lockStop (n : Nat) (r : LoopRun) : Bool := decide (n ≤ r.inside)
theorem lock_clear_phase : ∀ p : Fin 29, (∀ f ∈ [F.CLK_PLL_STATUS_STATE, F.CLK_PLL_LOCKTIME_US, F.CLK_PLL_UNLOCKS_COUNT], f.clear p 0 [F.CLK_PLL_PHASE_ERR.place p] = true) ∧
    F.CLK_STATUS_ALIGNED.clear 0 0 [F.CLK_PLL_PHASE_ERR.place p] = true := by decide

section
variable (d : Dev) (p : Fin 29) (errs : List (Option Int))

/-- The state of a loop that lost lock (R128, R129). -/
def lostState (p : Nat) : Nat := if p = 26 ∨ p = 27 then 5 else 4
theorem lostState_lt (p : Nat) : lostState p < 8 := by unfold lostState; split <;> decide

theorem Dev.lossOfLock_ignored (h : d.loop p ≠ 3) : d.lossOfLock p errs = d := if_neg h
theorem Dev.lossOfLock_eq (h : d.loop p = 3) : d.lossOfLock p errs = if (d.refCycles p errs (lossStop (d.lossCycles p))).2 then
    (d.refCycles p errs (lossStop (d.lossCycles p))).1.lost p (lostState p) else (d.refCycles p errs (lossStop (d.lossCycles p))).1 := if_pos h
theorem Dev.lossCycles_pos : 0 < d.lossCycles p := by unfold Dev.lossCycles; omega

/-- What cycles that lose lock move. -/
def lossPlaces (p : Nat) : List (Nat × Nat × Nat) := F.CLK_PLL_PHASE_ERR.place p :: lostPlaces p
theorem mem_lossRegs : ∀ p : Fin 29, ∀ x ∈ lossPlaces p, x.1 ∈ F.CLK_PLL_UNLOCKS_COUNT.at_ p 0 :: F.CLK_PLL_PHASE_ERR.at_ p 0 :: loopRegs p := by decide +kernel

/-- Cycles that lose lock (R125, R127). -/
theorem Dev.lossOfLock_holds (h : d.loop p = 3) (hpass : (d.passed p errs (lossStop (d.lossCycles p))).2 = (errs.length, true)) :
    (d.lossOfLock p errs).loop p = lostState p ∧ Raised (d.lossOfLock p errs) 1 p ∧
    (d.lossOfLock p errs).clk = max d.clk ((d.runOf p).upTo + errs.length * d.refClocks p) ∧
    (d.lossOfLock p errs).rd F.CLK_PLL_UNLOCKS_COUNT p = min (2 ^ 32 - 1) (d.rd F.CLK_PLL_UNLOCKS_COUNT p + 1) ∧
    Frame (F.CLK_PLL_UNLOCKS_COUNT.at_ p 0 :: F.CLK_PLL_PHASE_ERR.at_ p 0 :: loopRegs p) d { (d.lossOfLock p errs).atTime d with clocks := d.clocks } := by
  generalize hstop : lossStop (d.lossCycles p) = stop at hpass
  have hlost : d.lossOfLock p errs = (d.refCycles p errs stop).1.lost p (lostState p) := by
    rw [d.lossOfLock_eq p errs h, hstop, d.refCycles_stopped, hpass]
    rfl
  have hcycles : ClockStep False (lossPlaces p) (d.advanceTo (d.passedAt p errs stop)) (d.refCycles p errs stop).1 :=
    (d.refCycles_step p errs stop).mono fun x hx => (List.mem_singleton.mp hx) ▸ .head _
  have hstep := hcycles.lost p (lostState p) fun x hx => .tail _ hx
  rw [hlost]
  refine ⟨Dev.lost_loop _ p _ (lostState_lt p), Dev.lost_raised _ p _, ?_, ?_, hstep.atTime (mem_lossRegs p)⟩
  · rw [hstep.clk, Dev.advanceTo_clk, Dev.passedAt, hpass]
  · rw [Dev.lost_unlocks, d.rd_refCycles p errs stop ((lock_clear_phase p).1 _ (by simp))]
/-- One cycle inside UNLOCK begins the count anew. -/
theorem Dev.lossOfLock_one (h : d.loop p = 3) {v : Int} (hv : v.natAbs ≤ d.lossUnlock p) :
    (d.lossOfLock p [some v]).loop p = 3 ∧
    ((d.lossOfLock p [some v]).clocks.runs.get? p).map (fun r => (r.outside, r.missing, r.upTo)) = some (0, 0, (d.lossOfLock p [some v]).clk) ∧
    Frame [F.CLK_PLL_PHASE_ERR.at_ p 0] d { (d.lossOfLock p [some v]).atTime d with clocks := d.clocks } := by
  have hpos := d.lossCycles_pos p
  generalize hn : d.lossCycles p = n at hpos
  have hgo : lossStop n ((d.runOf p).cycle (d.lockWindow p) (d.lossUnlock p) (some v)) = false := by
    simp [lossStop, LoopRun.cycle, Nat.not_lt.mpr hv, hpos.ne']
  obtain ⟨-, hstopped, hcount⟩ := d.refCycles_one p (lossStop n) hgo
  have heq : d.lossOfLock p [some v] = (d.refCycles p [some v] (lossStop n)).1 := by
    rw [d.lossOfLock_eq p _ h, hn, hstopped]
    rfl
  rw [heq]
  refine ⟨(d.rd_refCycles p _ _ ((lock_clear_phase p).1 _ (by simp))).trans h, ?_, (d.refCycles_step p _ _).atTime (by simp [Fld.place])⟩
  rw [d.refCycles_run, hcount]
  simp [LoopRun.cycle, Nat.not_lt.mpr hv]

/-! ## Cycles that do not lock (R120, R125) -/

theorem Dev.lockDeclared_ignored (h : (d.loop p ≠ 2 ∧ d.loop p ≠ 4 ∧ d.loop p ≠ 5) ∨ (p.val = 28 ∧ d.rd F.XTL_STATUS_REF_OK = 0)) : d.lockDeclared p errs = d := by
  refine if_neg fun hacts => ?_
  obtain ⟨hstate, href⟩ := hacts
  rcases h with hother | ⟨hp, hnone⟩
  · omega
  · exact absurd (href hp) (by simp [Dev.is_eq_false hnone])
theorem Dev.lockDeclared_eq (hst : d.loop p = 2 ∨ d.loop p = 4 ∨ d.loop p = 5) (href : p.val = 28 → d.rd F.XTL_STATUS_REF_OK = 1) :
    d.lockDeclared p errs = if (d.refCycles p errs (lockStop (d.lockCycles p))).2 then (d.refCycles p errs (lockStop (d.lockCycles p))).1.enterLocked p
      else (d.refCycles p errs (lockStop (d.lockCycles p))).1 := if_pos ⟨hst, fun hp => Dev.is_eq_true (href hp)⟩
/-- One cycle outside WINDOW begins the count anew. -/
theorem Dev.lockDeclared_one (hst : d.loop p = 2 ∨ d.loop p = 4 ∨ d.loop p = 5) (href : p.val = 28 → d.rd F.XTL_STATUS_REF_OK = 1) {v : Int}
    (hv : d.lockWindow p < v.natAbs) :
    (d.lockDeclared p [some v]).loop p = d.loop p ∧
    ((d.lockDeclared p [some v]).clocks.runs.get? p).map (fun r => (r.inside, r.missing, r.upTo)) = some (0, 0, (d.lockDeclared p [some v]).clk) ∧
    (d.lockDeclared p [some v]).rd F.CLK_PLL_PHASE_ERR p = unsigned 16 v ∧
    Frame [F.CLK_PLL_PHASE_ERR.at_ p 0] d { (d.lockDeclared p [some v]).atTime d with clocks := d.clocks } := by
  have hpos : 0 < d.lockCycles p := by unfold Dev.lockCycles; omega
  generalize hn : d.lockCycles p = n at hpos
  have hgo : lockStop n ((d.runOf p).cycle (d.lockWindow p) (d.lossUnlock p) (some v)) = false := by
    simp [lockStop, LoopRun.cycle, Nat.not_le.mpr hv, hpos.ne']
  obtain ⟨hphase, hstopped, hcount⟩ := d.refCycles_one p (lockStop n) hgo
  have heq : d.lockDeclared p [some v] = (d.refCycles p [some v] (lockStop n)).1 := by
    rw [d.lockDeclared_eq p _ hst href, hn, hstopped]
    rfl
  rw [heq]
  refine ⟨d.rd_refCycles p _ _ ((lock_clear_phase p).1 _ (by simp)), ?_, hphase, (d.refCycles_step p _ _).atTime (by simp [Fld.place])⟩
  rw [d.refCycles_run, hcount]
  simp [LoopRun.cycle, Nat.not_le.mpr hv]
end

end Machine
end Sys2Proof
end

