-- ==== Sys2Proof/Proofs/LockDeclared.lean ====
section
/-! PROOFS. What a loop that enters LOCKED leaves, and the alignment (spec/05_clocks.md, R125, R127–R132). -/

namespace Sys2Proof

theorem lookAt_map {α β : Type} (f : α → β) (k : Nat) : ∀ l : List (Nat × α), lookAt k (l.map (fun p => (p.1, f p.2))) = (lookAt k l).map f
  | [] => rfl
  | p :: t => by
    simp only [List.map_cons, lookAt, lookAt_map f k t]
    split <;> rfl
theorem Tab.get?_map {α β : Type} (t : Tab α) (f : α → β) (k : Nat) : (t.map f).get? k = (t.get? k).map f := lookAt_map f k t.cells

namespace Machine

/-! ## The alignment (R132, R292) -/

/-- What shows the alignment. -/
def alignPlaces : List (Nat × Nat × Nat) :=
  [F.CLK_STATUS_ALIGNED.place, F.TIM_ALIGN_TS.place 0 0, F.TIM_ALIGN_TS.place 0 1, F.TIM_ALIGN_TS.place 0 2, F.TIM_ALIGN_EPOCH_EPOCH.place]

section
variable (d : Dev)

/-- Counting segments paused and begun anew move no register. -/
theorem foldl_rebased_regs (l : List Nat) : ∀ d : Dev,
    (l.foldl (fun d i => if (d.lo i).counting then (d.loPause i).setLo i (fun l => { l with counting := true, since := 0 }) else d) d).regs = d.regs := by
  induction l with
  | nil => exact fun _ => rfl
  | cons i t ih =>
    intro d
    rw [List.foldl_cons, ih]
    split <;> rfl
/-- The alignment rebases times and indices and shows itself in its registers. -/
theorem Dev.alignClocks_shape : ∃ b : Dev, b.regs = d.regs ∧ b.clk = 0 ∧ b.time.ticks = 0 ∧ (∀ n, (b.input n).idx = 0) ∧
    d.alignClocks = ((b.flag F.CLK_STATUS_ALIGNED true).wrWide F.TIM_ALIGN_TS b.now96 0 3).wr F.TIM_ALIGN_EPOCH_EPOCH b.epoch := by
  refine ⟨_, ?regs, ?clk, ?ticks, ?idx, rfl⟩
  case regs => exact foldl_rebased_regs (List.range 4) d
  case clk => rfl
  case ticks => rfl
  case idx =>
    intro n
    unfold Dev.input Tab.getD
    dsimp only
    rw [Tab.get?_map]
    cases Tab.get? _ n <;> rfl
theorem ClockStep.aligned {dr : Prop} {b : Dev} (ts ep : Nat) :
    ClockStep dr alignPlaces b (((b.flag F.CLK_STATUS_ALIGNED true).wrWide F.TIM_ALIGN_TS ts 0 3).wr F.TIM_ALIGN_EPOCH_EPOCH ep) :=
  (((((refl ..).flag F.CLK_STATUS_ALIGNED true 0 0 (by decide)).wr F.TIM_ALIGN_TS _ 0 0 (by decide)).wr F.TIM_ALIGN_TS _ 0 1 (by decide)).wr
    F.TIM_ALIGN_TS _ 0 2 (by decide)).wr F.TIM_ALIGN_EPOCH_EPOCH ep 0 0 (by decide)
theorem Dev.rd_alignClocks {f : Fld} {n : Nat} (hf : f.clear n 0 alignPlaces = true) : d.alignClocks.rd f n = d.rd f n := by
  obtain ⟨b, hregs, -, -, -, e⟩ := d.alignClocks_shape
  rw [e, (ClockStep.aligned (dr := False) _ _).bits f n 0 hf, Dev.rd_congr hregs]
theorem Dev.alignClocks_pending {g s : Nat} (hg : g < 64) (h : Raised d g s) : Raised d.alignClocks g s := by
  obtain ⟨b, hregs, -, -, -, e⟩ := d.alignClocks_shape
  rw [e]
  refine (ClockStep.aligned (dr := False) _ _).pending g s hg ?_
  unfold Raised
  rw [Dev.rd_congr hregs]
  exact h
/-- The alignment: shown, composing clock 0, sample index 0 of every input. -/
theorem Dev.alignClocks_holds : d.alignClocks.rd F.CLK_STATUS_ALIGNED = 1 ∧ d.alignClocks.clk = 0 ∧ d.alignClocks.time.ticks = 0 ∧
    ∀ n, (d.alignClocks.input n).idx = 0 := by
  obtain ⟨b, -, hclk, hticks, hidx, e⟩ := d.alignClocks_shape
  have hstep := (ClockStep.aligned (dr := False) (b := b) b.now96 b.epoch)
  rw [e]
  refine ⟨?_, hclk, hticks, fun n => hidx n⟩
  have hlater : ClockStep False alignPlaces.tail (b.flag F.CLK_STATUS_ALIGNED true)
      (((b.flag F.CLK_STATUS_ALIGNED true).wrWide F.TIM_ALIGN_TS b.now96 0 3).wr F.TIM_ALIGN_EPOCH_EPOCH b.epoch) :=
    ((((ClockStep.refl ..).wr F.TIM_ALIGN_TS _ 0 0 (by decide)).wr F.TIM_ALIGN_TS _ 0 1 (by decide)).wr F.TIM_ALIGN_TS _ 0 2 (by decide)).wr
      F.TIM_ALIGN_EPOCH_EPOCH _ 0 0 (by decide)
  exact (hlater.bits F.CLK_STATUS_ALIGNED 0 0 (by decide)).trans (Dev.rd_flag_same b true 0 (by decide) rfl)
end

/-! ## Lock (R127) -/

section
variable (d : Dev) (p : Nat)

/-- The time base switches back from the crystal at a crystal edge (R129). -/
def Dev.atEdge : Dev := if p = 27 ∧ d.loop p = 5 then d.advance ((10 - d.clk % 10) % 10) else d
/-- The time to lock shown (R140). -/
def Dev.lockTimed : Dev :=
  if d.loop p = 2 then (d.atEdge p).wr F.CLK_PLL_LOCKTIME_US ((((d.atEdge p).clk : Int) - (d.atEdge p).clocks.since.getD p 0).toNat / 1000) p else d.atEdge p
/-- The state and its event. -/
def Dev.lockShown : Dev := ((d.lockTimed p).setLoop p 3).raise 1 29
/-- Elastic buffers centred (R128). -/
def Dev.lockCentred : Dev :=
  if d.loop p = 4 then ((d.lockShown p).centred p).foldl (fun d n => d.wr F.CLK_EBUF_FILL 0 n) (d.lockShown p) else d.lockShown p
/-- What the profile makes of it. -/
def Dev.lockEntered : Dev := if isLo p then (d.lockCentred p).loLocked (p - 8) else d.lockCentred p
theorem Dev.enterLocked_eq : d.enterLocked p =
    if !((d.lockEntered p).is F.CLK_STATUS_ALIGNED) && alignLoops.all (fun q => (d.lockEntered p).loop q == 3) then (d.lockEntered p).alignClocks else d.lockEntered p := rfl
end

/-- The fills that centring moves. -/
def ebufPlaces : List (Nat × Nat × Nat) := (List.range 8).map (fun n => F.CLK_EBUF_FILL.place n)
/-- What a segment that acts on lock moves in LO i. -/
def actedPlaces (i : Nat) : List (Nat × Nat × Nat) := mergePlaces 256 ++ [F.CLK_LO_STATUS_MUTED.place i, F.CLK_LO_STATUS_PSTATE.place i]
/-- What a search that a profile owes moves. -/
def owedPlaces (p : Nat) : List (Nat × Nat × Nat) := F.CLK_PLL_STATUS_DIV.place p :: loopPlaces p
/-- What lock moves after the state is shown, where no search is owed. -/
def settledPlaces (p : Nat) : List (Nat × Nat × Nat) := ebufPlaces ++ actedPlaces (p - 8)
/-- All that it moves after the time to lock. -/
def lockPlaces (p : Nat) : List (Nat × Nat × Nat) := settledPlaces p ++ owedPlaces p

theorem state_clear_settled : ∀ p q : Fin 29, F.CLK_PLL_STATUS_STATE.clear q 0 (settledPlaces p) = true := by
  have hebuf : ∀ q : Fin 29, F.CLK_PLL_STATUS_STATE.clear q 0 ebufPlaces = true := by decide
  have hmerge : ∀ q : Fin 29, F.CLK_PLL_STATUS_STATE.clear q 0 (mergePlaces 256) = true := by decide +kernel
  have hlo : ∀ p q : Fin 29, F.CLK_PLL_STATUS_STATE.clear q 0 [F.CLK_LO_STATUS_MUTED.place (p - 8), F.CLK_LO_STATUS_PSTATE.place (p - 8)] = true := by
    intro p q
    refine Fld.clear_iff.mpr ⟨state_quiet q, fun x hx => .inl ?_⟩
    have hq : F.CLK_PLL_STATUS_STATE.at_ q 0 = 0x4010C + q * 0x40 := rfl
    have hx1 : x.1 = 0x41008 + (p - 8) * 0x100 := by
      simp only [List.mem_cons, List.not_mem_nil, or_false] at hx
      rcases hx with rfl | rfl <;> rfl
    omega
  exact fun p q => Fld.clear_append (hebuf q) (Fld.clear_append (hmerge q) (hlo p q))
theorem state_clear_div : ∀ p q : Fin 29, F.CLK_PLL_STATUS_STATE.clear q 0 [F.CLK_PLL_STATUS_DIV.place p] = true := by decide +kernel
theorem state_clear_lockPlaces (p q : Fin 29) (h : p ≠ q) : F.CLK_PLL_STATUS_STATE.clear q 0 (lockPlaces p) = true := by
  exact Fld.clear_append (state_clear_settled p q) (Fld.clear_append (state_clear_div p q) (state_clear_loopPlaces p q h))
theorem locktime_clear : ∀ p : Fin 29, F.CLK_PLL_LOCKTIME_US.clear p 0 (lockPlaces p) = true ∧ F.CLK_STATUS_ALIGNED.clear 0 0 (lockPlaces p) = true := by
  decide +kernel
theorem locktime_apart : ∀ p q : Fin 29, F.CLK_PLL_STATUS_STATE.clear q 0 [F.CLK_PLL_LOCKTIME_US.place p] = true := by decide +kernel

section
variable (d : Dev) (p : Fin 29)

theorem Dev.centred_lt {n : Nat} (hn : n ∈ d.centred p) : n < 8 := by
  unfold Dev.centred at hn
  split at hn
  · split at hn
    · exact absurd hn List.not_mem_nil
    · rw [List.mem_singleton.mp hn]; omega
  · split at hn
    · split at hn
      · exact absurd hn List.not_mem_nil
      · exact List.mem_range.mp (List.mem_filter.mp hn).1
    · exact absurd hn List.not_mem_nil
theorem Dev.lockCentred_step {l : List (Nat × Nat × Nat)} (hl : ∀ x ∈ ebufPlaces, x ∈ l) : ClockStep True l (d.lockShown p) (d.lockCentred p) :=
  .ite _ (.foldl _ (fun n hn _ hb => hb.wr F.CLK_EBUF_FILL 0 n 0 (hl _ (List.mem_map.mpr ⟨n, List.mem_range.mpr (Dev.centred_lt _ p hn), rfl⟩))) (.refl ..)) (.refl ..)
theorem foldl_fill_clocks (l : List Nat) : ∀ d : Dev, (l.foldl (fun d n => d.wr F.CLK_EBUF_FILL 0 n) d).clocks = d.clocks := by
  induction l with
  | nil => exact fun _ => rfl
  | cons n t ih => exact fun d => ih _
theorem Dev.atEdge_clocks : (d.atEdge p).clocks = d.clocks := by
  unfold Dev.atEdge
  split
  · exact Dev.advance_clocks _ _
  · rfl
theorem Dev.lockTimed_clocks : (d.lockTimed p).clocks = d.clocks := by
  unfold Dev.lockTimed
  split <;> exact d.atEdge_clocks p
/-- Lock itself moves no LO's profile. -/
theorem Dev.lo_lockCentred (i : Nat) : (d.lockCentred p).lo i = d.lo i := by
  have hshown : (d.lockShown p).lo i = d.lo i := by
    have hraise : (d.lockShown p).clocks = ((d.lockTimed p).setLoop p 3).clocks := Dev.raise_clocks _ _ _
    have htimed : (d.lockTimed p).lo i = d.lo i := congrArg (fun c : Clocks => c.lo.getD i ⟨0, false, 0, 0, 0, false, false, false, false, false, false⟩) (d.lockTimed_clocks p)
    rw [← htimed, ← Dev.lo_setLoop (d.lockTimed p) p 3 i]
    unfold Dev.lo
    rw [hraise]
  rw [← hshown]
  unfold Dev.lockCentred Dev.lo
  split
  · rw [foldl_fill_clocks]
  · rfl
/-- After its state a loop that locks moves fills, and an LO its profile; the loop itself only where the profile owes a search. -/
theorem Dev.lockEntered_step {l : List (Nat × Nat × Nat)} (hl : ∀ x ∈ settledPlaces p, x ∈ l)
    (howed : isLo p = true → (d.lo (p - 8)).owed = true → ∀ x ∈ owedPlaces p, x ∈ l) : ClockStep True l (d.lockShown p) (d.lockEntered p) := by
  have hcentred := d.lockCentred_step p fun x hx => hl x (List.mem_append_left _ hx)
  have hacted : ∀ x ∈ actedPlaces (p - 8), x ∈ l := fun x hx => hl x (List.mem_append_right _ hx)
  refine .iteOf _ (fun hlo => ?_) fun _ => hcentred
  have hrange : 8 ≤ p.val ∧ p.val < 12 := by simpa [isLo] using hlo
  have hnumber : 8 + (p.val - 8) = p.val := by omega
  refine hcentred.loLocked ⟨p - 8, by omega⟩ (fun x hx => hacted x (List.mem_append_left _ hx)) (hacted _ (by simp [actedPlaces])) (hacted _ (by simp [actedPlaces])) ?_
  intro ho
  rw [d.lo_lockCentred] at ho
  dsimp only
  rw [hnumber]
  exact howed hlo ho
theorem Dev.lockEntered_moves : ClockStep True (lockPlaces p) (d.lockTimed p) (d.lockEntered p) := by
  have howed : ∀ x ∈ owedPlaces p, x ∈ lockPlaces p := fun x hx => List.mem_append_right _ hx
  have hshown : ClockStep True (lockPlaces p) (d.lockTimed p) (d.lockShown p) :=
    ((ClockStep.refl ..).setLoop p 3 fun x hx => howed x (.tail _ hx)).raise 1 29 (by decide) (by decide)
  exact hshown.trans (d.lockEntered_step p (fun x hx => List.mem_append_left _ hx) fun _ _ => howed)
theorem Dev.lockEntered_raised : Raised (d.lockEntered p) 1 29 :=
  (d.lockEntered_step p (fun x hx => List.mem_append_left (owedPlaces p) hx) fun _ _ x hx => List.mem_append_right _ hx).pending 1 29 (by decide)
    (raised_raise _ 29 (by decide))
/-- A loop whose profile owes no search is LOCKED. -/
theorem Dev.lockEntered_loop (h : isLo p = true → (d.lo (p - 8)).owed = false) : (d.lockEntered p).loop p = 3 := by
  have hstep := d.lockEntered_step p (fun x hx => hx) fun hlo ho => absurd ho (by simp [h hlo])
  have hraise : (d.lockShown p).loop p = ((d.lockTimed p).setLoop p 3).loop p := Dev.rd_raise _ _ _ _ _ (by decide) (state_quiet p)
  exact (hstep.bits F.CLK_PLL_STATUS_STATE p 0 (state_clear_settled p p)).trans (hraise.trans (Dev.loop_setLoop _ p (by decide)))

/-! ## The command (R125) -/

/-- What the time to lock leaves of the state before it. -/
theorem Dev.lockTimed_step (dr : Prop) : ClockStep dr [F.CLK_PLL_LOCKTIME_US.place p] (d.atEdge p) (d.lockTimed p) :=
  .ite _ ((ClockStep.refl ..).wr F.CLK_PLL_LOCKTIME_US _ p 0 (.head _)) (.refl ..)
theorem Dev.atEdge_same (h : p.val = 27 → d.loop p ≠ 5) : d.atEdge p = d := if_neg fun hp => h hp.1 hp.2
theorem Dev.rd_atEdge (f : Fld) (n : Nat) : (d.atEdge p).rd f n = d.rd f n := by
  unfold Dev.atEdge
  split
  · exact Dev.rd_congr (Dev.advance_regs _ _) f n 0
  · rfl
theorem Dev.lockEntered_clk : (d.lockEntered p).clk = (d.atEdge p).clk := (d.lockEntered_moves p).clk.trans (d.lockTimed_step p True).clk
/-- Other loops keep their state. -/
theorem Dev.lockEntered_other (q : Fin 29) (h : p ≠ q) : (d.lockEntered p).loop q = d.loop q :=
  ((d.lockEntered_moves p).bits F.CLK_PLL_STATUS_STATE q 0 (state_clear_lockPlaces p q h)).trans
    (((d.lockTimed_step p True).bits F.CLK_PLL_STATUS_STATE q 0 (locktime_apart p q)).trans (d.rd_atEdge p _ _))
theorem aligned_apart : ∀ p : Fin 29, F.CLK_STATUS_ALIGNED.clear 0 0 [F.CLK_PLL_LOCKTIME_US.place p] = true := by decide
theorem Dev.lockEntered_aligned : (d.lockEntered p).rd F.CLK_STATUS_ALIGNED = d.rd F.CLK_STATUS_ALIGNED :=
  ((d.lockEntered_moves p).bits F.CLK_STATUS_ALIGNED 0 0 (locktime_clear p).2).trans
    (((d.lockTimed_step p True).bits F.CLK_STATUS_ALIGNED 0 0 (aligned_apart p)).trans (d.rd_atEdge p _ 0))
/-- The time to lock is shown on lock from ACQUIRE alone (R140). -/
theorem Dev.lockEntered_time : (d.lockEntered p).rd F.CLK_PLL_LOCKTIME_US p =
    if d.loop p = 2 then ((d.clk : Int) - d.clocks.since.getD p 0).toNat / 1000 % 2 ^ 32 else d.rd F.CLK_PLL_LOCKTIME_US p := by
  rw [(d.lockEntered_moves p).bits F.CLK_PLL_LOCKTIME_US p 0 (locktime_clear p).1, Dev.lockTimed]
  split
  next h => rw [d.atEdge_same p (by omega), Dev.rd_wr_same _ _ _ _ _ (by decide)]; rfl
  next => exact d.rd_atEdge p _ _

theorem phase_apart : ∀ p q : Fin 29, F.CLK_PLL_STATUS_STATE.clear q 0 [F.CLK_PLL_PHASE_ERR.place p] = true := by decide +kernel
theorem enter_clear_align : ∀ p : Fin 29, F.CLK_PLL_STATUS_STATE.clear p 0 alignPlaces = true ∧ F.CLK_PLL_LOCKTIME_US.clear p 0 alignPlaces = true := by decide
/-- Whether or not the lock aligns the engine, the loop's state, its time to lock and the event stand. -/
theorem Dev.enterLocked_kept {f : Fld} (hf : f.clear p 0 alignPlaces = true) : (d.enterLocked p).rd f p = (d.lockEntered p).rd f p := by
  rw [d.enterLocked_eq]
  split
  · exact Dev.rd_alignClocks _ hf
  · rfl
theorem Dev.enterLocked_raised : Raised (d.enterLocked p) 1 29 := by
  rw [d.enterLocked_eq]
  split
  · exact Dev.alignClocks_pending _ (by decide) (d.lockEntered_raised p)
  · exact d.lockEntered_raised p
/-- The last of the loops that alignment waits for aligns the engine (R132). -/
theorem Dev.enterLocked_aligns (h0 : d.rd F.CLK_STATUS_ALIGNED = 0) (hall : ∀ q, q ∈ alignLoops → q = p.val ∨ d.loop q = 3) :
    d.enterLocked p = (d.lockEntered p).alignClocks := by
  have hnot : (d.lockEntered p).is F.CLK_STATUS_ALIGNED = false := Dev.is_eq_false ((d.lockEntered_aligned p).trans h0)
  have hsample : ∀ q ∈ alignLoops, isLo q = false ∧ q < 29 := by decide
  have hlocked : alignLoops.all (fun q => (d.lockEntered p).loop q == 3) = true := List.all_eq_true.mpr fun q hq => beq_iff_eq.mpr <| by
    obtain ⟨hother, hlt⟩ := hsample q hq
    by_cases hp : q = p.val
    · subst hp
      exact d.lockEntered_loop p fun hlo => absurd hlo (by simp [hother])
    · exact (d.lockEntered_other p ⟨q, hlt⟩ fun e => hp (congrArg Fin.val e).symm).trans ((hall q hq).resolve_left hp)
  rw [d.enterLocked_eq, hnot, hlocked]
  rfl
theorem Dev.enterLocked_aligned (h1 : d.rd F.CLK_STATUS_ALIGNED = 1) : d.enterLocked p = d.lockEntered p := by
  have hdone : (d.lockEntered p).is F.CLK_STATUS_ALIGNED = true := Dev.is_eq_true ((d.lockEntered_aligned p).trans h1)
  rw [d.enterLocked_eq, hdone]
  rfl
end

section
variable (d : Dev) (p : Fin 29) (errs : List (Option Int)) (stop : LoopRun → Bool)

/-- What lock asks stands when the cycles have passed: the loops' states, the profiles, when a state began, whether the engine is aligned. -/
theorem Dev.loop_refCycles (q : Fin 29) : (d.refCycles p errs stop).1.loop q = d.loop q := d.rd_refCycles p errs stop (phase_apart p q)
theorem Dev.lo_refCycles (i : Nat) : (d.refCycles p errs stop).1.lo i = d.lo i := by
  unfold Dev.lo
  rw [d.refCycles_clocks]
theorem Dev.since_refCycles : (d.refCycles p errs stop).1.clocks.since = d.clocks.since := by rw [d.refCycles_clocks]

/-- Cycles that declare lock (R125, R127, R132, R140). -/
theorem Dev.lockDeclared_holds (hst : d.loop p = 2 ∨ d.loop p = 4 ∨ d.loop p = 5) (href : p.val = 28 → d.rd F.XTL_STATUS_REF_OK = 1)
    (hpass : (d.passed p errs (lockStop (d.lockCycles p))).2 = (errs.length, true)) :
    ((isLo p = true → (d.lo (p - 8)).owed = false) → (d.lockDeclared p errs).loop p = 3) ∧ Raised (d.lockDeclared p errs) 1 29 ∧
    (d.loop p ≠ 2 → (d.lockDeclared p errs).rd F.CLK_PLL_LOCKTIME_US p = d.rd F.CLK_PLL_LOCKTIME_US p) ∧
    (d.rd F.CLK_STATUS_ALIGNED = 0 → (∀ q, q ∈ alignLoops → q = p.val ∨ d.loop q = 3) →
      (d.lockDeclared p errs).rd F.CLK_STATUS_ALIGNED = 1 ∧ (d.lockDeclared p errs).clk = 0 ∧ (d.lockDeclared p errs).time.ticks = 0 ∧
      ∀ n, n < 8 → ((d.lockDeclared p errs).input n).idx = 0) ∧
    (d.rd F.CLK_STATUS_ALIGNED = 1 → d.loop p = 2 →
      (d.lockDeclared p errs).rd F.CLK_PLL_LOCKTIME_US p = (((d.lockDeclared p errs).clk : Int) - d.clocks.since.getD p 0).toNat / 1000 % 2 ^ 32) ∧
    (d.rd F.CLK_STATUS_ALIGNED = 1 → p.val ≠ 27 → (d.lockDeclared p errs).clk = max d.clk ((d.runOf p).upTo + errs.length * d.refClocks p)) := by
  generalize hstop : lockStop (d.lockCycles p) = stop at hpass
  obtain ⟨hstate, haligned⟩ := lock_clear_phase p
  have hlocks : d.lockDeclared p errs = (d.refCycles p errs stop).1.enterLocked p := by
    rw [d.lockDeclared_eq p errs hst href, hstop, d.refCycles_stopped, hpass]
    rfl
  have hloop := d.loop_refCycles p errs stop
  have hlo := d.lo_refCycles p errs stop
  have hsince := d.since_refCycles p errs stop
  have htime : (d.refCycles p errs stop).1.rd F.CLK_PLL_LOCKTIME_US p = d.rd F.CLK_PLL_LOCKTIME_US p := d.rd_refCycles p errs stop (hstate _ (by simp))
  have halign : (d.refCycles p errs stop).1.rd F.CLK_STATUS_ALIGNED = d.rd F.CLK_STATUS_ALIGNED := d.rd_refCycles p errs stop haligned
  have hclk : (d.refCycles p errs stop).1.clk = max d.clk ((d.runOf p).upTo + errs.length * d.refClocks p) := by
    rw [d.refCycles_clk, Dev.passedAt, hpass]
  rw [hlocks]
  generalize (d.refCycles p errs stop).1 = e at hloop hlo hsince htime halign hclk
  refine ⟨fun howed => ?_, e.enterLocked_raised p, fun hnot => ?_, fun h0 hall => ?_, fun h1 h2 => ?_, fun h1 h27 => ?_⟩
  · exact (e.enterLocked_kept p (enter_clear_align p).1).trans (e.lockEntered_loop p fun hl => by rw [hlo]; exact howed hl)
  · rw [e.enterLocked_kept p (enter_clear_align p).2, e.lockEntered_time, hloop, if_neg hnot, htime]
  · rw [e.enterLocked_aligns p (halign.trans h0) fun q hq => (hall q hq).imp_right fun h3 => by
      have hlt : ∀ q ∈ alignLoops, q < 29 := by decide
      exact (hloop ⟨q, hlt q hq⟩).trans h3]
    obtain ⟨hshown, hzero, hticks, hidx⟩ := (e.lockEntered p).alignClocks_holds
    exact ⟨hshown, hzero, hticks, fun n _ => hidx n⟩
  · rw [e.enterLocked_aligned p (halign.trans h1), e.lockEntered_time, hloop, if_pos h2, e.lockEntered_clk, e.atEdge_same p (by rw [hloop]; omega), hsince]
  · rw [e.enterLocked_aligned p (halign.trans h1), e.lockEntered_clk, e.atEdge_same p fun hp => absurd hp h27, hclk]
end

end Machine
end Sys2Proof
end

