-- ==== Sys2Proof/Proofs/Loops.lean ====
section
/-! PROOFS. The elastic buffers (spec/05_clocks.md, R131) and the loops' commands together: settles O20. -/

namespace Sys2Proof
namespace Machine

/-! ## An elastic buffer that drifts too far (R131) -/

section
variable {w : List Nat} {a b : Dev} {f : Fld} {n : Nat} (hlow : f.at_ n 0 < 0x300000) (hw : f.at_ n 0 ∉ w) (hquiet : irqReg (f.at_ n 0) = false)
include hlow hw hquiet

/-- What ends with an input keeps every register below the stores' that it does not name. -/
theorem StreamsOnly.rd_below (h : StreamsOnly w a b) : b.rd f n = a.rd f n := congrArg (fun w : Word => w.field f.lo f.w) (h.1 _ hlow hw hquiet)
theorem FedOnly.rd_below (h : FedOnly w a b) : b.rd f n = a.rd f n := congrArg (fun w : Word => w.field f.lo f.w) (h.1 _ hlow hw hquiet)
end

theorem fill_apart : ∀ n : Fin 8, F.CLK_EBUF_FILL.at_ n 0 ≠ F.CNV_STATUS_STATE.at_ n 0 ∧ F.CLK_EBUF_FILL.at_ n 0 < 0x300000 ∧
    F.CLK_EBUF_FILL.at_ n 0 ∉ [F.CNV_STATUS_BLANKING.at_ n 0, F.CNV_BLANK_LO_BLANK.at_ n 0] ∧ irqReg (F.CLK_EBUF_FILL.at_ n 0) = false ∧
    irqReg (F.CNV_STATUS_STATE.at_ n 0) = false := by decide
theorem fill_apart_code : ∀ n : Fin 8, F.CLK_EBUF_FILL.at_ n 0 ≠ F.CNV_STATUS_CODE.at_ n 0 := by decide

section
variable (d : Dev) (n : Fin 8) (fill : Int)

/-- A halt of input n keeps the fill of its elastic buffer. -/
theorem Dev.fill_cnvHalt (st code : Nat) : (d.cnvHalt n st code).rd F.CLK_EBUF_FILL n = d.rd F.CLK_EBUF_FILL n := by
  obtain ⟨happart, hlow, hnot, hquiet, -⟩ := fill_apart n
  have ended : StreamsOnly [] (d.stopShown n st code) (d.cnvHalt n st code) := (StreamsOnly.refl [] _).cascade
  have closed : FedOnly [F.CNV_STATUS_BLANKING.at_ n 0, F.CNV_BLANK_LO_BLANK.at_ n 0] d ((d.endBlank n).closeSlotGap n (d.nextIdx n)) :=
    ((FedOnly.refl _ d).endBlank (.head _) (.tail _ (.head _))).closeSlotGap n _
  have hshown : (d.stopShown n st code).rd F.CLK_EBUF_FILL n = ((d.endBlank n).closeSlotGap n (d.nextIdx n)).rd F.CLK_EBUF_FILL n := by
    rw [Dev.stopShown, Dev.cnvCode, Dev.rd_wr_ne _ _ _ _ _ _ _ _ (fill_apart_code n), Dev.rd_wr_ne _ _ _ _ _ _ _ _ happart]
  rw [ended.rd_below hlow List.not_mem_nil hquiet, hshown, closed.rd_below hlow hnot hquiet]

/-- The fill shown. -/
def Dev.filled : Dev := d.wr F.CLK_EBUF_FILL (unsigned 8 fill) n
theorem Dev.filled_fill : (d.filled n fill).rd F.CLK_EBUF_FILL n = unsigned 8 fill := Dev.rd_wr_fits d n (by decide) (unsigned_lt 8 fill)
theorem Dev.filled_state : (d.filled n fill).cnvState n = d.cnvState n := Dev.rd_wr_ne _ _ _ _ _ _ _ _ (fill_apart n).1.symm
/-- The input stopped, its slip shown. -/
def Dev.slipShown : Dev := ((d.filled n fill).cnvHalt n 0 0).mark F.CLK_EBUF_SLIP_STOP n
/-- The slip remembered until the buffer is centred. -/
def Dev.slipNoted : Dev := { d with clocks := { d.clocks with slipped := d.clocks.slipped.put n () } }
theorem Dev.rd_slipNoted (f : Fld) (i : Nat) : (d.slipNoted n).rd f i = d.rd f i := rfl
theorem Dev.ebufSlip_eq : d.ebufSlip n fill =
    if 56 ≤ fill.natAbs ∧ (d.filled n fill).cnvState n = 1 then ((d.slipShown n fill).slipNoted n).raise 1 31 else d.filled n fill := by
  unfold Dev.ebufSlip Dev.slipNoted Dev.slipShown Dev.filled
  rfl

theorem Dev.ebufSlip_shows (h : fill.natAbs < 56 ∨ d.cnvState n ≠ 1) :
    (d.ebufSlip n fill).rd F.CLK_EBUF_FILL n = unsigned 8 fill ∧ Frame [F.CLK_EBUF_FILL.at_ n 0] d (d.ebufSlip n fill) := by
  rw [d.ebufSlip_eq n fill, d.filled_state, if_neg (by omega)]
  exact ⟨d.filled_fill n fill, (Frame.refl _ d).wr _ _ _ _ (.head _)⟩
theorem Dev.slipShown_state : (d.slipShown n fill).cnvState n = 0 := by
  have hmark : (d.slipShown n fill).cnvState n = ((d.filled n fill).cnvHalt n 0 0).cnvState n :=
    congrArg (fun w : Word => w.field 0 3) (Dev.reg_setBits_ne _ F.CLK_EBUF_SLIP_STOP 1 n 0 (fill_apart n).1.symm)
  exact hmark.trans (Dev.cnvHalt_leaves _ (by omega) (by decide) (by decide)).1
theorem Dev.slipShown_fill : (d.slipShown n fill).rd F.CLK_EBUF_FILL n = unsigned 8 fill := by
  have hmark : (d.slipShown n fill).rd F.CLK_EBUF_FILL n = ((d.filled n fill).cnvHalt n 0 0).rd F.CLK_EBUF_FILL n :=
    (Dev.rd_setBits ..).trans (Dev.rd_wr_field _ _ _ _ _ _ _ _ (by decide) (by decide))
  exact hmark.trans ((Dev.fill_cnvHalt _ n 0 0).trans (d.filled_fill n fill))
/-- A running input whose buffer drifts too far stops (R131). -/
theorem Dev.ebufSlip_stops (hfill : 56 ≤ fill.natAbs) (hrun : d.cnvState n = 1) :
    (d.ebufSlip n fill).rd F.CLK_EBUF_FILL n = unsigned 8 fill ∧ (d.ebufSlip n fill).rd F.CLK_EBUF_SLIP_STOP n = 1 ∧ (d.ebufSlip n fill).cnvState n = 0 ∧
    (d.ebufSlip n fill).clocks.slipped.get? n = some () ∧ Raised (d.ebufSlip n fill) 1 31 := by
  obtain ⟨-, -, -, hquiet, hcnv⟩ := fill_apart n
  rw [d.ebufSlip_eq n fill, d.filled_state, if_pos ⟨hfill, hrun⟩]
  have hmark : (d.slipShown n fill).rd F.CLK_EBUF_SLIP_STOP n = 1 := Dev.rd_mark_bit _ _ _ (by decide) rfl
  refine ⟨?_, ?_, ?_, ?_, raised_raise _ 31 (by decide)⟩
  · rw [Dev.rd_raise _ _ _ _ _ (by decide) hquiet, Dev.rd_slipNoted, d.slipShown_fill]
  · have hstop : irqReg (F.CLK_EBUF_SLIP_STOP.at_ n 0) = false := hquiet
    rw [Dev.rd_raise _ _ _ _ _ (by decide) hstop, Dev.rd_slipNoted, hmark]
  · rw [Dev.cnvState, Dev.rd_raise _ _ _ _ _ (by decide) hcnv, Dev.rd_slipNoted]
    exact d.slipShown_state n fill
  · rw [Dev.raise_clocks]
    exact Tab.get?_put_same _ _ _
end

/-! ## The commands together -/

/-- Settles O20: each command's meaning and what it leaves, from the lemmas above. -/
theorem loopCommandsComplete : Obligations.LoopCommandsComplete := by
  unfold Obligations.LoopCommandsComplete
  refine ⟨fun s => ⟨fun p freqs => rfl, fun o => rfl, fun o => rfl, fun n fill => rfl, fun hrun => ⟨fun p => ?_, fun p => ?_, fun p => ?_⟩⟩,
    fun s p => ⟨fun hrun hlo hst => ?_, fun hrun hlo => ?_, fun hrun hlo hst => ?_, fun hrun hlo => ?_, fun hrun hlo => ?_, fun hrun hlo => ⟨?_, ?_⟩,
      fun q freqs hst => ?_, fun q freqs hst => ?_, fun errs r hst href hr hne hsum hin => ?_, fun v hst href hv => ?_, fun errs h => ?_,
      fun errs r hst hr hne hall => ?_, fun v hst hv => ?_, fun errs hst => ?_, fun n fill hfill hst => ?_, fun n fill h => ?_⟩⟩
  · exact exec_host_run (f := fun d => d.relock p) rfl hrun
  · exact exec_host_run (f := fun d => d.pllEnable p) rfl hrun
  · exact exec_host_run (f := fun d => d.pllDisable p) rfl hrun
  · exact completes_host (f := fun d => d.relock p) rfl hrun (s.dev.relock_holds p hlo hst)
  · exact completes_host (f := fun d => d.relock p) rfl hrun (s.dev.relock_other p hlo ▸ s.dev.clkCode_holds p (by decide))
  · exact completes_host (f := fun d => d.relock p) rfl hrun (s.dev.relock_state p hlo hst ▸ s.dev.clkCode_holds p (by decide))
  · exact completes_host (f := fun d => d.pllEnable p) rfl hrun (s.dev.pllEnable_holds p hlo)
  · exact completes_host (f := fun d => d.pllDisable p) rfl hrun (s.dev.pllDisable_holds p hlo)
  · exact completes_host (f := fun d => d.pllEnable p) rfl hrun (s.dev.pllEnable_other p hlo)
  · exact completes_host (f := fun d => d.pllDisable p) rfl hrun (s.dev.pllDisable_other p hlo)
  · exact completes_lift (f := fun d => d.searchEnd q freqs) rfl (s.dev.searchEnd_holds q freqs hst)
  · exact completes_lift (f := fun d => d.searchEnd q freqs) rfl (s.dev.searchEnd_idle q freqs hst)
  · subst hr
    exact completes_lift (f := fun d => d.lockDeclared p errs) rfl (s.dev.lockDeclared_holds p errs hst href (LoopRun.pass_inside hne hsum hin))
  · exact completes_lift (f := fun d => d.lockDeclared p [some v]) rfl (s.dev.lockDeclared_one p hst href hv)
  · exact completes_lift (f := fun d => d.lockDeclared p errs) rfl (s.dev.lockDeclared_ignored p errs h)
  · subst hr
    have hpass : (s.dev.passed p errs (lossStop (s.dev.lossCycles p))).2 = (errs.length, true) := by
      rcases hall with ⟨hsum, hout⟩ | ⟨hsum, hnone⟩
      · exact LoopRun.pass_outside hne (s.dev.lossCycles_pos p) hsum hout
      · exact LoopRun.pass_missing hne (s.dev.lossCycles_pos p) hsum hnone
    exact completes_lift (f := fun d => d.lossOfLock p errs) rfl (s.dev.lossOfLock_holds p errs hst hpass)
  · exact completes_lift (f := fun d => d.lossOfLock p [some v]) rfl (s.dev.lossOfLock_one p hst hv)
  · exact completes_lift (f := fun d => d.lossOfLock p errs) rfl (s.dev.lossOfLock_ignored p errs hst)
  · exact completes_lift (f := fun d => d.ebufSlip n fill) rfl (s.dev.ebufSlip_stops n fill hfill hst)
  · exact completes_lift (f := fun d => d.ebufSlip n fill) rfl (s.dev.ebufSlip_shows n fill h)

end Machine
end Sys2Proof
end

