-- ==== Sys2Proof/Proofs/LoCommands.lean ====
section
/-! PROOFS. A host command of an LO and the clock it acts on (spec/05_clocks.md, R137). -/

namespace Sys2Proof
namespace Machine

section
variable (d : Dev) (i : Nat)

/-- A host command noted for a cue's command of the same clock. -/
def Dev.turned (t : Tab LoTurn) : Dev := { d with clocks := { d.clocks with turns := t } }
/-- A command `k` clocks from now: 1 START, 2 STEP, 3 HOLD, 4 RESUME, 5 STOP (R137). -/
def Dev.loCmd (k : Nat) (c : Nat × Nat) : Dev :=
  match c.1 with
  | 1 => d.loStart i c.2 k
  | 2 => d.loStep i
  | 3 => d.loHold i k
  | 4 => d.loResume i
  | 5 => d.loStop i k
  | _ => d
/-- A count or a search that a late command began begins one clock later. -/
def Dev.loShifted (e : Dev) (k : Nat) : Dev :=
  let e := if (e.lo i).counting && (e.lo i).since == e.clk then e.setLo i (fun l => { l with since := e.clk + k }) else e
  if e.loop (8 + i) = 1 ∧ d.loop (8 + i) ≠ 1 then { e with clocks := { e.clocks with since := e.clocks.since.put (8 + i) (e.clk + k) } } else e

theorem Dev.loDo_eq (k : Nat) (c : Nat × Nat) :
    d.loDo i k c = if k = 0 ∨ (d.loCmd i k c).lo i = d.lo i then d.loCmd i k c else d.loShifted i (d.loCmd i k c) k := rfl
theorem Dev.loHost_eq (cmd seg : Nat) : ∃ t, d.loHost i cmd seg = (d.turned t).loDo i (d.loLate i) (cmd, seg) := ⟨_, rfl⟩

theorem Dev.lo_setLo (f : Lo → Lo) : (d.setLo i f).lo i = f (d.lo i) := Tab.getD_put_same _ _ _ _
theorem loFreq_congr {d e : Dev} {i : Nat} (hlo : e.lo i = d.lo i) (hclk : e.clk = d.clk) : e.loFreq i = d.loFreq i := by
  unfold Dev.loFreq Dev.loElapsed
  rw [hlo, hclk]
/-- What begins on the present clock has not counted yet, nor has what begins later. -/
theorem loFreq_fresh {d e : Dev} {i s : Nat} (hlo : e.lo i = { d.lo i with since := s }) (hclk : e.clk = d.clk) (hd : (d.lo i).since = d.clk) (hs : d.clk ≤ s) :
    e.loFreq i = d.loFreq i := by
  unfold Dev.loFreq Dev.loElapsed
  rw [hlo, hclk]
  simp [hd, Nat.sub_eq_zero_of_le hs]

/-- A late count or search shows in the clocks' own state alone; the frequency is the same, and what the LO is to do at lock. -/
theorem Dev.loShifted_holds (e : Dev) (k : Nat) : ∃ c : Clocks, d.loShifted i e k = { e with clocks := c } ∧
    (d.loShifted i e k).loFreq i = e.loFreq i ∧ ((d.loShifted i e k).lo i).holdLock = (e.lo i).holdLock := by
  have search (b : Dev) : ∃ c : Clocks, (if b.loop (8 + i) = 1 ∧ d.loop (8 + i) ≠ 1 then
      ({ b with clocks := { b.clocks with since := b.clocks.since.put (8 + i) (b.clk + k) } } : Dev) else b) = { b with clocks := c } ∧ c.lo = b.clocks.lo := by
    split
    · exact ⟨_, rfl, rfl⟩
    · exact ⟨_, rfl, rfl⟩
  unfold Dev.loShifted
  dsimp only
  split
  next h =>
    obtain ⟨hcount, hsince⟩ := Bool.and_eq_true_iff.mp h
    obtain ⟨c, hc, hlo⟩ := search (e.setLo i (fun l => { l with since := e.clk + k }))
    have hown : (({ e.setLo i (fun l => { l with since := e.clk + k }) with clocks := c } : Dev).lo i) = { e.lo i with since := e.clk + k } := by
      rw [← e.lo_setLo i (fun l => { l with since := e.clk + k })]
      unfold Dev.lo
      rw [hlo]
    rw [hc]
    exact ⟨c, rfl, loFreq_fresh hown rfl (beq_iff_eq.mp hsince) (Nat.le_add_right ..), by rw [hown]⟩
  next =>
    obtain ⟨c, hc, hlo⟩ := search e
    have hown : ({ e with clocks := c } : Dev).lo i = e.lo i := by
      unfold Dev.lo
      rw [hlo]
    rw [hc]
    exact ⟨c, rfl, loFreq_congr hown rfl, by rw [hown]⟩
end

/-- e is b with another state of the clocks. -/
def ClocksOnly (b e : Dev) : Prop := ∃ c : Clocks, e = { b with clocks := c }

section
variable {b e : Dev}

theorem ClocksOnly.rd (h : ClocksOnly b e) (f : Fld) (n : Nat) : e.rd f n = b.rd f n := by obtain ⟨c, rfl⟩ := h; rfl
theorem ClocksOnly.hasDriver (h : ClocksOnly b e) (k kind index : Nat) : e.hasDriver k kind index = b.hasDriver k kind index := by obtain ⟨c, rfl⟩ := h; rfl
theorem ClocksOnly.segmentRuns (h : ClocksOnly b e) {i g : Nat} {d : Dev} (hb : SegmentRuns i g d b) : SegmentRuns i g d e := by obtain ⟨c, rfl⟩ := h; exact hb
/-- A frame from the noted command, with the clocks' own state set aside. -/
theorem ClocksOnly.frame (h : ClocksOnly b e) {d : Dev} {t : Tab LoTurn} {w : List Nat} (hb : Frame w (d.turned t) { b with clocks := (d.turned t).clocks }) :
    Frame w d { e with clocks := d.clocks } := by
  obtain ⟨c, rfl⟩ := h
  obtain ⟨r, z, i, o, hshape⟩ := OnlyRegs.shape hb.2
  have haside : ({ b with clocks := d.clocks } : Dev) = { d with regs := r, regs0 := z, irq := i, out := o } :=
    congrArg (fun y : Dev => { y with clocks := d.clocks }) hshape
  exact ⟨hb.1, haside ▸ rfl⟩
/-- The same where the command moved nothing of the clocks' own state but its note. -/
theorem Frame.turnedOnly {d : Dev} {t : Tab LoTurn} {w : List Nat} (h : Frame w (d.turned t) e) :
    Frame w d { e with clocks := { e.clocks with turns := d.clocks.turns } } := by
  obtain ⟨r, z, i, o, hshape⟩ := OnlyRegs.shape h.2
  have haside : ({ e with clocks := { e.clocks with turns := d.clocks.turns } } : Dev) = { d with regs := r, regs0 := z, irq := i, out := o } :=
    congrArg (fun y : Dev => { y with clocks := { y.clocks with turns := d.clocks.turns } }) hshape
  exact ⟨h.1, haside ▸ rfl⟩
end

/-- What a host command leaves (R137): b is the command's own effect on `d`, e the same with its count begun on its clock. -/
structure Performed (d : Dev) (i : Nat) (b e : Dev) : Prop where
  only : ClocksOnly b e
  steady : b.lo i = d.lo i → e = b
  freq : e.loFreq i = b.loFreq i
  held : (e.lo i).holdLock = (b.lo i).holdLock

theorem Dev.loHost_performed (d : Dev) (i cmd seg : Nat) :
    ∃ t, Performed d i ((d.turned t).loCmd i (d.loLate i) (cmd, seg)) (d.loHost i cmd seg) := by
  obtain ⟨t, hnote⟩ := d.loHost_eq i cmd seg
  refine ⟨t, ?_⟩
  rw [hnote, Dev.loDo_eq]
  by_cases h : d.loLate i = 0 ∨ ((d.turned t).loCmd i (d.loLate i) (cmd, seg)).lo i = (d.turned t).lo i
  · rw [if_pos h]
    exact ⟨⟨_, rfl⟩, fun _ => rfl, rfl, rfl⟩
  · rw [if_neg h]
    obtain ⟨c, hc, hfreq, hhold⟩ := (d.turned t).loShifted_holds i ((d.turned t).loCmd i (d.loLate i) (cmd, seg)) (d.loLate i)
    exact ⟨⟨c, hc⟩, fun hsame => absurd (.inr hsame) h, hfreq, hhold⟩

end Machine
end Sys2Proof
end

