-- ==== Sys2Proof/Proofs/LoStart.lean ====
section
/-! PROOFS. START and STEP of an LO's profile (spec/05_clocks.md, R134–R137). -/

namespace Sys2Proof
namespace Machine

/-- All that a segment that starts may move. -/
def runPlaces (i : Nat) : List (Nat × Nat × Nat) := statusPlaces i ++ beginPlaces i 256 ++ releasePlaces i
/-- What one that drives a halyard below 64 and is no END may move. -/
def armedPlaces (i : Nat) : List (Nat × Nat × Nat) := statusPlaces i ++ beginPlaces i 64

theorem code_clear_runPlaces : ∀ i : Fin 4, F.CLK_STATUS_CODE.clear 0 0 (runPlaces i) = true := by decide +kernel
theorem code_clear_driverPlaces : F.CLK_STATUS_CODE.clear 0 0 driverPlaces = true := by decide +kernel
theorem driver_clear_armedPlaces : ∀ i : Fin 4, ∀ h : Fin 64,
    F.FMR_HAL_DRV_KIND.clear h 0 (armedPlaces i) = true ∧ F.FMR_HAL_DRV_INDEX.clear h 0 (armedPlaces i) = true := by decide +kernel
theorem latched_clear_driverPlaces : ∀ i : Fin 4, F.CLK_LO_STATUS_STEP_LATCHED.clear i 0 driverPlaces = true := by decide +kernel
theorem besideProfile_driverPlaces : besideProfile driverPlaces = true := by decide +kernel
theorem status_clear_code : ∀ i : Fin 4, ∀ f ∈ statusFields, f.clear i 0 [F.CLK_STATUS_CODE.place] = true := by decide
theorem besideProfile_code : besideProfile [F.CLK_STATUS_CODE.place] = true := by decide

section
variable {d e : Dev} {i : Fin 4}

theorem SegmentRuns.congr {b : Dev} {s : Nat} (h : SegmentRuns i s b e) (hseg : b.segment i s = d.segment i s)
    (hlatched : b.rd F.CLK_LO_STATUS_STEP_LATCHED i = d.rd F.CLK_LO_STATUS_STEP_LATCHED i) : SegmentRuns i s d e := by
  unfold SegmentRuns at *
  rwa [hseg, hlatched] at h

/-! ## The checks of START -/

theorem Dev.loCheck_turned (d : Dev) (i : Nat) (t : Tab LoTurn) : ∀ fuel s f, (d.turned t).loCheck i fuel s f = d.loCheck i fuel s f
  | 0, _, _ => rfl
  | fuel + 1, s, f => by
    have hseg : (d.turned t).segment i s = d.segment i s := rfl
    have htaken : ∀ h, (d.turned t).takenByOther h 6 i = d.takenByOther h 6 i := fun _ => rfl
    have hnear : ∀ a, (d.turned t).nearBand i a = d.nearBand i a := fun _ => rfl
    have hband : ∀ q, (d.turned t).bandMhz q = d.bandMhz q := fun _ => rfl
    simp only [Dev.loCheck, hseg, htaken, hnear, hband, d.loCheck_turned i t fuel]
/-- The codes of START: OK, BAND, RANGE, HALYARD. -/
theorem Dev.loCheck_lt (d : Dev) (i : Nat) : ∀ fuel s f, d.loCheck i fuel s f < 256
  | 0, _, _ => by unfold Dev.loCheck; decide
  | fuel + 1, s, f => by
    have hrest := d.loCheck_lt i fuel (s + 1)
    unfold Dev.loCheck
    dsimp only
    split_ifs <;> simp [hrest]
/-- What START's checks accept: a segment in the window that drives a halyard below 64 and is the END, or is followed by one they accept. -/
theorem Dev.loCheck_accepts {d : Dev} {i fuel s f : Nat} (h : d.loCheck i (fuel + 1) s f = 0) :
    s < 256 ∧ (d.segment i s).halyard < 64 ∧ ((d.segment i s).kind = 0xFF ∨ ∃ f, d.loCheck i fuel (s + 1) f = 0) := by
  unfold Dev.loCheck at h
  dsimp only at h
  split at h
  next => exact absurd h (by decide)
  next hin =>
    simp only [Bool.or_eq_true, decide_eq_true_eq, not_or, not_le] at hin
    obtain ⟨⟨hs, -⟩, hhal⟩ := hin
    refine ⟨hs, hhal, ?_⟩
    split_ifs at h with _ hend
    · exact .inl hend
    · exact .inr ⟨_, h⟩
    · exact .inr ⟨_, h⟩
    · exact .inr ⟨_, h⟩
/-- Every halyard of an accepted profile is one of the 64. -/
theorem Dev.loHalyards_lt {d : Dev} {i : Nat} : ∀ (n fuel s f : Nat), d.loCheck i fuel s f = 0 → ∀ h ∈ d.loHalyards i n s, h < 64
  | 0, _, _, _, _, _, hm => absurd hm List.not_mem_nil
  | _ + 1, 0, _, _, hc, _, _ => absurd hc (by unfold Dev.loCheck; decide)
  | n + 1, fuel + 1, s, f, hc, h, hm => by
    obtain ⟨-, hhal, hnext⟩ := Dev.loCheck_accepts hc
    rcases List.mem_append.mp hm with hown | hrest
    · split at hown
      · exact (List.mem_singleton.mp hown) ▸ hhal
      · exact absurd hown List.not_mem_nil
    · split at hrest
      next => exact absurd hrest List.not_mem_nil
      next hgo =>
        obtain ⟨f', hf'⟩ := hnext.resolve_left fun hend => hgo (.inl hend)
        exact Dev.loHalyards_lt n fuel (s + 1) f' hf' h hrest
/-- The halyards of a profile rest on its segments. -/
theorem Dev.loHalyards_congr {d e : Dev} {i : Nat} (hseg : ∀ s, s < 256 → e.segment i s = d.segment i s) :
    ∀ n s, s < 256 → e.loHalyards i n s = d.loHalyards i n s
  | 0, _, _ => rfl
  | n + 1, s, hs => by
    unfold Dev.loHalyards
    dsimp only
    rw [hseg s hs]
    by_cases hgo : (d.segment i s).kind = 0xFF ∨ 255 ≤ s
    · rw [if_pos hgo, if_pos hgo]
    · rw [if_neg hgo, if_neg hgo, Dev.loHalyards_congr hseg n (s + 1) (by omega)]

/-! ## Drivers -/

theorem Dev.hasDriver_keep (d : Dev) (i : Fin 4) {h k : Nat} (hd : d.hasDriver h 6 i = true) : (d.recordDriver k 6 i).hasDriver h 6 i = true := by
  by_cases e : h = k
  · exact e ▸ Dev.hasDriver_recordDriver d h (by decide) (by omega)
  · rw [Dev.hasDriver_congr (Dev.reg_recordDriver_ne d 6 i (by rw [driverReg_eq, driverReg_eq]; omega))]
    exact hd
theorem foldl_recordDriver_keeps (i : Fin 4) {h : Nat} : ∀ (l : List Nat) (d : Dev), d.hasDriver h 6 i = true →
    (l.foldl (fun d h => d.recordDriver h 6 i) d).hasDriver h 6 i = true
  | [], _, hd => hd
  | _ :: t, _, hd => foldl_recordDriver_keeps i t _ (Dev.hasDriver_keep _ i hd)
theorem foldl_recordDriver_has (i : Fin 4) {h : Nat} : ∀ (l : List Nat) (d : Dev), h ∈ l → (l.foldl (fun d h => d.recordDriver h 6 i) d).hasDriver h 6 i = true
  | [], _, hm => absurd hm List.not_mem_nil
  | k :: t, d, hm => by
    rw [List.foldl_cons]
    rcases List.mem_cons.mp hm with rfl | ht
    · exact foldl_recordDriver_keeps i t _ (Dev.hasDriver_recordDriver d h (by decide) (by omega))
    · exact foldl_recordDriver_has i t _ ht
end

/-! ## START (R137) -/

section
variable (d : Dev) (i : Fin 4) (k : Nat)

/-- The profile's halyards claimed, the output where it stands. -/
def Dev.loArmed (g : Nat) : Dev :=
  let c := (d.clkCode 0).releaseDriver 6 i 64
  ((c.loHalyards i 256 g).foldl (fun d h => d.recordDriver h 6 i) c).setLo i (fun l => { l with base := d.loFreq i k, counting := false, slope := 0 })
theorem Dev.loStart_eq (g : Nat) : d.loStart i g k = if d.loState i = 2 then d.clkCode 5
    else if d.loCheck i 257 g (d.loFreq i k) ≠ 0 then d.clkCode (d.loCheck i 257 g (d.loFreq i k)) else (d.loArmed i k g).loRun i g := rfl

theorem Dev.loStart_waiting (g : Nat) (h : d.loState i = 2) : d.loStart i g k = d.clkCode 5 := by rw [d.loStart_eq, if_pos h]
theorem Dev.loStart_fails {g c : Nat} (hst : d.loState i ≠ 2) (hc : d.loCheck i 257 g (d.loFreq i k) = c) (hne : c ≠ 0) : d.loStart i g k = d.clkCode c := by
  rw [d.loStart_eq, if_neg hst, hc, if_pos hne]
theorem Dev.code_step (dr : Prop) (c : Nat) : ClockStep dr [F.CLK_STATUS_CODE.place] d (d.clkCode c) := (ClockStep.refl ..).wr F.CLK_STATUS_CODE c 0 0 (.head _)
theorem Dev.code_code {c : Nat} (hc : c < 256) : (d.clkCode c).rd F.CLK_STATUS_CODE = c := Dev.rd_wr_fits d 0 (by decide) hc
theorem Dev.released_step : ClockStep False driverPlaces (d.clkCode 0) ((d.clkCode 0).releaseDriver 6 i 64) :=
  (ClockStep.refl ..).releaseDriver 6 i (fun _ hx => hx) 64 (le_refl 64)

variable {d i} in
theorem Dev.loArmed_halyards {g : Nat} (hg : g < 256) : ((d.clkCode 0).releaseDriver 6 i 64).loHalyards i 256 g = d.loHalyards i 256 g :=
  Dev.loHalyards_congr (fun _ hs => ((d.released_step i).segment i besideProfile_driverPlaces hs).trans ((d.code_step False 0).segment i besideProfile_code hs)) 256 g hg
theorem Dev.loArmed_step {g : Nat} (hg : g < 256) {f : Nat} (hc : d.loCheck i 257 g f = 0) : ClockStep False driverPlaces (d.clkCode 0) (d.loArmed i k g) := by
  unfold Dev.loArmed
  dsimp only
  refine (ClockStep.foldl _ (fun h hm b hb => ?_) (d.released_step i)).setLo i _
  rw [Dev.loArmed_halyards hg] at hm
  have hlt := Dev.loHalyards_lt 256 257 g f hc h hm
  exact hb.recordDriver h 6 i (kind_mem_driverPlaces hlt) (index_mem_driverPlaces hlt)

/-- START whose checks pass (R137): OK, the segment is run, and the halyards of a profile that goes on are its own. -/
theorem Dev.loStart_runs {g : Nat} (hg : g < 256) (hst : d.loState i ≠ 2) (hc : d.loCheck i 257 g (d.loFreq i k) = 0) :
    (d.loStart i g k).rd F.CLK_STATUS_CODE = 0 ∧ SegmentRuns i g d (d.loStart i g k) ∧
    ((d.segment i g).kind ≠ 0xFF → ∀ h, h ∈ d.loHalyards i 256 g → (d.loStart i g k).hasDriver h 6 i = true) := by
  have heq : d.loStart i g k = (d.loArmed i k g).loRun i g := by rw [d.loStart_eq, if_neg hst, if_neg (not_not.mpr hc)]
  have harmed := d.loArmed_step i k hg hc
  have hseg : (d.loArmed i k g).segment i g = d.segment i g :=
    (harmed.segment i besideProfile_driverPlaces hg).trans ((d.code_step False 0).segment i besideProfile_code hg)
  have hlatched : (d.loArmed i k g).rd F.CLK_LO_STATUS_STEP_LATCHED i = d.rd F.CLK_LO_STATUS_STEP_LATCHED i :=
    (harmed.bits F.CLK_LO_STATUS_STEP_LATCHED i 0 (latched_clear_driverPlaces i)).trans
      ((d.code_step False 0).bits F.CLK_LO_STATUS_STEP_LATCHED i 0 (status_clear_code i _ (by decide)))
  rw [heq]
  refine ⟨?_, ((d.loArmed i k g).loRun_segment i g hg).congr hseg hlatched, fun hgoes h hm => ?_⟩
  · have hrun : ClockStep True (runPlaces i) (d.loArmed i k g) ((d.loArmed i k g).loRun i g) :=
      (ClockStep.refl ..).loRun i hg (Dev.segment_halyard_lt _ i g) (le_refl 256) (fun x hx => by simp [runPlaces, hx]) (fun x hx => by simp [runPlaces, hx])
        fun _ x hx => by simp [runPlaces, hx]
    rw [hrun.bits F.CLK_STATUS_CODE 0 0 (code_clear_runPlaces i), harmed.bits F.CLK_STATUS_CODE 0 0 code_clear_driverPlaces, d.code_code (by decide)]
  · have hhal : ((d.loArmed i k g).segment i g).halyard < 64 := hseg ▸ (Dev.loCheck_accepts hc).2.1
    have hrun : ClockStep True (armedPlaces i) (d.loArmed i k g) ((d.loArmed i k g).loRun i g) :=
      (ClockStep.refl ..).loRun i hg hhal (by decide) (fun x hx => by simp [armedPlaces, hx]) (fun x hx => by simp [armedPlaces, hx])
        fun hend => absurd (hseg ▸ hend) hgoes
    have hlt := Dev.loHalyards_lt 256 257 g _ hc h hm
    obtain ⟨hkind, hindex⟩ := driver_clear_armedPlaces i ⟨h, hlt⟩
    have hhas : (d.loArmed i k g).hasDriver h 6 i = true := foldl_recordDriver_has i _ _ (by rw [Dev.loArmed_halyards hg]; exact hm)
    have hkept : ((d.loArmed i k g).loRun i g).hasDriver h 6 i = (d.loArmed i k g).hasDriver h 6 i := by
      unfold Dev.hasDriver
      rw [hrun.bits F.FMR_HAL_DRV_KIND h 0 hkind, hrun.bits F.FMR_HAL_DRV_INDEX h 0 hindex]
    rw [hkept, hhas]
end

end Machine
end Sys2Proof
end

