-- ==== Sys2Proof/Proofs/LoProfiles.lean ====
section
/-! PROOFS. STEP, HOLD, RESUME and STOP of an LO's profile, the end of a segment, and all commands of the profiles together (spec/05_clocks.md, R133–R138):
settles O21. -/

namespace Sys2Proof
namespace Machine

section
variable (d : Dev) (i : Fin 4) (k : Nat)

/-! ## Codes and states -/

theorem Dev.code_holds {c : Nat} (hc : c < 256) : (d.clkCode c).rd F.CLK_STATUS_CODE = c ∧ Frame [0x40000] d (d.clkCode c) :=
  ⟨d.code_code hc, (Frame.refl _ d).wr _ _ _ _ (.head _)⟩
theorem Dev.rd_code (c : Nat) {f : Fld} (hf : f ∈ statusFields) : (d.clkCode c).rd f i = d.rd f i := (d.code_step False c).bits f i 0 (status_clear_code i f hf)
theorem code_clear_status : ∀ i : Fin 4, F.CLK_STATUS_CODE.clear 0 0 [F.CLK_LO_STATUS_PSTATE.place i, F.CLK_LO_STATUS_STEP_LATCHED.place i, F.CLK_LO_STATUS_MUTED.place i,
    F.CLK_LO_STEPDROP_COUNT.place i] = true := by decide
/-- What a hold or a resumption moves beside the code. -/
def holdPlaces (i : Nat) : List (Nat × Nat × Nat) := [F.CLK_STATUS_CODE.place, F.CLK_LO_STATUS_PSTATE.place i, F.CLK_LO_STATUS_MUTED.place i]
theorem code_clear_muted : ∀ i : Fin 4, F.CLK_STATUS_CODE.clear 0 0 [F.CLK_LO_STATUS_MUTED.place i] = true := by decide
theorem state_clear_muted : ∀ i : Fin 4, F.CLK_LO_STATUS_PSTATE.clear i 0 [F.CLK_LO_STATUS_MUTED.place i] = true := by decide

/-- The code and the state as a command leaves them, with the LO's own state changed. -/
def Dev.stated (st : Nat) : Dev := (d.clkCode 0).wr F.CLK_LO_STATUS_PSTATE st i
theorem Dev.stated_state {st : Nat} (hst : st < 8) : (d.stated i st).loState i = st := Dev.rd_wr_fits _ i (by decide) hst
theorem Dev.stated_code (st : Nat) : (d.stated i st).rd F.CLK_STATUS_CODE = 0 :=
  (((ClockStep.refl False _ (d.clkCode 0)).wr F.CLK_LO_STATUS_PSTATE st i 0 (by simp)).bits F.CLK_STATUS_CODE 0 0 (code_clear_status i)).trans (d.code_code (by decide))
theorem mem_hold : ∀ i : Fin 4, ∀ x ∈ holdPlaces i, x.1 ∈ [0x40000, F.CLK_LO_STATUS_PSTATE.at_ i 0] := by decide
theorem Dev.stated_step (st : Nat) {b : Dev} (hb : ClocksOnly (d.stated i st) b) : ClockStep False (holdPlaces i) d b := by
  obtain ⟨c, rfl⟩ := hb
  exact (((ClockStep.refl ..).wr F.CLK_STATUS_CODE 0 0 0 (by simp [holdPlaces])).wr F.CLK_LO_STATUS_PSTATE st i 0 (by simp [holdPlaces])).withClocks c
theorem Dev.stated_inputs (st : Nat) {b : Dev} (hb : ClocksOnly (d.stated i st) b) : b.inputs = d.inputs := by
  obtain ⟨c, rfl⟩ := hb
  rfl
theorem Dev.showMuted_inputs (d : Dev) (i : Nat) : (d.showMuted i).inputs = d.inputs := rfl

/-- A state shown with another state of the clocks: code, state and frame. -/
theorem Dev.stated_steady {st : Nat} (hst : st < 8) {b : Dev} (hb : ClocksOnly (d.stated i st) b) :
    b.rd F.CLK_STATUS_CODE = 0 ∧ b.loState i = st ∧ Frame [0x40000, F.CLK_LO_STATUS_PSTATE.at_ i 0] d { b with clocks := d.clocks } := by
  have hframe := (d.stated_step i st hb).frame (mem_hold i)
  rw [← d.stated_inputs i st hb] at hframe
  exact ⟨(hb.rd _ 0).trans (d.stated_code i st), (hb.rd _ i).trans (d.stated_state i hst), hframe⟩
/-- The same with its mute. -/
theorem Dev.stated_muted {st : Nat} (hst : st < 8) {b : Dev} (hb : ClocksOnly (d.stated i st) b) :
    (b.showMuted i).rd F.CLK_STATUS_CODE = 0 ∧ (b.showMuted i).loState i = st ∧
    Frame [0x40000, F.CLK_LO_STATUS_PSTATE.at_ i 0] d { b.showMuted i with clocks := d.clocks } := by
  have hmuted := (ClockStep.refl False [F.CLK_LO_STATUS_MUTED.place i] b).showMuted i (.head _)
  have hframe := ((d.stated_step i st hb).showMuted i (by simp [holdPlaces])).frame (mem_hold i)
  rw [← d.stated_inputs i st hb, ← b.showMuted_inputs i] at hframe
  obtain ⟨hcode, hstate, -⟩ := d.stated_steady i hst hb
  exact ⟨(hmuted.bits _ 0 0 (code_clear_muted i)).trans hcode, (hmuted.bits _ i 0 (state_clear_muted i)).trans hstate, hframe⟩

/-! ## STEP -/

theorem Dev.loStep_eq : d.loStep i = if (d.clkCode 0).loState i = 2 then (d.clkCode 0).loEnter i ((d.clkCode 0).rd F.CLK_LO_STATUS_SEG i)
    else if (d.clkCode 0).is F.CLK_LO_STATUS_STEP_LATCHED i then (d.clkCode 0).inc F.CLK_LO_STEPDROP_COUNT i
    else (d.clkCode 0).flag F.CLK_LO_STATUS_STEP_LATCHED true i := rfl
/-- A segment entered after the code is written. -/
theorem Dev.loEnter_coded {b : Dev} {s : Nat} (hs : s < 256) (hcode : b.rd F.CLK_STATUS_CODE = 0) (hseg : b.segment i s = d.segment i s) :
    (b.loEnter i s).rd F.CLK_STATUS_CODE = 0 ∧ (b.loEnter i s).rd F.CLK_LO_STATUS_SEG i = s ∧
    (b.loEnter i s).rd F.CLK_LO_STATUS_STEP_LATCHED i = b.rd F.CLK_LO_STATUS_STEP_LATCHED i ∧
    (b.loEnter i s).loState i = (if (d.segment i s).kind = 0xFF then 4 else 1) := by
  have henter := b.loEnter_entered i hs
  have hstep : ClockStep True (runPlaces i) b (b.loEnter i s) :=
    (ClockStep.refl ..).loEnter i hs (Dev.segment_halyard_lt _ i s) (le_refl 256) (fun x hx => by simp [runPlaces, hx]) (fun x hx => by simp [runPlaces, hx])
      fun _ x hx => by simp [runPlaces, hx]
  refine ⟨(hstep.bits _ 0 0 (code_clear_runPlaces i)).trans hcode, henter.seg, henter.latched, ?_⟩
  rw [← hseg]
  split
  next h => exact (henter.ended h).1
  next h => exact henter.running h
theorem Dev.loStep_enters (h : d.loState i = 2) : (d.loStep i).rd F.CLK_STATUS_CODE = 0 ∧ (d.loStep i).rd F.CLK_LO_STATUS_SEG i = d.rd F.CLK_LO_STATUS_SEG i ∧
    (d.loStep i).loState i = (if (d.segment i (d.rd F.CLK_LO_STATUS_SEG i)).kind = 0xFF then 4 else 1) := by
  have hst : (d.clkCode 0).loState i = 2 := (d.rd_code i 0 (by decide)).trans h
  have hlt : d.rd F.CLK_LO_STATUS_SEG i < 256 := Dev.rd_lt d F.CLK_LO_STATUS_SEG i 0
  rw [d.loStep_eq, if_pos hst, d.rd_code i 0 (by decide)]
  obtain ⟨hcode, hseg, -, hstate⟩ := d.loEnter_coded i hlt (d.code_code (by decide)) ((d.code_step False 0).segment i besideProfile_code hlt)
  exact ⟨hcode, hseg, hstate⟩
theorem Dev.loStep_latches (h : d.loState i ≠ 2) (hl : d.rd F.CLK_LO_STATUS_STEP_LATCHED i = 0) :
    d.loStep i = (d.clkCode 0).flag F.CLK_LO_STATUS_STEP_LATCHED true i := by
  have hst : (d.clkCode 0).loState i ≠ 2 := fun h2 => h ((d.rd_code i 0 (by decide)).symm.trans h2)
  have hnone : (d.clkCode 0).is F.CLK_LO_STATUS_STEP_LATCHED i = false := Dev.is_eq_false ((d.rd_code i 0 (by decide)).trans hl)
  rw [d.loStep_eq, if_neg hst, if_neg (by simp [hnone])]
theorem Dev.loStep_drops (h : d.loState i ≠ 2) (hl : d.rd F.CLK_LO_STATUS_STEP_LATCHED i = 1) : d.loStep i = (d.clkCode 0).inc F.CLK_LO_STEPDROP_COUNT i := by
  have hst : (d.clkCode 0).loState i ≠ 2 := fun h2 => h ((d.rd_code i 0 (by decide)).symm.trans h2)
  have hone : (d.clkCode 0).is F.CLK_LO_STATUS_STEP_LATCHED i = true := Dev.is_eq_true ((d.rd_code i 0 (by decide)).trans hl)
  rw [d.loStep_eq, if_neg hst, if_pos hone]
theorem Dev.stepLatched_holds : ((d.clkCode 0).flag F.CLK_LO_STATUS_STEP_LATCHED true i).rd F.CLK_STATUS_CODE = 0 ∧
    ((d.clkCode 0).flag F.CLK_LO_STATUS_STEP_LATCHED true i).rd F.CLK_LO_STATUS_STEP_LATCHED i = 1 ∧
    Frame [0x40000, F.CLK_LO_STATUS_PSTATE.at_ i 0] d ((d.clkCode 0).flag F.CLK_LO_STATUS_STEP_LATCHED true i) :=
  ⟨(((ClockStep.refl False _ (d.clkCode 0)).flag F.CLK_LO_STATUS_STEP_LATCHED true i 0 (by simp)).bits F.CLK_STATUS_CODE 0 0 (code_clear_status i)).trans
      (d.code_code (by decide)),
    Dev.rd_flag_same _ true i (by decide) rfl, ((Frame.refl _ d).wr F.CLK_STATUS_CODE _ 0 0 (.head _)).flag F.CLK_LO_STATUS_STEP_LATCHED _ i 0 (.tail _ (.head _))⟩
theorem stepdrop_clear_code : ∀ i : Fin 4, F.CLK_LO_STEPDROP_COUNT.clear i 0 [F.CLK_STATUS_CODE.place] = true := by decide
theorem Dev.stepDropped_holds : ((d.clkCode 0).inc F.CLK_LO_STEPDROP_COUNT i).rd F.CLK_STATUS_CODE = 0 ∧
    ((d.clkCode 0).inc F.CLK_LO_STEPDROP_COUNT i).rd F.CLK_LO_STEPDROP_COUNT i = min (2 ^ 32 - 1) (d.rd F.CLK_LO_STEPDROP_COUNT i + 1) ∧
    Frame [0x40000, F.CLK_LO_STEPDROP_COUNT.at_ i 0] d ((d.clkCode 0).inc F.CLK_LO_STEPDROP_COUNT i) := by
  refine ⟨(((ClockStep.refl False _ (d.clkCode 0)).inc F.CLK_LO_STEPDROP_COUNT i 0 1 (by simp)).bits F.CLK_STATUS_CODE 0 0 (code_clear_status i)).trans
      (d.code_code (by decide)), ?_, ((Frame.refl _ d).wr F.CLK_STATUS_CODE _ 0 0 (.head _)).inc F.CLK_LO_STEPDROP_COUNT i 0 1 (.tail _ (.head _))⟩
  rw [Dev.rd_inc_same _ _ _ _ _ (by decide), (d.code_step False 0).bits F.CLK_LO_STEPDROP_COUNT i 0 (stepdrop_clear_code i)]
  rfl

/-! ## HOLD -/

/-- The profile stopped before a WAIT. -/
def Dev.waitStopped : Dev := ((d.stated i 3).setLo i (fun l => { l with waitHeld := true })).showMuted i
/-- The profile stopped where it stands. -/
def Dev.heldNow : Dev := (((d.clkCode 0).loPause i k).wr F.CLK_LO_STATUS_PSTATE 3 i).showMuted i
/-- The hold that waits for lock. -/
def Dev.heldAtLock : Dev := (d.clkCode 0).setLo i (fun l => { l with holdLock := true })
theorem Dev.loHold_eq : d.loHold i k = if d.loState i = 2 then d.waitStopped i else if d.loState i = 1 then
    if (d.lo i).started && !((d.lo i).lockWait && d.loSearches i) then d.heldNow i k else d.heldAtLock i else d.clkCode 5 := rfl

theorem Dev.waitStopped_holds : (d.waitStopped i).rd F.CLK_STATUS_CODE = 0 ∧ (d.waitStopped i).loState i = 3 ∧
    Frame [0x40000, F.CLK_LO_STATUS_PSTATE.at_ i 0] d { d.waitStopped i with clocks := d.clocks } := d.stated_muted i (by decide) ⟨_, rfl⟩
theorem Dev.lo_showMuted (d : Dev) (i j : Nat) : (d.showMuted i).lo j = d.lo j := rfl
theorem Dev.lo_wr (d : Dev) (f : Fld) (v n m j : Nat) : (d.wr f v n m).lo j = d.lo j := rfl
theorem Dev.waitStopped_freq : (d.waitStopped i).loFreq i = d.loFreq i := by
  have hlo : (d.waitStopped i).lo i = { d.lo i with waitHeld := true } := by
    rw [Dev.waitStopped, Dev.lo_showMuted, Dev.lo_setLo, Dev.stated, Dev.clkCode, Dev.lo_wr, Dev.lo_wr]
  have hclk : (d.waitStopped i).clk = d.clk := rfl
  unfold Dev.loFreq Dev.loElapsed
  rw [hlo, hclk]
theorem Dev.heldNow_holds : (d.heldNow i k).rd F.CLK_STATUS_CODE = 0 ∧ (d.heldNow i k).loState i = 3 ∧
    Frame [0x40000, F.CLK_LO_STATUS_PSTATE.at_ i 0] d { d.heldNow i k with clocks := d.clocks } := d.stated_muted i (by decide) ⟨_, rfl⟩
theorem unsigned_of_lt {w x : Nat} (h : x < 2 ^ w) : unsigned w x = x := by
  unfold unsigned
  rw [Int.emod_eq_of_lt (by omega) (by exact_mod_cast h)]
  rfl
/-- A profile whose count stands keeps its frequency. -/
theorem loFreq_still {e : Dev} {i f : Nat} (hf : f < 2 ^ 56) (hcount : (e.lo i).counting = false) (hbase : (e.lo i).base = f) : e.loFreq i = f := by
  unfold Dev.loFreq Dev.loElapsed
  rw [hcount, hbase]
  simpa using unsigned_of_lt hf
theorem Dev.loFreq_lt : d.loFreq i k < 2 ^ 56 := unsigned_lt 56 _
theorem Dev.lo_paused : (d.loPause i k).lo i = { d.lo i with base := d.loFreq i k, left := (d.lo i).left - d.loElapsed i k, counting := false } := d.lo_setLo i _
theorem Dev.loFreq_wr (d : Dev) (f : Fld) (v n m j k : Nat) : (d.wr f v n m).loFreq j k = d.loFreq j k := rfl
theorem Dev.heldNow_freq : (d.heldNow i k).loFreq i = d.loFreq i k := by
  have hlo : (d.heldNow i k).lo i = ((d.clkCode 0).loPause i k).lo i := by rw [Dev.heldNow, Dev.lo_showMuted, Dev.lo_wr]
  exact loFreq_still (d.loFreq_lt i k) (by rw [hlo, Dev.lo_paused]) (by rw [hlo, Dev.lo_paused, Dev.clkCode, Dev.loFreq_wr])
theorem Dev.heldAtLock_holds (h : d.loState i = 1) : (d.heldAtLock i).rd F.CLK_STATUS_CODE = 0 ∧ (d.heldAtLock i).loState i = 1 ∧
    ((d.heldAtLock i).lo i).holdLock = true ∧ Frame [0x40000] d { d.heldAtLock i with clocks := d.clocks } :=
  ⟨d.code_code (by decide), (d.rd_code i 0 (by decide)).trans h, congrArg Lo.holdLock ((d.clkCode 0).lo_setLo i _), (d.code_holds (by decide)).2⟩

theorem Dev.loHold_waits (h : d.loState i = 2) : d.loHold i k = d.waitStopped i := by rw [d.loHold_eq, if_pos h]
theorem Dev.loHold_now (h : d.loState i = 1) (hstarted : (d.lo i).started = true) (hsearch : (d.lo i).lockWait = false ∨ d.loSearches i = false) :
    d.loHold i k = d.heldNow i k := by
  rw [d.loHold_eq, if_neg (by omega), if_pos h, if_pos]
  rcases hsearch with hs | hs <;> simp [hstarted, hs]
theorem Dev.loHold_atLock (h : d.loState i = 1) (hlater : (d.lo i).started = false ∨ ((d.lo i).lockWait = true ∧ d.loSearches i = true)) :
    d.loHold i k = d.heldAtLock i := by
  rw [d.loHold_eq, if_neg (by omega), if_pos h, if_neg]
  rcases hlater with hs | ⟨hw, hs⟩
  · simp [hs]
  · simp [hw, hs]
theorem Dev.loHold_refused (h : d.loState i = 0 ∨ 2 < d.loState i) : d.loHold i k = d.clkCode 5 := by rw [d.loHold_eq, if_neg (by omega), if_neg (by omega)]

/-! ## RESUME -/

/-- The wait goes on. -/
def Dev.waitResumed : Dev := (d.clkCode 0).setLo i (fun l => { l with waitHeld := false })
/-- The count goes on. -/
def Dev.countResumed : Dev :=
  ((d.stated i 1).setLo i (fun l => { l with counting := !((d.clkCode 0).lo i).lockWait, since := (d.stated i 1).clk, lockWait := ((d.clkCode 0).lo i).lockWait })).showMuted i
theorem Dev.loResume_eq : d.loResume i = if d.loState i != 3 then d.clkCode 5 else if ((d.clkCode 0).lo i).waitHeld then
    if (d.waitResumed i).is F.CLK_LO_STATUS_STEP_LATCHED i then
      ((d.waitResumed i).flag F.CLK_LO_STATUS_STEP_LATCHED false i).loEnter i ((d.waitResumed i).rd F.CLK_LO_STATUS_SEG i)
    else (d.waitResumed i).wr F.CLK_LO_STATUS_PSTATE 2 i else d.countResumed i := rfl

theorem Dev.loResume_refused (h : d.loState i ≠ 3) : d.loResume i = d.clkCode 5 := by rw [d.loResume_eq, if_pos (by simpa using h)]
theorem Dev.lo_code : (d.clkCode 0).lo i = d.lo i := rfl
theorem Dev.loResume_counts (h : d.loState i = 3) (hw : (d.lo i).waitHeld = false) : d.loResume i = d.countResumed i := by
  rw [d.loResume_eq, if_neg (by simp [h]), d.lo_code, if_neg (by simp [hw])]
theorem Dev.waitResumed_latched : (d.waitResumed i).rd F.CLK_LO_STATUS_STEP_LATCHED i = d.rd F.CLK_LO_STATUS_STEP_LATCHED i := d.rd_code i 0 (by decide)
theorem Dev.loResume_waits (h : d.loState i = 3) (hw : (d.lo i).waitHeld = true) (hl : d.rd F.CLK_LO_STATUS_STEP_LATCHED i = 0) :
    d.loResume i = (d.waitResumed i).wr F.CLK_LO_STATUS_PSTATE 2 i := by
  have hnone : (d.waitResumed i).is F.CLK_LO_STATUS_STEP_LATCHED i = false := Dev.is_eq_false ((d.waitResumed_latched i).trans hl)
  rw [d.loResume_eq, if_neg (by simp [h]), d.lo_code, if_pos hw, if_neg (by simp [hnone])]
theorem Dev.loResume_steps (h : d.loState i = 3) (hw : (d.lo i).waitHeld = true) (hl : d.rd F.CLK_LO_STATUS_STEP_LATCHED i = 1) :
    d.loResume i = ((d.waitResumed i).flag F.CLK_LO_STATUS_STEP_LATCHED false i).loEnter i (d.rd F.CLK_LO_STATUS_SEG i) := by
  have hone : (d.waitResumed i).is F.CLK_LO_STATUS_STEP_LATCHED i = true := Dev.is_eq_true ((d.waitResumed_latched i).trans hl)
  have hseg : (d.waitResumed i).rd F.CLK_LO_STATUS_SEG i = d.rd F.CLK_LO_STATUS_SEG i := d.rd_code i 0 (by decide)
  rw [d.loResume_eq, if_neg (by simp [h]), d.lo_code, if_pos hw, if_pos hone, hseg]

theorem Dev.countResumed_holds : (d.countResumed i).rd F.CLK_STATUS_CODE = 0 ∧ (d.countResumed i).loState i = 1 ∧
    Frame [0x40000, F.CLK_LO_STATUS_PSTATE.at_ i 0] d { d.countResumed i with clocks := d.clocks } := d.stated_muted i (by decide) ⟨_, rfl⟩
theorem Dev.waitGoes_holds : ((d.waitResumed i).wr F.CLK_LO_STATUS_PSTATE 2 i).rd F.CLK_STATUS_CODE = 0 ∧
    ((d.waitResumed i).wr F.CLK_LO_STATUS_PSTATE 2 i).loState i = 2 ∧
    Frame [0x40000, F.CLK_LO_STATUS_PSTATE.at_ i 0] d { (d.waitResumed i).wr F.CLK_LO_STATUS_PSTATE 2 i with clocks := d.clocks } :=
  d.stated_steady i (by decide) ⟨_, rfl⟩
theorem Dev.waitSteps_holds : 
    (((d.waitResumed i).flag F.CLK_LO_STATUS_STEP_LATCHED false i).loEnter i (d.rd F.CLK_LO_STATUS_SEG i)).rd F.CLK_STATUS_CODE = 0 ∧
    (((d.waitResumed i).flag F.CLK_LO_STATUS_STEP_LATCHED false i).loEnter i (d.rd F.CLK_LO_STATUS_SEG i)).rd F.CLK_LO_STATUS_STEP_LATCHED i = 0 ∧
    (((d.waitResumed i).flag F.CLK_LO_STATUS_STEP_LATCHED false i).loEnter i (d.rd F.CLK_LO_STATUS_SEG i)).rd F.CLK_LO_STATUS_SEG i = d.rd F.CLK_LO_STATUS_SEG i ∧
    (((d.waitResumed i).flag F.CLK_LO_STATUS_STEP_LATCHED false i).loEnter i (d.rd F.CLK_LO_STATUS_SEG i)).loState i =
      (if (d.segment i (d.rd F.CLK_LO_STATUS_SEG i)).kind = 0xFF then 4 else 1) := by
  have hlt : d.rd F.CLK_LO_STATUS_SEG i < 256 := Dev.rd_lt d F.CLK_LO_STATUS_SEG i 0
  have hflag : ClockStep False [F.CLK_LO_STATUS_PSTATE.place i, F.CLK_LO_STATUS_STEP_LATCHED.place i, F.CLK_LO_STATUS_MUTED.place i, F.CLK_LO_STEPDROP_COUNT.place i]
      (d.clkCode 0) ((d.waitResumed i).flag F.CLK_LO_STATUS_STEP_LATCHED false i) :=
    ((ClockStep.refl ..).setLo i _).flag F.CLK_LO_STATUS_STEP_LATCHED false i 0 (by simp)
  have hbeside : ∀ i : Fin 4, besideProfile [F.CLK_LO_STATUS_PSTATE.place i, F.CLK_LO_STATUS_STEP_LATCHED.place i, F.CLK_LO_STATUS_MUTED.place i,
      F.CLK_LO_STEPDROP_COUNT.place i] = true := by decide
  have hseg := (hflag.segment i (hbeside i) hlt).trans ((d.code_step False 0).segment i besideProfile_code hlt)
  obtain ⟨hcode, hnumber, hlatched, hstate⟩ := d.loEnter_coded i hlt ((hflag.bits F.CLK_STATUS_CODE 0 0 (code_clear_status i)).trans (d.code_code (by decide))) hseg
  exact ⟨hcode, hlatched.trans (Dev.rd_flag_same _ false i (by decide) rfl), hnumber, hstate⟩

/-! ## STOP -/

/-- The profile paused, the code written. -/
def Dev.stopPaused : Dev := (d.loPause i k).clkCode 0
theorem Dev.stopPaused_freq : (d.stopPaused i k).loFreq i = d.loFreq i k := by
  have hlo : (d.stopPaused i k).lo i = (d.loPause i k).lo i := rfl
  exact loFreq_still (d.loFreq_lt i k) (by rw [hlo, d.lo_paused]) (by rw [hlo, d.lo_paused])

/-- A released driver drives no halyard. -/
theorem Dev.hasDriver_releaseDriver (d : Dev) {kind index : Nat} (hk : kind ≠ 0) : ∀ n h, h < n → (d.releaseDriver kind index n).hasDriver h kind index = false
  | n + 1, h, hn => by
    unfold Dev.releaseDriver
    dsimp only
    by_cases e : h = n
    · subst e
      split
      next =>
        have hzero : ((d.releaseDriver kind index h).recordDriver h 0 0).rd F.FMR_HAL_DRV_KIND h = 0 := Dev.rd_recordDriver_kind ..
        unfold Dev.hasDriver
        rw [hzero]
        simp [hk.symm]
      next hno => simpa using hno
    · have ih := d.hasDriver_releaseDriver (index := index) hk n h (by omega)
      split
      next =>
        rw [Dev.hasDriver_congr (Dev.reg_recordDriver_ne _ 0 0 (by rw [driverReg_eq, driverReg_eq]; omega))]
        exact ih
      next => exact ih

/-- The end of a profile, before its mute is shown. -/
def Dev.loReleased (st : Nat) : Dev :=
  ((d.wr F.CLK_LO_STATUS_PSTATE st i).setLo i (fun _ => ⟨d.loFreq i, false, 0, 0, 0, false, false, false, false, false, false⟩)).releaseDriver 6 i 64
theorem Dev.loRelease_eq (st : Nat) : d.loRelease i st = (d.loReleased i st).showMuted i := rfl
/-- Releasing drivers moves registers alone. -/
theorem Dev.releaseDriver_shape (d : Dev) (kind index : Nat) : ∃ r z x o, d.releaseDriver kind index 64 = { d with regs := r, regs0 := z, irq := x, out := o } :=
  OnlyRegs.shape ((Frame.refl driverRegs d).releaseDriver (fun _ => mem_driverRegs) kind index 64 (le_refl 64)).2
theorem Dev.loReleased_clocks (st : Nat) : (d.loReleased i st).clocks =
    ((d.wr F.CLK_LO_STATUS_PSTATE st i).setLo i (fun _ => ⟨d.loFreq i, false, 0, 0, 0, false, false, false, false, false, false⟩)).clocks := by
  obtain ⟨_, _, _, _, e⟩ := Dev.releaseDriver_shape ((d.wr F.CLK_LO_STATUS_PSTATE st i).setLo i
    (fun _ => ⟨d.loFreq i, false, 0, 0, 0, false, false, false, false, false, false⟩)) 6 i
  unfold Dev.loReleased
  rw [e]
theorem Dev.loRelease_inputs (st : Nat) : (d.loRelease i st).inputs = d.inputs := by
  obtain ⟨_, _, _, _, e⟩ := Dev.releaseDriver_shape ((d.wr F.CLK_LO_STATUS_PSTATE st i).setLo i
    (fun _ => ⟨d.loFreq i, false, 0, 0, 0, false, false, false, false, false, false⟩)) 6 i
  have hreleased : (d.loReleased i st).inputs = d.inputs := by
    unfold Dev.loReleased
    rw [e]
    rfl
  exact hreleased
/-- The output keeps its frequency (R137). -/
theorem Dev.loRelease_freq (st : Nat) : (d.loRelease i st).loFreq i = d.loFreq i := by
  have hlo : (d.loRelease i st).lo i = ⟨d.loFreq i, false, 0, 0, 0, false, false, false, false, false, false⟩ := by
    have hown := (d.wr F.CLK_LO_STATUS_PSTATE st i).lo_setLo i fun _ => ⟨d.loFreq i, false, 0, 0, 0, false, false, false, false, false, false⟩
    rw [← hown]
    unfold Dev.lo
    rw [← d.loReleased_clocks i st]
    rfl
  exact loFreq_still (d.loFreq_lt i 0) (by rw [hlo]) (by rw [hlo])
theorem driver_clear_muted : ∀ i : Fin 4, ∀ h : Fin 64, F.FMR_HAL_DRV_KIND.clear h 0 [F.CLK_LO_STATUS_MUTED.place i] = true ∧
    F.FMR_HAL_DRV_INDEX.clear h 0 [F.CLK_LO_STATUS_MUTED.place i] = true := by decide +kernel
theorem Dev.loRelease_drivers (st : Nat) {h : Nat} (hh : h < 64) : (d.loRelease i st).hasDriver h 6 i = false := by
  have hmuted := (ClockStep.refl False [F.CLK_LO_STATUS_MUTED.place i] (d.loReleased i st)).showMuted i (.head _)
  obtain ⟨hkind, hindex⟩ := driver_clear_muted i ⟨h, hh⟩
  have hreleased : (d.loReleased i st).hasDriver h 6 i = false := Dev.hasDriver_releaseDriver _ (by decide) 64 h hh
  rw [d.loRelease_eq, Dev.hasDriver, hmuted.bits F.FMR_HAL_DRV_KIND h 0 hkind, hmuted.bits F.FMR_HAL_DRV_INDEX h 0 hindex]
  exact hreleased
theorem code_clear_release : ∀ i : Fin 4, F.CLK_STATUS_CODE.clear 0 0 (F.CLK_LO_STATUS_PSTATE.place i :: releasePlaces i) = true := by decide +kernel
theorem mem_stopRegs : ∀ i : Fin 4, ∀ x ∈ F.CLK_STATUS_CODE.place :: F.CLK_LO_STATUS_PSTATE.place i :: releasePlaces i,
    x.1 ∈ [0x40000, F.CLK_LO_STATUS_PSTATE.at_ i 0] ++ driverRegs := by decide +kernel

/-- STOP (R137): the profile is over, its halyards are released, its frequency stays. -/
theorem Dev.loStop_holds : (d.loStop i k).rd F.CLK_STATUS_CODE = 0 ∧ (d.loStop i k).loState i = 0 ∧ (d.loStop i k).loFreq i = d.loFreq i k ∧
    (∀ h, h < 64 → (d.loStop i k).hasDriver h 6 i = false) ∧
    Frame ([0x40000, F.CLK_LO_STATUS_PSTATE.at_ i 0] ++ driverRegs) d { d.loStop i k with clocks := d.clocks } := by
  have hrelease : ClockStep False (F.CLK_LO_STATUS_PSTATE.place i :: releasePlaces i) (d.stopPaused i k) ((d.stopPaused i k).loRelease i 0) :=
    ((ClockStep.refl ..).wr F.CLK_LO_STATUS_PSTATE 0 i 0 (.head _)).trans (((d.stopPaused i k).loRelease_step i False 0).mono fun _ hx => .tail _ hx)
  have hpaused : ClockStep False [F.CLK_STATUS_CODE.place] d (d.stopPaused i k) :=
    ((ClockStep.refl ..).loPause i k).wr F.CLK_STATUS_CODE 0 0 0 (.head _)
  have hstep : ClockStep False (F.CLK_STATUS_CODE.place :: F.CLK_LO_STATUS_PSTATE.place i :: releasePlaces i) d (d.loStop i k) :=
    (hpaused.mono fun x hx => (List.mem_singleton.mp hx) ▸ .head _).trans (hrelease.mono fun _ hx => .tail _ hx)
  have hinputs : (d.loStop i k).inputs = d.inputs := Dev.loRelease_inputs _ i 0
  have hframe := hstep.frame (mem_stopRegs i)
  rw [← hinputs] at hframe
  refine ⟨?_, ?_, ?_, fun h hh => ?_, hframe⟩
  · exact (hrelease.bits _ 0 0 (code_clear_release i)).trans (Dev.code_code _ (by decide))
  · exact Dev.loRelease_state _ i (by decide)
  · exact (Dev.loRelease_freq _ i 0).trans (d.stopPaused_freq i k)
  · exact Dev.loRelease_drivers _ i 0 hh

/-! ## The end of a segment (R136) -/

theorem Dev.segmentEnd_idle (h : d.loState i ≠ 1 ∨ (d.lo i).counting = false) : d.segmentEnd i = d := by
  refine if_neg fun hruns => ?_
  obtain ⟨hst, hcount⟩ := hruns
  rcases h with h | h
  · exact h hst
  · simp [h] at hcount
/-- The time its count runs out. -/
def Dev.segmentOver : Dev := d.advanceTo ((d.lo i).since + (d.lo i).left)
theorem Dev.segmentEnd_eq (h : d.loState i = 1) (hcount : (d.lo i).counting = true) :
    d.segmentEnd i = (d.segmentOver i).loRun i (d.rd F.CLK_LO_STATUS_SEG i + 1) := by
  have hseg : (d.segmentOver i).rd F.CLK_LO_STATUS_SEG i = d.rd F.CLK_LO_STATUS_SEG i := Dev.rd_advanceTo ..
  rw [← hseg]
  exact if_pos ⟨h, hcount⟩
theorem Dev.segment_advanceTo (t s : Nat) : (d.advanceTo t).segment i s = d.segment i s := by
  have hword : ∀ m, (d.advanceTo t).rd F.CLK_LO_PROFILE_WORD i m = d.rd F.CLK_LO_PROFILE_WORD i m := fun m => Dev.rd_congr (Dev.advanceTo_regs d t) _ _ m
  unfold Dev.segment
  simp only [hword]
theorem Dev.segmentEnd_holds {g : Nat} (h : d.loState i = 1) (hcount : (d.lo i).counting = true) (hg : d.rd F.CLK_LO_STATUS_SEG i + 1 = g) (hlt : g < 256) :
    (d.segmentEnd i).clk = max d.clk ((d.lo i).since + (d.lo i).left) ∧ SegmentRuns i g d (d.segmentEnd i) := by
  rw [d.segmentEnd_eq i h hcount, hg]
  have hrun : ClockStep True (runPlaces i) (d.segmentOver i) ((d.segmentOver i).loRun i g) :=
    (ClockStep.refl ..).loRun i hlt (Dev.segment_halyard_lt _ i g) (le_refl 256) (fun x hx => by simp [runPlaces, hx]) (fun x hx => by simp [runPlaces, hx])
      fun _ x hx => by simp [runPlaces, hx]
  exact ⟨hrun.clk.trans (Dev.advanceTo_clk _ _), ((d.segmentOver i).loRun_segment i g hlt).congr (d.segment_advanceTo i _ g) (Dev.rd_advanceTo ..)⟩
end

/-! ## The commands together -/

section
variable {d e : Dev} {i : Fin 4} {t : Tab LoTurn}

/-- A command that only answers its code. -/
theorem Performed.code {c : Nat} (h : Performed d i ((d.turned t).clkCode c) e) (hc : c < 256) :
    e.rd F.CLK_STATUS_CODE = c ∧ Frame [0x40000] d { e with clocks := { e.clocks with turns := d.clocks.turns } } := by
  obtain ⟨hcode, hframe⟩ := (d.turned t).code_holds hc
  rw [h.steady rfl]
  exact ⟨hcode, hframe.turnedOnly⟩
/-- A command that leaves a code and a state, with its frame. -/
theorem Performed.stated {b : Dev} {st : Nat} {w : List Nat} (h : Performed d i b e)
    (hb : b.rd F.CLK_STATUS_CODE = 0 ∧ b.loState i = st ∧ Frame w (d.turned t) { b with clocks := (d.turned t).clocks }) :
    e.rd F.CLK_STATUS_CODE = 0 ∧ e.loState i = st ∧ Frame w d { e with clocks := d.clocks } :=
  ⟨(h.only.rd _ 0).trans hb.1, (h.only.rd _ i).trans hb.2.1, h.only.frame hb.2.2⟩
end

section
variable (d : Dev) (i : Fin 4)

theorem Dev.loHost_start (g : Nat) : ∃ t, Performed d i ((d.turned t).loStart i g (d.loLate i)) (d.loHost i 1 g) := d.loHost_performed i 1 g
theorem Dev.loHost_step : ∃ t, Performed d i ((d.turned t).loStep i) (d.loHost i 2 0) := d.loHost_performed i 2 0
theorem Dev.loHost_hold : ∃ t, Performed d i ((d.turned t).loHold i (d.loLate i)) (d.loHost i 3 0) := d.loHost_performed i 3 0
theorem Dev.loHost_resume : ∃ t, Performed d i ((d.turned t).loResume i) (d.loHost i 4 0) := d.loHost_performed i 4 0
theorem Dev.loHost_stop : ∃ t, Performed d i ((d.turned t).loStop i (d.loLate i)) (d.loHost i 5 0) := d.loHost_performed i 5 0

/-! ### START -/

theorem Dev.hostStart_runs (g : Fin 256) (hst : d.loState i ≠ 2) (hc : d.loCheck i 257 g (d.loFreq i (d.loLate i)) = 0) :
    (d.loHost i 1 g).rd F.CLK_STATUS_CODE = 0 ∧ SegmentRuns i g d (d.loHost i 1 g) ∧
    ((d.segment i g).kind ≠ 0xFF → ∀ h, h ∈ d.loHalyards i 256 g → (d.loHost i 1 g).hasDriver h 6 i = true) := by
  obtain ⟨t, hdone⟩ := d.loHost_start i g
  have hsegs : ∀ s, s < 256 → (d.turned t).segment i s = d.segment i s := fun _ _ => rfl
  obtain ⟨hcode, hruns, hdrivers⟩ := (d.turned t).loStart_runs i (d.loLate i) g.isLt hst ((d.loCheck_turned i t 257 g _).trans hc)
  refine ⟨(hdone.only.rd _ 0).trans hcode, hdone.only.segmentRuns (hruns.congr (hsegs g g.isLt) rfl), fun hk h hm => ?_⟩
  rw [hdone.only.hasDriver]
  exact hdrivers hk h (by rw [Dev.loHalyards_congr hsegs 256 g g.isLt]; exact hm)
theorem Dev.hostStart_fails (g : Fin 256) {c : Nat} (hst : d.loState i ≠ 2) (hc : d.loCheck i 257 g (d.loFreq i (d.loLate i)) = c) (hne : c ≠ 0) :
    (d.loHost i 1 g).rd F.CLK_STATUS_CODE = c ∧ Frame [0x40000] d { d.loHost i 1 g with clocks := { (d.loHost i 1 g).clocks with turns := d.clocks.turns } } := by
  obtain ⟨t, hdone⟩ := d.loHost_start i g
  rw [(d.turned t).loStart_fails i (d.loLate i) hst ((d.loCheck_turned i t 257 g _).trans hc) hne] at hdone
  exact hdone.code (hc ▸ d.loCheck_lt i 257 g _)
theorem Dev.hostStart_waiting (g : Fin 256) (hst : d.loState i = 2) :
    (d.loHost i 1 g).rd F.CLK_STATUS_CODE = 5 ∧ Frame [0x40000] d { d.loHost i 1 g with clocks := { (d.loHost i 1 g).clocks with turns := d.clocks.turns } } := by
  obtain ⟨t, hdone⟩ := d.loHost_start i g
  rw [(d.turned t).loStart_waiting i (d.loLate i) g hst] at hdone
  exact hdone.code (by decide)

/-! ### STEP -/

theorem Dev.hostStep_enters (h : d.loState i = 2) : (d.loHost i 2 0).rd F.CLK_STATUS_CODE = 0 ∧
    (d.loHost i 2 0).rd F.CLK_LO_STATUS_SEG i = d.rd F.CLK_LO_STATUS_SEG i ∧
    (d.loHost i 2 0).loState i = (if (d.segment i (d.rd F.CLK_LO_STATUS_SEG i)).kind = 0xFF then 4 else 1) := by
  obtain ⟨t, hdone⟩ := d.loHost_step i
  obtain ⟨hcode, hseg, hstate⟩ := (d.turned t).loStep_enters i h
  exact ⟨(hdone.only.rd _ 0).trans hcode, (hdone.only.rd _ i).trans hseg, (hdone.only.rd _ i).trans hstate⟩
theorem Dev.hostStep_latches (h : d.loState i ≠ 2) (hl : d.rd F.CLK_LO_STATUS_STEP_LATCHED i = 0) :
    (d.loHost i 2 0).rd F.CLK_STATUS_CODE = 0 ∧ (d.loHost i 2 0).rd F.CLK_LO_STATUS_STEP_LATCHED i = 1 ∧
    Frame [0x40000, F.CLK_LO_STATUS_PSTATE.at_ i 0] d { d.loHost i 2 0 with clocks := { (d.loHost i 2 0).clocks with turns := d.clocks.turns } } := by
  obtain ⟨t, hdone⟩ := d.loHost_step i
  rw [(d.turned t).loStep_latches i h hl] at hdone
  rw [hdone.steady rfl]
  obtain ⟨hcode, hlatched, hframe⟩ := (d.turned t).stepLatched_holds i
  exact ⟨hcode, hlatched, hframe.turnedOnly⟩
theorem Dev.hostStep_drops (h : d.loState i ≠ 2) (hl : d.rd F.CLK_LO_STATUS_STEP_LATCHED i = 1) :
    (d.loHost i 2 0).rd F.CLK_STATUS_CODE = 0 ∧ (d.loHost i 2 0).rd F.CLK_LO_STEPDROP_COUNT i = min (2 ^ 32 - 1) (d.rd F.CLK_LO_STEPDROP_COUNT i + 1) ∧
    Frame [0x40000, F.CLK_LO_STEPDROP_COUNT.at_ i 0] d { d.loHost i 2 0 with clocks := { (d.loHost i 2 0).clocks with turns := d.clocks.turns } } := by
  obtain ⟨t, hdone⟩ := d.loHost_step i
  rw [(d.turned t).loStep_drops i h hl] at hdone
  rw [hdone.steady rfl]
  obtain ⟨hcode, hcount, hframe⟩ := (d.turned t).stepDropped_holds i
  exact ⟨hcode, hcount, hframe.turnedOnly⟩

/-! ### HOLD -/

theorem Dev.hostHold_waits (h : d.loState i = 2) : (d.loHost i 3 0).rd F.CLK_STATUS_CODE = 0 ∧ (d.loHost i 3 0).loState i = 3 ∧
    (d.loHost i 3 0).loFreq i = d.loFreq i ∧ Frame [0x40000, F.CLK_LO_STATUS_PSTATE.at_ i 0] d { d.loHost i 3 0 with clocks := d.clocks } := by
  obtain ⟨t, hdone⟩ := d.loHost_hold i
  rw [(d.turned t).loHold_waits i (d.loLate i) h] at hdone
  obtain ⟨hcode, hstate, hframe⟩ := hdone.stated ((d.turned t).waitStopped_holds i)
  exact ⟨hcode, hstate, hdone.freq.trans ((d.turned t).waitStopped_freq i), hframe⟩
theorem Dev.hostHold_now (h : d.loState i = 1) (hstarted : (d.lo i).started = true) (hsearch : (d.lo i).lockWait = false ∨ d.loSearches i = false) :
    (d.loHost i 3 0).rd F.CLK_STATUS_CODE = 0 ∧ (d.loHost i 3 0).loState i = 3 ∧ (d.loHost i 3 0).loFreq i = d.loFreq i (d.loLate i) ∧
    Frame [0x40000, F.CLK_LO_STATUS_PSTATE.at_ i 0] d { d.loHost i 3 0 with clocks := d.clocks } := by
  obtain ⟨t, hdone⟩ := d.loHost_hold i
  rw [(d.turned t).loHold_now i (d.loLate i) h hstarted hsearch] at hdone
  obtain ⟨hcode, hstate, hframe⟩ := hdone.stated ((d.turned t).heldNow_holds i (d.loLate i))
  exact ⟨hcode, hstate, hdone.freq.trans ((d.turned t).heldNow_freq i (d.loLate i)), hframe⟩
theorem Dev.hostHold_atLock (h : d.loState i = 1) (hlater : (d.lo i).started = false ∨ ((d.lo i).lockWait = true ∧ d.loSearches i = true)) :
    (d.loHost i 3 0).rd F.CLK_STATUS_CODE = 0 ∧ (d.loHost i 3 0).loState i = 1 ∧ ((d.loHost i 3 0).lo i).holdLock = true ∧
    Frame [0x40000] d { d.loHost i 3 0 with clocks := d.clocks } := by
  obtain ⟨t, hdone⟩ := d.loHost_hold i
  rw [(d.turned t).loHold_atLock i (d.loLate i) h hlater] at hdone
  obtain ⟨hcode, hstate, hheld, hframe⟩ := (d.turned t).heldAtLock_holds i h
  obtain ⟨hcode, hstate, hframe⟩ := hdone.stated ⟨hcode, hstate, hframe⟩
  exact ⟨hcode, hstate, hdone.held.trans hheld, hframe⟩
theorem Dev.hostHold_refused (h : d.loState i = 0 ∨ 2 < d.loState i) : (d.loHost i 3 0).rd F.CLK_STATUS_CODE = 5 ∧
    Frame [0x40000] d { d.loHost i 3 0 with clocks := { (d.loHost i 3 0).clocks with turns := d.clocks.turns } } := by
  obtain ⟨t, hdone⟩ := d.loHost_hold i
  rw [(d.turned t).loHold_refused i (d.loLate i) h] at hdone
  exact hdone.code (by decide)

/-! ### RESUME -/

theorem Dev.hostResume_counts (h : d.loState i = 3) (hw : (d.lo i).waitHeld = false) : (d.loHost i 4 0).rd F.CLK_STATUS_CODE = 0 ∧ (d.loHost i 4 0).loState i = 1 ∧
    Frame [0x40000, F.CLK_LO_STATUS_PSTATE.at_ i 0] d { d.loHost i 4 0 with clocks := d.clocks } := by
  obtain ⟨t, hdone⟩ := d.loHost_resume i
  rw [(d.turned t).loResume_counts i h hw] at hdone
  exact hdone.stated ((d.turned t).countResumed_holds i)
theorem Dev.hostResume_waits (h : d.loState i = 3) (hw : (d.lo i).waitHeld = true) (hl : d.rd F.CLK_LO_STATUS_STEP_LATCHED i = 0) :
    (d.loHost i 4 0).rd F.CLK_STATUS_CODE = 0 ∧ (d.loHost i 4 0).loState i = 2 ∧
    Frame [0x40000, F.CLK_LO_STATUS_PSTATE.at_ i 0] d { d.loHost i 4 0 with clocks := d.clocks } := by
  obtain ⟨t, hdone⟩ := d.loHost_resume i
  rw [(d.turned t).loResume_waits i h hw hl] at hdone
  exact hdone.stated ((d.turned t).waitGoes_holds i)
theorem Dev.hostResume_steps (h : d.loState i = 3) (hw : (d.lo i).waitHeld = true) (hl : d.rd F.CLK_LO_STATUS_STEP_LATCHED i = 1) :
    (d.loHost i 4 0).rd F.CLK_STATUS_CODE = 0 ∧ (d.loHost i 4 0).rd F.CLK_LO_STATUS_STEP_LATCHED i = 0 ∧
    (d.loHost i 4 0).rd F.CLK_LO_STATUS_SEG i = d.rd F.CLK_LO_STATUS_SEG i ∧
    (d.loHost i 4 0).loState i = (if (d.segment i (d.rd F.CLK_LO_STATUS_SEG i)).kind = 0xFF then 4 else 1) := by
  obtain ⟨t, hdone⟩ := d.loHost_resume i
  rw [(d.turned t).loResume_steps i h hw hl] at hdone
  obtain ⟨hcode, hlatched, hseg, hstate⟩ := (d.turned t).waitSteps_holds i
  exact ⟨(hdone.only.rd _ 0).trans hcode, (hdone.only.rd _ i).trans hlatched, (hdone.only.rd _ i).trans hseg, (hdone.only.rd _ i).trans hstate⟩
theorem Dev.hostResume_refused (h : d.loState i ≠ 3) : (d.loHost i 4 0).rd F.CLK_STATUS_CODE = 5 ∧
    Frame [0x40000] d { d.loHost i 4 0 with clocks := { (d.loHost i 4 0).clocks with turns := d.clocks.turns } } := by
  obtain ⟨t, hdone⟩ := d.loHost_resume i
  rw [(d.turned t).loResume_refused i h] at hdone
  exact hdone.code (by decide)

/-! ### STOP -/

theorem Dev.hostStop_holds : (d.loHost i 5 0).rd F.CLK_STATUS_CODE = 0 ∧ (d.loHost i 5 0).loState i = 0 ∧ (d.loHost i 5 0).loFreq i = d.loFreq i (d.loLate i) ∧
    (∀ h, h < 64 → (d.loHost i 5 0).hasDriver h 6 i = false) ∧
    Frame ([0x40000, F.CLK_LO_STATUS_PSTATE.at_ i 0] ++ driverRegs) d { d.loHost i 5 0 with clocks := d.clocks } := by
  obtain ⟨t, hdone⟩ := d.loHost_stop i
  obtain ⟨hcode, hstate, hfreq, hdrivers, hframe⟩ := (d.turned t).loStop_holds i (d.loLate i)
  obtain ⟨hcode, hstate, hframe⟩ := hdone.stated ⟨hcode, hstate, hframe⟩
  exact ⟨hcode, hstate, hdone.freq.trans hfreq, fun h hh => (hdone.only.hasDriver h 6 i).trans (hdrivers h hh), hframe⟩
end

/-- Settles O21: each command's meaning and what it leaves, from the lemmas above. -/
theorem localOscillatorCommandsComplete : Obligations.LocalOscillatorCommandsComplete := by
  unfold Obligations.LocalOscillatorCommandsComplete
  refine ⟨fun s => ⟨fun i => rfl, fun hrun => ⟨fun i g => ?_, fun i => ?_, fun i => ?_, fun i => ?_, fun i => ?_, fun i k v => ?_⟩⟩,
    fun s i => ⟨fun g hrun hst hc => ?_, fun g c hrun hst hc hne => ?_, fun g hrun hst => ?_, fun hrun hst => ?_, fun hrun hst hl => ?_, fun hrun hst hl => ?_,
      fun hrun hst => ?_, fun hrun hst hstarted hsearch => ?_, fun hrun hst hlater => ?_, fun hrun hst => ?_, fun hrun hst hw => ?_, fun hrun hst hw hl => ?_,
      fun hrun hst hw hl => ?_, fun hrun hst => ?_, fun hrun => ?_, fun g hst hcount hg hlt => ?_, fun h => ?_, fun k v hrun hst => ?_, fun k v hrun hst => ?_⟩⟩
  · exact exec_host_run (f := fun d => d.loHost i 1 g) rfl hrun
  · exact exec_host_run (f := fun d => d.loHost i 2 0) rfl hrun
  · exact exec_host_run (f := fun d => d.loHost i 3 0) rfl hrun
  · exact exec_host_run (f := fun d => d.loHost i 4 0) rfl hrun
  · exact exec_host_run (f := fun d => d.loHost i 5 0) rfl hrun
  · exact exec_host_run (f := fun d => d.profileWrite i k v) rfl hrun
  · exact completes_host (f := fun d => d.loHost i 1 g) rfl hrun (s.dev.hostStart_runs i g hst hc)
  · exact completes_host (f := fun d => d.loHost i 1 g) rfl hrun (s.dev.hostStart_fails i g hst hc hne)
  · exact completes_host (f := fun d => d.loHost i 1 g) rfl hrun (s.dev.hostStart_waiting i g hst)
  · exact completes_host (f := fun d => d.loHost i 2 0) rfl hrun (s.dev.hostStep_enters i hst)
  · exact completes_host (f := fun d => d.loHost i 2 0) rfl hrun (s.dev.hostStep_latches i hst hl)
  · exact completes_host (f := fun d => d.loHost i 2 0) rfl hrun (s.dev.hostStep_drops i hst hl)
  · exact completes_host (f := fun d => d.loHost i 3 0) rfl hrun (s.dev.hostHold_waits i hst)
  · exact completes_host (f := fun d => d.loHost i 3 0) rfl hrun (s.dev.hostHold_now i hst hstarted hsearch)
  · exact completes_host (f := fun d => d.loHost i 3 0) rfl hrun (s.dev.hostHold_atLock i hst hlater)
  · exact completes_host (f := fun d => d.loHost i 3 0) rfl hrun (s.dev.hostHold_refused i hst)
  · exact completes_host (f := fun d => d.loHost i 4 0) rfl hrun (s.dev.hostResume_counts i hst hw)
  · exact completes_host (f := fun d => d.loHost i 4 0) rfl hrun (s.dev.hostResume_waits i hst hw hl)
  · exact completes_host (f := fun d => d.loHost i 4 0) rfl hrun (s.dev.hostResume_steps i hst hw hl)
  · exact completes_host (f := fun d => d.loHost i 4 0) rfl hrun (s.dev.hostResume_refused i hst)
  · exact completes_host (f := fun d => d.loHost i 5 0) rfl hrun (s.dev.hostStop_holds i)
  · exact completes_lift (f := fun d => d.segmentEnd i) rfl (s.dev.segmentEnd_holds i hst hcount hg hlt)
  · exact completes_lift (f := fun d => d.segmentEnd i) rfl (s.dev.segmentEnd_idle i h)
  · refine completes_host (f := fun d => d.profileWrite i k v) rfl hrun ?_
    obtain ⟨hword, hframe⟩ := s.dev.profileWrite_free_holds i k v (by omega)
    have hwhole : (s.dev.profileWrite i k v).rd F.CLK_LO_PROFILE_WORD i k = v.toNat := (Word.field_whole _).trans (congrArg BitVec.toNat hword)
    exact ⟨hwhole, hframe⟩
  · exact completes_host (f := fun d => d.profileWrite i k v) rfl hrun (s.dev.profileWrite_busy_holds i k v (by omega))

end Machine
end Sys2Proof
end

