-- ==== Sys2Proof/Proofs/ChannelPlayRing.lean ====
section
/-! PROOFS. START of a playback channel whose PLAY_RING lies outside its range of R165 (spec/06_channels.md, R143, R162): refutes O22.

The statement asks START for the rate that playback had before it: `lanes` of the bound channel is `chanLanes` of the state that START finds. The
rate is read from the context record in the ring that PLAY_RING names, through that ring's page registers (R162). R165 keeps PLAY_RING below 1,024,
where those registers stand in the galley's block; the statement quantifies over every state, and for some larger numbers they are words of a knob window.
START itself writes such words when it reports LAT_NS and PIPE_CLK (R152), before it binds the channel: it then reads another place, and may find
another rate. The state below breaks R165; nothing here says that commands reach it. -/

namespace Sys2Proof
namespace Machine

/-! ## The rate that the statement asks for -/

/-- By the statement, START binds the channel to the samples per clock of the state that it finds. -/
theorem lanes_of_channelCommandsComplete (h : Obligations.ChannelCommandsComplete) {s : State} {i : Fin 128} (hrun : InRun s) (hkind : s.dev.kind i = 1)
    (htakes : s.dev.takes i 1 0 1 = true) (hstopped : s.dev.chanRunning i = false) (hcheck : s.dev.chanCheck i = 0) (hfed : s.dev.fedAll = true) :
    ((s.dev.knobWrite i 0 1).chan i).lanes = s.dev.chanLanes i := by
  unfold Obligations.ChannelCommandsComplete at h
  obtain ⟨leaves, effects⟩ := h
  obtain ⟨-, -, leavesHost⟩ := leaves s
  obtain ⟨leavesStart, -⟩ := leavesHost hrun
  obtain ⟨starts, -⟩ := effects s i
  obtain ⟨t, hexec, -, -, -, -, -, -, -, -, -, -, -, hlanes, -⟩ := starts hrun htakes hstopped hcheck hfed
  obtain rfl := Host.Outcome.next.inj ((leavesStart i).symm.trans hexec)
  simpa only [if_pos hkind] using hlanes

/-! ## A ring whose registers are knobs -/

/-- The section that plays. -/
def player : Fin 128 := 0
/-- The ring number whose PAGES register is PIPE_CLK of that section. -/
def strayRing : Nat := (knobAt player 0x68 - F.GAL_RING_PAGES_PAGES.off) / F.GAL_RING_PAGES_PAGES.st
theorem strayRing_pages : F.GAL_RING_PAGES_PAGES.at_ strayRing 0 = knobAt player 0x68 := by decide
/-- The byte space of that ring is what PIPE_CLK says. -/
theorem Dev.ringSize_strayRing (d : Dev) : d.ringSize strayRing = d.knobBits player 0x68 0 17 * pageSize := by
  unfold Dev.ringSize Dev.rd
  rw [strayRing_pages]
  rfl

/-! ## The counterexample -/

/-- A section of kind CHAN with the rotator and the MAC sorts that quick-settle needs (R158). -/
def quickSection : Section where
  desc := {
    index := 0, kind := 1, bodyLen := 16, reefPriority := 0, reefStage := 0, gating := 0, outPorts := 0, claim := 0, knobs := [],
    sorts := ⟨0, 2, 0, []⟩ :: List.replicate 9 ⟨0, 0, 0, []⟩, routes := [], inputs := [], initial := [], gangs := [] }
  held := []
  darkFrom := none
  tw := 0
  ring := 0
/-- A ring that holds a context record at position 0 and a raw record of the same source behind it. -/
def playedRing : Ring where
  wr := 512
  seq := 2
  recs := [
    { pos := 0, len := 256, pay := 0, type := 0x0C, source := 0, tag := 0, trig := 0, flags := 0, start := 0, count := 0 },
    { pos := 256, len := 256, pay := 0, type := 1, source := 0, tag := 0, trig := 0, flags := 0, start := 0, count := 0 }]
  readers := []
  writers := []
  reserves := 0
  dead := []
  kept := []
  overThresh := false
/-- In RUN, the player an ACTIVE and STOPPED channel with the knob map of R165, set to play `strayRing` through built-in set 2 in quick-settle mode. The galley holds
32 GS/s at byte 72, where the context record of a ring with pages has its rate. -/
def strayPlayback : Dev :=
  let d : Dev := { Dev.reset with
    sections := Tab.empty.put player quickSection, maps := Tab.empty.put player (1, chanKnobs), rings := Tab.empty.put strayRing playedRing,
    mem := Mem.empty.storeBytes 72 (leBytes 8 32000000000) }
  let d := (d.wr F.SYS_STATUS_PSTATE 2).wr F.FMR_SEC_STATE_STATE 2 player
  (((d.setKnob player 0xC 8).setKnob player 0x10 strayRing).setKnob player 0x24 2).setKnob player 0x38 1

/-- It meets what the statement asks of a START whose checks pass. -/
theorem strayPlayback_starts : InRun (State.mk strayPlayback []) ∧ strayPlayback.kind player = 1 ∧ strayPlayback.takes player 1 0 1 = true ∧
    strayPlayback.chanRunning player = false ∧ strayPlayback.chanCheck player = 0 ∧ strayPlayback.fedAll = true := by
  unfold InRun
  decide +kernel
/-- Before START the played ring has no page, and no rate is read from it. -/
theorem strayPlayback_before : strayPlayback.ringSize strayRing = 0 ∧ strayPlayback.chanLanes player = 16 := by
  rw [Dev.ringSize_strayRing]
  decide +kernel
/-- START reports PIPE_CLK, which gives the ring pages, and binds the channel to the rate that it now reads. -/
theorem strayPlayback_after : (strayPlayback.knobWrite player 0 1).ringSize strayRing = 19 * pageSize ∧
    ((strayPlayback.knobWrite player 0 1).chan player).lanes = 32 := by
  rw [Dev.ringSize_strayRing]
  decide +kernel

/-- Refutes O22: with PLAY_RING outside 0–1,023, the page registers of the played ring are knobs that START reports before it binds the channel, which so takes
another rate than the ring showed before START: 32 samples per clock, not 16. -/
theorem not_channelCommandsComplete : ¬ Obligations.ChannelCommandsComplete := by
  intro h
  obtain ⟨hrun, hkind, htakes, hstopped, hcheck, hfed⟩ := strayPlayback_starts
  have hkept := lanes_of_channelCommandsComplete h hrun hkind htakes hstopped hcheck hfed
  have hrate : 32 = 16 := strayPlayback_after.2.symm.trans (hkept.trans strayPlayback_before.2)
  exact absurd hrate (by decide)

end Machine
end Sys2Proof
end

