-- ==== Sys2Proof/Proofs/TransformSource.lean ====
section
/-! PROOFS. STOP of a transform while another one has SOURCE 9 (spec/07_transforms.md, R168, R174, R195): refutes O23.

The statement keeps every other transform through STOP when none reads the stopped one, `unread`: no transform that runs has SOURCE 8 and this section bound. The
knob SOURCE of R195 takes 0 to 8; the statement quantifies over every state, and the model's rule of what feeds a transform (`fed`) takes any number past 8 as a RAWC's
does, 9 for the XFRM section bound. A transform with SOURCE 9 that is bound to the stopped one so passes `unread`, and ends with INPUT_STOPPED all the same.
The state below breaks R195; nothing here says that commands reach it. -/

namespace Sys2Proof
namespace Machine

/-! ## The transforms that the statement keeps -/

/-- By the statement, STOP of a transform that nothing reads leaves the other transforms as they were. -/
theorem xfrms_of_transformCommandsComplete (h : Obligations.TransformCommandsComplete) {s : State} {i : Fin 128} (hrun : InRun s) (hkind : s.dev.kind i = 2)
    (htakes : s.dev.takes i 2 0 2 = true) (hrunning : s.dev.xfrmRunning i = true) (hfed : s.dev.fedAll = true) (hunread : s.dev.unread i = true) {j : Nat}
    (hj : j ≠ i.val) : (s.dev.knobWrite i 0 2).xfrms.get? j = s.dev.xfrms.get? j := by
  unfold Obligations.TransformCommandsComplete at h
  obtain ⟨leaves, effects⟩ := h
  obtain ⟨-, leavesHost⟩ := leaves s
  obtain ⟨-, leavesStop, -⟩ := leavesHost hrun
  obtain ⟨-, -, -, stops, -⟩ := effects s i
  obtain ⟨t, hexec, -, -, hstopped⟩ := stops hrun htakes hrunning
  obtain rfl := Host.Outcome.next.inj ((leavesStop i).symm.trans hexec)
  obtain ⟨-, -, -, hothers, -⟩ := hstopped hfed hunread
  simpa only [if_pos hkind] using hothers j hj

/-! ## The counterexample -/

/-- The section whose transform stops. -/
def stopper : Fin 128 := 0
/-- The section whose transform goes by the other. -/
def follower : Nat := 1
/-- A transform of 2^10 points, its source and channel as given. -/
def xfrmFrom (input chan : Nat) : Xfrm where
  input := input
  chan := chan
  source := 0
  num := 16
  den := 1
  s0 := 0
  size := 10
  hop := 8
  window := 0
  gone := []
  badTo := 0
/-- A section of kind XFRM that places no sorts. -/
def plainXfrm : Section where
  desc := {
    index := 0, kind := 2, bodyLen := 16, reefPriority := 0, reefStage := 0, gating := 0, outPorts := 0, claim := 0, knobs := [], sorts := [], routes := [],
    inputs := [], initial := [], gangs := [] }
  held := []
  darkFrom := none
  tw := 0
  ring := 0
/-- In RUN, input 0 RUNNING and the stopper an ACTIVE section with the knob map of R195, its transform RUNNING over input 0; the follower's transform has SOURCE 9 and the
stopper bound. -/
def strayFollower : Dev :=
  let d : Dev := { Dev.reset with
    sections := Tab.empty.put stopper plainXfrm, maps := Tab.empty.put stopper (2, xfrmKnobs),
    xfrms := (Tab.empty.put stopper (xfrmFrom 0 0)).put follower (xfrmFrom 9 stopper) }
  ((d.wr F.SYS_STATUS_PSTATE 2).wr F.FMR_SEC_STATE_STATE 2 stopper).wr F.CNV_STATUS_STATE 1 0

/-- It meets what the statement asks of a STOP that leaves the other transforms. -/
theorem strayFollower_stops : InRun (State.mk strayFollower []) ∧ strayFollower.kind stopper = 2 ∧ strayFollower.takes stopper 2 0 2 = true ∧
    strayFollower.xfrmRunning stopper = true ∧ strayFollower.fedAll = true ∧ strayFollower.unread stopper = true := by
  unfold InRun
  decide +kernel
/-- The follower's transform runs before STOP, and has ended after it. -/
theorem strayFollower_ends : strayFollower.xfrms.get? follower = some (xfrmFrom 9 stopper) ∧
    (strayFollower.knobWrite stopper 0 2).xfrms.get? follower = none := by
  decide +kernel

/-- Refutes O23: with SOURCE outside 0–8, a transform that `unread` does not count is fed by the one that stops, and STOP ends it with the other. -/
theorem not_transformCommandsComplete : ¬ Obligations.TransformCommandsComplete := by
  intro h
  obtain ⟨hrun, hkind, htakes, hrunning, hfed, hunread⟩ := strayFollower_stops
  obtain ⟨hbefore, hafter⟩ := strayFollower_ends
  have hkept := xfrms_of_transformCommandsComplete h hrun hkind htakes hrunning hfed hunread (j := follower) (by decide)
  have hends : none = some (xfrmFrom 9 stopper) := hafter.symm.trans (hkept.trans hbefore)
  exact Option.some_ne_none _ hends.symm

end Machine
end Sys2Proof
end

