-- ==== Sys2Proof/Proofs/KnobWindows.lean ====
section
/-! PROOFS. What placing records leaves of a section's knobs and of its run (spec/12_galley.md; R321–R332). The registers of a ring that a record moves stand at byte 8 or
above of their line of 16, its 64-bit values at byte 4 of 8, so none is a knob in the lower half of a line, whatever the number of the ring. -/

namespace Sys2Proof
namespace Machine

/-- What placing records leaves of a run: its product, its source, its next unit and the losses ahead of it. -/
structure RunHead where
  kind : RunKind
  source : Nat
  next : Nat
  losses : List Loss
/-- The head of a run. -/
def Run.head (u : Run) : RunHead := ⟨u.kind, u.source, u.next, u.losses⟩
/-- The head of the run of section i, where it has one. -/
def Dev.runHead (d : Dev) (i : Nat) : Option RunHead := (d.runs.get? i).map Run.head

/-- The knobs of section i in the lower half of their line read the same in `e` as in `d`, and so do its 64-bit counts; if `own`, its run goes on as it was. -/
structure WindowKept (own : Prop) (i : Nat) (d e : Dev) : Prop where
  reg : ∀ off, off < 0x20000 → off % 16 < 8 → e.reg (knobAt i off) = d.reg (knobAt i off)
  wide : ∀ off, off < 0x20000 → off % 8 = 0 → e.wide.get? (knobAt i off) = d.wide.get? (knobAt i off)
  run : own → e.runHead i = d.runHead i

/-- A field that is no such knob, whatever the element: of a register below the windows, or of an array in the upper half of lines. -/
def Fld.besideKnobs (f : Fld) : Bool := (f.st == 0 && decide (f.off < 0x1000000)) || (f.st % 16 == 0 && decide (8 ≤ f.off % 16))
theorem Fld.at_besideKnobs {f : Fld} (hf : f.besideKnobs = true) (n : Nat) : f.at_ n 0 < 0x1000000 ∨ 8 ≤ f.at_ n 0 % 16 := by
  simp only [Fld.besideKnobs, Bool.or_eq_true, Bool.and_eq_true, beq_iff_eq, decide_eq_true_eq] at hf
  unfold Fld.at_
  rcases hf with ⟨hst, hoff⟩ | ⟨hst, hoff⟩
  · left
    rw [hst]
    omega
  · right
    have : n * f.st % 16 = 0 := by rw [Nat.mul_mod, hst, Nat.mul_zero, Nat.zero_mod]
    omega

namespace WindowKept
variable {own : Prop} {i : Nat} {a b : Dev}

theorem refl (own : Prop) (i : Nat) (d : Dev) : WindowKept own i d d := ⟨fun _ _ _ => rfl, fun _ _ _ => rfl, fun _ => rfl⟩
theorem trans {c : Dev} (h1 : WindowKept own i a b) (h2 : WindowKept own i b c) : WindowKept own i a c :=
  ⟨fun o ho hk => (h2.reg o ho hk).trans (h1.reg o ho hk), fun o ho hk => (h2.wide o ho hk).trans (h1.wide o ho hk), fun hn => (h2.run hn).trans (h1.run hn)⟩
theorem weaken (h : WindowKept own i a b) : WindowKept False i a b := ⟨h.reg, h.wide, False.elim⟩
theorem ite (p : Prop) [Decidable p] {x y : Dev} (hx : WindowKept own i a x) (hy : WindowKept own i a y) : WindowKept own i a (if p then x else y) := by
  split <;> assumption
theorem foldl {α : Type} {f : Dev → α → Dev} (hf : ∀ (b : Dev) (x : α), WindowKept own i a b → WindowKept own i a (f b x)) :
    ∀ (l : List α) {b : Dev}, WindowKept own i a b → WindowKept own i a (l.foldl f b)
  | [], _, h => h
  | x :: t, b, h => foldl hf t (hf b x h)
/-- The knobs read what they read before. -/
theorem knob (h : WindowKept own i a b) {off : Nat} (hoff : off < 0x20000) (hlow : off % 16 < 8) : b.knob i off = a.knob i off :=
  congrArg BitVec.toNat (h.reg off hoff hlow)
theorem knobBits (h : WindowKept own i a b) {off : Nat} (hoff : off < 0x20000) (hlow : off % 16 < 8) (lo len : Nat) :
    b.knobBits i off lo len = a.knobBits i off lo len := by
  unfold Dev.knobBits
  rw [h.knob hoff hlow]
theorem wideKnob (h : WindowKept own i a b) {off : Nat} (hoff : off < 0x20000) (hlow : off % 8 = 0) : b.wideKnob i off = a.wideKnob i off := by
  unfold Dev.wideKnob Tab.getD
  rw [h.wide off hoff hlow]

/-! ## Single moves -/

/-- A change of anything else. -/
theorem other (h : WindowKept own i a b) {c : Dev} (hregs : c.regs = b.regs) (hwide : c.wide = b.wide) (hruns : c.runs = b.runs) : WindowKept own i a c :=
  h.trans ⟨fun _ _ _ => Dev.reg_congr hregs _, fun _ _ _ => by rw [hwide], fun _ => by unfold Dev.runHead; rw [hruns]⟩
theorem setReg (h : WindowKept own i a b) {o : Nat} (ho : o < 0x1000000 ∨ 8 ≤ o % 16) (v : Word) : WindowKept own i a (b.setReg o v) := by
  refine h.trans ⟨fun off hoff hlow => Dev.reg_setReg_ne b v ?_, fun _ _ _ => rfl, fun _ => rfl⟩
  unfold knobAt
  omega
theorem wr (h : WindowKept own i a b) (f : Fld) (v n : Nat) (hf : f.besideKnobs = true) : WindowKept own i a (b.wr f v n) :=
  h.setReg (Fld.at_besideKnobs hf n) _
theorem inc (h : WindowKept own i a b) (f : Fld) (n k : Nat) (hf : f.besideKnobs = true) : WindowKept own i a (b.inc f n 0 k) := h.wr f _ n hf
theorem flag (h : WindowKept own i a b) (f : Fld) (v : Bool) (n : Nat) (hf : f.besideKnobs = true) : WindowKept own i a (b.flag f v n) := h.wr f _ n hf
theorem setBits (h : WindowKept own i a b) (f : Fld) (v n : Nat) (hf : f.besideKnobs = true) : WindowKept own i a (b.setBits f v n) :=
  (h.wr f _ n hf).other rfl rfl rfl
theorem raise (h : WindowKept own i a b) (g s : Nat) (hg : g < 64) : WindowKept own i a (b.raise g s) :=
  h.trans ⟨fun _ _ _ => Dev.reg_raise b s hg (irqReg_knobAt _ _), fun _ _ _ => by rw [Dev.raise_wide], fun _ => by unfold Dev.runHead; rw [Dev.raise_runs]⟩
theorem level (h : WindowKept own i a b) (g s : Nat) (v : Bool) (hg : g < 64) : WindowKept own i a (b.level g s v) :=
  h.trans ⟨fun _ _ _ => Dev.reg_level b s v hg (irqReg_knobAt _ _), fun _ _ _ => by rw [Dev.level_wide], fun _ => by unfold Dev.runHead; rw [Dev.level_runs]⟩
/-- A 64-bit value of a ring. -/
theorem setWide (h : WindowKept own i a b) (f : Fld) (v n : Nat) (hf : (f.st % 8 == 0 && f.off % 8 == 4) = true) : WindowKept own i a (b.setWide f v n) := by
  rw [Bool.and_eq_true, beq_iff_eq, beq_iff_eq] at hf
  have hplace : n * f.st % 8 = 0 := by rw [Nat.mul_mod, hf.1, Nat.mul_zero, Nat.zero_mod]
  refine h.trans ⟨fun _ _ _ => rfl, fun off _ hlow => Tab.get?_put_ne _ _ ?_, fun _ => rfl⟩
  unfold Fld.at_ knobAt
  omega
theorem setRing (h : WindowKept own i a b) (r : Nat) (f : Ring → Ring) : WindowKept own i a (b.setRing r f) := h.other rfl rfl rfl
theorem usedFree (h : WindowKept own i a b) : WindowKept own i a b.usedFree := h.other rfl rfl rfl
theorem galStore (h : WindowKept own i a b) (p : Nat) (v : Byte) : WindowKept own i a (b.galStore p v) := h.other rfl rfl rfl
/-- A knob of another section. -/
theorem setKnobBits (h : WindowKept own i a b) {j : Nat} (hj : j ≠ i) {off : Nat} (hoff : off < 0x20000) (lo len v : Nat) :
    WindowKept own i a (b.setKnobBits j off lo len v) := by
  refine h.trans ⟨fun p hp _ => Dev.reg_setReg_ne _ _ ?_, fun _ _ _ => rfl, fun _ => rfl⟩
  unfold knobAt
  omega

/-- A change that leaves the head of whichever run it meets. -/
theorem setRun (h : WindowKept own i a b) (j : Nat) {f : Run → Run} (hf : ∀ u, (f u).head = u.head) : WindowKept own i a (b.setRun j f) := by
  unfold Dev.setRun
  split
  next u hu =>
    refine h.trans ⟨fun _ _ _ => rfl, fun _ _ _ => rfl, fun _ => ?_⟩
    unfold Dev.runHead
    by_cases e : i = j
    · rw [e, Tab.get?_put_same, hu, Option.map_some, Option.map_some, hf]
    · exact congrArg _ (Tab.get?_put_ne _ _ e)
  next => exact h
/-- A change of another section's run. -/
theorem setRunOf (h : WindowKept own i a b) {j : Nat} (hj : own → j ≠ i) (f : Run → Run) : WindowKept own i a (b.setRun j f) := by
  unfold Dev.setRun
  split
  · exact h.trans ⟨fun _ _ _ => rfl, fun _ _ _ => rfl, fun hn => congrArg _ (Tab.get?_put_ne _ _ (hj hn).symm)⟩
  · exact h
theorem putRun (h : WindowKept own i a b) {j : Nat} (hj : own → j ≠ i) (u : Run) : WindowKept own i a { b with runs := b.runs.put j u } :=
  h.trans ⟨fun _ _ _ => rfl, fun _ _ _ => rfl, fun hn => congrArg _ (Tab.get?_put_ne _ _ (hj hn).symm)⟩
theorem eraseRun (h : WindowKept own i a b) {j : Nat} (hj : own → j ≠ i) : WindowKept own i a { b with runs := b.runs.erase j } :=
  h.trans ⟨fun _ _ _ => rfl, fun _ _ _ => rfl, fun hn => congrArg _ (Tab.get?_erase_ne _ (hj hn).symm)⟩

theorem sectionEvent (h : WindowKept own i a b) (j e : Nat) : WindowKept own i a (b.sectionEvent j e) := by
  unfold Dev.sectionEvent Dev.mapped
  split
  · exact h
  · exact foldl (fun _ _ hc => ite _ (hc.raise _ _ (by omega)) hc) _ h

/-! ## Placing records (spec/12_galley.md) -/

theorem ringEvent (h : WindowKept own i a b) (r e : Nat) : WindowKept own i a (b.ringEvent r e) := (h.setBits _ _ _ (by decide)).level _ _ _ (by omega)
theorem walkFault (h : WindowKept own i a b) (ring : Option Nat) : WindowKept own i a (match ring with
    | some r => (b.inc F.GAL_FAULT_COUNT_COUNT).ringEvent r 5
    | none => (b.inc F.GAL_FAULT_COUNT_COUNT).usedFree) := by
  cases ring with
  | some r => exact (h.inc _ _ _ (by decide)).ringEvent r 5
  | none => exact (h.inc _ _ _ (by decide)).usedFree
theorem walk (h : WindowKept own i a b) (r idx dir : Nat) : WindowKept own i a (b.walk r idx dir) := by
  have miss := h.inc F.GAL_CACHE_MISS_COUNT 0 1 (by decide)
  unfold Dev.walk Dev.walkBy
  dsimp only
  split
  · exact h
  · split
    · refine (walkFault (ite _ miss ?_) (some r)).raise 26 28 (by decide)
      exact ((((((miss.wr _ _ _ (by decide)).wr _ _ _ (by decide)).wr _ _ _ (by decide)).wr _ _ _ (by decide)).wr _ _ _ (by decide)).wr _ _ _ (by decide)).setBits
        _ _ _ (by decide)
    · split <;> exact miss.other rfl rfl rfl
theorem killPage (h : WindowKept own i a b) (r p : Nat) : WindowKept own i a (b.killPage r p) := by
  unfold Dev.killPage
  exact ite _ h ((((h.setRing r _).inc _ _ _ (by decide)).ringEvent r 6).raise 26 31 (by decide))
theorem noteFill (h : WindowKept own i a b) (r : Nat) : WindowKept own i a (b.noteFill r) := by
  unfold Dev.noteFill
  exact ite _ ((h.setRing r _).ringEvent r 2) (h.setRing r _)
theorem liveWr (r : Nat) : ∀ (n : Nat) {b : Dev}, WindowKept own i a b → WindowKept own i a (b.liveWr r n).1
  | 0, _, h => h
  | n + 1, b, h => by
    unfold Dev.liveWr
    dsimp only
    split
    · exact h.walk _ _ _
    · exact liveWr r n ((h.walk _ _ _).killPage _ _)
theorem walkSpan (h : WindowKept own i a b) (r pos n : Nat) : ∀ k, WindowKept own i a (b.walkSpan r pos n k)
  | 0 => h
  | k + 1 => by
    have passed := h.walkSpan r pos n k
    unfold Dev.walkSpan
    dsimp only
    exact ite _ passed (ite _ ((passed.walk _ _ _).killPage _ _) (passed.walk _ _ _))
theorem ringStore (r : Nat) : ∀ (l : List Byte) (pos : Nat) {b : Dev}, WindowKept own i a b → WindowKept own i a (b.ringStore r pos l)
  | [], _, _, h => h
  | _ :: t, pos, _, h => ringStore r t (pos + 1) (ite _ h (h.galStore _ _))
theorem galStoreAll : ∀ (l : List Byte) (p : Nat) {b : Dev}, WindowKept own i a b → WindowKept own i a (b.galStoreAll p l)
  | [], _, _, h => h
  | _ :: t, p, _, h => galStoreAll t (p + 1) (h.galStore _ _)
theorem overrun (h : WindowKept own i a b) (r : Nat) : WindowKept own i a (b.overrun r) := by
  unfold Dev.overrun
  exact ite _ (h.setRing _ _) (((ite _ ((h.setRing _ _).setWide _ _ _ (by decide)) (h.setRing _ _)).inc _ _ _ (by decide)).ringEvent _ _)
theorem noteHeader (h : WindowKept own i a b) (r pos : Nat) : WindowKept own i a (b.noteHeader r pos) := by
  unfold Dev.noteHeader
  exact ite _ h (galStoreAll _ _ h)
theorem placeAt (h : WindowKept own i a b) (r pos tag : Nat) (x : Rec) : WindowKept own i a (b.placeAt r pos tag x).1 := by
  have stored {c : Dev} (hc : WindowKept own i a c) (f : Ring → Ring) (v : Nat) :
      WindowKept own i a ((((c.noteHeader r pos).setRing r f).setWide F.GAL_RING_WR_LO_WR v r).overrun r) :=
    (((hc.noteHeader r pos).setRing r f).setWide _ v r (by decide)).overrun r
  unfold Dev.placeAt
  dsimp only
  refine noteFill (ite _ ?_ (ringEvent ?_ _ _)) r <;> exact stored (ringStore r _ _ (ringStore r _ _ (h.walkSpan r pos _ _))) _ _
theorem placeNext (h : WindowKept own i a b) (r tag : Nat) (x : Rec) : WindowKept own i a (b.placeNext r tag x).1 := by
  unfold Dev.placeNext
  dsimp only
  split
  · exact (liveWr r _ h).placeAt _ _ _ _
  · exact liveWr r _ h
theorem placeWith (h : WindowKept own i a b) (r tag : Nat) (x : Rec) (t : Dev → Nat → Rec) : WindowKept own i a (b.placeWith r tag x t) :=
  foldl (fun _ _ hc => hc.placeNext _ _ _) _ (h.placeNext _ _ _)
theorem place (h : WindowKept own i a b) (r tag : Nat) (x : Rec) : WindowKept own i a (b.place r tag x) := h.placeWith _ _ _ _
theorem room (h : WindowKept own i a b) (r : Nat) (need : Dev → Nat) : WindowKept own i a (b.room r need).1 := by
  unfold Dev.room
  split
  · exact h
  · exact liveWr r _ h

/-! ## Runs (R21–R24, R322) -/

theorem noteOverflow (h : WindowKept own i a b) (r : Nat) : WindowKept own i a (b.noteOverflow r) := h.flag _ _ _ (by decide)
theorem closeGap (h : WindowKept own i a b) (j : Nat) : WindowKept own i a (b.closeGap j) := by
  have closed := h.setRun j (f := fun u => { u with gap := none, held := [] }) (fun _ => rfl)
  unfold Dev.closeGap
  cases b.runs.get? j with
  | none => exact h
  | some u =>
    dsimp only
    cases u.ring with
    | none => exact closed
    | some r =>
      have placed := foldl (f := fun d g => d.placeLoss j r u g) (fun _ _ hc => foldl (fun _ _ hd => hd.place _ _ _) _ hc) (u.held ++ u.gap.toList) closed
      exact ite _ ((placed.ringEvent _ _).noteOverflow _) placed
theorem endGap (h : WindowKept own i a b) (j : Nat) : WindowKept own i a (b.endGap j) := by
  unfold Dev.endGap
  cases b.runs.get? j with
  | none => exact h
  | some u => exact ite _ (h.closeGap j) (h.setRun j fun _ => rfl)
theorem lose (h : WindowKept own i a b) {j : Nat} (hj : own → j ≠ i) (n c : Nat) : WindowKept own i a (b.lose j n c) := by
  unfold Dev.lose
  cases b.runs.get? j with
  | none => exact h
  | some u =>
    refine ite _ h ?_
    cases u.gap with
    | none => exact h.setRunOf hj _
    | some g => exact ite _ (h.setRunOf hj _) ((h.endGap j).setRunOf hj _)
theorem takeReserve (h : WindowKept own i a b) (j : Nat) : WindowKept own i a (b.takeReserve j) := by
  unfold Dev.takeReserve
  split
  · split
    · exact ite _ h ((h.setRun j (f := fun u => { u with taken := true }) fun _ => rfl).setRing _ _)
    · exact h
  · exact h
theorem placeContext (h : WindowKept own i a b) (j r tag : Nat) (x : Rec) : WindowKept own i a (b.placeContext j r tag x) :=
  (h.place r tag x).setRun j fun _ => rfl
theorem publishContext (h : WindowKept own i a b) (j : Nat) (x : Rec) : WindowKept own i a (b.publishContext j x) := by
  unfold Dev.publishContext
  cases b.runs.get? j with
  | none => exact h
  | some u =>
    dsimp only
    cases u.ring with
    | none => exact h.inc _ _ _ (by decide)
    | some r =>
      dsimp only
      have merged := ite (u.ctxWait.isSome = true) (h.inc F.GAL_RING_CNT_MISC_CTX_MERGED r 1 (by decide)) h
      have roomed {c : Dev} (hc : WindowKept own i a c) :
          WindowKept own i a (if u.overflowing = true then (c, false) else c.room r (fun d => d.needs r x)).1 := by
        split
        · exact hc
        · exact hc.room _ _
      exact ite _ (((roomed merged).placeContext _ _ _ _).takeReserve _) ((roomed merged).setRun j fun _ => rfl)
theorem startRun (h : WindowKept own i a b) {j : Nat} (hj : own → j ≠ i) (r : Nat) (u : Run) (x : Rec) : WindowKept own i a (b.startRun j r u x) := by
  unfold Dev.startRun
  exact publishContext (ite _ (((h.putRun hj _).setRing _ _).inc _ _ _ (by decide)) (h.putRun hj _)) j x
theorem endRun (h : WindowKept own i a b) {j : Nat} (hj : own → j ≠ i) : WindowKept own i a (b.endRun j) := by
  unfold Dev.endRun
  cases b.runs.get? j with
  | none => exact h
  | some u =>
    refine eraseRun ?_ hj
    cases u.ring with
    | none => exact h.closeGap j
    | some r => exact (((ite _ ((h.closeGap j).inc _ _ _ (by decide)) (h.closeGap j)).setRing _ _).wr _ _ _ (by decide)).noteFill _

end WindowKept

/-! ## The next unit of a run (R22) -/

/-- The head `n` units later. -/
def RunHead.later (h : RunHead) (n : Nat) : RunHead := { h with next := h.next + n }

section
variable {d : Dev} {i : Nat}

theorem Dev.get?_setRun (d : Dev) (i : Nat) (f : Run → Run) : (d.setRun i f).runs.get? i = (d.runs.get? i).map f := by
  unfold Dev.setRun
  split
  next u hu => rw [hu, Tab.get?_put_same, Option.map_some]
  next hn => rw [hn, Option.map_none]
theorem Dev.runHead_some {u : Run} (h : d.runs.get? i = some u) : d.runHead i = some u.head := by
  unfold Dev.runHead
  rw [h, Option.map_some]
theorem Dev.runHead_later_of_setRun {f : Run → Run} {n : Nat} (hf : ∀ u, (f u).head = u.head.later n) :
    (d.setRun i f).runHead i = (d.runHead i).map (·.later n) := by
  unfold Dev.runHead
  rw [Dev.get?_setRun, Option.map_map, Option.map_map]
  exact congrArg (fun g => (d.runs.get? i).map g) (funext hf)
/-- Units lost are units accounted for. -/
theorem Dev.runHead_lose (d : Dev) (i n cause : Nat) : (d.lose i n cause).runHead i = (d.runHead i).map (·.later n) := by
  unfold Dev.lose
  cases hu : d.runs.get? i with
  | none =>
    unfold Dev.runHead
    rw [hu]
    rfl
  | some u =>
    dsimp only
    split
    next hn =>
      rw [hn, Dev.runHead_some hu]
      rfl
    next =>
      cases u.gap with
      | none => exact Dev.runHead_later_of_setRun fun _ => rfl
      | some g =>
        dsimp only
        split
        · exact Dev.runHead_later_of_setRun fun _ => rfl
        · exact (Dev.runHead_later_of_setRun fun _ => rfl).trans (congrArg _ (((WindowKept.refl True i d).endGap i).run trivial))
/-- With no loss ahead of it a run has nothing to settle. -/
theorem Dev.settle_of_no_losses (h : ∀ x, d.runHead i = some x → x.losses = []) : ∀ k, d.settle i k = d
  | 0 => rfl
  | k + 1 => by
    unfold Dev.settle
    cases hu : d.runs.get? i with
    | none => rfl
    | some u =>
      have hnone : u.losses = [] := h _ (Dev.runHead_some hu)
      simp only [hnone]

/-- What a data record of `n` units leaves: the run goes on with the unit after them, and the section's knobs stay. -/
structure Published (i n : Nat) (d e : Dev) : Prop where
  kept : WindowKept False i d e
  run : e.runHead i = (d.runHead i).map (·.later n)

theorem Published.of_kept {n : Nat} {a b c : Dev} (h : WindowKept True i a b) (hp : Published i n b c) : Published i n a c :=
  ⟨h.weaken.trans hp.kept, by rw [hp.run, h.run trivial]⟩
theorem Published.then_kept {n : Nat} {a b c : Dev} (hp : Published i n a b) (h : WindowKept True i b c) : Published i n a c :=
  ⟨hp.kept.trans h.weaken, by rw [h.run trivial, hp.run]⟩
theorem Published.ite {n : Nat} {a x y : Dev} (p : Prop) [Decidable p] (hx : Published i n a x) (hy : Published i n a y) : Published i n a (if p then x else y) := by
  split <;> assumption
theorem Published.lose (d : Dev) (i n cause : Nat) : Published i n d (d.lose i n cause) :=
  ⟨(WindowKept.refl False i d).lose False.elim n cause, d.runHead_lose i n cause⟩
theorem Published.setRun {n : Nat} {f : Run → Run} (hf : ∀ u, (f u).head = u.head.later n) : Published i n d (d.setRun i f) :=
  ⟨(WindowKept.refl False i d).setRunOf False.elim f, Dev.runHead_later_of_setRun hf⟩

/-- A run without losses ahead of it has none after the record either. -/
theorem Published.settle {n : Nat} {e : Dev} {u : Run} (hp : Published i n d e) (hu : d.runs.get? i = some u) (hl : u.losses = []) (k : Nat) :
    Published i n d (e.settle i k) := by
  rw [Dev.settle_of_no_losses]
  · exact hp
  · intro x hx
    rw [hp.run, Dev.runHead_some hu, Option.map_some, Option.some.injEq] at hx
    rw [← hx]
    exact hl
/-- The units that overflowed are counted at the ring of the run, which is one of the galley's. -/
theorem WindowKept.overflowed {own : Prop} {a b : Dev} {r : Nat} (h : WindowKept own i a b) (hr : r < 1024) (k : Nat) :
    WindowKept own i a (b.inc F.GAL_RING_CNT_OVF_OVF_UNITS r 0 k) := by
  refine h.setReg (.inl ?_) _
  show 0x30c000 + r * 0x10 + 0 * 0 < 0x1000000
  omega
theorem Published.publishData {u : Run} (hu : d.runs.get? i = some u) (hl : u.losses = []) (hring : d.runRing i) (x : Rec) (full : Bool) :
    Published i x.count d (d.publishData i x full) := by
  have start := WindowKept.refl True i d
  unfold Dev.publishData
  simp only [hu]
  cases hr : u.ring with
  | none => exact (Published.of_kept (start.inc F.GAL_NOWHERE_COUNT 0 1 (by decide)) (.setRun fun _ => rfl)).settle hu hl _
  | some r =>
    dsimp only
    generalize (fun d : Dev => d.needs r { x with start := u.next } + (72 * u.held.length +
      (if (u.overflowing || u.ctxWait.isSome) = true then 256 else if u.gap.isSome = true then 72 else 0))) = need
    have roomed : WindowKept True i d (if full = true then (d, false) else d.room r need).1 := by
      split
      · exact start
      · exact start.room _ _
    generalize (if full = true then (d, false) else d.room r need) = c at roomed ⊢
    have closed : WindowKept True i d (match u.ctxWait with
        | some y => (c.1.closeGap i).placeContext i r u.tag y
        | none => c.1.closeGap i) := by
      cases u.ctxWait with
      | none => exact roomed.closeGap i
      | some y => exact (roomed.closeGap i).placeContext _ _ _ _
    have told := WindowKept.ite (full = true) ((roomed.inc F.GAL_STONE_FULL_COUNT 0 1 (by decide)).raise 26 29 (by decide)) roomed
    have counted := (Published.of_kept told (.lose _ i x.count 1)).then_kept ((WindowKept.refl True i _).overflowed (hring u r hu hr) x.count)
    refine Published.settle (.ite _ ?_ (.ite _ counted (counted.then_kept (((WindowKept.refl True i _).ringEvent _ _).noteOverflow _)))) hu hl _
    exact (Published.of_kept (closed.placeWith _ _ _ _) (.setRun fun _ => rfl)).then_kept ((WindowKept.refl True i _).takeReserve _)

end

end Machine
end Sys2Proof
end

