-- ==== Sys2Proof/Proofs/FedStreams.lean ====
section
/-! PROOFS. What ends with its source where every source goes on (R89, R142, R174, R258, R425): nothing, but for raw streams whose input number lies past the inputs,
so that records placed in the galley move what their converter reads. Without that condition, no trace begins. -/

namespace Sys2Proof
namespace Machine

/-! ## Entries of a table -/

theorem lookAt_of_mem {α : Type} {p : Nat × α} : ∀ {l : List (Nat × α)}, keysRise l = true → p ∈ l → lookAt p.1 l = some p.2
  | [], _, h => absurd h List.not_mem_nil
  | q :: t, hl, h => by
    simp only [keysRise, Bool.and_eq_true, List.all_eq_true, decide_eq_true_eq] at hl
    unfold lookAt
    rcases List.mem_cons.1 h with rfl | h
    · exact if_pos rfl
    · rw [if_neg (hl.1 p h).ne]
      exact lookAt_of_mem hl.2 h
theorem Tab.get?_of_mem {α : Type} {t : Tab α} {p : Nat × α} (h : p ∈ t.cells) : t.get? p.1 = some p.2 := lookAt_of_mem t.ok h
/-- A fold of steps each of which leaves the state as it is. -/
theorem foldl_fixed {σ α : Type} {f : σ → α → σ} {s : σ} {l : List α} (h : ∀ x ∈ l, f s x = s) : l.foldl f s = s :=
  List.foldlRecOn (motive := fun t => t = s) l f rfl fun _ ht x hx => ht ▸ h x hx

/-! ## Sources that go on -/

/-- Every channel, transform, trace and density display of `d` has a source that goes on, and no capture takes units. -/
structure StreamsFed (d : Dev) : Prop where
  rawcs : d.rawcs.cells = []
  chans : ∀ p ∈ d.chans.cells, 8 ≤ p.2.input ∨ d.delivers p.2.input = true
  xfrms : ∀ p ∈ d.xfrms.cells, d.fed p.2.input p.2.chan = true
  traces : ∀ p ∈ d.traces.cells, d.xfrmRunning p.2.xfrm = true
  denses : ∀ p ∈ d.denses.cells, d.xfrmRunning p.2.xfrm = true
/-- Every raw stream has a converter that delivers. -/
def RawFed (d : Dev) : Prop := ∀ p ∈ d.runs.cells, p.2.kind = .raw → d.delivers p.2.input = true

theorem Dev.fedAll_iff {d : Dev} : d.fedAll = true ↔ StreamsFed d ∧ RawFed d := by
  simp only [Dev.fedAll, Bool.and_eq_true, Bool.or_eq_true, List.all_eq_true, List.isEmpty_iff, decide_eq_true_eq, bne_iff_ne, RawFed]
  constructor
  · rintro ⟨⟨⟨⟨⟨chans, runs⟩, xfrms⟩, rawcs⟩, traces⟩, denses⟩
    exact ⟨⟨rawcs, chans, xfrms, traces, denses⟩, fun p hp hk => (runs p hp).resolve_left (absurd hk)⟩
  · rintro ⟨⟨rawcs, chans, xfrms, traces, denses⟩, runs⟩
    exact ⟨⟨⟨⟨⟨chans, fun p hp => or_iff_not_imp_left.2 fun hk => runs p hp (not_not.1 hk)⟩, xfrms⟩, rawcs⟩, traces⟩, denses⟩

theorem Dev.delivers_congr {a b : Dev} {n : Nat} (h : b.cnvState n = a.cnvState n) : b.delivers n = a.delivers n := by
  unfold Dev.delivers
  rw [h]
/-- Records placed move no converter's state. -/
theorem RecordsOnly.delivers {a b : Dev} (h : RecordsOnly [] a b) {n : Nat} (hn : n < 8) : b.delivers n = a.delivers n :=
  Dev.delivers_congr (h.rd (by decide) hn.le List.not_mem_nil)

theorem StreamsFed.congr {a b : Dev} (h : StreamsFed a) (hcnv : ∀ n, n < 8 → b.delivers n = a.delivers n) (hrawcs : b.rawcs = a.rawcs)
    (hchans : b.chans = a.chans) (hxfrms : b.xfrms = a.xfrms) (htraces : b.traces = a.traces) (hdenses : b.denses = a.denses) : StreamsFed b := by
  have hrunning (n : Nat) : b.xfrmRunning n = a.xfrmRunning n := by unfold Dev.xfrmRunning; rw [hxfrms]
  have hfed (n m : Nat) : b.fed n m = a.fed n m := by
    unfold Dev.fed Dev.chanRunning
    rw [hchans, hrunning]
    split
    next hn => exact hcnv n hn
    next => rfl
  constructor
  · rw [hrawcs]
    exact h.rawcs
  · rw [hchans]
    intro p hp
    by_cases hn : 8 ≤ p.2.input
    · exact .inl hn
    · rw [hcnv _ (by omega)]
      exact h.chans p hp
  · simp only [hxfrms, hfed]
    exact h.xfrms
  · simp only [htraces, hrunning]
    exact h.traces
  · simp only [hdenses, hrunning]
    exact h.denses
theorem StreamsFed.records {a b : Dev} (h : StreamsFed a) (hr : RecordsOnly [] a b) : StreamsFed b := by
  have hcnv (n : Nat) (hn : n < 8) : b.delivers n = a.delivers n := hr.delivers hn
  obtain ⟨_, _, _, _, _, _, _, _, _, _, rfl⟩ := hr.shape
  exact h.congr hcnv rfl rfl rfl rfl rfl

/-! ## What ends -/

/-- A raw stream whose converter does not deliver ends. -/
def Dev.rawStop (d : Dev) (p : Nat × Run) : Dev := if p.2.kind == .raw && !(d.delivers p.2.input) then d.rawcInputStopped p.1 else d
/-- A raw stream without a capture ends with its run (R258). -/
theorem Dev.rawcInputStopped_uncaptured {d : Dev} {j : Nat} (h : d.rawcs.get? j = none) :
    d.rawcInputStopped j = ((((d.endRun j).setKnobBits j 4 0 2 0).setKnobBits j 4 16 8 6)).sectionEvent j 4 := by
  unfold Dev.rawcInputStopped Dev.rawcEnd Dev.rawcSettle Dev.rawcCode
  simp only [h]

theorem Tab.get?_of_no_cells {α : Type} {t : Tab α} (h : t.cells = []) (k : Nat) : t.get? k = none := by
  unfold Tab.get?
  rw [h]
  rfl
theorem RecordsOnly.setKnobBits {a b : Dev} (h : RecordsOnly [] a b) (i off lo len v : Nat) : RecordsOnly [] a (b.setKnobBits i off lo len v) :=
  h.setReg _ _ (.inl (by unfold knobAt; omega))

/-- The raw streams that end leave, of section i without one, its knobs and its run. -/
theorem Dev.rawStop_kept {d b : Dev} {i : Nat} (hrawcs : d.rawcs.cells = []) {p : Nat × Run} (hp : p.2.kind = .raw → p.1 ≠ i)
    (hrec : RecordsOnly [] d b) (hkept : WindowKept True i d b) : RecordsOnly [] d (b.rawStop p) ∧ WindowKept True i d (b.rawStop p) := by
  have huncaptured : b.rawcs.get? p.1 = none := by
    obtain ⟨_, _, _, _, _, _, _, _, _, _, rfl⟩ := hrec.shape
    exact Tab.get?_of_no_cells hrawcs _
  unfold Dev.rawStop
  split
  next hstops =>
    rw [Bool.and_eq_true, beq_iff_eq] at hstops
    have hother := hp hstops.1
    rw [Dev.rawcInputStopped_uncaptured huncaptured]
    exact ⟨(((hrec.endRun _).setKnobBits _ _ _ _ _).setKnobBits _ _ _ _ _).sectionEvent _ _,
      (((hkept.endRun fun _ => hother).setKnobBits hother (by decide) _ _ _).setKnobBits hother (by decide) _ _ _).sectionEvent _ _⟩
  next => exact ⟨hrec, hkept⟩

/-- Where every source goes on, raw streams alone may end. -/
theorem Dev.cascade_of_fed {d : Dev} (h : StreamsFed d) (hrec : RecordsOnly [] d (d.runs.cells.foldl Dev.rawStop d)) :
    d.cascade = d.runs.cells.foldl Dev.rawStop d := by
  have hchans : d.chans.cells.foldl (fun d p => if p.2.input < 8 && !(d.delivers p.2.input) then d.chanInputStopped p.1 else d) d = d := by
    refine foldl_fixed fun p hp => if_neg ?_
    rcases h.chans p hp with hin | hin
    · simp [Nat.not_lt.2 hin]
    · simp [hin]
  have hcascade : d.cascade = (let e := d.runs.cells.foldl Dev.rawStop d
      let e := e.xfrms.cells.foldl (fun d p => if !(d.fed p.2.input p.2.chan) then d.xfrmInputStopped p.1 else d) e
      let e := e.rawcs.cells.foldl (fun d p => if !p.2.ended && !(d.fed p.2.source p.2.feed) then d.rawcInputStopped p.1 else d) e
      let e := e.traces.cells.foldl (fun d p => if d.xfrmRunning p.2.xfrm then d else d.traceSourceStopped p.1) e
      e.denses.cells.foldl (fun d p => if d.xfrmRunning p.2.xfrm then d else d.densSourceStopped p.1) e) := by
    unfold Dev.cascade
    simp only [h.rawcs, List.foldl_nil, hchans]
    rfl
  have hfed := h.records hrec
  rw [hcascade]
  generalize d.runs.cells.foldl Dev.rawStop d = e at hfed
  have hxfrms : e.xfrms.cells.foldl (fun d p => if !(d.fed p.2.input p.2.chan) then d.xfrmInputStopped p.1 else d) e = e :=
    foldl_fixed fun p hp => if_neg (by simp [hfed.xfrms p hp])
  have htraces : e.traces.cells.foldl (fun d p => if d.xfrmRunning p.2.xfrm then d else d.traceSourceStopped p.1) e = e :=
    foldl_fixed fun p hp => if_pos (hfed.traces p hp)
  have hdenses : e.denses.cells.foldl (fun d p => if d.xfrmRunning p.2.xfrm then d else d.densSourceStopped p.1) e = e :=
    foldl_fixed fun p hp => if_pos (hfed.denses p hp)
  simp only [hxfrms, hfed.rawcs, List.foldl_nil, htraces, hdenses]

/-- Where every source goes on, what ends places records, and leaves a section that has no raw stream its knobs and its run. -/
theorem Dev.cascade_kept {d : Dev} (h : StreamsFed d) {i : Nat} (hi : ∀ u, d.runs.get? i = some u → u.kind ≠ .raw) :
    RecordsOnly [] d d.cascade ∧ WindowKept True i d d.cascade := by
  have hstops : RecordsOnly [] d (d.runs.cells.foldl Dev.rawStop d) ∧ WindowKept True i d (d.runs.cells.foldl Dev.rawStop d) := by
    refine List.foldlRecOn (motive := fun b => RecordsOnly [] d b ∧ WindowKept True i d b) _ _ ⟨.refl _ d, .refl _ _ d⟩ fun b hb p hp => ?_
    refine Dev.rawStop_kept h.rawcs (fun hk e => ?_) hb.1 hb.2
    exact hi p.2 (e ▸ Tab.get?_of_mem hp) hk
  rw [Dev.cascade_of_fed h hstops.1]
  exact hstops
/-- Where every source goes on, raw streams among them, nothing ends. -/
theorem Dev.cascade_settled {d : Dev} (h : StreamsFed d) (hraw : RawFed d) : d.cascade = d := by
  have hstops : d.runs.cells.foldl Dev.rawStop d = d := by
    refine foldl_fixed fun p hp => ?_
    unfold Dev.rawStop
    split
    next hk =>
      rw [Bool.and_eq_true, beq_iff_eq] at hk
      simp [hraw p hp hk.1] at hk
    next => rfl
  rw [Dev.cascade_of_fed h (hstops.symm ▸ .refl _ d), hstops]

/-! ## Nothing that ends with its source begins a trace -/

/-- A section without a trace has none in `b` either. -/
def NoTraceBegins (a b : Dev) : Prop := ∀ j, a.traces.get? j = none → b.traces.get? j = none

namespace NoTraceBegins
variable {a b : Dev}

theorem refl (a : Dev) : NoTraceBegins a a := fun _ h => h
theorem same (h : NoTraceBegins a b) {c : Dev} (hc : c.traces = b.traces) : NoTraceBegins a c := fun j hj => hc ▸ h j hj
theorem records (h : NoTraceBegins a b) {c : Dev} (hc : RecordsOnly [] b c) : NoTraceBegins a c := by
  refine h.same ?_
  obtain ⟨_, _, _, _, _, _, _, _, _, _, rfl⟩ := hc.shape
  rfl
theorem ite (p : Prop) [Decidable p] {x y : Dev} (hx : NoTraceBegins a x) (hy : NoTraceBegins a y) : NoTraceBegins a (if p then x else y) := by
  split <;> assumption
theorem foldl {α : Type} {f : Dev → α → Dev} (hf : ∀ (b : Dev) (x : α), NoTraceBegins a b → NoTraceBegins a (f b x)) :
    ∀ (l : List α) {b : Dev}, NoTraceBegins a b → NoTraceBegins a (l.foldl f b)
  | [], _, h => h
  | x :: t, b, h => foldl hf t (hf b x h)
theorem endRun (h : NoTraceBegins a b) (i : Nat) : NoTraceBegins a (b.endRun i) := h.records ((RecordsOnly.refl [] b).endRun i)
theorem sectionEvent (h : NoTraceBegins a b) (i e : Nat) : NoTraceBegins a (b.sectionEvent i e) := h.records ((RecordsOnly.refl [] b).sectionEvent i e)
theorem inc (h : NoTraceBegins a b) (f : Fld) (n k : Nat) : NoTraceBegins a (b.inc f n 0 k) := h.same rfl
theorem setKnob (h : NoTraceBegins a b) (i off v : Nat) : NoTraceBegins a (b.setKnob i off v) := h.same (Dev.setReg_traces b _ _)
theorem setKnobBits (h : NoTraceBegins a b) (i off lo len v : Nat) : NoTraceBegins a (b.setKnobBits i off lo len v) := h.same (Dev.setReg_traces b _ _)
theorem setWideKnob (h : NoTraceBegins a b) (i off v : Nat) : NoTraceBegins a (b.setWideKnob i off v) := h
theorem putChans (h : NoTraceBegins a b) (t : Tab Chan) : NoTraceBegins a { b with chans := t } := h
theorem putRawcs (h : NoTraceBegins a b) (t : Tab Rawc) : NoTraceBegins a { b with rawcs := t } := h
theorem putXfrms (h : NoTraceBegins a b) (t : Tab Xfrm) : NoTraceBegins a { b with xfrms := t } := h
theorem putDenses (h : NoTraceBegins a b) (t : Tab Dens) : NoTraceBegins a { b with denses := t } := h

/-! ### Captures (R242–R258) -/

theorem capPlace (h : NoTraceBegins a b) (i r : Nat) (x : Rec) : NoTraceBegins a (b.capPlace i r x) := by
  unfold Dev.capPlace
  exact ite _ (h.records (((RecordsOnly.refl [] b).place r 0 x).takeReserve i)) (h.inc _ _ _)
theorem capCloseGap (h : NoTraceBegins a b) (i : Nat) (s : Rawc) (c : Capture) : NoTraceBegins a (b.capCloseGap i s c).1 := by
  unfold Dev.capCloseGap
  cases c.gap with
  | none => exact h
  | some g =>
    have placed := foldl (f := fun d l => d.capPlace i s.ring (gapRec (d.capUnits s c l.start) 0 0 0xFFFF l)) (fun _ _ hc => hc.capPlace _ _ _)
      (splitLoss (g.count / (2 ^ 32 - 1)) g) h
    exact ite _ (placed.records ((RecordsOnly.refl [] _).ringEvent _ _)) placed
theorem capLose (h : NoTraceBegins a b) (i : Nat) (s : Rawc) (c : Capture) (n cause : Nat) : NoTraceBegins a (b.capLose i s c n cause).1 := by
  unfold Dev.capLose
  dsimp only
  cases c.gap with
  | none => exact h
  | some g =>
    dsimp only
    split
    · exact h
    · exact h.capCloseGap _ _ _
theorem capWrite (h : NoTraceBegins a b) (i : Nat) (s : Rawc) (c : Capture) (x : Hist) : NoTraceBegins a (b.capWrite i s c x).1 := by
  have counted := (ite (x.stoneFull = true) ((h.inc F.GAL_STONE_FULL_COUNT 0 1).records ((RecordsOnly.refl [] _).raise 26 29 (by decide))) h).inc
    F.GAL_RING_CNT_OVF_OVF_UNITS s.ring x.count
  unfold Dev.capWrite
  dsimp only
  by_cases hcause : x.cause ≠ 0
  · rw [if_pos hcause]
    exact h.capLose _ _ _ _ _
  · rw [if_neg hcause, apply_ite Prod.fst, apply_ite Prod.fst]
    exact ite _ (h.inc _ _ _) (ite _ ((h.capCloseGap _ _ _).capPlace _ _ _) (capLose (ite _ counted (counted.records ((RecordsOnly.refl [] _).ringEvent _ _))) _ _ _ _ _))
theorem setRawc (h : NoTraceBegins a b) (i : Nat) (f : Rawc → Rawc) : NoTraceBegins a (b.setRawc i f) := by
  unfold Dev.setRawc
  split <;> exact h
theorem rawcShow (h : NoTraceBegins a b) (i : Nat) : NoTraceBegins a (b.rawcShow i) := by
  unfold Dev.rawcShow
  split
  · exact h
  · exact (h.setKnobBits _ _ _ _ _).setWideKnob _ _ _
theorem rawcTake (h : NoTraceBegins a b) (i : Nat) (x : Hist) : NoTraceBegins a (b.rawcTake i x) := by
  unfold Dev.rawcTake
  split
  · exact h
  · split
    · exact ((h.capWrite _ _ _ _).setRawc _ _).rawcShow _
    · exact (h.setRawc _ _).rawcShow _
theorem rawcSettle (h : NoTraceBegins a b) (i : Nat) (own : List Loss) : NoTraceBegins a (b.rawcSettle i own) := by
  have lost {c : Dev} (hc : NoTraceBegins a c) (stop cause : Nat) : NoTraceBegins a (c.rawcLose i stop cause) := by
    unfold Dev.rawcLose
    split
    · exact ite _ hc (foldl (fun _ _ hx => (hx.records ((RecordsOnly.refl [] _).setRun _ _)).rawcTake _ _) _ hc)
    · exact hc
  unfold Dev.rawcSettle
  split
  · refine foldl (fun c l hc => ?_) _ h
    split
    · exact ite _ (lost hc _ _) hc
    · exact hc
  · exact h
theorem rawcClose (h : NoTraceBegins a b) (i : Nat) : NoTraceBegins a (b.rawcClose i) := by
  have settled := h.rawcSettle i []
  have closes {c : Dev} (hc : NoTraceBegins a c) (s : Rawc) (x : Capture) : NoTraceBegins a (c.capClose i s x) :=
    ((hc.capCloseGap i s x).capPlace _ _ _).sectionEvent _ _
  unfold Dev.rawcClose
  dsimp only
  generalize b.rawcSettle i [] = c at settled ⊢
  cases c.rawcs.get? i with
  | none => exact settled
  | some s =>
    dsimp only
    generalize hclosed : Dev.rawcShow (Dev.setRawc (List.foldl _ c _) i _) i = e
    have closed : NoTraceBegins a e := hclosed ▸ ((foldl (fun _ _ hc => closes hc _ _) _ settled).setRawc _ _).rawcShow _
    cases e.rawcs.get? i with
    | none => exact closed
    | some x => exact ite _ closed (ite _ (closed.putRawcs _) (ite _ (((putRawcs (closed.endRun i) _).setKnobBits _ _ _ _ _).setKnobBits _ _ _ _ _) closed))
theorem rawcInputStopped (h : NoTraceBegins a b) (i : Nat) : NoTraceBegins a (b.rawcInputStopped i) := by
  have settled := h.rawcSettle i []
  unfold Dev.rawcInputStopped Dev.rawcEnd Dev.rawcCode
  dsimp only
  refine (((endRun ?_ i).setKnobBits _ _ _ _ _).setKnobBits _ _ _ _ _).sectionEvent i 4
  split
  · exact settled
  · exact (settled.setRawc _ _).rawcClose i

/-! ### The other streams -/

theorem chanEnd (h : NoTraceBegins a b) (i code : Nat) : NoTraceBegins a (b.chanEnd i code) := by
  have detached : NoTraceBegins a (b.playDetach i) := by
    unfold Dev.playDetach
    exact ite _ h (h.same rfl)
  exact (((putChans (detached.endRun i) _).setKnobBits i 4 0 2 0).setKnob i 0x84 0).setKnobBits i 4 8 8 code
theorem xfrmEnd (h : NoTraceBegins a b) (i code : Nat) : NoTraceBegins a (b.xfrmEnd i code) :=
  ((putXfrms (h.setWideKnob i 0x50 (b.framesLive i)) _).setKnobBits i 4 0 1 0).setKnobBits i 4 8 8 code
theorem eraseTrace (h : NoTraceBegins a b) (i : Nat) : NoTraceBegins a { b with traces := b.traces.erase i } := by
  intro j hj
  by_cases e : j = i
  · rw [e]
    exact Tab.get?_erase_same _ _
  · exact (Tab.get?_erase_ne _ e).trans (h j hj)
theorem traceEnd (h : NoTraceBegins a b) (i code : Nat) : NoTraceBegins a (b.traceEnd i code) := by
  have erased : NoTraceBegins a { b.endRun i with traces := b.traces.erase i } := (h.eraseTrace i).same rfl
  exact (erased.setKnobBits i 4 0 1 0).setKnobBits i 4 8 8 code
theorem densEnd (h : NoTraceBegins a b) (i code : Nat) : NoTraceBegins a (b.densEnd i code) :=
  ((putDenses (h.endRun i) _).setKnobBits i 4 0 1 0).setKnobBits i 4 8 8 code

theorem cascade (h : NoTraceBegins a b) : NoTraceBegins a b.cascade := by
  have captures := foldl (f := fun d (p : Nat × Rawc) => d.rawcSettle p.1 []) (fun _ _ hc => hc.rawcSettle _ _) b.rawcs.cells h
  unfold Dev.cascade
  refine foldl (fun _ _ hc => ite _ hc ((hc.densEnd _ 7).sectionEvent _ 1)) _ ?_
  refine foldl (fun _ _ hc => ite _ hc ((hc.traceEnd _ 6).sectionEvent _ 1)) _ ?_
  refine foldl (fun _ _ hc => ite _ (hc.rawcInputStopped _) hc) _ ?_
  refine foldl (fun _ _ hc => ite _ ((hc.xfrmEnd _ 6).sectionEvent _ 1) hc) _ ?_
  refine foldl (fun _ _ hc => ite _ (hc.rawcInputStopped _) hc) _ ?_
  exact foldl (fun _ _ hc => ite _ ((hc.chanEnd _ 7).sectionEvent _ 4) hc) _ captures
end NoTraceBegins

end Machine
end Sys2Proof
end

