-- ==== Sys2Proof/Proofs/StandardKnobs.lean ====
section
/-! PROOFS. Knobs of the standard sections: what a written knob reads, and what a command by a knob leaves that answers with a code (spec/02_formes.md, R45, R63, R64). -/

namespace Sys2Proof
namespace Machine

/-! ## Reading a knob after a write -/

theorem knobAt_inj {i a b : Nat} : knobAt i a = knobAt i b ↔ a = b := by unfold knobAt; omega
/-- The windows of two sections share no knob. -/
theorem knobAt_ne_of_section {i j a b : Nat} (h : j ≠ i) (ha : a < 0x20000) (hb : b < 0x20000) : knobAt j a ≠ knobAt i b := by unfold knobAt; omega

section
variable (d : Dev) (i : Nat)

theorem Dev.knob_setKnob_ne {a b : Nat} (h : b ≠ a) (v : Nat) : (d.setKnob i a v).knob i b = d.knob i b :=
  congrArg BitVec.toNat (Dev.reg_setReg_ne d _ fun e => h (knobAt_inj.1 e))
theorem Dev.knob_setKnobBits_ne {a b : Nat} (h : b ≠ a) (lo len v : Nat) : (d.setKnobBits i a lo len v).knob i b = d.knob i b :=
  congrArg BitVec.toNat (Dev.reg_setReg_ne d _ fun e => h (knobAt_inj.1 e))
theorem Dev.knobBits_setKnobBits_same {lo len : Nat} (a v : Nat) (h : lo + len ≤ 32) : (d.setKnobBits i a lo len v).knobBits i a lo len = v % 2 ^ len := by
  show ((d.setKnobBits i a lo len v).reg (knobAt i a)).field lo len = v % 2 ^ len
  unfold Dev.setKnobBits
  rw [Dev.reg_setReg_same, Word.field_setField_same _ _ _ _ h]
theorem Dev.knobBits_setKnobBits_apart {lo len lo' len' : Nat} (a v : Nat) (h : lo + len ≤ 32) (hd : lo + len ≤ lo' ∨ lo' + len' ≤ lo) :
    (d.setKnobBits i a lo len v).knobBits i a lo' len' = d.knobBits i a lo' len' := by
  show ((d.setKnobBits i a lo len v).reg (knobAt i a)).field lo' len' = (d.reg (knobAt i a)).field lo' len'
  unfold Dev.setKnobBits
  rw [Dev.reg_setReg_same, Word.field_setField_ne _ _ h hd]
/-- The status code a section has answered with. -/
theorem Dev.secStatus_coded {c : Nat} (hc : c < 256) : (d.setKnobBits i 4 8 8 c).secStatus i = c :=
  (d.knobBits_setKnobBits_same i 4 c (by decide)).trans (Nat.mod_eq_of_lt hc)
theorem Dev.knob_incKnob_same (a k : Nat) : (d.incKnob i a k).knob i a = min (2 ^ 32 - 1) (d.knob i a + k) := by
  unfold Dev.incKnob
  rw [Dev.knob_setKnob_same]
  exact Nat.mod_eq_of_lt (by omega)
end

/-! ## Frames -/

theorem Frame.setKnobBits {w : List Nat} {a b : Dev} (h : Frame w a b) {i off : Nat} (lo len v : Nat) (ho : knobAt i off ∈ w) :
    Frame w a (b.setKnobBits i off lo len v) := h.setReg _ _ ho

section
variable {w : List Nat} {d c : Dev}

/-- What is noted of a host's write is apart from what it left (R64). -/
theorem KnobFrame.of_frame (h : Frame w d c) (i off v : Nat) : KnobFrame w i off v d (c.noteTurn (knobAt i off) (some v)) := by
  have hcues : c.cues = d.cues := by rw [← h.2]
  have hclk : c.clk = d.clk := by rw [← h.2]
  refine ⟨?_, ?_⟩
  · show Frame w d { c with cues := d.cues }
    rw [← hcues]
    exact h
  · simp only [Noted, Dev.noteTurn, hcues, hclk]

/-- No converter's status word is in the lower part of a knob window's pages, whatever its number. -/
theorem cnvStatus_ne_knobAt {off : Nat} (h : off % 0x1000 ≠ 8) (n i : Nat) : F.CNV_STATUS_STATE.at_ n 0 ≠ knobAt i off := by
  show 0xC0008 + n * 0x1000 + 0 * 0 ≠ 0x1000000 + i * 0x20000 + off
  omega
theorem irqReg_cnvStatus (n : Nat) : irqReg (F.CNV_STATUS_STATE.at_ n 0) = false := by
  show irqReg (0xC0008 + n * 0x1000 + 0 * 0) = false
  rw [irqReg, Bool.eq_false_iff, Ne, Bool.or_eq_true, Bool.and_eq_true, Bool.and_eq_true, Bool.and_eq_true]
  simp only [decide_eq_true_eq]
  omega
/-- Where nothing is due to end, nothing ends of registers that are no converter's status. -/
theorem Frame.cascade_settled (h : Frame w d c) (hw : ∀ n, F.CNV_STATUS_STATE.at_ n 0 ∉ w) (hfed : d.fedAll = true) : c.cascade = c := by
  obtain ⟨hstreams, hraw⟩ := Dev.fedAll_iff.1 hfed
  have hdelivers (n : Nat) : c.delivers n = d.delivers n :=
    Dev.delivers_congr (congrArg (fun x : Word => x.field _ _) (h.1 _ (hw n) (irqReg_cnvStatus n)))
  have honly := h.2
  unfold OnlyRegs at honly
  refine Dev.cascade_settled (hstreams.congr (fun n _ => hdelivers n) ?_ ?_ ?_ ?_ ?_) fun p hp hk => ?_
  iterate 5 rw [← honly]
  rw [hdelivers]
  exact hraw p (OnlyRegs.runs h.2 ▸ hp) hk

/-- A code answered to a command by a knob, from a state `c` that differs from the command's by its knobs alone: nothing ends, and the write is noted. -/
theorem Dev.knobFrame_coded (h : Frame w d c) {i : Nat} (h4 : knobAt i 4 ∈ w) (hw : ∀ n, F.CNV_STATUS_STATE.at_ n 0 ∉ w) (hfed : d.fedAll = true) (off v : Nat)
    {code : Nat} (hcode : code < 256) :
    let e := ((c.setKnobBits i 4 8 8 code).cascade).noteTurn (knobAt i off) (some v)
    e.secStatus i = code ∧ (∀ a, a ≠ 4 → e.knob i a = c.knob i a) ∧ KnobFrame w i off v d e := by
  have hcoded : Frame w d (c.setKnobBits i 4 8 8 code) := h.setKnobBits _ _ _ h4
  intro e
  have he : e = (c.setKnobBits i 4 8 8 code).noteTurn (knobAt i off) (some v) := by
    show Dev.noteTurn _ _ _ = _
    rw [hcoded.cascade_settled hw hfed]
  rw [he]
  exact ⟨c.secStatus_coded i hcode, fun a ha => c.knob_setKnobBits_ne i ha _ _ _, .of_frame hcoded i off v⟩
end

/-! ## A knob write that is taken (R63, R64) -/

section
variable {d : Dev} {i k off v : Nat}

theorem Dev.kind_of_takes (h : d.takes i k off v = true) : d.kind i = k := by
  simp only [Dev.takes, Dev.activeKind, Bool.and_eq_true, beq_iff_eq] at h
  exact h.1.1.2
theorem Dev.knobWrite_taken (h : d.takes i k off v = true) :
    d.knobWrite i off v = (d.knobTake i off v none (if d.cueCame (knobAt i off) then 2 else 1)).noteTurn (knobAt i off) (some v) := by
  simp only [Dev.takes, Dev.activeKind, Bool.and_eq_true, beq_iff_eq, Bool.not_eq_true'] at h
  obtain ⟨⟨⟨hactive, -⟩, hhold⟩, hrow⟩ := h
  unfold Dev.knobWrite
  cases hr : d.knobRow i off with
  | none => simp [hr] at hrow
  | some r =>
    simp only [hr, Bool.and_eq_true, Bool.not_eq_true'] at hrow
    obtain ⟨⟨hro, hacc⟩, hrun⟩ := hrow
    simp [hactive, hhold, hro, hacc, hrun]
end

end Machine
end Sys2Proof
end

