-- ==== Sys2Proof/Proofs/TraceRuns.lean ====
section
/-! PROOFS. What START and STOP of a trace leave (spec/07_transforms.md, R182, R183, R193–R196). -/

namespace Sys2Proof
namespace Machine

/-! ## Changes of a trace, its knobs and its run -/

/-- `b` is `a` but for records placed and for the states of traces. -/
def TracesOnly (a b : Dev) : Prop := RecordsOnly [] a { b with traces := a.traces }

namespace TracesOnly
variable {a b c : Dev}

theorem of_records (h : RecordsOnly [] a b) : TracesOnly a b := by
  obtain ⟨_, _, _, _, _, _, _, _, _, _, rfl⟩ := h.shape
  exact h
theorem refl (a : Dev) : TracesOnly a a := of_records (.refl [] a)
theorem shape (h : TracesOnly a b) : ∃ r z x m q u l i o k t, b =
    { a with regs := r, regs0 := z, wide := x, mem := m, rings := q, runs := u, dram := { a.dram with cached := l }, irq := i, out := o, freeCtr := k,
             traces := t } := by
  obtain ⟨r, z, x, m, q, u, l, i, o, k, e⟩ := RecordsOnly.shape h
  exact ⟨r, z, x, m, q, u, l, i, o, k, b.traces, congrArg (fun y : Dev => { y with traces := b.traces }) e⟩
theorem trans (h1 : TracesOnly a b) (h2 : TracesOnly b c) : TracesOnly a c := by
  refine ⟨fun o hl ho hi => (h2.1 o hl ho hi).trans (h1.1 o hl ho hi), fun k hl hk => (h2.2.1 k hl hk).trans (h1.2.1 k hl hk), ?_⟩
  obtain ⟨_, _, _, _, _, _, _, _, _, _, _, rfl⟩ := h2.shape
  obtain ⟨_, _, _, _, _, _, _, _, _, _, _, rfl⟩ := h1.shape
  rfl
theorem records (h : TracesOnly a b) (hr : RecordsOnly [] b c) : TracesOnly a c := h.trans (of_records hr)
theorem clk (h : TracesOnly a b) : b.clk = a.clk := by obtain ⟨_, _, _, _, _, _, _, _, _, _, _, rfl⟩ := h.shape; rfl
theorem cues (h : TracesOnly a b) : b.cues = a.cues := by obtain ⟨_, _, _, _, _, _, _, _, _, _, _, rfl⟩ := h.shape; rfl
theorem xfrms (h : TracesOnly a b) : b.xfrms = a.xfrms := by obtain ⟨_, _, _, _, _, _, _, _, _, _, _, rfl⟩ := h.shape; rfl

theorem setKnob (h : TracesOnly a b) (i off v : Nat) : TracesOnly a (b.setKnob i off v) :=
  h.records ((RecordsOnly.refl [] b).setReg _ _ (.inl (by unfold knobAt; omega)))
theorem setKnobBits (h : TracesOnly a b) (i off lo len v : Nat) : TracesOnly a (b.setKnobBits i off lo len v) :=
  h.records ((RecordsOnly.refl [] b).setKnobBits _ _ _ _ _)
theorem setWideKnob (h : TracesOnly a b) (i off v : Nat) : TracesOnly a (b.setWideKnob i off v) := by
  refine h.records ⟨fun _ _ _ _ => rfl, fun k hk _ => Tab.get?_put_ne _ _ ?_, rfl⟩
  unfold knobAt
  omega
theorem putTraces (h : TracesOnly a b) (t : Tab Trace) : TracesOnly a { b with traces := t } := h

/-- Where every source goes on it does so after, if every trace has a transform that runs. -/
theorem streamsFed (h : TracesOnly a b) (ha : StreamsFed a) (ht : ∀ p ∈ b.traces.cells, a.xfrmRunning p.2.xfrm = true) : StreamsFed b := by
  obtain ⟨rawcs, chans, xfrms, -, denses⟩ := ha.records h
  refine ⟨rawcs, chans, xfrms, fun p hp => ?_, denses⟩
  unfold Dev.xfrmRunning
  rw [h.xfrms]
  exact ht p hp
/-- The same with the note of a host's write. -/
theorem noted (h : TracesOnly a b) (k v : Nat) : Noted k v a (b.noteTurn k (some v)) ∧
    RecordsOnly [] a { b.noteTurn k (some v) with traces := a.traces, cues := a.cues } := by
  refine ⟨by simp only [Noted, Dev.noteTurn, h.cues, h.clk], ?_⟩
  show RecordsOnly [] a { b with traces := a.traces, cues := a.cues }
  rw [← h.cues]
  exact h
end TracesOnly

theorem RecordsOnly.traces {w : List Nat} {a b : Dev} (h : RecordsOnly w a b) : b.traces = a.traces := by
  obtain ⟨_, _, _, _, _, _, _, _, _, _, rfl⟩ := h.shape
  rfl
/-- A run that begins is the one that was given, whatever its context record met. -/
theorem Dev.runHead_startRun (d : Dev) (i r : Nat) (u : Run) (x : Rec) : (d.startRun i r u x).runHead i = some u.head := by
  unfold Dev.startRun
  refine ((WindowKept.refl True i _).publishContext i x).run trivial |>.trans ?_
  unfold Dev.runHead
  split <;> exact congrArg (Option.map Run.head) (Tab.get?_put_same _ _ _)

/-! ## When the next frame leaves (R178, R179, R183) -/

/-- The frame that leaves next depends on the pipeline that the section shows and on its channel's, beside sources and runs. -/
theorem Dev.frameNow_congr {a b : Dev} {x : Nat} (hinputs : b.inputs = a.inputs) (hclk : b.clk = a.clk) (hchans : b.chans = a.chans) (hxfrms : b.xfrms = a.xfrms)
    (hruns : b.runs = a.runs) (hpaired : ∀ n, n < 8 → b.rd F.CNV_STATUS_PAIRED n = a.rd F.CNV_STATUS_PAIRED n) (hpipe : b.knob x 0x40 = a.knob x 0x40)
    (hdelay : ∀ c, b.knob c 0x68 = a.knob c 0x68) : b.frameNow x = a.frameNow x := by
  have hinput (n : Nat) : b.input n = a.input n := by unfold Dev.input; rw [hinputs]
  have hchan (n : Nat) : b.chan n = a.chan n := by unfold Dev.chan; rw [hchans]
  have hport (n : Nat) (hn : n < 8) : b.portDelay n = a.portDelay n := by unfold Dev.portDelay Dev.lanes Dev.is; rw [hpaired n hn]
  have hunit (c : Nat) (k : Int) : b.unitFrom c k = a.unitFrom c k := by
    unfold Dev.unitFrom
    simp only [hchan, hinput, hclk, hruns, hdelay]
    split
    next hn => rw [hport _ hn]
    next => rfl
  have hxfrm : b.xfrm x = a.xfrm x := by unfold Dev.xfrm; rw [hxfrms]
  unfold Dev.frameNow Dev.frameFrom
  simp only [hxfrm, hinput, hclk, hunit, hpipe]
  split
  next hn => rw [hport _ hn]
  next => rfl

/-! ## START (R183) -/

/-- The knobs that START of a trace reports. -/
def traceKnobRegs (i : Nat) : List Nat := ([4, 0x30, 0x34, 0x38, 0x3C, 0x40, 0x44] : List Nat).map (knobAt i)
/-- A trace that START has bound to transform x, its first frame not known yet, its reports made. -/
def Dev.traceBound (d : Dev) (i x : Nat) : Dev :=
  let d := d.traceNeeds i x
  ({ d with traces := d.traces.put i (d.traceOf i x) } : Dev).traceReport i

theorem knobAt_mem_traceKnobRegs {i a : Nat} : knobAt i a ∈ traceKnobRegs i ↔ a ∈ ([4, 0x30, 0x34, 0x38, 0x3C, 0x40, 0x44] : List Nat) := by
  unfold traceKnobRegs
  rw [List.mem_map]
  exact ⟨fun ⟨b, hb, e⟩ => knobAt_inj.1 e ▸ hb, fun h => ⟨a, h, rfl⟩⟩
theorem cnvStatus_notMem_traceKnobRegs (i n : Nat) : F.CNV_STATUS_STATE.at_ n 0 ∉ traceKnobRegs i := by
  unfold traceKnobRegs
  rw [List.mem_map]
  rintro ⟨a, ha, e⟩
  have hplace : ∀ a ∈ ([4, 0x30, 0x34, 0x38, 0x3C, 0x40, 0x44] : List Nat), a % 0x1000 ≠ 8 := by decide
  exact cnvStatus_ne_knobAt (hplace a ha) n i e.symm

section
variable {d : Dev} {i x : Nat}

theorem Dev.traceStart_running (h : d.traceRunning i = true) : d.traceStart i = d.traceCode i 1 := if_pos h
/-- NEED where START compared it and found too little: a check that fails before or after leaves it. -/
def Dev.traceCompared (d : Dev) (i : Nat) : Dev :=
  match d.boundXfrm i 0 with
  | some x => if d.traceCheck i = 3 then d.traceNeeds i x else d
  | none => d
/-- A check that fails leaves its code, NEED where it was compared. -/
theorem Dev.traceStart_refused (hstopped : d.traceRunning i = false) (hcheck : d.traceCheck i ≠ 0) :
    d.traceStart i = (d.traceCompared i).traceCode i (d.traceCheck i) := by
  unfold Dev.traceStart Dev.traceCompared
  simp only [hstopped, Bool.false_eq_true, if_false]
  cases hx : d.boundXfrm i 0 with
  | none =>
    have hsource : d.traceCheck i = 4 := by
      unfold Dev.traceCheck
      rw [hx]
    rw [hsource]
  | some x => simp only [hcheck, false_or, ne_eq, not_false_eq_true, if_true]
theorem Dev.traceStart_passed (hstopped : d.traceRunning i = false) (hx : d.boundXfrm i 0 = some x) (hcheck : d.traceCheck i = 0) :
    d.traceStart i = if (d.traceBound i x).secState x = 2 then (d.traceBound i x).traceBegin i ((d.traceBound i x).frameNow x) else d.traceBound i x := by
  unfold Dev.traceStart
  simp only [hstopped, hx, hcheck, Bool.false_eq_true, if_false, true_or, if_true, ne_eq, not_true_eq_false]
  unfold Dev.traceBound
  rfl
theorem Dev.traceCheck_lt (d : Dev) (i : Nat) : d.traceCheck i < 256 := by
  unfold Dev.traceCheck
  dsimp only
  split
  · decide
  · split_ifs <;> decide
/-- A passing START is bound to another section, one that runs as a transform. -/
theorem Dev.boundXfrm_kind (h : d.boundXfrm i 0 = some x) : x < 128 ∧ d.kind x = 2 := by
  unfold Dev.boundXfrm at h
  split at h
  · split at h
    next hp => exact Option.some.inj h ▸ hp
    next => cases h
  · cases h
theorem Dev.xfrmRunning_of_traceCheck (hx : d.boundXfrm i 0 = some x) (hcheck : d.traceCheck i = 0) : d.xfrmRunning x = true := by
  by_contra hstopped
  unfold Dev.traceCheck at hcheck
  simp only [hx] at hcheck
  rw [if_pos (by simpa using hstopped)] at hcheck
  exact absurd hcheck (by decide)

/-! What START reports. -/

theorem Dev.reg_traceBound {o : Nat} (h : o ∉ traceKnobRegs i) : (d.traceBound i x).reg o = d.reg o := by
  have hne (a : Nat) (ha : a ∈ ([4, 0x30, 0x34, 0x38, 0x3C, 0x40, 0x44] : List Nat)) : o ≠ knobAt i a := by
    rintro rfl
    exact h (knobAt_mem_traceKnobRegs.2 ha)
  have hknob (b : Dev) (a v : Nat) (ha : a ∈ ([4, 0x30, 0x34, 0x38, 0x3C, 0x40, 0x44] : List Nat)) : (b.setKnob i a v).reg o = b.reg o :=
    Dev.reg_setReg_ne _ _ (hne a ha)
  have hbits (b : Dev) (lo len v : Nat) : (b.setKnobBits i 4 lo len v).reg o = b.reg o := Dev.reg_setReg_ne _ _ (hne 4 (by decide))
  have hwide (b : Dev) (a v : Nat) : (b.setWideKnob i a v).reg o = b.reg o := rfl
  have htraces (b : Dev) (t : Tab Trace) : ({ b with traces := t } : Dev).reg o = b.reg o := rfl
  unfold Dev.traceBound Dev.traceReport Dev.traceCode Dev.traceComposed
  dsimp only
  rw [hbits, hbits, hknob _ 0x44 _ (by decide), hknob _ 0x40 _ (by decide), hknob _ 0x3C _ (by decide), hknob _ 0x34 _ (by decide), hknob _ 0x30 _ (by decide),
    hwide, htraces]
  exact hknob d 0x38 _ (by decide)
theorem Dev.knob_traceBound_cleared : (d.traceBound i x).knob i 0x30 = 0 ∧ (d.traceBound i x).knob i 0x34 = 0 ∧ (d.traceBound i x).wideKnob i 0x28 = 0 := by
  unfold Dev.traceBound Dev.traceReport Dev.traceCode Dev.traceComposed
  dsimp only
  refine ⟨?_, ?_, Tab.getD_put_same _ _ _ _⟩
  · rw [Dev.knob_setKnobBits_ne _ _ (by decide), Dev.knob_setKnobBits_ne _ _ (by decide), Dev.knob_setKnob_ne _ _ (by decide),
      Dev.knob_setKnob_ne _ _ (by decide), Dev.knob_setKnob_ne _ _ (by decide), Dev.knob_setKnob_ne _ _ (by decide), Dev.knob_setKnob_same, Nat.zero_mod]
  · rw [Dev.knob_setKnobBits_ne _ _ (by decide), Dev.knob_setKnobBits_ne _ _ (by decide), Dev.knob_setKnob_ne _ _ (by decide),
      Dev.knob_setKnob_ne _ _ (by decide), Dev.knob_setKnob_ne _ _ (by decide), Dev.knob_setKnob_same, Nat.zero_mod]
theorem Dev.knob_traceBound_status : (d.traceBound i x).knobBits i 4 0 1 = 1 ∧ (d.traceBound i x).secStatus i = 0 := by
  unfold Dev.traceBound Dev.traceReport Dev.traceCode
  dsimp only
  refine ⟨?_, Dev.secStatus_coded _ i (by decide)⟩
  rw [Dev.knobBits_setKnobBits_apart _ _ _ _ (by decide) (by decide), Dev.knobBits_setKnobBits_same _ _ _ _ (by decide),
    Nat.mod_eq_of_lt (by decide)]
theorem Dev.traceOf_needs : (d.traceNeeds i x).traceOf i x = d.traceOf i x := by
  have hknob (a : Nat) (ha : a ≠ 0x38) : (d.traceNeeds i x).knob i a = d.knob i a := Dev.knob_setKnob_ne _ _ ha _
  have hxfrm : (d.traceNeeds i x).xfrm x = d.xfrm x := by
    unfold Dev.xfrm Dev.traceNeeds Dev.setKnob
    rw [Dev.setReg_xfrms]
  unfold Dev.traceOf Dev.knobInt
  simp only [hknob 0x20 (by decide), hknob 0x14 (by decide), hknob 0x18 (by decide), hknob 0x1C (by decide), hxfrm]
theorem Dev.traces_traceBound : (d.traceBound i x).traces = d.traces.put i (d.traceOf i x) := by
  have hknob (b : Dev) (a v : Nat) : (b.setKnob i a v).traces = b.traces := Dev.setReg_traces _ _ _
  have hbits (b : Dev) (a lo len v : Nat) : (b.setKnobBits i a lo len v).traces = b.traces := Dev.setReg_traces _ _ _
  have hwide (b : Dev) (a v : Nat) : (b.setWideKnob i a v).traces = b.traces := rfl
  have hneeds : (d.traceNeeds i x).traces = d.traces := Dev.setReg_traces _ _ _
  unfold Dev.traceBound Dev.traceReport Dev.traceCode Dev.traceComposed
  dsimp only
  rw [hbits, hbits, hknob, hknob, hknob, hknob, hknob, hwide, hneeds, Dev.traceOf_needs]
theorem TracesOnly.traceBound : TracesOnly d (d.traceBound i x) := by
  unfold Dev.traceBound Dev.traceReport Dev.traceCode Dev.traceComposed
  dsimp only
  refine TracesOnly.setKnobBits (.setKnobBits (.setKnob (.setKnob (.setKnob (.setKnob (.setKnob (.setWideKnob (.putTraces ?_ _) _ _ _) _ _ _) _ _ _) _ _ _) _ _ _)
    _ _ _) _ _ _ _ _) _ _ _ _ _
  exact (TracesOnly.refl d).setKnob _ _ _
end

end Machine
end Sys2Proof
end

