-- ==== Sys2Proof/Proofs/TraceBegins.lean ====
section
/-! PROOFS. The run of a trace that START has bound begins, with what else ends on that clock (spec/07_transforms.md, R178, R183). -/

namespace Sys2Proof
namespace Machine

/-! ## Reports leave what the first frame is read from -/

/-- `b` is `a` but for registers, 64-bit values and the states of traces. -/
def ReportsOnly (a b : Dev) : Prop := ∃ r w t, b = { a with regs := r, wide := w, traces := t }

namespace ReportsOnly
variable {a b : Dev}

theorem setKnob (h : ReportsOnly a b) (i off v : Nat) : ReportsOnly a (b.setKnob i off v) := by
  obtain ⟨_, _, _, rfl⟩ := h
  exact ⟨_, _, _, rfl⟩
theorem setKnobBits (h : ReportsOnly a b) (i off lo len v : Nat) : ReportsOnly a (b.setKnobBits i off lo len v) := by
  obtain ⟨_, _, _, rfl⟩ := h
  exact ⟨_, _, _, rfl⟩
theorem setWideKnob (h : ReportsOnly a b) (i off v : Nat) : ReportsOnly a (b.setWideKnob i off v) := by
  obtain ⟨_, _, _, rfl⟩ := h
  exact ⟨_, _, _, rfl⟩
theorem putTraces (h : ReportsOnly a b) (t : Tab Trace) : ReportsOnly a { b with traces := t } := by
  obtain ⟨_, _, _, rfl⟩ := h
  exact ⟨_, _, _, rfl⟩
end ReportsOnly

theorem ReportsOnly.traceBound (d : Dev) (i x : Nat) : ReportsOnly d (d.traceBound i x) := by
  have hneeds : ReportsOnly d (d.traceNeeds i x) := setKnob ⟨d.regs, d.wide, d.traces, rfl⟩ _ _ _
  unfold Dev.traceBound Dev.traceReport Dev.traceCode Dev.traceComposed
  dsimp only
  exact ((((((((hneeds.putTraces _).setWideKnob _ _ _).setKnob _ _ _).setKnob _ _ _).setKnob _ _ _).setKnob _ _ _).setKnob _ _ _).setKnobBits _ _ _ _ _).setKnobBits
    _ _ _ _ _

section
variable {d : Dev} {i x : Nat}

/-- What else START reads shows the same in the state with its reports. -/
theorem Dev.frameNow_traceBound (hne : x ≠ i) : (d.traceBound i x).frameNow x = d.frameNow x := by
  have hreg {o : Nat} (ho : o ∉ traceKnobRegs i) : (d.traceBound i x).reg o = d.reg o := Dev.reg_traceBound ho
  have hother {a : Nat} (ha : a < 0x20000) : knobAt x a ∉ traceKnobRegs i := by
    unfold traceKnobRegs
    rw [List.mem_map]
    rintro ⟨b, hb, e⟩
    have hlow : ∀ b ∈ ([4, 0x30, 0x34, 0x38, 0x3C, 0x40, 0x44] : List Nat), b < 0x20000 := by decide
    exact knobAt_ne_of_section hne ha (hlow b hb) e.symm
  have hdelay (c : Nat) : (d.traceBound i x).knob c 0x68 = d.knob c 0x68 := by
    refine congrArg BitVec.toNat (hreg ?_)
    unfold traceKnobRegs
    rw [List.mem_map]
    rintro ⟨b, hb, e⟩
    have hlow : ∀ b ∈ ([4, 0x30, 0x34, 0x38, 0x3C, 0x40, 0x44] : List Nat), b < 0x68 := by decide
    have := hlow b hb
    unfold knobAt at e
    omega
  have hpaired (n : Nat) (_ : n < 8) : (d.traceBound i x).rd F.CNV_STATUS_PAIRED n = d.rd F.CNV_STATUS_PAIRED n :=
    congrArg (fun w : Word => w.field _ _) (hreg (cnvStatus_notMem_traceKnobRegs i n))
  have hpipe : (d.traceBound i x).knob x 0x40 = d.knob x 0x40 := congrArg BitVec.toNat (hreg (hother (by decide)))
  obtain ⟨r, w, t, e⟩ := ReportsOnly.traceBound d i x
  exact Dev.frameNow_congr (by rw [e]) (by rw [e]) (by rw [e]) (by rw [e]) (by rw [e]) hpaired hpipe hdelay
theorem Dev.secState_traceBound (hx : x < 128) : (d.traceBound i x).secState x = d.secState x := by
  refine congrArg (fun w : Word => w.field _ _) (Dev.reg_traceBound fun h => ?_)
  unfold traceKnobRegs at h
  obtain ⟨a, -, e⟩ := List.mem_map.1 h
  exact knobAt_ne (secReg_lt F.FMR_SEC_STATE_STATE (by decide) (by decide) hx) i a e

/-! ## The run begins -/

/-- A trace's run that begins. -/
theorem Dev.startRun_holds (d : Dev) (i r : Nat) (t : Tab Trace) (u : Run) (c : Rec) :
    let e := ({ d with traces := t, runs := d.runs.put i u } : Dev).startRun i r u c
    TracesOnly d e ∧ WindowKept False i d e ∧ e.traces = t ∧ e.runHead i = some u.head := by
  have hrec : RecordsOnly [] { d with traces := t } (({ d with traces := t, runs := d.runs.put i u } : Dev).startRun i r u c) :=
    RecordsOnly.startRun (RecordsOnly.runs (.refl [] { d with traces := t }) (d.runs.put i u)) i r u c
  have hput : WindowKept False i d { d with traces := t, runs := d.runs.put i u } :=
    ((WindowKept.refl False i d).putRun False.elim u).other rfl rfl rfl
  exact ⟨((TracesOnly.refl d).putTraces t).records hrec, hput.startRun False.elim r u c, hrec.traces, Dev.runHead_startRun _ _ _ _ _⟩

theorem Dev.traceBegin_holds (d : Dev) (i f : Nat) :
    let e := d.traceBegin i f
    TracesOnly d e ∧ WindowKept False i d e ∧ e.traces = d.traces.put i { d.trace i with f0 := f } ∧
      e.runHead i = some ⟨.trace, (d.xfrm (d.trace i).xfrm).source, 0, []⟩ := by
  unfold Dev.traceBegin
  exact Dev.startRun_holds d i _ _ _ _

/-- What START whose checks pass leaves of trace i, over transform x. -/
structure TraceBegun (d : Dev) (i x : Nat) (e : Dev) : Prop where
  only : TracesOnly d e
  kept : WindowKept False i (d.traceBound i x) e
  trace : ∃ f, e.traces.get? i = some { d.traceOf i x with f0 := f } ∧ (d.secState x = 2 → f = d.frameNow x)
  others : ∀ j, j ≠ i → e.traces.get? j = d.traces.get? j
  run : d.secState x = 2 → e.runHead i = some ⟨.trace, (d.xfrm x).source, 0, []⟩
  waits : d.secState x ≠ 2 → e.runs = d.runs

/-- A trace put in place of the one of section i, over a transform that runs, leaves every trace with a transform that runs. -/
theorem tracesFed_put {a : Dev} {l : List (Nat × Trace)} (ha : ∀ p ∈ l, a.xfrmRunning p.2.xfrm = true) {t : Trace} (ht : a.xfrmRunning t.xfrm = true) :
    ∀ p ∈ insertAt i t l, a.xfrmRunning p.2.xfrm = true := by
  intro p hp
  rcases mem_insertAt hp with rfl | hp
  · exact ht
  · exact ha p hp

/-- Nothing else ends on the clock of a START that waits for its transform. -/
theorem Dev.cascade_traceBound (hfed : d.fedAll = true) (hx : d.xfrmRunning x = true) : (d.traceBound i x).cascade = d.traceBound i x := by
  obtain ⟨hstreams, hraw⟩ := Dev.fedAll_iff.1 hfed
  refine Dev.cascade_settled (TracesOnly.traceBound.streamsFed hstreams ?_) fun p hp hk => ?_
  · rw [Dev.traces_traceBound]
    exact tracesFed_put hstreams.traces hx
  · have hdelivers : (d.traceBound i x).delivers p.2.input = d.delivers p.2.input :=
      Dev.delivers_congr (congrArg (fun w : Word => w.field _ _) (Dev.reg_traceBound (cnvStatus_notMem_traceKnobRegs i _)))
    have hruns : (d.traceBound i x).runs = d.runs := by
      obtain ⟨_, _, _, e⟩ := ReportsOnly.traceBound d i x
      rw [e]
    rw [hdelivers]
    exact hraw p (hruns ▸ hp) hk

theorem Dev.traceStart_begun (hstopped : d.traceRunning i = false) (hx : d.boundXfrm i 0 = some x) (hcheck : d.traceCheck i = 0) (hkind : d.kind i = 3)
    (hfed : d.fedAll = true) : TraceBegun d i x (d.traceStart i).cascade := by
  obtain ⟨hx128, hxkind⟩ := Dev.boundXfrm_kind hx
  have hrunning := Dev.xfrmRunning_of_traceCheck hx hcheck
  have hne : x ≠ i := by
    rintro rfl
    omega
  have hput : (d.traceBound i x).traces.get? i = some (d.traceOf i x) := by
    rw [Dev.traces_traceBound, Tab.get?_put_same]
  have hputs (j : Nat) (hj : j ≠ i) : (d.traceBound i x).traces.get? j = d.traces.get? j := by
    rw [Dev.traces_traceBound, Tab.get?_put_ne _ _ hj]
  have honly : TracesOnly d (d.traceBound i x) := .traceBound
  rw [Dev.traceStart_passed hstopped hx hcheck, Dev.secState_traceBound hx128, Dev.frameNow_traceBound hne]
  by_cases hactive : d.secState x = 2
  · rw [if_pos hactive]
    have htrace : (d.traceBound i x).trace i = d.traceOf i x := by
      unfold Dev.trace Tab.getD
      rw [hput]
      rfl
    have hsource : ((d.traceBound i x).xfrm x).source = (d.xfrm x).source := by
      unfold Dev.xfrm
      rw [honly.xfrms]
    obtain ⟨hbegun, hkept, htraces, hrun⟩ := (d.traceBound i x).traceBegin_holds i (d.frameNow x)
    rw [htrace] at htraces hrun
    have hrun : ((d.traceBound i x).traceBegin i (d.frameNow x)).runHead i = some ⟨.trace, (d.xfrm x).source, 0, []⟩ := hsource ▸ hrun
    generalize (d.traceBound i x).traceBegin i (d.frameNow x) = e at hbegun hkept htraces hrun
    have honly' : TracesOnly d e := honly.trans hbegun
    have hstreams := (Dev.fedAll_iff.1 hfed).1
    have hfed' : StreamsFed e := by
      refine honly'.streamsFed hstreams ?_
      rw [htraces, Dev.traces_traceBound]
      exact tracesFed_put (tracesFed_put hstreams.traces hrunning) hrunning
    obtain ⟨hrec, hkept'⟩ := Dev.cascade_kept hfed' (i := i) fun u hu hk => by
      rw [Dev.runHead_some hu] at hrun
      have : u.kind = .trace := congrArg RunHead.kind (Option.some.inj hrun)
      rw [this] at hk
      cases hk
    exact {
      only := honly'.records hrec
      kept := hkept.trans hkept'.weaken
      trace := ⟨d.frameNow x, by rw [hrec.traces, htraces, Tab.get?_put_same], fun _ => rfl⟩
      others := fun j hj => by rw [hrec.traces, htraces, Tab.get?_put_ne _ _ hj, hputs j hj]
      run := fun _ => (hkept'.run trivial).trans hrun
      waits := fun h => absurd hactive h }
  · rw [if_neg hactive, Dev.cascade_traceBound hfed hrunning]
    exact {
      only := honly
      kept := .refl _ _ _
      trace := ⟨0, hput, fun h => absurd h hactive⟩
      others := hputs
      run := fun h => absurd h hactive
      waits := fun _ => by
        obtain ⟨_, _, _, e⟩ := ReportsOnly.traceBound d i x
        rw [e] }
end

end Machine
end Sys2Proof
end

