-- ==== Sys2Proof/Proofs/TraceCommands.lean ====
section
/-! PROOFS. START and STOP of a trace by the host (spec/07_transforms.md, R182, R183). -/

namespace Sys2Proof
namespace Machine

section
variable {d : Dev} {i : Nat}

/-! ## The write of CMD -/

theorem Dev.knobWrite_trace {v : Nat} (h : d.takes i 3 0 v = true) : d.knobWrite i 0 v = ((d.traceWrite i 0 v).cascade).noteTurn (knobAt i 0) (some v) := by
  rw [Dev.knobWrite_taken h]
  unfold Dev.knobTake
  simp only [Dev.kind_of_takes h]
theorem Dev.knobWrite_traceStart (h : d.takes i 3 0 1 = true) : d.knobWrite i 0 1 = ((d.traceStart i).cascade).noteTurn (knobAt i 0) (some 1) := Dev.knobWrite_trace h
theorem Dev.knobWrite_traceStop (h : d.takes i 3 0 2 = true) : d.knobWrite i 0 2 = ((d.traceStop i).cascade).noteTurn (knobAt i 0) (some 2) := Dev.knobWrite_trace h

/-! ## START that passes -/

namespace TraceBegun
variable {x : Nat} {e : Dev}

/-- Its knobs show a trace that runs, with nothing counted. -/
theorem shows (h : TraceBegun d i x e) : e.secStatus i = 0 ∧ e.knobBits i 4 0 1 = 1 ∧ e.knob i 0x30 = 0 ∧ e.knob i 0x34 = 0 ∧ e.wideKnob i 0x28 = 0 := by
  obtain ⟨hmissed, hshort, hcount⟩ := d.knob_traceBound_cleared (i := i) (x := x)
  obtain ⟨hstate, hcode⟩ := d.knob_traceBound_status (i := i) (x := x)
  have hcode' : e.secStatus i = (d.traceBound i x).secStatus i := h.kept.knobBits (by decide) (by decide) 8 8
  exact ⟨hcode'.trans hcode, (h.kept.knobBits (by decide) (by decide) 0 1).trans hstate, (h.kept.knob (by decide) (by decide)).trans hmissed,
    (h.kept.knob (by decide) (by decide)).trans hshort, (h.kept.wideKnob (by decide) (by decide)).trans hcount⟩
/-- The trace is the one that the knobs name, its first frame the next that leaves an ACTIVE transform. -/
theorem bound (h : TraceBegun d i x e) : e.traceRunning i = true ∧ (e.trace i).xfrm = x ∧ (e.trace i).points = d.knob i 0x18 ∧ (e.trace i).frames = d.knob i 0x14 ∧
    (d.secState x = 2 → (e.trace i).f0 = d.frameNow x) := by
  obtain ⟨f, hget, hf⟩ := h.trace
  have htrace : e.trace i = { d.traceOf i x with f0 := f } := by
    unfold Dev.trace Tab.getD
    rw [hget]
    rfl
  rw [htrace]
  refine ⟨?_, rfl, rfl, rfl, hf⟩
  unfold Dev.traceRunning
  rw [hget]
  rfl
/-- While the transform is ACTIVE the run has begun with its unit 0. -/
theorem runs (h : TraceBegun d i x e) (hactive : d.secState x = 2) :
    (e.runs.get? i).isSome = true ∧ ∀ u, e.runs.get? i = some u → u.next = 0 ∧ u.source = (d.xfrm x).source := by
  have hrun := h.run hactive
  refine ⟨?_, fun u hu => ?_⟩
  · unfold Dev.runHead at hrun
    cases hget : e.runs.get? i with
    | none => simp [hget] at hrun
    | some u => rfl
  · have hhead : u.head = ⟨.trace, (d.xfrm x).source, 0, []⟩ := Option.some.inj ((Dev.runHead_some hu).symm.trans hrun)
    exact ⟨congrArg RunHead.next hhead, congrArg RunHead.source hhead⟩
end TraceBegun

/-! ## START that is refused -/

theorem packTrace_lt (x : Nat × Nat × Nat × Nat) : packTrace x < 2 ^ 32 := by
  unfold packTrace
  omega
theorem Dev.knob_traceNeeds {x : Nat} : (d.traceNeeds i x).knob i 0x38 =
    packTrace (traceNeed (d.xfrm x).bins (d.knob i 0xC) (d.knobBits i 0x10 0 1) (d.knob i 0x18) ((d.knob i 0x24).testBit 0)) := by
  unfold Dev.traceNeeds
  rw [Dev.knob_setKnob_same, Nat.mod_eq_of_lt (packTrace_lt _)]
theorem Dev.traceCompared_of_ne (h : d.traceCheck i ≠ 3) : d.traceCompared i = d := by
  unfold Dev.traceCompared
  split
  · exact if_neg h
  · rfl
theorem Dev.traceCompared_of_eq {x : Nat} (hx : d.boundXfrm i 0 = some x) (h : d.traceCheck i = 3) : d.traceCompared i = d.traceNeeds i x := by
  unfold Dev.traceCompared
  rw [hx]
  exact if_pos h
theorem Frame.traceCompared (d : Dev) (i : Nat) : Frame [knobAt i 4, knobAt i 0x38] d (d.traceCompared i) := by
  unfold Dev.traceCompared
  split
  · split
    · exact (Frame.refl _ d).setReg _ _ (by simp)
    · exact .refl _ d
  · exact .refl _ d
/-- No converter's status word is among knobs of the first page. -/
theorem cnvStatus_notMem_knobs {l : List Nat} (hl : ∀ a ∈ l, a % 0x1000 ≠ 8) (n : Nat) : F.CNV_STATUS_STATE.at_ n 0 ∉ l.map (knobAt i) := by
  rw [List.mem_map]
  rintro ⟨a, ha, e⟩
  exact cnvStatus_ne_knobAt (hl a ha) n i e.symm

/-- A START that a check refuses shows its code, and NEED where it was compared. -/
theorem Dev.traceStart_refused_shows (htakes : d.takes i 3 0 1 = true) (hstopped : d.traceRunning i = false) (hcheck : d.traceCheck i ≠ 0) (hfed : d.fedAll = true) :
    let e := d.knobWrite i 0 1
    e.secStatus i = d.traceCheck i ∧ e.knob i 0x38 = (d.traceCompared i).knob i 0x38 ∧ KnobFrame [knobAt i 4, knobAt i 0x38] i 0 1 d e := by
  intro e
  have he : e = (((d.traceCompared i).setKnobBits i 4 8 8 (d.traceCheck i)).cascade).noteTurn (knobAt i 0) (some 1) := by
    show d.knobWrite i 0 1 = _
    rw [Dev.knobWrite_traceStart htakes, Dev.traceStart_refused hstopped hcheck]
    rfl
  have hapart (n : Nat) : F.CNV_STATUS_STATE.at_ n 0 ∉ [knobAt i 4, knobAt i 0x38] := cnvStatus_notMem_knobs (l := [4, 0x38]) (by decide) n
  obtain ⟨hcode, hknobs, hframe⟩ := Dev.knobFrame_coded (Frame.traceCompared d i) (List.mem_cons_self ..) hapart hfed 0 1 (d.traceCheck_lt i)
  rw [he]
  exact ⟨hcode, hknobs 0x38 (by decide), hframe⟩
/-- A command that is not for the state of the trace shows STATE. -/
theorem Dev.traceState_shows {c : Dev} {v : Nat} (hc : c = d.traceCode i 1) (hfed : d.fedAll = true) :
    (c.cascade.noteTurn (knobAt i 0) (some v)).secStatus i = 1 ∧ KnobFrame [knobAt i 4] i 0 v d (c.cascade.noteTurn (knobAt i 0) (some v)) := by
  subst hc
  obtain ⟨hcode, -, hframe⟩ :=
    Dev.knobFrame_coded (Frame.refl [knobAt i 4] d) (List.mem_singleton_self _) (cnvStatus_notMem_knobs (l := [4]) (by decide)) hfed 0 v (code := 1) (by decide)
  exact ⟨hcode, hframe⟩

/-! ## STOP -/

theorem Dev.traces_traceEnd (c : Nat) : (d.traceEnd i c).traces = d.traces.erase i := by
  unfold Dev.traceEnd Dev.traceCode Dev.setKnobBits
  rw [Dev.setReg_traces, Dev.setReg_traces]
theorem Dev.runs_traceEnd (c : Nat) : (d.traceEnd i c).runs.get? i = none := by
  unfold Dev.traceEnd Dev.traceCode Dev.setKnobBits
  rw [Dev.setReg_runs, Dev.setReg_runs]
  exact d.runs_endRun i
theorem TracesOnly.traceEnd (d : Dev) (i c : Nat) : TracesOnly d (d.traceEnd i c) :=
  ((((TracesOnly.refl d).records ((RecordsOnly.refl [] d).endRun i)).putTraces _).setKnobBits _ _ _ _ _).setKnobBits _ _ _ _ _
theorem Dev.knobBits_traceEnd : (d.traceEnd i 0).knobBits i 4 0 1 = 0 ∧ (d.traceEnd i 0).secStatus i = 0 := by
  unfold Dev.traceEnd Dev.traceCode
  refine ⟨?_, Dev.secStatus_coded _ i (by decide)⟩
  rw [Dev.knobBits_setKnobBits_apart _ _ _ _ (by decide) (by decide), Dev.knobBits_setKnobBits_same _ _ _ _ (by decide), Nat.zero_mod]

/-- Whatever ends with it, a trace that ended has none and no run. -/
theorem Dev.cascade_traceEnd (c : Nat) : (d.traceEnd i c).cascade.traceRunning i = false ∧ (d.traceEnd i c).cascade.runs.get? i = none := by
  have htrace : (d.traceEnd i c).cascade.traces.get? i = none := by
    refine (NoTraceBegins.refl _).cascade i ?_
    rw [Dev.traces_traceEnd, Tab.get?_erase_same]
  refine ⟨?_, (SecKept.refl False _).cascade.runs not_false i (Dev.runs_traceEnd c)⟩
  unfold Dev.traceRunning
  rw [htrace]
  rfl
/-- Where every source goes on, STOP leaves every other trace, and shows its own stopped. -/
theorem Dev.traceEnd_alone (hfed : d.fedAll = true) :
    let e := (d.traceEnd i 0).cascade
    TracesOnly d e ∧ e.knobBits i 4 0 1 = 0 ∧ e.secStatus i = 0 ∧ ∀ j, j ≠ i → e.traces.get? j = d.traces.get? j := by
  have hstreams := (Dev.fedAll_iff.1 hfed).1
  have honly := TracesOnly.traceEnd d i 0
  have hfed' : StreamsFed (d.traceEnd i 0) := by
    refine honly.streamsFed hstreams fun p hp => hstreams.traces p ?_
    rw [Dev.traces_traceEnd] at hp
    exact mem_eraseAt hp
  obtain ⟨hrec, hkept⟩ := Dev.cascade_kept hfed' (i := i) fun u hu => by
    rw [Dev.runs_traceEnd] at hu
    cases hu
  obtain ⟨hstate, hcode⟩ := d.knobBits_traceEnd (i := i)
  have hcode' : (d.traceEnd i 0).cascade.secStatus i = (d.traceEnd i 0).secStatus i := hkept.knobBits (by decide) (by decide) 8 8
  refine ⟨honly.records hrec, (hkept.knobBits (by decide) (by decide) 0 1).trans hstate, hcode'.trans hcode, fun j hj => ?_⟩
  rw [hrec.traces, Dev.traces_traceEnd, Tab.get?_erase_ne _ hj]
end

end Machine
end Sys2Proof
end

