-- ==== Sys2Proof/Proofs/TraceIntervals.lean ====
section
/-! PROOFS. The interval of a trace ends (spec/07_transforms.md, R183–R191): settles O24. -/

namespace Sys2Proof
namespace Machine

section
variable {d : Dev} {i n : Nat} {codes : List (BitVec 12)} {u : Run}

/-- The input of a transform is judged already where it is a converter, or a channel that is ACTIVE. -/
theorem Dev.judge_fed {x : Nat} (h : (d.xfrm x).input < 8 ∨ d.secState (d.xfrm x).chan = 2) : d.judge x = d := if_pos h

/-! ## Intervals that do not end here -/

theorem Dev.traceComplete_stopped (h : d.traceRunning i = false) : d.traceComplete i n codes = d := by
  unfold Dev.traceComplete
  rw [h, Bool.and_false]
  rfl
theorem Dev.traceComplete_elsewhere (hfed : (d.xfrm (d.trace i).xfrm).input < 8 ∨ d.secState (d.xfrm (d.trace i).xfrm).chan = 2)
    (hu : d.runs.get? i = some u) (hnext : u.next ≠ n * (d.trace i).points) : d.traceComplete i n codes = d := by
  unfold Dev.traceComplete
  simp only [Dev.judge_fed hfed, hu, if_pos hnext, ite_self]

/-! ## An interval without a used frame -/

/-- A trace is lost, and counted. -/
def Dev.traceLost (d : Dev) (i cause : Nat) : Dev := ((d.lose i (d.trace i).points cause).incKnob i 0x30).sectionEvent i 0

/-- The interval of trace n ends: the trace RUNNING and ACTIVE, its run at the first point of trace n, the transform's input judged. -/
structure IntervalEnds (d : Dev) (i n : Nat) (u : Run) : Prop where
  active : d.activeKind i 3 = true
  running : d.traceRunning i = true
  fed : (d.xfrm (d.trace i).xfrm).input < 8 ∨ d.secState (d.xfrm (d.trace i).xfrm).chan = 2
  run : d.runs.get? i = some u
  next : u.next = n * (d.trace i).points

/-- The first frame of trace n. -/
def Dev.traceFrame (d : Dev) (i n : Nat) : Nat := (d.trace i).f0 + n * (d.trace i).frames

theorem IntervalEnds.lost (h : IntervalEnds d i n u) (hunused : ∀ k, k < (d.trace i).frames → d.frameCause (d.trace i).xfrm (d.traceFrame i n + k) ≠ 0) :
    d.traceComplete i n codes = d.traceLost i (d.firstCause (d.trace i).xfrm (d.traceFrame i n) (d.trace i).frames) := by
  obtain ⟨hactive, hrunning, hfed, hu, hnext⟩ := h
  have hall : (List.range (d.trace i).frames).all (fun k => d.frameCause (d.trace i).xfrm (d.traceFrame i n + k) != 0) = true := by
    simpa only [List.all_eq_true, List.mem_range, bne_iff_ne] using hunused
  unfold Dev.traceFrame at hall
  unfold Dev.traceComplete
  simp only [hactive, hrunning, Dev.judge_fed hfed, hu, hnext, hall, Bool.and_self, Bool.not_true, Bool.false_eq_true, if_false, if_true, ne_eq, not_true_eq_false]
  rfl
/-- A run `k` units later in its head has its next unit `k` later. -/
theorem next_of_runHead {e : Dev} {k : Nat} (hhead : e.runHead i = (d.runHead i).map (·.later k)) (hu : d.runs.get? i = some u) :
    ∀ v, e.runs.get? i = some v → v.next = u.next + k := by
  intro v hv
  rw [Dev.runHead_some hv, Dev.runHead_some hu] at hhead
  exact congrArg RunHead.next (Option.some.inj hhead)
theorem RecordsOnly.incKnob {a b : Dev} (h : RecordsOnly [] a b) (i off k : Nat) : RecordsOnly [] a (b.incKnob i off k) :=
  h.setReg _ _ (.inl (by unfold knobAt; omega))

/-- A loss of the trace's points, counted as one trace. -/
theorem Dev.traceLost_shows (hu : d.runs.get? i = some u) (cause : Nat) :
    let e := d.traceLost i cause
    (∀ v, e.runs.get? i = some v → v.next = u.next + (d.trace i).points) ∧ e.knob i 0x30 = min (2 ^ 32 - 1) (d.knob i 0x30 + 1) ∧
      e.wideKnob i 0x28 = d.wideKnob i 0x28 ∧ RecordsOnly [] d e := by
  have hlost := Published.lose d i (d.trace i).points cause
  have hrec : RecordsOnly [] d (d.lose i (d.trace i).points cause) := (RecordsOnly.refl [] d).lose i _ _
  unfold Dev.traceLost
  generalize d.lose i (d.trace i).points cause = b at hlost hrec
  have hevent : WindowKept True i (b.incKnob i 0x30) ((b.incKnob i 0x30).sectionEvent i 0) := (WindowKept.refl True i _).sectionEvent i 0
  have hwide : (b.incKnob i 0x30).wideKnob i 0x28 = b.wideKnob i 0x28 := congrArg (fun t => Tab.getD t _ 0) (Dev.setReg_wide _ _ _)
  have hruns : (b.incKnob i 0x30).runHead i = b.runHead i := congrArg (fun t => (Tab.get? t i).map Run.head) (Dev.setReg_runs _ _ _)
  refine ⟨next_of_runHead (((hevent.run trivial).trans hruns).trans hlost.run) hu, ?_, ?_, (hrec.incKnob _ _ _).sectionEvent _ _⟩
  · rw [hevent.knob (by decide) (by decide), Dev.knob_incKnob_same, hlost.kept.knob (by decide) (by decide)]
  · rw [hevent.wideKnob (by decide) (by decide), hwide, hlost.kept.wideKnob (by decide) (by decide)]

/-! ## An interval with a used frame -/

/-- A complete trace is published and counted, and counted as reduced where not all of its frames were used. -/
def Dev.tracePublished (d : Dev) (i : Nat) (t : Tab Trace) (r : Rec) (used : Nat) : Dev :=
  let e := (({ d with traces := t } : Dev).publishData i r false).setWideKnob i 0x28 (d.wideKnob i 0x28 + 1)
  if used < (d.trace i).frames then e.incKnob i 0x34 else e

theorem Dev.count_withAxisOf (d : Dev) (i : Nat) (x : Rec) : (d.withAxisOf i x).count = x.count := by
  unfold Dev.withAxisOf
  split <;> rfl
theorem IntervalEnds.published (h : IntervalEnds d i n u) {k : Nat} (hk : k < (d.trace i).frames) (hcause : d.frameCause (d.trace i).xfrm (d.traceFrame i n + k) = 0)
    {used : List UsedFrame} (hused : d.usedFrames (d.trace i).xfrm (d.traceFrame i n) (d.trace i).frames codes = some used) :
    ∃ t r, r.count = (d.trace i).points ∧ (∀ j, j ≠ i → t.get? j = d.traces.get? j) ∧ d.traceComplete i n codes = d.tracePublished i t r used.length := by
  obtain ⟨hactive, hrunning, hfed, hu, hnext⟩ := h
  have hall : (List.range (d.trace i).frames).all (fun k => d.frameCause (d.trace i).xfrm (d.traceFrame i n + k) != 0) = false := by
    rw [List.all_eq_false]
    exact ⟨k, List.mem_range.2 hk, by simp [hcause]⟩
  unfold Dev.traceFrame at hall hused
  unfold Dev.traceComplete
  simp only [hactive, hrunning, Dev.judge_fed hfed, hu, hnext, hall, hused, Bool.and_self, Bool.not_true, Bool.false_eq_true, if_false, ne_eq, not_true_eq_false]
  by_cases hmode : d.knobBits i 0x10 0 1 = 1
  · simp only [if_pos hmode]
    exact ⟨d.traces.put i _, _, Dev.count_withAxisOf _ _ _, fun j hj => Tab.get?_put_ne _ _ hj, rfl⟩
  · simp only [if_neg hmode]
    exact ⟨d.traces, _, Dev.count_withAxisOf _ _ _, fun _ _ => rfl, rfl⟩

/-- The run goes on by the points of the trace, and its knobs count it. -/
theorem Dev.tracePublished_shows (hu : d.runs.get? i = some u) (hlosses : u.losses = []) (hring : d.runRing i) {t : Tab Trace} {r : Rec}
    (ht : ∀ j, j ≠ i → t.get? j = d.traces.get? j) (used : Nat) :
    let e := d.tracePublished i t r used
    (∀ v, e.runs.get? i = some v → v.next = u.next + r.count) ∧ e.wideKnob i 0x28 = (d.wideKnob i 0x28 + 1) % 2 ^ 64 ∧ e.knob i 0x30 = d.knob i 0x30 ∧
      (used < (d.trace i).frames → e.knob i 0x34 = min (2 ^ 32 - 1) (d.knob i 0x34 + 1)) ∧ (∀ j, j ≠ i → e.traces.get? j = d.traces.get? j) ∧
      RecordsOnly [] d { e with traces := d.traces } := by
  unfold Dev.tracePublished
  generalize ha : ({ d with traces := t } : Dev) = a
  have hput : TracesOnly d a := ha ▸ (TracesOnly.refl d).putTraces t
  have hkept : WindowKept True i d a := ha ▸ (WindowKept.refl True i d).other rfl rfl rfl
  have hruns : a.runs = d.runs := ha ▸ rfl
  have htraces : a.traces = t := ha ▸ rfl
  have hplaced : Published i r.count d (a.publishData i r false) :=
    .of_kept hkept (.publishData (hruns ▸ hu) hlosses (by unfold Dev.runRing; rw [hruns]; exact hring) r false)
  have hrec : RecordsOnly [] a (a.publishData i r false) := (RecordsOnly.refl [] a).publishData i r false
  have honly : TracesOnly d (a.publishData i r false) := hput.records hrec
  have htraces : (a.publishData i r false).traces = t := hrec.traces.trans htraces
  generalize a.publishData i r false = b at hplaced honly htraces
  have hmissed : b.knob i 0x30 = d.knob i 0x30 := hplaced.kept.knob (by decide) (by decide)
  have hshort : b.knob i 0x34 = d.knob i 0x34 := hplaced.kept.knob (by decide) (by decide)
  have hrun : ∀ v, b.runs.get? i = some v → v.next = u.next + r.count := next_of_runHead hplaced.run hu
  generalize hc : b.setWideKnob i 0x28 (d.wideKnob i 0x28 + 1) = c
  have hcount : c.wideKnob i 0x28 = (d.wideKnob i 0x28 + 1) % 2 ^ 64 := hc ▸ Tab.getD_put_same _ _ _ _
  have honly' : TracesOnly d c := hc ▸ honly.setWideKnob i 0x28 _
  have hknob (a : Nat) : c.knob i a = b.knob i a := hc ▸ rfl
  have hruns : c.runs = b.runs := hc ▸ rfl
  have htraces' : c.traces = t := hc ▸ htraces
  dsimp only
  split
  next hless =>
    have hinc : (c.incKnob i 0x34).traces = c.traces := Dev.setReg_traces _ _ _
    have hwide : (c.incKnob i 0x34).wideKnob i 0x28 = c.wideKnob i 0x28 := congrArg (fun t => Tab.getD t _ 0) (Dev.setReg_wide _ _ _)
    have hinc' : (c.incKnob i 0x34).runs = c.runs := Dev.setReg_runs _ _ _
    refine ⟨(hinc'.trans hruns) ▸ hrun, hwide.trans hcount, ?_, fun _ => ?_, fun j hj => ?_, honly'.setKnob _ _ _⟩
    · exact (Dev.knob_setKnob_ne _ _ (by decide) _).trans ((hknob _).trans hmissed)
    · rw [Dev.knob_incKnob_same, hknob, hshort]
    · rw [hinc, htraces', ht j hj]
  next hall =>
    exact ⟨hruns ▸ hrun, hcount, (hknob _).trans hmissed, fun h => absurd h hall, fun j hj => htraces' ▸ ht j hj, honly'⟩
end

/-! ## The commands of the host -/

section
variable {s : State} {i : Fin 128} {P : Dev → Prop}

theorem exec_traceStart (i : Fin 128) (s : State) : exec (.traceStart i) s = host (knobAt i 0) (fun d => if d.kind i = 3 then d.knobWrite i 0 1 else d) s := rfl
theorem exec_traceStop (i : Fin 128) (s : State) : exec (.traceStop i) s = host (knobAt i 0) (fun d => if d.kind i = 3 then d.knobWrite i 0 2 else d) s := rfl
theorem exec_traceComplete (i : Fin 128) (n : Nat) (codes : List (BitVec 12)) (s : State) :
    exec (.traceComplete i n codes) s = lift (fun d => d.traceComplete i n codes) s := rfl
theorem completes_traceStart (hrun : InRun s) (htakes : s.dev.takes i 3 0 1 = true) (h : P (s.dev.knobWrite i 0 1)) : Completes (.traceStart i) s P := by
  refine completes_host (exec_traceStart i s) hrun ?_
  rw [if_pos (Dev.kind_of_takes htakes)]
  exact h
theorem completes_traceStop (hrun : InRun s) (htakes : s.dev.takes i 3 0 2 = true) (h : P (s.dev.knobWrite i 0 2)) : Completes (.traceStop i) s P := by
  refine completes_host (exec_traceStop i s) hrun ?_
  rw [if_pos (Dev.kind_of_takes htakes)]
  exact h
theorem completes_traceComplete {n : Nat} {codes : List (BitVec 12)} (h : P (s.dev.traceComplete i n codes)) : Completes (.traceComplete i n codes) s P :=
  completes_lift (exec_traceComplete i n codes s) h
end

/-- Settles O24: START, STOP and the end of an interval each leave the trace, its knobs and its run as stated, placing records apart. -/
theorem traceCommandsComplete : Obligations.TraceCommandsComplete := by
  unfold Obligations.TraceCommandsComplete
  refine ⟨fun s => ⟨fun i n codes => exec_traceComplete i n codes s, fun hrun =>
    ⟨fun i => (exec_host_run (exec_traceStart i s) hrun :), fun i => (exec_host_run (exec_traceStop i s) hrun :)⟩⟩,
    fun s i => ⟨?starts, ?refused, ?running, ?stops, ?stopped, ?lost, ?published, ?elsewhere, ?none⟩⟩
  case starts =>
    intro x hrun htakes hstopped hx hcheck hfed
    refine completes_traceStart hrun htakes ?_
    have hbegun := Dev.traceStart_begun hstopped hx hcheck (Dev.kind_of_takes htakes) hfed
    rw [Dev.knobWrite_traceStart htakes]
    generalize (s.dev.traceStart i).cascade = e at hbegun
    obtain ⟨hnoted, honly⟩ := hbegun.only.noted (knobAt i 0) 1
    obtain ⟨hcode, hstate, hmissed, hshort, hcount⟩ := hbegun.shows
    obtain ⟨hrunning, hxfrm, hpoints, hframes, hfirst⟩ := hbegun.bound
    exact ⟨hrunning, hcode, hstate, hmissed, hshort, hcount, hxfrm, hpoints, hframes, fun hactive => ⟨hfirst hactive, hbegun.runs hactive⟩, hbegun.waits,
      hbegun.others, hnoted, honly⟩
  case refused =>
    intro hrun htakes hstopped hcheck hfed
    obtain ⟨hcode, hneed, hframe⟩ := Dev.traceStart_refused_shows htakes hstopped hcheck hfed
    refine completes_traceStart hrun htakes ⟨hcode, fun hne => ?_, fun x hx hbudget => ?_, hframe⟩
    · rw [hneed, Dev.traceCompared_of_ne hne]
    · rw [hneed, Dev.traceCompared_of_eq hx hbudget, Dev.knob_traceNeeds]
  case running =>
    intro hrun htakes hrunning hfed
    refine completes_traceStart hrun htakes ?_
    rw [Dev.knobWrite_traceStart htakes]
    exact Dev.traceState_shows (Dev.traceStart_running hrunning) hfed
  case stops =>
    intro hrun htakes hrunning _
    have hends : s.dev.traceStop i = s.dev.traceEnd i 0 := if_pos hrunning
    refine completes_traceStop hrun htakes ?_
    rw [Dev.knobWrite_traceStop htakes, hends]
    have hended := s.dev.cascade_traceEnd (i := i) 0
    have halone := fun hfed => s.dev.traceEnd_alone (i := i) hfed
    generalize (s.dev.traceEnd i 0).cascade = e at hended halone
    refine ⟨hended.1, hended.2, fun hfed => ?_⟩
    obtain ⟨honly, hstate, hcode, hothers⟩ := halone hfed
    obtain ⟨hnoted, honly⟩ := honly.noted (knobAt i 0) 2
    exact ⟨hstate, hcode, hothers, hnoted, honly⟩
  case stopped =>
    intro hrun htakes hstopped hfed
    refine completes_traceStop hrun htakes ?_
    rw [Dev.knobWrite_traceStop htakes]
    exact Dev.traceState_shows (if_neg (by simp [hstopped])) hfed
  case lost =>
    rintro n codes u x hactive hrunning hu - - rfl hinput hnext hunused
    refine completes_traceComplete ?_
    rw [IntervalEnds.lost ⟨hactive, hrunning, hinput, hu, hnext⟩ hunused]
    exact Dev.traceLost_shows hu _
  case published =>
    rintro n codes u x used hactive hrunning hu hlosses hring rfl hinput hnext ⟨k, hk, hcause⟩ hused
    refine completes_traceComplete ?_
    obtain ⟨t, r, hcount, ht, he⟩ := IntervalEnds.published ⟨hactive, hrunning, hinput, hu, hnext⟩ hk hcause hused
    rw [he, ← hcount]
    exact Dev.tracePublished_shows hu hlosses hring ht _
  case elsewhere =>
    rintro n codes u x hu hnext rfl hinput
    exact completes_traceComplete (Dev.traceComplete_elsewhere hinput hu hnext)
  case none =>
    intro n codes hstopped
    exact completes_traceComplete (Dev.traceComplete_stopped hstopped)

end Machine
end Sys2Proof
end
